-- ==== Sys2Proof/Word.lean ====
section
/-! DEFINITION. The word types of the LY-960 model and nothing else: bytes, byte strings, and the two
sparse containers every structured piece of state is kept in. -/

namespace Sys2Proof

/-- One byte. -/
abbrev Byte := BitVec 8

/-- A string of bytes in address order (byte 0 first). -/
abbrev Bytes := List Byte

/-- A 32-bit register value. -/
abbrev Word32 := BitVec 32

/-- A 64-bit register value. -/
abbrev Word64 := BitVec 64

/-- A sparse table: key and value pairs, keys strictly rising.  What an unlisted key holds is said where the
table is used (`Tbl.get` takes it as an argument). -/
abbrev Tbl (α : Type) := List (Nat × α)

/-- A sparse memory: addresses strictly rising. -/
abbrev Mem := List Host.Cell

end Sys2Proof
end

