-- ==== Sys2Proof/Syntax.lean ====
section
/-! DEFINITION. The commands of the block: one constructor of `Instr` for every row of spec/opcode_table.json, in
the table's order, with the row's operands, and the plain records those operands are made of. -/

namespace Sys2Proof

/-- What the ECC logic finds in a word or sector it reads (R136, R137): an outside physical event, so an operand. -/
inductive Ecc where
  | clean
  | corrected
  | uncorrectable
  deriving DecidableEq, Repr

/-- The three host-to-device CXL.cache snoops the device honours (R181). -/
inductive Snoop where
  | snpData
  | snpInv
  | snpCur
  deriving DecidableEq, Repr

/-- A message as it is delivered to its engine (R292): the envelope's fields, the 32-byte header and the body.
`tagOk` is the outcome of the AES-256-GCM tag check (R305), computed by the named primitive. -/
structure Msg where
  port   : Fin 34
  dst    : BitVec 16
  src    : BitVec 16
  jobid  : BitVec 32
  enc    : Bool
  resent : Bool
  oseq   : BitVec 16
  stream : BitVec 16
  fseq   : BitVec 32
  nframe : BitVec 32
  nctr   : BitVec 48
  hdr    : Bytes
  body   : Bytes
  tagOk  : Bool
  deriving DecidableEq, Repr

/-- A 256-byte flit as it arrives, before the FEC (R289, R290). -/
structure FlitIn where
  bytes : Bytes
  deriving DecidableEq, Repr

/-- The findings of the march tests of Dawn stage 5 (R430 to R432). -/
structure MarchFindings where
  /-- Defective Operand Store banks not named in OSBAD, per physical tile entry of R428. -/
  osBad    : List (Nat × List Nat)
  /-- Physical tile entries with a defective Accumulator File bank or sequencer memory. -/
  afBad    : List Nat
  /-- Defective row cache banks per compute die. -/
  rcBad0   : List Nat
  rcBad1   : List Nat
  /-- Ports whose link engine memory is defective. -/
  portBad  : List Nat
  /-- A defective fabric SRAM bank, walker memory, program store or management core memory. -/
  fatal    : Bool
  deriving DecidableEq, Repr

/-- The findings of Dawn stage 6 (R434): cores out of service after three attempts. -/
structure FirmwareFindings where
  tileBad   : List Nat
  walkerBad : Bool
  portBad   : List Nat
  deriving DecidableEq, Repr

/-- One port after Dawn stage 7 (R435): training outcome, plane reported by the switch and the four lane codes. -/
structure PortFinding where
  port    : Fin 34
  trained : Bool
  plane   : Nat
  lockOk  : BitVec 4
  ber     : BitVec 32
  tfail   : Nat
  deriving DecidableEq, Repr

/-- The commands of the block.  The comment above each group names the chapter of spec/ its rows come from. -/
inductive Instr where
  -- 01_frame_clock.md
  | tick (port : Fin 34) (arr : Int) (crcOk : Bool) (payload : Bytes)
  | tickGatherEnd
  | tickMissed
  | selfTick
  | freerunFrameStart
  | lostFrameStart
  | acquireTimeout
  | chunkAdmit (unit : Fin 56)
  | maintenanceSliceStart
  | protectedReserveStart
  | dlyResp (port : Fin 34) (t4 : BitVec 64) (payload : Bytes)
  -- 03_matrix_tiles.md and 04_vector_chains.md: (tile, stream: 0 to 2 the sequencers, 3 a deferred block, the word)
  | nop (t : Fin 8) (s : Fin 4) (w : BitVec 128)
  | cbnd (t : Fin 8) (s : Fin 4) (w : BitVec 128)
  | tileEnd (t : Fin 8) (s : Fin 4) (w : BitVec 128)
  | jmp (t : Fin 8) (s : Fin 4) (w : BitVec 128)
  | setc (t : Fin 8) (s : Fin 4) (w : BitVec 128)
  | aset (t : Fin 8) (s : Fin 4) (w : BitVec 128)
  | ainc (t : Fin 8) (s : Fin 4) (w : BitVec 128)
  | rbset (t : Fin 8) (s : Fin 4) (w : BitVec 128)
  | rbinc (t : Fin 8) (s : Fin 4) (w : BitVec 128)
  | wload (t : Fin 8) (s : Fin 4) (w : BitVec 128)
  | mma (t : Fin 8) (s : Fin 4) (w : BitVec 128)
  | mclose (t : Fin 8) (s : Fin 4) (w : BitVec 128)
  | chain (t : Fin 8) (s : Fin 4) (w : BitVec 128)
  | uprog (t : Fin 8) (s : Fin 4) (w : BitVec 128)
  | dma (t : Fin 8) (s : Fin 4) (w : BitVec 128)
  | lmark (t : Fin 8) (s : Fin 4) (w : BitVec 128)
  | defer (t : Fin 8) (s : Fin 4) (w : BitVec 128)
  | dmaComplete (t : Fin 8) (i : Nat)
  | swap (t : Fin 8)
  | deferredBlockStart (t : Fin 8)
  | lookaheadDmaIssue (t : Fin 8) (s : Fin 3) (w : BitVec 128)
  | chainRetire (t : Fin 8)
  -- 05_memory_stacks.md
  | memRead (src : Nat) (pa : BitVec 40) (n : Nat) (ecc : List Ecc)
  | memWrite (src : Nat) (pa : BitVec 40) (data : Bytes) (mask : List Bool) (poison : Bool) (ecc : List Ecc)
  | memAdd (src : Nat) (pa : BitVec 40) (addend : Bytes) (fmt : Nat) (mask : BitVec 16) (ecc : Ecc)
  | ceWriteback (chan : Fin 2048)
  | tagRefresh (chan : Fin 2048)
  | patrolScrub (chan : Fin 2048) (ecc : Ecc)
  | retrainStep (chan : Fin 2048) (ok : Bool)
  | stackTempSample (stk : Fin 8) (temp : BitVec 8)
  | dawnChannelRefresh (chan : Fin 2048)
  | workWindowEnd
  | channelGroupDrawReturn (group : Fin 64) (adder : Bool)
  -- 06_unified_range.md
  | map (q : Fin 128)
  | unmap (q : Fin 128)
  | htierAdd (q : Fin 128)
  | htierRemove (q : Fin 128)
  | handback (q : Fin 128)
  | adopt (q : Fin 128)
  | stampAdvance
  | touch (chan : Nat) (sub : Nat)
  | handVisit
  | migrationStart (up : Bool) (job : Fin 64) (vpn : Nat)
  | migrationSubblockCopied (up : Bool)
  | migrationSourceFreed (up : Bool)
  | hostLineResponse (job : Fin 64) (va : BitVec 48) (write : Bool) (data : Bytes) (mask : List Bool) (poison : Bool)
  | cxlSnoop (kind : Snoop) (line : Nat)
  | lineEngineDrawReturn
  -- 07_embedding_tables.md
  | tblCreate (q : Fin 128)
  | tblStage (q : Fin 128)
  | tblPublish (q : Fin 128)
  | tblDestroy (q : Fin 128)
  | publish (m : Msg)
  | pubReply (m : Msg)
  | hotWindowEnd
  | replRow (m : Msg)
  | replEnd (m : Msg)
  | replDrop (m : Msg)
  | repair (m : Msg)
  | digestSample
  | refreshEngineDrawReturn
  -- 08_lookup_and_update.md: (walker, the 32-bit word)
  | walkNop (k : Fin 2048) (w : BitVec 32)
  | add (k : Fin 2048) (w : BitVec 32)
  | sub (k : Fin 2048) (w : BitVec 32)
  | and (k : Fin 2048) (w : BitVec 32)
  | or (k : Fin 2048) (w : BitVec 32)
  | xor (k : Fin 2048) (w : BitVec 32)
  | shl (k : Fin 2048) (w : BitVec 32)
  | shr (k : Fin 2048) (w : BitVec 32)
  | sra (k : Fin 2048) (w : BitVec 32)
  | mul (k : Fin 2048) (w : BitVec 32)
  | mulhu (k : Fin 2048) (w : BitVec 32)
  | slt (k : Fin 2048) (w : BitVec 32)
  | sltu (k : Fin 2048) (w : BitVec 32)
  | lui (k : Fin 2048) (w : BitVec 32)
  | ld (k : Fin 2048) (w : BitVec 32)
  | st (k : Fin 2048) (w : BitVec 32)
  | beq (k : Fin 2048) (w : BitVec 32)
  | bne (k : Fin 2048) (w : BitVec 32)
  | blt (k : Fin 2048) (w : BitVec 32)
  | bltu (k : Fin 2048) (w : BitVec 32)
  | jal (k : Fin 2048) (w : BitVec 32)
  | jr (k : Fin 2048) (w : BitVec 32)
  | walkEnd (k : Fin 2048) (w : BitVec 32)
  | walkCbnd (k : Fin 2048) (w : BitVec 32)
  | csr (k : Fin 2048) (w : BitVec 32)
  | xfer (k : Fin 2048) (w : BitVec 32)
  | xwait (k : Fin 2048) (w : BitVec 32)
  | sbset (k : Fin 2048) (w : BitVec 32)
  | lksend (k : Fin 2048) (w : BitVec 32)
  | upsend (k : Fin 2048) (w : BitVec 32)
  | hwait (k : Fin 2048) (w : BitVec 32)
  | upclose (k : Fin 2048) (w : BitVec 32)
  | xferComplete (k : Fin 2048)
  | lksendResume (k : Fin 2048)
  | lookupReq (m : Msg)
  | flowPooled (entry : Fin 4096)
  | gatherRelease (entry : Fin 4096)
  | lookupReply (m : Msg)
  | flowEnd (m : Msg)
  | flowRetry (entry : Fin 4096)
  | flowTimeout (entry : Fin 4096)
  | updReq (m : Msg)
  | mergeDone (entry : Fin 4096)
  | updClose (m : Msg)
  | updateBatch (job : Fin 64) (tid : Fin 4096) (die : Fin 2)
  | nojob (m : Msg)
  | tableEngineDrawReturn (unit : Fin 6)
  -- 09_dense_training.md
  | denseCreate (q : Fin 128)
  | lmarkDelivered (job : Fin 64) (layer : BitVec 16)
  | denseStepStart (job : Fin 64) (layer : BitVec 16)
  | slotStart (slot : Fin 64)
  | rsData (m : Msg)
  | xcredit (m : Msg)
  | verdictExchangeStart (job : Fin 64) (layer : BitVec 16)
  | verdict (m : Msg)
  | densePieceAdmit (job : Fin 64) (layer : BitVec 16)
  | agData (m : Msg)
  | segFetch (m : Msg)
  | segFetchTimeout (job : Fin 64) (layer : BitVec 16) (shard : Nat) (seg : Nat)
  | collectiveStall (job : Fin 64) (layer : BitVec 16)
  | reductionDrawReturn (unit : Fin 3)
  -- 10_zorben_fabric.md
  | trainingStepDone (port : Fin 34) (lanes : BitVec 4)
  | trainingStepTimeout (port : Fin 34)
  | linkHello (port : Fin 34) (payload : Bytes)
  | flit (port : Fin 34) (f : FlitIn)
  | messageReassemblyTimeout (port : Fin 34) (vc : Fin 5)
  | unreach (port : Fin 34) (payload : Bytes)
  | reachMarkExpiry (dst : BitVec 16) (plane : Fin 32)
  | transmitStoreRelease (id : Nat)
  | linkLeaveService (port : Fin 34) (cause : Nat)
  | laneLockLoss (port : Fin 34) (lane : Fin 4)
  /-- The rate is the device's own count (R314), so `ber` carries nothing. -/
  | linkCensusEval (port : Fin 34) (ber : Unit)
  | linkTxDrawReturn (link : Fin 32)
  | bulkWr (m : Msg)
  | bulkRdreq (m : Msg)
  | bulkRddata (m : Msg)
  | bulkAck (m : Msg)
  -- 11_host_port.md
  | pcieLinkTrained (width : BitVec 4) (rate : BitVec 4) (flit : Bool) (cache : Bool)
  | pcieConfigRequest
  | bar0BadAccess (off : Nat) (size : Nat) (write : Bool)
  | bar2Read (off : Nat) (n : Nat)
  | intakeWrite (off : BitVec 28) (data : Bytes) (enables : List Bool)
  | hostDb (q : Fin 128) (v : Word32)
  | validationReread (q : Fin 128)
  | hostQcfgWrite (wide : Bool) (high : Bool) (v : Word64)
  | hostCrhead (q : Fin 128) (v : Word32)
  | completionFlushDone (q : Fin 128)
  | msixModerationTimer (q : Fin 128)
  | jobAdmit (q : Fin 128)
  | jobEnd (q : Fin 128)
  | ctxSwitch (q : Fin 128)
  | suspend (q : Fin 128)
  | resume (q : Fin 128)
  | cancel (q : Fin 128)
  | dataIn (q : Fin 128)
  | copy (q : Fin 128)
  -- 16_state_export.md
  | exportSet (q : Fin 128)
  | keepRegion (q : Fin 128)
  | exportBase (q : Fin 128)
  | restore (q : Fin 128)
  | rankMove (q : Fin 128)
  | dlxRec (m : Msg)
  | dlxClose (m : Msg)
  | dlxAck (m : Msg)
  | keeperTimeout (job : Fin 64) (keeper : Fin 2)
  | dlxKhead (wide : Bool) (high : Bool) (v : Word64)
  | exporterDrawReturn
  -- 17_faults.md (self-test), 11_host_port.md (TILE_RUN, WALK)
  | selftest (q : Fin 128)
  | selftestStep (failed : Bool) (addr : BitVec 64)
  | tileRun (q : Fin 128)
  | walk (q : Fin 128)
  -- 13_power_and_ledger.md
  | pwrState (q : Fin 128)
  | pwrLimits (q : Fin 128)
  | duskEnd
  | nightVoltageSettled
  | nightVoltageTimeout
  | wakeVoltageSettled (ok : Bool)
  | wakeComplete
  | ledgerGrant
  | thermalSample (die0 : BitVec 8) (die1 : BitVec 8) (fabric : BitVec 8)
  | thermalShutdown
  | pmbusPoll (rail : Fin 8) (ok : Bool) (vout : BitVec 16) (iout : BitVec 16) (temp : BitVec 8)
  -- 14_security.md
  | attest (q : Fin 128)
  | sessionOpen (q : Fin 128)
  | keyRegister (q : Fin 128)
  | presRequest (q : Fin 128)
  | presenceQualified
  | presenceTimeout
  | debugLock (q : Fin 128)
  | certInstall (q : Fin 128)
  | bekReady
  | sealSample (b : Bool)
  | joinReq (m : Msg)
  | joinAck (m : Msg)
  | joinTimeout (job : Fin 64)
  | dbgRead
  | dbgWrite
  | dbgHalt
  | dbgRun
  | dbgStep
  -- 15_dawn.md and 18_package_and_ratings.md
  | powerGood
  | dawnBootVerify
  | dawnIdentity
  | dawnManifest
  | dawnStackTraining (failed : List (Nat × Nat))
  | dawnSramMarch (f : MarchFindings)
  | dawnFirmware (f : FirmwareFindings)
  | dawnLinkCensus (ports : List PortFinding)
  | dawnTickLock
  | dawnOutcome
  | dawnStageLimit
  | pwrgoodFall
  | resetN (ns : Nat)
  | perstN (ns : Nat)
  -- 12_check_units.md
  | chkStart (u : Fin 144)
  | chkClose (u : Fin 144)
  | chkArst (u : Fin 144)
  | chkDin8 (u : Fin 144) (v : Word32)
  | chkDin16 (u : Fin 144) (v : Word32)
  | chkDin32 (u : Fin 144) (v : Word32)
  | chkDin64 (u : Fin 144) (v : Word64)
  | chkAlive (u : Fin 144) (v : Word32)
  -- 17_faults.md and 00_scope.md
  | fltRcfg (v : Word32)
  | fltRhead (v : Word32)
  | regReadClear (off : Nat) (wide : Bool)
  | regReadLowHalf (off : Nat)
  | registerWrite (off : Nat) (wide : Bool) (v : Word64)
  -- 18_package_and_ratings.md: the I3C sideband
  | i3cPrivateRead (n : Nat)
  | i3cPrivateWrite (data : Bytes)
  | setdasa (addr : BitVec 7)
  | entdaa (addr : BitVec 7)
  | rstdaa
  | getpid
  | getbcr
  | getdcr
  | getstatus
  | enec
  | disec
  -- later rows of the table
  | passEnd (t : Fin 8)
  | presenceNChange (low : Bool)
  | vddAonRemoved
  | coreFailed (block : Fin 17) (core : Fin 5)
  | ledgerFault
  | pllLock
  deriving DecidableEq, Repr

end Sys2Proof
end

