-- ==== Sys2Proof/Decode.lean ====
section
/-! DEFINITION. The reading of table words.  spec/opcode_table.json gives no row any bits: no word spells a command. -/

namespace Sys2Proof

/-- The command a word of `nbits` bits spells by the table's bits: none, since the table gives no row bits. -/
def decodeTableWord (nbits w : Nat) : Option Instr :=
  match nbits, w with
  | _, _ => none

end Sys2Proof
end

