-- ==== Sys2Proof/Config.lean ====
section
/-! DEFINITION. What one device fixes or the spec leaves open: named cryptographic primitives whose algorithms are published
standards outside the spec, the random number generator, and the free values.  Every constant is opaque: no proof can see a
value of it. -/

namespace Sys2Proof.Config

/-! ## Named primitives -/

/-- SHA-256 of a byte string. -/
opaque sha256 : Bytes → BitVec 256
/-- HMAC-SHA-256: key, message. -/
opaque hmac : Bytes → Bytes → BitVec 256
/-- HKDF (key material, salt, info), 32 bytes. -/
opaque hkdf : Bytes → Bytes → Bytes → BitVec 256
/-- RSA signature check: modulus, message, signature. -/
opaque rsaVerify : Bytes → Bytes → Bytes → Bool
/-- RSA signature: private key, message. -/
opaque rsaSign : Bytes → Bytes → Bytes
/-- RSA-OAEP decryption: private key, ciphertext; none when the padding check fails. -/
opaque oaepOpen : Bytes → Bytes → Option Bytes
/-- RSA-OAEP encryption: modulus, plaintext, the draw of the random number generator it used. -/
opaque oaepSeal : Bytes → Bytes → Nat → Bytes
/-- An RSA key pair generated from the given draw: modulus and private key. -/
opaque rsaKeyGen : Nat → Bytes × Bytes
/-- Whether a private key and a modulus belong together. -/
opaque rsaPair : Bytes → Bytes → Bool
/-- AES key wrap under the device's physically unclonable function with helper data: wrap and unwrap. -/
opaque pufUnwrap : BitVec 524288 → Bytes → Bytes → Option Bytes
opaque pufWrap : BitVec 524288 → Bytes → Nat → Bytes × Bytes
/-- What the 64 KiB of the PUF hold after their power-up number so and so. -/
opaque pufArray : Nat → BitVec 524288
/-- AES-256-GCM: key, nonce, additional data, text; ciphertext and the 16-byte tag. -/
opaque gcmSeal : Bytes → Bytes → Bytes → Bytes → Bytes
opaque gcmTag : Bytes → Bytes → Bytes → Bytes → BitVec 128
opaque gcmOpen : Bytes → Bytes → Bytes → Bytes → Bytes
/-- AES-256-XTS of a host-tier line: key pair, tweak, plaintext to ciphertext and back. -/
opaque xtsEnc : Bytes → Nat → Bytes → Bytes
opaque xtsDec : Bytes → Nat → Bytes → Bytes

/-- The digests the boot ROM holds of the four vendor image keys (R387). -/
opaque vendorDigest : Nat → BitVec 256
/-- Whether a signature over a message verifies under the RSA key with this digest (R398: a request carries no modulus). -/
opaque signedBy : BitVec 256 → Bytes → Bytes → Bool
/-- The modulus an X.509 v3 certificate certifies, when one of the identity CA keys of the boot ROM issued it. -/
opaque certKey : Bytes → Option Bytes

/-! ## The random number generator and free values -/

/-- The k-th 64-bit draw of Adant's true random number generator. -/
opaque trng : Nat → BitVec 64
/-- The k-th value the spec leaves open. -/
opaque free : Nat → BitVec 64
/-- What a device-owned host page holds before the job writes it, by host physical address (R168). -/
opaque undefByte : Nat → BitVec 8
/-- The fabric SRAM allocation of a job context (R99, SPACE 1): base and size in bytes. -/
opaque fabricAlloc : Nat → Nat × Nat
/-- The row cache set of a sector, by the mask of the die's banks that are out, and the bank a set lies in (R230 gives neither function). -/
opaque cacheSet : Nat → Nat → Nat
opaque cacheBank : Nat → Nat
/-- Where in the error bound of R116 the result of a vector function lies: operation, operand code; 0 to 4 stand for −2 to 2 ulp
from the nearest code. -/
opaque vecStep : Nat → Nat → Nat
/-- The 7-bit SEC-DED code of the 32 data bits, or for word 0 of the 40 bits, that it protects (R135, R136 give no matrix). -/
opaque eccCode : Nat → Nat → Nat
/-- What a SEC-DED code makes of three or more differing bits within what it protects, a case R136 leaves open: none where it detects them,
else the bits that its correction leaves wrong. -/
opaque eccMany : List Nat → Option (List Nat)
/-- The 32-byte header of a merge store slot (R244 gives no layout): TID, VNUM, step, row, count, and the elements' special values. -/
opaque mergeHead : List Nat → BitVec 256
/-- Which of two equal zeros a MIN, MAX, CLAMP, RMIN or RMAX returns (R116): true for the second. -/
opaque zeroPick : Nat → Nat → Bool

end Sys2Proof.Config
end

