-- ==== Sys2Proof/Machine/Bits.lean ====
section
/-! DEFINITION. Byte strings, bit fields, sparse tables, sparse memories and the CRC engine: the helpers every block of
the model reads and writes its plain data with. -/

namespace Sys2Proof

/-! ## Sparse tables -/

/-- The entry of a key, if the table lists it. -/
def Tbl.look? {α : Type} (t : Tbl α) (k : Nat) : Option α :=
  match t with
  | [] => none
  | (i, v) :: r => if i = k then some v else if k < i then none else Tbl.look? r k

/-- The entry of a key, or what an unlisted key holds. -/
def Tbl.look {α : Type} (t : Tbl α) (k : Nat) (d : α) : α :=
  match Tbl.look? t k with
  | some v => v
  | none => d

/-- The table with one entry written. -/
def Tbl.put {α : Type} (t : Tbl α) (k : Nat) (v : α) : Tbl α :=
  match t with
  | [] => [(k, v)]
  | (i, w) :: r => if k < i then (k, v) :: (i, w) :: r else if i = k then (k, v) :: r else (i, w) :: Tbl.put r k v

/-- The table with one entry dropped. -/
def Tbl.del {α : Type} (t : Tbl α) (k : Nat) : Tbl α :=
  match t with
  | [] => []
  | (i, w) :: r => if i = k then Tbl.del r k else if k < i then (i, w) :: r else (i, w) :: Tbl.del r k

/-- The table with one listed entry changed; an unlisted key changes nothing. -/
def Tbl.upd {α : Type} (t : Tbl α) (k : Nat) (f : α → α) : Tbl α :=
  match Tbl.look? t k with
  | some v => Tbl.put t k (f v)
  | none => t

/-- The table with one entry changed, an unlisted one from its default. -/
def Tbl.updD {α : Type} (t : Tbl α) (k : Nat) (d : α) (f : α → α) : Tbl α :=
  Tbl.put t k (f (Tbl.look t k d))

/-- Every entry changed in place. -/
def Tbl.mapv {α β : Type} (t : Tbl α) (f : Nat → α → β) : Tbl β := t.map fun p => (p.1, f p.1 p.2)

/-- The canonical form: keys strictly rising. -/
def Tbl.wf {α : Type} (t : Tbl α) : Bool :=
  match t with
  | [] => true
  | [_] => true
  | (i, _) :: (j, w) :: r => decide (i < j) && Tbl.wf ((j, w) :: r)

/-! ## Sparse memories -/

/-- The byte at an address; `d` is what an unlisted address reads as. -/
def Mem.get (m : Mem) (d : Byte) (a : Nat) : Byte := Tbl.look m a d

/-- One byte written.  The canonical form is kept: writing what an unlisted address reads as drops the entry. -/
def Mem.set (m : Mem) (d : Byte) (a : Nat) (v : Byte) : Mem :=
  if v = d then Tbl.del m a else Tbl.put m a v

/-- `n` bytes from an address on. -/
def Mem.gets (m : Mem) (d : Byte) (a n : Nat) : Bytes := (List.range n).map fun i => Mem.get m d (a + i)

/-- A byte string written from an address on. -/
def Mem.sets (m : Mem) (d : Byte) (a : Nat) (bs : Bytes) : Mem :=
  match bs with
  | [] => m
  | b :: r => Mem.sets (Mem.set m d a b) d (a + 1) r

/-- The canonical form of a memory: addresses strictly rising and no entry equal to what an unlisted address reads as. -/
def Mem.wf (m : Mem) (d : Byte) : Bool := Tbl.wf m && m.all fun c => c.2 != d

/-! ## Byte strings -/

/-- The value of a little-endian byte string. -/
def le (bs : Bytes) : Nat :=
  match bs with
  | [] => 0
  | b :: r => b.toNat + 256 * le r

/-- Byte `i` of a string; bytes past its end are 0. -/
def byteAt (bs : Bytes) (i : Nat) : Byte := bs.getD i 0

/-- The bytes from `off` on, `n` of them, bytes past the end 0. -/
def slice (bs : Bytes) (off n : Nat) : Bytes := (List.range n).map fun i => byteAt bs (off + i)

/-- The little-endian field of `n` bytes at `off`. -/
def leAt (bs : Bytes) (off n : Nat) : Nat := le (slice bs off n)

/-- `v` as `n` little-endian bytes. -/
def toLe (n v : Nat) : Bytes :=
  match n with
  | 0 => []
  | n + 1 => BitVec.ofNat 8 v :: toLe n (v / 256)

/-- `n` zero bytes. -/
def zeros (n : Nat) : Bytes := List.replicate n 0

/-- The string with `new` written over it from `off` on, its length kept. -/
def patch (bs : Bytes) (off : Nat) (new : Bytes) : Bytes :=
  (List.range bs.length).map fun i => if off ≤ i ∧ i < off + new.length then byteAt new (i - off) else byteAt bs i

/-- The string padded with zeros to a multiple of `n`. -/
def padTo (n : Nat) (bs : Bytes) : Bytes :=
  if n = 0 then bs else bs ++ zeros ((n - bs.length % n) % n)

/-- A byte string cut into pieces of `n` bytes (`fuel` at least its length). -/
def chunksOf (n : Nat) (bs : Bytes) : List Bytes :=
  if n = 0 then [] else (List.range ((bs.length + n - 1) / n)).map fun i => (bs.drop (i * n)).take n

/-! ## Bit fields of numbers -/

/-- Bits [hi:lo] of a number. -/
def bits (v hi lo : Nat) : Nat := (v >>> lo) % 2 ^ (hi + 1 - lo)

/-- Bit `i` of a number. -/
def bitOf (v i : Nat) : Bool := v.testBit i

/-- 1 for true. -/
def b2n (b : Bool) : Nat := if b then 1 else 0

/-- A number with bits [hi:lo] replaced. -/
def setBits (v hi lo x : Nat) : Nat :=
  v - (bits v hi lo) * 2 ^ lo + (x % 2 ^ (hi + 1 - lo)) * 2 ^ lo

/-- The two's complement value of the low `n` bits. -/
def sx (n v : Nat) : Int := if (v % 2 ^ n).testBit (n - 1) then (v % 2 ^ n : Int) - 2 ^ n else (v % 2 ^ n : Int)

/-- The low `n` bits of an integer. -/
def wrapInt (n : Nat) (i : Int) : Nat := (i % (2 ^ n : Int)).toNat

/-- Saturation at the largest value of `n` bits. -/
def satTo (n v : Nat) : Nat := min v (2 ^ n - 1)

/-- The quotient rounded up. -/
def ceilDiv (a b : Nat) : Nat := (a + b - 1) / b

/-- `v` rounded up to a multiple of `m`. -/
def roundUp (m v : Nat) : Nat := ceilDiv v m * m

/-- `v` held inside [lo, hi]. -/
def clampNat (lo hi v : Nat) : Nat := max lo (min hi v)

/-- The low `n` bits of a number, reversed. -/
def revBits (n v : Nat) : Nat :=
  (List.range n).foldl (fun a i => if v.testBit i then a ||| (1 <<< (n - 1 - i)) else a) 0

/-- Exclusive or of two byte strings, to the shorter's length. -/
def xorBytes (a b : Bytes) : Bytes := List.zipWith (· ^^^ ·) a b

/-! ## Lists -/

/-- The list with element `i` replaced. -/
def setAt {α : Type} (l : List α) (i : Nat) (v : α) : List α := l.set i v

/-- Insertion into a list kept in order by `le?`; equal elements keep their order of arrival. -/
def insertBy {α : Type} (lt : α → α → Bool) (x : α) (l : List α) : List α :=
  match l with
  | [] => [x]
  | y :: r => if lt x y then x :: y :: r else y :: insertBy lt x r

/-- A stable insertion sort. -/
def sortBy {α : Type} (lt : α → α → Bool) (l : List α) : List α := l.foldl (fun acc x => insertBy lt x acc) []

/-- The sum of a list of numbers. -/
def sumNat (l : List Nat) : Nat := l.foldl (· + ·) 0

/-- The first index at which a predicate holds. -/
def firstIdx {α : Type} (p : α → Bool) (l : List α) : Option Nat := (l.findIdx? p)

/-- `f` applied `n` times. -/
def iter {α : Type} (n : Nat) (f : α → α) (a : α) : α :=
  match n with
  | 0 => a
  | n + 1 => iter n f (f a)

/-- A fold over 0, …, n − 1. -/
def forN {α : Type} (n : Nat) (a : α) (f : Nat → α → α) : α := (List.range n).foldl (fun x i => f i x) a

/-! ## CRCs -/

/-- The parameters of a CRC (Check Units): width, generator, initial value, reflections, final exclusive or. -/
structure CrcSpec where
  width  : Nat
  poly   : Nat
  init   : Nat
  refIn  : Bool
  refOut : Bool
  xorOut : Nat
  deriving DecidableEq, Repr

/-- One message bit through the shift register. -/
def crcBit (c : CrcSpec) (r : Nat) (b : Bool) : Nat :=
  let top := r.testBit (c.width - 1)
  let r' := (r <<< 1) % 2 ^ c.width
  if top != b then r' ^^^ (c.poly % 2 ^ c.width) else r'

/-- One message byte through the shift register. -/
def crcByte (c : CrcSpec) (r : Nat) (b : Byte) : Nat :=
  (List.range 8).foldl (fun r i => crcBit c r (b.getLsbD (if c.refIn then i else 7 - i))) r

/-- A message through the shift register, from a register value. -/
def crcFeed (c : CrcSpec) (r : Nat) (bs : Bytes) : Nat := bs.foldl (crcByte c) r

/-- The register value read out. -/
def crcEnd (c : CrcSpec) (r : Nat) : Nat :=
  ((if c.refOut then revBits c.width r else r) ^^^ c.xorOut) % 2 ^ c.width

/-- The CRC of a message. -/
def crcOf (c : CrcSpec) (bs : Bytes) : Nat := crcEnd c (crcFeed c (c.init % 2 ^ c.width) bs)

/-- CRC-32C (Castagnoli), R331. -/
def crc32cSpec : CrcSpec := ⟨32, 0x1EDC6F41, 0xFFFFFFFF, true, true, 0xFFFFFFFF⟩

/-- CRC-32C of a byte string. -/
def crc32c (bs : Bytes) : Nat := crcOf crc32cSpec bs

end Sys2Proof
end

