-- ==== Sys2Proof/Machine/State.lean ====
section
/-! DEFINITION. The state of the block as plain data: every register, queue, buffer, counter, mode and pin the spec
gives it, the machine right after reset, and the reasons a step can stop. -/

namespace Sys2Proof.Machine

/-! ## Host port: queues, commands, completions (R325 to R347) -/

/-- The life of a command between acceptance and DONE (R341). -/
inductive Life where
  | queued
  | head
  | running
  | suspended
  deriving DecidableEq, Repr

/-- A command held in the command store: its 256 B record (R331) and payload, and what has become of it. -/
structure Cmd where
  /-- The command's own number, one per accepted record (the model's bookkeeping). -/
  cid     : Nat
  record  : Bytes
  payload : Bytes
  /-- First slot of the record in its ring. -/
  slot    : Nat
  life    : Life
  /-- A status fixed before the command runs (validation, R26; or CANCELLED while waiting, R342), with its RESULT. -/
  early   : Option (Nat × Nat)
  /-- The session authenticator failed or is missing (R403): kept for JOB_ADMIT, whose checks have an order of their own. -/
  authBad : Bool
  /-- A SUSPEND waits for the command's next chunk boundary. -/
  suspReq : Bool
  /-- A CANCEL waits for the command's next chunk boundary. -/
  cancReq : Bool
  /-- The command is to end with OVERRUN at its next chunk boundary (R32). -/
  overReq : Bool
  /-- The command is to end with JOB_FAULTED at its next chunk boundary (R465). -/
  faultReq : Option Nat
  /-- Accepted while the frame clock was LOST (R24). -/
  inLost  : Bool
  /-- For SUSPEND, CANCEL and JOB_END: the numbers of the commands it still waits for. -/
  waits   : List Nat
  /-- For a SUSPEND: a CANCEL has taken a target away, so it ends NOTFOUND (R342). -/
  robbed  : Bool
  /-- Chunks run, cc charged, energy in units of draw mV tu, and the OR of numeric status words (R343). -/
  chunks  : Nat
  charged : Nat
  energy  : Nat
  nstat   : Nat
  /-- FLAGS bits 1 and 2 of the completion record. -/
  forced  : Bool
  susp    : Bool
  /-- Frame of the first chunk or of the start of the effect. -/
  fstart  : Option Nat
  /-- The last frame in which it ran a chunk, whether a forced suspension without a clock change fell in that frame, and in the last
  frame before it in which it ran (R32). -/
  ranIn : Option Nat
  nowForced : Bool
  prevForced : Bool
  /-- Times a governed head was passed over (R379). -/
  passed  : Nat
  /-- FCLK_INT_STAT.NOFIT and LEDG_INT_STAT.NOFIT have been set for this command (R29, R378). -/
  noFit   : Bool
  ledgNoFit : Bool
  /-- Progress of a command that takes more than one step: bytes moved, pages done. -/
  done    : Nat
  deriving DecidableEq, Repr

/-- A command that has ended and whose completion record is not yet written (R343, R344). -/
structure Cpl where
  cid     : Nat
  tag     : Nat
  opcode  : Nat
  alive   : Nat
  intr    : Bool
  status  : Nat
  nstat   : Nat
  forced  : Bool
  susp    : Bool
  detail  : Nat
  fstart  : Nat
  fend    : Nat
  chunks  : Nat
  charged : Nat
  energy  : Nat
  result  : Nat
  /-- The job the command belongs to, for a JOB_END that waits for its record (R338); not part of the record. -/
  job     : Nat
  deriving DecidableEq, Repr

/-- A record of the ring between HEAD and the validation point (R330): first slot, length, whether it is consumed. -/
structure RingRec where
  slot     : Nat
  len      : Nat
  consumed : Bool
  cid      : Nat
  deriving DecidableEq, Repr

/-- A command queue: the fields of HOST_QCFG, HOST_QCRBASE, HOST_QCRCFG, HOST_QPTR, HOST_QCOUNT and HOST_QSTAT (R350),
its held commands and its completion ring. -/
structure Queue where
  en       : Bool
  target   : Nat
  tile     : Nat
  seq      : Nat
  job      : Nat
  system   : Bool
  governed : Bool
  subwin   : Nat
  credit   : Nat
  crBase   : Nat
  log2     : Nat
  modCnt   : Nat
  modTime  : Nat
  head     : Nat
  tail     : Nat
  vpos     : Nat
  alive    : Nat
  stalled  : Bool
  held     : Bool
  cause    : Nat
  credRej  : Bool
  busy     : Bool
  dup      : Nat
  torn     : Nat
  credRejs : Nat
  retry    : Nat
  /-- Re-reads made of the record at the validation point; none while it has not failed. -/
  rereads  : Option Nat
  recs     : List RingRec
  cmds     : List Cmd
  flush    : Option Cpl
  crTail   : Nat
  crHead   : Nat
  /-- Completion records with INTR = 1 since the vector was last sent (R347). -/
  intrs    : Nat
  deriving DecidableEq, Repr

/-- A queue at reset (R350). -/
def Queue.init : Queue :=
  { en := false, target := 0, tile := 0, seq := 0, job := 0, system := false, governed := false, subwin := 0,
    credit := 1024, crBase := 0, log2 := 6, modCnt := 1, modTime := 0, head := 0, tail := 0, vpos := 0, alive := 0,
    stalled := false, held := false, cause := 0, credRej := false, busy := false, dup := 0, torn := 0, credRejs := 0,
    retry := 0, rereads := none, recs := [], cmds := [], flush := none, crTail := 0, crHead := 0, intrs := 0 }

/-- The host link (R321, R322): the fields of HOST_LINK. -/
structure HostLink where
  width : Nat
  rate  : Nat
  flit  : Bool
  noflit : Bool
  cache : Bool
  deriving DecidableEq, Repr

/-- The answer to the last read or configuration request on the host link: data, and whether it completed with Unsupported Request
(R6) or Request Retry Status (R423). -/
inductive HostResp where
  | none
  | data (v : Nat)
  | unsupported
  | retry
  deriving DecidableEq, Repr

/-! ## Execution units (R28 to R32) -/

/-- A chunk on an execution unit: the queue and command it belongs to, its charge, the draws it declared (already in the terms
of R369), the instant it began or was resumed, the instant since which it holds what it holds, its gating credit (R380), and whether
its overrun is counted (R31). -/
structure Chunk where
  queue   : Nat
  cid     : Nat
  charge  : Nat
  draws   : Nat
  begun   : Nat
  start   : Nat
  energy  : Nat
  counted : Bool
  /-- Draws held now, since `start`, and the energy used before that. -/
  held    : Nat
  used    : Nat
  deriving DecidableEq, Repr

/-- An execution unit: units 0 to 23 are sequencer s of tile t at 3 t + s, units 24 to 55 the walker clusters. -/
structure ExecUnit where
  run     : Option Chunk
  /-- Chunks suspended by force here, oldest first. -/
  forced  : List Chunk
  /-- A chunk whose draws have been asked for and not yet granted. -/
  asking  : Option Chunk
  /-- The debug port holds the unit (R415). -/
  halted  : Bool
  /-- The context whose switch-out this unit still puts off, since the debug port held its chunk at the tick (R36 step 5). -/
  stay    : Option Nat
  deriving DecidableEq, Repr

/-- A free unit. -/
def ExecUnit.init : ExecUnit := { run := none, forced := [], asking := none, halted := false, stay := none }

/-! ## The current ledger (R377) -/

/-- Who holds or asks for draws. -/
inductive Owner where
  | topUp
  /-- The standing draws of ports that have come into service since Dawn. -/
  | ports
  | chunk (unit : Nat)
  | block (tile : Nat)
  | vecExtra (tile : Nat)
  | memGroup (g : Nat)
  | memAdder (g : Nat)
  | link (l : Nat)
  | tableEngine (u : Nat)
  | reduction (u : Nat)
  | migration (up : Bool)
  | lineEngine
  | exporter
  | restorer
  | refresh
  | digest
  deriving DecidableEq, Repr

/-- A waiting request: class 0, 1 or 2, its size, what it has accrued, and the cc it has waited. -/
structure Req where
  owner   : Owner
  cls     : Nat
  units   : Nat
  accrued : Nat
  waited  : Nat
  long    : Bool
  deriving DecidableEq, Repr

/-- The ledger controller. -/
structure Ledger where
  /-- The ledger has started (end of Dawn stage 3, R422) and the core clocks run. -/
  on       : Bool
  standing : Nat
  held     : Nat
  tail     : Nat
  bucket   : Nat
  /-- cc modulo 10 of the 800 MHz base. -/
  phase    : Nat
  waiting  : List Req
  /-- Draws held, per owner, standing draws apart. -/
  holds    : List (Owner × Nat)
  /-- Chunk owners whose draws have just been granted; they re-enter admission (R28). -/
  granted  : List Nat
  overheld : Bool
  /-- Ballast energy below one µJ, in units of draw mV tu. -/
  ballast  : Nat
  deriving DecidableEq, Repr

/-! ## Power states (R362 to R384) -/

/-- The power states of R362.  `off` stands for the device after PWRDN_REQ or with its rails removed. -/
inductive PState where
  | noon
  | evening
  | night
  | off
  deriving DecidableEq, Repr

/-- A PWR_STATE that waits for its tick (R368): target, frame (0 for the next tick), and the queue and command. -/
structure PwrPend where
  target : PState
  frame  : Nat
  queue  : Nat
  cid    : Nat
  /-- The Evening to Noon top-up has been requested (R368). -/
  asked  : Bool
  deriving DecidableEq, Repr

/-- Dusk in progress (R370). -/
structure Dusk where
  target : PState
  queue  : Nat
  cid    : Nat
  /-- Frame D, once its tick has come. -/
  first  : Option Nat
  frames : Nat
  /-- The end of Dusk has been reached; the exporter drains (step 3). -/
  ended  : Bool
  deriving DecidableEq, Repr

/-- Night entry and the wake (R373, R374). -/
inductive NightStep where
  | none
  /-- Every draw returned; the tail runs down before the clocks stop (R370 step 5). -/
  | draining
  /-- VOUT_COMMAND 0.60 V written, waiting. -/
  | lowering
  /-- In Night. -/
  | asleep
  /-- Step 1 of the wake: VOUT_COMMAND 0.75 V written, waiting. -/
  | raising
  /-- Steps 2 and 3 of the wake: standing draws, links and stacks. -/
  | waking
  deriving DecidableEq, Repr

/-- A wake in progress: the target it woke for, the latest target, and the latest command. -/
structure Wake where
  target : PState
  latest : PState
  queue  : Nat
  cid    : Nat
  deriving DecidableEq, Repr

/-- The operands of PWR_LIMITS (R364), NOON and EVE in draws. -/
structure Limits where
  noon   : Nat
  eve    : Nat
  plimit : Nat
  gov    : Nat
  tsoft  : Nat
  deriving DecidableEq, Repr

/-- A rail controller (R381). -/
structure Rail where
  /-- VOUT_MODE, read at Dawn, names ULINEAR16 (R480). -/
  linear : Bool
  vout  : Nat
  iout  : Nat
  temp  : Nat
  valid : Bool
  fail  : Bool
  misses : Nat
  deriving DecidableEq, Repr

/-- A rail before any poll. -/
def Rail.init : Rail := { linear := true, vout := 0, iout := 0, temp := 0, valid := false, fail := false, misses := 0 }

/-- The power block. -/
structure Power where
  state   : PState
  /-- Every unit is held in reset: after step 5 of R370 for Off, or in a hardware shutdown (R375, R484). -/
  shut    : Bool
  pend    : Option PwrPend
  dusk    : Option Dusk
  /-- The command that ended a Dusk by naming Noon or Evening (R372): it acts at the next tick, whatever frame it names. -/
  endsDusk : Option Nat
  night   : NightStep
  wake    : Option Wake
  limits  : Limits
  /-- PWR_LIMITS commands waiting for the next tick (queue, command, operands). -/
  pendLim : List (Nat × Nat × Limits)
  /-- A PWR_STATE that names the current state completes at the next tick (R367). -/
  sameState : List (Nat × Nat)
  die0    : Nat
  die1    : Nat
  fab     : Nat
  tripped : Bool
  hold    : Bool
  soft    : Bool
  govSpent : Nat
  rails   : Tbl Rail
  /-- Consecutive core-rail readings above the bound of R382. -/
  overRun : Nat
  /-- Package watts of the last polls with their frames, newest first, and whether their mean exceeds PLIMIT. -/
  watts   : List (Nat × Nat)
  overPwr : Bool
  /-- Package energy since Dawn in µJ, and the part below one µJ in mV A/4 units of a poll. -/
  energy  : Nat
  energyRest : Nat
  /-- The last VOUT_COMMAND written to the core-rail controller, in mV (R373, R374); none before the first. -/
  vout    : Option Nat
  deriving DecidableEq, Repr

/-! ## The frame clock (R11 to R44) -/

/-- The lock states of R20. -/
inductive Lock where
  | acquiring
  | locked
  | holdover
  | lost
  | freerun
  deriving DecidableEq, Repr

/-- A named tick source (FCLK_SRC0 and FCLK_SRC1): 0 none, 1 self, 2 device, 3 switch, and its ID. -/
structure TickSrc where
  kind : Nat
  id   : Nat
  deriving DecidableEq, Repr

/-- A run of consecutive consistent ticks of one source (R21): length, last frame number, last corrected arrival. -/
structure TickRun where
  count : Nat
  fnum  : Nat
  arr   : Int
  deriving DecidableEq, Repr

/-- The copies of a frame gathered for 200 ns (R17): frame number, source rank, and (port, corrected arrival). -/
structure Gather where
  fnum   : Nat
  rank   : Nat
  /-- The arrival stamp of the first copy. -/
  since  : Nat
  copies : List (Nat × Int)
  deriving DecidableEq, Repr

/-- The frame clock.  Instants are in units of 2^-6 ns. -/
structure FrameClk where
  lock    : Lock
  secondary : Bool
  holdCnt : Nat
  fnum    : Nat
  frameStart : Int
  len     : Nat
  permille : Nat
  src0    : TickSrc
  src1    : TickSrc
  /-- The gatherings that are open (R17): one while locked; in ACQUIRING and LOST one for every frame number and rank received. -/
  gathers : List Gather
  /-- The expected instant of the frame that runs: the arrival window of R19 for its late copies. -/
  due     : Int
  /-- The disciplined timer (R18): how far its frame lies from L cc of the local time base. -/
  trim    : Int
  run0    : TickRun
  run1    : TickRun
  /-- The last renumbered copy of the tick being waited for: how far its FNUM lies from the expected one. -/
  renumNow : Option Int
  /-- Consecutive renumbered ticks and their common difference (R23). -/
  renumCnt : Nat
  renumDelta : Int
  /-- CORR of the last valid copy of a port. -/
  lastCorr : Tbl Int
  /-- FCLK_DLY of the ports with a valid measurement. -/
  delay   : Tbl Nat
  /-- DLY exchange: the instant T1 sent on a port in this slice (R16, R291). -/
  dlySent : Tbl Nat
  /-- The steps of R36 have been performed for this frame. -/
  stepsDone : Bool
  /-- Steps 1 to 6 are done and step 7 waits for the top-up of R368. -/
  step7Wait : Bool
  windowDone : Bool
  sliceDone : Bool
  reserveDone : Bool
  /-- A change of core clock occurred in this frame (R32). -/
  clkChange : Bool
  /-- A change to Evening occurred in this frame (R43). -/
  eveChange : Bool
  /-- Chunks suspended by force in this frame without a change to Evening so far: queue, command, and whether it was the second frame in a
  row (R32, R43). -/
  forcedNow : List (Nat × Nat × Bool)
  /-- FCLK_POS latched by a read of the low half of FCLK_FNUM (R44). -/
  posLatch : Option Nat
  /-- Ticks emitted by a device that is its own source (FNUM of the last one). -/
  emitted : Option Nat
  /-- The end of the last self-test step of this slice, in cc from W (R33). -/
  sliceUsed : Nat
  /-- The digest task of this slice (R215): 0 not begun, 1 waiting for what it stands on, 2 done. -/
  digest  : Nat
  deriving DecidableEq, Repr

/-! ## Faults (R456 to R470) -/

/-- A fault record (R458). -/
structure FaultRec where
  code    : Nat
  cls     : Nat
  phase   : Bool
  job     : Option Nat
  rep     : Bool
  phys    : Bool
  unit    : Nat
  inst    : Nat
  fnum    : Nat
  pos     : Nat
  seq     : Nat
  count   : Nat
  addr    : Nat
  arg0    : Nat
  arg1    : Nat
  deriving DecidableEq, Repr

/-- A self-test queued or running (R467). -/
structure SelfTest where
  queue   : Nat
  cid     : Nat
  kind    : Nat
  die     : Nat
  index   : Nat
  bank    : Nat
  left    : Nat
  perBank : Nat
  total   : Nat
  /-- Banks found failing. -/
  badBanks : List Nat
  /-- A maintenance slice has started since the request (R34). -/
  armed   : Bool
  deriving DecidableEq, Repr

/-- The fault block. -/
structure Flt where
  fatal    : Bool
  seq      : Nat
  /-- This frame's keys: first record of (CODE, JOB, UNIT), later occurrences, and the last of them. -/
  merged   : List (FaultRec × Nat × FaultRec)
  last     : Option FaultRec
  fatalRec : Option FaultRec
  ringEn   : Bool
  log2     : Nat
  tail     : Nat
  head     : Nat
  selftest : Option SelfTest
  deriving DecidableEq, Repr

/-! ## Job contexts (R337 to R340) -/

/-- A tile partition of the admission record, in bytes (R339, R88). -/
structure Part where
  osBase : Nat
  osSize : Nat
  afBase : Nat
  afSize : Nat
  deriving DecidableEq, Repr

/-- No partition. -/
def Part.none : Part := { osBase := 0, osSize := 0, afBase := 0, afSize := 0 }

/-- An entry of a slot plan (R39). -/
structure SlotEnt where
  links : Nat
  slot  : Nat
  share : Nat
  coll  : Nat
  job   : Nat
  deriving DecidableEq, Repr

/-- An entry of the stage table (R279): first layer, layer count, INFLIGHT and ACTBYTES. -/
structure StageEnt where
  first    : Nat
  count    : Nat
  inflight : Nat
  actBytes : Nat
  deriving DecidableEq, Repr

/-- A context switch that waits for its tick (R337). -/
structure CtxReq where
  dirIn : Bool
  frame : Nat
  queue : Nat
  cid   : Nat
  deriving DecidableEq, Repr

/-- A resident job context: the admission record of R339 and what the life cycle adds to it. -/
structure Job where
  jobid    : Nat
  ndev     : Nat
  seed     : Nat
  floor    : Nat
  ceil     : Nat
  quota    : Nat
  digSamples : Nat
  replMaxLag : Nat
  gmode    : Nat
  replBytes : Nat
  replSlots : Nat
  mergeEntries : Nat
  mergeSlot : Nat
  utile0   : Nat
  utile1   : Nat
  replBase : Nat
  mergeBase : Nat
  ustage   : Nat
  dstage   : Nat
  parts    : List Part
  stage    : Nat
  nstages  : Nat
  slots    : List SlotEnt
  /-- Device address of every rank (R296). -/
  ranks    : List Nat
  stageTab : List StageEnt
  rank     : Nat
  /-- The slot plan has become effective (step 6 of R36). -/
  planOn   : Bool
  switchedIn : Bool
  /-- Context switches waiting for their tick; the first tick after admission switches the context in. -/
  switches : List CtxReq
  fresh    : Bool
  /-- The job is held under R24. -/
  held     : Bool
  /-- JOB_END runs (queue, command). -/
  ending   : Option (Nat × Nat)
  /-- A JOB_STOP fault has stopped the job: the status of its commands (R465, R401). -/
  stopped  : Option Nat
  /-- Frame from which the generators of R55 resume. -/
  resumeFrame : Nat
  /-- Generator states that have left their seeded value, per lane (R53 to R55). -/
  gens     : Tbl Word64
  /-- XTS key pair (R183) and the 128-bit interleave key (R143). -/
  xtsKey   : Bytes
  ilKey0   : Word64
  ilKey1   : Word64
  deriving DecidableEq, Repr

/-! ## Adant: identity, sessions, presence, debug (R387 to R417) -/

/-- The lifecycle states of R411. -/
inductive LifeCycle where
  | manufacture
  | deployed
  | retired
  deriving DecidableEq, Repr

/-- The session states of R401. -/
inductive SessState where
  | none
  | open
  | joining
  | joined
  | failed
  | keyless
  deriving DecidableEq, Repr

/-- A job session (R400 to R403).  K_job and K_sess lie in the key store; the keys here are empty once zeroed. -/
structure Session where
  state   : SessState
  slot    : Nat
  policy  : Nat
  jobid   : Nat
  linkKey : Bytes
  kconf   : Bytes
  /-- Highest accepted SCTR, and the accepted ones in the window of 1,024 below it. -/
  sctr    : Option Nat
  sctrs   : List Nat
  /-- Rank 0: ranks that have passed step 2 of R405. -/
  verified : List Nat
  /-- JOB_ADMIT completed while the session was opened to join a running job (R450). -/
  spare   : Bool
  /-- The instant at which JOB_ADMIT completed (R405). -/
  admitted : Nat
  deriving DecidableEq, Repr

/-- No session. -/
def Session.init : Session :=
  { state := .none, slot := 0, policy := 0, jobid := 0, linkKey := [], kconf := [],
    sctr := none, sctrs := [], verified := [], spare := false, admitted := 0 }

/-- The rollback record (R392): its fields, with the signature over them. -/
structure Rollback where
  lc      : LifeCycle
  opkDig  : Bytes
  svnFloor : Nat
  revMask : Nat
  sealBrk : Nat
  enrolEpoch : Nat
  rbSeq   : Nat
  sig     : Bytes
  deriving DecidableEq, Repr

/-- The rollback record of a device that has none. -/
def Rollback.init : Rollback :=
  { lc := .manufacture, opkDig := List.replicate 32 0, svnFloor := 0, revMask := 0, sealBrk := 0, enrolEpoch := 0, rbSeq := 0,
    sig := [] }

/-- What the identity block of the NVM says (R393, R418); empty fields stand for erased bytes. -/
structure IdBlock where
  modulus : Bytes
  wrapped : Bytes
  helper  : Bytes
  cert    : Bytes
  deriving DecidableEq, Repr

/-- The NVM (R418): its bytes, erased ones unlisted. -/
structure Nvm where
  mem    : Mem
  sizeLog2 : Nat
  deriving DecidableEq, Repr

/-- The open presence window (R407, R408). -/
structure PresWindow where
  op    : Nat
  arg   : Nat
  queue : Nat
  cid   : Nat
  /-- The object fetched and checked (R408), and the output address. -/
  obj   : Bytes
  out   : Nat
  /-- The instant the window opened. -/
  since : Nat
  /-- The instant a qualifying hold began, while PRESENCE_N stays asserted. -/
  hold  : Option Nat
  deriving DecidableEq, Repr

/-- Adant. -/
structure Adnt where
  /-- The private SRAM of 512 KiB and the PUF of 64 KiB (R387). -/
  sram     : Mem
  puf      : BitVec 524288
  /-- The 128 slots of the key store (R387); a slot that holds no key is not listed. -/
  keys     : Tbl (BitVec 256)
  /-- Commands that wait for the BEK, in order of arrival: queue and command (R388, R394). -/
  bekWait  : List (Nat × Nat)
  rb       : Rollback
  /-- Copy of the rollback record in use: true for B. -/
  rbIsB    : Bool
  /-- Identity modulus and private key; empty when not held. -/
  idMod    : Bytes
  idPriv   : Bytes
  cert     : Bytes
  certOk   : Bool
  idValid  : Bool
  recovery : Bool
  bootNonce : Bytes
  bekPub   : Bytes
  bekPriv  : Bytes
  bekReady : Bool
  bootDig  : Bytes
  manDig   : Bytes
  fwDig    : Bytes
  bootSvn  : Nat
  fwSvn    : Nat
  debug    : Nat
  dbgMax   : Nat
  opctr    : Nat
  /-- Filled owner slots: the modulus. -/
  owners   : Tbl Bytes
  /-- Last accepted GCTR per slot. -/
  gctr     : Tbl Nat
  sessions : Tbl Session
  window   : Option PresWindow
  /-- PRESENCE_N asserted after filtering. -/
  presIn   : Bool
  /-- The bit driven on SEAL_A, mismatches in a row, whether the loop is intact, checked now, and checked since Dawn. -/
  sealBit  : Bool
  sealMiss : Nat
  sealOk   : Bool
  sealChk  : Bool
  sealSince : Bool
  /-- Last debug access: error code. -/
  dbgErr   : Nat
  deriving DecidableEq, Repr

/-! ## Dawn (R418 to R442) -/

/-- A rail, a port and a tile of the manifest (R427, R428). -/
structure ManRail where
  addr : Nat
  role : Nat
  deriving DecidableEq, Repr

/-- PORT[] of R427. -/
structure ManPort where
  plane : Nat
  role  : Nat
  deriving DecidableEq, Repr

/-- TILE[] of R428. -/
structure ManTile where
  state   : Nat
  replace : Nat
  nbyp    : Nat
  cols    : List Nat
  osBad   : Nat
  deriving DecidableEq, Repr

/-- A clamp record (R429, R441). -/
structure Clamp where
  field   : Nat
  rule    : Nat
  raw     : Nat
  applied : Nat
  deriving DecidableEq, Repr

/-- The manifest as applied (R427). -/
structure Manifest where
  devAddr  : Nat
  frameLen : Nat
  permille : Nat
  sealEn   : Bool
  agePeriod : Nat
  hotReads : Nat
  tick0    : TickSrc
  tick1    : TickSrc
  linkMin  : Nat
  dbgMax   : Nat
  i3cAddr  : Nat
  noon     : Nat
  eve      : Nat
  plimit   : Nat
  tsoft    : Nat
  gov      : Nat
  rails    : List ManRail
  ports    : List ManPort
  tiles    : List ManTile
  chExcl   : List Nat
  rcBad0   : Nat
  rcBad1   : Nat
  deriving DecidableEq, Repr

/-- A manifest with every field at its default (R427). -/
def Manifest.init : Manifest :=
  { devAddr := 0, frameLen := 800000, permille := 30, sealEn := true, agePeriod := 1024, hotReads := 4096,
    tick0 := ⟨0, 0⟩, tick1 := ⟨0, 0⟩, linkMin := 16, dbgMax := 2, i3cAddr := 0x30, noon := 2800, eve := 1200,
    plimit := 1300, tsoft := 95, gov := 0, rails := List.replicate 8 ⟨0, 0⟩, ports := List.replicate 34 ⟨0, 2⟩,
    tiles := List.replicate 9 ⟨0, 0xFF, 0, [], 0⟩, chExcl := List.replicate 8 0, rcBad0 := 0, rcBad1 := 0 }

/-- A physical tile in the Dawn report (R441): logical number or 0xFF, state, width, banks in use, banks mapped out. -/
structure TileRep where
  logical : Nat
  state   : Nat
  width   : Nat
  osBanks : Nat
  osOut   : Nat
  deriving DecidableEq, Repr

/-- Bring-up. -/
structure Dawn where
  /-- Dawn has been started by POWER_GOOD and the device is powered. -/
  powered  : Bool
  stage    : Nat
  /-- 0 running, 1 Ready, 2 Degraded, 3 Failed. -/
  outcome  : Nat
  failStage : Nat
  cause    : Nat
  /-- Instants of power-good and of the start of the running stage. -/
  t0       : Nat
  stageT0  : Nat
  /-- Microseconds spent in stages 0 to 9. -/
  stageUs  : List Nat
  total    : Nat
  copies   : Nat
  priorSd  : Bool
  man      : Manifest
  mfmt     : Nat
  manIsB   : Bool
  /-- Stage 1 is repeated with the other copy of the rollback record (R425). -/
  rbRetry  : Bool
  clamps   : List Clamp
  nclamp   : Nat
  dirValid : Bool
  active   : Nat
  tiles    : List TileRep
  /-- The findings of stage 5. -/
  march    : MarchFindings
  /-- Physical channels excluded per stack (264-bit masks), and those excluded at Dawn. -/
  excl     : List Nat
  exclDawn : List Nat
  stackUp  : List Bool
  rcOut0   : Nat
  rcOut1   : Nat
  clockUs  : Nat
  clockState : Nat
  clockSrc : Nat
  fnumOut  : Nat
  /-- The report, once complete. -/
  report   : Option Bytes
  deriving DecidableEq, Repr

/-! ## Delta Exporter (R443 to R455) -/

/-- A message of the export buffer: delta frame, kind of message (true: DLX_CLOSE), log offset, header and body. -/
structure DlxMsg where
  dframe : Nat
  close  : Bool
  loff   : Nat
  hdr    : Bytes
  body   : Bytes
  sent   : Bool
  deriving DecidableEq, Repr

/-- A keeper (R443, R447, R448). -/
structure Keeper where
  kind   : Nat
  rank   : Nat
  base   : Nat
  size   : Nat
  /-- Last acknowledged frame. -/
  acked  : Option Nat
  lost   : Bool
  /-- Log offsets: after the last acknowledged close, first unconsumed, next to assign. -/
  tail   : Nat
  head   : Nat
  next   : Nat
  /-- Failed answers by frame. -/
  fails  : Tbl Nat
  /-- Frame of the last acknowledgement or of the keeper's start, and the first frame that is not acknowledged. -/
  since  : Nat
  start  : Nat
  buf    : List DlxMsg
  /-- Bases begun and not complete, oldest first: log offset of the BASESTART close, Fb once the sweep has completed; and Fb of the last
  complete base. -/
  bases  : List (Nat × Option Nat)
  fb     : Nat
  deriving DecidableEq, Repr

/-- A base sweep (R449): start frame once begun, what is left to send as (0 table / 1 layer, ID, next index). -/
structure Sweep where
  fs     : Option Nat
  tables : List (Nat × Nat)
  layers : List (Nat × Nat)
  done   : Bool
  fb     : Nat
  deriving DecidableEq, Repr

/-- What the exporter holds for a job. -/
structure DlxJob where
  keepers : List Keeper
  lagMax  : Nat
  keepTo  : Nat
  sweepMiB : Nat
  /-- EXPORT_SET and EXPORT_BASE waiting for the next tick, in the order of their acceptance. -/
  setReq  : List (List Keeper × Nat × Nat × Nat × Nat × Nat)
  baseReq : List (Nat × Nat)
  sweep   : Option Sweep
  /-- Bytes the sweep may still send in this frame. -/
  share   : Nat
  wseq    : Nat
  lastClosed : Option Nat
  holding : Bool
  /-- (0 table / 1 layer, ID, step) completed in this frame. -/
  progress : List (Nat × Nat × Nat)
  deriving DecidableEq, Repr

/-- A job without keepers. -/
def DlxJob.init : DlxJob :=
  { keepers := [], lagMax := 2, keepTo := 16, sweepMiB := 16, setReq := [], baseReq := [], sweep := none, share := 0,
    wseq := 0, lastClosed := none, holding := false, progress := [] }

/-- A region this device keeps for a source rank (KEEP_REGION), and what it holds of each of the source's frames:
(frame, entries, XOR of their CRC-64 values, an entry fell outside). -/
structure KeepRegion where
  job    : Nat
  src    : Nat
  addr   : Nat
  bytes  : Nat
  frames : List (Nat × Nat × Nat × Bool)
  deriving DecidableEq, Repr

/-- A RESTORE in progress (R452): its command, its operands, and what has come of the log when a keeper sends it. -/
structure Restore where
  job   : Nat
  queue : Nat
  cid   : Nat
  /-- The keeper rank the log comes from; none for a log in this device's range. -/
  src   : Option Nat
  addr  : Nat
  bytes : Nat
  /-- FT, 0 for the last frame complete in the log. -/
  ft    : Nat
  /-- The payload's (kind, ID, step) entries. -/
  steps : List (Nat × Nat × Nat)
  /-- Bytes received, by log position. -/
  log   : Mem
  /-- The bulk reads have been sent. -/
  asked : Bool
  deriving DecidableEq, Repr

/-- The Delta Exporter. -/
structure Dlx where
  jobs    : Tbl DlxJob
  regions : List KeepRegion
  restore : Option Restore
  /-- The instant of the exporter's last message (R454). -/
  sentAt  : Nat
  deriving DecidableEq, Repr

/-! ## Extended accumulators (R50) -/

/-- An XACC: value SIG × 2^(ANCHOR − 64) while CLASS is 0; CLASS 1 +infinity, 2 −infinity, 3 NaN. -/
structure XAcc where
  sig    : Int
  anchor : Int
  cls    : Nat
  deriving DecidableEq, Repr

/-- The empty XACC. -/
def XAcc.empty : XAcc := { sig := 0, anchor := -32768, cls := 0 }

/-! ## Matrix tiles and vector engines (R73 to R133) -/

/-- The state of a token (R91). -/
inductive Token where
  | empty
  | filling
  | full
  deriving DecidableEq, Repr

/-- Who runs tile work: a sequencer, or a deferred block, by its place in the order the tile has started them in. -/
inductive Stream where
  | seq (s : Nat)
  | deferred (no : Nat)
  deriving DecidableEq, Repr

/-- A weight block (R95): who loaded it, its shape and formats, the element codes row by row, and its array draw class. -/
structure WBlock where
  owner  : Stream
  job    : Nat
  k      : Nat
  n      : Nat
  wfmt   : Nat
  split  : Nat
  zc     : Bool
  nz     : Nat
  rows   : List (List Nat)
  /-- The WLOAD word, kept for re-execution after a forced suspension (R107). -/
  word   : BitVec 128
  deriving DecidableEq, Repr

/-- A pass in the array: the block it streams through, the activation codes row by row, and its target (R95). -/
structure Pass where
  blk     : WBlock
  afmt    : Nat
  acts    : List (List Nat)
  rowBase : Nat
  init    : Bool
  last    : Bool
  cid     : Nat
  word    : BitVec 128
  /-- XACCs, by number, that another stream's work has touched while the pass was in the array: they are undefined (R122). -/
  hit     : List Nat
  deriving DecidableEq, Repr

/-- An MCLOSE waiting for earlier passes of its sequencer (R96): how many of the tile's pending passes must end first. -/
structure Close where
  owner : Stream
  after : Nat
  cid   : Nat
  job   : Nat
  dst   : Nat
  word  : BitVec 128
  /-- XACCs, by number, that another stream's chain has touched meanwhile (R122). -/
  hit   : List Nat
  deriving DecidableEq, Repr

/-- A tile DMA in progress (R99). -/
structure Dma where
  owner   : Stream
  job     : Nat
  cid     : Nat
  tok     : Nat
  out     : Bool
  space   : Nat
  rank    : Nat
  remote  : Nat
  loc     : Nat
  len     : Nat
  /-- Bytes already moved (R107), and, for SPACE 2, the bulk transfer's identity and the parts still outstanding. -/
  moved   : Nat
  bulk    : Option Nat
  /-- Parts of a bulk transfer that a forced suspension has stopped, by offset (R107). -/
  stopped : List Nat
  word    : BitVec 128
  /-- XACCs, by number, that another stream's chain has touched meanwhile (R122). -/
  hit     : List Nat
  deriving DecidableEq, Repr

/-- A deferred block (R102): segment start, length, layer, and the command it belongs to. -/
structure DefBlock where
  offset : Nat
  count  : Nat
  layer  : Nat
  job    : Nat
  cid    : Nat
  deriving DecidableEq, Repr

/-- The deferred block in execution: its number, and its registers, the Backward sequencer's as they stood when it started (R101). -/
structure DefRun where
  blk  : DefBlock
  no   : Nat
  pc   : Nat
  areg : Tbl Nat
  loop : Tbl Nat
  rbase : Tbl Nat
  /-- The block it owns, as for a sequencer, and whether it must be loaded again; the block has had its WLOAD. -/
  owned : Option (BitVec 128 × Nat)
  reload : Bool
  started : Bool
  deriving DecidableEq, Repr

/-- A tile sequencer (R91, R92). -/
structure Seq where
  job    : Nat
  queue  : Nat
  cid    : Nat
  base   : Nat
  /-- 0 idle, 1 running, 2 waiting for draws, 3 waiting for admission, 4 suspended by force, 5 waiting on a semaphore or token,
  6 stopped by a fault (R108). -/
  state  : Nat
  pc     : Nat
  /-- Instructions issued since the command started; names an instruction of the dynamic stream. -/
  dyn    : Nat
  areg   : Tbl Nat
  loop   : Tbl Nat
  rbase  : Tbl Nat
  tok    : Tbl Token
  /-- Dynamic indices of the DMAs the lookahead engine has already issued (R105). -/
  ahead  : List Nat
  /-- The dynamic index at which the lookahead engine has stopped; it resumes when the issue point reaches it (R105). -/
  laStop : Option Nat
  /-- The WLOAD word and source address of the block it owns (its LAST pass has not been issued); the block's weights were replaced
  while the chunk was suspended by force (R107). -/
  owned  : Option (BitVec 128 × Nat)
  reload : Bool
  /-- The chunk has been resumed after a forced suspension: its WLOADs come first (R101). -/
  resumed : Bool
  /-- The WLOAD that waits for the shadow plane (R101), and the CHAIN or UPROG that waits for the vector engine (R98). -/
  wantsShadow : Option (BitVec 128)
  wantsVec : Option (BitVec 128)
  /-- The sequencer's chain occupies the vector engine (R109). -/
  inChain : Bool
  deriving DecidableEq, Repr

/-- A sequencer at reset. -/
def Seq.init : Seq :=
  { job := 0, queue := 0, cid := 0, base := 0, state := 0, pc := 0, dyn := 0, areg := [], loop := [], rbase := [],
    tok := [], ahead := [], laStop := none, owned := none, reload := false, resumed := false, wantsShadow := none, wantsVec := none, inChain := false }

/-- A chain or an update program on the vector engine (R109, R131). -/
structure ChainRun where
  owner   : Stream
  job     : Nat
  cid     : Nat
  /-- The chains still to run, the one running first, with their roles bound: descriptor bytes, role bases, extent or 0, and whether
  the chain is elementwise. -/
  descs   : List (Bytes × List Nat × Nat × Bool)
  idx     : Nat
  vdone   : Nat
  abase   : Nat
  /-- The address registers of its stream, which stand still while it runs (R109). -/
  areg    : Tbl Nat
  /-- Draws reserved beyond the chunk's (R128). -/
  extra   : Nat
  stopped : Bool
  word    : BitVec 128
  /-- XACCs, by number, that another stream's work has touched while the chain ran (R122). -/
  hit     : List Nat
  deriving DecidableEq, Repr

/-- A retirement that waits for its semaphore to fall below 15 (R90): the semaphore, the stream (4 for an engine beside the tile's), whether
the stream waits with it, its command, and the token it releases. -/
structure SemWait where
  key    : Nat
  st     : Nat
  blocks : Bool
  cid    : Nat
  tok    : Option Nat
  deriving DecidableEq, Repr

/-- A logical tile. -/
structure Tile where
  /-- TILE_GEOM and TILE_BYPASS, fixed at Dawn. -/
  width   : Nat
  phys    : Nat
  die     : Nat
  spare   : Bool
  osBanks : Nat
  bypass  : List Nat
  sram    : Mem
  /-- Poisoned 64-bit words, by word number (R87). -/
  poison  : Tbl Unit
  seqs    : Tbl Seq
  /-- Semaphores per job: key 16 × job + semaphore (R90); retirements waiting at 15, oldest first. -/
  sems    : Tbl Nat
  semWait : List SemWait
  shadow  : Option WBlock
  active  : Option WBlock
  /-- The swap of the shadow block waits for draws since this instant (R104). -/
  swapWait : Option Nat
  passes  : List Pass
  closes  : List Close
  dmas    : List Dma
  defq    : List DefBlock
  defRun  : Option DefRun
  /-- Deferred blocks started so far: the number of the next one. -/
  defNo   : Nat
  /-- Layer markers handed over by LMARK (job, layer), oldest first (R99). -/
  lmarks  : List (Nat × Nat)
  chain   : Option ChainRun
  /-- Chains stopped by a forced suspension that another chain, or another command's, has followed on the engine (R129). -/
  parked  : List ChainRun
  deriving DecidableEq, Repr

/-- A sequencer's state saved in fabric SRAM while another command's chunk runs on the sequencer (R31, R92, R107): its registers, its
stopped transfers and chain, its deferred queue, and the retirements its streams wait for. -/
structure SavedSeq where
  seq    : Seq
  dmas   : List Dma
  /-- Its chains stopped on the engine. -/
  chain  : List ChainRun
  defq   : List DefBlock
  defRun : Option DefRun
  semWait : List SemWait
  deriving DecidableEq, Repr

/-- A tile before Dawn assigns it. -/
def Tile.init : Tile :=
  { width := 256, phys := 0, die := 0, spare := false, osBanks := 60, bypass := [], sram := [], poison := [], seqs := [],
    sems := [], semWait := [], shadow := none, active := none, swapWait := none, passes := [],
    closes := [], dmas := [], defq := [], defRun := none, defNo := 0, lmarks := [], chain := none, parked := [] }

/-! ## Memory stacks (R134 to R162) -/

/-- A channel controller (device channel number 0 to 2,047). -/
structure Chan where
  failed  : Bool
  /-- Consecutive failed retraining steps (R156), corrected errors since Dawn and in this frame, and whether 16 of them in one frame put
  the channel ahead of its turn (R155). -/
  failRun : Nat
  ce      : Nat
  ceFrame : Nat
  urgent  : Bool
  /-- Next sector of the patrol scrub, and sectors requested in this work window and in the last one (R152). -/
  scrub   : Nat
  load    : Nat
  last    : Nat
  /-- Sectors waiting for their write-back after a correction, and the tag-refresh queue, oldest first (R137, R141). -/
  wbq     : List Nat
  tagq    : List Nat
  /-- Touch filter: sub-blocks touched since the last advance of the stamp (R173). -/
  touched : List Nat
  /-- Stack temperature at the channel's last retraining step (R155), and refresh commands issued on its own timer, modulo
  512 (R157). -/
  stepTemp : Nat
  refresh : Nat
  deriving DecidableEq, Repr

/-- A channel at Dawn. -/
def Chan.init : Chan :=
  { failed := false, failRun := 0, ce := 0, ceFrame := 0, urgent := false, scrub := 0, load := 0, last := 0, wbq := [], tagq := [],
    touched := [], stepTemp := 0, refresh := 0 }

/-- A stack (R154): temperature, hot state, slices since a reading of 80 °C or more, whether 85 °C and 80 °C have been read
since the last slice, whether 95 °C is reported, the logical channel whose retraining turn is next, the channel that this slice retrains
(R155), those whose step failed and is repeated in the next slice (R156), and refresh commands issued, modulo 512 (R153). -/
structure Stack where
  temp  : Nat
  hot   : Bool
  cool  : Nat
  saw85 : Bool
  saw80 : Bool
  hot95 : Bool
  turn  : Nat
  step  : Option Nat
  again : List Nat
  refresh : Nat
  deriving DecidableEq, Repr

/-- A stack at Dawn. -/
def Stack.init : Stack :=
  { temp := 0, hot := false, cool := 0, saw85 := false, saw80 := false, hot95 := false, turn := 0, step := none, again := [],
    refresh := 0 }

/-- A request a channel controller accepts (R144), with what its ECC logic finds. -/
inductive MemReq where
  | read (pa n : Nat) (ecc : List Ecc)
  | write (pa : Nat) (data : Bytes) (mask : List Bool) (poison : Bool) (ecc : List Ecc)
  | add (pa : Nat) (addend : Bytes) (fmt mask : Nat) (ecc : Ecc)
  deriving DecidableEq, Repr

/-- The answer of a channel controller to a request: data, poison per sector, completion status and numeric status. -/
structure MemResp where
  data   : Bytes
  poison : List Bool
  status : Nat
  nstat  : Nat
  deriving DecidableEq, Repr

/-- The memory stacks: contents by device physical address, poisoned sectors and AGE tags by sector number. -/
structure Stacks where
  bytes  : Mem
  poison : Tbl Unit
  age    : Tbl Nat
  /-- Bits of a sector's cells that differ from what was last written to it (R136): 0 to 255 of its data, 256 to 319 of its metadata
  word.  No command brings a difference about: it is an input of the machine. -/
  flips  : Tbl (List Nat)
  kd     : Word64
  chans  : Tbl Chan
  stks   : Tbl Stack
  selfRefresh : Bool
  /-- Touches on their way to the migration engine: (channel or 2048 for the line engine, sub-block key). -/
  touches : List (Nat × Nat)
  ratio  : Nat
  busiest : Nat
  skewRun : Nat
  mean   : Nat
  /-- Stacks whose regular retraining step has been made in this slice (R155). -/
  stepped : List Nat
  /-- The channel whose step a self-test has asked for in this slice (R155, R467). -/
  test   : Option Nat
  /-- Answers returned since reset, oldest first, each with the source port it went to (R144). -/
  answers : List (Nat × MemResp)
  /-- The instant of the last request: of a channel by its number, to the adders of group g by 4,096 + g, of the line engine by 8,192, to a
  whole group g by 8,400 + g (R161, R190). -/
  use    : Tbl Nat
  /-- The work that runs has waited: its sectors were counted when it was asked for (R162). -/
  counted : Bool
  deriving DecidableEq, Repr

/-! ## Unified range and host tier (R163 to R191) -/

/-- Where a page's data is (R163). -/
inductive Backing where
  | stack (frame : Nat)
  | owned (frame : Nat)
  | shared (frame : Nat)
  deriving DecidableEq, Repr

/-- A mapped page.  A migrating page names its destination. -/
structure Page where
  back : Backing
  pin  : Bool
  dest : Option Backing
  /-- Sub-blocks already at the destination. -/
  moved : Nat
  /-- Touched in this age period, and in the one before it (R176). -/
  hitNow : Bool
  hitLast : Bool
  deriving DecidableEq, Repr

/-- A migration in progress: the page, and whether all sub-blocks are copied and only the source frame is left to free.  Of its sub-blocks
(R177) those below `copied` are DESTINATION, that one is COPYING once `copying` holds, the others are SOURCE. -/
structure Mig where
  job  : Nat
  vpn  : Nat
  src  : Backing
  dest : Backing
  copied : Nat
  copying : Bool
  done : Bool
  deriving DecidableEq, Repr

/-- A line of the host-line cache (R182): modified, exclusive or shared, and its 64 bytes. -/
structure HostLine where
  modified : Bool
  excl     : Bool
  data     : Bytes
  deriving DecidableEq, Repr

/-- An UNMAP waiting for its tick (R169). -/
structure UnmapReq where
  job   : Nat
  vpn   : Nat
  count : Nat
  queue : Nat
  cid   : Nat
  deriving DecidableEq, Repr

/-- The answer to the last snoop (R182): whether the device held the line, and the modified data it returned. -/
structure SnoopResp where
  hit  : Bool
  data : Option Bytes
  deriving DecidableEq, Repr

/-- The device-to-host CXL.cache requests of R181. -/
inductive CxlReq where
  | rdCurr
  | itoMWr
  | rdShared
  | rdOwn
  | dirtyEvict
  | cleanEvict
  deriving DecidableEq, Repr

/-- The range, pool, host tier and migration engine. -/
structure Urng where
  /-- Pages by 2^27 × job + page number. -/
  pages   : Tbl Page
  /-- Owner page of every stack frame in use, and of every host frame in use (host frame = host physical address / 2 MiB). -/
  frames  : Tbl Nat
  hframes : Tbl Nat
  /-- Granted host-tier regions: first host frame and count. -/
  regions : List (Nat × Nat)
  /-- A region being removed takes no new page (R186). -/
  leaving : List (Nat × Nat)
  pool    : Nat
  stamp   : Nat
  /-- Frame at whose tick the stamp last advanced. -/
  stampAt : Option Nat
  period  : Nat
  /-- Summary entries: 32 × frame + sub-block, host frames above 2^45; unlisted entries are COLD. -/
  summary : Tbl Nat
  hand    : Nat
  thresh  : Nat
  evicting : Bool
  /-- A job below its floor, or a PIN page, waits for frames: victims of any age (R167, R171, R175). -/
  wants   : Bool
  /-- Commands that waited for a frame or for a migration are to be looked at again. -/
  again   : Bool
  victim  : Option Nat
  found   : Bool
  up      : Option Mig
  down    : Option Mig
  unmaps  : List UnmapReq
  lines   : Tbl HostLine
  /-- Plaintext the job wrote to device-owned host pages, by host physical address; an unlisted byte is undefined (R168). -/
  owned   : Mem
  /-- Host-tier sectors known poisoned, by host physical address / 32. -/
  hpoison : Tbl Unit
  /-- CXL.cache requests sent since reset, newest first, each with its line (host physical address / 64). -/
  requests : List (CxlReq × Nat)
  snoop   : SnoopResp
  deriving DecidableEq, Repr

/-! ## Embedding tables, hot rows and replicas (R192 to R220) -/

/-- A publish this device has started (R202): target frame, command, tag, and the results received by rank. -/
structure PubWait where
  ftgt    : Nat
  vnum    : Nat
  queue   : Nat
  cid     : Nat
  pseq    : Nat
  replies : List (Nat × Nat)
  deriving DecidableEq, Repr

/-- A table descriptor: its fixed part (R194), the current version slot and the other one (R195), the other slot's state
(0 EMPTY, 1 STAGED, 2 PUBLISHED, 3 RETAINED) and frame (R201). -/
structure Table where
  fixed   : Bytes
  cur     : Bytes
  oth     : Bytes
  othSt   : Nat
  othFrame : Nat
  /-- Publishes this device has started for the table. -/
  pub     : List PubWait
  /-- TBL_DESTROY accepted (queue, command). -/
  destroy : Option (Nat × Nat)
  /-- Last step updated here; the step whose batches run; (step, rank) of the closes held. -/
  last    : Option Nat
  updating : Option Nat
  /-- The hyperparameter blocks loaded in this step: die, version, the 64 bytes. -/
  hdone  : List (Nat × Nat × Bytes)
  closes  : List (Nat × Nat)
  deriving DecidableEq, Repr

/-- A counter of the hot-row monitor (R207). -/
structure HotCount where
  job   : Nat
  tid   : Nat
  row   : Nat
  count : Nat
  deriving DecidableEq, Repr

/-- A hot row this device owns (R209): updated or to be sent again since its last refresh, and the data frame of the round that sent it last. -/
structure HotRow where
  tid   : Nat
  row   : Nat
  dirty : Bool
  sent  : Option Nat
  deriving DecidableEq, Repr

/-- The copy written in a round that is not yet live (R211): which, the round's data frame, and the row written. -/
structure FreshCopy where
  copy   : Nat
  dframe : Nat
  tid    : Nat
  row    : Nat
  deriving DecidableEq, Repr

/-- A replica slot of the directory (R209): row held, live copy, and per copy VNUM, data frame, digest and written length. -/
structure RepSlot where
  tid    : Nat
  row    : Nat
  live   : Option Nat
  vnum   : List Nat
  dframe : List Nat
  digest : List Nat
  len    : List Nat
  fresh  : Option FreshCopy
  deriving DecidableEq, Repr

/-- A refresh round received from an owner rank (R211), and whether a tick has found it incomplete. -/
structure RoundIn where
  job    : Nat
  rank   : Nat
  dframe : Nat
  count  : Nat
  total  : Option Nat
  late   : Bool
  deriving DecidableEq, Repr

/-- A refresh round sent (R210): data frame and hot row numbers still to send. -/
structure RoundOut where
  dframe : Nat
  left   : List Nat
  sent   : Nat
  deriving DecidableEq, Repr

/-- The table logic. -/
structure Emb where
  /-- Tables by 4,096 × job + TID. -/
  tables  : Tbl Table
  monitor : List HotCount
  /-- Hot rows by 65,536 × job + h; replica slots by 65,536 × job + slot; rounds being received. -/
  hot     : Tbl HotRow
  slots   : Tbl RepSlot
  rounds  : List RoundIn
  roundOut : Tbl RoundOut
  /-- REPL_DROP messages received (job, slot, table, row), applied at the next tick. -/
  drops   : List (Nat × Nat × Nat × Nat)
  /-- Digest cursor of every job (R215): its items already visited in the present turn; and the items of each job checked in this slice. -/
  cursor  : Tbl Nat
  sampled : Tbl Nat
  pseq    : Nat
  /-- Tick at which the last measurement window ended (R207). -/
  windowAt : Nat
  deriving DecidableEq, Repr

/-! ## Walkers, lookups and updates (R221 to R252) -/

/-- A walker transfer in progress (R224). -/
structure Xfer where
  out  : Bool
  loc  : Nat
  addr : Nat
  len  : Nat
  deriving DecidableEq, Repr

/-- A row walker (R221). -/
structure Walker where
  regs  : Tbl Nat
  sb    : Tbl Nat
  loc   : Mem
  pc    : Nat
  /-- Has a part in the command; has retired CBND in this chunk; has retired END; the debug port holds it. -/
  active : Bool
  bound : Bool
  ended : Bool
  halted : Bool
  xfers : List Xfer
  /-- The handle it waits for, and an LKSEND or UPSEND that waits: for combine space while it has no handle, then for requester
  entries (R228). -/
  waitH : Option Nat
  waitD : Option (BitVec 32)
  deriving DecidableEq, Repr

/-- A walker outside any command. -/
def Walker.init : Walker :=
  { regs := [], sb := [], loc := [], pc := 0, active := false, bound := false, ended := false, halted := false, xfers := [],
    waitH := none, waitD := none }

/-- A walker cluster: its program store and the command it serves. -/
structure Cluster where
  job   : Nat
  queue : Nat
  cid   : Nat
  /-- Chunks this cluster has begun; the program is fetched at the first, and whether it has been. -/
  chunks : Nat
  prog  : Bytes
  fetched : Bool
  deriving DecidableEq, Repr

/-- A cluster's state saved while another command's chunk runs on it (R31, R222). -/
structure SavedCluster where
  cluster : Cluster
  walkers : List Walker
  deriving DecidableEq, Repr

/-- A segment of a flow (R228, R242): bag, row indices, weights (WSUM), and for updates the bag's count and gradient, and the winners (MAX). -/
structure Seg where
  bag   : Nat
  idx   : List Nat
  wgt   : List Nat
  n     : Nat
  grad  : List Nat
  wins  : List Nat
  deriving DecidableEq, Repr

/-- A requester entry of the Lookup Flow Table (R227). -/
structure RFlow where
  job     : Nat
  handle  : Nat
  /-- Position of the flow in the handle's sending order. -/
  pos     : Nat
  rank    : Nat
  segs    : List Seg
  attempt : Nat
  fseq    : Nat
  rsv     : Nat
  /-- Frame of the last send; a deferred flow's target frame. -/
  sent    : Nat
  tframe  : Option Nat
  /-- Replies (by OSEQ) of the current attempt that have arrived, and those whose partials have been added in any attempt. -/
  recv    : List Nat
  got     : List Nat
  /-- The FLOW_END of the attempt: CODE, DETAIL, OSEQ, RSV, TFRAME. -/
  fin     : Option (Nat × Nat × Nat × Nat × Nat)
  deriving DecidableEq, Repr

/-- A handle (R228): descriptor, table version, per-bag counts and combine XACCs, and the flows in sending order. -/
structure Handle where
  job     : Nat
  walker  : Nat
  cid     : Nat
  upd     : Bool
  desc    : Bytes
  tid     : Nat
  vnum    : Nat
  slot    : Bytes
  fixed   : Bytes
  dim     : Nat
  space   : Nat
  counts  : Tbl Nat
  /-- XACCs by bag × dim + element; winning rows for MAX. -/
  acc     : Tbl XAcc
  wins    : Tbl Nat
  poisoned : List Nat
  dropped : Nat
  retries : Nat
  firstRef : Nat
  /-- Flows not yet sent for want of an entry: owner rank and segments. -/
  queue   : List (Nat × List Seg)
  /-- Final state per flow in sending order: rank, code, reason or delay, attempts; code 4 while open. -/
  flows   : List (Nat × Nat × Nat × Nat)
  /-- Bags touched by a flow that was not served. -/
  unserved : List Nat
  ended   : Option Nat
  deriving DecidableEq, Repr

/-- An owner entry of the Lookup Flow Table (R227). -/
structure OFlow where
  job    : Nat
  upd    : Bool
  rrank  : Nat
  flowid : Nat
  tid    : Nat
  vnum   : Nat
  pool   : Nat
  rfmt   : Nat
  waitUpd : Bool
  cls    : Nat
  step   : Nat
  attempt : Nat
  fseq   : Nat
  segs   : List Seg
  cost   : Nat
  /-- Order of admission. -/
  seq    : Nat
  deriving DecidableEq, Repr

/-- An update flow admitted for a step not yet updated (R309): its final code (CODE, DETAIL, NSTAT) once known, and the STREAM values of
repeats waiting for it. -/
structure UpdSeen where
  job   : Nat
  tid   : Nat
  step  : Nat
  src   : Nat
  fseq  : Nat
  code  : Option (Nat × Nat × Nat)
  again : List Nat
  deriving DecidableEq, Repr

/-- An entry of the merge store (R244): exact sums in units of 2^-149, specials per element, and the occurrence count. -/
structure MergeEnt where
  job   : Nat
  tid   : Nat
  vnum  : Nat
  step  : Nat
  row   : Nat
  /-- Its slot at MERGE_BASE. -/
  slot  : Nat
  count : Nat
  acc   : List Int
  spec  : List Nat
  deriving DecidableEq, Repr

/-- A reservation of the book (R238). -/
structure Resv where
  frame : Nat
  token : Nat
  cost  : Nat
  job   : Nat
  deriving DecidableEq, Repr

/-- A line of a row cache (R230): its sector, and the table whose rows it was last used for. -/
structure CacheLine where
  key : Nat
  tid : Nat
  deriving DecidableEq, Repr

/-- The table engine. -/
structure Lkp where
  walkers  : Tbl Walker
  clusters : Tbl Cluster
  handles  : Tbl Handle
  nextHandle : Nat
  rflows   : Tbl RFlow
  oflows   : Tbl OFlow
  nextSeq  : Nat
  charged  : Nat
  reserved : Nat
  book     : List Resv
  nextToken : Nat
  lastUse  : Nat
  merge    : List MergeEnt
  seen     : List UpdSeen
  /-- Steps this device's requesters have closed: (job, TID, step). -/
  closed   : List (Nat × Nat × Nat)
  /-- Row cache: per die and set, the sectors held, most recently used first (R230). -/
  cache    : Tbl (List CacheLine)
  deriving DecidableEq, Repr

/-! ## Dense layers and the Reduction Engine (R253 to R283, R303, R312) -/

/-- A range that is ready to be sent (R267): shard, path (0 main, 1 check), first element, elements, wire code of R265,
poison, and the encoded body. -/
structure RRange where
  shard  : Nat
  path   : Nat
  off    : Nat
  count  : Nat
  wire   : Nat
  poison : Bool
  body   : Bytes
  deriving DecidableEq, Repr

/-- A segment ready for the all-gather (R274). -/
structure AgSeg where
  step   : Nat
  shard  : Nat
  seg    : Nat
  digest : Nat
  body   : Bytes
  /-- Its AG_DATA header, which every member forwards unchanged. -/
  hdr    : Bytes
  deriving DecidableEq, Repr

/-- A sampled block at its owner (R270): what has come on the main path, piece by piece (first element within the block), and on the check
path, as FP32 codes. -/
structure Sample where
  blk   : Nat
  main  : List (Nat × List Nat)
  check : Option (List (Nat × Nat))
  deriving DecidableEq, Repr

/-- A dense layer. -/
structure DLayer where
  desc   : Bytes
  /-- This device's group index. -/
  gidx   : Nat
  step   : Nat
  /-- PHASE of DTR_LSTEP. -/
  phase  : Nat
  marks  : Nat
  lastSkip : Bool
  /-- Place in the order in which steps started (R266). -/
  order  : Nat
  /-- Ranges ready to send, oldest first. -/
  out    : List RRange
  /-- Per path: ranges sent, the grant received (and one received already for the next step), ranges consumed, the grant given (R303). -/
  sent   : List Nat
  grant  : List Nat
  grantNext : List Nat
  taken  : List Nat
  given  : List Nat
  /-- Per path: elements received in this step, and those of them that go on to the successor (R266). -/
  arrived : List Nat
  through : List Nat
  /-- Segments handed to the gathering's sends in this step; whether RANK_MOVE has ended the gathering (R266, R451). -/
  handed : Nat
  ended  : Bool
  /-- The step whose bytes a segment holds, by 2^32 × shard + segment (R265). -/
  bytes  : Tbl Nat
  /-- Owner: the main-path ranges written to RDBASE (first element, count), and the sampled blocks not yet compared. -/
  owned  : List (Nat × Nat)
  samples : List Sample
  /-- This device's vote, the first failing block, the ORed votes, the next round to receive, and verdicts received early
  (step, round, result). -/
  vote   : Nat
  failBlk : Option Nat
  votes  : Nat
  round  : Nat
  /-- Rounds of the exchange whose VERDICT has been sent. -/
  sentRounds : Nat
  early  : List (Nat × Nat × Nat)
  /-- The first address at which this member found poison that it votes for in this step (R457). -/
  poisonAt : Option Nat
  /-- An access to a layer array reached an unmapped page in this step (R278). -/
  access : Bool
  /-- Next update piece; the frame in which it began, when it has not ended (R272). -/
  next   : Nat
  running : Option Nat
  /-- Segments written with a matching digest in this step, (shard, segment); those with a recorded digest from any step; those waiting to
  be sent; those asked for again. -/
  segs   : List (Nat × Nat)
  known  : List (Nat × Nat)
  ag     : List AgSeg
  fetch  : List (Nat × Nat)
  /-- Frame in which the verdict was known. -/
  gatherAt : Nat
  /-- Frame of the last progress, and whether the stall has been reported since. -/
  progress : Nat
  stalled : Bool
  deriving DecidableEq, Repr

/-- A layer at creation (R257). -/
def DLayer.init (desc : Bytes) (gidx : Nat) : DLayer :=
  { desc := desc, gidx := gidx, step := 0, phase := 0, marks := 0, lastSkip := false, order := 0,
    out := [], sent := [0, 0], grant := [0, 0], grantNext := [0, 0], taken := [0, 0], given := [0, 0], arrived := [0, 0], through := [0, 0], handed := 0, ended := false, bytes := [], owned := [], samples := [],
    vote := 0, failBlk := none, votes := 0, round := 0, sentRounds := 0, early := [], poisonAt := none, access := false, next := 0, running := none, segs := [], known := [], ag := [],
    fetch := [], gatherAt := 0, progress := 0, stalled := false }

/-- The dense training block. -/
structure Dtr where
  /-- Layers by 65,536 × job + LAYER. -/
  layers : Tbl DLayer
  /-- Jobs whose dense mapping is fixed (R255). -/
  frozen : List Nat
  nextOrder : Nat
  /-- Frame and number of the slot that has begun last (R267). -/
  slot   : Option (Nat × Nat)
  deriving DecidableEq, Repr

/-! ## Zorben links and fabric (R284 to R320) -/

/-- What binds a message to slots (R266, R267): its job and collective, the layer's place in the order of steps, and for a range of a
sampled block (R270) the keys of its own crossing and of the other path's. -/
structure Bound where
  job    : Nat
  coll   : Nat
  order  : Nat
  blk    : Option Nat
  other  : Option Nat
  deriving DecidableEq, Repr

/-- A message this device sends, from its queueing to its release from the transmit store (R292, R299, R304, R307). -/
structure TxMsg where
  id     : Nat
  dst    : Nat
  jobid  : Nat
  enc    : Bool
  resent : Bool
  oseq   : Nat
  stream : Nat
  fseq   : Nat
  vc     : Nat
  hdr    : Bytes
  body   : Bytes
  /-- The send number (R299), none for a message bound to a slot. -/
  snum   : Option Nat
  /-- The plane chosen; none while no plane is usable (R299). -/
  plane  : Option Nat
  /-- NFRAME and NCTR, once the first flit has been placed on the link (R304). -/
  nonce  : Option (Nat × Nat)
  flits  : Nat
  placed : Nat
  acked  : Nat
  /-- Its bytes on the link, sealed when its first flit was placed (R304). -/
  img    : Bytes := []
  bound  : Option Bound := none
  deriving DecidableEq, Repr

/-- A sequenced flit in a replay buffer (R290): LSEQ, the message and the flit's place in it (none: a control flit), its channel, SOM, EOM
and payload, and how often it has been replayed. -/
structure TxFlit where
  lseq    : Nat
  msg     : Option (Nat × Nat)
  payload : Bytes
  replays : Nat
  vc      : Nat := 0
  som     : Bool := true
  eom     : Bool := true
  deriving DecidableEq, Repr

/-- A flit as a port puts it on the wire (R289): the fields of its header and its payload. -/
structure WireFlit where
  kind    : Nat
  vc      : Nat
  som     : Bool
  eom     : Bool
  lseq    : Nat
  ack     : Nat
  nak     : Bool
  cvc     : Nat
  cred    : Nat
  payload : Bytes
  deriving DecidableEq, Repr

/-- A partial message at a receiver (R293). -/
structure Partial where
  vc    : Nat
  bytes : Bytes
  deriving DecidableEq, Repr

/-- A link port. -/
structure Port where
  /-- State code of R286, used link held, lanes in service (a mask), consecutive failed trainings, step of R287 in progress. -/
  state  : Nat
  link   : Option Nat
  lanes  : Nat
  tfail  : Nat
  step   : Nat
  upFrame : Nat
  /-- Buffer sizes of the switch's LINK_HELLO and the credits held, per VC (R302). -/
  bufs   : List Nat
  credits : List Nat
  /-- Credits owed to the switch per VC. -/
  owed   : List Nat
  lseqTx : Nat
  lseqRx : Nat
  /-- Flits are discarded until the replay arrives; and whether the NAK that asks for it is still to be sent. -/
  nak    : Bool
  nakDue : Bool
  /-- Flits accepted since an ACK was last returned. -/
  unacked : Nat
  replay : List TxFlit
  reasm  : List Partial
  /-- VC 3 flits placed since the last VC 4 flit (R298). -/
  rr     : Nat
  /-- Control flits waiting. -/
  ctl    : List Bytes
  /-- ZOR_CENSUS: rate codes and classes of the lanes. -/
  ber    : Nat
  cls    : Nat
  dawnCensus : Bool
  tx     : Nat
  rx     : Nat
  fec    : Nat
  crc    : Nat
  reps   : Nat
  /-- Payload flits transmitted in this work window (R301), and payload bytes sent in the current slot by job and collective (R41). -/
  winTx  : Nat
  share  : Tbl Nat
  /-- Bits the FEC corrected: frame, lane and count (R314), and the frame of the last census evaluation. -/
  errs   : List (Nat × Nat × Nat)
  evalAt : Option Nat
  /-- The flits this port has put on the wire, newest first (R289 to R291, R302), and the instant of its last message flit (R319). -/
  wire   : List WireFlit
  sentAt : Nat
  deriving DecidableEq, Repr

/-- A port before training. -/
def Port.init : Port :=
  { state := 0, link := none, lanes := 0, tfail := 0, step := 0, upFrame := 0, bufs := [0, 0, 0, 0, 0],
    credits := [0, 0, 0, 0, 0], owed := [0, 0, 0, 0, 0], lseqTx := 0, lseqRx := 0, nak := false, nakDue := false, unacked := 0,
    replay := [], reasm := [], rr := 0, ctl := [], ber := 0, cls := 0, dawnCensus := true, tx := 0, rx := 0, fec := 0,
    crc := 0, reps := 0, winTx := 0, share := [], errs := [], evalAt := none, wire := [], sentAt := 0 }

/-- An identity of R294 already acted on: job context (64 for device messages), TYPE, the identity's fields, and the frame. -/
structure Ident where
  job    : Nat
  typ    : Nat
  fields : List Nat
  frame  : Nat
  deriving DecidableEq, Repr

/-- A bulk transfer of this device (R311): its tile, or for a restore which 4 GiB of the log it reads; parts not yet answered, by
offset. -/
structure Bulk where
  tag    : Nat
  tile   : Nat
  parts  : List Nat
  restore : Bool
  deriving DecidableEq, Repr

/-- The fabric. -/
structure Zor where
  ports  : Tbl Port
  /-- Transmit store and queues, oldest first. -/
  store  : List TxMsg
  nextMsg : Nat
  /-- Reach table: marks by 32 × DST + plane, with the frame at which the mark was set (R297). -/
  reach  : Tbl Nat
  /-- Spray keys by job (R299), send numbers by job (64 for device messages), message counters of this frame by job. -/
  sprayKeys : Tbl Word64
  snum   : Tbl Nat
  nctr   : Tbl Nat
  /-- Flow sequence counters by job (R306). -/
  fseq   : Tbl Nat
  seen   : List Ident
  /-- Ports that became FAILED, to be replaced by a spare at the next tick (R316). -/
  swaps  : List Nat
  /-- LINK_AUTH has been raised in this frame (R305). -/
  authRaised : Bool
  skewRun : Nat
  ratio  : Nat
  busiest : Nat
  bulks  : List Bulk
  nextTag : Nat
  /-- The link that took the last range of a collective, by 65,536 × job + collective (R266); the links that carried the ranges of sampled
  blocks (R270). -/
  turn   : Tbl Nat
  crossed : Tbl Nat
  /-- Requests released from the transmit store that the destination's protocol has not acknowledged yet (R297). -/
  released : List TxMsg
  /-- The used links are in low-power idle, in Night (R370, R374). -/
  idle : Bool
  deriving DecidableEq, Repr

/-! ## Check units (R351 to R361) -/

/-- A write of a check unit's register: its offset in the unit's window, whether it is of 64 bits or of a high half, and the value. -/
structure ChkReq where
  reg  : Nat
  wide : Bool
  high : Bool
  v    : Nat
  deriving DecidableEq, Repr

/-- A check unit: its registers, the configuration latched by START, the CRC register, and the alive value. -/
structure ChkUnit where
  cfg    : Nat
  poly   : Nat
  inival : Nat
  expect : Nat
  len    : Nat
  inten  : Nat
  /-- Latched: CHK_CFG, CHK_POLY, CHK_INIT, CHK_LEN. -/
  lcfg   : Nat
  lpoly  : Nat
  linit  : Nat
  llen   : Nat
  reg    : Nat
  count  : Nat
  result : Nat
  isOpen : Bool
  /-- CHK_STAT bits [4:0] and ERRCAUSE. -/
  stat   : Nat
  cause  : Nat
  alive  : Nat
  /-- The writes a host unit has not taken yet, oldest first: at most 32 (R352, R354). -/
  stream : List ChkReq
  /-- The cc it has spent on the oldest. -/
  spent  : Nat
  deriving DecidableEq, Repr

/-- A host unit at reset: open, with the reset values of its registers latched (R355). -/
def ChkUnit.init : ChkUnit :=
  { cfg := 0x3A0, poly := 0x1EDC6F41, inival := 0xFFFFFFFF, expect := 0, len := 0, inten := 0, lcfg := 0x3A0,
    lpoly := 0x1EDC6F41, linit := 0xFFFFFFFF, llen := 0, reg := 0xFFFFFFFF, count := 0, result := 0, isOpen := true,
    stat := 0, cause := 0, alive := 0, stream := [], spent := 0 }

/-! ## Sideband and pins (R474, R484, R488) -/

/-- The I3C target. -/
structure I3c where
  dyn    : Option Nat
  ibiOn  : Bool
  /-- Data of the last answer. -/
  answer : Bytes
  /-- Whether the last transfer was acknowledged. -/
  acked  : Bool
  /-- In-band interrupts raised since reset, oldest first. -/
  raised : List Nat
  deriving DecidableEq, Repr

/-- The signals of R474 that are levels the device drives or latches it keeps in the always-on domain. -/
structure Pins where
  thermtrip : Bool
  pwrdn     : Bool
  /-- PRIORSD latch of R441. -/
  priorSd   : Bool
  deriving DecidableEq, Repr

/-! ## Host port: vectors -/

/-- An entry of the MSI-X table. -/
structure MsixEnt where
  addr   : Nat
  data   : Nat
  masked : Bool
  deriving DecidableEq, Repr

/-- An entry at reset: masked. -/
def MsixEnt.init : MsixEnt := { addr := 0, data := 0, masked := true }

/-- The MSI-X logic: the table by vector, the pending bits, and the vectors sent since reset, oldest first. -/
structure Msix where
  table   : Tbl MsixEnt
  pba     : Tbl Unit
  sent    : List Nat
  deriving DecidableEq, Repr

/-! ## The machine -/

/-- A bit error in SRAM that the ECC has yet to find.  No command brings one about: it is an input of the machine (R87, R230, R456,
R457, R465). -/
inductive Upset where
  /-- A single-bit error in SRAM other than the stacks. -/
  | single
  /-- Any error in a sector of a row cache set (R230): whether it is a single-bit error. -/
  | rowCache (die set : Nat) (one : Bool)
  /-- An uncorrectable word of tile SRAM, by tile-local address (R87). -/
  | tile (tile addr : Nat)
  /-- An uncorrectable error in a job's saved state or descriptors: job, structure of R457, fabric SRAM address (R465). -/
  | context (job kind addr : Nat)
  /-- An uncorrectable error in a page table, a structure all jobs share or the intake rings: block, structure, address (R457). -/
  | reserve (block kind addr : Nat)
  deriving DecidableEq, Repr

/-- The whole block. -/
structure State where
  /-- Commands waiting, first in first out. -/
  pending  : List Instr
  /-- Commands whose work waits inside the device for draws, channels or a copied sub-block, in order of arrival, each with the keys of the
  uses it found not ready (R161, R178, R190). -/
  held     : List (Instr × List Nat)
  /-- Time since the model's reset in units of 2^-6 ns. -/
  now      : Nat
  /-- How many values have been taken from the random number generator, and from the free values. -/
  trngCtr  : Nat
  freeCtr  : Nat
  nextCid  : Nat
  /-- BAR0 registers held as written, by offset; an unlisted one holds its reset value.  Registers that report structured
  state are views of it. -/
  regs     : Tbl Word64
  /-- High halves latched by a read of the low half (R7). -/
  latches  : Tbl Word32
  resp     : HostResp
  msix     : Msix
  hostMem  : Mem
  link     : HostLink
  queues   : Tbl Queue
  /-- The intake reserve, by ring offset (R329). -/
  intake   : Mem
  jobs     : Tbl Job
  clk      : FrameClk
  units    : Tbl ExecUnit
  ledger   : Ledger
  power    : Power
  flt      : Flt
  adnt     : Adnt
  nvm      : Nvm
  dawn     : Dawn
  dlx      : Dlx
  tiles    : Tbl Tile
  stk      : Stacks
  urng     : Urng
  emb      : Emb
  lkp      : Lkp
  dtr      : Dtr
  zor      : Zor
  chk      : Tbl ChkUnit
  /-- Fabric SRAM (R99 SPACE 1), and the firmware words and halts of link engines and management cores (R415). -/
  fabric   : Mem
  coreWords : Tbl Word64
  coreHalts : List Nat
  /-- Saved unit states: sequencers by command number, clusters by 32 × command number + cluster. -/
  savedSeqs : Tbl SavedSeq
  savedClusters : Tbl SavedCluster
  i3c      : I3c
  pins     : Pins
  /-- Bit errors present in SRAM, oldest first. -/
  upsets   : List Upset
  deriving DecidableEq, Repr

/-- The ledger before Dawn stage 3 (R422). -/
def Ledger.init : Ledger :=
  { on := false, standing := 0, held := 0, tail := 0, bucket := 0, phase := 0, waiting := [], holds := [], granted := [],
    overheld := false, ballast := 0 }

/-- The power block before Dawn: the device is powered down; limits at their defaults (R366, R427). -/
def Power.init : Power :=
  { state := .off, shut := false, pend := none, dusk := none, endsDusk := none, night := .none, wake := none,
    limits := { noon := 2800, eve := 1200, plimit := 1300, gov := 0, tsoft := 95 }, pendLim := [], sameState := [],
    die0 := 0, die1 := 0, fab := 0, tripped := false, hold := false, soft := false, govSpent := 0,
    rails := (List.range 8).map fun i => (i, Rail.init), overRun := 0, watts := [], overPwr := false, energy := 0,
    energyRest := 0, vout := none }

/-- The frame clock before Dawn stage 8. -/
def FrameClk.init : FrameClk :=
  { lock := .acquiring, secondary := false, holdCnt := 0, fnum := 0, frameStart := 0, len := 800000, permille := 30,
    src0 := ⟨0, 0⟩, src1 := ⟨0, 0⟩, gathers := [], due := 0, trim := 0, run0 := ⟨0, 0, 0⟩, run1 := ⟨0, 0, 0⟩,
    renumNow := none, renumCnt := 0, renumDelta := 0, lastCorr := [], delay := [], dlySent := [], stepsDone := false,
    step7Wait := false, windowDone := false, sliceDone := false, reserveDone := false, clkChange := false, eveChange := false, forcedNow := [], posLatch := none,
    emitted := none, sliceUsed := 0, digest := 0 }

/-- The fault block before any fault. -/
def Flt.init : Flt :=
  { fatal := false, seq := 0, merged := [], last := none, fatalRec := none, ringEn := false, log2 := 8, tail := 0,
    head := 0, selftest := none }

/-- Adant before Dawn. -/
def Adnt.init : Adnt :=
  { sram := [], puf := .ofNatLT 0 (Nat.two_pow_pos _), keys := [], bekWait := [], rb := Rollback.init, rbIsB := false, idMod := [], idPriv := [], cert := [], certOk := false, idValid := false,
    recovery := false, bootNonce := [], bekPub := [], bekPriv := [], bekReady := false, bootDig := [], manDig := [],
    fwDig := [], bootSvn := 0, fwSvn := 0, debug := 0, dbgMax := 0, opctr := 0, owners := [], gctr := [], sessions := [],
    window := none, presIn := false, sealBit := false, sealMiss := 0, sealOk := true, sealChk := false,
    sealSince := false, dbgErr := 0 }

/-- Bring-up before the first power-good. -/
def Dawn.init : Dawn :=
  { powered := false, stage := 0, outcome := 0, failStage := 0, cause := 0, t0 := 0, stageT0 := 0, stageUs := List.replicate 10 0,
    total := 0, copies := 0, priorSd := false, man := Manifest.init, mfmt := 0, manIsB := false, rbRetry := false, clamps := [],
    nclamp := 0, dirValid := false, active := 0, tiles := [],
    march := { osBad := [], afBad := [], rcBad0 := [], rcBad1 := [], portBad := [], fatal := false }, excl := List.replicate 8 0, exclDawn := List.replicate 8 0,
    stackUp := List.replicate 8 false, rcOut0 := 0, rcOut1 := 0, clockUs := 0, clockState := 0, clockSrc := 0,
    fnumOut := 0, report := none }

/-- The stacks before Dawn: nothing written. -/
def Stacks.init : Stacks :=
  { bytes := [], poison := [], age := [], flips := [], kd := 0, chans := [], stks := [], selfRefresh := false, touches := [],
    ratio := 0, busiest := 0, skewRun := 0, mean := 0, stepped := [], test := none,
    answers := [], use := [], counted := false }

/-- The unified range before any job. -/
def Urng.init : Urng :=
  { pages := [], frames := [], hframes := [], regions := [], leaving := [], pool := 0, stamp := 0, stampAt := none, period := 1024,
    summary := [], hand := 0, thresh := 6, evicting := false, wants := false, again := false, victim := none, found := false, up := none,
    down := none, unmaps := [], lines := [], owned := [], hpoison := [], requests := [], snoop := { hit := false, data := none } }

/-- The table logic before any job. -/
def Emb.init : Emb :=
  { tables := [], monitor := [], hot := [], slots := [], rounds := [], roundOut := [], drops := [], cursor := [],
    sampled := [],    pseq := 0, windowAt := 0 }

/-- The table engine before any job. -/
def Lkp.init : Lkp :=
  { walkers := [], clusters := [], handles := [], nextHandle := 0, rflows := [], oflows := [], nextSeq := 0,
    charged := 0, reserved := 0, book := [], nextToken := 0, lastUse := 0, merge := [], seen := [], closed := [], cache := [] }

/-- The fabric before Dawn stage 7. -/
def Zor.init : Zor :=
  { ports := [], store := [], nextMsg := 0, reach := [], sprayKeys := [], snum := [], nctr := [], fseq := [],
    seen := [], swaps := [], authRaised := false, skewRun := 0, ratio := 0, busiest := 0, bulks := [], nextTag := 0,
    turn := [], crossed := [], released := [], idle := false }

/-- The NVM of a device that has never been written: erased flash of 256 MiB (R418, R486). -/
def Nvm.init : Nvm := { mem := [], sizeLog2 := 28 }

/-- The machine before its first power-good: nothing has run, no memory is listed, every register holds its reset value. -/
def State.reset : State :=
  { pending := [], held := [], now := 0, trngCtr := 0, freeCtr := 0, nextCid := 0, regs := [], latches := [], resp := .none,
    msix := { table := [], pba := [], sent := [] }, hostMem := [],
    link := { width := 0, rate := 0, flit := false, noflit := false, cache := false }, queues := [], intake := [],
    jobs := [], clk := FrameClk.init, units := [], ledger := Ledger.init, power := Power.init, flt := Flt.init,
    adnt := Adnt.init, nvm := Nvm.init, dawn := Dawn.init, dlx := { jobs := [], regions := [], restore := none, sentAt := 0 },
    tiles := [], stk := Stacks.init, urng := Urng.init, emb := Emb.init, lkp := Lkp.init,
    dtr := { layers := [], frozen := [], nextOrder := 0, slot := none }, zor := Zor.init, chk := [], fabric := [], coreWords := [],
    coreHalts := [], savedSeqs := [], savedClusters := [], i3c := { dyn := none, ibiOn := false, answer := [], acked := false, raised := [] },
    pins := { thermtrip := false, pwrdn := false, priorSd := false }, upsets := [] }

/-- Why the machine stops with a fault. -/
inductive Fault where
  /-- Raised by a tile or walker instruction row whose word is the word of another row (R93, R223): the row is told apart
  by the word, so the pair spells no command.  WellFormed excludes it.  Safe: the model stops, the block has no such
  command. -/
  | wordOfAnotherRow
  deriving DecidableEq, Repr

/-- Why the machine gives a command no meaning. -/
inductive Refusal where
  /-- Raised by an arm of exec whose command has no meaning yet.  Safe: the model stops. -/
  | notModelled (mnemonic : String)
  deriving DecidableEq, Repr

end Sys2Proof.Machine
end

