-- ==== Sys2Proof/Machine/Fec.lean ====
section
/-! DEFINITION. The flit on the wire: header, CRC-32 and the two interleaved Reed-Solomon codewords RS(128,124), their parity and the
correction of up to two wrong bytes in each (R289, R290). -/

namespace Sys2Proof.Machine

def flitCrc : CrcSpec := ⟨32, 0x04C11DB7, 0xFFFFFFFF, true, true, 0xFFFFFFFF⟩

/-! ## GF(2^8), x^8 + x^4 + x^3 + x^2 + 1 -/

/-- A field element times the primitive element. -/
def gfStep (a : Nat) : Nat := if 2 * a ≥ 256 then (2 * a) ^^^ 0x11D else 2 * a

/-- A product. -/
def gfMul (a b : Nat) : Nat :=
  ((List.range 8).foldl (fun (x : Nat × Nat) i => (if b.testBit i then x.1 ^^^ x.2 else x.1, gfStep x.2)) (0, a)).1

/-- The inverse of a nonzero element: its 254th power. -/
def gfInv (a : Nat) : Nat :=
  let a2 := gfMul a a
  let a4 := gfMul a2 a2
  let a8 := gfMul a4 a4
  let a16 := gfMul a8 a8
  let a32 := gfMul a16 a16
  let a64 := gfMul a32 a32
  gfMul (gfMul (gfMul a2 a4) (gfMul a8 a16)) (gfMul (gfMul a32 a64) (gfMul a64 a64))

/-! ## The code.  R289 names the field and not the generator: PRESUMED (log 113), the generator's roots are the powers 0 to 3 of the primitive
element, and the first byte of a codeword is its highest coefficient. -/

/-- The parity of 124 bytes. -/
def rsParity (l : List Nat) : List Nat :=
  l.foldl (fun r c =>
    let f := c ^^^ r.getD 0 0
    [r.getD 1 0 ^^^ gfMul f 15, r.getD 2 0 ^^^ gfMul f 54, r.getD 3 0 ^^^ gfMul f 120, gfMul f 64]) [0, 0, 0, 0]

/-- The value of a received codeword at the k-th root. -/
def rsSyndrome (l : List Nat) (k : Nat) : Nat := l.foldl (fun a c => iter k gfStep a ^^^ c) 0

/-- The powers of the primitive element at the 128 places of a codeword, first place first. -/
def rsPlaces : List Nat := ((List.range 127).foldl (fun (l : List Nat) _ => gfStep (l.headD 1) :: l) [1])

/-- The wrong bytes of a codeword, place and error; none when more than two are wrong. -/
def rsErrors (l : List Nat) : Option (List (Nat × Nat)) :=
  let s0 := rsSyndrome l 0
  let s1 := rsSyndrome l 1
  let s2 := rsSyndrome l 2
  let s3 := rsSyndrome l 3
  if s0 = 0 ∧ s1 = 0 ∧ s2 = 0 ∧ s3 = 0 then some []
  else
    let det := gfMul s1 s1 ^^^ gfMul s0 s2
    if det = 0 then
      -- one wrong byte: the syndromes are a geometric sequence
      let x := gfMul s1 (gfInv s0)
      if s0 = 0 ∨ gfMul s2 x ≠ s3 then none
      else (rsPlaces.findIdx? (· == x)).map fun i => [(i, s0)]
    else
      -- two: the roots of z^2 + a z + b
      let d := gfInv det
      let a := gfMul (gfMul s1 s2 ^^^ gfMul s0 s3) d
      let b := gfMul (gfMul s2 s2 ^^^ gfMul s1 s3) d
      match (List.range 128).filter fun i => let z := rsPlaces.getD i 0; gfMul z (z ^^^ a) == b with
      | [i, j] =>
        let x := rsPlaces.getD i 0
        let y := rsPlaces.getD j 0
        let e := gfMul (s1 ^^^ gfMul s0 x) (gfInv (x ^^^ y))
        some [(i, s0 ^^^ e), (j, e)]
      | _ => none

/-! ## A flit sent -/

/-- The header of a flit (R289). -/
def WireFlit.header (f : WireFlit) : Nat :=
  f.kind + f.vc * 2 ^ 2 + b2n f.som * 2 ^ 5 + b2n f.eom * 2 ^ 6 + f.lseq * 2 ^ 8 + f.ack * 2 ^ 20 + b2n f.nak * 2 ^ 32 + f.cvc * 2 ^ 33 + f.cred * 2 ^ 36

/-- Codeword `j` of 256 bytes: those whose place is `j` modulo 2. -/
def flitWord (n j : Nat) (b : Bytes) : List Nat := (List.range n).map fun i => (byteAt b (2 * i + j)).toNat

/-- The 256 bytes of a flit (R289). -/
def WireFlit.bytes (f : WireFlit) : Bytes :=
  let body := toLe 8 f.header ++ slice f.payload 0 236
  let b := body ++ toLe 4 (crcOf flitCrc body)
  let p0 := rsParity (flitWord 124 0 b)
  let p1 := rsParity (flitWord 124 1 b)
  b ++ (List.range 4).flatMap fun i => toLe 1 (p0.getD i 0) ++ toLe 1 (p1.getD i 0)

/-! ## A flit received -/

/-- The bytes of a flit the FEC corrects, place and error bits; a codeword with more than two wrong bytes stays as it is (R290). -/
def fecFixes (b : Bytes) : List (Nat × Nat) :=
  (List.range 2).flatMap fun j => ((rsErrors (flitWord 128 j b)).getD []).map fun e => (2 * e.1 + j, e.2)

/-- A flit after the FEC. -/
def fecApply (fixes : List (Nat × Nat)) (b : Bytes) : Bytes :=
  fixes.foldl (fun b e => patch b e.1 (toLe 1 ((byteAt b e.1).toNat ^^^ e.2))) b

/-- Bits set in a byte. -/
def onesOf (v : Nat) : Nat := sumNat ((List.range 8).map fun i => b2n (v.testBit i))

/-- Corrected bits by lane (R285): byte i of a flit travels on the lanes in service in turn. -/
def lanesFixed (lanes : Nat) (fixes : List (Nat × Nat)) : List (Nat × Nat) :=
  let ls := (List.range 4).filter fun l => bitOf lanes l
  fixes.map fun e => (ls.getD (e.1 % max 1 ls.length) 0, onesOf e.2)

end Sys2Proof.Machine
end

