-- ==== Sys2Proof/Machine/Regs.lean ====
section
/-! DEFINITION. The register map of BAR0: the offset of every register (R3, R4 and the register tables of every
chapter), and for every register its width, its fields, their access codes (R8) and their reset values. -/

namespace Sys2Proof

/-- The access codes of R8. -/
inductive Access where
  | ro
  | rw
  | wo
  | w1c
  | w1s
  | rc
  deriving DecidableEq, Repr

/-- A field of a register: lowest bit, width, access code, reset value (0 where the reset value comes from the
manifest or from Dawn, which the live view of the register supplies). -/
structure FieldDesc where
  lo    : Nat
  width : Nat
  acc   : Access
  reset : Nat
  deriving DecidableEq, Repr

/-- A register or an array of registers: the BAR0 offset of its first one, the strides and counts of its indices
(largest stride first), whether it is 64 bits wide (R7), and its fields. -/
structure RegDesc where
  base   : Nat
  dims   : List (Nat × Nat)
  wide   : Bool
  fields : List FieldDesc
  deriving DecidableEq, Repr

/-! ## Offsets -/


/-- FCLK_STATUS (R44). -/
def Reg.FCLK_STATUS : Nat := 0x10000
/-- FCLK_FNUM (R44). -/
def Reg.FCLK_FNUM : Nat := 0x10008
/-- FCLK_LEN (R44). -/
def Reg.FCLK_LEN : Nat := 0x10010
/-- FCLK_MAINT (R44). -/
def Reg.FCLK_MAINT : Nat := 0x10014
/-- FCLK_POS (R44). -/
def Reg.FCLK_POS : Nat := 0x10018
/-- FCLK_SLOT (R44). -/
def Reg.FCLK_SLOT : Nat := 0x1001C
/-- FCLK_SRC0 (R44). -/
def Reg.FCLK_SRC0 : Nat := 0x10020
/-- FCLK_SRC1 (R44). -/
def Reg.FCLK_SRC1 : Nat := 0x10024
/-- FCLK_OFFSET (R44). -/
def Reg.FCLK_OFFSET : Nat := 0x10028
/-- FCLK_MISSED (R44). -/
def Reg.FCLK_MISSED : Nat := 0x1002C
/-- FCLK_REJECT (R44). -/
def Reg.FCLK_REJECT : Nat := 0x10030
/-- FCLK_OVR (R44). -/
def Reg.FCLK_OVR : Nat := 0x10034
/-- FCLK_OVR_CLK (R44). -/
def Reg.FCLK_OVR_CLK : Nat := 0x10038
/-- FCLK_DEFER (R44). -/
def Reg.FCLK_DEFER : Nat := 0x1003C
/-- FCLK_INT_STAT (R44). -/
def Reg.FCLK_INT_STAT : Nat := 0x10040
/-- FCLK_INT_EN (R44). -/
def Reg.FCLK_INT_EN : Nat := 0x10044
/-- FCLK_DLY (R44). -/
def Reg.FCLK_DLY (i : Nat) : Nat := 0x10100 + 0x4 * i
/-- FCLK_OUTLIER (R44). -/
def Reg.FCLK_OUTLIER (i : Nat) : Nat := 0x10200 + 0x4 * i
/-- TILE_GEOM (R108). -/
def Reg.TILE_GEOM (i : Nat) : Nat := 0x40000 + 0x2000 * i
/-- TILE_DRAW (R108). -/
def Reg.TILE_DRAW (i : Nat) : Nat := 0x40004 + 0x2000 * i
/-- TILE_NSTAT (R108). -/
def Reg.TILE_NSTAT (i : Nat) : Nat := 0x40008 + 0x2000 * i
/-- TILE_DEFQ (R108). -/
def Reg.TILE_DEFQ (i : Nat) : Nat := 0x4000C + 0x2000 * i
/-- TILE_ERR (R108). -/
def Reg.TILE_ERR (i : Nat) : Nat := 0x40010 + 0x2000 * i
/-- TILE_BYPASS (R108). -/
def Reg.TILE_BYPASS (i : Nat) : Nat := 0x40018 + 0x2000 * i
/-- TILE_SEQ (R108). -/
def Reg.TILE_SEQ (i : Nat) (j : Nat) : Nat := 0x40020 + 0x2000 * i + 0x8 * j
/-- TILE_PASSES (R108). -/
def Reg.TILE_PASSES (i : Nat) : Nat := 0x40080 + 0x2000 * i
/-- TILE_ZGATE (R108). -/
def Reg.TILE_ZGATE (i : Nat) : Nat := 0x40088 + 0x2000 * i
/-- TILE_REPLAY (R108). -/
def Reg.TILE_REPLAY (i : Nat) : Nat := 0x40090 + 0x2000 * i
/-- TILE_BANKSTALL (R108). -/
def Reg.TILE_BANKSTALL (i : Nat) : Nat := 0x40094 + 0x2000 * i
/-- TILE_DMASTARVE (R108). -/
def Reg.TILE_DMASTARVE (i : Nat) : Nat := 0x40098 + 0x2000 * i
/-- TILE_DRAWWAIT (R108). -/
def Reg.TILE_DRAWWAIT (i : Nat) : Nat := 0x4009C + 0x2000 * i
/-- TILE_INT_STAT (R108). -/
def Reg.TILE_INT_STAT (i : Nat) : Nat := 0x400C0 + 0x2000 * i
/-- TILE_INT_EN (R108). -/
def Reg.TILE_INT_EN (i : Nat) : Nat := 0x400C4 + 0x2000 * i
/-- VEC_STATUS (R133). -/
def Reg.VEC_STATUS (i : Nat) : Nat := 0x50000 + 0x2000 * i
/-- VEC_NSTAT (R133). -/
def Reg.VEC_NSTAT (i : Nat) : Nat := 0x50004 + 0x2000 * i
/-- VEC_ERR (R133). -/
def Reg.VEC_ERR (i : Nat) : Nat := 0x50008 + 0x2000 * i
/-- VEC_CHAINS (R133). -/
def Reg.VEC_CHAINS (i : Nat) : Nat := 0x50010 + 0x2000 * i
/-- VEC_VECTORS (R133). -/
def Reg.VEC_VECTORS (i : Nat) : Nat := 0x50018 + 0x2000 * i
/-- VEC_STALL (R133). -/
def Reg.VEC_STALL (i : Nat) : Nat := 0x50020 + 0x2000 * i
/-- VEC_HANDOFF (R133). -/
def Reg.VEC_HANDOFF (i : Nat) : Nat := 0x50024 + 0x2000 * i
/-- VEC_DRAWWAIT (R133). -/
def Reg.VEC_DRAWWAIT (i : Nat) : Nat := 0x50028 + 0x2000 * i
/-- VEC_INT_STAT (R133). -/
def Reg.VEC_INT_STAT (i : Nat) : Nat := 0x50040 + 0x2000 * i
/-- VEC_INT_EN (R133). -/
def Reg.VEC_INT_EN (i : Nat) : Nat := 0x50044 + 0x2000 * i
/-- MEM_STATUS (R162). -/
def Reg.MEM_STATUS : Nat := 0x60000
/-- MEM_NSTAT (R162). -/
def Reg.MEM_NSTAT : Nat := 0x60004
/-- MEM_CHSEL (R162). -/
def Reg.MEM_CHSEL : Nat := 0x60008
/-- MEM_CHINFO (R162). -/
def Reg.MEM_CHINFO : Nat := 0x6000C
/-- MEM_CHLOAD (R162). -/
def Reg.MEM_CHLOAD : Nat := 0x60010
/-- MEM_SKEW (R162). -/
def Reg.MEM_SKEW : Nat := 0x60018
/-- MEM_SKEW_CFG (R162). -/
def Reg.MEM_SKEW_CFG : Nat := 0x6001C
/-- MEM_CE (R162). -/
def Reg.MEM_CE : Nat := 0x60020
/-- MEM_UE (R162). -/
def Reg.MEM_UE : Nat := 0x60028
/-- MEM_POISON (R162). -/
def Reg.MEM_POISON : Nat := 0x6002C
/-- MEM_TAGDROP (R162). -/
def Reg.MEM_TAGDROP : Nat := 0x60030
/-- MEM_DRAWWAIT (R162). -/
def Reg.MEM_DRAWWAIT : Nat := 0x60034
/-- MEM_RETRAIN (R162). -/
def Reg.MEM_RETRAIN : Nat := 0x60038
/-- MEM_RETRAIN_FAIL (R162). -/
def Reg.MEM_RETRAIN_FAIL : Nat := 0x6003C
/-- MEM_INT_STAT (R162). -/
def Reg.MEM_INT_STAT : Nat := 0x60040
/-- MEM_INT_EN (R162). -/
def Reg.MEM_INT_EN : Nat := 0x60044
/-- MEM_STK (R162). -/
def Reg.MEM_STK (i : Nat) : Nat := 0x60100 + 0x4 * i
/-- MEM_CHMAP (R162). -/
def Reg.MEM_CHMAP (i : Nat) (j : Nat) : Nat := 0x60200 + 0x40 * i + 0x4 * j
/-- URNG_STATUS (R191). -/
def Reg.URNG_STATUS : Nat := 0x70000
/-- URNG_PERIOD (R191). -/
def Reg.URNG_PERIOD : Nat := 0x70004
/-- URNG_POOL (R191). -/
def Reg.URNG_POOL : Nat := 0x70008
/-- URNG_HTIER (R191). -/
def Reg.URNG_HTIER : Nat := 0x70010
/-- URNG_JOBSEL (R191). -/
def Reg.URNG_JOBSEL : Nat := 0x70018
/-- URNG_MIGCFG (R191). -/
def Reg.URNG_MIGCFG : Nat := 0x7001C
/-- URNG_JOBPOOL (R191). -/
def Reg.URNG_JOBPOOL : Nat := 0x70020
/-- URNG_JOBHOST (R191). -/
def Reg.URNG_JOBHOST : Nat := 0x70028
/-- URNG_FAULTREC (R191). -/
def Reg.URNG_FAULTREC : Nat := 0x70030
/-- URNG_PROMOTE (R191). -/
def Reg.URNG_PROMOTE : Nat := 0x70038
/-- URNG_EVICT (R191). -/
def Reg.URNG_EVICT : Nat := 0x7003C
/-- URNG_EVICTFAIL (R191). -/
def Reg.URNG_EVICTFAIL : Nat := 0x70040
/-- URNG_TOUCHDROP (R191). -/
def Reg.URNG_TOUCHDROP : Nat := 0x70044
/-- URNG_MIGWAIT (R191). -/
def Reg.URNG_MIGWAIT : Nat := 0x70048
/-- URNG_DRAWWAIT (R191). -/
def Reg.URNG_DRAWWAIT : Nat := 0x7004C
/-- URNG_INT_STAT (R191). -/
def Reg.URNG_INT_STAT : Nat := 0x70050
/-- URNG_INT_EN (R191). -/
def Reg.URNG_INT_EN : Nat := 0x70054
/-- EMB_STATUS (R220). -/
def Reg.EMB_STATUS : Nat := 0x80000
/-- EMB_SEL (R220). -/
def Reg.EMB_SEL : Nat := 0x80004
/-- EMB_TBLINFO (R220). -/
def Reg.EMB_TBLINFO : Nat := 0x80008
/-- EMB_OWNERS (R220). -/
def Reg.EMB_OWNERS : Nat := 0x80010
/-- EMB_REPL (R220). -/
def Reg.EMB_REPL : Nat := 0x80014
/-- EMB_VER (R220). -/
def Reg.EMB_VER : Nat := 0x80018
/-- EMB_VERFRM (R220). -/
def Reg.EMB_VERFRM : Nat := 0x80020
/-- EMB_LAG (R220). -/
def Reg.EMB_LAG : Nat := 0x80028
/-- EMB_PUBLATE (R220). -/
def Reg.EMB_PUBLATE : Nat := 0x8002C
/-- EMB_RETIRED (R220). -/
def Reg.EMB_RETIRED : Nat := 0x80030
/-- EMB_REFLATE (R220). -/
def Reg.EMB_REFLATE : Nat := 0x80034
/-- EMB_LAGSKIP (R220). -/
def Reg.EMB_LAGSKIP : Nat := 0x80038
/-- EMB_MISMATCH (R220). -/
def Reg.EMB_MISMATCH : Nat := 0x8003C
/-- EMB_DIGEST (R220). -/
def Reg.EMB_DIGEST : Nat := 0x80040
/-- EMB_DRAWWAIT (R220). -/
def Reg.EMB_DRAWWAIT : Nat := 0x80048
/-- EMB_HOTREAD (R220). -/
def Reg.EMB_HOTREAD : Nat := 0x8004C
/-- EMB_INT_STAT (R220). -/
def Reg.EMB_INT_STAT : Nat := 0x80050
/-- EMB_INT_EN (R220). -/
def Reg.EMB_INT_EN : Nat := 0x80054
/-- EMB_HOTROWS (R220). -/
def Reg.EMB_HOTROWS : Nat := 0x80058
/-- LKP_STATUS (R252). -/
def Reg.LKP_STATUS : Nat := 0x90000
/-- LKP_BUDGET (R252). -/
def Reg.LKP_BUDGET : Nat := 0x90004
/-- LKP_CLASSCAP (R252). -/
def Reg.LKP_CLASSCAP : Nat := 0x90008
/-- LKP_FRAMEUSE (R252). -/
def Reg.LKP_FRAMEUSE : Nat := 0x9000C
/-- LKP_SEL (R252). -/
def Reg.LKP_SEL : Nat := 0x90010
/-- LKP_JOBFLOWS (R252). -/
def Reg.LKP_JOBFLOWS : Nat := 0x90014
/-- LKP_STEP (R252). -/
def Reg.LKP_STEP : Nat := 0x90018
/-- LKP_ERR (R252). -/
def Reg.LKP_ERR : Nat := 0x90020
/-- LKP_NSTAT (R252). -/
def Reg.LKP_NSTAT : Nat := 0x90028
/-- LKP_DEFERRED (R252). -/
def Reg.LKP_DEFERRED : Nat := 0x9002C
/-- LKP_SERVED (R252). -/
def Reg.LKP_SERVED : Nat := 0x90030
/-- LKP_REFUSED (R252). -/
def Reg.LKP_REFUSED : Nat := 0x90038
/-- LKP_CACHEHIT (R252). -/
def Reg.LKP_CACHEHIT : Nat := 0x90040
/-- LKP_CACHEMISS (R252). -/
def Reg.LKP_CACHEMISS : Nat := 0x90048
/-- LKP_MERGED (R252). -/
def Reg.LKP_MERGED : Nat := 0x90050
/-- LKP_ROWUPD (R252). -/
def Reg.LKP_ROWUPD : Nat := 0x90058
/-- LKP_BADIDX (R252). -/
def Reg.LKP_BADIDX : Nat := 0x90060
/-- LKP_ENTWAIT (R252). -/
def Reg.LKP_ENTWAIT : Nat := 0x90064
/-- LKP_DRAWWAIT (R252). -/
def Reg.LKP_DRAWWAIT : Nat := 0x90068
/-- LKP_INT_STAT (R252). -/
def Reg.LKP_INT_STAT : Nat := 0x90070
/-- LKP_INT_EN (R252). -/
def Reg.LKP_INT_EN : Nat := 0x90074
/-- DTR_STATUS (R283). -/
def Reg.DTR_STATUS : Nat := 0xA0000
/-- DTR_SEL (R283). -/
def Reg.DTR_SEL : Nat := 0xA0004
/-- DTR_LINFO (R283). -/
def Reg.DTR_LINFO : Nat := 0xA0008
/-- DTR_LSTEP (R283). -/
def Reg.DTR_LSTEP : Nat := 0xA0010
/-- DTR_CFG (R283). -/
def Reg.DTR_CFG : Nat := 0xA0018
/-- DTR_NSTAT (R283). -/
def Reg.DTR_NSTAT : Nat := 0xA001C
/-- DTR_ERR (R283). -/
def Reg.DTR_ERR : Nat := 0xA0020
/-- DTR_STAGE (R283). -/
def Reg.DTR_STAGE : Nat := 0xA0028
/-- DTR_RSBYTES (R283). -/
def Reg.DTR_RSBYTES : Nat := 0xA0030
/-- DTR_AGBYTES (R283). -/
def Reg.DTR_AGBYTES : Nat := 0xA0038
/-- DTR_ESCAPE (R283). -/
def Reg.DTR_ESCAPE : Nat := 0xA0040
/-- DTR_DENSIFY (R283). -/
def Reg.DTR_DENSIFY : Nat := 0xA0044
/-- DTR_SAMPLED (R283). -/
def Reg.DTR_SAMPLED : Nat := 0xA0048
/-- DTR_MISMATCH (R283). -/
def Reg.DTR_MISMATCH : Nat := 0xA004C
/-- DTR_SKIPPED (R283). -/
def Reg.DTR_SKIPPED : Nat := 0xA0050
/-- DTR_REFETCH (R283). -/
def Reg.DTR_REFETCH : Nat := 0xA0054
/-- DTR_DRAWWAIT (R283). -/
def Reg.DTR_DRAWWAIT : Nat := 0xA0058
/-- DTR_INT_STAT (R283). -/
def Reg.DTR_INT_STAT : Nat := 0xA0060
/-- DTR_INT_EN (R283). -/
def Reg.DTR_INT_EN : Nat := 0xA0064
/-- ZOR_STATUS (R320). -/
def Reg.ZOR_STATUS : Nat := 0xB0000
/-- ZOR_ADDR (R320). -/
def Reg.ZOR_ADDR : Nat := 0xB0004
/-- ZOR_CFG (R320). -/
def Reg.ZOR_CFG : Nat := 0xB0008
/-- ZOR_PSEL (R320). -/
def Reg.ZOR_PSEL : Nat := 0xB000C
/-- ZOR_PORT (R320). -/
def Reg.ZOR_PORT : Nat := 0xB0010
/-- ZOR_CENSUS (R320). -/
def Reg.ZOR_CENSUS : Nat := 0xB0018
/-- ZOR_TXFLITS (R320). -/
def Reg.ZOR_TXFLITS : Nat := 0xB0020
/-- ZOR_RXFLITS (R320). -/
def Reg.ZOR_RXFLITS : Nat := 0xB0028
/-- ZOR_FECCORR (R320). -/
def Reg.ZOR_FECCORR : Nat := 0xB0030
/-- ZOR_CRCERR (R320). -/
def Reg.ZOR_CRCERR : Nat := 0xB0038
/-- ZOR_REPLAY (R320). -/
def Reg.ZOR_REPLAY : Nat := 0xB003C
/-- ZOR_AUTHFAIL (R320). -/
def Reg.ZOR_AUTHFAIL : Nat := 0xB0040
/-- ZOR_STALE (R320). -/
def Reg.ZOR_STALE : Nat := 0xB0044
/-- ZOR_DUP (R320). -/
def Reg.ZOR_DUP : Nat := 0xB0048
/-- ZOR_RESENT (R320). -/
def Reg.ZOR_RESENT : Nat := 0xB004C
/-- ZOR_UNREACH (R320). -/
def Reg.ZOR_UNREACH : Nat := 0xB0050
/-- ZOR_LOSTFLOW (R320). -/
def Reg.ZOR_LOSTFLOW : Nat := 0xB0054
/-- ZOR_BADMSG (R320). -/
def Reg.ZOR_BADMSG : Nat := 0xB0058
/-- ZOR_DRAWWAIT (R320). -/
def Reg.ZOR_DRAWWAIT : Nat := 0xB005C
/-- ZOR_SKEW (R320). -/
def Reg.ZOR_SKEW : Nat := 0xB0060
/-- ZOR_INT_STAT (R320). -/
def Reg.ZOR_INT_STAT : Nat := 0xB0070
/-- ZOR_INT_EN (R320). -/
def Reg.ZOR_INT_EN : Nat := 0xB0074
/-- HOST_STATUS (R350). -/
def Reg.HOST_STATUS : Nat := 0x0
/-- HOST_LINK (R350). -/
def Reg.HOST_LINK : Nat := 0x4
/-- HOST_QSEL (R350). -/
def Reg.HOST_QSEL : Nat := 0x8
/-- HOST_QCRCFG (R350). -/
def Reg.HOST_QCRCFG : Nat := 0xC
/-- HOST_QCFG (R350). -/
def Reg.HOST_QCFG : Nat := 0x10
/-- HOST_QCRBASE (R350). -/
def Reg.HOST_QCRBASE : Nat := 0x18
/-- HOST_QPTR (R350). -/
def Reg.HOST_QPTR : Nat := 0x20
/-- HOST_QCOUNT (R350). -/
def Reg.HOST_QCOUNT : Nat := 0x28
/-- HOST_QSTAT (R350). -/
def Reg.HOST_QSTAT : Nat := 0x30
/-- HOST_BADACC (R350). -/
def Reg.HOST_BADACC : Nat := 0x34
/-- HOST_WRDROP (R350). -/
def Reg.HOST_WRDROP : Nat := 0x38
/-- HOST_BUDGETOVR (R350). -/
def Reg.HOST_BUDGETOVR : Nat := 0x3C
/-- HOST_INT_STAT (R350). -/
def Reg.HOST_INT_STAT : Nat := 0x40
/-- HOST_INT_EN (R350). -/
def Reg.HOST_INT_EN : Nat := 0x44
/-- HOST_DB (R350). -/
def Reg.HOST_DB (i : Nat) : Nat := 0x1000 + 0x4 * i
/-- HOST_CRHEAD (R350). -/
def Reg.HOST_CRHEAD (i : Nat) : Nat := 0x1200 + 0x4 * i
/-- CHK_STATUS (R361). -/
def Reg.CHK_STATUS : Nat := 0xC0000
/-- CHK_DROP (R361). -/
def Reg.CHK_DROP : Nat := 0xC0004
/-- CHK_INT_SUM (R361). -/
def Reg.CHK_INT_SUM (i : Nat) : Nat := 0xC0010 + 0x4 * i
/-- CHK_CFG (R361). -/
def Reg.CHK_CFG (i : Nat) : Nat := 0xC1000 + 0x80 * i
/-- CHK_CMD (R361). -/
def Reg.CHK_CMD (i : Nat) : Nat := 0xC1004 + 0x80 * i
/-- CHK_POLY (R361). -/
def Reg.CHK_POLY (i : Nat) : Nat := 0xC1008 + 0x80 * i
/-- CHK_INIT (R361). -/
def Reg.CHK_INIT (i : Nat) : Nat := 0xC1010 + 0x80 * i
/-- CHK_EXPECT (R361). -/
def Reg.CHK_EXPECT (i : Nat) : Nat := 0xC1018 + 0x80 * i
/-- CHK_RESULT (R361). -/
def Reg.CHK_RESULT (i : Nat) : Nat := 0xC1020 + 0x80 * i
/-- CHK_DIN8 (R361). -/
def Reg.CHK_DIN8 (i : Nat) : Nat := 0xC1028 + 0x80 * i
/-- CHK_DIN16 (R361). -/
def Reg.CHK_DIN16 (i : Nat) : Nat := 0xC102C + 0x80 * i
/-- CHK_DIN32 (R361). -/
def Reg.CHK_DIN32 (i : Nat) : Nat := 0xC1030 + 0x80 * i
/-- CHK_DIN64 (R361). -/
def Reg.CHK_DIN64 (i : Nat) : Nat := 0xC1038 + 0x80 * i
/-- CHK_STAT (R361). -/
def Reg.CHK_STAT (i : Nat) : Nat := 0xC1040 + 0x80 * i
/-- CHK_INTEN (R361). -/
def Reg.CHK_INTEN (i : Nat) : Nat := 0xC1044 + 0x80 * i
/-- CHK_COUNT (R361). -/
def Reg.CHK_COUNT (i : Nat) : Nat := 0xC1048 + 0x80 * i
/-- CHK_LEN (R361). -/
def Reg.CHK_LEN (i : Nat) : Nat := 0xC1050 + 0x80 * i
/-- CHK_ALIVE (R361). -/
def Reg.CHK_ALIVE (i : Nat) : Nat := 0xC1058 + 0x80 * i
/-- LEDG_STATUS (R385). -/
def Reg.LEDG_STATUS : Nat := 0x20000
/-- LEDG_LIMIT (R385). -/
def Reg.LEDG_LIMIT : Nat := 0x20004
/-- LEDG_HELD (R385). -/
def Reg.LEDG_HELD : Nat := 0x20008
/-- LEDG_WAIT (R385). -/
def Reg.LEDG_WAIT : Nat := 0x2000C
/-- LEDG_GRANTS (R385). -/
def Reg.LEDG_GRANTS : Nat := 0x20010
/-- LEDG_WAITCC (R385). -/
def Reg.LEDG_WAITCC : Nat := 0x20018
/-- LEDG_BALLAST (R385). -/
def Reg.LEDG_BALLAST : Nat := 0x20020
/-- LEDG_RAMPWAIT (R385). -/
def Reg.LEDG_RAMPWAIT : Nat := 0x20028
/-- LEDG_INT_STAT (R385). -/
def Reg.LEDG_INT_STAT : Nat := 0x20040
/-- LEDG_INT_EN (R385). -/
def Reg.LEDG_INT_EN : Nat := 0x20044
/-- PWR_STATUS (R386). -/
def Reg.PWR_STATUS : Nat := 0x30000
/-- PWR_CFG (R386). -/
def Reg.PWR_CFG : Nat := 0x30004
/-- PWR_PEND (R386). -/
def Reg.PWR_PEND : Nat := 0x30008
/-- PWR_LIMITS (R386). -/
def Reg.PWR_LIMITS : Nat := 0x30010
/-- PWR_GOV (R386). -/
def Reg.PWR_GOV : Nat := 0x30018
/-- PWR_TEMP (R386). -/
def Reg.PWR_TEMP : Nat := 0x30020
/-- PWR_PKG (R386). -/
def Reg.PWR_PKG : Nat := 0x30024
/-- PWR_ENERGY (R386). -/
def Reg.PWR_ENERGY : Nat := 0x30028
/-- PWR_RAILSEL (R386). -/
def Reg.PWR_RAILSEL : Nat := 0x30030
/-- PWR_RAIL (R386). -/
def Reg.PWR_RAIL : Nat := 0x30038
/-- PWR_TRIPS (R386). -/
def Reg.PWR_TRIPS : Nat := 0x30040
/-- PWR_PMBERR (R386). -/
def Reg.PWR_PMBERR : Nat := 0x30044
/-- PWR_INT_STAT (R386). -/
def Reg.PWR_INT_STAT : Nat := 0x30050
/-- PWR_INT_EN (R386). -/
def Reg.PWR_INT_EN : Nat := 0x30054
/-- ADNT_STATUS (R417). -/
def Reg.ADNT_STATUS : Nat := 0xD0000
/-- ADNT_CFG (R417). -/
def Reg.ADNT_CFG : Nat := 0xD0004
/-- ADNT_RBSEQ (R417). -/
def Reg.ADNT_RBSEQ : Nat := 0xD0008
/-- ADNT_SVN (R417). -/
def Reg.ADNT_SVN : Nat := 0xD0010
/-- ADNT_SEALCNT (R417). -/
def Reg.ADNT_SEALCNT : Nat := 0xD0014
/-- ADNT_PRES (R417). -/
def Reg.ADNT_PRES : Nat := 0xD0018
/-- ADNT_SEL (R417). -/
def Reg.ADNT_SEL : Nat := 0xD001C
/-- ADNT_SESS (R417). -/
def Reg.ADNT_SESS : Nat := 0xD0020
/-- ADNT_KEYS (R417). -/
def Reg.ADNT_KEYS : Nat := 0xD0028
/-- ADNT_AUTHFAIL (R417). -/
def Reg.ADNT_AUTHFAIL : Nat := 0xD002C
/-- ADNT_JOINFAIL (R417). -/
def Reg.ADNT_JOINFAIL : Nat := 0xD0030
/-- ADNT_PRESFAIL (R417). -/
def Reg.ADNT_PRESFAIL : Nat := 0xD0034
/-- ADNT_OPCTR (R417). -/
def Reg.ADNT_OPCTR : Nat := 0xD0038
/-- ADNT_DBGSEL (R417). -/
def Reg.ADNT_DBGSEL : Nat := 0xD0040
/-- ADNT_DBGCTL (R417). -/
def Reg.ADNT_DBGCTL : Nat := 0xD0044
/-- ADNT_DBGADDR (R417). -/
def Reg.ADNT_DBGADDR : Nat := 0xD0048
/-- ADNT_DBGDATA (R417). -/
def Reg.ADNT_DBGDATA : Nat := 0xD0050
/-- ADNT_INT_STAT (R417). -/
def Reg.ADNT_INT_STAT : Nat := 0xD0060
/-- ADNT_INT_EN (R417). -/
def Reg.ADNT_INT_EN : Nat := 0xD0064
/-- DAWN_STATUS (R442). -/
def Reg.DAWN_STATUS : Nat := 0xE0000
/-- DAWN_CAUSE (R442). -/
def Reg.DAWN_CAUSE : Nat := 0xE0004
/-- DAWN_TIME (R442). -/
def Reg.DAWN_TIME : Nat := 0xE0008
/-- DAWN_ID (R442). -/
def Reg.DAWN_ID : Nat := 0xE0010
/-- DAWN_NVM (R442). -/
def Reg.DAWN_NVM : Nat := 0xE0014
/-- DAWN_INT_STAT (R442). -/
def Reg.DAWN_INT_STAT : Nat := 0xE0018
/-- DAWN_INT_EN (R442). -/
def Reg.DAWN_INT_EN : Nat := 0xE001C
/-- DLX_STATUS (R455). -/
def Reg.DLX_STATUS : Nat := 0xF0000
/-- DLX_SEL (R455). -/
def Reg.DLX_SEL : Nat := 0xF0004
/-- DLX_JOB (R455). -/
def Reg.DLX_JOB : Nat := 0xF0008
/-- DLX_ACKED (R455). -/
def Reg.DLX_ACKED : Nat := 0xF0010
/-- DLX_KTAIL (R455). -/
def Reg.DLX_KTAIL : Nat := 0xF0018
/-- DLX_KHEAD (R455). -/
def Reg.DLX_KHEAD : Nat := 0xF0020
/-- DLX_BASE (R455). -/
def Reg.DLX_BASE : Nat := 0xF0028
/-- DLX_BYTES (R455). -/
def Reg.DLX_BYTES : Nat := 0xF0030
/-- DLX_HOLD (R455). -/
def Reg.DLX_HOLD : Nat := 0xF0038
/-- DLX_ACKFAIL (R455). -/
def Reg.DLX_ACKFAIL : Nat := 0xF003C
/-- DLX_DRAWWAIT (R455). -/
def Reg.DLX_DRAWWAIT : Nat := 0xF0040
/-- DLX_INT_STAT (R455). -/
def Reg.DLX_INT_STAT : Nat := 0xF0060
/-- DLX_INT_EN (R455). -/
def Reg.DLX_INT_EN : Nat := 0xF0064
/-- FLT_STATUS (R470). -/
def Reg.FLT_STATUS : Nat := 0x100000
/-- FLT_RCFG (R470). -/
def Reg.FLT_RCFG : Nat := 0x100004
/-- FLT_RBASE (R470). -/
def Reg.FLT_RBASE : Nat := 0x100008
/-- FLT_RPTR (R470). -/
def Reg.FLT_RPTR : Nat := 0x100010
/-- FLT_RHEAD (R470). -/
def Reg.FLT_RHEAD : Nat := 0x100014
/-- FLT_JOBVEC (R470). -/
def Reg.FLT_JOBVEC : Nat := 0x100018
/-- FLT_SRAMCE (R470). -/
def Reg.FLT_SRAMCE : Nat := 0x100020
/-- FLT_BADACC (R470). -/
def Reg.FLT_BADACC : Nat := 0x100028
/-- FLT_CLASSCNT (R470). -/
def Reg.FLT_CLASSCNT (i : Nat) : Nat := 0x100040 + 0x4 * i
/-- FLT_LOST (R470). -/
def Reg.FLT_LOST : Nat := 0x100058
/-- FLT_MERGED (R470). -/
def Reg.FLT_MERGED : Nat := 0x10005C
/-- FLT_CODESEL (R470). -/
def Reg.FLT_CODESEL : Nat := 0x100060
/-- FLT_CODECNT (R470). -/
def Reg.FLT_CODECNT : Nat := 0x100064
/-- FLT_INT_STAT (R470). -/
def Reg.FLT_INT_STAT : Nat := 0x100070
/-- FLT_INT_EN (R470). -/
def Reg.FLT_INT_EN : Nat := 0x100074

/-! ## Descriptors -/

/-- The registers of the FCLK block. -/
def regsFclk : List RegDesc := [
  -- FCLK_STATUS
  ⟨0x10000, [], false, [⟨0, 3, .ro, 0⟩, ⟨3, 1, .ro, 0⟩, ⟨4, 5, .ro, 0⟩, ⟨9, 1, .ro, 0⟩]⟩,
  -- FCLK_FNUM
  ⟨0x10008, [], true, [⟨0, 48, .ro, 0⟩]⟩,
  -- FCLK_LEN
  ⟨0x10010, [], false, [⟨0, 22, .ro, 0⟩]⟩,
  -- FCLK_MAINT
  ⟨0x10014, [], false, [⟨0, 19, .ro, 0⟩, ⟨24, 8, .ro, 0⟩]⟩,
  -- FCLK_POS
  ⟨0x10018, [], false, [⟨0, 22, .ro, 0⟩]⟩,
  -- FCLK_SLOT
  ⟨0x1001C, [], false, [⟨0, 16, .ro, 0⟩, ⟨16, 16, .ro, 0⟩]⟩,
  -- FCLK_SRC0
  ⟨0x10020, [], false, [⟨0, 2, .ro, 0⟩, ⟨16, 16, .ro, 0⟩]⟩,
  -- FCLK_SRC1
  ⟨0x10024, [], false, [⟨0, 2, .ro, 0⟩, ⟨16, 16, .ro, 0⟩]⟩,
  -- FCLK_OFFSET
  ⟨0x10028, [], false, [⟨0, 16, .ro, 0⟩, ⟨16, 16, .rc, 0⟩]⟩,
  -- FCLK_MISSED
  ⟨0x1002C, [], false, [⟨0, 32, .rc, 0⟩]⟩,
  -- FCLK_REJECT
  ⟨0x10030, [], false, [⟨0, 32, .rc, 0⟩]⟩,
  -- FCLK_OVR
  ⟨0x10034, [], false, [⟨0, 32, .rc, 0⟩]⟩,
  -- FCLK_OVR_CLK
  ⟨0x10038, [], false, [⟨0, 32, .rc, 0⟩]⟩,
  -- FCLK_DEFER
  ⟨0x1003C, [], false, [⟨0, 32, .rc, 0⟩]⟩,
  -- FCLK_INT_STAT
  ⟨0x10040, [], false, [⟨0, 1, .w1c, 0⟩, ⟨1, 1, .w1c, 0⟩, ⟨2, 1, .w1c, 0⟩, ⟨3, 1, .w1c, 0⟩, ⟨4, 1, .w1c, 0⟩, ⟨5, 1, .w1c, 0⟩]⟩,
  -- FCLK_INT_EN
  ⟨0x10044, [], false, [⟨0, 1, .rw, 0⟩, ⟨1, 1, .rw, 0⟩, ⟨2, 1, .rw, 0⟩, ⟨3, 1, .rw, 0⟩, ⟨4, 1, .rw, 0⟩, ⟨5, 1, .rw, 0⟩]⟩,
  -- FCLK_DLY
  ⟨0x10100, [(0x4, 34)], false, [⟨0, 20, .ro, 0⟩, ⟨31, 1, .ro, 0⟩]⟩,
  -- FCLK_OUTLIER
  ⟨0x10200, [(0x4, 34)], false, [⟨0, 32, .rc, 0⟩]⟩ ]

/-- The registers of the TILE block. -/
def regsTile : List RegDesc := [
  -- TILE_GEOM
  ⟨0x40000, [(0x2000, 8)], false, [⟨0, 9, .ro, 0⟩, ⟨9, 3, .ro, 0⟩, ⟨12, 3, .ro, 0⟩, ⟨15, 1, .ro, 0⟩, ⟨16, 1, .ro, 0⟩, ⟨17, 6, .ro, 0⟩]⟩,
  -- TILE_DRAW
  ⟨0x40004, [(0x2000, 8)], false, [⟨0, 12, .ro, 0⟩, ⟨16, 12, .ro, 0⟩]⟩,
  -- TILE_NSTAT
  ⟨0x40008, [(0x2000, 8)], false, [⟨0, 8, .rc, 0⟩]⟩,
  -- TILE_DEFQ
  ⟨0x4000C, [(0x2000, 8)], false, [⟨0, 7, .ro, 0⟩, ⟨7, 1, .ro, 0⟩, ⟨16, 16, .ro, 0⟩]⟩,
  -- TILE_ERR
  ⟨0x40010, [(0x2000, 8)], true, [⟨0, 4, .ro, 0⟩, ⟨4, 2, .ro, 0⟩, ⟨6, 6, .ro, 0⟩, ⟨12, 1, .w1c, 0⟩, ⟨32, 32, .ro, 0⟩]⟩,
  -- TILE_BYPASS
  ⟨0x40018, [(0x2000, 8)], true, [⟨0, 16, .ro, 0⟩, ⟨16, 16, .ro, 0⟩, ⟨32, 16, .ro, 0⟩, ⟨48, 16, .ro, 0⟩]⟩,
  -- TILE_SEQ
  ⟨0x40020, [(0x2000, 8), (0x8, 3)], true, [⟨0, 3, .ro, 0⟩, ⟨3, 6, .ro, 0⟩, ⟨9, 7, .ro, 0⟩, ⟨16, 1, .ro, 0⟩, ⟨32, 32, .ro, 0⟩]⟩,
  -- TILE_PASSES
  ⟨0x40080, [(0x2000, 8)], true, [⟨0, 64, .rc, 0⟩]⟩,
  -- TILE_ZGATE
  ⟨0x40088, [(0x2000, 8)], true, [⟨0, 64, .rc, 0⟩]⟩,
  -- TILE_REPLAY
  ⟨0x40090, [(0x2000, 8)], false, [⟨0, 32, .rc, 0⟩]⟩,
  -- TILE_BANKSTALL
  ⟨0x40094, [(0x2000, 8)], false, [⟨0, 32, .rc, 0⟩]⟩,
  -- TILE_DMASTARVE
  ⟨0x40098, [(0x2000, 8)], false, [⟨0, 32, .rc, 0⟩]⟩,
  -- TILE_DRAWWAIT
  ⟨0x4009C, [(0x2000, 8)], false, [⟨0, 32, .rc, 0⟩]⟩,
  -- TILE_INT_STAT
  ⟨0x400C0, [(0x2000, 8)], false, [⟨0, 1, .w1c, 0⟩, ⟨1, 1, .w1c, 0⟩, ⟨2, 1, .w1c, 0⟩, ⟨3, 1, .w1c, 0⟩, ⟨4, 1, .w1c, 0⟩]⟩,
  -- TILE_INT_EN
  ⟨0x400C4, [(0x2000, 8)], false, [⟨0, 1, .rw, 0⟩, ⟨1, 1, .rw, 0⟩, ⟨2, 1, .rw, 0⟩, ⟨3, 1, .rw, 0⟩, ⟨4, 1, .rw, 0⟩]⟩ ]

/-- The registers of the VEC block. -/
def regsVec : List RegDesc := [
  -- VEC_STATUS
  ⟨0x50000, [(0x2000, 8)], false, [⟨0, 3, .ro, 0⟩, ⟨3, 2, .ro, 0⟩, ⟨5, 6, .ro, 0⟩, ⟨11, 3, .ro, 0⟩, ⟨14, 2, .ro, 0⟩, ⟨16, 16, .ro, 0⟩]⟩,
  -- VEC_NSTAT
  ⟨0x50004, [(0x2000, 8)], false, [⟨0, 8, .rc, 0⟩]⟩,
  -- VEC_ERR
  ⟨0x50008, [(0x2000, 8)], true, [⟨0, 4, .ro, 0⟩, ⟨4, 2, .ro, 0⟩, ⟨6, 6, .ro, 0⟩, ⟨12, 1, .w1c, 0⟩, ⟨13, 3, .ro, 0⟩, ⟨16, 16, .ro, 0⟩, ⟨32, 32, .ro, 0⟩]⟩,
  -- VEC_CHAINS
  ⟨0x50010, [(0x2000, 8)], true, [⟨0, 64, .rc, 0⟩]⟩,
  -- VEC_VECTORS
  ⟨0x50018, [(0x2000, 8)], true, [⟨0, 64, .rc, 0⟩]⟩,
  -- VEC_STALL
  ⟨0x50020, [(0x2000, 8)], false, [⟨0, 32, .rc, 0⟩]⟩,
  -- VEC_HANDOFF
  ⟨0x50024, [(0x2000, 8)], false, [⟨0, 32, .rc, 0⟩]⟩,
  -- VEC_DRAWWAIT
  ⟨0x50028, [(0x2000, 8)], false, [⟨0, 32, .rc, 0⟩]⟩,
  -- VEC_INT_STAT
  ⟨0x50040, [(0x2000, 8)], false, [⟨0, 1, .w1c, 0⟩, ⟨1, 1, .w1c, 0⟩, ⟨2, 1, .w1c, 0⟩]⟩,
  -- VEC_INT_EN
  ⟨0x50044, [(0x2000, 8)], false, [⟨0, 1, .rw, 0⟩, ⟨1, 1, .rw, 0⟩, ⟨2, 1, .rw, 0⟩]⟩ ]

/-- The registers of the MEM block. -/
def regsMem : List RegDesc := [
  -- MEM_STATUS
  ⟨0x60000, [], false, [⟨0, 8, .ro, 0⟩, ⟨8, 1, .ro, 0⟩, ⟨9, 1, .ro, 0⟩, ⟨10, 11, .ro, 0⟩]⟩,
  -- MEM_NSTAT
  ⟨0x60004, [], false, [⟨0, 8, .rc, 0⟩]⟩,
  -- MEM_CHSEL
  ⟨0x60008, [], false, [⟨0, 11, .rw, 0⟩]⟩,
  -- MEM_CHINFO
  ⟨0x6000C, [], false, [⟨0, 2, .ro, 0⟩, ⟨2, 9, .ro, 0⟩, ⟨11, 5, .ro, 0⟩, ⟨16, 16, .ro, 0⟩]⟩,
  -- MEM_CHLOAD
  ⟨0x60010, [], true, [⟨0, 32, .ro, 0⟩, ⟨32, 32, .ro, 0⟩]⟩,
  -- MEM_SKEW
  ⟨0x60018, [], false, [⟨0, 16, .ro, 0⟩, ⟨16, 11, .ro, 0⟩, ⟨27, 5, .ro, 0⟩]⟩,
  -- MEM_SKEW_CFG
  ⟨0x6001C, [], false, [⟨0, 16, .rw, 0x200⟩, ⟨16, 5, .rw, 0x10⟩]⟩,
  -- MEM_CE
  ⟨0x60020, [], true, [⟨0, 64, .rc, 0⟩]⟩,
  -- MEM_UE
  ⟨0x60028, [], false, [⟨0, 32, .rc, 0⟩]⟩,
  -- MEM_POISON
  ⟨0x6002C, [], false, [⟨0, 32, .rc, 0⟩]⟩,
  -- MEM_TAGDROP
  ⟨0x60030, [], false, [⟨0, 32, .rc, 0⟩]⟩,
  -- MEM_DRAWWAIT
  ⟨0x60034, [], false, [⟨0, 32, .rc, 0⟩]⟩,
  -- MEM_RETRAIN
  ⟨0x60038, [], false, [⟨0, 32, .rc, 0⟩]⟩,
  -- MEM_RETRAIN_FAIL
  ⟨0x6003C, [], false, [⟨0, 32, .rc, 0⟩]⟩,
  -- MEM_INT_STAT
  ⟨0x60040, [], false, [⟨0, 1, .w1c, 0⟩, ⟨1, 1, .w1c, 0⟩, ⟨2, 1, .w1c, 0⟩, ⟨3, 1, .w1c, 0⟩, ⟨4, 1, .w1c, 0⟩]⟩,
  -- MEM_INT_EN
  ⟨0x60044, [], false, [⟨0, 1, .rw, 0⟩, ⟨1, 1, .rw, 0⟩, ⟨2, 1, .rw, 0⟩, ⟨3, 1, .rw, 0⟩, ⟨4, 1, .rw, 0⟩]⟩,
  -- MEM_STK
  ⟨0x60100, [(0x4, 8)], false, [⟨0, 8, .ro, 0⟩, ⟨8, 4, .ro, 0⟩, ⟨12, 1, .ro, 0⟩, ⟨13, 1, .ro, 0⟩]⟩,
  -- MEM_CHMAP
  ⟨0x60200, [(0x40, 8), (0x4, 9)], false, [⟨0, 32, .ro, 0⟩]⟩ ]

/-- The registers of the URNG block. -/
def regsUrng : List RegDesc := [
  -- URNG_STATUS
  ⟨0x70000, [], false, [⟨0, 3, .ro, 0⟩, ⟨3, 3, .ro, 6⟩, ⟨6, 1, .ro, 0⟩, ⟨7, 1, .ro, 0⟩, ⟨8, 1, .ro, 0⟩]⟩,
  -- URNG_PERIOD
  ⟨0x70004, [], false, [⟨0, 13, .ro, 0⟩]⟩,
  -- URNG_POOL
  ⟨0x70008, [], true, [⟨0, 19, .ro, 0⟩, ⟨32, 19, .ro, 0⟩]⟩,
  -- URNG_HTIER
  ⟨0x70010, [], true, [⟨0, 23, .ro, 0⟩, ⟨32, 23, .ro, 0⟩]⟩,
  -- URNG_JOBSEL
  ⟨0x70018, [], false, [⟨0, 6, .rw, 0⟩]⟩,
  -- URNG_MIGCFG
  ⟨0x7001C, [], false, [⟨0, 5, .rw, 8⟩]⟩,
  -- URNG_JOBPOOL
  ⟨0x70020, [], true, [⟨0, 19, .ro, 0⟩, ⟨19, 19, .ro, 0⟩, ⟨38, 19, .ro, 0⟩]⟩,
  -- URNG_JOBHOST
  ⟨0x70028, [], true, [⟨0, 23, .ro, 0⟩, ⟨23, 23, .ro, 0⟩]⟩,
  -- URNG_FAULTREC
  ⟨0x70030, [], true, [⟨0, 48, .ro, 0⟩, ⟨48, 6, .ro, 0⟩, ⟨54, 2, .ro, 0⟩, ⟨56, 1, .w1c, 0⟩]⟩,
  -- URNG_PROMOTE
  ⟨0x70038, [], false, [⟨0, 32, .rc, 0⟩]⟩,
  -- URNG_EVICT
  ⟨0x7003C, [], false, [⟨0, 32, .rc, 0⟩]⟩,
  -- URNG_EVICTFAIL
  ⟨0x70040, [], false, [⟨0, 32, .rc, 0⟩]⟩,
  -- URNG_TOUCHDROP
  ⟨0x70044, [], false, [⟨0, 32, .rc, 0⟩]⟩,
  -- URNG_MIGWAIT
  ⟨0x70048, [], false, [⟨0, 32, .rc, 0⟩]⟩,
  -- URNG_DRAWWAIT
  ⟨0x7004C, [], false, [⟨0, 32, .rc, 0⟩]⟩,
  -- URNG_INT_STAT
  ⟨0x70050, [], false, [⟨0, 1, .w1c, 0⟩, ⟨1, 1, .w1c, 0⟩, ⟨2, 1, .w1c, 0⟩, ⟨3, 1, .w1c, 0⟩]⟩,
  -- URNG_INT_EN
  ⟨0x70054, [], false, [⟨0, 1, .rw, 0⟩, ⟨1, 1, .rw, 0⟩, ⟨2, 1, .rw, 0⟩, ⟨3, 1, .rw, 0⟩]⟩ ]

/-- The registers of the EMB block. -/
def regsEmb : List RegDesc := [
  -- EMB_STATUS
  ⟨0x80000, [], false, [⟨0, 17, .ro, 0⟩]⟩,
  -- EMB_SEL
  ⟨0x80004, [], false, [⟨0, 6, .rw, 0⟩, ⟨16, 12, .rw, 0⟩]⟩,
  -- EMB_TBLINFO
  ⟨0x80008, [], true, [⟨0, 40, .ro, 0⟩, ⟨40, 8, .ro, 0⟩, ⟨48, 2, .ro, 0⟩, ⟨50, 1, .ro, 0⟩, ⟨51, 1, .ro, 0⟩]⟩,
  -- EMB_OWNERS
  ⟨0x80010, [], false, [⟨0, 16, .ro, 0⟩, ⟨16, 16, .ro, 0⟩]⟩,
  -- EMB_REPL
  ⟨0x80014, [], false, [⟨0, 17, .ro, 0⟩]⟩,
  -- EMB_VER
  ⟨0x80018, [], true, [⟨0, 16, .ro, 0⟩, ⟨16, 16, .ro, 0⟩, ⟨32, 2, .ro, 0⟩, ⟨34, 1, .ro, 0⟩]⟩,
  -- EMB_VERFRM
  ⟨0x80020, [], true, [⟨0, 48, .ro, 0⟩]⟩,
  -- EMB_LAG
  ⟨0x80028, [], false, [⟨0, 8, .ro, 0⟩, ⟨16, 16, .ro, 0⟩]⟩,
  -- EMB_PUBLATE
  ⟨0x8002C, [], false, [⟨0, 32, .rc, 0⟩]⟩,
  -- EMB_RETIRED
  ⟨0x80030, [], false, [⟨0, 32, .rc, 0⟩]⟩,
  -- EMB_REFLATE
  ⟨0x80034, [], false, [⟨0, 32, .rc, 0⟩]⟩,
  -- EMB_LAGSKIP
  ⟨0x80038, [], false, [⟨0, 32, .rc, 0⟩]⟩,
  -- EMB_MISMATCH
  ⟨0x8003C, [], false, [⟨0, 32, .rc, 0⟩]⟩,
  -- EMB_DIGEST
  ⟨0x80040, [], true, [⟨0, 64, .rc, 0⟩]⟩,
  -- EMB_DRAWWAIT
  ⟨0x80048, [], false, [⟨0, 32, .rc, 0⟩]⟩,
  -- EMB_HOTREAD
  ⟨0x8004C, [], false, [⟨0, 21, .ro, 0⟩]⟩,
  -- EMB_INT_STAT
  ⟨0x80050, [], false, [⟨0, 1, .w1c, 0⟩, ⟨1, 1, .w1c, 0⟩, ⟨2, 1, .w1c, 0⟩, ⟨3, 1, .w1c, 0⟩, ⟨4, 1, .w1c, 0⟩]⟩,
  -- EMB_INT_EN
  ⟨0x80054, [], false, [⟨0, 1, .rw, 0⟩, ⟨1, 1, .rw, 0⟩, ⟨2, 1, .rw, 0⟩, ⟨3, 1, .rw, 0⟩, ⟨4, 1, .rw, 0⟩]⟩,
  -- EMB_HOTROWS
  ⟨0x80058, [], false, [⟨0, 17, .ro, 0⟩]⟩ ]

/-- The registers of the LKP block. -/
def regsLkp : List RegDesc := [
  -- LKP_STATUS
  ⟨0x90000, [], false, [⟨0, 13, .ro, 0⟩, ⟨13, 13, .ro, 0⟩, ⟨26, 6, .ro, 0⟩]⟩,
  -- LKP_BUDGET
  ⟨0x90004, [], false, [⟨0, 16, .rw, 0x5DC0⟩]⟩,
  -- LKP_CLASSCAP
  ⟨0x90008, [], false, [⟨0, 5, .rw, 0x10⟩, ⟨5, 5, .rw, 0xC⟩, ⟨10, 5, .rw, 8⟩, ⟨15, 5, .rw, 4⟩]⟩,
  -- LKP_FRAMEUSE
  ⟨0x9000C, [], false, [⟨0, 32, .ro, 0⟩]⟩,
  -- LKP_SEL
  ⟨0x90010, [], false, [⟨0, 6, .rw, 0⟩, ⟨16, 12, .rw, 0⟩]⟩,
  -- LKP_JOBFLOWS
  ⟨0x90014, [], false, [⟨0, 13, .ro, 0⟩, ⟨13, 13, .ro, 0⟩]⟩,
  -- LKP_STEP
  ⟨0x90018, [], true, [⟨0, 32, .ro, 0⟩, ⟨32, 16, .ro, 0⟩, ⟨48, 1, .ro, 0⟩, ⟨49, 1, .ro, 0⟩]⟩,
  -- LKP_ERR
  ⟨0x90020, [], true, [⟨0, 4, .ro, 0⟩, ⟨4, 6, .ro, 0⟩, ⟨10, 11, .ro, 0⟩, ⟨21, 1, .w1c, 0⟩, ⟨32, 32, .ro, 0⟩]⟩,
  -- LKP_NSTAT
  ⟨0x90028, [], false, [⟨0, 8, .rc, 0⟩]⟩,
  -- LKP_DEFERRED
  ⟨0x9002C, [], false, [⟨0, 32, .rc, 0⟩]⟩,
  -- LKP_SERVED
  ⟨0x90030, [], true, [⟨0, 64, .rc, 0⟩]⟩,
  -- LKP_REFUSED
  ⟨0x90038, [], true, [⟨0, 16, .rc, 0⟩, ⟨16, 16, .rc, 0⟩, ⟨32, 16, .rc, 0⟩, ⟨48, 16, .rc, 0⟩]⟩,
  -- LKP_CACHEHIT
  ⟨0x90040, [], true, [⟨0, 64, .rc, 0⟩]⟩,
  -- LKP_CACHEMISS
  ⟨0x90048, [], true, [⟨0, 64, .rc, 0⟩]⟩,
  -- LKP_MERGED
  ⟨0x90050, [], true, [⟨0, 64, .rc, 0⟩]⟩,
  -- LKP_ROWUPD
  ⟨0x90058, [], true, [⟨0, 64, .rc, 0⟩]⟩,
  -- LKP_BADIDX
  ⟨0x90060, [], false, [⟨0, 32, .rc, 0⟩]⟩,
  -- LKP_ENTWAIT
  ⟨0x90064, [], false, [⟨0, 32, .rc, 0⟩]⟩,
  -- LKP_DRAWWAIT
  ⟨0x90068, [], false, [⟨0, 32, .rc, 0⟩]⟩,
  -- LKP_INT_STAT
  ⟨0x90070, [], false, [⟨0, 1, .w1c, 0⟩, ⟨1, 1, .w1c, 0⟩, ⟨2, 1, .w1c, 0⟩, ⟨3, 1, .w1c, 0⟩, ⟨4, 1, .w1c, 0⟩]⟩ ]

/-- The registers of the LKP block, continued. -/
def regsLkp1 : List RegDesc := [
  -- LKP_INT_EN
  ⟨0x90074, [], false, [⟨0, 1, .rw, 0⟩, ⟨1, 1, .rw, 0⟩, ⟨2, 1, .rw, 0⟩, ⟨3, 1, .rw, 0⟩, ⟨4, 1, .rw, 0⟩]⟩ ]

/-- The registers of the DTR block. -/
def regsDtr : List RegDesc := [
  -- DTR_STATUS
  ⟨0xA0000, [], false, [⟨0, 15, .ro, 0⟩, ⟨15, 15, .ro, 0⟩]⟩,
  -- DTR_SEL
  ⟨0xA0004, [], false, [⟨0, 6, .rw, 0⟩, ⟨16, 16, .rw, 0⟩]⟩,
  -- DTR_LINFO
  ⟨0xA0008, [], true, [⟨0, 32, .ro, 0⟩, ⟨32, 16, .ro, 0⟩, ⟨48, 16, .ro, 0⟩]⟩,
  -- DTR_LSTEP
  ⟨0xA0010, [], true, [⟨0, 32, .ro, 0⟩, ⟨32, 3, .ro, 0⟩, ⟨35, 1, .ro, 0⟩, ⟨36, 1, .ro, 0⟩, ⟨48, 16, .ro, 0⟩]⟩,
  -- DTR_CFG
  ⟨0xA0018, [], false, [⟨0, 8, .rw, 0x40⟩]⟩,
  -- DTR_NSTAT
  ⟨0xA001C, [], false, [⟨0, 8, .rc, 0⟩]⟩,
  -- DTR_ERR
  ⟨0xA0020, [], true, [⟨0, 4, .ro, 0⟩, ⟨4, 6, .ro, 0⟩, ⟨10, 1, .w1c, 0⟩, ⟨16, 16, .ro, 0⟩, ⟨32, 32, .ro, 0⟩]⟩,
  -- DTR_STAGE
  ⟨0xA0028, [], true, [⟨0, 6, .ro, 0⟩, ⟨6, 6, .ro, 0⟩, ⟨32, 32, .ro, 0⟩]⟩,
  -- DTR_RSBYTES
  ⟨0xA0030, [], true, [⟨0, 64, .rc, 0⟩]⟩,
  -- DTR_AGBYTES
  ⟨0xA0038, [], true, [⟨0, 64, .rc, 0⟩]⟩,
  -- DTR_ESCAPE
  ⟨0xA0040, [], false, [⟨0, 32, .rc, 0⟩]⟩,
  -- DTR_DENSIFY
  ⟨0xA0044, [], false, [⟨0, 32, .rc, 0⟩]⟩,
  -- DTR_SAMPLED
  ⟨0xA0048, [], false, [⟨0, 32, .rc, 0⟩]⟩,
  -- DTR_MISMATCH
  ⟨0xA004C, [], false, [⟨0, 32, .rc, 0⟩]⟩,
  -- DTR_SKIPPED
  ⟨0xA0050, [], false, [⟨0, 32, .rc, 0⟩]⟩,
  -- DTR_REFETCH
  ⟨0xA0054, [], false, [⟨0, 32, .rc, 0⟩]⟩,
  -- DTR_DRAWWAIT
  ⟨0xA0058, [], false, [⟨0, 32, .rc, 0⟩]⟩,
  -- DTR_INT_STAT
  ⟨0xA0060, [], false, [⟨0, 1, .w1c, 0⟩, ⟨1, 1, .w1c, 0⟩, ⟨2, 1, .w1c, 0⟩, ⟨3, 1, .w1c, 0⟩, ⟨4, 1, .w1c, 0⟩, ⟨5, 1, .w1c, 0⟩]⟩,
  -- DTR_INT_EN
  ⟨0xA0064, [], false, [⟨0, 1, .rw, 0⟩, ⟨1, 1, .rw, 0⟩, ⟨2, 1, .rw, 0⟩, ⟨3, 1, .rw, 0⟩, ⟨4, 1, .rw, 0⟩, ⟨5, 1, .rw, 0⟩]⟩ ]

/-- The registers of the ZOR block. -/
def regsZor : List RegDesc := [
  -- ZOR_STATUS
  ⟨0xB0000, [], false, [⟨0, 6, .ro, 0⟩, ⟨6, 6, .ro, 0⟩, ⟨12, 2, .ro, 0⟩, ⟨14, 6, .ro, 0⟩]⟩,
  -- ZOR_ADDR
  ⟨0xB0004, [], false, [⟨0, 16, .ro, 0⟩]⟩,
  -- ZOR_CFG
  ⟨0xB0008, [], false, [⟨0, 8, .rw, 0x40⟩]⟩,
  -- ZOR_PSEL
  ⟨0xB000C, [], false, [⟨0, 6, .rw, 0⟩]⟩,
  -- ZOR_PORT
  ⟨0xB0010, [], true, [⟨0, 3, .ro, 0⟩, ⟨3, 6, .ro, 0⟩, ⟨9, 5, .ro, 0⟩, ⟨14, 2, .ro, 0⟩, ⟨16, 4, .ro, 0⟩, ⟨20, 2, .ro, 0⟩, ⟨32, 32, .ro, 0⟩]⟩,
  -- ZOR_CENSUS
  ⟨0xB0018, [], true, [⟨0, 32, .ro, 0⟩, ⟨32, 8, .ro, 0⟩, ⟨40, 1, .ro, 1⟩]⟩,
  -- ZOR_TXFLITS
  ⟨0xB0020, [], true, [⟨0, 64, .rc, 0⟩]⟩,
  -- ZOR_RXFLITS
  ⟨0xB0028, [], true, [⟨0, 64, .rc, 0⟩]⟩,
  -- ZOR_FECCORR
  ⟨0xB0030, [], true, [⟨0, 64, .rc, 0⟩]⟩,
  -- ZOR_CRCERR
  ⟨0xB0038, [], false, [⟨0, 32, .rc, 0⟩]⟩,
  -- ZOR_REPLAY
  ⟨0xB003C, [], false, [⟨0, 32, .rc, 0⟩]⟩,
  -- ZOR_AUTHFAIL
  ⟨0xB0040, [], false, [⟨0, 32, .rc, 0⟩]⟩,
  -- ZOR_STALE
  ⟨0xB0044, [], false, [⟨0, 32, .rc, 0⟩]⟩,
  -- ZOR_DUP
  ⟨0xB0048, [], false, [⟨0, 32, .rc, 0⟩]⟩,
  -- ZOR_RESENT
  ⟨0xB004C, [], false, [⟨0, 32, .rc, 0⟩]⟩,
  -- ZOR_UNREACH
  ⟨0xB0050, [], false, [⟨0, 32, .rc, 0⟩]⟩,
  -- ZOR_LOSTFLOW
  ⟨0xB0054, [], false, [⟨0, 32, .rc, 0⟩]⟩,
  -- ZOR_BADMSG
  ⟨0xB0058, [], false, [⟨0, 32, .rc, 0⟩]⟩,
  -- ZOR_DRAWWAIT
  ⟨0xB005C, [], false, [⟨0, 32, .rc, 0⟩]⟩,
  -- ZOR_SKEW
  ⟨0xB0060, [], false, [⟨0, 16, .ro, 0⟩, ⟨16, 5, .ro, 0⟩, ⟨21, 5, .ro, 0⟩]⟩ ]

/-- The registers of the ZOR block, continued. -/
def regsZor1 : List RegDesc := [
  -- ZOR_INT_STAT
  ⟨0xB0070, [], false, [⟨0, 1, .w1c, 0⟩, ⟨1, 1, .w1c, 0⟩, ⟨2, 1, .w1c, 0⟩, ⟨3, 1, .w1c, 0⟩, ⟨4, 1, .w1c, 0⟩, ⟨5, 1, .w1c, 0⟩, ⟨6, 1, .w1c, 0⟩, ⟨7, 1, .w1c, 0⟩, ⟨8, 1, .w1c, 0⟩]⟩,
  -- ZOR_INT_EN
  ⟨0xB0074, [], false, [⟨0, 1, .rw, 0⟩, ⟨1, 1, .rw, 0⟩, ⟨2, 1, .rw, 0⟩, ⟨3, 1, .rw, 0⟩, ⟨4, 1, .rw, 0⟩, ⟨5, 1, .rw, 0⟩, ⟨6, 1, .rw, 0⟩, ⟨7, 1, .rw, 0⟩, ⟨8, 1, .rw, 0⟩]⟩ ]

/-- The registers of the HOST block. -/
def regsHost : List RegDesc := [
  -- HOST_STATUS
  ⟨0x0, [], false, [⟨0, 8, .ro, 0⟩, ⟨8, 8, .ro, 0⟩, ⟨16, 7, .ro, 0⟩]⟩,
  -- HOST_LINK
  ⟨0x4, [], false, [⟨0, 4, .ro, 0⟩, ⟨4, 4, .ro, 0⟩, ⟨8, 1, .ro, 0⟩, ⟨9, 1, .ro, 0⟩, ⟨10, 1, .ro, 0⟩]⟩,
  -- HOST_QSEL
  ⟨0x8, [], false, [⟨0, 7, .rw, 0⟩]⟩,
  -- HOST_QCRCFG
  ⟨0xC, [], false, [⟨0, 5, .rw, 6⟩, ⟨5, 8, .rw, 1⟩, ⟨13, 16, .rw, 0⟩]⟩,
  -- HOST_QCFG
  ⟨0x10, [], true, [⟨0, 1, .rw, 0⟩, ⟨1, 2, .rw, 0⟩, ⟨3, 3, .rw, 0⟩, ⟨6, 2, .rw, 0⟩, ⟨8, 6, .rw, 0⟩, ⟨14, 1, .rw, 0⟩, ⟨15, 1, .rw, 0⟩, ⟨16, 6, .rw, 0⟩, ⟨32, 15, .rw, 0x400⟩]⟩,
  -- HOST_QCRBASE
  ⟨0x18, [], true, [⟨12, 52, .rw, 0⟩]⟩,
  -- HOST_QPTR
  ⟨0x20, [], true, [⟨0, 14, .ro, 0⟩, ⟨16, 14, .ro, 0⟩, ⟨32, 16, .ro, 0⟩, ⟨48, 16, .ro, 0⟩]⟩,
  -- HOST_QCOUNT
  ⟨0x28, [], true, [⟨0, 16, .rc, 0⟩, ⟨16, 16, .rc, 0⟩, ⟨32, 16, .rc, 0⟩, ⟨48, 16, .rc, 0⟩]⟩,
  -- HOST_QSTAT
  ⟨0x30, [], false, [⟨0, 3, .ro, 0⟩, ⟨3, 3, .ro, 0⟩, ⟨6, 1, .w1c, 0⟩, ⟨7, 1, .w1c, 0⟩, ⟨8, 8, .ro, 0⟩, ⟨16, 9, .ro, 0⟩, ⟨25, 3, .ro, 0⟩]⟩,
  -- HOST_BADACC
  ⟨0x34, [], false, [⟨0, 32, .rc, 0⟩]⟩,
  -- HOST_WRDROP
  ⟨0x38, [], false, [⟨0, 32, .rc, 0⟩]⟩,
  -- HOST_BUDGETOVR
  ⟨0x3C, [], false, [⟨0, 32, .rc, 0⟩]⟩,
  -- HOST_INT_STAT
  ⟨0x40, [], false, [⟨0, 1, .w1c, 0⟩, ⟨1, 1, .w1c, 0⟩, ⟨2, 1, .w1c, 0⟩, ⟨3, 1, .w1c, 0⟩, ⟨4, 1, .w1c, 0⟩, ⟨5, 1, .w1c, 0⟩]⟩,
  -- HOST_INT_EN
  ⟨0x44, [], false, [⟨0, 1, .rw, 0⟩, ⟨1, 1, .rw, 0⟩, ⟨2, 1, .rw, 0⟩, ⟨3, 1, .rw, 0⟩, ⟨4, 1, .rw, 0⟩, ⟨5, 1, .rw, 0⟩]⟩,
  -- HOST_DB
  ⟨0x1000, [(0x4, 128)], false, [⟨0, 14, .wo, 0⟩]⟩,
  -- HOST_CRHEAD
  ⟨0x1200, [(0x4, 128)], false, [⟨0, 16, .rw, 0⟩]⟩ ]

/-- The registers of the CHK block. -/
def regsChk : List RegDesc := [
  -- CHK_STATUS
  ⟨0xC0000, [], false, [⟨0, 8, .ro, 0x90⟩, ⟨8, 8, .ro, 0x80⟩]⟩,
  -- CHK_DROP
  ⟨0xC0004, [], false, [⟨0, 32, .rc, 0⟩]⟩,
  -- CHK_INT_SUM
  ⟨0xC0010, [(0x4, 5)], false, [⟨0, 32, .ro, 0⟩]⟩,
  -- CHK_CFG
  ⟨0xC1000, [(0x80, 144)], false, [⟨0, 7, .rw, 0x20⟩, ⟨7, 1, .rw, 1⟩, ⟨8, 1, .rw, 1⟩, ⟨9, 1, .rw, 1⟩, ⟨10, 1, .rw, 0⟩, ⟨11, 1, .rw, 0⟩]⟩,
  -- CHK_CMD
  ⟨0xC1004, [(0x80, 144)], false, [⟨0, 1, .wo, 0⟩, ⟨1, 1, .wo, 0⟩, ⟨2, 1, .wo, 0⟩]⟩,
  -- CHK_POLY
  ⟨0xC1008, [(0x80, 144)], true, [⟨0, 64, .rw, 0x1EDC6F41⟩]⟩,
  -- CHK_INIT
  ⟨0xC1010, [(0x80, 144)], true, [⟨0, 64, .rw, 0xFFFFFFFF⟩]⟩,
  -- CHK_EXPECT
  ⟨0xC1018, [(0x80, 144)], true, [⟨0, 64, .rw, 0⟩]⟩,
  -- CHK_RESULT
  ⟨0xC1020, [(0x80, 144)], true, [⟨0, 64, .ro, 0⟩]⟩,
  -- CHK_DIN8
  ⟨0xC1028, [(0x80, 144)], false, [⟨0, 8, .wo, 0⟩]⟩,
  -- CHK_DIN16
  ⟨0xC102C, [(0x80, 144)], false, [⟨0, 16, .wo, 0⟩]⟩,
  -- CHK_DIN32
  ⟨0xC1030, [(0x80, 144)], false, [⟨0, 32, .wo, 0⟩]⟩,
  -- CHK_DIN64
  ⟨0xC1038, [(0x80, 144)], true, [⟨0, 64, .wo, 0⟩]⟩,
  -- CHK_STAT
  ⟨0xC1040, [(0x80, 144)], false, [⟨0, 1, .w1c, 0⟩, ⟨1, 1, .w1c, 0⟩, ⟨2, 1, .w1c, 0⟩, ⟨3, 1, .w1c, 0⟩, ⟨4, 1, .w1c, 0⟩, ⟨5, 3, .ro, 0⟩, ⟨8, 1, .ro, 1⟩, ⟨9, 1, .ro, 0⟩, ⟨10, 6, .ro, 0⟩]⟩,
  -- CHK_INTEN
  ⟨0xC1044, [(0x80, 144)], false, [⟨0, 5, .rw, 0⟩]⟩,
  -- CHK_COUNT
  ⟨0xC1048, [(0x80, 144)], true, [⟨0, 64, .ro, 0⟩]⟩,
  -- CHK_LEN
  ⟨0xC1050, [(0x80, 144)], true, [⟨0, 64, .rw, 0⟩]⟩,
  -- CHK_ALIVE
  ⟨0xC1058, [(0x80, 144)], false, [⟨0, 8, .rw, 0⟩]⟩ ]

/-- The registers of the LEDG block. -/
def regsLedg : List RegDesc := [
  -- LEDG_STATUS
  ⟨0x20000, [], false, [⟨0, 1, .ro, 0⟩, ⟨1, 1, .ro, 0⟩, ⟨2, 12, .ro, 0⟩]⟩,
  -- LEDG_LIMIT
  ⟨0x20004, [], false, [⟨0, 12, .ro, 0⟩, ⟨16, 12, .ro, 0xC80⟩]⟩,
  -- LEDG_HELD
  ⟨0x20008, [], false, [⟨0, 12, .ro, 0⟩, ⟨16, 12, .ro, 0⟩]⟩,
  -- LEDG_WAIT
  ⟨0x2000C, [], false, [⟨0, 12, .ro, 0⟩, ⟨12, 2, .ro, 0⟩, ⟨16, 16, .ro, 0⟩]⟩,
  -- LEDG_GRANTS
  ⟨0x20010, [], true, [⟨0, 64, .rc, 0⟩]⟩,
  -- LEDG_WAITCC
  ⟨0x20018, [], true, [⟨0, 64, .rc, 0⟩]⟩,
  -- LEDG_BALLAST
  ⟨0x20020, [], true, [⟨0, 64, .rc, 0⟩]⟩,
  -- LEDG_RAMPWAIT
  ⟨0x20028, [], false, [⟨0, 32, .rc, 0⟩]⟩,
  -- LEDG_INT_STAT
  ⟨0x20040, [], false, [⟨0, 1, .w1c, 0⟩, ⟨1, 1, .w1c, 0⟩, ⟨2, 1, .w1c, 0⟩, ⟨3, 1, .w1c, 0⟩]⟩,
  -- LEDG_INT_EN
  ⟨0x20044, [], false, [⟨0, 1, .rw, 0⟩, ⟨1, 1, .rw, 0⟩, ⟨2, 1, .rw, 0⟩, ⟨3, 1, .rw, 0⟩]⟩ ]

/-- The registers of the PWR block. -/
def regsPwr : List RegDesc := [
  -- PWR_STATUS
  ⟨0x30000, [], false, [⟨0, 2, .ro, 1⟩, ⟨2, 1, .ro, 0⟩, ⟨3, 1, .ro, 0⟩, ⟨4, 1, .ro, 0⟩, ⟨5, 1, .ro, 0⟩, ⟨6, 2, .ro, 0⟩, ⟨8, 8, .ro, 0⟩]⟩,
  -- PWR_CFG
  ⟨0x30004, [], false, [⟨0, 8, .rw, 0x40⟩]⟩,
  -- PWR_PEND
  ⟨0x30008, [], true, [⟨0, 48, .ro, 0⟩]⟩,
  -- PWR_LIMITS
  ⟨0x30010, [], true, [⟨0, 12, .ro, 0⟩, ⟨16, 12, .ro, 0⟩, ⟨32, 11, .ro, 0⟩, ⟨48, 8, .ro, 0⟩]⟩,
  -- PWR_GOV
  ⟨0x30018, [], true, [⟨0, 32, .ro, 0⟩, ⟨32, 32, .ro, 0⟩]⟩,
  -- PWR_TEMP
  ⟨0x30020, [], false, [⟨0, 8, .ro, 0⟩, ⟨8, 8, .ro, 0⟩, ⟨16, 8, .ro, 0⟩, ⟨24, 8, .ro, 0⟩]⟩,
  -- PWR_PKG
  ⟨0x30024, [], false, [⟨0, 16, .ro, 0⟩, ⟨16, 16, .ro, 0⟩]⟩,
  -- PWR_ENERGY
  ⟨0x30028, [], true, [⟨0, 64, .ro, 0⟩]⟩,
  -- PWR_RAILSEL
  ⟨0x30030, [], false, [⟨0, 3, .rw, 0⟩]⟩,
  -- PWR_RAIL
  ⟨0x30038, [], true, [⟨0, 16, .ro, 0⟩, ⟨16, 16, .ro, 0⟩, ⟨32, 8, .ro, 0⟩, ⟨40, 1, .ro, 0⟩, ⟨41, 1, .ro, 0⟩]⟩,
  -- PWR_TRIPS
  ⟨0x30040, [], false, [⟨0, 32, .rc, 0⟩]⟩,
  -- PWR_PMBERR
  ⟨0x30044, [], false, [⟨0, 32, .rc, 0⟩]⟩,
  -- PWR_INT_STAT
  ⟨0x30050, [], false, [⟨0, 1, .w1c, 0⟩, ⟨1, 1, .w1c, 0⟩, ⟨2, 1, .w1c, 0⟩, ⟨3, 1, .w1c, 0⟩, ⟨4, 1, .w1c, 0⟩]⟩,
  -- PWR_INT_EN
  ⟨0x30054, [], false, [⟨0, 1, .rw, 0⟩, ⟨1, 1, .rw, 0⟩, ⟨2, 1, .rw, 0⟩, ⟨3, 1, .rw, 0⟩, ⟨4, 1, .rw, 0⟩]⟩ ]

/-- The registers of the ADNT block. -/
def regsAdnt : List RegDesc := [
  -- ADNT_STATUS
  ⟨0xD0000, [], false, [⟨0, 2, .ro, 0⟩, ⟨2, 2, .ro, 0⟩, ⟨4, 2, .ro, 0⟩, ⟨6, 1, .ro, 0⟩, ⟨7, 1, .ro, 0⟩, ⟨8, 1, .ro, 0⟩, ⟨9, 1, .ro, 0⟩, ⟨10, 1, .ro, 0⟩, ⟨11, 1, .ro, 0⟩, ⟨12, 1, .ro, 0⟩]⟩,
  -- ADNT_CFG
  ⟨0xD0004, [], false, [⟨0, 8, .rw, 0x3C⟩]⟩,
  -- ADNT_RBSEQ
  ⟨0xD0008, [], true, [⟨0, 64, .ro, 0⟩]⟩,
  -- ADNT_SVN
  ⟨0xD0010, [], false, [⟨0, 16, .ro, 0⟩, ⟨16, 16, .ro, 0⟩]⟩,
  -- ADNT_SEALCNT
  ⟨0xD0014, [], false, [⟨0, 32, .ro, 0⟩]⟩,
  -- ADNT_PRES
  ⟨0xD0018, [], false, [⟨0, 4, .ro, 0⟩, ⟨4, 12, .ro, 0⟩, ⟨16, 5, .ro, 0⟩]⟩,
  -- ADNT_SEL
  ⟨0xD001C, [], false, [⟨0, 6, .rw, 0⟩]⟩,
  -- ADNT_SESS
  ⟨0xD0020, [], true, [⟨0, 3, .ro, 0⟩, ⟨3, 1, .ro, 0⟩, ⟨4, 10, .ro, 0⟩, ⟨16, 16, .ro, 0⟩, ⟨32, 32, .ro, 0⟩]⟩,
  -- ADNT_KEYS
  ⟨0xD0028, [], false, [⟨0, 11, .ro, 0⟩]⟩,
  -- ADNT_AUTHFAIL
  ⟨0xD002C, [], false, [⟨0, 32, .rc, 0⟩]⟩,
  -- ADNT_JOINFAIL
  ⟨0xD0030, [], false, [⟨0, 32, .rc, 0⟩]⟩,
  -- ADNT_PRESFAIL
  ⟨0xD0034, [], false, [⟨0, 32, .rc, 0⟩]⟩,
  -- ADNT_OPCTR
  ⟨0xD0038, [], false, [⟨0, 32, .ro, 0⟩]⟩,
  -- ADNT_DBGSEL
  ⟨0xD0040, [], false, [⟨0, 4, .rw, 0⟩, ⟨4, 12, .rw, 0⟩, ⟨16, 6, .rw, 0⟩]⟩,
  -- ADNT_DBGCTL
  ⟨0xD0044, [], false, [⟨0, 3, .wo, 0⟩, ⟨3, 1, .ro, 1⟩, ⟨4, 3, .ro, 0⟩, ⟨7, 1, .ro, 0⟩]⟩,
  -- ADNT_DBGADDR
  ⟨0xD0048, [], true, [⟨0, 64, .rw, 0⟩]⟩,
  -- ADNT_DBGDATA
  ⟨0xD0050, [], true, [⟨0, 64, .rw, 0⟩]⟩,
  -- ADNT_INT_STAT
  ⟨0xD0060, [], false, [⟨0, 1, .w1c, 0⟩, ⟨1, 1, .w1c, 0⟩, ⟨2, 1, .w1c, 0⟩, ⟨3, 1, .w1c, 0⟩, ⟨4, 1, .w1c, 0⟩, ⟨5, 1, .w1c, 0⟩]⟩,
  -- ADNT_INT_EN
  ⟨0xD0064, [], false, [⟨0, 1, .rw, 0⟩, ⟨1, 1, .rw, 0⟩, ⟨2, 1, .rw, 0⟩, ⟨3, 1, .rw, 0⟩, ⟨4, 1, .rw, 0⟩, ⟨5, 1, .rw, 0⟩]⟩ ]

/-- The registers of the DAWN block. -/
def regsDawn : List RegDesc := [
  -- DAWN_STATUS
  ⟨0xE0000, [], false, [⟨0, 4, .ro, 0⟩, ⟨4, 2, .ro, 0⟩, ⟨6, 1, .ro, 0⟩, ⟨7, 1, .ro, 0⟩, ⟨8, 16, .ro, 0⟩, ⟨24, 1, .ro, 0⟩]⟩,
  -- DAWN_CAUSE
  ⟨0xE0004, [], false, [⟨0, 32, .ro, 0⟩]⟩,
  -- DAWN_TIME
  ⟨0xE0008, [], true, [⟨0, 32, .ro, 0⟩, ⟨32, 32, .ro, 0⟩]⟩,
  -- DAWN_ID
  ⟨0xE0010, [], false, [⟨0, 8, .ro, 0xB1⟩, ⟨8, 8, .ro, 0⟩]⟩,
  -- DAWN_NVM
  ⟨0xE0014, [], false, [⟨0, 4, .ro, 0⟩, ⟨4, 1, .ro, 0⟩, ⟨8, 8, .ro, 0⟩]⟩,
  -- DAWN_INT_STAT
  ⟨0xE0018, [], false, [⟨0, 1, .w1c, 0⟩, ⟨1, 1, .w1c, 0⟩, ⟨2, 1, .w1c, 0⟩]⟩,
  -- DAWN_INT_EN
  ⟨0xE001C, [], false, [⟨0, 1, .rw, 0⟩, ⟨1, 1, .rw, 0⟩, ⟨2, 1, .rw, 0⟩]⟩,
  -- DAWN_REPORT, by words
  ⟨0xE1000, [(0x4, 1024)], false, [⟨0, 32, .ro, 0⟩]⟩ ]

/-- The registers of the DLX block. -/
def regsDlx : List RegDesc := [
  -- DLX_STATUS
  ⟨0xF0000, [], false, [⟨0, 7, .ro, 0⟩, ⟨7, 1, .ro, 0⟩, ⟨8, 12, .ro, 0⟩]⟩,
  -- DLX_SEL
  ⟨0xF0004, [], false, [⟨0, 6, .rw, 0⟩, ⟨6, 1, .rw, 0⟩]⟩,
  -- DLX_JOB
  ⟨0xF0008, [], true, [⟨0, 48, .ro, 0⟩, ⟨48, 8, .ro, 0⟩, ⟨56, 1, .ro, 0⟩, ⟨57, 1, .ro, 0⟩]⟩,
  -- DLX_ACKED
  ⟨0xF0010, [], true, [⟨0, 48, .ro, 0⟩, ⟨48, 2, .ro, 0⟩, ⟨50, 1, .ro, 0⟩]⟩,
  -- DLX_KTAIL
  ⟨0xF0018, [], true, [⟨0, 48, .ro, 0⟩]⟩,
  -- DLX_KHEAD
  ⟨0xF0020, [], true, [⟨0, 48, .rw, 0⟩]⟩,
  -- DLX_BASE
  ⟨0xF0028, [], true, [⟨0, 48, .ro, 0⟩]⟩,
  -- DLX_BYTES
  ⟨0xF0030, [], true, [⟨0, 64, .rc, 0⟩]⟩,
  -- DLX_HOLD
  ⟨0xF0038, [], false, [⟨0, 32, .rc, 0⟩]⟩,
  -- DLX_ACKFAIL
  ⟨0xF003C, [], false, [⟨0, 32, .rc, 0⟩]⟩,
  -- DLX_DRAWWAIT
  ⟨0xF0040, [], false, [⟨0, 32, .rc, 0⟩]⟩,
  -- DLX_INT_STAT
  ⟨0xF0060, [], false, [⟨0, 1, .w1c, 0⟩, ⟨1, 1, .w1c, 0⟩, ⟨2, 1, .w1c, 0⟩, ⟨3, 1, .w1c, 0⟩, ⟨4, 1, .w1c, 0⟩]⟩,
  -- DLX_INT_EN
  ⟨0xF0064, [], false, [⟨0, 1, .rw, 0⟩, ⟨1, 1, .rw, 0⟩, ⟨2, 1, .rw, 0⟩, ⟨3, 1, .rw, 0⟩, ⟨4, 1, .rw, 0⟩]⟩ ]

/-- The registers of the FLT block. -/
def regsFlt : List RegDesc := [
  -- FLT_STATUS
  ⟨0x100000, [], false, [⟨0, 1, .ro, 0⟩, ⟨1, 1, .ro, 0⟩, ⟨16, 16, .ro, 0⟩]⟩,
  -- FLT_RCFG
  ⟨0x100004, [], false, [⟨0, 1, .rw, 0⟩, ⟨1, 5, .rw, 8⟩]⟩,
  -- FLT_RBASE
  ⟨0x100008, [], true, [⟨12, 52, .rw, 0⟩]⟩,
  -- FLT_RPTR
  ⟨0x100010, [], false, [⟨0, 16, .ro, 0⟩]⟩,
  -- FLT_RHEAD
  ⟨0x100014, [], false, [⟨0, 16, .rw, 0⟩]⟩,
  -- FLT_JOBVEC
  ⟨0x100018, [], true, [⟨0, 64, .rw, 0⟩]⟩,
  -- FLT_SRAMCE
  ⟨0x100020, [], true, [⟨0, 64, .rc, 0⟩]⟩,
  -- FLT_BADACC
  ⟨0x100028, [], true, [⟨0, 22, .ro, 0⟩, ⟨22, 1, .ro, 0⟩, ⟨23, 4, .ro, 0⟩, ⟨27, 1, .w1c, 0⟩]⟩,
  -- FLT_CLASSCNT
  ⟨0x100040, [(0x4, 6)], false, [⟨0, 32, .rc, 0⟩]⟩,
  -- FLT_LOST
  ⟨0x100058, [], false, [⟨0, 32, .rc, 0⟩]⟩,
  -- FLT_MERGED
  ⟨0x10005C, [], false, [⟨0, 32, .rc, 0⟩]⟩,
  -- FLT_CODESEL
  ⟨0x100060, [], false, [⟨0, 16, .rw, 0⟩]⟩,
  -- FLT_CODECNT
  ⟨0x100064, [], false, [⟨0, 32, .rc, 0⟩]⟩,
  -- FLT_INT_STAT
  ⟨0x100070, [], false, [⟨0, 1, .w1c, 0⟩, ⟨1, 1, .w1c, 0⟩, ⟨2, 1, .w1c, 0⟩, ⟨3, 1, .w1c, 0⟩, ⟨4, 1, .w1c, 0⟩, ⟨5, 1, .w1c, 0⟩]⟩,
  -- FLT_INT_EN
  ⟨0x100074, [], false, [⟨0, 1, .rw, 0⟩, ⟨1, 1, .rw, 0⟩, ⟨2, 1, .rw, 0⟩, ⟨3, 1, .rw, 0⟩, ⟨4, 1, .rw, 0⟩, ⟨5, 1, .rw, 0⟩]⟩,
  -- FLT_LAST and FLT_FATALREC, by words
  ⟨0x100100, [(0x4, 16)], false, [⟨0, 32, .ro, 0⟩]⟩,
  ⟨0x100140, [(0x4, 16)], false, [⟨0, 32, .ro, 0⟩]⟩ ]

/-- The descriptors of the block an offset lies in (64 KiB block bases, R3). -/
def blockRegs (off : Nat) : List RegDesc :=
  match off / 0x10000 with
  | 1 => regsFclk
  | 4 => regsTile
  | 5 => regsVec
  | 6 => regsMem
  | 7 => regsUrng
  | 8 => regsEmb
  | 9 => regsLkp ++ regsLkp1
  | 10 => regsDtr
  | 11 => regsZor ++ regsZor1
  | 0 => regsHost
  | 12 => regsChk
  | 2 => regsLedg
  | 3 => regsPwr
  | 13 => regsAdnt
  | 14 => regsDawn
  | 15 => regsDlx
  | 16 => regsFlt
  | _ => []

/-- Whether a distance from the base is one of an array's registers. -/
def dimsHit (dims : List (Nat × Nat)) (d : Nat) : Bool :=
  match dims with
  | [] => d == 0
  | (st, n) :: r => decide (d / st < n) && dimsHit r (d % st)

/-- The register that lies at an offset, if one does. -/
def regAt (off : Nat) : Option RegDesc :=
  (blockRegs off).find? fun r => decide (r.base ≤ off) && dimsHit r.dims (off - r.base)

/-- The reset value of a register. -/
def RegDesc.resetVal (r : RegDesc) : Nat := r.fields.foldl (fun a f => a ||| (f.reset <<< f.lo)) 0

/-- The mask of the fields with an access code. -/
def RegDesc.mask (r : RegDesc) (a : Access) : Nat :=
  r.fields.foldl (fun m f => if f.acc = a then m ||| ((2 ^ f.width - 1) <<< f.lo) else m) 0

/-- What a write of `v` leaves in a register that holds `cur` (R8): RW fields take the written bits, W1C bits are
cleared and W1S bits set by a written 1, every other bit stays. -/
def RegDesc.applyWrite (r : RegDesc) (cur v : Nat) : Nat :=
  let rw := r.mask .rw
  let c := r.mask .w1c &&& v
  let st := r.mask .w1s &&& v
  ((((cur ||| rw) ^^^ rw) ||| (v &&& rw)) ||| c) ^^^ c ||| st

/-- What a register that holds `cur` keeps after a read that clears its RC fields (R8). -/
def RegDesc.afterRead (r : RegDesc) (cur : Nat) : Nat := (cur ||| r.mask .rc) ^^^ r.mask .rc

end Sys2Proof
end

