-- ==== Sys2Proof/Machine/Ops.lean ====
section
/-! DEFINITION. The named operations every block uses: time, registers, interrupt vectors, host memory, free values, fault
records, and the current ledger. -/

namespace Sys2Proof.Machine

/-! ## Time (R11, R12) -/

/-- The cycle position in the frame, in cc of the 800 MHz base (R12). -/
def State.pos (s : State) : Nat := ((s.now : Int) - s.clk.frameStart).toNat / 80

/-- M of R11: ceil(L × m / 1000), rounded up to a multiple of 64 cc. -/
def frameM (len permille : Nat) : Nat := roundUp 64 (ceilDiv (len * permille) 1000)

/-- P of R11: ceil(L / 100), rounded up to a multiple of 64 cc. -/
def frameP (len : Nat) : Nat := roundUp 64 (ceilDiv len 100)

/-- W of R11. -/
def State.W (s : State) : Nat := s.clk.len - frameM s.clk.len s.clk.permille

/-- S of R11. -/
def State.slotLen (s : State) : Nat := s.W / 64

/-- The position at which the protected reserve starts (R12). -/
def State.reserveAt (s : State) : Nat := s.clk.len - frameP s.clk.len

/-- Whether the device is in Evening. -/
def State.evening (s : State) : Bool := decide (s.power.state = .evening)

/-- The factor of R27. -/
def State.mult (s : State) : Nat := if s.evening then 2 else 1

/-- Whether clocks run and no FATAL fault is in force: power is good, the device is not in Off, no hardware shutdown. -/
def State.live (s : State) : Bool := s.dawn.powered && !s.flt.fatal && !s.power.shut

/-- Whether the device has power and is not held in reset; a FATAL fault changes nothing of that. -/
def State.answers (s : State) : Bool := s.dawn.powered && !s.power.shut

/-- Whether the outcome is Ready or Degraded (R437). -/
def State.outcomeOk (s : State) : Bool := decide (s.dawn.outcome = 1) || decide (s.dawn.outcome = 2)

/-- Normal service of R6: an outcome of Ready or Degraded and no FATAL fault. -/
def State.served (s : State) : Bool := s.live && s.outcomeOk

/-- The limited form of R440: after a Failed outcome (recovery among them). -/
def State.limited (s : State) : Bool := s.live && decide (s.dawn.outcome = 3)

/-- Whether the core clocks run: served and not in Night or on its way into or out of it (R362, R373, R374). -/
def State.clocked (s : State) : Bool := s.live && decide (s.power.night = .none)

/-- Whether the frame clock is LOST. -/
def State.lost (s : State) : Bool := decide (s.clk.lock = .lost)

/-! ## Registers (R8) -/

/-- What a register holds. -/
def regRaw (s : State) (off : Nat) : Nat :=
  match Tbl.look? s.regs off with
  | some v => v.toNat
  | none =>
    match regAt off with
    | some r => r.resetVal
    | none => 0

/-- A register given a value. -/
def setReg (off v : Nat) (s : State) : State := { s with regs := Tbl.put s.regs off (BitVec.ofNat 64 v) }

/-- Bits [hi:lo] of a register. -/
def regField (s : State) (off hi lo : Nat) : Nat := bits (regRaw s off) hi lo

/-- Bits [hi:lo] of a register given a value. -/
def setRegField (off hi lo v : Nat) (s : State) : State := setReg off (setBits (regRaw s off) hi lo v) s

/-- A saturating counter of `w` bits raised by `n`. -/
def count (off w n : Nat) (s : State) : State := if n = 0 then s else setReg off (satTo w (regRaw s off + n)) s

/-- Bits of a register set. -/
def orReg (off v : Nat) (s : State) : State := setReg off (regRaw s off ||| v) s

/-! ## Interrupt vectors (R347, R468, R469) -/

/-- One MSI-X vector: sent when its table entry is not masked, else its pending bit is set. -/
def sendVector (v : Nat) (s : State) : State :=
  if (Tbl.look s.msix.table v MsixEnt.init).masked then { s with msix := { s.msix with pba := Tbl.put s.msix.pba v () } }
  else { s with msix := { s.msix with sent := s.msix.sent ++ [v] } }

/-- The interrupt registers of a block and its vector (R468). -/
structure Blk where
  stat : Nat
  en   : Nat
  vec  : Nat
  deriving DecidableEq, Repr

def blkHost : Blk := ⟨Reg.HOST_INT_STAT, Reg.HOST_INT_EN, 128⟩
def blkFclk : Blk := ⟨Reg.FCLK_INT_STAT, Reg.FCLK_INT_EN, 129⟩
def blkLedg : Blk := ⟨Reg.LEDG_INT_STAT, Reg.LEDG_INT_EN, 130⟩
def blkPwr : Blk := ⟨Reg.PWR_INT_STAT, Reg.PWR_INT_EN, 131⟩
def blkTile (t : Nat) : Blk := ⟨Reg.TILE_INT_STAT t, Reg.TILE_INT_EN t, 132 + t⟩
def blkVec (t : Nat) : Blk := ⟨Reg.VEC_INT_STAT t, Reg.VEC_INT_EN t, 140 + t⟩
def blkMem : Blk := ⟨Reg.MEM_INT_STAT, Reg.MEM_INT_EN, 148⟩
def blkUrng : Blk := ⟨Reg.URNG_INT_STAT, Reg.URNG_INT_EN, 149⟩
def blkEmb : Blk := ⟨Reg.EMB_INT_STAT, Reg.EMB_INT_EN, 150⟩
def blkLkp : Blk := ⟨Reg.LKP_INT_STAT, Reg.LKP_INT_EN, 151⟩
def blkDtr : Blk := ⟨Reg.DTR_INT_STAT, Reg.DTR_INT_EN, 152⟩
def blkZor : Blk := ⟨Reg.ZOR_INT_STAT, Reg.ZOR_INT_EN, 153⟩
def blkAdnt : Blk := ⟨Reg.ADNT_INT_STAT, Reg.ADNT_INT_EN, 155⟩
def blkDawn : Blk := ⟨Reg.DAWN_INT_STAT, Reg.DAWN_INT_EN, 156⟩
def blkDlx : Blk := ⟨Reg.DLX_INT_STAT, Reg.DLX_INT_EN, 157⟩
def blkFlt : Blk := ⟨Reg.FLT_INT_STAT, Reg.FLT_INT_EN, 158⟩

/-- Whether an enabled event of a block is set. -/
def Blk.active (b : Blk) (s : State) : Bool := decide (regRaw s b.stat &&& regRaw s b.en ≠ 0)

/-- An event of a block: its INT_STAT bit is set, and the block's vector is sent when the enabled OR rises (R469). -/
def raiseInt (b : Blk) (bit : Nat) (s : State) : State :=
  let s1 := orReg b.stat (1 <<< bit) s
  if !b.active s && b.active s1 then sendVector b.vec s1 else s1

/-- An in-band interrupt on the sideband, with its mandatory data byte (R488): lost while ENEC has not enabled them. -/
def raiseIbi (v : Nat) (s : State) : State := if s.i3c.ibiOn then { s with i3c := { s.i3c with raised := s.i3c.raised ++ [v] } } else s

/-! ## Random numbers and free values -/

/-- A 64-bit draw of Adant's random number generator. -/
def draw64 (s : State) : Word64 × State := (Config.trng s.trngCtr, { s with trngCtr := s.trngCtr + 1 })

/-- `n` bytes of it. -/
def drawBytes (n : Nat) (s : State) : Bytes × State :=
  let k := ceilDiv n 8
  (((List.range k).flatMap fun i => toLe 8 (Config.trng (s.trngCtr + i)).toNat).take n, { s with trngCtr := s.trngCtr + k })

/-- A value the spec leaves open. -/
def freeVal (s : State) : Nat × State := ((Config.free s.freeCtr).toNat, { s with freeCtr := s.freeCtr + 1 })

/-! ## Host memory -/

/-- Bytes of host memory, as the host holds them; an unlisted byte reads 0 (DESIGN CHOICE). -/
def hostRead (s : State) (a n : Nat) : Bytes := Mem.gets s.hostMem 0 a n

/-- A write of host memory by the device. -/
def hostWrite (a : Nat) (bs : Bytes) (s : State) : State := { s with hostMem := Mem.sets s.hostMem 0 a bs }

/-! ## Faults (R456 to R461) -/

/-- The class of a fault code (R457).  SRAM_UE and MEM_UE take the class that applies to the address. -/
def faultClass (code : Nat) : Nat :=
  match code with
  | 0x0001 => 2 | 0x0002 => 2 | 0x0003 => 4 | 0x0004 => 1 | 0x0005 => 2 | 0x0010 => 4 | 0x0011 => 4 | 0x0020 => 1
  | 0x0021 => 4 | 0x0022 => 4 | 0x0023 => 1 | 0x0030 => 2 | 0x0031 => 2 | 0x0032 => 2 | 0x0033 => 2 | 0x0040 => 2
  | 0x0041 => 2 | 0x0042 => 2 | 0x0050 => 1 | 0x0051 => 1 | 0x0052 => 1 | 0x0060 => 3 | 0x0061 => 3 | 0x0070 => 2
  | 0x0071 => 2 | 0x0080 => 3 | 0x0090 => 1 | 0x00A0 => 1 | _ => 5

/-- The block a fault code names: the block whose chapter holds the first rule of its Raised under column (R457). -/
def faultBlock (code : Nat) : Nat :=
  match code with
  | 0x0001 => 4 | 0x0002 => 6 | 0x0003 => 6 | 0x0004 => 6 | 0x0005 => 7 | 0x0010 => 1 | 0x0011 => 1 | 0x0020 => 11
  | 0x0021 => 11 | 0x0022 => 11 | 0x0023 => 11 | 0x0030 => 8 | 0x0031 => 8 | 0x0032 => 8 | 0x0033 => 16
  | 0x0040 => 10 | 0x0041 => 10 | 0x0042 => 10 | 0x0050 => 3 | 0x0051 => 3 | 0x0052 => 3 | 0x0060 => 13
  | 0x0061 => 13 | 0x0070 => 15 | 0x0071 => 16 | 0x0090 => 0 | _ => 16

/-- A fault as a block reports it: CODE, job, instance, ADDR, ARG0, ARG1, and whether ADDR is a physical address. -/
structure Report where
  code : Nat
  job  : Option Nat := none
  inst : Nat := 0
  addr : Nat := 0
  arg0 : Nat := 0
  arg1 : Nat := 0
  phys : Bool := false
  /-- Class and block where they are not those of the code's row (SRAM_UE, MEM_UE, RESERVE_UE, CORE_FAILED). -/
  cls  : Option Nat := none
  blk  : Option Nat := none
  deriving DecidableEq, Repr

/-- The record of a report at this instant (R458); SEQ, PHASE and REPEAT are filled in when it is written. -/
def Report.record (r : Report) (s : State) : FaultRec :=
  { code := r.code, cls := r.cls.getD (faultClass r.code), phase := false, job := r.job, rep := false, phys := r.phys,
    unit := r.blk.getD (faultBlock r.code), inst := r.inst, fnum := s.clk.fnum, pos := s.pos, seq := 0, count := 1,
    addr := r.addr, arg0 := r.arg0, arg1 := r.arg1 }

/-- The 64 bytes of a fault record (R458). -/
def FaultRec.bytes (f : FaultRec) : Bytes :=
  toLe 2 f.code ++ toLe 1 f.cls ++
  toLe 1 (b2n f.phase + 2 * b2n f.job.isSome + 4 * b2n f.rep + 8 * b2n f.phys) ++
  toLe 2 (f.unit % 32 + 32 * f.inst) ++ toLe 1 ((f.job.getD 0) % 64) ++ [0] ++ toLe 6 f.fnum ++ toLe 4 f.pos ++
  toLe 4 f.seq ++ toLe 4 f.count ++ zeros 6 ++ toLe 8 f.addr ++ toLe 8 f.arg0 ++ toLe 8 f.arg1 ++ zeros 8

/-- The fault ring of R459: whether it takes a record now. -/
def ringTakes (s : State) : Bool :=
  s.flt.ringEn && decide (s.flt.tail - s.flt.head < 2 ^ s.flt.log2)

/-- One record produced (R459): its SEQ, FLT_LAST, the ring, the job's vector (R469). -/
def writeRecord (f : FaultRec) (s : State) : State :=
  let f1 := { f with seq := s.flt.seq, phase := ringTakes s && (s.flt.tail / 2 ^ s.flt.log2) % 2 == 0 }
  let s1 := { s with flt := { s.flt with seq := s.flt.seq + 1, last := some f1 } }
  if s.dawn.outcome = 0 then s1
  else if ringTakes s then
    let s2 := hostWrite (bits (regRaw s Reg.FLT_RBASE) 63 12 * 4096 + 64 * (s.flt.tail % 2 ^ s.flt.log2)) f1.bytes s1
    let s3 := { s2 with flt := { s2.flt with tail := s2.flt.tail + 1 } }
    match f.job with
    | some j => if bitOf (regRaw s Reg.FLT_JOBVEC) j then sendVector (192 + j) s3 else s3
    | none => s3
  else raiseInt blkFlt 1 (count Reg.FLT_LOST 32 1 s1)

/-- The key of R460. -/
def FaultRec.sameKey (a b : FaultRec) : Bool :=
  decide (a.code = b.code) && decide (a.job = b.job) && decide (a.unit = b.unit) && decide (a.inst = b.inst)

/-- An occurrence counted (R459). -/
def countFault (code cls : Nat) (s : State) : State :=
  let s1 := count (Reg.FLT_CLASSCNT cls) 32 1 s
  if regField s Reg.FLT_CODESEL 15 0 = code then count Reg.FLT_CODECNT 32 1 s1 else s1

/-- A class 0 event: counted only (R456). -/
def corrected (s : State) : State := count (Reg.FLT_CLASSCNT 0) 32 1 s

/-- The event bits of FLT_INT_STAT a record sets (R470). -/
def recordInts (cls : Nat) (s : State) : State :=
  let s1 := raiseInt blkFlt 0 s
  if cls = 3 then raiseInt blkFlt 2 s1 else if cls = 4 then raiseInt blkFlt 3 s1 else s1

/-- A fault of class 1 to 4 raised: counted, merged within the frame (R460) or written as a record. -/
def fault (r : Report) (s : State) : State :=
  let f := r.record s
  let s1 := countFault f.code f.cls s
  match s.flt.merged.findIdx? fun m => m.1.sameKey f with
  | some i =>
    let s2 := count Reg.FLT_MERGED 32 1 s1
    { s2 with flt := { s2.flt with merged := s2.flt.merged.modify i fun m => (m.1, m.2.1 + 1, f) } }
  | none =>
    let s2 := writeRecord f (recordInts f.cls s1)
    { s2 with flt := { s2.flt with merged := s2.flt.merged ++ [(f, 0, f)] } }

/-- The summaries of the frame that ends (R460). -/
def faultSummaries (s : State) : State :=
  let s1 := { s with flt := { s.flt with merged := [] } }
  s.flt.merged.foldl
    (fun s m => if m.2.1 = 0 then s else writeRecord { m.2.2 with rep := true, count := m.2.1 } (recordInts m.2.2.cls s)) s1

/-! ## The current ledger (R377) -/

/-- limit(): the lower of the state's limit and the hardware limit (R363, R377). -/
def ledgerLimit (s : State) : Nat :=
  min 3200 (if s.power.state = .noon then s.power.limits.noon else s.power.limits.eve)

/-- The limit a request is served under: a top-up is served under the limit of the state it leads to (R368, R374). -/
def reqLimit (r : Req) (s : State) : Nat :=
  match r.owner with
  | .topUp =>
    match s.power.wake with
    | some w => min 3200 (if w.target = .noon then s.power.limits.noon else s.power.limits.eve)
    | none => if s.dawn.outcome = 0 then ledgerLimit s else min 3200 s.power.limits.noon
  | _ => ledgerLimit s

/-- The draws an owner holds. -/
def heldBy (o : Owner) (s : State) : Nat :=
  sumNat (s.ledger.holds.filterMap fun p => if p.1 = o then some p.2 else none)

/-- Whether an owner holds a granted reservation. -/
def holds (o : Owner) (s : State) : Bool := s.ledger.holds.any fun p => decide (p.1 = o)

/-- Whether an owner's request is waiting. -/
def asking (o : Owner) (s : State) : Bool := s.ledger.waiting.any fun r => decide (r.owner = o)

/-- A waiting request granted whole: the owner holds its draws; a chunk's owner re-enters admission (R28). -/
def grantReq (r : Req) (s : State) : State :=
  let l := s.ledger
  let s1 := { s with ledger := { l with waiting := l.waiting.tail, holds := l.holds ++ [(r.owner, r.units)] } }
  let s2 := count Reg.LEDG_GRANTS 64 1 s1
  match r.owner with
  | .chunk u => { s2 with ledger := { s2.ledger with granted := s2.ledger.granted ++ [u] } }
  | _ => s2

/-- The serving loop of ledger_cycle (R377); `fuel` is at least the number of waiting requests. -/
def ledgerServe (fuel : Nat) (s : State) : State :=
  match fuel, s.ledger.waiting with
  | 0, _ => s
  | _, [] => s
  | fuel + 1, r :: rest =>
    let l := s.ledger
    let need := r.units - r.accrued
    let t := min need l.tail
    let held := l.held + t
    let tail := l.tail - t
    let need1 := need - t
    if held + tail + need1 > reqLimit r s then
      { s with ledger := { l with held := held, tail := tail, waiting := { r with accrued := r.accrued + t } :: rest } }
    else
      let b := min need1 l.bucket
      let l1 := { l with held := held + b, tail := tail, bucket := l.bucket - b,
                         waiting := { r with accrued := r.accrued + t + b } :: rest }
      if need1 - b ≠ 0 then { s with ledger := l1 }
      else ledgerServe fuel (grantReq r { s with ledger := l1 })

/-- The serving loop over every waiting request. -/
def serveAll (s : State) : State := if s.ledger.on then ledgerServe s.ledger.waiting.length s else s

/-- A request: it joins its class in arrival order (R377) and is served as far as it can be. -/
def ledgerRequest (o : Owner) (cls units : Nat) (s : State) : State :=
  let r : Req := { owner := o, cls := cls, units := units, accrued := 0, waited := 0, long := false }
  serveAll { s with ledger := { s.ledger with waiting := insertBy (fun a b => decide (a.cls < b.cls)) r s.ledger.waiting } }

/-- An owner's reservation asked for unless it is held or asked for already. -/
def reserve (o : Owner) (cls units : Nat) (s : State) : State :=
  if holds o s || asking o s then s else ledgerRequest o cls units s

/-- ledger_return (R377): everything an owner holds enters the tail. -/
def ledgerReturn (o : Owner) (s : State) : State :=
  let u := heldBy o s
  let l := s.ledger
  serveAll { s with ledger := { l with held := l.held - u, tail := l.tail + u,
                                       holds := l.holds.filter fun p => decide (p.1 ≠ o) } }

/-- A waiting request of an owner dropped; what it had accrued enters the tail. -/
def ledgerDrop (o : Owner) (s : State) : State :=
  let l := s.ledger
  let a := sumNat (l.waiting.filterMap fun r => if r.owner = o then some r.accrued else none)
  { s with ledger := { l with held := l.held - a, tail := l.tail + a,
                              waiting := l.waiting.filter fun r => decide (r.owner ≠ o) } }

/-- An owner's reservation changed to `n` draws: a fall is returned at once. -/
def ledgerShrink (o : Owner) (n : Nat) (s : State) : State :=
  let u := heldBy o s
  if u ≤ n then s
  else
    let l := s.ledger
    serveAll { s with ledger := { l with held := l.held - (u - n), tail := l.tail + (u - n),
                                         holds := l.holds.map fun p => if p.1 = o then (o, n) else p } }

/-- Chunk draws in the terms of R369: Noon as declared, Evening 5/8 rounded up to a draw. -/
def chunkDraws (s : State) (d : Nat) : Nat := if s.evening then ceilDiv (d * 5) 8 else d

/-- Standing draws in units of 0.5 A with every port trained, Noon and Evening (R384). -/
def standingNoon : Nat := 346
def standingEve : Nat := 275

/-! ## The result of a command -/

/-- The next state. -/
abbrev Out := Host.Outcome State Fault Refusal

/-- An event of the block that the guard lets happen only in a state in which it can arise; in any other state the event
cannot arise and nothing changes. -/
def when (c : Bool) (f : State → State) (s : State) : Out := .next (if c then f s else s)

end Sys2Proof.Machine
end

