-- ==== Sys2Proof/Machine/Commands.lean ====
section
/-! DEFINITION. Command records and their life: fields of R331, statuses of R346, queues, chunk boundaries (R30, R342) and
completion (R343). -/

namespace Sys2Proof.Machine

/-! ## Status codes (R346) -/

def St.OK : Nat := 0x0000
def St.CANCELLED : Nat := 0x0001
def St.OVERRUN : Nat := 0x0002
def St.CHUNK_TOO_LONG : Nat := 0x0003
def St.BADCMD : Nat := 0x0004
def St.BADJOB : Nat := 0x0005
def St.NOTFOUND : Nat := 0x0006
def St.CANCEL_LATE : Nat := 0x0007
def St.NOT_SUSPENDED : Nat := 0x0008
def St.CLOCK_LOST : Nat := 0x0009
def St.NO_TICK : Nat := 0x000A
def St.JOB_BUSY : Nat := 0x000B
def St.JOB_BADREC : Nat := 0x000C
def St.SLOT_PLAN_CONFLICT : Nat := 0x000D
def St.POOL_FLOOR : Nat := 0x0010
def St.REPL_LIMIT : Nat := 0x0011
def St.PART_CONFLICT : Nat := 0x0012
def St.TILE_INVALID : Nat := 0x0020
def St.TILE_POISON : Nat := 0x0021
def St.TILE_ACCESS : Nat := 0x0022
def St.VEC_INVALID : Nat := 0x0023
def St.VEC_ACCESS : Nat := 0x0024
def St.POISON : Nat := 0x0030
def St.MEM_BADREQ : Nat := 0x0031
def St.URNG_OVERLAP : Nat := 0x0032
def St.URNG_BADREQ : Nat := 0x0033
def St.HTIER_FULL : Nat := 0x0034
def St.HTIER_LIMIT : Nat := 0x0035
def St.PIN_LIMIT : Nat := 0x0036
def St.SESSION_AUTH : Nat := 0x0037
def St.TBL_EXISTS : Nat := 0x0040
def St.TBL_LIMIT : Nat := 0x0041
def St.EMB_BADREQ : Nat := 0x0042
def St.VERSION_BUSY : Nat := 0x0043
def St.VERSION_LATE : Nat := 0x0044
def St.VERSION_NOTSTAGED : Nat := 0x0045
def St.LKP_INVALID : Nat := 0x0050
def St.LKP_ACCESS : Nat := 0x0051
def St.DTR_EXISTS : Nat := 0x0060
def St.DTR_LIMIT : Nat := 0x0061
def St.DTR_BADDESC : Nat := 0x0062
def St.DTR_BADPROG : Nat := 0x0063
def St.DTR_FROZEN : Nat := 0x0064
def St.DTR_STAGE : Nat := 0x0065
def St.DTR_STAGEMEM : Nat := 0x0066
def St.PWR_BADSTATE : Nat := 0x0070
def St.PWR_BADLIMIT : Nat := 0x0071
def St.THERMAL_HOLD : Nat := 0x0072
def St.DRAW_TOO_LARGE : Nat := 0x0073
def St.PWR_SUPERSEDED : Nat := 0x0074
def St.PMBUS_FAIL : Nat := 0x0075
def St.SIG_BAD : Nat := 0x0080
def St.NOT_FRESH : Nat := 0x0081
def St.PRESENCE_TIMEOUT : Nat := 0x0082
def St.PRESENCE_BUSY : Nat := 0x0083
def St.LC_FORBIDDEN : Nat := 0x0084
def St.SESSION_BUSY : Nat := 0x0085
def St.OWNER_UNKNOWN : Nat := 0x0086
def St.SEAL_OPEN : Nat := 0x0087
def St.SVN_LOW : Nat := 0x0088
def St.NVM_FAIL : Nat := 0x0089
def St.KEYLESS : Nat := 0x008A
def St.POLICY : Nat := 0x008B
def St.RETIRED : Nat := 0x008C
def St.JOB_FAULTED : Nat := 0x0090
def St.SELFTEST_BUSY : Nat := 0x0091
def St.SELFTEST_FAIL : Nat := 0x0092
def St.SELFTEST_BADREQ : Nat := 0x0093
def St.DLX_BADREQ : Nat := 0x00A0
def St.DLX_BUSY : Nat := 0x00A1
def St.DLX_LOGBAD : Nat := 0x00A2
def St.DLX_NOTSUSP : Nat := 0x00A3

/-! ## Opcodes (R332) -/

def Op.JOB_ADMIT : Nat := 0x0001
def Op.JOB_END : Nat := 0x0002
def Op.CTX_SWITCH : Nat := 0x0003
def Op.SUSPEND : Nat := 0x0004
def Op.RESUME : Nat := 0x0005
def Op.CANCEL : Nat := 0x0006
def Op.MAP : Nat := 0x0010
def Op.UNMAP : Nat := 0x0011
def Op.HTIER_ADD : Nat := 0x0012
def Op.HTIER_REMOVE : Nat := 0x0013
def Op.HANDBACK : Nat := 0x0014
def Op.ADOPT : Nat := 0x0015
def Op.DATA_IN : Nat := 0x0016
def Op.COPY : Nat := 0x0017
def Op.EXPORT_SET : Nat := 0x0018
def Op.KEEP_REGION : Nat := 0x0019
def Op.EXPORT_BASE : Nat := 0x001A
def Op.RESTORE : Nat := 0x001B
def Op.RANK_MOVE : Nat := 0x001C
def Op.TBL_CREATE : Nat := 0x0020
def Op.TBL_STAGE : Nat := 0x0021
def Op.TBL_PUBLISH : Nat := 0x0022
def Op.TBL_DESTROY : Nat := 0x0023
def Op.DENSE_CREATE : Nat := 0x0030
def Op.SELFTEST : Nat := 0x0040
def Op.PWR_STATE : Nat := 0x0070
def Op.PWR_LIMITS : Nat := 0x0071
def Op.ATTEST : Nat := 0x0080
def Op.SESSION_OPEN : Nat := 0x0081
def Op.KEY_REGISTER : Nat := 0x0082
def Op.PRES_REQUEST : Nat := 0x0083
def Op.DEBUG_LOCK : Nat := 0x0084
def Op.CERT_INSTALL : Nat := 0x0085
def Op.TILE_RUN : Nat := 0x0100
def Op.WALK : Nat := 0x0101

/-- The status of a PWR_STATE refused by its target (R365, R374); none for one the device accepts. -/
def pwrRefusal (t : Nat) (hold : Bool) : Option Nat :=
  if t > 3 then some St.PWR_BADSTATE else if t = 0 && hold then some St.THERMAL_HOLD else none

/-- TILE_RUN and WALK: the commands that run in chunks. -/
def isWork (op : Nat) : Bool := decide (op = Op.TILE_RUN) || decide (op = Op.WALK)

/-- A control command that belongs to the device and not to a job. -/
def deviceOp (op : Nat) : Bool := [0x0001, 0x0012, 0x0013, 0x0040, 0x0070, 0x0071].contains op || decide (0x80 ≤ op ∧ op ≤ 0x85)

/-! ## Fields of a record (R331) -/

def Cmd.opcode (c : Cmd) : Nat := leAt c.record 0 2
def Cmd.alive (c : Cmd) : Nat := leAt c.record 3 1
def Cmd.job (c : Cmd) : Nat := leAt c.record 6 1 % 64
def Cmd.flags (c : Cmd) : Nat := leAt c.record 7 1
def Cmd.tag (c : Cmd) : Nat := leAt c.record 8 4
def Cmd.budget (c : Cmd) : Nat := leAt c.record 16 5
def Cmd.chunkB (c : Cmd) : Nat := leAt c.record 21 3
def Cmd.drawF (c : Cmd) : Nat := leAt c.record 24 2
def Cmd.energyF (c : Cmd) : Nat := leAt c.record 28 4
/-- Operand bytes n to n + k − 1 of the operand area (R331). -/
def Cmd.opnd (c : Cmd) (n k : Nat) : Nat := leAt c.record (64 + n) k
def Cmd.opndBytes (c : Cmd) (n k : Nat) : Bytes := slice c.record (64 + n) k

/-- Whether a command is RUNNING (R341): a PWR_STATE is from the moment it is accepted (R367). -/
def Cmd.runs (c : Cmd) : Bool := decide (c.life = .running) || (decide (c.opcode = Op.PWR_STATE) && c.early.isNone)

/-- The charge-free budget of chunk i: min(CHUNK, BUDGET − i × CHUNK), or CHUNK beyond the declared total (R331). -/
def Cmd.nextBudget (c : Cmd) : Nat :=
  if c.chunks * c.chunkB < c.budget then min c.chunkB (c.budget - c.chunks * c.chunkB) else c.chunkB

/-! ## Queues -/

def State.queue (s : State) (q : Nat) : Queue := Tbl.look s.queues q Queue.init
def setQueue (q : Nat) (Q : Queue) (s : State) : State := { s with queues := Tbl.put s.queues q Q }
def updQueue (q : Nat) (f : Queue → Queue) (s : State) : State := setQueue q (f (s.queue q)) s

/-- The numbers of the enabled queues, rising. -/
def State.enabled (s : State) : List Nat := s.queues.filterMap fun p => if p.2.en then some p.1 else none

/-- The head command of a queue. -/
def headOf (s : State) (q : Nat) : Option Cmd := (s.queue q).cmds.head?

/-- The commands a queue holds (R327, R343): those of its command store, and a completed one whose record is not written yet. -/
def Queue.holding (Q : Queue) : Nat := Q.cmds.length + b2n Q.flush.isSome

/-- A change of the head command. -/
def updHead (q : Nat) (f : Cmd → Cmd) (s : State) : State :=
  updQueue q (fun Q => { Q with cmds := match Q.cmds with | [] => [] | c :: r => f c :: r }) s

/-- A change of the command with a number, on a queue. -/
def updCid (q cid : Nat) (f : Cmd → Cmd) (s : State) : State :=
  updQueue q (fun Q => { Q with cmds := Q.cmds.map fun c => if c.cid = cid then f c else c }) s

/-- Whether a command is still held on its queue. -/
def heldCmd (s : State) (q cid : Nat) : Bool := (s.queue q).cmds.any fun c => decide (c.cid = cid)

/-- The job context, when resident. -/
def State.job? (s : State) (j : Nat) : Option Job := Tbl.look? s.jobs j
def State.resident (s : State) (j : Nat) : Bool := (s.job? j).isSome
def updJob (j : Nat) (f : Job → Job) (s : State) : State := { s with jobs := Tbl.upd s.jobs j f }

/-- Whether a job is stopped by a JOB_STOP fault: the status its commands complete with (R465). -/
def State.stoppedBy (s : State) (j : Nat) : Option Nat := (s.job? j).bind (·.stopped)

/-! ## Completion (R341, R343) -/

/-- Core-rail voltage in mV: the last READ_VOUT, or 750 when none is valid (R380). -/
def State.coreMv (s : State) : Nat :=
  match s.dawn.man.rails.findIdx? fun r => decide (r.role = 1) && decide (r.addr ≠ 0) with
  | some i =>
    let r := Tbl.look s.power.rails i Rail.init
    if r.valid then r.vout else 750
  | none => 750

/-- Energy units (draw × mV × 2^-6 ns) in a µJ. -/
def energyUnit : Nat := 128000000

/-- The completion of a command with a status, DETAIL and RESULT (R343). -/
def Cmd.cpl (c : Cmd) (fnum status detail result : Nat) : Cpl :=
  { cid := c.cid, tag := c.tag, opcode := c.opcode, alive := c.alive, intr := bitOf c.flags 0, status := status,
    nstat := c.nstat, forced := c.forced, susp := c.susp, detail := detail, fstart := c.fstart.getD fnum, fend := fnum,
    chunks := c.chunks, charged := c.charged, energy := c.energy, result := result, job := c.job }

/-- The head command ends: it leaves the command store and its completion waits for the flushing read (R344).  While the
completion of the command before it waits, its status is kept and it ends behind that one. -/
def endHead (q status detail result : Nat) (s : State) : State :=
  updQueue q (fun Q =>
    match Q.cmds with
    | [] => Q
    | c :: r =>
      if Q.flush.isSome then { Q with cmds := { c with early := c.early.or (some (status, result)) } :: r }
      else { Q with cmds := r, flush := some (c.cpl s.clk.fnum status detail result) }) s

/-- The command with a number ends, when it is the head of its queue. -/
def endCid (q cid status detail result : Nat) (s : State) : State :=
  match headOf s q with
  | some c => if c.cid = cid then endHead q status detail result s else s
  | none => s

/-- The draws a head asks for exceed the limit less the standing draws (R378). -/
def drawTooLarge (s : State) (c : Cmd) : Bool :=
  isWork c.opcode && decide (chunkDraws s c.drawF > ledgerLimit s - s.ledger.standing)

/-- The front command becomes HEAD once the queue's previous command has written its record (R327, R341); a status fixed before
it runs, a stopped job or a draw that can never be granted ends it there, on a HELD queue once the queue is HELD no more. -/
def promote (q : Nat) (s : State) : State :=
  let Q := s.queue q
  if Q.flush.isSome then s
  else
    match Q.cmds with
    | [] => s
    | c :: _ =>
      let big := decide (c.life = .queued) && c.fstart.isNone && drawTooLarge s c
      match (if c.early.isNone && big then some (St.DRAW_TOO_LARGE, 0) else c.early) with
      | some (st, res) => if Q.held then updHead q (fun c => { c with life := .head, early := some (st, res) }) s else endHead q st 0 res s
      | none => if c.life = .queued then updHead q (fun c => { c with life := .head }) s else s

/-- Every queue's front looked at. -/
def promoteAll (s : State) : State := s.enabled.foldl (fun s q => promote q s) s

/-! ## Waits of SUSPEND, CANCEL and JOB_END (R338, R342) -/

/-- A command number has become what a SUSPEND waits for: it leaves the list of every SUSPEND, and one that waits for
nothing more completes OK, or NOTFOUND when a CANCEL or the end of its target has taken it away. -/
def satisfy (op cid : Nat) (robbed : Bool) (s : State) : State :=
  s.enabled.foldl
    (fun s q =>
      match headOf s q with
      | some c =>
        if c.opcode = op && decide (c.life = .running) && c.waits.contains cid then
          let s1 := updHead q (fun c => { c with waits := c.waits.filter (· ≠ cid), robbed := c.robbed || robbed }) s
          match headOf s1 q with
          | some c1 =>
            if c1.waits = [] && op ≠ Op.JOB_END then
              endHead q (if c1.robbed then St.NOTFOUND else St.OK) 0 0 s1
            else s1
          | none => s1
        else s
      | none => s) s

/-- A command has written its record: CANCEL and JOB_END that waited for it go on; a SUSPEND that waited for its chunk
boundary has lost its target (R342). -/
def recordWritten (cid : Nat) (s : State) : State :=
  satisfy Op.JOB_END cid false (satisfy Op.CANCEL cid false (satisfy Op.SUSPEND cid true s))

/-! ## Chunk boundaries (R30, R341, R342) -/

/-- The energy of the draws a chunk holds since it holds them (R380): draw × voltage × time. -/
def Chunk.spell (c : Chunk) (s : State) : Nat := c.held * s.coreMv * (s.now - c.start)

/-- The energy a chunk has used, less the gating credit. -/
def Chunk.total (c : Chunk) (s : State) : Nat := c.used + c.spell s - c.energy

/-- A chunk that holds `n` draws from now on. -/
def Chunk.hold (c : Chunk) (n : Nat) (s : State) : Chunk := { c with used := c.used + c.spell s, held := n, start := s.now }

def State.unit (s : State) (u : Nat) : ExecUnit := Tbl.look s.units u ExecUnit.init
def setUnit (u : Nat) (x : ExecUnit) (s : State) : State := { s with units := Tbl.put s.units u x }

/-- Whether every unit of a command has no chunk of it in progress, forced or asked for. -/
def noChunk (s : State) (q cid : Nat) : Bool :=
  s.units.all fun p =>
    let hit := fun (c : Option Chunk) => match c with | some c => decide (c.queue = q) && decide (c.cid = cid) | none => false
    !hit p.2.run && !(p.2.forced.any fun c => hit (some c)) && !hit p.2.asking

/-- The command of a chunk reaches a chunk boundary: OVERRUN, CANCELLED and JOB_FAULTED end it there, SUSPEND holds it,
otherwise it is HEAD again (R30, R32, R342, R465). -/
def boundary (q cid : Nat) (s : State) : State :=
  match headOf s q with
  | none => s
  | some c =>
    if c.cid ≠ cid then s
    else
      if c.cancReq then endHead q St.CANCELLED 0 0 (satisfy Op.SUSPEND cid true s)
      else
        match c.faultReq with
        | some st => endHead q st 0 0 s
        | none =>
        if c.overReq then endHead q St.OVERRUN 0 0 s
        else if c.suspReq then
          satisfy Op.SUSPEND cid false (updHead q (fun c => { c with life := .suspended, suspReq := false, susp := true }) s)
        else updHead q (fun c => { c with life := .head }) s

/-- A unit's chunk ends: its draws return (R28), its energy is added to the command. -/
def releaseChunk (u : Nat) (s : State) : State :=
  let x := s.unit u
  match x.run with
  | none => s
  | some ch =>
    let s1 := updCid ch.queue ch.cid (fun c => { c with energy := c.energy + ch.total s }) s
    ledgerReturn (.chunk u) (setUnit u { x with run := none } s1)

/-- The command of a queue stopped by its unit: its chunk ends and it completes with a status (R72, R94, R225). -/
def stopCommand (q cid status detail result : Nat) (s : State) : State :=
  let s1 := s.units.foldl
    (fun s p =>
      match p.2.run with
      | some ch => if ch.queue = q ∧ ch.cid = cid then releaseChunk p.1 s else s
      | none => s) s
  let mine := fun (c : Chunk) => decide (c.queue = q) && decide (c.cid = cid)
  let s2 := s1.units.foldl
    (fun s p =>
      match p.2.asking with
      | some ch => if mine ch then ledgerReturn (.chunk p.1) (ledgerDrop (.chunk p.1) (setUnit p.1 { s.unit p.1 with asking := none } s)) else s
      | none => s) { s1 with units := Tbl.mapv s1.units fun _ x => { x with forced := x.forced.filter fun c => !mine c } }
  endCid q cid status detail result s2

/-- NSTAT of the command a unit runs takes the OR with a numeric status word (R72). -/
def orNstat (q cid bits : Nat) (s : State) : State := updCid q cid (fun c => { c with nstat := c.nstat ||| bits }) s

/-! ## The ring (R330) -/

/-- HEAD moves past the consumed records at the front. -/
def advanceHead (Q : Queue) : Queue :=
  let recs := Q.recs.dropWhile (·.consumed)
  { Q with recs := recs, head := match recs with | r :: _ => r.slot | [] => Q.vpos }

/-- A record is consumed (R330). -/
def consume (q cid : Nat) (s : State) : State :=
  updQueue q (fun Q => advanceHead { Q with recs := Q.recs.map fun r => if r.cid = cid then { r with consumed := true } else r }) s

/-- The payload without the authenticator slot (R403). -/
def Cmd.body (c : Cmd) : Bytes :=
  if bitOf c.flags 1 then c.payload.take (c.payload.length - 256) else c.payload

/-! ## Control commands -/

/-- A command of the control engine runs: it is the HEAD of its queue with this OPCODE, in normal service or in the limited
form (R440), and in Night only a power command runs (R341, R348).  It becomes RUNNING, and FSTART is the frame in which its effect starts. -/
def runnable (q op : Nat) (s : State) : Option Cmd :=
  match headOf s q with
  | some c =>
    if (s.served || s.limited) && (s.queue q).flush.isNone && !(s.queue q).held && decide (c.life = .head) && decide (c.opcode = op) &&
        (decide (s.power.night = .none) || decide (op / 16 = 7)) then some c
    else none
  | none => none

/-- The effect of a control command at its start; with no such command at the head of the queue nothing happens. -/
def runHead (q op : Nat) (f : Cmd → State → State) (s : State) : Out :=
  .next (match runnable q op s with
    | some c => f c (updHead q (fun c => { c with life := .running, fstart := some s.clk.fnum }) s)
    | none => s)

/-- A control command whose effect completes at once. -/
def runNow (q op : Nat) (f : Cmd → State → Nat × Nat × State) (s : State) : Out :=
  runHead q op (fun c s => match f c s with | (st, res, s1) => endHead q st 0 res s1) s

/-- Whether a record is one of the job it names: on a SYSTEM queue the commands about the device as a whole are of no job (R333, R396). -/
def ofJob (s : State) (q : Nat) (c : Cmd) : Bool := !deviceOp c.opcode || !(s.queue q).system

/-- Whether a command of a job cannot run: the job is not resident (R333), is stopped (R401, R465), or is being ended
(R338); the status it completes with. -/
def jobRefusal (s : State) (c : Cmd) : Option Nat :=
  match s.job? c.job with
  | none => some St.BADJOB
  | some j =>
    if j.stopped.isSome && c.opcode ≠ Op.JOB_END then j.stopped
    else if j.ending.isSome && c.opcode ≠ Op.JOB_END then some St.CANCELLED
    else none

/-- The effect of a control command of a resident job at its start. -/
def runJob (q op : Nat) (f : Cmd → State → State) (s : State) : Out :=
  runHead q op (fun c s => match jobRefusal s c with | some st => endHead q st 0 0 s | none => f c s) s

/-- The effect of a security command at its start: one of a job that is stopped or being ended completes like that job's others. -/
def runSecure (q op : Nat) (f : Cmd → State → State) (s : State) : Out :=
  runHead q op (fun c s =>
    match (if ofJob s q c && !s.limited then jobRefusal s c else none) with
    | some st => endHead q st 0 0 s
    | none => f c s) s

/-- A security command that completes at once. -/
def runSecureNow (q op : Nat) (f : Cmd → State → Nat × Nat × State) (s : State) : Out :=
  runSecure q op (fun c s => match f c s with | (st, res, s1) => endHead q st 0 res s1) s

/-- A control command of a resident job that completes at once. -/
def runJobNow (q op : Nat) (f : Cmd → State → Nat × Nat × State) (s : State) : Out :=
  runJob q op (fun c s => match f c s with | (st, res, s1) => endHead q st 0 res s1) s

end Sys2Proof.Machine
end

