-- ==== Sys2Proof/Machine/Check.lean ====
section
/-! DEFINITION. The check units (R351 to R361): host units 128 to 143 by their registers, queue units by the records they check. -/

namespace Sys2Proof.Machine

def State.chkUnit (s : State) (u : Nat) : ChkUnit := Tbl.look s.chk u ChkUnit.init

/-- The parameters a CHK_CFG value, a polynomial and an initial value stand for (R351). -/
def chkSpec (cfg poly init : Nat) : CrcSpec :=
  let w := cfg % 128
  { width := w, poly := poly, init := init, refIn := bitOf cfg 7, refOut := bitOf cfg 8,
    xorOut := if bitOf cfg 9 then 2 ^ w - 1 else 0 }

/-- The latched parameters of a unit. -/
def ChkUnit.spec (c : ChkUnit) : CrcSpec := chkSpec c.lcfg c.lpoly c.linit

/-- CHK_RESULT (R357): of the bytes so far while a message is open, of the last closed one otherwise. -/
def ChkUnit.readResult (c : ChkUnit) : Nat := if c.isOpen then crcEnd c.spec c.reg else c.result

/-- START (R355). -/
def ChkUnit.start (c : ChkUnit) : ChkUnit :=
  { c with lcfg := c.cfg, lpoly := c.poly, linit := c.inival, llen := c.len,
           reg := c.inival % 2 ^ (c.cfg % 128), count := 0, isOpen := true }

/-- A stream error with its cause. -/
def ChkUnit.err (c : ChkUnit) (cause : Nat) : ChkUnit := { c with stat := c.stat ||| 4, cause := cause }

/-- CLOSE (R356, R357). -/
def ChkUnit.close (c : ChkUnit) : ChkUnit :=
  if c.isOpen then
    let r := crcEnd c.spec c.reg
    let hit := r == c.expect % 2 ^ (c.lcfg % 128)
    { c with result := r, isOpen := false, stat := c.stat ||| (if hit then 1 else 2) }
  else c.err 1

/-- Bytes of one write fed in order (R353, R356, R357). -/
def ChkUnit.feed (c : ChkUnit) (bs : Bytes) : ChkUnit :=
  if !c.isOpen then c.err 1
  else
    let r := bs.foldl (fun (a : ChkUnit × Bool) b =>
      if a.1.isOpen then
        let c1 := { a.1 with reg := crcByte a.1.spec a.1.reg b, count := (a.1.count + 1) % 2 ^ 64 }
        (if bitOf c1.lcfg 11 && c1.llen != 0 && c1.count == c1.llen then c1.close else c1, false)
      else (a.1, true)) (c, false)
    if r.2 then r.1.err 2 else r.1

/-- The bytes of an `n`-byte data write in the order of ORDER. -/
def ChkUnit.order (c : ChkUnit) (n v : Nat) : Bytes := if bitOf c.lcfg 10 then (toLe n v).reverse else toLe n v

/-- An alive value checked (R358). -/
def ChkUnit.aliveWrite (c : ChkUnit) (v : Nat) : ChkUnit :=
  if v = c.alive then { c with alive := (c.alive + 1) % 256 }
  else if v = (c.alive + 255) % 256 then { c with stat := c.stat ||| 8 }
  else { c with stat := c.stat ||| 16 }

/-- Whether a unit has an enabled event. -/
def ChkUnit.pending (c : ChkUnit) : Bool := decide (c.stat &&& c.inten ≠ 0)

/-- The OR of CHK_INT_SUM. -/
def chkActive (s : State) : Bool := s.chk.any fun p => p.2.pending

/-- A unit changed; the CHK vector 154 is sent when CHK_INT_SUM leaves 0 (R361, R469). -/
def updChk (u : Nat) (f : ChkUnit → ChkUnit) (s : State) : State :=
  let s1 := { s with chk := Tbl.put s.chk u (f (s.chkUnit u)) }
  if !chkActive s && chkActive s1 then sendVector 154 s1 else s1

/-- A 64-bit value after a write of the whole or of one half. -/
def halfWrite (cur : Nat) (wide high : Bool) (v : Nat) : Nat :=
  if wide then v % 2 ^ 64
  else if high then cur % 2 ^ 32 + (v % 2 ^ 32) * 2 ^ 32
  else cur / 2 ^ 32 * 2 ^ 32 + v % 2 ^ 32

/-- The effect of a write when its unit takes it (R353, R355 to R358, R361). -/
def ChkUnit.apply (c : ChkUnit) (r : ChkReq) : ChkUnit :=
  let v := r.v
  if r.reg = 0x00 then { c with cfg := setBits (v % 2 ^ 12) 6 0 (clampNat 3 64 (v % 128)) }
  else if r.reg = 0x04 then
    let c1 := if bitOf v 2 then { c with alive := 0 } else c
    let c2 := if bitOf v 1 then c1.close else c1
    if bitOf v 0 then c2.start else c2
  else if r.reg = 0x08 then { c with poly := halfWrite c.poly r.wide r.high v }
  else if r.reg = 0x10 then { c with inival := halfWrite c.inival r.wide r.high v }
  else if r.reg = 0x18 then { c with expect := halfWrite c.expect r.wide r.high v }
  else if r.reg = 0x28 then c.feed (c.order 1 (v % 256))
  else if r.reg = 0x2C then c.feed (c.order 2 (v % 65536))
  else if r.reg = 0x30 then c.feed (c.order 4 (v % 2 ^ 32))
  else if r.reg = 0x38 then (if r.wide then c.feed (c.order 8 v) else c.err 3)
  else if r.reg = 0x40 then { c with stat := (c.stat ||| (v % 32)) ^^^ (v % 32) }
  else if r.reg = 0x44 then { c with inten := v % 32 }
  else if r.reg = 0x50 then { c with len := halfWrite c.len r.wide r.high v }
  else if r.reg = 0x58 then c.aliveWrite (v % 256)
  else c

/-- The cc a write costs its unit (R353): 2 for one that closes, else 1. -/
def ChkReq.cost (r : ChkReq) : Nat := if r.reg = 0x04 ∧ bitOf r.v 1 then 2 else 1

/-- A unit takes its oldest write (R352); after one of CHK_STAT the vector is sent again while an event stays (R361, R469). -/
def takeChk (u : Nat) (s : State) : State :=
  match (s.chkUnit u).stream with
  | [] => s
  | r :: rest =>
    let s1 := updChk u (fun c => { c with stream := rest, spent := 0 }.apply r) s
    if r.reg = 0x40 ∧ chkActive s1 then sendVector 154 s1 else s1

/-- Every write before this instant taken (R352). -/
def drainChk (u : Nat) (s : State) : State := iter (s.chkUnit u).stream.length (takeChk u) s

/-- One cc of a unit (R353, R354). -/
def chkStep (u : Nat) (s : State) : State :=
  match (s.chkUnit u).stream with
  | [] => s
  | r :: _ => if (s.chkUnit u).spent + 1 < r.cost then updChk u (fun c => { c with spent := c.spent + 1 }) s else takeChk u s

/-- One cc of every host unit. -/
def chkCycle (s : State) : State := s.chk.foldl (fun s p => chkStep p.1 s) s

/-- A host write of a unit's register joins the unit's stream (R352); one that finds 32 waiting joins when the oldest is taken, the link
waiting until then (R354).  Units 0 to 127 discard a write of a writable register (R357). -/
def chkWrite (u : Nat) (r : ChkReq) (s : State) : State :=
  if u < 128 then (if r.reg = 0x20 ∨ r.reg = 0x48 then s else count Reg.CHK_DROP 32 1 s)
  else updChk u (fun c => { c with stream := c.stream ++ [r] }) (if (s.chkUnit u).stream.length ≥ 32 then takeChk u s else s)

/-- A queue unit after it has checked a record (R359): it shows the record's CRC, the CRC field and the outcome. -/
def chkQueue (q : Nat) (record : Bytes) (s : State) : State :=
  let r := crc32c (record.take 252)
  let e := leAt record 252 4
  { s with chk := Tbl.updD s.chk q ChkUnit.init fun c =>
      { c with result := r, expect := e, isOpen := false, stat := if r = e then 1 else 2 } }

/-- CHK_START (R355). -/
def execChkStart (u : Fin 144) (s : State) : Out := when s.served (chkWrite u ⟨0x04, false, false, 1⟩) s

/-- CHK_CLOSE (R356). -/
def execChkClose (u : Fin 144) (s : State) : Out := when s.served (chkWrite u ⟨0x04, false, false, 2⟩) s

/-- CHK_ARST (R358). -/
def execChkArst (u : Fin 144) (s : State) : Out := when s.served (chkWrite u ⟨0x04, false, false, 4⟩) s

/-- CHK_DIN8 (R353). -/
def execChkDin8 (u : Fin 144) (v : Word32) (s : State) : Out :=
  when s.served (chkWrite u ⟨0x28, false, false, v.toNat⟩) s

/-- CHK_DIN16 (R353). -/
def execChkDin16 (u : Fin 144) (v : Word32) (s : State) : Out :=
  when s.served (chkWrite u ⟨0x2C, false, false, v.toNat⟩) s

/-- CHK_DIN32 (R353). -/
def execChkDin32 (u : Fin 144) (v : Word32) (s : State) : Out :=
  when s.served (chkWrite u ⟨0x30, false, false, v.toNat⟩) s

/-- CHK_DIN64 (R353). -/
def execChkDin64 (u : Fin 144) (v : Word64) (s : State) : Out :=
  when s.served (chkWrite u ⟨0x38, true, false, v.toNat⟩) s

/-- CHK_ALIVE (R358). -/
def execChkAlive (u : Fin 144) (v : Word32) (s : State) : Out :=
  when s.served (chkWrite u ⟨0x58, false, false, v.toNat⟩) s

end Sys2Proof.Machine
end

