-- ==== Sys2Proof/Machine/Fatal.lean ====
section
/-! DEFINITION. The FATAL state (R466) and the stop of a job (R465). -/

namespace Sys2Proof.Machine

/-- Every job key held for R143, R183, R299 and R402 zeroed. -/
def zeroJobKeys (s : State) : State :=
  { s with
    jobs := Tbl.mapv s.jobs fun _ j => { j with xtsKey := [], ilKey0 := 0, ilKey1 := 0 }
    zor := { s.zor with sprayKeys := [] }
    adnt := { s.adnt with
      keys := []
      sessions := Tbl.mapv s.adnt.sessions fun _ x => { x with linkKey := [], kconf := [] } } }

/-- Every unit stopped at its next instruction boundary without saving state (R466). -/
def stopUnits (s : State) : State :=
  { s with
    units := Tbl.mapv s.units fun _ _ => ExecUnit.init
    tiles := Tbl.mapv s.tiles fun _ t => { t with seqs := Tbl.mapv t.seqs fun _ q => { q with state := 0, inChain := false } }
    lkp := { s.lkp with walkers := Tbl.mapv s.lkp.walkers fun _ w => { w with active := false } } }

/-- The device enters FATAL (R466). -/
def enterFatal (r : Report) (s : State) : State :=
  let f := { r.record s with cls := 5 }
  let s1 := countFault f.code 5 s
  let s2 := writeRecord f (raiseInt blkFlt 0 s1)
  let s3 := { s2 with flt := { s2.flt with fatalRec := s2.flt.last, fatal := true } }
  let s4 := zeroJobKeys (stopUnits s3)
  sendVector 159 (raiseIbi 3 { s4 with dlx := { s4.dlx with jobs := [], restore := none } })

/-- A command that has not started to run is given its final status and leaves in queue order (R345). -/
def endEarly (q cid status : Nat) (s : State) : State :=
  updCid q cid (fun c => if c.early.isSome then c else { c with early := some (status, 0), life := .queued }) s

/-- The commands of a job, by queue. -/
def jobCommands (s : State) (j : Nat) : List (Nat × Cmd) :=
  s.enabled.flatMap fun q => (s.queue q).cmds.filterMap fun c => if c.job = j && ofJob s q c then some (q, c) else none

/-- What control commands of a job that run wait for is given up: accepted UNMAPs, a restore, requests to the exporter, publishes (R465). -/
def dropWaits (j : Nat) (s : State) : State :=
  let s1 := match s.dlx.restore with
    | some r => if r.job = j then ledgerReturn .restorer (ledgerDrop .restorer { s with dlx := { s.dlx with restore := none } }) else s
    | none => s
  { s1 with
    urng := { s1.urng with unmaps := s1.urng.unmaps.filter fun u => decide (u.job ≠ j) }
    dlx := { s1.dlx with jobs := Tbl.upd s1.dlx.jobs j fun d => { d with setReq := [], baseReq := [] } }
    emb := { s1.emb with tables := Tbl.mapv s1.emb.tables fun k t => if k / 4096 = j then { t with pub := [] } else t } }

/-- A JOB_STOP fault stops the job: every command of it completes with the status, those running a chunk at its chunk
boundary, the others at once; later records complete with it too, except JOB_END (R401, R405, R465). -/
def stopJob (j status : Nat) (s : State) : State :=
  let s1 := updJob j (fun x => { x with stopped := some status }) s
  let s2 := (jobCommands s1 j).foldl
    (fun s p =>
      let (q, c) := p
      if c.opcode = Op.JOB_END then s
      else if c.life = .running && isWork c.opcode && !noChunk s q c.cid then
        updCid q c.cid (fun c => { c with faultReq := some status }) s
      else if c.life = .running && !isWork c.opcode then endCid q c.cid status 0 0 s
      else endEarly q c.cid status s) (dropWaits j s1)
  promoteAll s2

end Sys2Proof.Machine
end

