-- ==== Sys2Proof/Machine/Host.lean ====
section
/-! DEFINITION. The host port: link, intake window, doorbells, validation, queue configuration, completion rings and their
vectors, SUSPEND, RESUME and CANCEL (R321 to R348). -/

namespace Sys2Proof.Machine

/-! ## Link and bad accesses -/

/-- PCIE_LINK_TRAINED (R321, R322): a width and a rate the port supports are recorded. -/
def execPcieLinkTrained (width rate : BitVec 4) (flit cache : Bool) (s : State) : Out :=
  let w := width.toNat
  let r := rate.toNat
  when (s.dawn.powered && (w == 1 || w == 2 || w == 4 || w == 8) && decide (1 ≤ r ∧ r ≤ 7)) (fun s =>
    let s1 := { s with link := { width := w, rate := r, flit := flit, noflit := !flit, cache := cache && flit } }
    if flit then s1 else raiseInt blkHost 4 s1) s

/-- PCIE_CONFIG_REQUEST (R423): answered from 100 ms after power-good, before that with Request Retry Status.  The data of
configuration space is a free value. -/
def execPcieConfigRequest (s : State) : Out :=
  when s.answers (fun s =>
    if s.now - s.dawn.t0 < 100 * 64000000 then { s with resp := .retry }
    else match freeVal s with | (v, s1) => { s1 with resp := .data v }) s

/-- An access that is not a naturally aligned one of 32 or 64 bits (R6): Unsupported Request; logged only in normal service. -/
def badAccess (off size : Nat) (write : Bool) (s : State) : State :=
  let s1 := { s with resp := .unsupported }
  if s.served then
    let v := off % 2 ^ 22 + b2n write * 2 ^ 22 + satTo 4 size * 2 ^ 23 + 2 ^ 27
    fault { code := 0x0090, arg0 := off, arg1 := size + b2n write * 2 ^ 63 }
      (raiseInt blkFlt 5 (setReg Reg.FLT_BADACC v s1))
  else s1

/-- BAR0_BAD_ACCESS (R6). -/
def execBar0BadAccess (off size : Nat) (write : Bool) (s : State) : Out :=
  when (s.answers && !((size == 4 || size == 8) && off % size == 0)) (badAccess off size write) s

/-- BAR2_READ (R324): whenever the device answers the host, before Dawn's outcome too. -/
def execBar2Read (_off _n : Nat) (s : State) : Out :=
  when s.answers (fun s => raiseInt blkHost 3 (count Reg.HOST_BADACC 32 1 { s with resp := .data 0 })) s

/-! ## The intake window (R328, R329) -/

def slots : Nat := 16384

/-- A ring position's distance behind another, modulo the ring. -/
def ringDist (a b : Nat) : Nat := (a + slots - b) % slots

/-- The enabled queue bound to a sub-window. -/
def queueOfSubwin (s : State) (w : Nat) : Option Queue :=
  (s.queues.find? fun p => p.2.en && decide (p.2.subwin = w)).map (·.2)

/-- Whether a byte of the intake window lands in the ring. -/
def intakeTakes (s : State) (a : Nat) : Bool :=
  match queueOfSubwin s (a / 2 ^ 22) with
  | none => false
  | some q => decide (ringDist (a % 2 ^ 22 / 256) q.head ≥ ringDist q.tail q.head)

/-- INTAKE_WRITE (R322, R329, R423, R440): bytes for committed slots or an unbound sub-window are discarded and the write counted once; without
flit mode and before the outcome every write is. -/
def execIntakeWrite (off : BitVec 28) (data : Bytes) (enables : List Bool) (s : State) : Out :=
  when s.answers (fun s =>
    let open_ := !s.link.noflit && decide (s.dawn.outcome ≠ 0)
    let r := (List.range data.length).foldl (fun (a : Mem × Bool) i =>
      if enables.getD i false then
        let x := off.toNat + i
        if open_ && decide (x < 2 ^ 28) && intakeTakes s x then (Mem.set a.1 0 x (byteAt data i), a.2) else (a.1, true)
      else a) (s.intake, false)
    let s1 := { s with intake := r.1 }
    if !open_ || r.2 then raiseInt blkHost 5 (count Reg.HOST_WRDROP 32 1 s1) else s1) s

/-- A slot of a queue's ring. -/
def slotBytes (s : State) (Q : Queue) (i : Nat) : Bytes := Mem.gets s.intake 0 (Q.subwin * 2 ^ 22 + 256 * (i % slots)) 256

/-! ## Validation (R26, R331 to R335, R403, R404) -/

/-- What the check of a record finds: passed, duplicate, or failed with its cause. -/
inductive Check where
  | pass
  | dup
  | fail (cause : Nat)
  deriving DecidableEq, Repr

/-- The check of the record at the validation point (R334). -/
def checkRecord (s : State) (q : Nat) : Check :=
  let Q := s.queue q
  let r := slotBytes s Q Q.vpos
  let n := leAt r 4 2
  let room := ringDist Q.tail Q.vpos
  let lenOk := decide (1 ≤ n ∧ n ≤ 4096 ∧ n ≤ room)
  let alive := leAt r 3 1
  if crc32c (r.take 252) ≠ leAt r 252 4 then .fail 1
  else if leAt r 2 1 ≠ q then .fail 2
  else if alive = (Q.alive + 255) % 256 then (if lenOk then .dup else .fail 4)
  else if alive ≠ Q.alive then .fail 3
  else if !lenOk then .fail 4
  else if n > 1 && crc32c ((List.range (n - 1)).flatMap fun i => slotBytes s Q (Q.vpos + 1 + i)) != leAt r 12 4 then .fail 5
  else .pass

/-- The target a command runs on and whether it needs a SYSTEM queue (R332); none for an opcode that names no command. -/
def opTarget (op : Nat) : Option (Nat × Bool) :=
  if [0x0001, 0x0003, 0x0012, 0x0013, 0x0040, 0x0070, 0x0071].contains op then some (0, true)
  else if [0x0002, 0x0004, 0x0005, 0x0006, 0x0010, 0x0011, 0x0014, 0x0015, 0x0016, 0x0017, 0x0018, 0x0019, 0x001A, 0x001B,
      0x001C, 0x0020, 0x0021, 0x0022, 0x0023, 0x0030, 0x0080, 0x0081, 0x0082, 0x0083, 0x0084, 0x0085].contains op then
    some (0, false)
  else if op = Op.TILE_RUN then some (1, false)
  else if op = Op.WALK then some (2, false)
  else none

/-- SUSPEND, RESUME and CANCEL. -/
def isTrio (op : Nat) : Bool := decide (4 ≤ op ∧ op ≤ 6)

/-- The checks that give BADCMD (R26, R332, R342). -/
def badCmd (Q : Queue) (q : Nat) (c : Cmd) : Bool :=
  match opTarget c.opcode with
  | none => true
  | some (t, sys) =>
    decide (t ≠ Q.target) || (sys && !Q.system) || (isWork c.opcode && (decide (c.chunkB = 0) || decide (c.budget = 0))) ||
      (isTrio c.opcode && (decide (c.opnd 0 1 > 1) || (decide (c.opnd 0 1 = 0) && decide (c.opnd 1 1 = q)))) ||
      (decide (c.opcode = Op.CTX_SWITCH) && decide (c.opnd 0 1 > 1)) ||
      (decide (c.opcode = Op.TILE_RUN) && decide (c.opnd 0 8 % 16 ≠ 0)) ||
      (decide (c.opcode = Op.WALK) && (decide (c.opnd 8 8 % 256 ≠ 0) || decide (c.opnd 0 4 = 0)))

/-- The checks that give BADJOB (R333), made at validation (R26): a command of a job needs it resident then. -/
def badJob (s : State) (Q : Queue) (c : Cmd) : Bool :=
  (!Q.system && decide (c.job ≠ Q.job)) ||
    ((!deviceOp c.opcode || !Q.system) && !s.resident c.job) ||
    (isTrio c.opcode && !Q.system && decide (c.opnd 0 1 = 0) && decide (c.opnd 1 1 < 128) &&
      (s.queue (c.opnd 1 1)).en && decide ((s.queue (c.opnd 1 1)).job ≠ c.job))

def State.session (s : State) (j : Nat) : Session := Tbl.look s.adnt.sessions j Session.init
def setSession (j : Nat) (x : Session) (s : State) : State :=
  { s with adnt := { s.adnt with sessions := Tbl.put s.adnt.sessions j x } }

/-- A key of the key store as bytes; empty for a slot that holds none. -/
def keyBytes (k : Option (BitVec 256)) : Bytes := match k with | some v => toLe 32 v.toNat | none => []
/-- K_job and K_sess of a context: slots 2 j and 2 j + 1. -/
def State.kjob (s : State) (j : Nat) : Bytes := keyBytes (Tbl.look? s.adnt.keys (2 * j))
def State.ksess (s : State) (j : Nat) : Bytes := keyBytes (Tbl.look? s.adnt.keys (2 * j + 1))

/-- The authenticator slot of a record (R403): counter and tag right, every other byte 0. -/
def authTagOk (ksess : Bytes) (x : Session) (c : Cmd) : Bool :=
  let a := slice c.payload (c.payload.length - 256) 256
  let sctr := leAt a 0 8
  decide (c.payload.length ≥ 256) && (a.drop 24).all (· == 0) && ksess != [] &&
    decide (leAt a 8 16 = (Config.gcmTag ksess (toLe 8 sctr ++ toLe 4 x.jobid) (c.record.take 252 ++ c.body) []).toNat)

/-- The window of R403. -/
def sctrFresh (x : Session) (n : Nat) : Bool :=
  match x.sctr with
  | none => true
  | some h => decide (n + 1024 > h) && !x.sctrs.contains n

/-- The counter taken. -/
def takeSctr (x : Session) (n : Nat) : Session :=
  let h := match x.sctr with | none => n | some h => max h n
  { x with sctr := some h, sctrs := (n :: x.sctrs).filter fun m => decide (m + 1024 > h) }

/-- The session authenticator checked (R403, R404): whether it fails, and the state with the counter taken or the failure counted.
A KEYLESS job's records are answered with KEYLESS and are not checked.  A record without an authenticator it needs counts no failure. -/
def authCheck (q : Nat) (c : Cmd) (s : State) : Bool × State :=
  let x := s.session c.job
  let sctr := leAt (slice c.payload (c.payload.length - 256) 256) 0 8
  let must := decide (c.opcode = Op.JOB_ADMIT) || decide (c.opcode = Op.HANDBACK) || decide (c.opcode = Op.ADOPT) ||
    (bitOf x.policy 3 && s.resident c.job && ofJob s q c)
  if x.state = .keyless then (false, s)
  else if bitOf c.flags 1 then
    if authTagOk (s.ksess c.job) x c && sctrFresh x sctr then (false, setSession c.job (takeSctr x sctr) s)
    else (true, raiseInt blkAdnt 2 (count Reg.ADNT_AUTHFAIL 32 1 s))
  else (must, s)

/-- The only commands of the limited form (R391, R439, R440). -/
def limitedTakes (s : State) (c : Cmd) : Bool :=
  (decide (c.opcode = Op.PRES_REQUEST) && (decide (c.opnd 0 1 = 3) || (decide (c.opnd 0 1 = 2) && !s.adnt.recovery))) ||
    (decide (c.opcode = Op.ATTEST) && s.adnt.idValid && !s.adnt.recovery)

/-- The PWR_STATE commands accepted before another whose effect has not begun, by queue. -/
def powerWaiting (s : State) (cid : Nat) : List (Nat × Nat) :=
  s.enabled.flatMap fun q => (s.queue q).cmds.filterMap fun c =>
    if c.opcode = Op.PWR_STATE && c.early.isNone && decide (c.life ≠ .running) && decide (c.cid ≠ cid) then some (q, c.cid) else none

/-- A PWR_STATE that a later one replaces completes (R367). -/
def superseded (q cid : Nat) (s : State) : State := endCid q cid St.PWR_SUPERSEDED 0 0 s

/-- The PWR_STATE commands that wait for a tick or for the top-up of R368 replaced. -/
def replacePend (s : State) : State :=
  let s1 := s.power.sameState.foldl (fun s p => superseded p.1 p.2 s) { s with power := { s.power with sameState := [] } }
  match s.power.pend with
  | some p => superseded p.queue p.cid (ledgerReturn .topUp (ledgerDrop .topUp { s1 with power := { s1.power with pend := none } }))
  | none => s1

/-- The command of a Dusk replaced (R372): Night or Off goes on with the Dusk, Noon or Evening ends it, and no chunk is let in before the next
tick.  Once Night is being entered the Dusk is over. -/
def replaceDusk (q cid : Nat) (target : PState) (s : State) : State :=
  match s.power.dusk with
  | none => s
  | some d =>
    if d.ended && decide (s.power.night ≠ .none) then s
    else
      let on := decide (target = .night) || decide (target = .off)
      let shut := !on && d.first.isSome
      superseded d.queue d.cid { s with
        power := { s.power with dusk := if on then some { d with target := target, queue := q, cid := cid } else none
                                endsDusk := if on then s.power.endsDusk else some cid }
        clk := { s.clk with stepsDone := s.clk.stepsDone && !shut } }

/-- The command of a wake replaced: the wake runs on to its end. -/
def replaceWake (q cid : Nat) (target : PState) (s : State) : State :=
  match s.power.wake with
  | some w => superseded w.queue w.cid { s with power := { s.power with wake := some { w with latest := target, queue := q, cid := cid } } }
  | none => s

/-- The state a target code names (R364). -/
def targetState (t : Nat) : PState := match t with | 0 => .noon | 1 => .evening | 2 => .night | _ => .off

/-- A PWR_STATE validated while another is RUNNING, that is accepted and not complete, replaces it (R367, R372). -/
def supersede (q : Nat) (c : Cmd) (s : State) : State :=
  if c.opcode ≠ Op.PWR_STATE then s
  else
    let target := targetState (c.opnd 0 1)
    let s1 := (powerWaiting s c.cid).foldl (fun s p => promote p.1 (endEarly p.1 p.2 St.PWR_SUPERSEDED s)) s
    replaceWake q c.cid target (replaceDusk q c.cid target (replacePend s1))

/-- The JOB_END of a job that waits: its queue and command (R338). -/
def State.endedBy (s : State) (j : Nat) : Option (Nat × Nat) := (s.job? j).bind (·.ending)

/-- A JOB_END waits for the record of a command of its job accepted meanwhile on another queue (R338). -/
def noteEnding (q : Nat) (c : Cmd) (s : State) : State :=
  match s.endedBy c.job with
  | some (eq, ec) =>
    if eq = q ∨ ofJob s q c = false then s else updCid eq ec (fun x => { x with waits := x.waits ++ [c.cid] }) s
  | none => s

/-- The status a record has before its command runs, if any (R26, R338, R391, R403, R439). -/
def earlyStatus (s : State) (q : Nat) (authBad : Bool) (c : Cmd) : Option (Nat × Nat) :=
  let Q := s.queue q
  if s.limited then (if limitedTakes s c then none else some (St.LC_FORBIDDEN, 0))
  else if authBad && decide (c.opcode ≠ Op.JOB_ADMIT) then some (St.SESSION_AUTH, 0)
  else if badCmd Q q c then some (St.BADCMD, 0)
  else if badJob s Q c then some (St.BADJOB, 0)
  else if isWork c.opcode && decide (c.chunkB > s.W) then some (St.CHUNK_TOO_LONG, 0)
  else if c.opcode = Op.PWR_STATE then (pwrRefusal (c.opnd 0 1) s.power.hold).map fun st => (st, 0)
  else
    match s.stoppedBy c.job with
    | some st => if isWork c.opcode then some (st, 0) else none
    | none => if (s.endedBy c.job).isSome && ofJob s q c then some (St.CANCELLED, 0) else none

/-- A record accepted: it enters the command store, is consumed unless it is a DATA_IN that will run, and A advances. -/
def acceptRecord (q : Nat) (s : State) : State :=
  let Q := s.queue q
  let r := slotBytes s Q Q.vpos
  let n := leAt r 4 2
  let c0 : Cmd :=
    { cid := s.nextCid, record := r, payload := (List.range (n - 1)).flatMap fun i => slotBytes s Q (Q.vpos + 1 + i),
      slot := Q.vpos, life := .queued, early := none, authBad := false, suspReq := false, cancReq := false,
      overReq := false, faultReq := none, inLost := s.lost, waits := [], robbed := false, chunks := 0, charged := 0, energy := 0, nstat := 0,
      forced := false, susp := false, fstart := none, ranIn := none, nowForced := false, prevForced := false, passed := 0, noFit := false, ledgNoFit := false,
      done := 0 }
  let (bad, s1) := if s.limited then (false, s) else authCheck q c0 s
  let early := earlyStatus s q bad c0
  let held := isWork c0.opcode && early.isNone && (match s.job? c0.job with | some j => j.held | none => false)
  let c := { c0 with early := early, authBad := bad, life := if held then .suspended else .queued, susp := held }
  let wait := decide (c.opcode = Op.DATA_IN) && early.isNone
  let s2 := { updQueue q (fun Q => advanceHead { Q with
      cmds := Q.cmds ++ [c], alive := (Q.alive + 1) % 256, vpos := (Q.vpos + n) % slots, rereads := none,
      recs := Q.recs ++ [{ slot := Q.vpos, len := n, consumed := !wait, cid := c.cid }] }) s1 with nextCid := s.nextCid + 1 }
  promote q (noteEnding q c (if early.isNone then supersede q c s2 else s2))

/-- A duplicate dropped (R334): its slots are consumed and it is counted. -/
def dropRecord (q : Nat) (s : State) : State :=
  let Q := s.queue q
  let n := leAt (slotBytes s Q Q.vpos) 4 2
  updQueue q (fun Q => advanceHead { Q with
    vpos := (Q.vpos + n) % slots, dup := satTo 16 (Q.dup + 1), rereads := none,
    recs := Q.recs ++ [{ slot := Q.vpos, len := n, consumed := true, cid := s.nextCid }] })
    { s with nextCid := s.nextCid + 1 }

/-- Whether the record at the validation point waits in Night (R348). -/
def nightWaits (s : State) (q : Nat) : Bool :=
  let Q := s.queue q
  decide (s.power.night ≠ .none) && !(Q.system && decide (Q.target = 0) && decide (leAt (slotBytes s Q Q.vpos) 0 2 / 16 = 7))

/-- What one check of a queue's head record leads to (R335): the next record is taken up only past a good record or a duplicate. -/
def afterCheck (q : Nat) (v : Check) (again : State → State) (s : State) : State :=
  match v with
  | .pass => again (acceptRecord q s)
  | .dup => again (dropRecord q s)
  | .fail cause => updQueue q (fun Q => { Q with cause := cause, rereads := some (Q.rereads.getD 0) }) s

/-- Validation in slot order (R335) until the ring is empty, 256 commands are held or a record fails its check; `fuel` is at
least the number of slots. -/
def validateQ (fuel q : Nat) (s : State) : State :=
  match fuel with
  | 0 => s
  | fuel + 1 =>
    let Q := s.queue q
    if !Q.en || Q.stalled || decide (Q.vpos = Q.tail) || decide (Q.holding ≥ 256) || nightWaits s q then s
    else afterCheck q (checkRecord s q) (validateQ fuel q) (chkQueue q (slotBytes s Q Q.vpos) s)

/-- Validation of a queue, unless a failing record is being re-read. -/
def validate (q : Nat) (s : State) : State :=
  if (s.queue q).rereads.isSome then s else validateQ slots q s

/-- Every queue looked at: after a wake (R348). -/
def validateAll (s : State) : State := s.enabled.foldl (fun s q => validate q s) s

/-- HOST_DB (R328, R336): a doorbell. -/
def execHostDb (q : Fin 128) (v : Word32) (s : State) : Out :=
  when ((s.served || (s.limited && decide (q.val = 0))) && (s.queue q).en) (fun s =>
    let Q := s.queue q
    let t := v.toNat % slots
    if t = Q.tail then s
    else if ringDist t Q.head > Q.credit ∨ ringDist t Q.head < ringDist Q.tail Q.head then
      sendVector q (raiseInt blkHost 1 (updQueue q (fun Q => { Q with
        credRej := true, cause := 6, credRejs := satTo 16 (Q.credRejs + 1) }) s))
    else validate q (updQueue q (fun Q => { Q with tail := t, stalled := false }) s)) s

/-- What the repeat of a head record's checks finds after their failure number `k + 1` (R335): the sixty-fourth failure stalls the queue at it. -/
def rereadVerdict (q k : Nat) (v : Check) (s : State) : State :=
  match v with
  | .fail cause =>
    if k + 1 ≥ 64 then
      sendVector q (raiseInt blkHost 0 (updQueue q (fun Q => { Q with
        stalled := true, tail := Q.vpos, cause := cause, torn := satTo 16 (Q.torn + 1) }) s))
    else updQueue q (fun Q => { Q with cause := cause, rereads := some (k + 1) }) s
  | _ => validate q s

/-- The head record is read again (R335). -/
def rereadHead (q k : Nat) (s : State) : State :=
  rereadVerdict q k (checkRecord s q) (chkQueue q (slotBytes s (s.queue q) (s.queue q).vpos)
    (updQueue q (fun Q => { Q with retry := satTo 16 (Q.retry + 1), rereads := none }) s))

/-- VALIDATION_REREAD (R335): one µs after a failed check the record is read again; after 64 µs the queue is STALLED. -/
def execValidationReread (q : Fin 128) (s : State) : Out :=
  when ((s.served || s.limited) && (s.queue q).en && !nightWaits s q) (fun s =>
    match (s.queue q).rereads with
    | none => s
    | some k => rereadHead q k s) s

/-! ## Queue configuration (R325, R326, R350) -/

/-- HOST_QCFG as it reads. -/
def Queue.cfgWord (Q : Queue) : Nat :=
  b2n Q.en + Q.target * 2 + Q.tile * 8 + Q.seq * 64 + Q.job * 256 + b2n Q.system * 2 ^ 14 + b2n Q.governed * 2 ^ 15 +
    Q.subwin * 2 ^ 16 + Q.credit * 2 ^ 32

/-- The selected queue: in the limited form always queue 0 (R440). -/
def State.qsel (s : State) : Nat := if s.limited then 0 else regField s Reg.HOST_QSEL 6 0

/-- The fields of a disabled queue after a write of HOST_QCFG, EN apart. -/
def Queue.configure (Q : Queue) (x : Nat) (limited : Bool) (govFull : Bool) : Queue :=
  let cr := bits x 46 32
  let Q1 := { Q with credit := if cr = 0 then 1 else min cr 16383 }
  if limited then { Q1 with target := 0, tile := bits x 5 3, seq := bits x 7 6, job := 0, system := true, governed := false, subwin := 0 }
  else
    let t := bits x 2 1
    { Q1 with target := t, tile := bits x 5 3, seq := bits x 7 6, job := bits x 13 8, system := bitOf x 14 && decide (t = 0),
              governed := bitOf x 15 && !govFull, subwin := bits x 21 16 }

/-- HOST_QCFG_WRITE (R325, R326). -/
def execHostQcfgWrite (wide high : Bool) (v : Word64) (s : State) : Out :=
  when (s.served || s.limited) (fun s =>
    let q := s.qsel
    let Q := s.queue q
    let x := halfWrite Q.cfgWord wide high v.toNat
    if Q.en then
      if bitOf x 0 then s
      else if Q.cmds = [] ∧ Q.flush.isNone ∧ Q.vpos = Q.tail then updQueue q (fun Q => { Q with en := false }) s
      else updQueue q (fun Q => { Q with busy := true }) s
    else
      let govs := (s.queues.filter fun p => decide (p.1 ≠ q) && p.2.governed).length
      let Q1 := Q.configure x s.limited (decide (govs ≥ 8))
      let taken := s.queues.any fun p => decide (p.1 ≠ q) && p.2.en && decide (p.2.subwin = Q1.subwin)
      if bitOf x 0 && decide (Q1.target ≠ 3) && decide (Q1.seq ≠ 3) && !taken then
        setQueue q { Q1 with en := true, alive := 0, crTail := 0, crHead := 0, stalled := false, held := false, rereads := none } s
      else setQueue q Q1 s) s

/-! ## Completion rings (R343, R344, R347) -/

/-- Whether a queue's completion ring is full. -/
def Queue.ringFull (Q : Queue) : Bool := decide (Q.crTail - Q.crHead ≥ 2 ^ Q.log2)

/-- The 64 bytes of a completion record (R343). -/
def Cpl.bytes (c : Cpl) (q : Nat) (phase : Bool) (head : Nat) : Bytes :=
  toLe 4 c.tag ++ toLe 2 c.opcode ++ toLe 1 q ++ toLe 1 c.alive ++ toLe 2 c.status ++ toLe 1 c.nstat ++
  toLe 1 (b2n phase + 2 * b2n c.forced + 4 * b2n c.susp) ++ toLe 2 head ++ toLe 2 c.detail ++ toLe 6 c.fstart ++
  toLe 6 c.fend ++ toLe 4 c.chunks ++ toLe 8 c.charged ++ toLe 8 (c.energy / energyUnit) ++ toLe 8 c.result ++ zeros 8

/-- The queue's vector is due (R347): enough records have accumulated. -/
def moderate (q : Nat) (s : State) : State :=
  let Q := s.queue q
  if Q.intrs ≥ Q.modCnt && decide (Q.intrs > 0) then sendVector q (updQueue q (fun Q => { Q with intrs := 0 }) s) else s

/-- A queue becomes HELD: its ring is full (R343, R347). -/
def holdQueue (q : Nat) (s : State) : State := sendVector q (raiseInt blkHost 2 (updQueue q (fun Q => { Q with held := true }) s))

/-- The waiting completion record of a queue written (R343, R344), unless the ring is full; the number of the command.  A record that fills
the ring makes the queue HELD. -/
def writeCompletion (q : Nat) (s : State) : Option Nat × State :=
  let Q := s.queue q
  match Q.flush with
  | none => (none, s)
  | some c =>
    if Q.ringFull then
      (none, if Q.held then s else holdQueue q s)
    else
      let s1 := consume q c.cid s
      let size := 2 ^ Q.log2
      let img := c.bytes q (decide (Q.crTail / size % 2 = 0)) (s1.queue q).head
      let s2 := hostWrite (Q.crBase + 64 * (Q.crTail % size)) img s1
      let s3 := updQueue q (fun Q => { Q with flush := none, held := false, crTail := Q.crTail + 1,
                                              intrs := Q.intrs + b2n c.intr }) s2
      let s4 := if c.intr then moderate q s3 else s3
      (some c.cid, recordWritten c.cid (if (s4.queue q).ringFull then holdQueue q s4 else s4))

/-- MSIX_MODERATION_TIMER (R347). -/
def execMsixModerationTimer (q : Fin 128) (s : State) : Out :=
  when (s.live && decide ((s.queue q).intrs > 0) && decide ((s.queue q).modTime > 0))
    (fun s => sendVector q (updQueue q (fun Q => { Q with intrs := 0 }) s)) s

/-! ## SUSPEND, RESUME and CANCEL (R342) -/

/-- The targets of a SUSPEND, RESUME or CANCEL: (queue, command). -/
def trioTargets (s : State) (c : Cmd) : List (Nat × Cmd) :=
  if c.opnd 0 1 = 0 then
    let q := c.opnd 1 1
    match (s.queue q).cmds.find? fun x => decide (x.tag = c.opnd 4 4) with
    | some x => if q < 128 then [(q, x)] else []
    | none => []
  else (jobCommands s c.job).filter fun p => decide (p.2.cid ≠ c.cid)

/-- A command in no chunk, cancelled: it completes CANCELLED in its turn, and a chunk saved for it is dropped. -/
def cancelNow (q cid : Nat) (s : State) : State :=
  let keep := fun (c : Chunk) => !(decide (c.queue = q) && decide (c.cid = cid))
  promote q (endEarly q cid St.CANCELLED { s with units := Tbl.mapv s.units fun _ x => { x with forced := x.forced.filter keep } })

/-- Whether a command runs a chunk, or holds one suspended by force (R341). -/
def chunkRuns (c : Cmd) : Bool := decide (c.life = .running) && isWork c.opcode

/-- Whether a SUSPEND, RESUME or CANCEL validated before this queue's head is still to be applied, on any queue and wherever it stands there:
they are applied in the order the device validates them (R342). -/
def trioWaits (q : Nat) (s : State) : Bool :=
  match headOf s q with
  | none => false
  | some c => s.enabled.any fun p => (s.queue p).cmds.any fun d =>
      isTrio d.opcode && decide (d.cid < c.cid) && d.early.isNone && decide (d.life ≠ .running)

/-- SUSPEND, RESUME or CANCEL at its start, in its turn. -/
def runTrio (q op : Nat) (f : Cmd → State → State) (s : State) : Out :=
  if trioWaits q s then .next s else runJob q op f s

/-- SUSPEND (R342). -/
def execSuspend (q : Fin 128) (s : State) : Out :=
  runTrio q Op.SUSPEND (fun c s =>
    let ts := trioTargets s c
    if ts = [] then endHead q St.NOTFOUND 0 0 s
    else
      let s1 := ts.foldl (fun s p =>
        let (tq, x) := p
        if chunkRuns x then updCid tq x.cid (fun y => { y with suspReq := true }) s
        else if (x.life = .queued ∨ x.life = .head) ∧ !x.runs then updCid tq x.cid (fun y => { y with life := .suspended, susp := true }) s
        else s) s
      let w := (ts.filter fun p => chunkRuns p.2).map (·.2.cid)
      if w = [] then endHead q St.OK 0 0 s1 else updHead q (fun c => { c with waits := w }) s1) s

/-- RESUME (R24, R342): one accepted in LOST restarts no work. -/
def execResume (q : Fin 128) (s : State) : Out :=
  runTrio q Op.RESUME (fun c s =>
    let all := c.opnd 0 1 = 1
    let ts := trioTargets s c
    let wasHeld := match s.job? c.job with | some j => j.held | none => false
    if (s.lost || c.inLost) && (ts != [] || all) then endHead q St.CLOCK_LOST 0 0 s
    else
      let s1 := if all then updJob c.job (fun j => { j with held := false }) s else s
      let sus := ts.filter fun p => decide (p.2.life = .suspended)
      let s2 := sus.foldl (fun s p => promote p.1 (updCid p.1 p.2.cid (fun y => { y with life := .queued }) s)) s1
      let st := if sus != [] || (all && wasHeld) then St.OK else if ts = [] then St.NOTFOUND else St.NOT_SUSPENDED
      endHead q st 0 0 s2) s

/-- CANCEL (R342): commands behind it on its own queue are cancelled too, and complete after it (R345). -/
def cancelAll (q : Nat) (ts : List (Nat × Cmd)) (s : State) : List Nat × State :=
  let s1 := ts.foldl (fun s p =>
    let (tq, x) := p
    if chunkRuns x then updCid tq x.cid (fun y => { y with cancReq := true, suspReq := false }) (satisfy Op.SUSPEND x.cid true s)
    else if x.runs then s
    else cancelNow tq x.cid s) s
  ((ts.filter fun p => (chunkRuns p.2 || !p.2.runs) && decide (p.1 ≠ q)).map (·.2.cid), s1)

/-- CANCEL (R342). -/
def execCancel (q : Fin 128) (s : State) : Out :=
  runTrio q Op.CANCEL (fun c s =>
    let ts := trioTargets s c
    let late := ts.all fun p => p.2.runs && !isWork p.2.opcode
    if ts = [] then endHead q St.NOTFOUND 0 0 s
    else if late then endHead q St.CANCEL_LATE 0 0 s
    else
      let (w, s1) := cancelAll q ts s
      if w = [] then endHead q St.OK 0 0 s1 else updHead q (fun c => { c with waits := w }) s1) s

end Sys2Proof.Machine
end

