-- ==== Sys2Proof/Machine/Layers.lean ====
section
/-! DEFINITION. Dense layers as other blocks see them: descriptor fields, the layers held, and the update pieces that come before the
Coalescer's chains (R253, R254, R272, R278). -/

namespace Sys2Proof.Machine

/-! ## Descriptors (R254) -/

def dl (d : Bytes) (hi lo : Nat) : Nat := bits (le d) hi lo
def dlLayer (d : Bytes) : Nat := dl d 15 0
def dlWfmt (d : Bytes) : Nat := dl d 19 16
def dlOpt (d : Bytes) : Nat := dl d 21 20
def dlRmode (d : Bytes) : Nat := dl d 23 22
def dlSat (d : Bytes) : Bool := bitOf (le d) 24
def dlWire (d : Bytes) : Nat := dl d 26 25
def dlRsen (d : Bytes) : Bool := bitOf (le d) 27
def dlRsem (d : Bytes) : Nat := dl d 31 28
def dlElems (d : Bytes) : Nat := dl d 63 32
def dlGfirst (d : Bytes) : Nat := dl d 79 64
def dlG (d : Bytes) : Nat := dl d 95 80 + 1
def dlGstride (d : Bytes) : Nat := dl d 111 96
def dlMarks (d : Bytes) : Nat := dl d 127 112
def dlCollRs (d : Bytes) : Nat := dl d 143 128
def dlCollAg (d : Bytes) : Nat := dl d 159 144
def dlTopk (d : Bytes) : Nat := dl d 171 160
def dlChklog (d : Bytes) : Nat := dl d 176 172
def dlUtile (d : Bytes) : Nat := dl d 179 177
def dlRtile (d : Bytes) : Nat := dl d 182 180
def dlGbase (d : Bytes) : Nat := dl d 239 192
def dlWbase (d : Bytes) : Nat := dl d 287 240
def dlResbase (d : Bytes) : Nat := dl d 335 288
def dlRdbase (d : Bytes) : Nat := dl d 383 336
def dlMbase (d : Bytes) : Nat := dl d 431 384
def dlM1base (d : Bytes) : Nat := dl d 479 432
def dlM2base (d : Bytes) : Nat := dl d 527 480
def dlUprog (d : Bytes) : Nat := dl d 575 528
def dlHparam (d : Bytes) : Nat := dl d 623 576
def dlDgbase (d : Bytes) : Nat := dl d 671 624

/-- Bytes of a working element. -/
def dlSize (d : Bytes) : Nat := if dlWfmt d ≤ 2 then 2 else 1

/-! ## Layers -/

def layerKey (j l : Nat) : Nat := 65536 * j + l
def State.layer? (s : State) (j l : Nat) : Option DLayer := Tbl.look? s.dtr.layers (layerKey j l)
def updLayer (j l : Nat) (f : DLayer → DLayer) (s : State) : State :=
  { s with dtr := { s.dtr with layers := Tbl.upd s.dtr.layers (layerKey j l) f } }

/-- Whether a job's dense work goes on: the clock is not LOST, the job is neither held, stopped nor ending (R24, R278). -/
def denseOn (s : State) (j : Nat) : Bool :=
  s.clocked && !s.lost && (match s.job? j with | some x => !x.held && x.stopped.isNone && x.ending.isNone | none => false)

/-- Whether dense traffic of a job leaves: the clock is not LOST and the job is not held (R24, R278). -/
def denseFree (s : State) (j : Nat) : Bool := !s.lost && (match s.job? j with | some x => !x.held | none => true)

/-- Whether Dusk keeps new dense work from starting (R370). -/
def duskBegun (s : State) : Bool := match s.power.dusk with | some d => d.first.isSome | none => false

/-! ## Update pieces and the vector engine (R272) -/

/-- Whether a piece of a layer may begin or go on: one suspended at L − P goes on first; a new one begins while the window still holds it. -/
def pieceTime (s : State) (L : DLayer) : Bool :=
  match L.running with
  | some f => decide (f ≠ s.clk.fnum)
  | none => !duskBegun s && decide (s.pos + 65536 ≤ s.W)

/-- Whether a piece that has begun and not ended holds a tile's vector engine (R272): between L − P and its end it is suspended there, and nothing
goes before it. -/
def pieceOn (s : State) (tile : Nat) : Bool :=
  s.dtr.layers.any fun x => decide (x.2.phase = 4) && decide (dlUtile x.2.desc = tile) && x.2.running.isSome && denseOn s (x.1 / 65536)

/-- Whether a dense piece waits for a tile's vector engine, or runs there: the Coalescer's chains come after it. -/
def pieceFirst (s : State) (tile : Nat) : Bool :=
  s.dtr.layers.any fun x => decide (x.2.phase = 4) && decide (dlUtile x.2.desc = tile) && denseOn s (x.1 / 65536) &&
    (x.2.running.isSome || pieceTime s x.2)

end Sys2Proof.Machine
end

