-- ==== Sys2Proof/Machine/Numbers.lean ====
section
/-! DEFINITION. Numbers and Error Bounds: formats, exact values, the one narrowing step, extended accumulators, BS16 blocks,
split operands, per-row scales and the stochastic-rounding generators (R45 to R72). -/

namespace Sys2Proof.Machine

/-! ## Formats (R45, R48, R93) -/

/-- A floating-point format: exponent and fraction bits, bias, the code of its largest finite value, its NaN, and whether it has
infinities. -/
structure FFmt where
  eb   : Nat
  fb   : Nat
  bias : Nat
  max  : Nat
  nan  : Nat
  hasInf : Bool
  deriving DecidableEq, Repr

/-- The floating-point format of an FMT code (R93). -/
def ffmt (fmt : Nat) : Option FFmt :=
  match fmt with
  | 0 => some ⟨8, 23, 127, 0x7F7FFFFF, 0x7FC00000, true⟩
  | 1 => some ⟨8, 7, 127, 0x7F7F, 0x7FC0, true⟩
  | 2 => some ⟨5, 10, 15, 0x7BFF, 0x7E00, true⟩
  | 3 => some ⟨4, 3, 7, 0x7E, 0x7F, false⟩
  | 4 => some ⟨5, 2, 15, 0x7B, 0x7E, true⟩
  | _ => none

/-- The bits of an element of an FMT code. -/
def fmtBits (fmt : Nat) : Nat :=
  match fmt with
  | 0 => 32 | 1 => 16 | 2 => 16 | 3 => 8 | 4 => 8 | 5 => 8 | 6 => 4 | 7 => 32 | _ => 0

/-- Bytes of `n` elements, an odd INT4 count padded (R48). -/
def fmtBytes (fmt n : Nat) : Nat := ceilDiv (fmtBits fmt * n) 8

/-- The 8-bit class of R60. -/
def is8bit (fmt : Nat) : Bool := decide (3 ≤ fmt ∧ fmt ≤ 6)

/-- Integer formats. -/
def isInt (fmt : Nat) : Bool := decide (5 ≤ fmt ∧ fmt ≤ 7)

/-! ## Exact values -/

/-- A value: an exact rational (−1)^neg × n / d × 2^e, an infinity, or a NaN. -/
inductive Num where
  | fin (neg : Bool) (n d : Nat) (e : Int)
  | inf (neg : Bool)
  | nan
  deriving DecidableEq, Repr

def Num.zero : Num := .fin false 0 1 0
def Num.ofNat (n : Nat) : Num := .fin false n 1 0
def Num.ofInt (i : Int) : Num := .fin (decide (i < 0)) i.natAbs 1 0
def Num.isZero : Num → Bool
  | .fin _ n _ _ => n == 0
  | _ => false
def Num.isNan : Num → Bool
  | .nan => true
  | _ => false
def Num.isInf : Num → Bool
  | .inf _ => true
  | _ => false
def Num.isFin : Num → Bool
  | .fin .. => true
  | _ => false
def Num.sign : Num → Bool
  | .fin g _ _ _ => g
  | .inf g => g
  | .nan => false
def Num.neg : Num → Num
  | .fin g n d e => .fin (!g) n d e
  | .inf g => .inf (!g)
  | .nan => .nan
def Num.abs : Num → Num
  | .fin _ n d e => .fin false n d e
  | .inf _ => .inf false
  | .nan => .nan

/-- The value of an element code (R45, R48). -/
def decode (fmt code : Nat) : Num :=
  match ffmt fmt with
  | some f =>
    let neg := code.testBit (f.eb + f.fb)
    let ex := bits code (f.eb + f.fb - 1) f.fb
    let fr := code % 2 ^ f.fb
    if f.hasInf && ex == 2 ^ f.eb - 1 then (if fr = 0 then .inf neg else .nan)
    else if !f.hasInf && ex == 15 && fr == 7 then .nan
    else if ex = 0 then .fin neg fr 1 (1 - (f.bias : Int) - f.fb)
    else .fin neg (2 ^ f.fb + fr) 1 ((ex : Int) - f.bias - f.fb)
  | none => .ofInt (sx (fmtBits fmt) code)

/-- 2^k as a factor: `n × 2^k` when k is not negative, else the denominator takes it. -/
def scaleUp (n : Nat) (k : Int) : Nat := if 0 ≤ k then n <<< k.toNat else n
def scaleDn (d : Nat) (k : Int) : Nat := if 0 ≤ k then d else d <<< (-k).toNat

/-- floor(log2 (n / d × 2^e)) of a nonzero value. -/
def floorLog2 (n d : Nat) (e : Int) : Int :=
  let l : Int := (Nat.log2 n : Int) - Nat.log2 d
  (if scaleUp d l ≤ scaleDn n l then l else l - 1) + e

/-- Sum of values: NaN and the sum of opposite infinities are NaN; an exact zero sum is −0 only when both are −0. -/
def Num.add (a b : Num) : Num :=
  match a, b with
  | .nan, _ => .nan
  | _, .nan => .nan
  | .inf g, .inf h => if g = h then .inf g else .nan
  | .inf g, _ => .inf g
  | _, .inf h => .inf h
  | .fin g n d e, .fin h m c f =>
    let lo := min e f
    let x : Int := (if g then -1 else 1) * ((n * c : Nat) : Int) * 2 ^ (e - lo).toNat
    let y : Int := (if h then -1 else 1) * ((m * d : Nat) : Int) * 2 ^ (f - lo).toNat
    let t := x + y
    if t = 0 then .fin (g && h) 0 1 0 else .fin (decide (t < 0)) t.natAbs (d * c) lo

/-- Product of values: 0 × infinity is NaN. -/
def Num.mul (a b : Num) : Num :=
  match a, b with
  | .nan, _ => .nan
  | _, .nan => .nan
  | .inf g, y => if y.isZero then .nan else .inf (g != y.sign)
  | x, .inf h => if x.isZero then .nan else .inf (x.sign != h)
  | .fin g n d e, .fin h m c f => .fin (g != h) (n * m) (d * c) (e + f)

/-- Quotient of values: 0 / 0 and infinity / infinity are NaN, x / 0 is an infinity. -/
def Num.div (a b : Num) : Num :=
  match a, b with
  | .nan, _ => .nan
  | _, .nan => .nan
  | .inf _, .inf _ => .nan
  | .inf g, y => .inf (g != y.sign)
  | x, .inf h => .fin (x.sign != h) 0 1 0
  | .fin g n d e, .fin h m c f => if m = 0 then (if n = 0 then .nan else .inf (g != h)) else .fin (g != h) (n * c) (d * m) (e - f)

/-- a < b of two finite values; infinities order as usual. -/
def Num.lt (a b : Num) : Bool :=
  match a, b with
  | .nan, _ => false
  | _, .nan => false
  | .inf g, .inf h => g && !h
  | .inf g, _ => g
  | _, .inf h => !h
  | x, y =>
    match Num.add x y.neg with
    | .fin g n _ _ => g && n != 0
    | _ => false

def Num.eq (a b : Num) : Bool :=
  match a, b with
  | .nan, _ => false
  | _, .nan => false
  | x, y => !Num.lt x y && !Num.lt y x

/-! ## Rounding (R51, R52) -/

/-- The rounding modes. -/
def rne : Nat := 0
def rtz : Nat := 1
def rsr : Nat := 2

/-- |x| = n / d × 2^e rounded to a multiple of 2^lsb under RMODE with the random number u: the multiple, and whether it is
exact. -/
def roundMag (rmode u n d : Nat) (e lsb : Int) : Nat × Bool :=
  let k := e - lsb
  let N := scaleUp n k
  let D := scaleDn d k
  let q := N / D
  let r := N % D
  let up : Bool :=
    if rmode = 0 then decide (2 * r > D) || (decide (2 * r = D) && q % 2 == 1)
    else if rmode = 1 then false
    else decide (r * 65536 / D + u ≥ 65536)
  (if up then q + 1 else q, r == 0)

/-! ## Numeric status (R72) -/

def NS.INV : Nat := 1
def NS.OVF : Nat := 2
def NS.SAT : Nat := 4
def NS.UNF : Nat := 8
def NS.ACCOVF : Nat := 16
def NS.NANIN : Nat := 32

/-- The code of magnitude n × 2^lsb in a format, n below 2^(fraction bits + 1) or equal to it. -/
def packF (f : FFmt) (neg : Bool) (n : Nat) (lsb : Int) : Nat :=
  let sg := if neg then 2 ^ (f.eb + f.fb) else 0
  if n < 2 ^ f.fb then sg + n
  else
    let n' := if n = 2 ^ (f.fb + 1) then 2 ^ f.fb else n
    let ex := lsb + f.fb + f.bias + (if n = 2 ^ (f.fb + 1) then 1 else 0)
    sg + ex.toNat * 2 ^ f.fb + (n' - 2 ^ f.fb)

/-- Narrowing to a floating-point format (R51, R52, R57): the code and the status bits. -/
def narrowF (f : FFmt) (rmode : Nat) (sat : Bool) (u : Nat) (x : Num) : Nat × Nat :=
  let sg := fun (neg : Bool) => if neg then 2 ^ (f.eb + f.fb) else 0
  let infc := (2 ^ f.eb - 1) * 2 ^ f.fb
  match x with
  | .nan => (f.nan, NS.NANIN)
  | .inf neg =>
    if f.eb = 8 then (sg neg + infc, if sat then NS.SAT else 0)
    else if sat then (sg neg + f.max, NS.SAT)
    else if f.hasInf then (sg neg + infc, 0)
    else (f.nan, NS.INV)
  | .fin neg n d e =>
    if n = 0 then (sg neg, 0)
    else
      let emin : Int := 1 - (f.bias : Int)
      let ex := floorLog2 n d e
      let lsb := max ex emin - f.fb
      let (m, exact) := roundMag rmode u n d e lsb
      let (m0, _) := roundMag rmode u n d e (ex - f.fb)
      let unf := if ex < emin ∧ !exact ∧ m0 < 2 ^ (f.fb + 1 + (emin - ex - 1).toNat) then NS.UNF else 0
      let beyond := decide (ex ≥ emin) && decide (packF f false m lsb > f.max)
      if beyond then
        let st := unf ||| NS.OVF ||| (if sat then NS.SAT else 0)
        if rmode = 1 || (sat && f.fb != 23) then (sg neg + f.max, st)
        else if f.hasInf then (sg neg + infc, st) else (f.nan, st)
      else (packF f neg m lsb, unf)

/-- Narrowing to an integer format (R57, R58). -/
def narrowI (fmt rmode u : Nat) (x : Num) : Nat × Nat :=
  let w := fmtBits fmt
  let top : Nat := 2 ^ (w - 1)
  let lo : Int := if fmt = 7 then -(top : Int) else -((top : Int) - 1)
  let hi : Int := (top : Int) - 1
  match x with
  | .nan => (0, NS.INV ||| NS.NANIN)
  | .inf neg => (wrapInt w (if neg then lo else hi), NS.SAT)
  | .fin neg n d e =>
    let m := (roundMag rmode u n d e 0).1
    let v : Int := if neg then -(m : Int) else m
    if v > hi ∨ v < lo then
      (wrapInt w (if v > hi then hi else lo),
        NS.SAT ||| (if v > (top : Int) - 1 ∨ v < -(top : Int) then NS.OVF else 0))
    else (wrapInt w v, 0)

/-- One narrowing to any output format. -/
def narrow (fmt rmode : Nat) (sat : Bool) (u : Nat) (x : Num) : Nat × Nat :=
  match ffmt fmt with
  | some f => narrowF f rmode sat u x
  | none => narrowI fmt rmode u x

/-- Narrowing to FP32 under RNE. -/
def toF32 (x : Num) : Nat × Nat := narrow 0 rne false 0 x
def f32 (code : Nat) : Num := decode 0 code

/-- FP32 addition under RNE: the code and the status bits, INV and NANIN included. -/
def f32Add (a b : Nat) : Nat × Nat :=
  let x := f32 a
  let y := f32 b
  let r := Num.add x y
  if x.isNan || y.isNan then (0x7FC00000, NS.NANIN)
  else if r.isNan then (0x7FC00000, NS.INV)
  else toF32 r

/-- FP32 subtraction and multiplication under RNE. -/
def f32Sub (a b : Nat) : Nat × Nat := f32Add a (if (f32 b).isNan then b else b ^^^ 0x80000000)
def f32Mul (a b : Nat) : Nat × Nat :=
  let x := f32 a
  let y := f32 b
  let r := Num.mul x y
  if x.isNan || y.isNan then (0x7FC00000, NS.NANIN)
  else if r.isNan then (0x7FC00000, NS.INV)
  else toF32 r

/-! ## Elements in byte strings (R48) -/

/-- Element i of an array of elements. -/
def elemAt (fmt : Nat) (bs : Bytes) (i : Nat) : Nat :=
  if fmt = 6 then bits (byteAt bs (i / 2)).toNat (4 * (i % 2) + 3) (4 * (i % 2))
  else leAt bs (i * (fmtBits fmt / 8)) (fmtBits fmt / 8)

/-- `n` elements of an array. -/
def elems (fmt : Nat) (bs : Bytes) (n : Nat) : List Nat := (List.range n).map (elemAt fmt bs)

/-- The bytes of a list of element codes. -/
def packElems (fmt : Nat) (l : List Nat) : Bytes :=
  if fmt = 6 then
    (List.range (ceilDiv l.length 2)).map fun i => BitVec.ofNat 8 (l.getD (2 * i) 0 % 16 + 16 * (l.getD (2 * i + 1) 0 % 16))
  else l.flatMap fun c => toLe (fmtBits fmt / 8) c

/-! ## The extended accumulator (R50, R61 to R65) -/

/-- Shift right by `k`, rounding to nearest even. -/
def rneShr (v : Int) (k : Nat) : Int :=
  if v = 0 then 0
  else
    let q := v / 2 ^ k
    let r := v % 2 ^ k
    if 2 * r > 2 ^ k ∨ (2 * r = 2 ^ k ∧ q % 2 = 1) then q + 1 else q

/-- The CLASS after accumulating one product into a CLASS, and the status bits (R63). -/
def accClass (cls : Nat) (p : Num) : Nat × Nat :=
  match p with
  | .nan => (3, 0)
  | .inf neg =>
    let c := if neg then 2 else 1
    if cls = 0 then (c, 0) else if cls = c then (c, 0) else if cls = 3 then (3, 0) else (3, NS.INV)
  | .fin .. => (cls, 0)

/-- The largest exponent among a group's nonzero finite products (R61). -/
def groupExp (ps : List Num) : Option Int :=
  ps.foldl (fun m p =>
    match p with
    | .fin _ n d e =>
      if n = 0 then m
      else
        match m with
        | none => some (floorLog2 n d e)
        | some x => some (max x (floorLog2 n d e))
    | _ => m) none

/-- A product as a fixed-point value with least significant bit 2^lsb, the magnitude truncated (R61). -/
def fixedAt (lsb : Int) (p : Num) : Int :=
  match p with
  | .fin neg n d e =>
    let m : Int := (roundMag rtz 0 n d e lsb).1
    if neg then -m else m
  | _ => 0

/-- SIG holds 104 bits (R50). -/
def sigFits (v : Int) : Bool := decide (-(2 ^ 103) ≤ v ∧ v < 2 ^ 103)

/-- A group of products accumulated into an XACC (R61 to R64), with the status bits of the products' specials. -/
def XAcc.addGroup (a : XAcc) (ps : List Num) : XAcc × Nat :=
  let (cls, st) := ps.foldl (fun (c : Nat × Nat) p => let r := accClass c.1 p; (r.1, c.2 ||| r.2)) (a.cls, 0)
  if cls ≠ 0 then ({ a with cls := cls }, st)
  else
    match groupExp ps with
    | none => (a, st)
    | some eg =>
      let g : Int := ps.foldl (fun t p => t + fixedAt (eg - 86) p) 0
      let sig := if a.anchor < eg then rneShr a.sig (eg - a.anchor).toNat else a.sig
      let anchor := max a.anchor eg
      let sig' := sig + rneShr g (anchor - eg + 22).toNat
      if sigFits sig' then ({ sig := sig', anchor := anchor, cls := 0 }, st)
      else ({ sig := sig, anchor := anchor, cls := 3 }, st ||| NS.ACCOVF)

/-- Products accumulated in groups of 256 in the order given (R60). -/
def XAcc.addAll (a : XAcc) (ps : List Num) : XAcc × Nat :=
  (List.range (ceilDiv ps.length 256)).foldl
    (fun (r : XAcc × Nat) i => let x := r.1.addGroup ((ps.drop (256 * i)).take 256); (x.1, r.2 ||| x.2)) (a, 0)

/-- The value of an XACC (R50, R65); a finite zero is +0. -/
def XAcc.value (a : XAcc) : Num :=
  match a.cls with
  | 0 => .fin (decide (a.sig < 0)) a.sig.natAbs 1 (a.anchor - 64)
  | 1 => .inf false
  | 2 => .inf true
  | _ => .nan

/-- A group of values summed under R61, with the status of its specials: exact once each term is cut at 2^(e_g − 86). -/
def groupSum (ps : List Num) : Num × Nat :=
  let (cls, st) := ps.foldl (fun (c : Nat × Nat) p => let r := accClass c.1 p; (r.1, c.2 ||| r.2)) (0, 0)
  match cls, groupExp ps with
  | 0, none => (.zero, st)
  | 0, some eg =>
    let g : Int := ps.foldl (fun t p => t + fixedAt (eg - 86) p) 0
    (.fin (decide (g < 0)) g.natAbs 1 (eg - 86), st)
  | 1, _ => (.inf false, st)
  | 2, _ => (.inf true, st)
  | _, _ => (.nan, st)

/-- Two XACCs added (R228 step 5, R240): the second's value, exact, enters as a one-product group under R62, so the group's exponent is that of
the value and the shift of R62 is the one place where bits can go. -/
def XAcc.merge (a b : XAcc) : XAcc × Nat :=
  if b.cls ≠ 0 then
    let r := accClass a.cls (match b.cls with | 1 => .inf false | 2 => .inf true | _ => .nan)
    ({ a with cls := r.1 }, r.2)
  else if a.cls ≠ 0 ∨ b.sig = 0 then (a, 0)
  else
    let anchor := max a.anchor (floorLog2 b.sig.natAbs 1 (b.anchor - 64))
    let own := rneShr a.sig (anchor - a.anchor).toNat
    let sig := own + (if b.anchor ≤ anchor then rneShr b.sig (anchor - b.anchor).toNat else b.sig * 2 ^ (b.anchor - anchor).toNat)
    if sigFits sig then ({ sig := sig, anchor := anchor, cls := 0 }, 0) else ({ sig := own, anchor := anchor, cls := 3 }, NS.ACCOVF)

/-- The 16 bytes of an XACC (R50). -/
def XAcc.bytes (a : XAcc) : Bytes :=
  toLe 13 (wrapInt 104 a.sig) ++ toLe 2 (wrapInt 16 a.anchor) ++ toLe 1 (a.cls % 4)

/-- The XACC of 16 bytes. -/
def XAcc.ofBytes (bs : Bytes) : XAcc :=
  { sig := sx 104 (leAt bs 0 13), anchor := sx 16 (leAt bs 13 2), cls := leAt bs 15 1 % 4 }

/-- A product of two elements (R60), with the status of its operands: NANIN for a NaN operand, INV for 0 × infinity. -/
def product (x y : Num) : Num × Nat :=
  let p := Num.mul x y
  (p, if x.isNan || y.isNan then NS.NANIN else if p.isNan then NS.INV else 0)

/-! ## BS16 blocks (R49) -/

/-- An FP32 value at the scale of exponent E, rounded to nearest even, when it lies in 16 bits. -/
def bs16Mant (E : Nat) (x : Num) : Option Int :=
  match x with
  | .fin neg n d e =>
    let m := (roundMag rne 0 n d e ((E : Int) - 141)).1
    let v : Int := if neg then -(m : Int) else m
    if -32768 ≤ v ∧ v ≤ 32767 then some v else none
  | _ => none

/-- The smallest E for which every element fits, from `E` on (`fuel` bounds the search at 254). -/
def bs16Exp (fuel E : Nat) (xs : List Num) : Option Nat :=
  match fuel with
  | 0 => none
  | f + 1 => if xs.all fun x => (bs16Mant E x).isSome then some E else bs16Exp f (E + 1) xs

/-- A BS16 block of up to 32 FP32 codes; none when the encoder takes the escape (R49, R261). -/
def bs16Encode (codes : List Nat) : Option Bytes :=
  let xs := codes.map f32
  match bs16Exp 255 0 xs with
  | none => none
  | some E =>
    some (toLe 1 E ++ [0] ++ (xs.flatMap fun x => toLe 2 (wrapInt 16 ((bs16Mant E x).getD 0))) ++ zeros (2 * (32 - codes.length)))

/-- Element i of a BS16 block, as an FP32 code (the decode is exact, R262).  DESIGN CHOICE: the mantissa −32,768 at E = 254 stands for −2^128, which
FP32 cannot hold and for which the spec gives no decoded value; the model takes −infinity, as R57 narrows it (assumption 105). -/
def bs16Elem (blk : Bytes) (i : Nat) : Nat :=
  let m := sx 16 (leAt blk (2 + 2 * i) 2)
  (toF32 (.fin (decide (m < 0)) m.natAbs 1 ((leAt blk 0 1 : Int) - 141))).1

/-- An escape block (R262). -/
def escapeBlock (codes : List Nat) : Bytes :=
  [0xFF, 0x01] ++ (codes.flatMap fun c => toLe 4 c) ++ zeros (4 * (32 - codes.length))

/-! ## Split operands (R68) -/

/-- The BF16 pieces h, m, l of an FP32 code. -/
def splitF32 (code : Nat) : Nat × Nat × Nat :=
  let x := f32 code
  match x with
  | .fin .. =>
    let h := (narrow 1 rne true 0 x).1
    let d1 := Num.add x (decode 1 h).neg
    let m := (narrow 1 rne false 0 d1).1
    let d2 := Num.add d1 (decode 1 m).neg
    (h, m, (narrow 1 rne false 0 d2).1)
  | .inf neg => (if neg then 0xFF80 else 0x7F80, 0, 0)
  | .nan => (0x7FC0, 0, 0)

/-! ## Per-row scales (R59) -/

/-- The largest magnitude among the finite elements. -/
def maxMag (xs : List Num) : Num :=
  xs.foldl (fun m x => if x.isFin && Num.lt m x.abs then x.abs else m) Num.zero

/-- The smallest FP32 value s with 127 × s ≥ m: the truncated quotient or its successor. -/
def scaleOf (m : Num) : Nat :=
  if m.isZero then 0
  else
    let q := Num.div m (Num.ofNat 127)
    let t := (narrow 0 rtz false 0 q).1
    if Num.lt (Num.mul (f32 t) (Num.ofNat 127)) m then t + 1 else t

/-- One element of a row under its scale. -/
def quant (rmode u : Nat) (s : Nat) (x : Num) : Nat × Nat :=
  match x with
  | .nan => narrowI 5 rmode u .nan
  | .inf g => narrowI 5 rmode u (.inf g)
  | _ => if s = 0 then (0, 0) else narrowI 5 rmode u (Num.div x (f32 s))

/-! ## Generators (R53 to R55) -/

/-- The seed finaliser mix() of R53. -/
def mix (z : Word64) : Word64 :=
  let z := (z ^^^ (z >>> 30)) * 0xBF58476D1CE4E5B9
  let z := (z ^^^ (z >>> 27)) * 0x94D049BB133111EB
  z ^^^ (z >>> 31)

/-- seed() of R53. -/
def genSeed (jobSeed : Word64) (lane resume : Nat) : Word64 :=
  let s := mix (jobSeed ^^^ (BitVec.ofNat 64 lane * 0x9E3779B97F4A7C15) ^^^ mix (BitVec.ofNat 64 resume))
  if s = 0 then 0x9E3779B97F4A7C15 else s

/-- draw() of R53: u and the new state. -/
def genStep (x : Word64) : Nat × Word64 :=
  let x := x ^^^ (x <<< 13)
  let x := x ^^^ (x >>> 7)
  let x := x ^^^ (x <<< 17)
  (((x * 0x2545F4914F6CDD1D) >>> 48).toNat, x)

/-- The generator of a lane of a job: `idx` is class in bits [15:12] and index in bits [11:0] (R54). -/
def Job.gen (j : Job) (idx : Nat) : Word64 :=
  Tbl.look j.gens idx (genSeed (BitVec.ofNat 64 j.seed) (j.rank * 65536 + idx % 65536) j.resumeFrame)

/-- One draw of a lane. -/
def Job.drawLane (j : Job) (idx : Nat) : Nat × Job :=
  let r := genStep (j.gen idx)
  (r.1, { j with gens := Tbl.put j.gens idx r.2 })

/-- One narrowing on a lane of a job: under SR it takes one draw whatever the value (R53). -/
def narrowLane (fmt rmode : Nat) (sat : Bool) (lane : Nat) (x : Num) (j : Job) : (Nat × Nat) × Job :=
  if rmode = 2 then
    let (u, j1) := j.drawLane lane
    (narrow fmt rmode sat u x, j1)
  else (narrow fmt rmode sat 0 x, j)

/-- A row narrowed on consecutive lanes: element i on lane `base + i mod lanes`. -/
def narrowRow (fmt rmode : Nat) (sat : Bool) (base lanes : Nat) (xs : List Num) (j : Job) : (List Nat × Nat) × Job :=
  let r := xs.foldl (fun (a : List Nat × Nat × Job × Nat) x =>
    let (c, st) := (narrowLane fmt rmode sat (base + a.2.2.2 % lanes) x a.2.2.1).1
    let j1 := (narrowLane fmt rmode sat (base + a.2.2.2 % lanes) x a.2.2.1).2
    (c :: a.1, a.2.1 ||| st, j1, a.2.2.2 + 1)) ([], 0, j, 0)
  ((r.1.reverse, r.2.1), r.2.2.1)

end Sys2Proof.Machine
end

