-- ==== Sys2Proof/Machine/Memory.lean ====
section
/-! DEFINITION. Memory stacks: the keyed address map, sectors with poison and age, the three requests, the adders, scrub,
retraining, temperatures and skew (R134 to R162). -/

namespace Sys2Proof.Machine

/-! ## The address map (R142) -/

/-- The interleave key of the frame a physical address lies in: its job's key, or the device key.  DESIGN CHOICE (log 120): the device key
has 64 bits where the map takes 128; it stands in both words. -/
def keyOf (s : State) (pa : Nat) : Word64 × Word64 :=
  match Tbl.look? s.urng.frames (pa / 2 ^ 21) with
  | some k =>
    match s.job? (k / 2 ^ 27) with
    | some j => (j.ilKey0, j.ilKey1)
    | none => (s.stk.kd, s.stk.kd)
  | none => (s.stk.kd, s.stk.kd)

/-- perm_rows of R142. -/
def permRows (x : Nat) (kd : Word64) : Nat :=
  let hi := x / 65536
  let lo := x % 65536
  let lo2 := (lo * ((((kd >>> 16) ||| 1).toNat) % 2 ^ 32) + kd.toNat % 2 ^ 32) % 65536
  let hi2 := (hi + (mix (BitVec.ofNat 64 lo2 ^^^ kd)).toNat % 3) % 3
  hi2 * 65536 + lo2

/-- The channel of unit `j` of a 512 KiB block under a key. -/
def unitChan (key : Word64 × Word64) (b j : Nat) : Nat :=
  let t := (mix (BitVec.ofNat 64 b ^^^ key.1)).toNat % 2048
  let m := (key.2 ||| 1).toNat % 2048
  (((j ^^^ t) * m) + (key.2 >>> 32).toNat) % 2048

/-- Channel, bank, row and column of a physical address (R142). -/
structure MapTo where
  chan : Nat
  bank : Nat
  row  : Nat
  col  : Nat
  deriving DecidableEq, Repr

def mapPa (key : Word64 × Word64) (kd : Word64) (pa : Nat) : MapTo :=
  let b := pa / 2 ^ 19
  let a := b * 256 + pa % 256
  let p := permRows (a / 2048) kd
  { chan := unitChan key b (pa / 256 % 2048), bank := p % 48, row := p / 48, col := a % 2048 }

/-- The device channel of a physical address. -/
def chanOf (s : State) (pa : Nat) : Nat := unitChan (keyOf s pa) (pa / 2 ^ 19) (pa / 256 % 2048)

/-- The physical address of a channel-local sector: the unit of its block that the channel holds. -/
def paOfLocal (s : State) (chan sec : Nat) : Nat :=
  let a := 32 * sec
  let b := a / 256
  let key := keyOf s (b * 2 ^ 19)
  let j := ((List.range 2048).find? fun j => unitChan key b j == chan).getD 0
  b * 2 ^ 19 + j * 256 + a % 256

/-- Bytes of the stacks (R134): 768 GiB. -/
def stackBytes : Nat := 768 * 2 ^ 30

/-- Sectors of a channel. -/
def chanSectors : Nat := 384 * 2 ^ 20 / 32

def State.chan (s : State) (c : Nat) : Chan := Tbl.look s.stk.chans c Chan.init
def updChan (c : Nat) (f : Chan → Chan) (s : State) : State :=
  { s with stk := { s.stk with chans := Tbl.put s.stk.chans c (f (s.chan c)) } }
def State.stack (s : State) (i : Nat) : Stack := Tbl.look s.stk.stks i Stack.init
def updStack (i : Nat) (f : Stack → Stack) (s : State) : State :=
  { s with stk := { s.stk with stks := Tbl.put s.stk.stks i (f (s.stack i)) } }

/-- Whether the stacks take requests: trained at Dawn and not in self-refresh (R158). -/
def stacksUp (s : State) : Bool := s.live && !s.stk.selfRefresh && s.dawn.stackUp.any id

/-! ## Draws (R160, R161) -/

def groupOwner (chan : Nat) : Owner := .memGroup (chan / 32)
def adderOwner (chan : Nat) : Owner := .memAdder (chan / 32)

/-- The instant of a request noted. -/
def markUse (k : Nat) (s : State) : State := { s with stk := { s.stk with use := Tbl.put s.stk.use k s.now } }

/-! A draw that work inside the device stands on has a key: channel groups by the channel, adders of group g by 4,096 + g, the line engine
8,192, the refresh engine 8,195, unit u of the Reduction Engine 8,200 + u, unit u of the table engine 8,220 + u, every channel of group g
8,400 + g. -/

/-- The draw of the table engine's units (R249): 0 and 1 flow engines, 2 and 3 Poolers, 4 and 5 Coalescers. -/
def engineDraw (s : State) (u : Nat) : Nat :=
  match u / 2 with
  | 0 => if s.evening then 4 else 6
  | 1 => if s.evening then 14 else 24
  | _ => if s.evening then 10 else 16

/-- The draws of the Reduction Engine's units (R281): 0 streaming, 1 prepare, 2 comparator. -/
def reductionDraw (s : State) (u : Nat) : Nat :=
  match u with
  | 0 => if s.evening then 12 else 20
  | 1 => if s.evening then 4 else 6
  | _ => if s.evening then 1 else 2

/-- The refresh engine's draw (R218). -/
def refreshDraw (s : State) : Nat := if s.evening then 3 else 5

/-- The owner and size of the draw of a key. -/
def useDraw (s : State) (k : Nat) : Option (Owner × Nat) :=
  if k < 2048 then some (groupOwner k, if s.evening then 3 else 5)
  else if k < 8192 then some (.memAdder (k - 4096), if s.evening then 1 else 2)
  else if k = 8192 then some (.lineEngine, if s.evening then 5 else 8)
  else if k = 8195 then some (.refresh, refreshDraw s)
  else if 8200 ≤ k ∧ k < 8220 then some (.reduction (k - 8200), reductionDraw s (k - 8200))
  else if 8220 ≤ k ∧ k < 8400 then some (.tableEngine (k - 8220), engineDraw s (k - 8220))
  else if 8400 ≤ k then some (.memGroup (k - 8400), if s.evening then 3 else 5)
  else none

/-- Work that stands on a draw: it is asked for unless held, and the instant is noted. -/
def needDraw (k : Nat) (s : State) : State :=
  match useDraw s k with
  | some (o, n) => reserve o 1 n (markUse k s)
  | none => markUse k s

/-- A group's reservation at a request, and its adder's at an ADD. -/
def memDraws (chan : Nat) (adder : Bool) (s : State) : State :=
  let s1 := needDraw chan s
  if adder then needDraw (4096 + chan / 32) s1 else s1

/-- The line engine's reservation (R190). -/
def lineDraw (s : State) : State := needDraw 8192 s

/-! ## Refresh and retraining take a channel (R153, R155) -/

/-- Refresh commands per frame (R153). -/
def refreshCommands (hot : Bool) (len : Nat) : Nat := ceilDiv ((if hot then 1024 else 512) * len) 25600000

/-- A stack's refresh time of a frame, in cc. -/
def refreshTime (s : State) (i : Nat) : Nat := 128 * refreshCommands (s.stack i).hot s.clk.len

/-- Whether the protected reserve holds `n` steps of a stack after its refresh. -/
def stepInReserve (s : State) (i n : Nat) : Bool := decide (refreshTime s i + 2400 * n ≤ frameP s.clk.len)

/-- Whether a self-test's step is made in a stack in this slice. -/
def testedStack (s : State) (i : Nat) : Bool := match s.stk.test with | some c => decide (c / 256 = i) | none => false

/-- Where a stack's retraining step starts: in the reserve after refresh (and after a self-test's step that goes ahead of it there), or before
it, with refresh from the step's end to the tick. -/
def stepStart (s : State) (i : Nat) : Nat :=
  if testedStack s i && stepInReserve s i 2 then s.reserveAt + refreshTime s i + 2400
  else if stepInReserve s i 1 then s.reserveAt + refreshTime s i
  else s.clk.len - 2400 - refreshTime s i

/-- Where a self-test's step starts (R155): ahead of the regular one, in the reserve after refresh where the reserve holds both, else before
it, early enough for the channel's refresh directly after the step to end by the tick.  The order of the two within the reserve is a
DESIGN CHOICE (log 92). -/
def testStart (s : State) (i : Nat) : Nat :=
  if stepInReserve s i 2 then s.reserveAt + refreshTime s i
  else min ((if stepInReserve s i 1 then s.reserveAt + refreshTime s i else s.clk.len - 2400 - refreshTime s i) - 2400)
    (s.clk.len - 2400 - refreshTime s i)

/-- Whether a channel is under a step of this slice: it has begun and 2,400 cc have not passed. -/
def retraining (s : State) (c : Nat) : Bool :=
  let i := c / 256
  s.clk.sliceDone &&
    ((decide ((s.stack i).step = some (c % 256)) && !s.stk.stepped.contains i &&
        decide (stepStart s i ≤ s.pos ∧ s.pos < stepStart s i + 2400)) ||
      (decide (s.stk.test = some c) && decide (testStart s i ≤ s.pos ∧ s.pos < testStart s i + 2400)))

/-- Where a channel's refresh of this frame starts (R153): at L − P, or, when a step of it runs outside the reserve, at that step's end, the
regular one's where it has both. -/
def refreshStart (s : State) (c : Nat) : Nat :=
  let i := c / 256
  if decide ((s.stack i).step = some (c % 256)) && !stepInReserve s i 1 then s.clk.len - refreshTime s i
  else if decide (s.stk.test = some c) && !stepInReserve s i 2 then testStart s i + 2400
  else s.reserveAt

/-- Whether a channel refreshes. -/
def refreshing (s : State) (c : Nat) : Bool := decide (refreshStart s c ≤ s.pos ∧ s.pos < refreshStart s c + refreshTime s (c / 256))

/-- Whether frames run: the clock has locked, or runs freely. -/
def State.framed (s : State) : Bool := s.clocked && decide (s.clk.lock ≠ .acquiring)

/-- Whether a channel issues nothing now. -/
def chanBusy (s : State) (c : Nat) : Bool := s.framed && (refreshing s c || retraining s c)

/-- Whether a channel's group issues: it holds its draw, no reservation of it is pending, its adders' among them (R161), and the channel is
available. -/
def groupIssues (s : State) (chan : Nat) : Bool := holds (groupOwner chan) s && !asking (adderOwner chan) s && !chanBusy s chan

/-- Whether two keys name one channel, or one thing. -/
def sameUse (a b : Nat) : Bool :=
  decide (a = b) || (decide (a < 2048) && decide (b = 8400 + a / 32)) || (decide (b < 2048) && decide (a = 8400 + b / 32))

/-- Whether earlier work waits on a key. -/
def heldOn (s : State) (k : Nat) : Bool := s.held.any fun h => h.2.any (sameUse k)

/-- Whether the group may issue a request: an ADD needs the adders' draw too, and no earlier work waits for the channel (R146). -/
def memGranted (chan : Nat) (adder : Bool) (s : State) : Bool :=
  groupIssues s chan && (!adder || holds (adderOwner chan) s) && !heldOn s chan

/-! ## Engines wait for the draws of what they reach (R161, R190) -/

/-- The migration in a direction. -/
def State.mig (s : State) (up : Bool) : Option Mig := if up then s.urng.up else s.urng.down
def setMig (up : Bool) (m : Option Mig) (s : State) : State :=
  if up then { s with urng := { s.urng with up := m } } else { s with urng := { s.urng with down := m } }

/-- The key under which an access to a COPYING sub-block is noted. -/
def copyKey (up : Bool) : Nat := if up then 8193 else 8194

/-- Whether what an access stands on, by the key of its use, is there: its engine, group or adders hold their draw, its channel is available,
and no earlier work waits for it; for a COPYING sub-block it never is (R178). -/
def useReady (s : State) (k : Nat) : Bool :=
  !heldOn s k &&
    (match useDraw s k with
     | some (o, _) =>
       if k < 2048 then groupIssues s k
       else if 8400 ≤ k then (List.range 32).all fun i => groupIssues s (32 * (k - 8400) + i)
       else holds o s
     | none => false)

/-- The draw of a use asked for. -/
def askUse (s : State) (k : Nat) : State := if k = copyKey true ∨ k = copyKey false then s else needDraw k s

/-- The keys of the uses noted in a state that are not ready. -/
def unready (s1 : State) : List Nat := (s1.stk.use.map (·.1)).filter fun k => !useReady s1 k

/-- The sector counts of the channels taken over: sectors are counted as they are asked for (R162). -/
def takeLoads (t s : State) : State :=
  t.stk.chans.foldl (fun s p => if (s.chan p.1).load = p.2.load then s else updChan p.1 (fun c => { c with load := p.2.load }) s) s

/-- Work of an engine inside the device, from `s` to `s1`.  It is done once every engine, channel and adder it stands on holds its draw and
every channel is available; until then it asks for them, and `wait` says where the work waits. -/
def settleUse (wait : List Nat → State → State) (s s1 : State) : State :=
  if (unready s1).isEmpty then
    let s2 := { s1 with stk := { s1.stk with use := s1.stk.use.foldl (fun u p => Tbl.put u p.1 p.2) s.stk.use } }
    if s.stk.counted then takeLoads s s2 else s2
  else
    wait (unready s1) (s1.stk.use.foldl (fun s p => askUse s p.1) s)

/-- A state with nothing noted of what its work stands on. -/
def unused (s : State) : State := { s with stk := { s.stk with use := [] } }

/-- Such work of an engine that has its place in the state: it tries again at every cycle. -/
def powered (f : State → State) (s : State) : State := settleUse (fun _ s => s) s (f (unused s))

/-- A command whose work is not ready waits behind those that wait already (R146, R161, R178, R190; DESIGN CHOICE, log 35). -/
def hold (i : Instr) (keys : List Nat) (s : State) : State := { s with held := s.held ++ [(i, keys)] }

/-- A command held, the sectors it asks for counted the first time. -/
def holdFrom (i : Instr) (s s1 : State) (keys : List Nat) (t : State) : State :=
  hold i keys (if s.stk.counted then t else takeLoads s1 t)

/-- Such work of a command: the command waits until what the work stands on is there. -/
def poweredBy (i : Instr) (f : State → State) (s : State) : State :=
  let s1 := f (unused s)
  settleUse (holdFrom i s s1) s s1

/-- Such work as the outcome of a command. -/
def poweredOut (i : Instr) (f : State → Out) (s : State) : Out :=
  match f (unused s) with
  | .next s1 => .next (settleUse (holdFrom i s s1) s s1)
  | o => o

/-- An event of an engine that reaches memory. -/
def whenP (i : Instr) (c : Bool) (f : State → State) (s : State) : Out := when c (poweredBy i f) s

/-- The effect of a control command that reaches memory: it stays HEAD until what it reaches is there. -/
def runHeadP (i : Instr) (q op : Nat) (f : Cmd → State → State) (s : State) : Out :=
  .next (match runnable q op s with
    | some c => poweredBy i (fun s => f c (updHead q (fun c => { c with life := .running, fstart := some s.clk.fnum }) s)) s
    | none => s)

/-- The effect of a control command of a resident job that reaches memory. -/
def runJobP (i : Instr) (q op : Nat) (f : Cmd → State → State) (s : State) : Out :=
  runHeadP i q op (fun c s => match jobRefusal s c with | some st => endHead q st 0 0 s | none => f c s) s

/-- One that completes at once. -/
def runJobNowP (i : Instr) (q op : Nat) (f : Cmd → State → Nat × Nat × State) (s : State) : Out :=
  runJobP i q op (fun c s => match f c s with | (st, res, s1) => endHead q st 0 res s1) s

/-! ## Age and touches (R141, R173) -/

/-- The key of the 64 KiB sub-block of a physical address in the summary table. -/
def subKey (pa : Nat) : Nat := pa / 65536

/-- The key of a host-tier sub-block. -/
def hostSubKey (hpa : Nat) : Nat := 2 ^ 45 + hpa / 65536

/-- A touch on its way to the migration engine (R173): dropped by the source's filter, or counted when the queue is full. -/
def sendTouch (src sub : Nat) (s : State) : State :=
  if (s.chan src).touched.contains sub then s
  else
    let s1 := updChan src (fun c => { c with touched := (sub :: c.touched).take 256 }) s
    if s1.stk.touches.length ≥ 1024 then count Reg.URNG_TOUCHDROP 32 1 s1
    else { s1 with stk := { s1.stk with touches := s1.stk.touches ++ [(src, sub)] } }

/-- The line engine's touch filter stands beside those of the channels. -/
def lineSource : Nat := 2048

def ageOf (s : State) (sec : Nat) : Nat := Tbl.look s.stk.age sec 0
def putAge (sec v : Nat) (s : State) : State :=
  { s with stk := { s.stk with age := if v = 0 then Tbl.del s.stk.age sec else Tbl.put s.stk.age sec v } }

/-- A sector's AGE set to the current stamp (R141), with its touch (R173). -/
def stampSector (sec : Nat) (s : State) : State :=
  if ageOf s sec = s.urng.stamp then s
  else sendTouch (chanOf s (32 * sec)) (subKey (32 * sec)) (putAge sec s.urng.stamp s)

/-- A read that finds another AGE queues a tag refresh; a full queue drops its oldest entry (R141). -/
def queueTag (chan sec : Nat) (s : State) : State :=
  if ageOf s sec = s.urng.stamp then s
  else
    let q := (s.chan chan).tagq
    let s1 := if q.length ≥ 64 then count Reg.MEM_TAGDROP 32 1 s else s
    updChan chan (fun c => { c with tagq := (if q.length ≥ 64 then q.drop 1 else q) ++ [sec] }) s1

/-! ## Poison -/

def poisonedSec (s : State) (sec : Nat) : Bool := (Tbl.look? s.stk.poison sec).isSome
def setPoison (sec : Nat) (p : Bool) (s : State) : State :=
  { s with stk := { s.stk with poison := if p then Tbl.put s.stk.poison sec () else Tbl.del s.stk.poison sec } }

/-- The job and unified-range address of a stack address, when a job owns its frame. -/
def jobAddr (s : State) (pa : Nat) : Option (Nat × Nat) :=
  match Tbl.look? s.urng.frames (pa / 2 ^ 21) with
  | some k => some (k / 2 ^ 27, (k % 2 ^ 27) * 2 ^ 21 + pa % 2 ^ 21)
  | none => none

/-- A corrected error (R137, R155): counted, and the sector's write-back queued. -/
def correctedSector (chan sec : Nat) (s : State) : State :=
  updChan chan (fun c => { c with ce := satTo 16 (c.ce + 1), ceFrame := c.ceFrame + 1, urgent := c.urgent || decide (c.ceFrame + 1 = 16),
                                  wbq := c.wbq ++ [sec] })
    (corrected (count Reg.MEM_CE 64 1 s))

/-! ## Sector format and ECC (R135, R136) -/

/-- The 32 bytes written to a sector; a byte nothing has written is 0 (DESIGN CHOICE). -/
def sectorBytes (s : State) (sec : Nat) : Bytes := Mem.gets s.stk.bytes 0 (32 * sec) 32

/-- The metadata word of a sector as written (R135): ECC[k] over data word k, ECC[0] over metadata bits [63:56] too, POISON, AGE, and 0 in
the reserved bits. -/
def metaWord (s : State) (sec : Nat) : Nat :=
  let top := b2n (poisonedSec s sec) + 2 * (ageOf s sec % 8)
  let d := sectorBytes s sec
  sumNat ((List.range 8).map fun k =>
    Config.eccCode k (leAt d (4 * k) 4 + (if k = 0 then top * 2 ^ 32 else 0)) % 128 * 2 ^ (7 * k)) + top * 2 ^ 56

/-- The bits of a sector that ECC[k] protects, its own among them: data bits 0 to 255, metadata bits from 256 on (R136). -/
def eccCovers (k bit : Nat) : Bool :=
  decide (32 * k ≤ bit ∧ bit < 32 * k + 32) || decide (256 + 7 * k ≤ bit ∧ bit < 263 + 7 * k) || (decide (k = 0) && decide (312 ≤ bit ∧ bit < 320))

/-- The worse of two findings. -/
def Ecc.worse (a b : Ecc) : Ecc :=
  match a, b with
  | .uncorrectable, _ => .uncorrectable
  | _, .uncorrectable => .uncorrectable
  | .corrected, _ => .corrected
  | .clean, x => x

/-- What one code finds among its differing bits, and the bits left wrong: one is corrected, two are detected (R136). -/
def codeFinds (bits : List Nat) : Ecc × List Nat :=
  match bits with
  | [] => (.clean, [])
  | [_] => (.corrected, [])
  | [_, _] => (.uncorrectable, bits)
  | _ => match Config.eccMany bits with
    | none => (.uncorrectable, bits)
    | some wrong => (.corrected, wrong)

/-- What all eight codes find. -/
def eccFinds (flips : List Nat) : Ecc × List Nat :=
  (List.range 8).foldl (fun a k => let r := codeFinds (flips.filter (eccCovers k)); (Ecc.worse a.1 r.1, a.2 ++ r.2)) (.clean, [])

/-- Data with some of its bits turned over. -/
def flipData (d : Bytes) (wrong : List Nat) : Bytes :=
  toLe 32 (wrong.foldl (fun v b => if b < 256 then v ^^^ 2 ^ b else v) (le d))

/-- What a read of a sector meets: the finding, that of the command's operand included, and the data after correction. -/
def sectorSeen (s : State) (sec : Nat) (ecc : Ecc) : Ecc × Bytes :=
  match Tbl.look? s.stk.flips sec with
  | none => (ecc, sectorBytes s sec)
  | some l => let r := eccFinds l; (Ecc.worse r.1 ecc, flipData (sectorBytes s sec) r.2)

/-- New data in the cells of a sector, with fresh codes. -/
def putSector (sec : Nat) (data : Bytes) (s : State) : State :=
  { s with stk := { s.stk with bytes := Mem.sets s.stk.bytes 0 (32 * sec) data, flips := Tbl.del s.stk.flips sec } }

/-- An uncorrectable sector (R137): rewritten poisoned, counted and reported; in the device reserve it is FATAL (R457). -/
def uncorrectableSector (chan sec : Nat) (s : State) : State :=
  let pa := 32 * sec
  let s1 := raiseInt blkMem 0 (count Reg.MEM_UE 32 1 (setPoison sec true (putSector sec (sectorSeen s sec .clean).2 s)))
  match jobAddr s pa with
  | some (j, va) => fault { code := 0x0002, job := some j, inst := chan, addr := va, arg0 := pa } s1
  | none =>
    if pa / 2 ^ 21 < 4096 then enterFatal { code := 0x0002, inst := chan, addr := pa, arg0 := pa, phys := true, cls := some 5 } s1
    else fault { code := 0x0002, inst := chan, addr := pa, arg0 := pa, phys := true } s1

/-! ## Sectors (R137 to R141, R156) -/

/-- A read of one sector: data, poison indication, next state. -/
def readSector (sec : Nat) (ecc : Ecc) (s : State) : Bytes × Bool × State :=
  let chan := chanOf s (32 * sec)
  let s1 := updChan chan (fun c => { c with load := c.load + 1 }) s
  if (s.chan chan).failed then (sectorBytes s sec, true, count Reg.MEM_POISON 32 1 s1)
  else
    let s2 := queueTag chan sec s1
    match sectorSeen s sec ecc with
    | (.uncorrectable, d) => (d, true, uncorrectableSector chan sec s2)
    | (e, d) =>
      let s3 := if e = .corrected then correctedSector chan sec s2 else s2
      if poisonedSec s sec then (d, true, count Reg.MEM_POISON 32 1 s3) else (d, false, s3)

/-- The sector's bytes with the enabled ones replaced. -/
def mergeBytes (old new : Bytes) (mask : List Bool) : Bytes :=
  (List.range 32).map fun i => if mask.getD i false then byteAt new i else byteAt old i

/-- A write of one sector, full or partial (R138, R139): the completion status and the next state. -/
def writeSector (sec : Nat) (data : Bytes) (mask : List Bool) (poison : Bool) (ecc : Ecc) (s : State) : Nat × State :=
  let chan := chanOf s (32 * sec)
  let s1 := updChan chan (fun c => { c with load := c.load + 1 }) s
  if (s.chan chan).failed then (St.POISON, s1)
  else if (mask.take 32).all id && mask.length ≥ 32 then
    (St.OK, stampSector sec (setPoison sec poison (putSector sec data s1)))
  else
    match sectorSeen s sec ecc with
    | (.uncorrectable, _) => (St.POISON, uncorrectableSector chan sec s1)
    | (e, old) =>
      let s2 := if e = .corrected then correctedSector chan sec s1 else s1
      if poisonedSec s sec then (St.POISON, s2)
      else (St.OK, stampSector sec (setPoison sec poison (putSector sec (mergeBytes old data mask) s2)))

/-! ## The adders (R147, R148) -/

/-- Element width in bytes of an ADD format: 0 FP32, 1 BF16, 2 INT32, 3 INT64 (R147; the codes are PRESUMED in that order). -/
def addWidth (fmt : Nat) : Nat := match fmt with | 0 => 4 | 1 => 2 | 2 => 4 | 3 => 8 | _ => 0

/-- One element sum (R70, R147): the code and the numeric status. -/
def addElem (fmt a d : Nat) : Nat × Nat :=
  match fmt with
  | 0 => f32Add a d
  | 1 =>
    let x := decode 1 a
    let y := decode 1 d
    let r := Num.add x y
    if x.isNan || y.isNan then (0x7FC0, NS.NANIN) else if r.isNan then (0x7FC0, NS.INV) else narrow 1 rne false 0 r
  | 2 => ((a + d) % 2 ^ 32, 0)
  | _ => ((a + d) % 2 ^ 64, 0)

/-- The sector after an ADD, and the OR of the statuses. -/
def addSector (fmt mask : Nat) (old addend : Bytes) : Bytes × Nat :=
  let w := addWidth fmt
  let r := (List.range (32 / w)).map fun i =>
    if bitOf mask i then addElem fmt (leAt old (w * i) w) (leAt addend (w * i) w) else (leAt old (w * i) w, 0)
  (r.flatMap fun p => toLe w p.1, r.foldl (fun a p => a ||| p.2) 0)

/-- A memory-side atomic add on one sector: status, numeric status, next state. -/
def addToSector (sec fmt mask : Nat) (addend : Bytes) (ecc : Ecc) (s : State) : Nat × Nat × State :=
  if fmt > 3 || mask ≥ 2 ^ (32 / addWidth fmt) then (St.MEM_BADREQ, 0, s)
  else
    let chan := chanOf s (32 * sec)
    let s1 := updChan chan (fun c => { c with load := c.load + 1 }) s
    if (s.chan chan).failed then (St.POISON, 0, s1)
    else
      match sectorSeen s sec ecc with
      | (.uncorrectable, _) => (St.POISON, 0, uncorrectableSector chan sec s1)
      | (e, old) =>
        let s2 := if e = .corrected then correctedSector chan sec s1 else s1
        if poisonedSec s sec then (St.POISON, 0, s2)
        else
          let (d, st) := addSector fmt mask old addend
          (St.OK, st, orReg Reg.MEM_NSTAT st (stampSector sec (putSector sec d s2)))

/-! ## Whole requests (R144) -/

/-- The physical address a request begins at, and whether it adds. -/
def MemReq.pa : MemReq → Nat
  | .read pa _ _ => pa
  | .write pa _ _ _ _ => pa
  | .add pa _ _ _ _ => pa
def MemReq.isAdd : MemReq → Bool
  | .add .. => true
  | _ => false

/-- The extent rule of R144: whole sectors within one unit, inside the stacks. -/
def MemReq.extentOk : MemReq → Bool
  | .read pa n _ => decide (pa % 32 = 0 ∧ 1 ≤ n ∧ n ≤ 8 ∧ pa % 256 + 32 * n ≤ 256 ∧ pa < stackBytes)
  | .write pa data _ _ _ => decide (pa % 32 = 0 ∧ 1 ≤ data.length ∧ data.length % 32 = 0 ∧ pa % 256 + data.length ≤ 256 ∧ pa < stackBytes)
  | .add pa _ _ _ _ => decide (pa % 32 = 0 ∧ pa < stackBytes)

/-- Sectors read one after another. -/
def readSectors (sec n : Nat) (ecc : List Ecc) (s : State) : Bytes × List Bool × State :=
  let r := (List.range n).foldl (fun (a : List Bytes × List Bool × State) i =>
    let (d, p, s1) := readSector (sec + i) (ecc.getD i .clean) a.2.2
    (d :: a.1, p :: a.2.1, s1)) ([], [], s)
  (r.1.reverse.flatten, r.2.1.reverse, r.2.2)

/-- Sectors written one after another; POISON when any of them completes so. -/
def writeSectors (sec : Nat) (data : Bytes) (mask : List Bool) (poison : Bool) (ecc : List Ecc) (s : State) : Nat × State :=
  (List.range (data.length / 32)).foldl (fun (a : Nat × State) i =>
    let (st, s1) := writeSector (sec + i) ((data.drop (32 * i)).take 32) ((mask.drop (32 * i)).take 32) poison (ecc.getD i .clean) a.2
    (if st = St.OK then a.1 else st, s1)) (St.OK, s)

/-- An answer returned to its source port. -/
def memAnswer (src : Nat) (m : MemResp) (s : State) : State :=
  { s with stk := { s.stk with answers := s.stk.answers ++ [(src, m)] } }

/-- A request of a source port takes effect (R145) and its answer is returned. -/
def memEffect (q : Nat × MemReq) (s : State) : State :=
  match q.2 with
  | .read pa n ecc =>
    let (d, p, s1) := readSectors (pa / 32) n ecc s
    memAnswer q.1 { data := d, poison := p, status := St.OK, nstat := 0 } s1
  | .write pa data mask poison ecc =>
    let (st, s1) := writeSectors (pa / 32) data mask poison ecc s
    memAnswer q.1 { data := [], poison := [], status := st, nstat := 0 } s1
  | .add pa addend fmt mask ecc =>
    let (st, ns, s1) := addToSector (pa / 32) fmt mask addend ecc s
    memAnswer q.1 { data := [], poison := [], status := st, nstat := ns } s1

/-- A request of a source port arrives at its controller and issues once its group has its draws and its channel is available (R144, R155,
R161). -/
def memRequest (i : Instr) (src : Nat) (r : MemReq) (s : State) : State :=
  if r.extentOk then poweredBy i (fun s => memEffect (src, r) (memDraws (chanOf s r.pa) r.isAdd s)) s
  else memAnswer src { data := [], poison := [], status := St.MEM_BADREQ, nstat := 0 } s

/-- The request of a source port that a command carries. -/
def memReqOf (i : Instr) : Option (Nat × MemReq) :=
  match i with
  | .memRead src pa n ecc => some (src, .read pa.toNat n ecc)
  | .memWrite src pa data mask poison ecc => some (src, .write pa.toNat data mask poison ecc)
  | .memAdd src pa addend fmt mask ecc => some (src, .add pa.toNat addend fmt mask.toNat ecc)
  | _ => none

/-- Requests waiting at the controllers for their group's draws or for their channel, in order of arrival, each with its source port (R155,
R161). -/
def memQueue (s : State) : List (Nat × MemReq) := s.held.filterMap fun h => memReqOf h.1

/-- MEM_READ (R137, R144). -/
def execMemRead (src : Nat) (pa : BitVec 40) (n : Nat) (ecc : List Ecc) (s : State) : Out :=
  when (stacksUp s) (memRequest (.memRead src pa n ecc) src (.read pa.toNat n ecc)) s

/-- MEM_WRITE (R139, R144). -/
def execMemWrite (src : Nat) (pa : BitVec 40) (data : Bytes) (mask : List Bool) (poison : Bool) (ecc : List Ecc) (s : State) : Out :=
  when (stacksUp s) (memRequest (.memWrite src pa data mask poison ecc) src (.write pa.toNat data mask poison ecc)) s

/-- MEM_ADD (R147). -/
def execMemAdd (src : Nat) (pa : BitVec 40) (addend : Bytes) (fmt : Nat) (mask : BitVec 16) (ecc : Ecc) (s : State) : Out :=
  when (stacksUp s) (memRequest (.memAdd src pa addend fmt mask ecc) src (.add pa.toNat addend fmt mask.toNat ecc)) s

/-! ## Upkeep -/

/-- The oldest corrected sector of a channel is written back (R137): its cells hold the corrected data again. -/
def writeBack1 (chan : Nat) (s : State) : State :=
  match (s.chan chan).wbq with
  | [] => s
  | sec :: r => updChan chan (fun c => { c with wbq := r }) (putSector sec (sectorSeen s sec .clean).2 s)

/-- CE_WRITEBACK (R137). -/
def execCeWriteback (chan : Fin 2048) (s : State) : Out := when (stacksUp s && !chanBusy s chan.val) (writeBack1 chan.val) s

/-- The oldest queued tag refresh of a channel rewrites its sector with the current AGE. -/
def tagRefresh1 (chan : Nat) (s : State) : State :=
  match (s.chan chan).tagq with
  | [] => s
  | sec :: r => stampSector sec (updChan chan (fun c => { c with tagq := r }) s)

/-- TAG_REFRESH (R141). -/
def execTagRefresh (chan : Fin 2048) (s : State) : Out := when (stacksUp s && !chanBusy s chan.val) (tagRefresh1 chan.val) s

/-- PATROL_SCRUB (R140): the next sector of the channel is read, corrected or poisoned as R137 requires. -/
def execPatrolScrub (chan : Fin 2048) (ecc : Ecc) (s : State) : Out :=
  when (stacksUp s && !(s.chan chan.val).failed && !chanBusy s chan.val) (fun s =>
    let sec := paOfLocal s chan.val (s.chan chan.val).scrub / 32
    let s1 := match (sectorSeen s sec ecc).1 with
      | .clean => s
      | .corrected => correctedSector chan.val sec s
      | .uncorrectable => uncorrectableSector chan.val sec s
    updChan chan.val (fun c => { c with scrub := (c.scrub + 1) % chanSectors }) s1) s

/-- Whether a channel goes ahead of its turn (R155). -/
def urgentChan (s : State) (c : Nat) : Bool :=
  let x := s.chan c
  let t := (s.stack (c / 256)).temp
  x.urgent || decide (t ≥ x.stepTemp + 5) || decide (x.stepTemp ≥ t + 5)

/-- The in-service channels of a stack in the order of their turns (R155). -/
def turnOrder (s : State) (st : Nat) : List Nat :=
  ((List.range 256).map fun i => st * 256 + ((s.stack st).turn + i) % 256).filter fun c => !(s.chan c).failed

/-- The channel of a stack that a slice retrains: one whose step failed in the slice before (R156), else the first that goes ahead of
its turn, else the one whose turn it is (R155). -/
def nextRetrain (s : State) (st : Nat) : Option Nat :=
  match (s.stack st).again with
  | c :: _ => some (st * 256 + c)
  | [] =>
    match (turnOrder s st).find? fun c => urgentChan s c with
    | some c => some c
    | none => (turnOrder s st).head?

/-- The regular steps of a slice fixed at its start. -/
def planSteps (s : State) : State :=
  (List.range 8).foldl (fun s i => updStack i (fun x => { x with step := (nextRetrain s i).map (· % 256) }) s)
    { s with stk := { s.stk with stepped := [], test := none } }

/-- The physical channel of a logical channel: the c-th that is not excluded (R159). -/
def physChan (s : State) (dev : Nat) : Nat :=
  let ex := s.dawn.excl.getD (dev / 256) 0
  (((List.range 264).filter fun p => !bitOf ex p).getD (dev % 256) 0)

/-- A retraining step's outcome (R155, R156): a step that failed is repeated in the next slice, unless the channel has failed. -/
def retrainOutcome (chan : Nat) (ok : Bool) (s : State) : State :=
  let redo := !ok && decide ((s.chan chan).failRun < 2) && !(s.chan chan).failed
  let s := updStack (chan / 256) (fun x => { x with again := x.again.filter (· ≠ chan % 256) ++ (if redo then [chan % 256] else []) }) s
  let s1 := count Reg.MEM_RETRAIN 32 1
    (updChan chan (fun c => { c with stepTemp := (s.stack (chan / 256)).temp, urgent := false }) s)
  if ok then updChan chan (fun c => { c with failRun := 0 }) s1
  else
    let n := (s.chan chan).failRun + 1
    let s2 := count Reg.MEM_RETRAIN_FAIL 32 1 (updChan chan (fun c => { c with failRun := n }) s1)
    if n ≥ 3 && !(s.chan chan).failed then
      raiseInt blkMem 2 (fault { code := 0x0003, inst := chan, arg0 := physChan s chan }
        (updChan chan (fun c => { c with failed := true }) s2))
    else s2

/-- Whether a channel's regular retraining step runs in this slice (R155). -/
def retrainDue (chan : Nat) (s : State) : Bool :=
  stacksUp s && s.clk.sliceDone && !s.stk.stepped.contains (chan / 256) && decide ((s.stack (chan / 256)).step = some (chan % 256))

/-- The end of a regular retraining step: after a step of the channel whose turn it was that is not repeated, the turn passes on. -/
def retrainStep (chan : Nat) (ok : Bool) (s : State) : State :=
  let st := chan / 256
  let s1 := retrainOutcome chan ok s
  let settled := ok || (s1.chan chan).failed
  let turned := settled && decide ((turnOrder s st).head? = some chan)
  updStack st (fun x => { x with turn := if turned then (chan + 1) % 256 else x.turn })
    { s1 with stk := { s1.stk with stepped := st :: s1.stk.stepped } }

/-- STACK_TEMP_SAMPLE (R154). -/
def execStackTempSample (stk : Fin 8) (temp : BitVec 8) (s : State) : Out :=
  when s.live (fun s =>
    let t := temp.toNat
    let s1 := updStack stk.val (fun x => { x with temp := t, saw85 := x.saw85 || decide (t ≥ 85), saw80 := x.saw80 || decide (t ≥ 80),
                                                  hot95 := decide (t ≥ 95) }) s
    if t ≥ 95 && !(s.stack stk.val).hot95 then raiseInt blkMem 3 (fault { code := 0x0004, inst := stk.val, arg0 := t } s1) else s1) s

/-- The hot state at the start of a slice (R154): 85 °C read since the last slice makes the stack hot, 64 frames without a
reading of 80 °C or more make it cool again.  Between samples the sensor still reads what it last read (DEDUCED). -/
def hotAtSlice (s : State) : State :=
  (List.range 8).foldl (fun s i => updStack i (fun x =>
    let x1 :=
      if x.saw85 then { x with hot := true, cool := 0 }
      else if x.hot then
        let n := if x.saw80 then 0 else x.cool + 1
        if n ≥ 64 then { x with hot := false, cool := 0 } else { x with cool := n }
      else x
    { x1 with saw85 := decide (x1.temp ≥ 85), saw80 := decide (x1.temp ≥ 80) }) s) s

/-- The refresh of every stack for one frame (R153). -/
def refreshFrame (s : State) : State :=
  (List.range 8).foldl (fun s i =>
    updStack i (fun x => { x with refresh := (x.refresh + refreshCommands x.hot s.clk.len) % 512 }) s) s

/-- DAWN_CHANNEL_REFRESH (R157): before the frame clock first locks or enters FREERUN, one command of the controller's own timer. -/
def execDawnChannelRefresh (chan : Fin 2048) (s : State) : Out :=
  when (stacksUp s && decide (s.dawn.outcome = 0) && decide (s.clk.lock = .acquiring))
    (updChan chan.val fun c => { c with refresh := (c.refresh + 1) % 512 }) s

/-- The ratio of a busiest count to a mean total / n, 8 fraction bits.  DESIGN CHOICE (log 119): the spec gives no rounding; the ratio, which
is compared with THRESH as the register holds it, and MEM_CHLOAD.MEAN are rounded down, and the ratio is 0 where nothing was counted. -/
def skewRatio (busiest total n : Nat) : Nat := if total = 0 then 0 else satTo 16 (busiest * 256 * n / total)

/-- The channel skew of a work window (R152). -/
def memSkew (s : State) : State :=
  let inS := (List.range 2048).filter fun c => !(s.chan c).failed
  let load := fun c => (s.chan c).load
  let total := sumNat (inS.map load)
  let top := inS.foldl (fun b c => if load c > load b then c else b) (inS.headD 0)
  let ratio := skewRatio (load top) total inS.length
  let run := if ratio > regField s Reg.MEM_SKEW_CFG 15 0 then satTo 5 (s.stk.skewRun + 1) else 0
  let s1 := { s with stk := { s.stk with
    ratio := ratio, busiest := top, skewRun := run, mean := if inS.length = 0 then 0 else total / inS.length,
    chans := Tbl.mapv s.stk.chans fun _ c => { c with last := c.load, load := 0 } } }
  if ratio > regField s Reg.MEM_SKEW_CFG 15 0 && run ≥ regField s Reg.MEM_SKEW_CFG 20 16 then raiseInt blkMem 1 s1 else s1

/-- The last request to a group, or the last ADD (R161). -/
def groupUse (group : Nat) (adder : Bool) (s : State) : Nat :=
  if adder then Tbl.look s.stk.use (4096 + group) 0
  else (List.range 32).foldl (fun m i => max m (Tbl.look s.stk.use (32 * group + i) 0)) (Tbl.look s.stk.use (8400 + group) 0)

/-- Whether a group can come to return a draw: it holds it, and no request, or no ADD, waits. -/
def groupIdle (group : Nat) (adder : Bool) (s : State) : Bool :=
  s.live && holds (if adder then Owner.memAdder group else Owner.memGroup group) s &&
    (memQueue s).all fun q => decide (chanOf s q.2.pa / 32 ≠ group) || (adder && !q.2.isAdd)

end Sys2Proof.Machine
end

