-- ==== Sys2Proof/Machine/Range.lean ====
section
/-! DEFINITION. The unified range: pages and translation, reads, writes and adds of a job's addresses, the host tier and its
line cache (R163 to R165, R168, R178 to R184). -/

namespace Sys2Proof.Machine

/-! ## Pages -/

def pageBytes : Nat := 2 ^ 21
def rangeBytes : Nat := 2 ^ 48

/-- The key of a page of a job. -/
def pageKey (j vpn : Nat) : Nat := j * 2 ^ 27 + vpn

def State.page? (s : State) (j vpn : Nat) : Option Page := Tbl.look? s.urng.pages (pageKey j vpn)
def putPage (j vpn : Nat) (p : Page) (s : State) : State :=
  { s with urng := { s.urng with pages := Tbl.put s.urng.pages (pageKey j vpn) p } }
def delPage (j vpn : Nat) (s : State) : State :=
  { s with urng := { s.urng with pages := Tbl.del s.urng.pages (pageKey j vpn) } }

/-- Where a sector of a job's address lies. -/
inductive Loc where
  | stack (pa : Nat)
  | owned (hpa : Nat)
  | shared (hpa : Nat)
  deriving DecidableEq, Repr

def Backing.at (b : Backing) (off : Nat) : Loc :=
  match b with
  | .stack f => .stack (f * pageBytes + off)
  | .owned f => .owned (f * pageBytes + off)
  | .shared f => .shared (f * pageBytes + off)

/-- Translation (R164): in a migrating page a sub-block already copied lies at the destination, every other one at the source
(R178). -/
def locOf (s : State) (j va : Nat) : Option Loc :=
  if va ≥ rangeBytes then none
  else
    match s.page? j (va / pageBytes) with
    | none => none
    | some p =>
      let off := va % pageBytes
      match p.dest with
      | some d => if off / 65536 < p.moved then some (d.at off) else some (p.back.at off)
      | none => some (p.back.at off)

/-- The pieces of [va, va + n) that lie in one sector each: first address and length. -/
def pieces (va n : Nat) : List (Nat × Nat) :=
  if n = 0 then []
  else (List.range ((va + n - 1) / 32 - va / 32 + 1)).map fun i =>
    let lo := max va ((va / 32 + i) * 32)
    let hi := min (va + n) ((va / 32 + i + 1) * 32)
    (lo, hi - lo)

/-- The first address of a span that is not mapped. -/
def firstUnmapped (s : State) (j va n : Nat) : Option Nat :=
  ((pieces va n).find? fun p => (locOf s j p.1).isNone).map (·.1)

/-- A refused access recorded (R165, R178): ADDR, JOB, CAUSE, VALID of URNG_FAULTREC. -/
def urngFault (j va cause : Nat) (s : State) : State :=
  raiseInt blkUrng 0 (setReg Reg.URNG_FAULTREC (va % 2 ^ 48 + j * 2 ^ 48 + cause * 2 ^ 54 + 2 ^ 56) s)

/-! ## The host tier (R180 to R184) -/

/-- A touch of the line engine (R173). -/
def hostTouch (hpa : Nat) (s : State) : State := sendTouch lineSource (hostSubKey hpa) s

def hostPoisoned (s : State) (hpa : Nat) : Bool := (Tbl.look? s.urng.hpoison (hpa / 32)).isSome
def setHostPoison (sec : Nat) (p : Bool) (s : State) : State :=
  { s with urng := { s.urng with hpoison := if p then Tbl.put s.urng.hpoison sec () else Tbl.del s.urng.hpoison sec } }

/-- The plaintext of a device-owned host byte; undefined until the job writes it (R168). -/
def ownedByte (s : State) (a : Nat) : Byte := Tbl.look s.urng.owned a (Config.undefByte a)
def ownedBytes (s : State) (a n : Nat) : Bytes := (List.range n).map fun i => ownedByte s (a + i)

/-- The bytes a shared line holds: the cached copy, else host memory. -/
def lineBytes (s : State) (line : Nat) : Bytes :=
  match Tbl.look? s.urng.lines line with
  | some l => l.data
  | none => hostRead s (64 * line) 64

/-- A CXL.cache request sent (R181). -/
def sendCxl (r : CxlReq) (line : Nat) (s : State) : State := { s with urng := { s.urng with requests := (r, line) :: s.urng.requests } }

/-- A line given up; the host has its data, if modified. -/
def giveLine (line : Nat) (s : State) : State :=
  match Tbl.look? s.urng.lines line with
  | none => s
  | some l =>
    let s1 := { s with urng := { s.urng with lines := Tbl.del s.urng.lines line } }
    if l.modified then hostWrite (64 * line) l.data s1 else s1

/-- A line leaves the cache: a modified one by DirtyEvict, a clean one by CleanEvict (R181). -/
def evictLine (line : Nat) (s : State) : State :=
  match Tbl.look? s.urng.lines line with
  | none => s
  | some l => sendCxl (if l.modified then .dirtyEvict else .cleanEvict) line (giveLine line s)

/-- The request that makes a shared line the device's own, unless it holds it so (RdOwn, R181). -/
def ownLine (line : Nat) (s : State) : State :=
  match Tbl.look? s.urng.lines line with
  | some l => if l.excl then s else sendCxl .rdOwn line s
  | none => sendCxl .rdOwn line s

/-- A line enters the cache of 65,536 lines (R182); a full cache first drops its lowest line (DESIGN CHOICE). -/
def putLine (line : Nat) (l : HostLine) (s : State) : State :=
  let s1 :=
    if (Tbl.look? s.urng.lines line).isNone && decide (s.urng.lines.length ≥ 65536) then
      match s.urng.lines with
      | [] => s
      | (k, _) :: _ => evictLine k s
    else s
  { s1 with urng := { s1.urng with lines := Tbl.put s1.urng.lines line l } }

/-- The XTS key pair of the job that owns a host frame. -/
def xtsKeyOf (s : State) (hpa : Nat) : Bytes :=
  match Tbl.look? s.urng.hframes (hpa / pageBytes) with
  | some k => ((s.job? (k / 2 ^ 27)).map (·.xtsKey)).getD []
  | none => []

/-- A full device-owned line rests encrypted in host memory (ItoMWr, R181, R183). -/
def sealLine (line : Nat) (s : State) : State :=
  sendCxl .itoMWr line (hostWrite (64 * line) (Config.xtsEnc (xtsKeyOf s (64 * line)) line (ownedBytes s (64 * line) 64)) s)

/-- Plaintext written into a device-owned page; part of a line is a read of the line and a full-line write (R180). -/
def writeOwned (hpa : Nat) (bs : Bytes) (s : State) : State :=
  let o := (List.range bs.length).foldl (fun m i => Tbl.put m (hpa + i) (byteAt bs i)) s.urng.owned
  let s1 := if bs.length < 64 then sendCxl .rdCurr (hpa / 64) s else s
  sealLine (hpa / 64) { s1 with urng := { s1.urng with owned := o } }

/-- Bytes written into a shared line (RdOwn, then held modified, R181). -/
def writeShared (hpa : Nat) (bs : Bytes) (s : State) : State :=
  let line := hpa / 64
  putLine line { modified := true, excl := true, data := patch (lineBytes s line) (hpa % 64) bs } (ownLine line s)

/-! ## Reads, writes and adds of a job's addresses -/

/-- One piece of a read: data, poison, next state. -/
def readPiece (l : Loc) (n : Nat) (s : State) : Bytes × Bool × State :=
  match l with
  | .stack pa =>
    let s0 := memDraws (chanOf s pa) false s
    let (d, p, s1) := readSector (pa / 32) .clean s0
    (slice d (pa % 32) n, p, s1)
  | .owned hpa =>
    let p := hostPoisoned s hpa
    let s1 := sendCxl .rdCurr (hpa / 64) (hostTouch hpa (lineDraw s))
    (ownedBytes s hpa n, p, if p then count Reg.MEM_POISON 32 1 s1 else s1)
  | .shared hpa =>
    let p := hostPoisoned s hpa
    let s1 := hostTouch hpa (lineDraw s)
    let d := slice (lineBytes s (hpa / 64)) (hpa % 64) n
    let s2 := if (Tbl.look? s.urng.lines (hpa / 64)).isNone then
        putLine (hpa / 64) { modified := false, excl := false, data := lineBytes s (hpa / 64) } (sendCxl .rdShared (hpa / 64) s1) else s1
    (d, p, if p then count Reg.MEM_POISON 32 1 s2 else s2)

/-- The byte mask of a piece inside its sector, and the sector image. -/
def pieceMask (off n : Nat) : List Bool := (List.range 32).map fun i => decide (off ≤ i ∧ i < off + n)
def pieceImage (off : Nat) (bs : Bytes) : Bytes := patch (zeros 32) off bs

/-- The poison of a host-tier sector written: clean data clears its own, poisoned data is sent as a line with the CXL data poison indication,
which poisons both sectors (R178, R463). -/
def linePoison (hpa : Nat) (poison : Bool) (s : State) : State :=
  if poison then setHostPoison (hpa / 64 * 2 + 1) true (setHostPoison (hpa / 64 * 2) true s) else setHostPoison (hpa / 32) false s

/-- One piece of a write: status and next state. -/
def writePiece (l : Loc) (bs : Bytes) (poison : Bool) (s : State) : Nat × State :=
  match l with
  | .stack pa =>
    let s0 := memDraws (chanOf s pa) false s
    writeSector (pa / 32) (pieceImage (pa % 32) bs) (pieceMask (pa % 32) bs.length) poison .clean s0
  | .owned hpa =>
    let s1 := hostTouch hpa (lineDraw s)
    if bs.length < 32 && hostPoisoned s hpa then (St.POISON, s1)
    else (St.OK, linePoison hpa poison (writeOwned hpa bs s1))
  | .shared hpa =>
    let s1 := hostTouch hpa (lineDraw s)
    if bs.length < 32 && hostPoisoned s hpa then (St.POISON, s1)
    else (St.OK, linePoison hpa poison (writeShared hpa bs s1))

/-- Whether a span of a job's range touches the COPYING sub-block of a direction's migration. -/
def copyingIn (up : Bool) (j va n : Nat) (s : State) : Bool :=
  match s.mig up with
  | some m =>
    let lo := m.vpn * pageBytes + 65536 * m.copied
    m.copying && !m.done && decide (m.job = j) && decide (n ≠ 0) && decide (va < lo + 65536 ∧ lo < va + n)
  | none => false

/-- An access to a COPYING sub-block noted: it waits (R178). -/
def copyWait (j va n : Nat) (s : State) : State :=
  let s1 := if copyingIn true j va n s then markUse (copyKey true) s else s
  if copyingIn false j va n s1 then markUse (copyKey false) s1 else s1

/-- An access that met a poisoned host-tier line is recorded (R165, R178, R191). -/
def hostMet (j va : Nat) (l : Loc) (bad : Bool) (s : State) : State :=
  match l with
  | .stack _ => s
  | .owned _ => if bad then urngFault j va 2 s else s
  | .shared _ => if bad then urngFault j va 2 s else s

/-- Whether a location lies in the host tier. -/
def Loc.isHost (l : Loc) : Bool := match l with | .stack _ => false | .owned _ => true | .shared _ => true

/-- The other sector of the 64-byte line that an address lies in. -/
def lineMate (a : Nat) : Nat := if a % 64 < 32 then a / 64 * 64 + 32 else a / 64 * 64

/-- The outcome of a read of a job's addresses. -/
inductive RdRes where
  | ok (data : Bytes) (poison : List Nat) (s : State)
  | unmapped (va : Nat) (s : State)

/-- A read of `n` bytes of a job's range: data and the addresses of the sectors read poisoned; an unmapped page refuses it
before it reaches any memory (R165). -/
def rangeRead (j va n : Nat) (s : State) : RdRes :=
  match firstUnmapped s j va n with
  | some a => .unmapped a (urngFault j a 1 s)
  | none =>
    let r := (pieces va n).foldl (fun (a : List Bytes × List Nat × State) p =>
      match locOf a.2.2 j p.1 with
      | none => a
      | some l =>
        let (d, ps, s1) := readPiece l p.2 a.2.2
        (d :: a.1, if ps then p.1 :: a.2.1 else a.2.1, hostMet j p.1 l ps s1)) ([], [], copyWait j va n s)
    .ok r.1.reverse.flatten r.2.1.reverse r.2.2

/-- The outcome of a write: the addresses of sectors that completed POISON. -/
inductive WrRes where
  | ok (bad : List Nat) (s : State)
  | unmapped (va : Nat) (s : State)

/-- Whether a piece at `a` of a write of [va, va + n) is poisoned: in the host tier with any piece of its line. -/
def pieceBad (va n : Nat) (poison : Nat → Bool) (l : Loc) (a : Nat) : Bool :=
  poison a || (l.isHost && decide (va < lineMate a + 32 ∧ lineMate a < va + n) && poison (max va (lineMate a)))

/-- A write of bytes to a job's range; `poison` says for each piece, by its first address, whether its source is poisoned. -/
def rangeWriteP (j va : Nat) (bs : Bytes) (poison : Nat → Bool) (s : State) : WrRes :=
  match firstUnmapped s j va bs.length with
  | some a => .unmapped a (urngFault j a 1 s)
  | none =>
    let r := (pieces va bs.length).foldl (fun (a : List Nat × State) p =>
      match locOf a.2 j p.1 with
      | none => a
      | some l =>
        let (st, s1) := writePiece l (slice bs (p.1 - va) p.2) (pieceBad va bs.length poison l p.1) a.2
        (if st = St.OK then a.1 else p.1 :: a.1, hostMet j p.1 l (decide (st ≠ St.OK)) s1)) ([], copyWait j va bs.length s)
    .ok r.1.reverse r.2

def rangeWrite (j va : Nat) (bs : Bytes) (s : State) : WrRes := rangeWriteP j va bs (fun _ => false) s

/-- The state after a read or a write, whatever its outcome. -/
def RdRes.state : RdRes → State
  | .ok _ _ s => s
  | .unmapped _ s => s
def WrRes.state : WrRes → State
  | .ok _ s => s
  | .unmapped _ s => s

/-- An atomic add on a sector of a job's range (R147, R180): status, numeric status, next state. -/
def rangeAdd (j va fmt mask : Nat) (addend : Bytes) (s0 : State) : Nat × Nat × State :=
  let s := copyWait j va 32 s0
  match locOf s j va with
  | none => (St.LKP_ACCESS, 0, urngFault j va 1 s)
  | some (.stack pa) => addToSector (pa / 32) fmt mask addend .clean (memDraws (chanOf s pa) true s)
  | some l =>
    if fmt > 3 || mask ≥ 2 ^ (32 / addWidth fmt) then (St.MEM_BADREQ, 0, s)
    else
      let (d, p, s1) := readPiece l 32 s
      if p then (St.POISON, 0, hostMet j va l true s1)
      else
        let (d1, st) := addSector fmt mask d addend
        let (c, s2) := writePiece l d1 false s1
        (c, st, orReg Reg.MEM_NSTAT st s2)

/-- Every shared line the device holds modified becomes visible to the host (row 1 of R344). -/
def evictDirty (s : State) : State :=
  s.urng.lines.foldl (fun s p => if p.2.modified then evictLine p.1 s else s) s

/-! ## Frames -/

/-- Stack frames of the pool (R170): those of in-service stacks above the reserve of 4,096. -/
def State.freeFrames (s : State) : Nat := s.urng.pool - s.urng.frames.length

/-- The lowest free stack frame (DESIGN CHOICE). -/
def freeFrame (s : State) : Option Nat :=
  ((List.range (s.urng.frames.length + 1)).map (4096 + ·)).find? fun f =>
    (Tbl.look? s.urng.frames f).isNone && decide (f < 4096 + s.urng.pool)

/-- Whether a host frame lies in a list of regions (first frame, count). -/
def inRegions (rs : List (Nat × Nat)) (f : Nat) : Bool := rs.any fun r => decide (r.1 ≤ f ∧ f < r.1 + r.2)

def State.hostTotal (s : State) : Nat := sumNat (s.urng.regions.map (·.2))
def State.hostFree (s : State) : Nat := s.hostTotal - s.urng.hframes.length

/-- The lowest free host frame outside the regions being removed (DESIGN CHOICE). -/
def freeHostFrame (s : State) : Option Nat :=
  s.urng.regions.findSome? fun r =>
    ((List.range (min r.2 (s.urng.hframes.length + sumNat (s.urng.leaving.map (·.2)) + 1))).map (r.1 + ·)).find? fun f =>
      (Tbl.look? s.urng.hframes f).isNone && !inRegions s.urng.leaving f

/-- Stack frames a job holds. -/
def heldFrames (s : State) (j : Nat) : Nat :=
  (s.urng.frames.filter fun p => decide (p.2 / 2 ^ 27 = j)).length

/-- Pinned pages of a job. -/
def pinned (s : State) (j : Nat) : Nat :=
  (s.urng.pages.filter fun p => decide (p.1 / 2 ^ 27 = j) && p.2.pin).length

/-- The units of a span of stack addresses in which a write changes an AGE. -/
def staleUnits (lo n : Nat) (s : State) : List Nat :=
  if s.urng.stamp = 0 ∧ s.stk.age.all (fun p => decide (p.1 < lo / 32 ∨ p.1 ≥ (lo + n) / 32)) then []
  else (List.range (n / 256)).filter fun u => (List.range 8).any fun i => decide (ageOf s (lo / 32 + 8 * u + i) ≠ s.urng.stamp)

/-- `n` sectors more on each of `k` channels from channel `c` on. -/
def addLoads (n : Nat) (k c : Nat) (t : Tbl Chan) : Tbl Chan :=
  match k, t with
  | 0, t => t
  | k + 1, [] => (c, { Chan.init with load := n }) :: addLoads n k (c + 1) []
  | k + 1, (i, x) :: r =>
    if i = c then (c, { x with load := x.load + n }) :: addLoads n k (c + 1) r
    else (c, { Chan.init with load := n }) :: addLoads n k (c + 1) ((i, x) :: r)

/-- Every channel of every group asked for: a frame lies on all of them, 32 sectors on each (R142). -/
def frameDraws (s : State) : State :=
  let s1 := (List.range 64).foldl (fun s g => needDraw (8400 + g) s) s
  { s1 with stk := { s1.stk with chans := addLoads 32 2048 0 s1.stk.chans } }

/-- A stack frame written with zeros (R166, R169): data 0, poison cleared, AGE the current stamp, with its touches (R173). -/
def zeroFrame (f : Nat) (s00 : State) : State :=
  let lo := f * pageBytes
  let n := pageBytes
  let s0 := frameDraws s00
  let s := (staleUnits lo n s0).foldl (fun s u => sendTouch (chanOf s (lo + 256 * u)) (subKey (lo + 256 * u)) s) s0
  let out := fun (a : Nat) (k : Nat) => decide (a < lo / k ∨ a ≥ (lo + n) / k)
  let age0 := s.stk.age.filter fun p => out p.1 32
  let mid := if s.urng.stamp = 0 then [] else (List.range (n / 32)).map fun i => (lo / 32 + i, s.urng.stamp)
  { s with stk := { s.stk with
    bytes := s.stk.bytes.filter fun p => out p.1 1
    poison := s.stk.poison.filter fun p => out p.1 32
    flips := s.stk.flips.filter fun p => out p.1 32
    age := (age0.filter fun p => decide (p.1 < lo / 32)) ++ mid ++ (age0.filter fun p => decide (p.1 ≥ lo / 32)) } }

/-- A stack frame taken for a page. -/
def takeFrame (f j vpn : Nat) (s : State) : State :=
  { s with urng := { s.urng with frames := Tbl.put s.urng.frames f (pageKey j vpn) } }
/-- HTFULL when the free host-tier frames have reached 0 (R191). -/
def noteHostFree (was : Nat) (s : State) : State := if s.hostFree = 0 && decide (was > 0) then raiseInt blkUrng 2 s else s

def takeHost (f j vpn : Nat) (s : State) : State :=
  noteHostFree s.hostFree { s with urng := { s.urng with hframes := Tbl.put s.urng.hframes f (pageKey j vpn) } }

/-- Every line of a host frame that the host-line cache holds is given up. -/
def evictFrame (f : Nat) (s : State) : State :=
  (s.urng.lines.filter fun p => decide (p.1 / 32768 = f)).foldl (fun s p => evictLine p.1 s) s

/-- A frame of a page freed: a stack frame is zeroed when it is granted again (R169, R187), a host frame is not written (R187). -/
def freeBacking (b : Backing) (s : State) : State :=
  match b with
  | .stack f => { s with urng := { s.urng with frames := Tbl.del s.urng.frames f } }
  | .owned f =>
    { s with urng := { s.urng with
        hframes := Tbl.del s.urng.hframes f,
        owned := s.urng.owned.filter fun p => decide (p.1 < f * pageBytes ∨ p.1 ≥ (f + 1) * pageBytes) } }
  | .shared f =>
    let s1 := evictFrame f s
    { s1 with urng := { s1.urng with hframes := Tbl.del s1.urng.hframes f } }

/-- The summary key of sub-block 0 of a backing. -/
def Backing.sub0 : Backing → Nat
  | .stack f => 32 * f
  | .owned f => 2 ^ 45 + 32 * f
  | .shared f => 2 ^ 45 + 32 * f

/-- All 32 entries of a frame COLD (R174). -/
def coldPage (b : Backing) (s : State) : State :=
  { s with urng := { s.urng with summary := s.urng.summary.filter fun p => decide (p.1 < b.sub0 ∨ p.1 ≥ b.sub0 + 32) } }

/-- A mapped page. -/
def Page.new (b : Backing) (pin : Bool) : Page :=
  { back := b, pin := pin, dest := none, moved := 0, hitNow := false, hitLast := false }

end Sys2Proof.Machine
end

