-- ==== Sys2Proof/Machine/Tiers.lean ====
section
/-! DEFINITION. The range commands, age, the clock hand, migration and the host tier's own events (R166 to R190), and DATA_IN
and COPY (R330, R332). -/

namespace Sys2Proof.Machine

/-! ## MAP and UNMAP (R166 to R169) -/

/-- A page range that is well formed: aligned, 1 to 2^27 pages, inside the range. -/
def spanOk (start count : Nat) : Bool :=
  decide (start % pageBytes = 0) && decide (1 ≤ count) && decide (count ≤ 2 ^ 27) && decide (start + count * pageBytes ≤ rangeBytes)

/-- What MAP finds for a page. -/
inductive Place where
  | frame (b : Backing)
  | wait
  | full
  deriving DecidableEq, Repr

/-- Whether an eviction is under way: it has its host frame and frees a stack frame (R175, R177). -/
def evictionRuns (s : State) : Bool :=
  match s.urng.down with
  | some m => (match m.src with | .stack _ => true | _ => false)
  | none => false

/-- Whether an eviction can bring a stack frame: one is under way, or a host frame is free for one. -/
def canEvict (s : State) : Bool := evictionRuns s || (freeHostFrame s).isSome

/-- Where a page is placed (R167). -/
def placePage (j : Nat) (job : Job) (shared pin : Bool) (s : State) : Place :=
  let held := heldFrames s j
  let host := fun (mk : Nat → Backing) => match freeHostFrame s with | some f => Place.frame (mk f) | none => .full
  if shared then host .shared
  else if pin || decide (held < job.floor) then
    match freeFrame s with
    | some f => if held < job.ceil then .frame (.stack f) else if canEvict s then .wait else .full
    | none => if canEvict s then .wait else .full
  else if held < job.ceil && decide (s.freeFrames > 1024) then
    match freeFrame s with
    | some f => .frame (.stack f)
    | none => host .owned
  else host .owned

/-- A page mapped to the frame found for it, with all entries COLD (R174); a stack page is zeroed under the job's key (R143, R166). -/
def mapPage (j vpn : Nat) (pin : Bool) (b : Backing) (s : State) : State :=
  let s1 := match b with
    | .stack f => zeroFrame f (takeFrame f j vpn s)
    | .owned f => takeHost f j vpn s
    | .shared f => takeHost f j vpn s
  putPage j vpn (Page.new b pin) (coldPage b s1)

/-- A job below its floor, or a PIN page, needs frames: the hand evicts with its threshold at 0 (R167, R171, R175). -/
def wantFrames (s : State) : State := { s with urng := { s.urng with thresh := 0, evicting := true, wants := true } }

/-- The pages of a MAP placed one after another: the state with all of them, or why not. -/
def mapAll (j : Nat) (job : Job) (shared pin : Bool) (vpn : Nat) (n : Nat) (s : State) : Except Place State :=
  match n with
  | 0 => .ok s
  | n + 1 =>
    match placePage j job shared pin s with
    | .frame b => mapAll j job shared pin (vpn + 1) n (mapPage j vpn pin b s)
    | p => .error p

/-- MAP of a queue's head tried: it completes, or waits while the hand evicts with its threshold at 0 (R167). -/
def mapTry (q : Nat) (c : Cmd) (s : State) : State :=
  let j := c.job
  let start := c.opnd 0 8
  let count := c.opnd 8 4
  let shared := bitOf (c.opnd 12 1) 0
  let pin := bitOf (c.opnd 12 1) 1
  match s.job? j with
  | none => endHead q St.BADJOB 0 0 s
  | some job =>
    if !spanOk start count || (shared && pin) then endHead q St.URNG_BADREQ 0 0 s
    else
      let vpn := start / pageBytes
      if s.urng.pages.any fun p => decide (pageKey j vpn ≤ p.1 ∧ p.1 < pageKey j (vpn + count)) then endHead q St.URNG_OVERLAP 0 0 s
      else if pin && decide (pinned s j + count > job.floor) then endHead q St.PIN_LIMIT 0 0 s
      else
        match mapAll j job shared pin vpn count s with
        | .ok s1 => endHead q St.OK 0 0 s1
        | .error .wait => wantFrames s
        | .error _ => endHead q St.HTIER_FULL 0 0 s

/-- MAP (R167). -/
def execMap (q : Fin 128) (s : State) : Out := runJobP (.map q) q Op.MAP (mapTry q) s

/-- UNMAP (R169): accepted here, its effect follows at a tick. -/
def execUnmap (q : Fin 128) (s : State) : Out :=
  runJob q Op.UNMAP (fun c s =>
    if spanOk (c.opnd 0 8) (c.opnd 8 4) then
      { s with urng := { s.urng with unmaps := s.urng.unmaps ++
        [{ job := c.job, vpn := c.opnd 0 8 / pageBytes, count := c.opnd 8 4, queue := q, cid := c.cid }] } }
    else endHead q St.URNG_BADREQ 0 0 s) s

/-- A page unmapped: its frames are freed, a migration of it ends. -/
def dropPage (key : Nat) (p : Page) (s : State) : State :=
  let s1 := freeBacking p.back { s with urng := { s.urng with pages := Tbl.del s.urng.pages key } }
  let s2 := match p.dest with | some d => freeBacking d s1 | none => s1
  let stop := fun (m : Option Mig) =>
    match m with
    | some x => if pageKey x.job x.vpn = key && !x.done then none else some x
    | none => none
  let s3 := { s2 with urng := { s2.urng with up := stop s2.urng.up, down := stop s2.urng.down,
                                             victim := if s2.urng.victim = some key then none else s2.urng.victim } }
  let back := fun (b : Bool) (was now : Option Mig) (s : State) =>
    if was.isSome && now.isNone then ledgerReturn (.migration b) s else s
  back true s2.urng.up s3.urng.up (back false s2.urng.down s3.urng.down s3)

/-- The pages of a span of a job unmapped; pages not mapped are passed over. -/
def unmapSpan (j vpn count : Nat) (s : State) : State :=
  (s.urng.pages.filter fun p => decide (pageKey j vpn ≤ p.1 ∧ p.1 < pageKey j (vpn + count))).foldl
    (fun s p => dropPage p.1 p.2 s) s

/-- Whether a chunk of a job is suspended by force or halted by the debug port (R169). -/
def jobHeldChunk (s : State) (j : Nat) : Bool :=
  s.units.any fun p =>
    let of := fun (c : Option Chunk) =>
      match c with
      | some ch => (s.queue ch.queue).cmds.any fun x => decide (x.cid = ch.cid) && decide (x.job = j)
      | none => false
    (p.2.forced.any fun c => of (some c)) || (p.2.halted && of p.2.run)

/-! ## The host tier's regions -/

def overlaps (a n b m : Nat) : Bool := decide (a < b + m ∧ b < a + n)

/-- HTIER_ADD (R166). -/
def execHtierAdd (q : Fin 128) (s : State) : Out :=
  runNow q Op.HTIER_ADD (fun c s =>
    let base := c.opnd 0 8
    let size := c.opnd 8 8
    let f := base / pageBytes
    let n := size / pageBytes
    if base % pageBytes ≠ 0 ∨ size % pageBytes ≠ 0 ∨ s.urng.regions.any (fun r => overlaps f n r.1 r.2) then (St.URNG_BADREQ, 0, s)
    else if s.hostTotal + n > 4194304 then (St.HTIER_LIMIT, 0, s)
    else if n = 0 then (St.OK, 0, s)
    else (St.OK, 0, { s with urng := { s.urng with
      regions := insertBy (fun a b => decide (a.1 < b.1)) (f, n) s.urng.regions } })) s

/-- A region less a span. -/
def cutRegion (r : Nat × Nat) (f n : Nat) : List (Nat × Nat) :=
  (if r.1 < f then [(r.1, min r.2 (f - r.1))] else []) ++
  (if r.1 + r.2 > f + n then [(max r.1 (f + n), r.1 + r.2 - max r.1 (f + n))] else [])

/-- The granted parts of a span. -/
def grantedParts (s : State) (f n : Nat) : List (Nat × Nat) :=
  s.urng.regions.filterMap fun r =>
    let lo := max r.1 f
    let hi := min (r.1 + r.2) (f + n)
    if lo < hi then some (lo, hi - lo) else none

/-- The host frames in use inside a span. -/
def usedIn (s : State) (f n : Nat) : List Nat := s.urng.hframes.filterMap fun p => if f ≤ p.1 ∧ p.1 < f + n then some p.1 else none

/-- The condition of R176 under which a page goes to the stack. -/
def promotable (s : State) (j : Nat) (p : Page) : Bool :=
  match s.job? j with
  | some job =>
    let held := heldFrames s j
    p.hitNow && p.hitLast && (decide (held < job.floor) || (decide (held < job.ceil) && decide (s.freeFrames > 1024)))
  | none => false

/-- The destination of a page that may migrate now in a direction. -/
def migDest (s : State) (up : Bool) (j vpn : Nat) (p : Page) : Option Backing :=
  if p.dest.isSome then none
  else
    match up, p.back with
    | true, .owned f =>
      if promotable s j p && !inRegions s.urng.leaving f then (freeFrame s).map Backing.stack else none
    | false, .stack _ =>
      if s.urng.victim = some (pageKey j vpn) then (freeHostFrame s).map Backing.owned else none
    | false, .owned f =>
      if inRegions s.urng.leaving f then
        if promotable s j p && (freeFrame s).isSome then (freeFrame s).map Backing.stack else (freeHostFrame s).map Backing.owned
      else none
    | false, .shared f => if inRegions s.urng.leaving f then (freeHostFrame s).map Backing.shared else none
    | _, _ => none

/-- Whether a host frame is the source of a migration that has not freed it yet (R177 step 3). -/
def leavingFrame (s : State) (h : Nat) : Bool :=
  let of := fun (m : Option Mig) => match m with
    | some x => (match x.src with | .owned f => decide (f = h) | .shared f => decide (f = h) | .stack _ => false)
    | none => false
  of s.urng.up || of s.urng.down

/-- Whether some page of a region can move out of it now, or is moving out of it (R186). -/
def canLeave (s : State) (f n : Nat) : Bool :=
  s.urng.hframes.any fun h => decide (f ≤ h.1 ∧ h.1 < f + n) &&
    (leavingFrame s h.1 ||
     match Tbl.look? s.urng.pages h.2 with
     | some p => p.dest.isSome || (migDest s false (h.2 / 2 ^ 27) (h.2 % 2 ^ 27) p).isSome
     | none => false)

/-- HTIER_REMOVE looked at again (R186): released once the region holds no page; HTIER_FULL when no frame is free that one of its pages may
move to. -/
def removeTry (q : Nat) (c : Cmd) (s : State) : State :=
  let f := c.opnd 0 8 / pageBytes
  let n := c.opnd 8 8 / pageBytes
  let leave := fun (s : State) => { s with urng := { s.urng with leaving := s.urng.leaving.filter fun r => !(overlaps f n r.1 r.2) } }
  if usedIn s f n = [] && s.urng.down.isNone then
    let s1 := leave s
    endHead q St.OK 0 0 (noteHostFree s1.hostFree { s1 with urng := { s1.urng with regions := s1.urng.regions.flatMap fun r => cutRegion r f n } })
  else if !canLeave s f n && s.urng.down.isNone then endHead q St.HTIER_FULL 0 0 (leave s)
  else s

/-- HTIER_REMOVE (R186). -/
def execHtierRemove (q : Fin 128) (s : State) : Out :=
  runHead q Op.HTIER_REMOVE (fun c s =>
    if c.opnd 0 8 % pageBytes ≠ 0 ∨ c.opnd 8 8 % pageBytes ≠ 0 then endHead q St.URNG_BADREQ 0 0 s
    else
      let f := c.opnd 0 8 / pageBytes
      let n := c.opnd 8 8 / pageBytes
      removeTry q c { s with urng := { s.urng with leaving := s.urng.leaving ++ grantedParts s f n } }) s

/-! ## HANDBACK and ADOPT (R185) -/

/-- Whether a sector is known poisoned. -/
def locPoisoned (s : State) (l : Loc) : Bool :=
  match l with
  | .stack pa => poisonedSec s (pa / 32)
  | .owned hpa => hostPoisoned s hpa
  | .shared hpa => hostPoisoned s hpa

/-- One sector moved from a place to a place, poison carried (R178); toward the host tier with the poison of its whole line (R463), whose
other sector comes from `mate`. -/
def copySector (src mate dst : Loc) (s : State) : State :=
  let (d, p, s1) := readPiece src 32 s
  (writePiece dst d (p || (dst.isHost && locPoisoned s1 mate)) s1).2

/-- Sectors `lo` to `lo + n` of a page copied from one backing to another. -/
def copySectors (src dst : Backing) (lo n : Nat) (s : State) : State :=
  (List.range n).foldl (fun s i =>
    copySector (src.at (32 * (lo + i))) (src.at (lineMate (32 * (lo + i)))) (dst.at (32 * (lo + i))) s) s

/-- The pages of a span. -/
def spanPages (s : State) (j vpn count : Nat) : List (Option Page) := (List.range count).map fun i => s.page? j (vpn + i)

/-- The touches of an access to every line of a host frame (R173): one for each sub-block passes the filter. -/
def touchFrame (f : Nat) (s : State) : State := (List.range 32).foldl (fun s i => hostTouch (f * pageBytes + 65536 * i) s) s

/-- The requests that turn the lines of a device-owned frame into plaintext (R181), newest first: each read (RdCurr), then written as a
shared line (RdOwn, DirtyEvict). -/
def plainCxl (f : Nat) : List (CxlReq × Nat) :=
  (List.range 32768).reverse.flatMap fun i =>
    [(.dirtyEvict, f * 32768 + i), (.rdOwn, f * 32768 + i), (.rdCurr, f * 32768 + i)]

/-- One page handed back: in plaintext, shared. -/
def handbackPage (j vpn : Nat) (s : State) : Option State :=
  match s.page? j vpn with
  | none => none
  | some p =>
    match p.back with
    | .shared _ => none
    | .owned f =>
      let bytes := ownedBytes s (f * pageBytes) pageBytes
      let s1 := hostWrite (f * pageBytes) bytes { s with urng := { s.urng with
        owned := s.urng.owned.filter fun c => decide (c.1 < f * pageBytes ∨ c.1 ≥ (f + 1) * pageBytes)
        requests := plainCxl f ++ s.urng.requests } }
      some (lineDraw (touchFrame f (putPage j vpn { p with back := .shared f, pin := false } s1)))
    | .stack _ =>
      match freeHostFrame s with
      | none => none
      | some f =>
        let s1 := takeHost f j vpn s
        let s2 := evictDirty (copySectors p.back (.shared f) 0 65536 s1)
        some (putPage j vpn { p with back := .shared f, pin := false } (freeBacking p.back
          { s2 with urng := { s2.urng with victim := if s2.urng.victim = some (pageKey j vpn) then none else s2.urng.victim } }))

/-- The pages of a HANDBACK, one after another. -/
def handbackAll (j vpn n : Nat) (s : State) : Option State :=
  match n with
  | 0 => some s
  | n + 1 => (handbackPage j vpn s).bind fun s1 => handbackAll j (vpn + 1) n s1

/-- HANDBACK tried: it waits for any migration of its pages. -/
def handbackTry (q : Nat) (c : Cmd) (s : State) : State :=
  let j := c.job
  let vpn := c.opnd 0 8 / pageBytes
  let n := c.opnd 8 4
  if !spanOk (c.opnd 0 8) n then endHead q St.URNG_BADREQ 0 0 s
  else
    let ps := spanPages s j vpn n
    let ok := ps.all fun p => match p with | some x => (match x.back with | .shared _ => false | _ => true) | none => false
    if !ok then endHead q St.URNG_BADREQ 0 0 s
    else if ps.any fun p => match p with | some x => x.dest.isSome | none => false then s
    else
      match handbackAll j vpn n s with
      | some s1 => endHead q St.OK 0 0 s1
      | none => endHead q St.HTIER_FULL 0 0 s

/-- Commands that waited for a frame or for a migration are to be looked at again. -/
def retryRange (s : State) : State := { s with urng := { s.urng with again := true } }

/-- One such command tried; where what it reaches is not ready, it is tried again at the next cycle (R161, R190). -/
def rangeTry (f : State → State) (s : State) : State := settleUse (fun _ => retryRange) s (f (unused s))

/-- They are looked at, in the order of their queues. -/
def rangeCycle (s0 : State) : State :=
  if !s0.urng.again then s0
  else
    let s := { s0 with urng := { s0.urng with wants := false, again := false } }
    s.enabled.foldl (fun s q =>
      match headOf s q with
      | some c =>
        if c.life = .running && c.faultReq.isNone then
          if c.opcode = Op.MAP then rangeTry (mapTry q c) s
          else if c.opcode = Op.HTIER_REMOVE then removeTry q c s
          else if c.opcode = Op.HANDBACK then rangeTry (handbackTry q c) s
          else s
        else s
      | none => s) s

/-- The effect of accepted UNMAPs at a tick (R169); commands that waited for frames or for a migration go on. -/
def unmapEffects (s : State) : State :=
  if s.urng.unmaps = [] then s else retryRange <| s.urng.unmaps.foldl (fun s u =>
    if jobHeldChunk s u.job then s
    else
      let s1 := unmapSpan u.job u.vpn u.count s
      endCid u.queue u.cid St.OK 0 0 { s1 with urng := { s1.urng with unmaps := s1.urng.unmaps.filter (· ≠ u) } }) s

/-- HANDBACK (R185). -/
def execHandback (q : Fin 128) (s : State) : Out := runJobP (.handback q) q Op.HANDBACK (handbackTry q) s

/-- A line of a host frame becomes the device's own: written as its plaintext, and no longer held in the host-line cache. -/
def adoptLine (line : Nat) (s : State) : State :=
  writeOwned (64 * line) (lineBytes s line) { ownLine line s with urng := { (ownLine line s).urng with lines := Tbl.del s.urng.lines line } }

/-- Every line of a host frame. -/
def adoptLines (f : Nat) (s : State) : State := (List.range 32768).foldl (fun s i => adoptLine (f * 32768 + i) s) s

/-- One page adopted: every line read at its newest and rewritten encrypted, the page device-owned; the line engine does the work (R190). -/
def adoptPage (j vpn : Nat) (s : State) : State :=
  match s.page? j vpn with
  | some p =>
    match p.back with
    | .shared f =>
      putPage j vpn { p with back := .owned f } (adoptLines f (touchFrame f (lineDraw s)))
    | _ => s
  | none => s

/-- ADOPT (R185). -/
def execAdopt (q : Fin 128) (s : State) : Out :=
  runJobNowP (.adopt q) q Op.ADOPT (fun c s =>
    let vpn := c.opnd 0 8 / pageBytes
    let n := c.opnd 8 4
    let ok := spanOk (c.opnd 0 8) n && (spanPages s c.job vpn n).all fun p =>
      match p with
      | some x => (match x.back with | .shared _ => x.dest.isNone | _ => false)
      | none => false
    if ok then (St.OK, 0, (List.range n).foldl (fun s i => adoptPage c.job (vpn + i) s) s) else (St.URNG_BADREQ, 0, s)) s

/-! ## Age (R172 to R174) -/

/-- STAMP_ADVANCE (R172): at a tick whose frame number is a multiple of the age period, once. -/
def execStampAdvance (s : State) : Out :=
  when (s.clocked && s.clk.stepsDone && decide (s.clk.fnum % s.urng.period = 0) && decide (s.urng.stampAt ≠ some s.clk.fnum)) (fun s =>
    { s with
      urng := { s.urng with
        stamp := (s.urng.stamp + 1) % 8, stampAt := some s.clk.fnum,
        pages := Tbl.mapv s.urng.pages fun _ p => { p with hitLast := p.hitNow, hitNow := false } }
      stk := { s.stk with chans := Tbl.mapv s.stk.chans fun _ c => { c with touched := [] } } }) s

/-- The page a summary key belongs to. -/
def pageOfSub (s : State) (sub : Nat) : Option Nat :=
  if sub ≥ 2 ^ 45 then Tbl.look? s.urng.hframes ((sub - 2 ^ 45) / 32) else Tbl.look? s.urng.frames (sub / 32)

/-- TOUCH (R173): a touch on its way reaches the migration engine. -/
def execTouch (chan sub : Nat) (s : State) : Out :=
  when (s.clocked && s.stk.touches.contains (chan, sub)) (fun s =>
    let s1 := { s with
      stk := { s.stk with touches := s.stk.touches.erase (chan, sub) }
      urng := { s.urng with summary := Tbl.put s.urng.summary sub s.urng.stamp } }
    match pageOfSub s sub with
    | some k => { s1 with urng := { s1.urng with pages := Tbl.upd s1.urng.pages k fun p => { p with hitNow := true } } }
    | none => s1) s

/-- The age of a summary entry (R174): COLD counts as 6. -/
def entryAge (stamp e : Nat) : Nat := if e ≥ 8 then 6 else (stamp + 8 - e) % 8

/-- A page's age: the smallest among its sub-blocks. -/
def pageAge (s : State) (b : Backing) : Nat :=
  (List.range 32).foldl (fun m i => min m (entryAge s.urng.stamp (Tbl.look s.urng.summary (b.sub0 + i) 8))) 7

/-- The hand's place of a page: stack frames first, then host frames, each in frame order. -/
def handPlace (b : Backing) : Nat := b.sub0 / 32

/-- The mapped page the hand reaches next: its place and key. -/
def nextVisit (s : State) : Option (Nat × Nat) :=
  let all := s.urng.frames.map (fun p => (p.1, p.2)) ++ s.urng.hframes.map (fun p => (2 ^ 40 + p.1, p.2))
  match all.find? fun p => decide (p.1 ≥ s.urng.hand) with
  | some p => some p
  | none => all.head?

/-- The hand visits the next mapped page: old entries become COLD, and a victim is chosen while free frames are being restored; a
revolution without one lowers the threshold (R174, R175). -/
def handVisit (s : State) : State :=
  match nextVisit s with
  | none => s
  | some (place, key) =>
    let wrapped := decide (place < s.urng.hand)
    let free := s.freeFrames
    let evicting := s.urng.wants || (if s.urng.evicting then decide (free < 2048) else decide (free < 1024))
    -- the end of a revolution
    let dry := wrapped && evicting && !s.urng.found
    let fail := dry || (wrapped && evicting && (freeHostFrame s).isNone)
    let thresh := if s.urng.wants then 0 else if !evicting then 6 else if dry && decide (s.urng.thresh > 2) then s.urng.thresh - 1 else s.urng.thresh
    let s1 := { s with urng := { s.urng with hand := place + 1, evicting := evicting, thresh := thresh,
                                             found := if wrapped then false else s.urng.found } }
    let s2 := if fail then raiseInt blkUrng 1 (count Reg.URNG_EVICTFAIL 32 1 s1) else s1
    match Tbl.look? s.urng.pages key with
    | none => s2
    | some p =>
      let sub := 32 * place
      let summary := (List.range 32).foldl (fun t i =>
        if entryAge s.urng.stamp (Tbl.look t (sub + i) 8) ≥ 6 then Tbl.del t (sub + i) else t) s2.urng.summary
      let s3 := { s2 with urng := { s2.urng with summary := summary } }
      let j := key / 2 ^ 27
      let isStack := match p.back with | .stack _ => true | _ => false
      let overFloor := match s.job? j with | some job => decide (heldFrames s j > job.floor) | none => false
      if evicting && s3.urng.victim.isNone && s3.urng.down.isNone && isStack && !p.pin && p.dest.isNone && overFloor &&
          decide (pageAge s p.back ≥ thresh) && (freeHostFrame s).isSome then
        { s3 with urng := { s3.urng with victim := some key, found := true } }
      else s3

/-- HAND_VISIT (R174, R175): where eviction for a waiting MAP cannot proceed because no host frame is free, the MAP is refused (R167). -/
def execHandVisit (s : State) : Out :=
  when s.clocked (fun s => let s1 := handVisit s; if s1.urng.wants && !canEvict s1 then retryRange s1 else s1) s

/-! ## Migration (R177) -/

def migDraw (s : State) : Nat := if s.evening then 4 else 6

/-- Whether requests accepted at the source still wait for the next sub-block (R177 step 2). -/
def sourceBusy (m : Mig) (s : State) : Bool :=
  match m.src with
  | .stack f =>
    let lo := f * pageBytes + 65536 * m.copied
    (memQueue s).any fun q => decide (lo ≤ q.2.pa ∧ q.2.pa < lo + 65536)
  | _ => false

/-- Whether requests are still in flight to the source frame (R177 step 3). -/
def frameBusy (m : Mig) (s : State) : Bool :=
  match m.src with
  | .stack f => (memQueue s).any fun q => decide (q.2.pa / pageBytes = f)
  | _ => false

/-- The next sub-block of a migration is COPYING once nothing accepted at the source waits for it. -/
def beginCopy (up : Bool) (s : State) : State :=
  match s.mig up with
  | some m => if m.done || m.copying || sourceBusy m s then s else setMig up (some { m with copying := true }) s
  | none => s

/-- A promotion that a job below its floor is always granted, though no frame is free: the hand evicts for it (R171, R175). -/
def wantsPromotion (s : State) (up : Bool) (j : Nat) (p : Page) : Bool :=
  up && p.dest.isNone && promotable s j p && (freeFrame s).isNone && (match p.back with | .owned _ => true | _ => false)

/-- MIGRATION_START (R177 step 1): the engine reserves its draws, then marks the page migrating; none starts in Dusk (R188). -/
def execMigrationStart (up : Bool) (job : Fin 64) (vpn : Nat) (s : State) : Out :=
  let busy := if up then s.urng.up.isSome else s.urng.down.isSome
  when (s.clocked && !busy && s.power.dusk.isNone) (fun s =>
    match s.page? job vpn with
    | none => s
    | some p =>
      match migDest s up job vpn p with
      | none => if wantsPromotion s up job p then wantFrames s else s
      | some d =>
        let s1 := reserve (.migration up) 1 (migDraw s) s
        if holds (.migration up) s1 then
          let m : Mig := { job := job, vpn := vpn, src := p.back, dest := d, copied := 0, copying := false, done := false }
          let s2 := match d with | .stack f => takeFrame f job vpn s1 | .owned f => takeHost f job vpn s1 | .shared f => takeHost f job vpn s1
          let s3 := putPage job vpn { p with dest := some d, moved := 0 } s2
          beginCopy up (if up then { s3 with urng := { s3.urng with up := some m } }
            else { s3 with urng := { s3.urng with down := some m, victim := none } })
        else s1) s

/-- MIGRATION_SUBBLOCK_COPIED (R177 steps 2 and 3): the COPYING 64 KiB are at the destination, and the next sub-block follows; after
sub-block 31 the page table names the destination. -/
def execMigrationSubblockCopied (up : Bool) (s : State) : Out :=
  whenP (.migrationSubblockCopied up) s.clocked (fun s =>
    match s.mig up with
    | none => s
    | some m =>
      if m.done || !m.copying then s
      else
        let s1 := copySectors m.src m.dest (2048 * m.copied) 2048 s
        let n := m.copied + 1
        match s1.page? m.job m.vpn with
        | none => s1
        | some p =>
          if n < 32 then beginCopy up <| setMig up (some { m with copied := n, copying := false }) (putPage m.job m.vpn { p with moved := n } s1)
          else
            setMig up (some { m with copied := n, copying := false, done := true })
              (putPage m.job m.vpn { p with back := m.dest, dest := none, moved := 0 } s1)) s

/-- MIGRATION_SOURCE_FREED (R177 step 3, R190): once nothing is in flight to it, the source frame is freed and the draws return. -/
def execMigrationSourceFreed (up : Bool) (s : State) : Out :=
  when s.clocked (fun s =>
    match s.mig up with
    | none => s
    | some m =>
      if !m.done || frameBusy m s then s
      else
        let s1 := ledgerReturn (.migration up) (setMig up none (freeBacking m.src s))
        let s2 :=
          match m.src, m.dest with
          | .stack _, _ => count Reg.URNG_EVICT 32 1 s1
          | _, .stack _ => count Reg.URNG_PROMOTE 32 1 s1
          | _, _ => s1
        retryRange s2) s

/-! ## The host tier's events -/

/-- A host-tier line that returned poisoned or with an error (R178): recorded, counted, and reported where it is created. -/
def hostPoisonSeen (j va hpa : Nat) (s : State) : State :=
  let known := hostPoisoned s hpa
  let s1 := urngFault j va 2 (count Reg.MEM_POISON 32 1 (setHostPoison (hpa / 32 / 2 * 2 + 1) true (setHostPoison (hpa / 32 / 2 * 2) true s)))
  if known then s1 else fault { code := 0x0005, job := some j, addr := va, arg0 := hpa } s1

/-- A device-owned line as the host returned it: unchanged ciphertext leaves the plaintext as it is, another line decrypts to
whatever it decrypts to (R184). -/
def ownedFill (line : Nat) (data : Bytes) (s : State) : State :=
  if hostRead s (64 * line) 64 = data then s
  else
    let pt := Config.xtsDec (xtsKeyOf s (64 * line)) line data
    let o := (List.range 64).foldl (fun m i => Tbl.put m (64 * line + i) (byteAt pt i)) s.urng.owned
    hostWrite (64 * line) data { s with urng := { s.urng with owned := o } }

/-- The bytes of a masked write that a line takes: of a poisoned sector written in part, none (R139, R180). -/
def lineMask (line : Nat) (mask : List Bool) (s : State) : List Bool :=
  (List.range 64).map fun i =>
    mask.getD i false &&
      (!hostPoisoned s (64 * line + i) || (List.range 32).all fun k => mask.getD (i / 32 * 32 + k) false)

/-- The bytes written, with the poison of the sectors written whole cleared (R138). -/
def hostLineWrite (line : Nat) (shared : Bool) (mask : List Bool) (data : Bytes) (s : State) : State :=
  let whole := fun (k : Nat) => (List.range 32).all fun i => mask.getD (32 * k + i) false
  let s1 := (List.range 2).foldl (fun s k => if whole k then setHostPoison (2 * line + k) false s else s) s
  if mask.all (!·) then s1
  else if shared then
    let d := (List.range 64).map fun i => if mask.getD i false then byteAt data i else byteAt (lineBytes s1 line) i
    putLine line { modified := true, excl := true, data := d } (ownLine line s1)
  else
    let s2 := if mask.all id then s1 else sendCxl .rdCurr line s1
    (List.range 64).foldl (fun s i => if mask.getD i false then
      { s with urng := { s.urng with owned := Tbl.put s.urng.owned (64 * line + i) (byteAt data i) } } else s) s2 |> sealLine line

/-- HOST_LINE_RESPONSE (R180): the line a request waits for arrives; the line engine completes the request. -/
def execHostLineResponse (job : Fin 64) (va : BitVec 48) (write : Bool) (data : Bytes) (mask : List Bool) (poison : Bool) (s : State) : Out :=
  whenP (.hostLineResponse job va write data mask poison) (s.clocked && s.link.cache) (fun s =>
    let fill := fun (hpa : Nat) (shared : Bool) (s : State) =>
      let s0 := hostTouch hpa (copyWait job va.toNat 1 (lineDraw s))
      let s1 := if poison then hostPoisonSeen job va.toNat hpa s0 else setHostPoison (hpa / 64 * 2 + 1) false (setHostPoison (hpa / 64 * 2) false s0)
      if write then hostLineWrite (hpa / 64) shared (lineMask (hpa / 64) mask s1) data s1
      else if poison then s1
      else if shared then
        if (Tbl.look? s1.urng.lines (hpa / 64)).isSome then s1
        else putLine (hpa / 64) { modified := false, excl := false, data := slice data 0 64 }
          (sendCxl .rdShared (hpa / 64) (hostWrite (hpa / 64 * 64) (slice data 0 64) s1))
      else ownedFill (hpa / 64) (slice data 0 64) (sendCxl .rdCurr (hpa / 64) s1)
    match locOf s job va.toNat with
    | some (.owned hpa) => fill hpa false s
    | some (.shared hpa) => fill hpa true s
    | _ => s) s

/-- CXL_SNOOP (R182): a host snoop of a shared line. -/
def execCxlSnoop (kind : Snoop) (line : Nat) (s : State) : Out :=
  when (s.live && s.link.cache) (fun s =>
    let answer := fun (r : SnoopResp) (s : State) => { s with urng := { s.urng with snoop := r } }
    match Tbl.look? s.urng.lines line with
    | none => answer { hit := false, data := none } s
    | some l =>
      let d := if l.modified then some l.data else none
      match kind with
      | .snpInv => answer { hit := true, data := d } (giveLine line s)
      | .snpData =>
        answer { hit := true, data := d }
          (putLine line { l with modified := false, excl := false } (if l.modified then hostWrite (64 * line) l.data s else s))
      | .snpCur => answer { hit := true, data := some l.data } s) s

/-! ## DATA_IN and COPY (R330, R332) -/

/-- DATA_IN (R330): the payload's bytes written to the job's range; its ring slots are consumed when they are. -/
def execDataIn (q : Fin 128) (s : State) : Out :=
  runHeadP (.dataIn q) q Op.DATA_IN (fun c s =>
    let done := fun (st res : Nat) (s : State) => consume q c.cid (endHead q st 0 res s)
    match jobRefusal s c with
    | some st => done st 0 s
    | none =>
      let n := c.opnd 8 4
      if n = 0 ∨ n > c.body.length then done St.URNG_BADREQ 0 s
      else
        match rangeWrite c.job (c.opnd 0 8) (c.body.take n) s with
        | .unmapped _ s1 => done St.URNG_BADREQ 0 s1
        | .ok [] s1 => done St.OK 0 s1
        | .ok (_ :: _) s1 => done St.POISON 0 s1) s

/-- COPY (R332): the whole source is read before any byte is written; poison travels with the bytes (R463). -/
def execCopy (q : Fin 128) (s : State) : Out :=
  runJobNowP (.copy q) q Op.COPY (fun c s =>
    let src := c.opnd 0 8
    let dst := c.opnd 8 8
    let n := c.opnd 16 8
    if n = 0 ∨ n > 2 ^ 40 then (St.URNG_BADREQ, 0, s)
    else
      match rangeRead c.job src n s with
      | .unmapped _ s1 => (St.URNG_BADREQ, 0, s1)
      | .ok data bad s1 =>
        let hit := fun (d : Nat) =>
          -- a destination piece draws on source bytes [lo, hi)
          let lo := src + (max d dst - dst)
          let hi := src + (min ((d / 32 + 1) * 32) (dst + n) - dst)
          bad.any fun b => decide (b < hi ∧ lo < (b / 32 + 1) * 32)
        match rangeWriteP c.job dst data hit s1 with
        | .unmapped _ s2 => (St.URNG_BADREQ, 0, s2)
        | .ok w s2 =>
          match bad, w with
          | b :: _, _ => (St.POISON, b, s2)
          | [], b :: _ => (St.POISON, b, s2)
          | [], [] => (St.OK, 0, s2)) s

end Sys2Proof.Machine
end

