-- ==== Sys2Proof/Machine/Zorben.lean ====
section
/-! DEFINITION. Zorben: ports and training, flits, credits, the transmit store, spraying, the checks every arriving message
passes, reach and census (R284 to R320). -/

namespace Sys2Proof.Machine

/-! ## Ports -/

def State.port (s : State) (p : Nat) : Port := Tbl.look s.zor.ports p Port.init
def setPort (p : Nat) (x : Port) (s : State) : State := { s with zor := { s.zor with ports := Tbl.put s.zor.ports p x } }
def updPort (p : Nat) (f : Port → Port) (s : State) : State := setPort p (f (s.port p)) s

/-- In service (R286). -/
def Port.up (p : Port) : Bool := p.state == 2 || p.state == 3

/-- The plan's entry of a port (R284). -/
def State.portPlan (s : State) (p : Nat) : ManPort := s.dawn.man.ports.getD p ⟨0, 2⟩

/-- The in-service port that holds a used link. -/
def portOfLink (s : State) (l : Nat) : Option Nat :=
  (s.zor.ports.find? fun p => p.2.up && decide (p.2.link = some l)).map (·.1)

/-- This device's address (R296). -/
def State.addr (s : State) : Nat := s.dawn.man.devAddr

/-- The rank table entry of a rank; this device's own rank is `j.rank`. -/
def Job.addrOf (j : Job) (r : Nat) : Nat := j.ranks.getD r 0

/-- Whether links carry messages: served, and not in Night or a FATAL state. -/
def State.linked (s : State) : Bool := s.served

/-! ## Slots and shares (R38 to R41, R266, R267) -/

/-- The slot in progress, once it has begun and its guard is over. -/
def slotNow (s : State) : Option Nat :=
  if s.slotLen = 0 then none
  else
    let n := s.pos / s.slotLen
    if n < 64 ∧ s.pos % s.slotLen ≥ 64 ∧ s.dtr.slot = some (s.clk.fnum, n) then some n else none

/-- The plan entries of a collective for a slot.  DESIGN CHOICE (log 129): an entry is used for the job whose record carries it; what its JOB
field names otherwise changes nothing. -/
def slotEnts (s : State) (j coll slot : Nat) : List SlotEnt :=
  match s.job? j with
  | none => []
  | some x => if x.planOn then x.slots.filter fun e => decide (e.coll = coll) && decide (e.slot = slot) else []

/-- Links and shares of a collective's entries in a slot, in ascending link order, those in service. -/
def slotLinks (s : State) (j coll slot : Nat) : List (Nat × Nat) :=
  let es := slotEnts s j coll slot
  (List.range 32).filterMap fun l =>
    match es.find? fun e => bitOf e.links l with
    | some e => if (portOfLink s l).isSome then some (l, e.share) else none
    | none => none

/-- The payload bytes a share of a link carries in a slot (R38, R41, R300): half as many at width 2. -/
def shareBytes (s : State) (l share : Nat) : Nat :=
  let half := match portOfLink s l with | some p => decide ((s.port p).state = 3) | none => false
  (share + 1) * (s.slotLen - 64) * 125 * 236 / (128 * 16) / (if half then 2 else 1)

/-- The key of a job's collective. -/
def collKey (j coll : Nat) : Nat := 65536 * j + coll

/-- Payload bytes of a collective sent on a link in the current slot. -/
def shareUsed (s : State) (l j coll : Nat) : Nat :=
  match portOfLink s l with
  | some p => Tbl.look (s.port p).share (collKey j coll) 0
  | none => 0

/-- Whether the next flit of a message may leave on a link: one bound to slots only in a slot of its collective, within the share, and while
its job's dense traffic goes on (R24, R41, R266). -/
def slotOpen (s : State) (l : Nat) (m : TxMsg) : Bool :=
  match m.bound with
  | none => true
  | some b =>
    denseFree s b.job &&
      match slotNow s with
      | none => false
      | some n =>
        match (slotLinks s b.job b.coll n).find? fun e => decide (e.1 = l) with
        | none => false
        | some e => decide (shareUsed s l b.job b.coll + 236 ≤ shareBytes s l e.2)

/-! ## The transmit store (R299, R304, R307) -/

/-- The context a JOBID belongs to; 64 stands for device messages. -/
def ctxOf (s : State) (jobid : Nat) : Nat :=
  if jobid = 0 then 64 else ((s.jobs.find? fun p => decide (p.2.jobid = jobid)).map (·.1)).getD 64

/-- Whether a plane may carry a message to a destination: its link is in service and the pair is not marked (R299). -/
def planeUsable (s : State) (dst p : Nat) : Bool := (portOfLink s p).isSome && (Tbl.look? s.zor.reach (32 * dst + p)).isNone

/-- Flits waiting on a plane in a channel. -/
def queuedFlits (s : State) (p vc : Nat) : Nat :=
  sumNat (s.zor.store.filterMap fun m => if m.plane = some p ∧ m.vc = vc then some (m.flits - m.placed) else none)

/-- The plane for one message (R299). -/
def spray (s : State) (ks : Word64) (dst snum vc : Nat) : Option Nat :=
  let h := (mix (ks ^^^ BitVec.ofNat 64 (dst * 2 ^ 48) ^^^ BitVec.ofNat 64 snum)).toNat
  let c1 := h % 32
  let c2 := h / 32 % 32
  if planeUsable s dst c1 && planeUsable s dst c2 then
    some (if queuedFlits s c2 vc < queuedFlits s c1 vc then c2 else c1)
  else if planeUsable s dst c1 then some c1
  else if planeUsable s dst c2 then some c2
  else ((List.range 31).map fun i => (c1 + i + 1) % 32).find? fun p => planeUsable s dst p

/-- The spray key of a context (R299): the device's own for device messages. -/
def sprayKey (s : State) (ctx : Nat) : Word64 := if ctx < 64 then Tbl.look s.zor.sprayKeys ctx 0 else s.stk.kd

/-- A message queued for a plane: a fresh send number is taken (R299); with no usable plane it is held. -/
def sprayMsg (m : TxMsg) (s : State) : TxMsg × State :=
  let ctx := ctxOf s m.jobid
  let n := Tbl.look s.zor.snum ctx 0
  match spray s (sprayKey s ctx) m.dst n m.vc with
  | some p => ({ m with plane := some p, snum := some n }, { s with zor := { s.zor with snum := Tbl.put s.zor.snum ctx (n + 1) } })
  | none => ({ m with plane := none, snum := none }, s)

/-- Flits of a message: envelope, encrypted part and tag in payloads of 236 B (R289, R292). -/
def msgFlits (len : Nat) : Nat := ceilDiv (len + 48) 236

/-- The 32 B envelope (R292). -/
def TxMsg.envelope (m : TxMsg) (src : Nat) : Bytes :=
  let n := m.nonce.getD (0, 0)
  toLe 2 m.dst ++ toLe 2 src ++ toLe 4 m.jobid ++ toLe 3 (m.hdr.length + m.body.length) ++
  toLe 1 (b2n m.enc + 2 * b2n m.resent) ++ toLe 2 m.oseq ++ toLe 2 m.stream ++ toLe 4 m.fseq ++ toLe 4 n.1 ++ toLe 6 n.2 ++ zeros 2

/-- The nonce of R304. -/
def gcmNonce (src frame ctr : Nat) : Bytes := toLe 2 src ++ toLe 6 frame ++ toLe 4 ctr

/-- The bytes of a message on the link (R292, R304). -/
def TxMsg.image (m : TxMsg) (s : State) : Bytes :=
  let env := m.envelope s.addr
  let text := m.hdr ++ m.body
  if m.enc then
    let key := (s.session (ctxOf s m.jobid)).linkKey
    let n := m.nonce.getD (0, 0)
    let iv := gcmNonce s.addr n.1 n.2
    env ++ Config.gcmSeal key iv env text ++ toLe 16 (Config.gcmTag key iv env text).toNat
  else env ++ text ++ zeros 16

/-- One flit of a message. -/
def flitPayload (img : Bytes) (i : Nat) : Bytes := slice img (236 * i) 236

/-! ## Transmission (R290, R298, R302, R319) -/

/-- Whether a message belongs to the dense traffic that stops in LOST (R278). -/
def denseMsg (m : TxMsg) : Bool := [0x08, 0x60, 0x61, 0x62, 0x63].contains (leAt m.hdr 0 2)

/-- Whether nothing holds a message's traffic back: dense messages stop, begun or not, from LOST until their job goes on (R24, R278). -/
def msgFree (s : State) (m : TxMsg) : Bool := !denseMsg m || denseFree s (ctxOf s m.jobid)

/-- Whether a message may begin: its job has sent fewer messages in this frame than R304 allows, and dense traffic is not stopped. -/
def mayBegin (s : State) (m : TxMsg) : Bool :=
  decide (Tbl.look s.zor.nctr (ctxOf s m.jobid) 0 < 2 ^ 32 - 1) && msgFree s m

/-- The message whose flit is next on a link's channel: the one begun, since its flits follow one another (R292), else the oldest that may
begin. -/
def nextOf (s : State) (l vc : Nat) : Option TxMsg :=
  let mine := fun (m : TxMsg) => decide (m.plane = some l) && decide (m.vc = vc) && decide (m.placed < m.flits)
  match s.zor.store.find? fun m => mine m && decide (0 < m.placed) with
  | some m => if msgFree s m && slotOpen s l m then some m else none
  | none => s.zor.store.find? fun m => mine m && mayBegin s m && slotOpen s l m

/-- The channel served next on a link (R298); 0 stands for a waiting control flit. -/
def nextVc (s : State) (p : Port) (l : Option Nat) : Option Nat :=
  let credit := fun (v : Nat) => decide (p.credits.getD v 0 > 0)
  if p.ctl != [] && credit 0 then some 0
  else if s.flt.fatal then none
  else
    match l with
    | none => none
    | some l =>
      if !holds (.link l) s then none
      else
        let ready := fun (v : Nat) => credit v && (nextOf s l v).isSome
        if ready 1 then some 1
        else if ready 2 then some 2
        else if ready 4 && (decide (p.rr ≥ 3) || !ready 3) then some 4
        else if ready 3 then some 3
        else none

/-- Credits owed for one channel go back with the flit that leaves (R302). -/
def returnOwed (owed : List Nat) : List Nat :=
  match owed.findIdx? (· > 0) with
  | some i => owed.set i 0
  | none => owed

/-- A flit on the wire: it acknowledges what has come in order, carries a NAK that is due, and returns the credits of one channel (R289,
R290, R302). -/
def Port.emit (kind vc : Nat) (som eom : Bool) (lseq : Nat) (payload : Bytes) (x : Port) : Port :=
  let cvc := (x.owed.findIdx? (· > 0)).getD 0
  let f : WireFlit := { kind := kind, vc := vc, som := som, eom := eom, lseq := lseq, ack := (x.lseqRx + 4095) % 4096, nak := x.nakDue,
                        cvc := cvc, cred := x.owed.getD cvc 0, payload := payload }
  { x with wire := f :: x.wire, nakDue := false, unacked := 0, owed := returnOwed x.owed }

/-- An idle flit: acknowledgements and credits only. -/
def Port.idle (x : Port) : Port := x.emit 0 0 false false 0 []

/-- A message or control flit sent for the first time: it takes the next LSEQ and a credit, and stays in the replay buffer (R290). -/
def Port.sendNew (vc : Nat) (som eom : Bool) (m : Option (Nat × Nat)) (pl : Bytes) (x : Port) : Port :=
  let y := x.emit (if m.isSome then 1 else 2) vc som eom x.lseqTx pl
  { y with replay := x.replay ++ [{ lseq := x.lseqTx, msg := m, payload := pl, replays := 0, vc := vc, som := som, eom := eom }],
           lseqTx := (x.lseqTx + 1) % 4096, credits := x.credits.modify vc (· - 1), tx := satTo 64 (x.tx + 1) }

/-- A replayed flit on the wire (R290). -/
def Port.sendAgain (x : Port) (f : TxFlit) : Port := x.emit (if f.msg.isSome then 1 else 2) f.vc f.som f.eom f.lseq f.payload

/-- The device's receive buffers, in flits (R298): what it advertises in LINK_HELLO.  It moves every flit out at link rate (R302), so between
commands they are empty and each flit accepted is a credit owed. -/
def ownBufs : List Nat := [16, 512, 1024, 512, 512]

/-- This device's LINK_HELLO (R291). -/
def helloPayload (s : State) (p : Nat) : Bytes :=
  toLe 2 1 ++ toLe 1 1 ++ toLe 1 (s.portPlan p).plane ++ toLe 2 s.addr ++ ownBufs.flatMap (toLe 2 ·)

/-- LINK_HELLO sent (R287 step 4).  A port in training numbers no flit and holds no credit yet (DESIGN CHOICE, log 113). -/
def sendHello (p : Nat) (s : State) : State := updPort p (fun x => x.emit 2 0 true true 0 (helloPayload s p)) s

/-- What must go back on a link and has no flit to carry it goes in idle flits: a NAK, an acknowledgement, credits (R290, R302). -/
def answerFlits (fuel p : Nat) (s : State) : State :=
  match fuel with
  | 0 => s
  | fuel + 1 =>
    let x := s.port p
    if (x.up || x.state == 4) && (x.nakDue || decide (0 < x.unacked) || x.owed.any (· > 0)) then answerFlits fuel p (setPort p x.idle s) else s

/-- A TICK of frame f as it leaves: CORR takes the delay since that frame's tick instant (R15). -/
def stampTick (c : Bytes) (s : State) : Bytes :=
  let t : Int := s.clk.frameStart - ((s.clk.fnum : Int) - leAt c 8 6) * ((s.clk.len : Int) * 80)
  patch c 20 (toLe 4 (wrapInt 32 ((s.now : Int) - t)))

/-- A control flit placed; a DLY_REQ takes the instant as T1 (R16, R291), a TICK its delay. -/
def placeCtl (p : Nat) (s : State) : State :=
  let x := s.port p
  match x.ctl with
  | [] => s
  | c :: r =>
    if leAt c 0 2 = 2 then
      setPort p ({ x with ctl := r }.sendNew 0 true true none (toLe 2 2 ++ zeros 6 ++ toLe 8 s.now))
        { s with clk := { s.clk with dlySent := Tbl.put s.clk.dlySent p s.now } }
    else setPort p ({ x with ctl := r }.sendNew 0 true true none (if leAt c 0 2 = 7 then stampTick c s else c)) s

/-- One flit placed on a link.  A message's first flit fixes its NFRAME and NCTR and seals it (R304). -/
def placeFlit (p vc : Nat) (s : State) : State :=
  let x := s.port p
  if vc = 0 then placeCtl p s
  else
    match x.link.bind fun l => nextOf s l vc with
    | none => s
    | some m =>
      let ctx := ctxOf s m.jobid
      let c := Tbl.look s.zor.nctr ctx 0
      let (m1, s1) := match m.nonce with
        | some _ => (m, s)
        | none =>
          let m1 := { m with nonce := some (s.clk.fnum, c) }
          ({ m1 with img := m1.image s }, { s with zor := { s.zor with nctr := Tbl.put s.zor.nctr ctx (c + 1) } })
      let pl := flitPayload m1.img m1.placed
      let m2 := { m1 with placed := m1.placed + 1 }
      let x1 := Port.sendNew vc (decide (m1.placed = 0)) (decide (m2.placed = m2.flits)) (some (m.id, m1.placed)) pl
        { x with rr := if vc = 3 then x.rr + 1 else if vc = 4 then 0 else x.rr, winTx := x.winTx + (if s.pos < s.W then 1 else 0), sentAt := s.now,
                 share := match m.bound with
                   | some b => Tbl.put x.share (collKey b.job b.coll) (Tbl.look x.share (collKey b.job b.coll) 0 + 236)
                   | none => x.share }
      setPort p x1 { s1 with zor := { s1.zor with store := s1.zor.store.map fun y => if y.id = m.id then m2 else y } }

/-- Whether the debug port has halted a port's link engine (R413, R415): it sends and takes nothing (DESIGN CHOICE, log 80). -/
def engineHalted (s : State) (p : Nat) : Bool := s.coreHalts.contains (128 + p)

/-- A port sends what its credits, its replay buffer and its draws allow. -/
def pumpPort (fuel p : Nat) (s : State) : State :=
  match fuel with
  | 0 => s
  | fuel + 1 =>
    let x := s.port p
    if !(x.up || x.state == 4) || decide (x.replay.length ≥ 512) || engineHalted s p then s
    else
      match nextVc s x x.link with
      | none => s
      | some v => pumpPort fuel p (placeFlit p v s)

/-- Transmit draw of a link (R318). -/
def linkDraw (x : Port) : Nat := if x.state = 3 then 2 else 4

/-- A link with message flits to send asks for its draw (R319). -/
def askLinks (s : State) : State :=
  s.zor.ports.foldl (fun s p =>
    match p.2.link with
    | some l =>
      if p.2.up && ([1, 2, 3, 4].any fun v => (nextOf s l v).isSome) then
        reserve (.link l) 1 (linkDraw p.2) s
      else s
    | none => s) s

/-- Every link sends what it can; in FATAL only control flits (R466). -/
def pump (s : State) : State :=
  if s.answers then
    let s1 := if s.live then askLinks s else s
    s1.zor.ports.foldl (fun s p => pumpPort 512 p.1 s) s1
  else s

/-- Messages held for want of a plane looked at again (R299). -/
def respray (s : State) : State :=
  let r := s.zor.store.foldl (fun (a : List TxMsg × State) m =>
    if m.plane.isNone && m.bound.isNone then
      let (m1, s1) := sprayMsg m a.2
      (a.1 ++ [m1], s1)
    else (a.1 ++ [m], a.2)) ([], s)
  pump { r.2 with zor := { r.2.zor with store := r.1 } }

/-! ## Links of ranges bound to slots (R266, R270, R300) -/

/-- Payload bytes of a collective that wait on a link. -/
def shareWaits (s : State) (l j coll : Nat) : Nat :=
  sumNat (s.zor.store.map fun m =>
    match m.bound with
    | some b => if b.job = j ∧ b.coll = coll ∧ m.plane = some l then 236 * (m.flits - m.placed) else 0
    | none => 0)

/-- The links a bound message may take in the slot in progress: those in service, whose plane is not marked unreachable for the destination
and whose share still takes the message; with more than one link in the plan entry, another than the one that carried the block on its
other path. -/
def freeLinks (s : State) (b : Bound) (dst flits : Nat) : List Nat :=
  match slotNow s with
  | none => []
  | some n =>
    let given := (slotEnts s b.job b.coll n).foldl (fun m e => m ||| e.links) 0
    let avoid := if onesOf given + onesOf (given / 256) + onesOf (given / 65536) + onesOf (given / 2 ^ 24) > 1 then
      b.other.bind fun k => Tbl.look? s.zor.crossed k else none
    ((slotLinks s b.job b.coll n).filter fun e =>
      planeUsable s dst e.1 && decide (avoid ≠ some e.1) &&
        decide (shareUsed s e.1 b.job b.coll + shareWaits s e.1 b.job b.coll + 236 * flits ≤ shareBytes s e.1 e.2)).map (·.1)

/-- One link in turn, in ascending order (R266).  A collective's turn goes on from slot to slot and from step to step (DESIGN CHOICE, log 71). -/
def turnLink (s : State) (b : Bound) (ls : List Nat) : Option Nat :=
  match Tbl.look? s.zor.turn (collKey b.job b.coll) with
  | none => ls.head?
  | some last => match ls.find? fun l => decide (l > last) with | some l => some l | none => ls.head?

/-- A link taken by a bound message: the turn moves on, and the block's crossing is noted. -/
def takeLink (b : Bound) (l : Nat) (s : State) : State :=
  { s with zor := { s.zor with
    turn := Tbl.put s.zor.turn (collKey b.job b.coll) l
    crossed := match b.blk with | some k => Tbl.put s.zor.crossed k l | none => s.zor.crossed } }

/-- Bound messages without a link take one when their slot comes (R267). -/
def relink (s : State) : State :=
  s.zor.store.foldl (fun s m =>
    match m.bound with
    | none => s
    | some b =>
      if m.plane.isSome || m.acked ≥ m.flits then s
      else
        match turnLink s b (freeLinks s b m.dst m.flits) with
        | none => s
        | some l =>
          let s1 := takeLink b l s
          { s1 with zor := { s1.zor with store := s1.zor.store.map fun y => if y.id = m.id then { y with plane := some l } else y } }) s

/-- Bound messages none of whose flits has left by the end of a slot give their links up (R267). -/
def unlink (s : State) : State :=
  { s with zor := { s.zor with store := s.zor.store.map fun m => if m.bound.isSome && decide (m.placed = 0) then { m with plane := none } else m } }

/-- What a message carries besides its header and body. -/
structure Env where
  oseq   : Nat := 0
  stream : Nat := 0
  fseq   : Nat := 0
  /-- What binds it to slots, and its link (R266). -/
  bound  : Option Bound := none
  link   : Option Nat := none
  deriving DecidableEq, Repr

/-- A message enters the transmit store. -/
def queueMsg (jobid dst vc : Nat) (enc : Bool) (hdr body : Bytes) (e : Env) (s : State) : State :=
  let m : TxMsg :=
    { id := s.zor.nextMsg, dst := dst, jobid := jobid, enc := enc, resent := false, oseq := e.oseq, stream := e.stream,
      fseq := e.fseq, vc := vc, hdr := hdr, body := body, snum := none, plane := e.link, nonce := none,
      flits := msgFlits (hdr.length + body.length), placed := 0, acked := 0, bound := e.bound }
  let (m1, s1) := if e.bound.isSome then (m, s) else sprayMsg m s
  pump { s1 with zor := { s1.zor with store := s1.zor.store ++ [m1], nextMsg := s1.zor.nextMsg + 1 } }

/-- Whether a job sends on its own account (R401, R465): its session is JOINED and nothing has stopped it. -/
def jobSends (s : State) (j : Nat) : Bool :=
  decide ((s.session j).state = .joined) && (s.stoppedBy j).isNone && s.resident j

/-- A stopped job still refuses the flows that come (R465): FLOW_END with CODE REFUSED. -/
def refusalSends (s : State) (j : Nat) (hdr : Bytes) : Bool :=
  decide ((s.session j).state = .joined) && s.resident j && decide (leAt hdr 0 2 = 0x52) && decide (leAt hdr 4 1 = 2)

/-- A job message to a device address (R304). -/
def sendTo (j dst vc : Nat) (hdr body : Bytes) (e : Env) (s : State) : State :=
  match s.job? j with
  | some x => if jobSends s j || refusalSends s j hdr then queueMsg x.jobid dst vc true hdr body e s else s
  | none => s

/-- A job message to a rank (R296). -/
def sendRank (j r vc : Nat) (hdr body : Bytes) (e : Env) (s : State) : State :=
  match s.job? j with
  | some x => sendTo j (x.addrOf r) vc hdr body e s
  | none => s

/-- A message with JOBID 0 (R304). -/
def sendDevice (dst vc : Nat) (hdr body : Bytes) (s : State) : State := queueMsg 0 dst vc false hdr body {} s

/-- A 32 B header from its leading bytes. -/
def header (bs : Bytes) : Bytes := slice bs 0 32

/-- Whether a message can be sealed anew: the key of its job is still held (R304). -/
def canSeal (s : State) (m : TxMsg) : Bool := !m.enc || decide ((s.session (ctxOf s m.jobid)).linkKey ≠ [])

/-- A message sent again whole (R307), under an identity of its own in the store, so that acknowledgements of the earlier copy's flits do
not count for it.  One bound to slots waits for its slots; one whose key is gone with its job is dropped. -/
def resendMsg (id : Nat) (s : State) : State :=
  match s.zor.store.find? fun m => decide (m.id = id) with
  | none => s
  | some m =>
    if !canSeal s m then { s with zor := { s.zor with store := s.zor.store.filter fun y => decide (y.id ≠ id) } }
    else
      let m0 := { m with id := s.zor.nextMsg, placed := 0, acked := 0, nonce := none, img := [], resent := true, plane := none }
      let (m1, s1) := if m.bound.isSome then (m0, s) else sprayMsg m0 s
      count Reg.ZOR_RESENT 32 1 { s1 with zor := { s1.zor with
        store := s1.zor.store.map (fun y => if y.id = id then m1 else y), nextMsg := s1.zor.nextMsg + 1 } }

/-- A mark of the reach table cleared by the destination's protocol (R297): the message that `p` describes, still in the store or released
from it, was sent on a plane; what was held for want of a plane goes on (R299). -/
def protoAck (dst : Nat) (p : TxMsg → Bool) (s : State) : State :=
  let hit := fun (m : TxMsg) => decide (m.dst = dst) && p m
  match (s.zor.store ++ s.zor.released).find? hit with
  | some m =>
    match m.plane with
    | some l => respray { s with zor := { s.zor with reach := Tbl.del s.zor.reach (32 * dst + l), released := s.zor.released.filter fun y => !hit y } }
    | none => s
  | none => s

/-- Whether the destination's protocol answers a message: bulk requests, publications, flows, closes of delta frames. -/
def protoAnswered (m : TxMsg) : Bool := [0x30, 0x31, 0x40, 0x50, 0x53, 0x71].contains (leAt m.hdr 0 2)

/-- What a job had to send and has not begun, its counters and its identities dropped at its end; messages begun stay until they are
acknowledged (R307). -/
def dropJobMessages (j jobid : Nat) (s : State) : State :=
  { s with zor := { s.zor with
    store := s.zor.store.filter fun m => decide (m.jobid ≠ jobid ∨ 0 < m.placed),
    released := s.zor.released.filter fun m => decide (m.jobid ≠ jobid),
    turn := s.zor.turn.filter fun p => decide (p.1 / 65536 ≠ j), crossed := s.zor.crossed.filter fun p => decide (p.1 / 2 ^ 53 ≠ j),
    sprayKeys := Tbl.del s.zor.sprayKeys j, snum := Tbl.del s.zor.snum j, nctr := Tbl.del s.zor.nctr j,
    fseq := Tbl.del s.zor.fseq j, seen := s.zor.seen.filter fun i => decide (i.job ≠ j) } }

/-! ## Leaving service and training (R286 to R288, R307, R315, R316) -/

/-- A link leaves service: LINK_DOWN, its partial messages are discarded and its messages resent on other planes.  ARG1, the
width on return, is not known yet and is a free value. -/
def leaveService (p newState cause : Nat) (s : State) : State :=
  let x := s.port p
  let (w, s0) := freeVal s
  let s1 := raiseInt blkZor 0 (fault { code := 0x0020, inst := p, arg0 := cause, arg1 := w } s0)
  let s2 := count Reg.ZOR_BADMSG 32 x.reasm.length s1
  let s3 := setPort p { x with state := newState, step := if newState = 1 then 1 else 0, lanes := if newState = 1 then 15 else 0,
                               replay := [], reasm := [], ctl := [], nak := false, nakDue := false, unacked := 0, owed := [0, 0, 0, 0, 0],
                               errs := [], tfail := 0 } s2
  let s4 := { s3 with clk := { s3.clk with delay := Tbl.del s3.clk.delay p } }
  match x.link with
  | none => s4
  | some l =>
    let back := (s.zor.store.filter fun m => decide (m.plane = some l) && decide (m.acked < m.flits)).map (·.id)
    pump (back.foldl (fun s id => resendMsg id s) (ledgerReturn (.link l) (ledgerDrop (.link l) s4)))

/-- The lanes a port comes up with: all four, else a pair, lanes 0 and 1 in preference; none when the training fails (R287). -/
def usableLanes (m : Nat) : Option Nat :=
  if m % 16 = 15 then some 15 else if m % 4 = 3 then some 3 else if m / 4 % 4 = 3 then some 12 else none

/-- A failed training (R287): after three in a row the port is FAILED and its link waits for a spare (R316). -/
def trainingFails (p : Nat) (s : State) : State :=
  let x := s.port p
  let n := x.tfail + 1
  if n ≥ 3 then
    let s1 := setPort p { x with state := 5, tfail := 3, step := 0, lanes := 0 } s
    let s2 := raiseInt blkZor 1 (fault { code := 0x0021, inst := p, arg0 := x.link.getD 0x3F } s1)
    if x.link.isSome then { s2 with zor := { s2.zor with swaps := s2.zor.swaps ++ [p] } } else s2
  else setPort p { x with tfail := n, step := 1, lanes := 15 } s

/-- A trained port enters service, or idles as a spare. -/
def portReady (p : Nat) (s : State) : State :=
  let x := s.port p
  match usableLanes x.lanes with
  | none => trainingFails p s
  | some m =>
    respray (setPort p { x with
      state := if x.link.isNone then 4 else if m = 15 then 2 else 3, lanes := m, step := 0, tfail := 0, upFrame := s.clk.fnum,
      lseqTx := 0, lseqRx := 0, nak := false, nakDue := false, unacked := 0, credits := x.bufs, owed := [0, 0, 0, 0, 0], rr := 0 } s)

/-- Spares taken at a tick (R316). -/
def spareSwaps (s : State) : State :=
  let s1 := { s with zor := { s.zor with swaps := [] } }
  s.zor.swaps.foldl (fun s p =>
    match (s.port p).link with
    | none => s
    | some l =>
      match s.zor.ports.find? fun y => decide (y.2.state = 4) && decide ((s.portPlan y.1).plane = l) with
      | none => s
      | some y =>
        respray (setPort y.1 { y.2 with state := if y.2.lanes = 15 then 2 else 3, link := some l, upFrame := s.clk.fnum }
          (updPort p (fun x => { x with link := none }) s))) s1

/-- TRAINING_STEP_DONE (R287): lanes that fail step 1 or 2 are excluded; step 4 begins with this device's LINK_HELLO and ends with the
switch's. -/
def execTrainingStepDone (port : Fin 34) (lanes : BitVec 4) (s : State) : Out :=
  when (s.live && decide ((s.port port).state = 1)) (fun s =>
    let x := s.port port
    let m := if x.step ≤ 2 then x.lanes &&& lanes.toNat else x.lanes
    if (usableLanes m).isNone then trainingFails port s
    else if x.step < 4 then
      let s1 := setPort port { x with lanes := m, step := x.step + 1 } s
      if x.step = 3 then sendHello port s1 else s1
    else s) s

/-- TRAINING_STEP_TIMEOUT (R287). -/
def execTrainingStepTimeout (port : Fin 34) (s : State) : Out :=
  when (s.live && decide ((s.port port).state = 1)) (trainingFails port) s

/-- LINK_HELLO (R288, R291, R302): the plane is checked and the buffer sizes recorded; at step 4 the training ends. -/
def execLinkHello (port : Fin 34) (payload : Bytes) (s : State) : Out :=
  let x := s.port port
  when (s.answers && decide (leAt payload 0 2 = 1) && decide (leAt payload 2 1 = 2) &&
      (x.up || decide (x.state = 4) || (decide (x.state = 1) && decide (x.step = 4)))) (fun s =>
    let plan := (s.portPlan port).plane
    let bufs := (List.range 5).map fun i => leAt payload (6 + 2 * i) 2
    if leAt payload 3 1 ≠ plan then
      let s1 := if x.up then leaveService port 6 3 s else setPort port { x with state := 6, step := 0, lanes := 0 } s
      raiseInt blkZor 6 (fault { code := 0x0022, inst := port, arg0 := leAt payload 3 1, arg1 := plan } s1)
    else
      let s1 := setPort port { x with bufs := bufs } s
      if x.state = 1 then portReady port s1 else s1) s

/-- LINK_LEAVE_SERVICE (R307, R315): the link retrains. -/
def execLinkLeaveService (port : Fin 34) (cause : Nat) (s : State) : Out :=
  when (s.live && (s.port port).up && decide (1 ≤ cause ∧ cause ≤ 3)) (leaveService port 1 cause) s

/-- LANE_LOCK_LOSS (R314): the lane is FAILED at once and the link retrains. -/
def execLaneLockLoss (port : Fin 34) (lane : Fin 4) (s : State) : Out :=
  let x := s.port port
  when (s.live && x.up && bitOf x.lanes lane) (fun s =>
    leaveService port 1 3 (updPort port (fun x => { x with cls := setBits x.cls (2 * lane + 1) (2 * lane) 3 }) s)) s

/-! ## Flits (R289 to R291, R302) -/

/-- Sequenced flits up to and including LSEQ `a` leave the replay buffer; their messages' acknowledged flits are counted. -/
def takeAck (p a : Nat) (s : State) : State :=
  let x := s.port p
  match x.replay.findIdx? fun f => decide (f.lseq = a) with
  | none => s
  | some i =>
    let done := x.replay.take (i + 1)
    let s1 := setPort p { x with replay := x.replay.drop (i + 1) } s
    let hits := fun (id : Nat) => (done.filter fun f => match f.msg with | some m => decide (m.1 = id) | none => false).length
    { s1 with zor := { s1.zor with store := s1.zor.store.map fun m => { m with acked := m.acked + hits m.id } } }

/-- A NAK (R290): the flits from ACK + 1 are sent again, in FATAL those without a message (R466); the eighth replay of a flit retrains the
link. -/
def takeNak (p : Nat) (s : State) : State :=
  let x := s.port p
  let r := x.replay.map fun f => { f with replays := f.replays + 1 }
  let y := (r.filter fun f => f.msg.isNone || !s.flt.fatal).foldl Port.sendAgain { x with reps := satTo 32 (x.reps + (if r = [] then 0 else 1)) }
  let s1 := setPort p { y with replay := r } s
  if r.any fun f => decide (f.replays ≥ 8) then leaveService p 1 1 s1 else s1

/-- A message flit accepted into its channel's reassembly (R293). -/
def reassemble (p vc : Nat) (som eom : Bool) (payload : Bytes) (s : State) : State :=
  let x := s.port p
  let old := x.reasm.find? fun r => decide (r.vc = vc)
  let rest := x.reasm.filter fun r => decide (r.vc ≠ vc)
  let put := fun (r : List Partial) (bad : Nat) => count Reg.ZOR_BADMSG 32 bad (setPort p { x with reasm := r } s)
  match som, old with
  | true, o => put (if eom then rest else rest ++ [{ vc := vc, bytes := payload }]) (b2n o.isSome)
  | false, some r => put (if eom then rest else rest ++ [{ vc := vc, bytes := r.bytes ++ payload }]) 0
  | false, none => put rest 1

/-- A flit that cannot be taken asks for a replay (R290): after a CRC failure always, after a gap once. -/
def askReplay (p : Nat) (again : Bool) (s : State) : State := updPort p (fun x => { x with nak := true, nakDue := x.nakDue || again || !x.nak }) s

/-- The bits the FEC corrects in a flit, counted for the port and for each lane (R290, R314); such a flit is an error of class 0 (R456). -/
def noteFixes (p : Nat) (fixes : List (Nat × Nat)) (s : State) : State :=
  updPort p (fun x =>
    let ls := lanesFixed x.lanes fixes
    { x with fec := satTo 64 (x.fec + sumNat (ls.map (·.2))), errs := x.errs ++ ls.map fun e => (s.clk.fnum, e.1, e.2) })
    (if fixes = [] then s else corrected s)

/-- FLIT (R289, R290, R302): FEC, CRC, acknowledgements and credits, sequence, reassembly; what is to be acknowledged goes back. -/
def execFlit (port : Fin 34) (f : FlitIn) (s : State) : Out :=
  let x := s.port port
  when (s.answers && (x.up || decide (x.state = 4)) && !engineHalted s port) (fun s =>
    let fixes := fecFixes f.bytes
    let b := fecApply fixes f.bytes
    let h := leAt b 0 8
    if crcOf flitCrc (slice b 0 244) ≠ leAt b 244 4 then
      -- the replay repairs it: class 0 (R456)
      let s0 := updPort port (fun x => { x with crc := satTo 32 (x.crc + 1) }) (corrected (noteFixes port [] s))
      answerFlits 6 port (askReplay port true s0)
    else
      let kind := bits h 1 0
      let vc := bits h 4 2
      let s1 := takeAck port (bits h 31 20) (noteFixes port fixes s)
      let cvc := bits h 35 33
      let s2 := updPort port (fun x => { x with credits := x.credits.modify cvc (· + bits h 47 36) }) s1
      let s3 := if bitOf h 32 then takeNak port s2 else s2
      let y := s3.port port
      let s4 :=
        if !(y.up || y.state == 4) || kind = 0 || kind = 3 then s3
        else if bits h 19 8 ≠ y.lseqRx then
          -- a flit already accepted is passed over, a gap asks for a replay
          if (y.lseqRx + 4096 - bits h 19 8) % 4096 ≤ 512 then s3 else askReplay port false s3
        else
          let s4 := setPort port { y with
            lseqRx := (y.lseqRx + 1) % 4096, nak := false, rx := satTo 64 (y.rx + 1),
            unacked := y.unacked + 1, owed := y.owed.modify vc (· + 1) } s3
          if kind = 1 then reassemble port vc (bitOf h 5) (bitOf h 6) (slice b 8 236) s4 else s4
      answerFlits 6 port (pump s4)) s

/-- MESSAGE_REASSEMBLY_TIMEOUT (R293). -/
def execMessageReassemblyTimeout (port : Fin 34) (vc : Fin 5) (s : State) : Out :=
  when (s.live && (s.port port).reasm.any fun r => decide (r.vc = vc.val)) (fun s =>
    count Reg.ZOR_BADMSG 32 1 (updPort port (fun x => { x with reasm := x.reasm.filter fun r => decide (r.vc ≠ vc.val) }) s)) s

/-! ## Reach (R297) and release (R307) -/

/-- The held message an UNREACH names by its envelope. -/
def heldByEnvelope (s : State) (env : Bytes) : Option TxMsg :=
  s.zor.store.find? fun m => decide (m.dst = leAt env 0 2) && decide (m.jobid = leAt env 4 4) &&
    (match m.nonce with
     | some n => decide (n.1 % 2 ^ 32 = leAt env 20 4) && decide (n.2 = leAt env 24 6)
     | none => false)

/-- A message the fabric could not deliver and that is not sent again: where it is a row or the end of a replica round, the round stays incomplete
at its reader, and the round's rows go in a later one (R211). -/
def lostMsg (m : TxMsg) (s : State) : State :=
  let j := ctxOf s m.jobid
  let again := fun (df : Nat) => { s with emb := { s.emb with
    hot := Tbl.mapv s.emb.hot fun k r => if k / 65536 = j ∧ r.sent = some df then { r with dirty := true } else r } }
  if leAt m.hdr 0 2 = 0x42 then again (leAt m.hdr 13 6)
  else if leAt m.hdr 0 2 = 0x43 then again (leAt m.hdr 2 6)
  else s

/-- UNREACH (R297, R307). -/
def execUnreach (port : Fin 34) (payload : Bytes) (s : State) : Out :=
  when (s.live && (s.port port).up && decide (leAt payload 0 2 = 4)) (fun s =>
    let dst := leAt payload 2 2
    let s1 := count Reg.ZOR_UNREACH 32 1 s
    let held := heldByEnvelope s (slice payload 32 32)
    if leAt payload 4 1 = 1 then
      let s2 := match (s.port port).link with
        | some l => { s1 with zor := { s1.zor with reach := Tbl.put s1.zor.reach (32 * dst + l) s.clk.fnum } }
        | none => s1
      match held with
      | some m => pump (resendMsg m.id s2)
      | none => s2
    else
      let s2 := raiseInt blkZor 4 s1
      match held with
      | some m => lostMsg m { s2 with zor := { s2.zor with store := s2.zor.store.filter fun y => decide (y.id ≠ m.id) } }
      | none => s2) s

/-- REACH_MARK_EXPIRY (R297). -/
def execReachMarkExpiry (dst : BitVec 16) (plane : Fin 32) (s : State) : Out :=
  let k := 32 * dst.toNat + plane.val
  when (s.live && (match Tbl.look? s.zor.reach k with | some f => decide (s.clk.fnum ≥ f + 1024) | none => false))
    (fun s => respray { s with zor := { s.zor with reach := Tbl.del s.zor.reach k } }) s

/-- TRANSMIT_STORE_RELEASE (R307): 2 µs after its last flit was acknowledged.  A request that the destination's protocol answers is
remembered until then (R297). -/
def execTransmitStoreRelease (id : Nat) (s : State) : Out :=
  when (s.live && s.zor.store.any fun m => decide (m.id = id) && decide (m.acked ≥ m.flits))
    (fun s => { s with zor := { s.zor with
      store := s.zor.store.filter fun m => decide (m.id ≠ id)
      released := s.zor.released ++ ((s.zor.store.filter fun m => decide (m.id = id) && protoAnswered m).map fun m => { m with body := [], img := [] }) } }) s

/-- Whether a link has no message flit to send (R319); the middle of a message is none. -/
def linkQuiet (s : State) (l : Nat) : Bool := !(s.zor.store.any fun m => decide (m.plane = some l) && decide (m.placed < m.flits))

/-- The instant of a link's last message flit. -/
def linkSentAt (s : State) (l : Nat) : Nat := match portOfLink s l with | some p => (s.port p).sentAt | none => 0

/-! ## Census and skew (R301, R314) -/

/-- The class of a rate code (R314, R320): code c stands for 10^(−c/16). -/
def berClass (c : Nat) : Nat := if c ≥ 112 then 0 else if c ≥ 96 then 1 else 2

/-- The bits a lane carries in the 1,024 frames of an evaluation: 400 Gb/s, 500 bits per cc (R285, R314). -/
def laneBits (s : State) : Nat := 1024 * s.clk.len * 500

/-- The bits corrected on a lane in the last 1,024 frames. -/
def laneErrs (s : State) (x : Port) (l : Nat) : Nat :=
  sumNat (x.errs.map fun e => if e.2.1 = l ∧ s.clk.fnum < e.1 + 1024 then e.2.2 else 0)

/-- The rate code of `e` errors in `n` bits (R320): the greatest c with e / n at most 10^(−c/16). -/
def berCode (e n : Nat) : Nat := sumNat ((List.range 255).map fun c => b2n (decide (e ^ 16 * 10 ^ (c + 1) ≤ n ^ 16)))

/-- The lanes of a port evaluated over the last 1,024 frames (R314): rates and classes recorded, MARGINAL reported on entering the class; a
FAILED lane retrains the link. -/
def censusEval (p : Nat) (s : State) : State :=
  let x := s.port p
  let old := fun (i : Nat) => bits x.cls (2 * i + 1) (2 * i)
  let code := fun (i : Nat) => if bitOf x.lanes i then berCode (laneErrs s x i) (laneBits s) else leAt (toLe 4 x.ber) i 1
  let lane := fun (i : Nat) => if bitOf x.lanes i then berClass (code i) else old i
  let s1 := setPort p { x with
    ber := le ((List.range 4).flatMap fun i => toLe 1 (code i)), cls := sumNat ((List.range 4).map fun i => lane i * 4 ^ i), dawnCensus := false,
    evalAt := some s.clk.fnum, errs := x.errs.filter fun e => decide (s.clk.fnum < e.1 + 1024) } s
  let s2 := if (List.range 4).any fun i => bitOf x.lanes i && decide (lane i = 1) && decide (old i ≠ 1) then raiseInt blkZor 2 s1 else s1
  if (List.range 4).any fun i => bitOf x.lanes i && decide (lane i = 2) then leaveService p 1 2 s2 else s2

/-- Whether a port still waits for this slice's census. -/
def censusDue (s : State) (p : Nat) : Bool := (s.port p).up && decide ((s.port p).evalAt ≠ some s.clk.fnum)

/-- The link skew of a work window (R301). -/
def linkSkew (s : State) : State :=
  let ls := s.zor.ports.filterMap fun p => if p.2.up then p.2.link.map fun l => (l, p.2.winTx) else none
  let total := sumNat (ls.map (·.2))
  let top := ls.foldl (fun b x => if x.2 > b.2 then x else b) (ls.headD (0, 0))
  let ratio := skewRatio top.2 total ls.length
  -- above 2.0 exactly, whatever the recorded ratio is rounded to
  let run := if top.2 * ls.length > 2 * total then satTo 5 (s.zor.skewRun + 1) else 0
  let s1 := { s with zor := { s.zor with ratio := ratio, busiest := top.1, skewRun := run,
                                         ports := Tbl.mapv s.zor.ports fun _ x => { x with winTx := 0 } } }
  if run ≥ 16 then raiseInt blkZor 7 s1 else s1

/-- The end of the work window (R152, R301). -/
def workWindowEnd (s : State) : State := linkSkew (memSkew s)

/-! ## The checks of an arriving message (R292 to R296, R304, R305, R310) -/

/-- The TYPE codes of R294, the export messages and the attestation messages. -/
def listedType (t : Nat) : Bool :=
  [0x08, 0x09, 0x30, 0x31, 0x32, 0x33, 0x40, 0x41, 0x42, 0x43, 0x44, 0x45, 0x50, 0x51, 0x52, 0x53, 0x54, 0x60, 0x61, 0x62, 0x63,
    0x70, 0x71, 0x72, 0x80, 0x81].contains t

def msgTyp (m : Msg) : Nat := leAt m.hdr 0 2

/-- The frame a message was sent in: the one of F − 2 to F whose low 32 bits are NFRAME (R304). -/
def msgFrame (s : State) (m : Msg) : Option Nat :=
  (List.range 3).findSome? fun i =>
    if i ≤ s.clk.fnum ∧ (s.clk.fnum - i) % 2 ^ 32 = m.nframe.toNat then some (s.clk.fnum - i) else none

/-- Discarded and counted in ZOR_BADMSG. -/
def badMsg (s : State) : State := count Reg.ZOR_BADMSG 32 1 s

/-- A tag failure (R305): counted; LINK_AUTH at most once a frame. -/
def authFail (m : Msg) (s : State) : State :=
  let s1 := raiseInt blkZor 3 (count Reg.ZOR_AUTHFAIL 32 1 s)
  if s.zor.authRaised then s1
  else fault { code := 0x0023, inst := m.port, arg0 := m.src.toNat, arg1 := 1 } { s1 with zor := { s1.zor with authRaised := true } }

/-- NOJOB (R310): sent in the clear for a request of a job that is not resident. -/
def sendNojob (m : Msg) (s : State) : State :=
  queueMsg m.jobid.toNat m.src.toNat 2 false (header (toLe 2 9)) [] { stream := m.stream.toNat, fseq := m.fseq.toNat } s

/-- An identity taken: none when it has been acted on (R294).  REPL_DROP and REPAIR carry no count of their own, so theirs are kept
for the window of R305 only. -/
def takeIdent (job typ : Nat) (fields : List Nat) (s : State) : Option State :=
  let windowed := decide (typ = 0x44 ∨ typ = 0x45)
  let hit := s.zor.seen.any fun i => decide (i.job = job) && decide (i.typ = typ) && decide (i.fields = fields) &&
    (!windowed || decide (i.frame + 2 ≥ s.clk.fnum))
  if hit then none
  else some { s with zor := { s.zor with seen := { job := job, typ := typ, fields := fields, frame := s.clk.fnum } :: s.zor.seen } }

/-- The rank of a source in a job. -/
def rankOf (s : State) (j : Nat) (src : Nat) : Option Nat :=
  match s.job? j with
  | some x => x.ranks.findIdx? (· == src)
  | none => none

/-- A job message of one TYPE delivered (R294, R296, R304, R305, R310, R374): a job message in the clear and, where this device holds the key,
a stale one or one whose tag fails go first, whatever the TYPE; after every check the engine acts with the context, the sender's rank and
the message.  `ident` gives the identity, none where repeats are harmless. -/
def receive (i : Instr) (typ : Nat) (m : Msg) (ident : Msg → Option (List Nat)) (f : Nat → Nat → Msg → State → State) (s : State) : Out :=
  whenP i (s.linked && (s.port m.port).up && decide (m.dst.toNat = s.addr) && (decide (msgTyp m = typ) || !listedType (msgTyp m))) (fun s =>
    if !m.enc && decide (m.jobid.toNat ≠ 0) && decide (msgTyp m ≠ 9) then authFail m s
    else if s.power.night ≠ .none then badMsg s
    else
      match (s.jobs.find? fun p => decide (p.2.jobid = m.jobid.toNat)).map (·.1) with
      | none => if listedType (msgTyp m) && (decide (typ = 0x50) || decide (typ = 0x53)) then sendNojob m s else badMsg s
      | some j =>
        let st := (s.session j).state
        let key := decide ((s.session j).linkKey ≠ [])
        if m.enc && key && (msgFrame s m).isNone then count Reg.ZOR_STALE 32 1 s
        else if m.enc && key && !m.tagOk then authFail m s
        else if !listedType (msgTyp m) || (decide (st ≠ .joined) && decide (st ≠ .keyless)) then badMsg s
        else if m.enc && !key then authFail m s
        else if (msgFrame s m).isNone then count Reg.ZOR_STALE 32 1 s
        else
          match rankOf s j m.src.toNat with
          | none => badMsg s
          | some r =>
            match ident m with
            | none => f j r m s
            | some id =>
              match takeIdent j typ id s with
              | none => count Reg.ZOR_DUP 32 1 s
              | some s1 => f j r m s1) s

/-- A message with JOBID 0 delivered (R304): ENC = 0, with the identity its chapter gives. -/
def receiveDevice (i : Instr) (typ : Nat) (m : Msg) (ident : List Nat) (f : Msg → State → State) (s : State) : Out :=
  whenP i (s.linked && (s.port m.port).up && decide (m.dst.toNat = s.addr) && (decide (msgTyp m = typ) || !listedType (msgTyp m))) (fun s =>
    if !m.enc && decide (m.jobid.toNat ≠ 0) then authFail m s
    else if !listedType (msgTyp m) || m.enc then badMsg s
    else if (msgFrame s m).isNone then count Reg.ZOR_STALE 32 1 s
    else
      match takeIdent 64 typ ident s with
      | none => count Reg.ZOR_DUP 32 1 s
      | some s1 => f m s1) s

/-! ## Bulk requests served for other devices (R311) -/

def bulkTag (m : Msg) : Nat := leAt m.hdr 4 4
def bulkOffset (m : Msg) : Nat := leAt m.hdr 8 4
def bulkLength (m : Msg) : Nat := leAt m.hdr 12 4
def bulkAddr (m : Msg) : Nat := leAt m.hdr 16 6

/-- The identity of a bulk message. -/
def bulkIdent (m : Msg) : Option (List Nat) := some [m.src.toNat, bulkTag m, bulkOffset m]

/-- BULK_WR (R311): the data is written and acknowledged with BULK_ACK. -/
def execBulkWr (m : Msg) (s : State) : Out :=
  receive (.bulkWr m) 0x30 m bulkIdent (fun j _ m s =>
    let (st, s1) := match rangeWrite j (bulkAddr m) (slice m.body 0 (bulkLength m)) s with
      | .unmapped _ s1 => (1, s1)
      | .ok [] s1 => (0, s1)
      | .ok _ s1 => (2, s1)
    sendTo j m.src.toNat 2 (header (toLe 2 0x33 ++ zeros 2 ++ toLe 4 (bulkTag m) ++ toLe 4 (bulkOffset m) ++ toLe 1 st)) [] {} s1) s

/-- BULK_RDREQ (R311): answered with BULK_RDDATA. -/
def execBulkRdreq (m : Msg) (s : State) : Out :=
  receive (.bulkRdreq m) 0x31 m bulkIdent (fun j _ m s =>
    let (st, d, s1) := match rangeRead j (bulkAddr m) (bulkLength m) s with
      | .unmapped _ s1 => (1, [], s1)
      | .ok d [] s1 => (0, d, s1)
      | .ok d _ s1 => (2, d, s1)
    sendTo j m.src.toNat 2 (header (toLe 2 0x32 ++ zeros 2 ++ toLe 4 (bulkTag m) ++ toLe 4 (bulkOffset m) ++ toLe 1 st)) d {} s1) s

end Sys2Proof.Machine
end

