-- ==== Sys2Proof/Machine/Tiles.lean ====
section
/-! DEFINITION. Matrix tiles: tile SRAM, the issue of instructions, semaphores and tokens, control instructions and tile DMA (R79 to
R94, R98 to R100, R102, R105 to R107). -/

namespace Sys2Proof.Machine

/-! ## Tile SRAM (R79, R87, R88) -/

def afBase : Nat := 0xF00000
def Tile.osBytes (x : Tile) : Nat := x.osBanks * 0x40000

/-- Whether [a, a + n) lies in one region of R79 and in the job's partition there. -/
def tileSpanOk (x : Tile) (p : Part) (a n : Nat) : Bool :=
  (decide (a + n ≤ x.osBytes) && decide (p.osBase ≤ a) && decide (a + n ≤ p.osBase + p.osSize)) ||
    (decide (afBase ≤ a) && decide (a + n ≤ 0x1000000) && decide (p.afBase ≤ a) && decide (a + n ≤ p.afBase + p.afSize))

/-- The same for the Operand Store and the Accumulator File alone. -/
def osSpanOk (x : Tile) (p : Part) (a n : Nat) : Bool := decide (a + n ≤ x.osBytes) && tileSpanOk x p a n
def afSpanOk (x : Tile) (p : Part) (a n : Nat) : Bool := decide (afBase ≤ a) && tileSpanOk x p a n

def State.tile? (s : State) (t : Nat) : Option Tile := Tbl.look? s.tiles t
def State.tile (s : State) (t : Nat) : Tile := Tbl.look s.tiles t Tile.init
def setTile (t : Nat) (x : Tile) (s : State) : State := { s with tiles := Tbl.put s.tiles t x }
def updTile (t : Nat) (f : Tile → Tile) (s : State) : State := { s with tiles := Tbl.upd s.tiles t f }

/-- Bytes of tile SRAM; a byte nothing has written is 0 (DESIGN CHOICE). -/
def Tile.read (x : Tile) (a n : Nat) : Bytes := Mem.gets x.sram 0 a n

/-- Whether a span holds a poisoned word. -/
def Tile.poisoned (x : Tile) (a n : Nat) : Bool :=
  x.poison.any fun p => decide (8 * p.1 < a + n) && decide (a < 8 * p.1 + 8)

/-- A write: words covered whole lose their poison; the words a poisoned source touches take it (R87). -/
def Tile.write (x : Tile) (a : Nat) (bs : Bytes) (poison : Bool) : Tile :=
  let n := bs.length
  let kept := x.poison.filter fun p => !(decide (a ≤ 8 * p.1) && decide (8 * p.1 + 8 ≤ a + n))
  let hit := if n = 0 then [] else (List.range ((a + n - 1) / 8 - a / 8 + 1)).map (a / 8 + ·)
  { x with sram := Mem.sets x.sram 0 a bs, poison := if poison then hit.foldl (fun t w => Tbl.put t w ()) kept else kept }

/-- A job's partition of a tile. -/
def partOf (s : State) (j t : Nat) : Part := ((s.job? j).map fun x => x.parts.getD t Part.none).getD Part.none

/-- A partition written with zeros before it is granted again (R88). -/
def Tile.clear (x : Tile) (p : Part) : Tile :=
  let inside := fun (a : Nat) => (decide (p.osBase ≤ a) && decide (a < p.osBase + p.osSize)) ||
    (decide (p.afBase ≤ a) && decide (a < p.afBase + p.afSize))
  { x with sram := x.sram.filter fun c => !inside c.1, poison := x.poison.filter fun c => !inside (8 * c.1) }

/-! ## Streams -/

/-- The sequencer whose registers a stream uses: stream 3 is the deferred block in execution, on the Backward sequencer's (R101). -/
def regSeq (st : Nat) : Nat := if st = 3 then 1 else st
def unitOf (t st : Nat) : Nat := 3 * t + regSeq st
def streamOf (x : Tile) (st : Nat) : Stream := if st = 3 then .deferred ((x.defRun.map (·.no)).getD 0) else .seq st
def Stream.num : Stream → Nat
  | .seq k => k
  | .deferred _ => 3

/-- Whether a stream's work `w` is the own sequencer's of a stream `o` (R121, R122): its own, and for a deferred block that of the Backward
sequencer too, but of no other deferred block. -/
def Stream.own (o w : Stream) : Bool :=
  match o with
  | .seq _ => decide (w = o)
  | .deferred _ => decide (w = o) || decide (w = .seq 1)

def Tile.seq (x : Tile) (k : Nat) : Seq := Tbl.look x.seqs k Seq.init
def Tile.setSeq (x : Tile) (k : Nat) (q : Seq) : Tile := { x with seqs := Tbl.put x.seqs k q }
def updSeq (t k : Nat) (f : Seq → Seq) (s : State) : State := updTile t (fun x => x.setSeq k (f (x.seq k))) s

/-- The registers a stream runs on (R92, R101).  DEDUCED: a deferred block works on a copy of the Backward sequencer's address registers, loop
counters and remote bases as they stand when it starts, so what it writes there ends with it; the tokens are the sequencer's own (log 130). -/
def Tile.regs (x : Tile) (st : Nat) : Seq :=
  match st, x.defRun with
  | 3, some d => { x.seq 1 with areg := d.areg, loop := d.loop, rbase := d.rbase }
  | _, _ => x.seq (regSeq st)
def updRegs (t st : Nat) (f : Seq → Seq) (s : State) : State :=
  if st = 3 then
    updTile t (fun x =>
      let q := f (x.regs 3)
      { x with defRun := x.defRun.map fun d => { d with areg := q.areg, loop := q.loop, rbase := q.rbase } }) s
  else updSeq t st f s

/-- The seven address registers, loop counters and remote bases (R92). -/
def Seq.ar (q : Seq) (i : Nat) : Nat := if i = 0 then 0 else Tbl.look q.areg i 0
def Seq.ctr (q : Seq) (i : Nat) : Nat := Tbl.look q.loop i 0
def Seq.rb (q : Seq) (i : Nat) : Nat := Tbl.look q.rbase i 0
def Seq.token (q : Seq) (i : Nat) : Token := Tbl.look q.tok i .empty

/-- A tile address operand (R92). -/
def Seq.taddr (q : Seq) (x : Nat) : Nat := (bits x 23 0 + q.ar (bits x 26 24)) % 2 ^ 24

/-! ## Semaphores (R90) -/

def semKey (j n : Nat) : Nat := 16 * j + n
def Tile.sem (x : Tile) (k : Nat) : Nat := Tbl.look x.sems k 0

/-- A token of a command released (R91): on its sequencer, or in the sequencer state saved for it. -/
def freeTok (t k cid : Nat) (tok : Option Nat) (s : State) : State :=
  match tok with
  | none => s
  | some n =>
    if ((s.tile t).seq k).cid = cid then updSeq t k (fun q => { q with tok := Tbl.put q.tok n .empty }) s
    else { s with savedSeqs := Tbl.upd s.savedSeqs cid fun sv => { sv with seq := { sv.seq with tok := Tbl.put sv.seq.tok n .empty } } }

/-- A retirement with its increment and its token; at 15 it waits whole. -/
def semUp (t : Nat) (w : SemWait) (s : State) : State :=
  if (s.tile t).sem w.key ≥ 15 then updTile t (fun x => { x with semWait := x.semWait ++ [w] }) s
  else freeTok t (regSeq w.st) w.cid w.tok (updTile t (fun x => { x with sems := Tbl.put x.sems w.key (x.sem w.key + 1) }) s)

/-- The oldest waiting retirement of a semaphore that has room goes through. -/
def semWake (t k : Nat) (s : State) : State :=
  match (s.tile t).semWait.find? fun w => decide (w.key = k) with
  | some w =>
    if (s.tile t).sem k ≥ 15 then s
    else semUp t w (updTile t (fun x => { x with semWait := x.semWait.erase w }) s)
  | none => s

/-- A decrement; the oldest waiting retirement of the semaphore follows it. -/
def semDown (t k : Nat) (s : State) : State :=
  semWake t k (updTile t (fun x => { x with sems := Tbl.put x.sems k (x.sem k - 1) }) s)

/-! ## Stopping a command -/

/-- What the deferred queue and the transfers of a stream leave behind when its command ends. -/
def Tile.release (x : Tile) (k state : Nat) : Tile :=
  let mine := fun (o : Stream) => decide (regSeq o.num = k)
  let cid := (x.seq k).cid
  let drop := fun (b : Option WBlock) => match b with | some w => if mine w.owner then none else some w | none => none
  let keepChain := match x.chain with | some c => if mine c.owner then none else some c | none => none
  let x1 := { x with shadow := drop x.shadow, active := drop x.active, swapWait := if (drop x.shadow).isNone then none else x.swapWait,
                     dmas := x.dmas.filter fun d => !mine d.owner, chain := keepChain, parked := x.parked.filter fun c => !mine c.owner,
                     semWait := x.semWait.filter fun w => !(w.blocks && decide (regSeq w.st = k)),
                     defq := if k = 1 then x.defq.filter fun b => decide (b.cid ≠ cid) else x.defq,
                     defRun := if k = 1 then none else x.defRun }
  let q := x.seq k
  x1.setSeq k { q with state := state, owned := none, reload := false, resumed := false, wantsShadow := none, wantsVec := none, inChain := false, ahead := [], laStop := none }

/-- The command of a sequencer stopped with a status (R106, R87, R99). -/
def tileStop (t st status detail result : Nat) (s : State) : State :=
  let k := regSeq st
  let q := (s.tile t).seq k
  let s1 := match (s.tile t).chain with
    | some c => if regSeq c.owner.num = k then ledgerReturn (.vecExtra t) (ledgerDrop (.vecExtra t) s) else s
    | none => s
  let s2 := ledgerReturn (.block t) (ledgerDrop (.block t) s1)
  stopCommand q.queue q.cid status detail result (updTile t (fun x => x.release k 6) s2)

/-- An invalid instruction (R106). -/
def tileInvalid (t st sub : Nat) (s : State) : State :=
  let k := regSeq st
  let q := (s.tile t).seq k
  let pc := if st = 3 then ((s.tile t).defRun.map (·.pc)).getD 0 else q.pc
  let s1 := setReg (Reg.TILE_ERR t) (sub + k * 16 + q.job * 64 + 2 ^ 12 + pc % 2 ^ 32 * 2 ^ 32) s
  tileStop t st St.TILE_INVALID sub 0 (raiseInt (blkTile t) 0 s1)

/-- A poisoned word read (R87), and an access outside the job's range or allocation (R99). -/
def tilePoison (t st : Nat) (s : State) : State := tileStop t st St.TILE_POISON 0 0 (raiseInt (blkTile t) 2 s)
def tileAccess (t st a : Nat) (s : State) : State := tileStop t st St.TILE_ACCESS 0 a (raiseInt (blkTile t) 3 s)

/-! ## Blocks (R95, R101) -/

/-- Whether a stream's sequencer is suspended by force: its block may be replaced. -/
def asleep (x : Tile) (o : Stream) : Bool := decide ((x.seq (regSeq o.num)).state = 4)

/-- Whether a plane is free for another stream's block. -/
def planeFree (x : Tile) (b : Option WBlock) (o : Stream) : Bool :=
  match b with
  | none => true
  | some w => decide (w.owner ≠ o) && asleep x w.owner

/-- The block a stream owns. -/
def Tile.owned (x : Tile) (o : Stream) : Option (BitVec 128 × Nat) :=
  match o with
  | .seq k => (x.seq k).owned
  | .deferred n => x.defRun.bind fun d => if d.no = n then d.owned else none
def Tile.setOwned (x : Tile) (o : Stream) (b : Option (BitVec 128 × Nat)) (reload : Bool) : Tile :=
  match o with
  | .seq k => x.setSeq k { x.seq k with owned := b, reload := reload }
  | .deferred n => { x with defRun := x.defRun.map fun d =>
      if d.no = n then { d with owned := b, reload := reload, started := d.started || b.isSome } else d }
def Tile.reloads (x : Tile) (o : Stream) : Bool :=
  match o with
  | .seq k => (x.seq k).reload
  | .deferred n => (x.defRun.map fun d => decide (d.no = n) && d.reload).getD false

/-- A plane's block replaced: an owner suspended by force loads it again on resume (R107). -/
def Tile.evict (x : Tile) (b : Option WBlock) : Tile :=
  match b with
  | some w => x.setOwned w.owner (x.owned w.owner) true
  | none => x

/-- Bytes between rows: 0 means packed. -/
def strideOf (stride packed : Nat) : Nat := if stride = 0 then packed else stride

/-- The extent of rows in the tile. -/
def rowsSpan (n stride packed : Nat) : Nat := (n - 1) * strideOf stride packed + packed

/-- Source rows and elements per row of a WLOAD. -/
def wloadShape (v : Nat) : Nat × Nat :=
  let k := bits v 71 64 + 1
  let n := bits v 80 72
  if bitOf v 85 then (n, k) else (k, n)

/-- The weight block of a WLOAD read from the tile: row-major codes, nonzero weights counted (R104); none when a word is poisoned. -/
def readBlock (x : Tile) (o : Stream) (job : Nat) (w : BitVec 128) (src : Nat) : Option WBlock :=
  let v := w.toNat
  let k := bits v 71 64 + 1
  let n := bits v 80 72
  let wfmt := bits v 84 81
  let (rows, per) := wloadShape v
  let packed := fmtBytes wfmt per
  let stride := strideOf (bits v 104 89) packed
  let src_ := (List.range rows).map fun i => elems wfmt (x.read (src + i * stride) packed) per
  let codes := if bitOf v 85 then (List.range k).map fun i => src_.map fun r => r.getD i 0 else src_
  if (List.range rows).any fun i => x.poisoned (src + i * stride) packed then none
  else
    some { owner := o, job := job, k := k, n := n, wfmt := wfmt, split := bits v 87 86, zc := bitOf v 88,
           nz := sumNat (codes.map fun r => (r.filter fun c => !(decode wfmt c).isZero).length), rows := codes, word := w }

/-- Blocks replaced while their owner was suspended are loaded again when the shadow plane is free (R107). -/
def reloadBlocks (t : Nat) (s : State) : State :=
  (List.range 4).foldl (fun s st =>
    let x := s.tile t
    let o := streamOf x st
    match x.owned o with
    | some (w, src) =>
      if x.reloads o && !asleep x o && planeFree x x.shadow o then
        match readBlock x o (x.seq (regSeq o.num)).job w src with
        | none => tilePoison t o.num s
        | some b => updTile t (fun x => { (x.evict x.shadow).setOwned o (some (w, src)) false with shadow := some b }) s
      else s
    | none => s) s

/-! ## Issue (R89 to R91, R106) -/

/-- The operations of R94, R95, R98, R99 and R110. -/
def opDefined (cls op : Nat) : Bool :=
  match cls with
  | 0 => decide (op ≤ 8)
  | 1 => decide (op ≤ 2)
  | 2 => decide (op ≤ 1)
  | 3 => decide (op = 0)
  | _ => decide (op ≤ 1)

/-- The mask of the header's bits and of the bit ranges [hi:lo].  DESIGN CHOICE: operand bits that an operation's row of R94 does not list (NOP's
[127:32], SETC's [39:34]) are reserved, and a nonzero one gives RSVD; the spec marks them neither way (assumption 108). -/
def rangeMask (l : List (Nat × Nat)) : Nat := l.foldl (fun a p => a ||| ((2 ^ (p.1 + 1 - p.2) - 1) <<< p.2)) (2 ^ 26 - 1)

/-- What issuing an instruction does. -/
inductive Eff where
  /-- Not issued yet; what the wait leaves on its sequencer. -/
  | stall (f : Seq → Seq)
  /-- The command has been stopped. -/
  | stop (s : State)
  /-- Issued: whether it has retired, the next instruction's index, and the state. -/
  | issued (retired : Bool) (next : Nat) (s : State)

/-- A stream's context at issue. -/
structure Iss where
  t    : Nat
  st   : Nat
  word : BitVec 128
  v    : Nat
  job  : Nat
  cid  : Nat
  pc   : Nat
  dyn  : Nat
  q    : Seq
  x    : Tile
  part : Part

/-- Whether a stream may issue: its sequencer runs a chunk that is not halted, no chain of it runs and no retirement of it waits. -/
def mayIssue (t st : Nat) (s : State) : Bool :=
  match s.tile? t with
  | none => false
  | some x =>
    let q := x.seq (regSeq st)
    s.clocked && (s.unit (unitOf t st)).run.isSome && !(s.unit (unitOf t st)).halted &&
      (decide (q.state = 1) || decide (q.state = 2) || decide (q.state = 5)) && !q.inChain &&
      !(x.semWait.any fun w => w.blocks && decide (w.st = st)) && (st != 3 || x.defRun.isSome)

/-- Whether an instruction waits for its token or its semaphore (R89). -/
def issWaits (x : Tile) (q : Seq) (v : Nat) : Bool :=
  (bitOf v 20 && decide (q.token (bits v 25 22) ≠ .full)) || (bitOf v 10 && decide (x.sem (semKey q.job (bits v 14 11)) = 0))

/-- TREL and SEN when an instruction of a command retires (R89, R90). -/
def retire (t st j cid v : Nat) (blocks : Bool) (s : State) : State :=
  let tok := if bitOf v 21 then some (bits v 25 22) else none
  if bitOf v 15 then semUp t { key := semKey j (bits v 19 16), st := st, blocks := blocks, cid := cid, tok := tok } s
  else freeTok t (regSeq st) cid tok s

/-- The stream's position moved on; a deferred block that reaches its end has run (R101). -/
def moveOn (t st next : Nat) (s : State) : State :=
  if st = 3 then
    updTile t (fun x => { x with defRun := match x.defRun with
      | some d => if next = d.blk.offset + d.blk.count then none else some { d with pc := next }
      | none => none }) s
  else updSeq t st (fun q => { q with pc := next, dyn := q.dyn + 1, state := 1 }) s

/-- A count of events the model has no cycles for: a free value of its width (assumption 107). -/
def countFree (off w : Nat) (s : State) : State :=
  let (n, s1) := freeVal s
  setReg off (satTo w (regRaw s1 off + n % 2 ^ w)) s1

/-- Collisions and lost arbitrations at the tile's banks while a piece of its work ran (R84, R86, R108): how many is a free value. -/
def bankEvents (t : Nat) (s : State) : State := countFree (Reg.TILE_BANKSTALL t) 32 (countFree (Reg.TILE_REPLAY t) 32 s)

/-- An instruction issued: it is fetched from the stream (R165 where its page is not mapped), its word is checked, it waits for its semaphore and token, takes effect and retires.  A stream
whose block was replaced while it was suspended runs the block's WLOAD again before anything else (R107).  `mask` holds the bits
that are not reserved, `check` gives the subcode of the first check that fails. -/
def issue (t : Fin 8) (st : Fin 4) (w : BitVec 128) (cls op mask : Nat) (check : Iss → Nat) (act : Iss → State → Eff) (s : State) : Out :=
  let v := w.toNat
  let wc := bits v 3 0
  let wo := bits v 9 4
  if wc ≤ 4 && opDefined wc wo && !(decide (wc = cls) && decide (wo = op)) then .fault .wordOfAnotherRow
  else if !mayIssue t st s then .next s
  else if (s.tile t).reloads (streamOf (s.tile t) st) then .next (reloadBlocks t s)
  else
    let x := s.tile t
    let q := x.regs st
    let pc := if st.val = 3 then (x.defRun.map (·.pc)).getD 0 else q.pc
    let i : Iss := { t := t, st := st, word := w, v := v, job := q.job, cid := q.cid, pc := pc, dyn := q.dyn, q := q, x := x,
                     part := partOf s q.job t }
    .next (
      match firstUnmapped s q.job (q.base + 16 * pc) 16 with
      | some a => tileAccess t st a (urngFault q.job a 1 s)
      | none =>
      if wc > 4 then tileInvalid t st 1 s
      else if !opDefined wc wo then tileInvalid t st 2 s
      else if v &&& mask ≠ v then tileInvalid t st 10 s
      else if check i ≠ 0 then tileInvalid t st (check i) s
      else
        if issWaits x q v then updSeq t (regSeq st) (fun q => { q with state := 5 }) s
        else
          match act i (if bitOf v 10 then semDown t (semKey q.job (bits v 14 11)) s else s) with
          | .stall f => updSeq t (regSeq st) f s
          | .stop s1 => s1
          | .issued now next s1 =>
            let s2 := if now then retire t st q.job q.cid v true s1 else s1
            moveOn t st next s2)

/-- A control instruction without checks, which retires at once. -/
def control (t : Fin 8) (st : Fin 4) (w : BitVec 128) (op mask : Nat) (check : Iss → Nat) (f : Iss → Seq → Seq) (s : State) : Out :=
  issue t st w 0 op mask check (fun i s => .issued true (i.pc + 1) (updRegs t st (f i) s)) s

/-! ## Control class (R94) -/

/-- NOP. -/
def execNop (t : Fin 8) (st : Fin 4) (w : BitVec 128) (s : State) : Out := control t st w 0 (rangeMask []) (fun _ => 0) (fun _ q => q) s

/-- The jump target; the stream has no stated length, so a target lies outside it when it lies before its start or past the end of
the job's range (DEDUCED), or outside the segment of a deferred block. -/
def jumpTo (i : Iss) : Int := (i.pc : Int) + sx 32 (bits i.v 63 32)

def inStream (i : Iss) (x : Int) : Bool :=
  decide (0 ≤ x) && decide (i.q.base + 16 * x.toNat + 16 ≤ rangeBytes) &&
    (i.st != 3 || match i.x.defRun with
      | some d => decide (d.blk.offset ≤ x.toNat ∧ x.toNat < d.blk.offset + d.blk.count)
      | none => false)

/-- Whether JMP jumps, and the loop counter after it. -/
def jmpTaken (i : Iss) : Bool × Nat :=
  let c := (i.q.ctr (bits i.v 65 64) + 2 ^ 24 - 1) % 2 ^ 24
  if bitOf i.v 66 then (decide (c ≠ 0), c) else (true, i.q.ctr (bits i.v 65 64))

/-- JMP. -/
def execJmp (t : Fin 8) (st : Fin 4) (w : BitVec 128) (s : State) : Out :=
  issue t st w 0 3 (rangeMask [(66, 32)]) (fun i => if inStream i (jumpTo i) then 0 else 9)
    (fun i s =>
      let (go, c) := jmpTaken i
      .issued true (if go then (jumpTo i).toNat else i.pc + 1)
        (updRegs t st (fun q => { q with loop := Tbl.put q.loop (bits i.v 65 64) c }) s)) s

/-- SETC. -/
def execSetc (t : Fin 8) (st : Fin 4) (w : BitVec 128) (s : State) : Out :=
  control t st w 4 (rangeMask [(33, 32), (63, 40)]) (fun _ => 0)
    (fun i q => { q with loop := Tbl.put q.loop (bits i.v 33 32) (bits i.v 63 40) }) s

/-- ASET. -/
def execAset (t : Fin 8) (st : Fin 4) (w : BitVec 128) (s : State) : Out :=
  control t st w 5 (rangeMask [(34, 32), (63, 40)]) (fun i => if bits i.v 34 32 = 0 then 9 else 0)
    (fun i q => { q with areg := Tbl.put q.areg (bits i.v 34 32) (bits i.v 63 40) }) s

/-- AINC. -/
def execAinc (t : Fin 8) (st : Fin 4) (w : BitVec 128) (s : State) : Out :=
  control t st w 6 (rangeMask [(34, 32), (63, 40)]) (fun i => if bits i.v 34 32 = 0 then 9 else 0)
    (fun i q => { q with areg := Tbl.put q.areg (bits i.v 34 32) ((q.ar (bits i.v 34 32) + bits i.v 63 40) % 2 ^ 24) }) s

/-- RBSET. -/
def execRbset (t : Fin 8) (st : Fin 4) (w : BitVec 128) (s : State) : Out :=
  control t st w 7 (rangeMask [(33, 32), (127, 64)]) (fun _ => 0)
    (fun i q => { q with rbase := Tbl.put q.rbase (bits i.v 33 32) (bits i.v 127 64) }) s

/-- RBINC. -/
def execRbinc (t : Fin 8) (st : Fin 4) (w : BitVec 128) (s : State) : Out :=
  control t st w 8 (rangeMask [(33, 32), (111, 64)]) (fun _ => 0)
    (fun i q =>
      let b := q.rb (bits i.v 33 32)
      { q with rbase := Tbl.put q.rbase (bits i.v 33 32) (b / 2 ^ 48 * 2 ^ 48 + (b % 2 ^ 48 + bits i.v 111 64) % 2 ^ 48) }) s

/-! ## Chunk ends (R100) -/

/-- Whether everything R100 names is done for a sequencer, its passes and closes included (R72: the record carries their status): a deferred
block has run when its last instruction has retired (R90).  DESIGN CHOICE: a CBND or END inside a deferred block never retires; the spec does not
say what one does there (log 124). -/
def chunkDone (i : Iss) : Bool :=
  let mine := fun (o : Stream) => decide (regSeq o.num = regSeq i.st)
  !(i.x.dmas.any fun d => mine d.owner) && !(i.x.passes.any fun p => mine p.blk.owner) && !(i.x.closes.any fun c => mine c.owner) &&
    (regSeq i.st != 1 || (!(i.x.defq.any fun b => decide (b.cid = i.cid)) && i.x.defRun.isNone &&
      !(i.x.semWait.any fun w => decide (w.st = 3) && decide (w.cid = i.cid)))) && i.st != 3

/-- Whether an instruction that ends a chunk may retire: R100 is met, and its SEN finds the semaphore below 15 (R90). -/
def mayRetire (i : Iss) (s : State) : Bool :=
  chunkDone i && !(bitOf i.v 15 && decide ((s.tile i.t).sem (semKey i.job (bits i.v 19 16)) ≥ 15))

/-- CBND: the chunk ends, its draws return and the command reaches a chunk boundary. -/
def execCbnd (t : Fin 8) (st : Fin 4) (w : BitVec 128) (s : State) : Out :=
  issue t st w 0 1 (rangeMask []) (fun _ => 0) (fun i s =>
    if !mayRetire i s then .stall id
    else
      let s1 := retire t st i.job i.cid i.v true s
      let s2 := updSeq t (regSeq st) (fun q => { q with pc := i.pc + 1, dyn := q.dyn + 1, state := 3, ahead := [], laStop := none, resumed := false }) s1
      let s3 := boundary i.q.queue i.cid (releaseChunk (unitOf t st) s2)
      match headOf s3 i.q.queue with
      | some c => if c.cid = i.cid then .stop s3 else .stop (updTile t (fun x => x.release (regSeq st) 0) s3)
      | none => .stop (updTile t (fun x => x.release (regSeq st) 0) s3)) s

/-- END: the chunk ends and the command completes OK, or with what a chunk boundary gives it (R30, R32, R465). -/
def execTileEnd (t : Fin 8) (st : Fin 4) (w : BitVec 128) (s : State) : Out :=
  issue t st w 0 2 (rangeMask []) (fun _ => 0) (fun i s =>
    if !mayRetire i s then .stall id
    else
      let s1 := releaseChunk (unitOf t st) (retire t st i.job i.cid i.v true s)
      let s2 := updTile t (fun x => x.release (regSeq st) 0) s1
      match headOf s2 i.q.queue with
      | some c =>
        if c.cancReq || c.faultReq.isSome || c.overReq then .stop (boundary i.q.queue i.cid s2)
        else .stop (endCid i.q.queue i.cid St.OK 0 0 (satisfy Op.SUSPEND i.cid true s2))
      | none => .stop s2) s

/-! ## Sync class (R99, R102) -/

/-- Layer markers whose deferred blocks have run go to the Reduction Engine in the order of their LMARKs; the hand-over itself is
LMARK_DELIVERED. -/
def execLmark (t : Fin 8) (st : Fin 4) (w : BitVec 128) (s : State) : Out :=
  issue t st w 4 0 (rangeMask [(47, 32)]) (fun i => if i.st = 3 then 12 else 0)
    (fun i s => .issued true (i.pc + 1) (updTile t (fun x => { x with lmarks := x.lmarks ++ [(i.job, bits i.v 47 32)] }) s)) s

/-- DEFER, on the Backward sequencer or inside one of its deferred blocks (R101, R106).  DESIGN CHOICE: a segment that runs past the end of the unified range gets RANGE; the spec names no subcode for it (assumption 108). -/
def execDefer (t : Fin 8) (st : Fin 4) (w : BitVec 128) (s : State) : Out :=
  issue t st w 4 1 (rangeMask [(95, 32)])
    (fun i =>
      if regSeq i.st ≠ 1 then 12
      else if bits i.v 79 64 = 0 then 6
      else if i.q.base + 16 * (bits i.v 63 32 + bits i.v 79 64) > rangeBytes then 6
      else 0)
    (fun i s =>
      if i.x.defq.length ≥ 64 then .stall id
      else
        let b : DefBlock := { offset := bits i.v 63 32, count := bits i.v 79 64, layer := bits i.v 95 80, job := i.job, cid := i.cid }
        .issued true (i.pc + 1) (updTile t (fun x => { x with defq := x.defq ++ [b] }) s)) s

/-! ## Tile DMA (R91, R99, R311) -/

/-- The local and remote addresses of a DMA. -/
def dmaLocal (q : Seq) (v : Nat) : Nat := (bits v 106 83 + q.ar (bits v 82 80)) % 2 ^ 24
def dmaRemote (q : Seq) (v : Nat) : Nat := q.rb (bits v 39 38) % 2 ^ 48 + bits v 79 40
def dmaLen (v : Nat) : Nat := 32 * (bits v 122 107 + 1)

def dmaCheck (x : Tile) (p : Part) (q : Seq) (v : Nat) : Nat :=
  if bits v 124 123 = 3 then 13
  else if !tileSpanOk x p (dmaLocal q v) (dmaLen v) then 7
  else if dmaRemote q v % 32 ≠ 0 then 7
  else 0

/-- Bulk parts of a transfer: offset and length, at most 65,536 B each. -/
def bulkParts (len : Nat) : List (Nat × Nat) :=
  (List.range (ceilDiv len 65536)).map fun i => (65536 * i, min 65536 (len - 65536 * i))

/-- BULK_WR and BULK_RDREQ headers (R311). -/
def bulkHdr (typ tag off len a : Nat) : Bytes :=
  header (toLe 2 typ ++ zeros 2 ++ toLe 4 tag ++ toLe 4 off ++ toLe 4 len ++ toLe 6 a)

/-- The messages of parts of a transfer with SPACE = 2. -/
def bulkSend (t : Nat) (d : Dma) (tag : Nat) (parts : List (Nat × Nat)) (s : State) : State :=
  parts.foldl (fun s p =>
    if d.out then sendRank d.job d.rank 4 (bulkHdr 0x30 tag p.1 p.2 (d.remote + p.1)) ((s.tile t).read (d.loc + p.1) p.2) {} s
    else sendRank d.job d.rank 3 (bulkHdr 0x31 tag p.1 p.2 (d.remote + p.1)) [] {} s) s

/-- A DMA starts: its token becomes FILLING; a transfer with SPACE = 2 becomes bulk messages, to this device's own rank too (R99, R311). -/
def dmaStart (t st : Nat) (w : BitVec 128) (q : Seq) (s : State) : State :=
  let v := w.toNat
  let job := s.job? q.job
  let rank := q.rb (bits v 39 38) / 2 ^ 48
  let space := bits v 124 123
  let d : Dma := { owner := streamOf (s.tile t) st, job := q.job, cid := q.cid, tok := bits v 35 32, out := bitOf v 36, space := space, rank := rank,
                   remote := dmaRemote q v, loc := dmaLocal q v, len := dmaLen v, moved := 0,
                   bulk := if space = 2 then some (s.zor.nextTag % 2 ^ 32) else none, stopped := [], word := w, hit := [] }
  let s1 := updSeq t (regSeq st) (fun q => { q with tok := Tbl.put q.tok d.tok .filling }) s
  if space = 2 then
    let ndev := (job.map (·.ndev)).getD 0
    if rank ≥ ndev then tileAccess t st d.remote s1
    else if d.out && (s.tile t).poisoned d.loc d.len then tilePoison t st s1
    else
      let tag := s.zor.nextTag % 2 ^ 32
      let b : Bulk := { tag := tag, tile := t, parts := (bulkParts d.len).map (·.1), restore := false }
      bulkSend t d tag (bulkParts d.len) (updTile t (fun x => { x with dmas := x.dmas ++ [d] })
        { s1 with zor := { s1.zor with nextTag := s1.zor.nextTag + 1, bulks := s1.zor.bulks ++ [b] } })
  else updTile t (fun x => { x with dmas := x.dmas ++ [d] }) s1

/-- The bits of a DMA that are not reserved (R89, R99). -/
def dmaMask : Nat := rangeMask [(124, 32)]

/-- DMA (R99): one the lookahead engine has already issued is passed over. -/
def execDma (t : Fin 8) (st : Fin 4) (w : BitVec 128) (s : State) : Out :=
  issue t st w 3 0 dmaMask (fun i => dmaCheck i.x i.part i.q i.v)
    (fun i s =>
      if i.st ≠ 3 && i.q.ahead.contains i.dyn then
        .issued false (i.pc + 1) (updSeq t (regSeq st) (fun q => { q with ahead := q.ahead.erase i.dyn }) s)
      else if i.q.token (bits i.v 35 32) ≠ .empty then .stall fun q => { q with state := 5 }
      else
        let s1 := dmaStart t st w i.q s
        if ((s1.tile t).seq (regSeq st)).state = 6 then .stop s1 else .issued false (i.pc + 1) s1) s

/-- What moving sectors of a DMA comes to: the state, and the stop it ends in. -/
inductive Moved where
  | done (s : State)
  | poison (s : State)
  | access (a : Nat) (s : State)

/-- The remote place of a transfer in the job's fabric SRAM allocation. -/
def fabricAt (j a n : Nat) : Option Nat :=
  let (base, size) := Config.fabricAlloc j
  if a + n ≤ size then some (base + a) else none

/-- Bytes [lo, hi) of a transfer within this device moved (R87, R99). -/
def dmaMove (t : Nat) (d : Dma) (lo hi : Nat) (s : State) : Moved :=
  let n := hi - lo
  let a := d.remote + lo
  let l := d.loc + lo
  if n = 0 ∨ d.space = 2 then .done s
  else if d.space = 1 then
    match fabricAt d.job a n with
    | none => .access a s
    | some f =>
      if d.out then
        if (s.tile t).poisoned l n then .poison s
        else .done { s with fabric := Mem.sets s.fabric 0 f ((s.tile t).read l n) }
      else .done (updTile t (fun x => x.write l (Mem.gets s.fabric 0 f n) false) s)
  else if d.out then
    if (s.tile t).poisoned l n then .poison s
    else
      match rangeWrite d.job a ((s.tile t).read l n) s with
      | .unmapped b s1 => .access b s1
      | .ok [] s1 => .done s1
      | .ok _ s1 => .poison s1
  else
    match rangeRead d.job a n s with
    | .unmapped b s1 => .access b s1
    | .ok data bad s1 =>
      .done (updTile t (fun x =>
        (List.range (n / 32)).foldl (fun x i =>
          x.write (l + 32 * i) ((data.drop (32 * i)).take 32) (bad.contains (a + 32 * i))) x) s1)

/-- Whether a DMA's sequencer runs its chunk. -/
def dmaRuns (t : Nat) (d : Dma) (s : State) : Bool :=
  match (s.unit (unitOf t d.owner.num)).run with
  | some ch => decide (ch.cid = d.cid)
  | none => false

/-- Whether a bulk transfer's parts have all been answered. -/
def bulkDone (s : State) (d : Dma) : Bool :=
  match d.bulk with
  | none => true
  | some tag => match s.zor.bulks.find? fun b => decide (b.tag = tag) with | some b => decide (b.parts = []) | none => true

/-! ## Lookahead (R105) -/

/-- Bytes of a job's range as they stand, none where a page is not mapped. -/
def peek (s : State) (j va n : Nat) : Option Bytes :=
  match rangeRead j va n s with
  | .ok d _ _ => some d
  | .unmapped _ _ => none

/-- One control instruction executed ahead of time on the engine's own registers: the next index, or none where it stops.  DESIGN CHOICE: the
16 KiB instruction buffer holds the 1,024 instructions of the aligned block that the issue point lies in; the spec does not say which it holds
(assumption 109). -/
def aheadStep (q : Seq) (v pc : Nat) : Option (Seq × Nat) :=
  if bitOf v 10 then none
  else
    match bits v 3 0, bits v 9 4 with
    | 0, 1 => none
    | 0, 2 => none
    | 0, 3 =>
      let c := (q.ctr (bits v 65 64) + 2 ^ 24 - 1) % 2 ^ 24
      let go := !bitOf v 66 || decide (c ≠ 0)
      let q1 := if bitOf v 66 then { q with loop := Tbl.put q.loop (bits v 65 64) c } else q
      let dst := (pc : Int) + sx 32 (bits v 63 32)
      if !go then some (q1, pc + 1) else if dst < 0 ∨ dst.toNat / 1024 ≠ q.pc / 1024 then none else some (q1, dst.toNat)
    | 0, 4 => some ({ q with loop := Tbl.put q.loop (bits v 33 32) (bits v 63 40) }, pc + 1)
    | 0, 5 => some ({ q with areg := Tbl.put q.areg (bits v 34 32) (bits v 63 40) }, pc + 1)
    | 0, 6 => some ({ q with areg := Tbl.put q.areg (bits v 34 32) ((q.ar (bits v 34 32) + bits v 63 40) % 2 ^ 24) }, pc + 1)
    | 0, 7 => some ({ q with rbase := Tbl.put q.rbase (bits v 33 32) (bits v 127 64) }, pc + 1)
    | 0, 8 =>
      let b := q.rb (bits v 33 32)
      some ({ q with rbase := Tbl.put q.rbase (bits v 33 32) (b / 2 ^ 48 * 2 ^ 48 + (b % 2 ^ 48 + bits v 111 64) % 2 ^ 48) }, pc + 1)
    | _, _ => some (q, pc + 1)

/-- What the lookahead engine meets on its walk: a DMA to issue, with its word, its dynamic index and the registers there, or a place where it
stops. -/
inductive Ahead where
  | dma (v dyn : Nat) (q : Seq)
  | stop (dyn : Nat)

/-- The walk from the issue point to the first DMA with PF = 1 not yet issued, or to the first place where R105 stops the engine.  DESIGN CHOICE: a
DMA with PF = 1 and TEN = 1 whose TOK is not FULL stops it too; R105's list does not name that case (assumption 109). -/
def lookahead (s : State) (q0 : Seq) (fuel : Nat) (q : Seq) (pc dyn : Nat) : Ahead :=
  match fuel with
  | 0 => .stop dyn
  | fuel + 1 =>
    match peek s q0.job (q0.base + 16 * pc) 16 with
    | none => .stop dyn
    | some b =>
      let v := le b
      if bits v 3 0 = 3 ∧ bits v 9 4 = 0 ∧ bitOf v 37 ∧ !q0.ahead.contains dyn then
        if bitOf v 10 || decide (q0.token (bits v 35 32) ≠ .empty) || (bitOf v 20 && decide (q0.token (bits v 25 22) ≠ .full)) then .stop dyn
        else .dma v dyn q
      else
        match aheadStep q v pc with
        | none => .stop dyn
        | some (q1, pc1) => lookahead s q0 fuel q1 pc1 (dyn + 1)

/-- Whether the engine stands at a stop that the issue point has not reached. -/
def Seq.laHeld (q : Seq) : Bool := match q.laStop with | some d => decide (q.dyn < d) | none => false

/-- The engine walks on; where it meets a stop it stays there until the issue point catches up (R105). -/
def laSettle (t sq : Nat) (s : State) : State :=
  let q := (s.tile t).seq sq
  match lookahead s q 64 q q.pc q.dyn with
  | .dma _ _ _ => updSeq t sq (fun q => { q with laStop := none }) s
  | .stop d => updSeq t sq (fun q => { q with laStop := some d }) s

/-- LOOKAHEAD_DMA_ISSUE (R105): the engine issues the next DMA with PF = 1 that it reaches within 64 instructions, and walks on; where it reaches
none it stops.  A DMA that R106 calls invalid has no effect here: the sequencer stops at it. -/
def execLookaheadDmaIssue (t : Fin 8) (sq : Fin 3) (w : BitVec 128) (s : State) : Out :=
  let x := s.tile t
  let q := x.seq sq
  when (s.clocked && (s.tile? t).isSome && (s.unit (3 * t + sq)).run.isSome && !(s.unit (3 * t + sq)).halted && !q.laHeld) (fun s =>
    match lookahead s q 64 q q.pc q.dyn with
    | .stop d => updSeq t sq (fun q => { q with laStop := some d }) s
    | .dma v dyn q1 =>
      if v ≠ w.toNat then s
      else if v &&& dmaMask ≠ v ∨ dmaCheck x (partOf s q.job t) q1 v ≠ 0 then s
      else
        laSettle t sq (updSeq t sq (fun y => { y with ahead := y.ahead ++ [dyn], laStop := none }) (dmaStart t sq w q1 s))) s

/-! ## Forced suspension (R107) -/

/-- Whether a message is a part of a bulk transfer none of whose flits has been placed on a link. -/
def TxMsg.unsentPart (m : TxMsg) (tag off : Nat) : Bool :=
  decide (m.placed = 0) && m.enc && decide (leAt m.hdr 0 2 = 0x30 ∨ leAt m.hdr 0 2 = 0x31) && decide (leAt m.hdr 4 4 = tag) &&
    decide (leAt m.hdr 8 4 = off)

/-- A bulk transfer stopped (R107): parts not yet on the links leave the transmit store; of a read every part unanswered is stopped, and an answer
that still comes is not taken. -/
def bulkPause (t i : Nat) (d : Dma) (s : State) : State :=
  match d.bulk.bind fun tag => s.zor.bulks.find? fun b => decide (b.tag = tag) with
  | none => s
  | some b =>
    let unsent := b.parts.filter fun off => s.zor.store.any fun m => m.unsentPart b.tag off
    let stop := if d.out then unsent else b.parts
    let s1 := { s with zor := { s.zor with
      store := s.zor.store.filter fun m => !(b.parts.any fun off => m.unsentPart b.tag off),
      bulks := s.zor.bulks.map fun y => if y.tag = b.tag then { y with parts := y.parts.filter fun off => !stop.contains off } else y } }
    updTile t (fun x => { x with dmas := x.dmas.modify i fun y => { y with stopped := y.stopped ++ stop } }) s1

/-- A stopped bulk transfer goes on (R107): the stopped parts are sent, a read's under a new TAG, since the destination has seen the old one's
identities (R294). -/
def bulkResume (t i : Nat) (s : State) : State :=
  match (s.tile t).dmas[i]? with
  | none => s
  | some d =>
    match d.stopped, d.bulk with
    | off :: more, some tag =>
      let stop := off :: more
      let tag1 := if d.out then tag else s.zor.nextTag % 2 ^ 32
      let s1 := { s with zor := { s.zor with
        nextTag := if d.out then s.zor.nextTag else s.zor.nextTag + 1,
        bulks := s.zor.bulks.map fun y => if y.tag = tag then { y with tag := tag1, parts := y.parts ++ stop } else y } }
      if d.out && stop.any fun o => (s.tile t).poisoned (d.loc + o) (min 65536 (d.len - o)) then tilePoison t d.owner.num s1
      else
        bulkSend t d tag1 ((bulkParts d.len).filter fun p => stop.contains p.1)
          (updTile t (fun x => { x with dmas := x.dmas.modify i fun y => { y with stopped := [], bulk := some tag1 } }) s1)
    | _, _ => s

/-- The stopped transfers of a sequencer restarted (R107). -/
def resumeDmas (t k : Nat) (s : State) : State :=
  ((List.range (s.tile t).dmas.length).filter fun i =>
    match (s.tile t).dmas[i]? with | some d => decide (regSeq d.owner.num = k) | none => false).foldl (fun s i => bulkResume t i s) s

/-- A DMA in progress stops at a sector boundary: how many more sectors have landed is a free value, none where what they reach is not there. -/
def dmaPause (t i : Nat) (s : State) : State :=
  match (s.tile t).dmas[i]? with
  | none => s
  | some d =>
    if d.space = 2 then bulkPause t i d s
    else
      let (f, s1) := freeVal s
      let upto := d.moved + 32 * (f % ((d.len - d.moved) / 32 + 1))
      powered (fun s =>
        match dmaMove t d d.moved upto s with
        | .done s2 => updTile t (fun x => { x with dmas := x.dmas.modify i fun y => { y with moved := upto } }) s2
        | _ => s) s1

/-- The transfers of a sequencer paused; whether any was starved of bank cycles is a free value (R107). -/
def pauseDmas (t k : Nat) (s : State) : State :=
  let mine := (List.range (s.tile t).dmas.length).filter fun i =>
    match (s.tile t).dmas[i]? with | some d => decide (regSeq d.owner.num = k) | none => false
  let s1 := mine.foldl (fun s i => dmaPause t i s) s
  if mine = [] then s1
  else
    let (f, s2) := freeVal s1
    let n := f % (mine.length + 1)
    if n = 0 then s2 else raiseInt (blkTile t) 1 (count (Reg.TILE_DMASTARVE t) 32 n s2)

end Sys2Proof.Machine
end

