-- ==== Sys2Proof/Machine/VecMath.lean ====
section
/-! DEFINITION. The arithmetic of the vector engine's stages (R116, R117): exact operations, and the functions whose results the spec
gives within a bound of ulps. -/

namespace Sys2Proof.Machine

def qnan : Nat := 0x7FC00000
def one32 : Nat := 0x3F800000

/-- An FP32 code with any NaN made canonical (R47). -/
def canon (c : Nat) : Nat := if (f32 c).isNan then qnan else c

/-! ## Fixed-point evaluation of the transcendental functions -/

/-- Fraction bits of the evaluation. -/
def fxBitsV : Nat := 320
def fxOne : Int := 2 ^ fxBitsV
def fxMul (a b : Int) : Int := a * b / fxOne
def fxDiv (a b : Int) : Int := if b = 0 then 0 else a * fxOne / b

/-- A value as a fixed-point number, its magnitude held below 200. -/
def toFx (x : Num) : Int :=
  match x with
  | .fin g n d e =>
    let v : Int := ((n * 2 ^ (fxBitsV : Nat) : Nat) : Int)
    let u : Int := if 0 ≤ e then v * 2 ^ e.toNat / d else v / (d * 2 ^ (-e).toNat : Nat)
    let u := min u (200 * fxOne)
    if g then -u else u
  | _ => 0
def ofFx (v : Int) : Num := .fin (decide (v < 0)) v.natAbs 1 (-(fxBitsV : Int))

/-- e^x: a series on x / 2^10, squared ten times. -/
def fxExp (x : Int) : Int :=
  let y := x / 1024
  let r := (List.range 60).foldl (fun (a : Int × Int) (k : Nat) => (a.1 + a.2, fxMul a.2 y / ((k : Int) + 1))) (0, fxOne)
  iter 10 (fun v => fxMul v v) r.1

/-- ln of n / d, from the series of the area tangent of (n − d) / (n + d). -/
def fxLnRatio (n d : Int) : Int :=
  let z := fxDiv (n - d) (n + d)
  let z2 := fxMul z z
  let r := (List.range 120).foldl (fun (a : Int × Int) (k : Nat) => (a.1 + a.2 / (2 * (k : Int) + 1), fxMul a.2 z2)) (0, z)
  2 * r.1

/-- ln of a positive value. -/
def fxLn (x : Num) : Int :=
  match x with
  | .fin _ n d e =>
    if n = 0 ∨ d = 0 then 0
    else
      let k := floorLog2 n d e
      -- n / d × 2^(e − k) lies in [1, 2)
      let sh := e - k
      fxLnRatio (scaleUp n sh : Int) (scaleDn d sh : Int) + k * fxLnRatio 2 1
  | _ => 0

/-- A square root whose last bit is sticky: exact in every rounding. -/
def numSqrt (x : Num) : Num :=
  match x with
  | .fin g n d e =>
    if n = 0 then .fin g 0 1 0
    else
      let m := n * d
      let e1 := if e % 2 = 0 then e else e - 1
      let m1 := (if e % 2 = 0 then m else 2 * m) * 2 ^ 256
      let r := Nat.sqrt m1
      .fin false (2 * r + b2n (decide (r * r ≠ m1))) d (e1 / 2 - 129)
  | .inf false => .inf false
  | _ => .nan

/-! ## Results within a bound (R116) -/

/-- The ulp of a value: the exponent of 2 it is. -/
def ulpExp (x : Num) : Int :=
  match x with
  | .fin _ n d e => if n = 0 then -149 else max (floorLog2 n d e) (-126) - 23
  | _ => -149

/-- Whether a code lies within `k` ulp of a value. -/
def inBound (k : Nat) (x : Num) (c : Nat) : Bool :=
  let diff := (Num.add (f32 c) x.neg).abs
  !Num.lt (.fin false k 1 (ulpExp x)) diff

/-- The result of a function within `k` ulp of the value: one of the codes within the bound, which one is open (Config.vecStep).  The status is
that of the code delivered (R117). -/
def within (op k a : Nat) (x : Num) : Nat × Nat :=
  let (c, st) := toF32 x
  if !(f32 c).isFin then (c, st)
  else
    let m := c % 2 ^ 31
    let d := Config.vecStep op a % 5
    let m1 := m + d - 2
    let c1 := c / 2 ^ 31 * 2 ^ 31 + m1
    if d ≠ 2 && m + d ≥ 2 && decide (m1 ≤ 0x7F7FFFFF) && inBound k x c1 then
      (c1, if m1 < 0x00800000 && !Num.eq (f32 c1) x then NS.UNF else 0)
    else (c, st)

/-- A function of a nonzero finite argument is never exact: a result below the normal range is UNF (R117). -/
def tinyUnf (r : Nat × Nat) : Nat × Nat := (r.1, if r.1 % 2 ^ 31 < 0x00800000 then r.2 ||| NS.UNF else r.2)

/-- EXP, LOG, TANH, SIGM, RCP and RSQRT of an operand that is no NaN. -/
def vecFn (op a : Nat) : Nat × Nat :=
  let x := f32 a
  let neg := x.sign
  match op with
  | 0x0E =>
    if x.isZero then (if neg then 0xFF800000 else 0x7F800000, 0)
    else if neg then (qnan, NS.INV)
    else if x.isInf then (0, 0)
    else within op 1 a (Num.div (Num.ofNat 1) (numSqrt x))
  | 0x0F =>
    if x.isZero then (if neg then 0xFF800000 else 0x7F800000, 0)
    else if x.isInf then (if neg then 0x80000000 else 0, 0)
    else within op 1 a (Num.div (Num.ofNat 1) x)
  | 0x10 =>
    if x.isInf then (if neg then 0 else 0x7F800000, 0)
    else if x.isZero then within op 2 a (Num.ofNat 1)
    else tinyUnf (within op 2 a (ofFx (fxExp (toFx x))))
  | 0x11 =>
    if x.isZero then (0xFF800000, 0)
    else if neg then (qnan, NS.INV)
    else if x.isInf then (0x7F800000, 0)
    else within op 2 a (ofFx (fxLn x))
  | 0x12 =>
    if x.isInf then (if neg then 0xBF800000 else one32, 0)
    else if x.isZero then (a, 0)
    else
      let y := toFx (if Num.lt (Num.ofNat 64) x.abs then Num.ofNat 64 else x.abs)
      let q := fxExp (2 * y)
      let r := ofFx (fxDiv (q - fxOne) (q + fxOne))
      tinyUnf (within op 2 a (if neg then r.neg else r))
  | _ =>
    if x.isInf then (if neg then 0 else one32, 0)
    else tinyUnf (within op 2 a (ofFx (fxDiv fxOne (fxOne + fxExp (-(toFx x))))))

/-! ## Elementwise operations -/

/-- The result of exact arithmetic rounded once (R117): a NaN operand gives NANIN, a NaN made here INV. -/
def arith (ops : List Nat) (r : Num) : Nat × Nat :=
  if ops.any fun c => (f32 c).isNan then (qnan, NS.NANIN)
  else if r.isNan then (qnan, NS.INV)
  else toF32 r

/-- The smaller of two codes (R116); which of two equal codes of opposite zeros is open. -/
def vmin (a b : Nat) : Nat :=
  if Num.lt (f32 a) (f32 b) then a else if Num.lt (f32 b) (f32 a) then b else if a = b then a else if Config.zeroPick a b then b else a
def vmax (a b : Nat) : Nat :=
  if Num.lt (f32 b) (f32 a) then a else if Num.lt (f32 a) (f32 b) then b else if a = b then a else if Config.zeroPick a b then b else a

def isNanC (c : Nat) : Bool := (f32 c).isNan

/-- A condition of SEL or MASK: true when neither zero nor NaN. -/
def vcond (a : Nat) : Bool × Nat := if isNanC a then (false, NS.NANIN) else (!(f32 a).isZero, 0)

/-- A comparison (R117). -/
def vcmp (a b : Nat) (r : Bool) : Nat × Nat := if isNanC a || isNanC b then (0, NS.NANIN) else (if r then one32 else 0, 0)

/-- The stage operations that work lane by lane on a, b, c; `u` is the random number of an RINT under SR. -/
def vecOp (op imm u a b c : Nat) : Nat × Nat :=
  let x := f32 a
  let y := f32 b
  let z := f32 c
  match op with
  | 0x00 => (canon a, 0)
  | 0x01 => arith [a, b] (Num.add x y)
  | 0x02 => arith [a, b] (Num.add x y.neg)
  | 0x03 => arith [a, b] (Num.mul x y)
  | 0x04 => arith [a, b, c] (Num.add (Num.mul x y) z)
  | 0x05 => arith [a, b, c] (Num.add z (Num.mul x y).neg)
  | 0x06 => if isNanC a || isNanC b then (qnan, NS.NANIN) else (vmin a b, 0)
  | 0x07 => if isNanC a || isNanC b then (qnan, NS.NANIN) else (vmax a b, 0)
  | 0x08 => if isNanC a then (qnan, NS.NANIN) else (a % 2 ^ 31, 0)
  | 0x09 => if isNanC a then (qnan, NS.NANIN) else (a ^^^ 0x80000000, 0)
  | 0x0A => if isNanC a || isNanC b || isNanC c then (qnan, NS.NANIN) else (vmin (vmax a b) c, 0)
  | 0x0B =>
    match x with
    | .nan => (qnan, NS.NANIN)
    | .inf _ => (a, 0)
    | .fin g n d e => ((toF32 (.fin g (roundMag (imm % 4) u n d e 0).1 1 0)).1, 0)
  | 0x0C => arith [a, b] (Num.div x y)
  | 0x0D => if isNanC a then (qnan, NS.NANIN) else if x.sign && !x.isZero then (qnan, NS.INV) else toF32 (numSqrt x)
  | 0x18 => vcmp a b (Num.lt x y)
  | 0x19 => vcmp a b (Num.lt x y || Num.eq x y)
  | 0x1A => vcmp a b (Num.eq x y)
  | 0x1B => let (p, st) := vcond a; (canon (if p then b else c), st)
  | _ => if isNanC a then (qnan, NS.NANIN) else vecFn op a

/-- The reductions over the active lanes (R116): RSUM, RSUMSQ (one group under R61, rounded once), RMAX, RMIN. -/
def vecReduce (op : Nat) (as : List Nat) : Nat × Nat :=
  if as.any isNanC then (qnan, NS.NANIN)
  else
    match op with
    | 0x22 => (match as with | [] => 0 | a :: r => r.foldl vmax a, 0)
    | 0x23 => (match as with | [] => 0 | a :: r => r.foldl vmin a, 0)
    | _ =>
      let ts := as.map fun a => if op = 0x21 then Num.mul (f32 a) (f32 a) else f32 a
      let v := (groupSum ts).1
      if v.isNan then (qnan, NS.INV) else toF32 v

/-- Sources an operation uses (R116); none for a code that is not listed. -/
def opArity (op : Nat) : Option Nat :=
  if [0x00, 0x08, 0x09, 0x0B, 0x0D, 0x0E, 0x0F, 0x10, 0x11, 0x12, 0x13, 0x20, 0x21, 0x22, 0x23, 0x28].contains op then some 1
  else if [0x01, 0x02, 0x03, 0x06, 0x07, 0x0C, 0x18, 0x19, 0x1A].contains op then some 2
  else if [0x04, 0x05, 0x0A, 0x1B].contains op then some 3
  else if op = 0x2C then some 0
  else none

/-- The function unit's operations (R127). -/
def usesFnUnit (op : Nat) : Bool := decide (0x0C ≤ op ∧ op ≤ 0x13)

end Sys2Proof.Machine
end

