-- ==== Sys2Proof/Machine/Vector.lean ====
section
/-! DEFINITION. Vector engines: chain descriptors, their checks, the execution of chains and update programs, and their life on the
engine (R109 to R133). -/

namespace Sys2Proof.Machine

/-! ## Descriptors (R111, R112, R114) -/

/-- A stream descriptor. -/
structure Strm where
  addr   : Nat
  fmt    : Nat
  out    : Bool
  en     : Bool
  bcast  : Bool
  acc    : Bool
  reg    : Nat
  rmode  : Nat
  sat    : Bool
  stride : Int
  role   : Nat
  /-- A reserved bit is set, or a field of a stream with EN = 0. -/
  rsvd   : Bool
  deriving DecidableEq, Repr

def strmOf (d : Bytes) (i : Nat) : Strm :=
  let v := leAt d (64 + 16 * i) 16
  let en := bitOf v 37
  { addr := bits v 31 0, fmt := bits v 35 32, out := bitOf v 36, en := en, bcast := bitOf v 38, acc := bitOf v 39, reg := bits v 42 40,
    rmode := bits v 44 43, sat := bitOf v 45, stride := sx 24 (bits v 71 48), role := bits v 75 72,
    rsvd := decide (bits v 47 46 ≠ 0) || decide (bits v 127 76 ≠ 0) || (!en && decide (v ≠ 0)) }

/-- A stage descriptor. -/
structure Stage where
  op   : Nat
  dst  : Nat
  src  : List Nat
  mask : Bool
  imm  : Nat
  rsvd : Bool
  deriving DecidableEq, Repr

def stageOf (d : Bytes) (i : Nat) : Stage :=
  let v := leAt d (192 + 8 * i) 8
  { op := bits v 5 0, dst := bits v 8 6, src := [bits v 12 9, bits v 16 13, bits v 20 17], mask := bitOf v 21, imm := bits v 63 32,
    rsvd := decide (bits v 31 22 ≠ 0) || (decide (bits v 5 0 = 0x28) && bitOf v 63) }

/-- A chain bound and ready to run: its streams and stages, vectors, lanes, whether it is elementwise over an extent, the role bases
(2^32 when unbound) and the address added to streams with ROLE = 0. -/
structure Chain where
  strms  : List Strm
  stages : List Stage
  count  : Nat
  lanes  : Nat
  /-- LANES as the header has it. -/
  hlanes : Nat
  id     : Nat
  elem   : Bool
  extent : Nat
  roles  : List Nat
  abase  : Nat
  seq    : Seq
  hdrRsvd : Bool
  deriving DecidableEq, Repr

/-- A descriptor bound.  DESIGN CHOICE: stage descriptors beyond NSTGM1 are neither read nor checked, so reserved bits set there do not count
(R114, R125; log 126). -/
def chainOf (d : Bytes) (roles : List Nat) (extent : Nat) (elem : Bool) (abase : Nat) (q : Seq) : Chain :=
  let h := leAt d 0 4
  { strms := (List.range 8).map (strmOf d), stages := (List.range (bits h 27 25 + 1)).map (stageOf d),
    count := if elem then ceilDiv extent 256 else bits h 15 0 + 1, lanes := if elem then 256 else bits h 24 16, hlanes := bits h 24 16, id := leAt d 4 4,
    elem := elem, extent := extent, roles := roles, abase := abase, seq := q,
    hdrRsvd := decide (bits h 31 28 ≠ 0) || decide (leAt d 8 56 ≠ 0) }

/-- Active lanes of a vector (R131: the last vector of an elementwise chain has the rest of the extent). -/
def Chain.lanesAt (c : Chain) (v : Nat) : Nat := if c.elem && decide (v + 1 = c.count) then c.extent - 256 * v else c.lanes

/-- Bytes of `n` elements of a stream's format (R113). -/
def strmBytes (fmt n : Nat) : Nat := if fmt = 8 then 16 * n else fmtBytes fmt n

/-- The address of a stream's vector 0 and its stride (R112, R131). -/
def Chain.base (c : Chain) (x : Strm) : Nat :=
  if x.role = 0 then (c.seq.taddr x.addr + c.abase) % 2 ^ 24 else c.roles.getD (x.role - 1) (2 ^ 32) + bits x.addr 23 0
def Chain.stride (c : Chain) (x : Strm) : Int :=
  if c.elem && decide (x.role ≠ 0) && !x.bcast then strmBytes x.fmt 256 else x.stride

/-- The address of a vector of a stream, none below zero; and the bytes it takes. -/
def Chain.vecAddr (c : Chain) (x : Strm) (v : Nat) : Option Nat :=
  let a : Int := (c.base x : Int) + v * c.stride x
  if a < 0 then none else some a.toNat
def Chain.vecBytes (c : Chain) (x : Strm) (v : Nat) : Nat := strmBytes x.fmt (if x.bcast then 1 else c.lanesAt v)

/-! ## Checks (R125) -/

/-- A failed check: subcode, stage, vector. -/
abbrev VErr := Nat × Nat × Nat

/-- The first vector of a stream that breaks its address rule (R113). -/
def badVector (x : Tile) (p : Part) (c : Chain) (st : Strm) : Option Nat :=
  (List.range c.count).find? fun v =>
    match c.vecAddr st v with
    | none => true
    | some a =>
      if st.fmt = 8 then decide (a % 16 ≠ 0) || !afSpanOk x p a (c.vecBytes st v) else !osSpanOk x p a (c.vecBytes st v)

/-- The first vector of an XACC stream that leaves its row (R113). -/
def leavesRow (c : Chain) (st : Strm) : Option Nat :=
  (List.range c.count).find? fun v =>
    match c.vecAddr st v with
    | none => false
    | some a => decide (a ≥ afBase) && decide (a / 4096 ≠ (a + c.vecBytes st v - 1) / 4096)

/-- The first vector of an XACC stream that lies outside the Accumulator File. -/
def outsideAf (c : Chain) (st : Strm) : Option Nat :=
  (List.range c.count).find? fun v =>
    match c.vecAddr st v with
    | some a => decide (a < afBase) || decide (a + c.vecBytes st v > 0x1000000)
    | none => true

def firstStage (c : Chain) (f : Stage → Bool) : Option Nat := c.stages.findIdx? f
def firstBad (l : List (Option VErr)) : Option VErr := l.findSome? id

/-- The checks of a chain; where several fail, the lowest subcode is recorded (assumption 56).  A stream whose role has no base has no addresses to
check: ROLE is recorded of it.  DESIGN CHOICE, the spec naming no subcode: a nonzero
AREG with ROLE ≠ 0 and a nonzero field of a stream with EN = 0 give RSVD, ACC on an input gives BAD_FMT (assumption 110). -/
def Chain.check (c : Chain) (x : Tile) (p : Part) (uprog : Bool) (roleMask : Nat) : Option VErr :=
  let on := c.strms.filter (·.en)
  let stage := fun (sub : Nat) (f : Stage → Bool) => (firstStage c f).map fun i => ((sub, i, 0) : VErr)
  let bound := fun (r : Strm) => decide (r.role = 0) || (uprog && decide (c.roles.getD (r.role - 1) (2 ^ 32) < 2 ^ 32))
  let at_ := on.filter bound
  let any := fun (sub : Nat) (b : Bool) => if b then some ((sub, 0, 0) : VErr) else none
  let vec := fun (sub : Nat) (o : Option Nat) => o.map fun v => ((sub, 0, v) : VErr)
  let badSrc := fun (g : Stage) =>
    let n := (opArity g.op).getD 3
    (g.src.take n).any (fun k => decide (k > 12)) || (g.src.drop n).any (fun k => decide (k ≠ 0))
  let gatherFmt := fun (g : Stage) => decide (g.op = 0x28) && (decide (bits g.imm 30 27 = 6) || decide (bits g.imm 30 27 ≥ 8))
  firstBad [
    stage 1 fun g => (opArity g.op).isNone,
    stage 2 badSrc,
    any 3 (on.any fun r => decide (r.fmt ≥ 9) || (r.acc && (decide (r.fmt ≠ 8) || !r.out))),
    vec 3 ((at_.filter fun r => decide (r.fmt = 8)).findSome? fun r => outsideAf c r),
    stage 3 gatherFmt,
    any 4 (on.any fun r => decide (r.rmode = 3)),
    stage 4 fun g => decide (g.op = 0x0B) && decide (g.imm % 4 = 3),
    any 5 (decide (c.hlanes = 0) || decide (c.hlanes > 256) || !(on.any (·.out)) || on.any fun r => r.out && r.bcast),
    vec 5 ((at_.filter fun r => decide (r.fmt = 8)).findSome? fun r => leavesRow c r),
    vec 6 (at_.findSome? fun r => badVector x p c r),
    any 7 (c.hdrRsvd || c.strms.any (·.rsvd) || on.any fun r => decide (bits r.addr 31 27 ≠ 0) || (decide (r.role ≠ 0) && decide (bits r.addr 26 24 ≠ 0))),
    stage 7 (·.rsvd),
    any 8 (on.any fun r => !bound r),
    any 9 (uprog && on.any fun r => decide (r.role ≠ 0) && !bitOf roleMask (r.role - 1))]

/-! ## Execution (R115, R118, R119) -/

/-- What a chain works on: the tile, the job's generators, the numeric status and the free values taken. -/
structure VSt where
  x  : Tile
  j  : Job
  ns : Nat
  fc : Nat

/-- How a vector ends; an access outside with the stage and the faulting address (R126, R343). -/
inductive VRes where
  | ok (s : VSt)
  | access (stage addr : Nat) (s : VSt)
  | poison (s : VSt)

/-- Bytes as a chain's input or gather reads them: where the chain's own outputs have changed them, the old or the new value (R123). -/
def chainRead (x0 : Tile) (a n : Nat) (s : VSt) : Bytes × VSt :=
  let new := s.x.read a n
  let old := x0.read a n
  if old = new then (new, s) else (if (Config.free s.fc).getLsbD 0 then new else old, { s with fc := s.fc + 1 })

/-- The lane's generator of a tile (R54, R118). -/
def laneGen (t l : Nat) : Nat := 4096 + 256 * t + l

/-- An element widened to FP32 (R113). -/
def widen (t l : Nat) (r : Strm) (bs : Bytes) (s : VSt) : Nat × VSt :=
  if r.fmt = 8 then
    let ((c, st), j) := narrowLane 0 r.rmode r.sat (laneGen t l) (XAcc.ofBytes bs).value s.j
    (c, { s with j := j, ns := s.ns ||| st })
  else (canon (toF32 (decode r.fmt (elemAt r.fmt bs 0))).1, s)

/-- The bytes of element i of a vector at `a`; for INT4 the nibble alone. -/
def elemBytes (x0 : Tile) (r : Strm) (a i : Nat) (s : VSt) : Bytes × VSt :=
  if r.fmt = 6 then
    let (b, s1) := chainRead x0 (a + i / 2) 1 s
    ([BitVec.ofNat 8 (bits (byteAt b 0).toNat (4 * (i % 2) + 3) (4 * (i % 2)))], s1)
  else chainRead x0 (a + strmBytes r.fmt 1 * i) (strmBytes r.fmt 1) s

/-- An input stream loaded into its register.  DESIGN CHOICE: of a BCAST XACC input element 0 is rounded once, and under SR it draws once, from
lane 0's generator; the spec does not say which lane draws, or how often (log 121). -/
def loadStream (t : Nat) (x0 : Tile) (c : Chain) (v : Nat) (r : Strm) (s : VSt) : List Nat × VSt :=
  let a := (c.vecAddr r v).getD 0
  let n := c.lanesAt v
  let out := (List.range (if r.bcast then 1 else n)).foldl (fun (acc : List Nat × VSt) i =>
    let (b, s1) := elemBytes x0 r a i acc.2
    let (e, s2) := widen t i r b s1
    (e :: acc.1, s2)) ([], s)
  (if r.bcast then List.replicate n (out.1.headD 0) else out.1.reverse, out.2)

/-- A source of a stage for every lane (R114). -/
def source (regs : List (List Nat)) (n v : Nat) (g : Stage) (k : Nat) : List Nat :=
  if k < 8 then regs.getD k []
  else if k = 8 then List.replicate n (canon g.imm)
  else if k = 9 then (List.range n).map fun l => (toF32 (Num.ofNat l)).1
  else if k = 10 then List.replicate n (toF32 (Num.ofNat v)).1
  else if k = 12 then List.replicate n one32
  else List.replicate n 0

/-- The faulting address where the index gives none, a free value (log 131). -/
def VSt.noAddr (s : VSt) : Nat × VSt := ((Config.free s.fc).toNat % 2 ^ 64, { s with fc := s.fc + 1 })

/-- One lane of GATHER (R119); one that stops the chain gives the faulting address (R126).  A NaN, infinite or negative index names no address
the spec states: RESULT is a free value (log 131). -/
def gatherLane (t : Nat) (x0 : Tile) (p : Part) (c : Chain) (g : Stage) (a : Nat) (s : VSt) : Except (Nat × VSt) (Nat × Bool × VSt) :=
  let fmt := bits g.imm 30 27
  match f32 a with
  | .fin neg n d e =>
    let k := (roundMag rtz 0 n d e 0).1
    if neg && decide (k ≠ 0) then .error s.noAddr
    else
      let sz := strmBytes fmt 1
      let at_ := (bits g.imm 23 0 + c.seq.ar (bits g.imm 26 24)) % 2 ^ 24 + k * sz
      if !osSpanOk s.x p at_ sz then .error (at_ % 2 ^ 64, s)
      else if s.x.poisoned at_ sz then .ok (0, true, s)
      else
        let (b, s1) := chainRead x0 at_ sz s
        let (w, s2) := widen t 0 { strmOf [] 0 with fmt := fmt } b s1
        .ok (w, false, s2)
  | _ => .error s.noAddr

/-- GATHER over the active lanes; the lowest lane that faults stops it (DESIGN CHOICE, log 131). -/
def gatherAll (t : Nat) (x0 : Tile) (p : Part) (c : Chain) (g : Stage) (as : List Nat) (s : VSt) : Except (Nat × VSt) (List Nat × Bool × VSt) :=
  match as with
  | [] => .ok ([], false, s)
  | a :: r =>
    match gatherLane t x0 p c g a s with
    | .error e => .error e
    | .ok (w, bad, s1) =>
      match gatherAll t x0 p c g r s1 with
      | .error e => .error e
      | .ok (ws, bad1, s2) => .ok (w :: ws, bad || bad1, s2)

/-- The result of a stage in every active lane. -/
def stageResult (t : Nat) (x0 : Tile) (p : Part) (c : Chain) (v : Nat) (g : Stage) (regs : List (List Nat)) (s : VSt) :
    Except (Nat × VSt) (List Nat × Bool × VSt) :=
  let n := c.lanesAt v
  let a := source regs n v g (g.src.getD 0 0)
  let b := source regs n v g (g.src.getD 1 0)
  let d := source regs n v g (g.src.getD 2 0)
  let draws := decide (g.op = 0x2C) || (decide (g.op = 0x0B) && decide (g.imm % 4 = 2))
  if g.op = 0x28 then gatherAll t x0 p c g a s
  else if 0x20 ≤ g.op ∧ g.op ≤ 0x23 then
    let (w, st) := vecReduce g.op a
    .ok (List.replicate n w, false, { s with ns := s.ns ||| st })
  else
    let r := (List.range n).foldl (fun (acc : List Nat × VSt) l =>
      let (u, j1) := if draws then acc.2.j.drawLane (laneGen t l) else (0, acc.2.j)
      let (w, st) := if g.op = 0x2C then toF32 (.fin false u 65536 0) else vecOp g.op g.imm u (a.getD l 0) (b.getD l 0) (d.getD l 0)
      (w :: acc.1, { acc.2 with j := j1, ns := acc.2.ns ||| st })) ([], s)
    .ok (r.1.reverse, false, r.2)

/-- A stage: its result goes to DST, under MASK only in lanes whose V7 is neither zero nor NaN.  DESIGN CHOICE: a lane that MASK keeps from writing
DST still computes, and sets the stage's status bits; the spec does not say (log 127). -/
def runStage (t : Nat) (x0 : Tile) (p : Part) (c : Chain) (v : Nat) (g : Stage) (regs : List (List Nat)) (s : VSt) :
    Except (Nat × VSt) (List (List Nat) × Bool × VSt) :=
  match stageResult t x0 p c v g regs s with
  | .error e => .error e
  | .ok (w, bad, s1) =>
    if g.mask then
      let m := (regs.getD 7 []).map vcond
      let old := regs.getD g.dst []
      let new := (List.range w.length).map fun l => if (m.getD l (false, 0)).1 then w.getD l 0 else old.getD l 0
      .ok (regs.set g.dst new, bad, { s1 with ns := m.foldl (fun a q => a ||| q.2) s1.ns })
    else .ok (regs.set g.dst w, bad, s1)

/-- The stages in order; a failing GATHER names its stage. -/
def runStages (t : Nat) (x0 : Tile) (p : Part) (c : Chain) (v : Nat) (k : Nat) (gs : List Stage) (regs : List (List Nat)) (s : VSt) :
    Except VRes (List (List Nat) × VSt) :=
  match gs with
  | [] => .ok (regs, s)
  | g :: r =>
    match runStage t x0 p c v g regs s with
    | .error (a, s1) => .error (.access k a s1)
    | .ok (_, true, s1) => .error (.poison s1)
    | .ok (regs1, false, s1) => runStages t x0 p c v (k + 1) r regs1 s1

/-- An output stream stored (R113, R124). -/
def storeStream (t : Nat) (c : Chain) (v : Nat) (r : Strm) (w : List Nat) (s : VSt) : VSt :=
  let a := (c.vecAddr r v).getD 0
  if r.fmt = 8 then
    (List.range w.length).foldl (fun s l =>
      let x := f32 (w.getD l 0)
      let old := if r.acc then XAcc.ofBytes (s.x.read (a + 16 * l) 16) else XAcc.empty
      let (n, st) := old.addGroup [x]
      let st1 := if r.acc then st ||| (if x.isNan then NS.NANIN else 0) else 0
      { s with x := s.x.write (a + 16 * l) n.bytes false, ns := s.ns ||| st1 }) s
  else
    let ((cs, st), j) := narrowRow r.fmt r.rmode r.sat (laneGen t 0) 256 (w.map f32) s.j
    { s with x := s.x.write a (packElems r.fmt cs) false, j := j, ns := s.ns ||| st }

/-- Whether a stream of a vector reads a poisoned word (R87). -/
def vecPoisoned (c : Chain) (v : Nat) (s : VSt) : Bool :=
  c.strms.any fun r => r.en && (!r.out || r.acc) && s.x.poisoned ((c.vecAddr r v).getD 0) (c.vecBytes r v)

/-- One vector (R115). -/
def runVector (t : Nat) (x0 : Tile) (p : Part) (c : Chain) (v : Nat) (s : VSt) : VRes :=
  let n := c.lanesAt v
  if vecPoisoned c v s then .poison s
  else
    let start : List (List Nat) := List.replicate 8 (List.replicate n 0)
    let (regs, s1) := (c.strms.filter fun r => r.en && !r.out).foldl (fun (acc : List (List Nat) × VSt) r =>
      let (w, s1) := loadStream t x0 c v r acc.2
      (acc.1.set r.reg w, s1)) (start, s)
    match runStages t x0 p c v 0 c.stages regs s1 with
    | .error e => e
    | .ok (regs2, s2) =>
      .ok ((c.strms.filter fun r => r.en && r.out).foldl (fun s r => storeStream t c v r (regs2.getD r.reg []) s) s2)

/-- Vectors `v` to `v + n` in order; how the last one ended and how many were completed. -/
def runVectors (t : Nat) (x0 : Tile) (p : Part) (c : Chain) (v n : Nat) (s : VSt) : VRes × Nat :=
  match n with
  | 0 => (.ok s, v)
  | n + 1 =>
    match runVector t x0 p c v s with
    | .ok s1 => runVectors t x0 p c (v + 1) n s1
    | r => (r, v)

/-! ## The engine (R109, R110, R125 to R129) -/

/-- The draws of a chain (R127). -/
def chainNeed (c : Chain) (evening : Bool) : Nat :=
  let fn := c.stages.any fun g => usesFnUnit g.op
  let ga := c.stages.any fun g => decide (g.op = 0x28)
  if evening then 20 + (if fn then 7 else 0) + (if ga then 5 else 0) else 36 + (if fn then 12 else 0) + (if ga then 8 else 0)

/-- Full array draws of R103: the 16-bit class and the 8-bit class, and the floor. -/
def arr16 (s : State) : Nat := if s.evening then 97 else 176
def arr8 (s : State) : Nat := if s.evening then 115 else 208
def arrFloor (s : State) : Nat := if s.evening then 18 else 32

/-- The array draw within a chunk's grant: the largest full array draw of R103 it covers (DEDUCED). -/
def arrShare (s : State) (draws : Nat) : Nat := if draws ≥ arr8 s then arr8 s else if draws ≥ arr16 s then arr16 s else 0

/-- The vector draws a chunk holds: what its grant leaves beside the array share and its sequencer's draw (DEDUCED). -/
def vecShare (s : State) (draws : Nat) : Nat := draws - arrShare s draws - (if s.evening then 2 else 3)

/-- The draws a chain must reserve beyond its chunk's (R128). -/
def chainExtra (c : Chain) (t st : Nat) (s : State) : Nat :=
  match (s.unit (unitOf t st)).run with
  | some ch => chainNeed c s.evening - vecShare s ch.draws
  | none => chainNeed c s.evening

/-- The chain an engine runs now. -/
def ChainRun.cur (r : ChainRun) : Option Chain :=
  (r.descs[r.idx]?).map fun d => chainOf d.1 d.2.1 d.2.2.1 d.2.2.2 r.abase { Seq.init with areg := r.areg }

/-- The extra draws asked for before the chain's first access. -/
def chainAsk (t : Nat) (s : State) : State :=
  match (s.tile t).chain with
  | none => s
  | some r =>
    match r.cur with
    | none => s
    | some c =>
      let n := chainExtra c t r.owner.num s
      let s1 := if n = 0 then s else reserve (.vecExtra t) 1 n s
      updTile t (fun x => { x with chain := some { r with extra := n, stopped := false } }) s1

/-- VEC_ERR with a subcode, stage and vector (R133). -/
def vecErr (t st : Nat) (e : VErr) (chainId : Nat) (s : State) : State :=
  let k := regSeq st
  let v := e.1 + k * 16 + ((s.tile t).seq k).job * 64 + 2 ^ 12 + e.2.1 % 8 * 2 ^ 13 + e.2.2 % 65536 * 2 ^ 16 + chainId * 2 ^ 32
  setReg (Reg.VEC_ERR t) v s

/-- An invalid descriptor, program or binding (R125): VEC_ERR, VEC_INT_STAT, and the command stopped. -/
def vecInvalid (t st : Nat) (e : VErr) (chainId : Nat) (s : State) : State :=
  tileStop t st St.VEC_INVALID e.1 0 (raiseInt (blkVec t) 0 (vecErr t st e chainId s))

/-- A GATHER that addresses nothing (R126): the same, with the faulting address in RESULT (R343). -/
def vecAccess (t st stage v a chainId : Nat) (s : State) : State :=
  tileStop t st St.VEC_ACCESS 15 a (raiseInt (blkVec t) 1 (vecErr t st (15, stage, v) chainId s))

/-- Whether an instruction a sequencer has met and could not issue is ready to (R98, R101): its stream may issue, its token is FULL and its
semaphore above 0. -/
def readyAt (t st : Nat) (w : Option (BitVec 128)) (s : State) : Bool :=
  match w with
  | some v => mayIssue t st s && !issWaits (s.tile t) ((s.tile t).regs st) v.toNat
  | none => false

/-- Whether a sequencer waits for the vector engine with a CHAIN or UPROG that is ready (R98). -/
def vecWanted (t k : Nat) (s : State) : Bool := readyAt t k ((s.tile t).seq k).wantsVec s

/-- Whether the vector engine runs nothing: no chain is on it, or one that a forced suspension has stopped (R129). -/
def Tile.vecFree (x : Tile) : Bool := match x.chain with | none => true | some r => r.stopped

/-- A chain stopped by a forced suspension whose sequencer runs again: it continues when the engine is free. -/
def Tile.parkedOf (x : Tile) (k : Nat) : Option ChainRun :=
  x.parked.find? fun r => decide (regSeq r.owner.num = k) && decide ((x.seq k).state ≠ 4) && decide ((x.seq k).cid = r.cid)

/-- Whether the engine accepts a chain of a stream now: it is free, no dense piece is on it and no sequencer before it in order waits (R98, R109,
R272). -/
def vecAccepts (t st : Nat) (s : State) : Bool :=
  let x := s.tile t
  x.vecFree && !pieceOn s t && !((List.range (regSeq st)).any fun k => vecWanted t k s || (x.parkedOf k).isSome) && (x.parkedOf (regSeq st)).isNone

/-- A chain put on the engine; one stopped there waits beside it. -/
def Tile.onEngine (x : Tile) (r : ChainRun) : Tile :=
  { x with chain := some r, parked := (x.parked.erase r) ++ x.chain.toList }

/-- A free engine takes up the first waiting chain whose sequencer runs again (R98, R129). -/
def unpark (t : Nat) (s : State) : State :=
  let x := s.tile t
  if !x.vecFree || pieceOn s t then s
  else
    match (List.range 3).findSome? fun k =>
        if (List.range k).any fun j => vecWanted t j s then none else x.parkedOf k with
    | some r => chainAsk t (updTile t (fun x => x.onEngine r) s)
    | none => s

/-- A checked program put on the engine. -/
def vecStart (i : Iss) (descs : List (Bytes × List Nat × Nat × Bool)) (abase : Nat) (s : State) : State :=
  let r : ChainRun := { owner := streamOf i.x i.st, job := i.job, cid := i.cid, descs := descs, idx := 0, vdone := 0, abase := abase,
                        areg := i.q.areg, extra := 0, stopped := false, word := i.word, hit := [] }
  chainAsk i.t (updSeq i.t (regSeq i.st) (fun q => { q with inChain := true, wantsVec := none })
    (updTile i.t (fun x => x.onEngine r) s))

/-- A stall of a CHAIN or UPROG. -/
def vecStall (i : Iss) : Eff := .stall fun q => { q with wantsVec := some i.word }

/-- CHAIN (R110). -/
def execChain (t : Fin 8) (st : Fin 4) (w : BitVec 128) (s : State) : Out :=
  issue t st w 2 0 (rangeMask [(66, 32)]) (fun i => if bits i.v 63 59 ≠ 0 then 10 else 0)
    (fun i s =>
      let a := i.q.taddr (bits i.v 63 32)
      if !vecAccepts t st s then vecStall i
      else if a % 32 ≠ 0 || !osSpanOk i.x i.part a 256 then .stop (vecInvalid t st (6, 0, 0) 0 s)
      else if i.x.poisoned a 256 then .stop (tilePoison t st s)
      else
        let d := i.x.read a 256
        let c := chainOf d [] 0 false (i.q.ar (bits i.v 66 64)) i.q
        match c.check i.x i.part false 0 with
        | some e => .stop (vecInvalid t st e c.id s)
        | none => .issued false (i.pc + 1) (vecStart i [(d, [], 0, false)] (i.q.ar (bits i.v 66 64)) s)) s

/-- The role bases of a binding table (R131). -/
def bindRoles (q : Seq) (b : Bytes) : List Nat :=
  (List.range 8).map fun j =>
    let v := leAt b (4 * (j + 1)) 4
    if v = 0xFFFFFFFF then 2 ^ 32 else q.taddr v

/-- The header and binding checks of an update program (R130 to R132): PROG when one fails. -/
def progBad (hdr b : Bytes) (roles : List Nat) (chains : List Bytes) : Bool :=
  let v := leAt hdr 0 4
  let mask := bits v 13 6
  let extent := leAt b 0 4
  decide (extent < 1 ∨ extent > 16777216) || ((List.range 8).any fun j => bitOf mask j && decide (roles.getD j (2 ^ 32) ≥ 2 ^ 32)) ||
    (bitOf v 14 && chains.any fun d => (List.range 8).any fun i => (strmOf d i).en && (strmOf d i).out && decide ((strmOf d i).role = 6))

/-- The error recorded where several are found: the one of the lowest subcode, the first of those. -/
def lowestErr (l : List (VErr × Nat)) : Option (VErr × Nat) :=
  l.foldl (fun a e => match a with | none => some e | some b => if e.1.1 < b.1.1 then some e else some b) none

/-- The error of an update program with its binding table (R125, R130 to R132), with the CHAINID of its chain.  DESIGN CHOICE: where several checks
fail, chains, header and table together, the lowest subcode is recorded (assumption 56). -/
def progCheck (hdr b : Bytes) (roles : List Nat) (ds : List Bytes) (cs : List Chain) (x : Tile) (p : Part) (tableRsvd : Bool) : Option (VErr × Nat) :=
  let h := leAt hdr 0 4
  lowestErr ((cs.filterMap fun c => (c.check x p true (bits h 13 6)).map fun e => (e, c.id)) ++
    (if tableRsvd || decide (bits h 31 15 ≠ 0) || decide (leAt hdr 8 56 ≠ 0) then [((7, 0, 0), 0)] else []) ++
    (if progBad hdr b roles ds then [((9, 0, 0), 0)] else []))

/-- Reserved bits of a binding table: those of a bound role's TADDR (R92), and bytes 36 to 63, which the spec does not describe (DESIGN CHOICE,
assumption 110). -/
def bindRsvd (b : Bytes) : Bool :=
  ((List.range 8).any fun j => let v := leAt b (4 * (j + 1)) 4; decide (v ≠ 0xFFFFFFFF) && decide (bits v 31 27 ≠ 0)) || decide (leAt b 36 28 ≠ 0)

/-- The chains of a program whose header word is `h`, bound. -/
def progChains (h : Nat) (ds : List Bytes) (roles : List Nat) (extent : Nat) (q : Seq) : List Chain :=
  (List.range ds.length).map fun k => chainOf (ds.getD k []) roles extent (!bitOf h (2 + k)) 0 q

/-- UPROG (R130, R131): the whole program is checked before any stage runs.  DESIGN CHOICE: a program or binding table that lies outside the
partition or is misaligned records ADDR; the spec names ADDR of a descriptor and PROG of a header or table out of range (log 128). -/
def execUprog (t : Fin 8) (st : Fin 4) (w : BitVec 128) (s : State) : Out :=
  issue t st w 2 1 (rangeMask [(95, 32)]) (fun i => if bits i.v 63 59 ≠ 0 ∨ bits i.v 95 91 ≠ 0 then 10 else 0)
    (fun i s =>
      let a := i.q.taddr (bits i.v 63 32)
      let ba := i.q.taddr (bits i.v 95 64)
      if !vecAccepts t st s then vecStall i
      else if a % 32 ≠ 0 || ba % 32 ≠ 0 || !osSpanOk i.x i.part a 64 || !osSpanOk i.x i.part ba 64 then .stop (vecInvalid t st (6, 0, 0) 0 s)
      else
        let hdr := i.x.read a 64
        let h := leAt hdr 0 4
        let n := bits h 1 0 + 1
        if !osSpanOk i.x i.part a (64 + 256 * n) then .stop (vecInvalid t st (6, 0, 0) 0 s)
        else if i.x.poisoned a (64 + 256 * n) || i.x.poisoned ba 64 then .stop (tilePoison t st s)
        else
          let b := i.x.read ba 64
          let roles := bindRoles i.q b
          let ds := (List.range n).map fun k => i.x.read (a + 64 + 256 * k) 256
          match progCheck hdr b roles ds (progChains h ds roles (leAt b 0 4) i.q) i.x i.part (bindRsvd b) with
          | some (e, id) => .stop (vecInvalid t st e id s)
          | none =>
            .issued false (i.pc + 1) (vecStart i ((List.range n).map fun k => (ds.getD k [], roles, leAt b 0 4, !bitOf h (2 + k))) 0 s)) s

/-! ## The Accumulator File between a chain and other work (R82, R121, R122) -/

/-- XACCs one after another, by the number (address − 0xF0_0000) / 16 of the first, and whether they are written. -/
structure AfSpan where
  first : Nat
  count : Nat
  wr    : Bool
  deriving DecidableEq, Repr

/-- The XACCs that vector `v` of a chain touches. -/
def Chain.afSpans (c : Chain) (v : Nat) : List AfSpan :=
  (c.strms.filter fun r => r.en && decide (r.fmt = 8)).filterMap fun r =>
    (c.vecAddr r v).map fun a => { first := (a - afBase) / 16, count := c.vecBytes r v / 16, wr := r.out }

/-- The XACCs that vectors `v` to `v + n` of a chain touch. -/
def Chain.afSpansIn (c : Chain) (v n : Nat) : List AfSpan := (List.range n).flatMap fun i => c.afSpans (v + i)

/-- The XACCs a pass, a close and a transfer touch. -/
def Pass.afSpans (p : Pass) : List AfSpan :=
  (List.range p.acts.length).map fun i => { first := 256 * (p.rowBase + i), count := p.blk.n, wr := true }
def Close.afSpans (c : Close) : List AfSpan :=
  let v := c.word.toNat
  (List.range (bits v 71 64 + 1)).map fun i => { first := 256 * (bits v 79 72 + i), count := bits v 88 80, wr := !bitOf v 96 }
def Dma.afSpans (d : Dma) : List AfSpan :=
  if d.loc < afBase then []
  else [{ first := (d.loc - afBase) / 16, count := ceilDiv ((d.loc - afBase) % 16 + d.len) 16, wr := !d.out }]

/-- The XACCs that two works touch, one of them writing. -/
def clash (a b : List AfSpan) : List Nat :=
  a.flatMap fun x => b.flatMap fun y =>
    if x.wr || y.wr then ((List.range x.count).map (x.first + ·)).filter fun k => decide (y.first ≤ k ∧ k < y.first + y.count) else []

/-- XACCs that hold undefined values: free ones. -/
def undefine (t : Nat) (ks : List Nat) (s : State) : State :=
  ks.foldl (fun s k =>
    let (f, s1) := freeVal s
    let (g, s2) := freeVal s1
    updTile t (fun x => x.write (afBase + 16 * k) (toLe 8 f ++ toLe 8 g) false) s2) s

/-- Whether a chain is at work on the engine: it has its draws and is not stopped. -/
def chainStarted (t : Nat) (r : ChainRun) (s : State) : Bool := !r.stopped && (decide (r.extra = 0) || holds (.vecExtra t) s)

/-- The XACCs of a stream's work that the running chain of another touches (R122). -/
def foreign (t : Nat) (o : Stream) (work : List AfSpan) (s : State) : List Nat :=
  match (s.tile t).chain with
  | none => []
  | some r =>
    match r.cur with
    | none => []
    | some c => if !r.owner.own o && chainStarted t r s then clash work (c.afSpansIn r.vdone (c.count - r.vdone)) else []

/-- The same XACCs noted on that chain: they are undefined after it too. -/
def clashWith (t : Nat) (o : Stream) (work : List AfSpan) (s : State) : State :=
  match foreign t o work s with
  | [] => s
  | ks => updTile t (fun x => { x with chain := x.chain.map fun r => { r with hit := r.hit ++ ks } }) s

/-- The XACCs of a chain's vectors that passes, closes and transfers of others touch (R122); `own` says which streams' work is the chain's own,
none's of an engine beside the tile's. -/
def chainForeign (x : Tile) (own : Stream → Bool) (spans : List AfSpan) : List Nat :=
  (x.passes.flatMap fun p => if own p.blk.owner then [] else clash spans p.afSpans) ++
    (x.closes.flatMap fun c => if own c.owner then [] else clash spans c.afSpans) ++
    (x.dmas.flatMap fun d => if own d.owner then [] else clash spans d.afSpans)

/-- The same XACCs noted on those passes, closes and transfers. -/
def chainMark (t : Nat) (own : Stream → Bool) (spans : List AfSpan) (s : State) : State :=
  if chainForeign (s.tile t) own spans = [] then s
  else updTile t (fun x => { x with
    passes := x.passes.map (fun p => if own p.blk.owner then p else { p with hit := p.hit ++ clash spans p.afSpans }),
    closes := x.closes.map (fun c => if own c.owner then c else { c with hit := c.hit ++ clash spans c.afSpans }),
    dmas := x.dmas.map fun d => if own d.owner then d else { d with hit := d.hit ++ clash spans d.afSpans } }) s

/-- Whether a vector of a chain waits for the last write of its own sequencer's earlier passes to a word it touches (R121): two rows by 64
columns (R82). -/
def vectorWaits (x : Tile) (r : ChainRun) (c : Chain) (v : Nat) : Bool :=
  x.passes.any fun p => r.owner.own p.blk.owner && (c.afSpans v).any fun a =>
    decide (p.rowBase / 2 ≤ a.first / 512 ∧ a.first / 512 ≤ (p.rowBase + p.acts.length - 1) / 2) &&
      decide (a.first % 256 / 64 ≤ (p.blk.n - 1) / 64)

/-- Whether a vector still to run waits. -/
def handoffWaits (x : Tile) (r : ChainRun) (c : Chain) : Bool :=
  (List.range (c.count - r.vdone)).any fun i => vectorWaits x r c (r.vdone + i)

/-- The vectors that can run before the first one that waits. -/
def readyVectors (x : Tile) (r : ChainRun) (c : Chain) : Nat :=
  ((List.range (c.count - r.vdone)).takeWhile fun i => !vectorWaits x r c (r.vdone + i)).length

/-- Some more vectors of the running chain run (to its end, or to the boundary at which it is suspended). -/
def chainAdvance (t n : Nat) (s : State) : State :=
  let x := s.tile t
  match x.chain with
  | none => s
  | some r =>
    let st := r.owner.num
    let q := x.seq (regSeq st)
    match r.cur, s.job? r.job with
    | some c, some j =>
      let n := min n (c.count - r.vdone)
      let spans := c.afSpansIn r.vdone n
      let ks := chainForeign x r.owner.own spans ++ r.hit
      let s0 := chainMark t r.owner.own spans (undefine t ks s)
      let (res, v) := runVectors t (s0.tile t) (partOf s r.job t) c r.vdone n { x := s0.tile t, j := j, ns := 0, fc := s0.freeCtr }
      let put := fun (w : VSt) (s : State) =>
        orNstat q.queue r.cid w.ns (orReg (Reg.VEC_NSTAT t) w.ns (count (Reg.VEC_VECTORS t) 64 (v - r.vdone)
          { s with tiles := Tbl.put s.tiles t { w.x with chain := some { r with vdone := v } },
                   jobs := Tbl.put s.jobs r.job w.j, freeCtr := w.fc }))
      match res with
      | .ok w => undefine t ks (put w s0)
      | .poison w => tilePoison t st (undefine t ks (put w s0))
      | .access k a w => vecAccess t st k v a c.id (undefine t ks (put w s0))
    | _, _ => s

/-- Whether the running chain's vectors are all done. -/
def chainOver (s : State) (t : Nat) : Bool :=
  match (s.tile t).chain with
  | some r =>
    match r.cur with
    | some c => decide (r.vdone ≥ c.count)
    | none => false
  | none => false

/-- The running chain retires: its extra draws return, the program's next chain starts, or the instruction retires and the engine takes up a
chain that waits for it (R128, R129, R131).  DESIGN CHOICE: a UPROG keeps the engine from its first chain to its last; the spec does not say
whether a chain of a sequencer of higher order is served between them (R98, R109; log 123). -/
def chainEnd (t : Nat) (s : State) : State :=
  match (s.tile t).chain with
  | none => s
  | some r =>
    let s0 := bankEvents t (countFree (Reg.VEC_STALL t) 32 s)
    let s1 := count (Reg.VEC_CHAINS t) 64 1 (if r.extra = 0 then s0 else ledgerReturn (.vecExtra t) s0)
    if r.idx + 1 < r.descs.length then
      chainAsk t (updTile t (fun x => { x with chain := some { r with idx := r.idx + 1, vdone := 0, extra := 0, hit := [] } }) s1)
    else
      let st := r.owner.num
      unpark t (retire t st r.job r.cid r.word.toNat true
        (updSeq t (regSeq st) (fun q => { q with inChain := false }) (updTile t (fun x => { x with chain := none }) s1)))

/-- CHAIN_RETIRE (R109): the chain's last output byte lands. -/
def execChainRetire (t : Fin 8) (s : State) : Out :=
  match (s.tile t).chain with
  | none => .next (unpark t s)
  | some r =>
    let waits := match r.cur with | some c => handoffWaits (s.tile t) r c | none => true
    when (s.clocked && !r.stopped && (s.unit (unitOf t r.owner.num)).run.isSome && (decide (r.extra = 0) || holds (.vecExtra t) s) && !waits)
      (fun s =>
        let s1 := chainAdvance t 65536 s
        if chainOver s1 t then chainEnd t s1 else s1) s

/-- A chain suspended by force (R129): it stops at a vector boundary; how many more vectors it has completed, of those that need not wait under
R121, is a free value. -/
def chainPause (t k : Nat) (s : State) : State :=
  match (s.tile t).chain with
  | none => s
  | some r =>
    if regSeq r.owner.num ≠ k then s
    else
      let (f, s1) := freeVal s
      let ready := match r.cur with | some c => readyVectors (s.tile t) r c | none => 0
      let s2 := if chainStarted t r s then chainAdvance t (f % (ready + 1)) s1 else s1
      let s3 := ledgerReturn (.vecExtra t) (ledgerDrop (.vecExtra t) s2)
      updTile t (fun x => { x with chain := x.chain.map fun r => { r with stopped := true, extra := 0 } }) s3

/-- It continues from the next vector when its sequencer's chunk is resumed and the engine is free. -/
def chainResume (t k : Nat) (s : State) : State :=
  match (s.tile t).chain with
  | some r => if regSeq r.owner.num = k ∧ r.stopped then chainAsk t s else unpark t s
  | none => unpark t s

end Sys2Proof.Machine
end

