-- ==== Sys2Proof/Machine/Array.lean ====
section
/-! DEFINITION. The array: blocks and the shadow plane, passes, closes, swaps and their draws, and the suspension of a sequencer (R73 to
R77, R95 to R97, R101 to R107). -/

namespace Sys2Proof.Machine

/-! ## Loading blocks (R95, R101) -/

/-- WLOAD's checks (R95, R106). -/
def wloadCheck (i : Iss) : Nat :=
  let v := i.v
  let wfmt := bits v 84 81
  let sp := bits v 87 86
  let (rows, per) := wloadShape v
  if bits v 63 59 ≠ 0 then 10
  else if wfmt > 6 then 3
  else if sp = 3 ∨ (sp ≠ 0 ∧ wfmt ≠ 0) ∨ (sp = 0 ∧ wfmt = 0) then 8
  else if bits v 80 72 = 0 ∨ bits v 80 72 > i.x.width then 6
  else if (i.x.owned (streamOf i.x i.st)).isSome then 11
  else if !tileSpanOk i.x i.part (i.q.taddr (bits v 63 32)) (rowsSpan rows (bits v 104 89) (fmtBytes wfmt per)) then 7
  else 0

/-- A stream's place in the order of R101: a chunk resumed after a forced suspension first, then Forward, Backward, Update, and the deferred
block. -/
def shadowRank (x : Tile) (st : Nat) : Nat :=
  (if x.reloads (streamOf x st) || (decide (st ≠ 3) && (x.seq st).resumed) then 0 else 4) + st

/-- Whether a stream waits for the shadow plane, for a WLOAD that is ready or to load its block again. -/
def shadowWaits (t : Nat) (s : State) (st : Nat) : Bool :=
  let x := s.tile t
  !asleep x (streamOf x st) && (x.reloads (streamOf x st) || (decide (st ≠ 3) && readyAt t st (x.seq st).wantsShadow s))

/-- Whether the shadow plane is granted to a stream now (R101); a deferred block that has just started holds it for its first WLOAD. -/
def shadowGrant (t st : Nat) (s : State) : Bool :=
  let x := s.tile t
  planeFree x x.shadow (streamOf x st) && (match x.defRun with | some d => d.started || decide (st = 3) | none => true) &&
    !((List.range 4).any fun k => decide (shadowRank x k < shadowRank x st) && shadowWaits t s k)

/-- WLOAD. -/
def execWload (t : Fin 8) (st : Fin 4) (w : BitVec 128) (s : State) : Out :=
  issue t st w 1 0 (rangeMask [(104, 32)]) wloadCheck
    (fun i s =>
      let o := streamOf i.x i.st
      if !shadowGrant t st s then .stall fun q => if i.st = 3 then q else { q with wantsShadow := some w }
      else
        let src := i.q.taddr (bits i.v 63 32)
        match readBlock i.x o i.job w src with
        | none => .stop (tilePoison t st s)
        | some b =>
          .issued true (i.pc + 1) (updTile t (fun x =>
            let x1 := (x.evict x.shadow).setOwned o (some (w, src)) false
            let x2 := if i.st = 3 then x1 else x1.setSeq i.st { x1.seq i.st with wantsShadow := none }
            { x2 with shadow := some b }) s)) s

/-! ## Swaps and draws (R103, R104) -/

/-- Whether a block counts as 8-bit class: by its weights (DEDUCED). -/
def WBlock.cls8 (b : WBlock) : Bool := is8bit b.wfmt && decide (b.split = 0)
def fullDraw (s : State) (b : WBlock) : Nat := if b.cls8 then arr8 s else arr16 s

/-- The array draw of a block within a chunk's grant. -/
def blockDraw (s : State) (b : WBlock) (grant : Nat) : Nat :=
  if b.zc then arrFloor s + ceilDiv ((fullDraw s b - arrFloor s) * b.nz) 65536 else max (fullDraw s b) (arrShare s grant)

/-- The shadow block becomes active: its unit holds `target` draws from now on. -/
def doSwap (t u target : Nat) (ch : Chunk) (b : WBlock) (s : State) : State :=
  let extra := heldBy (.block t) s
  let l := s.ledger
  let holds := (l.holds.filter fun p => decide (p.1 ≠ .block t)).map fun p => if p.1 = .chunk u then (p.1, p.2 + extra) else p
  let s1 := ledgerShrink (.chunk u) target { s with ledger := { l with holds := holds } }
  let s2 := setUnit u { s1.unit u with run := some (ch.hold target s) } s1
  reloadBlocks t (updTile t (fun x =>
    let x1 := x.evict x.active
    let k := regSeq b.owner.num
    let x2 := x1.setSeq k { x1.seq k with state := if (x1.seq k).state = 2 then 1 else (x1.seq k).state }
    { x2 with active := some b, shadow := none, swapWait := none }) s2)

/-- SWAP (R104). -/
def execSwap (t : Fin 8) (s : State) : Out :=
  let x := s.tile t
  match x.shadow with
  | none => .next s
  | some b =>
    let u := unitOf t b.owner.num
    match (s.unit u).run with
    | none => .next s
    | some ch =>
      when (s.clocked && planeFree x x.active b.owner) (fun s =>
        let arr := blockDraw s b ch.draws
        let target := ch.draws - arrShare s ch.draws + arr
        if ch.held + heldBy (.block t) s ≥ target then doSwap t u target ch b s
        else
          let s1 := reserve (.block t) 2 (target - ch.held) s
          if holds (.block t) s1 then doSwap t u target ch b s1
          else updTile t (fun x =>
            let k := regSeq b.owner.num
            { x.setSeq k { x.seq k with state := 2 } with swapWait := x.swapWait.or (some s.now) }) s1) s

/-- DEFERRED_BLOCK_START (R101): the oldest deferred block, when the shadow plane is free and no sequencer waits for it, on the Backward
sequencer's registers as they stand.  DESIGN CHOICE: its entry of the queue frees now; the spec does not say whether it frees before the block has
run (log 125). -/
def execDeferredBlockStart (t : Fin 8) (s : State) : Out :=
  let x := s.tile t
  match x.defq with
  | [] => .next s
  | b :: r =>
    when (s.clocked && x.defRun.isNone && shadowGrant t 3 s && decide ((x.seq 1).cid = b.cid) && (s.unit (unitOf t 1)).run.isSome)
      (updTile t fun x => { x with defq := r, defNo := x.defNo + 1, defRun := some {
        blk := b, no := x.defNo, pc := b.offset, areg := (x.seq 1).areg, loop := (x.seq 1).loop, rbase := (x.seq 1).rbase,
        owned := none, reload := false, started := false } }) s

/-! ## Passes (R60 to R64, R73, R75, R95) -/

/-- The block a stream's passes run through: the active block, when it is the stream's. -/
def activeOf (x : Tile) (o : Stream) : Option WBlock := match x.active with | some b => if b.owner = o then some b else none | none => none
def anyBlock (x : Tile) (o : Stream) : Option WBlock :=
  match activeOf x o with
  | some b => some b
  | none => match x.shadow with | some b => if b.owner = o then some b else none | none => none

/-- MMA's checks. -/
def mmaCheck (i : Iss) : Nat :=
  let v := i.v
  let afmt := bits v 75 72
  let m := bits v 71 64 + 1
  let rb := bits v 85 78
  let o := streamOf i.x i.st
  if bits v 63 59 ≠ 0 then 10
  else if afmt > 6 then 3
  else if rb + m > 256 then 6
  else
    match i.x.owned o with
    | none => 11
    | some (w, _) =>
      let wv := w.toNat
      let wfmt := bits wv 84 81
      let sp := bits wv 87 86
      let k := bits wv 71 64 + 1
      let packed := fmtBytes afmt k
      if sp = 0 ∧ afmt = 0 then 8
      else if isInt afmt ≠ isInt wfmt then 4
      else if !tileSpanOk i.x i.part (i.q.taddr (bits v 63 32)) (rowsSpan m (bits v 101 86) packed) then 7
      else if !afSpanOk i.x i.part (afBase + 4096 * rb) (4096 * (m - 1) + 16 * bits wv 80 72) then 7
      else 0

/-- MMA: the pass takes its activations; its sums land at PASS_END. -/
def execMma (t : Fin 8) (st : Fin 4) (w : BitVec 128) (s : State) : Out :=
  issue t st w 1 1 (rangeMask [(101, 32)]) mmaCheck
    (fun i s =>
      let o := streamOf i.x i.st
      match activeOf i.x o with
      | none => .stall id
      | some b =>
        let v := i.v
        let m := bits v 71 64 + 1
        let rb := bits v 85 78
        let afmt := bits v 75 72
        let a := i.q.taddr (bits v 63 32)
        let packed := fmtBytes afmt b.k
        let stride := strideOf (bits v 101 86) packed
        let bad := (List.range m).any fun r => i.x.poisoned (a + r * stride) packed ||
          (!bitOf v 76 && i.x.poisoned (afBase + 4096 * (rb + r)) (16 * b.n))
        if bad then .stop (tilePoison t st s)
        else
          let p : Pass := { blk := b, afmt := afmt, acts := (List.range m).map fun r => elems afmt (i.x.read (a + r * stride) packed) b.k,
                            rowBase := rb, init := bitOf v 76, last := bitOf v 77, cid := i.cid, word := w, hit := [] }
          .issued false (i.pc + 1) (updTile t (fun x =>
            let x1 := { x with passes := x.passes ++ [p] }
            if p.last then { x1.setOwned o none false with active := none } else x1) s)) s

/-- The pieces of an element (R68, R75): one value, or h, m, l.  DESIGN CHOICE: a BF16, FP16 or FP8 activation against a split block is its own h,
with m = l = 0; the spec gives pieces of FP32 activations only (log 122). -/
def piecesOf (split fmt code : Nat) : List Num :=
  if split = 0 then [decode fmt code]
  else if fmt = 0 then let (h, m, l) := splitF32 code; [decode 1 h, decode 1 m, decode 1 l]
  else [decode fmt code, Num.zero, Num.zero]

/-- The piece passes of a split mode, weight piece first (R75): (weight piece, activation piece). -/
def piecePasses (split : Nat) : List (Nat × Nat) :=
  match split with
  | 0 => [(0, 0)]
  | 1 => [(0, 0), (0, 1), (1, 0)]
  | _ => [(0, 0), (0, 1), (0, 2), (1, 0), (1, 1), (2, 0)]

/-- One output element of a pass: the XACC after its groups and the numeric status. -/
def passElem (split : Nat) (col row : List (List Num)) (a : XAcc) : XAcc × Nat :=
  (piecePasses split).foldl (fun (r : XAcc × Nat) g =>
    let ps := List.zipWith (fun (w x : List Num) => product (x.getD g.2 .nan) (w.getD g.1 .nan)) col row
    let (b, st) := r.1.addGroup (ps.map (·.1))
    (b, ps.foldl (fun n p => n ||| p.2) (r.2 ||| st))) (a, 0)

/-- Gated cell-cycles of a pass (R103, R108): a cell whose weight or activation is zero; where two rows enter per cycle, both of its
products must be gated. -/
def gatedCells (p : Pass) : Nat :=
  let sp := p.blk.split
  let two := p.blk.cls8 && is8bit p.afmt
  let acts := p.acts.map fun r => r.map (piecesOf sp p.afmt)
  let rows := p.blk.rows.map fun r => r.map (piecesOf sp p.blk.wfmt)
  let steps := if two then (List.range (ceilDiv acts.length 2)).map fun i => (acts.drop (2 * i)).take 2 else acts.map fun r => [r]
  sumNat ((piecePasses sp).flatMap fun g => steps.map fun grp =>
    sumNat ((List.range p.blk.k).map fun k =>
      let az := grp.all fun r => ((r.getD k []).getD g.2 .nan).isZero
      if az then p.blk.n else ((rows.getD k []).filter fun w => (w.getD g.1 .nan).isZero).length))

/-- The sums of a pass added to the Accumulator File. -/
def passApply (x : Tile) (p : Pass) : Tile × Nat :=
  let sp := p.blk.split
  let rows := p.blk.rows.map fun r => r.map (piecesOf sp p.blk.wfmt)
  (List.range p.acts.length).foldl (fun (a : Tile × Nat) i =>
    let act := (p.acts.getD i []).map (piecesOf sp p.afmt)
    let base := afBase + 4096 * (p.rowBase + i)
    (List.range p.blk.n).foldl (fun (a : Tile × Nat) c =>
      let old := if p.init then XAcc.empty else XAcc.ofBytes (a.1.read (base + 16 * c) 16)
      let (n, st) := passElem sp (rows.map fun r => r.getD c []) act old
      (a.1.write (base + 16 * c) n.bytes false, a.2 ||| st)) a) (x, 0)

/-- Whether a pass that reads its accumulators would read a poisoned word (R87). -/
def passPoisoned (x : Tile) (p : Pass) : Bool :=
  !p.init && (List.range p.acts.length).any fun r => x.poisoned (afBase + 4096 * (p.rowBase + r)) (16 * p.blk.n)

/-- A command of a tile stopped by a poisoned word, on its sequencer or with its sequencer's state saved. -/
def poisonCid (t st cid : Nat) (s : State) : State :=
  if ((s.tile t).seq (regSeq st)).cid = cid then tilePoison t st s
  else
    match Tbl.look? s.savedSeqs cid with
    | some sv => stopCommand sv.seq.queue cid St.TILE_POISON 0 0 (raiseInt (blkTile t) 2 { s with savedSeqs := Tbl.del s.savedSeqs cid })
    | none => s

/-! ## Closes (R65, R96) -/

def mcloseCheck (i : Iss) : Nat :=
  let v := i.v
  let m := bits v 71 64 + 1
  let rb := bits v 79 72
  let n := bits v 88 80
  let ofmt := bits v 92 89
  let packed := fmtBytes ofmt n
  if bits v 63 59 ≠ 0 then 10
  else if ofmt > 7 then 3
  else if bits v 94 93 = 3 then 5
  else if n = 0 ∨ n > i.x.width ∨ rb + m > 256 then 6
  else if !tileSpanOk i.x i.part (i.q.taddr (bits v 63 32)) (rowsSpan m (bits v 112 97) packed) then 7
  else if !afSpanOk i.x i.part (afBase + 4096 * rb) (4096 * (m - 1) + 16 * n) then 7
  else 0

/-- A close's rows read in order, rounded and written (R65, R96); with KEEP = 0 the XACCs are left empty. -/
def closeRows (t : Nat) (c : Close) (x : Tile) (j : Job) : Tile × Job × Nat :=
  let v := c.word.toNat
  let n := bits v 88 80
  let ofmt := bits v 92 89
  let stride := strideOf (bits v 112 97) (fmtBytes ofmt n)
  (List.range (bits v 71 64 + 1)).foldl (fun (a : Tile × Job × Nat) i =>
    let base := afBase + 4096 * (bits v 79 72 + i)
    let vals := (List.range n).map fun k => (XAcc.ofBytes (a.1.read (base + 16 * k) 16)).value
    let ((cs, st), j1) := narrowRow ofmt (bits v 94 93) (bitOf v 95) (256 * t) 256 vals a.2.1
    let x1 := if bitOf v 96 then a.1 else a.1.write base ((List.range n).flatMap fun _ => XAcc.empty.bytes) false
    (x1.write (c.dst + i * stride) (packElems ofmt cs) false, j1, a.2.2 ||| st)) (x, j, 0)

/-- The numeric status of array work: TILE_NSTAT and the command's (R72). -/
def tileNstat (t : Nat) (o : Stream) (cid st : Nat) (s : State) : State :=
  orNstat ((s.tile t).seq (regSeq o.num)).queue cid st (orReg (Reg.TILE_NSTAT t) st s)

/-- A close that may read now. -/
def runClose (t : Nat) (c : Close) (s : State) : State :=
  let x := s.tile t
  let v := c.word.toNat
  let bad := (List.range (bits v 71 64 + 1)).any fun i => x.poisoned (afBase + 4096 * (bits v 79 72 + i)) (16 * bits v 88 80)
  match s.job? c.job with
  | none => s
  | some j =>
    if bad then poisonCid t c.owner.num c.cid s
    else
      let ks := foreign t c.owner c.afSpans s ++ c.hit
      let s0 := clashWith t c.owner c.afSpans (undefine t ks s)
      let (x1, j1, st) := closeRows t c (s0.tile t) j
      retire t c.owner.num c.job c.cid v false
        (tileNstat t c.owner c.cid st (undefine t ks { s0 with tiles := Tbl.put s0.tiles t x1, jobs := Tbl.put s0.jobs c.job j1 }))

/-- How many of the tile's pending passes must end before a close may read: its own stream's passes to the region, and those the
stream's earlier closes wait for. -/
def closeAfter (x : Tile) (o : Stream) (rb m : Nat) : Nat :=
  let own := (List.range x.passes.length).foldl (fun a i =>
    match x.passes[i]? with
    | some p => if p.blk.owner = o ∧ p.rowBase < rb + m ∧ rb < p.rowBase + p.acts.length then i + 1 else a
    | none => a) 0
  x.closes.foldl (fun a c => if c.owner = o then max a c.after else a) own

/-- MCLOSE. -/
def execMclose (t : Fin 8) (st : Fin 4) (w : BitVec 128) (s : State) : Out :=
  issue t st w 1 2 (rangeMask [(112, 32)]) mcloseCheck
    (fun i s =>
      let o := streamOf i.x i.st
      let k := closeAfter i.x o (bits i.v 79 72) (bits i.v 71 64 + 1)
      let c : Close := { owner := o, after := k, cid := i.cid, job := i.job, dst := i.q.taddr (bits i.v 63 32), word := w, hit := [] }
      if k = 0 then
        let s1 := runClose t c s
        if ((s1.tile t).seq (regSeq st)).state = 6 then .stop s1 else .issued false (i.pc + 1) s1
      else .issued false (i.pc + 1) (updTile t (fun x => { x with closes := x.closes ++ [c] }) s)) s

/-- Closes whose passes have all landed read now, in the order they were issued. -/
def runCloses (t : Nat) (s : State) : State :=
  let due := (s.tile t).closes.filter fun c => decide (c.after = 0)
  due.foldl (fun s c => runClose t c s) (updTile t (fun x => { x with closes := x.closes.filter fun c => decide (c.after ≠ 0) }) s)

/-- The gating credit of a pass (R380), in units of draw mV tu, for the chunk its unit runs. -/
def gateCredit (t : Nat) (p : Pass) (cells : Nat) (s : State) : State :=
  let u := unitOf t p.blk.owner.num
  let x := s.unit u
  match x.run with
  | none => s
  | some ch =>
    let full := if p.blk.cls8 && is8bit p.afmt then arr8 s else arr16 s
    let e := cells * (full - arrFloor s) * s.coreMv * (if s.evening then 160 else 80) / 65536
    setUnit u { x with run := some { ch with energy := ch.energy + e } } s

/-- PASS_END (R74): the last XACC write of the tile's oldest pass lands. -/
def execPassEnd (t : Fin 8) (s : State) : Out :=
  match (s.tile t).passes with
  | [] => .next s
  | p :: r =>
    when s.clocked (fun s =>
      let drop := fun (x : Tile) => { x with passes := r, closes := x.closes.map fun c => { c with after := c.after - 1 } }
      if passPoisoned (s.tile t) p then poisonCid t p.blk.owner.num p.cid (updTile t drop s)
      else
        let ks := foreign t p.blk.owner p.afSpans s ++ p.hit
        let (x1, st) := passApply (s.tile t) p
        let cells := gatedCells p
        let s1 := { s with tiles := Tbl.put s.tiles t (drop x1) }
        let s2 := count (Reg.TILE_PASSES t) 64 (piecePasses p.blk.split).length (count (Reg.TILE_ZGATE t) 64 cells s1)
        let s3 := gateCredit t p cells (tileNstat t p.blk.owner p.cid st s2)
        let s4 := undefine t ks (clashWith t p.blk.owner p.afSpans s3)
        runCloses t (retire t p.blk.owner.num p.blk.job p.cid p.word.toNat false (bankEvents t s4))) s

/-! ## Transfers (R91, R99) -/

/-- DMA_COMPLETE (R91): the last byte of the tile's i-th transfer lands, the token becomes FULL, the instruction retires. -/
def execDmaComplete (t : Fin 8) (i : Nat) (s : State) : Out :=
  match (s.tile t).dmas[i]? with
  | none => .next s
  | some d =>
    whenP (.dmaComplete t i) (s.clocked && dmaRuns t d s && bulkDone s d) (fun s =>
      let st := d.owner.num
      let ks := foreign t d.owner d.afSpans s ++ d.hit
      match dmaMove t d d.moved d.len (clashWith t d.owner d.afSpans (undefine t ks s)) with
      | .access a s1 => tileAccess t st a s1
      | .poison s1 => tilePoison t st s1
      | .done s1 =>
        let s2 := bankEvents t (undefine t ks (updTile t (fun x => { x with dmas := x.dmas.eraseIdx i }) s1))
        let s3 := { s2 with zor := { s2.zor with bulks := s2.zor.bulks.filter fun b => decide (some b.tag ≠ d.bulk) } }
        retire t st d.job d.cid d.word.toNat false
          (updSeq t (regSeq st) (fun q => { q with tok := Tbl.put q.tok d.tok .full }) s3)) s

/-! ## Suspension and resumption of a sequencer (R107) -/

/-- A sequencer suspended by force: its transfers pause, its chain stops at a vector boundary, its swap no longer waits for draws. -/
def suspendSeq (t k : Nat) (s : State) : State :=
  let s1 := chainPause t k (pauseDmas t k s)
  let mine := match (s1.tile t).shadow with | some b => decide (regSeq b.owner.num = k) | none => false
  let s2 := if mine then ledgerReturn (.block t) (ledgerDrop (.block t) s1) else s1
  updTile t (fun x =>
    let x1 := if mine then { x with swapWait := none } else x
    x1.setSeq k { x1.seq k with state := 4, wantsShadow := none, wantsVec := none }) s2

/-- A sequencer resumed: its transfers go on, a block whose weights were replaced is loaded again, its chain continues. -/
def resumeSeq (t k : Nat) (s : State) : State :=
  chainResume t k (reloadBlocks t (resumeDmas t k (updSeq t k (fun q => { q with state := 1, resumed := true }) s)))

/-- A TILE_RUN starts on its sequencer (R91, R92): registers 0, tokens EMPTY. -/
def startSeq (t k : Nat) (q : Nat) (c : Cmd) (s : State) : State :=
  updSeq t k (fun _ => { Seq.init with job := c.job, queue := q, cid := c.cid, base := c.opnd 0 8, state := 1 }) s

/-- A waiting or suspended command's sequencer state saved while another command's chunk runs on its sequencer; blocks it owns are
loaded again when it resumes (R107). -/
def stashSeq (t k : Nat) (s : State) : State :=
  let x := s.tile t
  let q := x.seq k
  if (decide (q.state = 3) || decide (q.state = 4)) && heldCmd s q.queue q.cid then
    let mine := fun (o : Stream) => decide (regSeq o.num = k)
    let drop := fun (b : Option WBlock) => match b with | some w => if mine w.owner then none else some w | none => none
    let chainOwn := match x.chain with | some c => mine c.owner | none => false
    let parkOwn := x.parked.filter fun c => mine c.owner
    let sv : SavedSeq :=
      { seq := { q with reload := q.reload || q.owned.isSome }, dmas := x.dmas.filter fun d => mine d.owner,
        chain := (if chainOwn then x.chain.toList else []) ++ parkOwn, defq := if k = 1 then x.defq else [],
        defRun := if k = 1 then x.defRun.map fun d => { d with reload := d.reload || d.owned.isSome } else none,
        semWait := x.semWait.filter fun w => w.blocks && decide (regSeq w.st = k) }
    let x1 := { x with
      shadow := drop x.shadow, active := drop x.active, dmas := x.dmas.filter fun d => !mine d.owner,
      chain := if chainOwn then none else x.chain, parked := x.parked.filter fun c => !mine c.owner, defq := if k = 1 then [] else x.defq, defRun := if k = 1 then none else x.defRun,
      semWait := x.semWait.filter fun w => !(w.blocks && decide (regSeq w.st = k)) }
    { s with tiles := Tbl.put s.tiles t (x1.setSeq k Seq.init), savedSeqs := Tbl.put s.savedSeqs q.cid sv }
  else s

/-- A saved sequencer state put back; its chain waits beside the engine until its chunk is resumed (R129). -/
def unstashSeq (t k cid : Nat) (sv : SavedSeq) (s : State) : State :=
  sv.semWait.foldl (fun s w => semWake t w.key s) <| updTile t (fun x => { x with
    seqs := Tbl.put x.seqs k sv.seq, dmas := x.dmas ++ sv.dmas, parked := x.parked ++ sv.chain, defq := x.defq ++ sv.defq,
    defRun := sv.defRun.or x.defRun, semWait := x.semWait ++ sv.semWait }) { s with savedSeqs := Tbl.del s.savedSeqs cid }

/-- A chunk of a command begins or goes on on a sequencer: the first chunk starts the sequencer, a later one finds the registers of the
one before it, a chunk suspended by force is resumed. -/
def enterSeq (t k q : Nat) (c : Cmd) (s : State) : State :=
  let cur := (s.tile t).seq k
  let s1 := if cur.cid = c.cid && (decide (cur.state = 3) || decide (cur.state = 4)) then s
    else
      let s1 := stashSeq t k s
      match Tbl.look? s1.savedSeqs c.cid with
      | some sv => unstashSeq t k c.cid sv s1
      | none => startSeq t k q c s1
  if ((s1.tile t).seq k).state = 4 then resumeSeq t k s1 else reloadBlocks t (updSeq t k (fun q => { q with state := 1 }) s1)

/-- Passes for which `f` fails dropped; closes wait for those of the rest that came before them (R96). -/
def Tile.keepPasses (x : Tile) (f : Pass → Bool) : Tile :=
  { x with passes := x.passes.filter f, closes := x.closes.map fun c => { c with after := ((x.passes.take c.after).filter f).length } }

/-- A job's tile work dropped at its end: passes, closes and transfers, semaphores, and its partition written with zeros (R88). -/
def dropTileJob (j : Nat) (s : State) : State :=
  { s with tiles := Tbl.mapv s.tiles fun t x =>
    let p := partOf s j t
    let gone := fun (b : Option WBlock) => match b with | some w => if w.job = j then none else some w | none => none
    let x0 := x.keepPasses fun p => decide (p.blk.job ≠ j)
    let x1 := { x0 with
      closes := x0.closes.filter fun c => decide (c.job ≠ j),
      dmas := x.dmas.filter fun d => decide (d.job ≠ j), defq := x.defq.filter fun d => decide (d.job ≠ j),
      lmarks := x.lmarks.filter fun m => decide (m.1 ≠ j), parked := x.parked.filter fun c => decide (c.job ≠ j), shadow := gone x.shadow, active := gone x.active,
      sems := x.sems.filter fun p => decide (p.1 / 16 ≠ j), semWait := x.semWait.filter fun w => decide (w.key / 16 ≠ j) }
    x1.clear p }

end Sys2Proof.Machine
end

