-- ==== Sys2Proof/Machine/Tables.lean ====
section
/-! DEFINITION. Embedding tables: descriptors, versions, placement, publishes, the hot-row monitor, replica rounds (R192 to R220). -/

namespace Sys2Proof.Machine

/-! ## Descriptors (R192 to R197) -/

def tableKey (j tid : Nat) : Nat := 4096 * j + tid
def State.table? (s : State) (j tid : Nat) : Option Table := Tbl.look? s.emb.tables (tableKey j tid)
def updTable (j tid : Nat) (f : Table → Table) (s : State) : State :=
  { s with emb := { s.emb with tables := Tbl.upd s.emb.tables (tableKey j tid) f } }

/-- Fields of the fixed part (R194). -/
def fxBits (fx : Bytes) (hi lo : Nat) : Nat := bits (le fx) hi lo
def fxTid (fx : Bytes) : Nat := fxBits fx 11 0
def fxPlace (fx : Bytes) : Nat := fxBits fx 13 12
def fxHot (fx : Bytes) : Bool := bitOf (le fx) 14
def fxRows (fx : Bytes) : Nat := fxBits fx 55 16 + 1
def fxDim (fx : Bytes) : Nat := 4 * (fxBits fx 63 56 + 1)
def fxFirst (fx : Bytes) : Nat := fxBits fx 79 64
def fxOwners (fx : Bytes) : Nat := fxBits fx 95 80 + 1
def fxKey (fx : Bytes) : Word64 := BitVec.ofNat 64 (fxBits fx 159 96)

/-- Fields of a version slot (R195). -/
def vsVnum (v : Bytes) : Nat := leAt v 0 2
def vsWfmt (v : Bytes) : Nat := bits (le v) 19 16
def vsOpt (v : Bytes) : Nat := bits (le v) 21 20
def vsPack (v : Bytes) : Bool := bitOf (le v) 22
def vsRmode (v : Bytes) : Nat := bits (le v) 24 23
def vsSat (v : Bytes) : Bool := bitOf (le v) 25
def vsWbase (v : Bytes) : Nat := bits (le v) 79 32
def vsMbase (v : Bytes) : Nat := bits (le v) 127 80
def vsUprog (v : Bytes) : Nat := bits (le v) 175 128
def vsHparam (v : Bytes) : Nat := bits (le v) 223 176

/-- Ranges of the fixed part (R194). -/
def fixedOk (fx : Bytes) (ndev : Nat) : Bool := decide (fxPlace fx ≠ 3) && decide (fxFirst fx + fxOwners fx - 1 < ndev)

/-- Ranges of a version slot (R195). -/
def slotOk (v : Bytes) : Bool :=
  decide (1 ≤ vsWfmt v ∧ vsWfmt v ≤ 5) && decide (vsOpt v ≠ 3) && decide (vsRmode v ≠ 3) && decide (vsWbase v % 256 = 0) &&
    decide (vsMbase v % 256 = 0) && decide (vsUprog v % 32 = 0) && decide (vsHparam v % 32 = 0)

/-- The fingerprint of a version (R196). -/
def fingerprint (fx v : Bytes) : Nat := crc32c (fx ++ v)

/-- Record sizes and slot sizes (R197). -/
def workBytes (wfmt d : Nat) : Nat := if wfmt ≤ 2 then 2 * d else if wfmt ≤ 4 then d else d + 4
def masterBytes (opt d : Nat) : Nat := match opt with | 0 => 4 * d | 1 => 4 * d + 4 | _ => 12 * d
def recSlot (pack : Bool) (n : Nat) : Nat :=
  if pack then roundUp 32 n
  else if n ≤ 32 then 32 else if n ≤ 64 then 64 else if n ≤ 128 then 128 else if n ≤ 256 then 256 else roundUp 256 n
def workSlot (fx v : Bytes) : Nat := recSlot (vsPack v) (workBytes (vsWfmt v) (fxDim fx))
def masterSlot (fx v : Bytes) : Nat := recSlot (vsPack v) (masterBytes (vsOpt v) (fxDim fx))
def workAddr (fx v : Bytes) (i : Nat) : Nat := vsWbase v + i * workSlot fx v
def masterAddr (fx v : Bytes) (i : Nat) : Nat := vsMbase v + i * masterSlot fx v

/-- The version slot of a table with a VNUM: current, or the other slot while it holds one (R203). -/
def Table.version? (t : Table) (vnum : Nat) : Option Bytes :=
  if vsVnum t.cur = vnum then some t.cur
  else if t.othSt ≠ 0 && decide (vsVnum t.oth = vnum) then some t.oth
  else none

/-! ## Placement (R199) -/

/-- range() of R199: owner and local index. -/
def placeRange (p rows n : Nat) : Nat × Nat :=
  let q := rows / n
  let rem := rows % n
  let big := rem * (q + 1)
  if p < big then (p / (q + 1), p % (q + 1)) else (rem + (p - big) / q, (p - big) % q)

/-- The smallest even width of at least 2 whose power covers the rows. -/
def permWidth (rows : Nat) : Nat := max 2 (2 * ceilDiv (if rows ≤ 1 then 0 else Nat.log2 (rows - 1) + 1) 2)

/-- The four Feistel rounds. -/
def feistel (h : Nat) (key : Word64) (x : Nat) : Nat :=
  let r := (List.range 4).foldl (fun (p : Nat × Nat) j =>
    let t := p.1 ^^^ ((mix (BitVec.ofNat 64 p.2 ^^^ key ^^^ BitVec.ofNat 64 (j * 2 ^ 56))).toNat % 2 ^ h)
    (p.2, t)) (x / 2 ^ h, x % 2 ^ h)
  r.1 * 2 ^ h + r.2

/-- The walk until back inside the table. -/
def permWalk (fuel h : Nat) (key : Word64) (rows x : Nat) : Nat :=
  match fuel with
  | 0 => x
  | fuel + 1 =>
    let y := feistel h key x
    if y ≥ rows then permWalk fuel h key rows y else y

/-- perm() of R199. -/
def perm (r rows : Nat) (key : Word64) : Nat := permWalk (2 ^ permWidth rows) (permWidth rows / 2) key rows r

/-- place() of R199: the owner k and local index of a row. -/
def place (fx : Bytes) (r : Nat) : Nat × Nat :=
  let rows := fxRows fx
  let n := fxOwners fx
  match fxPlace fx with
  | 0 => placeRange r rows n
  | 1 => (r % n, r / n)
  | _ => placeRange (perm r rows (fxKey fx)) rows n

/-- The owner's job rank of a row. -/
def ownerRank (fx : Bytes) (r : Nat) : Nat := fxFirst fx + (place fx r).1

/-- Whether a rank owns rows of a table. -/
def isOwner (fx : Bytes) (rank : Nat) : Bool := decide (fxFirst fx ≤ rank ∧ rank < fxFirst fx + fxOwners fx)

/-! ## Commands (R193, R201, R202, R205) -/

/-- TBL_CREATE. -/
def execTblCreate (q : Fin 128) (s : State) : Out :=
  runJobNow q Op.TBL_CREATE (fun c s =>
    let fx := c.opndBytes 0 32
    let v := c.opndBytes 32 64
    let ndev := ((s.job? c.job).map (·.ndev)).getD 0
    if (s.table? c.job (fxTid fx)).isSome then (St.TBL_EXISTS, 0, s)
    else if s.emb.tables.length ≥ 65536 then (St.TBL_LIMIT, 0, s)
    else if !fixedOk fx ndev || !slotOk v then (St.EMB_BADREQ, 0, s)
    else
      let t : Table := { fixed := fx, cur := v, oth := zeros 64, othSt := 0, othFrame := 0, pub := [], destroy := none,
                         last := none, updating := none, hdone := [], closes := [] }
      (St.OK, 0, { s with emb := { s.emb with tables := Tbl.put s.emb.tables (tableKey c.job (fxTid fx)) t } })) s

/-- 16-bit serial order (R195). -/
def newer (a b : Nat) : Bool := let d := (a + 65536 - b) % 65536; decide (1 ≤ d ∧ d ≤ 32767)

/-- TBL_STAGE. -/
def execTblStage (q : Fin 128) (s : State) : Out :=
  runJobNow q Op.TBL_STAGE (fun c s =>
    let tid := c.opnd 0 2
    let v := c.opndBytes 32 64
    match if tid < 4096 then s.table? c.job tid else none with
    | none => (St.EMB_BADREQ, 0, s)
    | some t =>
      if t.othSt ≥ 2 then (St.VERSION_BUSY, 0, s)
      else if !slotOk v || !newer (vsVnum v) (vsVnum t.cur) then (St.EMB_BADREQ, 0, s)
      else (St.OK, 0, updTable c.job tid (fun t => { t with oth := v, othSt := 1, othFrame := 0 }) s)) s

/-- Publish results of R206. -/
def pubLate : Nat := 1
def pubNotStaged : Nat := 2

/-- A PUBLISH checked on arrival (R202): the result and the next state. -/
def publishHere (j tid vnum f : Nat) (s : State) : Nat × State :=
  match s.table? j tid with
  | none => (pubNotStaged, s)
  | some t =>
    let onTime := decide (s.clk.fnum + 1 < f) || (decide (s.clk.fnum + 1 = f) && decide (s.pos < s.W))
    if vsVnum t.cur = vnum ∨ (t.othSt = 2 ∧ vsVnum t.oth = vnum ∧ t.othFrame = f) then (0, s)
    else if !onTime then (pubLate, raiseInt blkEmb 0 (count Reg.EMB_PUBLATE 32 1 s))
    else if t.othSt = 1 ∧ vsVnum t.oth = vnum then (0, updTable j tid (fun t => { t with othSt := 2, othFrame := f }) s)
    else (pubNotStaged, s)

/-- A reply recorded at the publisher. -/
def publishReply (j tid pseq rank result : Nat) (s : State) : State :=
  updTable j tid (fun t => { t with pub := t.pub.map fun p =>
    if p.pseq = pseq ∧ !(p.replies.any fun r => decide (r.1 = rank)) then { p with replies := p.replies ++ [(rank, result)] } else p }) s

/-- PUBLISH and PUB_REPLY headers (R206). -/
def pubHdr (tid vnum f rank pseq : Nat) : Bytes := header (toLe 2 0x40 ++ toLe 2 tid ++ toLe 2 vnum ++ toLe 6 f ++ toLe 2 rank ++ toLe 2 pseq)
def pubReplyHdr (tid vnum pseq result : Nat) : Bytes := header (toLe 2 0x41 ++ toLe 2 tid ++ toLe 2 vnum ++ toLe 2 pseq ++ toLe 1 result)

/-- TBL_PUBLISH (R202): PUBLISH goes to every device of the job; the command completes after the target tick. -/
def execTblPublish (q : Fin 128) (s : State) : Out :=
  runJob q Op.TBL_PUBLISH (fun c s =>
    let tid := c.opnd 0 2
    let vnum := c.opnd 2 2
    let f := c.opnd 8 6
    match s.job? c.job, (if tid < 4096 then s.table? c.job tid else none) with
    | some job, some _ =>
      let pseq := s.emb.pseq % 65536
      let s1 := updTable c.job tid (fun t => { t with pub := t.pub ++
          [{ ftgt := f, vnum := vnum, queue := q, cid := c.cid, pseq := pseq, replies := [] }] })
        { s with emb := { s.emb with pseq := s.emb.pseq + 1 } }
      (List.range job.ndev).foldl (fun s r =>
        if r = job.rank then match publishHere c.job tid vnum f s with | (res, s1) => publishReply c.job tid pseq r res s1
        else sendRank c.job r 3 (pubHdr tid vnum f job.rank pseq) [] {} s) s1
    | _, _ => endHead q St.EMB_BADREQ 0 0 s) s

/-- PUBLISH (R202). -/
def execPublish (m : Msg) (s : State) : Out :=
  receive (.publish m) 0x40 m (fun m => some [leAt m.hdr 12 2, leAt m.hdr 14 2]) (fun j _ m s =>
    let tid := leAt m.hdr 2 2 % 4096
    let (res, s1) := publishHere j tid (leAt m.hdr 4 2) (leAt m.hdr 6 6) s
    sendRank j (leAt m.hdr 12 2) 2 (pubReplyHdr tid (leAt m.hdr 4 2) (leAt m.hdr 14 2) res) [] {} s1) s

/-- PUB_REPLY (R202). -/
def execPubReply (m : Msg) (s : State) : Out :=
  receive (.pubReply m) 0x41 m (fun m => some [m.src.toNat, leAt m.hdr 6 2]) (fun j r m s =>
    publishReply j (leAt m.hdr 2 2 % 4096) (leAt m.hdr 6 2) r (leAt m.hdr 8 1)
      (protoAck m.src.toNat (fun t => decide (leAt t.hdr 0 2 = 0x40) && decide (leAt t.hdr 14 2 = leAt m.hdr 6 2)) s)) s

/-- The publishes of a table that end at the tick that starts a frame (R202 step 5). -/
def finishPublishes (f : Nat) (s : State) : State :=
  s.emb.tables.foldl (fun s kt =>
    kt.2.pub.foldl (fun s p =>
      if p.ftgt > f then s
      else
        let j := kt.1 / 4096
        let n := ((s.job? j).map (·.ndev)).getD 0
        let late := n - p.replies.length
        let bad := p.replies.filter fun r => decide (r.2 ≠ 0)
        let st := match bad with
          | r :: _ => if r.2 = pubLate then St.VERSION_LATE else St.VERSION_NOTSTAGED
          | [] => if late > 0 then St.VERSION_LATE else St.OK
        endCid p.queue p.cid st 0 (bad.length + late)
          (updTable j (kt.1 % 4096) (fun t => { t with pub := t.pub.filter fun x => decide (x.pseq ≠ p.pseq) }) s)) s) s

/-- TBL_DESTROY (R205): accepted here, removed at the next tick. -/
def execTblDestroy (q : Fin 128) (s : State) : Out :=
  runJob q Op.TBL_DESTROY (fun c s =>
    let tid := c.opnd 0 2
    match if tid < 4096 then s.table? c.job tid else none with
    | some t => if t.destroy.isSome then endHead q St.EMB_BADREQ 0 0 s else updTable c.job tid (fun t => { t with destroy := some (q, c.cid) }) s
    | none => endHead q St.EMB_BADREQ 0 0 s) s

/-! ## Digests (R216) -/

def crc64Spec : CrcSpec := ⟨64, 0x42F0E1EBA9EA3693, 2 ^ 64 - 1, false, false, 2 ^ 64 - 1⟩
def crc64 (bs : Bytes) : Nat := crcOf crc64Spec bs

/-! ## Hot rows (R207 to R214) -/

def hotKey (j h : Nat) : Nat := 65536 * j + h

/-- HQ of R209. -/
def hotQuota (job : Job) : Nat := if job.ndev = 0 then 0 else job.replSlots / job.ndev

/-- A counter with the smallest count is taken over (space saving, R207). -/
def takeOver (l : List HotCount) (j tid row : Nat) : List HotCount :=
  let m := l.foldl (fun m c => min m c.count) (2 ^ 64)
  match l.findIdx? fun c => decide (c.count = m) with
  | some i => l.set i { job := j, tid := tid, row := row, count := m + 1 }
  | none => l

/-- One index occurrence read at its owner counted (R207). -/
def monitorHit (j tid row : Nat) (s : State) : State :=
  let same := fun (c : HotCount) => decide (c.job = j) && decide (c.tid = tid) && decide (c.row = row)
  let l := s.emb.monitor
  let l1 :=
    match l.findIdx? same with
    | some i => l.modify i fun c => { c with count := c.count + 1 }
    | none => if l.length < 16384 then l ++ [{ job := j, tid := tid, row := row, count := 1 }] else takeOver l j tid row
  { s with emb := { s.emb with monitor := l1 } }

def hotReads (s : State) : Nat := s.dawn.man.hotReads

/-- The hot row number under which a job's row is hot here. -/
def hotOf (s : State) (j tid row : Nat) : Option Nat :=
  (s.emb.hot.find? fun p => decide (p.1 / 65536 = j) && decide (p.2.tid = tid) && decide (p.2.row = row)).map (·.1 % 65536)

/-- The count the monitor holds for a row. -/
def monitored (s : State) (j tid row : Nat) : Nat :=
  ((s.emb.monitor.find? fun c => decide (c.job = j) && decide (c.tid = tid) && decide (c.row = row)).map (·.count)).getD 0

/-- A free hot row number of a job. -/
def freeHot (s : State) (j hq : Nat) : Option Nat := (List.range hq).find? fun h => (Tbl.look? s.emb.hot (hotKey j h)).isNone

/-- The end of a measurement window (R207, R209). -/
def hotWindow (tick : Nat) (s : State) : State :=
  let keep := s.emb.hot.filter fun p => decide (monitored s (p.1 / 65536) p.2.tid p.2.row ≥ 16 * hotReads s)
  let cand := sortBy (fun (a b : HotCount) => decide (a.count > b.count)) (s.emb.monitor.filter fun c => decide (c.count ≥ 64 * hotReads s))
  let s1 := { s with emb := { s.emb with hot := keep, windowAt := tick } }
  let s2 := cand.foldl (fun s c =>
    match s.job? c.job, s.table? c.job c.tid with
    | some job, some t =>
      if (hotOf s c.job c.tid c.row).isSome || decide (workSlot t.fixed t.cur > job.replBytes) || !fxHot t.fixed then s
      else
        match freeHot s c.job (hotQuota job) with
        | some h => { s with emb := { s.emb with hot := Tbl.put s.emb.hot (hotKey c.job h) { tid := c.tid, row := c.row, dirty := true, sent := none } } }
        | none => s
    | _, _ => s) s1
  { s2 with emb := { s2.emb with monitor := [] } }

/-- An updated row that is hot is sent in the next round (R210, R246). -/
def markHot (j tid row : Nat) (s : State) : State :=
  match hotOf s j tid row with
  | some h => { s with emb := { s.emb with hot := Tbl.upd s.emb.hot (hotKey j h) fun r => { r with dirty := true } } }
  | none => s

/-- Every hot row of a table is sent again: its version changed at Midnight (R212). -/
def markTable (j tid : Nat) (s : State) : State :=
  { s with emb := { s.emb with hot := Tbl.mapv s.emb.hot fun k r => if k / 65536 = j ∧ r.tid = tid then { r with dirty := true } else r } }

/-! ## The row cache (R230) -/

def sectorKey (j va : Nat) : Nat := j * 2 ^ 43 + va / 32

/-- The banks of a die's row cache that are out: those mapped out at Dawn (R432) and one under test (R467). -/
def cacheOut (die : Nat) (s : State) : Nat :=
  let tested := match s.flt.selftest with
    | some x => if x.kind = 2 ∧ x.die = die ∧ x.left < x.total then 1 <<< x.index else 0
    | none => 0
  (if die = 0 then s.dawn.rcOut0 else s.dawn.rcOut1) ||| tested

/-- A sector of a table's rows looked up in a die's cache, and kept as the most recently used of its set unless it is poisoned (R463) or its bank
is out. -/
def cacheTouch (die tid key : Nat) (poison0 : Bool) (s : State) : State :=
  let set0 := Config.cacheSet (cacheOut die s) key % 131072
  let poison := poison0 || bitOf (cacheOut die s) (Config.cacheBank set0 % 64)
  let set := die * 131072 + set0
  let old := Tbl.look s.lkp.cache set []
  let s1 := if old.any (·.key = key) then count Reg.LKP_CACHEHIT 64 1 s else count Reg.LKP_CACHEMISS 64 1 s
  let rest := old.filter (·.key ≠ key)
  { s1 with lkp := { s1.lkp with cache := Tbl.put s1.lkp.cache set (if poison then rest else ({ key := key, tid := tid } :: rest).take 16) } }

/-- The lines of a bank leave the cache (R467). -/
def cacheDropBank (die bank : Nat) (s : State) : State :=
  { s with lkp := { s.lkp with cache := s.lkp.cache.filter fun p =>
      !(decide (p.1 / 131072 = die) && decide (Config.cacheBank (p.1 % 131072) % 64 = bank)) } }

/-- The lines that hold a predicate leave the cache. -/
def cacheDrop (p : CacheLine → Bool) (s : State) : State :=
  { s with lkp := { s.lkp with cache := Tbl.mapv s.lkp.cache fun _ l => l.filter fun k => !p k } }

/-- A record written through a die's cache: a sector that it holds stays, as the most recently used of its set, unless it is poisoned.  That a
write brings no sector in is a DESIGN CHOICE (log 62). -/
def cacheWrite (die j tid va : Nat) (bs : Bytes) (s : State) : WrRes :=
  match rangeWrite j va bs s with
  | .unmapped a s1 => .unmapped a s1
  | .ok bad s1 => .ok bad ((pieces va bs.length).foldl (fun s p =>
      let key := sectorKey j p.1
      let set := die * 131072 + Config.cacheSet (cacheOut die s) key % 131072
      let old := Tbl.look s.lkp.cache set []
      let rest := old.filter (·.key ≠ key)
      let now := if bad.contains p.1 then rest else { key := key, tid := tid } :: rest
      if old.any (·.key = key) then { s with lkp := { s.lkp with cache := Tbl.put s.lkp.cache set now } } else s) s1)

/-! ## Refresh rounds (R210 to R213, R219) -/

/-- REPL_ROW, REPL_END, REPL_DROP and REPAIR headers (R214). -/
def replRowHdr (tid row h vnum dframe digest len : Nat) : Bytes :=
  header (toLe 2 0x42 ++ toLe 2 tid ++ toLe 5 row ++ toLe 2 h ++ toLe 2 vnum ++ toLe 6 dframe ++ toLe 8 digest ++ toLe 2 len)
def replEndHdr (dframe n : Nat) : Bytes := header (toLe 2 0x43 ++ toLe 6 dframe ++ toLe 4 n)
def replNameHdr (typ tid row h : Nat) : Bytes := header (toLe 2 typ ++ toLe 2 tid ++ toLe 5 row ++ toLe 2 h)

/-- A message to every other device of a job. -/
def sendOthers (j vc : Nat) (hdr body : Bytes) (s : State) : State :=
  match s.job? j with
  | some job => (List.range job.ndev).foldl (fun s r => if r = job.rank then s else sendRank j r vc hdr body {} s) s
  | none => s

/-- A hot row demoted for poison (R213): REPL_DROP to the readers, and the fault, whose ARG1 is the local row as in the example of R463. -/
def demotePoisoned (j h tid row addr i : Nat) (s : State) : State :=
  let s1 := { s with emb := { s.emb with hot := Tbl.del s.emb.hot (hotKey j h) } }
  fault { code := 0x0032, job := some j, inst := i % 2, addr := addr, arg0 := tid, arg1 := i } (sendOthers j 4 (replNameHdr 0x44 tid row h) [] s1)

/-- One hot row of a round sent (R210, R213): whether it went out. -/
def sendHotRow (j h dframe : Nat) (s : State) : Bool × State :=
  match Tbl.look? s.emb.hot (hotKey j h) with
  | none => (false, s)
  | some r =>
    match s.table? j r.tid with
    | none => (false, s)
    | some t =>
      let i := (place t.fixed r.row).2
      let a := workAddr t.fixed t.cur i
      let n := workBytes (vsWfmt t.cur) (fxDim t.fixed)
      match rangeRead j a n s with
      | .unmapped _ s1 => (false, s1)
      | .ok _ (_ :: _) s1 => (false, demotePoisoned j h r.tid r.row a i s1)
      | .ok d [] s1 =>
        (true, sendOthers j 4 (replRowHdr r.tid r.row h (vsVnum t.cur) dframe (crc64 d) n) d
          { s1 with emb := { s1.emb with hot := Tbl.upd s1.emb.hot (hotKey j h) fun r => { r with sent := some dframe } } })

/-- A round goes on once the refresh engine holds its draw and the rows can be read (R210, R219): its rows, then REPL_END. -/
def continueRound (j : Nat) (s : State) : State :=
  match Tbl.look? s.emb.roundOut j with
  | none => s
  | some r =>
    powered (fun s =>
      let x := r.left.foldl (fun (a : Nat × State) h =>
        let (ok, s1) := sendHotRow j h r.dframe a.2
        (a.1 + b2n ok, s1)) (r.sent, needDraw 8195 s)
      let s1 := sendOthers j 4 (replEndHdr r.dframe x.1) [] x.2
      { s1 with emb := { s1.emb with roundOut := Tbl.del s1.emb.roundOut j } }) s

/-- Step 4 of R36 for a job as an owner (R210): a new round unless the previous one is not finished. -/
def startRound (j f : Nat) (s : State) : State :=
  match Tbl.look? s.emb.roundOut j with
  | some _ => continueRound j (count Reg.EMB_REFLATE 32 1 s)
  | none =>
    let mine := s.emb.hot.filter fun p => decide (p.1 / 65536 = j)
    if mine = [] ∨ f = 0 ∨ s.power.dusk.isSome ∨ !jobSends s j then s
    else
      let left := mine.filterMap fun p => if p.2.dirty then some (p.1 % 65536) else none
      let hot := Tbl.mapv s.emb.hot fun k r => if k / 65536 = j then { r with dirty := false } else r
      continueRound j { s with emb := { s.emb with
        hot := hot, roundOut := Tbl.put s.emb.roundOut j { dframe := f - 1, left := left, sent := 0 } } }

/-- The slots an owner rank fills in a job's directory. -/
def ownedSlot (job : Job) (rank slot : Nat) : Bool := let hq := hotQuota job; decide (hq > 0 ∧ slot / hq = rank)

/-- A completed round becomes live (R210, R211): the copy that the round has written serves from now on, with its row and data frame. -/
def RepSlot.flip (x : RepSlot) (dframe : Nat) : RepSlot :=
  match x.fresh with
  | some f => if f.dframe = dframe then { x with tid := f.tid, row := f.row, live := some f.copy, fresh := none } else x
  | none => x

/-- The round of an owner rank with a data frame. -/
def RoundIn.of (x : RoundIn) (j rank dframe : Nat) : Bool := decide (x.job = j) && decide (x.rank = rank) && decide (x.dframe = dframe)

/-- The rounds in their order of data frames, with one changed: rounds are received side by side, in any order (R295). -/
def updRound (j rank dframe : Nat) (f : RoundIn → RoundIn) (s : State) : State :=
  let cur := (s.emb.rounds.find? fun x => x.of j rank dframe).getD { job := j, rank := rank, dframe := dframe, count := 0, total := none, late := false }
  { s with emb := { s.emb with
    rounds := insertBy (fun a b => decide (a.dframe < b.dframe)) (f cur) (s.emb.rounds.filter fun x => !x.of j rank dframe) } }

/-- A completed round of an owner rank becomes live on every slot it fills. -/
def flipRound (j rank dframe : Nat) (job : Job) (s : State) : State :=
  { s with emb := { s.emb with
    rounds := s.emb.rounds.filter fun x => !x.of j rank dframe,
    slots := Tbl.mapv s.emb.slots fun k x => if k / 65536 = j ∧ ownedSlot job rank (k % 65536) then x.flip dframe else x } }

/-- The copies, live or written and not yet live, of the rows (slot, table, row) that a predicate picks leave the directory; a slot without any
copy left is free. -/
def forgetSlots (f : Nat → Nat → Nat → Bool) (l : Tbl RepSlot) : Tbl RepSlot :=
  (Tbl.mapv l fun k x => { x with
    live := if f k x.tid x.row then none else x.live
    fresh := match x.fresh with | some c => if f k c.tid c.row then none else some c | none => none }).filter fun p =>
      p.2.live.isSome || p.2.fresh.isSome

/-- Whether a REPL_DROP names a row in a slot. -/
def dropsSlot (k tid row : Nat) (d : Nat × Nat × Nat × Nat) : Bool :=
  decide (k = hotKey d.1 d.2.1) && decide (tid = d.2.2.1) && decide (row = d.2.2.2)

/-- Step 4 of R36 as a reader (R210): completed rounds become live, drops are made, incomplete rounds are counted. -/
def readerStep (s : State) : State :=
  let s1 := s.emb.rounds.foldl (fun s x =>
    match s.job? x.job with
    | none => s
    | some job =>
      if x.total = some x.count then flipRound x.job x.rank x.dframe job s
      else if x.late then s
      else count Reg.EMB_REFLATE 32 1 (updRound x.job x.rank x.dframe (fun y => { y with late := true }) s)) s
  { s1 with emb := { s1.emb with drops := [], slots := forgetSlots (fun k t r => s1.emb.drops.any (dropsSlot k t r)) s1.emb.slots } }

/-- The largest lag of a live slot beyond its job's REPL_MAXLAG sets EMB_INT_STAT.LAG (R220). -/
def lagCheck (s : State) : State :=
  let late := s.emb.slots.any fun p =>
    match p.2.live, s.job? (p.1 / 65536) with
    | some c, some job => decide (s.clk.fnum - p.2.dframe.getD c 0 > job.replMaxLag)
    | _, _ => false
  if late then raiseInt blkEmb 3 s else s

/-- Step 4 of R36 (R207, R210). -/
def replicaStep (f : Nat) (s : State) : State :=
  let s0 := if f % 64 = 0 && decide (s.emb.windowAt ≠ f) then hotWindow f s else s
  let s1 := readerStep s0
  lagCheck (s1.jobs.foldl (fun s p => startRound p.1 f s) s1)

/-- An item found wrong (R217): the live copy leaves service and the owner is asked to resend the row. -/
def replicaMismatch (j slot tid row : Nat) (s : State) : State :=
  match Tbl.look? s.emb.slots (hotKey j slot), s.job? j with
  | some x, some job =>
    let hq := hotQuota job
    let s1 := { s with emb := { s.emb with slots := Tbl.put s.emb.slots (hotKey j slot) { x with live := none } } }
    let addr := job.replBase + (2 * slot + x.live.getD 0) * job.replBytes
    let s2 := fault { code := 0x0031, job := some j, inst := slot, addr := addr, arg0 := tid, arg1 := row }
      (raiseInt blkEmb 2 (count Reg.EMB_MISMATCH 32 1 s1))
    sendRank j (slot / hq) 3 (replNameHdr 0x45 tid row (slot % hq)) [] {} s2
  | _, _ => s

/-- Whether a slot holds a copy, live or not yet, of data frame `df` or later, up to the current frame. -/
def RepSlot.newerThan (x : RepSlot) (df f : Nat) : Bool :=
  (match x.fresh with | some c => decide (df ≤ c.dframe ∧ c.dframe ≤ f) | none => false) ||
    (match x.live with | some c => decide (df ≤ x.dframe.getD c 0 ∧ x.dframe.getD c 0 ≤ f) | none => false)

/-- REPL_ROW (R211, R216, R217): it counts in its round, and is written unless a later round has filled the slot since. -/
def execReplRow (m : Msg) (s : State) : Out :=
  receive (.replRow m) 0x42 m (fun m => some [m.src.toNat, leAt m.hdr 9 2, leAt m.hdr 13 6]) (fun j r m s =>
    match s.job? j with
    | none => s
    | some job =>
      let h := leAt m.hdr 9 2
      let hq := hotQuota job
      let slot := r * hq + h
      let len := leAt m.hdr 27 2
      let df := leAt m.hdr 13 6
      if h ≥ hq ∨ len > job.replBytes ∨ m.body.length < len then badMsg s
      else
        let s1 := needDraw 8195 (updRound j r df (fun x => { x with count := x.count + 1 }) s)
        let tid := leAt m.hdr 2 2 % 4096
        let row := leAt m.hdr 4 5
        let x := Tbl.look s1.emb.slots (hotKey j slot)
          { tid := tid, row := row, live := none, vnum := [0, 0], dframe := [0, 0], digest := [0, 0], len := [0, 0], fresh := none }
        let d := slice m.body 0 len
        let put := fun (x : RepSlot) (s : State) => { s with emb := { s.emb with slots := Tbl.put s.emb.slots (hotKey j slot) x } }
        if crc64 d ≠ leAt m.hdr 19 8 then replicaMismatch j slot tid row (put x s1)
        else if x.newerThan df s.clk.fnum then s1
        else
          let c := match x.live with | some c => 1 - c | none => (x.fresh.map (·.copy)).getD 0
          match cacheWrite (slot % 2) j tid (job.replBase + (2 * slot + c) * job.replBytes) d s1 with
          | .unmapped _ s2 => s2
          | .ok _ s2 => put { x with vnum := x.vnum.set c (leAt m.hdr 11 2), dframe := x.dframe.set c df, digest := x.digest.set c (crc64 d),
                                     len := x.len.set c len, fresh := some { copy := c, dframe := df, tid := tid, row := row } } s2) s

/-- REPL_END (R211). -/
def execReplEnd (m : Msg) (s : State) : Out :=
  receive (.replEnd m) 0x43 m (fun m => some [m.src.toNat, leAt m.hdr 2 6]) (fun j r m s =>
    let df := leAt m.hdr 2 6
    updRound j r df (fun x => { x with total := some (leAt m.hdr 8 4) }) (needDraw 8195 s)) s

/-- REPL_DROP (R210): the entry goes at the next tick. -/
def execReplDrop (m : Msg) (s : State) : Out :=
  receive (.replDrop m) 0x44 m (fun m => some [m.src.toNat, leAt m.hdr 9 2]) (fun j r m s =>
    match s.job? j with
    | some job => { s with emb := { s.emb with drops := s.emb.drops ++
      [(j, r * hotQuota job + leAt m.hdr 9 2, leAt m.hdr 2 2 % 4096, leAt m.hdr 4 5)] } }
    | none => s) s

/-- REPAIR (R217): the row goes out in the owner's next round. -/
def execRepair (m : Msg) (s : State) : Out :=
  receive (.repair m) 0x45 m (fun m => some [m.src.toNat, leAt m.hdr 9 2]) (fun j _ m s =>
    let again := fun (r : HotRow) =>
      if r.tid = leAt m.hdr 2 2 % 4096 ∧ r.row = leAt m.hdr 4 5 then { r with dirty := true } else r
    { s with emb := { s.emb with hot := Tbl.upd s.emb.hot (hotKey j (leAt m.hdr 9 2)) again } }) s

/-- The replica that serves an index of a flow here (R212): slot and copy; the second component counts a bypass for lag. -/
def replicaFor (s : State) (j tid row vnum : Nat) : Option (Nat × Nat) × Bool :=
  match s.job? j with
  | none => (none, false)
  | some job =>
    match s.emb.slots.find? fun p => decide (p.1 / 65536 = j) && decide (p.2.tid = tid) && decide (p.2.row = row) && p.2.live.isSome with
    | none => (none, false)
    | some (k, x) =>
      match x.live with
      | none => (none, false)
      | some c =>
        if x.vnum.getD c 0 ≠ vnum then (none, false)
        else if s.clk.fnum - x.dframe.getD c 0 > job.replMaxLag then (none, true)
        else (some (k % 65536, c), false)

end Sys2Proof.Machine
end

