-- ==== Sys2Proof/Machine/Delta.lean ====
section
/-! DEFINITION. Delta frames: the export buffer, the log of every keeper, lag and the closing of a frame (R444 to R448, R454). -/

namespace Sys2Proof.Machine

def updDlx (j : Nat) (f : DlxJob → DlxJob) (s : State) : State :=
  { s with dlx := { s.dlx with jobs := Tbl.upd s.dlx.jobs j f } }

/-- A change of one keeper of a job. -/
def updKeeper (j k : Nat) (f : Keeper → Keeper) (s : State) : State := updDlx j (fun d => { d with keepers := d.keepers.modify k f }) s

/-- Bytes an entry takes in a log (R447). -/
def entryBytes (hdr body : Bytes) : Nat := roundUp 32 (hdr.length + body.length)
def DlxMsg.size (m : DlxMsg) : Nat := entryBytes m.hdr m.body

/-- LAG of R448: F − Fa − 1. -/
def dlxLag (s : State) (d : DlxJob) : Nat :=
  let act := d.keepers.filter fun k => !k.lost
  act.foldl (fun a k => max a (s.clk.fnum - k.start)) 0

/-- What a job keeps in the export buffer: one copy of every message some keeper has not acknowledged. -/
def DlxJob.held (d : DlxJob) : Nat := d.keepers.foldl (fun a k => max a (sumNat (k.buf.map DlxMsg.size))) 0

/-- Bytes of the export buffer in use. -/
def dlxBuffered (s : State) : Nat := sumNat (s.dlx.jobs.map fun p => p.2.held)

/-- Whether a job's updates are held (R448); `n` is the size of its next message. -/
def dlxHolds (s : State) (j n : Nat) : Bool :=
  match Tbl.look? s.dlx.jobs j with
  | none => false
  | some d =>
    d.keepers != [] && ((d.keepers.all fun k => k.lost) || decide (dlxLag s d ≥ d.lagMax) || decide (dlxBuffered s + n > 2 ^ 31))

/-! ## Sending (R445 to R447, R454) -/

def exportDraw (s : State) : Nat := if s.evening then 4 else 6

/-- A frame acknowledged by a keeper: its messages leave the buffer, and every frame before the oldest close still unanswered counts
as acknowledged; a complete base frees what lies before it. -/
def dlxAcked (j k frame : Nat) (s : State) : State :=
  let last := match Tbl.look? s.dlx.jobs j with | some d => d.lastClosed.getD frame | none => frame
  updKeeper j k (fun x =>
    let buf := x.buf.filter fun m => decide (m.dframe ≠ frame)
    let left := buf.filter (·.close)
    -- closes of frames above the last one closed are older than a renumbering of the frames
    let next := match left with
      | [] => last + 1
      | m :: _ => if m.dframe ≤ last then m.dframe else x.start
    let tail := x.buf.foldl (fun t m => if m.close && decide (m.dframe = frame) then max t (m.loff + m.size) else t) x.tail
    let whole := (x.bases.filter fun b => match b.2 with | some f => !(left.any fun m => decide (m.dframe = f)) | none => false).getLast?
    { x with
      acked := if next > x.start then some (next - 1) else x.acked, start := max x.start next, buf := buf, tail := tail, fails := Tbl.del x.fails frame,
      since := s.clk.fnum, fb := (whole.bind (·.2)).getD x.fb,
      head := match whole with | some b => if x.kind = 1 then b.1 else x.head | none => x.head,
      bases := match whole with | some b => x.bases.filter fun y => decide (y.1 > b.1) | none => x.bases }) s

/-- An entry written into a ring in this device's own shared pages, and made visible (R344, R447). -/
def ringWrite (j base size off : Nat) (bs : Bytes) (s : State) : WrRes :=
  let at_ := off % size
  let n := min bs.length (size - at_)
  match rangeWrite j (base + at_) (bs.take n) s with
  | .unmapped a s1 => .unmapped a s1
  | .ok bad s1 =>
    match rangeWrite j base (bs.drop n) s1 with
    | .unmapped a s2 => .unmapped a s2
    | .ok bad2 s2 => .ok (bad ++ bad2) (evictDirty s2)

/-- A message that has gone to its keeper. -/
def dlxSent (j k : Nat) (m : DlxMsg) (s : State) : State :=
  let s1 := count Reg.DLX_BYTES 64 (m.hdr.length + m.body.length)
    (updKeeper j k (fun x => { x with buf := x.buf.map fun y => if y.loff = m.loff then { y with sent := true } else y }) s)
  { s1 with dlx := { s1.dlx with sentAt := s1.now } }

/-- Whether an earlier message of a keeper waits: the entries of a log are written in their order. -/
def dlxBehind (s : State) (j k : Nat) (m : DlxMsg) : Bool :=
  match (Tbl.look? s.dlx.jobs j).bind fun d => d.keepers[k]? with
  | some x => x.buf.any fun y => !y.sent && decide (y.loff < m.loff)
  | none => true

/-- An entry of a host keeper's log written; its close is acknowledged once it is visible. -/
def dlxWrite (j k : Nat) (x : Keeper) (m : DlxMsg) (s : State) : State :=
  match ringWrite j x.base x.size m.loff (padTo 32 (m.hdr ++ m.body)) s with
  | .unmapped _ s1 => s1
  | .ok _ s1 => if m.close then dlxAcked j k m.dframe (dlxSent j k m s1) else dlxSent j k m s1

/-- One message sent to its keeper; an entry of a host keeper's log is written once what it reaches is there. -/
def dlxSendOne (j k : Nat) (x : Keeper) (m : DlxMsg) (s : State) : State :=
  if x.kind = 2 then if dlxBehind s j k m then s else powered (dlxWrite j k x m) s
  else dlxSent j k m (sendRank j x.rank (if m.close then 3 else 4) m.hdr m.body {} s)

/-- Whether a keeper's ring has space for a message. -/
def ringHas (x : Keeper) (m : DlxMsg) : Bool := decide (m.loff + m.size ≤ x.head + x.size)

/-- What a job's keepers have not been sent goes out while the exporter holds its draw; nothing goes out in LOST (R445). -/
def dlxPump (j : Nat) (s : State) : State :=
  match Tbl.look? s.dlx.jobs j with
  | none => s
  | some d =>
    let due := (List.range d.keepers.length).flatMap fun k =>
      match d.keepers[k]? with
      | some x => if x.lost then [] else (x.buf.filter fun m => !m.sent && ringHas x m).map fun m => (k, x, m)
      | none => []
    if due = [] ∨ s.lost ∨ !jobSends s j then s
    else
      let s1 := reserve .exporter 1 (exportDraw s) s
      if holds .exporter s1 then due.foldl (fun s p => dlxSendOne j p.1 p.2.1 p.2.2 s) s1 else s1

/-- Every job's messages looked at again. -/
def dlxPumpAll (s : State) : State := s.dlx.jobs.foldl (fun s p => dlxPump p.1 s) s

/-- A message put into the buffer of every active keeper; `hdr` takes the keeper's log offset. -/
def dlxPut (j dframe : Nat) (close : Keeper → Bool) (hdr : Keeper → Bytes) (body : Bytes) (s : State) : State :=
  updDlx j (fun d => { d with keepers := d.keepers.map fun x =>
    if x.lost then x
    else
      let h := hdr x
      { x with buf := x.buf ++ [{ dframe := dframe, close := close x, loff := x.next, hdr := h, body := body, sent := false }],
               next := x.next + entryBytes h body } }) s

/-- A DLX_REC of a delta frame (R444, R446). -/
def dlxRec (j dframe kind flags id vnum cnt offset : Nat) (body : Bytes) (s : State) : State :=
  match Tbl.look? s.dlx.jobs j with
  | none => s
  | some d =>
    let hdr := fun (x : Keeper) => toLe 2 0x70 ++ toLe 1 kind ++ toLe 1 flags ++ toLe 6 dframe ++ toLe 4 d.wseq ++ toLe 2 id ++ toLe 2 vnum ++
      toLe 4 cnt ++ toLe 4 offset ++ toLe 6 x.next
    dlxPump j (updDlx j (fun d => { d with wseq := d.wseq + 1 }) (dlxPut j dframe (fun _ => false) hdr body s))

/-- A write-back handed to the exporter: it belongs to the frame in which it is acknowledged. -/
def dlxWriteBack (j kind id vnum cnt offset : Nat) (body : Bytes) (s : State) : State := dlxRec j s.clk.fnum kind 0 id vnum cnt offset body s

/-- A table's or layer's completed step noted for the frame's KIND 2 record. -/
def dlxProgress (j kind id step : Nat) (s : State) : State :=
  updDlx j (fun d => { d with progress := (d.progress.filter fun p => !(decide (p.1 = kind) && decide (p.2.1 = id))) ++ [(kind, id, step)] }) s

/-- The close of one delta frame for a job (R445): the KIND 2 record, then DLX_CLOSE with the frame's count and digest.  Every close has a KIND 2
record (R446) but that of a frame without any record and without a completed step, which closes with count 0 (R445; DEDUCED, log 133).
A frame that LOST has closed already is not closed again. -/
def dlxCloseFrame (j frame : Nat) (s : State) : State :=
  match Tbl.look? s.dlx.jobs j with
  | none => s
  | some d =>
    if d.keepers == [] || decide (d.lastClosed = some frame) then s
    else
      let body := d.progress.flatMap fun p => toLe 2 p.1 ++ toLe 2 p.2.1 ++ toLe 4 p.2.2
      let s1 := if d.progress = [] ∧ d.wseq = 0 then s else dlxRec j frame 2 0 0 0 d.progress.length 0 body s
      let start := match d.sweep with | some w => decide (w.fs = some frame) | none => false
      let ends := match d.sweep with | some w => w.done && decide (w.fb = frame) | none => false
      let hdr := fun (x : Keeper) =>
        let mine := x.buf.filter fun m => decide (m.dframe = frame)
        let dig := mine.foldl (fun a m => a ^^^ crc64 (m.hdr ++ m.body)) 0
        toLe 2 0x71 ++ zeros 2 ++ toLe 6 frame ++ toLe 4 mine.length ++ toLe 8 dig ++ toLe 1 (b2n start + 2 * b2n ends) ++ zeros 3 ++ toLe 6 x.next
      let note := fun (x : Keeper) =>
        if x.lost then x
        else
          let l := if start then x.bases ++ [(x.next, none)] else x.bases
          { x with bases := if ends then l.map fun b => (b.1, some (b.2.getD frame)) else l }
      let s2 := updDlx j (fun d => { d with keepers := d.keepers.map note }) s1
      let s3 := dlxPut j frame (fun _ => true) hdr [] s2
      dlxPump j (updDlx j (fun d => { d with lastClosed := some frame, progress := [], sweep := if ends then none else d.sweep })
        (if ends then raiseInt blkDlx 3 s3 else s3))

/-- A tick for a job's exporter (R444): WSEQ begins anew; after a renumbering to lower frames (R23) the frames from here on are the ones
not acknowledged. -/
def DlxJob.tick (f : Nat) (d : DlxJob) : DlxJob :=
  let back := match d.lastClosed with | some c => decide (f ≤ c) | none => false
  { d with wseq := 0, share := d.sweepMiB * 2 ^ 20,
           keepers := if back then d.keepers.map fun x => { x with start := f, since := f } else d.keepers }

/-- Step 2 of R36: the frame before the one that starts is closed. -/
def dlxCloseAll (frame : Nat) (s : State) : State := s.dlx.jobs.foldl (fun s p => dlxCloseFrame p.1 frame s) s

/-- Whether every closed frame is acknowledged or its keepers are LOST (R370, R448). -/
def dlxDrained (s : State) : Bool := s.dlx.jobs.all fun p => p.2.keepers.all fun k => k.lost || !(k.buf.any fun m => m.close)

end Sys2Proof.Machine
end

