-- ==== Sys2Proof/Machine/Walkers.lean ====
section
/-! DEFINITION. Row walkers: issue of a 32-bit instruction, arithmetic, branches, local memory, transfers, and the end of a cluster's
chunk (R221 to R225, R251). -/

namespace Sys2Proof.Machine

/-! ## Walkers and clusters -/

def State.walker (s : State) (k : Nat) : Walker := Tbl.look s.lkp.walkers k Walker.init
def updWalker (k : Nat) (f : Walker → Walker) (s : State) : State :=
  { s with lkp := { s.lkp with walkers := Tbl.put s.lkp.walkers k (f (s.walker k)) } }

/-- The cluster of a walker, and its execution unit. -/
def clusterOf (k : Nat) : Nat := k / 64
def clusterUnit (c : Nat) : Nat := 24 + c
def State.cluster? (s : State) (c : Nat) : Option Cluster := Tbl.look? s.lkp.clusters c

def Walker.reg (w : Walker) (i : Nat) : Nat := if i = 0 then 0 else Tbl.look w.regs i 0 % 2 ^ 32
def Walker.setReg (w : Walker) (i v : Nat) : Walker := if i = 0 then w else { w with regs := Tbl.put w.regs i (v % 2 ^ 32) }
def Walker.base (w : Walker) (i : Nat) : Nat := Tbl.look w.sb i 0

/-- Local memory; a byte nothing has written since the command's start is 0 (DESIGN CHOICE). -/
def Walker.read (w : Walker) (a n : Nat) : Bytes := Mem.gets w.loc 0 a n

/-- The clusters a command names, rising. -/
def Cmd.clusters (c : Cmd) : List Nat := (List.range 32).filter fun i => bitOf (c.opnd 0 4) i

/-- A walker's number in its command (R224, CSR 0). -/
def walkerNumber (c : Cmd) (k : Nat) : Nat := 64 * (c.clusters.takeWhile (· ≠ clusterOf k)).length + k % 64

/-- The walkers of a cluster. -/
def walkersOf (c : Nat) : List Nat := (List.range 64).map (64 * c + ·)

/-- Whether a walker may issue: its cluster runs a chunk, the walker is not halted and it has not retired CBND or END in it. -/
def mayWalk (k : Nat) (s : State) : Bool :=
  let w := s.walker k
  let u := s.unit (clusterUnit (clusterOf k))
  s.clocked && u.run.isSome && (s.cluster? (clusterOf k)).isSome && w.active && !w.bound && !w.ended && !w.halted && w.waitD.isNone

/-! ## The end of a command -/

/-- A command's clusters are free: their walkers leave it, and its ended handles are dropped. -/
def freeClusters (q cid : Nat) (s : State) : State :=
  let mine := s.lkp.clusters.filterMap fun p => if p.2.queue = q ∧ p.2.cid = cid then some p.1 else none
  { s with savedClusters := s.savedClusters.filter (fun p => decide (p.2.cluster.cid ≠ cid)), lkp := { s.lkp with
    clusters := s.lkp.clusters.filter fun p => !mine.contains p.1,
    walkers := Tbl.mapv s.lkp.walkers fun k w => if mine.contains (clusterOf k) then { w with active := false, waitD := none, waitH := none, xfers := [] } else w,
    handles := s.lkp.handles.filter fun p => !(decide (p.2.cid = cid) && p.2.ended.isSome) } }

/-- A command that has left the head of its queue leaves its clusters. -/
def walkLeft (q cid : Nat) (s : State) : State :=
  match headOf s q with
  | some c => if c.cid = cid then s else freeClusters q cid s
  | none => freeClusters q cid s

/-- Whether every walker of every named cluster has retired END. -/
def allEnded (s : State) (c : Cmd) : Bool :=
  c.clusters.all fun i =>
    let here := match s.cluster? i with
      | some x => decide (x.cid = c.cid) && (walkersOf i).all fun k => (s.walker k).ended
      | none => false
    let saved := match Tbl.look? s.savedClusters (32 * c.cid + i) with
      | some v => v.walkers.all (·.ended)
      | none => false
    here || saved

/-- Whether every handle of a command has its final codes (R341). -/
def handlesClosed (s : State) (cid : Nat) : Bool := s.lkp.handles.all fun p => decide (p.2.cid ≠ cid) || p.2.ended.isSome

/-- The command of a queue completes when its walkers have ended and its handles are closed. -/
def walkFinish (q cid : Nat) (s : State) : State :=
  match headOf s q with
  | some c =>
    if c.cid = cid && decide (c.opcode = Op.WALK) && allEnded s c && handlesClosed s cid && noChunk s q cid then
      walkLeft q cid (endCid q cid St.OK 0 0 (satisfy Op.SUSPEND cid true s))
    else s
  | none => s

/-- A cluster's chunk ends when every walker still running has retired CBND or END (R225). -/
def clusterEnd (c : Nat) (s : State) : State :=
  match s.cluster? c with
  | none => s
  | some x =>
    if (walkersOf c).all fun k => let w := s.walker k; !w.active || w.bound || w.ended then
      let s1 := releaseChunk (clusterUnit c) s
      let s2 := { s1 with lkp := { s1.lkp with walkers := Tbl.mapv s1.lkp.walkers fun k w => if clusterOf k = c then { w with bound := false } else w } }
      if !noChunk s2 x.queue x.cid then s2
      else
        match headOf s2 x.queue with
        | none => s2
        | some h =>
          if h.cid ≠ x.cid then s2
          else if h.cancReq || h.faultReq.isSome || h.overReq then walkLeft x.queue x.cid (boundary x.queue x.cid s2)
          else if allEnded s2 h then walkFinish x.queue x.cid s2
          else boundary x.queue x.cid s2
    else s

/-- A walker's command stopped with a status (R251); RESULT is the faulting address of an access (R343). -/
def walkStop (k status detail sub pc result : Nat) (s : State) : State :=
  match s.cluster? (clusterOf k) with
  | none => s
  | some x =>
    let s1 := setReg Reg.LKP_ERR (sub + x.job * 16 + k * 2 ^ 10 + 2 ^ 21 + pc % 2 ^ 32 * 2 ^ 32) s
    walkLeft x.queue x.cid (stopCommand x.queue x.cid status detail result (raiseInt blkLkp (if status = St.LKP_ACCESS then 1 else 0) s1))

def walkInvalid (k sub : Nat) (s : State) : State := walkStop k St.LKP_INVALID sub sub (s.walker k).pc 0 s
def walkAccess (k va : Nat) (s : State) : State := walkStop k St.LKP_ACCESS 15 15 (s.walker k).pc va s

/-! ## Issue (R223, R224) -/

/-- A walker's context at issue: the word, the register values of RS1 and RS2, and the signed immediate. -/
structure WIss where
  k   : Nat
  v   : Nat
  w   : Walker
  rd  : Nat
  a   : Nat
  b   : Nat
  imm : Int
  cl  : Cluster

/-- What a walker instruction does. -/
inductive WEff where
  /-- It waits; it is issued again. -/
  | stall (s : State)
  /-- It has stopped its command. -/
  | stop (s : State)
  /-- It retires and the walker goes on at an instruction index. -/
  | next (pc : Nat) (s : State)

/-- The operations of R224. -/
def walkDefined (op : Nat) : Bool := decide (op ≤ 0x0D) || (decide (0x10 ≤ op) && decide (op ≤ 0x1A)) || (decide (0x20 ≤ op) && decide (op ≤ 0x26))

/-- Instructions of a program store. -/
def storeWords : Nat := 16384

/-- An instruction issued by a walker. -/
def walkIssue (k : Fin 2048) (word : BitVec 32) (op : Nat) (check : WIss → Nat) (act : WIss → State → WEff) (s : State) : Out :=
  let v := word.toNat
  if walkDefined (bits v 5 0) && decide (bits v 5 0 ≠ op) then .fault .wordOfAnotherRow
  else if !mayWalk k s then .next s
  else
    match s.cluster? (clusterOf k) with
    | none => .next s
    | some cl =>
      let w := s.walker k
      let i : WIss := { k := k, v := v, w := w, rd := bits v 9 6, a := w.reg (bits v 13 10), b := w.reg (bits v 17 14), imm := sx 14 (bits v 31 18), cl := cl }
      .next (
        if w.pc ≥ storeWords then walkInvalid k 3 s
        else if !walkDefined (bits v 5 0) then walkInvalid k 1 s
        else if check i ≠ 0 then walkInvalid k (check i) s
        else
          match act i s with
          | .stall s1 => s1
          | .stop s1 => s1
          | .next pc s1 => updWalker k (fun w => { w with pc := pc }) s1)

/-- An instruction that writes RD and goes on. -/
def walkAlu (k : Fin 2048) (word : BitVec 32) (op : Nat) (f : WIss → Nat) (s : State) : Out :=
  walkIssue k word op (fun _ => 0) (fun i s => .next (i.w.pc + 1) (updWalker k (fun w => w.setReg i.rd (f i)) s)) s

/-- The signed immediate as 32 bits. -/
def WIss.immw (i : WIss) : Nat := wrapInt 32 i.imm

/-- NOP. -/
def execWalkNop (k : Fin 2048) (w : BitVec 32) (s : State) : Out := walkIssue k w 0x00 (fun _ => 0) (fun i s => .next (i.w.pc + 1) s) s
/-- ADD. -/
def execAdd (k : Fin 2048) (w : BitVec 32) (s : State) : Out := walkAlu k w 0x01 (fun i => i.a + i.b + i.immw) s
/-- SUB. -/
def execSub (k : Fin 2048) (w : BitVec 32) (s : State) : Out := walkAlu k w 0x02 (fun i => i.a + 2 ^ 32 - i.b) s

/-- The second operand of a logical operation: RS2, or IMM when RS2 is w0. -/
def WIss.logic (i : WIss) : Nat := if bits i.v 17 14 = 0 then i.immw else i.b

/-- AND, OR, XOR. -/
def execAnd (k : Fin 2048) (w : BitVec 32) (s : State) : Out := walkAlu k w 0x03 (fun i => i.a &&& i.logic) s
def execOr (k : Fin 2048) (w : BitVec 32) (s : State) : Out := walkAlu k w 0x04 (fun i => i.a ||| i.logic) s
def execXor (k : Fin 2048) (w : BitVec 32) (s : State) : Out := walkAlu k w 0x05 (fun i => i.a ^^^ i.logic) s

/-- The shift amount. -/
def WIss.shift (i : WIss) : Nat := (i.b + i.immw) % 32

/-- SHL, SHR, SRA. -/
def execShl (k : Fin 2048) (w : BitVec 32) (s : State) : Out := walkAlu k w 0x06 (fun i => i.a <<< i.shift) s
def execShr (k : Fin 2048) (w : BitVec 32) (s : State) : Out := walkAlu k w 0x07 (fun i => i.a >>> i.shift) s
def execSra (k : Fin 2048) (w : BitVec 32) (s : State) : Out := walkAlu k w 0x08 (fun i => wrapInt 32 (sx 32 i.a / 2 ^ i.shift)) s
/-- MUL, MULHU. -/
def execMul (k : Fin 2048) (w : BitVec 32) (s : State) : Out := walkAlu k w 0x09 (fun i => i.a * i.b) s
def execMulhu (k : Fin 2048) (w : BitVec 32) (s : State) : Out := walkAlu k w 0x0A (fun i => i.a * i.b / 2 ^ 32) s
/-- SLT, SLTU. -/
def execSlt (k : Fin 2048) (w : BitVec 32) (s : State) : Out := walkAlu k w 0x0B (fun i => b2n (decide (sx 32 i.a < sx 32 i.b))) s
def execSltu (k : Fin 2048) (w : BitVec 32) (s : State) : Out := walkAlu k w 0x0C (fun i => b2n (decide (i.a < i.b))) s
/-- LUI. -/
def execLui (k : Fin 2048) (w : BitVec 32) (s : State) : Out := walkAlu k w 0x0D (fun i => bits i.v 31 10 * 1024) s

/-! ## Local memory -/

/-- The local address of LD and ST. -/
def WIss.laddr (i : WIss) : Nat := (i.a + i.immw) % 2 ^ 32
def localOk (a n align : Nat) : Bool := decide (a % align = 0) && decide (a + n ≤ 0x2000)

/-- LD. -/
def execLd (k : Fin 2048) (w : BitVec 32) (s : State) : Out :=
  walkIssue k w 0x10 (fun i => if localOk i.laddr 4 4 then 0 else 2)
    (fun i s => .next (i.w.pc + 1) (updWalker k (fun x => x.setReg i.rd (le (x.read i.laddr 4))) s)) s

/-- ST. -/
def execSt (k : Fin 2048) (w : BitVec 32) (s : State) : Out :=
  walkIssue k w 0x11 (fun i => if localOk i.laddr 4 4 then 0 else 2)
    (fun i s => .next (i.w.pc + 1) (updWalker k (fun x => { x with loc := Mem.sets x.loc 0 i.laddr (toLe 4 i.b) }) s)) s

/-! ## Branches and jumps -/

/-- The target of a branch or JAL, counted from the instruction itself (DEDUCED). -/
def WIss.target (i : WIss) : Int := (i.w.pc : Int) + i.imm
def targetOk (t : Int) : Bool := decide (0 ≤ t) && decide (t < storeWords)

/-- A branch. -/
def walkBranch (k : Fin 2048) (word : BitVec 32) (op : Nat) (f : WIss → Bool) (s : State) : Out :=
  walkIssue k word op (fun i => if targetOk i.target then 0 else 3) (fun i s => .next (if f i then i.target.toNat else i.w.pc + 1) s) s

/-- BEQ, BNE, BLT, BLTU. -/
def execBeq (k : Fin 2048) (w : BitVec 32) (s : State) : Out := walkBranch k w 0x12 (fun i => i.a == i.b) s
def execBne (k : Fin 2048) (w : BitVec 32) (s : State) : Out := walkBranch k w 0x13 (fun i => i.a != i.b) s
def execBlt (k : Fin 2048) (w : BitVec 32) (s : State) : Out := walkBranch k w 0x14 (fun i => decide (sx 32 i.a < sx 32 i.b)) s
def execBltu (k : Fin 2048) (w : BitVec 32) (s : State) : Out := walkBranch k w 0x15 (fun i => decide (i.a < i.b)) s

/-- JAL. -/
def execJal (k : Fin 2048) (w : BitVec 32) (s : State) : Out :=
  walkIssue k w 0x16 (fun i => if targetOk i.target then 0 else 3)
    (fun i s => .next i.target.toNat (updWalker k (fun x => x.setReg i.rd (i.w.pc + 1)) s)) s

/-- JR. -/
def execJr (k : Fin 2048) (w : BitVec 32) (s : State) : Out :=
  walkIssue k w 0x17 (fun i => if i.a < storeWords then 0 else 3) (fun i s => .next i.a s) s

/-! ## Ends of a chunk and of the command's part (R225) -/

/-- END: the walker's part of the command ends once its XFERs have completed. -/
def execWalkEnd (k : Fin 2048) (w : BitVec 32) (s : State) : Out :=
  walkIssue k w 0x18 (fun _ => 0)
    (fun i s => if i.w.xfers = [] then .stop (clusterEnd (clusterOf k) (updWalker k (fun x => { x with ended := true }) s)) else .stall s) s

/-- CBND. -/
def execWalkCbnd (k : Fin 2048) (w : BitVec 32) (s : State) : Out :=
  walkIssue k w 0x19 (fun _ => 0)
    (fun i s =>
      if i.w.xfers = [] then .stop (clusterEnd (clusterOf k) (updWalker k (fun x => { x with bound := true, pc := x.pc + 1 }) s)) else .stall s) s

/-- The control values of CSR. -/
def csrValue (s : State) (i : WIss) (n : Nat) : Nat :=
  let cmd := headOf s i.cl.queue
  match n with
  | 0 => (cmd.map fun c => walkerNumber c i.k).getD 0
  | 1 => (cmd.map fun c => 64 * c.clusters.length).getD 0
  | 2 => ((s.job? i.cl.job).map (·.rank)).getD 0
  | 3 => ((s.job? i.cl.job).map (·.ndev)).getD 0
  | 4 => s.clk.fnum
  | 5 => s.pos
  | _ => clusterOf i.k

/-- CSR. -/
def execCsr (k : Fin 2048) (w : BitVec 32) (s : State) : Out :=
  walkIssue k w 0x1A (fun i => if bits i.v 21 18 ≤ 6 then 0 else 1)
    (fun i s => .next (i.w.pc + 1) (updWalker k (fun x => x.setReg i.rd (csrValue s i (bits i.v 21 18))) s)) s

/-! ## Transfers -/

/-- The range address of an XFER. -/
def WIss.xaddr (i : WIss) : Nat := (i.w.base (bits i.v 19 18) + i.b) % 2 ^ 48

/-- Whether a span of a job's range is mapped. -/
def spanMapped (s : State) (j a n : Nat) : Bool := decide (a + n ≤ rangeBytes) && (firstUnmapped s j a n).isNone

/-- XFER: the transfer is started; XFER_COMPLETE moves its bytes. -/
def execXfer (k : Fin 2048) (w : BitVec 32) (s : State) : Out :=
  walkIssue k w 0x20
    (fun i =>
      let n := i.w.reg i.rd
      if n < 32 ∨ n > 8192 ∨ n % 32 ≠ 0 ∨ i.a + n > 0x2000 then 2 else 0)
    (fun i s =>
      let n := i.w.reg i.rd
      if !spanMapped s i.cl.job i.xaddr n then 
        let va := (firstUnmapped s i.cl.job i.xaddr n).getD i.xaddr
        .stop (walkAccess k va (urngFault i.cl.job va 1 s))
      else
        .next (i.w.pc + 1) (updWalker k (fun x => { x with xfers := x.xfers ++
          [{ out := bitOf i.v 20, loc := i.a, addr := i.xaddr, len := n }] }) s)) s

/-- XWAIT. -/
def execXwait (k : Fin 2048) (w : BitVec 32) (s : State) : Out :=
  walkIssue k w 0x21 (fun _ => 0) (fun i s => if i.w.xfers = [] then .next (i.w.pc + 1) s else .stall s) s

/-- SBSET. -/
def execSbset (k : Fin 2048) (w : BitVec 32) (s : State) : Out :=
  walkIssue k w 0x22 (fun _ => 0)
    (fun i s => .next (i.w.pc + 1) (updWalker k (fun x => { x with sb := Tbl.put x.sb (bits i.v 19 18) (i.b % 65536 * 2 ^ 32 + i.a) }) s)) s

/-- XFER_COMPLETE (R224, R225): the walker's oldest transfer moves its bytes. -/
def execXferComplete (k : Fin 2048) (s : State) : Out :=
  match (s.walker k).xfers, s.cluster? (clusterOf k) with
  | x :: r, some cl =>
    whenP (.xferComplete k) s.clocked (fun s =>
      let s1 := updWalker k (fun w => { w with xfers := r }) s
      if x.out then
        match rangeWrite cl.job x.addr ((s.walker k).read x.loc x.len) s1 with
        | .unmapped va s2 => walkAccess k va s2
        | .ok _ s2 => s2
      else
        match rangeRead cl.job x.addr x.len s1 with
        | .unmapped va s2 => walkAccess k va s2
        | .ok d _ s2 => updWalker k (fun w => { w with loc := Mem.sets w.loc 0 x.loc d }) s2) s
  | _, _ => .next s

/-! ## The start of a command on a cluster (R222) -/

/-- The walkers of a cluster at the entry index: registers 0, the segment bases and the argument block of the command. -/
def startWalkers (cl : Nat) (c : Cmd) (s : State) : State :=
  (walkersOf cl).foldl (fun s k =>
    updWalker k (fun _ => { Walker.init with
      pc := c.opnd 4 4, active := true, sb := (List.range 4).map fun i => (i, c.opnd (16 + 8 * i) 8 % 2 ^ 48),
      loc := Mem.sets [] 0 0 (c.opndBytes 48 64) }) s) s

/-- A waiting or suspended command's cluster state saved while another command's chunk runs on the cluster. -/
def stashCluster (cl : Nat) (s : State) : State :=
  match s.cluster? cl with
  | none => s
  | some x =>
    let s1 := { s with lkp := { s.lkp with
      clusters := Tbl.del s.lkp.clusters cl, walkers := s.lkp.walkers.filter fun p => decide (clusterOf p.1 ≠ cl) } }
    if heldCmd s x.queue x.cid then
      { s1 with savedClusters := Tbl.put s1.savedClusters (32 * x.cid + cl) { cluster := x, walkers := (walkersOf cl).map s.walker } }
    else s1

/-- A saved cluster state put back. -/
def unstashCluster (cl cid : Nat) (sv : SavedCluster) (s : State) : State :=
  let s1 := { s with savedClusters := Tbl.del s.savedClusters (32 * cid + cl),
                     lkp := { s.lkp with clusters := Tbl.put s.lkp.clusters cl sv.cluster } }
  (List.range 64).foldl (fun s i => updWalker (64 * cl + i) (fun w => sv.walkers.getD i w) s) s1

/-- The program fetched into the program store, and the walkers started.  The store's 64 KiB are fetched (DEDUCED: no other length is
given). -/
def loadCluster (cl : Nat) (c : Cmd) (s : State) : State :=
  let put := fun (p : Bytes) (s : State) => { s with lkp := { s.lkp with
    clusters := Tbl.upd s.lkp.clusters cl fun x => { x with prog := p, fetched := true } } }
  match rangeRead c.job (c.opnd 8 8) 65536 s with
  | .unmapped va s1 => walkStop (64 * cl) St.LKP_ACCESS 15 15 (c.opnd 4 4) va (put [] s1)
  | .ok d _ s1 =>
    let s2 := startWalkers cl c (put d s1)
    if c.opnd 4 4 ≥ storeWords then walkStop (64 * cl) St.LKP_INVALID 3 3 (c.opnd 4 4) 0 s2 else s2

/-- A cluster whose command's chunk runs fetches its program, once what the fetch reaches is there. -/
def fetchProgram (cl : Nat) (s : State) : State :=
  match s.cluster? cl with
  | none => s
  | some x =>
    match headOf s x.queue with
    | some c => if x.fetched || decide (c.cid ≠ x.cid) || (s.unit (clusterUnit cl)).run.isNone then s else powered (loadCluster cl c) s
    | none => s

/-- Every cluster that still has its program to fetch. -/
def fetchCycle (s : State) : State := s.lkp.clusters.foldl (fun s p => fetchProgram p.1 s) s

/-- The first chunk on a cluster: its walkers wait for the program. -/
def startCluster (cl q : Nat) (c : Cmd) (s : State) : State :=
  (walkersOf cl).foldl (fun s k => updWalker k (fun _ => Walker.init) s) { s with lkp := { s.lkp with
    clusters := Tbl.put s.lkp.clusters cl { job := c.job, queue := q, cid := c.cid, chunks := 0, prog := [], fetched := false } } }

/-- A chunk of a command begins on a cluster. -/
def enterCluster (cl q : Nat) (c : Cmd) (fresh : Bool) (s : State) : State :=
  let own := match s.cluster? cl with | some x => decide (x.cid = c.cid) | none => false
  let s1 := if own then s
    else
      let s1 := stashCluster cl s
      match Tbl.look? s1.savedClusters (32 * c.cid + cl) with
      | some sv => unstashCluster cl c.cid sv s1
      | none => startCluster cl q c s1
  let more := fun (x : Cluster) => { x with chunks := x.chunks + b2n fresh }
  fetchProgram cl { s1 with lkp := { s1.lkp with clusters := Tbl.upd s1.lkp.clusters cl more } }

end Sys2Proof.Machine
end

