-- ==== Sys2Proof/Machine/Pools.lean ====
section
/-! DEFINITION. Gathering and pooling: the row cache, rows as values, segments pooled at an owner, and partials added at the requester
(R228 to R232, R240, R70). -/

namespace Sys2Proof.Machine

/-! ## Draws of the table engine (R249, R250): units 0 and 1 flow engines, 2 and 3 Poolers, 4 and 5 Coalescers -/

def engineAsk (u : Nat) (s : State) : State := needDraw (8220 + u) s
/-- The same without waiting for it (R250): the work waits in its entries. -/
def engineCall (u : Nat) (s : State) : State := match useDraw s (8220 + u) with | some (o, n) => reserve o 1 n s | none => s
def engineCallAll (us : List Nat) (s : State) : State := us.foldl (fun s u => engineCall u s) s
def engineAskAll (us : List Nat) (s : State) : State := us.foldl (fun s u => engineAsk u s) s
def engineHeld (s : State) (us : List Nat) : Bool := us.all fun u => holds (.tableEngine u) s

/-- The numeric status of table work: LKP_NSTAT (R72). -/
def lkpNstat (st : Nat) (s : State) : State := orReg Reg.LKP_NSTAT st s

/-! ## Gathering -/

/-- A record read through a die's cache: its bytes and whether a sector of it is poisoned; a record on an unmapped page is taken as
poisoned (DEDUCED: it has no status of its own). -/
def gather (die j tid va n : Nat) (s : State) : Bytes × Bool × State :=
  match rangeRead j va n s with
  | .unmapped _ s1 => (zeros n, true, s1)
  | .ok d bad s1 =>
    let s2 := (pieces va n).foldl (fun s p => cacheTouch die tid (sectorKey j p.1) (bad.contains p.1) s) s1
    (d, bad != [], s2)

/-! ## Rows as values (R70) -/

/-- The elements of a working row, widened exactly. -/
def rowVals (wfmt d : Nat) (raw : Bytes) : List Num :=
  if wfmt = 5 then
    let sc := f32 (leAt raw d 4)
    (elems 5 raw d).map fun q => Num.mul (decode 5 q) sc
  else (elems wfmt raw d).map (decode wfmt)

/-- An occurrence at hand: row index, bytes as stored, poison, weight code. -/
structure Occ where
  row    : Nat
  raw    : Bytes
  poison : Bool
  wgt    : Nat
  deriving DecidableEq, Repr

/-- The terms of an occurrence: its elements, times the weight for WSUM; with the numeric status. -/
def occTerms (pool wfmt d : Nat) (o : Occ) : List Num × Nat :=
  let vs := rowVals wfmt d o.raw
  let nan := if vs.any Num.isNan then NS.NANIN else 0
  if pool = 1 then
    let w := f32 o.wgt
    let ps := vs.map fun v => product v w
    (ps.map (·.1), ps.foldl (fun a p => a ||| p.2) nan)
  else (vs, nan)

/-- Whether a candidate of MAX takes the place of the one held: value and row index (R231). -/
def maxTakes (held cand : Num × Nat) : Bool :=
  if held.1.isNan then cand.1.isNan && decide (cand.2 < held.2)
  else if cand.1.isNan then true
  else Num.lt held.1 cand.1 || (Num.eq held.1 cand.1 && decide (cand.2 < held.2))

/-- The XACCs of a list of term rows, in groups of 256 (R70). -/
def poolSums (d : Nat) (terms : List (List Num)) : List XAcc × Nat :=
  let r := (List.range d).map fun e => XAcc.empty.addAll (terms.map fun t => t.getD e .nan)
  (r.map (·.1), r.foldl (fun a p => a ||| p.2) 0)

/-- The winners of MAX over rows: value and row index per element. -/
def poolMax (d : Nat) (rows : List (List Num × Nat)) : List (Num × Nat) :=
  (List.range d).map fun e =>
    match rows with
    | [] => (Num.zero, 2 ^ 64 - 1)
    | r :: rest => rest.foldl (fun h c => let x := (c.1.getD e .nan, c.2); if maxTakes h x then x else h) (r.1.getD e .nan, r.2)

/-- A partial of one segment (R231): rows pooled, kind, poison, the bytes, the winners of MAX. -/
structure Part1 where
  bag    : Nat
  rows   : Nat
  kind   : Nat
  poison : Bool
  data   : Bytes
  wins   : List Nat
  deriving DecidableEq, Repr

/-- A segment pooled at an owner. -/
def poolSeg (pool rfmt wfmt d bag : Nat) (os : List Occ) : Part1 × Nat :=
  let poison := os.any (·.poison)
  let mk := fun (k : Nat) (data : Bytes) (wins : List Nat) => ({ bag := bag, rows := os.length, kind := k, poison := poison, data := data, wins := wins } : Part1)
  match decide (rfmt = 0) && (decide (pool = 0) || decide (pool = 2)), os with
  | true, [o] => (mk 0 o.raw [], 0)
  | _, _ =>
    let ts := os.map (occTerms pool wfmt d)
    let st0 := ts.foldl (fun a p => a ||| p.2) 0
    if pool = 3 then
      let m := poolMax d (List.zipWith (fun t (o : Occ) => (t.1, o.row)) ts os)
      (mk 2 (m.flatMap fun x => (XAcc.empty.addGroup [x.1]).1.bytes) (m.map (·.2)), st0)
    else
      let (accs, st) := poolSums d (ts.map (·.1))
      if rfmt = 1 then (mk 2 (accs.flatMap XAcc.bytes) [], st0 ||| st)
      else
        let cs := accs.map fun a => toF32 a.value
        (mk 1 (cs.flatMap fun c => toLe 4 c.1) [], cs.foldl (fun a c => a ||| c.2) (st0 ||| st))

/-- The bytes of a partial in a LOOKUP_REPLY (R234). -/
def Part1.bytes (p : Part1) : Bytes :=
  toLe 4 p.bag ++ toLe 4 p.rows ++ toLe 1 p.kind ++ toLe 1 (b2n p.poison) ++ zeros 6 ++ p.data ++ p.wins.flatMap fun w => toLe 8 w

/-- The bytes of a partial's sums. -/
def partLen (kind wfmt d : Nat) : Nat := match kind with | 0 => workBytes wfmt d | 1 => 4 * d | _ => 16 * d

/-- `n` partials read from a reply's body. -/
def partsOf (n : Nat) (pool wfmt d : Nat) (bs : Bytes) : List Part1 :=
  match n with
  | 0 => []
  | n + 1 =>
    let kind := leAt bs 8 1
    let m := partLen kind wfmt d
    let w := if pool = 3 then 8 * d else 0
    { bag := leAt bs 0 4, rows := leAt bs 4 4, kind := kind, poison := decide (leAt bs 9 1 = 1), data := slice bs 16 m,
      wins := if pool = 3 then (List.range d).map fun e => leAt bs (16 + m + 8 * e) 8 else [] } :: partsOf n pool wfmt d (bs.drop (16 + m + w))

/-! ## The combine XACCs at the requester (R228 step 5) -/

/-- One element's partial value added into a combine XACC. -/
def combine (h : Handle) (b e : Nat) (x : XAcc) : Handle × Nat :=
  let k := b * h.dim + e
  let (a, st) := (Tbl.look h.acc k XAcc.empty).merge x
  ({ h with acc := Tbl.put h.acc k a }, st)

/-- One element's candidate for MAX. -/
def combineMax (h : Handle) (b e : Nat) (x : XAcc) (win : Nat) : Handle :=
  let k := b * h.dim + e
  let take := match Tbl.look? h.wins k with
    | none => true
    | some w => maxTakes ((Tbl.look h.acc k XAcc.empty).value, w) (x.value, win)
  if take then { h with acc := Tbl.put h.acc k x, wins := Tbl.put h.wins k win } else h

/-- The XACCs a partial stands for. -/
def Part1.accs (p : Part1) (wfmt d : Nat) : List XAcc :=
  match p.kind with
  | 0 => (rowVals wfmt d p.data).map fun v => (XAcc.empty.addGroup [v]).1
  | 1 => (List.range d).map fun e => (XAcc.empty.addGroup [f32 (leAt p.data (4 * e) 4)]).1
  | _ => (List.range d).map fun e => XAcc.ofBytes (slice p.data (16 * e) 16)

/-- POOL of a descriptor. -/
def descPool (d : Bytes) : Nat := bits (leAt d 0 4) 13 12

/-- A partial added to a handle, with the numeric status: a NaN among its values is a NaN operand (R72). -/
def addPart (h : Handle) (p : Part1) : Handle × Nat :=
  let xs := p.accs (vsWfmt h.slot) h.dim
  let nan := if (List.range h.dim).any fun e => decide ((xs.getD e XAcc.empty).cls = 3) then NS.NANIN else 0
  let h1 := if p.poison && !h.poisoned.contains p.bag then { h with poisoned := p.bag :: h.poisoned } else h
  (List.range h.dim).foldl (fun (a : Handle × Nat) e =>
    let x := xs.getD e XAcc.empty
    if descPool h.desc = 3 then (combineMax a.1 p.bag e x (p.wins.getD e 0), a.2)
    else
      let (h2, st) := combine a.1 p.bag e x
      (h2, a.2 ||| st)) (h1, nan)

end Sys2Proof.Machine
end

