-- ==== Sys2Proof/Machine/Requester.lean ====
section
/-! DEFINITION. The requester's side of flows: descriptors, the close of a handle, and the messages that end a flow (R226 to R229, R235,
R236, R239, R306, R308). -/

namespace Sys2Proof.Machine

/-! ## Descriptors (R226, R241) -/

def dsTid (d : Bytes) : Nat := bits (leAt d 0 4) 11 0
def dsRfmt (d : Bytes) : Nat := bits (leAt d 0 4) 14 14
def dsWaitUpd (d : Bytes) : Bool := bitOf (leAt d 0 4) 15
def dsClass (d : Bytes) : Nat := bits (leAt d 0 4) 17 16
def dsAutoRetry (d : Bytes) : Bool := bitOf (leAt d 0 4) 18
def dsOfmt (d : Bytes) : Nat := bits (leAt d 0 4) 23 20
def dsRmode (d : Bytes) : Nat := bits (leAt d 0 4) 25 24
def dsSat (d : Bytes) : Bool := bitOf (leAt d 0 4) 26
def dsNbags (d : Bytes) : Nat := leAt d 4 4
def dsOffs (d : Bytes) : Nat := leAt d 8 6
def dsIdx (d : Bytes) : Nat := leAt d 14 6
def dsWgt (d : Bytes) : Nat := leAt d 20 6
/-- DST, or GRAD of an update. -/
def dsDst (d : Bytes) : Nat := leAt d 26 6
def dsStride (d : Bytes) : Nat := leAt d 32 3
def dsStep (d : Bytes) : Nat := leAt d 35 4
def dsAux (d : Bytes) : Nat := leAt d 39 6
def dsOutrec (d : Bytes) : Nat := leAt d 45 6

/-! ## Handles -/

def State.handle? (s : State) (h : Nat) : Option Handle := Tbl.look? s.lkp.handles h
def putHandle (h : Nat) (x : Handle) (s : State) : State := { s with lkp := { s.lkp with handles := Tbl.put s.lkp.handles h x } }
def updHandle (h : Nat) (f : Handle → Handle) (s : State) : State := { s with lkp := { s.lkp with handles := Tbl.upd s.lkp.handles h f } }
def State.rflow? (s : State) (e : Nat) : Option RFlow := Tbl.look? s.lkp.rflows e
def updRFlow (e : Nat) (f : RFlow → RFlow) (s : State) : State := { s with lkp := { s.lkp with rflows := Tbl.upd s.lkp.rflows e f } }

/-- The queue whose head is a command. -/
def queueOf (s : State) (cid : Nat) : Option Nat := s.enabled.find? fun q => match headOf s q with | some c => decide (c.cid = cid) | none => false

/-- Numeric status of a handle's work: LKP_NSTAT and its command's (R72). -/
def handleNstat (cid st : Nat) (s : State) : State :=
  match queueOf s cid with
  | some q => orNstat q cid st (lkpNstat st s)
  | none => lkpNstat st s

/-- Numeric status of work at another owner: its command's alone (R72, R252). -/
def cmdNstat (cid st : Nat) (s : State) : State :=
  match queueOf s cid with
  | some q => orNstat q cid st s
  | none => s

/-- The command of a handle stopped with LKP_ACCESS: an output address reached an unmapped page (R251). -/
def handleAccess (h : Handle) (s : State) : State :=
  match queueOf s h.cid with
  | none => s
  | some q =>
    let s1 := setReg Reg.LKP_ERR (15 + h.job * 16 + h.walker * 2 ^ 10 + 2 ^ 21 + (s.walker h.walker).pc % 2 ^ 32 * 2 ^ 32) s
    walkLeft q h.cid (stopCommand q h.cid St.LKP_ACCESS 15 0 (raiseInt blkLkp 1 s1))

/-! ## The close (R228 step 6, R229, R236) -/

/-- The elements of a bag's pooled vector before the single rounding; an empty bag yields +0. -/
def bagValues (h : Handle) (b : Nat) : List Num :=
  let n := Tbl.look h.counts b 0
  (List.range h.dim).map fun e =>
    if n = 0 then Num.zero
    else
      let v := (Tbl.look h.acc (b * h.dim + e) XAcc.empty).value
      if descPool h.desc = 2 then Num.div v (Num.ofNat n) else v

/-- The Pooler lanes of a die (R54). -/
def poolLane (die : Nat) : Nat := 0x3000 + die * 2048

/-- One bag's vector rounded and written, with the winners of MAX; whether every write was mapped. -/
def closeBag (h : Handle) (b : Nat) (s : State) : Bool × State :=
  match s.job? h.job with
  | none => (true, s)
  | some j =>
    let die := b % 2
    let s0 := engineAsk (2 + die) s
    let ((cs, st), j1) := narrowRow (dsOfmt h.desc) (dsRmode h.desc) (dsSat h.desc) (poolLane die) 2048 (bagValues h b) j
    let s1 := handleNstat h.cid st { s0 with jobs := Tbl.put s0.jobs h.job j1 }
    let bad := h.poisoned.contains b
    match rangeWriteP h.job (dsDst h.desc + b * dsStride h.desc) (packElems (dsOfmt h.desc) cs) (fun _ => bad) s1 with
    | .unmapped _ s2 => (false, s2)
    | .ok _ s2 =>
      if descPool h.desc = 3 then
        let ws := (List.range h.dim).flatMap fun e =>
          toLe 8 (if Tbl.look h.counts b 0 = 0 then 2 ^ 64 - 1 else Tbl.look h.wins (b * h.dim + e) (2 ^ 64 - 1))
        match rangeWrite h.job (dsAux h.desc + 8 * b * h.dim) ws s2 with
        | .unmapped _ s3 => (false, s3)
        | .ok _ s3 => (true, s3)
      else (true, s2)

/-- The 2-bit outcome of a bag. -/
def bagOutcome (h : Handle) (b : Nat) : Nat :=
  if h.upd && h.poisoned.contains b then 2 else if h.unserved.contains b then 1 else if h.poisoned.contains b then 2 else 0

/-- The outcome record (R236). -/
def outcomeRec (h : Handle) : Bytes :=
  let cnt := fun (c : Nat) => (h.flows.filter fun f => decide (f.2.1 = c)).length
  let nb := dsNbags h.desc
  let wr := (h.poisoned.filter fun b => decide (bagOutcome h b = 2)).length
  let hdr := toLe 4 (cnt 0) ++ toLe 4 (cnt 1) ++ toLe 4 (cnt 2) ++ toLe 1 h.firstRef ++ toLe 1 (satTo 8 h.retries) ++ zeros 2 ++ toLe 8 h.dropped ++ toLe 8 wr
  let bags := (List.range (ceilDiv nb 4)).map fun i =>
    BitVec.ofNat 8 (sumNat ((List.range 4).map fun k => if 4 * i + k < nb then bagOutcome h (4 * i + k) * 4 ^ k else 0))
  padTo 32 (hdr ++ bags) ++ h.flows.flatMap fun f => toLe 8 (f.1 % 65536 + f.2.1 % 4 * 2 ^ 16 + f.2.2.1 % 16 * 2 ^ 18 + f.2.2.2 % 8 * 2 ^ 22)

/-- The outcome summary HWAIT returns (R236). -/
def outcomeSum (h : Handle) : Nat :=
  let worst := h.flows.foldl (fun a f => max a f.2.1) 0
  let not := (h.flows.filter fun f => decide (f.2.1 ≠ 0)).length
  let pois := h.poisoned.any fun b => decide (bagOutcome h b = 2)
  worst % 4 + h.firstRef % 8 * 4 + b2n (decide (h.dropped > 0)) * 32 + b2n pois * 64 + satTo 16 not * 2 ^ 16

/-- A handle whose flows all have their final code ends. -/
def closeHandle (hn : Nat) (s : State) : State :=
  match s.handle? hn with
  | none => s
  | some h =>
    let bags := if h.upd then [] else (List.range (dsNbags h.desc)).filter fun b => !h.unserved.contains b
    let (ok, s1) := bags.foldl (fun (a : Bool × State) b =>
      let (k, s1) := closeBag h b a.2
      (a.1 && k, s1)) (true, s)
    let (ok2, s2) := match rangeWrite h.job (dsOutrec h.desc) (outcomeRec h) s1 with
      | .unmapped _ s2 => (false, s2)
      | .ok _ s2 => (ok, s2)
    let s3 := updHandle hn (fun x => { x with ended := some (outcomeSum h), space := 0, acc := [], wins := [] }) s2
    if !ok2 then handleAccess h s3
    else
      match queueOf s3 h.cid with
      | some q => walkFinish q h.cid s3
      | none => { s3 with lkp := { s3.lkp with handles := Tbl.del s3.lkp.handles hn } }

/-- A handle is closed when none of its flows is open and what its close reaches is there; until then it tries again at every cycle. -/
def tryClose (hn : Nat) (s : State) : State :=
  match s.handle? hn with
  | some h => if h.ended.isNone && h.queue == [] && h.flows.all fun f => decide (f.2.1 ≠ 4) then powered (closeHandle hn) s else s
  | none => s

/-- The handles whose close waits. -/
def closeCycle (s : State) : State := s.lkp.handles.foldl (fun s p => tryClose p.1 s) s

/-! ## The end of a flow (R235, R239, R295) -/

/-- A flow's final code. -/
def finalFlow (e code detail : Nat) (s : State) : State :=
  match s.rflow? e with
  | none => s
  | some r =>
    let s1 := updHandle r.handle (fun h => { h with
      flows := h.flows.set r.pos (r.rank, code, detail, r.attempt + 1),
      firstRef := if code = 2 ∧ h.firstRef = 0 then detail else h.firstRef,
      unserved := if code = 0 then h.unserved else (r.segs.map (·.bag)).foldl (fun l b => if l.contains b then l else b :: l) h.unserved }) s
    tryClose r.handle { s1 with lkp := { s1.lkp with rflows := Tbl.del s1.lkp.rflows e } }

/-- A DEFERRED attempt: the flow waits for its target frame, or ends with it. -/
def deferFlow (e delay rsv tframe : Nat) (s : State) : State :=
  match s.rflow? e with
  | none => s
  | some r =>
    let auto := match s.handle? r.handle with | some h => dsAutoRetry h.desc | none => false
    if auto && decide (r.attempt < 4) then
      updRFlow e (fun r => { r with attempt := r.attempt + 1, rsv := rsv, tframe := some tframe, recv := [], fin := none }) s
    else finalFlow e 1 delay s

/-- An attempt ends once its FLOW_END and all the replies it counts are here. -/
def attemptEnd (e : Nat) (s : State) : State :=
  match s.rflow? e with
  | none => s
  | some r =>
    match r.fin with
    | none => s
    | some (code, detail, oseq, rsv, tframe) =>
      if r.recv.length < oseq then s
      else if code = 1 then deferFlow e detail rsv tframe s
      else finalFlow e code detail s

/-- The open attempt a flow message belongs to (R306). -/
def openAttempt (s : State) (j rank flowid attempt fseq : Nat) : Option RFlow :=
  match s.rflow? flowid with
  | some r => if r.job = j && r.rank = rank && r.attempt = attempt && r.fseq % 2 ^ 32 = fseq && r.tframe.isNone then some r else none
  | none => none

/-- A LOOKUP_REPLY: its partials are added once (R228 step 5, R295). -/
def replyHere (j rank flowid attempt fseq oseq nseg : Nat) (body : Bytes) (s : State) : State :=
  match openAttempt s j rank flowid attempt fseq with
  | none => s
  | some r =>
    if r.recv.contains oseq then count Reg.ZOR_DUP 32 1 s
    else
      let s1 := updRFlow flowid (fun r => { r with recv := oseq :: r.recv, got := if r.got.contains oseq then r.got else oseq :: r.got }) s
      let s2 :=
        if r.got.contains oseq then s1
        else
          match s1.handle? r.handle with
          | none => s1
          | some h =>
            let (h1, st) := (partsOf nseg (descPool h.desc) (vsWfmt h.slot) h.dim body).foldl (fun (a : Handle × Nat) p =>
              let (h1, st) := addPart a.1 p
              (h1, a.2 ||| st)) (h, 0)
            handleNstat h.cid st (engineAsk (2 + clusterOf h.walker / 16) (putHandle r.handle h1 s1))
      attemptEnd flowid s2

/-- A FLOW_END. -/
def flowEndHere (j rank flowid attempt fseq code detail oseq rsv nstat tframe : Nat) (s : State) : State :=
  match openAttempt s j rank flowid attempt fseq with
  | none => s
  | some r =>
    let cid := ((s.handle? r.handle).map (·.cid)).getD 0
    attemptEnd flowid (updRFlow flowid (fun r => { r with fin := some (code % 4, detail, oseq, rsv, tframe) }) (cmdNstat cid nstat s))

/-- The plane of a flow's request is cleared by the owner's answer (R297). -/
def flowAck (m : Msg) (s : State) : State :=
  protoAck m.src.toNat (fun t => (decide (leAt t.hdr 0 2 = 0x50) || decide (leAt t.hdr 0 2 = 0x53)) && decide (t.fseq = m.fseq.toNat) &&
    decide (t.jobid = m.jobid.toNat)) s

def flowIdOf (m : Msg) : Nat := bits m.stream.toNat 11 0
def attemptOf (m : Msg) : Nat := bits m.stream.toNat 14 12

/-- LOOKUP_REPLY (R228, R295). -/
def execLookupReply (m : Msg) (s : State) : Out :=
  receive (.lookupReply m) 0x51 m (fun m => some [m.src.toNat, m.fseq.toNat, attemptOf m, m.oseq.toNat])
    (fun j r m s => replyHere j r (flowIdOf m) (attemptOf m) m.fseq.toNat m.oseq.toNat (leAt m.hdr 4 2) m.body (flowAck m s)) s

/-- FLOW_END (R235). -/
def execFlowEnd (m : Msg) (s : State) : Out :=
  receive (.flowEnd m) 0x52 m (fun m => some [m.src.toNat, m.fseq.toNat, attemptOf m])
    (fun j r m s => flowEndHere j r (flowIdOf m) (attemptOf m) m.fseq.toNat (leAt m.hdr 4 1) (leAt m.hdr 5 1) m.oseq.toNat (leAt m.hdr 6 2)
      (leAt m.hdr 8 1) (leAt m.hdr 9 6) (flowAck m s)) s

/-- NOJOB (R310): the attempt ends REFUSED, NOT_ADMITTED. -/
def execNojob (m : Msg) (s : State) : Out :=
  receive (.nojob m) 0x09 m (fun m => some [m.src.toNat, m.fseq.toNat, attemptOf m])
    (fun j r m s => flowEndHere j r (flowIdOf m) (attemptOf m) m.fseq.toNat 2 2 0 0 0 0 s) s

/-- FLOW_TIMEOUT (R308): no FLOW_END within FLOWTO frames. -/
def execFlowTimeout (entry : Fin 4096) (s : State) : Out :=
  whenP (.flowTimeout entry) (s.live && (match s.rflow? entry with
      | some r => r.tframe.isNone && r.fin.isNone && decide (s.clk.fnum ≥ r.sent + regField s Reg.ZOR_CFG 7 0)
      | none => false))
    (fun s => deferFlow entry 1 0 (s.clk.fnum + 1) (raiseInt blkZor 5 (count Reg.ZOR_LOSTFLOW 32 1 s))) s

end Sys2Proof.Machine
end

