-- ==== Sys2Proof/Machine/Programs.lean ====
section
/-! DEFINITION. Update programs run for the table engine and the dense owner on a tile's vector engine (R130 to R132, R246, R272). -/

namespace Sys2Proof.Machine

/-- A program read from the job's range: header and descriptors; none when it cannot be read. -/
def readProgram (j va : Nat) (s : State) : Option (Bytes × List Bytes) × State :=
  match rangeRead j va 64 s with
  | .unmapped _ s1 => (none, s1)
  | .ok hdr bad s1 =>
    let n := bits (leAt hdr 0 4) 1 0 + 1
    match rangeRead j (va + 64) (256 * n) s1 with
    | .unmapped _ s2 => (none, s2)
    | .ok d bad2 s2 => (if bad = [] ∧ bad2 = [] then some (hdr, (List.range n).map fun i => slice d (256 * i) 256) else none, s2)

/-- A program bound to its areas. -/
structure BoundProg where
  hdr    : Bytes
  descs  : List Bytes
  roles  : List Nat
  extent : Nat
  deriving DecidableEq, Repr

/-- The binding table as R131 lays it out. -/
def BoundProg.table (b : BoundProg) : Bytes := toLe 4 b.extent ++ (b.roles.flatMap fun r => toLe 4 r) ++ zeros 28

/-- The chains of a bound program. -/
def BoundProg.chains (b : BoundProg) : List Chain := progChains (leAt b.hdr 0 4) b.descs b.roles b.extent Seq.init

/-- The check of R125 that a bound program fails. -/
def BoundProg.check (b : BoundProg) (x : Tile) (p : Part) : Option (VErr × Nat) :=
  progCheck b.hdr b.table b.roles b.descs b.chains x p false

/-- The draws a bound program needs: those of its most demanding chain (R127, R128). -/
def BoundProg.need (b : BoundProg) (s : State) : Nat := b.chains.foldl (fun a c => max a (chainNeed c s.evening)) 0

/-- Whether P's output is a delta (R132). -/
def BoundProg.addp (b : BoundProg) : Bool := bitOf (leAt b.hdr 0 4) 14

/-- A failed check or access recorded in the tile's VEC registers; SEQ 3 stands for an engine beside the sequencers (DESIGN CHOICE). -/
def progError (t j : Nat) (e : VErr) (id : Nat) (s : State) : State :=
  let v := e.1 + 3 * 16 + j * 64 + 2 ^ 12 + e.2.1 % 8 * 2 ^ 13 + e.2.2 % 65536 * 2 ^ 16 + id * 2 ^ 32
  raiseInt (blkVec t) (if e.1 = 15 then 1 else 0) (setReg (Reg.VEC_ERR t) v s)

/-- Chains one after another, to the end or to the vector at which one stops: vectors before it keep their stores (R126). -/
def runChains (t j : Nat) (p : Part) (cs : List Chain) (w : VSt) (s : State) : Bool × VSt × State :=
  match cs with
  | [] => (true, w, s)
  | c :: r =>
    let (res, v) := runVectors t w.x p c 0 c.count w
    let s1 := count (Reg.VEC_VECTORS t) 64 v s
    match res with
    | .ok w1 => runChains t j p r w1 (count (Reg.VEC_CHAINS t) 64 1 s1)
    | .access k _ w1 => (false, w1, progError t j (15, k, v) c.id s1)
    | .poison w1 => (false, w1, raiseInt (blkTile t) 2 s1)

/-- A bound program run whole: whether it ran, its numeric status, and the state.  XACCs that sequencers' or deferred blocks' work touches meanwhile
are undefined (R122). -/
def runProgram (t j : Nat) (b : BoundProg) (s : State) : Bool × Nat × State :=
  match s.job? j, s.tile? t with
  | some job, some x =>
    let p := partOf s j t
    match b.check x p with
    | some (e, id) => (false, 0, progError t j e id s)
    | none =>
      let own := fun (_ : Stream) => false
      let spans := b.chains.flatMap fun c => c.afSpansIn 0 c.count
      let ks := chainForeign x own spans
      let s0 := chainMark t own spans (undefine t ks s)
      let (ok, w, s1) := runChains t j p b.chains { x := s0.tile t, j := job, ns := 0, fc := s0.freeCtr } s0
      (ok, w.ns, orReg (Reg.VEC_NSTAT t) w.ns
        (undefine t ks { s1 with tiles := Tbl.put s1.tiles t w.x, jobs := Tbl.put s1.jobs j w.j, freeCtr := w.fc }))
  | _, _ => (false, 0, s)

/-- An area of a staging region written. -/
def stageWrite (t a : Nat) (bs : Bytes) (s : State) : State := updTile t (fun x => x.write a bs false) s

/-- Master deltas applied with the FP32 memory-side adders (R132): element by element, sector by sector. -/
def addDeltas (j va : Nat) (deltas : Bytes) (s : State) : Nat × State :=
  (pieces va deltas.length).foldl (fun (a : Nat × State) p =>
    let off := p.1 % 32
    let mask := sumNat ((List.range 8).map fun i => if off ≤ 4 * i ∧ 4 * i + 4 ≤ off + p.2 then 2 ^ i else 0)
    let (_, ns, s1) := rangeAdd j (p.1 - off) 0 mask (pieceImage off (slice deltas (p.1 - va) p.2)) a.2
    (a.1 ||| ns, s1)) (0, s)

/-- A working row derived from masters by one narrowing (R59, R198), on lanes of a class. -/
def deriveRow (wfmt rmode : Nat) (sat : Bool) (lane : Nat) (master : List Num) (job : Job) : Bytes × Nat × Job :=
  if wfmt = 5 then
    let sc := scaleOf (maxMag master)
    let r := (List.range master.length).foldl (fun (a : List Nat × Nat × Job) e =>
      let (u, j1) := if rmode = 2 then a.2.2.drawLane (lane + e % 2048) else (0, a.2.2)
      let (c, st) := quant rmode u sc (master.getD e .nan)
      (c :: a.1, a.2.1 ||| st, j1)) ([], 0, job)
    (packElems 5 r.1.reverse ++ toLe 4 sc, r.2.1, r.2.2)
  else
    let ((cs, st), j1) := narrowRow wfmt rmode sat lane 2048 master job
    (packElems wfmt cs, st, j1)

end Sys2Proof.Machine
end

