-- ==== Sys2Proof/Machine/Owner.lean ====
section
/-! DEFINITION. The owner's side of flows: admission, service of lookups, the merge of updates, and the retirement of versions (R230 to
R240, R242 to R245, R309). -/

namespace Sys2Proof.Machine

/-! ## Answers -/

/-- FLOW_END's header (R234). -/
def flowEndHdr (flowid code detail rsv nstat tframe : Nat) : Bytes :=
  header (toLe 2 0x52 ++ toLe 2 flowid ++ toLe 1 code ++ toLe 1 detail ++ toLe 2 rsv ++ toLe 1 nstat ++ toLe 6 tframe)

/-- A FLOW_END sent to the requester of a flow, which may be this device. -/
def answerEnd (j rrank flowid attempt fseq code detail oseq rsv nstat tframe : Nat) (s : State) : State :=
  match s.job? j with
  | none => s
  | some job =>
    if rrank = job.rank then flowEndHere j rrank flowid attempt fseq code detail oseq rsv nstat tframe s
    else sendRank j rrank 2 (flowEndHdr flowid code detail rsv nstat tframe) [] { oseq := oseq, stream := flowid + attempt * 4096, fseq := fseq } s

/-- A saturating 16-bit field of LKP_REFUSED raised. -/
def countRefused (reason : Nat) (s : State) : State :=
  let lo := 16 * (reason - 1)
  let s1 := setRegField Reg.LKP_REFUSED (lo + 15) lo (satTo 16 (regField s Reg.LKP_REFUSED (lo + 15) lo + 1)) s
  if reason = 1 then raiseInt blkLkp 2 s1
  else if reason = 4 then raiseInt blkLkp 3 s1
  else if reason = 3 then count Reg.EMB_RETIRED 32 1 s1
  else s1

/-- What a request says (R234, R242). -/
structure FReq where
  upd     : Bool
  rrank   : Nat
  flowid  : Nat
  attempt : Nat
  fseq    : Nat
  tid     : Nat
  vnum    : Nat
  fprint  : Nat
  rsv     : Nat
  mode    : Nat
  step    : Nat
  nocc    : Nat
  nseg    : Nat
  body    : Bytes

def FReq.pool (r : FReq) : Nat := bits r.mode 1 0

/-- A request's header. -/
def reqHdr (typ tid vnum fprint rrank flowid rsv mode attempt step nocc nseg : Nat) : Bytes :=
  header (toLe 2 typ ++ toLe 2 tid ++ toLe 2 vnum ++ toLe 4 fprint ++ toLe 2 rrank ++ toLe 2 flowid ++ toLe 2 rsv ++ toLe 1 mode ++ toLe 1 attempt ++
    toLe 4 step ++ toLe 4 nocc ++ toLe 4 nseg)

def reqOf (upd : Bool) (hdr body : Bytes) (fseq : Nat) : FReq :=
  { upd := upd, rrank := leAt hdr 10 2, flowid := leAt hdr 12 2, attempt := leAt hdr 17 1, fseq := fseq, tid := leAt hdr 2 2 % 4096,
    vnum := leAt hdr 4 2, fprint := leAt hdr 6 4, rsv := leAt hdr 14 2, mode := leAt hdr 16 1, step := leAt hdr 18 4, nocc := leAt hdr 22 4,
    nseg := leAt hdr 26 4, body := body }

/-- Segments read from a body: `hd` bytes of head each, then the indices and, for WSUM, the weights of all of them. -/
def segsOf (r : FReq) (d : Nat) : List Seg :=
  let hd := if r.upd then 16 + 4 * d + (if r.pool = 3 then 8 * d else 0) else 8
  let idx0 := hd * r.nseg
  let w0 := idx0 + 8 * r.nocc
  ((List.range r.nseg).foldl (fun (a : List Seg × Nat) i =>
    let o := hd * i
    let k := leAt r.body (o + 4) 4
    let sg : Seg :=
      { bag := leAt r.body o 4, idx := (List.range k).map fun x => leAt r.body (idx0 + 8 * (a.2 + x)) 8,
        wgt := if r.pool = 1 then (List.range k).map fun x => leAt r.body (w0 + 4 * (a.2 + x)) 4 else [],
        n := if r.upd then leAt r.body (o + 8) 8 else 0,
        grad := if r.upd then (List.range d).map fun e => leAt r.body (o + 16 + 4 * e) 4 else [],
        wins := if r.upd ∧ r.pool = 3 then (List.range d).map fun e => leAt r.body (o + 16 + 4 * d + 8 * e) 8 else [] }
    (sg :: a.1, a.2 + k)) ([], 0)).1.reverse

/-! ## Admission (R235, R237, R238) -/

/-- Whether a job's flows are admitted here: it is resident and not stopped, no Dusk has begun (R370), the clock is not LOST. -/
def flowsAdmitted (s : State) (j : Nat) : Bool :=
  (match s.job? j with | some x => x.stopped.isNone && x.ending.isNone | none => false) && !s.lost &&
    !(match s.power.dusk with | some d => d.first.isSome | none => false)

def jobEntries (s : State) (j : Nat) : Nat := (s.lkp.oflows.filter fun p => decide (p.2.job = j)).length
def freeOwner (s : State) : Option Nat := (List.range 4096).find? fun e => (Tbl.look? s.lkp.oflows e).isNone

/-- B of R237. -/
def lookupBudget (s : State) : Nat :=
  let b := regField s Reg.LKP_BUDGET 15 0 * s.W / 1000
  if s.evening then b / 2 else b

/-- The cap of a class. -/
def classCap (s : State) (c : Nat) : Nat := regField s Reg.LKP_CLASSCAP (5 * c + 4) (5 * c) * lookupBudget s / 16

/-- The cost held in the book for a frame, and its reservations. -/
def bookCost (s : State) (f : Nat) : Nat := sumNat ((s.lkp.book.filter fun r => decide (r.frame = f)).map (·.cost))
def bookCount (s : State) (f : Nat) : Nat := (s.lkp.book.filter fun r => decide (r.frame = f)).length

/-- A fresh nonzero token. -/
def freshToken (s : State) : Nat :=
  (((List.range 65535).map fun i => (s.lkp.nextToken + i) % 65535 + 1).find? fun t => !(s.lkp.book.any fun r => decide (r.token = t))).getD 1

/-- Home dies of a request's rows (R230). -/
def diesOf (fx : Bytes) (segs : List Seg) : List Nat :=
  let rows := segs.flatMap fun g => g.idx ++ g.wins
  (List.range 2).filter fun d => rows.any fun r => decide (r < fxRows fx) && decide ((place fx r).2 % 2 = d)

def answerReq (j : Nat) (r : FReq) (code detail rsv tframe : Nat) (s : State) : State :=
  answerEnd j r.rrank r.flowid r.attempt r.fseq code detail 0 rsv 0 tframe s

/-- A flow refused with a reason (R235). -/
def refuse (j : Nat) (r : FReq) (reason : Nat) (s : State) : State := answerReq j r 2 reason 0 0 (countRefused reason s)

/-- A flow deferred (R238). -/
def deferReq (j : Nat) (r : FReq) (cost cap : Nat) (s : State) : State :=
  let f := s.clk.fnum
  let s1 := count Reg.LKP_DEFERRED 32 1 s
  match ((List.range 15).map (· + 1)).find? fun d => decide (bookCost s (f + d) + cost ≤ cap) with
  | some d =>
    if bookCount s (f + d) ≥ 1024 then answerReq j r 1 15 0 (f + 15) s1
    else
      let t := freshToken s
      answerReq j r 1 d t (f + d)
        { s1 with lkp := { s1.lkp with book := s1.lkp.book ++ [{ frame := f + d, token := t, cost := cost, job := j }], nextToken := t } }
  | none => answerReq j r 1 15 0 (f + 15) s1

/-- A flow admitted into an owner entry, where it waits for the engines' draws (R250). -/
def admitFlow (j e : Nat) (r : FReq) (fx : Bytes) (segs : List Seg) (cost : Nat) (s : State) : State :=
  let t := s.table? j r.tid
  let ready := match t with | some t => (match t.last with | some l => decide (l + 1 ≥ r.step) | none => true) | none => true
  let f : OFlow :=
    { job := j, upd := r.upd, rrank := r.rrank, flowid := r.flowid, tid := r.tid, vnum := r.vnum, pool := r.pool, rfmt := bits r.mode 2 2,
      waitUpd := bitOf r.mode 3 && !r.upd && !ready, cls := bits r.mode 5 4, step := r.step, attempt := r.attempt, fseq := r.fseq, segs := segs,
      cost := cost, seq := s.lkp.nextSeq }
  let s1 := { s with lkp := { s.lkp with oflows := Tbl.put s.lkp.oflows e f, nextSeq := s.lkp.nextSeq + 1 } }
  let ds := diesOf fx segs
  engineCallAll (ds ++ ds.map fun d => d + (if r.upd then 4 else 2)) s1

/-- A mismatch of version, fingerprint or ownership (R196, R235), at the first home die of the request's rows; of a table this device does not
hold, at die 0 (DEDUCED, log 138). -/
def tableMismatch (j : Nat) (r : FReq) (fprint : Bool) (s : State) : State :=
  let die := match s.table? j r.tid with
    | some t => (diesOf t.fixed (segsOf r (fxDim t.fixed))).headD 0
    | none => 0
  let s1 := fault { code := 0x0030, job := some j, inst := die, arg0 := r.tid + r.vnum * 65536, arg1 := r.rrank } s
  refuse j r 3 (if fprint then raiseInt blkEmb 2 s1 else s1)

/-- admit_flow of R237. -/
def requestHere (j : Nat) (r : FReq) (s : State) : State :=
  if !flowsAdmitted s j then refuse j r 2 s
  else
    match s.job? j, s.table? j r.tid with
    | some job, some t =>
      match t.version? r.vnum with
      | none => tableMismatch j r false s
      | some v =>
        let fx := t.fixed
        let segs := segsOf r (fxDim fx)
        let owned := fun (i : Nat) => decide (i < fxRows fx) && decide (ownerRank fx i = job.rank)
        if r.fprint ≠ fingerprint fx v then tableMismatch j r true s
        else if segs.any fun g => g.idx.any fun i => !owned i then tableMismatch j r false s
        else
          match freeOwner s with
          | none => refuse j r 1 s
          | some e =>
            if jobEntries s j ≥ job.quota then refuse j r 4 s
            else if r.upd then
              if s.lkp.seen.length ≥ 65536 then refuse j r 4 s
              else
                let u : UpdSeen := { job := j, tid := r.tid, step := r.step, src := r.rrank, fseq := r.fseq, code := none, again := [] }
                admitFlow j e r fx segs 0 { s with lkp := { s.lkp with seen := s.lkp.seen ++ [u] } }
            else
              let cost := r.nocc * ceilDiv (workBytes (vsWfmt v) (fxDim fx)) 32
              let cap := classCap s (bits r.mode 5 4)
              let valid := s.lkp.book.find? fun b => decide (r.rsv ≠ 0) && decide (b.token = r.rsv) && decide (b.frame = s.clk.fnum) && decide (b.job = j)
              if cost > cap then refuse j r 4 s
              else
                match valid with
                | some b =>
                  admitFlow j e r fx segs cost { s with lkp := { s.lkp with
                    book := s.lkp.book.erase b, reserved := s.lkp.reserved - b.cost, charged := s.lkp.charged + cost } }
                | none =>
                  if s.lkp.charged + s.lkp.reserved + cost ≤ cap then
                    admitFlow j e r fx segs cost { s with lkp := { s.lkp with charged := s.lkp.charged + cost } }
                  else deferReq j r cost cap s
    | _, _ => tableMismatch j r false s

/-- LOOKUP_REQ (R237). -/
def execLookupReq (m : Msg) (s : State) : Out :=
  receive (.lookupReq m) 0x50 m (fun m => some [m.src.toNat, m.fseq.toNat, attemptOf m])
    (fun j _ m s => requestHere j (reqOf false m.hdr m.body m.fseq.toNat) s) s

/-! ## Service (R231, R233) -/

/-- The occurrences of a segment gathered at their home dies, each counted by the hot-row monitor (R207). -/
def gatherSeg (j : Nat) (tid : Nat) (fx v : Bytes) (g : Seg) (s : State) : List Occ × State :=
  let n := workBytes (vsWfmt v) (fxDim fx)
  let r := (List.range g.idx.length).foldl (fun (a : List Occ × State) k =>
    let row := g.idx.getD k 0
    let i := (place fx row).2
    let (raw, p, s1) := gather (i % 2) j tid (workAddr fx v i) n (if fxHot fx then monitorHit j tid row a.2 else a.2)
    ({ row := row, raw := raw, poison := p, wgt := g.wgt.getD k 0 } :: a.1, s1)) ([], s)
  (r.1.reverse, r.2)

/-- Partials packed into replies: as many as a message holds (DESIGN CHOICE: how they are spread is not given). -/
def packReplies (ps : List Part1) : List (List Part1) :=
  let r := ps.foldl (fun (a : List (List Part1) × List Part1 × Nat) p =>
    let n := p.bytes.length
    if a.2.1 ≠ [] ∧ a.2.2 + n > 2097152 then (a.1 ++ [a.2.1], [p], n) else (a.1, a.2.1 ++ [p], a.2.2 + n)) ([], [], 0)
  r.1 ++ [r.2.1]

/-- A LOOKUP_REPLY sent to the requester of a flow. -/
def sendReply (f : OFlow) (k : Nat) (ps : List Part1) (s : State) : State :=
  match s.job? f.job with
  | none => s
  | some job =>
    let body := ps.flatMap Part1.bytes
    if f.rrank = job.rank then replyHere f.job f.rrank f.flowid f.attempt f.fseq k ps.length body s
    else sendRank f.job f.rrank 2 (header (toLe 2 0x51 ++ toLe 2 f.flowid ++ toLe 2 ps.length)) body
      { oseq := k, stream := f.flowid + f.attempt * 4096, fseq := f.fseq } s

def dropOwner (e : Nat) (s : State) : State := { s with lkp := { s.lkp with oflows := Tbl.del s.lkp.oflows e } }

/-- An owner flow answered with its final code. -/
def endOwner (e code detail oseq nstat : Nat) (s : State) : State :=
  match Tbl.look? s.lkp.oflows e with
  | none => s
  | some f => answerEnd f.job f.rrank f.flowid f.attempt f.fseq code detail oseq 0 nstat 0 (dropOwner e s)

/-- The units that serve a flow. -/
def flowUnits (s : State) (f : OFlow) : List Nat :=
  match s.table? f.job f.tid with
  | some t => let ds := diesOf t.fixed f.segs; ds ++ ds.map fun d => d + (if f.upd then 4 else 2)
  | none => []

/-- Whether an admitted flow comes before another in an owner's order of service: its class, then its admission (R233). -/
def OFlow.before (a b : OFlow) : Bool := decide (a.cls < b.cls) || (decide (a.cls = b.cls) && decide (a.seq < b.seq))

/-- Whether a flow is the next of its kind to be served: no lookup whose gathers are not held, or no update, comes before it. -/
def nextServed (s : State) (f : OFlow) : Bool :=
  s.lkp.oflows.all fun p => !(decide (p.2.upd = f.upd) && !p.2.waitUpd && p.2.before f)

/-- FLOW_POOLED (R231): the flow's rows are gathered and pooled and its replies and FLOW_END go out. -/
def execFlowPooled (entry : Fin 4096) (s : State) : Out :=
  match Tbl.look? s.lkp.oflows entry with
  | none => .next s
  | some f =>
    whenP (.flowPooled entry) (s.clocked && !f.upd && !f.waitUpd && engineHeld s (flowUnits s f) && nextServed s f) (fun s =>
      match s.table? f.job f.tid with
      | none => s
      | some t =>
        match t.version? f.vnum with
        | none => s
        | some v =>
          let (ps, st, s1) := f.segs.foldl (fun (a : List Part1 × Nat × State) g =>
            let (os, s1) := gatherSeg f.job f.tid t.fixed v g a.2.2
            let (p, st) := poolSeg f.pool f.rfmt (vsWfmt v) (fxDim t.fixed) g.bag os
            (p :: a.1, a.2.1 ||| st, s1)) ([], 0, engineAskAll (flowUnits s f) s)
          let reps := packReplies ps.reverse
          let s2 := (List.range reps.length).foldl (fun s k => sendReply f k (reps.getD k []) s) (lkpNstat st s1)
          endOwner entry 0 0 reps.length st (count Reg.LKP_SERVED 64 1 s2)) s

/-- GATHER_RELEASE (R233). -/
def execGatherRelease (entry : Fin 4096) (s : State) : Out :=
  match Tbl.look? s.lkp.oflows entry with
  | none => .next s
  | some f =>
    let done := match s.table? f.job f.tid with
      | some t => (match t.last with | some l => decide (l + 1 ≥ f.step) | none => true)
      | none => true
    when (s.clocked && f.waitUpd && done)
      (fun s => { s with lkp := { s.lkp with oflows := Tbl.put s.lkp.oflows entry { f with waitUpd := false } } }) s

/-! ## Updates: terms and the merge (R242 to R244, R309) -/

/-- UPD_REQ (R242, R309): a flow already admitted is answered with its final code, once known, and merges nothing. -/
def updReqHere (j : Nat) (r : FReq) (s : State) : State :=
  match s.lkp.seen.find? fun u => decide (u.job = j) && decide (u.src = r.rrank) && decide (u.fseq = r.fseq) with
  | some u =>
    let s1 := count Reg.ZOR_DUP 32 1 s
    match u.code with
    | some (c, d, ns) => answerEnd j r.rrank r.flowid r.attempt r.fseq c d 0 0 ns 0 s1
    | none =>
      let note := fun (x : UpdSeen) => if x = u then { x with again := x.again ++ [r.flowid + r.attempt * 4096] } else x
      { s1 with lkp := { s1.lkp with seen := s1.lkp.seen.map note } }
  | none =>
    -- a repeat of a flow whose step has been updated since is dropped by its identity
    let src := ((s.job? j).map fun x => x.addrOf r.rrank).getD 0
    if s.zor.seen.any fun i => decide (i.job = j) && decide (i.typ = 0x53) && decide (i.fields = [src, r.fseq]) then count Reg.ZOR_DUP 32 1 s
    else
      let s1 := requestHere j r s
      if s1.lkp.seen.any fun u => decide (u.job = j) && decide (u.src = r.rrank) && decide (u.fseq = r.fseq) then
        (takeIdent j 0x53 [src, r.fseq] s1).getD s1
      else s1

/-- UPD_REQ. -/
def execUpdReq (m : Msg) (s : State) : Out :=
  receive (.updReq m) 0x53 m (fun _ => none) (fun j _ m s => updReqHere j (reqOf true m.hdr m.body m.fseq.toNat) s) s

/-- A row term: row, and per element a FP32 code or nothing. -/
structure Term where
  row  : Nat
  vals : List (Option Nat)
  deriving DecidableEq, Repr

/-- n as a value a mean divides by. -/
def meanTerm (g n : Nat) : Nat × Nat :=
  let x := f32 g
  if x.isNan then (0x7FC00000, NS.NANIN) else toF32 (Num.div x (Num.ofNat n))

/-- The terms of a segment (R243), with the numeric status. -/
def segTerms (pool d : Nat) (own : Nat → Bool) (g : Seg) : List Term × Nat :=
  match pool with
  | 3 =>
    let rows := g.wins.foldl (fun l r => if own r && !l.contains r then l ++ [r] else l) []
    let nan := (List.range d).any fun e => own (g.wins.getD e 0) && (f32 (g.grad.getD e 0)).isNan
    (rows.map fun r => { row := r, vals := (List.range d).map fun e => if g.wins.getD e 0 = r then some (g.grad.getD e 0) else none },
      if nan then NS.NANIN else 0)
  | _ =>
    let r := (List.range g.idx.length).foldl (fun (a : List Term × Nat) k =>
      let vs := (List.range d).map fun e =>
        let x := g.grad.getD e 0
        if pool = 1 then f32Mul (g.wgt.getD k 0) x else if pool = 2 then meanTerm x g.n else (x, if (f32 x).isNan then NS.NANIN else 0)
      ({ row := g.idx.getD k 0, vals := vs.map fun v => some v.1 } :: a.1, vs.foldl (fun n v => n ||| v.2) a.2)) ([], 0)
    (r.1.reverse, r.2)

/-- One element's term added exactly, in units of 2^-149; specials as in R63. -/
def mergeElem (acc : Int × Nat) (v : Option Nat) : (Int × Nat) × Nat :=
  match v with
  | none => (acc, 0)
  | some c =>
    let x := f32 c
    let (sp, st) := accClass acc.2 x
    ((acc.1 + fixedAt (-149) x, sp), st)

/-- A term added to an entry. -/
def mergeTerm (m : MergeEnt) (t : Term) : MergeEnt × Nat :=
  let r := (List.range t.vals.length).map fun e => mergeElem (m.acc.getD e 0, m.spec.getD e 0) (t.vals.getD e none)
  ({ m with count := m.count + 1, acc := r.map (·.1.1), spec := r.map (·.1.2) }, r.foldl (fun a p => a ||| p.2) 0)

/-- The lowest free slot of a job's merge store (DESIGN CHOICE, log 62: R244 does not say which is taken). -/
def freeMerge (j : Nat) (l : List MergeEnt) : Nat :=
  ((List.range (l.length + 1)).find? fun k => !(l.any fun m => decide (m.job = j) && decide (m.slot = k))).getD 0

/-- The merge store's entries with a flow's terms added. -/
def mergeAll (j tid vnum step d : Nat) (l : List MergeEnt) (ts : List Term) : List MergeEnt × Nat :=
  ts.foldl (fun (a : List MergeEnt × Nat) t =>
    let same := fun (m : MergeEnt) => decide (m.job = j) && decide (m.tid = tid) && decide (m.vnum = vnum) && decide (m.step = step) && decide (m.row = t.row)
    match a.1.find? same with
    | some m => let (m1, st) := mergeTerm m t; (a.1.map fun x => if same x then m1 else x, a.2 ||| st)
    | none =>
      let (m1, st) := mergeTerm { job := j, tid := tid, vnum := vnum, step := step, row := t.row, slot := freeMerge j a.1, count := 0, acc := List.replicate d 0, spec := List.replicate d 0 } t
      (a.1 ++ [m1], a.2 ||| st)) (l, 0)

/-- The bytes of an entry in the merge store (R244): the header, and 40 B of two's complement per element. -/
def MergeEnt.bytes (m : MergeEnt) : Bytes :=
  toLe 32 (Config.mergeHead (m.tid :: m.vnum :: m.step :: m.row :: m.count :: m.spec)).toNat ++
    m.acc.flatMap fun v => toLe 40 (wrapInt 320 v)

/-- The slots that a flow's terms have changed are written at MERGE_BASE. -/
def storeMerge (job : Job) (j : Nat) (old new : List MergeEnt) (s : State) : State :=
  (new.filter fun m => decide (m.job = j) && !old.contains m).foldl
    (fun s m => (rangeWrite j (job.mergeBase + m.slot * job.mergeSlot) m.bytes s).state) s

/-- An update flow's final code: its record, its answer, and the answers to repeats that wait for it (R309). -/
def endUpdate (e code detail nstat : Nat) (s : State) : State :=
  match Tbl.look? s.lkp.oflows e with
  | none => s
  | some f =>
    let mine := fun (u : UpdSeen) => decide (u.job = f.job) && decide (u.src = f.rrank) && decide (u.fseq = f.fseq)
    let again := ((s.lkp.seen.find? mine).map (·.again)).getD []
    let note := fun (u : UpdSeen) => if mine u then { u with code := some (code, detail, nstat), again := [] } else u
    let s1 := endOwner e code detail 0 nstat { s with lkp := { s.lkp with seen := s.lkp.seen.map note } }
    again.foldl (fun s st => answerEnd f.job f.rrank (st % 4096) (st / 4096) f.fseq code detail 0 0 nstat 0 s) s1

/-- MERGE_DONE (R244): all of the flow's terms are merged, or none of them when the store cannot take them. -/
def execMergeDone (entry : Fin 4096) (s : State) : Out :=
  match Tbl.look? s.lkp.oflows entry with
  | none => .next s
  | some f =>
    whenP (.mergeDone entry) (s.clocked && f.upd && engineHeld s (flowUnits s f) && nextServed s f) (fun s =>
      match s.job? f.job, s.table? f.job f.tid with
      | some job, some t =>
        let d := fxDim t.fixed
        let own := fun (r : Nat) => decide (r < fxRows t.fixed) && decide (ownerRank t.fixed r = job.rank)
        let (ts, st0) := f.segs.foldl (fun (a : List Term × Nat) g => let (l, st) := segTerms f.pool d own g; (a.1 ++ l, a.2 ||| st)) ([], 0)
        let (l, st1) := mergeAll f.job f.tid f.vnum f.step d s.lkp.merge ts
        let used := (l.filter fun m => decide (m.job = f.job)).length
        if (ts ≠ [] ∧ job.mergeSlot < 32 + 40 * d) ∨ used > job.mergeEntries ∨ l.any (fun m => decide (m.count > 2 ^ 32 - 1)) then
          endUpdate entry 2 4 0 (countRefused 4 s)
        else
          let st := st0 ||| st1
          endUpdate entry 0 0 st (count Reg.LKP_SERVED 64 1 (count Reg.LKP_MERGED 64 ts.length
            (lkpNstat st (storeMerge job f.job s.lkp.merge l (engineAskAll (flowUnits s f) { s with lkp := { s.lkp with merge := l } })))))
      | _, _ => s) s

/-! ## Versions and tables at the tick (R201, R204, R205) -/

/-- Every flow of a table that a predicate picks cancelled as VERSION_RETIRED; its unmerged and merged gradients are discarded. -/
def cancelFlows (j tid : Nat) (p : Nat → Bool) (s : State) : State :=
  let s1 := s.lkp.oflows.foldl (fun s x =>
    if x.2.job = j && x.2.tid = tid && p x.2.vnum then
      let s1 := raiseInt blkEmb 1 (countRefused 3 s)
      if x.2.upd then endUpdate x.1 2 3 0 s1 else endOwner x.1 2 3 0 0 s1
    else s) s
  { s1 with lkp := { s1.lkp with merge := s1.lkp.merge.filter fun m => !(decide (m.job = j) && decide (m.tid = tid) && p m.vnum) } }

/-- Step 3 of R36 for one table: retirement, then Midnight. -/
def versionStep (f key : Nat) (s : State) : State :=
  let j := key / 4096
  let tid := key % 4096
  match s.table? j tid with
  | none => s
  | some t =>
    if t.othSt = 3 ∧ t.othFrame ≤ f then
      updTable j tid (fun t => { t with oth := zeros 64, othSt := 0, othFrame := 0 }) (cancelFlows j tid (fun v => decide (v = vsVnum t.oth)) s)
    else if t.othSt = 2 ∧ t.othFrame ≤ f then
      markTable j tid (updTable j tid (fun t => { t with cur := t.oth, oth := t.cur, othSt := 3, othFrame := f + 2 }) s)
    else s

/-- Rows of a table that live on this device (R199). -/
def localRows (s : State) (j : Nat) (fx : Bytes) : Nat :=
  match s.job? j with
  | some job =>
    if isOwner fx job.rank then fxRows fx / fxOwners fx + b2n (decide (job.rank - fxFirst fx < fxRows fx % fxOwners fx)) else 0
  | none => 0

/-- A table removed at the tick after its TBL_DESTROY (R205). -/
def destroyStep (key : Nat) (s : State) : State :=
  let j := key / 4096
  let tid := key % 4096
  match s.table? j tid with
  | none => s
  | some t =>
    match t.destroy with
    | none => s
    | some (q, cid) =>
      let s1 := cancelFlows j tid (fun _ => true) s
      let s2 := cacheDrop (fun l => decide (l.key / 2 ^ 43 = j) && decide (l.tid = tid)) s1
      let s3 := { s2 with emb := { s2.emb with
        tables := Tbl.del s2.emb.tables key,
        hot := s2.emb.hot.filter fun p => !(decide (p.1 / 65536 = j) && decide (p.2.tid = tid)),
        slots := forgetSlots (fun k t _ => decide (k / 65536 = j) && decide (t = tid)) s2.emb.slots,
        monitor := s2.emb.monitor.filter fun c => !(decide (c.job = j) && decide (c.tid = tid)) } }
      let s4 := { s3 with lkp := { s3.lkp with seen := s3.lkp.seen.filter fun u => !(decide (u.job = j) && decide (u.tid = tid)) } }
      t.pub.foldl (fun s p => endCid p.queue p.cid St.EMB_BADREQ 0 0 s) (endCid q cid St.OK 0 0 s4)

/-- Step 3 of R36: Midnight, retirement, the removal of destroyed tables, and the end of publishes (R202). -/
def midnight (f : Nat) (s : State) : State :=
  let s1 := s.emb.tables.foldl (fun s p => versionStep f p.1 s) s
  let s2 := s1.emb.tables.foldl (fun s p => destroyStep p.1 s) s1
  finishPublishes f s2

/-- The book and the charge restart at the tick (R237, R238). -/
def lookupFrame (f : Nat) (s : State) : State :=
  let bk := s.lkp.book.filter fun r => decide (r.frame ≥ f)
  let s1 := { s with lkp := { s.lkp with lastUse := s.lkp.charged, charged := 0, book := bk,
                                         reserved := sumNat ((bk.filter fun r => decide (r.frame = f)).map (·.cost)) } }
  setReg Reg.LKP_FRAMEUSE s.lkp.charged s1

end Sys2Proof.Machine
end

