-- ==== Sys2Proof/Machine/Senders.lean ====
section
/-! DEFINITION. The requester's walkers start lookups and updates: LKSEND, UPSEND, HWAIT, the sending and resending of flows, and the
close of a step (R226, R228, R236, R239, R241, R245, R246). -/

namespace Sys2Proof.Machine

/-! ## The check of a descriptor (R226, R241, R251) -/

/-- The subcode of the first check of R251 a descriptor fails; 0 when it fails none.  The causes are taken in the order of their
subcodes (DEDUCED). -/
def descError (s : State) (j : Nat) (upd : Bool) (d : Bytes) : Nat :=
  let pool := descPool d
  let nb := dsNbags d
  match s.table? j (dsTid d) with
  | none => 4
  | some t =>
    if dsOfmt d > 4 ∨ dsRmode d = 3 ∨ nb = 0 ∨ nb > 16777216 ∨ (pool = 1 ∧ dsWgt d = 0) ∨ (pool = 3 ∧ dsAux d = 0) ∨
        nb * fxDim t.fixed * 16 > 2 ^ 24 then 4
    else if bitOf (leAt d 0 4) 19 ∨ bits (leAt d 0 4) 31 27 ≠ 0 ∨ leAt d 51 13 ≠ 0 ∨ (pool ≠ 1 ∧ dsWgt d ≠ 0) ∨ (pool ≠ 3 ∧ dsAux d ≠ 0) ∨
        (upd ∧ (dsRfmt d ≠ 0 ∨ dsWaitUpd d ∨ dsOfmt d ≠ 0 ∨ dsRmode d ≠ 0 ∨ dsSat d)) then 5
    else if upd ∧ s.lkp.closed.contains (j, dsTid d, dsStep d) then 6
    else 0

/-! ## Bucketing (R228 steps 2 and 3, R241) -/

/-- A flow being filled: owner rank, occurrences, body bytes, the piece its last segment belongs to, and its segments, latest first. -/
structure OpenFlow where
  rank : Nat
  occ  : Nat
  size : Nat
  key  : Nat × Nat
  segs : List Seg
  deriving DecidableEq, Repr

/-- The walk over a descriptor's bags: flows being filled in the order they were opened, flows complete in sending order, counts
per bag, occurrences served by replicas (bag, row, weight, slot, copy), what was dropped, bags with a poisoned gradient, and whether
an address was unmapped. -/
structure Bucket where
  st      : State
  opens   : List OpenFlow
  full    : List (Nat × List Seg)
  counts  : Tbl Nat
  locals  : List (Nat × Nat × Nat × Nat × Nat)
  dropped : Nat
  bad     : List Nat
  /-- The address of an access that reached an unmapped page. -/
  lost    : Option Nat
  deriving DecidableEq, Repr

/-- The largest body of a message (R292). -/
def maxBody : Nat := 2097152

/-- The segments of a flow in order. -/
def OpenFlow.done (f : OpenFlow) : Nat × List Seg := (f.rank, f.segs.reverse)

/-- One occurrence put into the flow to its owner; `head` is the bytes a new segment takes and `each` those of an occurrence.  A flow
that reaches 16,384 occurrences, or whose message could not grow (DESIGN CHOICE), is complete and a new one begins. -/
def Bucket.put (b : Bucket) (rank : Nat) (key : Nat × Nat) (seg : Seg) (head each : Nat) (row : Option (Nat × Nat)) : Bucket :=
  let add := fun (g : Seg) => match row with
    | some (r, w) => { g with idx := g.idx ++ [r], wgt := if each = 12 then g.wgt ++ [w] else g.wgt }
    | none => g
  let fresh : OpenFlow := { rank := rank, occ := 1, size := head + each, key := key, segs := [add seg] }
  let keep := b.opens.filter fun f => decide (f.rank ≠ rank)
  match b.opens.find? fun f => decide (f.rank = rank) with
  | none => { b with opens := b.opens ++ [fresh] }
  | some f =>
    let same := decide (f.key = key) && row.isSome
    if f.size + each + (if same then 0 else head) > maxBody then { b with opens := keep ++ [fresh], full := b.full ++ [f.done] }
    else
      let f1 : OpenFlow :=
        { f with occ := f.occ + 1, size := f.size + each + (if same then 0 else head), key := key,
                 segs := match same, f.segs with | true, g :: r => add g :: r | _, l => add seg :: l }
      if f1.occ ≥ 16384 then { b with opens := keep, full := b.full ++ [f1.done] }
      else { b with opens := b.opens.map fun x => if x.rank = rank then f1 else x }

/-- Little-endian words of `w` bytes read from a job's range. -/
def readWords (j a n w : Nat) (s : State) : Except Nat (List Nat) × State :=
  if n = 0 then (.ok [], s)
  else if a + w * n > rangeBytes then (.error a, urngFault j a 1 s)
  else
    match rangeRead j a (w * n) s with
    | .unmapped va s1 => (.error va, s1)
    | .ok d _ s1 => (.ok ((List.range n).map fun i => leAt d (w * i) w), s1)

/-- One occurrence of a lookup placed: at a replica (R212) or in the flow to its owner. -/
def placeLookup (j tid vnum : Nat) (fx : Bytes) (wsum : Bool) (bag k row w : Nat) (b : Bucket) : Bucket :=
  let (rep, lag) := replicaFor b.st j tid row vnum
  let b1 := { b with st := count Reg.EMB_LAGSKIP 32 (b2n lag) b.st }
  match rep with
  | some (slot, c) => { b1 with locals := b1.locals ++ [(bag, row, w, slot, c)] }
  | none =>
    b1.put (ownerRank fx row) (bag, k / 4096) { bag := bag, idx := [], wgt := [], n := 0, grad := [], wins := [] } 8 (if wsum then 12 else 8)
      (some (row, w))

/-- A bag's kept index entries: place in the bag, row and weight. -/
def keptRows (rows : Nat) (idx wgt : List Nat) : List (Nat × Nat × Nat) :=
  (List.range idx.length).filterMap fun k => let r := idx.getD k 0; if r < rows then some (k, r, wgt.getD k 0) else none

/-- The index entries of a bag, and its weights for WSUM. -/
def readBag (j : Nat) (d : Bytes) (s0 e0 : Nat) (s : State) : Except Nat (List Nat × List Nat) × State :=
  match readWords j (dsIdx d + 8 * s0) (e0 - s0) 8 s with
  | (.error va, s1) => (.error va, s1)
  | (.ok idx, s1) =>
    if descPool d = 1 then
      match readWords j (dsWgt d + 4 * s0) (e0 - s0) 4 s1 with
      | (.error va, s2) => (.error va, s2)
      | (.ok w, s2) => (.ok (idx, w), s2)
    else (.ok (idx, []), s1)

/-- The gradient of a bag, whether one of its sectors is poisoned, and the winners of MAX. -/
def readGrad (j dim : Nat) (d : Bytes) (bag : Nat) (s : State) : Except Nat (List Nat × List Nat × Bool) × State :=
  let a := dsDst d + bag * dsStride d
  if a + 4 * dim > rangeBytes then (.error a, urngFault j a 1 s)
  else
    match rangeRead j a (4 * dim) s with
    | .unmapped va s1 => (.error va, s1)
    | .ok g bad s1 =>
      let gs := (List.range dim).map fun e => leAt g (4 * e) 4
      if descPool d = 3 then
        match readWords j (dsAux d + 8 * (bag * dim)) dim 8 s1 with
        | (.error va, s2) => (.error va, s2)
        | (.ok w, s2) => (.ok (gs, w, bad != []), s2)
      else (.ok (gs, [], bad != []), s1)

/-- A lookup's bag. -/
def bagLookup (j vnum : Nat) (fx d : Bytes) (bag : Nat) (kept : List (Nat × Nat × Nat)) (b : Bucket) : Bucket :=
  kept.foldl (fun b x => placeLookup j (dsTid d) vnum fx (descPool d = 1) bag x.1 x.2.1 x.2.2 b) b

/-- An update's bag: one segment per owner with the bag's gradient and count (R241). -/
def bagUpdate (j k : Nat) (fx d : Bytes) (bag : Nat) (kept : List (Nat × Nat × Nat)) (b : Bucket) : Bucket :=
  let dim := fxDim fx
  let max := decide (descPool d = 3)
  if kept = [] then b
  else
    match readGrad j dim d bag b.st with
    | (.error va, s1) => { b with st := s1, lost := some va }
    | (.ok (g, w, poison), s1) =>
      let b1 := { b with st := s1 }
      if poison then
        { b1 with bad := bag :: b1.bad, st := fault { code := 0x0033, job := some j, inst := k, addr := dsDst d + bag * dsStride d, arg0 := dsTid d, arg1 := bag } s1 }
      else
        let seg : Seg := { bag := bag, idx := [], wgt := [], n := kept.length, grad := g, wins := w }
        let head := 16 + 4 * dim + (if max then 8 * dim else 0)
        if max then
          let ranks := (w.filter fun r => decide (r < fxRows fx)).foldl (fun (l : List Nat) r =>
            let o := ownerRank fx r
            if l.contains o then l else l ++ [o]) []
          ranks.foldl (fun b r => b.put r (bag, 0) seg head 0 none) b1
        else kept.foldl (fun b x => b.put (ownerRank fx x.2.1) (bag, 0) seg head (if descPool d = 1 then 12 else 8) (some (x.2.1, x.2.2))) b1

/-- The walk over the bags; it ends at the first unmapped address. -/
def bucketBags (j k vnum : Nat) (upd : Bool) (fx d : Bytes) (offs : List Nat) (b0 : Bucket) : Bucket :=
  (List.range (dsNbags d)).foldl (fun b bag =>
    if b.lost.isSome then b
    else
      let s0 := offs.getD bag 0
      let e0 := offs.getD (bag + 1) 0
      if e0 < s0 then { b with dropped := b.dropped + 1 }
      else
        match readBag j d s0 e0 b.st with
        | (.error va, s1) => { b with st := s1, lost := some va }
        | (.ok (idx, wgt), s1) =>
          let kept := keptRows (fxRows fx) idx wgt
          let b1 := { b with st := s1, dropped := b.dropped + (idx.length - kept.length), counts := Tbl.put b.counts bag kept.length }
          if upd then bagUpdate j k fx d bag kept b1 else bagLookup j vnum fx d bag kept b1) b0

/-! ## Replica rows (R212, R228 step 5) -/

/-- A replica row added to its bag. -/
def addReplica (j : Nat) (h : Handle) (o : Nat × Nat × Nat × Nat × Nat) (s : State) : Handle × Nat × State :=
  let (bag, row, w, slot, c) := o
  let wf := vsWfmt h.slot
  let addr := ((s.job? j).map fun x => x.replBase + (2 * slot + c) * x.replBytes).getD 0
  let (raw, p, s1) := gather (slot % 2) j h.tid addr (workBytes wf h.dim) (engineAsk (2 + slot % 2) s)
  let pool := descPool h.desc
  let (ts, st) := occTerms pool wf h.dim { row := row, raw := raw, poison := p, wgt := w }
  let h1 := if p && !h.poisoned.contains bag then { h with poisoned := bag :: h.poisoned } else h
  let r := (List.range h.dim).foldl (fun (a : Handle × Nat) e =>
    let x := (XAcc.empty.addGroup [ts.getD e .nan]).1
    if pool = 3 then (combineMax a.1 bag e x row, a.2)
    else
      let (h2, n) := combine a.1 bag e x
      (h2, a.2 ||| n)) (h1, st)
  (r.1, r.2, s1)

/-! ## The sending of flows (R228 step 4, R234, R242, R306) -/

/-- The body of a request. -/
def flowBody (upd : Bool) (pool : Nat) (segs : List Seg) : Bytes :=
  (segs.flatMap fun g =>
    toLe 4 g.bag ++ toLe 4 g.idx.length ++
      (if upd then toLe 8 g.n ++ (g.grad.flatMap (toLe 4 ·)) ++ (if pool = 3 then g.wins.flatMap (toLe 8 ·) else []) else [])) ++
  (segs.flatMap fun g => g.idx.flatMap (toLe 8 ·)) ++
  (if pool = 1 then segs.flatMap fun g => g.wgt.flatMap (toLe 4 ·) else [])

/-- A requester entry's flow sent to its owner, which may be this device. -/
def sendFlow (e : Nat) (s : State) : State :=
  match s.rflow? e with
  | none => s
  | some r =>
    match s.handle? r.handle, s.job? r.job with
    | some h, some job =>
      let d := h.desc
      let mode := descPool d + dsRfmt d * 4 + b2n (dsWaitUpd d) * 8 + dsClass d * 16
      let hdr := reqHdr (if h.upd then 0x53 else 0x50) h.tid h.vnum (fingerprint h.fixed h.slot) job.rank e r.rsv mode r.attempt (dsStep d)
        (sumNat (r.segs.map fun g => g.idx.length)) r.segs.length
      let body := flowBody h.upd (descPool d) r.segs
      if r.rank = job.rank then
        let q := reqOf h.upd hdr body (r.fseq % 2 ^ 32)
        if h.upd then updReqHere r.job q s else requestHere r.job q s
      else sendRank r.job r.rank 3 hdr body { stream := e + r.attempt * 4096, fseq := r.fseq % 2 ^ 32 } s
    | _, _ => s

/-- A free requester entry. -/
def freeRequester (s : State) : Option Nat := (List.range 4096).find? fun e => (Tbl.look? s.lkp.rflows e).isNone

/-- The flows of a handle that have no entry yet take entries and are sent, in order, while entries are free. -/
def sendQueue (fuel hn : Nat) (s : State) : State :=
  match fuel with
  | 0 => s
  | fuel + 1 =>
    match s.handle? hn, freeRequester s with
    | some h, some e =>
      match h.queue with
      | [] => s
      | (rank, segs) :: rest =>
        let fs := Tbl.look s.zor.fseq h.job 0
        let r : RFlow := { job := h.job, handle := hn, pos := h.flows.length, rank := rank, segs := segs, attempt := 0, fseq := fs, rsv := 0,
                           sent := s.clk.fnum, tframe := none, recv := [], got := [], fin := none }
        let s1 := updHandle hn (fun h => { h with queue := rest, flows := h.flows ++ [(rank, 4, 0, 0)] })
          { s with lkp := { s.lkp with rflows := Tbl.put s.lkp.rflows e r }, zor := { s.zor with fseq := Tbl.put s.zor.fseq h.job (fs + 1) } }
        sendQueue fuel hn (sendFlow e (engineAsk (clusterOf h.walker / 16) s1))
    | _, _ => s

/-- A handle's flows sent as far as entries are free; a handle without open flows ends. -/
def sendHandle (hn : Nat) (s : State) : State :=
  match s.handle? hn with
  | none => s
  | some h => tryClose hn (sendQueue (h.queue.length + 1) hn s)

/-- Whether a handle still has flows to send. -/
def handleUnsent (s : State) (hn : Nat) : Bool := match s.handle? hn with | some h => h.queue != [] | none => false

/-! ## LKSEND and UPSEND (R228, R241) -/

/-- The combine pool in use. -/
def combineUsed (s : State) : Nat := sumNat (s.lkp.handles.map fun p => p.2.space)

/-- Bytes of a row in an output format (R93). -/
def outBytes (fmt n : Nat) : Nat := if fmt = 0 then 4 * n else if fmt ≤ 2 then 2 * n else n

/-- The output spans a descriptor names; those of an update are its outcome record only. -/
def outputSpans (dim : Nat) (upd : Bool) (d : Bytes) : List (Nat × Nat) :=
  let nb := dsNbags d
  (dsOutrec d, roundUp 32 (32 + ceilDiv nb 4)) ::
    (if upd then []
     else ((List.range nb).map fun b => (dsDst d + b * dsStride d, outBytes (dsOfmt d) dim)) ++
       (if descPool d = 3 then [(dsAux d, 8 * nb * dim)] else []))

/-- What LKSEND or UPSEND does once it has its combine space: its handle begins, its bags are bucketed and its flows sent. -/
def startHandle (k : Nat) (rd pc : Nat) (cl : Cluster) (upd : Bool) (d : Bytes) (word : BitVec 32) (s : State) : State :=
  match s.table? cl.job (dsTid d) with
  | none => s
  | some t =>
    let j := cl.job
    let dim := fxDim t.fixed
    match readWords j (dsOffs d) (dsNbags d + 1) 8 s with
    | (.error va, s1) => walkAccess k va s1
    | (.ok offs, s1) =>
      match (outputSpans dim upd d).find? fun p => !spanMapped s1 j p.1 p.2 with
      | some p => let va := (firstUnmapped s1 j p.1 p.2).getD p.1; walkAccess k va (urngFault j va 1 s1)
      | none =>
        let b := bucketBags j k (vsVnum t.cur) upd t.fixed d offs
          { st := s1, opens := [], full := [], counts := [], locals := [], dropped := 0, bad := [], lost := none }
        if b.lost.isSome then walkAccess k (b.lost.getD 0) b.st
        else
          let hn := b.st.lkp.nextHandle
          let h : Handle :=
            { job := j, walker := k, cid := cl.cid, upd := upd, desc := d, tid := dsTid d, vnum := vsVnum t.cur, slot := t.cur, fixed := t.fixed,
              dim := dim, space := if upd then 0 else dsNbags d * dim * 16, counts := b.counts, acc := [], wins := [], poisoned := b.bad,
              dropped := b.dropped, retries := 0, firstRef := 0, queue := b.full ++ b.opens.map OpenFlow.done, flows := [], unserved := [],
              ended := none }
          let (h1, st, s2) := b.locals.foldl (fun (a : Handle × Nat × State) o =>
            let (h1, st, s1) := addReplica j a.1 o a.2.2
            (h1, a.2.1 ||| st, s1)) (h, 0, b.st)
          let s3 := handleNstat cl.cid st (count Reg.LKP_BADIDX 32 b.dropped (putHandle hn h1
            { s2 with lkp := { s2.lkp with nextHandle := s2.lkp.nextHandle + 1 } }))
          let s4 := sendHandle hn s3
          if handleUnsent s4 hn then updWalker k (fun w => { w with waitD := some word, waitH := some hn }) s4
          else updWalker k (fun w => { w.setReg rd hn with pc := pc + 1, waitD := none, waitH := none }) s4

/-- LKSEND or UPSEND issued: its descriptor is checked; a lookup waits while the combine pool lacks its space. -/
def sendIssue (k : Nat) (rd a pc : Nat) (cl : Cluster) (upd : Bool) (word : BitVec 32) (s : State) : State :=
  let d := (s.walker k).read a 64
  match descError s cl.job upd d with
  | 0 =>
    let need := match s.table? cl.job (dsTid d) with | some t => dsNbags d * fxDim t.fixed * 16 | none => 0
    if !upd && decide (combineUsed s + need > 2 ^ 24) then updWalker k (fun w => { w with waitD := some word, waitH := none }) s
    else startHandle k rd pc cl upd d word s
  | sub => walkInvalid k sub s

/-- LKSEND (R228). -/
def execLksend (k : Fin 2048) (w : BitVec 32) (s : State) : Out :=
  poweredOut (.lksend k w) (walkIssue k w 0x23 (fun i => if localOk i.a 64 8 then 0 else 2) fun i s => .stop (sendIssue k i.rd i.a i.w.pc i.cl false w s)) s

/-- UPSEND (R241). -/
def execUpsend (k : Fin 2048) (w : BitVec 32) (s : State) : Out :=
  poweredOut (.upsend k w) (walkIssue k w 0x24 (fun i => if localOk i.a 64 8 then 0 else 2) fun i s => .stop (sendIssue k i.rd i.a i.w.pc i.cl true w s)) s

/-- A walker that waits for combine space or entries goes on with what has become free. -/
def resumeSender (k : Nat) (s : State) : State :=
  let w := s.walker k
  match w.waitD, s.cluster? (clusterOf k) with
  | some word, some cl =>
    let v := word.toNat
    match w.waitH with
    | some hn =>
      let s1 := sendHandle hn s
      if handleUnsent s1 hn then s1
      else updWalker k (fun w => { w.setReg (bits v 9 6) hn with pc := w.pc + 1, waitD := none, waitH := none }) s1
    | none =>
      sendIssue k (bits v 9 6) (w.reg (bits v 13 10)) w.pc cl (decide (bits v 5 0 = 0x24)) word
        (updWalker k (fun w => { w with waitD := none }) s)
  | _, _ => s

/-- Handles whose walker has left its command send the rest of their flows (R225, R341). -/
def resumeOrphans (k : Nat) (s : State) : State :=
  s.lkp.handles.foldl (fun s p => if p.2.walker = k && p.2.queue != [] && (s.walker k).waitH ≠ some p.1 then sendHandle p.1 s else s) s

/-- LKSEND_RESUME (R228): space or an entry has become free. -/
def execLksendResume (k : Fin 2048) (s : State) : Out := whenP (.lksendResume k) s.clocked (fun s => resumeOrphans k (resumeSender k s)) s

/-! ## HWAIT, retries (R236, R239) -/

/-- HWAIT (R236): it waits until the handle has ended. -/
def execHwait (k : Fin 2048) (w : BitVec 32) (s : State) : Out :=
  walkIssue k w 0x25 (fun _ => 0)
    (fun i s =>
      match s.handle? i.a with
      | some h =>
        match h.ended with
        | some sum => if h.cid = i.cl.cid then .next (i.w.pc + 1) (updWalker k (fun x => x.setReg i.rd sum) s) else .stall s
        | none => .stall s
      | none => .stall s) s

/-- FLOW_RETRY (R239): in its target frame or later, after step 7 of R36, the flow is sent again with its token. -/
def execFlowRetry (entry : Fin 4096) (s : State) : Out :=
  let due := match s.rflow? entry with
    | some r => (match r.tframe with | some f => decide (f ≤ s.clk.fnum) | none => false)
    | none => false
  whenP (.flowRetry entry) (s.clocked && s.clk.stepsDone && !s.clk.step7Wait && !s.lost && decide (s.pos < s.W) && due) (fun s =>
    match s.rflow? entry with
    | none => s
    | some r =>
      sendFlow entry (updHandle r.handle (fun h => { h with retries := h.retries + 1 })
        (updRFlow entry (fun r => { r with sent := s.clk.fnum, tframe := none }) s))) s

/-! ## The close of a step (R245, R246) -/

/-- The close list at a local address. -/
def closeTids (l : Bytes) (n : Nat) : List Nat := (List.range n).map fun i => leAt l (8 + 2 * i) 2

/-- The ranks that own rows of any table of a list. -/
def ownersOf (s : State) (j : Nat) (tids : List Nat) : List Nat :=
  match s.job? j with
  | none => []
  | some job => (List.range job.ndev).filter fun r => tids.any fun t => match s.table? j t with | some x => isOwner x.fixed r | none => false

/-- An update flow of a step is open at this requester. -/
def stepOpen (s : State) (j step : Nat) : Bool :=
  s.lkp.handles.any fun p => p.2.upd && decide (p.2.job = j) && decide (dsStep p.2.desc = step) &&
    (p.2.queue != [] || p.2.flows.any fun f => decide (f.2.1 = 4))

/-- The step whose closes an owner gathers next: the one after the last, or, before any, the smallest for which it holds closes from
every device. -/
def nextStep (t : Table) (ndev : Nat) : Option Nat :=
  let whole := fun (st : Nat) => (List.range ndev).all fun r => t.closes.contains (st, r)
  match t.last with
  | some l => if whole (l + 1) then some (l + 1) else none
  | none =>
    (t.closes.map (·.1)).foldl (fun (m : Option Nat) st =>
      if whole st then (match m with | some x => some (min x st) | none => some st) else m) none

/-- Whether the merge store holds entries of a step. -/
def stepEntries (s : State) (j tid st : Nat) : Bool :=
  s.lkp.merge.any fun m => decide (m.job = j) && decide (m.tid = tid) && decide (m.step = st)

/-- A step done: its number is recorded, its closes and the record of its flows go (R246, R309). -/
def completeStep (j tid st : Nat) (s : State) : State :=
  let s1 := updTable j tid (fun t => { t with last := some st, updating := none, hdone := [], closes := t.closes.filter fun c => decide (c.1 > st) }) s
  dlxProgress j 0 tid st { s1 with lkp := { s1.lkp with
    seen := s1.lkp.seen.filter fun u => !(decide (u.job = j) && decide (u.tid = tid) && decide (u.step ≤ st)) } }

/-- An owner begins the update of a step once every device has closed it and the step before it is done (R246); a step without
entries is done at once. -/
def settleStep (fuel j tid : Nat) (s : State) : State :=
  match fuel with
  | 0 => s
  | fuel + 1 =>
    match s.job? j, s.table? j tid with
    | some job, some t =>
      if t.updating.isSome || !isOwner t.fixed job.rank then s
      else
        match nextStep t job.ndev with
        | some st =>
          if stepEntries s j tid st then updTable j tid (fun t => { t with updating := some st, hdone := [] }) (engineCallAll [4, 5] s)
          else settleStep fuel j tid (completeStep j tid st s)
        | none => s
    | _, _ => s

/-- Steps of a table looked at again. -/
def settleTable (j tid : Nat) (s : State) : State :=
  settleStep (((s.table? j tid).map fun t => t.closes.length + 1).getD 0) j tid s

/-- A close of one table's step by a rank. -/
def closeHere (j tid step rank : Nat) (s : State) : State :=
  match s.table? j tid with
  | none => s
  | some t =>
    let stale := match t.last with | some l => decide (step ≤ l) | none => false
    if stale || t.closes.contains (step, rank) then s
    else settleTable j tid (updTable j tid (fun t => { t with closes := t.closes ++ [(step, rank)] }) s)

/-- UPD_CLOSE's header (R245). -/
def updCloseHdr (step rank n : Nat) : Bytes := header (toLe 2 0x54 ++ toLe 4 step ++ toLe 2 rank ++ toLe 2 n)

/-- UPCLOSE (R245): it waits until every update flow of the step has its final code, then names the tables to every owner of them. -/
def execUpclose (k : Fin 2048) (w : BitVec 32) (s : State) : Out :=
  walkIssue k w 0x26
    (fun i =>
      if !localOk i.a 8 4 then 2
      else
        let n := leAt (i.w.read i.a 8) 4 4
        if n = 0 ∨ n > 4096 then 4
        else if i.a + 8 + 2 * n > 0x2000 then 2
        else if (closeTids (i.w.read i.a (8 + 2 * n)) n).any fun t => decide (t ≥ 4096) then 5
        else 0)
    (fun i s =>
      let n := leAt (i.w.read i.a 8) 4 4
      let l := i.w.read i.a (8 + 2 * n)
      let step := leAt l 0 4
      let tids := closeTids l n
      let j := i.cl.job
      match s.job? j with
      | none => .stall s
      | some job =>
        if tids.any fun t => (s.table? j t).isNone then .stop (walkInvalid k 4 s)
        else if stepOpen s j step then .stall s
        else
          let s1 := { s with lkp := { s.lkp with closed := s.lkp.closed ++ (tids.map fun t => (j, t, step)).filter fun c => !s.lkp.closed.contains c } }
          let s2 := (ownersOf s1 j tids).foldl (fun s r =>
            if r = job.rank then tids.foldl (fun s t => closeHere j t step r s) s
            else sendRank j r 3 (updCloseHdr step job.rank n) (tids.flatMap fun t => toLe 2 t) {} s) s1
          .next (i.w.pc + 1) s2) s

/-- UPD_CLOSE (R245, R246): each named table's step is closed once by its sender (R294). -/
def execUpdClose (m : Msg) (s : State) : Out :=
  receive (.updClose m) 0x54 m (fun _ => none) (fun j r m s =>
    let step := leAt m.hdr 2 4
    (List.range (leAt m.hdr 8 2)).foldl (fun s i =>
      let tid := leAt m.body (2 * i) 2 % 4096
      match takeIdent j 0x54 [m.src.toNat, step, tid] s with
      | none => count Reg.ZOR_DUP 32 1 s
      | some s1 => closeHere j tid step r s1) s) s

end Sys2Proof.Machine
end

