-- ==== Sys2Proof/Machine/Update.lean ====
section
/-! DEFINITION. The table update: batches of merged gradients, the update program, the write-back, and the end of a step (R246, R247,
R250). -/

namespace Sys2Proof.Machine

/-! ## Batches -/

/-- The entries of the step in work that a die may take next: those of one version, in ascending row order. -/
def batchRows (s : State) (j tid die : Nat) (t : Table) : List MergeEnt :=
  let mine := s.lkp.merge.filter fun m => decide (m.job = j) && decide (m.tid = tid) && decide (some m.step = t.updating) &&
    decide ((place t.fixed m.row).2 % 2 = die)
  let sorted := sortBy (fun (a b : MergeEnt) => decide (a.vnum < b.vnum) || (decide (a.vnum = b.vnum) && decide (a.row < b.row))) mine
  match sorted with
  | [] => []
  | m :: _ => (sorted.filter fun x => decide (x.vnum = m.vnum)).take (min 256 (65536 / fxDim t.fixed))

/-- The update tile of a die. -/
def updTileOf (s : State) (j die : Nat) : Nat := ((s.job? j).map fun x => if die = 0 then x.utile0 else x.utile1).getD 0

/-- Areas of the update staging region. -/
def stG : Nat := 0
def stP : Nat := 0x40000
def stM1 : Nat := 0x80000
def stM2 : Nat := 0xC0000
def stW : Nat := 0x100000
def stS : Nat := 0x140000
def stH : Nat := 0x141000

/-- The roles of R131 bound to the staging areas; X stays unbound. -/
def batchRoles (base opt : Nat) : List Nat :=
  let no := 2 ^ 32
  [base + stG, base + stP, if opt = 2 then base + stM1 else no, if opt = 2 then base + stM2 else no, if opt = 1 then base + stS else no,
    base + stW, base + stH, no]

/-- A batch's program bound, from bytes as they stand. -/
def batchProg (s : State) (j die : Nat) (v : Bytes) (extent : Nat) : Option BoundProg :=
  match peek s j (vsUprog v) 64 with
  | none => none
  | some hdr =>
    let n := bits (leAt hdr 0 4) 1 0 + 1
    let base := ((s.job? j).map (·.ustage)).getD 0
    match peek s j (vsUprog v + 64) (256 * n), updTileOf s j die with
    | some d, _ => some { hdr := hdr, descs := (List.range n).map fun i => slice d (256 * i) 256, roles := batchRoles base (vsOpt v), extent := extent }
    | none, _ => none

/-- Bytes of the batch's export message (R446). -/
def batchMsgBytes (rows mb : Nat) : Nat := roundUp 32 (32 + rows * roundUp 8 (8 + mb))

/-- A row gathered for a batch: its entry, local index, master and working record. -/
structure BRow where
  ent : MergeEnt
  i   : Nat
  m   : Bytes
  w   : Bytes
  deriving DecidableEq, Repr

/-- The value of a merged element: exact, or its special. -/
def mergedNum (m : MergeEnt) (e : Nat) : Num :=
  match m.spec.getD e 0 with
  | 0 => let v := m.acc.getD e 0; .fin (decide (v < 0)) v.natAbs 1 (-149)
  | 1 => .inf false
  | 2 => .inf true
  | _ => .nan

/-- A row's records gathered; a row with a poisoned record leaves the batch with ROW_POISON (R247, R463). -/
def gatherRow (j die : Nat) (t : Table) (v : Bytes) (m : MergeEnt) (a : List BRow × State) : List BRow × State :=
  let fx := t.fixed
  let i := (place fx m.row).2
  let ma := masterAddr fx v i
  let wa := workAddr fx v i
  let bad := fun (addr : Nat) (s : State) => (a.1, fault { code := 0x0032, job := some j, inst := die, addr := addr, arg0 := m.tid, arg1 := i } s)
  match rangeRead j ma (masterBytes (vsOpt v) (fxDim fx)) a.2 with
  | .unmapped _ s1 => bad ma s1
  | .ok _ (_ :: _) s1 => bad ma s1
  | .ok mr [] s1 =>
    let (wr, p, s2) := gather die j m.tid wa (workBytes (vsWfmt v) (fxDim fx)) s1
    if p then bad wa s2 else (a.1 ++ [{ ent := m, i := i, m := mr, w := wr }], s2)

/-- Step 1: each accumulator rounded once to FP32 on the Coalescer lanes of the home die. -/
def roundRows (die : Nat) (d : Nat) (rows : List BRow) (job : Job) : List (List Nat) × Nat × Job :=
  let r := rows.foldl (fun (a : List (List Nat) × Nat × Job) b =>
    let ((cs, st), j1) := narrowRow 0 (bits job.gmode 1 0) (bitOf job.gmode 2) (0x4000 + die * 2048) 2048 ((List.range d).map (mergedNum b.ent)) a.2.2
    (cs :: a.1, a.2.1 ||| st, j1)) ([], 0, job)
  (r.1.reverse, r.2.1, r.2.2)

/-- Steps 1 and 2: the staging areas filled. -/
def fillStage (t base opt d : Nat) (gs : List (List Nat)) (rows : List BRow) (s : State) : State :=
  let s1 := stageWrite t (base + stG) (gs.flatMap fun g => g.flatMap (toLe 4 ·)) s
  let s2 := stageWrite t (base + stP) (rows.flatMap fun r => slice r.m 0 (4 * d)) s1
  let s3 := if opt = 2 then
      stageWrite t (base + stM2) (rows.flatMap fun r => slice r.m (8 * d) (4 * d))
        (stageWrite t (base + stM1) (rows.flatMap fun r => slice r.m (4 * d) (4 * d)) s2)
    else s2
  let s4 := if opt = 1 then stageWrite t (base + stS) (rows.flatMap fun r => slice r.m (4 * d) 4) s3 else s3
  stageWrite t (base + stW) (rows.flatMap (·.w)) s4

/-- The k-th row's piece of an area. -/
def staged (s : State) (t a n k : Nat) : Bytes := (s.tile t).read (a + k * n) n

/-- The staged master record of the k-th row as the program left it, its P part apart. -/
def stagedRest (s : State) (t base opt d k : Nat) : Bytes :=
  if opt = 1 then staged s t (base + stS) 4 k
  else if opt = 2 then staged s t (base + stM1) (4 * d) k ++ staged s t (base + stM2) (4 * d) k
  else []

/-- Step 4 for one row: its records written back, with the numeric status.  DESIGN CHOICE: the working row that follows an update by ADDP draws
from the Coalescer lanes (class 4) of the home die; the spec names no lane for it (assumption 106). -/
def writeBackRow (j die tile base : Nat) (fx v : Bytes) (addp : Bool) (k : Nat) (b : BRow) (s : State) : Nat × Bytes × State :=
  let d := fxDim fx
  let opt := vsOpt v
  let ma := masterAddr fx v b.i
  let p := staged s tile (base + stP) (4 * d) k
  let rest := stagedRest s tile base opt d k
  let wb := workBytes (vsWfmt v) d
  if addp then
    let (st, s1) := addDeltas j ma p s
    let s2 := if rest = [] then s1 else (rangeWrite j (ma + 4 * d) rest s1).state
    match rangeRead j ma (masterBytes opt d) s2, s2.job? j with
    | .ok m _ s3, some job =>
      let (w, st2, job1) := deriveRow (vsWfmt v) (vsRmode v) (vsSat v) (0x4000 + die * 2048) ((List.range d).map fun e => f32 (leAt m (4 * e) 4)) job
      (st ||| st2, m, (cacheWrite die j b.ent.tid (workAddr fx v b.i) w { s3 with jobs := Tbl.put s3.jobs j job1 }).state)
    | r, _ => (st, p ++ rest, r.state)
  else
    let s1 := (rangeWrite j ma (p ++ rest) s).state
    (0, p ++ rest, (cacheWrite die j b.ent.tid (workAddr fx v b.i) (staged s tile (base + stW) wb k) s1).state)

/-- Step 4 for a batch: records, export, hot rows, counters. -/
def writeBack (j tid die tile base : Nat) (fx v : Bytes) (addp : Bool) (rows : List BRow) (s : State) : State :=
  let r := (List.range rows.length).foldl (fun (a : Nat × Bytes × State) k =>
    match rows[k]? with
    | none => a
    | some b =>
      let (st, m, s1) := writeBackRow j die tile base fx v addp k b a.2.2
      (a.1 ||| st, a.2.1 ++ padTo 8 (toLe 8 b.ent.row ++ m), markHot j tid b.ent.row s1)) (0, [], s)
  dlxWriteBack j 0 tid (vsVnum v) rows.length 0 r.2.1 (count Reg.LKP_ROWUPD 64 rows.length (lkpNstat r.1 r.2.2))

/-! ## The end of a step -/

/-- A step with no entry left is done: its number is recorded, and the next may begin (R246, R309). -/
def stepDone (j tid : Nat) (s : State) : State :=
  match s.table? j tid with
  | none => s
  | some t =>
    match t.updating with
    | none => s
    | some st =>
      if stepEntries s j tid st then s else settleTable j tid (completeStep j tid st s)

/-- The entries of a batch freed. -/
def freeEntries (rows : List MergeEnt) (s : State) : State := { s with lkp := { s.lkp with merge := s.lkp.merge.filter fun m => !rows.contains m } }

/-- The hyperparameter block loaded before a version's first batch of a step on a die; every batch of the step finds it in the H area. -/
def loadHparam (j tid die tile base : Nat) (v : Bytes) (s : State) : Bool × State :=
  match s.table? j tid with
  | none => (false, s)
  | some t =>
    match t.hdone.find? fun x => decide (x.1 = die) && decide (x.2.1 = vsVnum v) with
    | some x => (true, stageWrite tile (base + stH) x.2.2 s)
    | none =>
      match rangeRead j (vsHparam v) 64 s with
      | .unmapped _ s1 => (false, s1)
      | .ok h _ s1 => (true, updTable j tid (fun t => { t with hdone := t.hdone ++ [(die, vsVnum v, h)] }) (stageWrite tile (base + stH) h s1))

/-- A batch run: steps 1 to 5 of R246.  A batch whose program cannot run is discarded (DESIGN CHOICE). -/
def runBatch (j tid die : Nat) (t : Table) (v : Bytes) (ents : List MergeEnt) (s : State) : State :=
  match s.job? j with
  | none => s
  | some job =>
    let fx := t.fixed
    let d := fxDim fx
    let tile := updTileOf s j die
    let base := job.ustage
    let (rows, s1) := ents.foldl (fun a m => gatherRow j die t v m a) ([], engineAsk (4 + die) s)
    let (gs, st, job1) := roundRows die d rows ((s1.job? j).getD job)
    let s2 := lkpNstat st { s1 with jobs := Tbl.put s1.jobs j job1 }
    let (okH, s3) := loadHparam j tid die tile base v (fillStage tile base (vsOpt v) d gs rows s2)
    let s4 :=
      match readProgram j (vsUprog v) s3 with
      | (some (hdr, ds), s4) =>
        if !okH || rows.isEmpty then s4
        else
          let b : BoundProg := { hdr := hdr, descs := ds, roles := batchRoles base (vsOpt v), extent := rows.length * d }
          match runProgram tile j b s4 with
          | (true, ns, s5) => writeBack j tid die tile base fx v b.addp rows (lkpNstat ns s5)
          | (false, _, s5) => s5
      | (none, s4) => s4
    stepDone j tid (freeEntries ents (ledgerReturn (.tableEngine (6 + die)) s4))

/-- Whether updates of a job are admitted in this frame at all (R24, R246, R370, R448, R465). -/
def updatesAdmitted (s : State) (j n : Nat) : Bool :=
  flowsAdmitted s j && decide (s.pos + 65536 ≤ s.W) && !dlxHolds s j n

/-- Whether a tile's vector engine takes a program of the Coalescer or the dense owner: idle, and no sequencer before it (R98, R246). -/
def vecIdle (s : State) (tile : Nat) : Bool :=
  match s.tile? tile with
  | some x => x.vecFree && !pieceOn s tile && !((List.range 3).any fun k => vecWanted tile k s || (x.parkedOf k).isSome)
  | none => false

/-- UPDATE_BATCH (R246): a batch is admitted when it fits the window and holds its draws and no dense piece comes first; it runs whole.  A die that lacks draws asks
for them. -/
def execUpdateBatch (job : Fin 64) (tid : Fin 4096) (die : Fin 2) (s : State) : Out :=
  match s.table? job tid with
  | none => .next s
  | some t =>
    whenP (.updateBatch job tid die) (s.clocked && t.updating.isSome) (fun s =>
      match batchRows s job tid die t with
      | [] => stepDone job tid s
      | m :: r =>
        match t.version? m.vnum with
        | none => stepDone job tid (freeEntries (m :: r) s)
        | some v =>
          let n := (m :: r).length
          if !updatesAdmitted s job (batchMsgBytes n (masterBytes (vsOpt v) (fxDim t.fixed))) then s
          else if !engineHeld s [4 + die] then engineCall (4 + die) s
          else if !vecIdle s (updTileOf s job die) || pieceFirst s (updTileOf s job die) then s
          else
            let need := match batchProg s job die v (n * fxDim t.fixed) with | some b => b.need s | none => 0
            let own : Owner := .tableEngine (6 + die)
            if need = 0 || holds own s then runBatch job tid die t v (m :: r) s
            else reserve own 1 need s) s

/-! ## Draws returned and jobs ended -/

/-- Whether a unit of the table engine has work. -/
def engineBusy (s : State) (u : Nat) : Bool :=
  match u / 2 with
  | 0 => s.lkp.oflows.any (fun p => (flowUnits s p.2).contains u) || s.lkp.handles.any (fun p => p.2.ended.isNone && decide (clusterOf p.2.walker / 16 = u))
  | 1 => s.lkp.oflows.any fun p => (flowUnits s p.2).contains u
  | _ => s.lkp.oflows.any (fun p => (flowUnits s p.2).contains u) || s.emb.tables.any fun p => p.2.updating.isSome

/-- What the table engine holds for a job is dropped at its end. -/
def dropLookupJob (j : Nat) (s : State) : State :=
  let s1 := cacheDrop (fun l => decide (l.key / 2 ^ 43 = j)) s
  { s1 with
    savedClusters := s1.savedClusters.filter fun p => decide (p.2.cluster.job ≠ j)
    lkp := { s1.lkp with
      walkers := Tbl.mapv s1.lkp.walkers (fun k w =>
        if (match s1.cluster? (clusterOf k) with | some c => decide (c.job = j) | none => false) then Walker.init else w),
      clusters := s1.lkp.clusters.filter (fun p => decide (p.2.job ≠ j)),
      handles := s1.lkp.handles.filter (fun p => decide (p.2.job ≠ j)), rflows := s1.lkp.rflows.filter (fun p => decide (p.2.job ≠ j)),
      oflows := s1.lkp.oflows.filter (fun p => decide (p.2.job ≠ j)), merge := s1.lkp.merge.filter (fun m => decide (m.job ≠ j)),
      seen := s1.lkp.seen.filter (fun u => decide (u.job ≠ j)), closed := s1.lkp.closed.filter (fun c => decide (c.1 ≠ j)),
      book := s1.lkp.book.filter (fun r => decide (r.job ≠ j)) } }

end Sys2Proof.Machine
end

