-- ==== Sys2Proof/Machine/Wire.lean ====
section
/-! DEFINITION. Dense layers: descriptors, shards, the wire forms of a reduction and the arithmetic of a hop (R254 to R265, R269, R270). -/

namespace Sys2Proof.Machine

/-! ## Descriptors (R254) -/

/-- Whether a shard array of the descriptor is absent when it should be, or present when it should not. -/
def momentsOk (d : Bytes) : Bool :=
  (decide (dlOpt d ≥ 1) || decide (dlM1base d = 0)) && (decide (dlOpt d ≥ 2) || decide (dlM2base d = 0))

/-- The ranges and consistency of a descriptor's fields (R253, R254), the slot plan's entries apart. -/
def descOk (d : Bytes) (ndev : Nat) : Bool :=
  decide (1 ≤ dlWfmt d ∧ dlWfmt d ≤ 4) && decide (dlOpt d ≠ 3) && decide (dlRmode d ≠ 3) && decide (dlWire d ≤ 1) && decide (1 ≤ dlElems d) &&
    decide (1 ≤ dlGstride d) && decide (1 ≤ dlMarks d) && decide (dlTopk d ≤ 2048) && (decide (dlChklog d ≤ 16) || decide (dlChklog d = 31)) &&
    decide (dl d 191 183 = 0) && decide (dl d 1023 672 = 0) && decide (dlGfirst d + (dlG d - 1) * dlGstride d < ndev) &&
    ([dlGbase d, dlWbase d, dlResbase d, dlRdbase d, dlMbase d, dlM1base d, dlM2base d, dlDgbase d].all fun a => decide (a % 256 = 0)) &&
    decide (dlUprog d % 32 = 0) && decide (dlHparam d % 32 = 0) && momentsOk d &&
    !(decide (dlTopk d ≠ 0) && (decide (dlWire d = 1) || decide (dlResbase d = 0)))

/-! ## Groups and shards (R254, R256) -/

/-- The job rank of a group index, and the index of a rank. -/
def rankOfIdx (d : Bytes) (g : Nat) : Nat := dlGfirst d + g % dlG d * dlGstride d
def idxOfRank (d : Bytes) (r : Nat) : Option Nat := (List.range (dlG d)).find? fun g => decide (rankOfIdx d g = r)

/-- Indices forward and back on the ring. -/
def ringNext (d : Bytes) (g n : Nat) : Nat := (g + n) % dlG d
def ringBack (d : Bytes) (g n : Nat) : Nat := (g + dlG d - n % dlG d) % dlG d

/-- First sector and sector count of a shard. -/
def shardSectors (elems G g : Nat) : Nat × Nat :=
  let s := (elems + 7) / 8
  let q := s / G
  let rem := s % G
  (g * q + (if g < rem then g else rem), q + (if g < rem then 1 else 0))

/-- First element and length of a shard. -/
def shardFirst (d : Bytes) (g : Nat) : Nat := 8 * (shardSectors (dlElems d) (dlG d) g).1
def shardLen (d : Bytes) (g : Nat) : Nat :=
  let (f, c) := shardSectors (dlElems d) (dlG d) g
  min (8 * (f + c)) (dlElems d) - 8 * f

/-- Check blocks of a shard, and the length of one. -/
def shardBlocks (d : Bytes) (g : Nat) : Nat := ceilDiv (shardLen d g) 4096
def blockLen (d : Bytes) (g blk : Nat) : Nat := min 4096 (shardLen d g - 4096 * blk)

/-- Segments of a shard's working bytes, the bytes of one, its address, and its digest's address (R274). -/
def shardSegs (d : Bytes) (g : Nat) : Nat := ceilDiv (shardLen d g * dlSize d) 65536
def segLen (d : Bytes) (g seg : Nat) : Nat := min 65536 (shardLen d g * dlSize d - 65536 * seg)
def segAddr (d : Bytes) (g seg : Nat) : Nat := dlWbase d + shardFirst d g * dlSize d + 65536 * seg
def dgAddr (d : Bytes) (g seg : Nat) : Nat := dlDgbase d + 8 * (sumNat ((List.range g).map (shardSegs d)) + seg)
def totalSegs (d : Bytes) : Nat := sumNat ((List.range (dlG d)).map (shardSegs d))

/-- sampled() of R269. -/
def sampled (jobSeed : Word64) (layer step g blk chklog : Nat) : Bool :=
  if chklog = 31 then false
  else
    let ckey := mix (jobSeed ^^^ 0xD1B54A32D192ED03)
    let h := mix (mix (ckey ^^^ BitVec.ofNat 64 (layer * 2 ^ 32) ^^^ BitVec.ofNat 64 step) ^^^ BitVec.ofNat 64 (g * 2 ^ 32) ^^^ BitVec.ofNat 64 blk)
    decide (h.toNat % 2 ^ chklog = 0)

/-- Paths: 0 main, 1 check.  The index after this one on a path, the one before it, and the shard whose ring begins here (R260, R270). -/
def pathNext (d : Bytes) (p g : Nat) : Nat := if p = 0 then ringNext d g 1 else ringBack d g 1
def pathPrev (d : Bytes) (p g : Nat) : Nat := if p = 0 then ringBack d g 1 else ringNext d g 1
def pathStart (d : Bytes) (p g : Nat) : Nat := pathPrev d p g

/-- Wire codes of RS_DATA (R265). -/
def wireOf (d : Bytes) : Nat := if dlTopk d ≠ 0 then 2 else dlWire d

/-! ## Prepare (R259) -/

/-- Whether an FP32 code ranks above another in the choice of R259: NaN first, then the larger magnitude. -/
def ranksAbove (a b : Nat) : Bool :=
  if (f32 b).isNan then false else if (f32 a).isNan then true else Num.lt (f32 b).abs (f32 a).abs

/-- The indices kept of a check block: the `k` of largest magnitude, the lower index between equals. -/
def keepTop (k : Nat) (us : List Nat) : List Nat :=
  ((sortBy (fun (a b : Nat × Nat) => ranksAbove a.2 b.2) ((List.range us.length).map fun i => (i, us.getD i 0))).take k).map (·.1)

/-- The sent part and the residual of a check block. -/
def prepareBlock (topk : Nat) (us : List Nat) : List Nat × List Nat :=
  if topk = 0 then (us, us.map fun _ => 0)
  else
    let keep := keepTop (ceilDiv (topk * us.length) 4096) us
    let m := (List.range us.length).map fun i => (keep.contains i, us.getD i 0)
    (m.map fun p => if p.1 then p.2 else 0, m.map fun p => if p.1 then 0 else p.2)

/-! ## Wire forms (R261 to R263, R265) -/

/-- FP32 values of a byte string. -/
def f32s (n : Nat) (bs : Bytes) : List Nat := (List.range n).map fun i => leAt bs (4 * i) 4
def f32Bytes (l : List Nat) : Bytes := l.flatMap (toLe 4 ·)

/-- Element sums under RNE, with the status of the adds. -/
def addCodes (a b : List Nat) : List Nat × Nat :=
  let r := List.zipWith f32Add a b
  (r.map (·.1), r.foldl (fun st x => st ||| x.2) 0)

/-- A block sent as BS16, or escaped; the second component counts a new escape. -/
def bsPut (esc : Bool) (codes : List Nat) : Bytes × Nat :=
  if esc then (escapeBlock codes, 0)
  else
    match bs16Encode codes with
    | some b => (b, 0)
    | none => (escapeBlock codes, 1)

/-- Blocks of 32 of a list. -/
def blocks32 (l : List Nat) : List (List Nat) := (List.range (ceilDiv l.length 32)).map fun i => (l.drop (32 * i)).take 32

/-- The blocks of a BS16 body: the codes of `n` elements block by block, and whether each is escaped. -/
def bsBlocks (fuel n : Nat) (bs : Bytes) : List (List Nat × Bool) :=
  match fuel with
  | 0 => []
  | fuel + 1 =>
    if n = 0 then []
    else
      let k := min 32 n
      if bitOf (leAt bs 1 1) 0 then ((List.range k).map fun i => leAt bs (2 + 4 * i) 4, true) :: bsBlocks fuel (n - k) (bs.drop 130)
      else ((List.range k).map fun i => bs16Elem bs i, false) :: bsBlocks fuel (n - k) (bs.drop 66)

/-- A check-block record: dense, or its entries by index. -/
structure CRec where
  dense   : Bool
  entries : Tbl Nat
  deriving DecidableEq, Repr

/-- The values of a record over a block of `n` elements; an element it does not list is +0. -/
def CRec.values (r : CRec) (n : Nat) : List Nat := (List.range n).map fun i => Tbl.look r.entries i 0

def recOf (n : Nat) (bs : Bytes) : CRec :=
  if leAt bs 6 1 = 1 then { dense := true, entries := (List.range n).map fun i => (i, leAt bs (8 + 4 * i) 4) }
  else
    { dense := false, entries := (List.range (leAt bs 4 2)).foldl (fun t k =>
        let e := leAt bs (8 + 8 * k) 8
        Tbl.put t (e % 4096) (e / 2 ^ 32)) [] }

def CRec.bytes (r : CRec) (blk n : Nat) : Bytes :=
  if r.dense then toLe 4 blk ++ toLe 2 n ++ [1, 0] ++ f32Bytes (r.values n)
  else toLe 4 blk ++ toLe 2 r.entries.length ++ [0, 0] ++ r.entries.flatMap fun e => toLe 8 (e.1 + e.2 * 2 ^ 32)

/-- Own nonzero kept elements. -/
def ownEntries (own : List Nat) : Tbl Nat :=
  (List.range own.length).filterMap fun i => let c := own.getD i 0; if (f32 c).isZero then none else some (i, c)

/-- A record with a member's contribution merged (R263), with the status of the adds. -/
def CRec.merge (r : CRec) (own : List Nat) : CRec × Nat :=
  if r.dense then
    let (vs, st) := addCodes (r.values own.length) own
    ({ r with entries := (List.range own.length).map fun i => (i, vs.getD i 0) }, st)
  else
    let (t, st) := (ownEntries own).foldl (fun (a : Tbl Nat × Nat) e =>
      match Tbl.look? a.1 e.1 with
      | some v => let (c, st) := f32Add v e.2; (Tbl.put a.1 e.1 c, a.2 ||| st)
      | none => (Tbl.put a.1 e.1 e.2, a.2)) (r.entries, 0)
    ({ r with entries := t }, st)

/-- What a hop makes of a range: its body to send on, its sums, blocks newly escaped, blocks newly dense, and the adds' status. -/
structure Hop where
  body  : Bytes
  codes : List Nat
  esc   : Nat
  dense : Nat
  st    : Nat

/-- The first send of a range: the contribution alone. -/
def startRange (wire blk : Nat) (own : List Nat) : Hop :=
  match wire with
  | 0 => { body := f32Bytes own, codes := own, esc := 0, dense := 0, st := 0 }
  | 1 =>
    let r := (blocks32 own).map (bsPut false)
    { body := r.flatMap (·.1), codes := own, esc := sumNat (r.map (·.2)), dense := 0, st := 0 }
  | _ => { body := ({ dense := false, entries := ownEntries own } : CRec).bytes blk own.length, codes := own, esc := 0, dense := 0, st := 0 }

/-- A hop on the main path (R261, R263). -/
def hopRange (wire blk : Nat) (body : Bytes) (own : List Nat) : Hop :=
  let n := own.length
  match wire with
  | 0 =>
    let (cs, st) := addCodes (f32s n body) own
    { body := f32Bytes cs, codes := cs, esc := 0, dense := 0, st := st }
  | 1 =>
    let ins := bsBlocks (n + 1) n body
    let r := (List.zipWith (fun (b : List Nat × Bool) o => (addCodes b.1 o, b.2)) ins (blocks32 own))
    let outs := r.map fun x => bsPut x.2 x.1.1
    { body := outs.flatMap (·.1), codes := r.flatMap (·.1.1), esc := sumNat (outs.map (·.2)), dense := 0, st := r.foldl (fun a x => a ||| x.1.2) 0 }
  | _ =>
    let (m, st) := (recOf n body).merge own
    let full := !m.dense && decide (m.entries.length > 2048)
    let m1 : CRec := if full then { dense := true, entries := (List.range n).map fun i => (i, Tbl.look m.entries i 0) } else m
    { body := m1.bytes blk n, codes := m1.values n, esc := 0, dense := b2n full, st := st }

/-! ## The check path (R270) -/

/-- A check-path body as sums and magnitudes. -/
def checkPairs (n : Nat) (bs : Bytes) : List (Nat × Nat) := (List.range n).map fun i => (leAt bs (8 * i) 4, leAt bs (8 * i + 4) 4)
def checkBytes (l : List (Nat × Nat)) : Bytes := l.flatMap fun p => toLe 4 p.1 ++ toLe 4 p.2

/-- The first send on the check path, and a hop, with the status of its adds. -/
def startCheck (own : List Nat) : List (Nat × Nat) := own.map fun c => (c, c % 2 ^ 31)
def hopCheck (ins : List (Nat × Nat)) (own : List Nat) : List (Nat × Nat) × Nat :=
  let r := List.zipWith (fun (p : Nat × Nat) c => (f32Add p.1 c, f32Add p.2 (c % 2 ^ 31))) ins own
  (r.map fun x => (x.1.1, x.2.1), r.foldl (fun a x => a ||| x.1.2 ||| x.2.2) 0)

/-- 2^−k as an exact number. -/
def pow2neg (k : Nat) : Num := .fin false 1 1 (-(k : Int))

/-- Whether one element passes the comparison of R270; `amax` is the largest magnitude sum of its BS16 block. -/
def elemPasses (wire G a b A amax : Nat) : Bool :=
  let x := f32 a
  let y := f32 b
  if x.isNan || y.isNan then x.isNan && y.isNan
  else if Num.eq x y then true
  else if !x.isFin || !y.isFin then false
  else
    let g := Num.ofNat (G - 1)
    let t := if wire = 1 then Num.add (Num.mul (pow2neg 22) (f32 A)) (Num.mul (pow2neg 14) (f32 amax)) else Num.mul (pow2neg 22) (f32 A)
    -- a threshold that is no number bounds nothing, an infinite one passes every finite pair
    if (f32 A).isNan || (wire = 1 && (f32 amax).isNan) then false
    else if !(f32 A).isFin || (wire = 1 && !(f32 amax).isFin) then true
    else !Num.lt (Num.mul g t) (Num.add x y.neg).abs

/-- The largest magnitude sum of a list of codes. -/
def maxCode (l : List Nat) : Nat := l.foldl (fun m c => if (f32 m).isNan || (Num.lt (f32 m) (f32 c)) then c else m) 0

/-- Whether a sampled block passes. -/
def blockPasses (wire G : Nat) (main : List Nat) (chk : List (Nat × Nat)) : Bool :=
  (List.range main.length).all fun i =>
    let amax := maxCode (((chk.drop (i / 32 * 32)).take 32).map (·.2))
    elemPasses wire G (main.getD i 0) (chk.getD i (0, 0)).1 (chk.getD i (0, 0)).2 amax

end Sys2Proof.Machine
end

