-- ==== Sys2Proof/Machine/Reduce.lean ====
section
/-! DEFINITION. The Reduction Engine: the start of a step, the two rings, slots and shares, and the verdict exchange (R257 to R271, R277,
R278, R282, R303, R312). -/

namespace Sys2Proof.Machine

/-! ## Errors and layer arrays -/

/-- DTR_ERR (R283). -/
def dtrErr (cause j l step : Nat) (s : State) : State :=
  setReg Reg.DTR_ERR (cause + j * 16 + 2 ^ 10 + l * 2 ^ 16 + step % 2 ^ 32 * 2 ^ 32) s

/-- An access of a layer array to an unmapped page (R278): DTR_ERR, and the vote's bit 1. -/
def dtrAccess (j l : Nat) (s : State) : State :=
  match s.layer? j l with
  | none => s
  | some L => raiseInt blkDtr 5 (dtrErr 2 j l L.step (updLayer j l (fun L => { L with access := true, vote := L.vote ||| 2 }) s))

/-- Numeric status of dense work (R72). -/
def dtrNstat (st : Nat) (s : State) : State := orReg Reg.DTR_NSTAT st s

/-- FP32 elements of a layer array: codes and whether a sector is poisoned; an unmapped array reads as zeros and is recorded. -/
def readArr (j l a n : Nat) (s : State) : List Nat × Bool × State :=
  if n = 0 then ([], false, s)
  else
    match rangeRead j a (4 * n) s with
    | .unmapped _ s1 => (List.replicate n 0, true, dtrAccess j l s1)
    | .ok d bad s1 => (f32s n d, bad != [], s1)

/-- FP32 elements written to a layer array; `poison` says which sectors come from poisoned ones. -/
def writeArr (j l a : Nat) (cs : List Nat) (poison : Bool) (s : State) : State :=
  match rangeWriteP j a (f32Bytes cs) (fun _ => poison) s with
  | .unmapped _ s1 => dtrAccess j l s1
  | .ok _ s1 => s1

/-- The first poisoned sector of a span; none in a span that is not mapped. -/
def poisonIn (s : State) (j a n : Nat) : Option Nat :=
  if n = 0 then none
  else
    match rangeRead j a n s with
    | .ok _ bad _ => bad.head?
    | .unmapped _ _ => none

/-- Poison that this member votes for (R271, R463), with its address where it is this member's own. -/
def votePoison (j l : Nat) (bad : Bool) (at_ : Option Nat) (s : State) : State :=
  if bad then updLayer j l (fun L => { L with vote := L.vote ||| 2, poisonAt := L.poisonAt.or at_ }) s else s

/-- Where a contribution is poisoned. -/
def contribPoison (s : State) (j : Nat) (d : Bytes) (shard off n : Nat) : Option Nat :=
  poisonIn s j (dlGbase d + 4 * (shardFirst d shard + off)) (4 * n)

/-- This member's contribution to `n` elements of a shard from `off` on. -/
def contribution (j l : Nat) (d : Bytes) (shard off n : Nat) (s : State) : List Nat × Bool × State :=
  readArr j l (dlGbase d + 4 * (shardFirst d shard + off)) n s

/-! ## Draws (R281, R282): unit 0 streaming, 1 prepare, 2 comparator, 256 + a layer's key the vector draws of its piece -/

def reductionAsk (u : Nat) (s : State) : State := needDraw (8200 + u) s

/-! ## Credits (R303) -/

/-- Buffer bytes of a range on a path. -/
def rangeBuf (p : Nat) : Nat := if p = 0 then 16384 else 32768

/-- Ranges of the predecessor's that a step brings on a path. -/
def incomingRanges (s : State) (j : Nat) (L : DLayer) (p : Nat) : Nat :=
  let d := L.desc
  let seed := ((s.job? j).map fun x => BitVec.ofNat 64 x.seed).getD 0
  sumNat ((List.range (dlG d)).map fun k =>
    if k = pathStart d p L.gidx then 0
    else if p = 0 then shardBlocks d k
    else ((List.range (shardBlocks d k)).filter fun b => sampled seed (dlLayer d) L.step k b (dlChklog d)).length)

/-- Elements of a shard that travel on a path in a step. -/
def shardElems (s : State) (j : Nat) (L : DLayer) (p k : Nat) : Nat :=
  let d := L.desc
  let seed := ((s.job? j).map fun x => BitVec.ofNat 64 x.seed).getD 0
  if p = 0 then shardLen d k
  else sumNat ((List.range (shardBlocks d k)).map fun b => if sampled seed (dlLayer d) L.step k b (dlChklog d) then blockLen d k b else 0)

/-- Elements of the predecessor's that a step brings on a path. -/
def incomingElems (s : State) (j : Nat) (L : DLayer) (p : Nat) : Nat :=
  sumNat ((List.range (dlG L.desc)).map fun k => if k = pathStart L.desc p L.gidx then 0 else shardElems s j L p k)

/-- Those among them that go on to the successor: all but the own shard's. -/
def forwardElems (s : State) (j : Nat) (L : DLayer) (p : Nat) : Nat :=
  sumNat ((List.range (dlG L.desc)).map fun k => if k = pathStart L.desc p L.gidx ∨ k = L.gidx then 0 else shardElems s j L p k)

/-- Segments this device sends in a gathering: its own and those it forwards, all but the shard whose ring ends here. -/
def handedSegs (d : Bytes) (g : Nat) : Nat := if dlG d = 1 then 0 else totalSegs d - shardSegs d (ringNext d g 1)

/-- What the reduction buffer holds or has promised: granted ranges not yet arrived, and received ranges not yet sent on. -/
def bufferUsed (s : State) : Nat :=
  sumNat (s.dtr.layers.map fun x =>
    let L := x.2
    sumNat ((List.range 2).map fun p => (L.given.getD p 0 - L.taken.getD p 0) * rangeBuf p) +
      sumNat (L.out.map fun r => if r.shard = pathStart L.desc r.path L.gidx then 0 else rangeBuf r.path))

def xcreditHdr (l step p grant : Nat) : Bytes := header (toLe 2 8 ++ toLe 2 l ++ toLe 4 step ++ toLe 1 p ++ zeros 3 ++ toLe 4 grant)

/-- The grant of a path raised as far as the buffer and the window allow (DESIGN CHOICE: at most half of the free space at once). -/
def grantMore (j l p : Nat) (s : State) : State :=
  match s.layer? j l with
  | none => s
  | some L =>
    if dlG L.desc = 1 ∨ (L.phase ≠ 2 ∧ L.phase ≠ 3) then s
    else
      let open_ := L.given.getD p 0 - L.taken.getD p 0
      let elems := incomingElems s j L p - L.arrived.getD p 0
      -- ranges shorter than 4,096 elements leave more of them to come than were counted
      let left := max (incomingRanges s j L p - L.given.getD p 0) (if open_ = 0 then ceilDiv elems 4096 else 0)
      let free := 2 ^ 23 - bufferUsed s
      let n := min left (min (512 - open_) (ceilDiv free 2 / rangeBuf p))
      if n = 0 then s
      else
        let s1 := reductionAsk 0 s
        if !holds (.reduction 0) s1 then s1
        else
          let g := L.given.getD p 0 + n
          sendRank j (rankOfIdx L.desc (pathPrev L.desc p L.gidx)) 2 (xcreditHdr l L.step p g) [] {}
            (updLayer j l (fun L => { L with given := L.given.set p g }) s1)

/-- Both paths' grants. -/
def grantBoth (j l : Nat) (s : State) : State := grantMore j l 1 (grantMore j l 0 s)

/-! ## Sending in slots (R265 to R267, R270) -/

/-- Whether an earlier layer of the job still uses a collective (R266): it has ranges or segments to send, or to come and go on, or flits of theirs
have not left. -/
def collBusy (s : State) (j coll order : Nat) : Bool :=
  (s.dtr.layers.any fun x =>
    let L := x.2
    decide (x.1 / 65536 = j) && decide (L.order < order) &&
      ((decide (dlCollRs L.desc = coll) && decide (L.phase ≠ 0) &&
        (L.out != [] || (decide (L.phase ≤ 3) && (List.range 2).any fun p => decide (L.through.getD p 0 < forwardElems s j L p)))) ||
       (decide (dlCollAg L.desc = coll) &&
        (L.ag != [] || (decide (L.phase ≠ 0) && !L.ended && decide (L.handed < handedSegs L.desc L.gidx)))))) ||
    s.zor.store.any fun m =>
      match m.bound with
      | some b => decide (b.job = j) && decide (b.coll = coll) && decide (b.order < order) && decide (m.placed < m.flits)
      | none => false

/-- The key of a sampled block's range on a path, for the link that carried it (R270). -/
def crossKey (j l shard blk p : Nat) : Nat := ((layerKey j l * 2 ^ 16 + shard) * 2 ^ 20 + blk) * 2 + p

/-- A dense message of a collective put on its way: bulk traffic when the collective is 0xFFFF, else in the slot in progress, on the next
free link in turn; none when it must wait. -/
def sendColl (j rank coll order : Nat) (blk other : Option Nat) (hdr body : Bytes) (s : State) : Option State :=
  if coll = 0xFFFF then some (sendRank j rank 4 hdr body {} s)
  else if collBusy s j coll order then none
  else
    match s.job? j with
    | none => none
    | some x =>
      let b : Bound := { job := j, coll := coll, order := order, blk := blk, other := other }
      match turnLink s b (freeLinks s b (x.addrOf rank) (msgFlits (hdr.length + body.length))) with
      | none => none
      | some l => some (sendRank j rank 1 hdr body { bound := some b, link := some l } (takeLink b l s))

def rsHdr (l step shard src wire p poison off cnt : Nat) : Bytes :=
  header (toLe 2 0x60 ++ toLe 2 l ++ toLe 4 step ++ toLe 2 shard ++ toLe 2 src ++ toLe 1 wire ++ toLe 1 p ++ toLe 1 poison ++ [0] ++ toLe 4 off ++ toLe 4 cnt)
def agHdr (l step shard src seg digest len refetch : Nat) : Bytes :=
  header (toLe 2 0x61 ++ toLe 2 l ++ toLe 4 step ++ toLe 2 shard ++ toLe 2 src ++ toLe 4 seg ++ toLe 8 digest ++ toLe 4 len ++ toLe 1 refetch)

/-- The blocks of a shard that are sampled in a step (R269). -/
def sampledBlock (s : State) (j : Nat) (L : DLayer) (k b : Nat) : Bool :=
  sampled (((s.job? j).map fun x => BitVec.ofNat 64 x.seed).getD 0) (dlLayer L.desc) L.step k b (dlChklog L.desc)

/-- The ready ranges of a layer sent, in order, within the grants. -/
def sendRanges (j l : Nat) (L : DLayer) (s : State) : State :=
  L.out.foldl (fun s r =>
    match s.layer? j l with
    | none => s
    | some L1 =>
      if L1.sent.getD r.path 0 ≥ L1.grant.getD r.path 0 then s
      else
        let blk := r.off / 4096
        let key := fun (p : Nat) => if sampledBlock s j L r.shard blk then some (crossKey j l r.shard blk p) else none
        match sendColl j (rankOfIdx L.desc (pathNext L.desc r.path L.gidx)) (dlCollRs L.desc) L.order (key r.path) (key (1 - r.path))
            (rsHdr l L.step r.shard L.gidx r.wire r.path (b2n r.poison) r.off r.count) r.body s with
        | none => s
        | some s1 =>
          count Reg.DTR_RSBYTES 64 r.body.length (updLayer j l (fun L => { L with out := L.out.erase r, sent := L.sent.set r.path (L.sent.getD r.path 0 + 1) }) s1)) s

/-- The waiting segments of a layer sent. -/
def sendSegs (j l : Nat) (L : DLayer) (s : State) : State :=
  L.ag.foldl (fun s a =>
    match sendColl j (rankOfIdx L.desc (ringNext L.desc L.gidx 1)) (dlCollAg L.desc) L.order none none a.hdr a.body s with
    | none => s
    | some s1 => count Reg.DTR_AGBYTES 64 a.body.length (updLayer j l (fun L => { L with ag := L.ag.erase a }) s1)) s

/-- What a layer has ready goes out while the engine holds its streaming draw (R282). -/
def densePump (j l : Nat) (s : State) : State :=
  match s.layer? j l with
  | none => s
  | some L =>
    if (L.out.isEmpty && L.ag.isEmpty) || !denseOn s j || !jobSends s j then s
    else
      let s1 := reductionAsk 0 s
      if !holds (.reduction 0) s1 then s1
      else
        let s2 := sendRanges j l L s1
        grantBoth j l (sendSegs j l L s2)

/-! ## Skipped steps and READY (R276, R277) -/

/-- READY: the step number rises, the layer waits for markers, the semaphore is signalled. -/
def readyLayer (j l : Nat) (skip : Bool) (s : State) : State :=
  match s.layer? j l with
  | none => s
  | some L =>
    let s1 := updLayer j l (fun L => { L with
      step := (L.step + 1) % 2 ^ 32, phase := 0, lastSkip := skip, out := [], sent := [0, 0], grant := L.grantNext, grantNext := [0, 0],
      taken := [0, 0], given := [0, 0], arrived := [0, 0], through := [0, 0], handed := 0, ended := false, owned := [], samples := [], vote := 0, failBlk := none, votes := 0, round := 0,
      sentRounds := 0, early := L.early.filter fun e => decide (e.1 ≠ L.step), poisonAt := none, access := false, next := 0, running := none, segs := [], fetch := [], progress := s.clk.fnum,
      stalled := false }) s
    let s1 := { s1 with zor := { s1.zor with crossed := s1.zor.crossed.filter fun p => decide (p.1 / 2 ^ 37 ≠ layerKey j l) } }
    let s2 := if dlRsen L.desc then semUp (dlRtile L.desc) { key := semKey j (dlRsem L.desc), st := 4, blocks := false, cid := 0, tok := none } s1 else s1
    dlxProgress j 1 l L.step s2

/-- GBASE added into RESBASE for the whole layer (R277). -/
def keepResidual (j l : Nat) (d : Bytes) (s : State) : State :=
  (List.range (ceilDiv (dlElems d) 4096)).foldl (fun s b =>
    let n := min 4096 (dlElems d - 4096 * b)
    let (g, p1, s1) := readArr j l (dlGbase d + 16384 * b) n s
    let (r, p2, s2) := readArr j l (dlResbase d + 16384 * b) n s1
    let (cs, st) := addCodes g r
    writeArr j l (dlResbase d + 16384 * b) cs (p1 || p2) (dtrNstat st s2)) s

/-- ARG0 of the dense faults. -/
def denseArg (l step : Nat) : Nat := l + step % 2 ^ 32 * 65536

/-- A step skipped (R277). -/
def skipStep (j l : Nat) (s : State) : State :=
  match s.layer? j l with
  | none => s
  | some L =>
    let d := L.desc
    let s1 := if dlResbase d ≠ 0 then keepResidual j l d s else s
    let s2 := match L.failBlk with
      | some b => dtrErr 3 j l L.step (fault { code := 0x0040, job := some j, arg0 := denseArg l L.step, arg1 := b } s1)
      | none => s1
    let s3 :=
      if L.vote / 2 % 2 = 1 then
        let s3 := fault { code := 0x0041, job := some j, addr := L.poisonAt.getD 0, arg0 := denseArg l L.step } s2
        if L.access then s3 else dtrErr 4 j l L.step s3
      else s2
    readyLayer j l true (raiseInt blkDtr 2 (count Reg.DTR_SKIPPED 32 1 s3))

/-- READY when every segment of every shard is here (R276). -/
def checkReady (j l : Nat) (s : State) : State :=
  match s.layer? j l with
  | some L => if L.phase = 5 ∧ L.segs.length ≥ totalSegs L.desc then readyLayer j l false s else s
  | none => s

/-! ## The verdict (R271) -/

def verdictHdr (l step g round result : Nat) : Bytes :=
  header (toLe 2 0x62 ++ toLe 2 l ++ toLe 4 step ++ toLe 2 g ++ toLe 2 g ++ toLe 1 round ++ toLe 1 result)

/-- Rounds of the exchange: ceil(log2 G). -/
def rounds (G : Nat) : Nat := if G ≤ 1 then 0 else Nat.log2 (G - 1) + 1

/-- The outcome of the exchange: the update, the gathering, or a skipped step. -/
def verdictKnown (j l : Nat) (s : State) : State :=
  match s.layer? j l with
  | none => s
  | some L =>
    if L.votes ≠ 0 then skipStep j l s
    else
      checkReady j l (updLayer j l (fun L => { L with
        phase := if shardLen L.desc L.gidx = 0 then 5 else 4, gatherAt := s.clk.fnum, progress := s.clk.fnum, stalled := false, next := 0 }) s)

/-- The VERDICT of the round in progress sent, once. -/
def sendVerdict (j l : Nat) (s : State) : State :=
  match s.layer? j l with
  | none => s
  | some L =>
    if L.sentRounds > L.round then s
    else
      let s1 := reductionAsk 0 s
      if !holds (.reduction 0) s1 then s1
      else
        sendRank j (rankOfIdx L.desc (ringNext L.desc L.gidx (2 ^ L.round))) 4 (verdictHdr l L.step L.gidx L.round L.votes) [] {}
          (updLayer j l (fun L => { L with sentRounds := L.round + 1 }) s1)

/-- Rounds go on with the verdicts already here (`fuel` bounds the rounds left). -/
def takeVerdicts (fuel j l : Nat) (s : State) : State :=
  match fuel with
  | 0 => s
  | fuel + 1 =>
    match s.layer? j l with
    | none => s
    | some L =>
      if L.phase ≠ 3 then s
      else if L.round ≥ rounds (dlG L.desc) then verdictKnown j l s
      else
        let s1 := sendVerdict j l s
        match L.early.find? fun e => decide (e.1 = L.step) && decide (e.2.1 = L.round) && ((s1.layer? j l).any fun y => decide (y.sentRounds > L.round)) with
        | none => s1
        | some e =>
          takeVerdicts fuel j l (updLayer j l (fun L => { L with
            early := L.early.erase e, votes := L.votes ||| e.2.2, round := L.round + 1, progress := s.clk.fnum, stalled := false }) s1)

/-- The exchange of a layer goes on while dense work does (R24, R278). -/
def votePump (j l : Nat) (s : State) : State :=
  match s.layer? j l with
  | some L => if L.phase = 3 && denseOn s j && jobSends s j then powered (takeVerdicts 18 j l) s else s
  | none => s

/-- Every layer looked at, in the order in which their steps started. -/
def densePumpAll (s : State) : State :=
  (sortBy (fun (a b : Nat × DLayer) => decide (a.2.order < b.2.order)) s.dtr.layers).foldl
    (fun s x => votePump (x.1 / 65536) (x.1 % 65536) (densePump (x.1 / 65536) (x.1 % 65536) s)) (pump (relink s))

/-- A slot of the work window begins (R38, R41, R267): the shares of the links begin anew, ranges none of whose flits has left give up the
links of the slot before, and what is ready goes once the guard is over. -/
def slotStart (slot : Nat) (s : State) : State :=
  densePumpAll (unlink { s with
    dtr := { s.dtr with slot := some (s.clk.fnum, slot) }
    zor := { s.zor with ports := Tbl.mapv s.zor.ports fun _ x => { x with share := [] } } })

/-- The first poison in the owner's master, moments or working segments, which votes bit 1 (R463). -/
def ownPoison (s : State) (j : Nat) (L : DLayer) : Option Nat :=
  let d := L.desc
  let n := shardLen d L.gidx
  (((poisonIn s j (dlMbase d) (4 * n)).or (if dlOpt d ≥ 1 then poisonIn s j (dlM1base d) (4 * n) else none)).or
    (if dlOpt d ≥ 2 then poisonIn s j (dlM2base d) (4 * n) else none)).or (poisonIn s j (segAddr d L.gidx 0) (n * dlSize d))

/-- The owner's shard is whole and every sampled block of it compared. -/
def shardWhole (L : DLayer) : Bool := decide (sumNat (L.owned.map (·.2)) ≥ shardLen L.desc L.gidx) && L.samples == []

/-- VERDICT_EXCHANGE_START (R271). -/
def execVerdictExchangeStart (job : Fin 64) (layer : BitVec 16) (s : State) : Out :=
  match s.layer? job layer.toNat with
  | none => .next s
  | some L =>
    whenP (.verdictExchangeStart job layer) (denseOn s job && decide (L.phase = 2) && shardWhole L) (fun s =>
      let l := layer.toNat
      let p := ownPoison s job L
      takeVerdicts 18 job l (updLayer job l (fun L => { L with
        phase := 3, votes := L.vote, round := 0, sentRounds := 0, progress := s.clk.fnum, stalled := false })
        (votePoison job l p.isSome p s))) s

/-- VERDICT (R271, R294): it is kept, and the exchange goes on unless dense work is stopped (R278). -/
def execVerdict (m : Msg) (s : State) : Out :=
  receive (.verdict m) 0x62 m (fun m => some [leAt m.hdr 2 2, leAt m.hdr 4 4, m.src.toNat, leAt m.hdr 12 1]) (fun j r m s =>
    let l := leAt m.hdr 2 2
    match s.layer? j l with
    | none => badMsg s
    | some L =>
      let round := leAt m.hdr 12 1
      if idxOfRank L.desc r ≠ some (ringBack L.desc L.gidx (2 ^ round)) ∨ round ≥ rounds (dlG L.desc) then badMsg s
      else
        let s1 := updLayer j l (fun L => { L with early := L.early ++ [(leAt m.hdr 4 4, round, leAt m.hdr 13 1 % 4)] }) s
        if denseOn s j then takeVerdicts 18 j l s1 else s1) s

/-! ## Comparison (R270) -/

/-- A block's main-path result, once `n` elements of it are here. -/
def Sample.whole (x : Sample) (n : Nat) : Option (List Nat) :=
  let l := (sortBy (fun (a b : Nat × List Nat) => decide (a.1 < b.1)) x.main).flatMap (·.2)
  if l.length ≥ n then some l else none

/-- A sampled block compared once both paths are here. -/
def compareBlock (j l : Nat) (x : Sample) (s : State) : State :=
  match (s.layer? j l).bind fun L => x.whole (blockLen L.desc L.gidx x.blk), x.check, s.layer? j l with
  | some a, some b, some L =>
    let ok := blockPasses (wireOf L.desc) (dlG L.desc) a b
    let s1 := count Reg.DTR_SAMPLED 32 1 (reductionAsk 2 (updLayer j l (fun L => { L with samples := L.samples.filter fun y => decide (y.blk ≠ x.blk) }) s))
    if ok then s1
    else
      raiseInt blkDtr 1 (count Reg.DTR_MISMATCH 32 1 (updLayer j l (fun L => { L with
        vote := L.vote ||| 1, failBlk := some (match L.failBlk with | some y => min y x.blk | none => x.blk) }) s1))
  | _, _, _ => s

/-- A path's result noted for a sampled block. -/
def noteSample (j l blk : Nat) (f : Sample → Sample) (s : State) : State :=
  let s1 := updLayer j l (fun L => { L with samples := L.samples.map fun x => if x.blk = blk then f x else x }) s
  match (s1.layer? j l).bind fun L => L.samples.find? fun x => decide (x.blk = blk) with
  | some x => compareBlock j l x s1
  | none => s1

/-! ## The start of a step (R257, R259, R260) -/

/-- The prepare pass over one check block. -/
def prepare1 (j l : Nat) (d : Bytes) (shard blk : Nat) (s : State) : State :=
  let e := shardFirst d shard + 4096 * blk
  let n := blockLen d shard blk
  let (g, p1, s1) := readArr j l (dlGbase d + 4 * e) n s
  let (r, p2, s2) := readArr j l (dlResbase d + 4 * e) n s1
  let (us, st) := addCodes g r
  let (sp, rp) := prepareBlock (dlTopk d) us
  writeArr j l (dlResbase d + 4 * e) rp (p1 || p2) (writeArr j l (dlGbase d + 4 * e) sp (p1 || p2) (dtrNstat st s2))

/-- The prepare pass over the layer. -/
def preparePass (j l : Nat) (d : Bytes) (s : State) : State :=
  (List.range (dlG d)).foldl (fun s k => (List.range (shardBlocks d k)).foldl (fun s b => prepare1 j l d k b s) s) s

/-- A range of the shard whose ring begins here made ready on a path. -/
def beginRange (j l p : Nat) (L : DLayer) (blk : Nat) (s : State) : State :=
  let d := L.desc
  let k := pathStart d p L.gidx
  let (own, bad, s1) := contribution j l d k (4096 * blk) (blockLen d k blk) s
  let h := startRange (wireOf d) blk own
  let r : RRange :=
    { shard := k, path := p, off := 4096 * blk, count := own.length, wire := if p = 0 then wireOf d else 0, poison := bad,
      body := if p = 0 then h.body else checkBytes (startCheck own) }
  count Reg.DTR_ESCAPE 32 (if p = 0 then h.esc else 0) (updLayer j l (fun L => { L with out := L.out ++ [r] }) s1)

/-- A group of one member writes its contribution to RDBASE. -/
def ownWhole (j l : Nat) (L : DLayer) (s : State) : State :=
  (List.range (shardBlocks L.desc L.gidx)).foldl (fun s b =>
    let (own, bad, s1) := contribution j l L.desc L.gidx (4096 * b) (blockLen L.desc L.gidx b) s
    let s2 := writeArr j l (dlRdbase L.desc + 16384 * b) own bad s1
    updLayer j l (fun L => { L with owned := L.owned ++ [(4096 * b, own.length)] })
      (votePoison j l bad (contribPoison s j L.desc L.gidx (4096 * b) (blockLen L.desc L.gidx b)) s2)) s

/-- The blocks of a shard that are sampled in a step. -/
def sampledBlocks (s : State) (j : Nat) (L : DLayer) (k : Nat) : List Nat :=
  (List.range (shardBlocks L.desc k)).filter fun b => sampledBlock s j L k b

/-- The ranges whose rings begin here, and the grants to both predecessors. -/
def beginRings (j l : Nat) (s : State) : State :=
  match s.layer? j l with
  | none => s
  | some L =>
    if dlG L.desc = 1 then ownWhole j l L s
    else
      let s1 := updLayer j l (fun L => { L with samples := (sampledBlocks s j L L.gidx).map fun b => { blk := b, main := [], check := none } }) s
      let s2 := (List.range (shardBlocks L.desc (pathStart L.desc 0 L.gidx))).foldl (fun s b => beginRange j l 0 L b s) s1
      let s3 := (sampledBlocks s2 j L (pathStart L.desc 1 L.gidx)).foldl (fun s b => beginRange j l 1 L b s) s2
      densePump j l (grantBoth j l s3)

/-- DENSE_STEP_START (R257, R259, R282): the contribution is complete; a layer with a residual runs its prepare pass.  While a draw of the
start is pending, the step does not start. -/
def execDenseStepStart (job : Fin 64) (layer : BitVec 16) (s : State) : Out :=
  let l := layer.toNat
  match s.layer? job l with
  | none => .next s
  | some L =>
    let d := L.desc
    whenP (.denseStepStart job layer) (denseOn s job && !duskBegun s && decide (L.phase = 0) && decide (L.marks ≥ dlMarks d)) (fun s =>
      let s1 := updLayer job l (fun L => { L with
        phase := 2, marks := L.marks - dlMarks d, order := s.dtr.nextOrder, progress := s.clk.fnum, stalled := false, segs := [] })
        { s with dtr := { s.dtr with nextOrder := s.dtr.nextOrder + 1 } }
      beginRings job l (if dlResbase d = 0 then s1 else preparePass job l d (reductionAsk 1 s1))) s

/-! ## Ranges and credits received (R268, R303, R312) -/

/-- The part of a range that lies in a block, by its first element within the block. -/
def blockPart (off : Nat) (codes : List Nat) (b : Nat) : Nat × List Nat :=
  let lo := max off (4096 * b)
  (lo - 4096 * b, (codes.drop (lo - off)).take (4096 * (b + 1) - lo))

/-- A main-path range arrived: forwarded with this member's contribution, or written by its owner. -/
def takeMain (j l : Nat) (L : DLayer) (shard off n : Nat) (poison : Bool) (body : Bytes) (s : State) : State :=
  let d := L.desc
  let (own, bad, s1) := contribution j l d shard off n s
  let h := hopRange (wireOf d) (off / 4096) body own
  let s2 := dtrNstat h.st s1
  let p := poison || bad
  if shard = L.gidx then
    let s3 := updLayer j l (fun L => { L with owned := L.owned ++ [(off, n)] })
      (votePoison j l p (contribPoison s j d shard off n) (writeArr j l (dlRdbase d + 4 * off) h.codes p s2))
    let first := off / 4096
    (List.range ((off + n - 1) / 4096 + 1 - first)).foldl (fun s i =>
      noteSample j l (first + i) (fun x => { x with main := x.main ++ [blockPart off h.codes (first + i)] }) s) s3
  else
    let r : RRange := { shard := shard, path := 0, off := off, count := own.length, wire := wireOf d, poison := p, body := h.body }
    count Reg.DTR_DENSIFY 32 h.dense (count Reg.DTR_ESCAPE 32 h.esc (updLayer j l (fun L => { L with out := L.out ++ [r] }) s2))

/-- A check-path range arrived. -/
def takeCheck (j l : Nat) (L : DLayer) (shard blk : Nat) (poison : Bool) (body : Bytes) (s : State) : State :=
  let d := L.desc
  let (own, bad, s1) := contribution j l d shard (4096 * blk) (blockLen d shard blk) s
  let (ps, st) := hopCheck (checkPairs own.length body) own
  let s2 := dtrNstat st s1
  let p := poison || bad
  if shard = L.gidx then
    noteSample j l blk (fun x => { x with check := some ps })
      (votePoison j l p (contribPoison s j d shard (4096 * blk) (blockLen d shard blk)) s2)
  else
    let r : RRange := { shard := shard, path := 1, off := 4096 * blk, count := own.length, wire := 0, poison := p, body := checkBytes ps }
    updLayer j l (fun L => { L with out := L.out ++ [r] }) s2

/-- Whether a range has a form R265 allows: of up to 4,096 elements within its shard, of a wire's step and, for records and the check path,
a whole check block; an owner has none of its elements yet. -/
def rangeFits (L : DLayer) (shard p wire off n : Nat) : Bool :=
  let d := L.desc
  let step := if p = 1 ∨ wireOf d = 2 then 4096 else if wireOf d = 1 then 32 else 1
  let stop := shardLen d shard
  decide (p ≤ 1) && decide (shard < dlG d) && decide (shard ≠ pathStart d p L.gidx) && (decide (p = 1) || decide (wire = wireOf d)) &&
    decide (1 ≤ n ∧ n ≤ 4096) && decide (off + n ≤ stop) && decide (off % step = 0) &&
    (if step = 4096 then decide (n = blockLen d shard (off / 4096)) else decide (n % step = 0) || decide (off + n = stop)) &&
    !(decide (p = 0) && decide (shard = L.gidx) && L.owned.any fun o => decide (o.1 < off + n ∧ off < o.1 + o.2))

/-- RS_DATA (R268, R303, R312): accepted from the ring predecessor, for the step in progress, within the grant. -/
def execRsData (m : Msg) (s : State) : Out :=
  receive (.rsData m) 0x60 m (fun _ => none) (fun j r m s =>
    let l := leAt m.hdr 2 2
    match s.layer? j l with
    | none => badMsg s
    | some L =>
      let d := L.desc
      let shard := leAt m.hdr 8 2
      let p := leAt m.hdr 13 1
      let off := leAt m.hdr 16 4
      let n := leAt m.hdr 20 4
      let fits := rangeFits L shard p (leAt m.hdr 12 1) off n
      let turn := (decide (L.phase = 2) || decide (L.phase = 3)) && decide (leAt m.hdr 4 4 = L.step) && decide (idxOfRank d r = some (pathPrev d p L.gidx))
      match takeIdent j 0x60 [l, leAt m.hdr 4 4, shard, m.src.toNat, p, off] s with
      | none => count Reg.ZOR_DUP 32 1 s
      | some s0 =>
        if !fits || !turn || decide (L.taken.getD p 0 ≥ L.given.getD p 0) then badMsg s
        else
            let on := if shard = L.gidx then 0 else n
            let s1 := updLayer j l (fun L => { L with
              taken := L.taken.set p (L.taken.getD p 0 + 1), arrived := L.arrived.set p (L.arrived.getD p 0 + n),
              through := L.through.set p (L.through.getD p 0 + on), progress := s.clk.fnum, stalled := false }) (reductionAsk 0 s0)
            let poison := decide (leAt m.hdr 14 1 = 1)
            let s2 := if p = 0 then takeMain j l L shard off n poison m.body s1 else takeCheck j l L shard (off / 4096) poison m.body s1
            densePump j l (grantBoth j l s2)) s

/-- XCREDIT (R303): the ring successor's cumulative grant, for the step in progress or the next. -/
def execXcredit (m : Msg) (s : State) : Out :=
  receive (.xcredit m) 0x08 m (fun _ => none) (fun j r m s =>
    let l := leAt m.hdr 2 2
    match s.layer? j l with
    | none => badMsg s
    | some L =>
      let p := leAt m.hdr 8 1
      let step := leAt m.hdr 4 4
      let n := leAt m.hdr 12 4
      if p > 1 ∨ idxOfRank L.desc r ≠ some (pathNext L.desc p L.gidx) then badMsg s
      else if step = L.step then densePump j l (updLayer j l (fun L => { L with grant := L.grant.set p (max n (L.grant.getD p 0)) }) s)
      else if step = (L.step + 1) % 2 ^ 32 then updLayer j l (fun L => { L with grantNext := L.grantNext.set p (max n (L.grantNext.getD p 0)) }) s
      else s) s

/-! ## Stalls and draws (R278, R282) -/

/-- COLLECTIVE_STALL (R278): TIMEOUT frames without progress; it is reported once and the layer goes on waiting. -/
def execCollectiveStall (job : Fin 64) (layer : BitVec 16) (s : State) : Out :=
  let l := layer.toNat
  match s.layer? job l with
  | none => .next s
  | some L =>
    when (s.clocked && !s.lost && decide (L.phase ≠ 0) && !L.stalled && decide (s.clk.fnum ≥ L.progress + regField s Reg.DTR_CFG 7 0)) (fun s =>
      raiseInt blkDtr 3 (dtrErr 5 job l L.step (fault { code := 0x0042, job := some job.val, arg0 := denseArg l L.step, arg1 := if L.access then 6 else L.phase }
        (updLayer job l (fun L => { L with stalled := true }) s)))) s

/-- Whether a unit of the Reduction Engine has work that waits. -/
def reductionBusy (s : State) (u : Nat) : Bool := decide (u = 0) && s.dtr.layers.any fun x => x.2.out != [] || x.2.ag != []

end Sys2Proof.Machine
end

