-- ==== Sys2Proof/Machine/Dense.lean ====
section
/-! DEFINITION. Dense layers: their creation, markers, the owner update, the all-gather, refetches and the digest samples (R215 to R217,
R253, R257, R272 to R276, R279, R280). -/

namespace Sys2Proof.Machine

/-! ## DENSE_CREATE (R253, R273, R279, R280) -/

/-- The output and input streams of a chain descriptor that name a role. -/
def roleStreams (d : Bytes) (out : Bool) (role : Nat) : List Strm :=
  ((List.range 8).map (strmOf d)).filter fun x => x.en && (x.out == out) && decide (x.role = role)

/-- The derivation rule of R273. -/
def progDerives (hdr : Bytes) (descs : List Bytes) (d : Bytes) : Bool :=
  let reads := descs.any fun c => roleStreams c false 6 != []
  let addp := bitOf (leAt hdr 0 4) 14
  let bound := bitOf (bits (leAt hdr 0 4) 13 6) 5 || descs.any fun c => roleStreams c true 6 != []
  let writes := descs.all fun c =>
    (roleStreams c true 6).all fun w =>
      decide (w.fmt = dlWfmt d) && decide (w.rmode = dlRmode d) && (w.sat == dlSat d) && (roleStreams c true 2).any fun p => decide (p.reg = w.reg)
  !reads && (if bound then !addp && writes && (descs.any fun c => roleStreams c true 6 != []) else true)

/-- Whether a layer's program obeys it; a program that cannot be read does not. -/
def programOk (s : State) (j : Nat) (d : Bytes) : Bool :=
  match peek s j (dlUprog d) 64 with
  | none => false
  | some hdr =>
    let n := bits (leAt hdr 0 4) 1 0 + 1
    match peek s j (dlUprog d + 64) (256 * n) with
    | none => false
    | some b => progDerives hdr ((List.range n).map fun i => slice b (256 * i) 256) d

/-- A layer's memory need on this device (R280). -/
def layerNeed (d : Bytes) (g : Nat) : Nat :=
  dlElems d * (8 + dlSize d + (if dlResbase d ≠ 0 then 4 else 0)) + shardLen d g * 4 * (2 + dlOpt d) + 8 * totalSegs d

/-- INFLIGHT × ACTBYTES of this device's stage (R279). -/
def actStore (x : Job) : Nat :=
  match x.stageTab[x.stage]? with
  | some e => (if e.inflight = 0 then x.nstages - x.stage else e.inflight) * e.actBytes
  | none => 0

/-- Whether a layer lies in this device's stage; a job without a stage table has none. -/
def inStage (x : Job) (l : Nat) : Bool :=
  match x.stageTab with
  | [] => true
  | _ => match x.stageTab[x.stage]? with
    | some e => decide (e.first ≤ l ∧ l < e.first + e.count)
    | none => false

def jobLayers (s : State) (j : Nat) : List DLayer := s.dtr.layers.filterMap fun x => if x.1 / 65536 = j then some x.2 else none

/-- Whether a collective has an entry in a job's slot plan. -/
def inPlan (x : Job) (coll : Nat) : Bool := decide (coll = 0xFFFF) || x.slots.any fun e => decide (e.coll = coll)

/-- The first refusal of R253, in the order of its table. -/
def denseRefusal (s : State) (j : Nat) (x : Job) (d : Bytes) : Option Nat :=
  let l := dlLayer d
  let mine := jobLayers s j
  match idxOfRank d x.rank with
  | g =>
    if (s.layer? j l).isSome then some St.DTR_EXISTS
    else if mine.length ≥ 4096 ∨ s.dtr.layers.length ≥ 16384 then some St.DTR_LIMIT
    else if !descOk d x.ndev || g.isNone || !inPlan x (dlCollRs d) || !inPlan x (dlCollAg d) then some St.DTR_BADDESC
    else if !programOk s j d then some St.DTR_BADPROG
    else if s.dtr.frozen.contains j then some St.DTR_FROZEN
    else if !inStage x l then some St.DTR_STAGE
    else if actStore x + layerNeed d (g.getD 0) + sumNat (mine.map fun L => layerNeed L.desc L.gidx) > x.ceil * pageBytes then some St.DTR_STAGEMEM
    else none

/-- DENSE_CREATE (R253). -/
def execDenseCreate (q : Fin 128) (s : State) : Out :=
  runJobNow q Op.DENSE_CREATE (fun c s =>
    let d := c.opndBytes 0 128
    match s.job? c.job with
    | none => (St.BADJOB, 0, s)
    | some x =>
      match denseRefusal s c.job x d with
      | some st => (st, 0, s)
      | none =>
        let g := (idxOfRank d x.rank).getD 0
        (St.OK, 0, { s with dtr := { s.dtr with layers := Tbl.put s.dtr.layers (layerKey c.job (dlLayer d)) (DLayer.init d g) } })) s

/-! ## Markers (R99, R255, R257) -/

/-- Whether a deferred block of a layer still waits or runs on a tile, the saved states of other commands included. -/
def deferredLeft (s : State) (t j l : Nat) : Bool :=
  let x := s.tile t
  let mine := fun (b : DefBlock) => decide (b.job = j) && decide (b.layer = l)
  x.defq.any mine || (match x.defRun with | some r => mine r.blk | none => false) ||
    s.savedSeqs.any fun p => p.2.defq.any mine || (match p.2.defRun with | some r => mine r.blk | none => false)

/-- A marker counted for its layer (R257). -/
def countMark (j l : Nat) (s : State) : State :=
  match s.layer? j l with
  | none => raiseInt blkDtr 0 (dtrErr 1 j l 0 s)
  | some _ =>
    let s1 := updLayer j l (fun L => { L with marks := satTo 16 (L.marks + 1) }) s
    if s1.dtr.frozen.contains j then s1 else { s1 with dtr := { s1.dtr with frozen := s1.dtr.frozen ++ [j] } }

/-- LMARK_DELIVERED (R99, R257): the oldest held marker of the layer whose deferred blocks have all run reaches the Reduction Engine. -/
def execLmarkDelivered (job : Fin 64) (layer : BitVec 16) (s : State) : Out :=
  let j := job.val
  let l := layer.toNat
  match s.tiles.find? fun p => p.2.lmarks.contains (j, l) && !deferredLeft s p.1 j l with
  | none => .next s
  | some (t, _) => when s.clocked (fun s => countMark j l (updTile t (fun x => { x with lmarks := x.lmarks.erase (j, l) }) s)) s

/-! ## The all-gather (R274, R275) -/

/-- A segment's key among those of a layer. -/
def segKey (shard seg : Nat) : Nat := shard * 2 ^ 32 + seg

/-- A segment of a step here with its digest: DGBASE takes the digest, and READY may follow. -/
def segHere (j l shard seg step digest : Nat) (current : Bool) (s : State) : State :=
  match s.layer? j l with
  | none => s
  | some L =>
    let s1 := match rangeWrite j (dgAddr L.desc shard seg) (toLe 8 digest) s with
      | .ok _ s1 => s1
      | .unmapped _ s1 => dtrAccess j l s1
    let add := fun (x : List (Nat × Nat)) => if x.contains (shard, seg) then x else x ++ [(shard, seg)]
    updLayer j l (fun L => { L with
      segs := if current then add L.segs else L.segs, known := add L.known, bytes := Tbl.put L.bytes (segKey shard seg) step, fetch := L.fetch.filter (· ≠ (shard, seg)), progress := s.clk.fnum,
      stalled := false }) s1

/-- The step whose bytes a segment of the working copy holds (R265): the last one in which it was written, a skipped step being none.  Before
any was, the last completed one (DESIGN CHOICE, log 132). -/
def segStep (L : DLayer) (shard seg : Nat) : Nat := (Tbl.look? L.bytes (segKey shard seg)).getD ((L.step + 2 ^ 32 - 1) % 2 ^ 32)

/-- SEG_FETCH to the owner of a shard: STEP is that of the bytes held here. -/
def segFetch (j l shard seg : Nat) (s0 : State) : State :=
  let s := reductionAsk 0 s0
  match s.layer? j l with
  | none => s
  | some L =>
    let hdr := header (toLe 2 0x63 ++ toLe 2 l ++ toLe 4 (segStep L shard seg) ++ toLe 2 shard ++ toLe 2 L.gidx ++ toLe 4 seg)
    count Reg.DTR_REFETCH 32 1 (sendRank j (rankOfIdx L.desc shard) 3 hdr [] {}
      (updLayer j l (fun L => { L with fetch := if L.fetch.contains (shard, seg) then L.fetch else L.fetch ++ [(shard, seg)] }) s))

/-- A dense segment found wrong (R217, R275). -/
def segMismatch (j l shard seg : Nat) (s : State) : State :=
  match s.layer? j l with
  | none => s
  | some L =>
    let s1 := fault { code := 0x0031, job := some j, inst := l, addr := segAddr L.desc shard seg, arg0 := l, arg1 := seg }
      (raiseInt blkEmb 2 (count Reg.EMB_MISMATCH 32 1 s))
    segFetch j l shard seg s1

/-- The owner's segment handed to the all-gather: its digest is taken over the bytes read for sending. -/
def ownSegment (j l seg : Nat) (s : State) : State :=
  match s.layer? j l with
  | none => s
  | some L =>
    let d := L.desc
    match rangeRead j (segAddr d L.gidx seg) (segLen d L.gidx seg) s with
    | .unmapped _ s1 => dtrAccess j l s1
    | .ok b _ s1 =>
      let dig := crc64 b
      let s2 := if dlG d = 1 || L.ended then s1
        else updLayer j l (fun L => { L with handed := L.handed + 1, ag := L.ag ++ [{ step := L.step, shard := L.gidx, seg := seg, digest := dig, body := b, hdr := agHdr l L.step L.gidx L.gidx seg dig b.length 0 }] }) s1
      segHere j l L.gidx seg L.step dig true s2

/-- AG_DATA (R274, R275, R452): the digest is checked, the segment written, its digest recorded, and a segment of the ring forwarded. -/
def execAgData (m : Msg) (s : State) : Out :=
  receive (.agData m) 0x61 m (fun m => some [leAt m.hdr 2 2, leAt m.hdr 4 4, leAt m.hdr 8 2, leAt m.hdr 12 4, leAt m.hdr 28 1]) (fun j r m s =>
    let l := leAt m.hdr 2 2
    match s.layer? j l with
    | none => badMsg s
    | some L =>
      let d := L.desc
      let step := leAt m.hdr 4 4
      let shard := leAt m.hdr 8 2
      let seg := leAt m.hdr 12 4
      let ref := decide (leAt m.hdr 28 1 = 1)
      let b := slice m.body 0 (leAt m.hdr 24 4)
      let running := decide (L.phase ≥ 2) && decide (step = L.step) && !L.ended
      let owner := decide (idxOfRank d r = some shard)
      let ok := decide (shard < dlG d) && decide (shard ≠ L.gidx) && decide (seg < shardSegs d shard) && decide (b.length = segLen d shard seg) &&
        (if ref then L.fetch.contains (shard, seg) || (owner && decide (step = L.step)) else running && decide (idxOfRank d r = some (ringBack d L.gidx 1)))
      if !ok then badMsg s
      else if crc64 b ≠ leAt m.hdr 16 8 then segMismatch j l shard seg s
      else
        match rangeWrite j (segAddr d shard seg) b s with
        | .unmapped _ s1 => dtrAccess j l s1
        | .ok _ s1 =>
          let s2 := segHere j l shard seg step (crc64 b) running s1
          let s3 :=
            if ref || decide (L.gidx = ringBack d shard 1) then s2
            else updLayer j l (fun L => { L with handed := L.handed + 1, ag := L.ag ++ [{ step := step, shard := shard, seg := seg, digest := crc64 b, body := b, hdr := m.hdr }] }) s2
          checkReady j l (densePump j l (reductionAsk 0 s3))) s

/-- SEG_FETCH (R275): the owner answers from its own WBASE; STEP is that of the bytes it sends. -/
def execSegFetch (m : Msg) (s : State) : Out :=
  receive (.segFetch m) 0x63 m (fun m => some [leAt m.hdr 2 2, leAt m.hdr 4 4, leAt m.hdr 8 2, leAt m.hdr 12 4, m.src.toNat]) (fun j r m s =>
    let l := leAt m.hdr 2 2
    let seg := leAt m.hdr 12 4
    match s.layer? j l with
    | none => badMsg s
    | some L =>
      if leAt m.hdr 8 2 ≠ L.gidx ∨ seg ≥ shardSegs L.desc L.gidx then badMsg s
      else
        match rangeRead j (segAddr L.desc L.gidx seg) (segLen L.desc L.gidx seg) s with
        | .unmapped _ s1 => dtrAccess j l s1
        | .ok b _ s1 =>
          sendRank j r 4 (agHdr l (segStep L L.gidx seg) L.gidx L.gidx seg (crc64 b) b.length 1) b {} (reductionAsk 0 s1)) s

/-- SEG_FETCH_TIMEOUT (R275): TIMEOUT frames without a segment of the gathering. -/
def execSegFetchTimeout (job : Fin 64) (layer : BitVec 16) (shard seg : Nat) (s : State) : Out :=
  let l := layer.toNat
  match s.layer? job l with
  | none => .next s
  | some L =>
    whenP (.segFetchTimeout job layer shard seg) (denseOn s job && (decide (L.phase = 4) || decide (L.phase = 5)) && decide (shard < dlG L.desc) && decide (shard ≠ L.gidx) &&
        decide (seg < shardSegs L.desc shard) && !L.segs.contains (shard, seg) && !L.fetch.contains (shard, seg) &&
        decide (s.clk.fnum ≥ L.gatherAt + regField s Reg.DTR_CFG 7 0)) (segFetch job l shard seg) s

/-! ## The owner update (R272, R273) -/

/-- Areas of the dense staging region. -/
def dsH : Nat := 0x140000

/-- The roles of a piece's program bound to the areas. -/
def pieceRoles (base opt : Nat) : List Nat :=
  let no := 2 ^ 32
  [base + stG, base + stP, if opt ≥ 1 then base + stM1 else no, if opt = 2 then base + stM2 else no, no, base + stW, base + dsH, no]

/-- Elements of a piece. -/
def pieceLen (L : DLayer) (idx : Nat) : Nat := min 65536 (shardLen L.desc L.gidx - 65536 * idx)
def pieceCount (L : DLayer) : Nat := ceilDiv (shardLen L.desc L.gidx) 65536

/-- A piece's program bound. -/
def pieceProg (x : Job) (L : DLayer) (n : Nat) (hdr : Bytes) (descs : List Bytes) : BoundProg :=
  { hdr := hdr, descs := descs, roles := pieceRoles x.dstage (dlOpt L.desc), extent := n }

/-- The draws of a piece's program. -/
def pieceNeed (s : State) (j : Nat) (x : Job) (L : DLayer) : Nat :=
  match peek s j (dlUprog L.desc) 64 with
  | none => 0
  | some hdr =>
    let n := bits (leAt hdr 0 4) 1 0 + 1
    match peek s j (dlUprog L.desc + 64) (256 * n) with
    | some b => (pieceProg x L (pieceLen L L.next) hdr ((List.range n).map fun i => slice b (256 * i) 256)).need s
    | none => 0

/-- An area loaded from an array of the shard; whether it could be, unpoisoned. -/
def loadArea (j l t a src n : Nat) (s : State) : Bool × State :=
  match rangeRead j src n s with
  | .unmapped _ s1 => (false, dtrAccess j l s1)
  | .ok b bad s1 =>
    if bad = [] then (true, stageWrite t a b s1)
    else (false, votePoison j l true bad.head? s1)

/-- Step 1 of R272. -/
def loadPiece (j l : Nat) (x : Job) (L : DLayer) (s : State) : Bool × State :=
  let d := L.desc
  let t := dlUtile d
  let base := x.dstage
  let off := 4 * 65536 * L.next
  let n := 4 * pieceLen L L.next
  let step := fun (a : Bool × State) (on : Bool) (area src len : Nat) =>
    if !on || !a.1 then a else loadArea j l t (base + area) src len a.2
  step (step (step (step (step (true, s) true stG (dlRdbase d + off) n) true stP (dlMbase d + off) n)
    (decide (dlOpt d ≥ 1)) stM1 (dlM1base d + off) n) (decide (dlOpt d = 2)) stM2 (dlM2base d + off) n) (decide (L.next = 0)) dsH (dlHparam d) 64

/-- An area of a tile stored to an array. -/
def storeArea (j l t a dst n : Nat) (s : State) : State :=
  match rangeWrite j dst ((s.tile t).read a n) s with
  | .unmapped _ s1 => dtrAccess j l s1
  | .ok _ s1 => s1

/-- Step 3 of R272: masters and moments stored; deltas go through the memory-side adders. -/
def storePiece (j l : Nat) (x : Job) (L : DLayer) (addp : Bool) (s : State) : State :=
  let d := L.desc
  let t := dlUtile d
  let off := 4 * 65536 * L.next
  let n := 4 * pieceLen L L.next
  let s1 :=
    if addp then
      let (st, s1) := addDeltas j (dlMbase d + off) ((s.tile t).read (x.dstage + stP) n) s
      (loadArea j l t (x.dstage + stP) (dlMbase d + off) n (dtrNstat st s1)).2
    else storeArea j l t (x.dstage + stP) (dlMbase d + off) n s
  let s2 := if dlOpt d ≥ 1 then storeArea j l t (x.dstage + stM1) (dlM1base d + off) n s1 else s1
  if dlOpt d = 2 then storeArea j l t (x.dstage + stM2) (dlM2base d + off) n s2 else s2

/-- The working bytes of a piece: those the program wrote, or one narrowing of the stored masters (R273). -/
def workPiece (j : Nat) (x : Job) (L : DLayer) (wbound : Bool) (s : State) : Bytes × State :=
  let d := L.desc
  let t := dlUtile d
  let n := pieceLen L L.next
  if wbound then ((s.tile t).read (x.dstage + stW) (n * dlSize d), s)
  else
    match s.job? j with
    | none => ([], s)
    | some job =>
      let (w, st, job1) := deriveRowOn (0x1000 + 256 * t) 256 (dlWfmt d) (dlRmode d) (dlSat d)
        ((List.range n).map fun e => f32 (le ((s.tile t).read (x.dstage + stP + 4 * e) 4))) job
      (w, dtrNstat st { s with jobs := Tbl.put s.jobs j job1 })
where
  /-- A narrowing on a unit's lanes. -/
  deriveRowOn (base lanes wfmt rmode : Nat) (sat : Bool) (xs : List Num) (job : Job) : Bytes × Nat × Job :=
    let ((cs, st), j1) := narrowRow wfmt rmode sat base lanes xs job
    (packElems wfmt cs, st, j1)

/-- Step 4 of R272: the working bytes stored, the delta exported, and the segments that are complete handed on. -/
def finishPiece (j l : Nat) (x : Job) (L : DLayer) (w : Bytes) (s : State) : State :=
  let d := L.desc
  let t := dlUtile d
  let n := pieceLen L L.next
  let off := 65536 * L.next
  let s1 := match rangeWrite j (segAddr d L.gidx 0 + off * dlSize d) w s with
    | .unmapped _ s1 => dtrAccess j l s1
    | .ok _ s1 => s1
  let rd := fun (a : Nat) => (s1.tile t).read (x.dstage + a) (4 * n)
  let body := rd stP ++ (if dlOpt d ≥ 1 then rd stM1 else []) ++ (if dlOpt d = 2 then rd stM2 else [])
  let s2 := dlxWriteBack j 1 l 0 n off body s1
  let lo := off * dlSize d / 65536
  let hi := ceilDiv ((off + n) * dlSize d) 65536
  -- a piece whose own store failed hands no segment on (R278)
  let s3 := if (s2.layer? j l).any (·.access) then s2 else (List.range (hi - lo)).foldl (fun s k => ownSegment j l (lo + k) s) s2
  let last := decide (L.next + 1 ≥ pieceCount L)
  updLayer j l (fun L => { L with next := L.next + 1, running := none, phase := if last then 5 else 4, progress := s.clk.fnum, stalled := false }) s3

/-- The owner of a piece's vector draws (R282). -/
def pieceOwner (j l : Nat) : Owner := .reduction (256 + layerKey j l)

/-- A piece run to its end (R272); when an access of its own fails, this device skips the update (R278). -/
def runPiece (j l : Nat) (x : Job) (L : DLayer) (s0 : State) : State :=
  let d := L.desc
  let s := ledgerReturn (pieceOwner j l) s0
  match loadPiece j l x L s with
  | (false, s1) => skipStep j l s1
  | (true, s1) =>
    match readProgram j (dlUprog d) s1 with
    | (none, s2) => skipStep j l (dtrAccess j l s2)
    | (some (hdr, ds), s2) =>
      let b := pieceProg x L (pieceLen L L.next) hdr ds
      match runProgram (dlUtile d) j b s2 with
      | (false, _, s3) => skipStep j l (votePoison j l true none s3)
      | (true, ns, s3) =>
        let s4 := storePiece j l x L b.addp (dtrNstat ns s3)
        let wbound := ds.any fun c => roleStreams c true 6 != []
        let (w, s5) := workPiece j x L wbound s4
        let s6 := finishPiece j l x L w s5
        match s6.layer? j l with
        | some L6 => if L6.access then skipStep j l s6 else checkReady j l (densePump j l (reductionAsk 0 s6))
        | none => s6

/-- Bytes of a piece's export message. -/
def pieceMsgBytes (L : DLayer) : Nat := roundUp 32 (32 + 4 * pieceLen L L.next * (1 + dlOpt L.desc))

/-- A piece begins, or goes on after L − P.  Whether a piece that begins ends before L − P of its frame is a free value (DESIGN CHOICE, log 114):
one that does not is suspended there and goes on first in the next frame; its effects stand at its end. -/
def beginPiece (j l : Nat) (x : Job) (L : DLayer) (s : State) : State :=
  if L.running.isSome then runPiece j l x L s
  else
    match freeVal s with
    | (v, s1) =>
      if v % 2 = 0 then runPiece j l x L s1
      else updLayer j l (fun L => { L with running := some s.clk.fnum, progress := s.clk.fnum, stalled := false }) s1

/-- DENSE_PIECE_ADMIT (R272, R448): the next piece of the shard, when it fits the window, or one suspended by force, once its vector draws are
granted. -/
def execDensePieceAdmit (job : Fin 64) (layer : BitVec 16) (s : State) : Out :=
  let l := layer.toNat
  match s.layer? job l, s.job? job with
  | some L, some x =>
    let t := dlUtile L.desc
    let turn := match L.running with
      | some _ => (s.tile t).vecFree
      | none => !dlxHolds s job (pieceMsgBytes L) && vecIdle s t
    when (denseOn s job && decide (L.phase = 4) && pieceTime s L && turn) (fun s =>
      let need := pieceNeed s job x L
      if need = 0 || holds (pieceOwner job l) s then powered (fun s => unpark t (beginPiece job l x L s)) s
      else reserve (pieceOwner job l) 1 need s) s
  | _, _ => .next s

/-- The pieces that run at L − P suspended by force (R31, R272): their draws go back. -/
def forcePieces (s : State) : State :=
  s.dtr.layers.foldl (fun s x =>
    if x.2.running = some s.clk.fnum then raiseInt blkFclk 3 (ledgerReturn (pieceOwner (x.1 / 65536) (x.1 % 65536)) s) else s) s

/-! ## Digest samples (R215 to R217, R219) -/

/-- An item of the sampling: a live replica slot, or a segment of a dense working copy. -/
inductive DigItem where
  | slot (j slot : Nat)
  | seg (j l shard seg : Nat)
  deriving DecidableEq, Repr

def DigItem.job : DigItem → Nat
  | .slot j _ => j
  | .seg j _ _ _ => j

/-- The items in the order of the cursor: the live slots of each job in slot order, then the dense segments. -/
def digItems (s : State) : List DigItem :=
  (s.emb.slots.filterMap fun p => if p.2.live.isSome then some (.slot (p.1 / 65536) (p.1 % 65536)) else none) ++
  (s.dtr.layers.flatMap fun x =>
    ((List.range (dlG x.2.desc)).flatMap fun k => (List.range (shardSegs x.2.desc k)).map fun g => (k, g)).filterMap fun kg =>
      if kg.1 ≠ x.2.gidx ∧ x.2.known.contains kg then some (.seg (x.1 / 65536) (x.1 % 65536) kg.1 kg.2) else none)

/-- One item checked. -/
def digCheck (i : DigItem) (s : State) : State :=
  match i with
  | .slot j slot =>
    match Tbl.look? s.emb.slots (hotKey j slot), s.job? j with
    | some x, some job =>
      match x.live with
      | none => s
      | some c =>
        match rangeRead j (job.replBase + (2 * slot + c) * job.replBytes) (x.len.getD c 0) s with
        | .unmapped _ s1 => s1
        | .ok b _ s1 => if crc64 b = x.digest.getD c 0 then s1 else replicaMismatch j slot x.tid x.row s1
    | _, _ => s
  | .seg j l shard seg =>
    match s.layer? j l with
    | none => s
    | some L =>
      match rangeRead j (segAddr L.desc shard seg) (segLen L.desc shard seg) s with
      | .unmapped _ s1 => s1
      | .ok b _ s1 =>
        match rangeRead j (dgAddr L.desc shard seg) 8 s1 with
        | .unmapped _ s2 => s2
        | .ok dg _ s2 => if crc64 b = le dg then s2 else segMismatch j l shard seg s2

/-- An item's place in its job's order: slots first, then segments by layer, shard and segment. -/
def DigItem.place : DigItem → Nat
  | .slot _ n => n
  | .seg _ l k g => 65536 + ((l * 65536 + k) * 2 ^ 32 + g)

/-- The items of a job that a task checks: from the job's cursor on, wrapping, up to what DIG_SAMPLES leaves of this slice (R215).  A cursor
for each job is a DESIGN CHOICE (log 112). -/
def digTask (items : List DigItem) (j : Nat) (job : Job) (s : State) : List DigItem :=
  let l := items.filter fun i => decide (i.job = j)
  let c := Tbl.look s.emb.cursor j 0
  ((l.filter fun i => decide (c ≤ i.place)) ++ l.filter fun i => decide (i.place < c)).take (job.digSamples - Tbl.look s.emb.sampled j 0)

/-- The items of one job checked, its cursor moved on. -/
def digJob (items : List DigItem) (j : Nat) (job : Job) (s : State) : State :=
  let w := digTask items j job s
  let next := match w.getLast? with | some i => i.place + 1 | none => Tbl.look s.emb.cursor j 0
  let s1 := { s with emb := { s.emb with cursor := Tbl.put s.emb.cursor j next,
                                         sampled := Tbl.put s.emb.sampled j (Tbl.look s.emb.sampled j 0 + w.length) } }
  w.foldl (fun s i => digCheck i s) (count Reg.EMB_DIGEST 64 w.length s1)

def digestDraw (s : State) : Nat := if s.evening then 2 else 3

/-- A digest task that has begun goes on once its draw and what it reaches are there; it is done in one. -/
def digestCycle (s : State) : State :=
  if s.clk.digest = 1 && holds .digest s then
    powered (fun s => ledgerReturn .digest (s.jobs.foldl (fun s p => digJob (digItems s) p.1 p.2 s)
      { s with clk := { s.clk with digest := 2 } })) s
  else s

/-- A digest task begins (R215): it waits for its draw and what it reaches, and is deferred whole when that is not there in the slice. -/
def digestSample (s : State) : State := digestCycle (reserve .digest 1 (digestDraw s) { s with clk := { s.clk with digest := 1 } })

/-- Whether a digest task of this slice is still to be done: some job has items to sample. -/
def digestWaits (s : State) : Bool :=
  decide (s.clk.digest ≠ 2) && s.jobs.any fun p => !(digTask (digItems s) p.1 p.2 s).isEmpty

/-- What the dense block holds for a job is dropped at its end. -/
def dropDenseJob (j : Nat) (s : State) : State :=
  { s with dtr := { s.dtr with layers := s.dtr.layers.filter (fun x => decide (x.1 / 65536 ≠ j)), frozen := s.dtr.frozen.filter (· ≠ j) } }

end Sys2Proof.Machine
end

