-- ==== Sys2Proof/Machine/Export.lean ====
section
/-! DEFINITION. State export and takeover: export sets, base sweeps, the keeper's side, lag and lost keepers, RANK_MOVE and RESTORE
(R443 to R454). -/

namespace Sys2Proof.Machine

/-! ## EXPORT_SET, EXPORT_BASE and KEEP_REGION (R443) -/

/-- The least size of a region; a keeper's log is a whole number of 2 MiB pages. -/
def regionLeast (n : Nat) : Bool := decide (n ≥ 64 * 2 ^ 20)
def regionOk (n : Nat) : Bool := regionLeast n && decide (n % pageBytes = 0)

/-- A keeper entry of EXPORT_SET. -/
def keeperOf (b : Bytes) : Keeper :=
  { kind := leAt b 0 1, rank := leAt b 2 2, base := leAt b 4 6, size := leAt b 10 6, acked := none, lost := false, tail := 0, head := 0,
    next := 0, fails := [], since := 0, start := 0, buf := [], bases := [], fb := 0 }

/-- Every page of a span is mapped SHARED. -/
def allShared (s : State) (j a n : Nat) : Bool :=
  decide (a + n ≤ rangeBytes) && (List.range (ceilDiv (a % pageBytes + n) pageBytes)).all fun i =>
    match s.page? j (a / pageBytes + i) with
    | some p => (match p.back with | .shared _ => true | _ => false)
    | none => false

/-- Whether a keeper entry is admissible. -/
def keeperOk (s : State) (j : Nat) (x : Job) (k : Keeper) : Bool :=
  regionOk k.size && (if k.kind = 1 then decide (k.rank < x.ndev) && decide (k.rank ≠ x.rank)
    else decide (k.kind = 2) && allShared s j k.base k.size)

/-- Whether a job's sweep runs. -/
def sweepBusy (s : State) (j : Nat) : Bool := ((Tbl.look? s.dlx.jobs j).bind (·.sweep)).isSome

/-- A job's entry of the exporter, made when it has none. -/
def dlxJob (j : Nat) (f : DlxJob → DlxJob) (s : State) : State := { s with dlx := { s.dlx with jobs := Tbl.updD s.dlx.jobs j DlxJob.init f } }

/-- EXPORT_SET: accepted here, in force at the next tick. -/
def execExportSet (q : Fin 128) (s : State) : Out :=
  runJob q Op.EXPORT_SET (fun c s =>
    match s.job? c.job with
    | none => s
    | some x =>
      let n := c.opnd 0 1
      let ks := (List.range n).map fun i => keeperOf (c.opndBytes (16 + 16 * i) 16)
      let ok := decide (n ≤ 2) && decide (2 ≤ c.opnd 1 1 ∧ c.opnd 1 1 ≤ 64) && decide (16 ≤ c.opnd 2 2 ∧ c.opnd 2 2 ≤ 1024) &&
        decide (16 ≤ c.opnd 4 4 ∧ c.opnd 4 4 ≤ 1024) && ks.all (keeperOk s c.job x)
      if !ok then endHead q St.DLX_BADREQ 0 0 s
      else if sweepBusy s c.job then endHead q St.DLX_BUSY 0 0 s
      else dlxJob c.job (fun d => { d with setReq := d.setReq ++ [(ks, c.opnd 1 1, c.opnd 2 2, c.opnd 4 4, q.val, c.cid)] }) s) s

/-- EXPORT_BASE: accepted here, in force at the next tick. -/
def execExportBase (q : Fin 128) (s : State) : Out :=
  runJob q Op.EXPORT_BASE (fun c s =>
    if sweepBusy s c.job then endHead q St.DLX_BUSY 0 0 s
    else dlxJob c.job (fun d => { d with baseReq := d.baseReq ++ [(q.val, c.cid)] }) s) s

/-- KEEP_REGION: the region a source rank may write its log into. -/
def execKeepRegion (q : Fin 128) (s : State) : Out :=
  runJobNow q Op.KEEP_REGION (fun c s =>
    match s.job? c.job with
    | none => (St.BADJOB, 0, s)
    | some x =>
      let r := c.opnd 0 2
      let a := c.opnd 2 6
      let n := c.opnd 8 6
      if r ≥ x.ndev ∨ r = x.rank ∨ !regionLeast n ∨ a + n > rangeBytes then (St.DLX_BADREQ, 0, s)
      else
        let rest := s.dlx.regions.filter fun k => !(decide (k.job = c.job) && decide (k.src = r))
        (St.OK, 0, { s with dlx := { s.dlx with regions := rest ++ [{ job := c.job, src := r, addr := a, bytes := n, frames := [] }] } })) s

/-! ## Base sweeps (R449) -/

/-- A sweep's work list: every table and layer of the job, ascending. -/
def sweepList (s : State) (j : Nat) (f : Nat) : Sweep :=
  { fs := some f, tables := s.emb.tables.filterMap (fun p => if p.1 / 4096 = j then some (p.1 % 4096, 0) else none),
    layers := s.dtr.layers.filterMap (fun p => if p.1 / 65536 = j then some (p.1 % 65536, 0) else none), done := false, fb := 0 }

/-- A poisoned master record met by a sweep (R463). -/
def exportPoison (j addr id idx : Nat) (s : State) : State := fault { code := 0x0071, job := some j, addr := addr, arg0 := id, arg1 := idx } s

/-- A message of a sweep. -/
def sweepMsg (j kind id vnum cnt off : Nat) (body : Bytes) (s : State) : State := dlxRec j s.clk.fnum kind 1 id vnum cnt off body s

/-- The master records of some rows of a version, as a message body. -/
def rowsBody (j tid : Nat) (fx v : Bytes) (rows : List Nat) (s : State) : Bytes × State :=
  rows.foldl (fun (a : Bytes × State) r =>
    let i := (place fx r).2
    let ma := masterAddr fx v i
    match rangeRead j ma (masterBytes (vsOpt v) (fxDim fx)) a.2 with
    | .unmapped _ s1 => (a.1, s1)
    | .ok d bad s1 => (a.1 ++ padTo 8 (toLe 8 r ++ d), if bad = [] then s1 else exportPoison j ma tid i s1)) ([], s)

/-- This rank's rows from a row on, as many as a message takes: up to 256 (DESIGN CHOICE: how rows are grouped is not given); and the row after
them. -/
def ownRowsFrom (fx : Bytes) (rank from_ most : Nat) : List Nat × Nat :=
  let rows := ((List.range (fxRows fx - from_)).map (from_ + ·)).filter fun r => decide (ownerRank fx r = rank)
  let l := rows.take (min 256 most)
  (l, if rows.length ≤ l.length then fxRows fx else (l.getLast?.getD from_) + 1)

/-- The versions a table holds: the current one, and the other slot's (DEDUCED). -/
def heldVersions (t : Table) : List Bytes := t.cur :: (if t.othSt ≠ 0 then [t.oth] else [])

/-- The rows of a table whose messages, for every version, take at most `left` bytes. -/
def rowsFitting (fx : Bytes) (vs : List Bytes) (left : Nat) : Nat :=
  (left - 32 * vs.length) / sumNat (vs.map fun v => roundUp 8 (8 + masterBytes (vsOpt v) (fxDim fx)))

/-- The next rows of a table sent for every version, within `left` bytes: the row to go on with (0 at the table's end), the bytes sent; none when
nothing more fits. -/
def sweepTable (j tid from_ left : Nat) (s : State) : Option (Nat × Nat × State) :=
  match s.table? j tid, s.job? j with
  | some t, some x =>
    let (rows, next) := ownRowsFrom t.fixed x.rank from_ (rowsFitting t.fixed (heldVersions t) left)
    if rows = [] ∧ next < fxRows t.fixed then none
    else
      let r := (heldVersions t).foldl (fun (a : Nat × State) v =>
        if rows = [] then a
        else
          let (b, s1) := rowsBody j tid t.fixed v rows a.2
          (a.1 + b.length + 32, sweepMsg j 0 tid (vsVnum v) rows.length 0 b s1)) (0, s)
      some (if next ≥ fxRows t.fixed then 0 else next, r.1, r.2)
  | _, _ => some (0, 0, s)

/-- The next piece of a layer's shard sent, master and moments, within `left` bytes. -/
def sweepLayer (j l idx left : Nat) (s : State) : Option (Nat × Nat × State) :=
  match s.layer? j l with
  | none => some (0, 0, s)
  | some L =>
    if idx ≥ pieceCount L then some (0, 0, s)
    else
      let d := L.desc
      let n := pieceLen L idx
      let off := 4 * 65536 * idx
      let arrs := [dlMbase d] ++ (if dlOpt d ≥ 1 then [dlM1base d] else []) ++ (if dlOpt d = 2 then [dlM2base d] else [])
      if 32 + 4 * n * arrs.length > left then none
      else
        let (b, s1) := arrs.foldl (fun (a : Bytes × State) base =>
          match rangeRead j (base + off) (4 * n) a.2 with
          | .unmapped _ s1 => (a.1 ++ zeros (4 * n), s1)
          | .ok x bad s1 => (a.1 ++ x, if bad = [] then s1 else exportPoison j (base + off) l idx s1)) ([], s)
        some (if idx + 1 < pieceCount L then idx + 1 else 0, b.length + 32, sweepMsg j 1 l 0 n (65536 * idx) b s1)

/-- One message or group of messages of a sweep, when this frame's share and the export buffer take it. -/
def sweepStep (j : Nat) (s : State) : State :=
  match Tbl.look? s.dlx.jobs j with
  | none => s
  | some d =>
    match d.sweep with
    | none => s
    | some w =>
      if w.done || decide (dlxBuffered s + 2 ^ 20 > 2 ^ 31) then s
      else
        let goOn := fun (w : Sweep) (n : Nat) (s : State) => updDlx j (fun d => { d with sweep := some w, share := d.share - n }) s
        match w.tables, w.layers with
        | (tid, i) :: r, _ =>
          match sweepTable j tid i d.share s with
          | some (next, n, s1) => goOn { w with tables := if next = 0 then r else (tid, next) :: r } n s1
          | none => s
        | [], (l, i) :: r =>
          match sweepLayer j l i d.share s with
          | some (next, n, s1) => goOn { w with layers := if next = 0 then r else (l, next) :: r } n s1
          | none => s
        | [], [] => goOn { w with done := true, fb := s.clk.fnum } 0 s

/-- A job's sweep goes on while it gets on: what it reads must be there, and nothing goes out in LOST (R445). -/
def sweepGo (fuel j : Nat) (s : State) : State :=
  match fuel with
  | 0 => s
  | fuel + 1 =>
    if s.lost then s
    else
      let s1 := powered (sweepStep j) s
      let at_ := fun (s : State) => (Tbl.look? s.dlx.jobs j).bind (·.sweep)
      if at_ s1 = at_ s then s1 else sweepGo fuel j s1

/-- Every sweep goes on; the fuel is more than the messages of a share. -/
def sweepCycle (s : State) : State := s.dlx.jobs.foldl (fun s p => if p.2.sweep.isSome then sweepGo (p.2.share / 32 + 65536) p.1 s else s) s

/-- Keepers set at a tick (R443): their logs begin at offset 0 (DESIGN CHOICE), with nothing acknowledged. -/
def setKeepers (j f : Nat) (s : State) : State :=
  match Tbl.look? s.dlx.jobs j with
  | none => s
  | some d =>
    d.setReq.foldl (fun s r =>
      let (ks, lag, keepTo, mib, q, cid) := r
      let d1 : DlxJob :=
        { DlxJob.init with keepers := ks.map (fun k => { k with since := f, start := f }), lagMax := lag, keepTo := keepTo, sweepMiB := mib,
                           baseReq := d.baseReq, lastClosed := d.lastClosed, share := mib * 2 ^ 20,
                           sweep := if ks = [] then none else some (sweepList s j f) }
      endCid q cid St.OK 0 0 (updDlx j (fun _ => d1) s)) s

/-- A base sweep begun at a tick (R443). -/
def startBase (j f : Nat) (s : State) : State :=
  match Tbl.look? s.dlx.jobs j with
  | none => s
  | some d =>
    d.baseReq.foldl (fun s r => endCid r.1 r.2 St.OK 0 0 (updDlx j (fun d => { d with
      baseReq := [], sweep := if d.keepers = [] then none else some (sweepList s j f) }) s)) s

/-- The exporter's part of step 2 of R36: the last frame is closed, new keepers and sweeps begin, and sweeps send this frame's share. -/
def exportTick (f : Nat) (s : State) : State :=
  let s1 := if f = 0 then s else dlxCloseAll (f - 1) s
  let s2 := { s1 with dlx := { s1.dlx with jobs := Tbl.mapv s1.dlx.jobs fun _ d => d.tick f } }
  sweepCycle (s2.dlx.jobs.foldl (fun s p => startBase p.1 f (setKeepers p.1 f s)) s2)

/-- The size of a job's next message: of the update batches and pieces that wait, the largest (R448). -/
def dlxNext (s : State) (j : Nat) : Nat :=
  let tables := s.emb.tables.flatMap fun p =>
    if p.1 / 4096 = j then (List.range 2).map fun die =>
      match batchRows s j (p.1 % 4096) die p.2 with
      | [] => 0
      | m :: r => match p.2.version? m.vnum with
        | some v => batchMsgBytes (r.length + 1) (masterBytes (vsOpt v) (fxDim p.2.fixed))
        | none => 0
    else []
  let layers := (jobLayers s j).map fun L => if L.phase = 4 ∧ L.running.isNone then pieceMsgBytes L else 0
  (tables ++ layers).foldl max 0

/-! ## The keeper's side (R446, R447) -/

/-- The region accepted for a source. -/
def regionOf (s : State) (j r : Nat) : Option KeepRegion := s.dlx.regions.find? fun k => decide (k.job = j) && decide (k.src = r)

/-- What is held of a frame of a source: entries, XOR of their CRC-64 values, and whether one fell outside. -/
def keptFrame (k : KeepRegion) (f : Nat) : Nat × Nat × Nat × Bool := (k.frames.find? fun x => decide (x.1 = f)).getD (f, 0, 0, false)

def updRegion (j r : Nat) (g : KeepRegion → KeepRegion) (s : State) : State :=
  { s with dlx := { s.dlx with regions := s.dlx.regions.map fun k => if k.job = j ∧ k.src = r then g k else k } }

/-- An entry stored for a source; whether it lies in the region. -/
def keepEntry (j : Nat) (k : KeepRegion) (m : Msg) (s : State) : Bool × State :=
  let bs := padTo 32 (slice m.hdr 0 32 ++ m.body)
  if bs.length > k.bytes then (false, s)
  else
    match ringWrite j k.addr k.bytes (leAt m.hdr 26 6) bs s with
    | .unmapped _ s1 => (false, s1)
    | .ok _ s1 => (true, s1)

/-- DLX_REC (R446, R447). -/
def execDlxRec (m : Msg) (s : State) : Out :=
  receive (.dlxRec m) 0x70 m (fun m => some [m.src.toNat, leAt m.hdr 4 6, leAt m.hdr 10 4]) (fun j r m s =>
    match regionOf s j r with
    | none => s
    | some k =>
      let (ok, s1) := keepEntry j k m s
      let (f, n, x, out) := keptFrame k (leAt m.hdr 4 6)
      let rec_ := (f, n + 1, x ^^^ crc64 (slice m.hdr 0 32 ++ m.body), out || !ok)
      updRegion j r (fun k => { k with frames := k.frames.filter (fun y => decide (y.1 ≠ f)) ++ [rec_] }) s1) s

def dlxAckHdr (f result : Nat) : Bytes := header (toLe 2 0x72 ++ zeros 2 ++ toLe 6 f ++ toLe 1 result)

/-- A frame answered with a failure is forgotten, so that its messages count when they come again. -/
def forgetFrame (j r src f : Nat) (s : State) : State :=
  updRegion j r (fun k => { k with frames := k.frames.filter fun y => decide (y.1 ≠ f) })
    { s with zor := { s.zor with seen := s.zor.seen.filter fun i =>
      !(decide (i.job = j) && decide (i.typ = 0x70 ∨ i.typ = 0x71) && decide (i.fields.take 2 = [src, f])) } }

/-- DLX_CLOSE (R446, R447): the close entry is stored and the frame answered. -/
def execDlxClose (m : Msg) (s : State) : Out :=
  receive (.dlxClose m) 0x71 m (fun m => some [m.src.toNat, leAt m.hdr 4 6]) (fun j r m s =>
    let f := leAt m.hdr 4 6
    let (result, s1) :=
      match regionOf s j r with
      | none => (2, s)
      | some k =>
        let (ok, s1) := keepEntry j k m s
        let (_, n, x, out) := keptFrame k f
        (if out || !ok then 2 else if n = leAt m.hdr 10 4 ∧ x = leAt m.hdr 14 8 then 0 else 1, s1)
    let s2 := if result = 0 then updRegion j r (fun k => { k with frames := k.frames.filter fun y => decide (y.1 ≠ f) }) s1
      else forgetFrame j r m.src.toNat f s1
    sendTo j m.src.toNat 2 (dlxAckHdr f result) [] {} s2) s

/-! ## Answers and lost keepers (R448) -/

/-- A keeper becomes LOST. -/
def loseKeeper (j k cause : Nat) (s : State) : State :=
  match (Tbl.look? s.dlx.jobs j).bind fun d => d.keepers[k]? with
  | none => s
  | some x =>
    if x.lost then s
    else
      raiseInt blkDlx 1 (fault { code := 0x0070, job := some j, inst := k, arg0 := x.acked.getD 0, arg1 := cause }
        (updKeeper j k (fun x => { x with lost := true, buf := [] }) s))

/-- A failed answer: the frame's messages go again; the third for one frame loses the keeper. -/
def failedAnswer (j k f : Nat) (s : State) : State :=
  let s1 := raiseInt blkDlx 2 (count Reg.DLX_ACKFAIL 32 1 (updKeeper j k (fun x => { x with fails := Tbl.updD x.fails f 0 (· + 1) }) s))
  match (Tbl.look? s1.dlx.jobs j).bind fun d => d.keepers[k]? with
  | none => s1
  | some x =>
    if Tbl.look x.fails f 0 ≥ 3 then loseKeeper j k 1 s1
    else dlxPump j (updKeeper j k (fun x => { x with buf := x.buf.map fun m => if m.dframe = f then { m with sent := false } else m }) s1)

/-- DLX_ACK (R446 to R448); an answer that is not the frame's last leaves room for the next one. -/
def execDlxAck (m : Msg) (s : State) : Out :=
  receive (.dlxAck m) 0x72 m (fun _ => none) (fun j r m s =>
    let f := leAt m.hdr 4 6
    let result := leAt m.hdr 10 1
    match (Tbl.look? s.dlx.jobs j).bind fun d => d.keepers.findIdx? fun x => decide (x.kind = 1) && decide (x.rank = r) && !x.lost with
    | none => badMsg s
    | some k =>
      let s1 := protoAck m.src.toNat (fun t => decide (leAt t.hdr 0 2 = 0x71) && decide (leAt t.hdr 4 6 = f)) s
      if result > 2 then badMsg s
      else if result ≠ 0 then failedAnswer j k f s1
      else
        match takeIdent j 0x72 [m.src.toNat, f] s1 with
        | none => count Reg.ZOR_DUP 32 1 s1
        | some s2 => dlxPump j (dlxAcked j k f s2)) s

/-- KEEPER_TIMEOUT (R448): KEEPTO frames without any acknowledgement. -/
def execKeeperTimeout (job : Fin 64) (keeper : Fin 2) (s : State) : Out :=
  match Tbl.look? s.dlx.jobs job with
  | none => .next s
  | some d =>
    match d.keepers[keeper.val]? with
    | none => .next s
    | some x => when (s.clocked && !x.lost && decide (s.clk.fnum ≥ x.since + d.keepTo)) (loseKeeper job keeper 2) s

/-- The job and keeper selected in DLX_SEL. -/
def State.dlxSel (s : State) : Nat × Nat := (regField s Reg.DLX_SEL 5 0, regField s Reg.DLX_SEL 6 6)

/-- DLX_KHEAD (R447, R455): what the host has consumed of a host keeper's log. -/
def execDlxKhead (wide high : Bool) (v : Word64) (s : State) : Out :=
  when s.served (fun s =>
    let (j, k) := s.dlxSel
    match (Tbl.look? s.dlx.jobs j).bind fun d => d.keepers[k]? with
    | none => s
    | some x =>
      if x.kind ≠ 2 then s
      else dlxPump j (updKeeper j k (fun x => { x with head := halfWrite x.head wide high v.toNat % 2 ^ 48 }) s)) s

/-! ## RANK_MOVE (R451) -/

/-- Every other command of a job is SUSPENDED (or has only its record left to write). -/
def othersSuspended (s : State) (c : Cmd) : Bool :=
  (jobCommands s c.job).all fun p => decide (p.2.cid = c.cid) || decide (p.2.life = .suspended) || p.2.early.isSome

/-- Requester flows to a rank end REFUSED, owner flows from it end without reply. -/
def moveFlows (j r : Nat) (s : State) : State :=
  let s1 := s.lkp.rflows.foldl (fun s p => if p.2.job = j ∧ p.2.rank = r then finalFlow p.1 2 2 s else s) s
  { s1 with lkp := { s1.lkp with
    oflows := s1.lkp.oflows.filter fun p => !(decide (p.2.job = j) && decide (p.2.rrank = r)),
    seen := s1.lkp.seen.filter fun u => !(decide (u.job = j) && decide (u.src = r)) } }

/-- The replica slots of a rank leave the directory. -/
def moveSlots (j r : Nat) (job : Job) (s : State) : State :=
  { s with emb := { s.emb with
    slots := s.emb.slots.filter fun p => !(decide (p.1 / 65536 = j) && ownedSlot job r (p.1 % 65536)),
    rounds := s.emb.rounds.filter fun x => !(decide (x.job = j) && decide (x.rank = r)) } }

/-- A rank counts as closed for every step of a table whose update has not started. -/
def moveCloses (j r key : Nat) (s : State) : State :=
  if key / 4096 ≠ j then s
  else
    match Tbl.look? s.emb.tables key with
    | none => s
    | some t =>
      let tid := key % 4096
      let entries := (s.lkp.merge.filter fun m => decide (m.job = j) && decide (m.tid = tid)).map (·.step)
      let steps := (t.closes.map (·.1) ++ entries ++ (match t.last with | some l => [l + 1] | none => [])).eraseDups
      let open_ := steps.filter fun st => decide (some st ≠ t.updating) && !(t.closes.contains (st, r))
      settleTable j tid (updTable j tid (fun t => { t with closes := t.closes ++ open_.map fun st => (st, r) }) s)

/-- A dense step in progress as R451 ends it. -/
def moveLayer (j l : Nat) (s : State) : State :=
  match s.layer? j l with
  | none => s
  | some L =>
    if 1 ≤ L.phase ∧ L.phase ≤ 3 then skipStep j l s
    else if L.phase = 4 then
      let all := (List.range (dlG L.desc)).flatMap fun k =>
        if k = L.gidx then [] else (List.range (shardSegs L.desc k)).map fun g => (k, g)
      updLayer j l (fun L => { L with ag := [], fetch := [], ended := true, segs := all ++ L.segs.filter fun p => decide (p.1 = L.gidx) }) s
    else if L.phase = 5 then readyLayer j l false (updLayer j l (fun L => { L with ag := [] }) s)
    else s

/-- RANK_MOVE (R451). -/
def execRankMove (q : Fin 128) (s : State) : Out :=
  runJobNowP (.rankMove q) q Op.RANK_MOVE (fun c s =>
    let j := c.job
    let r := c.opnd 0 2
    match s.job? j with
    | none => (St.BADJOB, 0, s)
    | some x =>
      if r ≥ x.ndev ∨ r = x.rank then (St.DLX_BADREQ, 0, s)
      else if !othersSuspended s c then (St.DLX_NOTSUSP, 0, s)
      else
        let s1 := updJob j (fun x => { x with ranks := x.ranks.set r (c.opnd 2 2) }) s
        let s2 := moveSlots j r x (moveFlows j r s1)
        let s3 := s2.emb.tables.foldl (fun s p => moveCloses j r p.1 s) s2
        let s4 := s3.dtr.layers.foldl (fun s p => if p.1 / 65536 = j then moveLayer j (p.1 % 65536) s else s) s3
        (St.OK, 0, s4)) s

/-! ## RESTORE (R452): the log -/

/-- An entry of a log. -/
structure LogEnt where
  loff  : Nat
  close : Bool
  hdr   : Bytes
  body  : Bytes
  deriving DecidableEq, Repr

def LogEnt.size (e : LogEnt) : Nat := entryBytes e.hdr e.body
def LogEnt.frame (e : LogEnt) : Nat := leAt e.hdr 4 6
def LogEnt.kind (e : LogEnt) : Nat := leAt e.hdr 2 1
def LogEnt.wseq (e : LogEnt) : Nat := leAt e.hdr 10 4
def LogEnt.id (e : LogEnt) : Nat := leAt e.hdr 14 2
def LogEnt.cnt (e : LogEnt) : Nat := leAt e.hdr 18 4
def LogEnt.flags (e : LogEnt) : Nat := leAt e.hdr 22 1

/-- The bytes a table's row takes in an entry. -/
def rowEntry (fx v : Bytes) : Nat := roundUp 8 (8 + masterBytes (vsOpt v) (fxDim fx))

/-- The length of an entry's body, from its header and this device's descriptors. -/
def logBody (s : State) (j : Nat) (h : Bytes) : Option Nat :=
  let id := leAt h 14 2
  let n := leAt h 18 4
  match leAt h 2 1 with
  | 0 => (s.table? j (id % 4096)).bind fun t => (t.version? (leAt h 16 2)).map fun v => n * rowEntry t.fixed v
  | 1 => (s.layer? j id).map fun L => 4 * n * (1 + dlOpt L.desc)
  | 2 => some (8 * n)
  | _ => none

/-- The entry at a log offset, when one is there whose LOFF says so. -/
def logEntry (s : State) (j size : Nat) (rd : Nat → Nat → Bytes) (pos : Nat) (want : Option Nat) : Option LogEnt :=
  let h := rd pos 32
  let loff := leAt h 26 6
  let ok := decide (loff % size = pos % size) && (match want with | some w => decide (w = loff) | none => true)
  if !ok then none
  else if leAt h 0 2 = 0x71 then some { loff := loff, close := true, hdr := h, body := [] }
  else if leAt h 0 2 = 0x70 then
    match logBody s j h with
    | some n => if n + 32 > size then none else some { loff := loff, close := false, hdr := h, body := rd (pos + 32) n }
    | none => none
  else none

/-- The entries that follow one another from a place on. -/
def logChain (fuel : Nat) (s : State) (j size : Nat) (rd : Nat → Nat → Bytes) (pos : Nat) (want : Option Nat) : List LogEnt :=
  match fuel with
  | 0 => []
  | fuel + 1 =>
    match logEntry s j size rd pos want with
    | none => []
    | some e => e :: logChain fuel s j size rd ((pos + e.size) % size) (some (e.loff + e.size))

/-- The log's entries: of the chains that begin in the ring, the longest (DESIGN CHOICE: where a ring's oldest entry lies is not
given). -/
def logEntries (s : State) (j size : Nat) (rd : Nat → Nat → Bytes) : List LogEnt :=
  (List.range (size / 32)).foldl (fun (best : List LogEnt) i =>
    let l := logChain (size / 32) s j size rd (32 * i) none
    if l.length > best.length then l else best) []

/-- Whether a frame is complete in the log: its close, with the count and digest of its entries. -/
def frameWhole (es : List LogEnt) (f : Nat) : Bool :=
  let recs := es.filter fun e => !e.close && decide (e.frame = f)
  es.any fun e => e.close && decide (e.frame = f) && decide (leAt e.hdr 10 4 = recs.length) &&
    decide (leAt e.hdr 14 8 = recs.foldl (fun a e => a ^^^ crc64 (e.hdr ++ e.body)) 0)

/-- Fs: the last BASESTART close. -/
def baseStart (es : List LogEnt) : Option Nat :=
  (es.filter fun e => e.close && bitOf e.flags 0).foldl (fun m e => some (match m with | some f => max f e.frame | none => e.frame)) none

/-- FT: the operand, or the last frame complete in the log. -/
def targetFrame (es : List LogEnt) (ft : Nat) : Nat :=
  if ft ≠ 0 then ft else (es.filter fun e => e.close && frameWhole es e.frame).foldl (fun m e => max m e.frame) 0

/-- What the check of step 1 finds: the span to apply, or the first frame that fails it. -/
def logCheck (es : List LogEnt) (ft : Nat) : Except Nat (Nat × Nat) :=
  let t := targetFrame es ft
  match baseStart es with
  | none => .error t
  | some fs =>
    match ((List.range (t + 1 - fs)).map (fs + ·)).find? fun f => !frameWhole es f with
    | some f => .error f
    | none => if fs ≤ t && es.any fun e => e.close && bitOf e.flags 1 && decide (fs ≤ e.frame ∧ e.frame ≤ t) then .ok (fs, t) else .error t

/-! ## RESTORE: the effect -/

/-- The numeric status of the restore's narrowings goes into RESTORE's completion record (R72). -/
def restNstat (st : Nat) (s : State) : State :=
  match s.dlx.restore with
  | some r => orNstat r.queue r.cid st s
  | none => s

/-- What is restored: a table's row (0, TID, VNUM, row) with its master record, or a piece of a layer's shard (1, LAYER, 0, first element) with
its master and moments. -/
abbrev Restored := (Nat × Nat × Nat × Nat) × Bytes

/-- The items of an entry, those of rows and layers this device holds. -/
def LogEnt.items (s : State) (j : Nat) (e : LogEnt) : List Restored :=
  match e.kind with
  | 0 =>
    let tid := e.id % 4096
    let vnum := leAt e.hdr 16 2
    match s.table? j tid with
    | none => []
    | some t =>
      match t.version? vnum with
      | none => []
      | some v =>
        let n := rowEntry t.fixed v
        (List.range e.cnt).filterMap fun k =>
          let row := leAt e.body (n * k) 8
          if row ≥ fxRows t.fixed then none else some ((0, tid, vnum, row), slice e.body (n * k + 8) (masterBytes (vsOpt v) (fxDim t.fixed)))
  | 1 => if (s.layer? j e.id).isSome then [((1, e.id, 0, leAt e.hdr 22 4), e.body)] else []
  | _ => []

/-- An item written (R452 step 2). -/
def putItem (j : Nat) (x : Restored) (s : State) : State :=
  let ((kind, id, vnum, i), m) := x
  if kind = 0 then
    match s.table? j id with
    | none => s
    | some t =>
      match t.version? vnum with
      | none => s
      | some v => (rangeWrite j (masterAddr t.fixed v (place t.fixed i).2) m s).state
  else
    match s.layer? j id with
    | none => s
    | some L =>
      let d := L.desc
      let n := m.length / (4 * (1 + dlOpt d))
      let put := fun (base k : Nat) (s : State) => (rangeWrite j (base + 4 * i) (slice m (4 * n * k) (4 * n)) s).state
      let s1 := put (dlMbase d) 0 s
      let s2 := if dlOpt d ≥ 1 then put (dlM1base d) 1 s1 else s1
      if dlOpt d = 2 then put (dlM2base d) 2 s2 else s2

/-- The working row or piece of an item derived by one narrowing (R452 step 3).  DESIGN CHOICE: the working rows of a restore draw from
the Coalescer lanes (class 4) of the home die; the spec names no lane for them (assumption 106). -/
def deriveItem (j : Nat) (x : Restored) (s : State) : State :=
  let ((kind, id, vnum, i), m) := x
  let codes := fun (n : Nat) => (List.range n).map fun k => f32 (leAt m (4 * k) 4)
  match s.job? j with
  | none => s
  | some job =>
    if kind = 0 then
      match s.table? j id with
      | none => s
      | some t =>
        match t.version? vnum with
        | none => s
        | some v =>
          let g := (place t.fixed i).2
          let (w, st, job1) := deriveRow (vsWfmt v) (vsRmode v) (vsSat v) (0x4000 + g % 2 * 2048) (codes (fxDim t.fixed)) job
          (cacheWrite (g % 2) j id (workAddr t.fixed v g) w (restNstat st <| lkpNstat st { s with jobs := Tbl.put s.jobs j job1 })).state
    else
      match s.layer? j id with
      | none => s
      | some L =>
        let d := L.desc
        let ((cs, st), job1) := narrowRow (dlWfmt d) (dlRmode d) (dlSat d) (0x1000 + 256 * dlUtile d) 256 (codes (m.length / (4 * (1 + dlOpt d)))) job
        (rangeWrite j (segAddr d L.gidx 0 + i * dlSize d) (packElems (dlWfmt d) cs)
          (restNstat st <| dtrNstat st { s with jobs := Tbl.put s.jobs j job1 })).state

/-- The last value of each item, in the order of their last writing: it wins. -/
def lastItems (l : List Restored) : List Restored := l.foldl (fun a x => (a.filter fun y => decide (y.1 ≠ x.1)) ++ [x]) []

/-- (kind, ID, step) entries of 8 bytes. -/
def stepEntries8 (bs : Bytes) (n : Nat) : List (Nat × Nat × Nat) :=
  (List.range n).map fun i => (leAt bs (8 * i) 2, leAt bs (8 * i + 2) 2, leAt bs (8 * i + 4) 4)

/-- The steps a RESTORE's payload lists, in slots of 32 entries: the zero entries after its last other one are the slot's padding, its first
entry apart, which is an entry of the list whatever it holds (DEDUCED, log 134). -/
def payloadSteps (l : List (Nat × Nat × Nat)) : List (Nat × Nat × Nat) :=
  l.take 1 ++ ((l.drop 1).reverse.dropWhile fun p => p == (0, 0, 0)).reverse

/-- A table's or layer's last completed step raised to a value (R452 step 4); a step that changes so is noted for the frame's KIND 2 record. -/
def applyStep (j : Nat) (p : Nat × Nat × Nat) (s : State) : State :=
  let id := if p.1 = 0 then p.2.1 % 4096 else p.2.1
  let old := if p.1 = 0 then (s.table? j id).map fun t => t.last.map (· + 1) |>.getD 0 else (s.layer? j id).map (·.step)
  match old with
  | none => s
  | some n =>
    if p.2.2 + 1 ≤ n then s
    else
      dlxProgress j (min p.1 1) id p.2.2
        (if p.1 = 0 then updTable j id (fun t => { t with last := some p.2.2 }) s
         else updLayer j id (fun L => { L with step := p.2.2 + 1, bytes := [] }) s)

/-- Step 5 for a layer: own segments to every member, every other shard's segments fetched. -/
def exchangeLayer (j l : Nat) (s : State) : State :=
  match s.layer? j l with
  | none => s
  | some L =>
    let d := L.desc
    let own := (List.range (shardSegs d L.gidx)).foldl (fun s g =>
      match rangeRead j (segAddr d L.gidx g) (segLen d L.gidx g) s with
      | .unmapped _ s1 => s1
      | .ok b _ s1 =>
        (List.range (dlG d)).foldl (fun s k =>
          if k = L.gidx then s
          else sendRank j (rankOfIdx d k) 4 (agHdr l L.step L.gidx L.gidx g (crc64 b) b.length 1) b {} s) (segHere j l L.gidx g L.step (crc64 b) false s1)) s
    (List.range (dlG d)).foldl (fun s k =>
      if k = L.gidx then s else (List.range (shardSegs d k)).foldl (fun s g => segFetch j l k g s) s) own

/-- Steps 2 to 5 over the entries of frames Fs to FT: the last value written wins. -/
def applyLog (r : Restore) (es : List LogEnt) (fs ft : Nat) (s : State) : State :=
  let j := r.job
  let mine := es.filter fun e => !e.close && decide (fs ≤ e.frame ∧ e.frame ≤ ft)
  let sorted := sortBy (fun (a b : LogEnt) => decide (a.frame < b.frame) || (decide (a.frame = b.frame) && decide (a.wseq < b.wseq))) mine
  let items := lastItems (sorted.flatMap (LogEnt.items s j))
  let s1 := items.foldl (fun s x => deriveItem j x s) (items.foldl (fun s x => putItem j x s) s)
  let prog := sorted.flatMap fun e => if e.kind = 2 then stepEntries8 e.body e.cnt else []
  let s2 := (prog ++ r.steps).foldl (fun s p => applyStep j p s) s1
  let s3 := if s2.dtr.frozen.contains j then s2 else { s2 with dtr := { s2.dtr with frozen := s2.dtr.frozen ++ [j] } }
  s3.dtr.layers.foldl (fun s p => if p.1 / 65536 = j then exchangeLayer j (p.1 % 65536) s else s) s3

/-- A RESTORE ends: its draw and its reads go, its command completes. -/
def endRestore (r : Restore) (status result : Nat) (s : State) : State :=
  let s1 := ledgerReturn .restorer (ledgerDrop .restorer s)
  endCid r.queue r.cid status 0 result
    { s1 with dlx := { s1.dlx with restore := none }, zor := { s1.zor with bulks := s1.zor.bulks.filter fun b => !b.restore } }

/-- The log is here: it is checked and applied. -/
def runRestore (r : Restore) (rd : Nat → Nat → Bytes) (s : State) : State :=
  let es := logEntries s r.job r.bytes rd
  match logCheck es r.ft with
  | .error f => endRestore r St.DLX_LOGBAD f s
  | .ok (fs, ft) => endRestore r St.OK ft (applyLog r es fs ft s)

/-- Bytes of a ring of `size` bytes held as one string. -/
def ringBytes (rd : Nat → Nat → Bytes) (size pos n : Nat) : Bytes :=
  let at_ := pos % size
  let k := min n (size - at_)
  rd at_ k ++ rd 0 (n - k)

/-- The bulk reads of a log held by a keeper (R311): one transfer for each 4 GiB, since OFFSET has 32 bits (DEDUCED). -/
def askLog (r : Restore) (rank : Nat) (s : State) : State :=
  (List.range (ceilDiv r.bytes (2 ^ 32))).foldl (fun s g =>
    let tag := s.zor.nextTag % 2 ^ 32
    let n := min (2 ^ 32) (r.bytes - 2 ^ 32 * g)
    let b : Bulk := { tag := tag, tile := g, parts := (bulkParts n).map (·.1), restore := true }
    let s1 := { s with zor := { s.zor with nextTag := s.zor.nextTag + 1, bulks := s.zor.bulks ++ [b] } }
    (bulkParts n).foldl (fun s p => sendRank r.job rank 3 (bulkHdr 0x31 tag p.1 p.2 (r.addr + 2 ^ 32 * g + p.1)) [] {} s) s1) s

def restoreDraw (s : State) : Nat := if s.evening then 4 else 6

/-- The restore in progress goes on: it waits for its draw (R454), then reads its log, then applies it. -/
def restorePump (s : State) : State :=
  match s.dlx.restore with
  | none => s
  | some r =>
    let s1 := reserve .restorer 1 (restoreDraw s) s
    if !holds .restorer s1 then s1
    else
      match r.src with
      | none =>
        if (firstUnmapped s1 r.job r.addr r.bytes).isSome then endRestore r St.DLX_BADREQ 0 s1
        else
          let rd := fun (a n : Nat) => (peek s1 r.job (r.addr + a) n).getD (zeros n)
          powered (runRestore r (ringBytes rd r.bytes)) s1
      | some rank =>
        if !r.asked then askLog r rank { s1 with dlx := { s1.dlx with restore := some { r with asked := true } } }
        else if s1.zor.bulks.all fun b => !b.restore || decide (b.parts = []) then
          powered (runRestore r (ringBytes (Mem.gets r.log 0) r.bytes)) s1
        else s1

/-- A RESTORE taken up when none runs (R452, R55). -/
def restoreStart (q : Nat) (c : Cmd) (s : State) : State :=
  if s.dlx.restore.isSome then s
  else
    let n := (ceilDiv c.body.length 8)
    let r : Restore :=
      { job := c.job, queue := q, cid := c.cid, src := if c.opnd 2 1 = 1 then some (c.opnd 4 2) else none, addr := c.opnd 8 8, bytes := c.opnd 16 8,
        ft := c.opnd 24 6, steps := payloadSteps (stepEntries8 c.body n), log := [], asked := false }
    let s1 := updJob c.job (fun x => { x with resumeFrame := s.clk.fnum, gens := [] }) s
    restorePump { s1 with dlx := { s1.dlx with restore := some r } }

/-- RESTORE (R452). -/
def execRestore (q : Fin 128) (s : State) : Out :=
  runJob q Op.RESTORE (fun c s =>
    match s.job? c.job with
    | none => s
    | some x =>
      let src := c.opnd 2 1
      let keeper := c.opnd 4 2
      let ok := decide ((s.session c.job).state = .joined) && decide (c.opnd 0 2 = x.rank) && decide (src ≤ 1) &&
        (decide (src = 0) || (decide (keeper < x.ndev) && decide (keeper ≠ x.rank))) && regionOk (c.opnd 16 8) &&
        decide (c.opnd 8 8 + c.opnd 16 8 ≤ rangeBytes)
      if !ok then endHead q St.DLX_BADREQ 0 0 s
      else if !othersSuspended s c then endHead q St.DLX_NOTSUSP 0 0 s
      else restoreStart q c s) s

/-- A RESTORE that waited for another's end taken up. -/
def restoreNext (s : State) : State :=
  s.enabled.foldl (fun s q =>
    match headOf s q with
    | some c => if c.life = .running && decide (c.opcode = Op.RESTORE) && s.dlx.restore.isNone then restoreStart q c s else s
    | none => s) s

/-- What the exporter holds for a job is dropped at its end. -/
def dropExportJob (j : Nat) (s : State) : State :=
  let s1 := match s.dlx.restore with
    | some r => if r.job = j then ledgerReturn .restorer (ledgerDrop .restorer { s with dlx := { s.dlx with restore := none } }) else s
    | none => s
  { s1 with dlx := { s1.dlx with jobs := Tbl.del s1.dlx.jobs j, regions := s1.dlx.regions.filter fun k => decide (k.job ≠ j) } }

/-! ## Answers to this device's bulk transfers (R311) -/

/-- A part of a transfer answered. -/
def partDone (tag off : Nat) (s : State) : State :=
  { s with zor := { s.zor with bulks := s.zor.bulks.map fun b => if b.tag = tag then { b with parts := b.parts.filter (· ≠ off) } else b } }

/-- The transfer of a tag that waits for a part. -/
def bulkOf (s : State) (tag off : Nat) : Option Bulk := s.zor.bulks.find? fun b => decide (b.tag = tag) && b.parts.contains off

/-- The tile DMA of a tag: on its tile, or saved with a sequencer. -/
def dmaOf (s : State) (t tag : Nat) : Option Dma :=
  ((s.tile t).dmas ++ s.savedSeqs.flatMap fun p => p.2.dmas).find? fun d => decide (d.bulk = some tag)

/-- An ACCESS answer stops the issuing command, wherever its sequencer's state is (R311). -/
def bulkAccess (t : Nat) (d : Dma) (a : Nat) (s : State) : State :=
  if ((s.tile t).dmas.any fun x => decide (x.bulk = d.bulk)) then tileAccess t d.owner.num a s
  else
    match queueOf s d.cid with
    | some q => stopCommand q d.cid St.TILE_ACCESS 0 a { s with savedSeqs := Tbl.del s.savedSeqs d.cid }
    | none => s

/-- Data of a part landed in the tile, a 32-byte sector at a time. -/
def landPart (t a : Nat) (data : Bytes) (poison : Bool) (s : State) : State :=
  updTile t (fun x => (List.range (ceilDiv data.length 32)).foldl (fun x i =>
    x.write (a + 32 * i) ((data.drop (32 * i)).take 32) poison) x) s

/-- The destination has acknowledged a bulk request of a TYPE (R297). -/
def bulkAcked (typ : Nat) (m : Msg) (s : State) : State :=
  protoAck m.src.toNat (fun t => decide (leAt t.hdr 0 2 = typ) && decide (leAt t.hdr 4 4 = bulkTag m) && decide (leAt t.hdr 8 4 = bulkOffset m)) s

/-- BULK_RDDATA (R311). -/
def execBulkRddata (m : Msg) (s : State) : Out :=
  receive (.bulkRddata m) 0x32 m (fun m => some [m.src.toNat, leAt m.hdr 4 4, leAt m.hdr 8 4]) (fun _ _ m s =>
    let tag := bulkTag m
    let off := bulkOffset m
    let st := leAt m.hdr 12 1
    match bulkOf s tag off with
    | none => badMsg s
    | some b =>
      let s1 := partDone tag off (bulkAcked 0x31 m s)
      if b.restore then
        match s1.dlx.restore with
        | none => s1
        | some r =>
          if st = 1 then endRestore r St.DLX_BADREQ 0 s1
          else
            let n := min 65536 (r.bytes - (2 ^ 32 * b.tile + off))
            { s1 with dlx := { s1.dlx with restore := some { r with log := Mem.sets r.log 0 (2 ^ 32 * b.tile + off) (slice m.body 0 n) } } } |> restorePump
      else
        match dmaOf s1 b.tile tag with
        | none => s1
        | some d =>
          if st = 1 then bulkAccess b.tile d (d.remote + off) s1
          else landPart b.tile (d.loc + off) (slice m.body 0 (min 65536 (d.len - off))) (decide (st = 2)) s1) s

/-- BULK_ACK (R297, R311). -/
def execBulkAck (m : Msg) (s : State) : Out :=
  receive (.bulkAck m) 0x33 m (fun m => some [m.src.toNat, leAt m.hdr 4 4, leAt m.hdr 8 4]) (fun _ _ m s =>
    let tag := bulkTag m
    let off := bulkOffset m
    match bulkOf s tag off with
    | none => badMsg s
    | some b =>
      let s1 := partDone tag off (bulkAcked 0x30 m s)
      match dmaOf s1 b.tile tag with
      | some d => if leAt m.hdr 12 1 = 1 then bulkAccess b.tile d (d.remote + off) s1 else s1
      | none => s1) s

end Sys2Proof.Machine
end

