-- ==== Sys2Proof/Machine/Admit.lean ====
section
/-! DEFINITION. Chunks on execution units: admission, governed queues, draws granted, and forced suspension (R27 to R32, R378, R379). -/

namespace Sys2Proof.Machine

/-! ## Candidates -/

/-- The cluster state a command has on a cluster: the one loaded there or the one saved for it. -/
def clusterFor (s : State) (cid cl : Nat) : Option (Cluster × List Walker) :=
  match s.cluster? cl with
  | some x =>
    if x.cid = cid then some (x, (walkersOf cl).map s.walker)
    else (Tbl.look? s.savedClusters (32 * cid + cl)).map fun v => (v.cluster, v.walkers)
  | none => (Tbl.look? s.savedClusters (32 * cid + cl)).map fun v => (v.cluster, v.walkers)

/-- The number of a command's next chunk on a unit. -/
def chunkIndex (s : State) (u : Nat) (c : Cmd) : Nat :=
  if u < 24 then c.chunks else ((clusterFor s c.cid (u - 24)).map fun x => x.1.chunks).getD 0

/-- The budget of chunk `i`: the rest of the declared total, or a whole chunk beyond it (R331). -/
def Cmd.budgetAt (c : Cmd) (i : Nat) : Nat := if i * c.chunkB < c.budget then min c.chunkB (c.budget - i * c.chunkB) else c.chunkB

/-- Whether a command has work left for a unit: a tile's always, a cluster's until its walkers have retired END. -/
def unitWants (s : State) (u : Nat) (c : Cmd) : Bool :=
  if u < 24 then decide (c.life = .head)
  else c.clusters.contains (u - 24) && !(match clusterFor s c.cid (u - 24) with | some x => decide (x.1.chunks > 0) && x.2.all (·.ended) | none => false)

/-- Whether the queue serves a unit. -/
def Queue.onUnit (Q : Queue) (u : Nat) : Bool :=
  if u < 24 then decide (Q.target = 1) && decide (3 * Q.tile + Q.seq = u) else decide (Q.target = 2)

/-- Whether a job's chunks may run on a unit now: switched in, or out but for this unit (R36 step 5).  A held job needs no test of its own:
its commands are SUSPENDED until a RESUME releases them (R24). -/
def jobIn (s : State) (u j : Nat) : Bool :=
  match (s.unit u).stay with
  | some k => decide (k = j) && s.resident j
  | none => match s.job? j with | some x => x.switchedIn | none => false

/-- Whether a job may start chunks on a unit (R337, R401): also joined, not stopped, not ending. -/
def jobMayStart (s : State) (u j : Nat) : Bool :=
  jobIn s u j && decide ((s.session j).state = .joined) && (match s.job? j with | some x => x.stopped.isNone && x.ending.isNone | none => false)

/-- The head of a queue, when its next chunk may be admitted on a unit. -/
def unitHead (s : State) (u q : Nat) : Option Cmd :=
  let Q := s.queue q
  match Q.cmds.head? with
  | none => none
  | some c =>
    if Q.en && Q.onUnit u && Q.flush.isNone && !Q.held && isWork c.opcode && c.early.isNone &&
        (decide (c.life = .head) || (decide (c.life = .running) && decide (u ≥ 24))) &&
        !c.suspReq && !c.cancReq && !c.overReq && c.faultReq.isNone && jobMayStart s u c.job && unitWants s u c then some c
    else none

/-- The heads that ask for a unit, in queue order: governed or ordinary. -/
def unitHeads (s : State) (u : Nat) (gov : Bool) : List (Nat × Cmd) :=
  s.enabled.filterMap fun q => if (s.queue q).governed == gov then (unitHead s u q).map fun c => (q, c) else none

/-! ## The governed choice (R379) -/

/-- TJ: the largest of the junction readings (R375). -/
def State.tj (s : State) : Nat := max s.power.die0 (max s.power.die1 s.power.fab)

/-- The factor h as a fraction. -/
def hFactor (s : State) : Nat × Nat :=
  let ts := s.power.limits.tsoft
  if s.tj ≤ ts then (1, 1)
  else
    let n := 105 - s.tj
    let d := 105 - ts
    if 8 * n < d then (1, 8) else (n, d)

/-- Whether an energy fits the frame's governed budget. -/
def energyFits (s : State) (e : Nat) : Bool :=
  let g := s.power.limits.gov
  let (n, d) := hFactor s
  decide (g = 0) || decide ((s.power.govSpent + e) * d ≤ g * n) || (decide (s.power.govSpent = 0) && decide (e * d > g * n))

/-- The governed heads that fit a unit now. -/
def governedFits (s : State) (u : Nat) : List (Nat × Cmd) :=
  (unitHeads s u true).filter fun p =>
    decide (s.pos + p.2.budgetAt (chunkIndex s u p.2) * s.mult ≤ s.W) &&
      decide (chunkDraws s p.2.drawF + s.ledger.held + s.ledger.tail ≤ ledgerLimit s) && energyFits s p.2.energyF

/-- The governed head chosen: the first passed over 64 times, else the largest energy. -/
def governedBest (l : List (Nat × Cmd)) : Option (Nat × Cmd) :=
  match l.find? fun p => decide (p.2.passed ≥ 64) with
  | some p => some p
  | none => l.foldl (fun (b : Option (Nat × Cmd)) p => match b with | some x => if p.2.energyF > x.2.energyF then some p else b | none => some p) none

/-- governed_pick of R379. -/
def governedPick (u : Nat) (s : State) : Option (Nat × Cmd) × State :=
  let l := governedFits s u
  let best := governedBest l
  let note := fun (s : State) (p : Nat × Cmd) =>
    updCid p.1 p.2.cid (fun c => { c with passed := match best with | some b => if b.2.cid = c.cid then 0 else c.passed + 1 | none => c.passed }) s
  (best, l.foldl note s)

/-! ## Starting a chunk -/

/-- A chunk that could run on a unit: queue, command, charge, draws, and whether it resumes one suspended by force. -/
structure Cand where
  q      : Nat
  c      : Cmd
  charge : Nat
  draws  : Nat
  again  : Bool
  deriving DecidableEq, Repr

/-- The forced chunk that comes first on a unit: of a context that is switched in (R32). -/
def forcedCand (s : State) (u : Nat) : Option Cand :=
  (s.unit u).forced.findSome? fun ch =>
    match headOf s ch.queue with
    | some c =>
      if c.cid = ch.cid && (decide (c.life = .running) || decide (c.life = .head)) && jobIn s u c.job then
        some { q := ch.queue, c := c, charge := ch.charge, draws := chunkDraws s c.drawF, again := true }
      else none
    | none => none

/-- A chunk whose charge exceeds W can never fit at this clock (R29). -/
def neverFits (s : State) (u : Nat) (c : Cmd) : Bool := decide (c.budgetAt (chunkIndex s u c) * s.mult > s.W)

/-- FCLK_INT_STAT.NOFIT, once for a command. -/
def noteNoFit (u : Nat) (s : State) : State :=
  (unitHeads s u true ++ unitHeads s u false).foldl (fun s p =>
    if neverFits s u p.2 && !p.2.noFit then raiseInt blkFclk 4 (updCid p.1 p.2.cid (fun c => { c with noFit := true }) s) else s) s

/-- LEDG_INT_STAT.NOFIT (R378), once for a running command whose chunk no longer fits the limit. -/
def noteNoDraw (u : Nat) (s : State) : State :=
  (unitHeads s u true ++ unitHeads s u false).foldl (fun s p =>
    if chunkDraws s p.2.drawF > ledgerLimit s - s.ledger.standing && !p.2.ledgNoFit then
      raiseInt blkLedg 0 (updCid p.1 p.2.cid (fun c => { c with ledgNoFit := true }) s)
    else s) s

/-- A fresh chunk of a head. -/
def freshCand (s : State) (u : Nat) (p : Nat × Cmd) : Cand :=
  { q := p.1, c := p.2, charge := p.2.budgetAt (chunkIndex s u p.2) * s.mult, draws := chunkDraws s p.2.drawF, again := false }

/-- What a unit would run now (R29): a forced chunk, a governed head, or the first ordinary head in queue order that fits. -/
def pickCand (u : Nat) (s : State) : Option Cand × State :=
  match forcedCand s u with
  | some x => (some x, s)
  | none =>
    match governedPick u s with
    | (some p, s1) => (some (freshCand s1 u p), s1)
    | (none, s1) =>
      let l := (unitHeads s1 u false).map (freshCand s1 u)
      (l.find? fun x => decide (s1.pos + x.charge ≤ s1.W), s1)

/-- Whether units admit chunks at all now: the frame's steps are done (R36), Dusk has not begun (R370), the clock is not LOST. -/
def admitting (s : State) : Bool :=
  s.clocked && s.outcomeOk && !s.lost && s.clk.stepsDone && !s.clk.step7Wait && !duskBegun s && decide (s.pos < s.W)

/-- R32's record of the frames a command runs in. -/
def ranNow (f : Nat) (c : Cmd) : Cmd :=
  if c.ranIn = some f then c else { c with ranIn := some f, prevForced := c.nowForced, nowForced := false }

/-- A chunk starts on its unit (R27, R331, R379). -/
def startChunk (u : Nat) (x : Cand) (s : State) : State :=
  let beyond := !x.again && decide (chunkIndex s u x.c * x.c.chunkB ≥ x.c.budget)
  let unit := s.unit u
  let counted := x.again && unit.forced.any fun f => decide (f.cid = x.c.cid) && f.counted
  let ch : Chunk :=
    { queue := x.q, cid := x.c.cid, charge := x.charge, draws := x.draws, begun := s.now, start := s.now, energy := 0, counted := counted,
      held := heldBy (.chunk u) s, used := 0 }
  let forced := if x.again then unit.forced.filter fun c => decide (c.cid ≠ x.c.cid) else unit.forced
  let s1 := setUnit u { unit with run := some ch, asking := none, forced := forced } s
  let s2 := updCid x.q x.c.cid (fun c => ranNow s.clk.fnum { c with
    life := .running, fstart := some (c.fstart.getD s.clk.fnum), chunks := c.chunks + b2n (!x.again), charged := c.charged + x.charge }) s1
  let s3 := if beyond then count Reg.HOST_BUDGETOVR 32 1 s2 else s2
  let s4 := if !x.again && (s.queue x.q).governed then
      { s3 with power := { s3.power with govSpent := s3.power.govSpent + x.c.energyF } } else s3
  if u < 24 then enterSeq (u / 3) (u % 3) x.q x.c s4 else enterCluster (u - 24) x.q x.c (!x.again) s4

/-- A unit's draws are granted: the chunk starts, its charge fixed now (R27), or returns them when it no longer fits (R28). -/
def takeGrant (u : Nat) (s : State) : State :=
  let unit := s.unit u
  let s0 := { s with ledger := { s.ledger with granted := s.ledger.granted.filter (· ≠ u) } }
  match unit.asking with
  | none => if unit.run.isNone then ledgerReturn (.chunk u) s0 else s0
  | some ch =>
    let back := fun (s : State) => ledgerReturn (.chunk u) (setUnit u { unit with asking := none } s)
    match headOf s0 ch.queue with
    | none => back s0
    | some c =>
      let again := unit.forced.any fun f => decide (f.cid = ch.cid)
      let still := if again then jobIn s0 u c.job else (unitHead s0 u ch.queue).isSome
      let charge := if again then ch.charge else c.budgetAt (chunkIndex s0 u c) * s0.mult
      if c.cid = ch.cid && still && admitting s0 && decide (s0.pos + charge ≤ s0.W) then
        startChunk u { q := ch.queue, c := c, charge := charge, draws := ch.draws, again := again } s0
      else back s0

/-- The draws of a candidate asked for; more than the limit less the standing draws are not asked for, and NOFIT is set once (R378). -/
def askDraws (u : Nat) (x : Cand) (s : State) : State :=
  if x.draws > ledgerLimit s - s.ledger.standing then
    if x.c.ledgNoFit then s else raiseInt blkLedg 0 (updCid x.q x.c.cid (fun c => { c with ledgNoFit := true }) s)
  else if x.draws = 0 then startChunk u x s
  else
    let ch : Chunk :=
      { queue := x.q, cid := x.c.cid, charge := x.charge, draws := x.draws, begun := s.now, start := s.now, energy := 0, counted := false,
        held := 0, used := 0 }
    let s1 := ledgerRequest (.chunk u) 2 x.draws (setUnit u { s.unit u with asking := some ch } s)
    if holds (.chunk u) s1 then takeGrant u s1 else s1

/-- admit() of R29. -/
def admitUnit (u : Nat) (s : State) : State :=
  if s.ledger.granted.contains u then takeGrant u s
  else
    let unit := s.unit u
    if !admitting s || unit.run.isSome || unit.asking.isSome || unit.halted then s
    else
      let s1 := noteNoDraw u (noteNoFit u s)
      match pickCand u s1 with
      | (some x, s2) => if s2.pos + x.charge ≤ s2.W then askDraws u x s2 else s2
      | (none, s2) => s2

/-- Every unit in turn (step 7 of R36). -/
def admitAll (s : State) : State := (List.range 56).foldl (fun s u => admitUnit u s) s

/-- CHUNK_ADMIT (R28, R29). -/
def execChunkAdmit (unit : Fin 56) (s : State) : Out := when s.clocked (admitUnit unit) s

/-- Units whose draws have been granted re-enter admission (R28). -/
def takeGrants (s : State) : State := s.ledger.granted.foldl (fun s u => takeGrant u s) s

/-! ## Forced suspension (R24, R31, R32, R43) -/

/-- Whether a running chunk has run longer than its charge (R31). -/
def Chunk.late (ch : Chunk) (s : State) : Bool := decide ((s.now - ch.begun) / 80 > ch.charge)

/-- A unit stopped at its next instruction boundary, its chunk saved; the rest of its charge remains, at least 1 cc. -/
def saveChunk (u : Nat) (s : State) : State :=
  let unit := s.unit u
  match unit.run with
  | none => s
  | some ch =>
    let left := max 1 (ch.charge - (s.now - ch.begun) / 80)
    let s1 := if u < 24 then suspendSeq (u / 3) (u % 3) s else s
    let s2 := releaseChunk u s1
    let saved := { ch with charge := left, held := 0, used := 0, energy := 0, counted := ch.counted || ch.late s }
    setUnit u { s2.unit u with forced := (s2.unit u).forced ++ [saved] } s2

/-- A chunk suspended by force (R31): the command's flag, the second frame in a row (R32), or FCLK_OVR_CLK in a frame with a change of
clock (R43). -/
def forceChunk (u : Nat) (s : State) : State :=
  let unit := s.unit u
  match unit.run with
  | none => s
  | some ch =>
    if unit.halted then s
    else
      let late := !ch.counted && ch.late s
      let s1 := raiseInt blkFclk 3 (saveChunk u (if late then count Reg.FCLK_OVR 32 1 s else s))
      if s.clk.eveChange then count Reg.FCLK_OVR_CLK 32 1 (updCid ch.queue ch.cid (fun c => { c with forced := true }) s1)
      else if s.clk.clkChange then
        updCid ch.queue ch.cid (fun c => { c with forced := true })
          { s1 with clk := { s1.clk with forcedNow := s1.clk.forcedNow ++ [(ch.queue, ch.cid, false)] } }
      else
        let second := (s.queue ch.queue).cmds.any fun c => decide (c.cid = ch.cid) && c.prevForced && !c.overReq
        updCid ch.queue ch.cid (fun c => { c with forced := true, nowForced := true, overReq := c.overReq || c.prevForced })
          { s1 with clk := { s1.clk with forcedNow := s1.clk.forcedNow ++ [(ch.queue, ch.cid, second)] } }

/-- A change of core clock later in the frame: the frame's forced suspensions do not count toward R32, and those of a frame with a change to
Evening count in FCLK_OVR_CLK (R43). -/
def undoForced (eve : Bool) (s : State) : State :=
  s.clk.forcedNow.foldl (fun s p =>
    let s1 := updCid p.1 p.2.1 (fun c => { c with nowForced := false, overReq := c.overReq && !p.2.2 }) s
    if eve then count Reg.FCLK_OVR_CLK 32 1 s1 else s1)
    { s with clk := { s.clk with forcedNow := if eve then [] else s.clk.forcedNow.map fun p => (p.1, p.2.1, false) } }

/-- Overrunning chunks counted once each (R31). -/
def countOverruns (s : State) : State :=
  s.units.foldl (fun s p =>
    match p.2.run with
    | some ch =>
      if !ch.counted && ch.late s then
        count Reg.FCLK_OVR 32 1 (setUnit p.1 { p.2 with run := some { ch with counted := true } } s)
      else s
    | none => s) s

end Sys2Proof.Machine
end

