-- ==== Sys2Proof/Machine/Power.lean ====
section
/-! DEFINITION. Power states: PWR_STATE and PWR_LIMITS, the changes at a tick, Dusk, Night and the wake, temperature, rail telemetry, and
what goes on when the ledger grants (R362 to R384). -/

namespace Sys2Proof.Machine

/-! ## Draws of the states (R368, R384) -/

/-- The standing draws of a state (R384): fixed units, enabled tiles, stacks in service and ports as Dawn left them. -/
def standingFor (noon : Bool) (s : State) : Nat :=
  let pick := fun (a b : Nat) => if noon then a else b
  let ups := (s.zor.ports.filter fun p => decide (p.2.state = 1) || p.2.up).length
  let spares := (s.zor.ports.filter fun p => decide (p.2.state = 4)).length
  pick 56 41 + s.tiles.length * pick 12 7 + (s.dawn.stackUp.filter id).length * pick 8 6 + 4 * ups + spares

/-- The same device with its draws taken from the Noon column. -/
def asNoon (s : State) : State := { s with power := { s.power with state := .noon } }

/-- What a class 1 owner reserves in the present state (R369). -/
def class1Draw (o : Owner) (s : State) : Option Nat :=
  match o with
  | .vecExtra t => (s.tile t).chain.bind fun r =>
      r.cur.map fun c => chainExtra c t r.owner.num s
  | .memGroup _ => some (if s.evening then 3 else 5)
  | .memAdder _ => some (if s.evening then 1 else 2)
  | .link l => (portOfLink s l).map fun p => linkDraw (s.port p)
  | .tableEngine u => some (engineDraw s u)
  | .reduction u =>
    if u ≤ 2 then some (reductionDraw s u)
    else
      let j := (u - 256) / 65536
      match s.job? j, s.layer? j ((u - 256) % 65536) with
      | some x, some L => some (pieceNeed s j x L)
      | _, _ => none
  | .migration _ => some (migDraw s)
  | .lineEngine => some (if s.evening then 5 else 8)
  | .exporter => some (exportDraw s)
  | .restorer => some (restoreDraw s)
  | .refresh => some (refreshDraw s)
  | .digest => some (digestDraw s)
  | _ => none

/-- How far a held reservation lies below its Noon value. -/
def noonGap (s : State) (p : Owner × Nat) : Nat :=
  match class1Draw p.1 (asNoon s) with
  | some n => n - p.2
  | none => 0

/-- The top-up of R368. -/
def topUpUnits (s : State) : Nat := standingFor true s - s.ledger.standing + sumNat (s.ledger.holds.map (noonGap s))

/-- Held reservations raised to their Noon values as far as the top-up covers them. -/
def raiseHolds (s : State) (left : Nat) (l : List (Owner × Nat)) : List (Owner × Nat) × Nat :=
  match l with
  | [] => ([], left)
  | p :: r =>
    let g := min left (noonGap s p)
    let x := raiseHolds s (left - g) r
    ((p.1, p.2 + g) :: x.1, x.2)

/-- The standing draws changed to a lower value: the difference enters the tail. -/
def lowerStanding (n : Nat) (s : State) : State :=
  let d := s.ledger.standing - n
  serveAll { s with ledger := { s.ledger with standing := min n s.ledger.standing, held := s.ledger.held - d, tail := s.ledger.tail + d } }

/-- A granted top-up becomes part of the standing draws; what is left of it goes to the reservations that were held, and the rest to
the tail. -/
def settleTopUp (noon : Bool) (s : State) : State :=
  let got := heldBy .topUp s
  let n := standingFor noon s
  let own := n - s.ledger.standing
  let l := s.ledger
  let rest := l.holds.filter fun p => decide (p.1 ≠ .topUp)
  let x := raiseHolds s (got - own) rest
  serveAll { s with ledger := { l with standing := max n l.standing, holds := x.1, held := l.held - x.2, tail := l.tail + x.2 } }

/-- The standing draws follow the ports after Dawn: those of a port that is neither up nor in training are returned, those of a port that
comes up are asked for. -/
def portDraws (s : State) : State :=
  if !s.ledger.on || !s.outcomeOk || decide (s.power.night ≠ .none) then s
  else
    let n := standingFor (decide (s.power.state = .noon)) s
    if n < s.ledger.standing then lowerStanding n s
    else if holds .ports s then
      let own := min (heldBy .ports s) (n - s.ledger.standing)
      ledgerReturn .ports { s with ledger := { s.ledger with
        standing := s.ledger.standing + own, holds := s.ledger.holds.map fun p => if p.1 = .ports then (p.1, p.2 - own) else p } }
    else if n = s.ledger.standing || asking .ports s || asking .topUp s then s
    else ledgerRequest .ports 0 (n - s.ledger.standing) s

/-! ## State changes -/

/-- A state has taken effect (R368, R376): PWR_INT_STAT.STATE. -/
def inState (st : PState) (s : State) : State :=
  let halved := decide (s.power.state = .noon ∧ st = .evening) || decide (s.power.state = .evening ∧ st = .noon)
  let eve := halved && decide (st = .evening)
  let s0 := if halved then undoForced eve s else s
  let s1 := { s0 with power := { s0.power with state := st },
                      clk := { s0.clk with clkChange := s0.clk.clkChange || halved, eveChange := s0.clk.eveChange || eve } }
  if s.power.state = st then s1 else raiseInt blkPwr 2 s1

/-- The change from Noon to Evening: held draws keep their values, the standing draws fall (R368). -/
def toEvening (s : State) : State := lowerStanding (standingFor false s) (inState .evening s)

/-- A command's effect starts in this frame and is complete. -/
def finishAt (q cid status : Nat) (s : State) : State :=
  endCid q cid status 0 0 (updCid q cid (fun c => { c with fstart := some s.clk.fnum }) s)

/-- A pending PWR_STATE has taken effect. -/
def pendDone (p : PwrPend) (s : State) : State :=
  finishAt p.queue p.cid St.OK { s with power := { s.power with pend := none, tripped := false } }

/-- The top-up of R368 granted: Noon. -/
def noonGranted (s : State) : State :=
  match s.power.pend with
  | some p => if p.asked && holds .topUp s then pendDone p (inState .noon (settleTopUp true s)) else s
  | none => s

/-- A pending state's frame has come (R368): Evening at once, Noon when its top-up is granted. -/
def pendTick (f : Nat) (s : State) : State :=
  match s.power.pend with
  | none => s
  | some p =>
    if p.asked || decide (p.frame > f) then s
    else if p.target = s.power.state then pendDone p s
    else if p.target = .noon then
      let s1 := { s with power := { s.power with pend := some { p with asked := true, frame := f } }, clk := { s.clk with step7Wait := true } }
      noonGranted (ledgerRequest .topUp 0 (topUpUnits s) s1)
    else pendDone p (toEvening s)

/-- Step 7's wait is over once no top-up is outstanding (R368). -/
def waitOver (s : State) : State :=
  let s1 := noonGranted s
  if s1.clk.step7Wait && !(match s1.power.pend with | some p => p.asked | none => false) then
    admitAll { s1 with clk := { s1.clk with step7Wait := false } }
  else s1

/-! ## Commands (R364 to R367) -/

/-- The limits of R364, when every field is in its range. -/
def limitsOf (c : Cmd) : Option Limits :=
  let l : Limits := { noon := c.opnd 0 2, eve := c.opnd 2 2, plimit := c.opnd 4 2, gov := c.opnd 6 4, tsoft := c.opnd 10 1 }
  if 800 ≤ l.noon ∧ l.noon ≤ 3200 ∧ 600 ≤ l.eve ∧ l.eve ≤ l.noon ∧ 400 ≤ l.plimit ∧ l.plimit ≤ 1300 ∧ 70 ≤ l.tsoft ∧ l.tsoft ≤ 104 then
    some l
  else none

/-- PWR_LIMITS (R364 to R366). -/
def execPwrLimits (q : Fin 128) (s : State) : Out :=
  runHead q Op.PWR_LIMITS (fun c s =>
    match limitsOf c with
    | none => endHead q St.PWR_BADLIMIT 0 0 s
    | some l => { s with power := { s.power with pendLim := s.power.pendLim ++ [(q.val, c.cid, l)] } }) s

/-- The rail of the manifest with ROLE 1 (R373). -/
def coreRail (s : State) : Option (Nat × ManRail) :=
  match s.dawn.man.rails.findIdx? fun r => decide (r.role = 1) && decide (r.addr ≠ 0) with
  | some i => some (i, s.dawn.man.rails.getD i ⟨0, 0⟩)
  | none => none

/-- A VOUT_COMMAND written to the core-rail controller. -/
def setVout (mv : Nat) (s : State) : State := { s with power := { s.power with vout := some mv } }

/-- PMBUS_FAIL (R373, R374, R381). -/
def pmbusFail (rail addr : Nat) (s : State) : State :=
  raiseInt blkPwr 3 (fault { code := 0x0051, inst := rail, arg0 := addr, arg1 := (Tbl.look s.power.rails rail Rail.init).vout } s)

/-- Step 2 of R374: the clocks restart and the standing draws are asked for with an empty rise allowance. -/
def wakeDraws (w : Wake) (s : State) : State :=
  let s1 := { s with power := { s.power with night := .waking }, ledger := { s.ledger with on := true, bucket := 0 } }
  ledgerRequest .topUp 0 (standingFor (decide (w.target = .noon)) s) s1

/-- A wake begins (R374): step 1, or step 2 when no rail is named. -/
def wakeStart (s : State) : State :=
  match s.power.wake with
  | none => s
  | some w => if (coreRail s).isSome then setVout 750 { s with power := { s.power with night := .raising } } else wakeDraws w s

/-- PWR_STATE in Noon or Evening; one that ended a Dusk acts at the next tick (R372). -/
def stateAwake (q : Nat) (c : Cmd) (target : PState) (s : State) : State :=
  let f := if s.power.endsDusk = some c.cid then 0 else c.opnd 8 6
  if target = .night ∨ target = .off then
    { s with power := { s.power with dusk := some { target := target, queue := q, cid := c.cid, first := none, frames := 0, ended := false } } }
  else if target = s.power.state then { s with power := { s.power with sameState := s.power.sameState ++ [(q, c.cid)] } }
  else { s with power := { s.power with pend := some { target := target, frame := f, queue := q, cid := c.cid, asked := false } } }

/-- PWR_STATE in Night or on the way into it: a wake, Off at once, or Night again. -/
def stateAsleep (q : Nat) (c : Cmd) (target : PState) (s : State) : State :=
  match target with
  | .night => { s with power := { s.power with sameState := s.power.sameState ++ [(q, c.cid)] } }
  | .off =>
    endHead q St.OK 0 0 { s with power := { s.power with
      dusk := some { target := .off, queue := q, cid := c.cid, first := some s.clk.fnum, frames := 0, ended := true } } }
  | t =>
    let s1 := { s with power := { s.power with wake := some { target := t, latest := t, queue := q, cid := c.cid } } }
    if s.power.night = .asleep then wakeStart s1 else s1

/-- Whether a command is the one a Dusk or a wake ends with since it replaced an earlier one (R367, R372). -/
def heldByPower (cid : Nat) (s : State) : Bool :=
  (match s.power.dusk with | some d => decide (d.cid = cid) | none => false) ||
    (match s.power.wake with | some w => decide (w.cid = cid) | none => false)

/-- PWR_STATE (R364 to R368, R372, R374). -/
def execPwrState (q : Fin 128) (s : State) : Out :=
  runHead q Op.PWR_STATE (fun c s =>
    let t := c.opnd 0 1
    match pwrRefusal t s.power.hold with
    | some st => endHead q st 0 0 s
    | none =>
      if heldByPower c.cid s then s
      else if s.power.night = .none then stateAwake q c (targetState t) s
      else stateAsleep q c (targetState t) s) s

/-! ## The tick -/

/-- At the tick of frame f, before the steps of R36: frame D, or one more frame of Dusk (R370). -/
def duskTick (f : Nat) (s : State) : State :=
  match s.power.dusk with
  | none => s
  | some d =>
    if s.power.night ≠ .none then s
    else
      let d1 := match d.first with
        | none => { d with first := some f }
        | some _ => { d with frames := satTo 8 (d.frames + 1) }
      let s1 := { s with power := { s.power with dusk := some d1 } }
      if d.first.isNone then updCid d.queue d.cid (fun c => { c with fstart := some f }) s1 else s1

/-- PWR_LIMITS commands take effect (R366); LEDG_INT_STAT.OVERHELD follows at the ledger's next cycle. -/
def limitsTick (s : State) : State :=
  s.power.pendLim.foldl (fun s p => finishAt p.1 p.2.1 St.OK { s with power := { s.power with limits := p.2.2 } })
    { s with power := { s.power with pendLim := [] } }

/-- A PWR_STATE that names the current state completes at the next tick (R367). -/
def sameTick (s : State) : State :=
  s.power.sameState.foldl (fun s p => finishAt p.1 p.2 St.OK { s with power := { s.power with tripped := false } })
    { s with power := { s.power with sameState := [] } }

/-- The power effects of a tick that come before step 7 of R36. -/
def powerTick (f : Nat) (s : State) : State :=
  let s1 := sameTick (limitsTick s)
  if s1.power.night = .none then pendTick f s1 else s1

/-! ## Dusk (R370) -/

/-- Whether something that Dusk lets run on is in progress: a page migration, an open flow, a dense piece. -/
def duskBusy (s : State) : Bool :=
  s.urng.up.isSome || s.urng.down.isSome || s.lkp.rflows != [] || s.lkp.oflows != [] ||
    s.dtr.layers.any fun x => decide (x.2.phase = 4) && x.2.running.isSome

/-- Every open flow ended REFUSED, NOT_ADMITTED (R370 step 3), on the owner side and on the requester side. -/
def endFlows (s : State) : State :=
  let s1 := s.lkp.oflows.foldl (fun s p => if p.2.upd then endUpdate p.1 2 2 0 s else endOwner p.1 2 2 0 0 s) s
  s1.lkp.rflows.foldl (fun s p => finalFlow p.1 2 2 s) s1

/-- Once Dusk has ended and the exporter has sent every closed frame, the command completes (steps 3 and 4). -/
def duskDrained (s : State) : State :=
  match s.power.dusk with
  | some d => if d.ended && dlxDrained s && s.power.night = .none then endCid d.queue d.cid St.OK 0 0 s else s
  | none => s

/-- DUSK_END (R370 step 3): at a tick from frame D on, with nothing in progress or DUSKFR frames passed. -/
def execDuskEnd (s : State) : Out :=
  match s.power.dusk with
  | none => .next s
  | some d =>
    match d.first with
    | none => .next s
    | some f =>
      let late := decide (s.clk.fnum ≥ f + regField s Reg.PWR_CFG 7 0)
      when (s.clocked && s.clk.stepsDone && decide (s.pos ≤ 256) && !d.ended && (late || !duskBusy s)) (fun s =>
        duskDrained (endFlows { s with power := { s.power with dusk := some { d with ended := true } } })) s

/-- Every tag-refresh queue drained and every request outstanding at the stacks completed (R158). -/
def settleStacks (s : State) : State :=
  let s1 := (memQueue s).foldl (fun s r => memEffect r s) { s with held := s.held.filter fun h => (memReqOf h.1).isNone }
  s1.stk.chans.foldl (fun s p => iter p.2.tagq.length (tagRefresh1 p.1) s) s1

/-- Every draw returned (step 5 of R370). -/
def returnAll (s : State) : State :=
  let l := s.ledger
  { s with
    ledger := { l with standing := 0, held := 0, tail := l.tail + l.held, waiting := [], holds := [], granted := [] }
    units := Tbl.mapv s.units fun _ u => { u with asking := none } }

/-- In Night. -/
def inNight (s : State) : State :=
  let s1 := inState .night { s with power := { s.power with night := .asleep, tripped := false, dusk := none },
                                    ledger := { s.ledger with on := false, tail := 0 } }
  match s1.power.wake with
  | some _ => wakeStart s1
  | none => s1

/-- The device powers down (R370, R484): PWRDN_REQ_N, and every unit held in reset. -/
def powerDown (s : State) : State :=
  { stopUnits s with power := { s.power with state := .off, shut := true, tripped := false, dusk := none, wake := none },
                     pins := { s.pins with pwrdn := true } }

/-- The tail has run down (R370 step 5): the core clocks stop, and the core rail is set to 0.60 V; with no rail named the device enters Night
at 0.75 V (R373). -/
def nightDrained (s : State) : State :=
  if s.power.night = .draining ∧ s.ledger.tail = 0 then
    let s1 := { s with power := { s.power with night := .lowering }, ledger := { s.ledger with on := false } }
    if (coreRail s).isSome then setVout 600 s1 else pmbusFail 0 0 (inNight s1)
  else s

/-- Step 5 of R370, once the command's record is written: the stacks in self-refresh, the links in low-power idle, every draw returned; Night's entry, or the power-down request. -/
def duskEnter (s : State) : State :=
  match s.power.dusk with
  | none => s
  | some d =>
    let written := !heldCmd s d.queue d.cid && (match (s.queue d.queue).flush with | some c => decide (c.cid ≠ d.cid) | none => true)
    if !d.ended || !written then s
    else if d.target = .off then powerDown s
    else if s.power.night ≠ .none then s
    else
      let s1 := returnAll (settleStacks s)
      nightDrained { s1 with stk := { s1.stk with selfRefresh := true }, zor := { s1.zor with idle := true },
                             power := { s1.power with night := .draining } }

/-- NIGHT_VOLTAGE_SETTLED (R373). -/
def execNightVoltageSettled (s : State) : Out := when (s.live && decide (s.power.night = .lowering)) inNight s

/-- NIGHT_VOLTAGE_TIMEOUT (R373): the rail is set back to 0.75 V and Night entered anyway. -/
def execNightVoltageTimeout (s : State) : Out :=
  when (s.live && decide (s.power.night = .lowering)) (fun s =>
    match coreRail s with
    | some (i, r) => inNight (pmbusFail i r.addr (setVout 750 s))
    | none => inNight s) s

/-! ## The wake (R374) -/

/-- WAKE_VOLTAGE_SETTLED (R374 step 1): the rail confirms 0.75 V, or the device stays in Night. -/
def execWakeVoltageSettled (ok : Bool) (s : State) : Out :=
  match s.power.wake with
  | none => .next s
  | some w =>
    when (s.live && decide (s.power.night = .raising)) (fun s =>
      if ok then wakeDraws w s
      else
        let s1 := { s with power := { s.power with night := .asleep, wake := none } }
        let s2 := match coreRail s with | some (i, r) => pmbusFail i r.addr s1 | none => s1
        endCid w.queue w.cid St.PMBUS_FAIL 0 0 s2) s

/-- Every stack channel in service runs one retraining step (R158). -/
def retrainAll (s : State) : State :=
  s.stk.chans.foldl (fun s p => if p.2.failed then s else retrainOutcome p.1 true s) { s with stk := { s.stk with selfRefresh := false } }

/-- The state a wake ends in (R367): the latest Noon or Evening named, or else the one the device woke for. -/
def Wake.final (w : Wake) : PState := if w.latest = .noon ∨ w.latest = .evening then w.latest else w.target

/-- WAKE_COMPLETE (R374 steps 3 and 4): with the standing draws of the final state granted, stacks and links are back and the command
completes; a latest command that names Night or Off starts its Dusk at the next tick. -/
def execWakeComplete (s : State) : Out :=
  match s.power.wake with
  | none => .next s
  | some w =>
    when (s.live && decide (s.power.night = .waking) && holds .topUp s && !asking .topUp s) (fun s =>
      let final := w.final
      let need := standingFor (decide (final = .noon)) s
      if heldBy .topUp s < need then
        ledgerRequest .topUp 0 (need - heldBy .topUp s) { s with power := { s.power with wake := some { w with target := final } } }
      else
        let on := { s with power := { s.power with night := .none, wake := none, tripped := false }, zor := { s.zor with idle := false }, clk := { s.clk with stepsDone := false } }
        let s1 := inState final (retrainAll (settleTopUp (decide (final = .noon)) on))
        let next : Dusk := { target := w.latest, queue := w.queue, cid := w.cid, first := none, frames := 0, ended := false }
        let s2 := if w.latest = final then endCid w.queue w.cid St.OK 0 0 s1 else { s1 with power := { s1.power with dusk := some next } }
        validateAll s2) s

/-! ## Temperature (R375, R376) -/

/-- The hardware shutdown (R375, R484): every clock stops at once, no record is written. -/
def thermalStop (s : State) : State := { s with power := { s.power with shut := true }, pins := { s.pins with thermtrip := true, priorSd := true } }

/-- THERMAL_SHUTDOWN (R375, R484): in any state, Dawn and FATAL among them. -/
def execThermalShutdown (s : State) : Out := when s.dawn.powered thermalStop s

/-- The code of a state (R386). -/
def PState.code : PState → Nat
  | .noon => 0
  | .evening => 1
  | .night => 2
  | .off => 3

/-- A rise to 105 °C while HOLD is 0 (R375): in Noon every PWR_STATE to Noon that waits for its tick or its top-up ends too. -/
def thermalTrip (tj : Nat) (s : State) : State :=
  let p := s.power
  let die := if p.die0 = tj then 0 else if p.die1 = tj then 1 else 2
  let s1 := raiseIbi 1 (raiseInt blkPwr 0 (count Reg.PWR_TRIPS 32 1 (fault { code := 0x0050, inst := die, arg0 := tj, arg1 := p.state.code } s)))
  let s2 := { s1 with power := { s1.power with hold := true } }
  let s3 := match s2.power.pend with
    | some x =>
      if x.target = .noon then
        endCid x.queue x.cid St.THERMAL_HOLD 0 0 (ledgerReturn .topUp (ledgerDrop .topUp { s2 with power := { s2.power with pend := none } }))
      else s2
    | none => s2
  if s3.power.state = .noon then
    -- a PWR_STATE that waits for its tick in Noon names Noon
    let s4 := toEvening (s3.power.sameState.foldl (fun s p => endCid p.1 p.2 St.THERMAL_HOLD 0 0 s) { s3 with power := { s3.power with sameState := [] } })
    waitOver { s4 with power := { s4.power with tripped := true } }
  else waitOver s3

/-- THERMAL_SAMPLE (R375): the junction sensors, every 4 µs. -/
def execThermalSample (die0 die1 fabric : BitVec 8) (s : State) : Out :=
  when s.answers (fun s =>
    let s0 := { s with power := { s.power with die0 := die0.toNat, die1 := die1.toNat, fab := fabric.toNat } }
    let tj := s0.tj
    if tj ≥ 115 then thermalStop s0
    else if s.flt.fatal then s0
    else
      let soft := decide (tj ≥ s.power.limits.tsoft)
      let s1 := { s0 with power := { s0.power with soft := soft } }
      let s2 := if soft && !s.power.soft then raiseInt blkPwr 4 s1 else s1
      if tj ≥ 105 && !s.power.hold then thermalTrip tj s2
      else if tj < 100 then { s2 with power := { s2.power with hold := false } }
      else s2) s

/-! ## Telemetry (R381, R382) -/

/-- The mean of the package power over the last 64 frames (R381): of the samples taken in them, one in each round of polls, or the last sample
when they brought none (DESIGN CHOICE, log 135). -/
def State.pkgWatts (s : State) : Nat :=
  match (s.power.watts.filter fun w => decide (s.clk.fnum < w.1 + 64)).map (·.2) with
  | [] => (s.power.watts.head?.map (·.2)).getD 0
  | l => sumNat l / l.length

/-- A rail's power enters the energy counted. -/
def railEnergy (vout iout : Nat) (s : State) : State :=
  let e := s.power.energyRest + vout * iout
  { s with power := { s.power with energy := satTo 64 (s.power.energy + e / 4), energyRest := e % 4 } }

/-- The package figures: one sum per round of polls, at the last rail the manifest names.  256 samples are those of 64 of the longest frames. -/
def packagePower (rail : Nat) (s : State) : State :=
  let named := (List.range 8).filter fun i => decide ((s.dawn.man.rails.getD i ⟨0, 0⟩).addr ≠ 0)
  if named.getLast? ≠ some rail then s
  else
    let sum := sumNat (named.map fun i => let r := Tbl.look s.power.rails i Rail.init; if r.valid then r.vout * r.iout else 0) / 4000
    let s2 := { s with power := { s.power with watts := ((s.clk.fnum, sum) :: s.power.watts).take 256 } }
    let above := decide (s2.pkgWatts > s2.power.limits.plimit)
    let s3 := { s2 with power := { s2.power with overPwr := above } }
    if above && !s.power.overPwr then raiseInt blkPwr 1 s3 else s3

/-- The core rail's current held against the ledger (R382): 16 readings in a row above held and tail by more than 5% + 16 A. -/
def coreCurrent (iout : Nat) (s : State) : State :=
  let h := s.ledger.held + s.ledger.tail
  if 20 * iout ≤ 42 * h + 1280 then { s with power := { s.power with overRun := 0 } }
  else
    let n := s.power.overRun + 1
    let s1 := { s with power := { s.power with overRun := n } }
    if n = 16 then raiseInt blkLedg 3 (fault { code := 0x0052, arg0 := iout / 2, arg1 := h } s1) else s1

/-- PMBUS_POLL (R381): a rail controller answers, or fails; one whose VOUT_MODE is another than ULINEAR16 counts as not answering (R480). -/
def execPmbusPoll (rail : Fin 8) (ok : Bool) (vout iout : BitVec 16) (temp : BitVec 8) (s : State) : Out :=
  let m := s.dawn.man.rails.getD rail ⟨0, 0⟩
  when (s.live && (decide (s.dawn.outcome ≠ 0) || decide (s.dawn.stage > 3)) && decide (m.addr ≠ 0)) (fun s =>
    let r := Tbl.look s.power.rails rail Rail.init
    let put := fun (x : Rail) (s : State) => { s with power := { s.power with rails := Tbl.put s.power.rails rail x } }
    if ok && r.linear then
      let s1 := packagePower rail (railEnergy vout.toNat iout.toNat (put { r with vout := vout.toNat, iout := iout.toNat, temp := temp.toNat, valid := true, misses := 0 } s))
      if m.role = 1 then coreCurrent iout.toNat s1 else s1
    else
      let n := r.misses + 1
      let s1 := packagePower rail (count Reg.PWR_PMBERR 32 1 (put { r with misses := n, fail := r.fail || decide (n ≥ 3) } s))
      if n = 3 then pmbusFail rail m.addr s1 else s1) s

/-! ## Grants (R377) -/

/-- Whatever waited for draws that are now held goes on. -/
def afterGrants (s : State) : State :=
  let s1 := takeGrants (waitOver s)
  let s2 := beginCopy true (beginCopy false (rangeCycle s1))
  let s3 := closeCycle (s2.emb.roundOut.foldl (fun s p => continueRound p.1 s) s2)
  restorePump (densePumpAll (sweepCycle (dlxPumpAll (pump (digestCycle (fetchCycle s3))))))

/-- LEDGER_GRANT (R28, R377). -/
def execLedgerGrant (s : State) : Out := when (s.live && s.ledger.on) (fun s => afterGrants (serveAll s)) s

end Sys2Proof.Machine
end

