-- ==== Sys2Proof/Machine/Adant.lean ====
section
/-! DEFINITION. Adant: the NVM, signed objects, reports, sessions, owner keys, physical presence, the seal loop, the lifecycle and the
joining of a job (R387 to R414, R418 to R420, R450). -/

namespace Sys2Proof.Machine

/-! ## Digests and keys (R393, R402) -/

/-- A digest as bytes. -/
def digBytes (d : BitVec 256) : Bytes := toLe 32 d.toNat
/-- SHA-256 of a byte string, as bytes. -/
def sha (bs : Bytes) : Bytes := digBytes (Config.sha256 bs)
/-- A text as ASCII. -/
def ascii (t : String) : Bytes := t.toList.map fun c => BitVec.ofNat 8 c.toNat

/-- The identity digest: SHA-256 of the identity modulus. -/
def State.idDig (s : State) : Bytes := sha s.adnt.idMod
def State.lc (s : State) : LifeCycle := s.adnt.rb.lc

def linkKeyOf (k : Bytes) (jobid : Nat) : Bytes := digBytes (Config.hmac k (ascii "link" ++ toLe 4 jobid))
def sessKeyOf (k id : Bytes) : Bytes := digBytes (Config.hmac k (ascii "session" ++ id))
def kconfOf (k id nonce : Bytes) (policy : Nat) : Bytes := (digBytes (Config.hmac k (ascii "confirm" ++ id ++ nonce ++ toLe 1 policy))).take 16

/-- The codes of R395. -/
def LifeCycle.code : LifeCycle → Nat
  | .manufacture => 0
  | .deployed => 1
  | .retired => 2

/-! ## The NVM (R392, R418 to R420) -/

def nvmRead (s : State) (a n : Nat) : Bytes := Mem.gets s.nvm.mem 0xFF a n
/-- Whether every byte of a region is 0xFF. -/
def nvmBlank (s : State) (base n : Nat) : Bool := !(s.nvm.mem.any fun p => decide (base ≤ p.1) && decide (p.1 < base + n))

/-- Whether what was just programmed reads back right: an open outcome. -/
def nvmGood (s : State) : Bool × State := match freeVal s with | (v, s1) => (v % 2 == 0, s1)

/-- The sectors an object covers erased, and the object programmed. -/
def nvmProgram (base : Nat) (bs : Bytes) (s : State) : State :=
  let n := roundUp 65536 bs.length
  let m := s.nvm.mem.filter fun p => !(decide (base ≤ p.1) && decide (p.1 < base + n))
  { s with nvm := { s.nvm with mem := Mem.sets m 0xFF base bs } }

def dirBase (b : Bool) : Nat := if b then 0x10000 else 0

/-- A directory copy with a correct CRC: DSEQ and ACTIVE (R419). -/
def readDir (s : State) (b : Bool) : Option (Nat × Nat) :=
  let d := nvmRead s (dirBase b) 12
  if crc32c (d.take 8) = leAt d 8 4 then some (leAt d 0 4, leAt d 4 1) else none

/-- The directory in use: copy B, DSEQ and ACTIVE. -/
def dirInUse (s : State) : Option (Bool × Nat × Nat) :=
  match readDir s false, readDir s true with
  | some a, some b => if b.1 > a.1 then some (true, b) else some (false, a)
  | some a, none => some (false, a)
  | none, some b => some (true, b)
  | none, none => none

/-- A directory written to the copy not in use. -/
def writeDir (active : Nat) (s : State) : State :=
  let (b, seq) := match dirInUse s with | some (b, q, _) => (!b, q + 1) | none => (false, 1)
  let d := toLe 4 seq ++ toLe 1 active ++ zeros 3
  nvmProgram (dirBase b) (d ++ toLe 4 (crc32c d)) s

/-- The copy of a kind of object in use: bit 0 boot image, bit 1 core firmware, bit 2 manifest. -/
def activeBits (s : State) : Nat := match dirInUse s with | some (_, _, a) => a | none => 0

/-- Where a copy of an object of a kind lies, and its size. -/
def objBase (kind : Nat) (copy : Bool) : Nat × Nat :=
  match kind with
  | 1 => (if copy then 0x300000 else 0x100000, 0x200000)
  | 2 => (if copy then 0xD00000 else 0x500000, 0x800000)
  | _ => (if copy then 0x1510000 else 0x1500000, 0x10000)

/-- The fields the identity key signs in a rollback record. -/
def Rollback.bytes (r : Rollback) : Bytes :=
  toLe 1 r.lc.code ++ slice r.opkDig 0 32 ++ toLe 4 r.svnFloor ++ toLe 1 r.revMask ++ toLe 4 r.sealBrk ++ toLe 4 r.enrolEpoch ++ toLe 8 r.rbSeq

/-- Where a copy of the rollback record lies. -/
def rbBase (b : Bool) : Nat := if b then 0x30000 else 0x20000

/-- A copy of the rollback record as the NVM holds it: the signed fields, then the signature; none when it is blank. -/
def rbCopy (s : State) (b : Bool) : Option Rollback :=
  let r := nvmRead s (rbBase b) 438
  if r.all (· == 0xFF) then none
  else some {
    lc := match leAt r 0 1 with | 0 => .manufacture | 1 => .deployed | _ => .retired
    opkDig := slice r 1 32, svnFloor := leAt r 33 4, revMask := leAt r 37 1, sealBrk := leAt r 38 4, enrolEpoch := leAt r 42 4,
    rbSeq := leAt r 46 8, sig := slice r 54 384 }

/-- A rollback record signed by a key and written to a copy. -/
def signRb (k : Bytes) (r : Rollback) : Rollback := { r with sig := slice (Config.rsaSign k r.bytes) 0 384 }
def putRb (b : Bool) (r : Rollback) (s : State) : State := nvmProgram (rbBase b) (r.bytes ++ slice r.sig 0 384) s

/-- The four sectors of the identity block: the modulus, the wrapped private key, the PUF helper data and the certificate, the last three after
their length. -/
def idBase (i : Nat) : Nat := 0x40000 + 0x10000 * i
/-- A field of the identity block that follows its length; empty when it is erased. -/
def idField (s : State) (i : Nat) : Bytes :=
  let n := leAt (nvmRead s (idBase i) 4) 0 4
  if n ≤ 65532 then nvmRead s (idBase i + 4) n else []
/-- One of them written. -/
def putIdField (i : Nat) (bs : Bytes) (s : State) : State :=
  nvmProgram (idBase i) (toLe 4 (min 65532 bs.length) ++ bs.take 65532) s

/-- The identity block; none when it is blank. -/
def identOf (s : State) : Option IdBlock :=
  if nvmBlank s 0x40000 0x40000 then none
  else some { modulus := nvmRead s (idBase 0) 384, wrapped := idField s 1, helper := idField s 2, cert := idField s 3 }

/-- The identity block written. -/
def putIdent (i : IdBlock) (s : State) : State :=
  putIdField 3 i.cert (putIdField 2 i.helper (putIdField 1 i.wrapped (nvmProgram (idBase 0) (slice i.modulus 0 384) s)))

/-- Sectors of the NVM erased. -/
def nvmErase (base n : Nat) (s : State) : State :=
  { s with nvm := { s.nvm with mem := s.nvm.mem.filter fun p => !(decide (base ≤ p.1) && decide (p.1 < base + n)) } }

/-- The identity private key, unwrapped anew where this Dawn has not got so far (recovery). -/
def signKey (s : State) : Bytes :=
  if s.adnt.idPriv ≠ [] then s.adnt.idPriv
  else match identOf s with | some i => (Config.pufUnwrap s.adnt.puf i.wrapped i.helper).getD [] | none => []

/-- The rollback record changed, signed and written to the copy not in use (R392); without an identity key (Retired) nothing can be
signed and only the record in use changes. -/
def rewriteRb (f : Rollback → Rollback) (s : State) : Bool × State :=
  let k := signKey s
  if k = [] then (true, { s with adnt := { s.adnt with rb := f s.adnt.rb } })
  else
    let r0 := f s.adnt.rb
    let r1 := { r0 with rbSeq := s.adnt.rb.rbSeq + 1 }
    let r := signRb k r1
    match nvmGood s with
    | (false, s1) => (false, s1)
    | (true, s1) =>
      let s2 := putRb (!s.adnt.rbIsB) r s1
      (true, { s2 with adnt := { s2.adnt with rb := r, rbIsB := !s.adnt.rbIsB } })

/-! ## Signed objects (R389, R390) -/

def obKind (o : Bytes) : Nat := leAt o 0 2
def obSigner (o : Bytes) : Nat := leAt o 2 1
def obKeyIdx (o : Bytes) : Nat := leAt o 3 1
def obSvn (o : Bytes) : Nat := leAt o 4 4
def obLen (o : Bytes) : Nat := leAt o 8 8
def obBind (o : Bytes) : Bytes := slice o 48 32
def obPub (o : Bytes) : Bytes := slice o 80 384
def obBody (o : Bytes) : Bytes := (o.drop 512).take (obLen o)

/-- Whether the signer's key is one the device accepts. -/
def signerOk (rb : Rollback) (o : Bytes) : Bool :=
  if obSigner o = 0 then
    decide (obKeyIdx o < 4) && decide (Config.sha256 (obPub o) = Config.vendorDigest (obKeyIdx o)) && !bitOf rb.revMask (obKeyIdx o)
  else decide (obSigner o = 1) && decide (sha (obPub o) = rb.opkDig)

/-- R390. -/
def objOk (rb : Rollback) (id : Bytes) (kind signer : Nat) (o : Bytes) : Bool :=
  decide (1 ≤ obLen o ∧ obLen o ≤ 2 ^ 26) && decide (o.length = 896 + obLen o) && decide (obKind o = kind) && decide (obSigner o = signer) &&
    signerOk rb o && decide (slice o 16 32 = sha (obBody o)) &&
    Config.rsaVerify (obPub o) (o.take (512 + obLen o)) (o.drop (512 + obLen o)) &&
    ((obBind o).all (· == 0) || decide (obBind o = id))

/-- The signed object stored in a region of the NVM, as long as its header says; empty when that is more than the region holds. -/
def nvmObj (s : State) (base size : Nat) : Bytes :=
  let n := obLen (nvmRead s base 512)
  if 1 ≤ n ∧ n + 896 ≤ size then nvmRead s base (n + 896) else []

/-- The signer the manifest needs: the vendor in Manufacture, else the operator (R408, R426). -/
def manSigner (lc : LifeCycle) : Nat := if lc = .manufacture then 0 else 1

/-! ## Reports (R395) -/

/-- The certificate that goes with a report: none when it does not match the identity key. -/
def certOut (s : State) : Bytes := if s.adnt.certOk then s.adnt.cert else []

/-- A signed report. -/
def report (kind jobid : Nat) (kconf : Bytes) (policy : Nat) (nonce : Bytes) (s : State) : Bytes :=
  let a := s.adnt
  let b :=
    toLe 2 1 ++ toLe 1 a.rb.lc.code ++ toLe 1 a.debug ++ toLe 1 (b2n a.sealOk + 2 * b2n a.sealSince) ++ toLe 1 kind ++ toLe 2 s.addr ++
    toLe 4 jobid ++ toLe 4 a.fwSvn ++ toLe 8 a.rb.rbSeq ++ toLe 4 a.rb.sealBrk ++ toLe 2 (certOut s).length ++ zeros 2 ++
    toLe 6 s.clk.fnum ++ zeros 2 ++ slice kconf 0 16 ++ toLe 1 policy ++ toLe 1 a.dbgMax ++ zeros 6 ++ s.idDig ++ slice a.bootNonce 0 32 ++
    slice nonce 0 32 ++ slice a.bootDig 0 32 ++ slice a.manDig 0 32 ++ slice a.fwDig 0 32 ++ slice a.bekPub 0 384
  b ++ slice (Config.rsaSign a.idPriv b) 0 384

/-! ## Sessions and owner keys (R396 to R401) -/

/-- Whether a POLICY permits a debug level (R400). -/
def permits (policy level : Nat) : Bool := decide (level = 0) || (decide (level = 1) && bitOf policy 0) || (decide (level = 2) && bitOf policy 1)

/-- ATTEST once the BEK is ready: the report and the certificate go to host memory. -/
def attestNow (q : Nat) (c : Cmd) (s : State) : State :=
  endHead q St.OK 0 0 (hostWrite (c.opnd 32 8) (report 0 0 [] 0 (c.opndBytes 0 32) s ++ certOut s) s)

/-- The check of a session grant in the order of R401; 0 when it passes. -/
def grantStatus (j : Nat) (g : Bytes) (k : Option Bytes) (s : State) : Nat :=
  let a := s.adnt
  let slot := leAt g 0 2
  match Tbl.look? a.owners slot with
  | none => St.OWNER_UNKNOWN
  | some m =>
    if !Config.rsaVerify m (g.take 512) (slice g 512 384) || (match k with | some x => decide (x.length ≠ 32) | none => true) then St.SIG_BAD
    else if slice g 16 32 ≠ slice a.bootNonce 0 32 || (match Tbl.look? a.gctr slot with | some n => decide (leAt g 8 8 ≤ n) | none => false) then
      St.NOT_FRESH
    else if slice g 48 32 ≠ s.idDig || leAt g 2 1 % 64 ≠ j then St.SIG_BAD
    else if s.lc = .retired then St.RETIRED
    else if s.lc = .manufacture && !bitOf (leAt g 3 1) 2 then St.POLICY
    else if !a.sealOk then St.SEAL_OPEN
    else if !permits (leAt g 3 1) a.debug then St.POLICY
    else 0

/-- SESSION_OPEN once the BEK is ready (R401, R402). -/
def sessionNow (q : Nat) (c : Cmd) (s : State) : State :=
  let j := c.opnd 0 1 % 64
  let g := c.body
  let x := s.session j
  if x.state ≠ .none ∧ x.state ≠ .open then endHead q St.SESSION_BUSY 0 0 s
  else
    let k := Config.oaepOpen s.adnt.bekPriv (slice g 128 384)
    let st := grantStatus j g k s
    if st ≠ 0 then endHead q st 0 0 s
    else
      let key := k.getD []
      let jobid := leAt g 4 4
      let policy := leAt g 3 1
      let y : Session := { Session.init with
        state := .open, slot := leAt g 0 2, policy := policy, jobid := jobid,
        linkKey := linkKeyOf key jobid, kconf := kconfOf key s.idDig (slice s.adnt.bootNonce 0 32) policy }
      let keys := Tbl.put (Tbl.put s.adnt.keys (2 * j) (BitVec.ofNat 256 (le key))) (2 * j + 1) (BitVec.ofNat 256 (le (sessKeyOf key s.idDig)))
      let s1 := setSession j y { s with adnt := { s.adnt with gctr := Tbl.put s.adnt.gctr (leAt g 0 2) (leAt g 8 8), keys := keys } }
      endHead q St.OK 0 0 s1

/-- A command waits for the BEK. -/
def awaitBek (q cid : Nat) (s : State) : State := { s with adnt := { s.adnt with bekWait := s.adnt.bekWait ++ [(q, cid)] } }

/-- ATTEST (R394, R395, R412). -/
def execAttest (q : Fin 128) (s : State) : Out :=
  runSecure q Op.ATTEST (fun c s =>
    if s.lc = .retired then endHead q St.RETIRED 0 0 s
    else if c.opnd 32 8 % 4096 ≠ 0 then endHead q St.BADCMD 0 0 s
    else if s.adnt.bekReady then attestNow q c s
    else awaitBek q c.cid s) s

/-- SESSION_OPEN (R394, R401, R412). -/
def execSessionOpen (q : Fin 128) (s : State) : Out :=
  runSecure q Op.SESSION_OPEN (fun c s =>
    if s.lc = .retired then endHead q St.RETIRED 0 0 s
    else if s.adnt.bekReady then sessionNow q c s
    else awaitBek q c.cid s) s

/-- The commands that wait for the BEK, in order of arrival, and what a function does with each (R388, R394). -/
def eachBekWaiter (f : Nat → Cmd → State → State) (s : State) : State :=
  s.adnt.bekWait.foldl (fun s p =>
    match headOf s p.1 with
    | some c => if c.cid = p.2 && decide (c.life = .running) then f p.1 c s else s
    | none => s) { s with adnt := { s.adnt with bekWait := [] } }

/-- They go on (R394). -/
def bekWaiters (s : State) : State :=
  eachBekWaiter (fun q c s => if c.opcode = Op.ATTEST then attestNow q c s else sessionNow q c s) s

/-- BEK_READY (R394). -/
def execBekReady (s : State) : Out :=
  when (s.live && s.adnt.idValid && !s.adnt.bekReady) (fun s =>
    let (m, k) := Config.rsaKeyGen s.trngCtr
    bekWaiters { s with trngCtr := s.trngCtr + 1, adnt := { s.adnt with bekPub := m, bekPriv := k, bekReady := true } }) s

/-- The signature of a request (R398): by the operator key, in Manufacture by a vendor image key that is not revoked. -/
def requestSigned (s : State) (msg sig : Bytes) : Bool :=
  if s.lc = .manufacture then
    (List.range 4).any fun i => !bitOf s.adnt.rb.revMask i && Config.signedBy (Config.vendorDigest i) msg sig
  else Config.signedBy (BitVec.ofNat 256 (le s.adnt.rb.opkDig)) msg sig

/-- The freshness of a request (R398). -/
def requestFresh (s : State) (opctr : Nat) (nonce : Bytes) : Bool := decide (opctr > s.adnt.opctr) && decide (nonce = slice s.adnt.bootNonce 0 32)

/-- KEY_REGISTER (R398, R399, R412). -/
def execKeyRegister (q : Fin 128) (s : State) : Out :=
  runSecureNow q Op.KEY_REGISTER (fun c s =>
    let p := c.body
    if s.lc = .retired then (St.RETIRED, 0, s)
    else if !requestSigned s (p.take 448) (slice p 448 384) then (St.SIG_BAD, 0, s)
    else if !requestFresh s (leAt p 4 4) (slice p 8 32) then (St.NOT_FRESH, 0, s)
    else if leAt p 0 2 ≥ 1024 then (St.BADCMD, 0, s)
    else
      let m := slice p 64 384
      let slot := leAt p 0 2
      let owners := if m.all (· == 0) then Tbl.del s.adnt.owners slot else Tbl.put s.adnt.owners slot m
      (St.OK, 0, { s with adnt := { s.adnt with owners := owners, opctr := leAt p 4 4 } })) s

/-- DEBUG_LOCK (R414). -/
def execDebugLock (q : Fin 128) (s : State) : Out :=
  runSecureNow q Op.DEBUG_LOCK (fun c s =>
    if c.opnd 0 1 ≥ s.adnt.debug then (St.LC_FORBIDDEN, 0, s)
    else (St.OK, 0, raiseInt blkAdnt 4 { s with adnt := { s.adnt with debug := c.opnd 0 1 } })) s

/-- The bytes of a certificate at the start of a payload: its DER length. -/
def derLength (p : Bytes) : Nat :=
  let b := leAt p 1 1
  min p.length (if b < 128 then 2 + b else if b = 0x81 then 3 + leAt p 2 1 else 4 + 256 * leAt p 2 1 + leAt p 3 1)

/-- CERT_INSTALL (R393, R396): the certificate must certify the identity key. -/
def execCertInstall (q : Fin 128) (s : State) : Out :=
  runSecureNow q Op.CERT_INSTALL (fun c s =>
    let cert := c.body.take (min 4096 (derLength c.body))
    if !s.adnt.idValid then (St.LC_FORBIDDEN, 0, s)
    else if Config.certKey cert ≠ some s.adnt.idMod then (St.SIG_BAD, 0, s)
    else
      match nvmGood s with
      | (false, s1) => (St.NVM_FAIL, 0, s1)
      | (true, s1) =>
        let s2 := putIdField 3 cert s1
        (St.OK, 0, { s2 with adnt := { s2.adnt with cert := cert, certOk := true } })) s

/-! ## Physical presence (R407, R408, R411, R412) -/

/-- Whether a job is resident. -/
def anyJob (s : State) : Bool := !s.jobs.isEmpty

/-- The check of a lifecycle token (R411); 0 when it passes. -/
def tokenStatus (arg : Nat) (o : Bytes) (s : State) : Nat :=
  let b := obBody o
  let signer := manSigner s.lc
  if s.lc = .retired then St.LC_FORBIDDEN
  else if !objOk s.adnt.rb s.idDig 4 signer o || obBind o ≠ s.idDig || b.length ≠ 388 then St.SIG_BAD
  else if s.lc = .deployed ∧ leAt b 0 4 = 0 then St.LC_FORBIDDEN
  else if leAt b 0 4 ≠ arg then St.SIG_BAD
  else 0

/-- The largest object an operation takes. -/
def objLimit (op : Nat) : Nat := match op with | 2 => 0x10000 | 3 => 0x800000 | _ => 0x10000

/-- The object of a request as the host holds it; empty when it is larger than any region. -/
def fetchObj (s : State) (op addr n : Nat) : Bytes := if n ≤ objLimit op then hostRead s addr n else []

/-- The checks an operation makes of its object and state (R408, R414, R427); 0 when they pass. -/
def presObject (op arg : Nat) (dig o : Bytes) (s : State) : Nat :=
  let rb := s.adnt.rb
  if op ≠ 1 && anyJob s then St.LC_FORBIDDEN
  else
    match op with
    | 1 =>
      if arg = 0 then St.BADCMD
      else if arg > s.dawn.man.dbgMax then St.LC_FORBIDDEN
      else if s.jobs.any fun p => !permits (s.session p.1).policy arg then St.LC_FORBIDDEN
      else 0
    | 2 => if sha o ≠ dig || !objOk rb s.idDig 3 (manSigner s.lc) o then St.SIG_BAD else 0
    | 3 =>
      let k := obKind o
      if sha o ≠ dig || !(k == 1 || k == 2) || !objOk rb s.idDig k 0 o || decide (o.length > (objBase k false).2) then St.SIG_BAD
      else if obSvn o < rb.svnFloor && !bitOf arg 0 then St.SVN_LOW
      else 0
    | 4 => if s.adnt.idValid then 0 else St.LC_FORBIDDEN
    | _ =>
      if s.lc = .retired ∨ (s.lc = .deployed ∧ arg = 0) then St.LC_FORBIDDEN
      else if arg = 0 ∨ arg > 2 then St.BADCMD else if sha o ≠ dig && s.lc ≠ .retired then St.SIG_BAD else tokenStatus arg o s

/-- The check of the authorisation (R398, R408, R414); 0 when it passes.  In Retired only debug unlock is left, and needs none. -/
def presAuth (op arg : Nat) (p : Bytes) (s : State) : Nat :=
  if s.lc = .retired then (if op = 1 then 0 else if op = 5 then St.LC_FORBIDDEN else St.RETIRED)
  else if leAt p 36 1 ≠ op || leAt p 37 1 ≠ arg || !requestSigned s (p.take 512) (slice p 512 384) then St.SIG_BAD
  else if !requestFresh s (leAt p 0 4) (slice p 4 32) then St.NOT_FRESH
  else 0

/-- PRES_REQUEST (R407, R408): every check, then the window opens. -/
def execPresRequest (q : Fin 128) (s : State) : Out :=
  runSecure q Op.PRES_REQUEST (fun c s =>
    let op := c.opnd 0 1
    let arg := c.opnd 1 1
    let p := c.body
    if s.adnt.window.isSome then endHead q St.PRESENCE_BUSY 0 0 s
    else if op = 0 ∨ op > 5 then endHead q St.BADCMD 0 0 s
    else
      let st := presAuth op arg p s
      if st ≠ 0 then endHead q st 0 0 s
      else
        let o := if op = 2 ∨ op = 3 ∨ op = 5 then fetchObj s op (c.opnd 8 8) (c.opnd 16 8) else []
        let st2 := presObject op arg (slice p 38 32) o s
        if st2 ≠ 0 then endHead q st2 0 0 s
        else
          let w : PresWindow := { op := op, arg := arg, queue := q, cid := c.cid, obj := o, out := c.opnd 8 8, since := s.now, hold := none }
          let ctr := if s.lc = .retired then s.adnt.opctr else leAt p 0 4
          raiseInt blkAdnt 3 { s with adnt := { s.adnt with window := some w, opctr := ctr } }) s

/-- PRESENCE_N_CHANGE (R407): an assertion that begins with the window open starts the count of a hold, a release ends it. -/
def execPresenceNChange (low : Bool) (s : State) : Out :=
  when s.answers (fun s =>
    { s with adnt := { s.adnt with
        presIn := low
        window := s.adnt.window.map fun w => { w with hold := if low then (if s.adnt.presIn then w.hold else some s.now) else none } } }) s

/-- The copies of its kind an object is written to: the one not in use; in recovery both. -/
def newCopies (bit : Nat) (s : State) : List Bool :=
  let copy := !bitOf (activeBits s) bit
  if s.adnt.recovery then [!copy, copy] else [copy]

/-- The object written there. -/
def storeObj (kind : Nat) (cs : List Bool) (o : Bytes) (s : State) : State :=
  cs.foldl (fun s copy => nvmProgram (objBase kind copy).1 o s) s

/-- The directory written after each (R419). -/
def activate (bit : Nat) (cs : List Bool) (s : State) : State :=
  cs.foldl (fun s copy => writeDir (setBits (activeBits s) bit bit (b2n copy)) s) s

/-- The owner slots cleared (R411); the last GCTR accepted from a slot since Dawn stands. -/
def clearOwners (s : State) : State := { s with adnt := { s.adnt with owners := [] } }

/-- Retirement (R412): no key is held afterwards, and what waits for the BEK completes. -/
def retire412 (w : PresWindow) (s : State) : Bool × State :=
  let s1 := hostWrite w.out (report 2 0 [] 0 [] s ++ certOut s) s
  match rewriteRb (fun r => { r with lc := .retired }) s1 with
  | (false, s2) => (false, s2)
  | (true, s2) =>
    let a := { s2.adnt with idPriv := [], bekPriv := [], bekPub := [], bekReady := false, idValid := false, keys := [], sessions := [] }
    (true, eachBekWaiter (fun q _ s => endHead q St.RETIRED 0 0 s) (nvmErase (idBase 1) 0x20000 { s2 with adnt := a }))

/-- Re-enrolment (R393, R408): a new identity pair, its modulus signed by the old key.  A write that fails leaves the old pair in use. -/
def reEnrol (w : PresWindow) (s : State) : Bool × State :=
  let (m, k) := Config.rsaKeyGen s.trngCtr
  let (wrap, helper) := Config.pufWrap s.adnt.puf k (s.trngCtr + 1)
  match nvmGood { s with trngCtr := s.trngCtr + 2 } with
  | (false, s1) => (false, s1)
  | (true, s1) =>
    let ident : IdBlock := { modulus := m, wrapped := wrap, helper := helper, cert := s.adnt.cert }
    let s2 := putIdent ident { s1 with
      adnt := { s1.adnt with idMod := m, idPriv := k, certOk := decide (Config.certKey s.adnt.cert = some m) } }
    match rewriteRb (fun r => { r with enrolEpoch := r.enrolEpoch + 1 }) s2 with
    | (false, s3) => (false, { s3 with nvm := s1.nvm, adnt := s1.adnt })
    | (true, s3) => (true, hostWrite w.out (m ++ Config.rsaSign s.adnt.idPriv m) s3)

/-- The effect of an operation after presence (R408): whether the NVM took every change. -/
def presEffect (w : PresWindow) (s : State) : Bool × State :=
  let stored := fun (kind bit : Nat) (f : Rollback → Rollback) (s : State) =>
    match nvmGood s with
    | (false, s1) => (false, s1)
    | (true, s1) =>
      let cs := newCopies bit s1
      match rewriteRb f (storeObj kind cs w.obj s1) with
      | (false, s2) => (false, s2)
      | (true, s2) => (true, activate bit cs s2)
  match w.op with
  | 1 =>
    let a := { s.adnt with debug := w.arg, dbgMax := max s.adnt.dbgMax w.arg }
    rewriteRb id (raiseInt blkAdnt 4 { s with adnt := a })
  | 2 => stored 3 2 id s
  | 3 =>
    let k := obKind w.obj
    stored k (k - 1) (fun r => if bitOf w.arg 0 then r else { r with svnFloor := obSvn w.obj }) s
  | 4 => reEnrol w s
  | _ =>
    if w.arg = 2 then retire412 w s
    else
      let m := (obBody w.obj).drop 4
      let again := decide (s.lc = .deployed)
      match rewriteRb (fun r => { r with lc := .deployed, opkDig := sha m }) s with
      | (ok, s1) => (ok, if ok && again then clearOwners s1 else s1)

/-- Seconds of the time base. -/
def seconds (n : Nat) : Nat := n * 64000000000

/-- Whether a hold of 2 s ends within 30 s of the window's opening (R407). -/
def PresWindow.holdFits (w : PresWindow) : Bool :=
  match w.hold with | some t => decide (t + seconds 2 ≤ w.since + seconds 30) | none => false

/-- PRESENCE_QUALIFIED (R407): the hold that began with the window open has lasted 2 s. -/
def execPresenceQualified (s : State) : Out :=
  match s.adnt.window with
  | none => .next s
  | some w =>
    when (s.live && w.holdFits && decide (w.hold.getD 0 + seconds 2 ≤ s.now)) (fun s =>
      match presEffect w { s with adnt := { s.adnt with window := none } } with
      | (ok, s1) => raiseInt blkAdnt 3 (endCid w.queue w.cid (if ok then St.OK else St.NVM_FAIL) 0 0 s1)) s

/-- PRESENCE_TIMEOUT (R407, R408): 30 s have passed and no hold qualifies. -/
def execPresenceTimeout (s : State) : Out :=
  match s.adnt.window with
  | none => .next s
  | some w =>
    when (s.live && decide (w.since + seconds 30 ≤ s.now) && !w.holdFits) (fun s =>
      let s1 := count Reg.ADNT_PRESFAIL 32 1 { s with adnt := { s.adnt with window := none } }
      raiseInt blkAdnt 3 (endCid w.queue w.cid St.PRESENCE_TIMEOUT 0 0 s1)) s

/-! ## The seal loop (R409, R410) -/

/-- Whether the loop is checked: from stage 2 of Dawn on, and in Manufacture only as the manifest says. -/
def sealOn (s : State) : Bool :=
  s.answers && (decide (s.dawn.stage ≥ 2) || decide (s.dawn.outcome ≠ 0)) &&
    (decide (s.lc ≠ .manufacture) || s.dawn.man.sealEn)

/-- A break (R410): the keys of every job are zeroed, sessions become KEYLESS, the break is recorded. -/
def sealBreak (s : State) : State :=
  let hit := fun (x : Session) => x.state == .open || x.state == .joining || x.state == .joined
  let keyless := (s.adnt.sessions.filter fun p => hit p.2 && p.2.state != .open).map (·.1)
  let wipe := fun (x : Session) =>
    if x.state = .open then Session.init
    else { x with linkKey := [], kconf := [], state := if hit x then .keyless else x.state }
  let s1 := { s with
    jobs := Tbl.mapv s.jobs fun _ j => { j with xtsKey := [] }
    adnt := { s.adnt with keys := [], sessions := Tbl.mapv s.adnt.sessions fun _ x => wipe x } }
  let hits := keyless.filter fun j => s.resident j
  -- the record names the job it stops; without one it names none
  let named : List (Option Nat) := if hits = [] then [none] else hits.map some
  let s2 := raiseInt blkAdnt 0 (named.foldl (fun s2 j => fault { code := 0x0060, job := j, arg0 := s.adnt.rb.sealBrk } s2) s1)
  let s3 := hits.foldl (fun s j => stopJob j St.KEYLESS s) s2
  (rewriteRb (fun r => { r with sealBrk := r.sealBrk + 1 }) s3).2

def updDawn (f : Dawn → Dawn) (s : State) : State := { s with dawn := f s.dawn }

/-- A finding of R437. -/
def finding (bit : Nat) (s : State) : State := updDawn (fun d => { d with cause := d.cause ||| 1 <<< bit }) s

/-- The break of the loop before the outcome is a finding of Dawn (R410, R437). -/
def sealFinding (s : State) : State := if s.dawn.outcome = 0 then finding 9 s else s

/-- SEAL_SAMPLE (R409): SEAL_B sampled, then a new bit driven; the second sample in a row that differs is a break. -/
def execSealSample (b : Bool) (s : State) : Out :=
  when (sealOn s) (fun s =>
    let miss := if b = s.adnt.sealBit then 0 else s.adnt.sealMiss + 1
    let (d, s1) := draw64 s
    let a := { s1.adnt with
      sealBit := d.getLsbD 0, sealMiss := min miss 2, sealChk := true, sealSince := true,
      sealOk := if miss = 0 then true else if miss ≥ 2 then false else s.adnt.sealOk }
    let s2 := { s1 with adnt := a }
    if miss ≥ 2 && s.adnt.sealOk then sealFinding (sealBreak s2) else s2) s

/-! ## Joining a job (R405, R406, R450) -/

/-- This device's join report and certificate. -/
def joinBody (j : Nat) (s : State) : Bytes :=
  let x := s.session j
  report 1 x.jobid x.kconf x.policy [] s ++ certOut s

def joinReqHdr (jobid rank cert : Nat) : Bytes := header (toLe 2 0x80 ++ toLe 4 jobid ++ toLe 2 rank ++ toLe 2 cert)
def joinAckHdr (jobid result cert fail : Nat) : Bytes :=
  header (toLe 2 0x81 ++ toLe 4 jobid ++ toLe 1 result ++ zeros 1 ++ toLe 2 cert ++ toLe 2 fail)

/-- The check of a join report (R405 step 2). -/
def reportOk (s : State) (j rank src : Nat) (body : Bytes) (certLen : Nat) : Bool :=
  let x := s.session j
  let r := body.take 1024
  let cert := (body.drop 1024).take certLen
  let pol := x.policy
  decide (body.length ≥ 1024) &&
  (match Config.certKey cert with
    | some m => decide (slice r 64 32 = sha m) && Config.rsaVerify m (r.take 640) (slice r 640 384)
    | none => false) &&
  decide (leAt r 5 1 = 1) && decide (leAt r 8 4 = x.jobid) && decide (leAt r 12 4 = s.adnt.fwSvn) &&
  decide (slice r 224 32 = slice s.adnt.fwDig 0 32) && decide (leAt r 56 1 = pol) &&
  (decide (leAt r 2 1 = 1) || (decide (leAt r 2 1 = 0) && bitOf pol 2)) &&
  permits pol (leAt r 3 1) && permits pol (leAt r 57 1) && bitOf (leAt r 4 1) 0 &&
  decide (slice r 40 16 = kconfOf (s.kjob j) (slice r 64 32) (slice r 96 32) pol) &&
  decide (leAt r 6 2 = src) && decide (((s.job? j).map fun y => y.addrOf rank) = some src)

/-- JOIN_ACK to one device. -/
def sendJoinAck (j dst result fail : Nat) (s : State) : State :=
  let body := if result = 0 then joinBody j s else []
  sendDevice dst 2 (joinAckHdr (s.session j).jobid result (body.length - 1024) fail) body s

/-- JOIN_ACK to every other rank. -/
def joinAckAll (j result fail : Nat) (s : State) : State :=
  match s.job? j with
  | none => s
  | some x => (List.range x.ndev).foldl (fun s r => if r = x.rank then s else sendJoinAck j (x.addrOf r) result fail s) s

/-- The session is FAILED (R405). -/
def joinFailed (j arg : Nat) (s : State) : State :=
  raiseInt blkAdnt 1 (count Reg.ADNT_JOINFAIL 32 1 (fault { code := 0x0061, job := some j, arg0 := arg }
    (setSession j { s.session j with state := .failed } s)))

def joined (j : Nat) (s : State) : State := setSession j { s.session j with state := .joined } s

/-- After JOB_ADMIT (R405, R450): a job of one device is JOINED; a rank other than 0, or a spare that takes over rank 0, sends its report.
Nothing tells a rank 0 that takes over from one that starts a job: a rank 0 leads, and a free value says whether it asks rank 1 as well. -/
def joinStart (j : Nat) (s0 : State) : State :=
  match s0.job? j with
  | none => s0
  | some x =>
    let (f, s) := if x.rank = 0 ∧ x.ndev > 1 then freeVal s0 else (0, s0)
    let spare := bitOf f 0
    if x.ndev = 1 then joined j s
    else
      let s1 := setSession j { s.session j with state := .joining, verified := [], spare := spare, admitted := s.now } s
      if x.rank = 0 && !spare then s1
      else
        let body := joinBody j s1
        sendDevice (x.addrOf (if spare then 1 else 0)) 3 (joinReqHdr x.jobid x.rank (body.length - 1024)) body s1

/-- The context with a JOBID. -/
def ctxWith (s : State) (jobid : Nat) : Option Nat := (s.jobs.find? fun p => decide (p.2.jobid = jobid)).map (·.1)

/-- A message that was not acted on leaves no identity behind. -/
def unseen (s : State) : State := { s with zor := { s.zor with seen := s.zor.seen.drop 1 } }

/-- A JOIN_REQ at the leader (R405), or at the device a spare asks (R450). -/
def joinReqHere (m : Msg) (s : State) : State :=
  match ctxWith s (leAt m.hdr 2 4) with
  | none => badMsg (unseen s)
  | some j =>
    let x := s.session j
    let rank := leAt m.hdr 6 2
    let own : Nat := ((s.job? j).map (·.rank)).getD 0
    let n : Nat := ((s.job? j).map (·.ndev)).getD 0
    let ok := reportOk s j rank m.src.toNat m.body (leAt m.hdr 8 2)
    if x.state = .joined ∧ (own = 0 ∨ own = 1 ∧ rank = 0) then sendJoinAck j m.src.toNat (b2n !ok) rank s
    else if decide (x.state ≠ .joining) || decide (own ≠ 0) then badMsg (unseen s)
    else if !ok || decide (rank = 0) || decide (rank ≥ n) then joinFailed j rank (joinAckAll j 1 rank s)
    else
      let v := if x.verified.contains rank then x.verified else rank :: x.verified
      let s1 := setSession j { x with verified := v } s
      if v.length + 1 = n then joined j (joinAckAll j 0 0 s1) else s1

/-- JOIN_REQ (R405, R406). -/
def execJoinReq (m : Msg) (s : State) : Out :=
  receiveDevice (.joinReq m) 0x80 m [m.src.toNat, leAt m.hdr 2 4] joinReqHere s

/-- JOIN_ACK (R405, R406). -/
def execJoinAck (m : Msg) (s : State) : Out :=
  receiveDevice (.joinAck m) 0x81 m [m.src.toNat, leAt m.hdr 2 4] (fun m s =>
    match ctxWith s (leAt m.hdr 2 4) with
    | none => badMsg (unseen s)
    | some j =>
      let x := s.session j
      let lead := if x.spare then 1 else 0
      let from_ := (s.job? j).map fun y => y.addrOf lead
      if x.state ≠ .joining ∨ from_ ≠ some m.src.toNat then badMsg (unseen s)
      else if leAt m.hdr 6 1 ≠ 0 then joinFailed j (leAt m.hdr 10 2) s
      else if reportOk s j lead m.src.toNat m.body (leAt m.hdr 8 2) then joined j s
      else joinFailed j lead s) s

/-- JOIN_TIMEOUT (R405): JOINTO seconds after JOB_ADMIT completed. -/
def execJoinTimeout (job : Fin 64) (s : State) : Out :=
  when (s.live && s.resident job && decide ((s.session job).state = .joining) &&
      decide ((s.session job).admitted + seconds (regField s Reg.ADNT_CFG 7 0) ≤ s.now)) (joinFailed job 0xFFFF) s

end Sys2Proof.Machine
end

