-- ==== Sys2Proof/Machine/Debug.lean ====
section
/-! DEFINITION. The debug port: its state spaces, reads, writes, halts, runs and steps (R413 to R416). -/

namespace Sys2Proof.Machine

/-! ## One instruction of a halted core -/

/-- The state of an outcome; a stop leaves the state as it was. -/
def outState (o : Out) (s : State) : State := match o with | .next s1 => s1 | _ => s

/-- A tile instruction by the CLASS and OP of its word. -/
def tileInstr (t : Fin 8) (st : Fin 4) (w : BitVec 128) (s : State) : Out :=
  match bits w.toNat 3 0, bits w.toNat 9 4 with
  | 0, 1 => execCbnd t st w s
  | 0, 2 => execTileEnd t st w s
  | 0, 3 => execJmp t st w s
  | 0, 4 => execSetc t st w s
  | 0, 5 => execAset t st w s
  | 0, 6 => execAinc t st w s
  | 0, 7 => execRbset t st w s
  | 0, 8 => execRbinc t st w s
  | 1, 0 => execWload t st w s
  | 1, 1 => execMma t st w s
  | 1, 2 => execMclose t st w s
  | 2, 0 => execChain t st w s
  | 2, 1 => execUprog t st w s
  | 3, 0 => execDma t st w s
  | 4, 0 => execLmark t st w s
  | 4, 1 => execDefer t st w s
  | _, _ => execNop t st w s

/-- A walker instruction by the operation of its word. -/
def walkInstr (k : Fin 2048) (w : BitVec 32) (s : State) : Out :=
  match bits w.toNat 5 0 with
  | 0x01 => execAdd k w s
  | 0x02 => execSub k w s
  | 0x03 => execAnd k w s
  | 0x04 => execOr k w s
  | 0x05 => execXor k w s
  | 0x06 => execShl k w s
  | 0x07 => execShr k w s
  | 0x08 => execSra k w s
  | 0x09 => execMul k w s
  | 0x0A => execMulhu k w s
  | 0x0B => execSlt k w s
  | 0x0C => execSltu k w s
  | 0x0D => execLui k w s
  | 0x10 => execLd k w s
  | 0x11 => execSt k w s
  | 0x12 => execBeq k w s
  | 0x13 => execBne k w s
  | 0x14 => execBlt k w s
  | 0x15 => execBltu k w s
  | 0x16 => execJal k w s
  | 0x17 => execJr k w s
  | 0x18 => execWalkEnd k w s
  | 0x19 => execWalkCbnd k w s
  | 0x1A => execCsr k w s
  | 0x20 => execXfer k w s
  | 0x21 => execXwait k w s
  | 0x22 => execSbset k w s
  | 0x23 => execLksend k w s
  | 0x24 => execUpsend k w s
  | 0x25 => execHwait k w s
  | 0x26 => execUpclose k w s
  | _ => execWalkNop k w s

/-- The instruction at a sequencer's PC executed. -/
def stepTile (u : Fin 24) (s : State) : State :=
  let t : Fin 8 := ⟨u.val / 3, by omega⟩
  let st : Fin 4 := ⟨u.val % 3, by omega⟩
  let q := (s.tile t).seq st
  match rangeRead q.job (q.base + 16 * q.pc) 16 s with
  | .ok w _ s1 => outState (tileInstr t st (BitVec.ofNat 128 (le w)) s1) s1
  | .unmapped _ s1 => if mayIssue t st s1 then tileAccess t st (q.base + 16 * q.pc) s1 else s1

/-- The instruction at a walker's PC executed. -/
def stepWalker (k : Fin 2048) (s : State) : State :=
  match s.cluster? (clusterOf k) with
  | some c => outState (walkInstr k (BitVec.ofNat 32 (leAt c.prog (4 * (s.walker k).pc) 4)) s) s
  | none => s

/-! ## The selected core or memory (R415, R417) -/

/-- What ADNT_DBGSEL and ADNT_DBGADDR select: class, index, job, address. -/
structure DbgSel where
  cls  : Nat
  idx  : Nat
  job  : Nat
  addr : Nat
  deriving DecidableEq, Repr

def State.dbgSel (s : State) : DbgSel :=
  { cls := regField s Reg.ADNT_DBGSEL 3 0, idx := regField s Reg.ADNT_DBGSEL 15 4, job := regField s Reg.ADNT_DBGSEL 21 16,
    addr := regRaw s Reg.ADNT_DBGADDR }

/-- Whether the index names something of its class. -/
def DbgSel.indexOk (d : DbgSel) : Bool :=
  match d.cls with
  | 0 => decide (d.idx < 24)
  | 1 => decide (d.idx < 2048)
  | 2 => decide (d.idx < 34)
  | 3 => decide (d.idx < 4)
  | 4 => decide (d.idx < 8)
  | _ => true

/-- The number of a link engine or management core. -/
def DbgSel.core (d : DbgSel) : Nat := 64 * d.cls + d.idx

/-- Whether the selected core is halted. -/
def dbgHalted (d : DbgSel) (s : State) : Bool :=
  match d.cls with
  | 0 => decide (d.idx < 24) && (s.unit d.idx).halted
  | 1 => (s.walker d.idx).halted
  | 2 => s.coreHalts.contains d.core
  | 3 => s.coreHalts.contains d.core
  | _ => false

/-- The error that turns an access away (R415, R416): invalid class, powered down, level too low, index or alignment; 0 for none. -/
def dbgError (d : DbgSel) (level : Nat) (s : State) : Nat :=
  if d.cls > 6 then 5
  else if s.power.night ≠ .none then 2
  else if s.adnt.debug < level then 1
  else if !d.indexOk || d.addr % 8 ≠ 0 then 3
  else 0

/-- Words of a sequencer's state space. -/
def seqWord (x : Tile) (q : Seq) (w : Nat) : Option Nat :=
  if w = 0 then some q.pc
  else if w < 8 then some (q.ar w)
  else if w < 12 then some (q.ctr (w - 8))
  else if w < 16 then some (q.rb (w - 12))
  else if w < 32 then some (x.sem (semKey q.job (w - 16)))
  else if w < 48 then some (match q.token (w - 32) with | .empty => 0 | .filling => 1 | .full => 2)
  else none

/-- A sequencer's state space after a write; none for no such word. -/
def putSeqWord (k w v : Nat) (x : Tile) : Option Tile :=
  let q := x.seq k
  if w = 0 then some (x.setSeq k { q with pc := v })
  else if w < 8 then some (x.setSeq k { q with areg := Tbl.put q.areg w (v % 2 ^ 24) })
  else if w < 12 then some (x.setSeq k { q with loop := Tbl.put q.loop (w - 8) (v % 2 ^ 24) })
  else if w < 16 then some (x.setSeq k { q with rbase := Tbl.put q.rbase (w - 12) (v % 2 ^ 48) })
  else if w < 32 then some { x with sems := Tbl.put x.sems (semKey q.job (w - 16)) (v % 16) }
  else if w < 48 then
    some (x.setSeq k { q with tok := Tbl.put q.tok (w - 32) (match v % 4 with | 0 => .empty | 1 => .filling | _ => .full) })
  else none

/-- Words of a walker's state space. -/
def walkWord (x : Walker) (w : Nat) : Option Nat :=
  if w = 0 then some x.pc
  else if w < 17 then some (x.reg (w - 1))
  else if w < 21 then some (x.base (w - 17))
  else if 0x10000 ≤ w ∧ w < 0x10400 then some (le (x.read (8 * (w - 0x10000)) 8))
  else none

/-- A walker's state space after a write. -/
def putWalkWord (w v : Nat) (x : Walker) : Option Walker :=
  if w = 0 then some { x with pc := v }
  else if w < 17 then some (x.setReg (w - 1) v)
  else if w < 21 then some { x with sb := Tbl.put x.sb (w - 17) (v % 2 ^ 48) }
  else if 0x10000 ≤ w ∧ w < 0x10400 then some { x with loc := Mem.sets x.loc 0 (8 * (w - 0x10000)) (toLe 8 v) }
  else none

/-- Where a word of a core's firmware state is kept; none past 4,096 words. -/
def coreKey (d : DbgSel) : Option Nat := if d.addr / 8 < 4096 then some (4096 * d.core + d.addr / 8) else none

/-- A word of firmware state: a free value unless it has been written or read since the core was halted. -/
def readCore (key : Nat) (s : State) : Nat × State :=
  match Tbl.look? s.coreWords key with
  | some v => (v.toNat, s)
  | none =>
    match freeVal s with
    | (v, s1) =>
      if s.coreHalts.contains (key / 4096) then (v, { s1 with coreWords := Tbl.put s1.coreWords key (BitVec.ofNat 64 v) }) else (v, s1)

/-- The firmware runs: the words of its state are open again. -/
def openCore (core : Nat) (s : State) : State := { s with coreWords := s.coreWords.filter fun p => decide (p.1 / 4096 ≠ core) }

/-- Whether eight bytes lie in a tile's memory. -/
def tileHas (x : Tile) (a : Nat) : Bool := decide (a + 8 ≤ x.osBytes) || (decide (afBase ≤ a) && decide (a + 8 ≤ 2 ^ 24))

/-- Size of fabric SRAM. -/
def fabricBytes : Nat := 2 ^ 25

/-- Eight bytes of the selected space; none for a bad address. -/
def dbgLoad (d : DbgSel) (s : State) : Option (Nat × State) :=
  let w := d.addr / 8
  match d.cls with
  | 0 => (seqWord (s.tile (d.idx / 3)) ((s.tile (d.idx / 3)).seq (d.idx % 3)) w).map fun v => (v, s)
  | 1 => (walkWord (s.walker d.idx) w).map fun v => (v, s)
  | 4 => if tileHas (s.tile d.idx) d.addr then some (le ((s.tile d.idx).read d.addr 8), s) else none
  | 5 => if d.addr + 8 ≤ fabricBytes then some (le (Mem.gets s.fabric 0 d.addr 8), s) else none
  | 6 =>
    if d.addr + 8 > rangeBytes then none
    else match rangeRead d.job d.addr 8 s with | .ok b _ s1 => some (le b, s1) | .unmapped _ _ => none
  | _ => (coreKey d).map fun k => readCore k s

/-- Eight bytes written. -/
def dbgStore (d : DbgSel) (v : Nat) (s : State) : Option State :=
  let w := d.addr / 8
  match d.cls with
  | 0 => (putSeqWord (d.idx % 3) w v (s.tile (d.idx / 3))).map fun x => setTile (d.idx / 3) x s
  | 1 => (putWalkWord w v (s.walker d.idx)).map fun x => updWalker d.idx (fun _ => x) s
  | 4 => if tileHas (s.tile d.idx) d.addr then some (updTile d.idx (fun x => x.write d.addr (toLe 8 v) false) s) else none
  | 5 => if d.addr + 8 ≤ fabricBytes then some { s with fabric := Mem.sets s.fabric 0 d.addr (toLe 8 v) } else none
  | 6 =>
    if d.addr + 8 > rangeBytes then none
    else match rangeWrite d.job d.addr (toLe 8 v) s with | .ok _ s1 => some s1 | .unmapped _ _ => none
  | _ => (coreKey d).map fun k => { s with coreWords := Tbl.put s.coreWords k (BitVec.ofNat 64 v) }

/-- The last operation's error. -/
def dbgEnd (err : Nat) (s : State) : State := { s with adnt := { s.adnt with dbgErr := err } }

/-- An operation of the debug port at a level. -/
def debugOp (level : Nat) (f : DbgSel → State → State) (s : State) : Out :=
  when s.answers (fun s =>
    let d := s.dbgSel
    let e := dbgError d level s
    if e ≠ 0 then dbgEnd e s else f d s) s

/-- DBG_READ (R413, R415): state spaces at Observe, memories at Invade. -/
def execDbgRead (s : State) : Out :=
  debugOp (if s.dbgSel.cls ≤ 3 then 1 else 2) (fun d => poweredBy .dbgRead (fun s =>
    match dbgLoad d s with
    | some (v, s1) => dbgEnd 0 (setReg Reg.ADNT_DBGDATA v s1)
    | none => dbgEnd 3 s)) s

/-- DBG_WRITE (R413, R415). -/
def execDbgWrite (s : State) : Out :=
  debugOp 2 (fun d => poweredBy .dbgWrite (fun s =>
    match dbgStore d (regRaw s Reg.ADNT_DBGDATA) s with
    | some s1 => dbgEnd 0 s1
    | none => dbgEnd 3 s)) s

/-- A core halted or released; a cluster's unit counts as halted while one of its walkers is. -/
def setHalt (d : DbgSel) (h : Bool) (s : State) : State :=
  match d.cls with
  | 0 => setUnit d.idx { s.unit d.idx with halted := h } s
  | 1 =>
    let s1 := updWalker d.idx (fun w => { w with halted := h }) s
    let c := clusterOf d.idx
    setUnit (clusterUnit c) { s1.unit (clusterUnit c) with halted := (walkersOf c).any fun k => (s1.walker k).halted } s1
  | _ =>
    let rest := s.coreHalts.filter (· ≠ d.core)
    let s1 := openCore d.core { s with coreHalts := if h then d.core :: rest else rest }
    if h || d.cls ≠ 2 then s1 else pump s1

/-- DBG_HALT (R415): classes 0 to 3. -/
def execDbgHalt (s : State) : Out :=
  debugOp 2 (fun d s => if d.cls > 3 then dbgEnd 5 s else dbgEnd 0 (if dbgHalted d s then s else setHalt d true s)) s

/-- DBG_RUN (R415). -/
def execDbgRun (s : State) : Out :=
  debugOp 2 (fun d s => if d.cls > 3 then dbgEnd 5 s else if dbgHalted d s then dbgEnd 0 (setHalt d false s) else dbgEnd 4 s) s

/-- One instruction of the selected halted core; of a link engine or a management core nothing says what its firmware does in one, so that its
state is open afterwards (log 80). -/
def dbgStep1 (d : DbgSel) (s : State) : State :=
  match d.cls with
  | 0 => if h : d.idx < 24 then stepTile ⟨d.idx, h⟩ s else s
  | 1 => if h : d.idx < 2048 then stepWalker ⟨d.idx, h⟩ s else s
  | _ => openCore d.core s

/-- A halted core runs one instruction and is halted again. -/
def stepHalted (d : DbgSel) (s : State) : State :=
  if d.cls ≤ 1 then setHalt d true (dbgStep1 d (setHalt d false s)) else dbgStep1 d s

/-- DBG_STEP (R415): the core runs one instruction and is halted again. -/
def execDbgStep (s : State) : Out :=
  debugOp 2 (fun d => poweredBy .dbgStep (fun s =>
    if d.cls > 3 then dbgEnd 5 s
    else if !dbgHalted d s then dbgEnd 4 s
    else dbgEnd 0 (stepHalted d s))) s

end Sys2Proof.Machine
end

