-- ==== Sys2Proof/Machine/Jobs.lean ====
section
/-! DEFINITION. Jobs: the admission record, JOB_ADMIT, JOB_END, CTX_SWITCH, and the two commands that run in chunks (R337 to R341). -/

namespace Sys2Proof.Machine

/-! ## The admission record (R339) -/

/-- Whether two spans meet; an empty one meets nothing. -/
def spansMeet (a n b m : Nat) : Bool := decide (n > 0) && decide (m > 0) && decide (a < b + m) && decide (b < a + n)

/-- An entry of a slot plan (R39). -/
def slotEntOf (b : Bytes) : SlotEnt :=
  let v := le b
  { links := bits v 31 0, slot := bits v 37 32, share := bits v 41 38, coll := bits v 63 48, job := bits v 69 64 }

/-- An entry of the stage table (R279). -/
def stageEntOf (b : Bytes) : StageEnt :=
  { first := leAt b 0 2, count := leAt b 2 2, inflight := leAt b 4 2, actBytes := leAt b 8 8 }

/-- The partition of tile `t`. -/
def admitPart (b : Bytes) (t : Nat) : Part :=
  let f := fun (i : Nat) => leAt b (72 + 16 * t + 4 * i) 4
  { osBase := f 0, osSize := f 1, afBase := f 2, afSize := f 3 }

/-- The job an admission record describes; the rank is this device's place in the rank table. -/
def admitOf (me : Nat) (b : Bytes) : Job :=
  let f := fun (o n : Nat) => leAt b o n
  let ndev := f 4 4
  let ranks := (List.range ndev).map fun r => f (f 208 4 + 2 * r) 2
  { jobid := f 0 4, ndev := ndev, seed := f 8 8, floor := f 16 4, ceil := f 20 4, quota := f 24 2, digSamples := f 26 2,
    replMaxLag := f 28 1, gmode := f 29 1, replBytes := f 30 2, replSlots := f 32 4, mergeEntries := f 36 4, mergeSlot := f 40 2,
    utile0 := f 42 1, utile1 := f 43 1, replBase := f 48 8, mergeBase := f 56 8, ustage := f 64 4, dstage := f 68 4,
    parts := (List.range 8).map (admitPart b), stage := f 200 1, nstages := f 201 1,
    slots := (List.range (f 202 2)).map fun i => slotEntOf (slice b (f 212 4 + 16 * i) 16),
    ranks := ranks, stageTab := (List.range (f 201 1)).map fun i => stageEntOf (slice b (f 216 4 + 16 * i) 16),
    rank := (ranks.findIdx? fun r => decide (r = me)).getD 0,
    planOn := false, switchedIn := false, switches := [], fresh := true, held := false, ending := none, stopped := none,
    resumeFrame := 0, gens := [], xtsKey := [], ilKey0 := 0, ilKey1 := 0 }

/-- The three tables of a record: offset and length. -/
def admitTables (b : Bytes) : List (Nat × Nat) :=
  [(leAt b 208 4, 2 * leAt b 4 4), (leAt b 212 4, 16 * leAt b 202 2), (leAt b 216 4, 16 * leAt b 201 1)]

/-- The tables lie on 16 bytes, inside the payload, behind the record and apart from one another. -/
def tablesOk (b : Bytes) : Bool :=
  let l := admitTables b
  let t := fun (i : Nat) => l.getD i (0, 0)
  let apart := fun (i j : Nat) => !spansMeet (t i).1 (t i).2 (t j).1 (t j).2
  l.all (fun p => decide (p.1 % 16 = 0) && (decide (p.2 = 0) || (decide (256 ≤ p.1) && decide (p.1 + p.2 ≤ b.length)))) &&
    apart 0 1 && apart 0 2 && apart 1 2

/-- A partition lies on 512 bytes and inside its tile's memories. -/
def partOk (s : State) (t : Nat) (p : Part) : Bool :=
  let os := match s.tile? t with | some x => x.osBytes | none => 0
  let af := match s.tile? t with | some _ => 2 ^ 24 | none => 0
  [p.osBase, p.osSize, p.afBase, p.afSize].all (fun v => decide (v % 512 = 0)) &&
    (decide (p.osSize = 0) || decide (p.osBase + p.osSize ≤ os)) &&
    (decide (p.afSize = 0) || (decide (afBase ≤ p.afBase) && decide (p.afBase + p.afSize ≤ af)))

/-- A staging region of 1.5 MiB lies inside the job's partition of a tile. -/
def stagingIn (p : Part) (a : Nat) : Bool := decide (p.osBase ≤ a) && decide (a + 0x180000 ≤ p.osBase + p.osSize)

/-- The staging regions lie inside the job's partition of both update tiles, which are on their dies. -/
def stagingOk (s : State) (x : Job) : Bool :=
  [(x.utile0, 0), (x.utile1, 1)].all fun u =>
    match s.tile? u.1 with
    | some t => decide (t.die = u.2) && stagingIn (x.parts.getD u.1 Part.none) x.ustage && stagingIn (x.parts.getD u.1 Part.none) x.dstage
    | none => false

/-- The reserved bytes of a record and of its slot plan are 0. -/
def reservedOk (b : Bytes) : Bool :=
  decide (leAt b 44 4 = 0) && decide (leAt b 204 4 = 0) && (slice b 220 36).all (· == 0) &&
    (List.range (leAt b 202 2)).all fun i =>
      let v := leAt b (leAt b 212 4 + 16 * i) 16
      decide (bits v 47 42 = 0) && decide (bits v 127 70 = 0)

/-- Every field in its range. -/
def fieldsOk (s : State) (x : Job) : Bool :=
  decide (x.jobid ≠ 0) && decide (1 ≤ x.ndev ∧ x.ndev ≤ 65536) && decide (1 ≤ x.quota ∧ x.quota ≤ 4096) && decide (x.digSamples ≤ 1024) &&
    decide (2 ≤ x.replMaxLag ∧ x.replMaxLag ≤ 16) && decide (x.gmode < 8) && decide (x.gmode % 4 ≠ 3) &&
    decide (32 ≤ x.replBytes ∧ x.replBytes ≤ 4096) && decide (x.replBytes % 32 = 0) && decide (x.replSlots ≤ 65536) &&
    decide (32 ≤ x.mergeSlot ∧ x.mergeSlot ≤ 40992) && decide (x.utile0 < 8) && decide (x.utile1 < 8) &&
    decide (x.stage ≤ 63) && decide (x.nstages ≤ 64) && (decide (x.nstages = 0) || decide (x.stage < x.nstages)) &&
    (x.stageTab.all fun e => decide (e.inflight ≤ 1024)) && decide (x.slots.length ≤ 64) &&
    (List.range 8).all (fun t => partOk s t (x.parts.getD t Part.none)) && stagingOk s x && x.ranks.contains s.addr

/-- The record's shape: long enough, with counts that the tables can be read by. -/
def shapeOk (b : Bytes) : Bool :=
  decide (b.length ≥ 256) && decide (leAt b 4 4 ≤ 65536) && decide (leAt b 202 2 ≤ 64) && decide (leAt b 201 1 ≤ 64) && tablesOk b && reservedOk b

/-- The shares reserved on a link in a slot by a list of entries. -/
def shareSum (l : List SlotEnt) (link slot : Nat) : Nat :=
  sumNat (l.filterMap fun e => if e.slot = slot && bitOf e.links link then some (e.share + 1) else none)

/-- Whether a list holds a pair of entries of one slot and collective with common links. -/
def slotTwice (l : List SlotEnt) : Bool :=
  match l with
  | [] => false
  | e :: r => (r.any fun f => decide (f.slot = e.slot) && decide (f.coll = e.coll) && decide (f.links &&& e.links ≠ 0)) || slotTwice r

/-- R40 kept by a new plan beside those of the resident jobs. -/
def planOk (s : State) (l : List SlotEnt) : Bool :=
  let all := l ++ s.jobs.flatMap fun p => p.2.slots
  l.all (fun e => decide (e.share ≤ 11)) && !slotTwice l &&
    l.all fun e => (List.range 32).all fun k => !bitOf e.links k || decide (shareSum all k e.slot ≤ 12)

/-- A partition meets a resident job's (R88). -/
def partConflict (s : State) (x : Job) : Bool :=
  s.jobs.any fun p => (List.range 8).any fun t =>
    let a := x.parts.getD t Part.none
    let b := p.2.parts.getD t Part.none
    spansMeet a.osBase a.osSize b.osBase b.osSize || spansMeet a.afBase a.afSize b.afBase b.afSize

/-- The status of an admission (R340): the first that applies. -/
def admitStatus (s : State) (c : Cmd) : Nat :=
  let b := c.body
  let x := admitOf s.addr b
  let ses := s.session c.job
  if s.lc = .retired then St.RETIRED
  else if ses.state = .keyless then St.KEYLESS
  else if s.resident c.job then St.JOB_BUSY
  else if c.authBad || decide (ses.state ≠ .open) || decide (ses.jobid ≠ leAt b 0 4) then St.SESSION_AUTH
  else if !shapeOk b || !fieldsOk s x then St.JOB_BADREC
  else if s.lost || (decide (s.clk.lock = .freerun) && x.ranks.any fun r => decide (r ≠ s.addr)) then St.NO_TICK
  else if !planOk s x.slots then St.SLOT_PLAN_CONFLICT
  else if x.floor > x.ceil ∨ x.ceil > s.urng.pool ∨ x.floor + sumNat (s.jobs.map fun p => p.2.floor) > s.urng.pool then St.POOL_FLOOR
  else if x.replSlots + sumNat (s.jobs.map fun p => p.2.replSlots) > 262144 then St.REPL_LIMIT
  else if partConflict s x then St.PART_CONFLICT
  else St.OK

/-- An accepted job: its keys are drawn (R143, R183, R299) and the join starts (R405). -/
def admitJob (c : Cmd) (s : State) : State :=
  let (xts, s1) := drawBytes 64 s
  let (k0, s2) := draw64 s1
  let (k1, s3) := draw64 s2
  let (ks, s4) := draw64 s3
  let x := { admitOf s.addr c.body with xtsKey := xts, ilKey0 := k0, ilKey1 := k1 }
  joinStart c.job { s4 with jobs := Tbl.put s4.jobs c.job x, zor := { s4.zor with sprayKeys := Tbl.put s4.zor.sprayKeys c.job ks } }

/-- JOB_ADMIT (R339, R340). -/
def execJobAdmit (q : Fin 128) (s : State) : Out :=
  runNow q Op.JOB_ADMIT (fun c s =>
    let st := admitStatus s c
    (st, 0, if st = St.OK then admitJob c s else s)) s

/-! ## JOB_END (R338) -/

/-- Chains and deferred blocks of a job dropped from the tiles, their extra draws returned. -/
def dropChains (j : Nat) (s : State) : State :=
  s.tiles.foldl (fun s p =>
    let own := match p.2.chain with | some c => decide (c.job = j) | none => false
    let s1 := if own then ledgerReturn (.vecExtra p.1) (ledgerDrop (.vecExtra p.1) s) else s
    updTile p.1 (fun x => { x with
      chain := if own then none else x.chain
      defRun := match x.defRun with | some r => if r.blk.job = j then none else some r | none => none }) s1) s

/-- The tables, replicas and monitor entries of a job dropped. -/
def dropTables (j : Nat) (s : State) : State :=
  let keep := fun (n k : Nat) => decide (k / n ≠ j)
  { s with emb := { s.emb with
    tables := s.emb.tables.filter fun p => keep 4096 p.1
    monitor := s.emb.monitor.filter fun m => decide (m.job ≠ j)
    hot := s.emb.hot.filter fun p => keep 65536 p.1
    slots := s.emb.slots.filter fun p => keep 65536 p.1
    rounds := s.emb.rounds.filter fun x => decide (x.job ≠ j)
    roundOut := s.emb.roundOut.filter fun p => decide (p.1 ≠ j)
    drops := s.emb.drops.filter fun p => decide (p.1 ≠ j)
    cursor := Tbl.del s.emb.cursor j } }

/-- The pages of a job freed (R187). -/
def dropPages (j : Nat) (s : State) : State :=
  let s1 := (s.urng.pages.filter fun p => decide (p.1 / 2 ^ 27 = j)).foldl (fun s p => dropPage p.1 p.2 s) s
  { s1 with urng := { s1.urng with unmaps := s1.urng.unmaps.filter fun u => decide (u.job ≠ j) } }

/-- The context of a job released: tile memory zeroed, engines emptied, pages freed, keys discarded, the session NONE. -/
def releaseJob (j : Nat) (s : State) : State :=
  let jobid := ((s.job? j).map (·.jobid)).getD 0
  let s1 := dropPages j (dropTables j (dropChains j (dropTileJob j s)))
  let s2 := dropJobMessages j jobid (dropExportJob j (dropDenseJob j (dropLookupJob j s1)))
  { s2 with
    jobs := Tbl.del s2.jobs j
    adnt := { s2.adnt with sessions := Tbl.del s2.adnt.sessions j, keys := Tbl.del (Tbl.del s2.adnt.keys (2 * j)) (2 * j + 1) }
    units := Tbl.mapv s2.units fun _ x => if x.stay = some j then { x with stay := none } else x
    savedSeqs := s2.savedSeqs.filter fun p => decide (p.2.seq.job ≠ j) }

/-- A JOB_END that waits for nothing more releases the context and completes. -/
def jobEndDone (q : Nat) (s : State) : State :=
  match headOf s q with
  | some c =>
    if c.opcode = Op.JOB_END && decide (c.life = .running) && decide (c.waits = []) && (s.queue q).flush.isNone &&
        decide (((s.job? c.job).map (·.ending)) = some (some (q, c.cid))) then
      retryRange (endHead q St.OK 0 0 (releaseJob c.job s))
    else s
  | none => s

/-- Every JOB_END looked at. -/
def jobEndsDone (s : State) : State := s.enabled.foldl (fun s q => jobEndDone q s) s

/-- The commands of a job that have ended and whose records are not written yet. -/
def unwritten (s : State) (j : Nat) : List Nat :=
  s.enabled.filterMap fun q => match (s.queue q).flush with
    | some c => if c.job = j && (!deviceOp c.opcode || !(s.queue q).system) then some c.cid else none
    | none => none

/-- JOB_END (R338): commands of the job on other queues are waited for, those the control engine already runs and those whose record still
waits among them. -/
def execJobEnd (q : Fin 128) (s : State) : Out :=
  runJob q Op.JOB_END (fun c s =>
    if ((s.job? c.job).bind (·.ending)).isSome then endHead q St.CANCELLED 0 0 s
    else
      let ts := (jobCommands s c.job).filter fun p => decide (p.2.cid ≠ c.cid)
      let late := ts.filter fun p => decide (p.2.life = .running) && !isWork p.2.opcode && decide (p.1 ≠ q.val)
      let (w, s1) := cancelAll q ts (updJob c.job (fun x => { x with ending := some (q.val, c.cid) }) s)
      jobEndDone q (updHead q (fun y => { y with waits := w ++ (late.map fun p => p.2.cid) ++ unwritten s c.job }) s1)) s

/-! ## CTX_SWITCH (R337) -/

/-- CTX_SWITCH (R337): it takes effect at step 5 of its tick. -/
def execCtxSwitch (q : Fin 128) (s : State) : Out :=
  runJob q Op.CTX_SWITCH (fun c s =>
    let r : CtxReq := { dirIn := decide (c.opnd 0 1 = 1), frame := c.opnd 8 6, queue := q, cid := c.cid }
    updJob c.job (fun x => { x with switches := x.switches ++ [r] }) s) s

/-- Whether a unit's chunk in progress is of a job. -/
def chunkOf (s : State) (x : ExecUnit) (j : Nat) : Bool :=
  match x.run with
  | some ch => (s.queue ch.queue).cmds.any fun c => decide (c.cid = ch.cid) && decide (c.job = j)
  | none => false

/-- A job switched out (step 5 of R36): at once on every unit but those whose chunk the debug port has halted, which keep the context until
the first tick after that chunk has ended. -/
def switchOut (j : Nat) (s : State) : State :=
  let s1 := updJob j (fun y => { y with switchedIn := false }) s
  { s1 with units := Tbl.mapv s1.units fun _ x =>
      if chunkOf s x j && (x.halted || decide (x.stay = some j)) then { x with stay := some j }
      else if x.stay = some j then { x with stay := none } else x }

/-- A job switched in on every unit. -/
def switchIn (j : Nat) (s : State) : State :=
  let s1 := updJob j (fun y => { y with switchedIn := true }) s
  { s1 with units := Tbl.mapv s1.units fun _ x => if x.stay = some j then { x with stay := none } else x }

/-- A CTX_SWITCH is done: it leaves the job's list and completes. -/
def switchDone (f j : Nat) (r : CtxReq) (s : State) : State :=
  let s1 := updJob j (fun y => { y with switches := y.switches.filter fun z => decide (z.cid ≠ r.cid) }) s
  endCid r.queue r.cid St.OK 0 0 (updCid r.queue r.cid (fun c => { c with fstart := some f }) s1)

/-- The switches of a job due at the tick of frame f (step 5 of R36).  One out completes at the tick at which the last unit lets the context
go, or a later one takes it in again (R337). -/
def switchJob (f j : Nat) (s : State) : State :=
  match s.job? j with
  | none => s
  | some x =>
    let s0 := if x.fresh then updJob j (fun y => { y with fresh := false, switchedIn := true }) s else s
    let due := x.switches.filter fun r => decide (r.frame ≤ f)
    let s1 := due.foldl (fun s r => if r.dirIn then switchIn j s else switchOut j s) s0
    let left := s1.units.any fun p => decide (p.2.stay = some j)
    due.foldl (fun s r => if r.dirIn || !left then switchDone f j r s else s) s1

/-- Every job's switches. -/
def switchAll (f : Nat) (s : State) : State := s.jobs.foldl (fun s p => switchJob f p.1 s) s

/-! ## TILE_RUN and WALK -/

/-- TILE_RUN (R92, R341): its next chunk is admitted on the queue's sequencer when it fits. -/
def execTileRun (q : Fin 128) (s : State) : Out :=
  let Q := s.queue q
  when (s.clocked && Q.en && decide (Q.target = 1)) (admitUnit (3 * Q.tile + Q.seq)) s

/-- WALK (R222, R341): its next chunk is admitted on every named cluster on which it fits. -/
def execWalk (q : Fin 128) (s : State) : Out :=
  match headOf s q with
  | some c =>
    when (s.clocked && (s.queue q).en && decide ((s.queue q).target = 2)) (fun s => c.clusters.foldl (fun s i => admitUnit (24 + i) s) s) s
  | none => .next s

end Sys2Proof.Machine
end

