-- ==== Sys2Proof/Machine/Completion.lean ====
section
/-! DEFINITION. Completion records made visible to the host, and what goes on once one is written (R343 to R345). -/

namespace Sys2Proof.Machine

/-- What a written record lets go on: the command's saved unit states are gone, a JOB_END that waited for it releases its job, a power
command's Night entry starts (R370), and the queue's next command and record come up (R327, R335). -/
def afterRecord (q cid : Nat) (s : State) : State :=
  let s1 := { s with savedSeqs := Tbl.del s.savedSeqs cid
                     savedClusters := s.savedClusters.filter fun p => decide (p.2.cluster.cid ≠ cid) }
  validate q (promote q (duskEnter (jobEndsDone s1)))

/-- The waiting record of a queue written if its ring has space. -/
def tryRecord (q : Nat) (s : State) : State :=
  match writeCompletion q s with
  | (some cid, s1) => afterRecord q cid s1
  | (none, s1) => s1

/-- COMPLETION_FLUSH_DONE (R344): every shared byte is visible, the flushing read is back, and the record is written; a full ring
makes the queue HELD. -/
def execCompletionFlushDone (q : Fin 128) (s : State) : Out :=
  when ((s.served || s.limited) && (s.queue q).flush.isSome && !(s.queue q).held) (fun s => tryRecord q (evictDirty s)) s

/-- A HELD queue has space again: a waiting record is written, and commands start again. -/
def unholdQueue (q : Nat) (s : State) : State :=
  let s1 := updQueue q (fun Q => { Q with held := false }) s
  if (s1.queue q).flush.isSome then tryRecord q (evictDirty s1) else promote q s1

/-- HOST_CRHEAD (R343): the host has consumed records; a HELD queue with space goes on. -/
def execHostCrhead (q : Fin 128) (v : Word32) (s : State) : Out :=
  when (s.served || (s.limited && decide (q.val = 0))) (fun s =>
    let Q := s.queue q
    let h := Q.crHead + (v.toNat % 65536 + 65536 - Q.crHead % 65536) % 65536
    let s1 := updQueue q (fun Q => { Q with crHead := h }) s
    if Q.held && !(s1.queue q).ringFull then unholdQueue q s1 else s1) s

end Sys2Proof.Machine
end

