-- ==== Sys2Proof/Machine/Upsets.lean ====
section
/-! DEFINITION. Bit errors in SRAM that the ECC finds: corrected words, poisoned tile words, a job's lost context, the shared structures
(R87, R230, R456, R457, R465). -/

namespace Sys2Proof.Machine

/-- The bank of a tile-local address: banks 0 to 59 of the Operand Store in use, by row of 512 bytes, 60 to 63 of the Accumulator File,
by column (R80, R82). -/
def tileBankOf (t a : Nat) (s : State) : Nat :=
  let x := s.tile t
  if a < 0xF00000 then
    let out := (s.dawn.tiles.getD (5 * x.die + x.phys) ⟨0, 0, 0, 0, 0⟩).osOut
    ((List.range 60).filter fun b => !bitOf out b).getD (a / 512 % x.osBanks) 0
  else 60 + (a - 0xF00000) / 1024 % 4

/-- The job whose partition holds a tile-local address (R88). -/
def tileJobAt (t a : Nat) (s : State) : Option Nat :=
  (s.jobs.find? fun p =>
    let x := p.2.parts.getD t Part.none
    (decide (x.osBase ≤ a) && decide (a < x.osBase + x.osSize)) || (decide (x.afBase ≤ a) && decide (a < x.afBase + x.afSize))).map (·.1)

/-- An uncorrectable word of tile SRAM: marked poisoned (R87) and reported, as a NOTICE outside every partition (R457). -/
def tileUncorrectable (t a : Nat) (s : State) : State :=
  let s1 := updTile t (fun x => { x with poison := Tbl.put x.poison (a / 8) () }) s
  let j := tileJobAt t a s
  fault { code := 0x0001, job := j, inst := t, addr := a / 8 * 8, arg0 := tileBankOf t a s, cls := some (if j.isSome then 2 else 1) } s1

/-- A job's saved state or descriptors lost (R465): the job stops with JOB_FAULTED. -/
def contextLost (j structure_ addr : Nat) (s : State) : State :=
  if s.resident j then stopJob j St.JOB_FAULTED (fault { code := 0x0080, job := some j, addr := addr, arg0 := structure_ } s) else s

/-- An uncorrectable error of what all jobs share, a page table or the intake rings is FATAL (R457). -/
def reserveUncorrectable (block structure_ addr : Nat) (s : State) : State :=
  enterFatal { code := 0x00F0, addr := addr, arg0 := structure_, phys := true, blk := some block } s

/-- What the device does when the ECC finds an error. -/
def upsetFound (s : State) : Upset → State
  | .single => corrected (count Reg.FLT_SRAMCE 64 1 s)
  | .rowCache die set_ one =>
    corrected (count Reg.FLT_SRAMCE 64 (b2n one) { s with lkp := { s.lkp with cache := Tbl.del s.lkp.cache (131072 * die + set_) } })
  | .tile t a => if t < 8 then tileUncorrectable t a s else s
  | .context j k a => contextLost j k a s
  | .reserve b k a => reserveUncorrectable b k a s

/-- The errors present are found, in turn; the model finds them at the next cycle of the time base (DESIGN CHOICE). -/
def findUpsets (s : State) : State :=
  s.upsets.foldl (fun s u => if s.flt.fatal then s else upsetFound s u) { s with upsets := [] }

end Sys2Proof.Machine
end

