-- ==== Sys2Proof/Machine/Held.lean ====
section
/-! DEFINITION. Commands whose work has waited inside the device go on (R146, R161, R178, R190). -/

namespace Sys2Proof.Machine

/-- The meaning of a command whose work may wait for draws, channels or a copied sub-block; no other command waits. -/
def execHeld (i : Instr) (s : State) : Out :=
  match i with
  | .dmaComplete t idx => execDmaComplete t idx s
  | .memRead src pa n ecc => execMemRead src pa n ecc s
  | .memWrite src pa data mask poison ecc => execMemWrite src pa data mask poison ecc s
  | .memAdd src pa addend fmt mask ecc => execMemAdd src pa addend fmt mask ecc s
  | .map q => execMap q s
  | .handback q => execHandback q s
  | .adopt q => execAdopt q s
  | .migrationSubblockCopied up => execMigrationSubblockCopied up s
  | .hostLineResponse job va write data mask poison => execHostLineResponse job va write data mask poison s
  | .publish m => execPublish m s
  | .pubReply m => execPubReply m s
  | .replRow m => execReplRow m s
  | .replEnd m => execReplEnd m s
  | .replDrop m => execReplDrop m s
  | .repair m => execRepair m s
  | .lksend k w => execLksend k w s
  | .upsend k w => execUpsend k w s
  | .lksendResume k => execLksendResume k s
  | .lookupReq m => execLookupReq m s
  | .flowPooled entry => execFlowPooled entry s
  | .lookupReply m => execLookupReply m s
  | .flowEnd m => execFlowEnd m s
  | .flowRetry entry => execFlowRetry entry s
  | .flowTimeout entry => execFlowTimeout entry s
  | .updReq m => execUpdReq m s
  | .mergeDone entry => execMergeDone entry s
  | .updClose m => execUpdClose m s
  | .updateBatch job tid die => execUpdateBatch job tid die s
  | .nojob m => execNojob m s
  | .denseStepStart job layer => execDenseStepStart job layer s
  | .rsData m => execRsData m s
  | .xcredit m => execXcredit m s
  | .verdictExchangeStart job layer => execVerdictExchangeStart job layer s
  | .verdict m => execVerdict m s
  | .agData m => execAgData m s
  | .segFetch m => execSegFetch m s
  | .segFetchTimeout job layer shard seg => execSegFetchTimeout job layer shard seg s
  | .bulkWr m => execBulkWr m s
  | .bulkRdreq m => execBulkRdreq m s
  | .bulkRddata m => execBulkRddata m s
  | .bulkAck m => execBulkAck m s
  | .dataIn q => execDataIn q s
  | .copy q => execCopy q s
  | .rankMove q => execRankMove q s
  | .dlxRec m => execDlxRec m s
  | .dlxClose m => execDlxClose m s
  | .dlxAck m => execDlxAck m s
  | .joinReq m => execJoinReq m s
  | .joinAck m => execJoinAck m s
  | .xferComplete k => execXferComplete k s
  | .dbgRead => execDbgRead s
  | .dbgWrite => execDbgWrite s
  | .dbgStep => execDbgStep s
  | _ => .next s

/-- One of them tries again: its sectors have been counted already. -/
def retryHeld (i : Instr) (s : State) : State :=
  match execHeld i { s with stk := { s.stk with counted := true } } with
  | .next t => { t with stk := { t.stk with counted := false } }
  | _ => s

/-- The waiting commands try again in order of arrival; what is still not ready waits on behind the earlier ones. -/
def runHeld (s : State) : State := s.held.foldl (fun s h => retryHeld h.1 s) { s with held := [] }

end Sys2Proof.Machine
end

