-- ==== Sys2Proof/Machine/Clock.lean ====
section
/-! DEFINITION. The frame clock: TICK copies, alignment and lock states, the steps of a tick, frames in LOST, the maintenance slice, link
delays, and one cycle of the time base (R11 to R44). -/

namespace Sys2Proof.Machine

/-! ## Instants, in units of 2^-6 ns -/

/-- The frame length. -/
def State.frameTu (s : State) : Int := (s.clk.len : Int) * 80
/-- The expected instant of the next frame: a frame of the disciplined timer (R18). -/
def State.expected (s : State) : Int := s.clk.frameStart + s.frameTu + s.clk.trim
def updClk (f : FrameClk → FrameClk) (s : State) : State := { s with clk := f s.clk }

/-- Ports that carry a used link and are in service. -/
def usedPorts (s : State) : List Nat := s.zor.ports.filterMap fun p => if p.2.up && p.2.link.isSome then some p.1 else none

/-- The device is its own primary source (R25). -/
def State.ownSource (s : State) : Bool := decide (s.clk.src0.kind = 1)

/-! ## TICK copies (R14, R15, R17, R19) -/

/-- Whether a copy comes from a named source. -/
def srcMatches (src : TickSrc) (p : Bytes) : Bool :=
  (decide (src.kind = 2) && decide (leAt p 4 1 = 1) && decide (leAt p 2 2 = src.id)) ||
    (decide (src.kind = 3) && decide (leAt p 4 1 = 2) && decide (leAt p 2 2 % 32 = src.id % 32))

/-- Whether a copy's RANK and source are in use: the primary in ACQUIRING, either one in LOST. -/
def rankInUse (s : State) (p : Bytes) : Bool :=
  let r := leAt p 5 1
  let named := if r = 0 then srcMatches s.clk.src0 p else if r = 1 then srcMatches s.clk.src1 p else false
  named && (match s.clk.lock with
    | .acquiring => decide (r = 0)
    | .lost => true
    | .locked => decide (r = b2n s.clk.secondary)
    | .holdover => decide (r = b2n s.clk.secondary)
    | .freerun => false)

/-- The conditions of R14 and R19 that do not look at the frame number or the arrival. -/
def tickFieldsOk (s : State) (crcOk : Bool) (p : Bytes) : Bool :=
  crcOk && decide (leAt p 0 2 = 7) && decide (leAt p 14 4 = s.clk.len) && decide (leAt p 18 1 = s.clk.permille) &&
    decide (leAt p 6 2 = leAt p 8 6 % 65536) && rankInUse s p

def absDiff (a b : Int) : Int := if a < b then b - a else a - b

/-- The open gathering of a frame number and rank. -/
def gatherOf (s : State) (fnum rank : Nat) : Option Gather := s.clk.gathers.find? fun g => decide (g.fnum = fnum) && decide (g.rank = rank)

/-- A copy joins the gathering of its frame, or opens it: the 200 ns count from the arrival stamp of the first copy (R17). -/
def joinGather (gs : List Gather) (arr : Int) (fnum rank port : Nat) (c : Int) : List Gather :=
  if gs.any fun g => decide (g.fnum = fnum) && decide (g.rank = rank) then
    gs.map fun g => if g.fnum = fnum ∧ g.rank = rank then { g with copies := g.copies ++ [(port, c)] } else g
  else gs ++ [{ fnum := fnum, rank := rank, since := arr.toNat, copies := [(port, c)] }]

/-- Whether a copy arrived after the gathering of its frame ended, though that end has not been taken up yet. -/
def pastWindow (g : Option Gather) (arr : Int) : Bool := match g with | some x => decide (arr > x.since + 12800) | none => false

def rejectTick (s : State) : State := count Reg.FCLK_REJECT 32 1 s
def lateTick (port : Nat) (s : State) : State := count (Reg.FCLK_OUTLIER port) 32 1 s

/-- A valid copy joins its gathering. -/
def gatherCopy (port rank f : Nat) (arr c corr : Int) (s : State) : State :=
  updClk (fun k => { k with gathers := joinGather k.gathers arr f rank port c, lastCorr := Tbl.put k.lastCorr port corr }) s

/-- A copy with good fields while LOCKED or in HOLDOVER.  One of the frame that runs, within 100 ns of the instant at which that frame was
expected, is late (R17). -/
def tickLocked (port f : Nat) (arr c corr : Int) (s : State) : State :=
  if s.clk.lock = .locked && decide (f = s.clk.fnum) && decide (absDiff c s.clk.due ≤ 6400) then lateTick port s
  else if absDiff c s.expected > 6400 then rejectTick s
  else if f ≠ s.clk.fnum + 1 then rejectTick (updClk (fun k => { k with renumNow := some ((f : Int) - (s.clk.fnum + 1 : Nat)) }) s)
  else if pastWindow (gatherOf s f (b2n s.clk.secondary)) arr then lateTick port s
  else gatherCopy port (b2n s.clk.secondary) f arr c corr s

/-- A copy with good fields in ACQUIRING or LOST: of a frame whose gathering has ended it is late; no condition on the frame number holds
(R19), so each frame number received has a gathering of its own. -/
def tickSeeking (port rank f : Nat) (arr c corr : Int) (s : State) : State :=
  let run := if rank = 0 then s.clk.run0 else s.clk.run1
  let g := gatherOf s f rank
  if run.count > 0 && g.isNone && decide (f = run.fnum) && decide (2 * absDiff c run.arr < s.frameTu) then lateTick port s
  else if pastWindow g arr then lateTick port s
  else gatherCopy port rank f arr c corr s

/-- TICK (R14 to R17, R19): a copy on a link without a valid delay is ignored. -/
def execTick (port : Fin 34) (arr : Int) (crcOk : Bool) (payload : Bytes) (s : State) : Out :=
  match Tbl.look? s.clk.delay port with
  | none => .next s
  | some d =>
    when s.live (fun s =>
      let corr := sx 32 (leAt payload 20 4)
      let c := arr - corr - d
      let f := leAt payload 8 6
      if s.clk.lock = .freerun then rejectTick s
      else if !tickFieldsOk s crcOk payload then rejectTick s
      else
        match s.clk.lock with
        | .locked => tickLocked port f arr c corr s
        | .holdover => tickLocked port f arr c corr s
        | _ => tickSeeking port (leAt payload 5 1) f arr c corr s) s

/-! ## Alignment (R17, R21) -/

/-- The median; the mean of the two middle values is rounded down. -/
def median (l : List Int) : Int :=
  let v := sortBy (fun (a b : Int) => decide (a < b)) l
  let n := v.length
  if n % 2 = 1 then v.getD (n / 2) 0 else (v.getD (n / 2 - 1) 0 + v.getD (n / 2) 0) / 2

/-- The tick instant of a gathering (R17), and the ports whose copies are excluded; with none left the first median stands. -/
def tickInstant (g : Gather) : Int × List Nat :=
  let m := median (g.copies.map (·.2))
  let kept := g.copies.filter fun x => decide (absDiff x.2 m ≤ 640)
  (if kept = [] then m else median (kept.map (·.2)), (g.copies.filter fun x => decide (absDiff x.2 m > 640)).map (·.1))

/-- FCLK_OFFSET (R44): units of 0.25 ns, saturating at 16 bits.  DESIGN CHOICE (log 103): LAST is rounded down to its unit, which R44 leaves
open. -/
def noteOffset (d : Int) (s : State) : State :=
  let v := max (-32768) (min 32767 (d / 16))
  let peak := max (regField s Reg.FCLK_OFFSET 31 16) v.natAbs
  setReg Reg.FCLK_OFFSET (wrapInt 16 v + peak * 65536) s

/-- The timer is disciplined by the interval between two ticks received (R18): the frame it counts from now on is that interval to within
0.5 ppm.  Where in that bound it lies is a free value (DESIGN CHOICE, log 104). -/
def discipline (interval : Int) (s : State) : State :=
  let bound := s.clk.len * 80 / 2000000
  match freeVal s with
  | (v, s1) => updClk (fun k => { k with trim := interval - s.frameTu + ((v % (2 * bound + 1) : Nat) : Int) - (bound : Int) }) s1

/-- A tick taken into a run of R21: consecutive numbers, within 20 ns of the estimate, or the first of a new run. -/
def TickRun.take (r : TickRun) (len t : Int) (f : Nat) : TickRun :=
  if r.count > 0 && decide (f = r.fnum + 1) && decide (absDiff t (r.arr + len) ≤ 1280) then { count := r.count + 1, fnum := f, arr := t }
  else { count := 1, fnum := f, arr := t }

/-! ## The start of a frame and the steps of R36 -/

/-- Frame `f` starts at an instant: FCLK_FNUM, pos, and what is counted per frame. -/
def startFrame (f : Nat) (t : Int) (s : State) : State :=
  let s1 := faultSummaries s
  { s1 with
    clk := { s1.clk with fnum := f % 2 ^ 48, frameStart := t, due := s1.expected, stepsDone := false, windowDone := false, sliceDone := false,
                         reserveDone := false, clkChange := false, eveChange := false, forcedNow := [],
                         renumNow := none, sliceUsed := 0, digest := 0 }
    power := { s1.power with govSpent := 0 }
    emb := { s1.emb with sampled := [] }
    zor := { s1.zor with nctr := [], authRaised := false }
    stk := { s1.stk with chans := Tbl.mapv s1.stk.chans fun _ c => { c with ceFrame := 0, load := 0 } } }

/-- The plans of every resident job are effective (step 6). -/
def plansOn (s : State) : State := { s with jobs := Tbl.mapv s.jobs fun _ j => { j with planOn := true } }

/-- A chunk that waits for its draws gives its request up, with what it accrued (R29): at a tick it holds no draws. -/
def dropAsk (u : Nat) (s : State) : State :=
  if (s.unit u).asking.isSome then ledgerReturn (.chunk u) (ledgerDrop (.chunk u) (setUnit u { s.unit u with asking := none } s)) else s

/-- Every unit's request given up. -/
def dropAsks (s : State) : State :=
  let s1 := s.units.foldl (fun s p => dropAsk p.1 s) s
  { s1 with ledger := { s1.ledger with granted := [] } }

/-- Steps 2 to 7 of R36 for frame `f`, which has started; in Night only the power state moves (R42). -/
def tickSteps (f : Nat) (s : State) : State :=
  let s0 := duskTick f (dropAsks s)
  if s0.power.night ≠ .none then updClk (fun k => { k with stepsDone := true }) (powerTick f s0)
  else
    let s1 := replicaStep f (midnight f (exportTick f s0))
    let s2 := powerTick f (unmapEffects (switchAll f s1))
    let s3 := spareSwaps (lookupFrame f (plansOn s2))
    let s4 := updClk (fun k => { k with stepsDone := true }) s3
    pump (promoteAll (if s4.clk.step7Wait then s4 else admitAll s4))

/-- A tick: the frame starts and the steps are performed. -/
def newFrame (f : Nat) (t : Int) (s : State) : State := tickSteps f (startFrame f t s)

/-- The device locks to a source (R21, R23): out of LOST the steps of R36 resume at the next tick. -/
def lockTo (rank f : Nat) (t : Int) (s : State) : State :=
  let was := s.clk.lock
  let s1 := updClk (fun k => { k with
    lock := .locked, secondary := decide (rank = 1), holdCnt := 0, gathers := [], run0 := ⟨0, 0, 0⟩, run1 := ⟨0, 0, 0⟩,
    renumNow := none, renumCnt := 0, renumDelta := 0 }) s
  updClk (fun k => { k with due := t }) (if was = .lost then startFrame f t s1 else newFrame f t s1)

/-- A gathering has ended in ACQUIRING or LOST: eight ticks of a run lock.  A secondary that qualifies while the primary's copies of the
same tick are being gathered gives way to the primary if that qualifies too (R23). -/
def seekEnd (rank f : Nat) (t : Int) (s : State) : State :=
  let r0 := if rank = 0 then s.clk.run0 else s.clk.run1
  let r := r0.take s.frameTu t f
  let s1 := updClk (fun k => { k with run0 := if rank = 0 then r else k.run0, run1 := if rank = 0 then k.run1 else r }) s
  if r.count ≥ 8 then
    if rank = 1 && s.clk.gathers.any (fun g => decide (g.rank = 0)) then s1 else lockTo rank f t (discipline (t - r0.arr) s1)
  else if rank = 0 && decide (s1.clk.run1.count ≥ 8) then lockTo 1 s1.clk.run1.fnum s1.clk.run1.arr s1
  else s1

/-- The gathering that ends next (R17): the one whose first copy came first, the primary's in a tie. -/
def nextGather (s : State) : Option Gather :=
  s.clk.gathers.foldl (fun (b : Option Gather) g =>
    match b with
    | some x => if g.since < x.since ∨ (g.since = x.since ∧ g.rank < x.rank) then some g else some x
    | none => some g) none

/-- The gathering of R17 ends (R21, R23).  A tick that follows one received disciplines the timer. -/
def gatherEnd (g : Gather) (s : State) : State :=
  let (t, out) := tickInstant g
  let s1 := out.foldl (fun s p => lateTick p s) s
  let s2 := updClk (fun k => { k with gathers := k.gathers.filter (· ≠ g) }) s1
  match s2.clk.lock with
  | .acquiring => seekEnd g.rank g.fnum t s2
  | .lost => seekEnd g.rank g.fnum t s2
  | _ =>
    let s3 := noteOffset (t - s.expected) s2
    let d := fun (s : State) => if s2.clk.lock = .locked then discipline (t - s2.clk.frameStart) s else s
    d (newFrame g.fnum t (updClk (fun k => { k with lock := .locked, holdCnt := 0, renumCnt := 0, renumDelta := 0 }) s3))

/-! ## Missed ticks and LOST (R23, R24) -/

/-- Dmax of R23. -/
def dMax (s : State) : Int :=
  (usedPorts s).foldl (fun (m : Int) p =>
    match Tbl.look? s.clk.delay p with
    | some d => max m (d + Tbl.look s.clk.lastCorr p 0)
    | none => m) 0

/-- A TILE_RUN or WALK of a resident job becomes SUSPENDED; a SUSPEND that waits for it is done. -/
def holdCommand (s : State) (p : Nat × Cmd) : State :=
  if isWork p.2.opcode && p.2.early.isNone && s.resident p.2.job then
    satisfy Op.SUSPEND p.2.cid false (updCid p.1 p.2.cid (fun c => { c with life := .suspended, susp := true, suspReq := false }) s)
  else s

/-- Units stop: running chunks are saved where they stand, draws asked for are given up. -/
def stopAllUnits (s : State) : State :=
  s.units.foldl (fun s p =>
    dropAsk p.1 (saveChunk p.1 s)) s

/-- The clock enters LOST (R24): units stop, commands are suspended, jobs are held, the exporter closes what it has and stops. -/
def enterLost (r : Report) (s0 : State) : State :=
  let s := dlxCloseAll s0.clk.fnum s0
  let s1 := raiseInt blkFclk 2 (fault r (updClk (fun k => { k with
    lock := .lost, gathers := [], run0 := ⟨0, 0, 0⟩, run1 := ⟨0, 0, 0⟩, renumNow := none, renumCnt := 0, renumDelta := 0,
    step7Wait := false }) s))
  let s2 := stopAllUnits s1
  let cmds := s2.enabled.flatMap fun q => (s2.queue q).cmds.map fun c => (q, c)
  let s3 := cmds.foldl holdCommand s2
  { s3 with jobs := Tbl.mapv s3.jobs fun _ j => { j with held := true }, ledger := { s3.ledger with granted := [] } }

/-- A frame in LOST: FCLK_FNUM and pos only; a layer's stall time does not run. -/
def lostFrame (s : State) : State :=
  let s1 := startFrame (s.clk.fnum + 1) s.expected s
  { s1 with dtr := { s1.dtr with layers := Tbl.mapv s1.dtr.layers fun _ l => { l with progress := l.progress + 1 } } }

/-- The run of renumbered ticks after a missed one (R23): length and difference. -/
def renumRun (k : FrameClk) : Nat × Int :=
  match k.renumNow with
  | none => (0, 0)
  | some d => if k.renumCnt > 0 ∧ d = k.renumDelta then (k.renumCnt + 1, d) else (1, d)

/-- A missed tick (R23). -/
def missTick (s : State) : State :=
  let f := s.clk.fnum + 1
  let t := s.expected
  let (n, d) := renumRun s.clk
  let s1 := count Reg.FCLK_MISSED 32 1 (updClk (fun k => { k with renumCnt := n, renumDelta := d, holdCnt := k.holdCnt + 1 }) s)
  if n ≥ 4 then lostFrame (enterLost { code := 0x0011, arg0 := f, arg1 := wrapInt 64 ((f : Int) + d) } s1)
  else if s1.clk.holdCnt ≥ 16 then
    if s.clk.src1.kind ≥ 2 && !s.clk.secondary then
      newFrame f t (raiseInt blkFclk 1 (updClk (fun k => { k with secondary := true, holdCnt := 0 }) s1))
    else lostFrame (enterLost { code := 0x0010, arg0 := s.clk.fnum, arg1 := b2n s.clk.secondary } s1)
  else
    let s2 := if s.clk.lock = .locked then raiseInt blkFclk 0 (updClk (fun k => { k with lock := .holdover }) s1) else s1
    newFrame f t s2

/-- Whether a tick can be missed now (R23): no valid copy is held. -/
def tickDue (s : State) : Bool :=
  s.live && (decide (s.clk.lock = .locked) || decide (s.clk.lock = .holdover)) && !s.ownSource && decide (s.clk.gathers = [])

/-! ## A device that is its own source (R22, R25) -/

/-- The TICK payload this device sends (R15); CORR is filled in as the copy leaves. -/
def tickPayload (s : State) (f : Nat) : Bytes :=
  toLe 2 7 ++ toLe 2 s.addr ++ toLe 1 1 ++ toLe 1 0 ++ toLe 2 (f % 65536) ++ toLe 6 f ++ toLe 4 s.clk.len ++ toLe 1 s.clk.permille ++ zeros 13

/-- A tick sent on every used link. -/
def emitTick (f : Nat) (s : State) : State :=
  (usedPorts s).foldl (fun s p => updPort p (fun x => { x with ctl := x.ctl ++ [tickPayload s f] }) s)
    (updClk (fun k => { k with emitted := some f }) s)

/-- The device's own tick (R25). -/
def selfTick (s : State) : State := pump (newFrame (s.clk.fnum + 1) s.expected (emitTick (s.clk.fnum + 1) s))

/-! ## The maintenance slice (R16, R31, R33) -/

/-- A delay measurement started on every used link (R16, R291); T1 is filled in as the request is sent. -/
def askDelays (s : State) : State :=
  pump ((usedPorts s).foldl (fun s p =>
    updPort p (fun x => { x with ctl := x.ctl ++ [toLe 2 2 ++ zeros 14] }) s) s)

/-- A queued self-test may run from this slice on (R34); a retraining step it asks for has its place in the slice when there is room for it
(R155). -/
def planTest (s : State) : State :=
  match s.flt.selftest with
  | none => s
  | some t =>
    let s1 := { s with flt := { s.flt with selftest := some { t with armed := true } } }
    if t.kind = 3 && decide (s.W ≤ testStart { s with stk := { s.stk with test := some t.index } } (t.index / 256)) then
      { s1 with stk := { s1.stk with test := some t.index } }
    else s1

/-- The maintenance slice starts (R33): hot states begin anew and each stack's steps are fixed; link delays are measured in frames 64 × n. -/
def sliceStart (s : State) : State :=
  let s1 := planTest (planSteps (hotAtSlice { s with clk := { s.clk with sliceDone := true } }))
  if s.clk.fnum % 64 = 0 then askDelays s1 else s1

/-- A maintenance task deferred (R33). -/
def deferTask (s : State) : State := raiseInt blkFclk 5 (count Reg.FCLK_DEFER 32 1 s)

/-- Whether a queued self-test has no step in this slice. -/
def testDeferred (s : State) : Bool :=
  match s.flt.selftest with
  | some t => t.armed && decide (s.clk.sliceUsed = 0) && s.stk.test.isNone
  | none => false

/-- The protected reserve starts (R31, R153): chunks and dense pieces still running are suspended by force, a digest task without its draw, a link
census not made in this slice and a self-test without a step in it are deferred, and the stacks refresh. -/
def reserveStart (s : State) : State :=
  let s1 := forcePieces (s.units.foldl (fun s p => forceChunk p.1 s) { s with clk := { s.clk with reserveDone := true } })
  let s2 := if s1.clk.digest = 1 then deferTask (ledgerReturn .digest (ledgerDrop .digest (updClk (fun k => { k with digest := 0 }) s1))) else s1
  let s2 := if s2.zor.ports.any fun p => censusDue s2 p.1 then deferTask s2 else s2
  let s3 := if testDeferred s2 then deferTask s2 else s2
  if s3.stk.selfRefresh then s3 else refreshFrame s3

/-- DLY_RESP (R16, R291): ((T4 − T1) − (T3 − T2)) / 2.  DESIGN CHOICE (log 31): the half is rounded down to a unit, and where the value
does not fit FCLK_DLY, for which the spec gives no result, a free value of the register's range is the measured delay. -/
def execDlyResp (port : Fin 34) (t4 : BitVec 64) (payload : Bytes) (s : State) : Out :=
  when (s.live && (s.port port).up && decide (leAt payload 0 2 = 3) && decide (Tbl.look? s.clk.dlySent port = some (leAt payload 8 8))) (fun s =>
    let d := (((t4.toNat : Int) - leAt payload 8 8) - ((leAt payload 24 8 : Int) - leAt payload 16 8)) / 2
    let s1 := updClk (fun k => { k with dlySent := Tbl.del k.dlySent port }) s
    if 0 ≤ d ∧ d < 2 ^ 20 then updClk (fun k => { k with delay := Tbl.put k.delay port d.toNat }) s1
    else
      match freeVal s1 with
      | (v, s2) => updClk (fun k => { k with delay := Tbl.put k.delay port (v % 2 ^ 20) }) s2) s

/-! ## One cycle of the 800 MHz base -/

/-- The rise allowance filled and the tail released, once in ten cc; the released tail and accrued draws burn in the ballast (R377). -/
def ledgerRamp (s : State) : State :=
  let l := s.ledger
  let accrued := sumNat (l.waiting.map (·.accrued))
  let e := l.ballast + (accrued + l.tail) * s.coreMv * 80
  let l1 := { l with phase := (l.phase + 1) % 10, ballast := e % energyUnit,
                     bucket := if l.phase = 0 then min 80 (l.bucket + 1) else l.bucket,
                     tail := if l.phase = 0 then l.tail - 1 else l.tail }
  count Reg.LEDG_BALLAST 64 (e / energyUnit) { s with ledger := l1 }

/-- Where a waiting reservation's cc are counted: counter, its width, the block and the bit of its DRAWWAIT event. -/
def waitCounter (o : Owner) : Option (Nat × Nat × Blk × Nat) :=
  match o with
  | .memGroup _ => some (Reg.MEM_DRAWWAIT, 32, blkMem, 4)
  | .memAdder _ => some (Reg.MEM_DRAWWAIT, 32, blkMem, 4)
  | .link _ => some (Reg.ZOR_DRAWWAIT, 32, blkZor, 8)
  | .tableEngine _ => some (Reg.LKP_DRAWWAIT, 32, blkLkp, 4)
  | .reduction _ => some (Reg.DTR_DRAWWAIT, 32, blkDtr, 4)
  | .migration _ => some (Reg.URNG_DRAWWAIT, 32, blkUrng, 3)
  | .lineEngine => some (Reg.URNG_DRAWWAIT, 32, blkUrng, 3)
  | .exporter => some (Reg.DLX_DRAWWAIT, 32, blkDlx, 4)
  | .restorer => some (Reg.DLX_DRAWWAIT, 32, blkDlx, 4)
  | .refresh => some (Reg.EMB_DRAWWAIT, 32, blkEmb, 4)
  | .digest => some (Reg.EMB_DRAWWAIT, 32, blkEmb, 4)
  | .block t => some (Reg.TILE_DRAWWAIT t, 32, blkTile t, 4)
  | .vecExtra t => some (Reg.VEC_DRAWWAIT t, 32, blkVec t, 2)
  | .topUp => none
  | .ports => none
  | .chunk _ => none

/-- One cc of waiting: the owner's counter, and the events past 4,096 cc. -/
def waitOne (s : State) (r : Req) : State :=
  let past := decide (r.waited + 1 > 4096) && !r.long
  let s1 := match waitCounter r.owner with
    | some (reg, w, blk, bit) => let s1 := count reg w 1 s; if past then raiseInt blk bit s1 else s1
    | none => s
  if past then raiseInt blkLedg 2 s1 else s1

/-- The first request waits for the bucket alone: its limit would let it through. -/
def rampWaits (s : State) : Bool :=
  match s.ledger.waiting with
  | r :: _ => decide (s.ledger.held + s.ledger.tail + (r.units - r.accrued) ≤ reqLimit r s)
  | [] => false

/-- The requests still waiting after a cycle. -/
def ledgerWaits (s : State) : State :=
  let s1 := s.ledger.waiting.foldl waitOne s
  let s2 := { s1 with ledger := { s1.ledger with waiting := s1.ledger.waiting.map fun r =>
    { r with waited := satTo 13 (r.waited + 1), long := r.long || decide (r.waited + 1 > 4096) } } }
  if s.ledger.waiting = [] then s2
  else count Reg.LEDG_RAMPWAIT 32 (b2n (rampWaits s)) (count Reg.LEDG_WAITCC 64 1 s2)

/-- OVERHELD (R366). -/
def overHeld (s : State) : State :=
  let o := decide (s.ledger.held + s.ledger.tail > ledgerLimit s)
  let s1 := { s with ledger := { s.ledger with overheld := o } }
  if o && !s.ledger.overheld then raiseInt blkLedg 1 s1 else s1

/-- ledger_cycle of R377, with its counters. -/
def ledgerCycle (s : State) : State :=
  if s.ledger.on then overHeld (ledgerWaits (serveAll (ledgerRamp s))) else s

/-- Chains that wait for a pass still writing their XACCs (R121). -/
def handoffCycle (s : State) : State :=
  s.tiles.foldl (fun s p =>
    match p.2.chain with
    | some r =>
      match r.cur with
      | some c => if chainStarted p.1 r s && handoffWaits p.2 r c then count (Reg.VEC_HANDOFF p.1) 32 1 s else s
      | none => s
    | none => s) s

/-- Walkers that wait for requester entries or combine space (R228). -/
def entryWaits (s : State) : State :=
  count Reg.LKP_ENTWAIT 32 (s.lkp.walkers.filter fun p => p.2.active && p.2.waitD.isSome).length s

/-- Requests that wait on COPYING sub-blocks (R178). -/
def copyWaits (s : State) : State :=
  count Reg.URNG_MIGWAIT 32 (s.held.filter fun h => h.2.contains (copyKey true) || h.2.contains (copyKey false)).length s

/-- Jobs the exporter holds back (R448): cc counted, and HOLD when holding begins. -/
def holdCycle (s : State) : State :=
  s.dlx.jobs.foldl (fun s p =>
    let h := dlxHolds s p.1 (dlxNext s p.1)
    let s1 := if h then count Reg.DLX_HOLD 32 1 s else s
    let s2 := { s1 with dlx := { s1.dlx with jobs := Tbl.upd s1.dlx.jobs p.1 fun d => { d with holding := h } } }
    if h && !p.2.holding then raiseInt blkDlx 0 s2 else s2) s

/-- One cc of the time base: the ledger's cycle, waiting times, and whatever its grants let go on. -/
def clockTick (s : State) : State :=
  if !s.dawn.powered then s
  else
    let s0 := { s with now := s.now + 80 }
    let s1 := if s0.live then findUpsets s0 else s0
    if !s1.live then s1
    else
      let s2 := chkCycle (portDraws (ledgerCycle s1))
      if s2.power.night = .none then
        duskEnter (duskDrained (restoreNext (afterGrants (runHeld (countOverruns (holdCycle (copyWaits (entryWaits (handoffCycle s2)))))))))
      else nightDrained (duskEnter s2)

/-! ## Events at an instant the frame fixes -/

/-- The time base run up to an instant. -/
def runUntil (due : Int) (s : State) : State := iter ((due - s.now + 79) / 80).toNat clockTick s

/-- The instant of a cycle position of this frame. -/
def State.atPos (s : State) (p : Nat) : Int := s.clk.frameStart + 80 * (p : Int)

/-- An event of the block at an instant: while it can come, the time base runs up to the instant, and there it happens unless something on
the way has taken its ground away. -/
def atInstant (ready : State → Bool) (due : Int) (f : State → State) (s : State) : Out :=
  when (ready s) (fun s => let s1 := runUntil due s; if ready s1 then f s1 else s1) s

/-- TICK_GATHER_END (R17): 200 ns after the first copy. -/
def execTickGatherEnd (s : State) : Out :=
  match nextGather s with
  | none => .next s
  | some g => atInstant (fun s => s.live && s.clk.gathers.contains g) (g.since + 12800) (gatherEnd g) s

/-- TICK_MISSED (R23): the expected instant plus 200 ns plus Dmax. -/
def execTickMissed (s : State) : Out := atInstant tickDue (s.expected + 12800 + dMax s) missTick s

/-- LOST_FRAME_START (R24). -/
def execLostFrameStart (s : State) : Out := atInstant (fun s => s.live && s.lost) s.expected lostFrame s

/-- SELF_TICK (R25). -/
def execSelfTick (s : State) : Out :=
  atInstant (fun s => s.live && s.ownSource && decide (s.clk.lock = .locked)) s.expected selfTick s

/-- FREERUN_FRAME_START (R22). -/
def execFreerunFrameStart (s : State) : Out :=
  atInstant (fun s => s.live && decide (s.clk.lock = .freerun)) s.expected (fun s => newFrame (s.clk.fnum + 1) s.expected s) s

/-- MAINTENANCE_SLICE_START (R33): at pos W. -/
def execMaintenanceSliceStart (s : State) : Out := atInstant (fun s => s.framed && !s.clk.sliceDone) (s.atPos s.W) sliceStart s

/-- PROTECTED_RESERVE_START (R31). -/
def execProtectedReserveStart (s : State) : Out := atInstant (fun s => s.framed && !s.clk.reserveDone) (s.atPos s.reserveAt) reserveStart s

/-- WORK_WINDOW_END (R152, R301): at pos W. -/
def execWorkWindowEnd (s : State) : Out :=
  atInstant (fun s => s.framed && !s.clk.windowDone) (s.atPos s.W) (fun s => workWindowEnd { s with clk := { s.clk with windowDone := true } }) s

/-- SLOT_START (R38, R41, R267): at its place in the work window; a slot that has passed or has begun begins no more. -/
def execSlotStart (slot : Fin 64) (s : State) : Out :=
  atInstant (fun s => s.framed && !s.lost && decide (s.slotLen ≠ 0) && decide (s.pos / s.slotLen ≤ slot.val) &&
    decide (s.dtr.slot ≠ some (s.clk.fnum, slot.val))) (s.atPos (slot.val * s.slotLen)) (slotStart slot.val) s

/-- A free point of the maintenance slice (R33): no chunk overruns into it, and the protected reserve has not begun. -/
def sliceFree (s : State) : Bool := decide (s.pos < s.reserveAt) && s.units.all fun p => p.2.run.isNone

/-- LINK_CENSUS_EVAL (R33, R314): once in each maintenance slice, at its earliest free point. -/
def execLinkCensusEval (port : Fin 34) (_ : Unit) (s : State) : Out :=
  atInstant (fun s => s.framed && censusDue s port && sliceFree s) (s.atPos s.W) (fun s => if s.pos < s.W then s else censusEval port s) s

/-- LINK_TX_DRAW_RETURN (R319): 800 cc after the last message flit. -/
def execLinkTxDrawReturn (link : Fin 32) (s : State) : Out :=
  atInstant (fun s => s.live && holds (.link link) s && linkQuiet s link) (linkSentAt s link + 64000) (fun s =>
    if s.now < linkSentAt s link + 64000 then s else ledgerReturn (.link link) s) s

/-- HOT_WINDOW_END (R207): at the tick instant whose number is a multiple of 64, before the steps of R36. -/
def execHotWindowEnd (s : State) : Out :=
  atInstant (fun s => s.framed && decide ((s.clk.fnum + 1) % 64 = 0) && decide (s.emb.windowAt ≠ s.clk.fnum + 1)) s.expected
    (fun s => hotWindow (s.clk.fnum + 1) s) s

/-- RETRAIN_STEP (R155): the step ends, 2,400 cc after its start; requests that waited for the channel go on at the next cycle. -/
def execRetrainStep (chan : Fin 2048) (ok : Bool) (s : State) : Out :=
  atInstant (fun s => s.framed && retrainDue chan s) (s.atPos (stepStart s (chan.val / 256) + 2400)) (retrainStep chan ok) s

/-- LINE_ENGINE_DRAW_RETURN (R190): 800 cc after the last request. -/
def execLineEngineDrawReturn (s : State) : Out :=
  atInstant (fun s => s.live && holds .lineEngine s) (Tbl.look s.stk.use 8192 0 + 64000) (fun s =>
    if s.now < Tbl.look s.stk.use 8192 0 + 64000 then s else ledgerReturn .lineEngine s) s

/-- REFRESH_ENGINE_DRAW_RETURN (R219): 800 cc after its last message. -/
def execRefreshEngineDrawReturn (s : State) : Out :=
  atInstant (fun s => s.live && holds .refresh s && s.emb.roundOut = []) (Tbl.look s.stk.use 8195 0 + 64000) (fun s =>
    if s.now < Tbl.look s.stk.use 8195 0 + 64000 then s else ledgerReturn .refresh s) s

/-- TABLE_ENGINE_DRAW_RETURN (R250): after 800 cc without work. -/
def execTableEngineDrawReturn (unit : Fin 6) (s : State) : Out :=
  atInstant (fun s => s.clocked && holds (.tableEngine unit) s && !engineBusy s unit) (Tbl.look s.stk.use (8220 + unit) 0 + 64000) (fun s =>
    if s.now < Tbl.look s.stk.use (8220 + unit) 0 + 64000 then s else ledgerReturn (.tableEngine unit) s) s

/-- REDUCTION_DRAW_RETURN (R282): after 800 cc without work. -/
def execReductionDrawReturn (unit : Fin 3) (s : State) : Out :=
  atInstant (fun s => s.clocked && holds (.reduction unit) s && !reductionBusy s unit) (Tbl.look s.stk.use (8200 + unit) 0 + 64000) (fun s =>
    if s.now < Tbl.look s.stk.use (8200 + unit) 0 + 64000 then s else ledgerReturn (.reduction unit) s) s

/-- EXPORTER_DRAW_RETURN (R454): after 800 cc without a message. -/
def execExporterDrawReturn (s : State) : Out :=
  atInstant (fun s => s.live && holds .exporter s) (s.dlx.sentAt + 64000) (fun s =>
    if s.now < s.dlx.sentAt + 64000 then s else ledgerReturn .exporter s) s

/-- CHANNEL_GROUP_DRAW_RETURN (R161): 800 cc after the last request, or the last ADD. -/
def execChannelGroupDrawReturn (group : Fin 64) (adder : Bool) (s : State) : Out :=
  atInstant (groupIdle group adder) (groupUse group adder s + 64000) (fun s =>
    if s.now < groupUse group adder s + 64000 then s
    else ledgerReturn (if adder then Owner.memAdder group.val else Owner.memGroup group.val) s) s

/-- Whether a link census of this slice is still to be made. -/
def censusWaits (s : State) : Bool := s.zor.ports.any fun p => censusDue s p.1

/-- DIGEST_SAMPLE (R215): priority 3 of the slice (R33), once no chunk overruns into it and the link census is made. -/
def execDigestSample (s : State) : Out :=
  atInstant (fun s => s.framed && !s.lost && decide (s.clk.digest = 0) && sliceFree s && !censusWaits s) (s.atPos s.W)
    (fun s => if s.pos < s.W then s else digestSample s) s

end Sys2Proof.Machine
end

