-- ==== Sys2Proof/Machine/Dawn.lean ====
section
/-! DEFINITION. Dawn: resets, the stages, the manifest and its clamps, the assignment of the tiles, the outcome and the Dawn report
(R418 to R441, R482 to R484). -/

namespace Sys2Proof.Machine

/-! ## Resets (R482 to R484) -/

/-- All state lost: what is left is the flash, host memory, the always-on latch, the outputs, and what the outside holds. -/
def loseState (s : State) : State :=
  { State.reset with
    pending := s.pending, now := s.now, trngCtr := s.trngCtr, freeCtr := s.freeCtr, nextCid := s.nextCid, hostMem := s.hostMem,
    nvm := s.nvm, pins := s.pins, adnt := { Adnt.init with presIn := s.adnt.presIn } }

/-- PWRGOOD_FALL (R483). -/
def execPwrgoodFall (s : State) : Out := .next (loseState s)

/-- A reset with the rails held: the stacks keep their contents, and THERMTRIP_N is released (R483, R484). -/
def heldReset (s : State) : State :=
  let s1 := loseState s
  { s1 with stk := { s1.stk with bytes := s.stk.bytes, poison := s.stk.poison, age := s.stk.age },
            pins := { s1.pins with thermtrip := false } }

/-- RESET_N (R483): a pulse shorter than 10 µs is ignored. -/
def execResetN (ns : Nat) (s : State) : Out := when (decide (ns ≥ 10000)) heldReset s

/-- PERST_N (R483): a pulse shorter than 100 µs is ignored. -/
def execPerstN (ns : Nat) (s : State) : Out := when (decide (ns ≥ 100000)) heldReset s

/-- VDD_AON_REMOVED (R478, R484): neither output is driven, and the latch is lost. -/
def execVddAonRemoved (s : State) : Out := .next { s with pins := { thermtrip := false, pwrdn := false, priorSd := false } }

/-- Dawn starts at stage 0 (R421, R422, R482): 400 MHz, a boot nonce (R394), the device's key, the first bit of the seal loop. -/
def startDawn (s : State) : State :=
  let (nonce, s1) := drawBytes 32 s
  let (kd, s2) := draw64 s1
  let (b, s3) := draw64 s2
  { s3 with
    dawn := { s3.dawn with powered := true, t0 := s.now, stageT0 := s.now, priorSd := s.pins.priorSd }
    power := { s3.power with state := .evening, shut := false }
    pins := { s3.pins with pwrdn := false }
    stk := { s3.stk with kd := kd }
    adnt := { s3.adnt with bootNonce := nonce, sealBit := b.getLsbD 0, puf := Config.pufArray s.freeCtr }, freeCtr := s.freeCtr + 1 }

/-- POWER_GOOD (R482). -/
def execPowerGood (s : State) : Out := when (!s.dawn.powered) startDawn s

/-! ## Stages (R421) -/

/-- Microseconds since an instant. -/
def usSince (s : State) (t : Nat) : Nat := (s.now - t) / 64000

/-- Whether a stage runs. -/
def atStage (n : Nat) (s : State) : Bool := s.live && decide (s.dawn.outcome = 0) && decide (s.dawn.stage = n)

/-- The running stage ends and another starts. -/
def toStage (n : Nat) (s : State) : State :=
  updDawn (fun d => { d with stage := n, stageT0 := s.now, stageUs := d.stageUs.modify d.stage (· + usSince s d.stageT0) }) s

def copyUsed (bit : Nat) (b : Bool) (s : State) : State := updDawn (fun d => { d with copies := setBits d.copies bit bit (b2n b) }) s

/-- PLL_LOCK: stage 0 ends (R421). -/
def execPllLock (s : State) : Out := when (atStage 0 s) (toStage 1) s

/-! ## The report (R441) -/

/-- A field at its offset after what precedes it, with zeros between. -/
def field (off : Nat) (bs acc : Bytes) : Bytes := acc ++ zeros (off - acc.length) ++ bs

def TileRep.bytes (t : TileRep) : Bytes :=
  toLe 1 t.logical ++ toLe 1 t.state ++ toLe 2 t.width ++ toLe 1 t.osBanks ++ zeros 1 ++ toLe 8 t.osOut ++ zeros 2

/-- How many of the 264 channels of a mask are set. -/
def maskCount (m : Nat) : Nat := ((List.range 264).filter fun i => bitOf m i).length

def stackRep (d : Dawn) (i : Nat) : Bytes :=
  let e := d.excl.getD i 0
  let own := d.exclDawn.getD i 0
  toLe 36 e ++ toLe 1 (maskCount e) ++ toLe 1 (maskCount own) ++ toLe 1 (b2n (d.stackUp.getD i false)) ++ zeros 9

def portRep (s : State) (p : Nat) : Bytes :=
  let x := s.port p
  toLe 1 x.state ++ toLe 1 (x.link.getD 0x3F) ++ toLe 1 (s.portPlan p).plane ++ toLe 1 x.cls ++ toLe 4 x.ber ++ toLe 1 x.tfail ++ zeros 7

def railRep (s : State) (i : Nat) : Bytes :=
  let m := s.dawn.man.rails.getD i ⟨0, 0⟩
  let r := Tbl.look s.power.rails i Rail.init
  toLe 1 m.addr ++ toLe 1 m.role ++ toLe 1 (if m.addr = 0 then 0 else if r.valid then 1 else 2) ++ zeros 1 ++
    toLe 2 (if m.addr = 0 then 0 else r.vout) ++ zeros 2

def Clamp.bytes (c : Clamp) : Bytes := toLe 2 c.field ++ toLe 1 c.rule ++ zeros 5 ++ toLe 4 c.raw ++ toLe 4 c.applied

/-- The 4 KiB of the report as the findings stand. -/
def reportBytes (s : State) : Bytes :=
  let d := s.dawn
  let each := fun (n : Nat) (f : Nat → Bytes) => (List.range n).flatMap f
  field 4096 [] <|
  field 1536 (d.clamps.flatMap Clamp.bytes) <|
  field 1344 (each 8 (railRep s)) <|
  field 1280 (toLe 1 d.clockState ++ toLe 1 d.clockSrc ++ zeros 2 ++ toLe 4 d.clockUs) <|
  field 736 (each 34 (portRep s)) <|
  field 720 (toLe 8 d.rcOut0 ++ toLe 8 d.rcOut1) <|
  field 336 (each 8 (stackRep d)) <|
  field 128 (d.tiles.flatMap TileRep.bytes) <|
  field 72 (toLe 2 (satTo 16 d.nclamp)) <|
  field 32 (d.stageUs.flatMap (toLe 4)) <|
  toLe 2 1 ++ toLe 1 d.outcome ++ toLe 1 d.failStage ++ toLe 4 d.cause ++ toLe 4 d.total ++ toLe 1 0xB1 ++ toLe 1 s.adnt.rb.lc.code ++
    toLe 1 d.copies ++ toLe 1 (b2n d.priorSd) ++ toLe 4 s.adnt.bootSvn ++ toLe 4 s.adnt.fwSvn ++ toLe 6 d.fnumOut ++ toLe 2 d.man.devAddr

/-! ## The outcome (R437 to R439) -/

/-- The outcome is declared: the report is complete before, and so are the records of Dawn's last frame, which never reach the ring (R459). -/
def declare (o : Nat) (s : State) : State :=
  let s1 := toStage 15 (faultSummaries s)
  let d := { s1.dawn with
    outcome := o, total := usSince s s.dawn.t0, fnumOut := s.clk.fnum, failStage := if o = 3 then s.dawn.stage else 0 }
  let s2 := { s1 with dawn := { d with report := some (reportBytes { s1 with dawn := d }) } }
  let s3 := raiseInt blkDawn 0 s2
  raiseIbi 2 (if o = 2 then raiseInt blkDawn 1 s3 else if o = 3 then raiseInt blkDawn 2 s3 else s3)

/-- A rail that no poll has reached: whether it answers, and with what, is open. -/
def probeRail (i : Nat) (s : State) : State :=
  let m := s.dawn.man.rails.getD i ⟨0, 0⟩
  let r := Tbl.look s.power.rails i Rail.init
  if m.addr = 0 || r.valid || decide (r.misses > 0) then s
  else
    match freeVal s with
    | (v, s1) =>
      let heard : Rail := { r with vout := v / 2 % 65536, iout := v / 131072 % 65536, temp := v / 2 ^ 33 % 256, valid := true }
      let x := if v % 2 = 0 || !r.linear then { r with misses := 1 } else heard
      { s1 with power := { s1.power with rails := Tbl.put s1.power.rails i x } }

/-- The findings made at the outcome, whatever it is (R437). -/
def lastFindings (s : State) : State :=
  let named := (List.range 8).filter fun i => decide ((s.dawn.man.rails.getD i ⟨0, 0⟩).addr ≠ 0)
  let s1 := named.foldl (fun s i => probeRail i s) s
  let rail := (named.any fun i => !(Tbl.look s1.power.rails i Rail.init).valid) || (coreRail s1).isNone
  let s2 := if sealOn s1 && !s1.adnt.sealOk then finding 9 s1 else s1
  let s3 := if !s2.adnt.certOk then finding 10 s2 else s2
  if rail then finding 11 s3 else s3

/-- A Failed finding (R439): stacks, if trained, go to self-refresh, and the links stay out of service. -/
def failDawn (bit : Nat) (s : State) : State :=
  let s1 := declare 3 (lastFindings (finding bit (ledgerDrop .topUp s)))
  { s1 with
    stk := { s1.stk with selfRefresh := s1.dawn.stackUp.any id }
    zor := { s1.zor with ports := Tbl.mapv s1.zor.ports fun _ x => if x.up || x.state == 4 || x.state == 1 then { x with state := 0, step := 0, lanes := 0 } else x } }

/-! ## Standing draws (R422) -/

/-- A standing draw is asked for. -/
def askStanding (n : Nat) (s : State) : State := if n = 0 then s else ledgerRequest .topUp 0 n s

/-- The time base runs until the standing draw asked for is granted, for at most this many cc. -/
def awaitStanding (fuel : Nat) (s : State) : State :=
  match fuel with
  | 0 => s
  | fuel + 1 => if asking .topUp s then awaitStanding fuel (clockTick s) else s

/-- What was asked for and granted becomes standing as far as the units came up; the rest enters the tail. -/
def settleStanding (s : State) : State :=
  let s0 := ledgerDrop .topUp s
  let l := s0.ledger
  let got := heldBy .topUp s0
  let own := min got (standingFor false s0 - l.standing)
  serveAll { s0 with ledger := { l with standing := l.standing + own, held := l.held - (got - own), tail := l.tail + (got - own),
                                        holds := l.holds.filter fun p => decide (p.1 ≠ .topUp) } }

/-! ## Boot image and identity (R391, R424, R425) -/

/-- The copy of the rollback record with the higher RBSEQ, A in a tie (R424). -/
def pickRb (s : State) : Bool × Option Rollback :=
  match rbCopy s false, rbCopy s true with
  | some a, some b => if b.rbSeq > a.rbSeq then (true, some b) else (false, some a)
  | none, some b => (true, some b)
  | a, none => (false, a)

/-- Whether a stored image is accepted (R390, R391, R424, R434). -/
def imageOk (s : State) (kind limit : Nat) (o : Bytes) : Bool :=
  objOk s.adnt.rb s.idDig kind 0 o && decide (obLen o ≤ limit) && decide (obSvn o ≥ s.adnt.rb.svnFloor)

/-- The copy that ACTIVE names, or the other one, whichever is accepted first. -/
def pickObj (s : State) (kind : Nat) (ok : Bytes → Bool) : Option (Bool × Bytes) :=
  let a := bitOf s.dawn.active (kind - 1)
  let o := fun (b : Bool) => let p := objBase kind b; nvmObj s p.1 p.2
  if ok (o a) then some (a, o a) else if ok (o (!a)) then some (!a, o (!a)) else none

/-- Recovery (R391). -/
def enterRecovery (s : State) : State :=
  failDawn 16 (raiseInt blkAdnt 5 { s with adnt := { s.adnt with recovery := true } })

/-- Stage 1 completes (R391, R424): Adant's SRAM is cleared, the rollback record chosen, the boot image verified. -/
def bootVerify (s : State) : State :=
  let (isB, rb) := if s.dawn.rbRetry then (s.adnt.rbIsB, some s.adnt.rb) else pickRb s
  let dir := dirInUse s
  let s1 := copyUsed 3 isB { s with
    adnt := { s.adnt with sram := [], rb := rb.getD Rollback.init, rbIsB := isB, idMod := ((identOf s).map (·.modulus)).getD [] }
    dawn := { s.dawn with dirValid := dir.isSome, active := activeBits s } }
  match pickObj s1 1 (imageOk s1 1 (2 ^ 20)) with
  | none => enterRecovery s1
  | some (b, o) =>
    let s2 := copyUsed 0 b { s1 with adnt := { s1.adnt with bootDig := sha (obBody o), bootSvn := obSvn o } }
    toStage 2 (if b ≠ bitOf s1.dawn.active 0 then finding 0 s2 else s2)

/-- DAWN_BOOT_VERIFY (R424). -/
def execDawnBootVerify (s : State) : Out := when (atStage 1 s) bootVerify s

/-- First enrolment (R393, R425): the identity block and rollback copy A are written. -/
def enrol (s : State) : State :=
  let (m, k) := Config.rsaKeyGen s.trngCtr
  let (wrap, helper) := Config.pufWrap s.adnt.puf k (s.trngCtr + 1)
  let r := signRb k { Rollback.init with rbSeq := 1 }
  copyUsed 3 false (putRb false r (putIdent { modulus := m, wrapped := wrap, helper := helper, cert := [] } { s with
    trngCtr := s.trngCtr + 2
    adnt := { s.adnt with rb := r, rbIsB := false, idMod := m, idPriv := k, idValid := true, cert := [], certOk := false } }))

/-- The rollback record in use verifies against the identity modulus. -/
def rbVerifies (i : IdBlock) (s : State) : Bool := Config.rsaVerify i.modulus s.adnt.rb.bytes s.adnt.rb.sig

/-- Stage 2 ends with the certificate of the identity block. -/
def identityDone (i : IdBlock) (s : State) : State :=
  toStage 3 { s with adnt := { s.adnt with
    cert := i.cert, certOk := decide (i.cert ≠ []) && decide (Config.certKey i.cert = some i.modulus) } }

/-- A record that does not verify sends the device back to stage 1 with the other copy; when neither does, it has Failed. -/
def otherRecord (s : State) : State :=
  match s.dawn.rbRetry, rbCopy s (!s.adnt.rbIsB) with
  | false, some r =>
    let s1 := finding 0 { s with adnt := { s.adnt with rb := r, rbIsB := !s.adnt.rbIsB } }
    toStage 1 (updDawn (fun d => { d with rbRetry := true }) s1)
  | _, _ => failDawn 17 s

/-- Stage 2 completes (R425): the identity key is unwrapped, except in Retired, then the rollback record is verified. -/
def identity (s : State) : State :=
  match identOf s with
  | none => if nvmBlank s 0x20000 0x20000 then toStage 3 (enrol s) else failDawn 17 s
  | some i =>
    if s.lc = .retired then (if rbVerifies i s then identityDone i s else otherRecord s)
    else
      match Config.pufUnwrap s.adnt.puf i.wrapped i.helper with
      | none => failDawn 17 s
      | some k => if rbVerifies i s then identityDone i { s with adnt := { s.adnt with idPriv := k, idValid := true } } else otherRecord s

/-- DAWN_IDENTITY (R425). -/
def execDawnIdentity (s : State) : Out := when (atStage 2 s) identity s

/-! ## The manifest (R426 to R429) -/

/-- A manifest body under check: its bytes as applied so far, and the clamp records. -/
structure Clamping where
  body  : Bytes
  recs  : List Clamp
  deriving DecidableEq, Repr

def Clamping.at (c : Clamping) (off n : Nat) : Nat := leAt c.body off n

/-- A field of at most 4 B given the value it is clamped to: a record when that changes it. -/
def Clamping.fix (off n v rule : Nat) (c : Clamping) : Clamping :=
  let raw := c.at off n
  if raw = v then c else { body := patch c.body off (toLe n v), recs := c.recs ++ [{ field := off, rule := rule, raw := raw, applied := v }] }

/-- Reserved bytes cleared: a record per range of at most 4 B, or per 4 B word. -/
def Clamping.reserved (lo n : Nat) (c : Clamping) : Clamping :=
  (List.range (ceilDiv n 4)).foldl (fun c i => c.fix (lo + 4 * i) (min 4 (n - 4 * i)) 0 7) c

/-- A number with a range and a default for zero. -/
def Clamping.num (off n dflt lo hi hiRule : Nat) (c : Clamping) : Clamping :=
  let v := c.at off n
  if v = 0 ∧ dflt ≠ 0 then (if dflt > hi then c.fix off n hi hiRule else c.fix off n dflt 1)
  else if v < lo then c.fix off n lo 2
  else if v > hi then c.fix off n hi hiRule
  else c

/-- FRAME_LEN: clamped, or rounded down to a multiple of 64 cc. -/
def clampLen (c : Clamping) : Clamping :=
  let c1 := c.num 12 4 800000 200000 3200000 3
  c1.fix 12 4 (c1.at 12 4 / 64 * 64) 4

/-- I3C_ADDR: the default for a value out of range. -/
def clampI3c (c : Clamping) : Clamping :=
  let v := c.at 34 1
  if v = 0 then c.fix 34 1 0x30 1 else if v < 8 ∨ v > 0x77 then c.fix 34 1 0x30 5 else c

/-- A tick source: reserved bits are ignored; an invalid entry, or TICK1 beside a TICK0 of KIND 0, becomes KIND 0. -/
def clampTick (second : Bool) (c : Clamping) : Clamping :=
  let off := if second then 28 else 24
  let v := c.at off 4
  let kind := v % 4
  let clean := kind + bits v 31 16 * 65536
  if (kind = 3 ∧ bits v 31 16 > 31) ∨ (second ∧ kind = 1) then c.fix off 4 (clean - kind) 5
  else if second ∧ kind ≠ 0 ∧ c.at 24 1 % 4 = 0 then c.fix off 4 (clean - kind) 6
  else c.fix off 4 clean 7

/-- A rail entry: two 4 B words; the rule of the first thing that is wrong.  `core` says a lower entry is the core rail. -/
def clampRail (i : Nat) (core : Bool) (c : Clamping) : Clamping × Bool :=
  let off := 48 + 8 * i
  let addr := c.at off 1
  let role := c.at (off + 1) 1
  let badAddr := decide (addr ≠ 0 ∧ (addr < 8 ∨ addr > 0x77))
  let addr1 := if badAddr then 0 else addr
  let second := decide (role = 1) && decide (addr1 ≠ 0) && core
  let role1 := if role > 1 || second then 0 else role
  let rule := if badAddr || role > 1 then 5 else if second then 6 else 7
  ((c.fix off 4 (addr1 + 256 * role1) rule).fix (off + 4) 4 0 7, core || (decide (role1 = 1) && decide (addr1 ≠ 0)))

def clampRails (c : Clamping) : Clamping := ((List.range 8).foldl (fun (a : Clamping × Bool) i => clampRail i a.2 a.1) (c, false)).1

/-- A port entry; `held` are the planes lower-numbered used ports hold. -/
def clampPort (p : Nat) (held : List Nat) (c : Clamping) : Clamping × List Nat :=
  let off := 128 + 2 * p
  let v := c.at off 2
  let plane := v % 32
  let role := bits v 6 5
  if role = 3 then (c.fix off 2 (plane + 64) 5, held)
  else if role = 0 ∧ held.contains plane then (c.fix off 2 (plane + 32) 6, held)
  else (c.fix off 2 (v % 128) 7, if role = 0 then plane :: held else held)

def clampPorts (c : Clamping) : Clamping := ((List.range 34).foldl (fun (a : Clamping × List Nat) p => clampPort p a.2 a.1) (c, [])).1

/-- The TILE entry of the home tile of a logical tile (R428). -/
def homeTile (k : Nat) : Nat := if k < 4 then k else k + 1

/-- A tile entry, REPLACE apart. -/
def clampTile (t : Nat) (c : Clamping) : Clamping :=
  let off := 256 + 32 * t
  let nbyp := c.at (off + 2) 1
  let col := fun (i : Nat) => c.at (off + 4 + 2 * i) 2
  let os := c.at (off + 12) 8
  let bad := decide (c.at off 1 > 1) || decide (nbyp > 4) || ((List.range (min 4 nbyp)).any fun i => decide (col i > 255)) || decide (os ≥ 2 ^ 60) ||
    decide (((List.range 60).filter fun i => bitOf os i).length > 4)
  let c1 := if bad then c.fix off 1 1 5 else c
  let c2 := (List.range 4).foldl (fun c i => if nbyp ≤ i then c.fix (off + 4 + 2 * i) 2 0xFFFF 5 else c) (c1.reserved (off + 3) 1)
  c2.reserved (off + 20) 12

/-- REPLACE, which depends on the STATE of every home tile. -/
def clampReplace (t : Nat) (c : Clamping) : Clamping :=
  let off := 257 + 32 * t
  let r := c.at off 1
  if t ≠ 4 ∨ r > 7 ∨ c.at (256 + 32 * homeTile r) 1 = 0 then c.fix off 1 0xFF 5 else c

/-- CHEXCL: bits above 263 cleared. -/
def clampExcl (i : Nat) (c : Clamping) : Clamping :=
  let off := 544 + 36 * i + 32
  c.fix off 4 (c.at off 4 % 256) 7

/-- Every check of R427 to R429; the records in ascending byte order. -/
def clampManifest (body : Bytes) : Clamping :=
  let each := fun (n : Nat) (f : Nat → Clamping → Clamping) (c : Clamping) => (List.range n).foldl (fun c i => f i c) c
  let c0 : Clamping := { body := body, recs := [] }
  let c1 := (clampLen ((c0.reserved 4 4).reserved 10 2)).num 16 1 30 20 100 3
  let c2 := ((c1.fix 17 1 (c1.at 17 1 % 2) 7).num 18 2 1024 64 4096 3).num 20 4 4096 256 1048576 3
  let c3 := ((clampTick true (clampTick false c2)).num 32 1 0 0 32 3).num 33 1 0 0 2 3
  let c4 := ((clampI3c c3).reserved 35 1).num 36 2 2800 800 3200 3
  let c5 := ((((c4.num 38 2 1200 600 (c4.at 36 2) 6).num 40 2 1300 400 1300 3).num 42 1 95 70 104 3).reserved 43 1)
  let c6 := (clampPorts ((clampRails c5).reserved 112 16)).reserved 196 60
  let c7 := (each 8 clampExcl (each 9 clampReplace (each 9 clampTile c6))).reserved 848 176
  { c7 with recs := sortBy (fun a b => decide (a.field < b.field)) c7.recs }

/-- The manifest a checked body gives (R427, R428). -/
def manifestOf (b : Bytes) : Manifest :=
  let tick := fun (off : Nat) => { kind := leAt b off 1 % 4, id := leAt b (off + 2) 2 : TickSrc }
  let tile := fun (t : Nat) =>
    let off := 256 + 32 * t
    { state := leAt b off 1, replace := leAt b (off + 1) 1, nbyp := leAt b (off + 2) 1,
      cols := (List.range 4).map fun i => leAt b (off + 4 + 2 * i) 2, osBad := leAt b (off + 12) 8 : ManTile }
  { devAddr := leAt b 8 2, frameLen := leAt b 12 4, permille := leAt b 16 1, sealEn := bitOf (leAt b 17 1) 0, agePeriod := leAt b 18 2,
    hotReads := leAt b 20 4, tick0 := tick 24, tick1 := tick 28, linkMin := leAt b 32 1, dbgMax := leAt b 33 1, i3cAddr := leAt b 34 1,
    noon := leAt b 36 2, eve := leAt b 38 2, plimit := leAt b 40 2, tsoft := leAt b 42 1, gov := leAt b 44 4,
    rails := (List.range 8).map fun i => { addr := leAt b (48 + 8 * i) 1, role := leAt b (49 + 8 * i) 1 : ManRail },
    ports := (List.range 34).map fun p => let v := leAt b (128 + 2 * p) 2; { plane := v % 32, role := bits v 6 5 : ManPort },
    tiles := (List.range 9).map tile, chExcl := (List.range 8).map fun i => leAt b (544 + 36 * i) 36, rcBad0 := leAt b 832 8,
    rcBad1 := leAt b 840 8 }

/-- More clamp records, in byte order; the report keeps the first 160. -/
def addClamps (l : List Clamp) (d : Dawn) : Dawn :=
  { d with clamps := (sortBy (fun a b => decide (a.field < b.field)) (d.clamps ++ l)).take 160, nclamp := d.nclamp + l.length }

/-- A manifest copy is valid (R426). -/
def manifestOk (s : State) (o : Bytes) : Bool :=
  objOk s.adnt.rb s.idDig 3 (manSigner s.lc) o && decide (obLen o = 1024) && decide (leAt (obBody o) 0 4 = 1)

/-- The fixed units' standing draw in Evening (R384), and that of the eight stacks. -/
def firstStanding : Nat := 41 + 8 * 6

/-- VOUT_MODE of each named controller read once (R480): whether it names ULINEAR16 is an input of the device that no command brings, a free
value. -/
def readModes (s : State) : State :=
  ((List.range 8).filter fun i => decide ((s.dawn.man.rails.getD i ⟨0, 0⟩).addr ≠ 0)).foldl (fun s i =>
    match freeVal s with
    | (v, s1) => { s1 with power := { s1.power with rails := Tbl.put s1.power.rails i { Rail.init with linear := decide (v % 2 = 0) } } }) s

/-- The manifest takes effect: frame, limits, tick sources; the ledger starts (R422). -/
def applyManifest (m : Manifest) (s : State) : State :=
  let s1 := { s with
    dawn := { s.dawn with man := m, mfmt := 1 }
    clk := { s.clk with len := m.frameLen, permille := m.permille, src0 := m.tick0, src1 := m.tick1 }
    power := { s.power with limits := { noon := m.noon, eve := m.eve, plimit := m.plimit, gov := m.gov, tsoft := m.tsoft } }
    urng := { s.urng with period := m.agePeriod }
    ledger := { s.ledger with on := true, bucket := 0 } }
  askStanding firstStanding (toStage 4 (readModes s1))

/-- Stage 3 completes (R426 to R429). -/
def manifestStage (s : State) : State :=
  match pickObj s 3 (manifestOk s) with
  | none => failDawn 18 s
  | some (b, o) =>
    let c := clampManifest (obBody o)
    let s1 := copyUsed 2 b { s with adnt := { s.adnt with manDig := sha (obBody o) }, dawn := { addClamps c.recs s.dawn with manIsB := b } }
    applyManifest (manifestOf c.body) (if b ≠ bitOf s.dawn.active 2 then finding 1 s1 else s1)

/-- DAWN_MANIFEST (R426). -/
def execDawnManifest (s : State) : Out := when (atStage 3 s) manifestStage s

/-! ## Stacks (R433) -/

/-- The mask of the failed channels of a stack that the manifest does not name. -/
def failedMask (s : State) (failed : List (Nat × Nat)) (i : Nat) : Nat :=
  let m := s.dawn.man.chExcl.getD i 0
  (failed.filter fun f => decide (f.1 = i) && decide (f.2 < 264) && !bitOf m f.2).foldl (fun a f => a ||| 1 <<< f.2) 0

/-- Stage 4 completes (R159, R433). -/
def stackTraining (failed : List (Nat × Nat)) (s0 : State) : State :=
  let own := (List.range 8).map (failedMask s0 failed)
  let excl := (List.range 8).map fun i => s0.dawn.man.chExcl.getD i 0 ||| own.getD i 0
  let s := updDawn (fun d => { d with excl := excl, exclDawn := own, stackUp := excl.map fun m => decide (maskCount m ≤ 8) }) s0
  let s1 := if own.any (· ≠ 0) then finding 6 s else s
  let s2 := { s1 with
    stk := { s1.stk with chans := (List.range 2048).map fun i => (i, Chan.init), stks := (List.range 8).map fun i => (i, Stack.init) }
    urng := { s1.urng with pool := 389120 } }
  if excl.any fun m => decide (maskCount m > 8) then failDawn 20 s2 else askStanding (8 * 7) (toStage 5 (settleStanding s2))

/-- A stage that brings units up completes once their standing draw is granted. -/
def afterDraws (n : Nat) (f : State → State) (s : State) : Out :=
  when (atStage n s) (fun s => let s1 := awaitStanding 4096 s; if asking .topUp s1 || !atStage n s1 then s1 else f s1) s

/-- DAWN_STACK_TRAINING (R433). -/
def execDawnStackTraining (failed : List (Nat × Nat)) (s : State) : Out := afterDraws 4 (stackTraining failed) s

/-! ## Tiles (R2, R431) -/

/-- An assignment in progress: the TILE entry that serves each logical tile, the states of the nine entries (R441), the banks mapped out per
entry, whether the spare is free, and the findings. -/
structure Assign where
  serve : List Nat
  state : List Nat
  out   : List Nat
  free  : Bool
  cause : List Nat
  fail  : Bool
  /-- REPLACE has been set in step 1. -/
  setRep : Option Nat
  deriving DecidableEq, Repr

/-- What the march found in the Operand Store of an entry, beside OSBAD. -/
def marchBanks (f : MarchFindings) (t : Nat) : Nat :=
  (f.osBad.filter fun x => decide (x.1 = t)).foldl (fun a x => x.2.foldl (fun a b => if b < 60 then a ||| 1 <<< b else a) a) 0

/-- How many of the 60 banks of a mask are set. -/
def bankCount (m : Nat) : Nat := ((List.range 60).filter fun i => bitOf m i).length

/-- The spare takes a logical tile; the entry it replaces gets a state. -/
def Assign.spareFor (k st : Nat) (a : Assign) : Assign :=
  { a with state := (a.state.set (a.serve.getD k 0) st).set 4 0, serve := a.serve.set k 4, free := false }

/-- The start of R431: every home tile serves, banks of OSBAD are out. -/
def Assign.init (m : Manifest) : Assign :=
  { serve := (List.range 8).map homeTile
    state := (List.range 9).map fun t => if t = 4 then (if (m.tiles.getD 4 ⟨0, 0, 0, [], 0⟩).state = 0 then 1 else 2) else 0
    out := (List.range 9).map fun t => (m.tiles.getD t ⟨0, 0, 0, [], 0⟩).osBad % 2 ^ 60
    free := decide ((m.tiles.getD 4 ⟨0, 0, 0, [], 0⟩).state = 0), cause := [], fail := false, setRep := none }

/-- Step 1: home tiles the manifest disables. -/
def assignStep1 (m : Manifest) (a : Assign) : Assign :=
  (List.range 8).foldl (fun a k =>
    if (m.tiles.getD (homeTile k) ⟨0, 0, 0, [], 0⟩).state = 0 then a
    else if !a.free then { a with fail := true, state := a.state.set (homeTile k) 2 }
    else
      let a1 := a.spareFor k 2
      if (m.tiles.getD 4 ⟨0, 0, 0, [], 0⟩).replace = 0xFF then { a1 with setRep := some k } else a1) a

/-- Whether an entry is to be disabled in step 2: a defective Accumulator File bank or sequencer memory, or more than 4 banks lost. -/
def tileLost (f : MarchFindings) (a : Assign) (t : Nat) : Bool :=
  f.afBad.contains t || decide (bankCount (a.out.getD t 0 ||| marchBanks f t) > 4)

/-- Step 2 for the tiles a predicate names. -/
def assignStep2 (lost : Assign → Nat → Bool) (a : Assign) : Assign :=
  (List.range 8).foldl (fun a k =>
    let t := a.serve.getD k 0
    if !lost a t then a
    else if t = 4 || !a.free then { a with fail := true, state := a.state.set t 3 }
    else
      let a1 := { a.spareFor k 3 with cause := 2 :: a.cause }
      if lost a1 4 then { a1 with fail := true, state := a1.state.set 4 3 } else a1) a

/-- The march's banks of a serving entry mapped out. -/
def Assign.mapOut (t new : Nat) (a : Assign) : Assign := { a with out := a.out.set t (a.out.getD t 0 ||| new), cause := 3 :: a.cause }

/-- Step 3: tiles that lose 1 to 4 banks to the march. -/
def assignStep3 (f : MarchFindings) (a : Assign) : Assign :=
  let new := fun (a : Assign) (t : Nat) => marchBanks f t - (marchBanks f t &&& a.out.getD t 0)
  (List.range 8).foldl (fun a k =>
    let t := a.serve.getD k 0
    if a.fail || decide (new a t = 0) then a
    else if t = 4 || !a.free then a.mapOut t (new a t)
    else
      let a1 := { a.spareFor k 3 with cause := 2 :: a.cause }
      if tileLost f a1 4 then { a1 with fail := true, state := a1.state.set 4 3 }
      else if new a1 4 = 0 then a1
      else a1.mapOut 4 (new a1 4)) a

/-- Step 4: an idle spare with a defect is lost. -/
def assignStep4 (bad : Bool) (a : Assign) : Assign :=
  if !a.fail && a.free && bad then { a with free := false, state := a.state.set 4 4, cause := 4 :: a.cause } else a

/-- The assignment after the march. -/
def assignTiles (m : Manifest) (f : MarchFindings) : Assign :=
  let a1 := assignStep3 f (assignStep2 (tileLost f) (assignStep1 m (Assign.init m)))
  assignStep4 (f.afBad.contains 4 || decide (marchBanks f 4 ≠ 0)) a1

/-- What the report says of a TILE entry. -/
def Assign.rep (m : Manifest) (a : Assign) (t : Nat) : TileRep :=
  let e := m.tiles.getD t ⟨0, 0, 0, [], 0⟩
  let o := a.out.getD t 0
  { logical := (a.serve.findIdx? (· = t)).getD 0xFF, state := a.state.getD t 0, width := 256 - e.nbyp, osBanks := 60 - bankCount o, osOut := o }

/-- The logical tile an entry serves (R76, R78, R108). -/
def Assign.tile (m : Manifest) (a : Assign) (k : Nat) : Tile :=
  let t := a.serve.getD k 0
  let e := m.tiles.getD t ⟨0, 0, 0, [], 0⟩
  { Tile.init with
    width := 256 - e.nbyp, phys := if t < 5 then t else t - 5, die := if t < 5 then 0 else 1, spare := decide (t = 4),
    osBanks := 60 - bankCount (a.out.getD t 0), bypass := e.cols.take e.nbyp }

/-- The assignment recorded: report entries, logical tiles, findings. -/
def putAssign (a : Assign) (s : State) : State :=
  let m := s.dawn.man
  let s1 := a.cause.foldl (fun s b => finding b s) (updDawn (fun d => { d with tiles := (List.range 9).map (a.rep m) }) s)
  let s2 := { s1 with tiles := (List.range 8).map fun k => (k, a.tile m k) }
  match a.setRep with
  | none => s2
  | some k =>
    let man := { m with tiles := m.tiles.modify 4 fun e => { e with replace := k } }
    updDawn (fun d => addClamps [{ field := 385, rule := 6, raw := 0xFF, applied := k }] { d with man := man }) s2

/-! ## SRAM (R430, R432) -/

/-- A mask of row cache banks. -/
def rcMask (l : List Nat) : Nat := l.foldl (fun a b => if b < 64 then a ||| 1 <<< b else a) 0

/-- Stage 5 completes (R430 to R432). -/
def sramMarch (f : MarchFindings) (s0 : State) : State :=
  let m := s0.dawn.man
  let r0 := m.rcBad0 ||| rcMask f.rcBad0
  let r1 := m.rcBad1 ||| rcMask f.rcBad1
  let banks := fun (x : Nat) => ((List.range 64).filter fun i => bitOf x i).length
  let a := assignTiles m f
  let s1 := putAssign a (updDawn (fun d => { d with march := f, rcOut0 := r0, rcOut1 := r1 }) s0)
  let s2 := if r0 ≠ m.rcBad0 ∨ r1 ≠ m.rcBad1 then finding 5 s1 else s1
  let sram := f.fatal || decide (banks r0 > 8) || decide (banks r1 > 8)
  if a.fail then failDawn 21 (if sram then finding 22 s2 else s2)
  else if sram then failDawn 22 s2
  else toStage 6 (settleStanding s2)

/-- DAWN_SRAM_MARCH (R430). -/
def execDawnSramMarch (f : MarchFindings) (s : State) : Out := afterDraws 5 (sramMarch f) s

/-! ## Core firmware (R434) -/

/-- The assignment as stage 5 left it. -/
def Assign.ofState (s : State) : Assign :=
  let d := s.dawn.tiles
  { serve := (List.range 8).map fun k => (d.findIdx? fun t => decide (t.logical = k)).getD 9
    state := d.map (·.state), out := d.map (·.osOut), free := decide ((d.getD 4 ⟨0xFF, 4, 0, 0, 0⟩).state = 1), cause := [], fail := false,
    setRep := none }

/-- The ports of Dawn as their training starts. -/
def portsTraining (s : State) : State :=
  { s with zor := { s.zor with ports := (List.range 34).map fun p =>
    let plan := s.portPlan p
    (p, { Port.init with state := 1, step := 1, lanes := 15, link := if plan.role = 0 then some plan.plane else none }) } }

/-- The entries of the section table at the start of a core firmware body (R434). -/
def sections (body : Bytes) : List Bytes :=
  (List.range (min (leAt body 0 4) ((body.length - 4) / 48))).map fun i => slice body (4 + 48 * i) 48

/-- Whether the cores of a class get a section with the digest its one entry names: without it each of their attempts fails. -/
def sectionOk (body : Bytes) (cls : Nat) : Bool :=
  match (sections body).filter fun e => decide (leAt e 0 4 = cls) with
  | [e] => decide (leAt e 4 4 + leAt e 8 4 ≤ body.length) && decide (sha (slice body (leAt e 4 4) (leAt e 8 4)) = slice e 16 32)
  | _ => false

/-- The cores out of service: those of a class whose section is not right, and those whose attempts have failed. -/
def coresOut (body : Bytes) (f : FirmwareFindings) : FirmwareFindings :=
  { tileBad := if sectionOk body 1 then f.tileBad else List.range 9
    walkerBad := f.walkerBad || !sectionOk body 2
    portBad := if sectionOk body 3 then f.portBad else List.range 34 }

/-- Stage 6 completes (R434): a tile whose sequencer is out of service is disabled under step 2 of R431. -/
def firmware (f0 : FirmwareFindings) (s : State) : State :=
  match pickObj s 2 (imageOk s 2 0x800000) with
  | none => failDawn 19 s
  | some (b, o) =>
    let f := coresOut (obBody o) f0
    let s1 := copyUsed 1 b { s with adnt := { s.adnt with fwDig := sha (obBody o), fwSvn := obSvn o },
                                    dawn := { s.dawn with march := { s.dawn.march with portBad := s.dawn.march.portBad ++ f.portBad } } }
    let s2 := if b ≠ bitOf s.dawn.active 1 then finding 0 s1 else s1
    let a := assignStep4 (f.tileBad.contains 4) (assignStep2 (fun _ t => f.tileBad.contains t) (Assign.ofState s2))
    let s3 := putAssign a s2
    if a.fail then failDawn 21 (if f.walkerBad then finding 22 s3 else s3)
    else if f.walkerBad then failDawn 22 s3
    else portsTraining (askStanding (34 * 4) (toStage 7 s3))

/-- DAWN_FIRMWARE (R434). -/
def execDawnFirmware (f : FirmwareFindings) (s : State) : Out := when (atStage 6 s) (firmware f) s

/-! ## Links (R287, R288, R314, R435) -/

/-- The census class of a lane: 3 without lock. -/
def laneClass (f : PortFinding) (l : Nat) : Nat := if !f.lockOk.getLsbD l then 3 else berClass (leAt (toLe 4 f.ber.toNat) l 1)

/-- Buffer sizes no LINK_HELLO has given are open. -/
def freeBufs (s : State) : List Nat × State :=
  (List.range 5).foldl (fun (a : List Nat × State) _ => match freeVal a.2 with | (v, s) => (a.1 ++ [v % 65536], s)) ([], s)

/-- A port as its training and census leave it. -/
def censusPort (p : Nat) (f : Option PortFinding) (s : State) : State :=
  let x := s.port p
  let plan := s.portPlan p
  let dead : Port := { x with state := 5, step := 0, lanes := 0 }
  if s.dawn.march.portBad.contains p then raiseInt blkZor 1 (setPort p dead s)
  else
    match f with
    | none => raiseInt blkZor 1 (fault { code := 0x0021, inst := p, arg0 := x.link.getD 0x3F } (setPort p { dead with tfail := 3 } s))
    | some f =>
      if !f.trained then raiseInt blkZor 1 (fault { code := 0x0021, inst := p, arg0 := x.link.getD 0x3F } (setPort p { dead with tfail := min 3 f.tfail } s))
      else if plan.role ≠ 2 ∧ f.plane ≠ plan.plane then
        raiseInt blkZor 6 (fault { code := 0x0022, inst := p, arg0 := f.plane, arg1 := plan.plane } (setPort p { dead with state := 6 } s))
      else
        let cls := sumNat ((List.range 4).map fun l => laneClass f l * 4 ^ l)
        let good := sumNat ((List.range 4).map fun l => if laneClass f l ≤ 1 then 2 ^ l else 0)
        let y : Port := { x with ber := f.ber.toNat, cls := cls, dawnCensus := true, step := 0, tfail := 0 }
        match usableLanes good with
        | none => raiseInt blkZor 1 (setPort p { y with state := 5, lanes := 0 } s)
        | some m =>
          let (bufs, s1) := if x.bufs.all (· == 0) then freeBufs s else (x.bufs, s)
          let st := if plan.role = 0 then (if m = 15 then 2 else 3) else if plan.role = 1 then 4 else 0
          setPort p ({ y with state := st, lanes := if plan.role = 2 then 0 else m, bufs := bufs, credits := bufs }.emit 2 0 true true 0 (helloPayload s p)) s1

/-- The links of FAILED and MISWIRED ports moved to spares that are attached to their planes (R435). -/
def dawnSpares (s : State) : State :=
  (List.range 34).foldl (fun s p =>
    let x := s.port p
    match x.link with
    | none => s
    | some l =>
      if x.state ≠ 5 ∧ x.state ≠ 6 then s
      else
        match s.zor.ports.find? fun y => decide (y.2.state = 4) && decide ((s.portPlan y.1).plane = l) with
        | none => s
        | some y => setPort y.1 { y.2 with state := if y.2.lanes = 15 then 2 else 3, link := some l } (updPort p (fun x => { x with link := none }) s)) s

/-- The used links of the plan, and whether one of them is at width 4 on a used port with every lane GOOD (R437). -/
def usedLinks (s : State) : List Nat := (List.range 34).filterMap fun p => let m := s.portPlan p; if m.role = 0 then some m.plane else none
def linkPerfect (s : State) (l : Nat) : Bool :=
  s.zor.ports.any fun p => decide (p.2.link = some l) && decide (p.2.state = 2) && decide (p.2.cls = 0) && decide ((s.portPlan p.1).role = 0)

/-- Frames run freely (R22): from 0, and Dawn finds FREERUN. -/
def goFreerun (s : State) : State :=
  finding 8 (newFrame 0 s.now (updClk (fun k => { k with lock := .freerun, gathers := [] }) s))

/-- Stage 8 starts (R436): link delays are measured; without a source to wait for the clock is set at once. -/
def startLock (s : State) : State :=
  let s1 := askDelays s
  if s.clk.src0.kind = 1 then newFrame 0 s.now (emitTick 0 (updClk (fun k => { k with lock := .locked }) s1))
  else if s.clk.src0.kind = 0 then goFreerun s1
  else s1

/-- Stage 7 completes (R435, R437). -/
def linkCensus (fs : List PortFinding) (s : State) : State :=
  let s1 := dawnSpares ((List.range 34).foldl (fun s p => censusPort p (fs.find? fun f => decide (f.port.val = p)) s) s)
  let bad := ((usedLinks s1).any fun l => !linkPerfect s1 l) || s1.zor.ports.any fun p => decide (p.2.state = 6)
  let s2 := if bad then finding 7 s1 else s1
  if ((usedLinks s2).filter fun l => (portOfLink s2 l).isSome).length < s2.dawn.man.linkMin then failDawn 23 s2
  else startLock (toStage 8 (settleStanding s2))

/-- DAWN_LINK_CENSUS (R435). -/
def execDawnLinkCensus (ports : List PortFinding) (s : State) : Out := afterDraws 7 (linkCensus ports) s

/-! ## The clock and the outcome (R436 to R439) -/

/-- The code of a lock state (R20). -/
def Lock.code : Lock → Nat
  | .acquiring => 0
  | .locked => 1
  | .holdover => 2
  | .lost => 3
  | .freerun => 4

/-- The clock is set: stage 8 ends. -/
def clockSet (s : State) : State :=
  toStage 9 (updDawn (fun d => { d with clockUs := usSince s d.stageT0, clockState := s.clk.lock.code, clockSrc := b2n s.clk.secondary }) s)

/-- DAWN_TICK_LOCK (R436). -/
def execDawnTickLock (s : State) : Out := when (atStage 8 s && decide (s.clk.lock ≠ .acquiring)) clockSet s

/-- ACQUIRE_TIMEOUT (R21): 2 s of stage 8 without a lock. -/
def execAcquireTimeout (s : State) : Out := when (atStage 8 s && decide (s.clk.lock = .acquiring)) goFreerun s

/-- Stage 9 (R437, R438). -/
def outcome (s : State) : State :=
  let s1 := lastFindings s
  declare (if s1.dawn.cause = 0 then 1 else 2) s1

/-- DAWN_OUTCOME (R437). -/
def execDawnOutcome (s : State) : Out := when (atStage 9 s) outcome s

/-! ## Limits (R421) -/

/-- Of a list of units, those that a stage's limit finds not done: which they are is open, one bit of a free value each (log 43). -/
def notDone {α : Type} (l : List α) (s : State) : List α × State :=
  l.foldl (fun (a : List α × State) x => match freeVal a.2 with | (v, s1) => (if v % 2 = 0 then a.1 else a.1 ++ [x], s1)) ([], s)

/-- The channels of the stacks; the nine tile entries. -/
def allChannels : List (Nat × Nat) := (List.range 8).flatMap fun i => (List.range 264).map fun c => (i, c)
def allTiles : List Nat := List.range 9

/-- The banks not yet tested at the limit of stage 5 count as defective. -/
def banksNotDone (s : State) : MarchFindings × State :=
  let (os, s1) := notDone (allTiles.flatMap fun t => (List.range 60).map fun b => (t, b)) s
  let (af, s2) := notDone allTiles s1
  let (r0, s3) := notDone (List.range 64) s2
  let (r1, s4) := notDone (List.range 64) s3
  let (ports, s5) := notDone (List.range 34) s4
  let (rest, s6) := notDone [()] s5
  ({ osBad := allTiles.map fun t => (t, (os.filter fun p => decide (p.1 = t)).map (·.2)), afBad := af, rcBad0 := r0, rcBad1 := r1,
     portBad := ports, fatal := !rest.isEmpty }, s6)

/-- The cores not yet passed at the limit of stage 6 are out of service. -/
def coresNotDone (s : State) : FirmwareFindings × State :=
  let (tiles, s1) := notDone allTiles s
  let (walkers, s2) := notDone [()] s1
  let (ports, s3) := notDone (List.range 34) s2
  ({ tileBad := tiles, walkerBad := !walkers.isEmpty, portBad := ports }, s3)

/-- A port that has trained by the limit of stage 7, its census unfinished: its rates are open. -/
def trainedSoFar (s : State) : List PortFinding × State :=
  (List.finRange 34).foldl (fun (a : List PortFinding × State) (p : Fin 34) =>
    let x := a.2.port p
    if x.up || x.state == 4 then
      match freeVal a.2 with
      | (v, s1) => (a.1 ++ [{ port := p, trained := true, plane := (s.portPlan p).plane, lockOk := BitVec.ofNat 4 x.lanes,
                              ber := BitVec.ofNat 32 v, tfail := x.tfail }], s1)
    else a) ([], s)

/-- The action of R421 at a stage's limit; stages 0 and 9 have none. -/
def stageLimit (s : State) : State :=
  match s.dawn.stage with
  | 1 => enterRecovery s
  | 2 => failDawn 17 s
  | 3 => failDawn 18 s
  | 4 => match notDone allChannels s with | (l, s1) => stackTraining l s1
  | 5 => match banksNotDone s with | (f, s1) => sramMarch f s1
  | 6 => match coresNotDone s with | (f, s1) => firmware f s1
  | 7 => match trainedSoFar s with | (fs, s1) => linkCensus fs s1
  | 8 => clockSet (if s.clk.lock = .acquiring then goFreerun s else s)
  | _ => s

/-- DAWN_STAGE_LIMIT (R421). -/
def execDawnStageLimit (s : State) : Out := when (s.live && decide (s.dawn.outcome = 0)) stageLimit s

end Sys2Proof.Machine
end

