-- ==== Sys2Proof/Machine/SelfTest.lean ====
section
/-! DEFINITION. Self-test (R34, R467) and the failures found in a core or in the ledger (R466). -/

namespace Sys2Proof.Machine

/-! ## The command -/

/-- The test a record asks for, unless a field is out of range (R467). -/
def selfTestOf (q : Nat) (c : Cmd) : Option SelfTest :=
  let kind := c.opnd 0 1
  let die := c.opnd 1 1
  let index := c.opnd 2 2
  let first := c.opnd 4 2
  let banks := c.opnd 6 2
  let steps := if kind = 1 then 16 * banks else if kind = 2 then 64 else 1
  let ok := (decide (kind = 1) && decide (index ≤ 7) && decide (1 ≤ banks) && decide (banks ≤ 64) && decide (first + banks ≤ 64)) ||
    (decide (kind = 2) && decide (die ≤ 1) && decide (index ≤ 63)) || (decide (kind = 3) && decide (index ≤ 2047))
  let test : SelfTest := { queue := q, cid := c.cid, kind := kind, die := die, index := index, bank := first, left := steps,
                           perBank := if kind = 1 then 16 else steps, total := steps, badBanks := [], armed := false }
  if ok then some test else none

/-- Whether a resident job holds a partition on a tile (R467). -/
def tileHeld (t : Nat) (s : State) : Bool :=
  s.jobs.any fun p => let x := p.2.parts.getD t Part.none; decide (x.osSize ≠ 0) || decide (x.afSize ≠ 0)

/-- SELFTEST (R467): refused at once, or queued for the maintenance slices. -/
def execSelftest (q : Fin 128) (s : State) : Out :=
  runHead q Op.SELFTEST (fun c s =>
    match selfTestOf q c with
    | none => endHead q St.SELFTEST_BADREQ 0 0 s
    | some t =>
      if s.flt.selftest.isSome || (decide (t.kind = 1) && tileHeld t.index s) then endHead q St.SELFTEST_BUSY 0 0 s
      else { s with flt := { s.flt with selftest := some t } }) s

/-! ## Its steps -/

/-- Steps done. -/
def SelfTest.done (t : SelfTest) : Nat := t.total - t.left

/-- The bank under test. -/
def SelfTest.bankNow (t : SelfTest) : Nat := if t.kind = 1 then t.bank + t.done / t.perBank else if t.kind = 2 then t.index else 0

/-- The unit tested (R457): tile, die of the row cache, or channel. -/
def SelfTest.inst (t : SelfTest) : Nat := if t.kind = 2 then t.die else t.index

/-- The tile-local words of 512 B that group `g` of 64 words of a bank holds: row and bank of R80 for the Operand Store, the columns
of R82 for the Accumulator File.  `rank` is the bank's place among the tile's banks in use. -/
def inBankGroup (osBanks bank rank g a : Nat) : Bool :=
  if bank < 60 then
    decide (a < osBanks * 0x40000) && decide (a / 512 % osBanks = rank) && decide (a / 512 / osBanks / 64 = g)
  else
    decide (0xF00000 ≤ a) && decide (a < 0x1000000) && decide ((a - 0xF00000) / 1024 % 4 = bank - 60) && decide ((a - 0xF00000) / 4096 / 32 = g)

/-- Words of a tile bank marched: they hold zero with valid ECC.  A bank mapped out is at no address. -/
def marchTile (t : SelfTest) (s : State) : State :=
  let bank := t.bankNow
  let g := t.done % 16 / 2
  updTile t.index (fun x =>
    let out := (s.dawn.tiles.getD (5 * x.die + x.phys) ⟨0, 0, 0, 0, 0⟩).osOut
    let rank := ((List.range bank).filter fun b => !bitOf out b).length
    if bitOf out bank then x
    else
      { x with sram := x.sram.filter fun p => !inBankGroup x.osBanks bank rank g p.1
               poison := x.poison.filter fun p => !inBankGroup x.osBanks bank rank g (8 * p.1) }) s

/-- Whether a march step fits into what remains of the slice outside the protected reserve, after this slice's earlier steps (R33, R34). -/
def stepFits (s : State) : Bool := decide (max s.pos (s.W + s.clk.sliceUsed) + 656 ≤ s.reserveAt)

/-- Whether a step of the queued test can run in this slice: a march step at a free point, after the link census and the digest task (R33),
a retraining step where the slice has its place (R155). -/
def stepReady (s : State) : Bool :=
  s.framed && !s.lost && s.clk.sliceDone &&
    (match s.flt.selftest with
     | some t =>
       t.armed && (if t.kind = 3 then decide (s.stk.test = some t.index)
         else stepFits s && sliceFree s && !censusWaits s && !digestWaits s)
     | none => false)

/-- The instant of the next step: after this slice's earlier steps, or at the end of a retraining step. -/
def stepAt (s : State) : Nat :=
  match s.flt.selftest with
  | some t => if t.kind = 3 then testStart s (t.index / 256) + 2400 else s.W + s.clk.sliceUsed
  | none => s.W

/-- The work of a step: words marched, the bank's lines dropped at the first, or a retraining step (R155, R156). -/
def stepWork (t : SelfTest) (failed : Bool) (s : State) : State :=
  if t.kind = 1 then marchTile t s
  else if t.kind = 2 then (if t.done = 0 then cacheDropBank t.die t.index s else s)
  else retrainOutcome t.index (!failed) s

/-- The end of a test: it completes and STDONE is set. -/
def endTest (t : SelfTest) (s : State) : State :=
  endCid t.queue t.cid (if t.badBanks = [] then St.OK else St.SELFTEST_FAIL) 0 0
    (raiseInt blkFlt 4 { s with flt := { s.flt with selftest := none } })

/-- One step of the test; a bank that fails is reported once. -/
def selfTestStep (failed : Bool) (addr : Nat) (s : State) : State :=
  match s.flt.selftest with
  | none => s
  | some t =>
    let bank := t.bankNow
    let fresh := failed && !t.badBanks.contains bank
    let s1 := stepWork t failed s
    let s2 := if fresh then fault { code := 0x00A0, inst := t.inst, addr := addr, arg0 := t.kind, arg1 := bank } s1 else s1
    let t1 := { t with left := t.left - 1, badBanks := if fresh then t.badBanks ++ [bank] else t.badBanks }
    let s3 := { s2 with flt := { s2.flt with selftest := some t1 }, stk := { s2.stk with test := none },
                        clk := { s2.clk with sliceUsed := if t.kind = 3 then s2.clk.sliceUsed
                                                          else max (s2.pos - s2.W) s2.clk.sliceUsed + 656 } }
    if t1.left = 0 then endTest t1 s3 else s3

/-- SELFTEST_STEP (R34, R467): in the maintenance slice, after what this slice's earlier steps have taken; a retraining step at its end. -/
def execSelftestStep (failed : Bool) (addr : BitVec 64) (s : State) : Out :=
  atInstant stepReady (s.atPos (stepAt s)) (fun s => if s.pos < stepAt s then s else selfTestStep failed addr.toNat s) s

/-! ## Failures that end in FATAL (R466) -/

/-- CORE_FAILED: management cores 0 to 3 and Adant 4. -/
def execCoreFailed (block : Fin 17) (core : Fin 5) (s : State) : Out :=
  when s.live (enterFatal { code := 0x00F1, arg0 := core.val, blk := some block.val }) s

/-- The count the ledger recomputes from what its owners hold (R377). -/
def ledgerSum (s : State) : Nat :=
  s.ledger.standing + sumNat (s.ledger.holds.map (·.2)) + sumNat (s.ledger.waiting.map (·.accrued))

/-- LEDGER_FAULT: ARG0 the held count, ARG1 the recomputed one. -/
def execLedgerFault (s : State) : Out :=
  when (s.live && s.ledger.on) (fun s => enterFatal { code := 0x00F2, arg0 := s.ledger.held, arg1 := ledgerSum s } s) s

end Sys2Proof.Machine
end

