-- ==== Sys2Proof/Machine/Views.lean ====
section
/-! DEFINITION. What the registers of BAR0 read as: the live registers of every block as views of the state they report; every other
register reads what it holds (R44, R108, R133, R162, R191, R220, R252, R283, R320, R350, R361, R385, R386, R417, R442, R455, R470). -/

namespace Sys2Proof.Machine

/-- A register word put together from (lowest bit, width, value). -/
def pack (l : List (Nat × Nat × Nat)) : Nat := l.foldl (fun a f => a + f.2.2 % 2 ^ f.2.1 * 2 ^ f.1) 0

/-! ## Clock, ledger, power -/

/-- FCLK_POS: counted since the tick once the clock has locked. -/
def posView (s : State) : Nat := if s.clk.lock = .acquiring then 0 else s.pos % 2 ^ 22

/-- A tick source as FCLK_SRC0 and FCLK_SRC1 show it. -/
def TickSrc.word (t : TickSrc) : Nat := pack [(0, 2, t.kind), (16, 16, t.id)]

def viewFclk (off : Nat) (s : State) : Option Nat :=
  let k := s.clk
  if Reg.FCLK_DLY 0 ≤ off ∧ off < Reg.FCLK_DLY 34 then
    some (match Tbl.look? k.delay ((off - Reg.FCLK_DLY 0) / 4) with | some d => pack [(0, 20, d), (31, 1, 1)] | none => 0)
  else if off = Reg.FCLK_STATUS then
    some (pack [(0, 3, k.lock.code), (3, 1, b2n k.secondary), (4, 5, min 16 k.holdCnt),
      (9, 1, b2n (decide (k.lock ≠ .acquiring) && decide (s.pos ≥ s.W)))])
  else if off = Reg.FCLK_FNUM then some (k.fnum % 2 ^ 48)
  else if off = Reg.FCLK_LEN then some k.len
  else if off = Reg.FCLK_MAINT then some (pack [(0, 19, frameM k.len k.permille), (24, 8, k.permille)])
  else if off = Reg.FCLK_POS then some (k.posLatch.getD (posView s))
  else if off = Reg.FCLK_SLOT then some (pack [(0, 16, s.slotLen), (16, 16, frameP k.len / 64)])
  else if off = Reg.FCLK_SRC0 then some k.src0.word
  else if off = Reg.FCLK_SRC1 then some k.src1.word
  else none

def viewLedg (off : Nat) (s : State) : Option Nat :=
  let l := s.ledger
  if off = Reg.LEDG_STATUS then some (pack [(0, 1, b2n l.overheld), (1, 1, b2n (l.waiting != [])), (2, 12, l.standing)])
  else if off = Reg.LEDG_LIMIT then some (pack [(0, 12, ledgerLimit s), (16, 12, 3200)])
  else if off = Reg.LEDG_HELD then some (pack [(0, 12, l.held), (16, 12, l.tail)])
  else if off = Reg.LEDG_WAIT then
    some (match l.waiting with
      | [] => 0
      | r :: _ => pack [(0, 12, r.units - r.accrued), (12, 2, r.cls), (16, 16, satTo 16 l.waiting.length)])
  else none

def railView (s : State) : Nat :=
  let r := Tbl.look s.power.rails (regField s Reg.PWR_RAILSEL 2 0) Rail.init
  pack [(0, 16, r.vout), (16, 16, r.iout), (32, 8, r.temp), (40, 1, b2n r.valid), (41, 1, b2n r.fail)]

/-- The PWR_STATE that awaits its tick, one to the present state among them: its target and the frame it acts in (R386); 0 and a frame that has
passed mean the next tick (R368). -/
def State.pwrPending (s : State) : Option (PState × Nat) :=
  match s.power.pend, s.power.sameState with
  | some x, _ => some (x.target, if x.asked then x.frame else max x.frame (s.clk.fnum + 1))
  | none, _ :: _ => some (s.power.state, s.clk.fnum + 1)
  | none, [] => none

def viewPwr (off : Nat) (s : State) : Option Nat :=
  let p := s.power
  if off = Reg.PWR_STATUS then
    some (pack [(0, 2, p.state.code), (2, 1, b2n p.dusk.isSome), (3, 1, b2n p.tripped), (4, 1, b2n p.hold), (5, 1, b2n s.pwrPending.isSome),
      (6, 2, match s.pwrPending, p.dusk with | some x, _ => x.1.code | none, some d => d.target.code | none, none => 0),
      (8, 8, match p.dusk with | some d => satTo 8 d.frames | none => 0)])
  else if off = Reg.PWR_PEND then some (match s.pwrPending with | some x => x.2 % 2 ^ 48 | none => 0)
  else if off = Reg.PWR_LIMITS then some (pack [(0, 12, p.limits.noon), (16, 12, p.limits.eve), (32, 11, p.limits.plimit), (48, 8, p.limits.tsoft)])
  else if off = Reg.PWR_GOV then some (pack [(0, 32, p.limits.gov), (32, 32, satTo 32 p.govSpent)])
  else if off = Reg.PWR_TEMP then some (pack [(0, 8, s.tj), (8, 8, p.die0), (16, 8, p.die1), (24, 8, p.fab)])
  else if off = Reg.PWR_PKG then
    some (pack [(0, 16, satTo 16 s.pkgWatts),
      (16, 16, match coreRail s with | some (i, _) => (Tbl.look p.rails i Rail.init).iout / 4 | none => 0)])
  else if off = Reg.PWR_ENERGY then some p.energy
  else if off = Reg.PWR_RAIL then some (railView s)
  else none

/-! ## Tiles and vector engines -/

/-- All draws a tile holds (R103, R127). -/
def tileDraws (t : Nat) (s : State) : Nat :=
  sumNat ((List.range 3).map fun k => heldBy (.chunk (3 * t + k)) s) + heldBy (.block t) s + heldBy (.vecExtra t) s

/-- The array draws a tile holds (R103, R104, R108): of each chunk what its sequencer's and vector draws leave, and what a swap has been granted. -/
def arrayDraws (t : Nat) (s : State) : Nat :=
  sumNat ((List.range 3).map fun k =>
    match (s.unit (3 * t + k)).run with
    | some ch => ch.held - (ch.draws - arrShare s ch.draws)
    | none => 0) + heldBy (.block t) s

/-- The standing draw of a tile now. -/
def tileStanding (s : State) : Nat := if s.ledger.standing = 0 then 0 else if s.evening then 7 else 12

def tileView (t r : Nat) (x : Tile) (s : State) : Option Nat :=
  if r = 0x00 then
    some (pack [(0, 9, x.width), (9, 3, x.bypass.length), (12, 3, x.phys), (15, 1, x.die), (16, 1, b2n x.spare), (17, 6, x.osBanks)])
  else if r = 0x04 then
    some (pack [(0, 12, arrayDraws t s), (16, 12, tileDraws t s + tileStanding s)])
  else if r = 0x0C then
    some (pack [(0, 7, x.defq.length), (7, 1, b2n (decide (x.defq.length = 64))), (16, 16, match x.defq with | b :: _ => b.layer | [] => 0)])
  else if r = 0x18 then some (pack ((List.range 4).map fun i => (16 * i, 16, x.bypass.getD i 0xFFFF)))
  else if 0x20 ≤ r ∧ r < 0x38 then
    let q := x.seq ((r - 0x20) / 8)
    some (pack [(0, 3, q.state), (3, 6, q.job), (9, 7, q.queue), (16, 1, b2n q.laHeld), (32, 32, q.pc)])
  else none

def viewTile (off : Nat) (s : State) : Option Nat :=
  let t := (off - 0x40000) / 0x2000
  match s.tile? t with
  | none => none
  | some x => tileView t ((off - 0x40000) % 0x2000) x s

def vecView (t : Nat) (x : Tile) (s : State) : Nat :=
  match x.chain.or x.parked.head? with
  | none => 0
  | some r =>
    let st := if r.stopped then 5 else if !chainStarted t r s then 4
      else match r.cur with | some c => if handoffWaits x r c then 3 else 2 | none => 2
    let stages := match r.cur with | some c => c.stages.length - 1 | none => 0
    pack [(0, 3, st), (3, 2, regSeq r.owner.num), (5, 6, r.job), (11, 3, stages), (14, 2, r.idx), (16, 16, r.vdone)]

def viewVec (off : Nat) (s : State) : Option Nat :=
  let t := (off - 0x50000) / 0x2000
  match s.tile? t with
  | none => none
  | some x => if (off - 0x50000) % 0x2000 = 0 then some (vecView t x s) else none

/-! ## Memory stacks and the unified range -/

def viewMem (off : Nat) (s : State) : Option Nat :=
  let c := regField s Reg.MEM_CHSEL 10 0
  let up := fun (i : Nat) => s.dawn.stackUp.getD i false
  let ex := fun (i : Nat) => s.dawn.excl.getD i 0
  if off = Reg.MEM_STATUS then
    some (pack [(0, 8, sumNat ((List.range 8).map fun i => if up i then 2 ^ i else 0)), (8, 1, b2n ((List.range 8).any fun i => (s.stack i).hot)),
      (9, 1, b2n s.stk.selfRefresh), (10, 11, (s.stk.chans.filter fun p => p.2.failed).length)])
  else if off = Reg.MEM_CHINFO then
    some (pack [(0, 2, if (s.chan c).failed then 2 else if retraining s c then 1 else 0), (2, 9, physChan s c), (11, 5, (s.chan c).scrub * 32 / chanSectors),
      (16, 16, satTo 16 (s.chan c).ce)])
  else if off = Reg.MEM_CHLOAD then some (pack [(0, 32, satTo 32 (s.chan c).last), (32, 32, satTo 32 s.stk.mean)])
  else if off = Reg.MEM_SKEW then some (pack [(0, 16, satTo 16 s.stk.ratio), (16, 11, s.stk.busiest), (27, 5, satTo 5 s.stk.skewRun)])
  else if Reg.MEM_STK 0 ≤ off ∧ off < Reg.MEM_STK 8 then
    let i := (off - Reg.MEM_STK 0) / 4
    some (pack [(0, 8, (s.stack i).temp), (8, 4, maskCount (ex i)), (12, 1, b2n (up i)), (13, 1, b2n (s.stack i).hot)])
  else if Reg.MEM_CHMAP 0 0 ≤ off ∧ off < Reg.MEM_CHMAP 8 0 ∧ (off - Reg.MEM_CHMAP 0 0) % 64 < 36 then
    let d := off - Reg.MEM_CHMAP 0 0
    some (ex (d / 64) % 2 ^ 264 / 2 ^ (8 * (d % 64)) % 2 ^ 32)
  else none

/-- Pages of a job with some backing. -/
def pagesOf (j : Nat) (f : Backing → Bool) (s : State) : Nat :=
  (s.urng.pages.filter fun p => decide (p.1 / 2 ^ 27 = j) && f p.2.back).length

def viewUrng (off : Nat) (s : State) : Option Nat :=
  let u := s.urng
  let j := regField s Reg.URNG_JOBSEL 5 0
  let job := s.job? j
  if off = Reg.URNG_STATUS then
    some (pack [(0, 3, u.stamp), (3, 3, u.thresh), (6, 1, b2n u.evicting), (7, 1, b2n u.up.isSome), (8, 1, b2n u.down.isSome)])
  else if off = Reg.URNG_PERIOD then some u.period
  else if off = Reg.URNG_POOL then some (pack [(0, 19, u.pool), (32, 19, s.freeFrames)])
  else if off = Reg.URNG_HTIER then some (pack [(0, 23, s.hostTotal), (32, 23, s.hostFree)])
  else if off = Reg.URNG_JOBPOOL then
    some (pack [(0, 19, (job.map (·.floor)).getD 0), (19, 19, (job.map (·.ceil)).getD 0),
      (38, 19, (u.frames.filter fun p => decide (p.2 / 2 ^ 27 = j)).length)])
  else if off = Reg.URNG_JOBHOST then
    some (pack [(0, 23, pagesOf j (fun b => match b with | .owned _ => true | _ => false) s),
      (23, 23, pagesOf j (fun b => match b with | .shared _ => true | _ => false) s)])
  else none

/-! ## Tables, lookups, dense layers -/

/-- The largest lag of a job's live slots and the owner rank of the first slot that has it (R220). -/
def worstLag (j : Nat) (s : State) : Nat × Nat :=
  match s.job? j with
  | none => (0, 0)
  | some job =>
    s.emb.slots.foldl (fun a p =>
      match p.2.live with
      | some c =>
        let lag := s.clk.fnum - p.2.dframe.getD c 0
        if p.1 / 65536 = j ∧ lag > a.1 then (lag, p.1 % 65536 / hotQuota job) else a
      | none => a) (0, 0)

def viewEmb (off : Nat) (s : State) : Option Nat :=
  let j := regField s Reg.EMB_SEL 5 0
  let t? := s.table? j (regField s Reg.EMB_SEL 27 16)
  let of := fun (f : Table → Nat) => some ((t?.map f).getD 0)
  if off = Reg.EMB_STATUS then some s.emb.tables.length
  else if off = Reg.EMB_TBLINFO then
    of fun t => pack [(0, 40, fxBits t.fixed 55 16), (40, 8, fxBits t.fixed 63 56), (48, 2, fxPlace t.fixed), (50, 1, b2n (fxHot t.fixed)), (51, 1, 1)]
  else if off = Reg.EMB_OWNERS then of fun t => pack [(0, 16, fxFirst t.fixed), (16, 16, fxOwners t.fixed - 1)]
  else if off = Reg.EMB_REPL then some (s.emb.slots.filter fun p => decide (p.1 / 65536 = j) && p.2.live.isSome).length
  else if off = Reg.EMB_VER then
    of fun t => pack [(0, 16, vsVnum t.cur), (16, 16, if t.othSt = 0 then 0 else vsVnum t.oth), (32, 2, t.othSt), (34, 1, b2n (t.pub != []))]
  else if off = Reg.EMB_VERFRM then of fun t => if t.othSt ≥ 2 then t.othFrame % 2 ^ 48 else 0
  else if off = Reg.EMB_LAG then some (pack [(0, 8, satTo 8 (worstLag j s).1), (16, 16, (worstLag j s).2)])
  else if off = Reg.EMB_HOTREAD then some s.dawn.man.hotReads
  else if off = Reg.EMB_HOTROWS then some (s.emb.hot.filter fun p => decide (p.1 / 65536 = j)).length
  else none

/-- LKP_STEP: the closes held are those of the step after the last one updated. -/
def stepView (t : Table) : Nat :=
  let next := match t.last with
    | some l => l + 1
    | none => match t.closes with | c :: r => r.foldl (fun a x => min a x.1) c.1 | [] => 0
  pack [(0, 32, t.last.getD 0), (32, 16, satTo 16 (t.closes.filter fun c => decide (c.1 = next)).length), (48, 1, b2n t.updating.isSome),
    (49, 1, b2n t.last.isSome)]

def viewLkp (off : Nat) (s : State) : Option Nat :=
  let j := regField s Reg.LKP_SEL 5 0
  if off = Reg.LKP_STATUS then
    some (pack [(0, 13, s.lkp.rflows.length), (13, 13, s.lkp.oflows.length),
      (26, 6, satTo 6 (s.units.filter fun p => decide (24 ≤ p.1) && p.2.run.isSome).length)])
  else if off = Reg.LKP_FRAMEUSE then some (satTo 32 s.lkp.lastUse)
  else if off = Reg.LKP_JOBFLOWS then
    some (pack [(0, 13, (s.lkp.oflows.filter fun p => decide (p.2.job = j)).length), (13, 13, ((s.job? j).map (·.quota)).getD 0)])
  else if off = Reg.LKP_STEP then some (((s.table? j (regField s Reg.LKP_SEL 27 16)).map stepView).getD 0)
  else none

def viewDtr (off : Nat) (s : State) : Option Nat :=
  let j := regField s Reg.DTR_SEL 5 0
  let l? := s.layer? j (regField s Reg.DTR_SEL 31 16)
  if off = Reg.DTR_STATUS then
    some (pack [(0, 15, s.dtr.layers.length), (15, 15, (s.dtr.layers.filter fun p => decide (p.2.phase ≠ 0)).length)])
  else if off = Reg.DTR_LINFO then
    some ((l?.map fun l => pack [(0, 32, dlElems l.desc), (32, 16, l.gidx), (48, 16, dlG l.desc - 1)]).getD 0)
  else if off = Reg.DTR_LSTEP then
    some ((l?.map fun l => pack [(0, 32, l.step), (32, 3, if l.access then 6 else l.phase), (35, 1, 1), (36, 1, b2n l.lastSkip), (48, 16, l.marks)]).getD 0)
  else if off = Reg.DTR_STAGE then
    some (((s.job? j).map fun x => pack [(0, 6, x.stage), (6, 6, x.nstages - 1), (32, 32, ceilDiv (actStore x) (2 ^ 20))]).getD 0)
  else none

/-! ## Links, host port, check units -/

def viewZor (off : Nat) (s : State) : Option Nat :=
  let n := regField s Reg.ZOR_PSEL 5 0
  let p := s.port n
  let held := (usedLinks s).filterMap fun l => portOfLink s l
  if off = Reg.ZOR_STATUS then
    some (pack [(0, 6, held.length), (6, 6, (held.filter fun i => decide ((s.port i).state = 3)).length),
      (12, 2, (s.zor.ports.filter fun p => p.2.link.isSome && decide ((s.portPlan p.1).role = 1)).length),
      (14, 6, (s.zor.ports.filter fun p => decide (p.2.state = 5) || decide (p.2.state = 6)).length)])
  else if off = Reg.ZOR_ADDR then some s.addr
  else if off = Reg.ZOR_PORT then
    -- a port in training has no lane in service (R286, R320)
    let lanes := if p.up || p.state == 4 then p.lanes else 0
    let w := ((List.range 4).filter fun i => bitOf lanes i).length
    some (pack [(0, 3, p.state), (3, 6, p.link.getD 0x3F), (9, 5, (s.portPlan n).plane), (14, 2, if w = 4 then 2 else if w = 2 then 1 else 0),
      (16, 4, lanes), (20, 2, p.tfail), (32, 32, p.upFrame)])
  else if off = Reg.ZOR_CENSUS then some (pack [(0, 32, p.ber), (32, 8, p.cls), (40, 1, b2n p.dawnCensus)])
  else if off = Reg.ZOR_TXFLITS then some p.tx
  else if off = Reg.ZOR_RXFLITS then some p.rx
  else if off = Reg.ZOR_FECCORR then some p.fec
  else if off = Reg.ZOR_CRCERR then some p.crc
  else if off = Reg.ZOR_REPLAY then some p.reps
  else if off = Reg.ZOR_SKEW then some (pack [(0, 16, satTo 16 s.zor.ratio), (16, 5, s.zor.busiest), (21, 5, satTo 5 s.zor.skewRun)])
  else none

/-- HOST_QSTAT. -/
def Queue.statWord (Q : Queue) : Nat :=
  let st := if !Q.en then 0 else if Q.held then 3 else if Q.stalled then 2 else 1
  let hd := match Q.cmds with
    | [] => 0
    | c :: _ => if c.runs then 2 else match c.life with | .queued => 0 | .head => 1 | .running => 2 | .suspended => 3
  pack [(0, 3, st), (3, 3, Q.cause), (6, 1, b2n Q.credRej), (7, 1, b2n Q.busy), (8, 8, Q.alive), (16, 9, Q.holding),
    (25, 3, hd)]

def viewHost (off : Nat) (s : State) : Option Nat :=
  let Q := s.queue s.qsel
  if off = Reg.HOST_STATUS then
    some (pack [(0, 8, s.enabled.length), (8, 8, (s.queues.filter fun p => p.2.en && (p.2.stalled || p.2.held)).length), (16, 7, s.jobs.length)])
  else if off = Reg.HOST_LINK then
    let l := s.link
    some (pack [(0, 4, l.width), (4, 4, l.rate), (8, 1, b2n l.flit), (9, 1, b2n l.noflit), (10, 1, b2n l.cache)])
  else if off = Reg.HOST_QSEL then some s.qsel
  else if off = Reg.HOST_QCRCFG then some (pack [(0, 5, Q.log2), (5, 8, Q.modCnt), (13, 16, Q.modTime)])
  else if off = Reg.HOST_QCFG then some (if s.limited then setBits Q.cfgWord 14 14 1 else Q.cfgWord)
  else if off = Reg.HOST_QCRBASE then some Q.crBase
  else if off = Reg.HOST_QPTR then some (pack [(0, 14, Q.head), (16, 14, Q.tail), (32, 16, Q.crTail), (48, 16, Q.crHead)])
  else if off = Reg.HOST_QCOUNT then some (pack [(0, 16, Q.dup), (16, 16, Q.torn), (32, 16, Q.credRejs), (48, 16, Q.retry)])
  else if off = Reg.HOST_QSTAT then some Q.statWord
  else if Reg.HOST_DB 0 ≤ off ∧ off < Reg.HOST_DB 128 then some 0
  else if Reg.HOST_CRHEAD 0 ≤ off ∧ off < Reg.HOST_CRHEAD 128 then some ((s.queue ((off - Reg.HOST_CRHEAD 0) / 4)).crHead % 65536)
  else none

/-- CHK_STAT: with the writes still queued, LEVEL, and BUSY while there are any. -/
def ChkUnit.statWord (c : ChkUnit) : Nat :=
  pack [(0, 5, c.stat), (5, 3, c.cause), (8, 1, b2n c.isOpen), (9, 1, b2n (c.stream != [])), (10, 6, c.stream.length)]

def chkView (c : ChkUnit) (r : Nat) : Nat :=
  if r = 0x00 then c.cfg else if r = 0x08 then c.poly else if r = 0x10 then c.inival else if r = 0x18 then c.expect
  else if r = 0x20 then c.readResult else if r = 0x40 then c.statWord else if r = 0x44 then c.inten else if r = 0x48 then c.count
  else if r = 0x50 then c.len else if r = 0x58 then c.alive else 0

def viewChk (off : Nat) (s : State) : Option Nat :=
  if Reg.CHK_INT_SUM 0 ≤ off ∧ off < Reg.CHK_INT_SUM 5 then
    let w := (off - Reg.CHK_INT_SUM 0) / 4
    some (sumNat (s.chk.map fun p => if p.1 / 32 = w ∧ p.2.pending then 2 ^ (p.1 % 32) else 0))
  else if Reg.CHK_CFG 0 ≤ off ∧ off < Reg.CHK_CFG 144 then
    let u := (off - Reg.CHK_CFG 0) / 128
    let c := s.chkUnit u
    some (chkView (if u < 128 then { c with alive := (s.queue u).alive } else c) ((off - Reg.CHK_CFG 0) % 128))
  else none

/-! ## Adant, Dawn, exporter, faults -/

def SessState.code : SessState → Nat
  | .none => 0
  | .open => 1
  | .joining => 2
  | .joined => 3
  | .failed => 4
  | .keyless => 5

def presView (s : State) : Nat :=
  match s.adnt.window with
  | none => 0
  | some w =>
    let ms := match w.hold with | some t => (s.now - t) / 64000000 | none => 0
    pack [(0, 4, w.op), (4, 12, satTo 12 ms), (16, 5, 30 - (s.now - w.since) / 64000000000)]

def viewAdnt (off : Nat) (s : State) : Option Nat :=
  let a := s.adnt
  if off = Reg.ADNT_STATUS then
    some (pack [(0, 2, s.lc.code), (2, 2, a.debug), (4, 2, a.dbgMax), (6, 1, b2n a.sealOk), (7, 1, b2n (sealOn s)), (8, 1, b2n a.bekReady),
      (9, 1, b2n a.idValid), (10, 1, b2n a.certOk), (11, 1, b2n a.recovery), (12, 1, b2n a.presIn)])
  else if off = Reg.ADNT_RBSEQ then some a.rb.rbSeq
  else if off = Reg.ADNT_SVN then some (pack [(0, 16, a.fwSvn), (16, 16, a.rb.svnFloor)])
  else if off = Reg.ADNT_SEALCNT then some a.rb.sealBrk
  else if off = Reg.ADNT_PRES then some (presView s)
  else if off = Reg.ADNT_SESS then
    let x := s.session (regField s Reg.ADNT_SEL 5 0)
    some (pack [(0, 3, x.state.code), (3, 1, b2n (bitOf x.policy 3)), (4, 10, x.slot), (16, 16, satTo 16 x.verified.length), (32, 32, x.sctr.getD 0)])
  else if off = Reg.ADNT_KEYS then some a.owners.length
  else if off = Reg.ADNT_OPCTR then some a.opctr
  else if off = Reg.ADNT_DBGCTL then some (pack [(3, 1, 1), (4, 3, a.dbgErr), (7, 1, b2n (dbgHalted s.dbgSel s))])
  else none

/-- The Dawn report as software sees it: final after the outcome, as far as it is written before. -/
def reportNow (s : State) : Bytes := s.dawn.report.getD (reportBytes s)

def viewDawn (off : Nat) (s : State) : Option Nat :=
  let d := s.dawn
  if off = Reg.DAWN_STATUS then
    some (pack [(0, 4, d.stage), (4, 2, d.outcome), (6, 1, b2n d.priorSd), (7, 1, b2n (decide (d.nclamp ≠ 0))), (8, 16, satTo 16 d.nclamp),
      (24, 1, b2n (decide (d.nclamp > 160)))])
  else if off = Reg.DAWN_CAUSE then some d.cause
  else if off = Reg.DAWN_TIME then
    some (if d.outcome = 0 then pack [(0, 32, usSince s d.t0), (32, 32, usSince s d.stageT0)] else d.total % 2 ^ 32)
  else if off = Reg.DAWN_ID then some (pack [(0, 8, 0xB1), (8, 8, d.mfmt)])
  else if off = Reg.DAWN_NVM then some (pack [(0, 4, d.copies), (4, 1, b2n d.dirValid), (8, 8, s.nvm.sizeLog2)])
  else if 0xE1000 ≤ off ∧ off < 0xE2000 then some (leAt (reportNow s) (off - 0xE1000) 4)
  else none

def viewDlx (off : Nat) (s : State) : Option Nat :=
  let (j, k) := s.dlxSel
  let d? := Tbl.look? s.dlx.jobs j
  let keeper := fun (f : Keeper → Nat) => some (((d?.bind fun d => d.keepers[k]?).map f).getD 0)
  if off = Reg.DLX_STATUS then
    some (pack [(0, 7, (s.dlx.jobs.filter fun p => p.2.keepers != []).length), (7, 1, b2n s.dlx.restore.isSome),
      (8, 12, min 2048 (ceilDiv (dlxBuffered s) (2 ^ 20)))])
  else if off = Reg.DLX_JOB then
    some ((d?.map fun d => pack [(0, 48, d.lastClosed.getD 0), (48, 8, satTo 8 (dlxLag s d)), (56, 1, b2n (dlxHolds s j (dlxNext s j))), (57, 1, b2n d.sweep.isSome)]).getD 0)
  else if off = Reg.DLX_ACKED then keeper fun x => pack [(0, 48, x.acked.getD 0), (48, 2, x.kind), (50, 1, b2n x.lost)]
  else if off = Reg.DLX_KTAIL then keeper fun x => x.tail % 2 ^ 48
  else if off = Reg.DLX_KHEAD then keeper fun x => x.head % 2 ^ 48
  else if off = Reg.DLX_BASE then keeper fun x => x.fb % 2 ^ 48
  else none

/-- 32 bits of a record held in FLT_LAST or FLT_FATALREC; 0 until one is held. -/
def recWord (r : Option FaultRec) (i : Nat) : Nat := match r with | some f => leAt f.bytes i 4 | none => 0

def viewFlt (off : Nat) (s : State) : Option Nat :=
  if off = Reg.FLT_STATUS then
    some (pack [(0, 1, b2n s.flt.fatal), (1, 1, b2n s.flt.selftest.isSome), (16, 16, match s.flt.selftest with | some t => satTo 16 t.left | none => 0)])
  else if off = Reg.FLT_RCFG then some (pack [(0, 1, b2n s.flt.ringEn), (1, 5, s.flt.log2)])
  else if off = Reg.FLT_RPTR then some (s.flt.tail % 65536)
  else if off = Reg.FLT_RHEAD then some (s.flt.head % 65536)
  else if 0x100100 ≤ off ∧ off < 0x100140 then some (recWord s.flt.last (off - 0x100100))
  else if 0x100140 ≤ off ∧ off < 0x100180 then some (recWord s.flt.fatalRec (off - 0x100140))
  else none

/-! ## Every register -/

/-- The view that stands at an offset, if the register there reports structured state. -/
def viewAt (off : Nat) (s : State) : Option Nat :=
  match off / 0x10000 with
  | 0 => viewHost off s
  | 1 => viewFclk off s
  | 2 => viewLedg off s
  | 3 => viewPwr off s
  | 4 => viewTile off s
  | 5 => viewVec off s
  | 6 => viewMem off s
  | 7 => viewUrng off s
  | 8 => viewEmb off s
  | 9 => viewLkp off s
  | 10 => viewDtr off s
  | 11 => viewZor off s
  | 12 => viewChk off s
  | 13 => viewAdnt off s
  | 14 => viewDawn off s
  | 15 => viewDlx off s
  | 16 => viewFlt off s
  | _ => none

/-- What the register at an offset reads as; WO fields read 0 (R8). -/
def readReg (s : State) (off : Nat) : Nat :=
  match viewAt off s with
  | some v => v
  | none => regRaw s off

end Sys2Proof.Machine
end

