-- ==== Sys2Proof/Machine/Access.lean ====
section
/-! DEFINITION. Register accesses over BAR0: which blocks are served, reads with latches and clearing fields, writes by the access codes
(R5 to R9, R423, R440, R459, R466, R469). -/

namespace Sys2Proof.Machine

/-! ## What BAR0 serves -/

/-- Registers of the HOST block that the limited form answers (R440). -/
def limitedHost (off : Nat) : Bool :=
  decide (off < 0x34) || decide (off = Reg.HOST_INT_STAT) || decide (off = Reg.HOST_INT_EN) || decide (off = Reg.HOST_DB 0) ||
    decide (off = Reg.HOST_CRHEAD 0) || decide (0x7F00 ≤ off ∧ off < 0x10000)

/-- Whether a 32-bit word of BAR0 is served now (R423, R440, R466); elsewhere reads return 0 and writes are discarded. -/
def wordServed (s : State) (off : Nat) : Bool :=
  let blk := off / 0x10000
  let base := decide (blk = 13) || decide (blk = 14)
  if s.flt.fatal then base || decide (blk = 16) || decide (off = Reg.HOST_STATUS)
  else if s.dawn.outcome = 0 then base || decide (off = Reg.HOST_STATUS) || decide (off = Reg.HOST_LINK)
  else if s.dawn.outcome = 3 then base || (decide (blk = 0) && limitedHost off)
  else true

/-! ## Registers at an offset -/

/-- What lies at a word: a register of 32 bits or the low half of one of 64, the high half of one, or nothing. -/
inductive RegPlace where
  | low (base : Nat) (r : RegDesc)
  | high (base : Nat) (r : RegDesc)
  | nothing
  deriving DecidableEq, Repr

/-- The register a 32-bit word of BAR0 belongs to. -/
def placeOf (off : Nat) : RegPlace :=
  match regAt off with
  | some r => .low off r
  | none =>
    if off % 8 = 4 then match regAt (off - 4) with | some r => if r.wide then .high (off - 4) r else .nothing | none => .nothing
    else .nothing

/-- A 32-bit word of the MSI-X table or of the pending bits. -/
def msixWord (off : Nat) (s : State) : Nat :=
  if off < 0x8000 then
    sumNat ((List.range 32).map fun i => if (Tbl.look? s.msix.pba (8 * (off - 0x7F00) + i)).isSome then 2 ^ i else 0)
  else
    let e := Tbl.look s.msix.table ((off - 0x8000) / 16) MsixEnt.init
    match off % 16 / 4 with
    | 0 => e.addr % 2 ^ 32
    | 1 => e.addr / 2 ^ 32
    | 2 => e.data
    | _ => b2n e.masked

/-! ## Reads (R7, R8) -/

/-- The RC fields of the register at an offset cleared. -/
def clearRead (off : Nat) (r : RegDesc) (s : State) : State :=
  let port := fun (f : Port → Port) => updPort (regField s Reg.ZOR_PSEL 5 0) f s
  if off = Reg.HOST_QCOUNT then updQueue s.qsel (fun Q => { Q with dup := 0, torn := 0, credRejs := 0, retry := 0 }) s
  else if off = Reg.ZOR_TXFLITS then port fun p => { p with tx := 0 }
  else if off = Reg.ZOR_RXFLITS then port fun p => { p with rx := 0 }
  else if off = Reg.ZOR_FECCORR then port fun p => { p with fec := 0 }
  else if off = Reg.ZOR_CRCERR then port fun p => { p with crc := 0 }
  else if off = Reg.ZOR_REPLAY then port fun p => { p with reps := 0 }
  else if off = Reg.FCLK_POS then { s with clk := { s.clk with posLatch := none } }
  else if r.mask .rc = 0 then s
  else setReg off (r.afterRead (regRaw s off)) s

/-- A read that takes in the low half of FCLK_FNUM latches the position (R44): a 32-bit read of it, or a 64-bit read of the whole
(DEDUCED). -/
def latchPos (off : Nat) (s s1 : State) : State :=
  if off = Reg.FCLK_FNUM then { s1 with clk := { s1.clk with posLatch := some (posView s) } } else s1

/-- A read of a register's low half, or of a 32-bit register: of a 64-bit one the high half is latched (R7). -/
def readLow (off : Nat) (r : RegDesc) (s : State) : Nat × State :=
  let v := readReg s off
  let s1 := latchPos off s (clearRead off r s)
  let s2 := if r.wide then { s1 with latches := Tbl.put s1.latches off (BitVec.ofNat 32 (v / 2 ^ 32)) } else s1
  (v % 2 ^ 32, s2)

/-- A read of the high half: the latch when there is one, which is then gone. -/
def readHigh (base : Nat) (s : State) : Nat × State :=
  match Tbl.look? s.latches base with
  | some h => (h.toNat, { s with latches := Tbl.del s.latches base })
  | none => (readReg s base / 2 ^ 32, s)

/-- A 32-bit read. -/
def read32 (off : Nat) (s : State) : Nat × State :=
  if !wordServed s off then (0, s)
  else if 0x7F00 ≤ off ∧ off < 0x10000 then (msixWord off s, s)
  else
    match placeOf off with
    | .low o r => readLow o r s
    | .high o _ => readHigh o s
    | .nothing => (0, s)

/-- A 64-bit read: of one 64-bit register whole, else two 32-bit reads, the lower address first. -/
def read64 (off : Nat) (s : State) : Nat × State :=
  match placeOf off with
  | .low o r =>
    if r.wide && wordServed s off then (readReg s o, latchPos o s (clearRead o r s))
    else
      let (a, s1) := read32 off s
      let (b, s2) := read32 (off + 4) s1
      (a + b * 2 ^ 32, s2)
  | _ =>
    let (a, s1) := read32 off s
    let (b, s2) := read32 (off + 4) s1
    (a + b * 2 ^ 32, s2)

/-- An answer to the host. -/
def answer (p : Nat × State) : State := { p.2 with resp := .data p.1 }

/-- A read of a check unit's register returns only after every earlier write to the unit has been taken (R352; of the registers the rule does
not name, DEDUCED); a read of a reserved word changes nothing (R5). -/
def chkFirst (off : Nat) (s : State) : State :=
  if s.served && decide (Reg.CHK_CFG 0 ≤ off ∧ off < Reg.CHK_CFG 144) && decide (placeOf off ≠ .nothing) then drainChk ((off - Reg.CHK_CFG 0) / 128) s else s

/-- A read of BAR0: one that is not naturally aligned, or outside it, is a bad access (R6). -/
def busRead (off size : Nat) (s : State) : State :=
  if off % size ≠ 0 ∨ off + size > 0x400000 then badAccess off size false s
  else answer (if size = 8 then read64 off (chkFirst (off + 4) (chkFirst off s)) else read32 off (chkFirst off s))

/-- REG_READ_CLEAR (R8): a naturally aligned read of 32 or 64 bits. -/
def execRegReadClear (off : Nat) (wide : Bool) (s : State) : Out := when s.answers (busRead off (if wide then 8 else 4)) s

/-- REG_READ_LOW_HALF (R7): a 32-bit read at the offset of a 64-bit register. -/
def execRegReadLowHalf (off : Nat) (s : State) : Out := when s.answers (busRead off 4) s

/-! ## Writes (R8, R9) -/

/-- The blocks' interrupt registers. -/
def allBlks : List Blk :=
  [blkHost, blkFclk, blkLedg, blkPwr, blkMem, blkUrng, blkEmb, blkLkp, blkDtr, blkZor, blkAdnt, blkDawn, blkDlx, blkFlt] ++
    (List.range 8).map blkTile ++ (List.range 8).map blkVec

/-- What a write of a block's interrupt registers sends (R469): the vector when the enabled OR rises, or when a write to INT_STAT leaves
an enabled bit set. -/
def afterIntWrite (off : Nat) (s0 s : State) : State :=
  match allBlks.find? fun b => decide (b.stat = off) || decide (b.en = off) with
  | none => s
  | some b => if b.active s && (decide (b.stat = off) || !b.active s0) then sendVector b.vec s else s

/-- The four caps of LKP_CLASSCAP: 1 to 16, none above the class before it (R238, R252). -/
def capClamp (v : Nat) : Nat :=
  let c0 := clampNat 1 16 (bits v 4 0)
  let c1 := min c0 (clampNat 1 16 (bits v 9 5))
  let c2 := min c1 (clampNat 1 16 (bits v 14 10))
  let c3 := min c2 (clampNat 1 16 (bits v 19 15))
  pack [(0, 5, c0), (5, 5, c1), (10, 5, c2), (15, 5, c3)]

/-- The value a register takes for a written one that lies outside its range. -/
def clampReg (off v : Nat) : Nat :=
  if off = Reg.LKP_BUDGET then max 1024 v
  else if off = Reg.LKP_CLASSCAP then capClamp v
  else if off = Reg.DTR_CFG then max 1 v
  else if off = Reg.ZOR_CFG then max 4 v
  else if off = Reg.ZOR_PSEL then min 33 v
  else if off = Reg.PWR_CFG then max 1 v
  else if off = Reg.ADNT_CFG then max 1 v
  else if off = Reg.URNG_MIGCFG then clampNat 1 16 v
  else if off = Reg.MEM_SKEW_CFG then pack [(0, 16, max 0x100 (bits v 15 0)), (16, 5, max 1 (bits v 20 16))]
  else v

/-- A register's value after a write of the whole or of one half: the other half's fields stay (R7, R8). -/
def writtenValue (r : RegDesc) (cur : Nat) (wide high : Bool) (v : Nat) : Nat :=
  if wide then r.applyWrite cur v
  else halfWrite cur false high (r.applyWrite cur (halfWrite 0 false high v) / 2 ^ (if high then 32 else 0))

/-- A register without a row of its own. -/
def writePlain (off : Nat) (r : RegDesc) (wide high : Bool) (v : Nat) (s : State) : State :=
  if off = Reg.FLT_RBASE ∧ s.flt.ringEn then s
  else afterIntWrite off s (setReg off (clampReg off (writtenValue r (regRaw s off) wide high v)) s)

/-- HOST_QCRBASE and HOST_QCRCFG: only while the queue is disabled (R325). -/
def writeRing (off : Nat) (wide high : Bool) (v : Nat) (s : State) : State :=
  let Q := s.queue s.qsel
  if Q.en then s
  else if off = Reg.HOST_QCRBASE then setQueue s.qsel { Q with crBase := halfWrite Q.crBase wide high v / 4096 * 4096 } s
  else setQueue s.qsel { Q with log2 := clampNat 6 16 (bits v 4 0), modCnt := max 1 (bits v 12 5), modTime := bits v 28 13 } s

/-- FLT_RCFG (R459): while the ring is enabled only clearing EN takes effect; each time EN is set the ring restarts. -/
def writeRcfg (v : Nat) (s : State) : State :=
  let f := s.flt
  if f.ringEn then (if bitOf v 0 then s else { s with flt := { f with ringEn := false } })
  else
    let log2 := clampNat 8 16 (bits v 5 1)
    { s with flt := if bitOf v 0 then { f with ringEn := true, log2 := log2, tail := 0, head := 0 } else { f with log2 := log2 } }

/-- FLT_RHEAD: entries the host has consumed, counted on from the last value. -/
def writeRhead (v : Nat) (s : State) : State :=
  { s with flt := { s.flt with head := s.flt.head + (v % 65536 + 65536 - s.flt.head % 65536) % 65536 } }

/-- The state of an outcome; none of the calls below stops. -/
def nextState (o : Out) (s : State) : State :=
  match o with
  | .next t => t
  | _ => s

/-- ADNT_DBGCTL (R417). -/
def writeDbg (v : Nat) (s : State) : State :=
  match v % 8 with
  | 1 => nextState (execDbgRead s) s
  | 2 => nextState (execDbgWrite s) s
  | 3 => nextState (execDbgHalt s) s
  | 4 => nextState (execDbgRun s) s
  | 5 => nextState (execDbgStep s) s
  | _ => s

/-- A write of the register with this offset, whole or one half of it. -/
def writeReg (off : Nat) (r : RegDesc) (wide high : Bool) (v : Nat) (s : State) : State :=
  if off = Reg.HOST_QCFG then nextState (execHostQcfgWrite wide high (BitVec.ofNat 64 v) s) s
  else if off = Reg.HOST_QCRBASE ∨ off = Reg.HOST_QCRCFG then writeRing off wide high v s
  else if off = Reg.HOST_QSTAT then
    updQueue s.qsel (fun Q => { Q with credRej := Q.credRej && !bitOf v 6, busy := Q.busy && !bitOf v 7 }) s
  else if Reg.HOST_DB 0 ≤ off ∧ off < Reg.HOST_DB 128 then
    nextState (execHostDb (Fin.ofNat 128 ((off - Reg.HOST_DB 0) / 4)) (BitVec.ofNat 32 v) s) s
  else if Reg.HOST_CRHEAD 0 ≤ off ∧ off < Reg.HOST_CRHEAD 128 then
    nextState (execHostCrhead (Fin.ofNat 128 ((off - Reg.HOST_CRHEAD 0) / 4)) (BitVec.ofNat 32 v) s) s
  else if Reg.CHK_CFG 0 ≤ off ∧ off < Reg.CHK_CFG 144 then
    chkWrite ((off - Reg.CHK_CFG 0) / 128) ⟨(off - Reg.CHK_CFG 0) % 128, wide, high, v⟩ s
  else if off = Reg.DLX_KHEAD then nextState (execDlxKhead wide high (BitVec.ofNat 64 v) s) s
  else if off = Reg.FLT_RCFG then writeRcfg v s
  else if off = Reg.FLT_RHEAD then writeRhead v s
  else if off = Reg.ADNT_DBGCTL then writeDbg v s
  else writePlain off r wide high v s

/-- A vector whose mask is lifted is sent if it was pending. -/
def unmask (i : Nat) (s : State) : State :=
  if (Tbl.look? s.msix.pba i).isSome && !(Tbl.look s.msix.table i MsixEnt.init).masked then
    sendVector i { s with msix := { s.msix with pba := Tbl.del s.msix.pba i } }
  else s

/-- A 32-bit word of the MSI-X table; the pending bits are read-only. -/
def writeMsix (off v : Nat) (s : State) : State :=
  if off < 0x8000 then s
  else
    let i := (off - 0x8000) / 16
    let e := Tbl.look s.msix.table i MsixEnt.init
    let e1 := match off % 16 / 4 with
      | 0 => { e with addr := halfWrite e.addr false false (v / 4 * 4) }
      | 1 => { e with addr := halfWrite e.addr false true v }
      | 2 => { e with data := v % 2 ^ 32 }
      | _ => { e with masked := bitOf v 0 }
    unmask i { s with msix := { s.msix with table := Tbl.put s.msix.table i e1 } }

/-- A 32-bit write. -/
def write32 (off v : Nat) (s : State) : State :=
  if !wordServed s off then s
  else if 0x7F00 ≤ off ∧ off < 0x10000 then writeMsix off v s
  else
    match placeOf off with
    | .low o r => writeReg o r false false v s
    | .high o r => writeReg o r false true v s
    | .nothing => s

/-- A 64-bit write: of one 64-bit register whole, else two 32-bit writes, the lower address first. -/
def write64 (off v : Nat) (s : State) : State :=
  match placeOf off with
  | .low o r =>
    if r.wide then (if wordServed s off then writeReg o r true false v s else s)
    else write32 (off + 4) (v / 2 ^ 32) (write32 off (v % 2 ^ 32) s)
  | _ => write32 (off + 4) (v / 2 ^ 32) (write32 off (v % 2 ^ 32) s)

/-- A write of BAR0: one that is not naturally aligned, or outside it, is a bad access (R6). -/
def busWrite (off size v : Nat) (s : State) : State :=
  if off % size ≠ 0 ∨ off + size > 0x400000 then badAccess off size true s
  else if size = 8 then write64 off v s else write32 off (v % 2 ^ 32) s

/-- REGISTER_WRITE (R8). -/
def execRegisterWrite (off : Nat) (wide : Bool) (v : Word64) (s : State) : Out :=
  when s.answers (busWrite off (if wide then 8 else 4) v.toNat) s

/-- FLT_RCFG (R459). -/
def execFltRcfg (v : Word32) (s : State) : Out := when (s.answers && wordServed s Reg.FLT_RCFG) (writeRcfg v.toNat) s

/-- FLT_RHEAD (R459). -/
def execFltRhead (v : Word32) (s : State) : Out := when (s.answers && wordServed s Reg.FLT_RHEAD) (writeRhead v.toNat) s

end Sys2Proof.Machine
end

