-- ==== Sys2Proof/Machine/Sideband.lean ====
section
/-! DEFINITION. The I3C sideband (R383, R488): private transfers and the common commands the target supports. -/

namespace Sys2Proof.Machine

/-- An I3C transfer the target takes part in: it runs from power-good on, and stops in a hardware shutdown and in Off (R488). -/
def sideband (f : I3c → I3c) (s : State) : Out := when s.answers (fun s => { s with i3c := f s.i3c }) s

/-- The 20-byte status block. -/
def statusBlock (s : State) : Bytes :=
  toLe 4 (readReg s Reg.PWR_STATUS) ++ toLe 4 (readReg s Reg.PWR_TEMP) ++ toLe 4 (readReg s Reg.PWR_PKG) ++ toLe 8 (readReg s Reg.PWR_ENERGY)

/-- I3C_PRIVATE_READ: the block's first bytes, zeros beyond byte 19. -/
def execI3cPrivateRead (n : Nat) (s : State) : Out :=
  sideband (fun x => { x with answer := slice (statusBlock s) 0 n, acked := true }) s

/-- I3C_PRIVATE_WRITE: acknowledged, its data discarded (R383). -/
def execI3cPrivateWrite (_data : Bytes) (s : State) : Out := sideband (fun x => { x with acked := true }) s

/-- SETDASA: a dynamic address assigned by the static one; a target that has one already does not answer (PRESUMED: the standard). -/
def execSetdasa (addr : BitVec 7) (s : State) : Out :=
  sideband (fun x => if x.dyn.isSome then { x with acked := false } else { x with dyn := some addr.toNat, acked := true }) s

/-- ENTDAA: a target without a dynamic address takes the one assigned; one that has an address takes no part (PRESUMED: the standard). -/
def execEntdaa (addr : BitVec 7) (s : State) : Out :=
  sideband (fun x => if x.dyn.isSome then { x with acked := false } else { x with dyn := some addr.toNat, acked := true }) s

/-- RSTDAA. -/
def execRstdaa (s : State) : Out := sideband (fun x => { x with dyn := none, acked := true }) s

/-- Bytes the spec names no value of. -/
def openBytes (n : Nat) (s : State) : State :=
  match freeVal s with
  | (v, s1) => { s1 with i3c := { s1.i3c with answer := toLe n v, acked := true } }

/-- GETPID: the 48-bit provisioned ID. -/
def execGetpid (s : State) : Out := when s.answers (openBytes 6) s

/-- GETBCR. -/
def execGetbcr (s : State) : Out := when s.answers (openBytes 1) s

/-- GETDCR. -/
def execGetdcr (s : State) : Out := when s.answers (openBytes 1) s

/-- GETSTATUS. -/
def execGetstatus (s : State) : Out := when s.answers (openBytes 2) s

/-- ENEC: in-band interrupts enabled. -/
def execEnec (s : State) : Out := sideband (fun x => { x with ibiOn := true, acked := true }) s

/-- DISEC: in-band interrupts disabled. -/
def execDisec (s : State) : Out := sideband (fun x => { x with ibiOn := false, acked := true }) s

end Sys2Proof.Machine
end

