-- ==== Sys2Proof/Machine/Dispatch.lean ====
section
/-! DEFINITION. The meaning of every command: one arm per constructor of Instr, each a direct call of the command's meaning. -/

namespace Sys2Proof.Machine

def exec (i : Instr) (s : State) : Host.Outcome State Fault Refusal :=
  match i with
  | .tick port arr crcOk payload => Sys2Proof.Machine.execTick port arr crcOk payload s
  | .tickGatherEnd => Sys2Proof.Machine.execTickGatherEnd s
  | .tickMissed => Sys2Proof.Machine.execTickMissed s
  | .selfTick => Sys2Proof.Machine.execSelfTick s
  | .freerunFrameStart => Sys2Proof.Machine.execFreerunFrameStart s
  | .lostFrameStart => Sys2Proof.Machine.execLostFrameStart s
  | .acquireTimeout => Sys2Proof.Machine.execAcquireTimeout s
  | .chunkAdmit unit => Sys2Proof.Machine.execChunkAdmit unit s
  | .maintenanceSliceStart => Sys2Proof.Machine.execMaintenanceSliceStart s
  | .protectedReserveStart => Sys2Proof.Machine.execProtectedReserveStart s
  | .dlyResp port t4 payload => Sys2Proof.Machine.execDlyResp port t4 payload s
  | .nop t st w => Sys2Proof.Machine.execNop t st w s
  | .cbnd t st w => Sys2Proof.Machine.execCbnd t st w s
  | .tileEnd t st w => Sys2Proof.Machine.execTileEnd t st w s
  | .jmp t st w => Sys2Proof.Machine.execJmp t st w s
  | .setc t st w => Sys2Proof.Machine.execSetc t st w s
  | .aset t st w => Sys2Proof.Machine.execAset t st w s
  | .ainc t st w => Sys2Proof.Machine.execAinc t st w s
  | .rbset t st w => Sys2Proof.Machine.execRbset t st w s
  | .rbinc t st w => Sys2Proof.Machine.execRbinc t st w s
  | .wload t st w => Sys2Proof.Machine.execWload t st w s
  | .mma t st w => Sys2Proof.Machine.execMma t st w s
  | .mclose t st w => Sys2Proof.Machine.execMclose t st w s
  | .chain t st w => Sys2Proof.Machine.execChain t st w s
  | .uprog t st w => Sys2Proof.Machine.execUprog t st w s
  | .dma t st w => Sys2Proof.Machine.execDma t st w s
  | .lmark t st w => Sys2Proof.Machine.execLmark t st w s
  | .defer t st w => Sys2Proof.Machine.execDefer t st w s
  | .dmaComplete t idx => Sys2Proof.Machine.execDmaComplete t idx s
  | .swap t => Sys2Proof.Machine.execSwap t s
  | .deferredBlockStart t => Sys2Proof.Machine.execDeferredBlockStart t s
  | .lookaheadDmaIssue t st w => Sys2Proof.Machine.execLookaheadDmaIssue t st w s
  | .chainRetire t => Sys2Proof.Machine.execChainRetire t s
  | .memRead src pa n ecc => Sys2Proof.Machine.execMemRead src pa n ecc s
  | .memWrite src pa data mask poison ecc => Sys2Proof.Machine.execMemWrite src pa data mask poison ecc s
  | .memAdd src pa addend fmt mask ecc => Sys2Proof.Machine.execMemAdd src pa addend fmt mask ecc s
  | .ceWriteback chan => Sys2Proof.Machine.execCeWriteback chan s
  | .tagRefresh chan => Sys2Proof.Machine.execTagRefresh chan s
  | .patrolScrub chan ecc => Sys2Proof.Machine.execPatrolScrub chan ecc s
  | .retrainStep chan ok => Sys2Proof.Machine.execRetrainStep chan ok s
  | .stackTempSample stk temp => Sys2Proof.Machine.execStackTempSample stk temp s
  | .dawnChannelRefresh chan => Sys2Proof.Machine.execDawnChannelRefresh chan s
  | .workWindowEnd => Sys2Proof.Machine.execWorkWindowEnd s
  | .channelGroupDrawReturn group adder => Sys2Proof.Machine.execChannelGroupDrawReturn group adder s
  | .map q => Sys2Proof.Machine.execMap q s
  | .unmap q => Sys2Proof.Machine.execUnmap q s
  | .htierAdd q => Sys2Proof.Machine.execHtierAdd q s
  | .htierRemove q => Sys2Proof.Machine.execHtierRemove q s
  | .handback q => Sys2Proof.Machine.execHandback q s
  | .adopt q => Sys2Proof.Machine.execAdopt q s
  | .stampAdvance => Sys2Proof.Machine.execStampAdvance s
  | .touch chan sub => Sys2Proof.Machine.execTouch chan sub s
  | .handVisit => Sys2Proof.Machine.execHandVisit s
  | .migrationStart up job vpn => Sys2Proof.Machine.execMigrationStart up job vpn s
  | .migrationSubblockCopied up => Sys2Proof.Machine.execMigrationSubblockCopied up s
  | .migrationSourceFreed up => Sys2Proof.Machine.execMigrationSourceFreed up s
  | .hostLineResponse job va write data mask poison => Sys2Proof.Machine.execHostLineResponse job va write data mask poison s
  | .cxlSnoop kind line => Sys2Proof.Machine.execCxlSnoop kind line s
  | .lineEngineDrawReturn => Sys2Proof.Machine.execLineEngineDrawReturn s
  | .tblCreate q => Sys2Proof.Machine.execTblCreate q s
  | .tblStage q => Sys2Proof.Machine.execTblStage q s
  | .tblPublish q => Sys2Proof.Machine.execTblPublish q s
  | .tblDestroy q => Sys2Proof.Machine.execTblDestroy q s
  | .publish m => Sys2Proof.Machine.execPublish m s
  | .pubReply m => Sys2Proof.Machine.execPubReply m s
  | .hotWindowEnd => Sys2Proof.Machine.execHotWindowEnd s
  | .replRow m => Sys2Proof.Machine.execReplRow m s
  | .replEnd m => Sys2Proof.Machine.execReplEnd m s
  | .replDrop m => Sys2Proof.Machine.execReplDrop m s
  | .repair m => Sys2Proof.Machine.execRepair m s
  | .digestSample => Sys2Proof.Machine.execDigestSample s
  | .refreshEngineDrawReturn => Sys2Proof.Machine.execRefreshEngineDrawReturn s
  | .walkNop k w => Sys2Proof.Machine.execWalkNop k w s
  | .add k w => Sys2Proof.Machine.execAdd k w s
  | .sub k w => Sys2Proof.Machine.execSub k w s
  | .and k w => Sys2Proof.Machine.execAnd k w s
  | .or k w => Sys2Proof.Machine.execOr k w s
  | .xor k w => Sys2Proof.Machine.execXor k w s
  | .shl k w => Sys2Proof.Machine.execShl k w s
  | .shr k w => Sys2Proof.Machine.execShr k w s
  | .sra k w => Sys2Proof.Machine.execSra k w s
  | .mul k w => Sys2Proof.Machine.execMul k w s
  | .mulhu k w => Sys2Proof.Machine.execMulhu k w s
  | .slt k w => Sys2Proof.Machine.execSlt k w s
  | .sltu k w => Sys2Proof.Machine.execSltu k w s
  | .lui k w => Sys2Proof.Machine.execLui k w s
  | .ld k w => Sys2Proof.Machine.execLd k w s
  | .st k w => Sys2Proof.Machine.execSt k w s
  | .beq k w => Sys2Proof.Machine.execBeq k w s
  | .bne k w => Sys2Proof.Machine.execBne k w s
  | .blt k w => Sys2Proof.Machine.execBlt k w s
  | .bltu k w => Sys2Proof.Machine.execBltu k w s
  | .jal k w => Sys2Proof.Machine.execJal k w s
  | .jr k w => Sys2Proof.Machine.execJr k w s
  | .walkEnd k w => Sys2Proof.Machine.execWalkEnd k w s
  | .walkCbnd k w => Sys2Proof.Machine.execWalkCbnd k w s
  | .csr k w => Sys2Proof.Machine.execCsr k w s
  | .xfer k w => Sys2Proof.Machine.execXfer k w s
  | .xwait k w => Sys2Proof.Machine.execXwait k w s
  | .sbset k w => Sys2Proof.Machine.execSbset k w s
  | .lksend k w => Sys2Proof.Machine.execLksend k w s
  | .upsend k w => Sys2Proof.Machine.execUpsend k w s
  | .hwait k w => Sys2Proof.Machine.execHwait k w s
  | .upclose k w => Sys2Proof.Machine.execUpclose k w s
  | .xferComplete k => Sys2Proof.Machine.execXferComplete k s
  | .lksendResume k => Sys2Proof.Machine.execLksendResume k s
  | .lookupReq m => Sys2Proof.Machine.execLookupReq m s
  | .flowPooled entry => Sys2Proof.Machine.execFlowPooled entry s
  | .gatherRelease entry => Sys2Proof.Machine.execGatherRelease entry s
  | .lookupReply m => Sys2Proof.Machine.execLookupReply m s
  | .flowEnd m => Sys2Proof.Machine.execFlowEnd m s
  | .flowRetry entry => Sys2Proof.Machine.execFlowRetry entry s
  | .flowTimeout entry => Sys2Proof.Machine.execFlowTimeout entry s
  | .updReq m => Sys2Proof.Machine.execUpdReq m s
  | .mergeDone entry => Sys2Proof.Machine.execMergeDone entry s
  | .updClose m => Sys2Proof.Machine.execUpdClose m s
  | .updateBatch job tid die => Sys2Proof.Machine.execUpdateBatch job tid die s
  | .nojob m => Sys2Proof.Machine.execNojob m s
  | .tableEngineDrawReturn unit => Sys2Proof.Machine.execTableEngineDrawReturn unit s
  | .denseCreate q => Sys2Proof.Machine.execDenseCreate q s
  | .lmarkDelivered job layer => Sys2Proof.Machine.execLmarkDelivered job layer s
  | .denseStepStart job layer => Sys2Proof.Machine.execDenseStepStart job layer s
  | .slotStart slot => Sys2Proof.Machine.execSlotStart slot s
  | .rsData m => Sys2Proof.Machine.execRsData m s
  | .xcredit m => Sys2Proof.Machine.execXcredit m s
  | .verdictExchangeStart job layer => Sys2Proof.Machine.execVerdictExchangeStart job layer s
  | .verdict m => Sys2Proof.Machine.execVerdict m s
  | .densePieceAdmit job layer => Sys2Proof.Machine.execDensePieceAdmit job layer s
  | .agData m => Sys2Proof.Machine.execAgData m s
  | .segFetch m => Sys2Proof.Machine.execSegFetch m s
  | .segFetchTimeout job layer shard seg => Sys2Proof.Machine.execSegFetchTimeout job layer shard seg s
  | .collectiveStall job layer => Sys2Proof.Machine.execCollectiveStall job layer s
  | .reductionDrawReturn unit => Sys2Proof.Machine.execReductionDrawReturn unit s
  | .trainingStepDone port lanes => Sys2Proof.Machine.execTrainingStepDone port lanes s
  | .trainingStepTimeout port => Sys2Proof.Machine.execTrainingStepTimeout port s
  | .linkHello port payload => Sys2Proof.Machine.execLinkHello port payload s
  | .flit port f => Sys2Proof.Machine.execFlit port f s
  | .messageReassemblyTimeout port vc => Sys2Proof.Machine.execMessageReassemblyTimeout port vc s
  | .unreach port payload => Sys2Proof.Machine.execUnreach port payload s
  | .reachMarkExpiry dst plane => Sys2Proof.Machine.execReachMarkExpiry dst plane s
  | .transmitStoreRelease id => Sys2Proof.Machine.execTransmitStoreRelease id s
  | .linkLeaveService port cause => Sys2Proof.Machine.execLinkLeaveService port cause s
  | .laneLockLoss port lane => Sys2Proof.Machine.execLaneLockLoss port lane s
  | .linkCensusEval port ber => Sys2Proof.Machine.execLinkCensusEval port ber s
  | .linkTxDrawReturn link => Sys2Proof.Machine.execLinkTxDrawReturn link s
  | .bulkWr m => Sys2Proof.Machine.execBulkWr m s
  | .bulkRdreq m => Sys2Proof.Machine.execBulkRdreq m s
  | .bulkRddata m => Sys2Proof.Machine.execBulkRddata m s
  | .bulkAck m => Sys2Proof.Machine.execBulkAck m s
  | .pcieLinkTrained width rate flit cache => Sys2Proof.Machine.execPcieLinkTrained width rate flit cache s
  | .pcieConfigRequest => Sys2Proof.Machine.execPcieConfigRequest s
  | .bar0BadAccess off size write => Sys2Proof.Machine.execBar0BadAccess off size write s
  | .bar2Read off n => Sys2Proof.Machine.execBar2Read off n s
  | .intakeWrite off data enables => Sys2Proof.Machine.execIntakeWrite off data enables s
  | .hostDb q v => Sys2Proof.Machine.execHostDb q v s
  | .validationReread q => Sys2Proof.Machine.execValidationReread q s
  | .hostQcfgWrite wide high v => Sys2Proof.Machine.execHostQcfgWrite wide high v s
  | .hostCrhead q v => Sys2Proof.Machine.execHostCrhead q v s
  | .completionFlushDone q => Sys2Proof.Machine.execCompletionFlushDone q s
  | .msixModerationTimer q => Sys2Proof.Machine.execMsixModerationTimer q s
  | .jobAdmit q => Sys2Proof.Machine.execJobAdmit q s
  | .jobEnd q => Sys2Proof.Machine.execJobEnd q s
  | .ctxSwitch q => Sys2Proof.Machine.execCtxSwitch q s
  | .suspend q => Sys2Proof.Machine.execSuspend q s
  | .resume q => Sys2Proof.Machine.execResume q s
  | .cancel q => Sys2Proof.Machine.execCancel q s
  | .dataIn q => Sys2Proof.Machine.execDataIn q s
  | .copy q => Sys2Proof.Machine.execCopy q s
  | .exportSet q => Sys2Proof.Machine.execExportSet q s
  | .keepRegion q => Sys2Proof.Machine.execKeepRegion q s
  | .exportBase q => Sys2Proof.Machine.execExportBase q s
  | .restore q => Sys2Proof.Machine.execRestore q s
  | .rankMove q => Sys2Proof.Machine.execRankMove q s
  | .dlxRec m => Sys2Proof.Machine.execDlxRec m s
  | .dlxClose m => Sys2Proof.Machine.execDlxClose m s
  | .dlxAck m => Sys2Proof.Machine.execDlxAck m s
  | .keeperTimeout job keeper => Sys2Proof.Machine.execKeeperTimeout job keeper s
  | .dlxKhead wide high v => Sys2Proof.Machine.execDlxKhead wide high v s
  | .exporterDrawReturn => Sys2Proof.Machine.execExporterDrawReturn s
  | .selftest q => Sys2Proof.Machine.execSelftest q s
  | .selftestStep failed addr => Sys2Proof.Machine.execSelftestStep failed addr s
  | .tileRun q => Sys2Proof.Machine.execTileRun q s
  | .walk q => Sys2Proof.Machine.execWalk q s
  | .pwrState q => Sys2Proof.Machine.execPwrState q s
  | .pwrLimits q => Sys2Proof.Machine.execPwrLimits q s
  | .duskEnd => Sys2Proof.Machine.execDuskEnd s
  | .nightVoltageSettled => Sys2Proof.Machine.execNightVoltageSettled s
  | .nightVoltageTimeout => Sys2Proof.Machine.execNightVoltageTimeout s
  | .wakeVoltageSettled ok => Sys2Proof.Machine.execWakeVoltageSettled ok s
  | .wakeComplete => Sys2Proof.Machine.execWakeComplete s
  | .ledgerGrant => Sys2Proof.Machine.execLedgerGrant s
  | .thermalSample die0 die1 fabric => Sys2Proof.Machine.execThermalSample die0 die1 fabric s
  | .thermalShutdown => Sys2Proof.Machine.execThermalShutdown s
  | .pmbusPoll rail ok vout iout temp => Sys2Proof.Machine.execPmbusPoll rail ok vout iout temp s
  | .attest q => Sys2Proof.Machine.execAttest q s
  | .sessionOpen q => Sys2Proof.Machine.execSessionOpen q s
  | .keyRegister q => Sys2Proof.Machine.execKeyRegister q s
  | .presRequest q => Sys2Proof.Machine.execPresRequest q s
  | .presenceQualified => Sys2Proof.Machine.execPresenceQualified s
  | .presenceTimeout => Sys2Proof.Machine.execPresenceTimeout s
  | .debugLock q => Sys2Proof.Machine.execDebugLock q s
  | .certInstall q => Sys2Proof.Machine.execCertInstall q s
  | .bekReady => Sys2Proof.Machine.execBekReady s
  | .sealSample b => Sys2Proof.Machine.execSealSample b s
  | .joinReq m => Sys2Proof.Machine.execJoinReq m s
  | .joinAck m => Sys2Proof.Machine.execJoinAck m s
  | .joinTimeout job => Sys2Proof.Machine.execJoinTimeout job s
  | .dbgRead => Sys2Proof.Machine.execDbgRead s
  | .dbgWrite => Sys2Proof.Machine.execDbgWrite s
  | .dbgHalt => Sys2Proof.Machine.execDbgHalt s
  | .dbgRun => Sys2Proof.Machine.execDbgRun s
  | .dbgStep => Sys2Proof.Machine.execDbgStep s
  | .powerGood => Sys2Proof.Machine.execPowerGood s
  | .dawnBootVerify => Sys2Proof.Machine.execDawnBootVerify s
  | .dawnIdentity => Sys2Proof.Machine.execDawnIdentity s
  | .dawnManifest => Sys2Proof.Machine.execDawnManifest s
  | .dawnStackTraining failed => Sys2Proof.Machine.execDawnStackTraining failed s
  | .dawnSramMarch f => Sys2Proof.Machine.execDawnSramMarch f s
  | .dawnFirmware f => Sys2Proof.Machine.execDawnFirmware f s
  | .dawnLinkCensus ports => Sys2Proof.Machine.execDawnLinkCensus ports s
  | .dawnTickLock => Sys2Proof.Machine.execDawnTickLock s
  | .dawnOutcome => Sys2Proof.Machine.execDawnOutcome s
  | .dawnStageLimit => Sys2Proof.Machine.execDawnStageLimit s
  | .pwrgoodFall => Sys2Proof.Machine.execPwrgoodFall s
  | .resetN ns => Sys2Proof.Machine.execResetN ns s
  | .perstN ns => Sys2Proof.Machine.execPerstN ns s
  | .chkStart u => Sys2Proof.Machine.execChkStart u s
  | .chkClose u => Sys2Proof.Machine.execChkClose u s
  | .chkArst u => Sys2Proof.Machine.execChkArst u s
  | .chkDin8 u v => Sys2Proof.Machine.execChkDin8 u v s
  | .chkDin16 u v => Sys2Proof.Machine.execChkDin16 u v s
  | .chkDin32 u v => Sys2Proof.Machine.execChkDin32 u v s
  | .chkDin64 u v => Sys2Proof.Machine.execChkDin64 u v s
  | .chkAlive u v => Sys2Proof.Machine.execChkAlive u v s
  | .fltRcfg v => Sys2Proof.Machine.execFltRcfg v s
  | .fltRhead v => Sys2Proof.Machine.execFltRhead v s
  | .regReadClear off wide => Sys2Proof.Machine.execRegReadClear off wide s
  | .regReadLowHalf off => Sys2Proof.Machine.execRegReadLowHalf off s
  | .registerWrite off wide v => Sys2Proof.Machine.execRegisterWrite off wide v s
  | .i3cPrivateRead n => Sys2Proof.Machine.execI3cPrivateRead n s
  | .i3cPrivateWrite data => Sys2Proof.Machine.execI3cPrivateWrite data s
  | .setdasa addr => Sys2Proof.Machine.execSetdasa addr s
  | .entdaa addr => Sys2Proof.Machine.execEntdaa addr s
  | .rstdaa => Sys2Proof.Machine.execRstdaa s
  | .getpid => Sys2Proof.Machine.execGetpid s
  | .getbcr => Sys2Proof.Machine.execGetbcr s
  | .getdcr => Sys2Proof.Machine.execGetdcr s
  | .getstatus => Sys2Proof.Machine.execGetstatus s
  | .enec => Sys2Proof.Machine.execEnec s
  | .disec => Sys2Proof.Machine.execDisec s
  | .passEnd t => Sys2Proof.Machine.execPassEnd t s
  | .presenceNChange low => Sys2Proof.Machine.execPresenceNChange low s
  | .vddAonRemoved => Sys2Proof.Machine.execVddAonRemoved s
  | .coreFailed block core => Sys2Proof.Machine.execCoreFailed block core s
  | .ledgerFault => Sys2Proof.Machine.execLedgerFault s
  | .pllLock => Sys2Proof.Machine.execPllLock s

end Sys2Proof.Machine
end

