-- ==== Sys2Proof/Safety.lean ====
section
/-! DEFINITION. What counts as a safe step and a safe run. -/

namespace Sys2Proof.Machine

/-- A step that answers a next state. -/
def stepSafe (s : State) : Prop := ∃ t, step s = .next t

/-- A run of `k` steps that answers a next state. -/
def runSafe (k : Nat) (s : State) : Prop := ∃ t, Host.Core.run Sys2Proof.core k s = .next t

/-! What an accepted command finds: the words the statements about single commands are written in. -/

/-- The head command of queue `q` has entered RUNNING (R341): its life and the frame it started in are noted. -/
def started (q : Nat) (s : State) : State := updHead q (fun c => { c with life := .running, fstart := some s.clk.fnum }) s

/-- The command `c` of operation `op` waits at the head of queue `q` and starts now (R341, R344), and its job lets it run. -/
structure Accepted (q op : Nat) (s : State) (c : Cmd) : Prop where
  head : runnable q op s = some c
  job  : jobRefusal (started q s) c = none

/-- As `Accepted`, of SUSPEND, RESUME and CANCEL: in its turn among those the device has validated (R342). -/
structure TrioAccepted (q op : Nat) (s : State) (c : Cmd) : Prop extends Accepted q op s c where
  turn : trioWaits q s = false

/-- As `Accepted`, of a security command: the job it is one of lets it run (R333, R401). -/
structure SecureAccepted (q op : Nat) (s : State) (c : Cmd) : Prop where
  head : runnable q op s = some c
  job  : (if ofJob (started q s) q c && !(started q s).limited then jobRefusal (started q s) c else none) = none

/-! Work that reaches memory: it is done when the engines, channels and adders it stands on hold their draws (R161, R190; log entry 35). -/

/-- What the work that led to `t` stands on is there: every draw held, every channel available. -/
def usesReady (t : State) : Prop := unready t = []

/-- The instants of what the work from `s` to `t` stood on noted. -/
def noted (s t : State) : State := { t with stk := { t.stk with use := t.stk.use.foldl (fun u p => Tbl.put u p.1 p.2) s.stk.use } }

/-- The work from `s` to `t` done; of a command that has waited the sectors were counted when it came. -/
def done (s t : State) : State := if s.stk.counted then takeLoads s (noted s t) else noted s t

/-! ## Tiles -/

/-- What an instruction of stream `st` of tile `t` sees as it issues: its word, its job, its pc, the sequencer's registers and the tile. -/
def tileIss (t : Fin 8) (st : Fin 4) (w : BitVec 128) (s : State) : Iss :=
  let x := s.tile t
  let q := x.regs st
  { t := t, st := st, word := w, v := w.toNat, job := q.job, cid := q.cid,
    pc := if st.val = 3 then (x.defRun.map (·.pc)).getD 0 else q.pc, dyn := q.dyn, q := q, x := x, part := partOf s q.job t }

/-- The operands of the rows that issue a tile instruction: the tile, the stream and the word. -/
def tileAt (i : Instr) : Option (Fin 8 × Fin 4 × BitVec 128) :=
  match i with
  | .nop t st w | .cbnd t st w | .tileEnd t st w | .jmp t st w | .setc t st w | .aset t st w | .ainc t st w | .rbset t st w | .rbinc t st w
  | .wload t st w | .mma t st w | .mclose t st w | .chain t st w | .uprog t st w | .dma t st w | .lmark t st w | .defer t st w =>
    some (t, st, w)
  | _ => none

/-- The bits an operation of a class may set (R93 to R102, R111, R131): the common ones and those of its fields. -/
def tileMask (cls op : Nat) : Nat :=
  rangeMask (match cls, op with
    | 0, 3 => [(66, 32)]
    | 0, 4 => [(33, 32), (63, 40)]
    | 0, 5 => [(34, 32), (63, 40)]
    | 0, 6 => [(34, 32), (63, 40)]
    | 0, 7 => [(33, 32), (127, 64)]
    | 0, 8 => [(33, 32), (111, 64)]
    | 1, 0 => [(104, 32)]
    | 1, 1 => [(101, 32)]
    | 1, 2 => [(112, 32)]
    | 2, 0 => [(66, 32)]
    | 2, 1 => [(95, 32)]
    | 3, 0 => [(124, 32)]
    | 4, 0 => [(47, 32)]
    | 4, 1 => [(95, 32)]
    | _, _ => [])

/-- The operands of the rows that run a walker instruction: the walker and the word. -/
def walkAt (i : Instr) : Option (Fin 2048 × BitVec 32) :=
  match i with
  | .walkNop k w | .add k w | .sub k w | .and k w | .or k w | .xor k w | .shl k w | .shr k w | .sra k w | .mul k w | .mulhu k w | .slt k w
  | .sltu k w | .lui k w | .ld k w | .st k w | .beq k w | .bne k w | .blt k w | .bltu k w | .jal k w | .jr k w | .walkEnd k w
  | .walkCbnd k w | .csr k w | .xfer k w | .xwait k w | .sbset k w | .lksend k w | .upsend k w | .hwait k w | .upclose k w => some (k, w)
  | _ => none

/-- The word `w` of class `cls` and operation `op` may issue on stream `st` of tile `t` (R89 to R92): the stream runs a chunk, the fetch is
mapped, no block of the stream is still to be loaded again, no reserved bit outside `mask` is set, the token its WAIT flag names is FULL and the semaphore its DOWN flag names is not 0. -/
structure TileReady (t : Fin 8) (st : Fin 4) (w : BitVec 128) (cls op mask : Nat) (s : State) : Prop where
  may    : mayIssue t st s = true
  fresh  : (s.tile t).reloads (streamOf (s.tile t) st) = false
  cls    : bits w.toNat 3 0 = cls
  op     : bits w.toNat 9 4 = op
  fetch  : firstUnmapped s (tileIss t st w s).job ((tileIss t st w s).q.base + 16 * (tileIss t st w s).pc) 16 = none
  rsvd   : w.toNat &&& mask = w.toNat
  tok    : bitOf w.toNat 20 = true → (tileIss t st w s).q.token (bits w.toNat 25 22) = .full
  sem    : bitOf w.toNat 10 = true → (s.tile t).sem (semKey (tileIss t st w s).job (bits w.toNat 14 11)) ≠ 0

/-- The semaphore that a DOWN flag names has been taken (R90). -/
def semTaken (t : Fin 8) (st : Fin 4) (w : BitVec 128) (s : State) : State :=
  if bitOf w.toNat 10 then semDown t (semKey (tileIss t st w s).job (bits w.toNat 14 11)) s else s

/-- An instruction that retires as it issues ends so: its flags act and the stream goes on at `next`. -/
def retired (t : Fin 8) (st : Fin 4) (w : BitVec 128) (i : Iss) (next : Nat) (s : State) : State :=
  moveOn t st next (retire t st i.job i.cid w.toNat true s)

/-- The word `w` with code `op` runs on walker `k` of a cluster that runs `cl` (R222 to R224). -/
structure WalkReady (k : Fin 2048) (w : BitVec 32) (op : Nat) (cl : Cluster) (s : State) : Prop where
  may  : mayWalk k s = true
  code : bits w.toNat 5 0 = op
  own  : s.cluster? (clusterOf k) = some cl
  pc   : (s.walker k).pc < storeWords

/-- What an instruction of walker `k` sees: its registers and fields (R223). -/
def walkIss (k : Fin 2048) (w : BitVec 32) (cl : Cluster) (s : State) : WIss :=
  { k := k, v := w.toNat, w := s.walker k, rd := bits w.toNat 9 6, a := (s.walker k).reg (bits w.toNat 13 10),
    b := (s.walker k).reg (bits w.toNat 17 14), imm := sx 14 (bits w.toNat 31 18), cl := cl }

/-- Walker `k` writes `v` to register `rd` (register 0 keeps nothing) and goes on to the next instruction. -/
def walkWrote (k : Fin 2048) (rd : Nat) (v : BitVec 32) (s : State) : State :=
  updWalker k (fun x => { x with pc := (s.walker k).pc + 1 }) (updWalker k (fun x => x.setReg rd v.toNat) s)

/-- Walker `k` goes on at instruction `pc`. -/
def walkTo (k : Fin 2048) (pc : Nat) (s : State) : State := updWalker k (fun x => { x with pc := pc }) s

/-- A message of type `typ` that the device takes (R294, R303 to R305, R310): it comes in on a link in service, is for this device, belongs to job `j` whose session lets
traffic in, is encrypted with a good tag, is of a current frame, comes from rank `r` of the job, and, where the type is identified, is new.
`s1` is the state with its identity recorded, from which its work starts. -/
structure Takes (typ : Nat) (m : Msg) (ident : Option (List Nat)) (j r : Nat) (s s1 : State) : Prop where
  linked : s.linked = true
  up     : (s.port m.port).up = true
  dst    : m.dst.toNat = s.addr
  kind   : msgTyp m = typ
  awake  : s.power.night = .none
  job    : (s.jobs.find? fun p => decide (p.2.jobid = m.jobid.toNat)).map (·.1) = some j
  joined : (s.session j).state = .joined ∨ (s.session j).state = .keyless
  enc    : (typ = 9 ∧ m.enc = false) ∨ (m.enc = true ∧ m.tagOk = true ∧ (s.session j).linkKey ≠ [])
  frame  : (msgFrame s m).isSome = true
  rank   : rankOf s j m.src.toNat = some r
  fresh  : match ident with | none => s1 = unused s | some id => takeIdent j typ id (unused s) = some s1

/-- A 32-bit word of BAR0 that no register takes, nor the MSI-X table or its pending bits (R5). -/
def reservedWord (off : Nat) : Bool := decide (placeOf off = .nothing) && !(decide (0x7F00 ≤ off) && decide (off < 0x10000))

/-- A tile's SRAM is in canonical form. -/
structure Tile.Ok (x : Tile) : Prop where
  sram : Mem.wf x.sram 0 = true

/-- A walker's local memory is in canonical form. -/
structure Walker.Ok (w : Walker) : Prop where
  loc : Mem.wf w.loc 0 = true

/-- The parts of the state that hold addressed memory, each in canonical form: addresses strictly rising, and no entry equal to what an
unlisted address reads as. They are host memory, the intake window, the fabric, the NVM, Adant's SRAM, the DRAM stacks, the device-owned host bytes, the
log a restore has fetched, every tile's SRAM, and every walker's local memory, those saved with a cluster included. -/
structure MemsOkOf (hostMem intake fabric : Mem) (nvm : Nvm) (sram : Mem) (stk : Stacks) (urng : Urng) (dlx : Dlx) (tiles : Tbl Tile) (lkp : Lkp)
    (savedClusters : Tbl SavedCluster) : Prop where
  host   : Mem.wf hostMem 0 = true
  intake : Mem.wf intake 0 = true
  fabric : Mem.wf fabric 0 = true
  nvm    : Mem.wf nvm.mem 0xFF = true
  sram   : Mem.wf sram 0 = true
  stk    : Mem.wf stk.bytes 0 = true
  owned  : Tbl.wf urng.owned = true
  log    : ∀ r, dlx.restore = some r → Mem.wf r.log 0 = true
  tiles  : ∀ p ∈ tiles, p.2.Ok
  loc    : ∀ p ∈ lkp.walkers, p.2.Ok
  saved  : ∀ p ∈ savedClusters, ∀ w ∈ p.2.walkers, w.Ok

/-- Every addressed memory of the device is in canonical form. -/
abbrev State.MemsOk (s : State) : Prop :=
  MemsOkOf s.hostMem s.intake s.fabric s.nvm s.adnt.sram s.stk s.urng s.dlx s.tiles s.lkp s.savedClusters

end Sys2Proof.Machine
end

