-- ==== Sys2Proof/WellFormed.lean ====
section
/-! DEFINITION. Well-formed commands: what a command's operands must satisfy to spell an event or an access that can reach the block at
all.  A command that is not well formed stands for nothing outside. -/

namespace Sys2Proof

/-- The tile instruction rows: CLASS, OP and the word (R93 to R102, R111, R131). -/
def Instr.tileRow (i : Instr) : Option (Nat × Nat × BitVec 128) :=
  match i with
  | .nop _ _ w => some (0, 0, w)
  | .cbnd _ _ w => some (0, 1, w)
  | .tileEnd _ _ w => some (0, 2, w)
  | .jmp _ _ w => some (0, 3, w)
  | .setc _ _ w => some (0, 4, w)
  | .aset _ _ w => some (0, 5, w)
  | .ainc _ _ w => some (0, 6, w)
  | .rbset _ _ w => some (0, 7, w)
  | .rbinc _ _ w => some (0, 8, w)
  | .wload _ _ w => some (1, 0, w)
  | .mma _ _ w => some (1, 1, w)
  | .mclose _ _ w => some (1, 2, w)
  | .chain _ _ w => some (2, 0, w)
  | .uprog _ _ w => some (2, 1, w)
  | .dma _ _ w => some (3, 0, w)
  | .lookaheadDmaIssue _ _ w => some (3, 0, w)
  | .lmark _ _ w => some (4, 0, w)
  | .defer _ _ w => some (4, 1, w)
  | _ => none

/-- The walker instruction rows: operation and word (R224). -/
def Instr.walkRow (i : Instr) : Option (Nat × BitVec 32) :=
  match i with
  | .walkNop _ w => some (0x00, w)
  | .add _ w => some (0x01, w)
  | .sub _ w => some (0x02, w)
  | .and _ w => some (0x03, w)
  | .or _ w => some (0x04, w)
  | .xor _ w => some (0x05, w)
  | .shl _ w => some (0x06, w)
  | .shr _ w => some (0x07, w)
  | .sra _ w => some (0x08, w)
  | .mul _ w => some (0x09, w)
  | .mulhu _ w => some (0x0A, w)
  | .slt _ w => some (0x0B, w)
  | .sltu _ w => some (0x0C, w)
  | .lui _ w => some (0x0D, w)
  | .ld _ w => some (0x10, w)
  | .st _ w => some (0x11, w)
  | .beq _ w => some (0x12, w)
  | .bne _ w => some (0x13, w)
  | .blt _ w => some (0x14, w)
  | .bltu _ w => some (0x15, w)
  | .jal _ w => some (0x16, w)
  | .jr _ w => some (0x17, w)
  | .walkEnd _ w => some (0x18, w)
  | .walkCbnd _ w => some (0x19, w)
  | .csr _ w => some (0x1A, w)
  | .xfer _ w => some (0x20, w)
  | .xwait _ w => some (0x21, w)
  | .sbset _ w => some (0x22, w)
  | .lksend _ w => some (0x23, w)
  | .upsend _ w => some (0x24, w)
  | .hwait _ w => some (0x25, w)
  | .upclose _ w => some (0x26, w)
  | _ => none

/-- The delivered message of a message row (R292). -/
def Instr.msgRow (i : Instr) : Option Msg :=
  match i with
  | .publish m | .pubReply m | .replRow m | .replEnd m | .replDrop m | .repair m | .lookupReq m | .lookupReply m | .flowEnd m | .updReq m
  | .updClose m | .nojob m | .rsData m | .xcredit m | .verdict m | .agData m | .segFetch m | .bulkWr m | .bulkRdreq m | .bulkRddata m
  | .bulkAck m | .dlxRec m | .dlxClose m | .dlxAck m | .joinReq m | .joinAck m => some m
  | _ => none

/-- The payload of a control flit (R289, R291). -/
def Instr.control (i : Instr) : Option Bytes :=
  match i with
  | .tick _ _ _ p => some p
  | .dlyResp _ _ p => some p
  | .linkHello _ p => some p
  | .unreach _ p => some p
  | _ => none

/-- Whether a tile word spells its row: the row's CLASS and OP. -/
def tileWordOk (r : Nat × Nat × BitVec 128) : Bool := decide (bits r.2.2.toNat 3 0 = r.1) && decide (bits r.2.2.toNat 9 4 = r.2.1)

/-- Whether a walker word spells its row. -/
def walkWordOk (r : Nat × BitVec 32) : Bool := decide (bits r.2.toNat 5 0 = r.1)

/-- A message: a 32-byte header and a body, LEN at most 2,097,184 (R292). -/
def Msg.ok (m : Msg) : Bool := decide (m.hdr.length = 32) && decide (m.body.length ≤ 2097152)

/-- The lengths of the other operands: control payloads of one flit, flits of 256 bytes, sectors of a request (R144), byte enables of an
intake write, lines of 64 bytes, an aligned BAR0 offset within 4 MiB. -/
def lengthsOk (i : Instr) : Bool :=
  match i with
  | .flit _ f => decide (f.bytes.length = 256)
  | .memRead _ _ n e => decide (1 ≤ n ∧ n ≤ 8) && decide (e.length = n)
  | .memWrite _ _ d m _ e => decide (1 ≤ e.length ∧ e.length ≤ 8) && decide (d.length = 32 * e.length) && decide (m.length = d.length)
  | .memAdd _ _ a _ _ _ => decide (a.length = 32)
  | .intakeWrite _ d e => decide (d.length = e.length)
  | .hostLineResponse _ _ _ d m _ => decide (d.length = 64) && decide (m.length = 64)
  | .bar0BadAccess off size _ => decide (off < 0x400000) && decide (0 < size) && !((size == 4 || size == 8) && off % size == 0)
  | .regReadClear off wide => decide (off < 0x400000) && decide (off % (if wide then 8 else 4) = 0)
  | .regReadLowHalf off => decide (off < 0x400000) && decide (off % 8 = 0)
  | .registerWrite off wide _ => decide (off < 0x400000) && decide (off % (if wide then 8 else 4) = 0)
  | _ => true

/-- A check that holds of what is not there. -/
def optOk {α : Type} (o : Option α) (p : α → Bool) : Bool :=
  match o with
  | some x => p x
  | none => true

/-- Well-formed commands. -/
def WellFormed (i : Instr) : Bool :=
  optOk i.tileRow tileWordOk && optOk i.walkRow walkWordOk && optOk i.msgRow Msg.ok && optOk i.control (fun p => decide (p.length = 236)) && lengthsOk i

end Sys2Proof
end

