-- ==== Sys2Proof/Certificates/Slice0/Obligations.lean ====
section
/-! DEFINITION. Statements for the provers: what the commands and the machine do, by the rules of the spec. -/

open Sys2Proof Sys2Proof.Machine

/-- A step runs the command at the front of the queue on the state with the queue's rest. The commands that wait form a first-in first-out
queue; step takes the front one and answers what exec answers. -/
def Obligations.StepTakesFront : Prop :=
  ∀ (c : Instr) (s : State), step { s with pending := c :: s.pending } = exec c s

/-- With no command waiting a step is one cycle of the 800 MHz base. The idle step is the model's choice (log entry 1): one cycle of the base
passes. -/
def Obligations.StepOnEmptyQueueIsOneCycle : Prop :=
  ∀ s : State, s.pending = [] → step s = .next (clockTick s)

/-- At reset every addressed memory is in canonical form. The invariant of StepKeepsMemoriesCanonical holds of State.reset. -/
def Obligations.ResetMemoriesCanonical : Prop := State.reset.MemsOk

/-- Every step keeps every addressed memory in canonical form. From every state whose memories (host memory, intake window, fabric, NVM, DRAM
stacks, device-owned host bytes, a restore's log, every tile SRAM, every walker's local memory) are canonical, a step of whatever command,
or an idle step, gives a state whose memories are canonical: addresses strictly rising and no entry equal to what an unlisted address
reads as. -/
def Obligations.StepKeepsMemoriesCanonical : Prop :=
  ∀ s t : State, s.MemsOk → step s = .next t → t.MemsOk

/-- A step takes at most the front command off the queue and time never runs back. No command puts a command into the queue or takes a later
one out, and none sets the time back. -/
def Obligations.StepKeepsQueueAndTime : Prop :=
  ∀ s t : State, step s = .next t → t.pending = s.pending.tail ∧ s.now ≤ t.now

/-- Every well-formed command answers a next state in every state. No well-formed command ends in a fault or a refusal, whatever the state. -/
def Obligations.WellFormedCommandsComplete : Prop :=
  ∀ (c : Instr) (s : State), WellFormed c = true → ∃ t, exec c s = .next t

/-- A reserved BAR0 address reads 0 and discards writes. A 32-bit read of a word that no register of the maps takes answers 0 and leaves every
field of the state as it was (resp is the answer on the bus), and a 32-bit write to it leaves the whole state as it was; a 64-bit access
of two such words does the same. -/
def Obligations.ReservedAddressReadsZero : Prop :=
  ∀ (off : Nat) (v : Word64) (s : State), s.answers = true → reservedWord off = true →
    (off % 4 = 0 → off < 0x400000 →
      exec (.regReadClear off false) s = .next { s with resp := .data 0 } ∧ exec (.registerWrite off false v) s = .next s) ∧
    (off % 8 = 0 → off < 0x400000 → reservedWord (off + 4) = true →
      exec (.regReadClear off true) s = .next { s with resp := .data 0 } ∧ exec (.registerWrite off true v) s = .next s)

/-- A BAR2 read answers 0, changes nothing and counts; BAR2 takes writes of any length. In service a read of BAR2 at any offset and of any
length answers zeros, and all it changes is the count of HOST_BADACC and the block's interrupt for it; a write of any length, alignment
and byte enables is accepted: it completes and no Unsupported Request is answered. -/
def Obligations.Bar2ReadsZeroAndTakesWrites : Prop :=
  ∀ (off n : Nat) (woff : BitVec 28) (data : Bytes) (enables : List Bool) (s : State), s.served = true →
    exec (.bar2Read off n) s = .next (raiseInt blkHost 3 (count Reg.HOST_BADACC 32 1 { s with resp := .data 0 })) ∧
    ∃ t, exec (.intakeWrite woff data enables) s = .next t ∧ t.resp = s.resp

/-- A TICK copy of the next frame near the expected instant joins the gathering window. In LOCKED or HOLDOVER, on a link with a measured delay
d, a copy whose fields are right, whose number is the next frame's and whose instant corrected by CORR and d lies within 100 ns of the
expected instant, and which arrives no later than 200 ns after the first copy of its frame, joins that frame's gathering (which it opens
at its arrival when it is the first) at the corrected instant, its correction is kept for the port, and nothing else changes. -/
def Obligations.TickCopyOfNextFrameIsGathered : Prop :=
  ∀ (port : Fin 34) (arr : Int) (crcOk : Bool) (p : Bytes) (d : Nat) (s : State),
    s.live = true → Tbl.look? s.clk.delay port = some d → s.clk.lock = .locked ∨ s.clk.lock = .holdover → tickFieldsOk s crcOk p = true →
    leAt p 8 6 = s.clk.fnum + 1 → absDiff (arr - sx 32 (leAt p 20 4) - d) s.expected ≤ 6400 →
    (∀ g, gatherOf s (s.clk.fnum + 1) (b2n s.clk.secondary) = some g → arr ≤ g.since + 12800) →
      exec (.tick port arr crcOk p) s = .next { s with clk := { s.clk with
        gathers := joinGather s.clk.gathers arr (s.clk.fnum + 1) (b2n s.clk.secondary) port (arr - sx 32 (leAt p 20 4) - d),
        lastCorr := Tbl.put s.clk.lastCorr port (sx 32 (leAt p 20 4)) } }

/-- A TICK copy with a wrong field, in FREERUN, or more than 100 ns off only counts as rejected. While the clock is LOCKED, HOLDOVER or
FREERUN, a copy that fails a field check, that comes in FREERUN, or (LOCKED or HOLDOVER, and not a late copy of this frame) whose
corrected instant is more than 100 ns from the expected one changes nothing but the saturating count FCLK_REJECT. -/
def Obligations.TickCopyRejected : Prop :=
  ∀ (port : Fin 34) (arr : Int) (crcOk : Bool) (p : Bytes) (d : Nat) (s : State),
    s.live = true → Tbl.look? s.clk.delay port = some d →
    s.clk.lock = .freerun ∨ tickFieldsOk s crcOk p = false ∨
      ((s.clk.lock = .locked ∨ s.clk.lock = .holdover) ∧ leAt p 8 6 ≠ s.clk.fnum ∧ absDiff (arr - sx 32 (leAt p 20 4) - d) s.expected > 6400) →
      exec (.tick port arr crcOk p) s = .next (count Reg.FCLK_REJECT 32 1 s)

/-- The frame clock's events act at their instants. Each event that may come runs the time base up to its instant and there has its effect:
the end of a gathering window gives the frame its instant; a missed tick, a tick of the device's own, a free-running frame and a lost
frame start the next frame; the maintenance slice, the protected reserve and the end of the work window come at their positions; an
acquisition that times out goes to FREERUN; a delay measurement's answer sets the link's delay and forgets the request (outside the
register's range the delay is a free value, the model's choice, log entry 31); PLL_LOCK ends stage 0 of Dawn. -/
def Obligations.ClockEventsComplete : Prop :=
  (∀ (s : State) (g : Gather), nextGather s = some g → s.live = true → g ∈ s.clk.gathers → (runUntil (g.since + 12800) s).live = true →
    g ∈ (runUntil (g.since + 12800) s).clk.gathers →
      exec .tickGatherEnd s = .next (gatherEnd g (runUntil (g.since + 12800) s))) ∧
  (∀ s : State, tickDue s = true → tickDue (runUntil (s.expected + 12800 + dMax s) s) = true →
      exec .tickMissed s = .next (missTick (runUntil (s.expected + 12800 + dMax s) s))) ∧
  (∀ s : State, s.live = true → s.ownSource = true → s.clk.lock = .locked →
    (runUntil s.expected s).live = true → (runUntil s.expected s).ownSource = true → (runUntil s.expected s).clk.lock = .locked →
      exec .selfTick s = .next (selfTick (runUntil s.expected s))) ∧
  (∀ s : State, s.live = true → s.clk.lock = .freerun → (runUntil s.expected s).live = true → (runUntil s.expected s).clk.lock = .freerun →
      exec .freerunFrameStart s =
        .next (newFrame ((runUntil s.expected s).clk.fnum + 1) (runUntil s.expected s).expected (runUntil s.expected s))) ∧
  (∀ s : State, s.live = true → s.lost = true → (runUntil s.expected s).live = true → (runUntil s.expected s).lost = true →
      exec .lostFrameStart s = .next (lostFrame (runUntil s.expected s))) ∧
  (∀ s : State, atStage 8 s = true → s.clk.lock = .acquiring → exec .acquireTimeout s = .next (goFreerun s)) ∧
  (∀ s : State, s.framed = true → s.clk.sliceDone = false → (runUntil (s.atPos s.W) s).framed = true →
    (runUntil (s.atPos s.W) s).clk.sliceDone = false →
      exec .maintenanceSliceStart s = .next (sliceStart (runUntil (s.atPos s.W) s))) ∧
  (∀ s : State, s.framed = true → s.clk.reserveDone = false → (runUntil (s.atPos s.reserveAt) s).framed = true →
    (runUntil (s.atPos s.reserveAt) s).clk.reserveDone = false →
      exec .protectedReserveStart s = .next (reserveStart (runUntil (s.atPos s.reserveAt) s))) ∧
  (∀ s : State, s.framed = true → s.clk.windowDone = false → (runUntil (s.atPos s.W) s).framed = true →
    (runUntil (s.atPos s.W) s).clk.windowDone = false →
      exec .workWindowEnd s = .next (workWindowEnd
        { runUntil (s.atPos s.W) s with clk := { (runUntil (s.atPos s.W) s).clk with windowDone := true } })) ∧
  (∀ (port : Fin 34) (t4 : BitVec 64) (p : Bytes) (d : Nat) (s : State), s.live = true → (s.port port).up = true → leAt p 0 2 = 3 →
    Tbl.look? s.clk.dlySent port = some (leAt p 8 8) →
    (((t4.toNat : Int) - leAt p 8 8) - ((leAt p 24 8 : Int) - leAt p 16 8)) / 2 = d → d < 2 ^ 20 →
      exec (.dlyResp port t4 p) s =
        .next { s with clk := { s.clk with dlySent := Tbl.del s.clk.dlySent port, delay := Tbl.put s.clk.delay port d } }) ∧
  (∀ (port : Fin 34) (t4 : BitVec 64) (p : Bytes) (d : Int) (s : State), s.live = true → (s.port port).up = true → leAt p 0 2 = 3 →
    Tbl.look? s.clk.dlySent port = some (leAt p 8 8) →
    d = (((t4.toNat : Int) - leAt p 8 8) - ((leAt p 24 8 : Int) - leAt p 16 8)) / 2 → ¬ (0 ≤ d ∧ d < 2 ^ 20) →
      ∃ v < 2 ^ 20, exec (.dlyResp port t4 p) s = .next { s with
        freeCtr := s.freeCtr + 1,
        clk := { s.clk with dlySent := Tbl.del s.clk.dlySent port, delay := Tbl.put s.clk.delay port v } }) ∧
  (∀ s : State, atStage 0 s = true → exec .pllLock s = .next (toStage 1 s))

/-- A chunk is admitted, or a waiting grant taken up. CHUNK_ADMIT of a unit to which the ledger has granted the draws it asked for starts the
chunk when its command is still at the head and the charge still fits the work window; of a free unit it picks the candidate of R29 and,
when the charge fits and the draws can ever be granted, asks for them (a chunk of no draws starts at once). LEDGER_GRANT serves the
ledger's queue in order and starts what it granted. -/
def Obligations.ChunkAdmissionAndGrants : Prop :=
  (∀ (u : Fin 56) (s s0 : State) (ch : Chunk) (c : Cmd) (n : Nat), s.clocked = true → s.ledger.granted.contains u.val = true →
    (s.unit u).asking = some ch → (s.unit u).forced = [] → admitting s = true → c.cid = ch.cid →
    s0 = { s with ledger := { s.ledger with granted := s.ledger.granted.filter (· ≠ u.val) } } → headOf s0 ch.queue = some c →
    (unitHead s0 u ch.queue).isSome = true → n = c.budgetAt (chunkIndex s0 u c) * s.mult → s.pos + n ≤ s.W →
      exec (.chunkAdmit u) s = .next (startChunk u { q := ch.queue, c := c, charge := n, draws := ch.draws, again := false } s0)) ∧
  (∀ (u : Fin 56) (s s1 : State) (x : Cand), s.clocked = true → s.ledger.granted.contains u.val = false → admitting s = true →
    (s.unit u).run = none → (s.unit u).asking = none → (s.unit u).halted = false →
    pickCand u (noteNoDraw u (noteNoFit u s)) = (some x, s1) → s1.pos + x.charge ≤ s1.W → x.draws ≤ ledgerLimit s1 - s1.ledger.standing →
      exec (.chunkAdmit u) s = .next (askDraws u x s1) ∧ (x.draws = 0 → askDraws u x s1 = startChunk u x s1)) ∧
  (∀ s : State, s.live = true → s.ledger.on = true → exec .ledgerGrant s = .next (afterGrants (serveAll s)))

/-- The tile control instructions have the effects of their rows. A NOP only moves the stream on; SETC sets a loop counter; ASET and AINC set
and advance an address register modulo 2^24; RBSET sets a range base and RBINC advances the low 48 bits of one, its rank staying; JMP
decrements the counter it tests, modulo 2^24, and jumps while it is not 0, or jumps always. A deferred block has its own copy of the registers.
Each takes and gives the tokens and semaphores of its word, and changes nothing else. -/
def Obligations.TileControlInstructionsComplete : Prop :=
  ∀ (t : Fin 8) (st : Fin 4) (w : BitVec 128) (s : State) (i : Iss), i = tileIss t st w s →
    (TileReady t st w 0 0 (tileMask 0 0) s → exec (.nop t st w) s = .next (retired t st w i (i.pc + 1) (updRegs t st id (semTaken t st w s)))) ∧
    (TileReady t st w 0 4 (tileMask 0 4) s → exec (.setc t st w) s = .next (retired t st w i (i.pc + 1)
      (updRegs t st (fun q => { q with loop := Tbl.put q.loop (bits w.toNat 33 32) (bits w.toNat 63 40) }) (semTaken t st w s)))) ∧
    (TileReady t st w 0 5 (tileMask 0 5) s → bits w.toNat 34 32 ≠ 0 → exec (.aset t st w) s = .next (retired t st w i (i.pc + 1)
      (updRegs t st (fun q => { q with areg := Tbl.put q.areg (bits w.toNat 34 32) (bits w.toNat 63 40) }) (semTaken t st w s)))) ∧
    (TileReady t st w 0 6 (tileMask 0 6) s → bits w.toNat 34 32 ≠ 0 → exec (.ainc t st w) s = .next (retired t st w i (i.pc + 1)
      (updRegs t st (fun q => { q with
        areg := Tbl.put q.areg (bits w.toNat 34 32) ((q.ar (bits w.toNat 34 32) + bits w.toNat 63 40) % 2 ^ 24) }) (semTaken t st w s)))) ∧
    (TileReady t st w 0 7 (tileMask 0 7) s → exec (.rbset t st w) s = .next (retired t st w i (i.pc + 1)
      (updRegs t st (fun q => { q with rbase := Tbl.put q.rbase (bits w.toNat 33 32) (bits w.toNat 127 64) }) (semTaken t st w s)))) ∧
    (TileReady t st w 0 8 (tileMask 0 8) s → exec (.rbinc t st w) s = .next (retired t st w i (i.pc + 1)
      (updRegs t st (fun q => { q with
        rbase := Tbl.put q.rbase (bits w.toNat 33 32)
          (q.rb (bits w.toNat 33 32) / 2 ^ 48 * 2 ^ 48 + (q.rb (bits w.toNat 33 32) % 2 ^ 48 + bits w.toNat 111 64) % 2 ^ 48) })
        (semTaken t st w s)))) ∧
    (TileReady t st w 0 3 (tileMask 0 3) s → inStream i (jumpTo i) = true → bitOf w.toNat 66 = false →
      exec (.jmp t st w) s = .next (retired t st w i (jumpTo i).toNat
        (updRegs t st (fun q => { q with loop := Tbl.put q.loop (bits w.toNat 65 64) (i.q.ctr (bits w.toNat 65 64)) }) (semTaken t st w s)))) ∧
    (∀ c, c = (i.q.ctr (bits w.toNat 65 64) + 2 ^ 24 - 1) % 2 ^ 24 →
      TileReady t st w 0 3 (tileMask 0 3) s → inStream i (jumpTo i) = true → bitOf w.toNat 66 = true →
      exec (.jmp t st w) s = .next (retired t st w i (if c = 0 then i.pc + 1 else (jumpTo i).toNat)
        (updRegs t st (fun q => { q with loop := Tbl.put q.loop (bits w.toNat 65 64) c }) (semTaken t st w s))))

/-- CBND and END end the chunk. Once every transfer, pass and close of the chunk is done and the semaphore its SEN names is below 15, CBND
retires, gives the chunk's draws back and leaves the command at a chunk boundary; END gives them back, frees the sequencer and completes
the command OK with no result. -/
def Obligations.TileChunkEndsComplete : Prop :=
  ∀ (t : Fin 8) (st : Fin 4) (w : BitVec 128) (s s2 : State) (i : Iss) (c : Cmd), i = tileIss t st w s → chunkDone i = true → c.cid = i.cid →
    (bitOf w.toNat 15 = true → ((semTaken t st w s).tile t).sem (semKey i.job (bits w.toNat 19 16)) < 15) →
    (TileReady t st w 0 1 (tileMask 0 1) s →
      s2 = updSeq t (regSeq st) (fun q => { q with pc := i.pc + 1, dyn := q.dyn + 1, state := 3, ahead := [], laStop := none, resumed := false })
        (retire t st i.job i.cid w.toNat true (semTaken t st w s)) →
      headOf (boundary i.q.queue i.cid (releaseChunk (unitOf t st) s2)) i.q.queue = some c →
        exec (.cbnd t st w) s = .next (boundary i.q.queue i.cid (releaseChunk (unitOf t st) s2))) ∧
    (TileReady t st w 0 2 (tileMask 0 2) s →
      s2 = updTile t (fun x => x.release (regSeq st) 0) (releaseChunk (unitOf t st) (retire t st i.job i.cid w.toNat true (semTaken t st w s))) →
      headOf s2 i.q.queue = some c → c.cancReq = false → c.faultReq = none → c.overReq = false →
        exec (.tileEnd t st w) s = .next (endCid i.q.queue i.cid St.OK 0 0 (satisfy Op.SUSPEND i.cid true s2)))

/-- WLOAD, MMA, MCLOSE and the plane swap. WLOAD with the shadow plane free reads its block into it; MMA on the active block of its stream
takes its activations into a pass that waits to be summed, and after the LAST pass the stream owns no block; MCLOSE waits behind the
passes it closes, or runs at once when there are none; SWAP makes the shadow block active when its chunk holds the draws. -/
def Obligations.TileArrayInstructionsComplete : Prop :=
  ∀ (t : Fin 8) (st : Fin 4) (w : BitVec 128) (s : State) (i : Iss), i = tileIss t st w s →
    (∀ b, TileReady t st w 1 0 (tileMask 1 0) s → wloadCheck i = 0 → shadowGrant t st (semTaken t st w s) = true →
      readBlock i.x (streamOf i.x st) i.job w (i.q.taddr (bits w.toNat 63 32)) = some b →
        exec (.wload t st w) s = .next (retired t st w i (i.pc + 1) (updTile t (fun x =>
          let x1 := (x.evict x.shadow).setOwned (streamOf i.x st) (some (w, i.q.taddr (bits w.toNat 63 32))) false
          let x2 := if st.val = 3 then x1 else x1.setSeq st { x1.seq st with wantsShadow := none }
          { x2 with shadow := some b }) (semTaken t st w s)))) ∧
    (∀ (b : WBlock) (m rb a n stride : Nat) (p : Pass), TileReady t st w 1 1 (tileMask 1 1) s → mmaCheck i = 0 →
      activeOf i.x (streamOf i.x st) = some b → m = bits w.toNat 71 64 + 1 → rb = bits w.toNat 85 78 → a = i.q.taddr (bits w.toNat 63 32) →
      n = fmtBytes (bits w.toNat 75 72) b.k → stride = strideOf (bits w.toNat 101 86) n →
      (∀ r < m, i.x.poisoned (a + r * stride) n = false ∧
        (bitOf w.toNat 76 = true ∨ i.x.poisoned (afBase + 4096 * (rb + r)) (16 * b.n) = false)) →
      p = { blk := b, afmt := bits w.toNat 75 72,
            acts := (List.range m).map fun r => elems (bits w.toNat 75 72) (i.x.read (a + r * stride) n) b.k,
            rowBase := rb, init := bitOf w.toNat 76, last := bitOf w.toNat 77, cid := i.cid, word := w, hit := [] } →
        exec (.mma t st w) s = .next (moveOn t st (i.pc + 1) (updTile t (fun x =>
          let x1 := { x with passes := x.passes ++ [p] }
          if p.last then { x1.setOwned (streamOf i.x st) none false with active := none } else x1) (semTaken t st w s)))) ∧
    (∀ c : Close, TileReady t st w 1 2 (tileMask 1 2) s → mcloseCheck i = 0 →
      c = { owner := streamOf i.x st, after := closeAfter i.x (streamOf i.x st) (bits w.toNat 79 72) (bits w.toNat 71 64 + 1), cid := i.cid, job := i.job,
            dst := i.q.taddr (bits w.toNat 63 32), word := w, hit := [] } →
        (c.after ≠ 0 → exec (.mclose t st w) s = .next (moveOn t st (i.pc + 1)
          (updTile t (fun x => { x with closes := x.closes ++ [c] }) (semTaken t st w s)))) ∧
        (c.after = 0 → ((runClose t c (semTaken t st w s)).tile t |>.seq (regSeq st)).state ≠ 6 →
          exec (.mclose t st w) s = .next (moveOn t st (i.pc + 1) (runClose t c (semTaken t st w s))))) ∧
    (∀ (x : Tile) (b : WBlock) (ch : Chunk) (arr target : Nat), x = s.tile t → x.shadow = some b → (s.unit (unitOf t b.owner.num)).run = some ch →
      s.clocked = true → planeFree x x.active b.owner = true → arr = blockDraw s b ch.draws → target = ch.draws - arrShare s ch.draws + arr →
      ch.held + heldBy (.block t) s ≥ target →
        exec (.swap t) s = .next (doSwap t (unitOf t b.owner.num) target ch b s))

/-- CHAIN, UPROG, DMA, the lookahead engine, and the ends of transfers and chains. A CHAIN or UPROG whose checks pass on a free vector engine
starts the engine on its chain or chains; a DMA whose token is EMPTY starts its transfer (one the lookahead engine has issued is passed
over); the lookahead engine issues the DMA it reaches and walks on; a finished transfer, once the draws it stands on are held, has moved its
bytes (XACCs that another stream's work touched meanwhile being undefined, hence free values), leaves the tile's list and sets its token
FULL; a finished chain ends. -/
def Obligations.TileTransfersAndVectorsComplete : Prop :=
  ∀ (t : Fin 8) (st : Fin 4) (w : BitVec 128) (s : State) (i : Iss), i = tileIss t st w s →
    (∀ (a : Nat) (d : Bytes) (ab : Nat), TileReady t st w 2 0 (tileMask 2 0) s → bits w.toNat 63 59 = 0 → vecAccepts t st (semTaken t st w s) = true →
      a = i.q.taddr (bits w.toNat 63 32) → a % 32 = 0 → osSpanOk i.x i.part a 256 = true → i.x.poisoned a 256 = false → d = i.x.read a 256 →
      ab = i.q.ar (bits w.toNat 66 64) → (chainOf d [] 0 false ab i.q).check i.x i.part false 0 = none →
        exec (.chain t st w) s = .next (moveOn t st (i.pc + 1) (vecStart i [(d, [], 0, false)] ab (semTaken t st w s)))) ∧
    (∀ (a ba h n : Nat) (hdr b : Bytes) (roles : List Nat) (ds : List Bytes), TileReady t st w 2 1 (tileMask 2 1) s →
      bits w.toNat 63 59 = 0 → bits w.toNat 95 91 = 0 → vecAccepts t st (semTaken t st w s) = true →
      a = i.q.taddr (bits w.toNat 63 32) → ba = i.q.taddr (bits w.toNat 95 64) → a % 32 = 0 → ba % 32 = 0 →
      osSpanOk i.x i.part a 64 = true → osSpanOk i.x i.part ba 64 = true → hdr = i.x.read a 64 → h = leAt hdr 0 4 → n = bits h 1 0 + 1 →
      osSpanOk i.x i.part a (64 + 256 * n) = true → i.x.poisoned a (64 + 256 * n) = false → i.x.poisoned ba 64 = false →
      b = i.x.read ba 64 → roles = bindRoles i.q b → ds = (List.range n).map (fun k => i.x.read (a + 64 + 256 * k) 256) →
      progBad hdr b roles ds = false → bits h 31 15 = 0 → leAt hdr 8 56 = 0 → bindRsvd b = false →
      (∀ c ∈ progChains h ds roles (leAt b 0 4) i.q, c.check i.x i.part true (bits h 13 6) = none) →
        exec (.uprog t st w) s = .next (moveOn t st (i.pc + 1)
          (vecStart i ((List.range n).map fun k => (ds.getD k [], roles, leAt b 0 4, !bitOf h (2 + k))) 0 (semTaken t st w s)))) ∧
    (TileReady t st w 3 0 (tileMask 3 0) s → dmaCheck i.x i.part i.q w.toNat = 0 →
      (st.val ≠ 3 → i.q.ahead.contains i.dyn = true → exec (.dma t st w) s = .next (moveOn t st (i.pc + 1)
        (updSeq t (regSeq st) (fun q => { q with ahead := q.ahead.erase i.dyn }) (semTaken t st w s)))) ∧
      (st.val = 3 ∨ i.q.ahead.contains i.dyn = false → i.q.token (bits w.toNat 35 32) = .empty →
        ((dmaStart t st w i.q (semTaken t st w s)).tile t |>.seq (regSeq st)).state ≠ 6 →
          exec (.dma t st w) s = .next (moveOn t st (i.pc + 1) (dmaStart t st w i.q (semTaken t st w s))))) ∧
    (∀ (sq : Fin 3) (x : Tile) (q q1 : Seq) (dyn : Nat), x = s.tile t → q = x.seq sq → s.clocked = true → (s.tile? t).isSome = true →
      (s.unit (3 * t + sq)).run.isSome = true → (s.unit (3 * t + sq)).halted = false → q.laHeld = false →
      lookahead s q 64 q q.pc q.dyn = .dma w.toNat dyn q1 → w.toNat &&& dmaMask = w.toNat → dmaCheck x (partOf s q.job t) q1 w.toNat = 0 →
        exec (.lookaheadDmaIssue t sq w) s =
          .next (laSettle t sq (updSeq t sq (fun y => { y with ahead := y.ahead ++ [dyn], laStop := none }) (dmaStart t sq w q1 s)))) ∧
    (∀ (k : Nat) (d : Dma) (ks : List Nat) (s1 s2 u : State), (s.tile t).dmas[k]? = some d → s.clocked = true → dmaRuns t d s = true →
      bulkDone s d = true → ks = foreign t d.owner d.afSpans (unused s) ++ d.hit →
      dmaMove t d d.moved d.len (clashWith t d.owner d.afSpans (undefine t ks (unused s))) = .done s1 →
      s2 = bankEvents t (undefine t ks (updTile t (fun x => { x with dmas := x.dmas.eraseIdx k }) s1)) →
      u = retire t d.owner.num d.job d.cid d.word.toNat false (updSeq t (regSeq d.owner.num) (fun q => { q with tok := Tbl.put q.tok d.tok .full })
        { s2 with zor := { s2.zor with bulks := s2.zor.bulks.filter fun b => decide (some b.tag ≠ d.bulk) } }) →
      usesReady u → exec (.dmaComplete t k) s = .next (done s u)) ∧
    (∀ (r : ChainRun) (c : Chain), (s.tile t).chain = some r → s.clocked = true → r.stopped = false →
      (s.unit (unitOf t r.owner.num)).run.isSome = true → r.extra = 0 ∨ holds (.vecExtra t) s = true →
      r.cur = some c → handoffWaits (s.tile t) r c = false → chainOver (chainAdvance t 65536 s) t = true →
        exec (.chainRetire t) s = .next (chainEnd t (chainAdvance t 65536 s)))

/-- The deferred queue holds 64 blocks, stalls a DEFER when full, and is served in order. A DEFER of the Backward sequencer with fewer than 64
blocks queued puts its block at the end and moves on; with 64 queued it leaves the queue and the stream's place as they are, and the
semaphores too; a deferred block starts from the front of the queue, the rest staying in order, when the shadow plane falls to it, with
Backward's registers as they stand then (log entries 125 and 130). LMARK hands its layer marker on in order. -/
def Obligations.DeferredQueueIsFirstInFirstOut : Prop :=
  ∀ (t : Fin 8) (w : BitVec 128) (s : State) (i : Iss), i = tileIss t 1 w s → TileReady t 1 w 4 1 (tileMask 4 1) s →
    bits w.toNat 79 64 ≠ 0 → i.q.base + 16 * (bits w.toNat 63 32 + bits w.toNat 79 64) ≤ rangeBytes →
    ((s.tile t).defq.length < 64 → exec (.defer t 1 w) s = .next (retired t 1 w i (i.pc + 1) (updTile t (fun x => { x with defq := x.defq ++
      [{ offset := bits w.toNat 63 32, count := bits w.toNat 79 64, layer := bits w.toNat 95 80, job := i.job, cid := i.cid }] })
      (semTaken t 1 w s)))) ∧
    ((s.tile t).defq.length ≥ 64 → ∃ u, exec (.defer t 1 w) s = .next u ∧ (u.tile t).defq = (s.tile t).defq ∧ (u.tile t).seqs = (s.tile t).seqs ∧
      (u.tile t).sems = (s.tile t).sems) ∧
    (∀ (u : State) (b : DefBlock) (r : List DefBlock), (u.tile t).defq = b :: r → u.clocked = true → (u.tile t).defRun = none →
      shadowGrant t 3 u = true → ((u.tile t).seq 1).cid = b.cid → (u.unit (unitOf t 1)).run.isSome = true →
      exec (.deferredBlockStart t) u = .next (updTile t (fun x => { x with
        defq := r, defNo := x.defNo + 1,
        defRun := some { blk := b, no := x.defNo, pc := b.offset, areg := (u.tile t |>.seq 1).areg, loop := (u.tile t |>.seq 1).loop,
                         rbase := (u.tile t |>.seq 1).rbase, owned := none, reload := false, started := false } }) u)) ∧
    (∀ (st : Fin 4) (v : BitVec 128) (u : State), st.val ≠ 3 → TileReady t st v 4 0 (tileMask 4 0) u →
      exec (.lmark t st v) u = .next (retired t st v (tileIss t st v u) ((tileIss t st v u).pc + 1)
        (updTile t (fun x => { x with lmarks := x.lmarks ++ [((tileIss t st v u).job, bits v.toNat 47 32)] }) (semTaken t st v u))))

/-- An undefined class or operation, or a reserved bit, stops the stream with its subcode. For every row that issues a tile instruction: a
word of a class above 4 raises TILE_INVALID with subcode 1, an operation its class does not have with subcode 2, a reserved bit of the
row's own word with subcode 10; nothing of the instruction is done. -/
def Obligations.TileInvalidWordsStopTheStream : Prop :=
  ∀ (i : Instr) (t : Fin 8) (st : Fin 4) (w : BitVec 128) (s : State), tileAt i = some (t, st, w) → mayIssue t st s = true →
    (s.tile t).reloads (streamOf (s.tile t) st) = false →
    firstUnmapped s (tileIss t st w s).job ((tileIss t st w s).q.base + 16 * (tileIss t st w s).pc) 16 = none →
    (bits w.toNat 3 0 > 4 → exec i s = .next (tileInvalid t st 1 s)) ∧
    (bits w.toNat 3 0 ≤ 4 → opDefined (bits w.toNat 3 0) (bits w.toNat 9 4) = false → exec i s = .next (tileInvalid t st 2 s)) ∧
    (∀ cls op, i.tileRow = some (cls, op, w) → bits w.toNat 3 0 = cls → bits w.toNat 9 4 = op →
      w.toNat &&& tileMask cls op ≠ w.toNat → exec i s = .next (tileInvalid t st 10 s))

/-- A tile instruction that waits on a token or a semaphore leaves all but its state as it was. A control instruction (NOP, SETC, RBSET,
RBINC) whose WAIT token is not FULL, or whose DOWN semaphore is 0, only marks its sequencer as waiting; it is issued again. -/
def Obligations.TileWaitsChangeNothingElse : Prop :=
  ∀ (i : Instr) (t : Fin 8) (st : Fin 4) (w : BitVec 128) (s : State) (op : Nat), i = .nop t st w ∨ i = .setc t st w ∨ i = .rbset t st w ∨ i = .rbinc t st w →
    i.tileRow = some (0, op, w) → mayIssue t st s = true → (s.tile t).reloads (streamOf (s.tile t) st) = false → bits w.toNat 3 0 = 0 → bits w.toNat 9 4 = op →
    firstUnmapped s (tileIss t st w s).job ((tileIss t st w s).q.base + 16 * (tileIss t st w s).pc) 16 = none →
    w.toNat &&& tileMask 0 op = w.toNat →
    (bitOf w.toNat 20 = true ∧ (tileIss t st w s).q.token (bits w.toNat 25 22) ≠ .full) ∨
      (bitOf w.toNat 10 = true ∧ (s.tile t).sem (semKey (tileIss t st w s).job (bits w.toNat 14 11)) = 0) →
      exec i s = .next (updSeq t (regSeq st) (fun q => { q with state := 5 }) s)

/-- A byte reads back what was last written to it, and every other byte as before. Of every canonical memory: after a string of bytes is
written at an address, a read within the string gives the string's byte and a read outside it gives what it gave before. -/
def Obligations.MemoryReadsBackWhatWasWritten : Prop :=
  ∀ (m : Mem) (d : Byte) (a b : Nat) (bs : Bytes), Mem.wf m d = true →
    Mem.get (Mem.sets m d a bs) d b = if h : a ≤ b ∧ b - a < bs.length then bs[b - a]'h.2 else Mem.get m d b

/-- Two canonical memories that read alike at every address are equal. The canonical form is unique: no two listings stand for one memory. -/
def Obligations.EqualMemoriesAreEqualData : Prop :=
  ∀ (m n : Mem) (d : Byte), Mem.wf m d = true → Mem.wf n d = true → (∀ a, Mem.get m d a = Mem.get n d a) → m = n

/-- A memory request is served when its channel group holds its draws, and waits in order until then. With the stacks up, a read, a write or an
ADD of a legal extent whose group holds its draws (and, for an ADD, its adder) and whose channel is available has its effect: a read answers
the sectors, a write stores its enabled bytes, an ADD adds to the sector; its source port gets the answer. One that is not ready asks for its
draws and waits behind the requests that wait already; nothing of the stacks' bytes changes. -/
def Obligations.MemoryRequestsComplete : Prop :=
  ∀ (src : Nat) (pa : BitVec 40) (n fmt : Nat) (ecc : List Ecc) (e : Ecc) (data a : Bytes) (mask : List Bool) (lanes : BitVec 16) (poison : Bool)
    (r : MemReq) (i : Instr) (s s1 : State),
    (i, r) = (.memRead src pa n ecc, .read pa.toNat n ecc) ∨ (i, r) = (.memWrite src pa data mask poison ecc, .write pa.toNat data mask poison ecc) ∨
      (i, r) = (.memAdd src pa a fmt lanes e, .add pa.toNat a fmt lanes.toNat e) →
    stacksUp s = true → r.extentOk = true → s1 = memEffect (src, r) (memDraws (chanOf (unused s) r.pa) r.isAdd (unused s)) →
      (usesReady s1 → exec i s = .next (done s s1)) ∧
      (¬ usesReady s1 → ∃ u, exec i s = .next u ∧ u.held = s.held ++ [(i, unready s1)] ∧ u.stk.bytes = s.stk.bytes ∧ u.stk.answers = s.stk.answers)

/-- A request whose extent leaves its 256-byte block or the stacks is refused. It answers MEM_BADREQ and reads and writes nothing. -/
def Obligations.MemoryRequestOfABadExtent : Prop :=
  ∀ (src : Nat) (pa : BitVec 40) (n : Nat) (ecc : List Ecc) (s : State), stacksUp s = true → (MemReq.read pa.toNat n ecc).extentOk = false →
    exec (.memRead src pa n ecc) s =
      .next { s with stk := { s.stk with answers := s.stk.answers ++ [(src, { data := [], poison := [], status := St.MEM_BADREQ, nstat := 0 })] } }

/-- The memory controllers' own events. The oldest corrected sector is written back with its corrected data, the oldest tag refreshed, the next
sector scrubbed (read, corrected, or poisoned as its codes say, and the scrub place moves on), each on a channel that neither refreshes nor retrains;
the channel a slice retrains ends its step 2,400 cc after the step's place, a temperature is noted (of 95 °C or more reported once), the controller's
own refresh timer counts before the first lock, a group's draw returns 800 cc after its last request, a touch marks its page, and the age
stamp advances modulo 8. -/
def Obligations.MemoryMaintenanceCompletes : Prop :=
  (∀ (c : Fin 2048) (sec : Nat) (r : List Nat) (s : State), stacksUp s = true → chanBusy s c = false → (s.chan c).wbq = sec :: r →
    exec (.ceWriteback c) s = .next (updChan c (fun k => { k with wbq := r }) (putSector sec (sectorSeen s sec .clean).2 s))) ∧
  (∀ (c : Fin 2048) (sec : Nat) (r : List Nat) (s : State), stacksUp s = true → chanBusy s c = false → (s.chan c).tagq = sec :: r →
    exec (.tagRefresh c) s = .next (stampSector sec (updChan c (fun k => { k with tagq := r }) s))) ∧
  (∀ (c : Fin 2048) (e : Ecc) (sec : Nat) (s : State), stacksUp s = true → (s.chan c).failed = false → chanBusy s c = false →
    sec = paOfLocal s c (s.chan c).scrub / 32 →
    exec (.patrolScrub c e) s = .next (updChan c (fun k => { k with scrub := (k.scrub + 1) % chanSectors })
      (match (sectorSeen s sec e).1 with
        | .clean => s
        | .corrected => correctedSector c sec s
        | .uncorrectable => uncorrectableSector c sec s))) ∧
  (∀ (c : Fin 2048) (ok : Bool) (s u : State), s.framed = true → retrainDue c s = true →
    u = runUntil (s.atPos (stepStart s (c.val / 256) + 2400)) s → u.framed = true → retrainDue c u = true →
      exec (.retrainStep c ok) s = .next (retrainStep c ok u)) ∧
  (∀ (k : Fin 8) (t : BitVec 8) (s s1 : State), s.live = true → s1 = updStack k (fun x => { x with
      temp := t.toNat, saw85 := x.saw85 || decide (t.toNat ≥ 85), saw80 := x.saw80 || decide (t.toNat ≥ 80), hot95 := decide (t.toNat ≥ 95) }) s →
    (t.toNat < 95 ∨ (s.stack k).hot95 = true → exec (.stackTempSample k t) s = .next s1) ∧
    (95 ≤ t.toNat → (s.stack k).hot95 = false → exec (.stackTempSample k t) s =
      .next (raiseInt blkMem 3 (fault { code := 0x0004, inst := k, arg0 := t.toNat } s1)))) ∧
  (∀ (c : Fin 2048) (s : State), stacksUp s = true → s.dawn.outcome = 0 → s.clk.lock = .acquiring →
    exec (.dawnChannelRefresh c) s = .next (updChan c (fun k => { k with refresh := (k.refresh + 1) % 512 }) s)) ∧
  (∀ (g : Fin 64) (adder : Bool) (s u : State), groupIdle g adder s = true → u = runUntil (groupUse g adder s + 64000) s →
    groupIdle g adder u = true → groupUse g adder u + 64000 ≤ u.now →
      exec (.channelGroupDrawReturn g adder) s = .next (ledgerReturn (if adder then .memAdder g else .memGroup g) u)) ∧
  (∀ (chan sub k : Nat) (s : State), s.clocked = true → s.stk.touches.contains (chan, sub) = true → pageOfSub s sub = some k →
    exec (.touch chan sub) s = .next { s with
      stk := { s.stk with touches := s.stk.touches.erase (chan, sub) },
      urng := { s.urng with
        summary := Tbl.put s.urng.summary sub s.urng.stamp,
        pages := Tbl.upd s.urng.pages k fun p => { p with hitNow := true } } }) ∧
  (∀ s : State, s.clocked = true → s.clk.stepsDone = true → s.clk.fnum % s.urng.period = 0 → s.urng.stampAt ≠ some s.clk.fnum →
    exec .stampAdvance s = .next { s with
      urng := { s.urng with
        stamp := (s.urng.stamp + 1) % 8, stampAt := some s.clk.fnum,
        pages := Tbl.mapv s.urng.pages fun _ p => { p with hitLast := p.hitNow, hitNow := false } },
      stk := { s.stk with chans := Tbl.mapv s.stk.chans fun _ c => { c with touched := [] } } })

/-- The unified range's commands complete OK with their effect. MAP of free pages maps them, once the draws of what it clears are held; UNMAP is taken and acts at a tick; HTIER_ADD of
an aligned new region within the limit adds it; HTIER_REMOVE of a region no page uses takes it out; HANDBACK of mapped pages none of which
moves gives them to the host; ADOPT of shared pages makes them the device's, both once the draws of what they reach are held. -/
def Obligations.RangeCommandsComplete : Prop :=
  ∀ (q : Fin 128) (c : Cmd) (s s1 s2 : State), s1 = started q s →
    (∀ (j : Job) (n : Nat) (u : State), Accepted q Op.MAP s c → s1.job? c.job = some j → spanOk (c.opnd 0 8) (c.opnd 8 4) = true → n = c.opnd 8 4 →
      ¬ (bitOf (c.opnd 12 1) 0 = true ∧ bitOf (c.opnd 12 1) 1 = true) →
      (∀ p ∈ s1.urng.pages, ¬ (pageKey c.job (c.opnd 0 8 / pageBytes) ≤ p.1 ∧ p.1 < pageKey c.job (c.opnd 0 8 / pageBytes + n))) →
      (bitOf (c.opnd 12 1) 1 = true → pinned s1 c.job + n ≤ j.floor) →
      mapAll c.job j (bitOf (c.opnd 12 1) 0) (bitOf (c.opnd 12 1) 1) (c.opnd 0 8 / pageBytes) n (started q (unused s)) = .ok s2 →
      u = endHead q St.OK 0 0 s2 → usesReady u → exec (.map q) s = .next (done s u)) ∧
    (Accepted q Op.UNMAP s c → spanOk (c.opnd 0 8) (c.opnd 8 4) = true →
      exec (.unmap q) s = .next { s1 with urng := { s1.urng with unmaps := s1.urng.unmaps ++
        [{ job := c.job, vpn := c.opnd 0 8 / pageBytes, count := c.opnd 8 4, queue := q, cid := c.cid }] } }) ∧
    (∀ f n, runnable q Op.HTIER_ADD s = some c → c.opnd 0 8 = pageBytes * f → c.opnd 8 8 = pageBytes * n → 0 < n →
      (∀ r ∈ s1.urng.regions, overlaps f n r.1 r.2 = false) → s1.hostTotal + n ≤ 4194304 →
      exec (.htierAdd q) s = .next (endHead q St.OK 0 0 { s1 with urng := { s1.urng with
        regions := insertBy (fun a b => decide (a.1 < b.1)) (f, n) s1.urng.regions } })) ∧
    (∀ f n, runnable q Op.HTIER_REMOVE s = some c → c.opnd 0 8 = pageBytes * f → c.opnd 8 8 = pageBytes * n →
      s2 = { s1 with urng := { s1.urng with leaving := (s1.urng.leaving ++ grantedParts s1 f n).filter fun r => !(overlaps f n r.1 r.2) } } →
      usedIn s1 f n = [] → s1.urng.down = none →
      exec (.htierRemove q) s = .next (endHead q St.OK 0 0 (noteHostFree s2.hostFree { s2 with urng := { s2.urng with
        regions := s2.urng.regions.flatMap fun r => cutRegion r f n } }))) ∧
    (∀ v n u, Accepted q Op.HANDBACK s c → spanOk (c.opnd 0 8) n = true → n = c.opnd 8 4 → v = c.opnd 0 8 / pageBytes →
      (∀ i < n, ∃ p, s1.page? c.job (v + i) = some p ∧ (∀ f, p.back ≠ .shared f) ∧ p.dest = none) →
      handbackAll c.job v n (started q (unused s)) = some s2 → u = endHead q St.OK 0 0 s2 → usesReady u →
      exec (.handback q) s = .next (done s u)) ∧
    (∀ v n u, Accepted q Op.ADOPT s c → spanOk (c.opnd 0 8) n = true → n = c.opnd 8 4 → v = c.opnd 0 8 / pageBytes →
      (∀ i < n, ∃ p f, s1.page? c.job (v + i) = some p ∧ p.back = .shared f ∧ p.dest = none) →
      u = endHead q St.OK 0 0 ((List.range n).foldl (fun s i => adoptPage c.job (v + i) s) (started q (unused s))) → usesReady u →
      exec (.adopt q) s = .next (done s u))

/-- Migration, the clock hand and the CXL line engine. A migration whose destination is found and whose draws are held starts and marks its
page, its first sub-block COPYING once nothing accepted at the source waits for it; each step copies the COPYING 64 KiB and begins the
next, and the last names the destination; then, once no request waits for the source frame, it is freed and the draws return. The hand moves to the next mapped page and drops
old age entries. A line that arrives fills its page's line. A host snoop answers the line and, by its kind, lets it go, writes it back,
or leaves it. The line engine's draws return 800 cc after its last request. -/
def Obligations.MigrationAndLineEventsComplete : Prop :=
  (∀ (up : Bool) (j : Fin 64) (vpn : Nat) (p : Page) (d : Backing) (f : Nat) (s s1 : State), s.clocked = true →
    (if up then s.urng.up else s.urng.down) = none → s.power.dusk = none → s.page? j vpn = some p → migDest s up j vpn p = some d →
    s1 = reserve (.migration up) 1 (migDraw s) s → holds (.migration up) s1 = true → d = .stack f ∨ d = .owned f ∨ d = .shared f →
      ∃ t, exec (.migrationStart up j vpn) s = .next t ∧ (t.page? j vpn).map (·.dest) = some (some d) ∧
        ∃ m, t.mig up = some m ∧ m.copying = !sourceBusy m t ∧
          m = { job := j, vpn := vpn, src := p.back, dest := d, copied := 0, copying := m.copying, done := false }) ∧
  (∀ (up : Bool) (m : Mig) (p : Page) (s s1 u : State), s.clocked = true → s.mig up = some m → m.done = false → m.copying = true →
    s1 = copySectors m.src m.dest (2048 * m.copied) 2048 (unused s) → s1.page? m.job m.vpn = some p →
    u = (if m.copied + 1 < 32
      then beginCopy up (setMig up (some { m with copied := m.copied + 1, copying := false })
        (putPage m.job m.vpn { p with moved := m.copied + 1 } s1))
      else setMig up (some { m with copied := m.copied + 1, copying := false, done := true })
        (putPage m.job m.vpn { p with back := m.dest, dest := none, moved := 0 } s1)) → usesReady u →
      exec (.migrationSubblockCopied up) s = .next (done s u)) ∧
  (∀ (up : Bool) (m : Mig) (s s1 : State), s.clocked = true → s.mig up = some m → m.done = true → frameBusy m s = false →
    s1 = ledgerReturn (.migration up) (setMig up none (freeBacking m.src s)) →
      exec (.migrationSourceFreed up) s = .next (retryRange (match m.src, m.dest with
        | .stack _, _ => count Reg.URNG_EVICT 32 1 s1
        | _, .stack _ => count Reg.URNG_PROMOTE 32 1 s1
        | _, _ => s1))) ∧
  (∀ (s : State) (place key : Nat) (p : Page), s.clocked = true → nextVisit s = some (place, key) → s.urng.hand ≤ place →
    s.urng.wants = false → s.urng.evicting = false → 1024 ≤ s.freeFrames → Tbl.look? s.urng.pages key = some p →
      exec .handVisit s = .next { s with urng := { s.urng with
        hand := place + 1, thresh := 6,
        summary := (List.range 32).foldl (fun t i =>
          if entryAge s.urng.stamp (Tbl.look t (32 * place + i) 8) ≥ 6 then Tbl.del t (32 * place + i) else t) s.urng.summary } }) ∧
  (∀ (j : Fin 64) (va : BitVec 48) (data : Bytes) (mask : List Bool) (hpa : Nat) (s s1 u : State), s.clocked = true → s.link.cache = true →
    locOf (unused s) j va.toNat = some (.owned hpa) → s1 = hostTouch hpa (copyWait j va.toNat 1 (lineDraw (unused s))) →
    u = ownedFill (hpa / 64) (slice data 0 64) (sendCxl .rdCurr (hpa / 64)
      (setHostPoison (hpa / 64 * 2 + 1) false (setHostPoison (hpa / 64 * 2) false s1))) → usesReady u →
      exec (.hostLineResponse j va false data mask false) s = .next (done s u)) ∧
  (∀ (line : Nat) (l : HostLine) (s : State), s.live = true → s.link.cache = true → Tbl.look? s.urng.lines line = some l →
    exec (.cxlSnoop .snpInv line) s = .next { giveLine line s with
      urng := { (giveLine line s).urng with snoop := { hit := true, data := if l.modified then some l.data else none } } } ∧
    exec (.cxlSnoop .snpCur line) s = .next { s with urng := { s.urng with snoop := { hit := true, data := some l.data } } } ∧
    ∀ u, u = putLine line { l with modified := false, excl := false } (if l.modified then hostWrite (64 * line) l.data s else s) →
      exec (.cxlSnoop .snpData line) s = .next { u with
        urng := { u.urng with snoop := { hit := true, data := if l.modified then some l.data else none } } }) ∧
  (∀ s u : State, s.live = true → holds .lineEngine s = true → u = runUntil (Tbl.look s.stk.use 8192 0 + 64000) s → u.live = true →
    holds .lineEngine u = true → Tbl.look u.stk.use 8192 0 + 64000 ≤ u.now → exec .lineEngineDrawReturn s = .next (ledgerReturn .lineEngine u))

/-- The table commands complete with their effect. TBL_CREATE of a new table with valid records lists it with its first version; TBL_STAGE of
a newer version fills the other slot; TBL_PUBLISH notes the publication and tells every device of the job, itself included; TBL_DESTROY
notes the request, which a tick carries out. -/
def Obligations.TableCommandsComplete : Prop :=
  ∀ (q : Fin 128) (c : Cmd) (s s1 : State), s1 = started q s →
    (Accepted q Op.TBL_CREATE s c → s1.table? c.job (fxTid (c.opndBytes 0 32)) = none → s1.emb.tables.length < 65536 →
      fixedOk (c.opndBytes 0 32) (((s1.job? c.job).map (·.ndev)).getD 0) = true → slotOk (c.opndBytes 32 64) = true →
      exec (.tblCreate q) s = .next (endHead q St.OK 0 0 { s1 with emb := { s1.emb with
        tables := Tbl.put s1.emb.tables (tableKey c.job (fxTid (c.opndBytes 0 32)))
          { fixed := c.opndBytes 0 32, cur := c.opndBytes 32 64, oth := zeros 64, othSt := 0, othFrame := 0, pub := [], destroy := none,
            last := none, updating := none, hdone := [], closes := [] } } })) ∧
    (∀ t, Accepted q Op.TBL_STAGE s c → c.opnd 0 2 < 4096 → s1.table? c.job (c.opnd 0 2) = some t → t.othSt < 2 →
      slotOk (c.opndBytes 32 64) = true → newer (vsVnum (c.opndBytes 32 64)) (vsVnum t.cur) = true →
      exec (.tblStage q) s = .next (endHead q St.OK 0 0
        (updTable c.job (c.opnd 0 2) (fun t => { t with oth := c.opndBytes 32 64, othSt := 1, othFrame := 0 }) s1))) ∧
    (∀ j t, Accepted q Op.TBL_PUBLISH s c → c.opnd 0 2 < 4096 → s1.job? c.job = some j → s1.table? c.job (c.opnd 0 2) = some t →
      exec (.tblPublish q) s = .next ((List.range j.ndev).foldl
        (fun s r => if r = j.rank
          then publishReply c.job (c.opnd 0 2) (s1.emb.pseq % 65536) r (publishHere c.job (c.opnd 0 2) (c.opnd 2 2) (c.opnd 8 6) s).1
            (publishHere c.job (c.opnd 0 2) (c.opnd 2 2) (c.opnd 8 6) s).2
          else sendRank c.job r 3 (pubHdr (c.opnd 0 2) (c.opnd 2 2) (c.opnd 8 6) j.rank (s1.emb.pseq % 65536)) [] {} s)
        (updTable c.job (c.opnd 0 2) (fun t => { t with pub := t.pub ++
          [{ ftgt := c.opnd 8 6, vnum := c.opnd 2 2, queue := q, cid := c.cid, pseq := s1.emb.pseq % 65536, replies := [] }] })
          { s1 with emb := { s1.emb with pseq := s1.emb.pseq + 1 } }))) ∧
    (∀ t, Accepted q Op.TBL_DESTROY s c → c.opnd 0 2 < 4096 → s1.table? c.job (c.opnd 0 2) = some t → t.destroy = none →
      exec (.tblDestroy q) s = .next (updTable c.job (c.opnd 0 2) (fun t => { t with destroy := some (q, c.cid) }) s1))

/-- The publication and replica messages act when taken. Each acts once the draws of what it reaches are held: PUBLISH is judged and answered;
PUB_REPLY fills the publication's reply of its rank and ends the request's retransmission; REPL_ROW with a digest that agrees, of a slot that
holds no newer row, is counted in its round and written to the slot's other copy, which waits for the flip; REPL_END notes its round's total; REPL_DROP
marks the row of the slot to go at the tick; REPAIR marks the row to go out in the next round. -/
def Obligations.ReplicaMessagesComplete : Prop :=
  ∀ (m : Msg) (j r : Nat) (s s1 u : State), usesReady u →
    (Takes 0x40 m (some [leAt m.hdr 12 2, leAt m.hdr 14 2]) j r s s1 →
      u = sendRank j (leAt m.hdr 12 2) 2 (pubReplyHdr (leAt m.hdr 2 2 % 4096) (leAt m.hdr 4 2) (leAt m.hdr 14 2)
        (publishHere j (leAt m.hdr 2 2 % 4096) (leAt m.hdr 4 2) (leAt m.hdr 6 6) s1).1) [] {}
        (publishHere j (leAt m.hdr 2 2 % 4096) (leAt m.hdr 4 2) (leAt m.hdr 6 6) s1).2 →
        exec (.publish m) s = .next (done s u)) ∧
    (Takes 0x41 m (some [m.src.toNat, leAt m.hdr 6 2]) j r s s1 →
      u = publishReply j (leAt m.hdr 2 2 % 4096) (leAt m.hdr 6 2) r (leAt m.hdr 8 1)
        (protoAck m.src.toNat (fun t => decide (leAt t.hdr 0 2 = 0x40) && decide (leAt t.hdr 14 2 = leAt m.hdr 6 2)) s1) →
        exec (.pubReply m) s = .next (done s u)) ∧
    (∀ (job : Job) (h slot df : Nat) (x : RepSlot) (d : Bytes) (c : Nat) (bad : List Nat) (s2 s3 : State),
      Takes 0x42 m (some [m.src.toNat, leAt m.hdr 9 2, leAt m.hdr 13 6]) j r s s1 → s1.job? j = some job →
      h = leAt m.hdr 9 2 → h < hotQuota job → leAt m.hdr 27 2 ≤ job.replBytes → leAt m.hdr 27 2 ≤ m.body.length → slot = r * hotQuota job + h →
      df = leAt m.hdr 13 6 → s2 = needDraw 8195 (updRound j r df (fun x => { x with count := x.count + 1 }) s1) →
      x = Tbl.look s2.emb.slots (hotKey j slot)
        { tid := leAt m.hdr 2 2 % 4096, row := leAt m.hdr 4 5, live := none, vnum := [0, 0], dframe := [0, 0], digest := [0, 0], len := [0, 0],
          fresh := none } →
      d = slice m.body 0 (leAt m.hdr 27 2) → crc64 d = leAt m.hdr 19 8 → x.newerThan df s1.clk.fnum = false →
      c = (match x.live with | some c => 1 - c | none => (x.fresh.map (·.copy)).getD 0) →
      cacheWrite (slot % 2) j (leAt m.hdr 2 2 % 4096) (job.replBase + (2 * slot + c) * job.replBytes) d s2 = .ok bad s3 →
      u = { s3 with emb := { s3.emb with
          slots := Tbl.put s3.emb.slots (hotKey j slot) { x with
            vnum := x.vnum.set c (leAt m.hdr 11 2), dframe := x.dframe.set c df, digest := x.digest.set c (crc64 d),
            len := x.len.set c (leAt m.hdr 27 2),
            fresh := some { copy := c, dframe := df, tid := leAt m.hdr 2 2 % 4096, row := leAt m.hdr 4 5 } } } } →
        exec (.replRow m) s = .next (done s u)) ∧
    (Takes 0x43 m (some [m.src.toNat, leAt m.hdr 2 6]) j r s s1 →
      u = updRound j r (leAt m.hdr 2 6) (fun x => { x with total := some (leAt m.hdr 8 4) }) (needDraw 8195 s1) →
        exec (.replEnd m) s = .next (done s u)) ∧
    (∀ job : Job, Takes 0x44 m (some [m.src.toNat, leAt m.hdr 9 2]) j r s s1 → s1.job? j = some job →
      u = { s1 with emb := { s1.emb with drops := s1.emb.drops ++
        [(j, r * hotQuota job + leAt m.hdr 9 2, leAt m.hdr 2 2 % 4096, leAt m.hdr 4 5)] } } →
        exec (.replDrop m) s = .next (done s u)) ∧
    (Takes 0x45 m (some [m.src.toNat, leAt m.hdr 9 2]) j r s s1 →
      u = { s1 with emb := { s1.emb with
        hot := Tbl.upd s1.emb.hot (hotKey j (leAt m.hdr 9 2)) fun x =>
          if x.tid = leAt m.hdr 2 2 % 4096 ∧ x.row = leAt m.hdr 4 5 then { x with dirty := true } else x } } →
        exec (.repair m) s = .next (done s u))

/-- The hot window, the digest sample and the refresh engine's draws. At the tick whose number is a multiple of 64 the hot set is chosen anew,
once; in the maintenance slice before the protected reserve, when no census waits and no chunk overruns, the digest sampler asks for its draws
and takes its sample; the refresh engine's draws return 800 cc after its
last message, when no round is on its way out. -/
def Obligations.ReplicaEngineEventsComplete : Prop :=
  (∀ s : State, s.framed = true → (s.clk.fnum + 1) % 64 = 0 → s.emb.windowAt ≠ s.clk.fnum + 1 →
    (runUntil s.expected s).framed = true → ((runUntil s.expected s).clk.fnum + 1) % 64 = 0 →
    (runUntil s.expected s).emb.windowAt ≠ (runUntil s.expected s).clk.fnum + 1 →
      exec .hotWindowEnd s = .next (hotWindow ((runUntil s.expected s).clk.fnum + 1) (runUntil s.expected s))) ∧
  (∀ s u : State, s.framed = true → s.lost = false → s.clk.digest = 0 → sliceFree s = true → censusWaits s = false → u = runUntil (s.atPos s.W) s →
    u.framed = true → u.lost = false → u.clk.digest = 0 → sliceFree u = true → censusWaits u = false → u.W ≤ u.pos →
      exec .digestSample s = .next (digestCycle (reserve .digest 1 (digestDraw u) { u with clk := { u.clk with digest := 1 } }))) ∧
  (∀ s u : State, s.live = true → holds .refresh s = true → s.emb.roundOut = [] → u = runUntil (Tbl.look s.stk.use 8195 0 + 64000) s →
    u.live = true → holds .refresh u = true → u.emb.roundOut = [] → Tbl.look u.stk.use 8195 0 + 64000 ≤ u.now →
      exec .refreshEngineDrawReturn s = .next (ledgerReturn .refresh u))

/-- Walker arithmetic is 32-bit arithmetic. Each arithmetic operation writes to RD the 32-bit result of its row, on its operands as 32-bit
words (addition, subtraction and products wrap modulo 2^32, SRA and SLT are signed), goes on to the next instruction and changes nothing
else of the machine; a result for register 0 is not kept (WalkerRegisterFile). -/
def Obligations.WalkerArithmeticResults : Prop :=
  ∀ (k : Fin 2048) (w : BitVec 32) (cl : Cluster) (s : State) (rd sh : Nat) (a b imm : BitVec 32), rd = bits w.toNat 9 6 →
    a = BitVec.ofNat 32 ((s.walker k).reg (bits w.toNat 13 10)) → b = BitVec.ofNat 32 ((s.walker k).reg (bits w.toNat 17 14)) →
    imm = BitVec.ofInt 32 (sx 14 (bits w.toNat 31 18)) → sh = (b + imm).toNat % 32 →
    (WalkReady k w 0x01 cl s → exec (.add k w) s = .next (walkWrote k rd (a + b + imm) s)) ∧
    (WalkReady k w 0x02 cl s → exec (.sub k w) s = .next (walkWrote k rd (a - b) s)) ∧
    (WalkReady k w 0x03 cl s → exec (.and k w) s = .next (walkWrote k rd (a &&& if bits w.toNat 17 14 = 0 then imm else b) s)) ∧
    (WalkReady k w 0x04 cl s → exec (.or k w) s = .next (walkWrote k rd (a ||| if bits w.toNat 17 14 = 0 then imm else b) s)) ∧
    (WalkReady k w 0x05 cl s → exec (.xor k w) s = .next (walkWrote k rd (a ^^^ if bits w.toNat 17 14 = 0 then imm else b) s)) ∧
    (WalkReady k w 0x06 cl s → exec (.shl k w) s = .next (walkWrote k rd (a <<< sh) s)) ∧
    (WalkReady k w 0x07 cl s → exec (.shr k w) s = .next (walkWrote k rd (a >>> sh) s)) ∧
    (WalkReady k w 0x08 cl s → exec (.sra k w) s = .next (walkWrote k rd (a.sshiftRight sh) s)) ∧
    (WalkReady k w 0x09 cl s → exec (.mul k w) s = .next (walkWrote k rd (a * b) s)) ∧
    (WalkReady k w 0x0A cl s → exec (.mulhu k w) s =
      .next (walkWrote k rd ((a.zeroExtend 64 * b.zeroExtend 64).extractLsb' 32 32) s)) ∧
    (WalkReady k w 0x0B cl s → exec (.slt k w) s = .next (walkWrote k rd (if a.slt b then 1 else 0) s)) ∧
    (WalkReady k w 0x0C cl s → exec (.sltu k w) s = .next (walkWrote k rd (if a.ult b then 1 else 0) s)) ∧
    (WalkReady k w 0x0D cl s → exec (.lui k w) s = .next (walkWrote k rd (w &&& 0xFFFFFC00) s)) ∧
    (WalkReady k w 0x00 cl s → exec (.walkNop k w) s = .next (walkTo k ((s.walker k).pc + 1) s))

/-- Register 0 reads 0 and keeps nothing; every other register holds the 32 bits last written. Of every walker: a write to register 0 changes
nothing and register 0 reads 0; after a write to another register that register reads the value modulo 2^32 and every other reads as
before. -/
def Obligations.WalkerRegisterFile : Prop :=
  ∀ (w : Walker) (rd r v : Nat), w.reg 0 = 0 ∧ w.setReg 0 v = w ∧
    (rd ≠ 0 → (w.setReg rd v).reg r = if r = rd then v % 2 ^ 32 else w.reg r) ∧ w.reg r < 2 ^ 32

/-- Walker loads, stores, branches, transfers and control. LD and ST move a little-endian word of local memory at an aligned address; branches
compare and jump relative to themselves; JAL links and jumps, JR jumps; END and CBND end the walker's part once its transfers are done;
CSR reads a control value; XFER of a mapped span joins the walker's transfers, which XFER_COMPLETE carries out in order, each once the
draws of what it reaches are held; XWAIT goes on when none is left; SBSET sets a segment base; HWAIT goes on with the outcome of a handle
that has ended. -/
def Obligations.WalkerMemoryAndControl : Prop :=
  ∀ (k : Fin 2048) (w : BitVec 32) (cl : Cluster) (s : State) (i : WIss), i = walkIss k w cl s →
    (WalkReady k w 0x10 cl s → localOk i.laddr 4 4 = true →
      exec (.ld k w) s = .next (walkTo k (i.w.pc + 1) (updWalker k (fun x => x.setReg i.rd (le (x.read i.laddr 4))) s))) ∧
    (WalkReady k w 0x11 cl s → localOk i.laddr 4 4 = true →
      exec (.st k w) s = .next (walkTo k (i.w.pc + 1) (updWalker k (fun x => { x with loc := Mem.sets x.loc 0 i.laddr (toLe 4 i.b) }) s))) ∧
    (WalkReady k w 0x12 cl s → targetOk i.target = true →
      exec (.beq k w) s = .next (walkTo k (if i.a = i.b then i.target.toNat else i.w.pc + 1) s)) ∧
    (WalkReady k w 0x13 cl s → targetOk i.target = true →
      exec (.bne k w) s = .next (walkTo k (if i.a = i.b then i.w.pc + 1 else i.target.toNat) s)) ∧
    (WalkReady k w 0x14 cl s → targetOk i.target = true →
      exec (.blt k w) s = .next (walkTo k (if sx 32 i.a < sx 32 i.b then i.target.toNat else i.w.pc + 1) s)) ∧
    (WalkReady k w 0x15 cl s → targetOk i.target = true →
      exec (.bltu k w) s = .next (walkTo k (if i.a < i.b then i.target.toNat else i.w.pc + 1) s)) ∧
    (WalkReady k w 0x16 cl s → targetOk i.target = true →
      exec (.jal k w) s = .next (walkTo k i.target.toNat (updWalker k (fun x => x.setReg i.rd (i.w.pc + 1)) s))) ∧
    (WalkReady k w 0x17 cl s → i.a < storeWords → exec (.jr k w) s = .next (walkTo k i.a s)) ∧
    (WalkReady k w 0x18 cl s → i.w.xfers = [] →
      exec (.walkEnd k w) s = .next (clusterEnd (clusterOf k) (updWalker k (fun x => { x with ended := true }) s))) ∧
    (WalkReady k w 0x19 cl s → i.w.xfers = [] →
      exec (.walkCbnd k w) s = .next (clusterEnd (clusterOf k) (updWalker k (fun x => { x with bound := true, pc := x.pc + 1 }) s))) ∧
    (WalkReady k w 0x1A cl s → bits w.toNat 21 18 ≤ 6 →
      exec (.csr k w) s = .next (walkTo k (i.w.pc + 1) (updWalker k (fun x => x.setReg i.rd (csrValue s i (bits w.toNat 21 18))) s))) ∧
    (∀ n, WalkReady k w 0x20 cl s → n = i.w.reg i.rd → 32 ≤ n → n ≤ 8192 → n % 32 = 0 → i.a + n ≤ 0x2000 → spanMapped s cl.job i.xaddr n = true →
      exec (.xfer k w) s = .next (walkTo k (i.w.pc + 1) (updWalker k (fun x => { x with
        xfers := x.xfers ++ [{ out := bitOf w.toNat 20, loc := i.a, addr := i.xaddr, len := n }] }) s))) ∧
    (WalkReady k w 0x21 cl s → i.w.xfers = [] → exec (.xwait k w) s = .next (walkTo k (i.w.pc + 1) s)) ∧
    (WalkReady k w 0x22 cl s →
      exec (.sbset k w) s = .next (walkTo k (i.w.pc + 1) (updWalker k (fun x => { x with
        sb := Tbl.put x.sb (bits w.toNat 19 18) (i.b % 65536 * 2 ^ 32 + i.a) }) s))) ∧
    (∀ h sum, WalkReady k w 0x25 cl s → s.handle? i.a = some h → h.ended = some sum → h.cid = cl.cid →
      exec (.hwait k w) s = .next (walkTo k (i.w.pc + 1) (updWalker k (fun x => x.setReg i.rd sum) s))) ∧
    (∀ (x : Xfer) (r : List Xfer) (d : Bytes) (bad : List Nat) (s2 u : State), (s.walker k).xfers = x :: r → s.cluster? (clusterOf k) = some cl →
      s.clocked = true → x.out = false →
      rangeRead cl.job x.addr x.len (updWalker k (fun w => { w with xfers := r }) (unused s)) = .ok d bad s2 →
      u = updWalker k (fun w => { w with loc := Mem.sets w.loc 0 x.loc d }) s2 → usesReady u → exec (.xferComplete k) s = .next (done s u)) ∧
    (∀ (x : Xfer) (r : List Xfer) (bad : List Nat) (u : State), (s.walker k).xfers = x :: r → s.cluster? (clusterOf k) = some cl →
      s.clocked = true → x.out = true →
      rangeWrite cl.job x.addr ((s.walker k).read x.loc x.len) (updWalker k (fun w => { w with xfers := r }) (unused s)) = .ok bad u →
      usesReady u → exec (.xferComplete k) s = .next (done s u))

/-- LKSEND, UPSEND, their resumption and UPCLOSE. LKSEND and UPSEND of a valid descriptor in local memory, aligned and with combine space,
start a handle, and a waiting sender goes on when space has come free, each once the draws of what it reaches are held; UPCLOSE of a step
that no update flow holds open any more names each table to its owners. -/
def Obligations.WalkerSendsComplete : Prop :=
  ∀ (k : Fin 2048) (w : BitVec 32) (cl : Cluster) (s : State) (i : WIss) (d : Bytes), i = walkIss k w cl s → d = (s.walker k).read i.a 64 →
    (∀ need u, WalkReady k w 0x23 cl s → localOk i.a 64 8 = true → descError s cl.job false d = 0 →
      need = (match s.table? cl.job (dsTid d) with | some t => dsNbags d * fxDim t.fixed * 16 | none => 0) → combineUsed s + need ≤ 2 ^ 24 →
      u = startHandle k i.rd i.w.pc cl false d w (unused s) → usesReady u → exec (.lksend k w) s = .next (done s u)) ∧
    (∀ u, WalkReady k w 0x24 cl s → localOk i.a 64 8 = true → descError s cl.job true d = 0 →
      u = startHandle k i.rd i.w.pc cl true d w (unused s) → usesReady u → exec (.upsend k w) s = .next (done s u)) ∧
    (∀ (n step : Nat) (l : Bytes) (tids : List Nat) (job : Job) (s1 : State), WalkReady k w 0x26 cl s → localOk i.a 8 4 = true →
      n = leAt (i.w.read i.a 8) 4 4 → 1 ≤ n → n ≤ 4096 → i.a + 8 + 2 * n ≤ 0x2000 → l = i.w.read i.a (8 + 2 * n) → step = leAt l 0 4 →
      tids = closeTids l n → (∀ t ∈ tids, t < 4096 ∧ (s.table? cl.job t).isSome = true) → s.job? cl.job = some job →
      stepOpen s cl.job step = false →
      s1 = { s with lkp := { s.lkp with
        closed := s.lkp.closed ++ (tids.map fun t => (cl.job, t, step)).filter fun c => !s.lkp.closed.contains c } } →
        exec (.upclose k w) s = .next (walkTo k (i.w.pc + 1) ((ownersOf s1 cl.job tids).foldl (fun s r =>
          if r = job.rank then tids.foldl (fun s t => closeHere cl.job t step r s) s
          else sendRank cl.job r 3 (updCloseHdr step job.rank n) (tids.flatMap fun t => toLe 2 t) {} s) s1))) ∧
    (∀ u, s.clocked = true → u = resumeOrphans k (resumeSender k (unused s)) → usesReady u → exec (.lksendResume k) s = .next (done s u))

/-- An undefined walker operation stops the command with subcode 1. For every row that runs a walker instruction: a word whose operation code
is not listed, within the instruction store, raises LKP_INVALID with subcode 1; nothing of the instruction is done. -/
def Obligations.WalkerInvalidWordsStopTheCommand : Prop :=
  ∀ (i : Instr) (k : Fin 2048) (w : BitVec 32) (cl : Cluster) (s : State), walkAt i = some (k, w) → mayWalk k s = true →
    s.cluster? (clusterOf k) = some cl → (s.walker k).pc < storeWords → walkDefined (bits w.toNat 5 0) = false →
      exec i s = .next (walkInvalid k 1 s)

/-- The lookup and update messages act when taken. Each acts once the draws of what it reaches are held: a LOOKUP_REQ of the table's current version, whose rows are all owned here, is admitted to
a free owner entry while its cost fits the class cap; an UPD_REQ not seen before is judged and its identity kept once it is admitted; a
LOOKUP_REPLY, a FLOW_END and a NOJOB reach the attempt they name; UPD_CLOSE closes each named table's step once for its sender. -/
def Obligations.LookupMessagesComplete : Prop :=
  ∀ (m : Msg) (j r : Nat) (s s1 u : State) (f : FReq), usesReady u →
    (∀ (x : Job) (t : Table) (v : Bytes) (segs : List Seg) (e cost cap : Nat),
      Takes 0x50 m (some [m.src.toNat, m.fseq.toNat, attemptOf m]) j r s s1 → f = reqOf false m.hdr m.body m.fseq.toNat →
      flowsAdmitted s1 j = true → s1.job? j = some x → s1.table? j f.tid = some t → t.version? f.vnum = some v → f.fprint = fingerprint t.fixed v →
      segs = segsOf f (fxDim t.fixed) → (∀ g ∈ segs, ∀ i ∈ g.idx, i < fxRows t.fixed ∧ ownerRank t.fixed i = x.rank) →
      freeOwner s1 = some e → jobEntries s1 j < x.quota → cost = f.nocc * ceilDiv (workBytes (vsWfmt v) (fxDim t.fixed)) 32 →
      cap = classCap s1 (bits f.mode 5 4) → f.rsv = 0 → s1.lkp.charged + s1.lkp.reserved + cost ≤ cap →
      u = admitFlow j e f t.fixed segs cost { s1 with lkp := { s1.lkp with charged := s1.lkp.charged + cost } } →
        exec (.lookupReq m) s = .next (done s u)) ∧
    (Takes 0x51 m (some [m.src.toNat, m.fseq.toNat, attemptOf m, m.oseq.toNat]) j r s s1 →
      u = replyHere j r (flowIdOf m) (attemptOf m) m.fseq.toNat m.oseq.toNat (leAt m.hdr 4 2) m.body (flowAck m s1) →
        exec (.lookupReply m) s = .next (done s u)) ∧
    (Takes 0x52 m (some [m.src.toNat, m.fseq.toNat, attemptOf m]) j r s s1 →
      u = flowEndHere j r (flowIdOf m) (attemptOf m) m.fseq.toNat (leAt m.hdr 4 1) (leAt m.hdr 5 1) m.oseq.toNat (leAt m.hdr 6 2)
        (leAt m.hdr 8 1) (leAt m.hdr 9 6) (flowAck m s1) → exec (.flowEnd m) s = .next (done s u)) ∧
    (Takes 0x09 m (some [m.src.toNat, m.fseq.toNat, attemptOf m]) j r s s1 →
      u = flowEndHere j r (flowIdOf m) (attemptOf m) m.fseq.toNat 2 2 0 0 0 0 s1 → exec (.nojob m) s = .next (done s u)) ∧
    (Takes 0x53 m none j r s s1 → f = reqOf true m.hdr m.body m.fseq.toNat → u = updReqHere j f s1 →
      exec (.updReq m) s = .next (done s u)) ∧
    (Takes 0x54 m none j r s s1 → u = (List.range (leAt m.hdr 8 2)).foldl (fun s i =>
      match takeIdent j 0x54 [m.src.toNat, leAt m.hdr 2 4, leAt m.body (2 * i) 2 % 4096] s with
      | none => count Reg.ZOR_DUP 32 1 s
      | some s1 => closeHere j (leAt m.body (2 * i) 2 % 4096) (leAt m.hdr 2 4) r s1) s1 → exec (.updClose m) s = .next (done s u))

/-- The flow engine's own events. Each acts once the draws of what it reaches are held: the flow next in order (its class, then its
admission) whose engines hold their draws is gathered and pooled, its replies and its end go out; a flow that waited for an update is let
go once the step is done; a deferred flow is sent again in its target frame; a flow without its end in FLOWTO frames is counted and
deferred; an update flow's terms are merged and stored at MERGE_BASE; an admitted batch of an updating table runs; an engine's draws
return after 800 cc without work. -/
def Obligations.FlowEngineEventsComplete : Prop :=
  (∀ (e : Fin 4096) (f : OFlow) (t : Table) (v : Bytes) (s s1 u : State) (ps : List Part1) (st : Nat), Tbl.look? s.lkp.oflows e = some f →
    s.clocked = true → f.upd = false → f.waitUpd = false → engineHeld s (flowUnits s f) = true → s.table? f.job f.tid = some t →
    (∀ p ∈ s.lkp.oflows, p.2.upd = false → p.2.waitUpd = false → p.2.before f = false) → t.version? f.vnum = some v →
    (ps, st, s1) = f.segs.foldl (fun (a : List Part1 × Nat × State) g =>
      ((poolSeg f.pool f.rfmt (vsWfmt v) (fxDim t.fixed) g.bag (gatherSeg f.job f.tid t.fixed v g a.2.2).1).1 :: a.1,
        a.2.1 ||| (poolSeg f.pool f.rfmt (vsWfmt v) (fxDim t.fixed) g.bag (gatherSeg f.job f.tid t.fixed v g a.2.2).1).2,
        (gatherSeg f.job f.tid t.fixed v g a.2.2).2)) ([], 0, engineAskAll (flowUnits s f) (unused s)) →
    u = endOwner e 0 0 (packReplies ps.reverse).length st (count Reg.LKP_SERVED 64 1
      ((List.range (packReplies ps.reverse).length).foldl (fun s k => sendReply f k ((packReplies ps.reverse).getD k []) s) (lkpNstat st s1))) →
    usesReady u → exec (.flowPooled e) s = .next (done s u)) ∧
  (∀ (e : Fin 4096) (f : OFlow) (t : Table) (l : Nat) (s : State), Tbl.look? s.lkp.oflows e = some f → s.table? f.job f.tid = some t →
    t.last = some l → f.step ≤ l + 1 → s.clocked = true → f.waitUpd = true →
      exec (.gatherRelease e) s = .next { s with lkp := { s.lkp with oflows := Tbl.put s.lkp.oflows e { f with waitUpd := false } } }) ∧
  (∀ (e : Fin 4096) (r : RFlow) (n : Nat) (s u : State), s.rflow? e = some r → r.tframe = some n → n ≤ s.clk.fnum → s.clocked = true →
    s.clk.stepsDone = true → s.clk.step7Wait = false → s.lost = false → s.pos < s.W →
    u = sendFlow e (updHandle r.handle (fun h => { h with retries := h.retries + 1 })
      (updRFlow e (fun r => { r with sent := s.clk.fnum, tframe := none }) (unused s))) → usesReady u →
      exec (.flowRetry e) s = .next (done s u)) ∧
  (∀ (e : Fin 4096) (r : RFlow) (s u : State), s.rflow? e = some r → r.tframe = none → r.fin = none → s.live = true →
    r.sent + regField s Reg.ZOR_CFG 7 0 ≤ s.clk.fnum →
    u = deferFlow e 1 0 (s.clk.fnum + 1) (raiseInt blkZor 5 (count Reg.ZOR_LOSTFLOW 32 1 (unused s))) → usesReady u →
      exec (.flowTimeout e) s = .next (done s u)) ∧
  (∀ (e : Fin 4096) (f : OFlow) (x : Job) (t : Table) (s u : State) (ts : List Term) (l : List MergeEnt) (st0 st1 : Nat),
    Tbl.look? s.lkp.oflows e = some f → s.clocked = true → f.upd = true → engineHeld s (flowUnits s f) = true → s.job? f.job = some x →
    s.table? f.job f.tid = some t → (∀ p ∈ s.lkp.oflows, p.2.upd = true → p.2.waitUpd = false → p.2.before f = false) →
    (ts, st0) = f.segs.foldl (fun (a : List Term × Nat) g =>
      (a.1 ++ (segTerms f.pool (fxDim t.fixed) (fun r => decide (r < fxRows t.fixed) && decide (ownerRank t.fixed r = x.rank)) g).1,
        a.2 ||| (segTerms f.pool (fxDim t.fixed) (fun r => decide (r < fxRows t.fixed) && decide (ownerRank t.fixed r = x.rank)) g).2)) ([], 0) →
    (l, st1) = mergeAll f.job f.tid f.vnum f.step (fxDim t.fixed) s.lkp.merge ts → ts = [] ∨ 32 + 40 * fxDim t.fixed ≤ x.mergeSlot →
    (l.filter fun m => decide (m.job = f.job)).length ≤ x.mergeEntries → (∀ m ∈ l, m.count ≤ 2 ^ 32 - 1) →
    u = endUpdate e 0 0 (st0 ||| st1) (count Reg.LKP_SERVED 64 1 (count Reg.LKP_MERGED 64 ts.length (lkpNstat (st0 ||| st1)
      (storeMerge x f.job s.lkp.merge l (engineAskAll (flowUnits s f) { unused s with lkp := { s.lkp with merge := l } }))))) → usesReady u →
      exec (.mergeDone e) s = .next (done s u)) ∧
  (∀ (j : Fin 64) (tid : Fin 4096) (die : Fin 2) (t : Table) (m : MergeEnt) (r : List MergeEnt) (v : Bytes) (s u : State),
    s.table? j tid = some t → s.clocked = true → t.updating.isSome = true → batchRows s j tid die t = m :: r → t.version? m.vnum = some v →
    updatesAdmitted s j (batchMsgBytes (r.length + 1) (masterBytes (vsOpt v) (fxDim t.fixed))) = true → engineHeld s [4 + die.val] = true →
    vecIdle s (updTileOf s j die) = true → pieceFirst s (updTileOf s j die) = false → holds (.tableEngine (6 + die.val)) s = true →
    u = runBatch j tid die t v (m :: r) (unused s) → usesReady u → exec (.updateBatch j tid die) s = .next (done s u)) ∧
  (∀ (k : Fin 6) (s u : State), s.clocked = true → holds (.tableEngine k) s = true → engineBusy s k = false →
    u = runUntil (Tbl.look s.stk.use (8220 + k.val) 0 + 64000) s → u.clocked = true → holds (.tableEngine k) u = true → engineBusy u k = false →
    Tbl.look u.stk.use (8220 + k.val) 0 + 64000 ≤ u.now → exec (.tableEngineDrawReturn k) s = .next (ledgerReturn (.tableEngine k) u))

/-- A dense layer's step, from its marker to its pieces. DENSE_CREATE of a valid record lists the layer; a marker whose deferred blocks have
run is counted; a complete contribution takes the next order, is prepared where the layer has a residual, and begins the rings; a slot
begins once at its place; a whole shard begins the verdict exchange; a piece that fits the window and holds its draws runs to its end, or,
as a free value says, is still running at the protected reserve and runs on in the next frame, before a chain that waits (the model's choice,
log entry 114); a
segment that stays away is fetched from its owner, a layer that makes no progress is reported once, and a unit's draws return after 800 cc
without work. What reaches memory or the links acts once the draws of what it reaches are held. -/
def Obligations.DenseStepEventsComplete : Prop :=
  (∀ (q : Fin 128) (c : Cmd) (x : Job) (s s1 : State), s1 = started q s → Accepted q Op.DENSE_CREATE s c → s1.job? c.job = some x →
    denseRefusal s1 c.job x (c.opndBytes 0 128) = none →
      exec (.denseCreate q) s = .next (endHead q St.OK 0 0 { s1 with dtr := { s1.dtr with
        layers := Tbl.put s1.dtr.layers (layerKey c.job (dlLayer (c.opndBytes 0 128)))
          (DLayer.init (c.opndBytes 0 128) ((idxOfRank (c.opndBytes 0 128) x.rank).getD 0)) } })) ∧
  (∀ (j : Fin 64) (l : BitVec 16) (t : Nat) (x : Tile) (s : State), s.clocked = true →
    s.tiles.find? (fun p => p.2.lmarks.contains (j.val, l.toNat) && !deferredLeft s p.1 j l.toNat) = some (t, x) →
      exec (.lmarkDelivered j l) s =
        .next (countMark j l.toNat (updTile t (fun x => { x with lmarks := x.lmarks.erase (j.val, l.toNat) }) s))) ∧
  (∀ (j : Fin 64) (l : BitVec 16) (L : DLayer) (s s1 u : State), s.layer? j l.toNat = some L → denseOn s j = true → duskBegun s = false →
    L.phase = 0 → dlMarks L.desc ≤ L.marks → s1 = updLayer j l.toNat (fun L' => { L' with
      phase := 2, marks := L'.marks - dlMarks L.desc, order := s.dtr.nextOrder, progress := s.clk.fnum, stalled := false, segs := [] })
      { unused s with dtr := { s.dtr with nextOrder := s.dtr.nextOrder + 1 } } →
    u = beginRings j l.toNat (if dlResbase L.desc = 0 then s1 else preparePass j l.toNat L.desc (reductionAsk 1 s1)) → usesReady u →
      exec (.denseStepStart j l) s = .next (done s u)) ∧
  (∀ (slot : Fin 64) (s u : State), u = runUntil (s.atPos (slot.val * s.slotLen)) s →
    (∀ x, x = s ∨ x = u → x.framed = true ∧ x.lost = false ∧ x.slotLen ≠ 0 ∧ x.pos / x.slotLen ≤ slot.val ∧
      x.dtr.slot ≠ some (x.clk.fnum, slot.val)) → exec (.slotStart slot) s = .next (slotStart slot.val u)) ∧
  (∀ (j : Fin 64) (l : BitVec 16) (L : DLayer) (p : Option Nat) (s u : State), s.layer? j l.toNat = some L → denseOn s j = true → L.phase = 2 →
    shardWhole L = true → p = ownPoison (unused s) j L →
    u = takeVerdicts 18 j l.toNat (updLayer j l.toNat (fun L => { L with
      phase := 3, votes := L.vote, round := 0, sentRounds := 0, progress := s.clk.fnum, stalled := false })
      (votePoison j l.toNat p.isSome p (unused s))) → usesReady u →
      exec (.verdictExchangeStart j l) s = .next (done s u)) ∧
  (∀ (j : Fin 64) (l : BitVec 16) (L : DLayer) (x : Job) (v : Nat) (s s1 u : State), s.layer? j l.toNat = some L → s.job? j = some x →
    denseOn s j = true → L.phase = 4 → pieceTime s L = true →
    pieceNeed s j x L = 0 ∨ holds (pieceOwner j l.toNat) s = true → (v, s1) = freeVal (unused s) →
    (L.running.isSome = true ∧ (s.tile (dlUtile L.desc)).vecFree = true ∧ u = unpark (dlUtile L.desc) (runPiece j l.toNat x L (unused s))) ∨
      (L.running = none ∧ dlxHolds s j (pieceMsgBytes L) = false ∧ vecIdle s (dlUtile L.desc) = true ∧
        u = unpark (dlUtile L.desc) (if v % 2 = 0 then runPiece j l.toNat x L s1
          else updLayer j l.toNat (fun L => { L with running := some s.clk.fnum, progress := s.clk.fnum, stalled := false }) s1)) →
    usesReady u → exec (.densePieceAdmit j l) s = .next (done s u)) ∧
  (∀ (j : Fin 64) (l : BitVec 16) (shard seg : Nat) (L : DLayer) (s u : State), s.layer? j l.toNat = some L → denseOn s j = true →
    L.phase = 4 ∨ L.phase = 5 → shard < dlG L.desc → shard ≠ L.gidx → seg < shardSegs L.desc shard → L.segs.contains (shard, seg) = false →
    L.fetch.contains (shard, seg) = false → L.gatherAt + regField s Reg.DTR_CFG 7 0 ≤ s.clk.fnum → u = segFetch j l.toNat shard seg (unused s) →
    usesReady u → exec (.segFetchTimeout j l shard seg) s = .next (done s u)) ∧
  (∀ (j : Fin 64) (l : BitVec 16) (L : DLayer) (s : State), s.layer? j l.toNat = some L → s.clocked = true → s.lost = false → L.phase ≠ 0 →
    L.stalled = false → L.progress + regField s Reg.DTR_CFG 7 0 ≤ s.clk.fnum →
      exec (.collectiveStall j l) s = .next (raiseInt blkDtr 3 (dtrErr 5 j l.toNat L.step
        (fault { code := 0x0042, job := some j.val, arg0 := denseArg l.toNat L.step, arg1 := if L.access then 6 else L.phase }
          (updLayer j l.toNat (fun L => { L with stalled := true }) s))))) ∧
  (∀ (k : Fin 3) (s u : State), s.clocked = true → holds (.reduction k) s = true → reductionBusy s k = false →
    u = runUntil (Tbl.look s.stk.use (8200 + k.val) 0 + 64000) s → u.clocked = true → holds (.reduction k) u = true → reductionBusy u k = false →
    Tbl.look u.stk.use (8200 + k.val) 0 + 64000 ≤ u.now → exec (.reductionDrawReturn k) s = .next (ledgerReturn (.reduction k) u))

/-- The ring messages act when taken. Each acts once the draws of what it reaches are held: RS_DATA of a form the rules allow, from the
path's predecessor for the step in progress, new and within the grant, is added and passed on; XCREDIT raises the grant of the step in
progress or of the next; VERDICT of the round's partner is kept, and the rounds go on while dense work does; AG_DATA whose digest agrees
is written, recorded and forwarded unchanged; SEG_FETCH is answered from the owner's own bytes. -/
def Obligations.DenseMessagesComplete : Prop :=
  ∀ (m : Msg) (j r l : Nat) (L : DLayer) (s s1 u : State), l = leAt m.hdr 2 2 → s1.layer? j l = some L → usesReady u →
    (∀ (p shard off n : Nat) (s0 s2 : State), Takes 0x60 m none j r s s1 →
      shard = leAt m.hdr 8 2 → p = leAt m.hdr 13 1 → off = leAt m.hdr 16 4 → n = leAt m.hdr 20 4 →
      rangeFits L shard p (leAt m.hdr 12 1) off n = true → L.phase = 2 ∨ L.phase = 3 → leAt m.hdr 4 4 = L.step →
      idxOfRank L.desc r = some (pathPrev L.desc p L.gidx) → takeIdent j 0x60 [l, L.step, shard, m.src.toNat, p, off] s1 = some s0 →
      L.taken.getD p 0 < L.given.getD p 0 →
      s2 = updLayer j l (fun L => { L with
        taken := L.taken.set p (L.taken.getD p 0 + 1), arrived := L.arrived.set p (L.arrived.getD p 0 + n), progress := s1.clk.fnum,
        through := L.through.set p (L.through.getD p 0 + if shard = L.gidx then 0 else n), stalled := false }) (reductionAsk 0 s0) →
      u = densePump j l (grantBoth j l
        (if p = 0 then takeMain j l L shard off n (decide (leAt m.hdr 14 1 = 1)) m.body s2
         else takeCheck j l L shard (off / 4096) (decide (leAt m.hdr 14 1 = 1)) m.body s2)) → exec (.rsData m) s = .next (done s u)) ∧
    (∀ (p n : Nat), Takes 0x08 m none j r s s1 → p = leAt m.hdr 8 1 → n = leAt m.hdr 12 4 → p ≤ 1 →
      idxOfRank L.desc r = some (pathNext L.desc p L.gidx) →
      (leAt m.hdr 4 4 = L.step → u = densePump j l (updLayer j l (fun L => { L with grant := L.grant.set p (max n (L.grant.getD p 0)) }) s1) →
        exec (.xcredit m) s = .next (done s u)) ∧
      (leAt m.hdr 4 4 ≠ L.step → leAt m.hdr 4 4 = (L.step + 1) % 2 ^ 32 →
        u = updLayer j l (fun L => { L with grantNext := L.grantNext.set p (max n (L.grantNext.getD p 0)) }) s1 →
        exec (.xcredit m) s = .next (done s u))) ∧
    (∀ (rd : Nat) (s2 : State), Takes 0x62 m (some [l, leAt m.hdr 4 4, m.src.toNat, leAt m.hdr 12 1]) j r s s1 → rd = leAt m.hdr 12 1 →
      idxOfRank L.desc r = some (ringBack L.desc L.gidx (2 ^ rd)) → rd < rounds (dlG L.desc) →
      s2 = updLayer j l (fun L => { L with early := L.early ++ [(leAt m.hdr 4 4, rd, leAt m.hdr 13 1 % 4)] }) s1 →
      u = (if denseOn s1 j then takeVerdicts 18 j l s2 else s2) → exec (.verdict m) s = .next (done s u)) ∧
    (∀ (step shard seg : Nat) (b : Bytes) (bad : List Nat) (s2 s3 : State),
      Takes 0x61 m (some [l, leAt m.hdr 4 4, leAt m.hdr 8 2, leAt m.hdr 12 4, leAt m.hdr 28 1]) j r s s1 →
      step = leAt m.hdr 4 4 → shard = leAt m.hdr 8 2 → seg = leAt m.hdr 12 4 → leAt m.hdr 28 1 ≠ 1 → b = slice m.body 0 (leAt m.hdr 24 4) →
      shard < dlG L.desc → shard ≠ L.gidx → seg < shardSegs L.desc shard → b.length = segLen L.desc shard seg → 2 ≤ L.phase → L.ended = false → step = L.step →
      idxOfRank L.desc r = some (ringBack L.desc L.gidx 1) → crc64 b = leAt m.hdr 16 8 →
      rangeWrite j (segAddr L.desc shard seg) b s1 = .ok bad s2 → s3 = segHere j l shard seg step (crc64 b) true s2 →
      u = checkReady j l (densePump j l (reductionAsk 0 (if L.gidx = ringBack L.desc shard 1 then s3
        else updLayer j l (fun L => { L with
          handed := L.handed + 1, ag := L.ag ++ [{ step := step, shard := shard, seg := seg, digest := crc64 b, body := b, hdr := m.hdr }] }) s3))) →
        exec (.agData m) s = .next (done s u)) ∧
    (∀ (seg : Nat) (b : Bytes) (bad : List Nat) (s2 : State),
      Takes 0x63 m (some [l, leAt m.hdr 4 4, leAt m.hdr 8 2, leAt m.hdr 12 4, m.src.toNat]) j r s s1 → seg = leAt m.hdr 12 4 →
      leAt m.hdr 8 2 = L.gidx → seg < shardSegs L.desc L.gidx →
      rangeRead j (segAddr L.desc L.gidx seg) (segLen L.desc L.gidx seg) s1 = .ok b bad s2 →
      u = sendRank j r 4 (agHdr l
        (segStep L L.gidx seg) L.gidx L.gidx seg (crc64 b) b.length 1) b {}
        (reductionAsk 0 s2) → exec (.segFetch m) s = .next (done s u))

/-- Link training, the plane check and leaving service. A training step moves on while usable lanes are left, and fails otherwise; step 4
begins with this device's own LINK_HELLO; a time-out fails a step; LINK_HELLO of the planned plane records the buffers and at step 4 ends
the training, of another plane makes the port MISWIRED, with its fault; a lane that loses lock is FAILED and the link retrains; in the
slice the census rates each lane by the bits corrected on it in the last 1,024 frames and classes it; a link's draws return 800 cc after
its last message flit. -/
def Obligations.LinkTrainingCompletes : Prop :=
  ∀ (p : Fin 34) (s : State), s.live = true →
    (∀ (lanes : BitVec 4) (m : Nat), (s.port p).state = 1 → m = (if (s.port p).step ≤ 2 then (s.port p).lanes &&& lanes.toNat else (s.port p).lanes) →
      (((usableLanes m).isSome = true → (s.port p).step < 3 →
        exec (.trainingStepDone p lanes) s = .next (setPort p { s.port p with lanes := m, step := (s.port p).step + 1 } s)) ∧
      ((usableLanes m).isSome = true → (s.port p).step = 3 →
        exec (.trainingStepDone p lanes) s = .next (sendHello p (setPort p { s.port p with lanes := m, step := 4 } s))) ∧
      ((usableLanes m).isSome = false → exec (.trainingStepDone p lanes) s = .next (trainingFails p s)))) ∧
    ((s.port p).state = 1 → exec (.trainingStepTimeout p) s = .next (trainingFails p s)) ∧
    (∀ b : Bytes, leAt b 0 2 = 1 → leAt b 2 1 = 2 → leAt b 3 1 = (s.portPlan p).plane →
      ((s.port p).state = 1 → (s.port p).step = 4 → exec (.linkHello p b) s = .next (portReady p
        (setPort p { s.port p with bufs := (List.range 5).map fun i => leAt b (6 + 2 * i) 2 } s))) ∧
      ((s.port p).up = true → (s.port p).state ≠ 1 → exec (.linkHello p b) s =
        .next (setPort p { s.port p with bufs := (List.range 5).map fun i => leAt b (6 + 2 * i) 2 } s))) ∧
    (∀ b : Bytes, leAt b 0 2 = 1 → leAt b 2 1 = 2 → leAt b 3 1 ≠ (s.portPlan p).plane → (s.port p).state = 1 → (s.port p).step = 4 →
      (s.port p).up = false → exec (.linkHello p b) s = .next (raiseInt blkZor 6
        (fault { code := 0x0022, inst := p, arg0 := leAt b 3 1, arg1 := (s.portPlan p).plane }
          (setPort p { s.port p with state := 6, step := 0, lanes := 0 } s)))) ∧
    (∀ c, 1 ≤ c → c ≤ 3 → (s.port p).up = true → exec (.linkLeaveService p c) s = .next (leaveService p 1 c s)) ∧
    (∀ lane : Fin 4, (s.port p).up = true → bitOf (s.port p).lanes lane = true → exec (.laneLockLoss p lane) s =
      .next (leaveService p 1 3 (updPort p (fun x => { x with cls := setBits x.cls (2 * lane + 1) (2 * lane) 3 }) s))) ∧
    (∀ u, u = runUntil (s.atPos s.W) s → (∀ x, x = s ∨ x = u → x.framed = true ∧ censusDue x p = true ∧ sliceFree x = true) → u.W ≤ u.pos →
      exec (.linkCensusEval p ()) s = .next (censusEval p u) ∧
      ((∀ i < 4, bitOf (u.port p).lanes i = true → berClass (berCode (laneErrs u (u.port p) i) (laneBits u)) = 0) →
        exec (.linkCensusEval p ()) s = .next (setPort p { u.port p with
          ber := le ((List.range 4).flatMap fun i => toLe 1 (if bitOf (u.port p).lanes i
            then berCode (laneErrs u (u.port p) i) (laneBits u) else leAt (toLe 4 (u.port p).ber) i 1)),
          cls := sumNat ((List.range 4).map fun i =>
            (if bitOf (u.port p).lanes i then 0 else bits (u.port p).cls (2 * i + 1) (2 * i)) * 4 ^ i),
          dawnCensus := false, evalAt := some u.clk.fnum,
          errs := (u.port p).errs.filter fun e => decide (u.clk.fnum < e.1 + 1024) } u))) ∧
    (∀ (k : Fin 32) (u : State), holds (.link k) s = true → linkQuiet s k = true → u = runUntil (linkSentAt s k + 64000) s →
      u.live = true → holds (.link k) u = true → linkQuiet u k = true → linkSentAt u k + 64000 ≤ u.now →
        exec (.linkTxDrawReturn k) s = .next (ledgerReturn (.link k) u))

/-- Flits, reassembly, unreachable destinations and the transmit store. On a link whose engine is not halted, also when the device is FATAL, the
FEC corrects a flit's bytes and counts the bits; a flit whose CRC is then wrong counts, there and as a class 0 occurrence, and asks for a
replay, nothing else; a good data flit in sequence takes the acknowledgement, the credits and the
replay request it carries, is accepted and goes to reassembly, and what is to be acknowledged goes back; a message not finished in time is
dropped and counted; UNREACH about a plane marks it for the destination and sends the message again, and about a destination drops the
message; a mark expires after 1,024 frames; an acknowledged message leaves the store. -/
def Obligations.FlitsAndStoreComplete : Prop :=
  (∀ (p : Fin 34) (f : FlitIn) (b : Bytes) (s s0 : State), s.answers = true → (s.port p).up = true → engineHalted s p = false →
    b = fecApply (fecFixes f.bytes) f.bytes →
    (crcOf flitCrc (slice b 0 244) ≠ leAt b 244 4 →
      exec (.flit p f) s = .next (answerFlits 6 p (askReplay p true (updPort p (fun x => { x with crc := satTo 32 (x.crc + 1) })
        (corrected (noteFixes p [] s)))))) ∧
    (∀ (h : Nat) (s2 s3 : State) (y : Port), s0 = noteFixes p (fecFixes f.bytes) s → crcOf flitCrc (slice b 0 244) = leAt b 244 4 → h = leAt b 0 8 → bits h 1 0 = 1 →
      s2 = updPort p (fun x => { x with credits := x.credits.modify (bits h 35 33) (· + bits h 47 36) }) (takeAck p (bits h 31 20) s0) →
      s3 = (if bitOf h 32 then takeNak p s2 else s2) → y = s3.port p → y.up = true → bits h 19 8 = y.lseqRx →
        exec (.flit p f) s = .next (answerFlits 6 p (pump (reassemble p (bits h 4 2) (bitOf h 5) (bitOf h 6) (slice b 8 236) (setPort p { y with
          lseqRx := (y.lseqRx + 1) % 4096, nak := false, rx := satTo 64 (y.rx + 1), unacked := y.unacked + 1,
          owed := y.owed.modify (bits h 4 2) (· + 1) } s3)))))) ∧
  (∀ (p : Fin 34) (vc : Fin 5) (s : State), s.live = true → (s.port p).reasm.any (fun r => decide (r.vc = vc.val)) = true →
    exec (.messageReassemblyTimeout p vc) s =
      .next (count Reg.ZOR_BADMSG 32 1 (updPort p (fun x => { x with reasm := x.reasm.filter fun r => decide (r.vc ≠ vc.val) }) s))) ∧
  (∀ (p : Fin 34) (b : Bytes) (l : Nat) (m : TxMsg) (s s1 : State), s.live = true → (s.port p).up = true → leAt b 0 2 = 4 →
    s1 = count Reg.ZOR_UNREACH 32 1 s → heldByEnvelope s (slice b 32 32) = some m →
    (leAt b 4 1 = 1 → (s.port p).link = some l → exec (.unreach p b) s = .next (pump (resendMsg m.id
      { s1 with zor := { s1.zor with reach := Tbl.put s1.zor.reach (32 * leAt b 2 2 + l) s.clk.fnum } }))) ∧
    (leAt b 4 1 ≠ 1 → exec (.unreach p b) s = .next (lostMsg m { raiseInt blkZor 4 s1 with
      zor := { (raiseInt blkZor 4 s1).zor with store := (raiseInt blkZor 4 s1).zor.store.filter fun y => decide (y.id ≠ m.id) } }))) ∧
  (∀ (d : BitVec 16) (plane : Fin 32) (f : Nat) (s : State), s.live = true → Tbl.look? s.zor.reach (32 * d.toNat + plane.val) = some f →
    f + 1024 ≤ s.clk.fnum → exec (.reachMarkExpiry d plane) s =
      .next (respray { s with zor := { s.zor with reach := Tbl.del s.zor.reach (32 * d.toNat + plane.val) } })) ∧
  (∀ (m : TxMsg) (s : State), s.live = true → m ∈ s.zor.store → m.flits ≤ m.acked → exec (.transmitStoreRelease m.id) s =
    .next { s with zor := { s.zor with
      store := s.zor.store.filter fun x => decide (x.id ≠ m.id),
      released := s.zor.released ++
        ((s.zor.store.filter fun x => decide (x.id = m.id) && protoAnswered x).map fun x => { x with body := [], img := [] }) } })

/-- Bulk requests are served and their answers reach the transfer that asked. Each acts once the draws of what it reaches are held: BULK_WR of
a mapped span is written and acknowledged with status 0; BULK_RDREQ of a mapped span is answered with its bytes; BULK_RDDATA lands in the
tile that asked and BULK_ACK ends its part, both clearing the mark of the plane their request took. -/
def Obligations.BulkTransfersComplete : Prop :=
  ∀ (m : Msg) (j r : Nat) (s s1 s2 u : State), usesReady u →
    (Takes 0x30 m (bulkIdent m) j r s s1 → rangeWrite j (bulkAddr m) (slice m.body 0 (bulkLength m)) s1 = .ok [] s2 →
      u = sendTo j m.src.toNat 2
        (header (toLe 2 0x33 ++ zeros 2 ++ toLe 4 (bulkTag m) ++ toLe 4 (bulkOffset m) ++ toLe 1 0)) [] {} s2 →
        exec (.bulkWr m) s = .next (done s u)) ∧
    (∀ d, Takes 0x31 m (bulkIdent m) j r s s1 → rangeRead j (bulkAddr m) (bulkLength m) s1 = .ok d [] s2 →
      u = sendTo j m.src.toNat 2
        (header (toLe 2 0x32 ++ zeros 2 ++ toLe 4 (bulkTag m) ++ toLe 4 (bulkOffset m) ++ toLe 1 0)) d {} s2 →
        exec (.bulkRdreq m) s = .next (done s u)) ∧
    (∀ (b : Bulk) (d : Dma), Takes 0x32 m (some [m.src.toNat, leAt m.hdr 4 4, leAt m.hdr 8 4]) j r s s1 →
      bulkOf s1 (bulkTag m) (bulkOffset m) = some b → b.restore = false →
      s2 = partDone (bulkTag m) (bulkOffset m) (bulkAcked 0x31 m s1) → dmaOf s2 b.tile (bulkTag m) = some d → leAt m.hdr 12 1 ≠ 1 →
      u = landPart b.tile (d.loc + bulkOffset m) (slice m.body 0 (min 65536 (d.len - bulkOffset m))) (decide (leAt m.hdr 12 1 = 2)) s2 →
        exec (.bulkRddata m) s = .next (done s u)) ∧
    (∀ (b : Bulk), Takes 0x33 m (some [m.src.toNat, leAt m.hdr 4 4, leAt m.hdr 8 4]) j r s s1 →
      bulkOf s1 (bulkTag m) (bulkOffset m) = some b → leAt m.hdr 12 1 ≠ 1 →
      u = partDone (bulkTag m) (bulkOffset m) (bulkAcked 0x30 m s1) → exec (.bulkAck m) s = .next (done s u))

/-- A repeat of a message already acted on changes nothing but ZOR_DUP. Of every message type that the receiver recognises by an identity of
the whole message: a message that comes in (`counted` marks one the device held and now tries again), that may be taken and whose identity has
been recorded, is dropped and counted. -/
def Obligations.RepeatedMessageIsOnlyCounted : Prop :=
  ∀ (i : Instr) (m : Msg) (j r : Nat) (id : List Nat) (s : State), i.msgRow = some m →
    (i, msgTyp m, id) ∈ [(.publish m, 0x40, [leAt m.hdr 12 2, leAt m.hdr 14 2]), (.pubReply m, 0x41, [m.src.toNat, leAt m.hdr 6 2]),
      (.replRow m, 0x42, [m.src.toNat, leAt m.hdr 9 2, leAt m.hdr 13 6]), (.replEnd m, 0x43, [m.src.toNat, leAt m.hdr 2 6]),
      (.replDrop m, 0x44, [m.src.toNat, leAt m.hdr 9 2]), (.repair m, 0x45, [m.src.toNat, leAt m.hdr 9 2]),
      (.lookupReq m, 0x50, [m.src.toNat, m.fseq.toNat, attemptOf m]),
      (.lookupReply m, 0x51, [m.src.toNat, m.fseq.toNat, attemptOf m, m.oseq.toNat]),
      (.flowEnd m, 0x52, [m.src.toNat, m.fseq.toNat, attemptOf m]),
      (.verdict m, 0x62, [leAt m.hdr 2 2, leAt m.hdr 4 4, m.src.toNat, leAt m.hdr 12 1]),
      (.agData m, 0x61, [leAt m.hdr 2 2, leAt m.hdr 4 4, leAt m.hdr 8 2, leAt m.hdr 12 4, leAt m.hdr 28 1]),
      (.segFetch m, 0x63, [leAt m.hdr 2 2, leAt m.hdr 4 4, leAt m.hdr 8 2, leAt m.hdr 12 4, m.src.toNat]),
      (.bulkWr m, 0x30, [m.src.toNat, bulkTag m, bulkOffset m]), (.bulkRdreq m, 0x31, [m.src.toNat, bulkTag m, bulkOffset m])] →
    s.linked = true → (s.port m.port).up = true → m.dst.toNat = s.addr → s.power.night = .none →
    (s.jobs.find? fun p => decide (p.2.jobid = m.jobid.toNat)).map (·.1) = some j → (s.session j).state = .joined →
    m.enc = true → m.tagOk = true → (s.session j).linkKey ≠ [] → (msgFrame s m).isSome = true → rankOf s j m.src.toNat = some r →
    takeIdent j (msgTyp m) id s = none → s.stk.counted = false →
      exec i s = .next (count Reg.ZOR_DUP 32 1 s)

/-- A message of a type no rule lists, or of a job that lets no traffic in, is dropped and counted. Every message row: a message for this
device on a link in service whose TYPE is not listed counts in ZOR_BADMSG and changes nothing else, but for one in the clear that names a
job, which is an authentication failure. Where this device holds the job's key its frame and tag must be good, as they are checked first.
A job's message row, out of Night, of a job whose session has not joined counts in ZOR_BADMSG too. -/
def Obligations.ForeignMessageIsDropped : Prop :=
  ∀ (i : Instr) (m : Msg) (s : State), i.msgRow = some m → s.linked = true → (s.port m.port).up = true → m.dst.toNat = s.addr →
    s.stk.counted = false →
    (listedType (msgTyp m) = false → m.enc = false → m.jobid.toNat ≠ 0 → exec i s = .next (authFail m s)) ∧
    (listedType (msgTyp m) = false → m.enc = true ∨ m.jobid.toNat = 0 →
      m.enc = false ∨ ((msgFrame s m).isSome = true ∧ m.tagOk = true) ∨
        (∀ j, (s.jobs.find? fun p => decide (p.2.jobid = m.jobid.toNat)).map (·.1) = some j → (s.session j).linkKey = []) →
      exec i s = .next (badMsg s)) ∧
    (∀ j, (msgTyp m, i) ∈ [(0x30, .bulkWr m), (0x31, .bulkRdreq m), (0x32, .bulkRddata m), (0x33, .bulkAck m), (0x50, .lookupReq m),
        (0x53, .updReq m), (0x54, .updClose m), (0x60, .rsData m), (0x61, .agData m), (0x62, .verdict m), (0x42, .replRow m), (0x40, .publish m),
        (0x70, .dlxRec m)] →
      s.power.night = .none → (s.jobs.find? fun p => decide (p.2.jobid = m.jobid.toNat)).map (·.1) = some j →
      m.enc = true → (s.session j).linkKey = [] ∨ ((msgFrame s m).isSome = true ∧ m.tagOk = true) →
      (s.session j).state ≠ .joined → (s.session j).state ≠ .keyless → exec i s = .next (badMsg s))

/-- The host port's accesses and timers. A trained link is recorded; a configuration request is answered with a value of its own from 100 ms
after power-good (which value is free) and asks for a retry before; an access that is not naturally aligned answers Unsupported Request,
is logged in normal service and changes no register else; a doorbell within the credit moves the tail and validates; a re-read checks the
record again; QCFG enables a queue of a legal setting on a free sub-window; the host's CRHEAD moves, and a HELD queue with space again
goes on; a completion record whose bytes are visible is written; the moderation timer sends the vector. -/
def Obligations.HostPortAccessesComplete : Prop :=
  (∀ (w r : BitVec 4) (cache : Bool) (s : State), s.dawn.powered = true → w.toNat ∈ [1, 2, 4, 8] → 1 ≤ r.toNat → r.toNat ≤ 7 →
    exec (.pcieLinkTrained w r true cache) s =
      .next { s with link := { width := w.toNat, rate := r.toNat, flit := true, noflit := false, cache := cache } } ∧
    exec (.pcieLinkTrained w r false cache) s =
      .next (raiseInt blkHost 4 { s with link := { width := w.toNat, rate := r.toNat, flit := false, noflit := true, cache := false } })) ∧
  (∀ s : State, s.answers = true →
    (s.now - s.dawn.t0 < 6400000000 → exec .pcieConfigRequest s = .next { s with resp := .retry }) ∧
    (6400000000 ≤ s.now - s.dawn.t0 → exec .pcieConfigRequest s = .next { (freeVal s).2 with resp := .data (freeVal s).1 })) ∧
  (∀ (off size : Nat) (write : Bool) (s : State), s.answers = true → (size ≠ 4 ∧ size ≠ 8) ∨ off % size ≠ 0 →
    exec (.bar0BadAccess off size write) s = .next (badAccess off size write s) ∧
    (s.served = false → exec (.bar0BadAccess off size write) s = .next { s with resp := .unsupported })) ∧
  (∀ (q : Fin 128) (v : Word32) (t : Nat) (s : State), s.served = true → (s.queue q).en = true → t = v.toNat % slots → t ≠ (s.queue q).tail →
    ringDist t (s.queue q).head ≤ (s.queue q).credit → ringDist (s.queue q).tail (s.queue q).head ≤ ringDist t (s.queue q).head →
    exec (.hostDb q v) s = .next (validate q (updQueue q (fun Q => { Q with tail := t, stalled := false }) s))) ∧
  (∀ (q : Fin 128) (k : Nat) (s : State), s.served = true → (s.queue q).en = true → nightWaits s q = false → (s.queue q).rereads = some k →
    exec (.validationReread q) s = .next (rereadHead q k s)) ∧
  (∀ (wide high : Bool) (v : Word64) (x : Nat) (Q : Queue) (s : State), s.served = true → (s.queue s.qsel).en = false →
    x = halfWrite (s.queue s.qsel).cfgWord wide high v.toNat → bitOf x 0 = true →
    Q = (s.queue s.qsel).configure x s.limited (decide ((s.queues.filter fun p => decide (p.1 ≠ s.qsel) && p.2.governed).length ≥ 8)) →
    Q.target ≠ 3 → Q.seq ≠ 3 → (∀ p ∈ s.queues, p.1 ≠ s.qsel → p.2.en = true → p.2.subwin ≠ Q.subwin) →
      exec (.hostQcfgWrite wide high v) s = .next (setQueue s.qsel
        { Q with en := true, alive := 0, crTail := 0, crHead := 0, stalled := false, held := false, rereads := none } s)) ∧
  (∀ (q : Fin 128) (v : Word32) (h : Nat) (s : State), s.served = true → (s.queue q).held = false →
    h = (s.queue q).crHead + (v.toNat % 65536 + 65536 - (s.queue q).crHead % 65536) % 65536 →
      exec (.hostCrhead q v) s = .next (updQueue q (fun Q => { Q with crHead := h }) s)) ∧
  (∀ (q : Fin 128) (v : Word32) (s s1 : State), s.served = true → (s.queue q).held = true →
    s1 = updQueue q (fun Q => { Q with crHead := Q.crHead + (v.toNat % 65536 + 65536 - Q.crHead % 65536) % 65536 }) s →
    (s1.queue q).ringFull = false → exec (.hostCrhead q v) s = .next (unholdQueue q s1)) ∧
  (∀ (q : Fin 128) (s : State), s.served = true → (s.queue q).flush.isSome = true → (s.queue q).held = false →
    exec (.completionFlushDone q) s = .next (tryRecord q (evictDirty s))) ∧
  (∀ (q : Fin 128) (s : State), s.live = true → 0 < (s.queue q).intrs → 0 < (s.queue q).modTime →
    exec (.msixModerationTimer q) s = .next (sendVector q (updQueue q (fun Q => { Q with intrs := 0 }) s)))

/-- A write into free slots of a bound sub-window stores its bytes and nothing else. In service, when every byte of the write lies in a slot
its queue has not committed, the bytes stand in the intake window at their addresses, every other byte reads as before, and nothing else
of the device changes. -/
def Obligations.IntakeWriteStoresItsBytes : Prop :=
  ∀ (off : BitVec 28) (d : Bytes) (s : State), s.served = true → s.link.noflit = false → Mem.wf s.intake 0 = true → off.toNat + d.length ≤ 2 ^ 28 →
    (∀ i < d.length, intakeTakes s (off.toNat + i) = true) →
      ∃ t, exec (.intakeWrite off d (List.replicate d.length true)) s = .next t ∧
        (∀ a, Mem.get t.intake 0 a = if h : off.toNat ≤ a ∧ a - off.toNat < d.length then d[a - off.toNat]'h.2 else Mem.get s.intake 0 a) ∧
        { t with intake := s.intake } = s

/-- The job commands, data in and copies. JOB_ADMIT of a valid record admits the job; JOB_END notes the end, cancels the job's other commands,
and waits for those that run and for those whose record is not written yet; CTX_SWITCH waits for its frame; SUSPEND of commands of which
none runs suspends them at once, else asks them for a chunk boundary; RESUME queues suspended commands again; CANCEL withdraws commands of
which not all run to completion; DATA_IN writes its payload and COPY reads its whole source and writes it, each once the draws of what it
reaches are held; TILE_RUN and WALK have their next chunk admitted. -/
def Obligations.JobCommandsComplete : Prop :=
  ∀ (q : Fin 128) (c : Cmd) (s s1 : State), s1 = started q s →
    (runnable q Op.JOB_ADMIT s = some c → admitStatus s1 c = St.OK → exec (.jobAdmit q) s = .next (endHead q St.OK 0 0 (admitJob c s1))) ∧
    (∀ (ts : List (Nat × Cmd)), Accepted q Op.JOB_END s c → (s1.job? c.job).bind (·.ending) = none →
      ts = (jobCommands s1 c.job).filter (fun p => decide (p.2.cid ≠ c.cid)) →
      exec (.jobEnd q) s = .next (jobEndDone q (updHead q (fun c' => { c' with
        waits := (cancelAll q ts (updJob c.job (fun x => { x with ending := some (q.val, c.cid) }) s1)).1 ++
          ((ts.filter fun p => decide (p.2.life = .running) && !isWork p.2.opcode && decide (p.1 ≠ q.val)).map
            fun p => p.2.cid) ++ unwritten s1 c.job })
        (cancelAll q ts (updJob c.job (fun x => { x with ending := some (q.val, c.cid) }) s1)).2))) ∧
    (Accepted q Op.CTX_SWITCH s c → exec (.ctxSwitch q) s = .next (updJob c.job (fun x => { x with
      switches := x.switches ++ [{ dirIn := decide (c.opnd 0 1 = 1), frame := c.opnd 8 6, queue := q, cid := c.cid }] }) s1)) ∧
    (∀ (ts : List (Nat × Cmd)) (w : List Nat) (s2 : State), TrioAccepted q Op.SUSPEND s c → ts = trioTargets s1 c → ts ≠ [] →
      s2 = ts.foldl (fun s p =>
        if chunkRuns p.2 then updCid p.1 p.2.cid (fun y => { y with suspReq := true }) s
        else if (p.2.life = .queued ∨ p.2.life = .head) ∧ p.2.runs = false
          then updCid p.1 p.2.cid (fun y => { y with life := .suspended, susp := true }) s
        else s) s1 →
      w = (ts.filter fun p => chunkRuns p.2).map (·.2.cid) →
        exec (.suspend q) s = .next (if w = [] then endHead q St.OK 0 0 s2 else updHead q (fun c => { c with waits := w }) s2)) ∧
    (∀ (ts sus : List (Nat × Cmd)), TrioAccepted q Op.RESUME s c → c.opnd 0 1 ≠ 1 → s1.lost = false → c.inLost = false → ts = trioTargets s1 c →
      sus = ts.filter (fun p => decide (p.2.life = .suspended)) → sus ≠ [] →
        exec (.resume q) s = .next (endHead q St.OK 0 0
          (sus.foldl (fun s p => promote p.1 (updCid p.1 p.2.cid (fun y => { y with life := .queued }) s)) s1))) ∧
    (∀ (ts : List (Nat × Cmd)), TrioAccepted q Op.CANCEL s c → ts = trioTargets s1 c → ts ≠ [] →
      (∃ p ∈ ts, p.2.runs = false ∨ isWork p.2.opcode = true) →
        exec (.cancel q) s = .next (if (cancelAll q ts s1).1 = [] then endHead q St.OK 0 0 (cancelAll q ts s1).2
          else updHead q (fun c => { c with waits := (cancelAll q ts s1).1 }) (cancelAll q ts s1).2)) ∧
    (∀ s2 u, Accepted q Op.DATA_IN s c → 1 ≤ c.opnd 8 4 → c.opnd 8 4 ≤ c.body.length →
      rangeWrite c.job (c.opnd 0 8) (c.body.take (c.opnd 8 4)) (started q (unused s)) = .ok [] s2 →
      u = consume q c.cid (endHead q St.OK 0 0 s2) → usesReady u → exec (.dataIn q) s = .next (done s u)) ∧
    (∀ d s2 s3 u, Accepted q Op.COPY s c → 1 ≤ c.opnd 16 8 → c.opnd 16 8 ≤ 2 ^ 40 →
      rangeRead c.job (c.opnd 0 8) (c.opnd 16 8) (started q (unused s)) = .ok d [] s2 →
      rangeWriteP c.job (c.opnd 8 8) d (fun _ => false) s2 = .ok [] s3 → u = endHead q St.OK 0 0 s3 → usesReady u →
        exec (.copy q) s = .next (done s u)) ∧
    (s.clocked = true → (s.queue q).en = true → (s.queue q).target = 1 →
      exec (.tileRun q) s = .next (admitUnit (3 * (s.queue q).tile + (s.queue q).seq) s)) ∧
    (s.clocked = true → (s.queue q).en = true → (s.queue q).target = 2 → headOf s q = some c →
      exec (.walk q) s = .next (c.clusters.foldl (fun s i => admitUnit (24 + i) s) s))

/-- The exporter's commands and messages, and self-test. EXPORT_SET and EXPORT_BASE are noted for the next tick; KEEP_REGION replaces the
source's region; RESTORE starts when every other command of the job is suspended; RANK_MOVE moves the rank everywhere; DLX_REC and
DLX_CLOSE, once the draws of what they reach are held, store their entry and count or judge the frame, which DLX_CLOSE answers; a good
DLX_ACK frees the keeper's frame; a silent keeper is lost; KHEAD moves; the draws return after 800 cc without a message; SELFTEST is
queued and its steps run in the slice. -/
def Obligations.ExportCommandsComplete : Prop :=
  ∀ (q : Fin 128) (c : Cmd) (x : Job) (s s1 : State), s1 = started q s →
    (∀ ks, Accepted q Op.EXPORT_SET s c → s1.job? c.job = some x → ks = (List.range (c.opnd 0 1)).map (fun i => keeperOf (c.opndBytes (16 + 16 * i) 16)) →
      c.opnd 0 1 ≤ 2 → 2 ≤ c.opnd 1 1 → c.opnd 1 1 ≤ 64 → 16 ≤ c.opnd 2 2 → c.opnd 2 2 ≤ 1024 → 16 ≤ c.opnd 4 4 → c.opnd 4 4 ≤ 1024 →
      ks.all (keeperOk s1 c.job x) = true → sweepBusy s1 c.job = false →
        exec (.exportSet q) s = .next (dlxJob c.job (fun d => { d with setReq := d.setReq ++ [(ks, c.opnd 1 1, c.opnd 2 2, c.opnd 4 4, q.val, c.cid)] }) s1)) ∧
    (Accepted q Op.KEEP_REGION s c → s1.job? c.job = some x → c.opnd 0 2 < x.ndev → c.opnd 0 2 ≠ x.rank → regionLeast (c.opnd 8 6) = true →
      c.opnd 2 6 + c.opnd 8 6 ≤ rangeBytes →
        exec (.keepRegion q) s = .next (endHead q St.OK 0 0 { s1 with dlx := { s1.dlx with
          regions := (s1.dlx.regions.filter fun k => !(decide (k.job = c.job) && decide (k.src = c.opnd 0 2))) ++
            [{ job := c.job, src := c.opnd 0 2, addr := c.opnd 2 6, bytes := c.opnd 8 6, frames := [] }] } })) ∧
    (Accepted q Op.EXPORT_BASE s c → sweepBusy s1 c.job = false →
      exec (.exportBase q) s = .next (dlxJob c.job (fun d => { d with baseReq := d.baseReq ++ [(q.val, c.cid)] }) s1)) ∧
    (Accepted q Op.RESTORE s c → s1.job? c.job = some x → (s1.session c.job).state = .joined → c.opnd 0 2 = x.rank → c.opnd 2 1 ≤ 1 →
      c.opnd 2 1 = 0 ∨ (c.opnd 4 2 < x.ndev ∧ c.opnd 4 2 ≠ x.rank) → regionOk (c.opnd 16 8) = true → c.opnd 8 8 + c.opnd 16 8 ≤ rangeBytes →
      othersSuspended s1 c = true → exec (.restore q) s = .next (restoreStart q c s1)) ∧
    (∀ s2 s3 u, Accepted q Op.RANK_MOVE s c → s1.job? c.job = some x → c.opnd 0 2 < x.ndev → c.opnd 0 2 ≠ x.rank → othersSuspended s1 c = true →
      s2 = moveSlots c.job (c.opnd 0 2) x (moveFlows c.job (c.opnd 0 2)
        (updJob c.job (fun x => { x with ranks := x.ranks.set (c.opnd 0 2) (c.opnd 2 2) }) (started q (unused s)))) →
      s3 = s2.emb.tables.foldl (fun s p => moveCloses c.job (c.opnd 0 2) p.1 s) s2 →
      u = endHead q St.OK 0 0 (s3.dtr.layers.foldl (fun s p => if p.1 / 65536 = c.job then moveLayer c.job (p.1 % 65536) s else s) s3) →
      usesReady u → exec (.rankMove q) s = .next (done s u)) ∧
    (∀ (m : Msg) (j r : Nat) (t t1 u : State) (k : KeepRegion), t = s → usesReady u →
      (Takes 0x70 m (some [m.src.toNat, leAt m.hdr 4 6, leAt m.hdr 10 4]) j r t t1 → regionOf t1 j r = some k →
        u = updRegion j r (fun y => { y with
          frames := y.frames.filter (fun y => decide (y.1 ≠ (keptFrame k (leAt m.hdr 4 6)).1)) ++
            [((keptFrame k (leAt m.hdr 4 6)).1, (keptFrame k (leAt m.hdr 4 6)).2.1 + 1,
              (keptFrame k (leAt m.hdr 4 6)).2.2.1 ^^^ crc64 (slice m.hdr 0 32 ++ m.body),
              (keptFrame k (leAt m.hdr 4 6)).2.2.2 || !(keepEntry j k m t1).1)] }) (keepEntry j k m t1).2 →
        exec (.dlxRec m) t = .next (done t u)) ∧
      (Takes 0x71 m (some [m.src.toNat, leAt m.hdr 4 6]) j r t t1 → regionOf t1 j r = some k → (keepEntry j k m t1).1 = true →
        (keptFrame k (leAt m.hdr 4 6)).2 = (leAt m.hdr 10 4, leAt m.hdr 14 8, false) →
        u = sendTo j m.src.toNat 2 (dlxAckHdr (leAt m.hdr 4 6) 0) [] {}
          (updRegion j r (fun k => { k with frames := k.frames.filter fun y => decide (y.1 ≠ leAt m.hdr 4 6) }) (keepEntry j k m t1).2) →
        exec (.dlxClose m) t = .next (done t u)) ∧
      (∀ n t2, Takes 0x72 m none j r t t1 → leAt m.hdr 10 1 = 0 →
        ((Tbl.look? t1.dlx.jobs j).bind fun d => d.keepers.findIdx? fun x => decide (x.kind = 1) && decide (x.rank = r) && !x.lost) = some n →
        takeIdent j 0x72 [m.src.toNat, leAt m.hdr 4 6]
          (protoAck m.src.toNat (fun t => decide (leAt t.hdr 0 2 = 0x71) && decide (leAt t.hdr 4 6 = leAt m.hdr 4 6)) t1) = some t2 →
        u = dlxPump j (dlxAcked j n (leAt m.hdr 4 6) t2) → exec (.dlxAck m) t = .next (done t u))) ∧
    (∀ (j : Fin 64) (k : Fin 2) (d : DlxJob) (y : Keeper), Tbl.look? s.dlx.jobs j = some d → d.keepers[k.val]? = some y → s.clocked = true →
      y.lost = false → y.since + d.keepTo ≤ s.clk.fnum → exec (.keeperTimeout j k) s = .next (loseKeeper j k 2 s)) ∧
    (∀ (wide high : Bool) (v : Word64) (y : Keeper), s.served = true →
      ((Tbl.look? s.dlx.jobs s.dlxSel.1).bind fun d => d.keepers[s.dlxSel.2]?) = some y → y.kind = 2 →
        exec (.dlxKhead wide high v) s = .next (dlxPump s.dlxSel.1
          (updKeeper s.dlxSel.1 s.dlxSel.2 (fun x => { x with head := halfWrite x.head wide high v.toNat % 2 ^ 48 }) s))) ∧
    (∀ u, s.live = true → holds .exporter s = true → u = runUntil (s.dlx.sentAt + 64000) s → u.live = true →
      holds .exporter u = true → u.dlx.sentAt + 64000 ≤ u.now →
        exec .exporterDrawReturn s = .next (ledgerReturn .exporter u)) ∧
    (∀ t, runnable q Op.SELFTEST s = some c → selfTestOf q c = some t → s1.flt.selftest = none → t.kind ≠ 1 ∨ tileHeld t.index s1 = false →
      exec (.selftest q) s = .next { s1 with flt := { s1.flt with selftest := some t } }) ∧
    (∀ (failed : Bool) (a : BitVec 64) (u : State), u = runUntil (s.atPos (stepAt s)) s → stepReady s = true → stepReady u = true →
      stepAt u ≤ u.pos → exec (.selftestStep failed a) s = .next (selfTestStep failed a.toNat u))

/-- Power states, Night and waking, temperatures and rails. PWR_STATE of another awake state waits for its frame, of the present one for the
next tick, and of Night or Off begins Dusk; PWR_LIMITS of legal limits waits for the tick; Dusk ends at a tick with nothing in progress;
the core rail's settling at 0.60 V enters Night, and so does its time-out, with 0.75 V commanded again; on the way back the rail confirms
and the draws are asked for, and when they are granted the device wakes; temperatures are noted and 115 °C shuts the device down; a rail
that answers is noted; a failed poll is counted, and the third in a row is a fault of the rail's controller. -/
def Obligations.PowerCommandsComplete : Prop :=
  ∀ (q : Fin 128) (c : Cmd) (s s1 : State), s1 = started q s →
    (∀ t f, runnable q Op.PWR_STATE s = some c → pwrRefusal (c.opnd 0 1) s1.power.hold = none → heldByPower c.cid s1 = false →
      s1.power.night = .none → t = targetState (c.opnd 0 1) → f = (if s1.power.endsDusk = some c.cid then 0 else c.opnd 8 6) →
      (t = .night ∨ t = .off → exec (.pwrState q) s = .next { s1 with power := { s1.power with
        dusk := some { target := t, queue := q, cid := c.cid, first := none, frames := 0, ended := false } } }) ∧
      (t ≠ .night → t ≠ .off → t = s1.power.state → exec (.pwrState q) s = .next { s1 with power := { s1.power with
        sameState := s1.power.sameState ++ [(q.val, c.cid)] } }) ∧
      (t ≠ .night → t ≠ .off → t ≠ s1.power.state → exec (.pwrState q) s = .next { s1 with power := { s1.power with
        pend := some { target := t, frame := f, queue := q, cid := c.cid, asked := false } } })) ∧
    (∀ l, runnable q Op.PWR_LIMITS s = some c → limitsOf c = some l →
      exec (.pwrLimits q) s = .next { s1 with power := { s1.power with pendLim := s1.power.pendLim ++ [(q.val, c.cid, l)] } }) ∧
    (∀ d f, s.power.dusk = some d → d.first = some f → s.clocked = true → s.clk.stepsDone = true → s.pos ≤ 256 → d.ended = false →
      f + regField s Reg.PWR_CFG 7 0 ≤ s.clk.fnum ∨ duskBusy s = false →
        exec .duskEnd s = .next (duskDrained (endFlows { s with power := { s.power with dusk := some { d with ended := true } } }))) ∧
    (s.live = true → s.power.night = .lowering → exec .nightVoltageSettled s = .next (inNight s) ∧
      (∀ i r, coreRail s = some (i, r) → exec .nightVoltageTimeout s = .next (inNight (pmbusFail i r.addr (setVout 750 s))))) ∧
    (∀ w, s.power.wake = some w → s.live = true → s.power.night = .raising → exec (.wakeVoltageSettled true) s = .next (wakeDraws w s)) ∧
    (∀ w s2, s.power.wake = some w → s.live = true → s.power.night = .waking → holds .topUp s = true → asking .topUp s = false →
      standingFor (decide (w.final = .noon)) s ≤ heldBy .topUp s → w.latest = w.final →
      s2 = { s with
        power := { s.power with night := .none, wake := none, tripped := false },
        zor := { s.zor with idle := false },
        clk := { s.clk with stepsDone := false } } →
        exec .wakeComplete s = .next (validateAll (endCid w.queue w.cid St.OK 0 0
          (inState w.final (retrainAll (settleTopUp (decide (w.final = .noon)) s2)))))) ∧
    (∀ a b f : BitVec 8, s.answers = true →
      (115 ≤ max a.toNat (max b.toNat f.toNat) → exec (.thermalSample a b f) s = .next { s with
        power := { s.power with die0 := a.toNat, die1 := b.toNat, fab := f.toNat, shut := true },
        pins := { s.pins with thermtrip := true, priorSd := true } }) ∧
      (s.flt.fatal = false → max a.toNat (max b.toNat f.toNat) < s.power.limits.tsoft → max a.toNat (max b.toNat f.toNat) < 100 →
        exec (.thermalSample a b f) s = .next { s with
          power := { s.power with die0 := a.toNat, die1 := b.toNat, fab := f.toNat, soft := false, hold := false } })) ∧
    (s.dawn.powered = true → exec .thermalShutdown s = .next { s with power := { s.power with shut := true }, pins := { s.pins with thermtrip := true, priorSd := true } }) ∧
    (∀ (k : Fin 8) (v i : BitVec 16) (t : BitVec 8) (m : ManRail) (r : Rail), m = s.dawn.man.rails.getD k ⟨0, 0⟩ → s.live = true → s.dawn.outcome ≠ 0 →
      m.addr ≠ 0 → r = Tbl.look s.power.rails k Rail.init →
      (r.linear = true → m.role ≠ 1 → exec (.pmbusPoll k true v i t) s = .next (packagePower k (railEnergy v.toNat i.toNat { s with power := { s.power with
        rails := Tbl.put s.power.rails k { r with vout := v.toNat, iout := i.toNat, temp := t.toNat, valid := true, misses := 0 } } }))) ∧
      (r.linear = true → m.role = 1 → exec (.pmbusPoll k true v i t) s = .next (coreCurrent i.toNat (packagePower k (railEnergy v.toNat i.toNat { s with power := { s.power with
        rails := Tbl.put s.power.rails k { r with vout := v.toNat, iout := i.toNat, temp := t.toNat, valid := true, misses := 0 } } })))) ∧
      (∀ s2, s2 = packagePower k (count Reg.PWR_PMBERR 32 1 { s with power := { s.power with
        rails := Tbl.put s.power.rails k { r with misses := r.misses + 1, fail := r.fail || decide (3 ≤ r.misses + 1) } } }) →
          (r.misses ≠ 2 → exec (.pmbusPoll k false v i t) s = .next s2) ∧
          (r.misses = 2 → exec (.pmbusPoll k false v i t) s = .next (pmbusFail k m.addr s2))))

/-- Attestation, sessions, keys, presence, the seal and the lock. With the boot key ready ATTEST writes its report and SESSION_OPEN of a good
grant opens the session, and before that both wait in order of arrival; KEY_REGISTER of a signed and fresh request sets the slot; PRES_REQUEST
that passes every check opens the window, which a hold of 2 s within it carries out and the end of its 30 s without one closes; DEBUG_LOCK
above the level lowers it; CERT_INSTALL of the identity's certificate stores it; the boot key becomes ready; of the sampled bits one that
agrees with the driven one keeps the seal whole, and a second in a row that differs breaks it. -/
def Obligations.SecurityCommandsComplete : Prop :=
  ∀ (q : Fin 128) (c : Cmd) (s s1 : State), s1 = started q s →
    (SecureAccepted q Op.ATTEST s c → s1.lc ≠ .retired → c.opnd 32 8 % 4096 = 0 → s1.adnt.bekReady = true →
      exec (.attest q) s = .next (endHead q St.OK 0 0
        (hostWrite (c.opnd 32 8) (report 0 0 [] 0 (c.opndBytes 0 32) s1 ++ certOut s1) s1))) ∧
    (∀ (j : Nat) (g : Bytes) (key : Bytes), SecureAccepted q Op.SESSION_OPEN s c → s1.lc ≠ .retired → s1.adnt.bekReady = true →
      j = c.opnd 0 1 % 64 → g = c.body → (s1.session j).state = .none ∨ (s1.session j).state = .open →
      Config.oaepOpen s1.adnt.bekPriv (slice g 128 384) = some key → grantStatus j g (some key) s1 = 0 →
        exec (.sessionOpen q) s = .next (endHead q St.OK 0 0 (setSession j { Session.init with
          state := .open, slot := leAt g 0 2, policy := leAt g 3 1, jobid := leAt g 4 4,
          linkKey := linkKeyOf key (leAt g 4 4), kconf := kconfOf key s1.idDig (slice s1.adnt.bootNonce 0 32) (leAt g 3 1) }
          { s1 with adnt := { s1.adnt with
            gctr := Tbl.put s1.adnt.gctr (leAt g 0 2) (leAt g 8 8),
            keys := Tbl.put (Tbl.put s1.adnt.keys (2 * j) (BitVec.ofNat 256 (le key))) (2 * j + 1)
              (BitVec.ofNat 256 (le (sessKeyOf key s1.idDig))) } }))) ∧
    (SecureAccepted q Op.ATTEST s c → s1.lc ≠ .retired → c.opnd 32 8 % 4096 = 0 → s1.adnt.bekReady = false →
      exec (.attest q) s = .next { s1 with adnt := { s1.adnt with bekWait := s1.adnt.bekWait ++ [(q.val, c.cid)] } }) ∧
    (SecureAccepted q Op.SESSION_OPEN s c → s1.lc ≠ .retired → s1.adnt.bekReady = false →
      exec (.sessionOpen q) s = .next { s1 with adnt := { s1.adnt with bekWait := s1.adnt.bekWait ++ [(q.val, c.cid)] } }) ∧
    (∀ p m, SecureAccepted q Op.KEY_REGISTER s c → p = c.body → s1.lc ≠ .retired → requestSigned s1 (p.take 448) (slice p 448 384) = true →
      requestFresh s1 (leAt p 4 4) (slice p 8 32) = true → leAt p 0 2 < 1024 → m = slice p 64 384 →
        exec (.keyRegister q) s = .next (endHead q St.OK 0 0 { s1 with adnt := { s1.adnt with
          owners := if m.all (· == 0) then Tbl.del s1.adnt.owners (leAt p 0 2) else Tbl.put s1.adnt.owners (leAt p 0 2) m,
          opctr := leAt p 4 4 } })) ∧
    (∀ (op arg : Nat) (o : Bytes), SecureAccepted q Op.PRES_REQUEST s c → s1.adnt.window = none → op = c.opnd 0 1 → arg = c.opnd 1 1 →
      1 ≤ op → op ≤ 5 → s1.lc ≠ .retired → presAuth op arg c.body s1 = 0 →
      o = (if op = 2 ∨ op = 3 ∨ op = 5 then fetchObj s1 op (c.opnd 8 8) (c.opnd 16 8) else []) →
      presObject op arg (slice c.body 38 32) o s1 = 0 →
        exec (.presRequest q) s = .next (raiseInt blkAdnt 3 { s1 with adnt := { s1.adnt with
          window := some { op := op, arg := arg, queue := q, cid := c.cid, obj := o, out := c.opnd 8 8, since := s1.now, hold := none },
          opctr := leAt c.body 0 4 } })) ∧
    (∀ w, s.adnt.window = some w → s.live = true →
      (∀ t h, w.hold = some h → h + seconds 2 ≤ w.since + seconds 30 → h + seconds 2 ≤ s.now → presEffect w { s with adnt := { s.adnt with window := none } } = (true, t) →
        exec .presenceQualified s = .next (raiseInt blkAdnt 3 (endCid w.queue w.cid St.OK 0 0 t))) ∧
      (w.since + seconds 30 ≤ s.now → (∀ h, w.hold = some h → w.since + seconds 30 < h + seconds 2) → exec .presenceTimeout s = .next (raiseInt blkAdnt 3 (endCid w.queue w.cid St.PRESENCE_TIMEOUT 0 0
        (count Reg.ADNT_PRESFAIL 32 1 { s with adnt := { s.adnt with window := none } }))))) ∧
    (∀ low : Bool, s.answers = true → exec (.presenceNChange low) s = .next { s with adnt := { s.adnt with
      presIn := low,
      window := s.adnt.window.map fun w => { w with
        hold := if low then (if s.adnt.presIn then w.hold else some s.now) else none } } }) ∧
    (SecureAccepted q Op.DEBUG_LOCK s c → c.opnd 0 1 < s1.adnt.debug →
      exec (.debugLock q) s = .next (endHead q St.OK 0 0 (raiseInt blkAdnt 4 { s1 with adnt := { s1.adnt with debug := c.opnd 0 1 } }))) ∧
    (∀ cert t, SecureAccepted q Op.CERT_INSTALL s c → cert = c.body.take (min 4096 (derLength c.body)) → s1.adnt.idValid = true →
      Config.certKey cert = some s1.adnt.idMod → nvmGood s1 = (true, t) →
        exec (.certInstall q) s = .next (endHead q St.OK 0 0 { putIdField 3 cert t with
          adnt := { (putIdField 3 cert t).adnt with cert := cert, certOk := true } })) ∧
    (s.live = true → s.adnt.idValid = true → s.adnt.bekReady = false → exec .bekReady s = .next (bekWaiters { s with
      trngCtr := s.trngCtr + 1,
      adnt := { s.adnt with
        bekPub := (Config.rsaKeyGen s.trngCtr).1, bekPriv := (Config.rsaKeyGen s.trngCtr).2, bekReady := true } })) ∧
    (sealOn s = true → exec (.sealSample s.adnt.sealBit) s = .next { (draw64 s).2 with adnt := { (draw64 s).2.adnt with
      sealBit := (draw64 s).1.getLsbD 0, sealMiss := 0, sealChk := true, sealSince := true, sealOk := true } }) ∧
    (∀ (b : Bool) (u : State), sealOn s = true → b ≠ s.adnt.sealBit → s.adnt.sealMiss = 1 → s.adnt.sealOk = true →
      u = { (draw64 s).2 with adnt := { (draw64 s).2.adnt with
        sealBit := (draw64 s).1.getLsbD 0, sealMiss := 2, sealChk := true, sealSince := true, sealOk := false } } →
      exec (.sealSample b) s = .next (sealFinding (sealBreak u)))

/-- Joining and the debug port. A JOIN_REQ the device takes is judged; a good JOIN_ACK of the lead joins the session; a join without its answer at the end of JOINTO
fails; with the debug level and a legal selection a read answers the word and a write stores it, and a core is halted, let run, or run for
one instruction. -/
def Obligations.JoinAndDebugComplete : Prop :=
  ∀ (m : Msg) (s s1 : State),
    (∀ typ u, s.linked = true → (s.port m.port).up = true → m.dst.toNat = s.addr → msgTyp m = typ → m.enc = false → m.jobid.toNat = 0 →
      (msgFrame s m).isSome = true → takeIdent 64 typ [m.src.toNat, leAt m.hdr 2 4] (unused s) = some s1 → usesReady u →
      (typ = 0x80 → u = joinReqHere m s1 → exec (.joinReq m) s = .next (done s u)) ∧
      (∀ (j lead : Nat) (y : Job), typ = 0x81 → ctxWith s1 (leAt m.hdr 2 4) = some j → (s1.session j).state = .joining →
        lead = (if (s1.session j).spare then 1 else 0) → s1.job? j = some y → y.addrOf lead = m.src.toNat → leAt m.hdr 6 1 = 0 →
        reportOk s1 j lead m.src.toNat m.body (leAt m.hdr 8 2) = true → u = joined j s1 → exec (.joinAck m) s = .next (done s u))) ∧
    (∀ j : Fin 64, s.live = true → s.resident j = true → (s.session j).state = .joining →
      (s.session j).admitted + seconds (regField s Reg.ADNT_CFG 7 0) ≤ s.now → exec (.joinTimeout j) s = .next (joinFailed j 0xFFFF s)) ∧
    (∀ (d : DbgSel) (t : State), d = s.dbgSel → s.answers = true →
      (∀ v u, dbgError d (if d.cls ≤ 3 then 1 else 2) s = 0 → dbgLoad d (unused s) = some (v, t) →
        u = dbgEnd 0 (setReg Reg.ADNT_DBGDATA v t) → usesReady u → exec .dbgRead s = .next (done s u)) ∧
      (∀ u, dbgError d 2 s = 0 → dbgStore d (regRaw s Reg.ADNT_DBGDATA) (unused s) = some t → u = dbgEnd 0 t → usesReady u →
        exec .dbgWrite s = .next (done s u)) ∧
      (dbgError d 2 s = 0 → d.cls ≤ 3 → dbgHalted d s = false → exec .dbgHalt s = .next (dbgEnd 0 (setHalt d true s))) ∧
      (dbgError d 2 s = 0 → d.cls ≤ 3 → dbgHalted d s = true → exec .dbgRun s = .next (dbgEnd 0 (setHalt d false s)) ∧
        ∀ u, u = dbgEnd 0 (stepHalted d (unused s)) → usesReady u → exec .dbgStep s = .next (done s u)))

/-- Below its level the debug port reads and changes nothing. Outside Night, at debug level 0 a debug operation of a legal class, of whatever kind, leaves
all of the device but its own error code as it was; at level 1 the same holds of a write, a halt, a run, a step, and of a read of a
memory. In Night every one of them ends so with error 2, whatever the level. -/
def Obligations.DebugNeedsItsLevel : Prop :=
  ∀ (i : Instr) (s : State), i ∈ [.dbgRead, .dbgWrite, .dbgHalt, .dbgRun, .dbgStep] → s.answers = true → s.dbgSel.cls ≤ 6 →
    (s.power.night = .none → s.adnt.debug = 0 ∨ (s.adnt.debug = 1 ∧ (i ≠ .dbgRead ∨ 3 < s.dbgSel.cls)) →
      exec i s = .next { s with adnt := { s.adnt with dbgErr := 1 } }) ∧
    (s.power.night ≠ .none → exec i s = .next { s with adnt := { s.adnt with dbgErr := 2 } })

/-- Power-on, the stages of Dawn, and the resets. POWER_GOOD of an unpowered device begins Dawn; each stage's event at its stage carries the
stage out; a stage's limit ends it; a reset pulse long enough begins Dawn anew and a shorter one is ignored; the loss of power leaves only
what outlives it; removing VDD_AON releases the thermal latches and the request to power down. -/
def Obligations.DawnStagesComplete : Prop :=
  ∀ (s : State),
    (s.dawn.powered = false → exec .powerGood s = .next (startDawn s)) ∧
    (atStage 1 s = true → exec .dawnBootVerify s = .next (bootVerify s)) ∧
    (atStage 2 s = true → exec .dawnIdentity s = .next (identity s)) ∧
    (atStage 3 s = true → exec .dawnManifest s = .next (manifestStage s)) ∧
    (∀ n t, atStage n s = true → t = awaitStanding 4096 s → asking .topUp t = false → atStage n t = true →
      (∀ f, n = 4 → exec (.dawnStackTraining f) s = .next (stackTraining f t)) ∧
      (∀ f, n = 5 → exec (.dawnSramMarch f) s = .next (sramMarch f t)) ∧
      (∀ f, n = 7 → exec (.dawnLinkCensus f) s = .next (linkCensus f t))) ∧
    (∀ f, atStage 6 s = true → exec (.dawnFirmware f) s = .next (firmware f s)) ∧
    (atStage 8 s = true → s.clk.lock ≠ .acquiring → exec .dawnTickLock s = .next (clockSet s)) ∧
    (atStage 9 s = true → exec .dawnOutcome s = .next (outcome s)) ∧
    (s.live = true → s.dawn.outcome = 0 → exec .dawnStageLimit s = .next (stageLimit s)) ∧
    exec .pwrgoodFall s = .next (loseState s) ∧
    (∀ ns, exec (.resetN ns) s = .next (if 10000 ≤ ns then heldReset s else s)) ∧
    (∀ ns, exec (.perstN ns) s = .next (if 100000 ≤ ns then heldReset s else s)) ∧
    exec .vddAonRemoved s = .next { s with pins := { thermtrip := false, pwrdn := false, priorSd := false } } ∧
    (∀ (b : Fin 17) (c : Fin 5), s.live = true →
      exec (.coreFailed b c) s = .next (enterFatal { code := 0x00F1, arg0 := c.val, blk := some b.val } s)) ∧
    (s.live = true → s.ledger.on = true →
      exec .ledgerFault s = .next (enterFatal { code := 0x00F2, arg0 := s.ledger.held, arg1 := ledgerSum s } s)) ∧
    (∀ (t : Fin 8) (p : Pass) (r : List Pass) (x1 : Tile) (st cells : Nat) (s1 s2 s3 : State), (s.tile t).passes = p :: r → s.clocked = true →
      passPoisoned (s.tile t) p = false → passApply (s.tile t) p = (x1, st) → cells = gatedCells p →
      s1 = { s with tiles := Tbl.put s.tiles t { x1 with passes := r, closes := x1.closes.map fun c => { c with after := c.after - 1 } } } →
      s2 = count (Reg.TILE_PASSES t) 64 (piecePasses p.blk.split).length (count (Reg.TILE_ZGATE t) 64 cells s1) →
      s3 = clashWith t p.blk.owner p.afSpans (gateCredit t p cells (tileNstat t p.blk.owner p.cid st s2)) →
        exec (.passEnd t) s = .next (runCloses t (retire t p.blk.owner.num p.blk.job p.cid p.word.toNat false
          (bankEvents t (undefine t (foreign t p.blk.owner p.afSpans s ++ p.hit) s3)))))

/-- What the machine is before power-good. Before power-good the device is unpowered: nothing runs, no job and no tile is known, the debug
level and the lifecycle are those of an erased NVM, no command waits, and the idle step changes nothing. That the time starts at 0 is the
model's choice (log entry 1). -/
def Obligations.ResetState : Prop :=
  State.reset.dawn.powered = false ∧ State.reset.live = false ∧ State.reset.pending = [] ∧ State.reset.jobs = [] ∧ State.reset.tiles = [] ∧
    State.reset.now = 0 ∧ step State.reset = .next State.reset

/-- A device that is unpowered, shut down or in FATAL runs no work. While the device is not live (unpowered, powered down, shut down by
temperature, or after a FATAL fault), no well-formed tile instruction, walker instruction, queue command or message changes anything at
all. -/
def Obligations.DeadDeviceRunsNoCommand : Prop :=
  ∀ (i : Instr) (s : State), s.live = false → WellFormed i = true →
    (tileAt i).isSome = true ∨ (walkAt i).isSome = true ∨ i.msgRow.isSome = true ∨
      (∃ q : Fin 128, i ∈ [.map q, .unmap q, .htierAdd q, .htierRemove q, .handback q, .adopt q, .tblCreate q, .tblStage q, .tblPublish q,
        .tblDestroy q, .denseCreate q, .jobAdmit q, .jobEnd q, .ctxSwitch q, .suspend q, .resume q, .cancel q, .dataIn q, .copy q, .exportSet q,
        .keepRegion q, .exportBase q, .restore q, .rankMove q, .selftest q, .tileRun q, .walk q, .pwrState q, .pwrLimits q, .attest q,
        .sessionOpen q, .keyRegister q, .presRequest q, .debugLock q, .certInstall q]) →
      exec i s = .next s

/-- The table gives no row bits: no word spells a command. The command table's rows carry no encoding fields, so the host's word reader
answers none, and placing a word changes nothing. -/
def Obligations.NoWordSpellsACommand : Prop :=
  ∀ (n w : Nat) (s : State), decodeTableWord n w = none ∧ s.withFetchWord n w = s

/-- The alive check: the expected value counts up, a duplicate and any other value set their bits. Of every unit the host writes (128 to 143;
a host write to a queue unit is discarded, HostWritesToQueueUnits): a write joins the unit's stream of writes, of which 32 wait and of which
a full one loses its oldest to the unit first (log entry 115); when the unit takes it, with A the expected value, a write of A passes and A
becomes A + 1 modulo 256; a write of A − 1 modulo 256 sets STAT.ADUP; any other sets STAT.AFAIL; in both A stays, and ARST sets A to 0. A
read of CHK_ALIVE returns the A of the unit that has taken every write before it. Nothing of a CRC message changes. -/
def Obligations.AliveCheckCountsUp : Prop :=
  ∀ (u : Fin 144) (v : Word32) (A : Nat) (s t : State), 128 ≤ u.val →
    (s.served = true → t = (if 32 ≤ (s.chkUnit u).stream.length then takeChk u s else s) →
      exec (.chkAlive u v) s = .next (updChk u (fun c => { c with stream := c.stream ++ [⟨0x58, false, false, v.toNat⟩] }) t) ∧
      exec (.chkArst u) s = .next (updChk u (fun c => { c with stream := c.stream ++ [⟨0x04, false, false, 4⟩] }) t)) ∧
    (∀ r, A = (s.chkUnit u).alive → (s.chkUnit u).stream = ⟨0x58, false, false, v.toNat⟩ :: r →
      (v.toNat % 256 = A → takeChk u s = updChk u (fun c => { c with stream := r, spent := 0, alive := (A + 1) % 256 }) s) ∧
      (v.toNat % 256 = (A + 255) % 256 → v.toNat % 256 ≠ A →
        takeChk u s = updChk u (fun c => { c with stream := r, spent := 0, stat := c.stat ||| 8 }) s) ∧
      (v.toNat % 256 ≠ (A + 255) % 256 → v.toNat % 256 ≠ A →
        takeChk u s = updChk u (fun c => { c with stream := r, spent := 0, stat := c.stat ||| 16 }) s)) ∧
    (∀ r, (s.chkUnit u).stream = ⟨0x04, false, false, 4⟩ :: r →
      takeChk u s = updChk u (fun c => { c with stream := r, spent := 0, alive := 0 }) s) ∧
    (s.served = true → t = drainChk u s → t.served = true → A = (t.chkUnit u).alive →
      exec (.regReadClear (Reg.CHK_ALIVE u) false) s = .next { t with resp := .data (A % 2 ^ 32) })

/-- START, data in either order, CLOSE, and the order of the bytes. Of every unit the host writes: a write joins the unit's stream of writes,
of which 32 wait and of which a full one loses its oldest to the unit first (log entry 115), and writes are taken in that order. When the
unit takes it, START latches the configuration and opens the message; a data write of 1, 2, 4 or 8 bytes feeds them least significant first
with ORDER 0 and most significant first with ORDER 1; CLOSE of an open message holds the result, compares it with EXPECT in the low WIDTH
bits and closes. -/
def Obligations.CheckUnitsTakeMessages : Prop :=
  ∀ (u : Fin 144) (v : Word32) (x : Word64) (s t : State) (put : ChkReq → Out), 128 ≤ u.val →
    (s.served = true → t = (if 32 ≤ (s.chkUnit u).stream.length then takeChk u s else s) →
      (∀ w, put w = .next (updChk u (fun c => { c with stream := c.stream ++ [w] }) t)) →
      exec (.chkStart u) s = put ⟨0x04, false, false, 1⟩ ∧ exec (.chkClose u) s = put ⟨0x04, false, false, 2⟩ ∧
      exec (.chkDin8 u v) s = put ⟨0x28, false, false, v.toNat⟩ ∧ exec (.chkDin16 u v) s = put ⟨0x2C, false, false, v.toNat⟩ ∧
      exec (.chkDin32 u v) s = put ⟨0x30, false, false, v.toNat⟩ ∧ exec (.chkDin64 u x) s = put ⟨0x38, true, false, x.toNat⟩) ∧
    (∀ (w : ChkReq) (r : List ChkReq) (fed : List Byte → State), (s.chkUnit u).stream = w :: r →
      (∀ bs, fed bs = updChk u (fun c => ({ c with stream := r, spent := 0 } : ChkUnit).feed bs) s) →
      (w = ⟨0x04, false, false, 1⟩ → takeChk u s = updChk u (fun c => { c with
        stream := r, spent := 0, lcfg := c.cfg, lpoly := c.poly, linit := c.inival, llen := c.len, reg := c.inival % 2 ^ (c.cfg % 128), count := 0, isOpen := true }) s) ∧
      (bitOf (s.chkUnit u).lcfg 10 = false →
        (w = ⟨0x28, false, false, v.toNat⟩ → takeChk u s = fed [BitVec.ofNat 8 v.toNat]) ∧
        (w = ⟨0x2C, false, false, v.toNat⟩ → takeChk u s = fed [v.extractLsb' 0 8, v.extractLsb' 8 8]) ∧
        (w = ⟨0x30, false, false, v.toNat⟩ → takeChk u s = fed [v.extractLsb' 0 8, v.extractLsb' 8 8, v.extractLsb' 16 8, v.extractLsb' 24 8]) ∧
        (w = ⟨0x38, true, false, x.toNat⟩ → takeChk u s = fed [x.extractLsb' 0 8, x.extractLsb' 8 8, x.extractLsb' 16 8, x.extractLsb' 24 8,
          x.extractLsb' 32 8, x.extractLsb' 40 8, x.extractLsb' 48 8, x.extractLsb' 56 8])) ∧
      (bitOf (s.chkUnit u).lcfg 10 = true →
        (w = ⟨0x28, false, false, v.toNat⟩ → takeChk u s = fed [BitVec.ofNat 8 v.toNat]) ∧
        (w = ⟨0x2C, false, false, v.toNat⟩ → takeChk u s = fed [v.extractLsb' 8 8, v.extractLsb' 0 8]) ∧
        (w = ⟨0x30, false, false, v.toNat⟩ → takeChk u s = fed [v.extractLsb' 24 8, v.extractLsb' 16 8, v.extractLsb' 8 8, v.extractLsb' 0 8]) ∧
        (w = ⟨0x38, true, false, x.toNat⟩ → takeChk u s = fed [x.extractLsb' 56 8, x.extractLsb' 48 8, x.extractLsb' 40 8, x.extractLsb' 32 8,
          x.extractLsb' 24 8, x.extractLsb' 16 8, x.extractLsb' 8 8, x.extractLsb' 0 8])) ∧
      (∀ e, w = ⟨0x04, false, false, 2⟩ → (s.chkUnit u).isOpen = true → e = crcEnd (s.chkUnit u).spec (s.chkUnit u).reg →
        takeChk u s = updChk u (fun c => { c with
          stream := r, spent := 0, result := e, isOpen := false, stat := c.stat ||| (if e = c.expect % 2 ^ (c.lcfg % 128) then 1 else 2) }) s))

/-- A host write to a check unit of a queue is discarded and counted. Of every unit 0 to 127 each command that writes it changes nothing but
the saturating count CHK_DROP. -/
def Obligations.HostWritesToQueueUnits : Prop :=
  ∀ (i : Instr) (u : Fin 144) (v : Word32) (x : Word64) (s : State), s.served = true → u.val < 128 →
    i ∈ [.chkStart u, .chkClose u, .chkArst u, .chkDin8 u v, .chkDin16 u v, .chkDin32 u v, .chkDin64 u x, .chkAlive u v] →
      exec i s = .next (count Reg.CHK_DROP 32 1 s)

/-- Register accesses, the fault ring's registers and the sideband. A naturally aligned read answers the word, after a check unit has taken
the writes before it where it reads one; a write acts by the register's access codes; FLT_RCFG enables the ring at its size and FLT_RHEAD
moves its head; the sideband target answers the status block, acknowledges writes and takes, gives up and enables as its commands say, its
identification words being free values. -/
def Obligations.RegisterAndSidebandAccess : Prop :=
  ∀ s : State, s.answers = true →
    (∀ off, off % 4 = 0 → off < 0x400000 → exec (.regReadClear off false) s = .next (answer (read32 off (chkFirst off s))) ∧
      exec (.regReadLowHalf off) s = .next (answer (read32 off (chkFirst off s)))) ∧
    (∀ off, off % 8 = 0 → off < 0x400000 → exec (.regReadClear off true) s = .next (answer (read64 off (chkFirst (off + 4) (chkFirst off s))))) ∧
    (∀ off v, off % 4 = 0 → off < 0x400000 → exec (.registerWrite off false v) s = .next (write32 off (v.toNat % 2 ^ 32) s)) ∧
    (∀ off v, off % 8 = 0 → off < 0x400000 → exec (.registerWrite off true v) s = .next (write64 off v.toNat s)) ∧
    (∀ v : Word32, wordServed s Reg.FLT_RCFG = true → s.flt.ringEn = false → bitOf v.toNat 0 = true → exec (.fltRcfg v) s = .next
      { s with flt := { s.flt with ringEn := true, log2 := clampNat 8 16 (bits v.toNat 5 1), tail := 0, head := 0 } }) ∧
    (∀ v : Word32, wordServed s Reg.FLT_RHEAD = true → exec (.fltRhead v) s = .next
      { s with flt := { s.flt with head := s.flt.head + (v.toNat % 65536 + 65536 - s.flt.head % 65536) % 65536 } }) ∧
    (∀ n, exec (.i3cPrivateRead n) s = .next { s with i3c := { s.i3c with answer := slice (statusBlock s) 0 n, acked := true } }) ∧
    (∀ d, exec (.i3cPrivateWrite d) s = .next { s with i3c := { s.i3c with acked := true } }) ∧
    (∀ a : BitVec 7, s.i3c.dyn = none → exec (.setdasa a) s = .next { s with i3c := { s.i3c with dyn := some a.toNat, acked := true } } ∧
      exec (.entdaa a) s = .next { s with i3c := { s.i3c with dyn := some a.toNat, acked := true } }) ∧
    exec .rstdaa s = .next { s with i3c := { s.i3c with dyn := none, acked := true } } ∧
    exec .getpid s = .next (openBytes 6 s) ∧ exec .getbcr s = .next (openBytes 1 s) ∧ exec .getdcr s = .next (openBytes 1 s) ∧
    exec .getstatus s = .next (openBytes 2 s) ∧
    exec .enec s = .next { s with i3c := { s.i3c with ibiOn := true, acked := true } } ∧
    exec .disec s = .next { s with i3c := { s.i3c with ibiOn := false, acked := true } }

/-- A unit's idle draws go back, and the memory's upkeep moves on. Of every unit whose draws a row returns (a channel group or its adder, the
CXL line engine, the refresh engine, a table engine's unit, a dense unit, a link, the exporter): 800 cc after its last work, with none of
its work waiting, the row is carried out, after which the unit holds no draws and every other reservation still stands. A write-back and
a tag refresh leave their queues and the patrol scrub moves on by a sector, on a channel that neither refreshes nor retrains; a good retraining step clears the channel's failed steps and is
the stack's step of this slice; a temperature is noted; the controller's own timer counts a refresh; the age stamp advances modulo 8. -/
def Obligations.UpkeepEventsAct : Prop :=
  (∀ (i : Instr) (o : Owner) (last : State → Nat) (idle : State → Bool) (s u : State),
    (∃ (g : Fin 64) (a : Bool), i = .channelGroupDrawReturn g a ∧ o = (if a then .memAdder g else .memGroup g) ∧ last = groupUse g a ∧
        idle = groupIdle g a) ∨
      (i = .lineEngineDrawReturn ∧ o = .lineEngine ∧ last = (fun s => Tbl.look s.stk.use 8192 0) ∧
        idle = fun s => s.live && holds .lineEngine s) ∨
      (i = .refreshEngineDrawReturn ∧ o = .refresh ∧ last = (fun s => Tbl.look s.stk.use 8195 0) ∧
        idle = fun s => s.live && holds .refresh s && decide (s.emb.roundOut = [])) ∨
      (∃ k : Fin 6, i = .tableEngineDrawReturn k ∧ o = .tableEngine k ∧ last = (fun s => Tbl.look s.stk.use (8220 + k.val) 0) ∧
        idle = fun s => s.clocked && holds (.tableEngine k) s && !engineBusy s k) ∨
      (∃ k : Fin 3, i = .reductionDrawReturn k ∧ o = .reduction k ∧ last = (fun s => Tbl.look s.stk.use (8200 + k.val) 0) ∧
        idle = fun s => s.clocked && holds (.reduction k) s && !reductionBusy s k) ∨
      (∃ k : Fin 32, i = .linkTxDrawReturn k ∧ o = .link k ∧ last = (fun s => linkSentAt s k) ∧
        idle = fun s => s.live && holds (.link k) s && linkQuiet s k) ∨
      (i = .exporterDrawReturn ∧ o = .exporter ∧ last = (fun s => s.dlx.sentAt) ∧
        idle = fun s => s.live && holds .exporter s) →
    idle s = true → u = runUntil (last s + 64000) s → idle u = true → last u + 64000 ≤ u.now → asking o u = false →
      ∃ t, exec i s = .next t ∧ holds o t = false ∧ ∀ o', o' ≠ o → holds o' u = true → holds o' t = true) ∧
  (∀ (c : Fin 2048) (sec : Nat) (r : List Nat) (e : Ecc) (s : State), stacksUp s = true →
    (chanBusy s c = false → (s.chan c).wbq = sec :: r → ∃ t, exec (.ceWriteback c) s = .next t ∧ (t.chan c).wbq = r) ∧
    (chanBusy s c = false → (s.chan c).tagq = sec :: r → ∃ t, exec (.tagRefresh c) s = .next t ∧ (t.chan c).tagq = r ∧ ageOf t sec = s.urng.stamp) ∧
    (chanBusy s c = false → (s.chan c).failed = false → ∃ t, exec (.patrolScrub c e) s = .next t ∧ (t.chan c).scrub = ((s.chan c).scrub + 1) % chanSectors) ∧
    (s.dawn.outcome = 0 → s.clk.lock = .acquiring → ∃ t, exec (.dawnChannelRefresh c) s = .next t ∧
      (t.chan c).refresh = ((s.chan c).refresh + 1) % 512)) ∧
  (∀ (c : Fin 2048) (s u : State), s.framed = true → retrainDue c s = true → u = runUntil (s.atPos (stepStart s (c.val / 256) + 2400)) s →
    u.framed = true → retrainDue c u = true →
      ∃ t, exec (.retrainStep c true) s = .next t ∧ (t.chan c).failRun = 0 ∧ t.stk.stepped.contains (c.val / 256) = true) ∧
  (∀ (k : Fin 8) (v : BitVec 8) (s : State), s.live = true → ∃ t, exec (.stackTempSample k v) s = .next t ∧ (t.stack k).temp = v.toNat) ∧
  (∀ s : State, s.clocked = true → s.clk.stepsDone = true → s.clk.fnum % s.urng.period = 0 → s.urng.stampAt ≠ some s.clk.fnum →
    ∃ t, exec .stampAdvance s = .next t ∧ t.urng.stamp = (s.urng.stamp + 1) % 8)
end

