-- ==== Sys2Proof/Laws/Memory.lean ====
section
/-! SUPPORT. The laws of tables and memories: every operation on them keeps their canonical form. -/

namespace Sys2Proof

/-! memories -/
theorem Tbl.put_mem {α : Type} (t : Tbl α) (k : Nat) (v : α) (p : Nat × α) (h : p ∈ Tbl.put t k v) : p = (k, v) ∨ p ∈ t := by
  induction t with
  | nil => simp [Tbl.put] at h; exact .inl h
  | cons q r ih =>
    obtain ⟨i, w⟩ := q
    unfold Tbl.put at h
    split at h
    · simp only [List.mem_cons] at h ⊢; tauto
    · split at h
      · simp only [List.mem_cons] at h ⊢; tauto
      · simp only [List.mem_cons] at h ⊢
        rcases h with h | h
        · tauto
        · rcases ih h with h | h <;> tauto

/-- What `Tbl.wf` says of the head. -/
theorem Tbl.wf_cons {α : Type} (i : Nat) (v : α) (r : Tbl α) :
    Tbl.wf ((i, v) :: r) = true ↔ Tbl.wf r = true ∧ ∀ p ∈ r, i < p.1 := by
  induction r generalizing i v with
  | nil => simp [Tbl.wf]
  | cons q r ih =>
    obtain ⟨j, w⟩ := q
    simp only [Tbl.wf, Bool.and_eq_true, decide_eq_true_eq]
    constructor
    · rintro ⟨h1, h2⟩
      refine ⟨h2, ?_⟩
      intro p hp
      rcases List.mem_cons.1 hp with rfl | hp
      · exact h1
      · exact Nat.lt_trans h1 ((ih j w).1 h2 |>.2 p hp)
    · rintro ⟨h1, h2⟩
      exact ⟨h2 (j, w) (List.mem_cons_self ..), h1⟩

theorem Tbl.wf_put {α : Type} (t : Tbl α) (k : Nat) (v : α) (h : t.wf = true) : (Tbl.put t k v).wf = true := by
  induction t with
  | nil => rfl
  | cons q r ih =>
    obtain ⟨i, w⟩ := q
    rw [Tbl.wf_cons] at h
    unfold Tbl.put
    split
    · next hk =>
      rw [Tbl.wf_cons, Tbl.wf_cons]
      refine ⟨h, ?_⟩
      intro p hp
      rcases List.mem_cons.1 hp with rfl | hp
      · exact hk
      · exact Nat.lt_trans hk (h.2 p hp)
    · split
      · next hk =>
        subst hk
        rw [Tbl.wf_cons]; exact h
      · rw [Tbl.wf_cons]
        refine ⟨ih h.1, ?_⟩
        intro p hp
        rcases Tbl.put_mem _ _ _ _ hp with rfl | hp
        · simp only; omega
        · exact h.2 p hp

theorem Tbl.wf_sublist {α : Type} {t u : Tbl α} (hs : List.Sublist u t) (h : t.wf = true) : u.wf = true := by
  induction hs with
  | slnil => rfl
  | cons q hs ih => exact ih ((Tbl.wf_cons q.1 q.2 _).1 h).1
  | cons_cons q hs ih =>
    rename_i l1 l2
    have := (Tbl.wf_cons q.1 q.2 _).1 h
    exact (Tbl.wf_cons q.1 q.2 _).2 ⟨ih this.1, fun p hp => this.2 p (hs.subset hp)⟩

theorem Tbl.del_sublist {α : Type} (t : Tbl α) (k : Nat) : List.Sublist (Tbl.del t k) t := by
  induction t with
  | nil => exact List.Sublist.slnil
  | cons q r ih =>
    obtain ⟨i, w⟩ := q
    unfold Tbl.del
    split
    · exact ih.cons _
    · split
      · exact List.Sublist.refl _
      · exact ih.cons_cons _

theorem Tbl.wf_mapv {α β : Type} (t : Tbl α) (f : Nat → α → β) : (Tbl.mapv t f).wf = t.wf := by
  induction t with
  | nil => rfl
  | cons q r ih =>
    obtain ⟨i, w⟩ := q
    cases r with
    | nil => rfl
    | cons q' r =>
      obtain ⟨j, w'⟩ := q'
      simp only [Tbl.mapv, List.map_cons, Tbl.wf] at ih ⊢
      rw [ih]

theorem Mem.wf_iff (m : Mem) (d : Byte) : Mem.wf m d = true ↔ Tbl.wf m = true ∧ ∀ c ∈ m, c.2 ≠ d := by
  simp [Mem.wf]

theorem Mem.wf_set (m : Mem) (d : Byte) (a : Nat) (v : Byte) (h : m.wf d = true) : (Mem.set m d a v).wf d = true := by
  rw [Mem.wf_iff] at h ⊢
  unfold Mem.set
  split
  · exact ⟨Tbl.wf_sublist (Tbl.del_sublist _ _) h.1, fun c hc => h.2 c ((Tbl.del_sublist _ _).subset hc)⟩
  · next hv =>
    refine ⟨Tbl.wf_put _ _ _ h.1, fun c hc => ?_⟩
    rcases Tbl.put_mem _ _ _ _ hc with rfl | hc
    · exact hv
    · exact h.2 c hc

theorem Mem.wf_sets (m : Mem) (d : Byte) (a : Nat) (bs : Bytes) (h : m.wf d = true) : (Mem.sets m d a bs).wf d = true := by
  induction bs generalizing m a with
  | nil => exact h
  | cons b r ih => exact ih _ _ (Mem.wf_set _ _ _ _ h)

theorem Mem.wf_filter (m : Mem) (d : Byte) (f : Host.Cell → Bool) (h : m.wf d = true) : Mem.wf (m.filter f) d = true := by
  rw [Mem.wf_iff] at h ⊢
  exact ⟨Tbl.wf_sublist List.filter_sublist h.1, fun c hc => h.2 c (List.mem_filter.1 hc).1⟩


theorem Tbl.look?_mem {α : Type} (t : Tbl α) (k : Nat) (v : α) (h : Tbl.look? t k = some v) : (k, v) ∈ t := by
  induction t with
  | nil => simp [Tbl.look?] at h
  | cons q r ih =>
    obtain ⟨i, w⟩ := q
    unfold Tbl.look? at h
    split at h
    · next e => subst e; cases h; exact List.mem_cons_self ..
    · split at h
      · cases h
      · exact List.mem_cons_of_mem _ (ih h)

theorem Tbl.wf_foldl_put {α β : Type} (l : List β) (k : β → Nat) (v : β → α) (t : Tbl α) (h : t.wf = true) :
    (l.foldl (fun m i => Tbl.put m (k i) (v i)) t).wf = true := by
  induction l generalizing t with
  | nil => exact h
  | cons x r ih => exact ih _ (Tbl.wf_put _ _ _ h)

/-- A property of every entry of a table. -/
theorem Tbl.all_put {α : Type} {P : α → Prop} {t : Tbl α} {k : Nat} {v : α} (h : ∀ p ∈ t, P p.2) (hv : P v) : ∀ p ∈ Tbl.put t k v, P p.2 := by
  intro p hp
  rcases Tbl.put_mem _ _ _ _ hp with rfl | hp
  · exact hv
  · exact h p hp

theorem Tbl.all_del {α : Type} {P : α → Prop} {t : Tbl α} {k : Nat} (h : ∀ p ∈ t, P p.2) : ∀ p ∈ Tbl.del t k, P p.2 :=
  fun p hp => h p ((Tbl.del_sublist _ _).subset hp)

theorem Tbl.all_filter {α : Type} {P : α → Prop} {t : Tbl α} {f : Nat × α → Bool} (h : ∀ p ∈ t, P p.2) : ∀ p ∈ List.filter f t, P p.2 :=
  fun p hp => h p (List.mem_filter.1 hp).1

theorem Tbl.all_mapv {α β : Type} {P : α → Prop} {Q : β → Prop} {t : Tbl α} {f : Nat → α → β} (h : ∀ p ∈ t, P p.2) (hf : ∀ k x, P x → Q (f k x)) :
    ∀ p ∈ Tbl.mapv t f, Q p.2 := by
  intro p hp
  obtain ⟨q, hq, rfl⟩ := List.mem_map.1 hp
  exact hf _ _ (h q hq)

theorem Tbl.all_look {α : Type} {P : α → Prop} {t : Tbl α} {k : Nat} {d : α} (h : ∀ p ∈ t, P p.2) (hd : P d) : P (Tbl.look t k d) := by
  unfold Tbl.look
  split
  · next v e => exact h (k, v) (Tbl.look?_mem _ _ _ e)
  · exact hd

theorem Tbl.all_upd {α : Type} {P : α → Prop} {t : Tbl α} {k : Nat} {f : α → α} (h : ∀ p ∈ t, P p.2) (hf : ∀ x, P x → P (f x)) :
    ∀ p ∈ Tbl.upd t k f, P p.2 := by
  unfold Tbl.upd
  split
  · next v e => exact Tbl.all_put h (hf _ (h (k, v) (Tbl.look?_mem _ _ _ e)))
  · exact h

end Sys2Proof
end

