-- ==== Sys2Proof/Laws/Keeps.lean ====
section
/-! SUPPORT. What every operation of the device keeps: the queue of commands as it is, the time not turned back, and every
memory in canonical form. `Keeps s t` says so of a state `t` reached from `s`, and the rules below build it. -/

namespace Sys2Proof.Machine

/-- What leads from `s` to `t` leaves the queue, does not turn time back and keeps every memory canonical. -/
structure Keeps (s t : State) : Prop where
  pending : t.pending = s.pending
  now     : s.now ≤ t.now
  mems    : s.MemsOk → t.MemsOk

theorem Keeps.refl (s : State) : Keeps s s := ⟨rfl, Nat.le_refl _, id⟩

/-- The outcome is not a next state that fails to keep. -/
structure OutKeeps (s : State) (o : Out) : Prop where
  keeps : ∀ t, o = .next t → Keeps s t

theorem OutKeeps.next {s t : State} (h : Keeps s t) : OutKeeps s (.next t) := ⟨fun _ e => by cases e; exact h⟩
theorem OutKeeps.fault {s : State} {f : Fault} : OutKeeps s (.fault f) := ⟨fun _ e => by cases e⟩

theorem Keeps.snd {α : Type} {s t : State} {p : α × State} {x : α} (e : p = (x, t)) (h : Keeps s p.2) : Keeps s t := by subst e; exact h
theorem Keeps.snd2 {α β : Type} {s t : State} {p : α × β × State} {x : α} {y : β} (e : p = (x, y, t)) (h : Keeps s p.2.2) : Keeps s t := by
  subst e; exact h

theorem Keeps.foldl {α : Type} {s0 s : State} {l : List α} {f : State → α → State} (h : Keeps s0 s)
    (hf : ∀ s x, Keeps s0 s → Keeps s0 (f s x)) : Keeps s0 (l.foldl f s) := by
  induction l generalizing s with
  | nil => exact h
  | cons x r ih => exact ih (hf _ _ h)

theorem Keeps.foldl2 {α β : Type} {s0 : State} {a : β × State} {l : List α} {f : β × State → α → β × State} (h : Keeps s0 a.2)
    (hf : ∀ a x, Keeps s0 a.2 → Keeps s0 (f a x).2) : Keeps s0 (l.foldl f a).2 := by
  induction l generalizing a with
  | nil => exact h
  | cons x r ih => exact ih (hf _ _ h)

theorem Keeps.foldl3 {α β γ : Type} {s0 : State} {a : β × γ × State} {l : List α} {f : β × γ × State → α → β × γ × State} (h : Keeps s0 a.2.2)
    (hf : ∀ a x, Keeps s0 a.2.2 → Keeps s0 (f a x).2.2) : Keeps s0 (l.foldl f a).2.2 := by
  induction l generalizing a with
  | nil => exact h
  | cons x r ih => exact ih (hf _ _ h)


theorem Keeps.foldlP {α β γ : Type} {s0 : State} {a : β × γ × State} {l : List α} {f : β × γ × State → α → β × γ × State} (h : Keeps s0 a.2.2)
    (hf : ∀ a x, Keeps s0 a.2.2 → Keeps s0 (f a x).2.2) : Keeps s0 (l.foldl f a).2.2 := Keeps.foldl3 h hf

theorem State.MemsOk.tile {s : State} (m : s.MemsOk) (t : Nat) : (s.tile t).Ok :=
  Tbl.all_look (P := Tile.Ok) m.tiles ⟨rfl⟩

theorem State.MemsOk.walker {s : State} (m : s.MemsOk) (k : Nat) : (s.walker k).Ok :=
  Tbl.all_look (P := Walker.Ok) m.loc ⟨rfl⟩

theorem Tile.Ok.of {x y : Tile} (h : y.Ok) (e : x.sram = y.sram) : x.Ok := ⟨e ▸ h.sram⟩
theorem Walker.Ok.of {x y : Walker} (h : y.Ok) (e : x.loc = y.loc) : x.Ok := ⟨e ▸ h.loc⟩

theorem Tile.Ok.mk' {t : Tile} {width phys die spare osBanks bypass poison seqs sems semWait shadow active swapWait passes closes dmas defq defRun defNo lmarks chain parked} (h : t.Ok) : Tile.Ok (Tile.mk width phys die spare osBanks bypass t.sram poison seqs sems semWait shadow active swapWait passes closes dmas defq defRun defNo lmarks chain parked) := ⟨h.sram⟩
theorem Walker.Ok.mk' {t : Walker} {regs sb pc active bound ended halted xfers waitH waitD} (h : t.Ok) : Walker.Ok (Walker.mk regs sb t.loc pc active bound ended halted xfers waitH waitD) := ⟨h.loc⟩

theorem Tile.setSeq_ok {x : Tile} (h : x.Ok) (k : Nat) (q : Seq) : (x.setSeq k q).Ok := h.of rfl
theorem Tile.release_ok {x : Tile} (h : x.Ok) (k st : Nat) : (x.release k st).Ok := h.of rfl
theorem Tile.write_ok {x : Tile} (h : x.Ok) (a : Nat) (bs : Bytes) (p : Bool) : (x.write a bs p).Ok := ⟨Mem.wf_sets _ _ _ _ h.sram⟩
theorem Tile.clear_ok {x : Tile} (h : x.Ok) (p : Part) : (x.clear p).Ok := ⟨Mem.wf_filter _ _ _ h.sram⟩
theorem Tile.setOwned_ok {x : Tile} (h : x.Ok) (o : Stream) (b : Option (BitVec 128 × Nat)) (r : Bool) : (x.setOwned o b r).Ok := by
  unfold Tile.setOwned; split <;> exact h.of rfl
theorem Tile.evict_ok {x : Tile} (h : x.Ok) (b : Option WBlock) : (x.evict b).Ok := by
  unfold Tile.evict; split
  · exact Tile.setOwned_ok h _ _ _
  · exact h

theorem foldl_ind {α β : Type} {P : β → Prop} {l : List α} {f : β → α → β} {b : β} (h : P b) (hf : ∀ b x, P b → P (f b x)) : P (l.foldl f b) := by
  induction l generalizing b with
  | nil => exact h
  | cons x r ih => exact ih (hf _ _ h)

theorem passApply_ok {x : Tile} (h : x.Ok) (p : Pass) : (passApply x p).1.Ok := by
  unfold passApply
  refine foldl_ind (P := fun a : Tile × Nat => a.1.Ok) h fun a i ha => ?_
  refine foldl_ind (P := fun a : Tile × Nat => a.1.Ok) ha fun a c ha => ?_
  exact Tile.write_ok ha _ _ _

theorem closeRows_ok {x : Tile} (h : x.Ok) (t : Nat) (c : Close) (j : Job) : (closeRows t c x j).1.Ok := by
  unfold closeRows
  refine foldl_ind (P := fun a : Tile × Job × Nat => a.1.Ok) h fun a i ha => ?_
  dsimp only
  split
  · exact Tile.write_ok ha _ _ _
  · exact Tile.write_ok (Tile.write_ok ha _ _ _) _ _ _

theorem putSeqWord_ok {x y : Tile} (h : x.Ok) (k w v : Nat) (e : putSeqWord k w v x = some y) : y.Ok := by
  unfold putSeqWord at e
  dsimp only at e
  repeat' split at e
  all_goals first | contradiction | (cases e; exact h.of rfl)

theorem Walker.setReg_ok {w : Walker} (h : w.Ok) (i v : Nat) : (w.setReg i v).Ok := by
  unfold Walker.setReg; split
  · exact h
  · exact h.of rfl

theorem putWalkWord_ok {x y : Walker} (h : x.Ok) (w v : Nat) (e : putWalkWord w v x = some y) : y.Ok := by
  unfold putWalkWord at e
  repeat' split at e
  · cases e; exact h.of rfl
  · cases e; exact Walker.setReg_ok h _ _
  · cases e; exact h.of rfl
  · cases e; exact ⟨Mem.wf_sets _ _ _ _ h.loc⟩
  · contradiction

/-! chains: only stores change the tile -/

theorem chainRead_x (x0 : Tile) (a n : Nat) (s : VSt) : (chainRead x0 a n s).2.x = s.x := by
  unfold chainRead; dsimp only; split <;> rfl
theorem widen_x (t l : Nat) (r : Strm) (bs : Bytes) (s : VSt) : (widen t l r bs s).2.x = s.x := by
  unfold widen; split <;> rfl
theorem elemBytes_x (x0 : Tile) (r : Strm) (a i : Nat) (s : VSt) : (elemBytes x0 r a i s).2.x = s.x := by
  unfold elemBytes; split
  · exact chainRead_x _ _ _ _
  · exact chainRead_x _ _ _ _
theorem loadStream_x (t : Nat) (x0 : Tile) (c : Chain) (v : Nat) (r : Strm) (s : VSt) : (loadStream t x0 c v r s).2.x = s.x := by
  unfold loadStream
  dsimp only
  refine foldl_ind (P := fun a : List Nat × VSt => a.2.x = s.x) rfl fun a i ha => ?_
  exact (widen_x ..).trans ((elemBytes_x ..).trans ha)
/-- The state a lane, a stage or a gather ends with. -/
def laneSt {α : Type} : Except (Nat × VSt) (α × Bool × VSt) → VSt
  | .ok r => r.2.2
  | .error e => e.2

theorem gatherLane_x (t : Nat) (x0 : Tile) (p : Part) (c : Chain) (g : Stage) (a : Nat) (s : VSt) :
    (laneSt (gatherLane t x0 p c g a s)).x = s.x := by
  unfold gatherLane
  dsimp only
  repeat' split
  all_goals first | rfl | exact (widen_x ..).trans (chainRead_x ..)
theorem gatherAll_x (t : Nat) (x0 : Tile) (p : Part) (c : Chain) (g : Stage) (as : List Nat) (s : VSt) :
    (laneSt (gatherAll t x0 p c g as s)).x = s.x := by
  induction as generalizing s with
  | nil => rfl
  | cons a r ih =>
    have h1 := gatherLane_x t x0 p c g a s
    unfold gatherAll
    split
    · next e => rw [e] at h1; exact h1
    · next s1 e =>
      rw [e] at h1
      have h2 := ih s1
      split
      · next e2 => rw [e2] at h2; exact h2.trans h1
      · next e2 => rw [e2] at h2; exact h2.trans h1
theorem stageResult_x (t : Nat) (x0 : Tile) (p : Part) (c : Chain) (v : Nat) (g : Stage) (regs : List (List Nat)) (s : VSt) :
    (laneSt (stageResult t x0 p c v g regs s)).x = s.x := by
  unfold stageResult
  dsimp only
  split
  · exact gatherAll_x _ _ _ _ _ _ _
  · split
    · rfl
    · refine foldl_ind (P := fun a : List Nat × VSt => a.2.x = s.x) rfl fun a i ha => ?_
      exact ha
theorem runStage_x (t : Nat) (x0 : Tile) (p : Part) (c : Chain) (v : Nat) (g : Stage) (regs : List (List Nat)) (s : VSt) :
    (laneSt (runStage t x0 p c v g regs s)).x = s.x := by
  have h := stageResult_x t x0 p c v g regs s
  unfold runStage
  split
  · next e => rw [e] at h; exact h
  · next e => rw [e] at h; split <;> exact h

/-- The state a vector ends with. -/
def VRes.st : VRes → VSt
  | .ok s => s
  | .access _ _ s => s
  | .poison s => s

/-- The state a run of stages ends with. -/
def stagesSt : Except VRes (List (List Nat) × VSt) → VSt
  | .ok r => r.2
  | .error r => r.st

theorem runStages_x (t : Nat) (x0 : Tile) (p : Part) (c : Chain) (v k : Nat) (gs : List Stage) (regs : List (List Nat)) (s : VSt) :
    (stagesSt (runStages t x0 p c v k gs regs s)).x = s.x := by
  induction gs generalizing k regs s with
  | nil => rfl
  | cons g r ih =>
    have h := runStage_x t x0 p c v g regs s
    unfold runStages
    split
    · next e => rw [e] at h; exact h
    · next e => rw [e] at h; exact h
    · next e => rw [e] at h; exact (ih _ _ _).trans h
theorem storeStream_ok (t : Nat) (c : Chain) (v : Nat) (r : Strm) (w : List Nat) (s : VSt) (h : s.x.Ok) : (storeStream t c v r w s).x.Ok := by
  unfold storeStream
  dsimp only
  split
  · refine foldl_ind (P := fun a : VSt => a.x.Ok) h fun a i ha => ?_
    exact Tile.write_ok ha _ _ _
  · exact Tile.write_ok h _ _ _

theorem runVector_ok (t : Nat) (x0 : Tile) (p : Part) (c : Chain) (v : Nat) (s : VSt) (h : s.x.Ok) : (runVector t x0 p c v s).st.x.Ok := by
  unfold runVector
  dsimp only
  split
  · exact h
  · generalize hl : List.foldl _ _ (List.filter _ c.strms) = l
    have hx : l.2.x = s.x := by
      rw [← hl]
      refine foldl_ind (P := fun a : List (List Nat) × VSt => a.2.x = s.x) rfl fun a i ha => ?_
      exact (loadStream_x ..).trans ha
    have hs := runStages_x t x0 p c v 0 c.stages l.1 l.2
    split
    · next e => rw [e] at hs; exact h.of (congrArg Tile.sram (hs.trans hx))
    · next e =>
      rw [e] at hs
      refine foldl_ind (P := fun a : VSt => a.x.Ok) (h.of (congrArg Tile.sram (hs.trans hx))) fun a i ha => ?_
      exact storeStream_ok _ _ _ _ _ _ ha
theorem runVectors_ok (t : Nat) (x0 : Tile) (p : Part) (c : Chain) (v n : Nat) (s : VSt) (h : s.x.Ok) : (runVectors t x0 p c v n s).1.st.x.Ok := by
  induction n generalizing v s with
  | zero => exact h
  | succ n ih =>
    have hv := runVector_ok t x0 p c v s h
    unfold runVectors
    split
    · next e => rw [e] at hv; exact ih _ _ hv
    · exact hv


/-- The state an effect leaves behind. -/
def Eff.st (s : State) : Eff → State
  | .stall _ => s
  | .stop s1 => s1
  | .issued _ _ s1 => s1
def WEff.st : WEff → State
  | .stall s => s
  | .stop s => s
  | .next _ s => s
def Moved.st : Moved → State
  | .done s => s
  | .poison s => s
  | .access _ s => s

theorem Eff.kStall {s0 s : State} {f} (h : Keeps s0 s) : Keeps s0 (Eff.st s (Eff.stall f)) := h
theorem Eff.kStop {s0 s t : State} (h : Keeps s0 s) : Keeps s0 (Eff.st t (Eff.stop s)) := h
theorem Eff.kIssued {s0 s t : State} {b n} (h : Keeps s0 s) : Keeps s0 (Eff.st t (Eff.issued b n s)) := h
theorem WEff.kStall {s0 s : State} (h : Keeps s0 s) : Keeps s0 (WEff.stall s).st := h
theorem WEff.kStop {s0 s : State} (h : Keeps s0 s) : Keeps s0 (WEff.stop s).st := h
theorem WEff.kNext {s0 s : State} {n} (h : Keeps s0 s) : Keeps s0 (WEff.next n s).st := h
theorem Moved.kDone {s0 s : State} (h : Keeps s0 s) : Keeps s0 (Moved.done s).st := h
theorem Moved.kPoison {s0 s : State} (h : Keeps s0 s) : Keeps s0 (Moved.poison s).st := h
theorem Moved.kAccess {s0 s : State} {a} (h : Keeps s0 s) : Keeps s0 (Moved.access a s).st := h
theorem Keeps.effStop {s0 s : State} {r : Eff} {t} (e : r = .stop t) (h : Keeps s0 (r.st s)) : Keeps s0 t := by subst e; exact h
theorem Keeps.effIssued {s0 s : State} {r : Eff} {a b t} (e : r = .issued a b t) (h : Keeps s0 (r.st s)) : Keeps s0 t := by subst e; exact h
theorem Keeps.weffStall {s0 : State} {r : WEff} {t} (e : r = .stall t) (h : Keeps s0 r.st) : Keeps s0 t := by subst e; exact h
theorem Keeps.weffStop {s0 : State} {r : WEff} {t} (e : r = .stop t) (h : Keeps s0 r.st) : Keeps s0 t := by subst e; exact h
theorem Keeps.weffNext {s0 : State} {r : WEff} {a t} (e : r = .next a t) (h : Keeps s0 r.st) : Keeps s0 t := by subst e; exact h
theorem Keeps.movedDone {s0 : State} {r : Moved} {t} (e : r = .done t) (h : Keeps s0 r.st) : Keeps s0 t := by subst e; exact h
theorem Keeps.movedPoison {s0 : State} {r : Moved} {t} (e : r = .poison t) (h : Keeps s0 r.st) : Keeps s0 t := by subst e; exact h
theorem Keeps.movedAccess {s0 : State} {r : Moved} {a t} (e : r = .access a t) (h : Keeps s0 r.st) : Keeps s0 t := by subst e; exact h
theorem Keeps.ite {s0 a b : State} {c : Prop} [Decidable c] (ha : Keeps s0 a) (hb : Keeps s0 b) : Keeps s0 (if c then a else b) := by
  split
  · exact ha
  · exact hb

theorem OutKeeps.ite {s0 : State} {a b : Out} {c : Prop} [Decidable c] (ha : OutKeeps s0 a) (hb : OutKeeps s0 b) : OutKeeps s0 (if c then a else b) := by
  split
  · exact ha
  · exact hb

theorem Keeps.iter {s0 s : State} {n : Nat} {f : State → State} (h : Keeps s0 s) (hf : ∀ s, Keeps s0 s → Keeps s0 (f s)) : Keeps s0 (iter n f s) := by
  induction n generalizing s with
  | zero => exact h
  | succ n ih => exact ih (hf _ h)

end Sys2Proof.Machine
end

