-- ==== Sys2Proof/Laws/KeepsCore.lean ====
section
/-! SUPPORT. One lemma per function of the shared operations, the waiting commands, the check units and the host port: it keeps what `Keeps` names. -/

namespace Sys2Proof.Machine

theorem Keeps.mk' {s0 t : State} {held now trngCtr freeCtr nextCid regs latches resp msix hostMem link queues intake jobs clk units ledger power flt adnt nvm dawn dlx tiles stk urng emb lkp dtr zor chk fabric coreWords coreHalts savedSeqs savedClusters i3c pins upsets} (h : Keeps s0 t) (hn : t.now ≤ now)
    (hm : t.MemsOk → MemsOkOf hostMem intake fabric nvm adnt.sram stk urng dlx tiles lkp savedClusters) :
    Keeps s0 (State.mk t.pending held now trngCtr freeCtr nextCid regs latches resp msix hostMem link queues intake jobs clk units ledger power flt adnt nvm dawn dlx tiles stk urng emb lkp dtr zor chk fabric coreWords coreHalts savedSeqs savedClusters i3c pins upsets) :=
  ⟨h.pending, Nat.le_trans h.now hn, fun m => hm (h.mems m)⟩

theorem setReg_keeps {s0 s : State} (h : Keeps s0 s) : ∀ a1 a2, Keeps s0 (setReg a1 a2 s) := by
  intro a1 a2
  unfold setReg
  repeat' first
    | ((with_reducible apply Keeps.mk') <;> first | with_reducible assumption | with_reducible exact Nat.le_refl _ | with_reducible exact fun m => ⟨m.host, m.intake, m.fabric, m.nvm, m.sram, m.stk, m.owned, m.log, m.tiles, m.loc, m.saved⟩)

theorem orReg_keeps {s0 s : State} (h : Keeps s0 s) : ∀ a1 a2, Keeps s0 (orReg a1 a2 s) := by
  intro a1 a2
  unfold orReg
  repeat' first
    | with_reducible assumption
    | with_reducible apply setReg_keeps

theorem sendVector_keeps {s0 s : State} (h : Keeps s0 s) : ∀ a1, Keeps s0 (sendVector a1 s) := by
  intro a1
  unfold sendVector
  repeat' first
    | ((with_reducible apply Keeps.mk') <;> first | with_reducible assumption | with_reducible exact Nat.le_refl _ | with_reducible exact fun m => ⟨m.host, m.intake, m.fabric, m.nvm, m.sram, m.stk, m.owned, m.log, m.tiles, m.loc, m.saved⟩)
    | with_reducible refine Keeps.ite ?_ ?_

theorem raiseInt_keeps {s0 s : State} (h : Keeps s0 s) : ∀ a1 a2, Keeps s0 (raiseInt a1 a2 s) := by
  intro a1 a2
  unfold raiseInt
  repeat' first
    | with_reducible assumption
    | with_reducible apply sendVector_keeps
    | with_reducible apply orReg_keeps
    | with_reducible refine Keeps.ite ?_ ?_

theorem recordInts_keeps {s0 s : State} (h : Keeps s0 s) : ∀ a1, Keeps s0 (recordInts a1 s) := by
  intro a1
  unfold recordInts
  repeat' first
    | with_reducible assumption
    | with_reducible apply raiseInt_keeps
    | with_reducible refine Keeps.ite ?_ ?_

theorem count_keeps {s0 s : State} (h : Keeps s0 s) : ∀ a1 a2 a3, Keeps s0 (count a1 a2 a3 s) := by
  intro a1 a2 a3
  unfold count
  repeat' first
    | with_reducible assumption
    | with_reducible apply setReg_keeps
    | with_reducible refine Keeps.ite ?_ ?_

theorem grantReq_keeps {s0 s : State} (h : Keeps s0 s) : ∀ a1, Keeps s0 (grantReq a1 s) := by
  intro a1
  unfold grantReq
  repeat' first
    | with_reducible apply count_keeps
    | ((with_reducible apply Keeps.mk') <;> first | with_reducible assumption | with_reducible apply count_keeps | with_reducible exact Nat.le_refl _ | with_reducible exact fun m => ⟨m.host, m.intake, m.fabric, m.nvm, m.sram, m.stk, m.owned, m.log, m.tiles, m.loc, m.saved⟩)
    | split

theorem ledgerServe_keeps {s0 s : State} (h : Keeps s0 s) : ∀ a1, Keeps s0 (ledgerServe a1 s) := by
  intro a1
  induction a1 generalizing s with
  | zero => unfold ledgerServe; exact h
  | succ n ih =>
    unfold ledgerServe
    cases hw : s.ledger.waiting with
    | nil => exact h
    | cons r rest =>
      dsimp only
      split
      · exact h.mk' (Nat.le_refl _) fun m => ⟨m.host, m.intake, m.fabric, m.nvm, m.sram, m.stk, m.owned, m.log, m.tiles, m.loc, m.saved⟩
      · split
        · exact h.mk' (Nat.le_refl _) fun m => ⟨m.host, m.intake, m.fabric, m.nvm, m.sram, m.stk, m.owned, m.log, m.tiles, m.loc, m.saved⟩
        · apply ih
          apply grantReq_keeps
          exact h.mk' (Nat.le_refl _) fun m => ⟨m.host, m.intake, m.fabric, m.nvm, m.sram, m.stk, m.owned, m.log, m.tiles, m.loc, m.saved⟩

theorem setRegField_keeps {s0 s : State} (h : Keeps s0 s) : ∀ a1 a2 a3 a4, Keeps s0 (setRegField a1 a2 a3 a4 s) := by
  intro a1 a2 a3 a4
  unfold setRegField
  repeat' first
    | with_reducible assumption
    | with_reducible apply setReg_keeps

theorem draw64_keeps {s0 s : State} (h : Keeps s0 s) : Keeps s0 (draw64 s).2 := by
  unfold draw64
  repeat' first
    | ((with_reducible apply Keeps.mk') <;> first | with_reducible assumption | with_reducible exact Nat.le_refl _ | with_reducible exact fun m => ⟨m.host, m.intake, m.fabric, m.nvm, m.sram, m.stk, m.owned, m.log, m.tiles, m.loc, m.saved⟩)

theorem countFault_keeps {s0 s : State} (h : Keeps s0 s) : ∀ a1 a2, Keeps s0 (countFault a1 a2 s) := by
  intro a1 a2
  unfold countFault
  repeat' first
    | with_reducible assumption
    | with_reducible apply count_keeps
    | with_reducible refine Keeps.ite ?_ ?_

theorem hostWrite_keeps {s0 s : State} (h : Keeps s0 s) : ∀ a1 a2, Keeps s0 (hostWrite a1 a2 s) := by
  intro a1 a2
  exact Keeps.mk' h (Nat.le_refl _) fun m => ⟨Mem.wf_sets _ _ _ _ m.host, m.intake, m.fabric, m.nvm, m.sram, m.stk, m.owned, m.log, m.tiles, m.loc, m.saved⟩

theorem writeRecord_keeps {s0 s : State} (h : Keeps s0 s) : ∀ a1, Keeps s0 (writeRecord a1 s) := by
  intro a1
  unfold writeRecord
  extract_lets f1 fl s1 s2 fl2 s3
  have h1 : Keeps s0 s1 := h.mk' (Nat.le_refl _) fun m => ⟨m.host, m.intake, m.fabric, m.nvm, m.sram, m.stk, m.owned, m.log, m.tiles, m.loc, m.saved⟩
  clear_value f1 s1
  split
  · exact h1
  · split
    · have h2 : Keeps s0 s2 := hostWrite_keeps h1 _ _
      clear_value s2
      have h3 : Keeps s0 s3 := h2.mk' (Nat.le_refl _) fun m => ⟨m.host, m.intake, m.fabric, m.nvm, m.sram, m.stk, m.owned, m.log, m.tiles, m.loc, m.saved⟩
      split
      · split
        · exact sendVector_keeps h3 _
        · exact h3
      · exact h3
    · exact raiseInt_keeps (count_keeps h1 _ _ _) _ _

theorem fault_keeps {s0 s : State} (h : Keeps s0 s) : ∀ a1, Keeps s0 (fault a1 s) := by
  intro a1
  unfold fault
  repeat' first
    | with_reducible assumption
    | with_reducible apply recordInts_keeps
    | with_reducible apply countFault_keeps
    | ((with_reducible apply Keeps.mk') <;> first | with_reducible assumption | with_reducible apply recordInts_keeps | with_reducible apply countFault_keeps | with_reducible apply writeRecord_keeps | with_reducible apply count_keeps | with_reducible exact Nat.le_refl _ | with_reducible exact fun m => ⟨m.host, m.intake, m.fabric, m.nvm, m.sram, m.stk, m.owned, m.log, m.tiles, m.loc, m.saved⟩)
    | split
    | dsimp only

theorem ledgerDrop_keeps {s0 s : State} (h : Keeps s0 s) : ∀ a1, Keeps s0 (ledgerDrop a1 s) := by
  intro a1
  unfold ledgerDrop
  repeat' first
    | ((with_reducible apply Keeps.mk') <;> first | with_reducible assumption | with_reducible exact Nat.le_refl _ | with_reducible exact fun m => ⟨m.host, m.intake, m.fabric, m.nvm, m.sram, m.stk, m.owned, m.log, m.tiles, m.loc, m.saved⟩)

theorem faultSummaries_keeps {s0 s : State} (h : Keeps s0 s) : Keeps s0 (faultSummaries s) := by
  unfold faultSummaries
  repeat' first
    | with_reducible assumption
    | with_reducible apply recordInts_keeps
    | with_reducible apply writeRecord_keeps
    | with_reducible apply Keeps.foldl
    | ((with_reducible apply Keeps.mk') <;> first | with_reducible assumption | with_reducible apply recordInts_keeps | with_reducible apply writeRecord_keeps | with_reducible apply Keeps.foldl | with_reducible apply Keeps.foldl2 | with_reducible apply Keeps.foldl3 | (with_reducible refine Keeps.snd (by assumption) ?_) | (with_reducible refine Keeps.snd2 (by assumption) ?_) | with_reducible exact Nat.le_refl _ | with_reducible exact fun m => ⟨m.host, m.intake, m.fabric, m.nvm, m.sram, m.stk, m.owned, m.log, m.tiles, m.loc, m.saved⟩)
    | split
    | intro _

theorem serveAll_keeps {s0 s : State} (h : Keeps s0 s) : Keeps s0 (serveAll s) := by
  unfold serveAll
  repeat' first
    | with_reducible assumption
    | with_reducible apply ledgerServe_keeps
    | with_reducible refine Keeps.ite ?_ ?_

theorem ledgerReturn_keeps {s0 s : State} (h : Keeps s0 s) : ∀ a1, Keeps s0 (ledgerReturn a1 s) := by
  intro a1
  unfold ledgerReturn
  repeat' first
    | with_reducible apply serveAll_keeps
    | ((with_reducible apply Keeps.mk') <;> first | with_reducible assumption | with_reducible apply serveAll_keeps | with_reducible exact Nat.le_refl _ | with_reducible exact fun m => ⟨m.host, m.intake, m.fabric, m.nvm, m.sram, m.stk, m.owned, m.log, m.tiles, m.loc, m.saved⟩)

theorem ledgerRequest_keeps {s0 s : State} (h : Keeps s0 s) : ∀ a1 a2 a3, Keeps s0 (ledgerRequest a1 a2 a3 s) := by
  intro a1 a2 a3
  unfold ledgerRequest
  repeat' first
    | with_reducible apply serveAll_keeps
    | ((with_reducible apply Keeps.mk') <;> first | with_reducible assumption | with_reducible apply serveAll_keeps | with_reducible exact Nat.le_refl _ | with_reducible exact fun m => ⟨m.host, m.intake, m.fabric, m.nvm, m.sram, m.stk, m.owned, m.log, m.tiles, m.loc, m.saved⟩)

theorem raiseIbi_keeps {s0 s : State} (h : Keeps s0 s) : ∀ a1, Keeps s0 (raiseIbi a1 s) := by
  intro a1
  unfold raiseIbi
  repeat' first
    | with_reducible assumption
    | ((with_reducible apply Keeps.mk') <;> first | with_reducible assumption | with_reducible exact Nat.le_refl _ | with_reducible exact fun m => ⟨m.host, m.intake, m.fabric, m.nvm, m.sram, m.stk, m.owned, m.log, m.tiles, m.loc, m.saved⟩)
    | with_reducible refine Keeps.ite ?_ ?_

theorem corrected_keeps {s0 s : State} (h : Keeps s0 s) : Keeps s0 (corrected s) := by
  unfold corrected
  repeat' first
    | with_reducible assumption
    | with_reducible apply count_keeps

theorem freeVal_keeps {s0 s : State} (h : Keeps s0 s) : Keeps s0 (freeVal s).2 := by
  unfold freeVal
  repeat' first
    | ((with_reducible apply Keeps.mk') <;> first | with_reducible assumption | with_reducible exact Nat.le_refl _ | with_reducible exact fun m => ⟨m.host, m.intake, m.fabric, m.nvm, m.sram, m.stk, m.owned, m.log, m.tiles, m.loc, m.saved⟩)

theorem drawBytes_keeps {s0 s : State} (h : Keeps s0 s) : ∀ a1, Keeps s0 (drawBytes a1 s).2 := by
  intro a1
  unfold drawBytes
  repeat' first
    | ((with_reducible apply Keeps.mk') <;> first | with_reducible assumption | with_reducible exact Nat.le_refl _ | with_reducible exact fun m => ⟨m.host, m.intake, m.fabric, m.nvm, m.sram, m.stk, m.owned, m.log, m.tiles, m.loc, m.saved⟩)

theorem reserve_keeps {s0 s : State} (h : Keeps s0 s) : ∀ a1 a2 a3, Keeps s0 (reserve a1 a2 a3 s) := by
  intro a1 a2 a3
  unfold reserve
  repeat' first
    | with_reducible assumption
    | with_reducible apply ledgerRequest_keeps
    | with_reducible refine Keeps.ite ?_ ?_

theorem ledgerShrink_keeps {s0 s : State} (h : Keeps s0 s) : ∀ a1 a2, Keeps s0 (ledgerShrink a1 a2 s) := by
  intro a1 a2
  unfold ledgerShrink
  repeat' first
    | with_reducible assumption
    | with_reducible apply serveAll_keeps
    | ((with_reducible apply Keeps.mk') <;> first | with_reducible assumption | with_reducible apply serveAll_keeps | with_reducible exact Nat.le_refl _ | with_reducible exact fun m => ⟨m.host, m.intake, m.fabric, m.nvm, m.sram, m.stk, m.owned, m.log, m.tiles, m.loc, m.saved⟩)
    | with_reducible refine Keeps.ite ?_ ?_

theorem when_keeps {s0 s : State} (h : Keeps s0 s) (c : Bool) (f : State → State) (hf : Keeps s0 (f s)) : OutKeeps s0 (when c f s) := by
  unfold when
  split
  · exact OutKeeps.next hf
  · exact OutKeeps.next h

theorem setQueue_keeps {s0 s : State} (h : Keeps s0 s) : ∀ a1 a2, Keeps s0 (setQueue a1 a2 s) := by
  intro a1 a2
  unfold setQueue
  repeat' first
    | ((with_reducible apply Keeps.mk') <;> first | with_reducible assumption | with_reducible exact Nat.le_refl _ | with_reducible exact fun m => ⟨m.host, m.intake, m.fabric, m.nvm, m.sram, m.stk, m.owned, m.log, m.tiles, m.loc, m.saved⟩)

theorem updQueue_keeps {s0 s : State} (h : Keeps s0 s) : ∀ a1 a2, Keeps s0 (updQueue a1 a2 s) := by
  intro a1 a2
  unfold updQueue
  repeat' first
    | with_reducible assumption
    | with_reducible apply setQueue_keeps

theorem updHead_keeps {s0 s : State} (h : Keeps s0 s) : ∀ a1 a2, Keeps s0 (updHead a1 a2 s) := by
  intro a1 a2
  unfold updHead
  repeat' first
    | with_reducible assumption
    | with_reducible apply updQueue_keeps

theorem runHead_keeps {s0 s : State} (h : Keeps s0 s) (q op : Nat) (f : Cmd → State → State)
    (hf : ∀ c s, Keeps s0 s → Keeps s0 (f c s)) : OutKeeps s0 (runHead q op f s) := by
  unfold runHead
  repeat' first
    | with_reducible assumption
    | with_reducible apply updHead_keeps
    | with_reducible apply hf
    | with_reducible apply OutKeeps.next
    | split

theorem endHead_keeps {s0 s : State} (h : Keeps s0 s) : ∀ a1 a2 a3 a4, Keeps s0 (endHead a1 a2 a3 a4 s) := by
  intro a1 a2 a3 a4
  unfold endHead
  repeat' first
    | with_reducible assumption
    | with_reducible apply updQueue_keeps

theorem satisfy_keeps {s0 s : State} (h : Keeps s0 s) : ∀ a1 a2 a3, Keeps s0 (satisfy a1 a2 a3 s) := by
  intro a1 a2 a3
  unfold satisfy
  repeat' first
    | with_reducible assumption
    | with_reducible apply endHead_keeps
    | with_reducible apply updHead_keeps
    | with_reducible apply Keeps.foldl
    | with_reducible refine Keeps.ite ?_ ?_
    | split
    | intro _
    | dsimp only

theorem recordWritten_keeps {s0 s : State} (h : Keeps s0 s) : ∀ a1, Keeps s0 (recordWritten a1 s) := by
  intro a1
  unfold recordWritten
  repeat' first
    | with_reducible assumption
    | with_reducible apply satisfy_keeps

theorem setUnit_keeps {s0 s : State} (h : Keeps s0 s) : ∀ a1 a2, Keeps s0 (setUnit a1 a2 s) := by
  intro a1 a2
  unfold setUnit
  repeat' first
    | ((with_reducible apply Keeps.mk') <;> first | with_reducible assumption | with_reducible exact Nat.le_refl _ | with_reducible exact fun m => ⟨m.host, m.intake, m.fabric, m.nvm, m.sram, m.stk, m.owned, m.log, m.tiles, m.loc, m.saved⟩)

theorem updCid_keeps {s0 s : State} (h : Keeps s0 s) : ∀ a1 a2 a3, Keeps s0 (updCid a1 a2 a3 s) := by
  intro a1 a2 a3
  unfold updCid
  repeat' first
    | with_reducible assumption
    | with_reducible apply updQueue_keeps

theorem releaseChunk_keeps {s0 s : State} (h : Keeps s0 s) : ∀ a1, Keeps s0 (releaseChunk a1 s) := by
  intro a1
  unfold releaseChunk
  repeat' first
    | with_reducible assumption
    | with_reducible apply updCid_keeps
    | with_reducible apply setUnit_keeps
    | with_reducible apply ledgerReturn_keeps
    | split
    | dsimp only

theorem endCid_keeps {s0 s : State} (h : Keeps s0 s) : ∀ a1 a2 a3 a4 a5, Keeps s0 (endCid a1 a2 a3 a4 a5 s) := by
  intro a1 a2 a3 a4 a5
  unfold endCid
  repeat' first
    | with_reducible assumption
    | with_reducible apply endHead_keeps
    | with_reducible refine Keeps.ite ?_ ?_
    | split

theorem stopCommand_keeps {s0 s : State} (h : Keeps s0 s) : ∀ a1 a2 a3 a4 a5, Keeps s0 (stopCommand a1 a2 a3 a4 a5 s) := by
  intro a1 a2 a3 a4 a5
  unfold stopCommand
  repeat' first
    | with_reducible assumption
    | with_reducible apply ledgerDrop_keeps
    | with_reducible apply releaseChunk_keeps
    | with_reducible apply setUnit_keeps
    | with_reducible apply ledgerReturn_keeps
    | with_reducible apply endCid_keeps
    | with_reducible apply Keeps.foldl
    | ((with_reducible apply Keeps.mk') <;> first | with_reducible assumption | with_reducible apply ledgerDrop_keeps | with_reducible apply releaseChunk_keeps | with_reducible apply setUnit_keeps | with_reducible apply ledgerReturn_keeps | with_reducible apply endCid_keeps | with_reducible apply Keeps.foldl | with_reducible apply Keeps.foldl2 | with_reducible apply Keeps.foldl3 | (with_reducible refine Keeps.snd (by assumption) ?_) | (with_reducible refine Keeps.snd2 (by assumption) ?_) | with_reducible exact Nat.le_refl _ | with_reducible exact fun m => ⟨m.host, m.intake, m.fabric, m.nvm, m.sram, m.stk, m.owned, m.log, m.tiles, m.loc, m.saved⟩)
    | split
    | intro _

theorem promote_keeps {s0 s : State} (h : Keeps s0 s) : ∀ a1, Keeps s0 (promote a1 s) := by
  intro a1
  unfold promote
  repeat' first
    | with_reducible assumption
    | with_reducible apply endHead_keeps
    | with_reducible apply updHead_keeps
    | with_reducible refine Keeps.ite ?_ ?_
    | split
    | dsimp only

theorem promoteAll_keeps {s0 s : State} (h : Keeps s0 s) : Keeps s0 (promoteAll s) := by
  unfold promoteAll
  repeat' first
    | with_reducible assumption
    | with_reducible apply promote_keeps
    | with_reducible apply Keeps.foldl
    | intro _

theorem runJob_keeps {s0 s : State} (h : Keeps s0 s) (q op : Nat) (f : Cmd → State → State)
    (hf : ∀ c s, Keeps s0 s → Keeps s0 (f c s)) : OutKeeps s0 (runJob q op f s) := by
  unfold runJob
  repeat' first
    | with_reducible assumption
    | with_reducible apply runHead_keeps
    | with_reducible apply endHead_keeps
    | with_reducible apply hf
    | split
    | intro _

theorem runJobNow_keeps {s0 s : State} (h : Keeps s0 s) (q op : Nat) (f : Cmd → State → Nat × Nat × State)
    (hf : ∀ c s, Keeps s0 s → Keeps s0 (f c s).2.2) : OutKeeps s0 (runJobNow q op f s) := by
  unfold runJobNow
  repeat' first
    | with_reducible assumption
    | with_reducible apply runJob_keeps
    | with_reducible apply endHead_keeps
    | with_reducible apply hf
    | (with_reducible refine Keeps.snd2 (by assumption) ?_)
    | split
    | intro _

theorem updJob_keeps {s0 s : State} (h : Keeps s0 s) : ∀ a1 a2, Keeps s0 (updJob a1 a2 s) := by
  intro a1 a2
  unfold updJob
  repeat' first
    | ((with_reducible apply Keeps.mk') <;> first | with_reducible assumption | with_reducible exact Nat.le_refl _ | with_reducible exact fun m => ⟨m.host, m.intake, m.fabric, m.nvm, m.sram, m.stk, m.owned, m.log, m.tiles, m.loc, m.saved⟩)

theorem boundary_keeps {s0 s : State} (h : Keeps s0 s) : ∀ a1 a2, Keeps s0 (boundary a1 a2 s) := by
  intro a1 a2
  unfold boundary
  repeat' first
    | with_reducible assumption
    | with_reducible apply endHead_keeps
    | with_reducible apply satisfy_keeps
    | with_reducible apply updHead_keeps
    | with_reducible refine Keeps.ite ?_ ?_
    | split

theorem runNow_keeps {s0 s : State} (h : Keeps s0 s) (q op : Nat) (f : Cmd → State → Nat × Nat × State)
    (hf : ∀ c s, Keeps s0 s → Keeps s0 (f c s).2.2) : OutKeeps s0 (runNow q op f s) := by
  unfold runNow
  repeat' first
    | with_reducible assumption
    | with_reducible apply runHead_keeps
    | with_reducible apply endHead_keeps
    | with_reducible apply hf
    | (with_reducible refine Keeps.snd2 (by assumption) ?_)
    | split
    | intro _

theorem consume_keeps {s0 s : State} (h : Keeps s0 s) : ∀ a1 a2, Keeps s0 (consume a1 a2 s) := by
  intro a1 a2
  unfold consume
  repeat' first
    | with_reducible assumption
    | with_reducible apply updQueue_keeps

theorem orNstat_keeps {s0 s : State} (h : Keeps s0 s) : ∀ a1 a2 a3, Keeps s0 (orNstat a1 a2 a3 s) := by
  intro a1 a2 a3
  unfold orNstat
  repeat' first
    | with_reducible assumption
    | with_reducible apply updCid_keeps

theorem runSecure_keeps {s0 s : State} (h : Keeps s0 s) (q op : Nat) (f : Cmd → State → State)
    (hf : ∀ c s, Keeps s0 s → Keeps s0 (f c s)) : OutKeeps s0 (runSecure q op f s) := by
  unfold runSecure
  refine runHead_keeps h q op _ fun c s hs => ?_
  split
  · exact endHead_keeps hs _ _ _ _
  · exact hf _ _ hs

theorem runSecureNow_keeps {s0 s : State} (h : Keeps s0 s) (q op : Nat) (f : Cmd → State → Nat × Nat × State)
    (hf : ∀ c s, Keeps s0 s → Keeps s0 (f c s).2.2) : OutKeeps s0 (runSecureNow q op f s) := by
  unfold runSecureNow
  exact runSecure_keeps h q op _ fun c s hs => endHead_keeps (hf c s hs) _ _ _ _

theorem updChk_keeps {s0 s : State} (h : Keeps s0 s) : ∀ a1 a2, Keeps s0 (updChk a1 a2 s) := by
  intro a1 a2
  unfold updChk
  repeat' first
    | with_reducible apply sendVector_keeps
    | ((with_reducible apply Keeps.mk') <;> first | with_reducible assumption | with_reducible apply sendVector_keeps | with_reducible exact Nat.le_refl _ | with_reducible exact fun m => ⟨m.host, m.intake, m.fabric, m.nvm, m.sram, m.stk, m.owned, m.log, m.tiles, m.loc, m.saved⟩)
    | with_reducible refine Keeps.ite ?_ ?_

theorem takeChk_keeps {s0 s : State} (h : Keeps s0 s) : ∀ a1, Keeps s0 (takeChk a1 s) := by
  intro a1
  unfold takeChk
  repeat' first
    | with_reducible assumption
    | with_reducible apply sendVector_keeps
    | with_reducible apply updChk_keeps
    | with_reducible refine Keeps.ite ?_ ?_
    | split

theorem chkStep_keeps {s0 s : State} (h : Keeps s0 s) : ∀ a1, Keeps s0 (chkStep a1 s) := by
  intro a1
  unfold chkStep
  repeat' first
    | with_reducible assumption
    | with_reducible apply updChk_keeps
    | with_reducible apply takeChk_keeps
    | with_reducible refine Keeps.ite ?_ ?_
    | split

theorem chkCycle_keeps {s0 s : State} (h : Keeps s0 s) : Keeps s0 (chkCycle s) := by
  unfold chkCycle
  repeat' first
    | with_reducible assumption
    | with_reducible apply chkStep_keeps
    | with_reducible apply Keeps.foldl
    | intro _

theorem chkWrite_keeps {s0 s : State} (h : Keeps s0 s) : ∀ a1 a2, Keeps s0 (chkWrite a1 a2 s) := by
  intro a1 a2
  unfold chkWrite
  repeat' first
    | with_reducible assumption
    | with_reducible apply updChk_keeps
    | with_reducible apply takeChk_keeps
    | with_reducible apply count_keeps
    | with_reducible refine Keeps.ite ?_ ?_

theorem execChkAlive_keeps {s0 s : State} (h : Keeps s0 s) : ∀ a1 a2, OutKeeps s0 (execChkAlive a1 a2 s) := by
  intro a1 a2
  unfold execChkAlive
  repeat' first
    | with_reducible assumption
    | with_reducible apply chkWrite_keeps
    | with_reducible apply when_keeps

theorem execChkDin8_keeps {s0 s : State} (h : Keeps s0 s) : ∀ a1 a2, OutKeeps s0 (execChkDin8 a1 a2 s) := by
  intro a1 a2
  unfold execChkDin8
  repeat' first
    | with_reducible assumption
    | with_reducible apply chkWrite_keeps
    | with_reducible apply when_keeps

theorem chkQueue_keeps {s0 s : State} (h : Keeps s0 s) : ∀ a1 a2, Keeps s0 (chkQueue a1 a2 s) := by
  intro a1 a2
  unfold chkQueue
  repeat' first
    | ((with_reducible apply Keeps.mk') <;> first | with_reducible assumption | with_reducible exact Nat.le_refl _ | with_reducible exact fun m => ⟨m.host, m.intake, m.fabric, m.nvm, m.sram, m.stk, m.owned, m.log, m.tiles, m.loc, m.saved⟩)

theorem execChkDin32_keeps {s0 s : State} (h : Keeps s0 s) : ∀ a1 a2, OutKeeps s0 (execChkDin32 a1 a2 s) := by
  intro a1 a2
  unfold execChkDin32
  repeat' first
    | with_reducible assumption
    | with_reducible apply chkWrite_keeps
    | with_reducible apply when_keeps

theorem execChkArst_keeps {s0 s : State} (h : Keeps s0 s) : ∀ a1, OutKeeps s0 (execChkArst a1 s) := by
  intro a1
  unfold execChkArst
  repeat' first
    | with_reducible assumption
    | with_reducible apply chkWrite_keeps
    | with_reducible apply when_keeps

theorem execChkDin16_keeps {s0 s : State} (h : Keeps s0 s) : ∀ a1 a2, OutKeeps s0 (execChkDin16 a1 a2 s) := by
  intro a1 a2
  unfold execChkDin16
  repeat' first
    | with_reducible assumption
    | with_reducible apply chkWrite_keeps
    | with_reducible apply when_keeps

theorem execChkClose_keeps {s0 s : State} (h : Keeps s0 s) : ∀ a1, OutKeeps s0 (execChkClose a1 s) := by
  intro a1
  unfold execChkClose
  repeat' first
    | with_reducible assumption
    | with_reducible apply chkWrite_keeps
    | with_reducible apply when_keeps

theorem execChkStart_keeps {s0 s : State} (h : Keeps s0 s) : ∀ a1, OutKeeps s0 (execChkStart a1 s) := by
  intro a1
  unfold execChkStart
  repeat' first
    | with_reducible assumption
    | with_reducible apply chkWrite_keeps
    | with_reducible apply when_keeps

theorem execChkDin64_keeps {s0 s : State} (h : Keeps s0 s) : ∀ a1 a2, OutKeeps s0 (execChkDin64 a1 a2 s) := by
  intro a1 a2
  unfold execChkDin64
  repeat' first
    | with_reducible assumption
    | with_reducible apply chkWrite_keeps
    | with_reducible apply when_keeps

theorem drainChk_keeps {s0 s : State} (h : Keeps s0 s) : ∀ a1, Keeps s0 (drainChk a1 s) := by
  intro a1
  unfold drainChk
  repeat' first
    | with_reducible assumption
    | with_reducible apply takeChk_keeps
    | with_reducible apply Keeps.iter
    | intro _

theorem zeroJobKeys_keeps {s0 s : State} (h : Keeps s0 s) : Keeps s0 (zeroJobKeys s) := by
  unfold zeroJobKeys
  repeat' first
    | ((with_reducible apply Keeps.mk') <;> first | with_reducible assumption | with_reducible exact Nat.le_refl _ | with_reducible exact fun m => ⟨m.host, m.intake, m.fabric, m.nvm, m.sram, m.stk, m.owned, m.log, m.tiles, m.loc, m.saved⟩)

theorem stopUnits_keeps {s0 s : State} (h : Keeps s0 s) : Keeps s0 (stopUnits s) :=
  h.mk' (Nat.le_refl _) fun m => ⟨m.host, m.intake, m.fabric, m.nvm, m.sram, m.stk, m.owned, m.log, Tbl.all_mapv (P := Tile.Ok) m.tiles fun _ _ h => h.of rfl, Tbl.all_mapv (P := Walker.Ok) (Q := Walker.Ok) (f := fun _ w => { w with active := false }) m.loc fun _ _ h => h.of rfl, m.saved⟩

theorem enterFatal_keeps {s0 s : State} (h : Keeps s0 s) : ∀ a1, Keeps s0 (enterFatal a1 s) := by
  intro r
  unfold enterFatal
  extract_lets f s1 fl s2 fl2 s3 s4
  have h2 : Keeps s0 s2 := writeRecord_keeps (raiseInt_keeps (countFault_keeps h _ _) _ _) _
  clear_value s2
  have h3 : Keeps s0 s3 := h2.mk' (Nat.le_refl _) fun m => ⟨m.host, m.intake, m.fabric, m.nvm, m.sram, m.stk, m.owned, m.log, m.tiles, m.loc, m.saved⟩
  clear_value s3
  have h4 : Keeps s0 s4 := zeroJobKeys_keeps (stopUnits_keeps h3)
  clear_value s4
  apply sendVector_keeps
  apply raiseIbi_keeps
  exact h4.mk' (Nat.le_refl _) fun m => ⟨m.host, m.intake, m.fabric, m.nvm, m.sram, m.stk, m.owned, (fun _ e => by cases e), m.tiles, m.loc, m.saved⟩

theorem endEarly_keeps {s0 s : State} (h : Keeps s0 s) : ∀ a1 a2 a3, Keeps s0 (endEarly a1 a2 a3 s) := by
  intro a1 a2 a3
  unfold endEarly
  repeat' first
    | with_reducible assumption
    | with_reducible apply updCid_keeps

theorem dropWaits_keeps {s0 s : State} (h : Keeps s0 s) : ∀ a1, Keeps s0 (dropWaits a1 s) := by
  intro j
  unfold dropWaits
  extract_lets d s1
  have h1 : Keeps s0 s1 := by
    unfold s1
    split
    · refine Keeps.ite (ledgerReturn_keeps (ledgerDrop_keeps ?_ _) _) h
      exact h.mk' (Nat.le_refl _) fun m => ⟨m.host, m.intake, m.fabric, m.nvm, m.sram, m.stk, m.owned, (fun _ e => by cases e), m.tiles, m.loc, m.saved⟩
    · exact h
  clear_value s1
  exact h1.mk' (Nat.le_refl _) fun m => ⟨m.host, m.intake, m.fabric, m.nvm, m.sram, m.stk, m.owned, m.log, m.tiles, m.loc, m.saved⟩

theorem stopJob_keeps {s0 s : State} (h : Keeps s0 s) : ∀ a1 a2, Keeps s0 (stopJob a1 a2 s) := by
  intro a1 a2
  unfold stopJob
  repeat' first
    | with_reducible assumption
    | with_reducible apply updCid_keeps
    | with_reducible apply endEarly_keeps
    | with_reducible apply dropWaits_keeps
    | with_reducible apply promoteAll_keeps
    | with_reducible apply updJob_keeps
    | with_reducible apply endCid_keeps
    | with_reducible apply Keeps.foldl
    | split
    | intro _

theorem setSession_keeps {s0 s : State} (h : Keeps s0 s) : ∀ a1 a2, Keeps s0 (setSession a1 a2 s) := by
  intro a1 a2
  unfold setSession
  repeat' first
    | ((with_reducible apply Keeps.mk') <;> first | with_reducible assumption | with_reducible exact Nat.le_refl _ | with_reducible exact fun m => ⟨m.host, m.intake, m.fabric, m.nvm, m.sram, m.stk, m.owned, m.log, m.tiles, m.loc, m.saved⟩)

theorem authCheck_keeps {s0 s : State} (h : Keeps s0 s) : ∀ a1 a2, Keeps s0 (authCheck a1 a2 s).2 := by
  intro a1 a2
  unfold authCheck
  repeat' first
    | with_reducible assumption
    | with_reducible apply setSession_keeps
    | with_reducible apply count_keeps
    | with_reducible apply raiseInt_keeps
    | split
    | dsimp only

theorem superseded_keeps {s0 s : State} (h : Keeps s0 s) : ∀ a1 a2, Keeps s0 (superseded a1 a2 s) := by
  intro a1 a2
  unfold superseded
  repeat' first
    | with_reducible assumption
    | with_reducible apply endCid_keeps

theorem replaceDusk_keeps {s0 s : State} (h : Keeps s0 s) : ∀ a1 a2 a3, Keeps s0 (replaceDusk a1 a2 a3 s) := by
  intro a1 a2 a3
  unfold replaceDusk
  repeat' first
    | with_reducible assumption
    | with_reducible apply superseded_keeps
    | ((with_reducible apply Keeps.mk') <;> first | with_reducible assumption | with_reducible apply superseded_keeps | with_reducible exact Nat.le_refl _ | with_reducible exact fun m => ⟨m.host, m.intake, m.fabric, m.nvm, m.sram, m.stk, m.owned, m.log, m.tiles, m.loc, m.saved⟩)
    | with_reducible refine Keeps.ite ?_ ?_
    | split

theorem replacePend_keeps {s0 s : State} (h : Keeps s0 s) : Keeps s0 (replacePend s) := by
  unfold replacePend
  repeat' first
    | with_reducible assumption
    | with_reducible apply ledgerDrop_keeps
    | with_reducible apply ledgerReturn_keeps
    | with_reducible apply superseded_keeps
    | with_reducible apply Keeps.foldl
    | ((with_reducible apply Keeps.mk') <;> first | with_reducible assumption | with_reducible apply ledgerDrop_keeps | with_reducible apply ledgerReturn_keeps | with_reducible apply superseded_keeps | with_reducible apply Keeps.foldl | with_reducible apply Keeps.foldl2 | with_reducible apply Keeps.foldl3 | (with_reducible refine Keeps.snd (by assumption) ?_) | (with_reducible refine Keeps.snd2 (by assumption) ?_) | with_reducible exact Nat.le_refl _ | with_reducible exact fun m => ⟨m.host, m.intake, m.fabric, m.nvm, m.sram, m.stk, m.owned, m.log, m.tiles, m.loc, m.saved⟩)
    | split
    | intro _

theorem replaceWake_keeps {s0 s : State} (h : Keeps s0 s) : ∀ a1 a2 a3, Keeps s0 (replaceWake a1 a2 a3 s) := by
  intro a1 a2 a3
  unfold replaceWake
  repeat' first
    | with_reducible assumption
    | with_reducible apply superseded_keeps
    | ((with_reducible apply Keeps.mk') <;> first | with_reducible assumption | with_reducible apply superseded_keeps | with_reducible exact Nat.le_refl _ | with_reducible exact fun m => ⟨m.host, m.intake, m.fabric, m.nvm, m.sram, m.stk, m.owned, m.log, m.tiles, m.loc, m.saved⟩)
    | split

theorem supersede_keeps {s0 s : State} (h : Keeps s0 s) : ∀ a1 a2, Keeps s0 (supersede a1 a2 s) := by
  intro a1 a2
  unfold supersede
  refine Keeps.ite h ?_
  extract_lets target s1
  have h1 : Keeps s0 s1 := Keeps.foldl h fun _ _ hs => promote_keeps (endEarly_keeps hs _ _ _) _
  clear_value s1
  exact replaceWake_keeps (replaceDusk_keeps (replacePend_keeps h1) _ _ _) _ _ _

theorem noteEnding_keeps {s0 s : State} (h : Keeps s0 s) : ∀ a1 a2, Keeps s0 (noteEnding a1 a2 s) := by
  intro a1 a2
  unfold noteEnding
  repeat' first
    | with_reducible assumption
    | with_reducible apply updCid_keeps
    | with_reducible refine Keeps.ite ?_ ?_
    | split

theorem acceptRecord_keeps {s0 s : State} (h : Keeps s0 s) : ∀ a1, Keeps s0 (acceptRecord a1 s) := by
  intro q
  unfold acceptRecord
  extract_lets Q r n c0
  have h1 : Keeps s0 (if s.limited then (false, s) else authCheck q c0 s).2 := by
    split
    · exact h
    · exact authCheck_keeps h _ _
  generalize (if s.limited then (false, s) else authCheck q c0 s) = p at h1 ⊢
  obtain ⟨bad, s1⟩ := p
  have hc : ∀ (f : Queue → Queue) (k : Nat), Keeps s0 { updQueue q f s1 with nextCid := k } :=
    fun f k => (updQueue_keeps h1 q f).mk' (Nat.le_refl _) fun m => ⟨m.host, m.intake, m.fabric, m.nvm, m.sram, m.stk, m.owned, m.log, m.tiles, m.loc, m.saved⟩
  exact promote_keeps (noteEnding_keeps (Keeps.ite (supersede_keeps (hc _ _) _ _) (hc _ _)) _ _) _

theorem dropRecord_keeps {s0 s : State} (h : Keeps s0 s) : ∀ a1, Keeps s0 (dropRecord a1 s) := by
  intro a1
  unfold dropRecord
  repeat' first
    | with_reducible apply updQueue_keeps
    | ((with_reducible apply Keeps.mk') <;> first | with_reducible assumption | with_reducible apply updQueue_keeps | with_reducible exact Nat.le_refl _ | with_reducible exact fun m => ⟨m.host, m.intake, m.fabric, m.nvm, m.sram, m.stk, m.owned, m.log, m.tiles, m.loc, m.saved⟩)

theorem afterCheck_keeps {s0 s : State} (h : Keeps s0 s) (q : Nat) (v : Check) (again : State → State)
    (ha : ∀ s, Keeps s0 s → Keeps s0 (again s)) : Keeps s0 (afterCheck q v again s) := by
  unfold afterCheck
  split
  · exact ha _ (acceptRecord_keeps h _)
  · exact ha _ (dropRecord_keeps h _)
  · exact updQueue_keeps h _ _

theorem execPcieLinkTrained_keeps {s0 s : State} (h : Keeps s0 s) : ∀ a1 a2 a3 a4, OutKeeps s0 (execPcieLinkTrained a1 a2 a3 a4 s) := by
  intro a1 a2 a3 a4
  unfold execPcieLinkTrained
  repeat' first
    | with_reducible assumption
    | with_reducible apply when_keeps
    | with_reducible apply raiseInt_keeps
    | ((with_reducible apply Keeps.mk') <;> first | with_reducible assumption | with_reducible apply when_keeps | with_reducible apply raiseInt_keeps | with_reducible apply OutKeeps.next | with_reducible exact OutKeeps.fault | with_reducible exact Nat.le_refl _ | with_reducible exact fun m => ⟨m.host, m.intake, m.fabric, m.nvm, m.sram, m.stk, m.owned, m.log, m.tiles, m.loc, m.saved⟩)
    | with_reducible refine Keeps.ite ?_ ?_

theorem validateQ_keeps {s0 s : State} (h : Keeps s0 s) : ∀ a1 a2, Keeps s0 (validateQ a1 a2 s) := by
  intro a1
  induction a1 generalizing s with
  | zero => intro _; exact h
  | succ n ih =>
    intro q
    rw [validateQ]
    exact Keeps.ite h (afterCheck_keeps (chkQueue_keeps h _ _) _ _ _ fun s hs => ih hs _)

theorem validate_keeps {s0 s : State} (h : Keeps s0 s) : ∀ a1, Keeps s0 (validate a1 s) := by
  intro a1
  unfold validate
  repeat' first
    | with_reducible assumption
    | with_reducible apply validateQ_keeps
    | with_reducible refine Keeps.ite ?_ ?_

theorem validateAll_keeps {s0 s : State} (h : Keeps s0 s) : Keeps s0 (validateAll s) := by
  unfold validateAll
  repeat' first
    | with_reducible assumption
    | with_reducible apply validate_keeps
    | with_reducible apply Keeps.foldl
    | intro _

theorem execBar2Read_keeps {s0 s : State} (h : Keeps s0 s) : ∀ a1 a2, OutKeeps s0 (execBar2Read a1 a2 s) := by
  intro a1 a2
  unfold execBar2Read
  repeat' first
    | with_reducible assumption
    | with_reducible apply when_keeps
    | with_reducible apply count_keeps
    | with_reducible apply raiseInt_keeps
    | ((with_reducible apply Keeps.mk') <;> first | with_reducible assumption | with_reducible apply when_keeps | with_reducible apply count_keeps | with_reducible apply raiseInt_keeps | with_reducible apply OutKeeps.next | with_reducible exact OutKeeps.fault | with_reducible exact Nat.le_refl _ | with_reducible exact fun m => ⟨m.host, m.intake, m.fabric, m.nvm, m.sram, m.stk, m.owned, m.log, m.tiles, m.loc, m.saved⟩)

theorem execMsixModerationTimer_keeps {s0 s : State} (h : Keeps s0 s) : ∀ a1, OutKeeps s0 (execMsixModerationTimer a1 s) := by
  intro a1
  unfold execMsixModerationTimer
  repeat' first
    | with_reducible assumption
    | with_reducible apply sendVector_keeps
    | with_reducible apply updQueue_keeps
    | with_reducible apply when_keeps

theorem runTrio_keeps {s0 s : State} (h : Keeps s0 s) (q op : Nat) (f : Cmd → State → State)
    (hf : ∀ c s, Keeps s0 s → Keeps s0 (f c s)) : OutKeeps s0 (runTrio q op f s) := by
  unfold runTrio
  exact OutKeeps.ite (OutKeeps.next h) (runJob_keeps h q op f hf)

theorem badAccess_keeps {s0 s : State} (h : Keeps s0 s) : ∀ a1 a2 a3, Keeps s0 (badAccess a1 a2 a3 s) := by
  intro a1 a2 a3
  unfold badAccess
  repeat' first
    | with_reducible apply setReg_keeps
    | with_reducible apply fault_keeps
    | with_reducible apply raiseInt_keeps
    | ((with_reducible apply Keeps.mk') <;> first | with_reducible assumption | with_reducible apply setReg_keeps | with_reducible apply fault_keeps | with_reducible apply raiseInt_keeps | with_reducible exact Nat.le_refl _ | with_reducible exact fun m => ⟨m.host, m.intake, m.fabric, m.nvm, m.sram, m.stk, m.owned, m.log, m.tiles, m.loc, m.saved⟩)
    | with_reducible refine Keeps.ite ?_ ?_

theorem execBar0BadAccess_keeps {s0 s : State} (h : Keeps s0 s) : ∀ a1 a2 a3, OutKeeps s0 (execBar0BadAccess a1 a2 a3 s) := by
  intro a1 a2 a3
  unfold execBar0BadAccess
  repeat' first
    | with_reducible assumption
    | with_reducible apply when_keeps
    | with_reducible apply badAccess_keeps

theorem rereadVerdict_keeps {s0 s : State} (h : Keeps s0 s) : ∀ a1 a2 a3, Keeps s0 (rereadVerdict a1 a2 a3 s) := by
  intro a1 a2 a3
  unfold rereadVerdict
  repeat' first
    | with_reducible assumption
    | with_reducible apply sendVector_keeps
    | with_reducible apply updQueue_keeps
    | with_reducible apply validate_keeps
    | with_reducible apply raiseInt_keeps
    | with_reducible refine Keeps.ite ?_ ?_
    | split

theorem execIntakeWrite_keeps {s0 s : State} (h : Keeps s0 s) : ∀ a1 a2 a3, OutKeeps s0 (execIntakeWrite a1 a2 a3 s) := by
  intro off data en
  unfold execIntakeWrite
  apply when_keeps h
  extract_lets open_ r s1
  have hr : s.MemsOk → Mem.wf r.1 0 = true := by
    intro m
    refine foldl_ind (P := fun a : Mem × Bool => Mem.wf a.1 0 = true) m.intake fun a i ha => ?_
    dsimp only
    split
    · split
      · exact Mem.wf_set _ _ _ _ ha
      · exact ha
    · exact ha
  have h1 : Keeps s0 s1 := h.mk' (Nat.le_refl _) fun m => ⟨m.host, hr m, m.fabric, m.nvm, m.sram, m.stk, m.owned, m.log, m.tiles, m.loc, m.saved⟩
  split
  · exact raiseInt_keeps (count_keeps h1 _ _ _) _ _
  · exact h1

theorem rereadHead_keeps {s0 s : State} (h : Keeps s0 s) : ∀ a1 a2, Keeps s0 (rereadHead a1 a2 s) := by
  intro q k
  exact rereadVerdict_keeps (chkQueue_keeps (updQueue_keeps h _ _) _ _) _ _ _

theorem moderate_keeps {s0 s : State} (h : Keeps s0 s) : ∀ a1, Keeps s0 (moderate a1 s) := by
  intro a1
  unfold moderate
  repeat' first
    | with_reducible assumption
    | with_reducible apply sendVector_keeps
    | with_reducible apply updQueue_keeps
    | with_reducible refine Keeps.ite ?_ ?_

theorem execPcieConfigRequest_keeps {s0 s : State} (h : Keeps s0 s) : OutKeeps s0 (execPcieConfigRequest s) := by
  unfold execPcieConfigRequest
  repeat' first
    | with_reducible assumption
    | with_reducible apply when_keeps
    | ((with_reducible apply Keeps.mk') <;> first | with_reducible assumption | with_reducible apply freeVal_keeps | with_reducible apply when_keeps | with_reducible apply OutKeeps.next | with_reducible exact OutKeeps.fault | (with_reducible refine Keeps.snd (by assumption) ?_) | (with_reducible refine Keeps.snd2 (by assumption) ?_) | with_reducible exact Nat.le_refl _ | with_reducible exact fun m => ⟨m.host, m.intake, m.fabric, m.nvm, m.sram, m.stk, m.owned, m.log, m.tiles, m.loc, m.saved⟩)
    | with_reducible refine Keeps.ite ?_ ?_

theorem execResume_keeps {s0 s : State} (h : Keeps s0 s) : ∀ a1, OutKeeps s0 (execResume a1 s) := by
  intro q
  unfold execResume
  refine runTrio_keeps h _ _ _ fun c s h => ?_
  extract_lets all ts wasHeld s1 sus s2 st
  split
  · exact endHead_keeps h _ _ _ _
  · have h1 : Keeps s0 s1 := by
      show Keeps s0 (if _ then _ else _)
      split
      · exact updJob_keeps h _ _
      · exact h
    clear_value s1
    have h2 : Keeps s0 s2 := Keeps.foldl h1 fun s p h => promote_keeps (updCid_keeps h _ _ _) _
    exact endHead_keeps h2 _ _ _ _

theorem execHostQcfgWrite_keeps {s0 s : State} (h : Keeps s0 s) : ∀ a1 a2 a3, OutKeeps s0 (execHostQcfgWrite a1 a2 a3 s) := by
  intro a1 a2 a3
  unfold execHostQcfgWrite
  repeat' first
    | with_reducible assumption
    | with_reducible apply setQueue_keeps
    | with_reducible apply updQueue_keeps
    | with_reducible apply when_keeps
    | with_reducible refine Keeps.ite ?_ ?_

theorem execValidationReread_keeps {s0 s : State} (h : Keeps s0 s) : ∀ a1, OutKeeps s0 (execValidationReread a1 s) := by
  intro q
  unfold execValidationReread
  apply when_keeps h
  split
  · exact h
  · exact rereadHead_keeps h _ _

theorem cancelNow_keeps {s0 s : State} (h : Keeps s0 s) : ∀ a1 a2, Keeps s0 (cancelNow a1 a2 s) := by
  intro a1 a2
  unfold cancelNow
  repeat' first
    | with_reducible apply promote_keeps
    | with_reducible apply endEarly_keeps
    | ((with_reducible apply Keeps.mk') <;> first | with_reducible assumption | with_reducible apply promote_keeps | with_reducible apply endEarly_keeps | with_reducible exact Nat.le_refl _ | with_reducible exact fun m => ⟨m.host, m.intake, m.fabric, m.nvm, m.sram, m.stk, m.owned, m.log, m.tiles, m.loc, m.saved⟩)

theorem execHostDb_keeps {s0 s : State} (h : Keeps s0 s) : ∀ a1 a2, OutKeeps s0 (execHostDb a1 a2 s) := by
  intro a1 a2
  unfold execHostDb
  repeat' first
    | with_reducible assumption
    | with_reducible apply sendVector_keeps
    | with_reducible apply updQueue_keeps
    | with_reducible apply when_keeps
    | with_reducible apply validate_keeps
    | with_reducible apply raiseInt_keeps
    | with_reducible refine Keeps.ite ?_ ?_

theorem holdQueue_keeps {s0 s : State} (h : Keeps s0 s) : ∀ a1, Keeps s0 (holdQueue a1 s) := by
  intro a1
  unfold holdQueue
  repeat' first
    | with_reducible assumption
    | with_reducible apply sendVector_keeps
    | with_reducible apply updQueue_keeps
    | with_reducible apply raiseInt_keeps

theorem writeCompletion_keeps {s0 s : State} (h : Keeps s0 s) : ∀ a1, Keeps s0 (writeCompletion a1 s).2 := by
  intro a1
  unfold writeCompletion
  repeat' first
    | with_reducible assumption
    | with_reducible apply holdQueue_keeps
    | with_reducible apply updQueue_keeps
    | with_reducible apply recordWritten_keeps
    | with_reducible apply consume_keeps
    | with_reducible apply moderate_keeps
    | with_reducible apply hostWrite_keeps
    | with_reducible refine Keeps.ite ?_ ?_
    | split
    | dsimp only

theorem cancelAll_keeps {s0 s : State} (h : Keeps s0 s) : ∀ a1 a2, Keeps s0 (cancelAll a1 a2 s).2 := by
  intro a1 a2
  unfold cancelAll
  repeat' first
    | with_reducible assumption
    | with_reducible apply updCid_keeps
    | with_reducible apply satisfy_keeps
    | with_reducible apply cancelNow_keeps
    | with_reducible apply Keeps.foldl
    | split
    | intro _

theorem execSuspend_keeps {s0 s : State} (h : Keeps s0 s) : ∀ a1, OutKeeps s0 (execSuspend a1 s) := by
  intro a1
  unfold execSuspend
  repeat' first
    | with_reducible assumption
    | with_reducible apply endHead_keeps
    | with_reducible apply updCid_keeps
    | with_reducible apply runTrio_keeps
    | with_reducible apply updHead_keeps
    | with_reducible apply Keeps.foldl
    | with_reducible refine Keeps.ite ?_ ?_
    | split
    | intro _

theorem execCancel_keeps {s0 s : State} (h : Keeps s0 s) : ∀ a1, OutKeeps s0 (execCancel a1 s) := by
  intro a1
  unfold execCancel
  repeat' first
    | with_reducible assumption
    | with_reducible apply cancelAll_keeps
    | with_reducible apply endHead_keeps
    | with_reducible apply runTrio_keeps
    | with_reducible apply updHead_keeps
    | with_reducible refine Keeps.ite ?_ ?_
    | intro _

theorem updLayer_keeps {s0 s : State} (h : Keeps s0 s) : ∀ a1 a2 a3, Keeps s0 (updLayer a1 a2 a3 s) := by
  intro a1 a2 a3
  unfold updLayer
  repeat' first
    | ((with_reducible apply Keeps.mk') <;> first | with_reducible assumption | with_reducible exact Nat.le_refl _ | with_reducible exact fun m => ⟨m.host, m.intake, m.fabric, m.nvm, m.sram, m.stk, m.owned, m.log, m.tiles, m.loc, m.saved⟩)

end Sys2Proof.Machine
end

