-- ==== Sys2Proof/Laws/KeepsMemory.lean ====
section
/-! SUPPORT. One lemma per function of the stacks, the unified range and its tiers: it keeps what `Keeps` names. -/

namespace Sys2Proof.Machine

theorem updChan_keeps {s0 s : State} (h : Keeps s0 s) : ∀ a1 a2, Keeps s0 (updChan a1 a2 s) := by
  intro a1 a2
  unfold updChan
  repeat' first
    | ((with_reducible apply Keeps.mk') <;> first | with_reducible assumption | with_reducible exact Nat.le_refl _ | with_reducible exact fun m => ⟨m.host, m.intake, m.fabric, m.nvm, m.sram, m.stk, m.owned, m.log, m.tiles, m.loc, m.saved⟩)

theorem correctedSector_keeps {s0 s : State} (h : Keeps s0 s) : ∀ a1 a2, Keeps s0 (correctedSector a1 a2 s) := by
  intro a1 a2
  unfold correctedSector
  repeat' first
    | with_reducible assumption
    | with_reducible apply updChan_keeps
    | with_reducible apply corrected_keeps
    | with_reducible apply count_keeps

theorem sendTouch_keeps {s0 s : State} (h : Keeps s0 s) : ∀ a1 a2, Keeps s0 (sendTouch a1 a2 s) := by
  intro a1 a2
  unfold sendTouch
  repeat' first
    | with_reducible assumption
    | with_reducible apply updChan_keeps
    | with_reducible apply count_keeps
    | ((with_reducible apply Keeps.mk') <;> first | with_reducible assumption | with_reducible apply updChan_keeps | with_reducible apply count_keeps | with_reducible exact Nat.le_refl _ | with_reducible exact fun m => ⟨m.host, m.intake, m.fabric, m.nvm, m.sram, m.stk, m.owned, m.log, m.tiles, m.loc, m.saved⟩)
    | with_reducible refine Keeps.ite ?_ ?_

theorem putAge_keeps {s0 s : State} (h : Keeps s0 s) : ∀ a1 a2, Keeps s0 (putAge a1 a2 s) := by
  intro a1 a2
  unfold putAge
  repeat' first
    | ((with_reducible apply Keeps.mk') <;> first | with_reducible assumption | with_reducible exact Nat.le_refl _ | with_reducible exact fun m => ⟨m.host, m.intake, m.fabric, m.nvm, m.sram, m.stk, m.owned, m.log, m.tiles, m.loc, m.saved⟩)

theorem stampSector_keeps {s0 s : State} (h : Keeps s0 s) : ∀ a1, Keeps s0 (stampSector a1 s) := by
  intro a1
  unfold stampSector
  repeat' first
    | with_reducible assumption
    | with_reducible apply sendTouch_keeps
    | with_reducible apply putAge_keeps
    | with_reducible refine Keeps.ite ?_ ?_

theorem setPoison_keeps {s0 s : State} (h : Keeps s0 s) : ∀ a1 a2, Keeps s0 (setPoison a1 a2 s) := by
  intro a1 a2
  unfold setPoison
  repeat' first
    | ((with_reducible apply Keeps.mk') <;> first | with_reducible assumption | with_reducible exact Nat.le_refl _ | with_reducible exact fun m => ⟨m.host, m.intake, m.fabric, m.nvm, m.sram, m.stk, m.owned, m.log, m.tiles, m.loc, m.saved⟩)

theorem putSector_keeps {s0 s : State} (h : Keeps s0 s) : ∀ a1 a2, Keeps s0 (putSector a1 a2 s) := by
  intro a1 a2
  unfold putSector
  repeat' ((with_reducible apply Keeps.mk') <;> first | with_reducible assumption | with_reducible exact Nat.le_refl _ | exact fun m => ⟨m.host, m.intake, m.fabric, m.nvm, m.sram, Mem.wf_sets _ _ _ _ m.stk, m.owned, m.log, m.tiles, m.loc, m.saved⟩)

theorem uncorrectableSector_keeps {s0 s : State} (h : Keeps s0 s) : ∀ a1 a2, Keeps s0 (uncorrectableSector a1 a2 s) := by
  intro a1 a2
  unfold uncorrectableSector
  repeat' first
    | with_reducible assumption
    | with_reducible apply setPoison_keeps
    | with_reducible apply fault_keeps
    | with_reducible apply enterFatal_keeps
    | with_reducible apply putSector_keeps
    | with_reducible apply count_keeps
    | with_reducible apply raiseInt_keeps
    | with_reducible refine Keeps.ite ?_ ?_
    | split
    | dsimp only

theorem writeSector_keeps {s0 s : State} (h : Keeps s0 s) : ∀ a1 a2 a3 a4 a5, Keeps s0 (writeSector a1 a2 a3 a4 a5 s).2 := by
  intro a1 a2 a3 a4 a5
  unfold writeSector
  repeat' first
    | with_reducible assumption
    | with_reducible apply stampSector_keeps
    | with_reducible apply updChan_keeps
    | with_reducible apply setPoison_keeps
    | with_reducible apply correctedSector_keeps
    | with_reducible apply putSector_keeps
    | with_reducible apply uncorrectableSector_keeps
    | split
    | dsimp only

theorem execPatrolScrub_keeps {s0 s : State} (h : Keeps s0 s) : ∀ a1 a2, OutKeeps s0 (execPatrolScrub a1 a2 s) := by
  intro a1 a2
  unfold execPatrolScrub
  repeat' first
    | with_reducible assumption
    | with_reducible apply updChan_keeps
    | with_reducible apply when_keeps
    | with_reducible apply correctedSector_keeps
    | with_reducible apply uncorrectableSector_keeps
    | split

theorem queueTag_keeps {s0 s : State} (h : Keeps s0 s) : ∀ a1 a2, Keeps s0 (queueTag a1 a2 s) := by
  intro a1 a2
  unfold queueTag
  repeat' first
    | with_reducible assumption
    | with_reducible apply updChan_keeps
    | with_reducible apply count_keeps
    | with_reducible refine Keeps.ite ?_ ?_

theorem readSector_keeps {s0 s : State} (h : Keeps s0 s) : ∀ a1 a2, Keeps s0 (readSector a1 a2 s).2.2 := by
  intro a1 a2
  unfold readSector
  repeat' first
    | with_reducible assumption
    | with_reducible apply updChan_keeps
    | with_reducible apply correctedSector_keeps
    | with_reducible apply queueTag_keeps
    | with_reducible apply uncorrectableSector_keeps
    | with_reducible apply count_keeps
    | split
    | dsimp only

theorem readSectors_keeps {s0 s : State} (h : Keeps s0 s) : ∀ a1 a2 a3, Keeps s0 (readSectors a1 a2 a3 s).2.2 := by
  intro a1 a2 a3
  unfold readSectors
  repeat' first
    | with_reducible assumption
    | with_reducible apply readSector_keeps
    | with_reducible apply Keeps.foldl3
    | (with_reducible refine Keeps.snd2 (by assumption) ?_)
    | split
    | intro _

theorem execDawnChannelRefresh_keeps {s0 s : State} (h : Keeps s0 s) : ∀ a1, OutKeeps s0 (execDawnChannelRefresh a1 s) := by
  intro a1
  unfold execDawnChannelRefresh
  repeat' first
    | with_reducible assumption
    | with_reducible apply updChan_keeps
    | with_reducible apply when_keeps

theorem writeSectors_keeps {s0 s : State} (h : Keeps s0 s) : ∀ a1 a2 a3 a4 a5, Keeps s0 (writeSectors a1 a2 a3 a4 a5 s).2 := by
  intro a1 a2 a3 a4 a5
  unfold writeSectors
  repeat' first
    | with_reducible assumption
    | with_reducible apply writeSector_keeps
    | with_reducible apply Keeps.foldl2
    | (with_reducible refine Keeps.snd (by assumption) ?_)
    | split
    | intro _

theorem updStack_keeps {s0 s : State} (h : Keeps s0 s) : ∀ a1 a2, Keeps s0 (updStack a1 a2 s) := by
  intro a1 a2
  unfold updStack
  repeat' first
    | ((with_reducible apply Keeps.mk') <;> first | with_reducible assumption | with_reducible exact Nat.le_refl _ | with_reducible exact fun m => ⟨m.host, m.intake, m.fabric, m.nvm, m.sram, m.stk, m.owned, m.log, m.tiles, m.loc, m.saved⟩)

theorem refreshFrame_keeps {s0 s : State} (h : Keeps s0 s) : Keeps s0 (refreshFrame s) := by
  unfold refreshFrame
  repeat' first
    | with_reducible assumption
    | with_reducible apply updStack_keeps
    | with_reducible apply Keeps.foldl
    | intro _

theorem addToSector_keeps {s0 s : State} (h : Keeps s0 s) : ∀ a1 a2 a3 a4 a5, Keeps s0 (addToSector a1 a2 a3 a4 a5 s).2.2 := by
  intro a1 a2 a3 a4 a5
  unfold addToSector
  repeat' first
    | with_reducible assumption
    | with_reducible apply stampSector_keeps
    | with_reducible apply updChan_keeps
    | with_reducible apply orReg_keeps
    | with_reducible apply correctedSector_keeps
    | with_reducible apply putSector_keeps
    | with_reducible apply uncorrectableSector_keeps
    | split
    | dsimp only

theorem memAnswer_keeps {s0 s : State} (h : Keeps s0 s) : ∀ a1 a2, Keeps s0 (memAnswer a1 a2 s) := by
  intro a1 a2
  unfold memAnswer
  repeat' first
    | ((with_reducible apply Keeps.mk') <;> first | with_reducible assumption | with_reducible exact Nat.le_refl _ | with_reducible exact fun m => ⟨m.host, m.intake, m.fabric, m.nvm, m.sram, m.stk, m.owned, m.log, m.tiles, m.loc, m.saved⟩)

theorem memEffect_keeps {s0 s : State} (h : Keeps s0 s) : ∀ a1, Keeps s0 (memEffect a1 s) := by
  intro a1
  unfold memEffect
  repeat' first
    | with_reducible assumption
    | with_reducible apply readSectors_keeps
    | with_reducible apply addToSector_keeps
    | with_reducible apply memAnswer_keeps
    | with_reducible apply writeSectors_keeps
    | split

theorem retrainOutcome_keeps {s0 s : State} (h : Keeps s0 s) : ∀ a1 a2, Keeps s0 (retrainOutcome a1 a2 s) := by
  intro a1 a2
  unfold retrainOutcome
  repeat' first
    | with_reducible assumption
    | with_reducible apply updStack_keeps
    | with_reducible apply updChan_keeps
    | with_reducible apply fault_keeps
    | with_reducible apply count_keeps
    | with_reducible apply raiseInt_keeps
    | with_reducible refine Keeps.ite ?_ ?_

theorem retrainStep_keeps {s0 s : State} (h : Keeps s0 s) : ∀ a1 a2, Keeps s0 (retrainStep a1 a2 s) := by
  intro a1 a2
  unfold retrainStep
  repeat' first
    | with_reducible assumption
    | with_reducible apply updStack_keeps
    | ((with_reducible apply Keeps.mk') <;> first | with_reducible assumption | with_reducible apply retrainOutcome_keeps | with_reducible apply updStack_keeps | with_reducible exact Nat.le_refl _ | with_reducible exact fun m => ⟨m.host, m.intake, m.fabric, m.nvm, m.sram, m.stk, m.owned, m.log, m.tiles, m.loc, m.saved⟩)

theorem writeBack1_keeps {s0 s : State} (h : Keeps s0 s) : ∀ a1, Keeps s0 (writeBack1 a1 s) := by
  intro a1
  unfold writeBack1
  repeat' first
    | with_reducible assumption
    | with_reducible apply updChan_keeps
    | with_reducible apply putSector_keeps
    | split

theorem execCeWriteback_keeps {s0 s : State} (h : Keeps s0 s) : ∀ a1, OutKeeps s0 (execCeWriteback a1 s) := by
  intro a1
  unfold execCeWriteback
  repeat' first
    | with_reducible assumption
    | with_reducible apply when_keeps
    | with_reducible apply writeBack1_keeps

theorem markUse_keeps {s0 s : State} (h : Keeps s0 s) : ∀ a1, Keeps s0 (markUse a1 s) := by
  intro a1
  unfold markUse
  repeat' first
    | ((with_reducible apply Keeps.mk') <;> first | with_reducible assumption | with_reducible exact Nat.le_refl _ | with_reducible exact fun m => ⟨m.host, m.intake, m.fabric, m.nvm, m.sram, m.stk, m.owned, m.log, m.tiles, m.loc, m.saved⟩)

theorem needDraw_keeps {s0 s : State} (h : Keeps s0 s) : ∀ a1, Keeps s0 (needDraw a1 s) := by
  intro a1
  unfold needDraw
  repeat' first
    | with_reducible assumption
    | with_reducible apply reserve_keeps
    | with_reducible apply markUse_keeps
    | split

theorem memDraws_keeps {s0 s : State} (h : Keeps s0 s) : ∀ a1 a2, Keeps s0 (memDraws a1 a2 s) := by
  intro a1 a2
  unfold memDraws
  repeat' first
    | with_reducible assumption
    | with_reducible apply needDraw_keeps
    | with_reducible refine Keeps.ite ?_ ?_

theorem hold_keeps {s0 s : State} (h : Keeps s0 s) (i : Instr) (keys : List Nat) : Keeps s0 (hold i keys s) :=
  h.mk' (Nat.le_refl _) fun m => ⟨m.host, m.intake, m.fabric, m.nvm, m.sram, m.stk, m.owned, m.log, m.tiles, m.loc, m.saved⟩

theorem takeLoads_keeps {s0 s : State} (h : Keeps s0 s) (t : State) : Keeps s0 (takeLoads t s) := by
  unfold takeLoads
  exact Keeps.foldl h fun s p hs => Keeps.ite hs (updChan_keeps hs _ _)

theorem holdFrom_keeps {s0 t : State} (h : Keeps s0 t) (i : Instr) (s s1 : State) (keys : List Nat) : Keeps s0 (holdFrom i s s1 keys t) := by
  unfold holdFrom
  exact hold_keeps (Keeps.ite h (takeLoads_keeps h _)) _ _

theorem askUse_keeps {s0 s : State} (h : Keeps s0 s) : ∀ a1, Keeps s0 (askUse s a1) := by
  intro a1
  unfold askUse
  repeat' first
    | with_reducible assumption
    | with_reducible apply needDraw_keeps
    | with_reducible refine Keeps.ite ?_ ?_

theorem settleUse_keeps {s0 s s1 : State} (h : Keeps s0 s) (wait : List Nat → State → State) (hw : ∀ k s, Keeps s0 s → Keeps s0 (wait k s))
    (h1 : Keeps s0 s1) : Keeps s0 (settleUse wait s s1) := by
  unfold settleUse
  refine Keeps.ite ?_ (hw _ _ (Keeps.foldl h fun s x hs => askUse_keeps hs _))
  have h2 : Keeps s0 { s1 with stk := { s1.stk with use := s1.stk.use.foldl (fun u p => Tbl.put u p.1 p.2) s.stk.use } } :=
    h1.mk' (Nat.le_refl _) fun m => ⟨m.host, m.intake, m.fabric, m.nvm, m.sram, m.stk, m.owned, m.log, m.tiles, m.loc, m.saved⟩
  exact Keeps.ite (takeLoads_keeps h2 _) h2

theorem unused_keeps {s0 s : State} (h : Keeps s0 s) : Keeps s0 (unused s) :=
  h.mk' (Nat.le_refl _) fun m => ⟨m.host, m.intake, m.fabric, m.nvm, m.sram, m.stk, m.owned, m.log, m.tiles, m.loc, m.saved⟩

theorem poweredBy_keeps {s0 s : State} (h : Keeps s0 s) (i : Instr) (f : State → State) (hf : ∀ s, Keeps s0 s → Keeps s0 (f s)) : Keeps s0 (poweredBy i f s) := by
  unfold poweredBy
  exact settleUse_keeps h _ (fun _ _ h => holdFrom_keeps h _ _ _ _) (hf _ (unused_keeps h))

theorem memRequest_keeps {s0 s : State} (h : Keeps s0 s) : ∀ a1 a2 a3, Keeps s0 (memRequest a1 a2 a3 s) := by
  intro a1 a2 a3
  unfold memRequest
  repeat' first
    | with_reducible assumption
    | with_reducible apply poweredBy_keeps
    | with_reducible apply memAnswer_keeps
    | with_reducible apply memDraws_keeps
    | with_reducible apply memEffect_keeps
    | with_reducible refine Keeps.ite ?_ ?_
    | intro _

theorem execMemAdd_keeps {s0 s : State} (h : Keeps s0 s) : ∀ a1 a2 a3 a4 a5 a6, OutKeeps s0 (execMemAdd a1 a2 a3 a4 a5 a6 s) := by
  intro a1 a2 a3 a4 a5 a6
  unfold execMemAdd
  repeat' first
    | with_reducible assumption
    | with_reducible apply when_keeps
    | with_reducible apply memRequest_keeps

theorem tagRefresh1_keeps {s0 s : State} (h : Keeps s0 s) : ∀ a1, Keeps s0 (tagRefresh1 a1 s) := by
  intro a1
  unfold tagRefresh1
  repeat' first
    | with_reducible assumption
    | with_reducible apply stampSector_keeps
    | with_reducible apply updChan_keeps
    | split

theorem execStackTempSample_keeps {s0 s : State} (h : Keeps s0 s) : ∀ a1 a2, OutKeeps s0 (execStackTempSample a1 a2 s) := by
  intro a1 a2
  unfold execStackTempSample
  repeat' first
    | with_reducible assumption
    | with_reducible apply updStack_keeps
    | with_reducible apply when_keeps
    | with_reducible apply fault_keeps
    | with_reducible apply raiseInt_keeps
    | with_reducible refine Keeps.ite ?_ ?_

theorem execTagRefresh_keeps {s0 s : State} (h : Keeps s0 s) : ∀ a1, OutKeeps s0 (execTagRefresh a1 s) := by
  intro a1
  unfold execTagRefresh
  repeat' first
    | with_reducible assumption
    | with_reducible apply when_keeps
    | with_reducible apply tagRefresh1_keeps

theorem setMig_keeps {s0 s : State} (h : Keeps s0 s) : ∀ a1 a2, Keeps s0 (setMig a1 a2 s) := by
  intro a1 a2
  unfold setMig
  repeat' first
    | ((with_reducible apply Keeps.mk') <;> first | with_reducible assumption | with_reducible exact Nat.le_refl _ | with_reducible exact fun m => ⟨m.host, m.intake, m.fabric, m.nvm, m.sram, m.stk, m.owned, m.log, m.tiles, m.loc, m.saved⟩)
    | with_reducible refine Keeps.ite ?_ ?_

theorem lineDraw_keeps {s0 s : State} (h : Keeps s0 s) : Keeps s0 (lineDraw s) := by
  unfold lineDraw
  repeat' first
    | with_reducible assumption
    | with_reducible apply needDraw_keeps

theorem powered_keeps {s0 s : State} (h : Keeps s0 s) (f : State → State) (hf : ∀ s, Keeps s0 s → Keeps s0 (f s)) : Keeps s0 (powered f s) := by
  unfold powered
  exact settleUse_keeps h _ (fun _ _ h => h) (hf _ (unused_keeps h))

theorem execMemWrite_keeps {s0 s : State} (h : Keeps s0 s) : ∀ a1 a2 a3 a4 a5 a6, OutKeeps s0 (execMemWrite a1 a2 a3 a4 a5 a6 s) := by
  intro a1 a2 a3 a4 a5 a6
  unfold execMemWrite
  repeat' first
    | with_reducible assumption
    | with_reducible apply when_keeps
    | with_reducible apply memRequest_keeps

theorem memSkew_keeps {s0 s : State} (h : Keeps s0 s) : Keeps s0 (memSkew s) := by
  unfold memSkew
  repeat' first
    | with_reducible apply raiseInt_keeps
    | ((with_reducible apply Keeps.mk') <;> first | with_reducible assumption | with_reducible apply raiseInt_keeps | with_reducible apply Keeps.foldl | (with_reducible refine Keeps.snd (by assumption) ?_) | (with_reducible refine Keeps.snd2 (by assumption) ?_) | with_reducible exact Nat.le_refl _ | with_reducible exact fun m => ⟨m.host, m.intake, m.fabric, m.nvm, m.sram, m.stk, m.owned, m.log, m.tiles, m.loc, m.saved⟩)
    | with_reducible refine Keeps.ite ?_ ?_

theorem execMemRead_keeps {s0 s : State} (h : Keeps s0 s) : ∀ a1 a2 a3 a4, OutKeeps s0 (execMemRead a1 a2 a3 a4 s) := by
  intro a1 a2 a3 a4
  unfold execMemRead
  repeat' first
    | with_reducible assumption
    | with_reducible apply when_keeps
    | with_reducible apply memRequest_keeps

theorem hotAtSlice_keeps {s0 s : State} (h : Keeps s0 s) : Keeps s0 (hotAtSlice s) := by
  unfold hotAtSlice
  repeat' first
    | with_reducible assumption
    | with_reducible apply updStack_keeps
    | with_reducible apply Keeps.foldl
    | intro _

theorem runHeadP_keeps {s0 s : State} (h : Keeps s0 s) (i : Instr) (q op : Nat) (f : Cmd → State → State)
    (hf : ∀ c s, Keeps s0 s → Keeps s0 (f c s)) : OutKeeps s0 (runHeadP i q op f s) := by
  unfold runHeadP
  refine OutKeeps.next ?_
  split
  · exact poweredBy_keeps h _ _ fun s hs => hf _ _ (updHead_keeps hs _ _)
  · exact h

theorem runJobP_keeps {s0 s : State} (h : Keeps s0 s) (i : Instr) (q op : Nat) (f : Cmd → State → State)
    (hf : ∀ c s, Keeps s0 s → Keeps s0 (f c s)) : OutKeeps s0 (runJobP i q op f s) := by
  unfold runJobP
  refine runHeadP_keeps h i q op _ fun c s hs => ?_
  split
  · exact endHead_keeps hs _ _ _ _
  · exact hf _ _ hs

theorem runJobNowP_keeps {s0 s : State} (h : Keeps s0 s) (i : Instr) (q op : Nat) (f : Cmd → State → Nat × Nat × State)
    (hf : ∀ c s, Keeps s0 s → Keeps s0 (f c s).2.2) : OutKeeps s0 (runJobNowP i q op f s) := by
  unfold runJobNowP
  exact runJobP_keeps h i q op _ fun c s hs => endHead_keeps (hf c s hs) _ _ _ _

theorem whenP_keeps {s0 s : State} (h : Keeps s0 s) (i : Instr) (c : Bool) (f : State → State) (hf : ∀ s, Keeps s0 s → Keeps s0 (f s)) : OutKeeps s0 (whenP i c f s) := by
  unfold whenP
  exact when_keeps h c _ (poweredBy_keeps h i f hf)

theorem poweredOut_keeps {s0 s : State} (h : Keeps s0 s) (i : Instr) (f : State → Out) (hf : ∀ s, Keeps s0 s → OutKeeps s0 (f s)) : OutKeeps s0 (poweredOut i f s) := by
  unfold poweredOut
  have h1 := hf (unused s) (unused_keeps h)
  split
  · next e => exact OutKeeps.next (settleUse_keeps h _ (fun _ _ h => holdFrom_keeps h _ _ _ _) (h1.keeps _ e))
  · exact h1

theorem planSteps_keeps {s0 s : State} (h : Keeps s0 s) : Keeps s0 (planSteps s) := by
  unfold planSteps
  repeat' first
    | with_reducible assumption
    | with_reducible apply updStack_keeps
    | with_reducible apply Keeps.foldl
    | ((with_reducible apply Keeps.mk') <;> first | with_reducible assumption | with_reducible apply updStack_keeps | with_reducible apply Keeps.foldl | (with_reducible refine Keeps.snd (by assumption) ?_) | (with_reducible refine Keeps.snd2 (by assumption) ?_) | with_reducible exact Nat.le_refl _ | with_reducible exact fun m => ⟨m.host, m.intake, m.fabric, m.nvm, m.sram, m.stk, m.owned, m.log, m.tiles, m.loc, m.saved⟩)
    | intro _

theorem RdRes.keepsOk {s0 t : State} {d p} (h : Keeps s0 t) : Keeps s0 (RdRes.ok d p t).state := h

theorem RdRes.keepsUn {s0 t : State} {d} (h : Keeps s0 t) : Keeps s0 (RdRes.unmapped d t).state := h

theorem WrRes.keepsOk {s0 t : State} {d} (h : Keeps s0 t) : Keeps s0 (WrRes.ok d t).state := h

theorem WrRes.keepsUn {s0 t : State} {d} (h : Keeps s0 t) : Keeps s0 (WrRes.unmapped d t).state := h

theorem copyWait_keeps {s0 s : State} (h : Keeps s0 s) : ∀ a1 a2 a3, Keeps s0 (copyWait a1 a2 a3 s) := by
  intro a1 a2 a3
  unfold copyWait
  repeat' first
    | with_reducible assumption
    | with_reducible apply markUse_keeps
    | with_reducible refine Keeps.ite ?_ ?_

theorem hostTouch_keeps {s0 s : State} (h : Keeps s0 s) : ∀ a1, Keeps s0 (hostTouch a1 s) := by
  intro a1
  unfold hostTouch
  repeat' first
    | with_reducible assumption
    | with_reducible apply sendTouch_keeps

theorem giveLine_keeps {s0 s : State} (h : Keeps s0 s) : ∀ a1, Keeps s0 (giveLine a1 s) := by
  intro a1
  unfold giveLine
  repeat' first
    | with_reducible assumption
    | with_reducible apply hostWrite_keeps
    | ((with_reducible apply Keeps.mk') <;> first | with_reducible assumption | with_reducible apply hostWrite_keeps | with_reducible exact Nat.le_refl _ | with_reducible exact fun m => ⟨m.host, m.intake, m.fabric, m.nvm, m.sram, m.stk, m.owned, m.log, m.tiles, m.loc, m.saved⟩)
    | with_reducible refine Keeps.ite ?_ ?_
    | split

theorem sendCxl_keeps {s0 s : State} (h : Keeps s0 s) : ∀ a1 a2, Keeps s0 (sendCxl a1 a2 s) := by
  intro a1 a2
  unfold sendCxl
  repeat' first
    | ((with_reducible apply Keeps.mk') <;> first | with_reducible assumption | with_reducible exact Nat.le_refl _ | with_reducible exact fun m => ⟨m.host, m.intake, m.fabric, m.nvm, m.sram, m.stk, m.owned, m.log, m.tiles, m.loc, m.saved⟩)

theorem evictLine_keeps {s0 s : State} (h : Keeps s0 s) : ∀ a1, Keeps s0 (evictLine a1 s) := by
  intro a1
  unfold evictLine
  repeat' first
    | with_reducible assumption
    | with_reducible apply sendCxl_keeps
    | with_reducible apply giveLine_keeps
    | split

theorem putLine_keeps {s0 s : State} (h : Keeps s0 s) : ∀ a1 a2, Keeps s0 (putLine a1 a2 s) := by
  intro a1 a2
  unfold putLine
  repeat' first
    | with_reducible assumption
    | ((with_reducible apply Keeps.mk') <;> first | with_reducible assumption | with_reducible apply evictLine_keeps | with_reducible exact Nat.le_refl _ | with_reducible exact fun m => ⟨m.host, m.intake, m.fabric, m.nvm, m.sram, m.stk, m.owned, m.log, m.tiles, m.loc, m.saved⟩)
    | split

theorem readPiece_keeps {s0 s : State} (h : Keeps s0 s) : ∀ a1 a2, Keeps s0 (readPiece a1 a2 s).2.2 := by
  intro a1 a2
  unfold readPiece
  repeat' first
    | with_reducible assumption
    | with_reducible apply hostTouch_keeps
    | with_reducible apply lineDraw_keeps
    | with_reducible apply readSector_keeps
    | with_reducible apply sendCxl_keeps
    | with_reducible apply putLine_keeps
    | with_reducible apply memDraws_keeps
    | with_reducible apply count_keeps
    | with_reducible refine Keeps.ite ?_ ?_
    | split

theorem urngFault_keeps {s0 s : State} (h : Keeps s0 s) : ∀ a1 a2 a3, Keeps s0 (urngFault a1 a2 a3 s) := by
  intro a1 a2 a3
  unfold urngFault
  repeat' first
    | with_reducible assumption
    | with_reducible apply setReg_keeps
    | with_reducible apply raiseInt_keeps

theorem hostMet_keeps {s0 s : State} (h : Keeps s0 s) : ∀ a1 a2 a3 a4, Keeps s0 (hostMet a1 a2 a3 a4 s) := by
  intro a1 a2 a3 a4
  unfold hostMet
  repeat' first
    | with_reducible assumption
    | with_reducible apply urngFault_keeps
    | with_reducible refine Keeps.ite ?_ ?_
    | split

theorem rangeRead_keeps {s0 s : State} (h : Keeps s0 s) : ∀ a1 a2 a3, Keeps s0 (rangeRead a1 a2 a3 s).state := by
  intro a1 a2 a3
  unfold rangeRead
  repeat' first
    | with_reducible assumption
    | with_reducible apply hostMet_keeps
    | with_reducible apply copyWait_keeps
    | with_reducible apply readPiece_keeps
    | with_reducible apply urngFault_keeps
    | with_reducible apply Keeps.foldl3
    | with_reducible apply RdRes.keepsOk
    | with_reducible apply RdRes.keepsUn
    | (with_reducible refine Keeps.snd2 (by assumption) ?_)
    | split
    | intro _

theorem setHostPoison_keeps {s0 s : State} (h : Keeps s0 s) : ∀ a1 a2, Keeps s0 (setHostPoison a1 a2 s) := by
  intro a1 a2
  unfold setHostPoison
  repeat' first
    | ((with_reducible apply Keeps.mk') <;> first | with_reducible assumption | with_reducible exact Nat.le_refl _ | with_reducible exact fun m => ⟨m.host, m.intake, m.fabric, m.nvm, m.sram, m.stk, m.owned, m.log, m.tiles, m.loc, m.saved⟩)

theorem sealLine_keeps {s0 s : State} (h : Keeps s0 s) : ∀ a1, Keeps s0 (sealLine a1 s) := by
  intro a1
  unfold sealLine
  repeat' first
    | with_reducible assumption
    | with_reducible apply sendCxl_keeps
    | with_reducible apply hostWrite_keeps

theorem writeOwned_keeps {s0 s : State} (h : Keeps s0 s) : ∀ a1 a2, Keeps s0 (writeOwned a1 a2 s) := by
  intro a1 a2
  unfold writeOwned
  apply sealLine_keeps
  have ho := fun (m : s0.MemsOk) => Tbl.wf_foldl_put (List.range a2.length) (fun i => a1 + i) (fun i => byteAt a2 i) _ (h.mems m).owned
  have h1 : Keeps s0 (if a2.length < 64 then sendCxl .rdCurr (a1 / 64) s else s) := Keeps.ite (sendCxl_keeps h _ _) h
  exact ⟨h1.pending, h1.now, fun m0 => have m := h1.mems m0; ⟨m.host, m.intake, m.fabric, m.nvm, m.sram, m.stk, ho m0, m.log, m.tiles, m.loc, m.saved⟩⟩

theorem ownLine_keeps {s0 s : State} (h : Keeps s0 s) : ∀ a1, Keeps s0 (ownLine a1 s) := by
  intro a1
  unfold ownLine
  repeat' first
    | with_reducible assumption
    | with_reducible apply sendCxl_keeps
    | with_reducible refine Keeps.ite ?_ ?_
    | split

theorem writeShared_keeps {s0 s : State} (h : Keeps s0 s) : ∀ a1 a2, Keeps s0 (writeShared a1 a2 s) := by
  intro a1 a2
  unfold writeShared
  repeat' first
    | with_reducible assumption
    | with_reducible apply ownLine_keeps
    | with_reducible apply putLine_keeps

theorem linePoison_keeps {s0 s : State} (h : Keeps s0 s) : ∀ a1 a2, Keeps s0 (linePoison a1 a2 s) := by
  intro a1 a2
  unfold linePoison
  repeat' first
    | with_reducible assumption
    | with_reducible apply setHostPoison_keeps
    | with_reducible refine Keeps.ite ?_ ?_

theorem writePiece_keeps {s0 s : State} (h : Keeps s0 s) : ∀ a1 a2 a3, Keeps s0 (writePiece a1 a2 a3 s).2 := by
  intro a1 a2 a3
  unfold writePiece
  repeat' first
    | with_reducible assumption
    | with_reducible apply writeOwned_keeps
    | with_reducible apply hostTouch_keeps
    | with_reducible apply lineDraw_keeps
    | with_reducible apply linePoison_keeps
    | with_reducible apply writeSector_keeps
    | with_reducible apply memDraws_keeps
    | with_reducible apply writeShared_keeps
    | split

theorem rangeWriteP_keeps {s0 s : State} (h : Keeps s0 s) : ∀ a1 a2 a3 a4, Keeps s0 (rangeWriteP a1 a2 a3 a4 s).state := by
  intro a1 a2 a3 a4
  unfold rangeWriteP
  repeat' first
    | with_reducible assumption
    | with_reducible apply hostMet_keeps
    | with_reducible apply writePiece_keeps
    | with_reducible apply copyWait_keeps
    | with_reducible apply urngFault_keeps
    | with_reducible apply Keeps.foldl2
    | with_reducible apply WrRes.keepsOk
    | with_reducible apply WrRes.keepsUn
    | (with_reducible refine Keeps.snd (by assumption) ?_)
    | split
    | intro _

theorem evictDirty_keeps {s0 s : State} (h : Keeps s0 s) : Keeps s0 (evictDirty s) := by
  unfold evictDirty
  repeat' first
    | with_reducible assumption
    | with_reducible apply evictLine_keeps
    | with_reducible apply Keeps.foldl
    | split
    | intro _

theorem rangeWrite_keeps {s0 s : State} (h : Keeps s0 s) : ∀ a1 a2 a3, Keeps s0 (rangeWrite a1 a2 a3 s).state := by
  intro a1 a2 a3
  unfold rangeWrite
  repeat' first
    | with_reducible assumption
    | with_reducible apply rangeWriteP_keeps

theorem noteHostFree_keeps {s0 s : State} (h : Keeps s0 s) : ∀ a1, Keeps s0 (noteHostFree a1 s) := by
  intro a1
  unfold noteHostFree
  repeat' first
    | with_reducible assumption
    | with_reducible apply raiseInt_keeps
    | with_reducible refine Keeps.ite ?_ ?_

theorem takeHost_keeps {s0 s : State} (h : Keeps s0 s) : ∀ a1 a2 a3, Keeps s0 (takeHost a1 a2 a3 s) := by
  intro a1 a2 a3
  unfold takeHost
  repeat' first
    | with_reducible apply noteHostFree_keeps
    | ((with_reducible apply Keeps.mk') <;> first | with_reducible assumption | with_reducible apply noteHostFree_keeps | with_reducible exact Nat.le_refl _ | with_reducible exact fun m => ⟨m.host, m.intake, m.fabric, m.nvm, m.sram, m.stk, m.owned, m.log, m.tiles, m.loc, m.saved⟩)

theorem evictFrame_keeps {s0 s : State} (h : Keeps s0 s) : ∀ a1, Keeps s0 (evictFrame a1 s) := by
  intro a1
  unfold evictFrame
  repeat' first
    | with_reducible assumption
    | with_reducible apply evictLine_keeps
    | with_reducible apply Keeps.foldl
    | intro _

theorem freeBacking_keeps {s0 s : State} (h : Keeps s0 s) : ∀ a1, Keeps s0 (freeBacking a1 s) := by
  intro b
  unfold freeBacking
  split
  · exact h.mk' (Nat.le_refl _) fun m => ⟨m.host, m.intake, m.fabric, m.nvm, m.sram, m.stk, m.owned, m.log, m.tiles, m.loc, m.saved⟩
  · exact h.mk' (Nat.le_refl _) fun m => ⟨m.host, m.intake, m.fabric, m.nvm, m.sram, m.stk, Tbl.wf_sublist List.filter_sublist m.owned, m.log, m.tiles, m.loc, m.saved⟩
  · exact (evictFrame_keeps h _).mk' (Nat.le_refl _) fun m => ⟨m.host, m.intake, m.fabric, m.nvm, m.sram, m.stk, m.owned, m.log, m.tiles, m.loc, m.saved⟩

theorem delPage_keeps {s0 s : State} (h : Keeps s0 s) : ∀ a1 a2, Keeps s0 (delPage a1 a2 s) := by
  intro a1 a2
  unfold delPage
  repeat' first
    | ((with_reducible apply Keeps.mk') <;> first | with_reducible assumption | with_reducible exact Nat.le_refl _ | with_reducible exact fun m => ⟨m.host, m.intake, m.fabric, m.nvm, m.sram, m.stk, m.owned, m.log, m.tiles, m.loc, m.saved⟩)

theorem putPage_keeps {s0 s : State} (h : Keeps s0 s) : ∀ a1 a2 a3, Keeps s0 (putPage a1 a2 a3 s) := by
  intro a1 a2 a3
  unfold putPage
  repeat' first
    | ((with_reducible apply Keeps.mk') <;> first | with_reducible assumption | with_reducible exact Nat.le_refl _ | with_reducible exact fun m => ⟨m.host, m.intake, m.fabric, m.nvm, m.sram, m.stk, m.owned, m.log, m.tiles, m.loc, m.saved⟩)

theorem rangeAdd_keeps {s0 s : State} (h : Keeps s0 s) : ∀ a1 a2 a3 a4 a5, Keeps s0 (rangeAdd a1 a2 a3 a4 a5 s).2.2 := by
  intro a1 a2 a3 a4 a5
  unfold rangeAdd
  repeat' first
    | with_reducible assumption
    | with_reducible apply hostMet_keeps
    | with_reducible apply writePiece_keeps
    | with_reducible apply copyWait_keeps
    | with_reducible apply readPiece_keeps
    | with_reducible apply orReg_keeps
    | with_reducible apply addToSector_keeps
    | with_reducible apply urngFault_keeps
    | with_reducible apply memDraws_keeps
    | split
    | dsimp only

theorem takeFrame_keeps {s0 s : State} (h : Keeps s0 s) : ∀ a1 a2 a3, Keeps s0 (takeFrame a1 a2 a3 s) := by
  intro a1 a2 a3
  unfold takeFrame
  repeat' first
    | ((with_reducible apply Keeps.mk') <;> first | with_reducible assumption | with_reducible exact Nat.le_refl _ | with_reducible exact fun m => ⟨m.host, m.intake, m.fabric, m.nvm, m.sram, m.stk, m.owned, m.log, m.tiles, m.loc, m.saved⟩)

theorem coldPage_keeps {s0 s : State} (h : Keeps s0 s) : ∀ a1, Keeps s0 (coldPage a1 s) := by
  intro a1
  unfold coldPage
  repeat' first
    | ((with_reducible apply Keeps.mk') <;> first | with_reducible assumption | with_reducible exact Nat.le_refl _ | with_reducible exact fun m => ⟨m.host, m.intake, m.fabric, m.nvm, m.sram, m.stk, m.owned, m.log, m.tiles, m.loc, m.saved⟩)

theorem frameDraws_keeps {s0 s : State} (h : Keeps s0 s) : Keeps s0 (frameDraws s) := by
  unfold frameDraws
  repeat' first
    | with_reducible assumption
    | with_reducible apply needDraw_keeps
    | ((with_reducible apply Keeps.mk') <;> first | with_reducible assumption | with_reducible apply needDraw_keeps | with_reducible apply Keeps.foldl | (with_reducible refine Keeps.snd (by assumption) ?_) | (with_reducible refine Keeps.snd2 (by assumption) ?_) | with_reducible exact Nat.le_refl _ | with_reducible exact fun m => ⟨m.host, m.intake, m.fabric, m.nvm, m.sram, m.stk, m.owned, m.log, m.tiles, m.loc, m.saved⟩)
    | intro _

theorem zeroFrame_keeps {s0 s : State} (h : Keeps s0 s) : ∀ a1, Keeps s0 (zeroFrame a1 s) := by
  intro f
  unfold zeroFrame
  extract_lets lo n s2 s3 out age0 mid
  have h2 : Keeps s0 s2 := frameDraws_keeps h
  have h3 : Keeps s0 s3 := Keeps.foldl h2 fun _ _ hs => sendTouch_keeps hs _ _
  clear_value s2 s3 out age0 mid lo n
  exact h3.mk' (Nat.le_refl _) fun m => ⟨m.host, m.intake, m.fabric, m.nvm, m.sram, Mem.wf_filter _ _ _ m.stk, m.owned, m.log, m.tiles, m.loc, m.saved⟩

theorem Keeps.wrOk {s0 : State} {r : WrRes} {d t} (e : r = .ok d t) (h : Keeps s0 r.state) : Keeps s0 t := by subst e; exact h

theorem Keeps.wrUn {s0 : State} {r : WrRes} {a t} (e : r = .unmapped a t) (h : Keeps s0 r.state) : Keeps s0 t := by subst e; exact h

theorem Keeps.rdOk {s0 : State} {r : RdRes} {d p t} (e : r = .ok d p t) (h : Keeps s0 r.state) : Keeps s0 t := by subst e; exact h

theorem Keeps.rdUn {s0 : State} {r : RdRes} {a t} (e : r = .unmapped a t) (h : Keeps s0 r.state) : Keeps s0 t := by subst e; exact h

theorem beginCopy_keeps {s0 s : State} (h : Keeps s0 s) : ∀ a1, Keeps s0 (beginCopy a1 s) := by
  intro a1
  unfold beginCopy
  repeat' first
    | with_reducible assumption
    | with_reducible apply setMig_keeps
    | with_reducible refine Keeps.ite ?_ ?_
    | split

theorem execHtierAdd_keeps {s0 s : State} (h : Keeps s0 s) : ∀ a1, OutKeeps s0 (execHtierAdd a1 s) := by
  intro a1
  unfold execHtierAdd
  repeat' first
    | with_reducible assumption
    | with_reducible apply runNow_keeps
    | ((with_reducible apply Keeps.mk') <;> first | with_reducible assumption | with_reducible apply runNow_keeps | with_reducible apply OutKeeps.next | with_reducible exact OutKeeps.fault | with_reducible exact Nat.le_refl _ | with_reducible exact fun m => ⟨m.host, m.intake, m.fabric, m.nvm, m.sram, m.stk, m.owned, m.log, m.tiles, m.loc, m.saved⟩)
    | split
    | intro _
    | dsimp only

theorem adoptLine_keeps {s0 s : State} (h : Keeps s0 s) : ∀ a1, Keeps s0 (adoptLine a1 s) := by
  intro a1
  unfold adoptLine
  repeat' first
    | with_reducible assumption
    | with_reducible apply writeOwned_keeps
    | ((with_reducible apply Keeps.mk') <;> first | with_reducible assumption | with_reducible apply writeOwned_keeps | with_reducible apply ownLine_keeps | with_reducible exact Nat.le_refl _ | with_reducible exact fun m => ⟨m.host, m.intake, m.fabric, m.nvm, m.sram, m.stk, m.owned, m.log, m.tiles, m.loc, m.saved⟩)

theorem adoptLines_keeps {s0 s : State} (h : Keeps s0 s) : ∀ a1, Keeps s0 (adoptLines a1 s) := by
  intro a1
  unfold adoptLines
  repeat' first
    | with_reducible assumption
    | with_reducible apply adoptLine_keeps
    | with_reducible apply Keeps.foldl
    | intro _

theorem touchFrame_keeps {s0 s : State} (h : Keeps s0 s) : ∀ a1, Keeps s0 (touchFrame a1 s) := by
  intro a1
  unfold touchFrame
  repeat' first
    | with_reducible assumption
    | with_reducible apply hostTouch_keeps
    | with_reducible apply Keeps.foldl
    | intro _

theorem adoptPage_keeps {s0 s : State} (h : Keeps s0 s) : ∀ a1 a2, Keeps s0 (adoptPage a1 a2 s) := by
  intro a1 a2
  unfold adoptPage
  repeat' first
    | with_reducible assumption
    | with_reducible apply lineDraw_keeps
    | with_reducible apply adoptLines_keeps
    | with_reducible apply touchFrame_keeps
    | with_reducible apply putPage_keeps
    | split

theorem execAdopt_keeps {s0 s : State} (h : Keeps s0 s) : ∀ a1, OutKeeps s0 (execAdopt a1 s) := by
  intro a1
  unfold execAdopt
  repeat' first
    | with_reducible assumption
    | with_reducible apply adoptPage_keeps
    | with_reducible apply runJobNowP_keeps
    | with_reducible apply Keeps.foldl
    | split
    | intro _
    | dsimp only

theorem execTouch_keeps {s0 s : State} (h : Keeps s0 s) : ∀ a1 a2, OutKeeps s0 (execTouch a1 a2 s) := by
  intro a1 a2
  unfold execTouch
  repeat' first
    | with_reducible assumption
    | with_reducible apply when_keeps
    | ((with_reducible apply Keeps.mk') <;> first | with_reducible assumption | with_reducible apply when_keeps | with_reducible apply OutKeeps.next | with_reducible exact OutKeeps.fault | with_reducible exact Nat.le_refl _ | with_reducible exact fun m => ⟨m.host, m.intake, m.fabric, m.nvm, m.sram, m.stk, m.owned, m.log, m.tiles, m.loc, m.saved⟩)
    | split
    | dsimp only

theorem execUnmap_keeps {s0 s : State} (h : Keeps s0 s) : ∀ a1, OutKeeps s0 (execUnmap a1 s) := by
  intro a1
  unfold execUnmap
  repeat' first
    | with_reducible assumption
    | with_reducible apply endHead_keeps
    | with_reducible apply runJob_keeps
    | ((with_reducible apply Keeps.mk') <;> first | with_reducible assumption | with_reducible apply endHead_keeps | with_reducible apply runJob_keeps | with_reducible apply OutKeeps.next | with_reducible exact OutKeeps.fault | with_reducible exact Nat.le_refl _ | with_reducible exact fun m => ⟨m.host, m.intake, m.fabric, m.nvm, m.sram, m.stk, m.owned, m.log, m.tiles, m.loc, m.saved⟩)
    | split
    | intro _

theorem copySector_keeps {s0 s : State} (h : Keeps s0 s) : ∀ a1 a2 a3, Keeps s0 (copySector a1 a2 a3 s) := by
  intro a1 a2 a3
  unfold copySector
  repeat' first
    | with_reducible assumption
    | with_reducible apply writePiece_keeps
    | with_reducible apply readPiece_keeps

theorem copySectors_keeps {s0 s : State} (h : Keeps s0 s) : ∀ a1 a2 a3 a4, Keeps s0 (copySectors a1 a2 a3 a4 s) := by
  intro a1 a2 a3 a4
  unfold copySectors
  repeat' first
    | with_reducible assumption
    | with_reducible apply copySector_keeps
    | with_reducible apply Keeps.foldl
    | intro _

theorem handbackPage_keeps {s0 s : State} (h : Keeps s0 s) : ∀ a1 a2, ∀ t, handbackPage a1 a2 s = some t → Keeps s0 t := by
  intro j vpn t e
  unfold handbackPage at e
  split at e
  · cases e
  · split at e
    · cases e
    · next f _ =>
      injection e with e
      subst e
      refine lineDraw_keeps (touchFrame_keeps (putPage_keeps (hostWrite_keeps ?_ _ _) _ _ _) _)
      exact h.mk' (Nat.le_refl _) fun m => ⟨m.host, m.intake, m.fabric, m.nvm, m.sram, m.stk, Tbl.wf_sublist List.filter_sublist m.owned, m.log, m.tiles, m.loc, m.saved⟩
    · split at e
      · cases e
      · injection e with e
        subst e
        have h2 := fun b c n k f v => evictDirty_keeps (copySectors_keeps (takeHost_keeps h f j v) b c n k)
        refine putPage_keeps (freeBacking_keeps ?_ _) _ _ _
        generalize hs : evictDirty _ = s2
        have h3 : Keeps s0 s2 := by rw [← hs]; exact h2 _ _ _ _ _ _
        exact h3.mk' (Nat.le_refl _) fun m => ⟨m.host, m.intake, m.fabric, m.nvm, m.sram, m.stk, m.owned, m.log, m.tiles, m.loc, m.saved⟩

theorem handbackAll_keeps {s0 s : State} (h : Keeps s0 s) : ∀ a1 a2 a3 t, handbackAll a1 a2 a3 s = some t → Keeps s0 t := by
  intro a1 a2 a3
  induction a3 generalizing s a2 with
  | zero => intro t e; cases e; exact h
  | succ n ih =>
    intro t e
    obtain ⟨s1, h1, h2⟩ := Option.bind_eq_some_iff.1 e
    exact ih (handbackPage_keeps h _ _ _ h1) _ _ h2

theorem wantFrames_keeps {s0 s : State} (h : Keeps s0 s) : Keeps s0 (wantFrames s) := by
  unfold wantFrames
  repeat' first
    | ((with_reducible apply Keeps.mk') <;> first | with_reducible assumption | with_reducible exact Nat.le_refl _ | with_reducible exact fun m => ⟨m.host, m.intake, m.fabric, m.nvm, m.sram, m.stk, m.owned, m.log, m.tiles, m.loc, m.saved⟩)

theorem execMigrationStart_keeps {s0 s : State} (h : Keeps s0 s) : ∀ a1 a2 a3, OutKeeps s0 (execMigrationStart a1 a2 a3 s) := by
  intro a1 a2 a3
  unfold execMigrationStart
  repeat' first
    | with_reducible assumption
    | with_reducible apply takeHost_keeps
    | with_reducible apply reserve_keeps
    | with_reducible apply when_keeps
    | with_reducible apply wantFrames_keeps
    | with_reducible apply beginCopy_keeps
    | with_reducible apply takeFrame_keeps
    | ((with_reducible apply Keeps.mk') <;> first | with_reducible assumption | with_reducible apply takeHost_keeps | with_reducible apply reserve_keeps | with_reducible apply when_keeps | with_reducible apply wantFrames_keeps | with_reducible apply putPage_keeps | with_reducible apply beginCopy_keeps | with_reducible apply takeFrame_keeps | with_reducible apply OutKeeps.next | with_reducible exact OutKeeps.fault | with_reducible exact Nat.le_refl _ | with_reducible exact fun m => ⟨m.host, m.intake, m.fabric, m.nvm, m.sram, m.stk, m.owned, m.log, m.tiles, m.loc, m.saved⟩)
    | with_reducible refine Keeps.ite ?_ ?_
    | split

theorem ownedFill_keeps {s0 s : State} (h : Keeps s0 s) : ∀ a1 a2, Keeps s0 (ownedFill a1 a2 s) := by
  intro a1 a2
  unfold ownedFill
  generalize List.range 64 = l
  split
  · exact h
  · apply hostWrite_keeps
    exact h.mk' (Nat.le_refl _) fun m => ⟨m.host, m.intake, m.fabric, m.nvm, m.sram, m.stk, Tbl.wf_foldl_put _ _ _ _ m.owned, m.log, m.tiles, m.loc, m.saved⟩

theorem hostPoisonSeen_keeps {s0 s : State} (h : Keeps s0 s) : ∀ a1 a2 a3, Keeps s0 (hostPoisonSeen a1 a2 a3 s) := by
  intro a1 a2 a3
  unfold hostPoisonSeen
  repeat' first
    | with_reducible assumption
    | with_reducible apply setHostPoison_keeps
    | with_reducible apply fault_keeps
    | with_reducible apply urngFault_keeps
    | with_reducible apply count_keeps
    | with_reducible refine Keeps.ite ?_ ?_

theorem hostLineWrite_keeps {s0 s : State} (h : Keeps s0 s) : ∀ a1 a2 a3 a4, Keeps s0 (hostLineWrite a1 a2 a3 a4 s) := by
  intro line shared mask data
  unfold hostLineWrite
  extract_lets whole s1 d s2
  have h1 : Keeps s0 s1 := Keeps.foldl h fun _ _ hs => Keeps.ite (setHostPoison_keeps hs _ _) hs
  clear_value s1
  have h2 : Keeps s0 s2 := Keeps.ite h1 (sendCxl_keeps h1 _ _)
  clear_value s2
  refine Keeps.ite h1 (Keeps.ite (putLine_keeps (ownLine_keeps h1 _) _ _) (sealLine_keeps (Keeps.foldl h2 fun _ _ hs => Keeps.ite ?_ hs) _))
  exact hs.mk' (Nat.le_refl _) fun m => ⟨m.host, m.intake, m.fabric, m.nvm, m.sram, m.stk, Tbl.wf_put _ _ _ m.owned, m.log, m.tiles, m.loc, m.saved⟩

theorem execHostLineResponse_keeps {s0 s : State} (h : Keeps s0 s) : ∀ a1 a2 a3 a4 a5 a6, OutKeeps s0 (execHostLineResponse a1 a2 a3 a4 a5 a6 s) := by
  intro a1 a2 a3 a4 a5 a6
  unfold execHostLineResponse
  repeat' first
    | with_reducible assumption
    | with_reducible apply hostPoisonSeen_keeps
    | with_reducible apply hostTouch_keeps
    | with_reducible apply whenP_keeps
    | with_reducible apply copyWait_keeps
    | with_reducible apply lineDraw_keeps
    | with_reducible apply ownedFill_keeps
    | with_reducible apply sendCxl_keeps
    | with_reducible apply setHostPoison_keeps
    | with_reducible apply putLine_keeps
    | with_reducible apply hostLineWrite_keeps
    | with_reducible apply hostWrite_keeps
    | with_reducible refine Keeps.ite ?_ ?_
    | split
    | intro _

theorem handVisit_keeps {s0 s : State} (h : Keeps s0 s) : Keeps s0 (handVisit s) := by
  unfold handVisit
  split
  · exact h
  · extract_lets wrapped free evicting dry fail thresh u s1 s2 sub summary u2 s3
    have h1 : Keeps s0 s1 := h.mk' (Nat.le_refl _) fun m => ⟨m.host, m.intake, m.fabric, m.nvm, m.sram, m.stk, m.owned, m.log, m.tiles, m.loc, m.saved⟩
    have h2 : Keeps s0 s2 := Keeps.ite (raiseInt_keeps (count_keeps h1 _ _ _) _ _) h1
    have h3 : Keeps s0 s3 := h2.mk' (Nat.le_refl _) fun m => ⟨m.host, m.intake, m.fabric, m.nvm, m.sram, m.stk, m.owned, m.log, m.tiles, m.loc, m.saved⟩
    clear_value s3 s2
    split
    · exact h2
    · exact Keeps.ite (h3.mk' (Nat.le_refl _) fun m => ⟨m.host, m.intake, m.fabric, m.nvm, m.sram, m.stk, m.owned, m.log, m.tiles, m.loc, m.saved⟩) h3

theorem handbackTry_keeps {s0 s : State} (h : Keeps s0 s) : ∀ a1 a2, Keeps s0 (handbackTry a1 a2 s) := by
  intro a1 a2
  unfold handbackTry
  repeat' first
    | with_reducible assumption
    | with_reducible apply endHead_keeps
    | (with_reducible refine handbackAll_keeps ?_ _ _ _ _ (by assumption))
    | with_reducible refine Keeps.ite ?_ ?_
    | split

theorem mapPage_keeps {s0 s : State} (h : Keeps s0 s) : ∀ a1 a2 a3 a4, Keeps s0 (mapPage a1 a2 a3 a4 s) := by
  intro a1 a2 a3 a4
  unfold mapPage
  repeat' first
    | with_reducible assumption
    | with_reducible apply coldPage_keeps
    | with_reducible apply takeHost_keeps
    | with_reducible apply zeroFrame_keeps
    | with_reducible apply putPage_keeps
    | with_reducible apply takeFrame_keeps
    | split

theorem mapAll_keeps {s0 s : State} (h : Keeps s0 s) : ∀ a1 a2 a3 a4 a5 a6 t, mapAll a1 a2 a3 a4 a5 a6 s = .ok t → Keeps s0 t := by
  intro a1 a2 a3 a4 a5 a6
  induction a6 generalizing s a5 with
  | zero => intro t e; cases e; exact h
  | succ n ih =>
    intro t e
    unfold mapAll at e
    split at e
    · exact ih (mapPage_keeps h _ _ _ _) _ _ e
    · cases e

theorem mapTry_keeps {s0 s : State} (h : Keeps s0 s) : ∀ a1 a2, Keeps s0 (mapTry a1 a2 s) := by
  intro a1 a2
  unfold mapTry
  repeat' first
    | with_reducible assumption
    | with_reducible apply endHead_keeps
    | with_reducible apply wantFrames_keeps
    | (with_reducible refine mapAll_keeps ?_ _ _ _ _ _ _ _ (by assumption))
    | with_reducible refine Keeps.ite ?_ ?_
    | split
    | dsimp only

theorem removeTry_keeps {s0 s : State} (h : Keeps s0 s) : ∀ a1 a2, Keeps s0 (removeTry a1 a2 s) := by
  intro a1 a2
  unfold removeTry
  repeat' first
    | with_reducible assumption
    | with_reducible apply noteHostFree_keeps
    | with_reducible apply endHead_keeps
    | ((with_reducible apply Keeps.mk') <;> first | with_reducible assumption | with_reducible apply noteHostFree_keeps | with_reducible apply endHead_keeps | with_reducible exact Nat.le_refl _ | with_reducible exact fun m => ⟨m.host, m.intake, m.fabric, m.nvm, m.sram, m.stk, m.owned, m.log, m.tiles, m.loc, m.saved⟩)
    | with_reducible refine Keeps.ite ?_ ?_
    | dsimp only

theorem retryRange_keeps {s0 s : State} (h : Keeps s0 s) : Keeps s0 (retryRange s) := by
  unfold retryRange
  repeat' first
    | ((with_reducible apply Keeps.mk') <;> first | with_reducible assumption | with_reducible exact Nat.le_refl _ | with_reducible exact fun m => ⟨m.host, m.intake, m.fabric, m.nvm, m.sram, m.stk, m.owned, m.log, m.tiles, m.loc, m.saved⟩)

theorem execHandVisit_keeps {s0 s : State} (h : Keeps s0 s) : OutKeeps s0 (execHandVisit s) := by
  unfold execHandVisit
  apply when_keeps h
  exact Keeps.ite (retryRange_keeps (handVisit_keeps h)) (handVisit_keeps h)

theorem dropPage_keeps {s0 s : State} (h : Keeps s0 s) : ∀ a1 a2, Keeps s0 (dropPage a1 a2 s) := by
  intro a1 a2
  unfold dropPage
  repeat' first
    | with_reducible apply ledgerReturn_keeps
    | with_reducible apply freeBacking_keeps
    | ((with_reducible apply Keeps.mk') <;> first | with_reducible assumption | with_reducible apply ledgerReturn_keeps | with_reducible apply freeBacking_keeps | with_reducible exact Nat.le_refl _ | with_reducible exact fun m => ⟨m.host, m.intake, m.fabric, m.nvm, m.sram, m.stk, m.owned, m.log, m.tiles, m.loc, m.saved⟩)
    | with_reducible refine Keeps.ite ?_ ?_
    | split

theorem unmapSpan_keeps {s0 s : State} (h : Keeps s0 s) : ∀ a1 a2 a3, Keeps s0 (unmapSpan a1 a2 a3 s) := by
  intro a1 a2 a3
  unfold unmapSpan
  repeat' first
    | with_reducible assumption
    | with_reducible apply dropPage_keeps
    | with_reducible apply Keeps.foldl
    | intro _

theorem execHandback_keeps {s0 s : State} (h : Keeps s0 s) : ∀ a1, OutKeeps s0 (execHandback a1 s) := by
  intro a1
  unfold execHandback
  repeat' first
    | with_reducible assumption
    | with_reducible apply runJobP_keeps
    | with_reducible apply handbackTry_keeps
    | intro _

theorem execMigrationSubblockCopied_keeps {s0 s : State} (h : Keeps s0 s) : ∀ a1, OutKeeps s0 (execMigrationSubblockCopied a1 s) := by
  intro a1
  unfold execMigrationSubblockCopied
  repeat' first
    | with_reducible assumption
    | with_reducible apply whenP_keeps
    | with_reducible apply setMig_keeps
    | with_reducible apply putPage_keeps
    | with_reducible apply copySectors_keeps
    | with_reducible apply beginCopy_keeps
    | with_reducible refine Keeps.ite ?_ ?_
    | split
    | intro _
    | dsimp only

theorem execCopy_keeps {s0 s : State} (h : Keeps s0 s) : ∀ a1, OutKeeps s0 (execCopy a1 s) := by
  intro a1
  unfold execCopy
  repeat' first
    | with_reducible assumption
    | with_reducible apply rangeWriteP_keeps
    | with_reducible apply runJobNowP_keeps
    | with_reducible apply rangeRead_keeps
    | (with_reducible refine Keeps.rdOk (by assumption) ?_)
    | (with_reducible refine Keeps.rdUn (by assumption) ?_)
    | (with_reducible refine Keeps.wrOk (by assumption) ?_)
    | (with_reducible refine Keeps.wrUn (by assumption) ?_)
    | split
    | intro _
    | dsimp only

theorem execStampAdvance_keeps {s0 s : State} (h : Keeps s0 s) : OutKeeps s0 (execStampAdvance s) := by
  unfold execStampAdvance
  repeat' first
    | with_reducible assumption
    | with_reducible apply when_keeps
    | ((with_reducible apply Keeps.mk') <;> first | with_reducible assumption | with_reducible apply when_keeps | with_reducible apply OutKeeps.next | with_reducible exact OutKeeps.fault | with_reducible exact Nat.le_refl _ | with_reducible exact fun m => ⟨m.host, m.intake, m.fabric, m.nvm, m.sram, m.stk, m.owned, m.log, m.tiles, m.loc, m.saved⟩)

theorem execDataIn_keeps {s0 s : State} (h : Keeps s0 s) : ∀ a1, OutKeeps s0 (execDataIn a1 s) := by
  intro a1
  unfold execDataIn
  repeat' first
    | with_reducible assumption
    | with_reducible apply endHead_keeps
    | with_reducible apply rangeWrite_keeps
    | with_reducible apply consume_keeps
    | with_reducible apply runHeadP_keeps
    | (with_reducible refine Keeps.wrOk (by assumption) ?_)
    | (with_reducible refine Keeps.wrUn (by assumption) ?_)
    | with_reducible refine Keeps.ite ?_ ?_
    | split
    | intro _

theorem execMigrationSourceFreed_keeps {s0 s : State} (h : Keeps s0 s) : ∀ a1, OutKeeps s0 (execMigrationSourceFreed a1 s) := by
  intro a1
  unfold execMigrationSourceFreed
  repeat' first
    | with_reducible assumption
    | with_reducible apply setMig_keeps
    | with_reducible apply when_keeps
    | with_reducible apply retryRange_keeps
    | with_reducible apply ledgerReturn_keeps
    | with_reducible apply freeBacking_keeps
    | with_reducible apply count_keeps
    | with_reducible refine Keeps.ite ?_ ?_
    | split

theorem execMap_keeps {s0 s : State} (h : Keeps s0 s) : ∀ a1, OutKeeps s0 (execMap a1 s) := by
  intro a1
  unfold execMap
  repeat' first
    | with_reducible assumption
    | with_reducible apply mapTry_keeps
    | with_reducible apply runJobP_keeps
    | intro _

theorem unmapEffects_keeps {s0 s : State} (h : Keeps s0 s) : Keeps s0 (unmapEffects s) := by
  unfold unmapEffects
  repeat' first
    | with_reducible assumption
    | with_reducible apply retryRange_keeps
    | with_reducible apply endCid_keeps
    | with_reducible apply Keeps.foldl
    | ((with_reducible apply Keeps.mk') <;> first | with_reducible assumption | with_reducible apply retryRange_keeps | with_reducible apply unmapSpan_keeps | with_reducible apply endCid_keeps | with_reducible apply Keeps.foldl | (with_reducible refine Keeps.snd (by assumption) ?_) | (with_reducible refine Keeps.snd2 (by assumption) ?_) | with_reducible exact Nat.le_refl _ | with_reducible exact fun m => ⟨m.host, m.intake, m.fabric, m.nvm, m.sram, m.stk, m.owned, m.log, m.tiles, m.loc, m.saved⟩)
    | with_reducible refine Keeps.ite ?_ ?_
    | split
    | intro _

theorem execCxlSnoop_keeps {s0 s : State} (h : Keeps s0 s) : ∀ a1 a2, OutKeeps s0 (execCxlSnoop a1 a2 s) := by
  intro a1 a2
  unfold execCxlSnoop
  repeat' first
    | with_reducible assumption
    | with_reducible apply when_keeps
    | with_reducible apply hostWrite_keeps
    | ((with_reducible apply Keeps.mk') <;> first | with_reducible assumption | with_reducible apply putLine_keeps | with_reducible apply when_keeps | with_reducible apply giveLine_keeps | with_reducible apply hostWrite_keeps | with_reducible apply OutKeeps.next | with_reducible exact OutKeeps.fault | with_reducible exact Nat.le_refl _ | with_reducible exact fun m => ⟨m.host, m.intake, m.fabric, m.nvm, m.sram, m.stk, m.owned, m.log, m.tiles, m.loc, m.saved⟩)
    | split

theorem execHtierRemove_keeps {s0 s : State} (h : Keeps s0 s) : ∀ a1, OutKeeps s0 (execHtierRemove a1 s) := by
  intro a1
  unfold execHtierRemove
  repeat' first
    | with_reducible assumption
    | with_reducible apply removeTry_keeps
    | with_reducible apply endHead_keeps
    | with_reducible apply runHead_keeps
    | ((with_reducible apply Keeps.mk') <;> first | with_reducible assumption | with_reducible apply removeTry_keeps | with_reducible apply endHead_keeps | with_reducible apply runHead_keeps | with_reducible apply OutKeeps.next | with_reducible exact OutKeeps.fault | with_reducible exact Nat.le_refl _ | with_reducible exact fun m => ⟨m.host, m.intake, m.fabric, m.nvm, m.sram, m.stk, m.owned, m.log, m.tiles, m.loc, m.saved⟩)
    | split
    | intro _

theorem rangeTry_keeps {s0 s : State} (h : Keeps s0 s) (f : State → State) (hf : ∀ s, Keeps s0 s → Keeps s0 (f s)) : Keeps s0 (rangeTry f s) := by
  unfold rangeTry
  exact settleUse_keeps h _ (fun _ _ h => retryRange_keeps h) (hf _ (unused_keeps h))

theorem rangeCycle_keeps {s0 s : State} (h : Keeps s0 s) : Keeps s0 (rangeCycle s) := by
  unfold rangeCycle
  repeat' first
    | with_reducible assumption
    | with_reducible apply removeTry_keeps
    | with_reducible apply mapTry_keeps
    | with_reducible apply rangeTry_keeps
    | with_reducible apply handbackTry_keeps
    | with_reducible apply Keeps.foldl
    | ((with_reducible apply Keeps.mk') <;> first | with_reducible assumption | with_reducible apply removeTry_keeps | with_reducible apply mapTry_keeps | with_reducible apply rangeTry_keeps | with_reducible apply handbackTry_keeps | with_reducible apply Keeps.foldl | (with_reducible refine Keeps.snd (by assumption) ?_) | (with_reducible refine Keeps.snd2 (by assumption) ?_) | with_reducible exact Nat.le_refl _ | with_reducible exact fun m => ⟨m.host, m.intake, m.fabric, m.nvm, m.sram, m.stk, m.owned, m.log, m.tiles, m.loc, m.saved⟩)
    | with_reducible refine Keeps.ite ?_ ?_
    | split
    | intro _

end Sys2Proof.Machine
end

