-- ==== Sys2Proof/Laws/KeepsTiles.lean ====
section
/-! SUPPORT. One lemma per function of the links, the tiles, their vector chains and their arrays: it keeps what `Keeps` names. -/

namespace Sys2Proof.Machine

theorem askLinks_keeps {s0 s : State} (h : Keeps s0 s) : Keeps s0 (askLinks s) := by
  unfold askLinks
  repeat' first
    | with_reducible assumption
    | with_reducible apply reserve_keeps
    | with_reducible apply Keeps.foldl
    | split
    | intro _

theorem setPort_keeps {s0 s : State} (h : Keeps s0 s) : ∀ a1 a2, Keeps s0 (setPort a1 a2 s) := by
  intro a1 a2
  unfold setPort
  repeat' first
    | ((with_reducible apply Keeps.mk') <;> first | with_reducible assumption | with_reducible exact Nat.le_refl _ | with_reducible exact fun m => ⟨m.host, m.intake, m.fabric, m.nvm, m.sram, m.stk, m.owned, m.log, m.tiles, m.loc, m.saved⟩)

theorem placeCtl_keeps {s0 s : State} (h : Keeps s0 s) : ∀ a1, Keeps s0 (placeCtl a1 s) := by
  intro a1
  unfold placeCtl
  repeat' first
    | with_reducible assumption
    | with_reducible apply setPort_keeps
    | ((with_reducible apply Keeps.mk') <;> first | with_reducible assumption | with_reducible apply setPort_keeps | with_reducible exact Nat.le_refl _ | with_reducible exact fun m => ⟨m.host, m.intake, m.fabric, m.nvm, m.sram, m.stk, m.owned, m.log, m.tiles, m.loc, m.saved⟩)
    | with_reducible refine Keeps.ite ?_ ?_
    | split
    | dsimp only

theorem placeFlit_keeps {s0 s : State} (h : Keeps s0 s) : ∀ a1 a2, Keeps s0 (placeFlit a1 a2 s) := by
  intro a1 a2
  unfold placeFlit
  repeat' first
    | with_reducible assumption
    | with_reducible apply setPort_keeps
    | with_reducible apply placeCtl_keeps
    | ((with_reducible apply Keeps.mk') <;> first | with_reducible assumption | with_reducible apply setPort_keeps | with_reducible apply placeCtl_keeps | with_reducible exact Nat.le_refl _ | with_reducible exact fun m => ⟨m.host, m.intake, m.fabric, m.nvm, m.sram, m.stk, m.owned, m.log, m.tiles, m.loc, m.saved⟩)
    | with_reducible refine Keeps.ite ?_ ?_
    | split
    | dsimp only

theorem pumpPort_keeps {s0 s : State} (h : Keeps s0 s) : ∀ a1 a2, Keeps s0 (pumpPort a1 a2 s) := by
  intro a1 a2
  induction a1 generalizing s a2 with
  | zero => unfold pumpPort; repeat' first
    | with_reducible assumption
  | succ n ih =>
    unfold pumpPort
    repeat' first
    | with_reducible assumption
    | with_reducible apply placeFlit_keeps
    | with_reducible apply ih
    | with_reducible refine Keeps.ite ?_ ?_
    | split

theorem pump_keeps {s0 s : State} (h : Keeps s0 s) : Keeps s0 (pump s) := by
  unfold pump
  repeat' first
    | with_reducible assumption
    | with_reducible apply askLinks_keeps
    | with_reducible apply pumpPort_keeps
    | with_reducible apply Keeps.foldl
    | with_reducible refine Keeps.ite ?_ ?_
    | intro _

theorem sprayMsg_keeps {s0 s : State} (h : Keeps s0 s) : ∀ a1, Keeps s0 (sprayMsg a1 s).2 := by
  intro a1
  unfold sprayMsg
  repeat' first
    | with_reducible assumption
    | ((with_reducible apply Keeps.mk') <;> first | with_reducible assumption | with_reducible exact Nat.le_refl _ | with_reducible exact fun m => ⟨m.host, m.intake, m.fabric, m.nvm, m.sram, m.stk, m.owned, m.log, m.tiles, m.loc, m.saved⟩)
    | split
    | dsimp only

theorem queueMsg_keeps {s0 s : State} (h : Keeps s0 s) : ∀ a1 a2 a3 a4 a5 a6 a7, Keeps s0 (queueMsg a1 a2 a3 a4 a5 a6 a7 s) := by
  intro a1 a2 a3 a4 a5 a6 a7
  unfold queueMsg
  repeat' first
    | with_reducible assumption
    | with_reducible apply pump_keeps
    | ((with_reducible apply Keeps.mk') <;> first | with_reducible assumption | with_reducible apply pump_keeps | with_reducible apply sprayMsg_keeps | (with_reducible refine Keeps.snd (by assumption) ?_) | (with_reducible refine Keeps.snd2 (by assumption) ?_) | with_reducible exact Nat.le_refl _ | with_reducible exact fun m => ⟨m.host, m.intake, m.fabric, m.nvm, m.sram, m.stk, m.owned, m.log, m.tiles, m.loc, m.saved⟩)
    | split

theorem sendTo_keeps {s0 s : State} (h : Keeps s0 s) : ∀ a1 a2 a3 a4 a5 a6, Keeps s0 (sendTo a1 a2 a3 a4 a5 a6 s) := by
  intro a1 a2 a3 a4 a5 a6
  unfold sendTo
  repeat' first
    | with_reducible assumption
    | with_reducible apply queueMsg_keeps
    | with_reducible refine Keeps.ite ?_ ?_
    | split

theorem sendRank_keeps {s0 s : State} (h : Keeps s0 s) : ∀ a1 a2 a3 a4 a5 a6, Keeps s0 (sendRank a1 a2 a3 a4 a5 a6 s) := by
  intro a1 a2 a3 a4 a5 a6
  unfold sendRank
  repeat' first
    | with_reducible assumption
    | with_reducible apply sendTo_keeps
    | split

theorem takeLink_keeps {s0 s : State} (h : Keeps s0 s) : ∀ a1 a2, Keeps s0 (takeLink a1 a2 s) := by
  intro a1 a2
  unfold takeLink
  repeat' first
    | ((with_reducible apply Keeps.mk') <;> first | with_reducible assumption | with_reducible exact Nat.le_refl _ | with_reducible exact fun m => ⟨m.host, m.intake, m.fabric, m.nvm, m.sram, m.stk, m.owned, m.log, m.tiles, m.loc, m.saved⟩)

theorem relink_keeps {s0 s : State} (h : Keeps s0 s) : Keeps s0 (relink s) := by
  unfold relink
  repeat' first
    | with_reducible assumption
    | with_reducible apply Keeps.foldl
    | ((with_reducible apply Keeps.mk') <;> first | with_reducible assumption | with_reducible apply takeLink_keeps | with_reducible apply Keeps.foldl | (with_reducible refine Keeps.snd (by assumption) ?_) | (with_reducible refine Keeps.snd2 (by assumption) ?_) | with_reducible exact Nat.le_refl _ | with_reducible exact fun m => ⟨m.host, m.intake, m.fabric, m.nvm, m.sram, m.stk, m.owned, m.log, m.tiles, m.loc, m.saved⟩)
    | split
    | intro _

theorem badMsg_keeps {s0 s : State} (h : Keeps s0 s) : Keeps s0 (badMsg s) := by
  unfold badMsg
  repeat' first
    | with_reducible assumption
    | with_reducible apply count_keeps

theorem sendNojob_keeps {s0 s : State} (h : Keeps s0 s) : ∀ a1, Keeps s0 (sendNojob a1 s) := by
  intro a1
  unfold sendNojob
  repeat' first
    | with_reducible assumption
    | with_reducible apply queueMsg_keeps

theorem authFail_keeps {s0 s : State} (h : Keeps s0 s) : ∀ a1, Keeps s0 (authFail a1 s) := by
  intro a1
  unfold authFail
  repeat' first
    | with_reducible assumption
    | with_reducible apply fault_keeps
    | with_reducible apply count_keeps
    | with_reducible apply raiseInt_keeps
    | ((with_reducible apply Keeps.mk') <;> first | with_reducible assumption | with_reducible apply fault_keeps | with_reducible apply count_keeps | with_reducible apply raiseInt_keeps | with_reducible exact Nat.le_refl _ | with_reducible exact fun m => ⟨m.host, m.intake, m.fabric, m.nvm, m.sram, m.stk, m.owned, m.log, m.tiles, m.loc, m.saved⟩)
    | with_reducible refine Keeps.ite ?_ ?_

theorem takeIdent_keeps {s0 s : State} (h : Keeps s0 s) : ∀ a1 a2 a3, ∀ t, takeIdent a1 a2 a3 s = some t → Keeps s0 t := by
  intro a1 a2 a3
  intro t
  unfold takeIdent
  repeat' first
    | ((with_reducible apply Keeps.mk') <;> first | with_reducible assumption | with_reducible exact Nat.le_refl _ | with_reducible exact fun m => ⟨m.host, m.intake, m.fabric, m.nvm, m.sram, m.stk, m.owned, m.log, m.tiles, m.loc, m.saved⟩)
    | split
    | dsimp only
    | rintro ⟨⟩

theorem receive_keeps {s0 s : State} (h : Keeps s0 s) (i : Instr) (ty : Nat) (m : Msg) (ident : Msg → Option (List Nat)) (f : Nat → Nat → Msg → State → State)
    (hf : ∀ a b c s, Keeps s0 s → Keeps s0 (f a b c s)) : OutKeeps s0 (receive i ty m ident f s) := by
  unfold receive
  repeat' first
    | with_reducible assumption
    | with_reducible apply whenP_keeps
    | with_reducible apply badMsg_keeps
    | with_reducible apply sendNojob_keeps
    | with_reducible apply authFail_keeps
    | with_reducible apply count_keeps
    | (refine takeIdent_keeps ?_ _ _ _ _ (by assumption))
    | with_reducible apply hf
    | with_reducible refine Keeps.ite ?_ ?_
    | split
    | intro _

theorem execBulkWr_keeps {s0 s : State} (h : Keeps s0 s) : ∀ a1, OutKeeps s0 (execBulkWr a1 s) := by
  intro a1
  unfold execBulkWr
  repeat' first
    | with_reducible assumption
    | with_reducible apply receive_keeps
    | with_reducible apply rangeWrite_keeps
    | with_reducible apply sendTo_keeps
    | (with_reducible refine Keeps.snd (by assumption) ?_)
    | ((with_reducible apply Keeps.mk') <;> first | (with_reducible refine Keeps.wrOk (by assumption) ?_) | (with_reducible refine Keeps.wrUn (by assumption) ?_) | with_reducible exact Nat.le_refl _ | with_reducible exact fun m => ⟨m.host, m.intake, m.fabric, m.nvm, m.sram, m.stk, m.owned, m.log, m.tiles, m.loc, m.saved⟩)
    | split
    | intro _

theorem resendMsg_keeps {s0 s : State} (h : Keeps s0 s) : ∀ a1, Keeps s0 (resendMsg a1 s) := by
  intro a1
  unfold resendMsg
  repeat' first
    | with_reducible assumption
    | with_reducible apply count_keeps
    | ((with_reducible apply Keeps.mk') <;> first | with_reducible assumption | with_reducible apply sprayMsg_keeps | with_reducible apply count_keeps | (with_reducible refine Keeps.snd (by assumption) ?_) | (with_reducible refine Keeps.snd2 (by assumption) ?_) | with_reducible exact Nat.le_refl _ | with_reducible exact fun m => ⟨m.host, m.intake, m.fabric, m.nvm, m.sram, m.stk, m.owned, m.log, m.tiles, m.loc, m.saved⟩)
    | with_reducible refine Keeps.ite ?_ ?_
    | split

theorem leaveService_keeps {s0 s : State} (h : Keeps s0 s) : ∀ a1 a2 a3, Keeps s0 (leaveService a1 a2 a3 s) := by
  intro a1 a2 a3
  unfold leaveService
  repeat' first
    | with_reducible assumption
    | with_reducible apply ledgerDrop_keeps
    | with_reducible apply freeVal_keeps
    | with_reducible apply resendMsg_keeps
    | with_reducible apply fault_keeps
    | with_reducible apply pump_keeps
    | with_reducible apply ledgerReturn_keeps
    | with_reducible apply count_keeps
    | with_reducible apply raiseInt_keeps
    | with_reducible apply Keeps.foldl
    | (with_reducible refine Keeps.snd (by assumption) ?_)
    | ((with_reducible apply Keeps.mk') <;> first | with_reducible assumption | with_reducible apply ledgerDrop_keeps | with_reducible apply freeVal_keeps | with_reducible apply resendMsg_keeps | with_reducible apply fault_keeps | with_reducible apply pump_keeps | with_reducible apply ledgerReturn_keeps | with_reducible apply setPort_keeps | with_reducible apply count_keeps | with_reducible apply raiseInt_keeps | with_reducible apply Keeps.foldl | (with_reducible refine Keeps.snd (by assumption) ?_) | (with_reducible refine Keeps.snd2 (by assumption) ?_) | with_reducible exact Nat.le_refl _ | with_reducible exact fun m => ⟨m.host, m.intake, m.fabric, m.nvm, m.sram, m.stk, m.owned, m.log, m.tiles, m.loc, m.saved⟩)
    | split
    | intro _
    | dsimp only

theorem execLinkLeaveService_keeps {s0 s : State} (h : Keeps s0 s) : ∀ a1 a2, OutKeeps s0 (execLinkLeaveService a1 a2 s) := by
  intro a1 a2
  unfold execLinkLeaveService
  repeat' first
    | with_reducible assumption
    | with_reducible apply when_keeps
    | with_reducible apply leaveService_keeps

theorem linkSkew_keeps {s0 s : State} (h : Keeps s0 s) : Keeps s0 (linkSkew s) := by
  unfold linkSkew
  repeat' first
    | with_reducible apply raiseInt_keeps
    | ((with_reducible apply Keeps.mk') <;> first | with_reducible assumption | with_reducible apply raiseInt_keeps | with_reducible apply Keeps.foldl | with_reducible apply Keeps.foldl2 | with_reducible apply Keeps.foldl3 | (with_reducible refine Keeps.snd (by assumption) ?_) | (with_reducible refine Keeps.snd2 (by assumption) ?_) | with_reducible exact Nat.le_refl _ | with_reducible exact fun m => ⟨m.host, m.intake, m.fabric, m.nvm, m.sram, m.stk, m.owned, m.log, m.tiles, m.loc, m.saved⟩)
    | with_reducible refine Keeps.ite ?_ ?_

theorem workWindowEnd_keeps {s0 s : State} (h : Keeps s0 s) : Keeps s0 (workWindowEnd s) := by
  unfold workWindowEnd
  repeat' first
    | with_reducible assumption
    | with_reducible apply linkSkew_keeps
    | with_reducible apply memSkew_keeps

theorem sendDevice_keeps {s0 s : State} (h : Keeps s0 s) : ∀ a1 a2 a3 a4, Keeps s0 (sendDevice a1 a2 a3 a4 s) := by
  intro a1 a2 a3 a4
  unfold sendDevice
  repeat' first
    | with_reducible assumption
    | with_reducible apply queueMsg_keeps

theorem execBulkRdreq_keeps {s0 s : State} (h : Keeps s0 s) : ∀ a1, OutKeeps s0 (execBulkRdreq a1 s) := by
  intro a1
  unfold execBulkRdreq
  repeat' first
    | with_reducible assumption
    | with_reducible apply receive_keeps
    | with_reducible apply rangeRead_keeps
    | with_reducible apply sendTo_keeps
    | (with_reducible refine Keeps.snd2 (by assumption) ?_)
    | ((with_reducible apply Keeps.mk') <;> first | (with_reducible refine Keeps.rdOk (by assumption) ?_) | (with_reducible refine Keeps.rdUn (by assumption) ?_) | with_reducible exact Nat.le_refl _ | with_reducible exact fun m => ⟨m.host, m.intake, m.fabric, m.nvm, m.sram, m.stk, m.owned, m.log, m.tiles, m.loc, m.saved⟩)
    | split
    | intro _

theorem respray_keeps {s0 s : State} (h : Keeps s0 s) : Keeps s0 (respray s) := by
  unfold respray
  repeat' first
    | with_reducible assumption
    | with_reducible apply pump_keeps
    | with_reducible apply sprayMsg_keeps
    | (with_reducible refine Keeps.snd (by assumption) ?_)
    | ((with_reducible apply Keeps.mk') <;> first | with_reducible assumption | with_reducible apply pump_keeps | with_reducible apply sprayMsg_keeps | with_reducible apply Keeps.foldl | with_reducible apply Keeps.foldl2 | with_reducible apply Keeps.foldl3 | (with_reducible refine Keeps.snd (by assumption) ?_) | (with_reducible refine Keeps.snd2 (by assumption) ?_) | with_reducible exact Nat.le_refl _ | with_reducible exact fun m => ⟨m.host, m.intake, m.fabric, m.nvm, m.sram, m.stk, m.owned, m.log, m.tiles, m.loc, m.saved⟩)
    | split
    | intro _

theorem protoAck_keeps {s0 s : State} (h : Keeps s0 s) : ∀ a1 a2, Keeps s0 (protoAck a1 a2 s) := by
  intro a1 a2
  unfold protoAck
  repeat' first
    | with_reducible assumption
    | with_reducible apply respray_keeps
    | ((with_reducible apply Keeps.mk') <;> first | with_reducible assumption | with_reducible apply respray_keeps | with_reducible exact Nat.le_refl _ | with_reducible exact fun m => ⟨m.host, m.intake, m.fabric, m.nvm, m.sram, m.stk, m.owned, m.log, m.tiles, m.loc, m.saved⟩)
    | split
    | dsimp only

theorem takeNak_keeps {s0 s : State} (h : Keeps s0 s) : ∀ a1, Keeps s0 (takeNak a1 s) := by
  intro a1
  unfold takeNak
  repeat' first
    | with_reducible assumption
    | with_reducible apply leaveService_keeps
    | with_reducible apply setPort_keeps
    | with_reducible refine Keeps.ite ?_ ?_

theorem execTransmitStoreRelease_keeps {s0 s : State} (h : Keeps s0 s) : ∀ a1, OutKeeps s0 (execTransmitStoreRelease a1 s) := by
  intro a1
  unfold execTransmitStoreRelease
  repeat' first
    | with_reducible assumption
    | with_reducible apply when_keeps
    | ((with_reducible apply Keeps.mk') <;> first | with_reducible assumption | with_reducible apply when_keeps | with_reducible apply OutKeeps.next | with_reducible exact OutKeeps.fault | with_reducible exact Nat.le_refl _ | with_reducible exact fun m => ⟨m.host, m.intake, m.fabric, m.nvm, m.sram, m.stk, m.owned, m.log, m.tiles, m.loc, m.saved⟩)

theorem takeAck_keeps {s0 s : State} (h : Keeps s0 s) : ∀ a1 a2, Keeps s0 (takeAck a1 a2 s) := by
  intro a1 a2
  unfold takeAck
  repeat' first
    | with_reducible assumption
    | ((with_reducible apply Keeps.mk') <;> first | with_reducible assumption | with_reducible apply setPort_keeps | with_reducible exact Nat.le_refl _ | with_reducible exact fun m => ⟨m.host, m.intake, m.fabric, m.nvm, m.sram, m.stk, m.owned, m.log, m.tiles, m.loc, m.saved⟩)
    | split
    | dsimp only

theorem updPort_keeps {s0 s : State} (h : Keeps s0 s) : ∀ a1 a2, Keeps s0 (updPort a1 a2 s) := by
  intro a1 a2
  unfold updPort
  repeat' first
    | with_reducible assumption
    | with_reducible apply setPort_keeps

theorem reassemble_keeps {s0 s : State} (h : Keeps s0 s) : ∀ a1 a2 a3 a4 a5, Keeps s0 (reassemble a1 a2 a3 a4 a5 s) := by
  intro a1 a2 a3 a4 a5
  unfold reassemble
  repeat' first
    | with_reducible assumption
    | with_reducible apply setPort_keeps
    | with_reducible apply count_keeps
    | split
    | dsimp only

theorem answerFlits_keeps {s0 s : State} (h : Keeps s0 s) : ∀ a1 a2, Keeps s0 (answerFlits a1 a2 s) := by
  intro a1 a2
  induction a1 generalizing s with
  | zero => exact h
  | succ n ih =>
    unfold answerFlits
    exact Keeps.ite (ih (setPort_keeps h _ _)) h

theorem askReplay_keeps {s0 s : State} (h : Keeps s0 s) : ∀ a1 a2, Keeps s0 (askReplay a1 a2 s) := by
  intro a1 a2
  unfold askReplay
  repeat' first
    | with_reducible assumption
    | with_reducible apply updPort_keeps

theorem noteFixes_keeps {s0 s : State} (h : Keeps s0 s) : ∀ a1 a2, Keeps s0 (noteFixes a1 a2 s) := by
  intro a1 a2
  unfold noteFixes
  repeat' first
    | with_reducible assumption
    | with_reducible apply corrected_keeps
    | with_reducible apply updPort_keeps
    | with_reducible refine Keeps.ite ?_ ?_

theorem execFlit_keeps {s0 s : State} (h : Keeps s0 s) : ∀ a1 a2, OutKeeps s0 (execFlit a1 a2 s) := by
  intro a1 a2
  unfold execFlit
  repeat' first
    | with_reducible assumption
    | with_reducible apply answerFlits_keeps
    | with_reducible apply takeNak_keeps
    | with_reducible apply when_keeps
    | with_reducible apply corrected_keeps
    | with_reducible apply noteFixes_keeps
    | with_reducible apply updPort_keeps
    | with_reducible apply pump_keeps
    | with_reducible apply askReplay_keeps
    | with_reducible apply reassemble_keeps
    | with_reducible apply takeAck_keeps
    | with_reducible apply setPort_keeps
    | with_reducible refine Keeps.ite ?_ ?_

theorem trainingFails_keeps {s0 s : State} (h : Keeps s0 s) : ∀ a1, Keeps s0 (trainingFails a1 s) := by
  intro a1
  unfold trainingFails
  repeat' first
    | with_reducible assumption
    | with_reducible apply fault_keeps
    | with_reducible apply setPort_keeps
    | with_reducible apply raiseInt_keeps
    | ((with_reducible apply Keeps.mk') <;> first | with_reducible assumption | with_reducible apply fault_keeps | with_reducible apply setPort_keeps | with_reducible apply raiseInt_keeps | with_reducible exact Nat.le_refl _ | with_reducible exact fun m => ⟨m.host, m.intake, m.fabric, m.nvm, m.sram, m.stk, m.owned, m.log, m.tiles, m.loc, m.saved⟩)
    | with_reducible refine Keeps.ite ?_ ?_

theorem sendHello_keeps {s0 s : State} (h : Keeps s0 s) : ∀ a1, Keeps s0 (sendHello a1 s) := by
  intro a1
  unfold sendHello
  repeat' first
    | with_reducible assumption
    | with_reducible apply updPort_keeps

theorem execTrainingStepDone_keeps {s0 s : State} (h : Keeps s0 s) : ∀ a1 a2, OutKeeps s0 (execTrainingStepDone a1 a2 s) := by
  intro a1 a2
  unfold execTrainingStepDone
  repeat' first
    | with_reducible assumption
    | with_reducible apply when_keeps
    | with_reducible apply sendHello_keeps
    | with_reducible apply trainingFails_keeps
    | with_reducible apply setPort_keeps
    | with_reducible refine Keeps.ite ?_ ?_

theorem receiveDevice_keeps {s0 s : State} (h : Keeps s0 s) (i : Instr) (ty : Nat) (m : Msg) (ident : List Nat) (f : Msg → State → State)
    (hf : ∀ c s, Keeps s0 s → Keeps s0 (f c s)) : OutKeeps s0 (receiveDevice i ty m ident f s) := by
  unfold receiveDevice
  repeat' first
    | with_reducible assumption
    | with_reducible apply whenP_keeps
    | with_reducible apply badMsg_keeps
    | with_reducible apply authFail_keeps
    | with_reducible apply count_keeps
    | (refine takeIdent_keeps ?_ _ _ _ _ (by assumption))
    | with_reducible apply hf
    | split
    | intro _

theorem dropJobMessages_keeps {s0 s : State} (h : Keeps s0 s) : ∀ a1 a2, Keeps s0 (dropJobMessages a1 a2 s) := by
  intro a1 a2
  unfold dropJobMessages
  repeat' first
    | ((with_reducible apply Keeps.mk') <;> first | with_reducible assumption | with_reducible exact Nat.le_refl _ | with_reducible exact fun m => ⟨m.host, m.intake, m.fabric, m.nvm, m.sram, m.stk, m.owned, m.log, m.tiles, m.loc, m.saved⟩)

theorem execReachMarkExpiry_keeps {s0 s : State} (h : Keeps s0 s) : ∀ a1 a2, OutKeeps s0 (execReachMarkExpiry a1 a2 s) := by
  intro a1 a2
  unfold execReachMarkExpiry
  repeat' first
    | with_reducible assumption
    | with_reducible apply when_keeps
    | with_reducible apply respray_keeps
    | ((with_reducible apply Keeps.mk') <;> first | with_reducible assumption | with_reducible apply when_keeps | with_reducible apply respray_keeps | with_reducible apply OutKeeps.next | with_reducible exact OutKeeps.fault | with_reducible exact Nat.le_refl _ | with_reducible exact fun m => ⟨m.host, m.intake, m.fabric, m.nvm, m.sram, m.stk, m.owned, m.log, m.tiles, m.loc, m.saved⟩)

theorem censusEval_keeps {s0 s : State} (h : Keeps s0 s) : ∀ a1, Keeps s0 (censusEval a1 s) := by
  intro a1
  unfold censusEval
  repeat' first
    | with_reducible assumption
    | with_reducible apply leaveService_keeps
    | with_reducible apply setPort_keeps
    | with_reducible apply raiseInt_keeps
    | with_reducible refine Keeps.ite ?_ ?_

theorem execLaneLockLoss_keeps {s0 s : State} (h : Keeps s0 s) : ∀ a1 a2, OutKeeps s0 (execLaneLockLoss a1 a2 s) := by
  intro a1 a2
  unfold execLaneLockLoss
  repeat' first
    | with_reducible assumption
    | with_reducible apply when_keeps
    | with_reducible apply updPort_keeps
    | with_reducible apply leaveService_keeps

theorem portReady_keeps {s0 s : State} (h : Keeps s0 s) : ∀ a1, Keeps s0 (portReady a1 s) := by
  intro a1
  unfold portReady
  repeat' first
    | with_reducible assumption
    | with_reducible apply trainingFails_keeps
    | with_reducible apply respray_keeps
    | with_reducible apply setPort_keeps
    | split
    | dsimp only

theorem execLinkHello_keeps {s0 s : State} (h : Keeps s0 s) : ∀ a1 a2, OutKeeps s0 (execLinkHello a1 a2 s) := by
  intro a1 a2
  unfold execLinkHello
  repeat' first
    | with_reducible assumption
    | with_reducible apply when_keeps
    | with_reducible apply fault_keeps
    | with_reducible apply leaveService_keeps
    | with_reducible apply portReady_keeps
    | with_reducible apply setPort_keeps
    | with_reducible apply raiseInt_keeps
    | with_reducible refine Keeps.ite ?_ ?_

theorem spareSwaps_keeps {s0 s : State} (h : Keeps s0 s) : Keeps s0 (spareSwaps s) := by
  unfold spareSwaps
  repeat' first
    | with_reducible assumption
    | with_reducible apply updPort_keeps
    | with_reducible apply respray_keeps
    | with_reducible apply setPort_keeps
    | with_reducible apply Keeps.foldl
    | ((with_reducible apply Keeps.mk') <;> first | with_reducible assumption | with_reducible apply updPort_keeps | with_reducible apply respray_keeps | with_reducible apply setPort_keeps | with_reducible apply Keeps.foldl | with_reducible apply Keeps.foldl2 | with_reducible apply Keeps.foldl3 | (with_reducible refine Keeps.snd (by assumption) ?_) | (with_reducible refine Keeps.snd2 (by assumption) ?_) | with_reducible exact Nat.le_refl _ | with_reducible exact fun m => ⟨m.host, m.intake, m.fabric, m.nvm, m.sram, m.stk, m.owned, m.log, m.tiles, m.loc, m.saved⟩)
    | split
    | intro _

theorem execMessageReassemblyTimeout_keeps {s0 s : State} (h : Keeps s0 s) : ∀ a1 a2, OutKeeps s0 (execMessageReassemblyTimeout a1 a2 s) := by
  intro a1 a2
  unfold execMessageReassemblyTimeout
  repeat' first
    | with_reducible assumption
    | with_reducible apply when_keeps
    | with_reducible apply updPort_keeps
    | with_reducible apply count_keeps

theorem lostMsg_keeps {s0 s : State} (h : Keeps s0 s) : ∀ a1, Keeps s0 (lostMsg a1 s) := by
  intro a1
  unfold lostMsg
  repeat' first
    | with_reducible assumption
    | ((with_reducible apply Keeps.mk') <;> first | with_reducible assumption | with_reducible exact Nat.le_refl _ | with_reducible exact fun m => ⟨m.host, m.intake, m.fabric, m.nvm, m.sram, m.stk, m.owned, m.log, m.tiles, m.loc, m.saved⟩)
    | with_reducible refine Keeps.ite ?_ ?_

theorem execUnreach_keeps {s0 s : State} (h : Keeps s0 s) : ∀ a1 a2, OutKeeps s0 (execUnreach a1 a2 s) := by
  intro a1 a2
  unfold execUnreach
  repeat' first
    | with_reducible assumption
    | with_reducible apply resendMsg_keeps
    | with_reducible apply lostMsg_keeps
    | with_reducible apply when_keeps
    | with_reducible apply pump_keeps
    | with_reducible apply count_keeps
    | with_reducible apply raiseInt_keeps
    | ((with_reducible apply Keeps.mk') <;> first | with_reducible assumption | with_reducible apply resendMsg_keeps | with_reducible apply lostMsg_keeps | with_reducible apply when_keeps | with_reducible apply pump_keeps | with_reducible apply count_keeps | with_reducible apply raiseInt_keeps | with_reducible apply OutKeeps.next | with_reducible exact OutKeeps.fault | with_reducible exact Nat.le_refl _ | with_reducible exact fun m => ⟨m.host, m.intake, m.fabric, m.nvm, m.sram, m.stk, m.owned, m.log, m.tiles, m.loc, m.saved⟩)
    | with_reducible refine Keeps.ite ?_ ?_
    | split

theorem execTrainingStepTimeout_keeps {s0 s : State} (h : Keeps s0 s) : ∀ a1, OutKeeps s0 (execTrainingStepTimeout a1 s) := by
  intro a1
  unfold execTrainingStepTimeout
  repeat' first
    | with_reducible assumption
    | with_reducible apply when_keeps
    | with_reducible apply trainingFails_keeps

theorem unlink_keeps {s0 s : State} (h : Keeps s0 s) : Keeps s0 (unlink s) := by
  unfold unlink
  repeat' first
    | ((with_reducible apply Keeps.mk') <;> first | with_reducible assumption | with_reducible exact Nat.le_refl _ | with_reducible exact fun m => ⟨m.host, m.intake, m.fabric, m.nvm, m.sram, m.stk, m.owned, m.log, m.tiles, m.loc, m.saved⟩)

theorem updTile_keeps {s0 s : State} (h : Keeps s0 s) (t : Nat) (f : Tile → Tile) (hf : ∀ x, x.Ok → (f x).Ok) : Keeps s0 (updTile t f s) :=
  h.mk' (Nat.le_refl _) fun m => ⟨m.host, m.intake, m.fabric, m.nvm, m.sram, m.stk, m.owned, m.log, Tbl.all_upd (P := Tile.Ok) m.tiles hf, m.loc, m.saved⟩

theorem tileStop_keeps {s0 s : State} (h : Keeps s0 s) : ∀ a1 a2 a3 a4 a5, Keeps s0 (tileStop a1 a2 a3 a4 a5 s) := by
  intro a1 a2 a3 a4 a5
  unfold tileStop
  repeat' first
    | with_reducible assumption
    | with_reducible apply ledgerDrop_keeps
    | with_reducible apply stopCommand_keeps
    | with_reducible apply updTile_keeps
    | with_reducible apply ledgerReturn_keeps
    | with_reducible apply Tile.release_ok
    | with_reducible refine Keeps.ite ?_ ?_
    | split
    | intro _

theorem tilePoison_keeps {s0 s : State} (h : Keeps s0 s) : ∀ a1 a2, Keeps s0 (tilePoison a1 a2 s) := by
  intro a1 a2
  unfold tilePoison
  repeat' first
    | with_reducible assumption
    | with_reducible apply tileStop_keeps
    | with_reducible apply raiseInt_keeps

theorem reloadBlocks_keeps {s0 s : State} (h : Keeps s0 s) : ∀ a1, Keeps s0 (reloadBlocks a1 s) := by
  intro a1
  unfold reloadBlocks
  repeat' first
    | with_reducible assumption
    | with_reducible apply updTile_keeps
    | with_reducible apply tilePoison_keeps
    | with_reducible apply Keeps.foldl
    | ((with_reducible apply Tile.Ok.mk') <;> first | with_reducible assumption | with_reducible apply Tile.setOwned_ok | with_reducible apply Tile.evict_ok | with_reducible apply Tile.setSeq_ok | with_reducible apply Tile.write_ok )
    | with_reducible refine Keeps.ite ?_ ?_
    | split
    | intro _
    | dsimp only

theorem bulkSend_keeps {s0 s : State} (h : Keeps s0 s) : ∀ a1 a2 a3 a4, Keeps s0 (bulkSend a1 a2 a3 a4 s) := by
  intro a1 a2 a3 a4
  unfold bulkSend
  repeat' first
    | with_reducible assumption
    | with_reducible apply sendRank_keeps
    | with_reducible apply Keeps.foldl
    | split
    | intro _

theorem bulkResume_keeps {s0 s : State} (h : Keeps s0 s) : ∀ a1 a2, Keeps s0 (bulkResume a1 a2 s) := by
  intro a1 a2
  unfold bulkResume
  repeat' first
    | with_reducible assumption
    | with_reducible apply updTile_keeps
    | with_reducible apply bulkSend_keeps
    | with_reducible apply tilePoison_keeps
    | ((with_reducible apply Keeps.mk') <;> first | with_reducible assumption | with_reducible apply updTile_keeps | with_reducible apply bulkSend_keeps | with_reducible apply tilePoison_keeps | with_reducible exact Nat.le_refl _ | with_reducible exact fun m => ⟨m.host, m.intake, m.fabric, m.nvm, m.sram, m.stk, m.owned, m.log, m.tiles, m.loc, m.saved⟩)
    | ((with_reducible apply Tile.Ok.mk') <;> first | with_reducible assumption | with_reducible apply Tile.setOwned_ok | with_reducible apply Tile.evict_ok | with_reducible apply Tile.setSeq_ok | with_reducible apply Tile.write_ok )
    | with_reducible refine Keeps.ite ?_ ?_
    | split
    | intro _

theorem resumeDmas_keeps {s0 s : State} (h : Keeps s0 s) : ∀ a1 a2, Keeps s0 (resumeDmas a1 a2 s) := by
  intro a1 a2
  unfold resumeDmas
  repeat' first
    | with_reducible assumption
    | with_reducible apply bulkResume_keeps
    | with_reducible apply Keeps.foldl
    | intro _

theorem updSeq_keeps {s0 s : State} (h : Keeps s0 s) : ∀ a1 a2 a3, Keeps s0 (updSeq a1 a2 a3 s) := by
  intro a1 a2 a3
  unfold updSeq
  repeat' first
    | with_reducible assumption
    | with_reducible apply updTile_keeps
    | ((with_reducible apply Tile.Ok.mk') <;> first | with_reducible assumption | with_reducible apply Tile.setOwned_ok | with_reducible apply Tile.evict_ok | with_reducible apply Tile.setSeq_ok | with_reducible apply Tile.write_ok )
    | intro _

theorem tileAccess_keeps {s0 s : State} (h : Keeps s0 s) : ∀ a1 a2 a3, Keeps s0 (tileAccess a1 a2 a3 s) := by
  intro a1 a2 a3
  unfold tileAccess
  repeat' first
    | with_reducible assumption
    | with_reducible apply tileStop_keeps
    | with_reducible apply raiseInt_keeps

theorem tileInvalid_keeps {s0 s : State} (h : Keeps s0 s) : ∀ a1 a2 a3, Keeps s0 (tileInvalid a1 a2 a3 s) := by
  intro a1 a2 a3
  unfold tileInvalid
  repeat' first
    | with_reducible assumption
    | with_reducible apply setReg_keeps
    | with_reducible apply tileStop_keeps
    | with_reducible apply raiseInt_keeps

theorem freeTok_keeps {s0 s : State} (h : Keeps s0 s) : ∀ a1 a2 a3 a4, Keeps s0 (freeTok a1 a2 a3 a4 s) := by
  intro a1 a2 a3 a4
  unfold freeTok
  repeat' first
    | with_reducible assumption
    | with_reducible apply updSeq_keeps
    | ((with_reducible apply Keeps.mk') <;> first | with_reducible assumption | with_reducible apply updSeq_keeps | with_reducible exact Nat.le_refl _ | with_reducible exact fun m => ⟨m.host, m.intake, m.fabric, m.nvm, m.sram, m.stk, m.owned, m.log, m.tiles, m.loc, m.saved⟩)
    | with_reducible refine Keeps.ite ?_ ?_
    | split

theorem semUp_keeps {s0 s : State} (h : Keeps s0 s) : ∀ a1 a2, Keeps s0 (semUp a1 a2 s) := by
  intro a1 a2
  unfold semUp
  repeat' first
    | with_reducible assumption
    | with_reducible apply updTile_keeps
    | with_reducible apply freeTok_keeps
    | ((with_reducible apply Tile.Ok.mk') <;> first | with_reducible assumption | with_reducible apply Tile.setOwned_ok | with_reducible apply Tile.evict_ok | with_reducible apply Tile.setSeq_ok | with_reducible apply Tile.write_ok )
    | with_reducible refine Keeps.ite ?_ ?_
    | intro _

theorem retire_keeps {s0 s : State} (h : Keeps s0 s) : ∀ a1 a2 a3 a4 a5 a6, Keeps s0 (retire a1 a2 a3 a4 a5 a6 s) := by
  intro a1 a2 a3 a4 a5 a6
  unfold retire
  repeat' first
    | with_reducible assumption
    | with_reducible apply semUp_keeps
    | with_reducible apply freeTok_keeps
    | with_reducible refine Keeps.ite ?_ ?_

theorem moveOn_keeps {s0 s : State} (h : Keeps s0 s) : ∀ a1 a2 a3, Keeps s0 (moveOn a1 a2 a3 s) := by
  intro a1 a2 a3
  unfold moveOn
  repeat' first
    | with_reducible assumption
    | with_reducible apply updSeq_keeps
    | with_reducible apply updTile_keeps
    | ((with_reducible apply Tile.Ok.mk') <;> first | with_reducible assumption | with_reducible apply Tile.setOwned_ok | with_reducible apply Tile.evict_ok | with_reducible apply Tile.setSeq_ok | with_reducible apply Tile.write_ok )
    | with_reducible refine Keeps.ite ?_ ?_
    | intro _

theorem semWake_keeps {s0 s : State} (h : Keeps s0 s) : ∀ a1 a2, Keeps s0 (semWake a1 a2 s) := by
  intro a1 a2
  unfold semWake
  repeat' first
    | with_reducible assumption
    | with_reducible apply updTile_keeps
    | with_reducible apply semUp_keeps
    | ((with_reducible apply Tile.Ok.mk') <;> first | with_reducible assumption | with_reducible apply Tile.setOwned_ok | with_reducible apply Tile.evict_ok | with_reducible apply Tile.setSeq_ok | with_reducible apply Tile.write_ok )
    | with_reducible refine Keeps.ite ?_ ?_
    | split
    | intro _

theorem semDown_keeps {s0 s : State} (h : Keeps s0 s) : ∀ a1 a2, Keeps s0 (semDown a1 a2 s) := by
  intro a1 a2
  unfold semDown
  repeat' first
    | with_reducible assumption
    | with_reducible apply updTile_keeps
    | with_reducible apply semWake_keeps
    | ((with_reducible apply Tile.Ok.mk') <;> first | with_reducible assumption | with_reducible apply Tile.setOwned_ok | with_reducible apply Tile.evict_ok | with_reducible apply Tile.setSeq_ok | with_reducible apply Tile.write_ok )
    | intro _

theorem issue_keeps {s0 s : State} (h : Keeps s0 s) (t : Fin 8) (st : Fin 4) (w : BitVec 128) (cls op mask : Nat) (check : Iss → Nat)
    (act : Iss → State → Eff) (ha : ∀ i s, Keeps s0 s → Keeps s0 ((act i s).st s)) : OutKeeps s0 (issue t st w cls op mask check act s) := by
  unfold issue
  refine OutKeeps.ite OutKeeps.fault (OutKeeps.ite (OutKeeps.next h) (OutKeeps.ite (OutKeeps.next (reloadBlocks_keeps h _)) (OutKeeps.next ?_)))
  split
  · exact tileAccess_keeps (urngFault_keeps h _ _ _) _ _ _
  · refine Keeps.ite (tileInvalid_keeps h _ _ _) (Keeps.ite (tileInvalid_keeps h _ _ _) (Keeps.ite (tileInvalid_keeps h _ _ _)
      (Keeps.ite (tileInvalid_keeps h _ _ _) (Keeps.ite (updSeq_keeps h _ _ _) ?_))))
    have hs : ∀ c : Bool, Keeps s0 (if c = true then semDown t (semKey ((s.tile t).regs st).job (bits w.toNat 14 11)) s else s) :=
      fun c => Keeps.ite (semDown_keeps h _ _) h
    split
    · exact updSeq_keeps h _ _ _
    · next e => exact Keeps.effStop e (ha _ _ (hs _))
    · next e => exact moveOn_keeps (Keeps.ite (retire_keeps (Keeps.effIssued e (ha _ _ (hs _))) _ _ _ _ _ _) (Keeps.effIssued e (ha _ _ (hs _)))) _ _ _

theorem updRegs_keeps {s0 s : State} (h : Keeps s0 s) : ∀ a1 a2 a3, Keeps s0 (updRegs a1 a2 a3 s) := by
  intro a1 a2 a3
  unfold updRegs
  repeat' first
    | with_reducible assumption
    | with_reducible apply updSeq_keeps
    | with_reducible apply updTile_keeps
    | ((with_reducible apply Tile.Ok.mk') <;> first | with_reducible assumption | with_reducible apply Tile.setOwned_ok | with_reducible apply Tile.evict_ok | with_reducible apply Tile.setSeq_ok | with_reducible apply Tile.write_ok )
    | with_reducible refine Keeps.ite ?_ ?_
    | intro _

theorem execJmp_keeps {s0 s : State} (h : Keeps s0 s) : ∀ a1 a2 a3, OutKeeps s0 (execJmp a1 a2 a3 s) := by
  intro a1 a2 a3
  unfold execJmp
  repeat' first
    | with_reducible assumption
    | with_reducible apply updRegs_keeps
    | with_reducible apply issue_keeps
    | with_reducible apply Eff.kIssued
    | split
    | intro _

theorem execLmark_keeps {s0 s : State} (h : Keeps s0 s) : ∀ a1 a2 a3, OutKeeps s0 (execLmark a1 a2 a3 s) := by
  intro a1 a2 a3
  unfold execLmark
  repeat' first
    | with_reducible assumption
    | with_reducible apply updTile_keeps
    | with_reducible apply issue_keeps
    | with_reducible apply Eff.kIssued
    | ((with_reducible apply Tile.Ok.mk') <;> first | with_reducible assumption | with_reducible apply Tile.setOwned_ok | with_reducible apply Tile.evict_ok | with_reducible apply Tile.setSeq_ok | with_reducible apply Tile.write_ok )
    | intro _

theorem control_keeps {s0 s : State} (h : Keeps s0 s) (t : Fin 8) (st : Fin 4) (w : BitVec 128) (op mask : Nat) (check : Iss → Nat)
    (f : Iss → Seq → Seq) : OutKeeps s0 (control t st w op mask check f s) := by
  unfold control
  refine issue_keeps h _ _ _ _ _ _ _ _ fun i s hs => ?_
  exact Eff.kIssued (updRegs_keeps hs _ _ _)

theorem execAset_keeps {s0 s : State} (h : Keeps s0 s) : ∀ a1 a2 a3, OutKeeps s0 (execAset a1 a2 a3 s) := by
  intro a1 a2 a3
  unfold execAset
  repeat' first
    | with_reducible assumption
    | with_reducible apply control_keeps

theorem execTileEnd_keeps {s0 s : State} (h : Keeps s0 s) : ∀ a1 a2 a3, OutKeeps s0 (execTileEnd a1 a2 a3 s) := by
  intro a1 a2 a3
  unfold execTileEnd
  repeat' first
    | with_reducible assumption
    | with_reducible apply updTile_keeps
    | with_reducible apply releaseChunk_keeps
    | with_reducible apply satisfy_keeps
    | with_reducible apply issue_keeps
    | with_reducible apply boundary_keeps
    | with_reducible apply retire_keeps
    | with_reducible apply endCid_keeps
    | with_reducible apply Eff.kStall
    | with_reducible apply Eff.kStop
    | with_reducible apply Tile.release_ok
    | split
    | intro _
    | dsimp only

theorem dmaMove_keeps {s0 s : State} (h : Keeps s0 s) : ∀ a1 a2 a3 a4, Keeps s0 (dmaMove a1 a2 a3 a4 s).st := by
  intro a1 a2 a3 a4
  unfold dmaMove
  repeat' first
    | with_reducible assumption
    | with_reducible apply updTile_keeps
    | with_reducible apply rangeWrite_keeps
    | with_reducible apply rangeRead_keeps
    | ((with_reducible apply Keeps.mk') <;> first | with_reducible assumption | (with_reducible refine Keeps.rdOk (by assumption) ?_) | (with_reducible refine Keeps.rdUn (by assumption) ?_) | (with_reducible refine Keeps.wrOk (by assumption) ?_) | (with_reducible refine Keeps.wrUn (by assumption) ?_) | with_reducible exact Nat.le_refl _ | with_reducible exact fun m => ⟨m.host, m.intake, m.fabric, m.nvm, m.sram, m.stk, m.owned, m.log, m.tiles, m.loc, m.saved⟩ | exact fun m => ⟨m.host, m.intake, Mem.wf_sets _ _ _ _ m.fabric, m.nvm, m.sram, m.stk, m.owned, m.log, m.tiles, m.loc, m.saved⟩)
    | with_reducible apply Moved.kDone
    | with_reducible apply Moved.kPoison
    | with_reducible apply Moved.kAccess
    | with_reducible apply Tile.write_ok
    | with_reducible refine foldl_ind (P := Tile.Ok) ?_ ?_
    | split
    | intro _
    | dsimp only

theorem bulkPause_keeps {s0 s : State} (h : Keeps s0 s) : ∀ a1 a2 a3, Keeps s0 (bulkPause a1 a2 a3 s) := by
  intro a1 a2 a3
  unfold bulkPause
  repeat' first
    | with_reducible assumption
    | with_reducible apply updTile_keeps
    | ((with_reducible apply Keeps.mk') <;> first | with_reducible assumption | with_reducible apply updTile_keeps | with_reducible exact Nat.le_refl _ | with_reducible exact fun m => ⟨m.host, m.intake, m.fabric, m.nvm, m.sram, m.stk, m.owned, m.log, m.tiles, m.loc, m.saved⟩)
    | ((with_reducible apply Tile.Ok.mk') <;> first | with_reducible assumption | with_reducible apply Tile.setOwned_ok | with_reducible apply Tile.evict_ok | with_reducible apply Tile.setSeq_ok | with_reducible apply Tile.write_ok )
    | split
    | intro _

theorem dmaPause_keeps {s0 s : State} (h : Keeps s0 s) : ∀ a1 a2, Keeps s0 (dmaPause a1 a2 s) := by
  intro a1 a2
  unfold dmaPause
  repeat' first
    | with_reducible assumption
    | with_reducible apply freeVal_keeps
    | with_reducible apply updTile_keeps
    | with_reducible apply dmaMove_keeps
    | with_reducible apply powered_keeps
    | with_reducible apply bulkPause_keeps
    | (with_reducible refine Keeps.movedDone (by assumption) ?_)
    | ((with_reducible apply Tile.Ok.mk') <;> first | with_reducible assumption | with_reducible apply Tile.setOwned_ok | with_reducible apply Tile.evict_ok | with_reducible apply Tile.setSeq_ok | with_reducible apply Tile.write_ok )
    | with_reducible refine Keeps.ite ?_ ?_
    | split
    | intro _

theorem pauseDmas_keeps {s0 s : State} (h : Keeps s0 s) : ∀ a1 a2, Keeps s0 (pauseDmas a1 a2 s) := by
  intro a1 a2
  unfold pauseDmas
  repeat' first
    | with_reducible assumption
    | with_reducible apply freeVal_keeps
    | with_reducible apply dmaPause_keeps
    | with_reducible apply count_keeps
    | with_reducible apply raiseInt_keeps
    | with_reducible apply Keeps.foldl
    | with_reducible refine Keeps.ite ?_ ?_
    | intro _

theorem dmaStart_keeps {s0 s : State} (h : Keeps s0 s) : ∀ a1 a2 a3 a4, Keeps s0 (dmaStart a1 a2 a3 a4 s) := by
  intro t st w q
  unfold dmaStart
  extract_lets v job rank space d s1 ndev tag b
  have h1 : Keeps s0 s1 := updSeq_keeps h _ _ _
  clear_value s1
  split
  · split
    · exact tileAccess_keeps h1 _ _ _
    · split
      · exact tilePoison_keeps h1 _ _
      · apply bulkSend_keeps
        refine updTile_keeps ?_ _ _ fun x hx => Tile.Ok.mk' hx
        exact h1.mk' (Nat.le_refl _) fun m => ⟨m.host, m.intake, m.fabric, m.nvm, m.sram, m.stk, m.owned, m.log, m.tiles, m.loc, m.saved⟩
  · exact updTile_keeps h1 _ _ fun x hx => Tile.Ok.mk' hx

theorem execRbinc_keeps {s0 s : State} (h : Keeps s0 s) : ∀ a1 a2 a3, OutKeeps s0 (execRbinc a1 a2 a3 s) := by
  intro a1 a2 a3
  unfold execRbinc
  repeat' first
    | with_reducible assumption
    | with_reducible apply control_keeps

theorem execAinc_keeps {s0 s : State} (h : Keeps s0 s) : ∀ a1 a2 a3, OutKeeps s0 (execAinc a1 a2 a3 s) := by
  intro a1 a2 a3
  unfold execAinc
  repeat' first
    | with_reducible assumption
    | with_reducible apply control_keeps

theorem execSetc_keeps {s0 s : State} (h : Keeps s0 s) : ∀ a1 a2 a3, OutKeeps s0 (execSetc a1 a2 a3 s) := by
  intro a1 a2 a3
  unfold execSetc
  repeat' first
    | with_reducible assumption
    | with_reducible apply control_keeps

theorem execCbnd_keeps {s0 s : State} (h : Keeps s0 s) : ∀ a1 a2 a3, OutKeeps s0 (execCbnd a1 a2 a3 s) := by
  intro a1 a2 a3
  unfold execCbnd
  repeat' first
    | with_reducible assumption
    | with_reducible apply updSeq_keeps
    | with_reducible apply updTile_keeps
    | with_reducible apply releaseChunk_keeps
    | with_reducible apply issue_keeps
    | with_reducible apply boundary_keeps
    | with_reducible apply retire_keeps
    | with_reducible apply Eff.kStall
    | with_reducible apply Eff.kStop
    | with_reducible apply Tile.release_ok
    | split
    | intro _
    | dsimp only

theorem laSettle_keeps {s0 s : State} (h : Keeps s0 s) : ∀ a1 a2, Keeps s0 (laSettle a1 a2 s) := by
  intro a1 a2
  unfold laSettle
  repeat' first
    | with_reducible assumption
    | with_reducible apply updSeq_keeps
    | split
    | dsimp only

theorem execLookaheadDmaIssue_keeps {s0 s : State} (h : Keeps s0 s) : ∀ a1 a2 a3, OutKeeps s0 (execLookaheadDmaIssue a1 a2 a3 s) := by
  intro a1 a2 a3
  unfold execLookaheadDmaIssue
  repeat' first
    | with_reducible assumption
    | with_reducible apply updSeq_keeps
    | with_reducible apply laSettle_keeps
    | with_reducible apply dmaStart_keeps
    | with_reducible apply when_keeps
    | with_reducible refine Keeps.ite ?_ ?_
    | split

theorem execNop_keeps {s0 s : State} (h : Keeps s0 s) : ∀ a1 a2 a3, OutKeeps s0 (execNop a1 a2 a3 s) := by
  intro a1 a2 a3
  unfold execNop
  repeat' first
    | with_reducible assumption
    | with_reducible apply control_keeps

theorem execRbset_keeps {s0 s : State} (h : Keeps s0 s) : ∀ a1 a2 a3, OutKeeps s0 (execRbset a1 a2 a3 s) := by
  intro a1 a2 a3
  unfold execRbset
  repeat' first
    | with_reducible assumption
    | with_reducible apply control_keeps

theorem execDma_keeps {s0 s : State} (h : Keeps s0 s) : ∀ a1 a2 a3, OutKeeps s0 (execDma a1 a2 a3 s) := by
  intro a1 a2 a3
  unfold execDma
  repeat' first
    | with_reducible assumption
    | with_reducible apply updSeq_keeps
    | with_reducible apply dmaStart_keeps
    | with_reducible apply issue_keeps
    | with_reducible apply Eff.kStall
    | with_reducible apply Eff.kStop
    | with_reducible apply Eff.kIssued
    | split
    | intro _
    | dsimp only

theorem setTile_keeps {s0 s : State} (h : Keeps s0 s) (t : Nat) (x : Tile) (hx : s.MemsOk → x.Ok) : Keeps s0 (setTile t x s) :=
  h.mk' (Nat.le_refl _) fun m => ⟨m.host, m.intake, m.fabric, m.nvm, m.sram, m.stk, m.owned, m.log, Tbl.all_put (P := Tile.Ok) m.tiles (hx m), m.loc, m.saved⟩

theorem execDefer_keeps {s0 s : State} (h : Keeps s0 s) : ∀ a1 a2 a3, OutKeeps s0 (execDefer a1 a2 a3 s) := by
  intro a1 a2 a3
  unfold execDefer
  repeat' first
    | with_reducible assumption
    | with_reducible apply updTile_keeps
    | with_reducible apply issue_keeps
    | with_reducible apply Eff.kStall
    | with_reducible apply Eff.kIssued
    | ((with_reducible apply Tile.Ok.mk') <;> first | with_reducible assumption | with_reducible apply Tile.setOwned_ok | with_reducible apply Tile.evict_ok | with_reducible apply Tile.setSeq_ok | with_reducible apply Tile.write_ok )
    | split
    | intro _

theorem countFree_keeps {s0 s : State} (h : Keeps s0 s) : ∀ a1 a2, Keeps s0 (countFree a1 a2 s) :=
  fun _ _ => setReg_keeps (freeVal_keeps h) _ _

theorem bankEvents_keeps {s0 s : State} (h : Keeps s0 s) : ∀ a1, Keeps s0 (bankEvents a1 s) := by
  intro a1
  unfold bankEvents
  repeat' first
    | with_reducible assumption
    | with_reducible apply countFree_keeps

theorem chainAsk_keeps {s0 s : State} (h : Keeps s0 s) : ∀ a1, Keeps s0 (chainAsk a1 s) := by
  intro a1
  unfold chainAsk
  repeat' first
    | with_reducible assumption
    | with_reducible apply updTile_keeps
    | with_reducible apply reserve_keeps
    | ((with_reducible apply Tile.Ok.mk') <;> first | with_reducible assumption | with_reducible apply Tile.setOwned_ok | with_reducible apply Tile.evict_ok | with_reducible apply Tile.setSeq_ok | with_reducible apply Tile.write_ok )
    | with_reducible refine Keeps.ite ?_ ?_
    | split
    | intro _

theorem Tile.onEngine_ok {x : Tile} (h : x.Ok) (r : ChainRun) : (x.onEngine r).Ok := h.of rfl

theorem unpark_keeps {s0 s : State} (h : Keeps s0 s) : ∀ a1, Keeps s0 (unpark a1 s) := by
  intro a1
  unfold unpark
  refine Keeps.ite h ?_
  split
  · exact chainAsk_keeps (updTile_keeps h _ _ fun x hx => Tile.onEngine_ok hx _) _
  · exact h

theorem chainResume_keeps {s0 s : State} (h : Keeps s0 s) : ∀ a1 a2, Keeps s0 (chainResume a1 a2 s) := by
  intro a1 a2
  unfold chainResume
  repeat' first
    | with_reducible assumption
    | with_reducible apply chainAsk_keeps
    | with_reducible apply unpark_keeps
    | with_reducible refine Keeps.ite ?_ ?_
    | split

theorem clashWith_keeps {s0 s : State} (h : Keeps s0 s) : ∀ a1 a2 a3, Keeps s0 (clashWith a1 a2 a3 s) := by
  intro a1 a2 a3
  unfold clashWith
  repeat' first
    | with_reducible assumption
    | with_reducible apply updTile_keeps
    | ((with_reducible apply Tile.Ok.mk') <;> first | with_reducible assumption | with_reducible apply Tile.setOwned_ok | with_reducible apply Tile.evict_ok | with_reducible apply Tile.setSeq_ok | with_reducible apply Tile.write_ok )
    | split
    | intro _

theorem undefine_keeps {s0 s : State} (h : Keeps s0 s) : ∀ a1 a2, Keeps s0 (undefine a1 a2 s) := by
  intro a1 a2
  unfold undefine
  repeat' first
    | with_reducible assumption
    | with_reducible apply freeVal_keeps
    | with_reducible apply updTile_keeps
    | with_reducible apply Keeps.foldl
    | (with_reducible refine Keeps.snd (by assumption) ?_)
    | ((with_reducible apply Tile.Ok.mk') <;> first | with_reducible assumption | with_reducible apply Tile.setOwned_ok | with_reducible apply Tile.evict_ok | with_reducible apply Tile.setSeq_ok | with_reducible apply Tile.write_ok )
    | split
    | intro _

theorem vecErr_keeps {s0 s : State} (h : Keeps s0 s) : ∀ a1 a2 a3 a4, Keeps s0 (vecErr a1 a2 a3 a4 s) := by
  intro a1 a2 a3 a4
  unfold vecErr
  repeat' first
    | with_reducible assumption
    | with_reducible apply setReg_keeps

theorem vecInvalid_keeps {s0 s : State} (h : Keeps s0 s) : ∀ a1 a2 a3 a4, Keeps s0 (vecInvalid a1 a2 a3 a4 s) := by
  intro a1 a2 a3 a4
  unfold vecInvalid
  repeat' first
    | with_reducible assumption
    | with_reducible apply tileStop_keeps
    | with_reducible apply vecErr_keeps
    | with_reducible apply raiseInt_keeps

theorem chainMark_keeps {s0 s : State} (h : Keeps s0 s) : ∀ a1 a2 a3, Keeps s0 (chainMark a1 a2 a3 s) := by
  intro a1 a2 a3
  unfold chainMark
  repeat' first
    | with_reducible assumption
    | with_reducible apply updTile_keeps
    | ((with_reducible apply Tile.Ok.mk') <;> first | with_reducible assumption | with_reducible apply Tile.setOwned_ok | with_reducible apply Tile.evict_ok | with_reducible apply Tile.setSeq_ok | with_reducible apply Tile.write_ok )
    | with_reducible refine Keeps.ite ?_ ?_
    | intro _

theorem vecAccess_keeps {s0 s : State} (h : Keeps s0 s) : ∀ a1 a2 a3 a4 a5 a6, Keeps s0 (vecAccess a1 a2 a3 a4 a5 a6 s) := by
  intro a1 a2 a3 a4 a5 a6
  unfold vecAccess
  repeat' first
    | with_reducible assumption
    | with_reducible apply tileStop_keeps
    | with_reducible apply vecErr_keeps
    | with_reducible apply raiseInt_keeps

theorem chainAdvance_keeps {s0 s : State} (h : Keeps s0 s) : ∀ a1 a2, Keeps s0 (chainAdvance a1 a2 s) := by
  intro t n
  unfold chainAdvance
  extract_lets x
  split
  · exact h
  · next r _ =>
    extract_lets st q
    split
    · next c j _ _ =>
      extract_lets n spans ks s1
      have h1 : Keeps s0 s1 := chainMark_keeps (undefine_keeps h _ _) _ _ _
      clear_value s1 ks n q st
      have hv := fun (m : s1.MemsOk) => runVectors_ok t (s1.tile t) (partOf s r.job t) c r.vdone n { x := s1.tile t, j := j, ns := 0, fc := s1.freeCtr } (m.tile t)
      generalize runVectors t (s1.tile t) (partOf s r.job t) c r.vdone n { x := s1.tile t, j := j, ns := 0, fc := s1.freeCtr } = y at hv ⊢
      obtain ⟨res, v⟩ := y
      dsimp -zeta only at hv ⊢
      extract_lets put
      have hp : ∀ w : VSt, (s1.MemsOk → w.x.Ok) → Keeps s0 (put w s1) := by
        intro w hw
        have h2 : Keeps s0 { s1 with tiles := Tbl.put s1.tiles t { w.x with chain := some { r with vdone := v } }, jobs := Tbl.put s1.jobs r.job w.j, freeCtr := w.fc } :=
          h1.mk' (Nat.le_refl _) fun m => ⟨m.host, m.intake, m.fabric, m.nvm, m.sram, m.stk, m.owned, m.log, Tbl.all_put (P := Tile.Ok) m.tiles ((hw m).of rfl), m.loc, m.saved⟩
        exact orNstat_keeps (orReg_keeps (count_keeps h2 _ _ _) _ _) _ _ _
      clear_value put
      split
      · exact undefine_keeps (hp _ hv) _ _
      · exact tilePoison_keeps (undefine_keeps (hp _ hv) _ _) _ _
      · exact vecAccess_keeps (undefine_keeps (hp _ hv) _ _) _ _ _ _ _ _
    · exact h

theorem chainPause_keeps {s0 s : State} (h : Keeps s0 s) : ∀ a1 a2, Keeps s0 (chainPause a1 a2 s) := by
  intro a1 a2
  unfold chainPause
  repeat' first
    | with_reducible assumption
    | with_reducible apply ledgerDrop_keeps
    | with_reducible apply freeVal_keeps
    | with_reducible apply updTile_keeps
    | with_reducible apply chainAdvance_keeps
    | with_reducible apply ledgerReturn_keeps
    | ((with_reducible apply Tile.Ok.mk') <;> first | with_reducible assumption | with_reducible apply Tile.setOwned_ok | with_reducible apply Tile.evict_ok | with_reducible apply Tile.setSeq_ok | with_reducible apply Tile.write_ok )
    | with_reducible refine Keeps.ite ?_ ?_
    | split
    | intro _

theorem vecStart_keeps {s0 s : State} (h : Keeps s0 s) : ∀ a1 a2 a3, Keeps s0 (vecStart a1 a2 a3 s) := by
  intro a1 a2 a3
  unfold vecStart
  exact chainAsk_keeps (updSeq_keeps (updTile_keeps h _ _ fun x hx => Tile.onEngine_ok hx _) _ _ _) _

theorem vecStall_keeps {s0 s : State} (h : Keeps s0 s) : ∀ i, Keeps s0 ((vecStall i).st s) := fun _ => h

theorem execUprog_keeps {s0 s : State} (h : Keeps s0 s) : ∀ a1 a2 a3, OutKeeps s0 (execUprog a1 a2 a3 s) := by
  intro a1 a2 a3
  unfold execUprog
  repeat' first
    | with_reducible assumption
    | with_reducible apply vecStall_keeps
    | with_reducible apply issue_keeps
    | with_reducible apply vecStart_keeps
    | with_reducible apply vecInvalid_keeps
    | with_reducible apply tilePoison_keeps
    | with_reducible apply Eff.kStop
    | with_reducible apply Eff.kIssued
    | split
    | intro _
    | dsimp only

theorem chainEnd_keeps {s0 s : State} (h : Keeps s0 s) : ∀ a1, Keeps s0 (chainEnd a1 s) := by
  intro a1
  unfold chainEnd
  repeat' first
    | with_reducible assumption
    | with_reducible apply updSeq_keeps
    | with_reducible apply updTile_keeps
    | with_reducible apply countFree_keeps
    | with_reducible apply chainAsk_keeps
    | with_reducible apply ledgerReturn_keeps
    | with_reducible apply retire_keeps
    | with_reducible apply unpark_keeps
    | with_reducible apply count_keeps
    | with_reducible apply bankEvents_keeps
    | ((with_reducible apply Tile.Ok.mk') <;> first | with_reducible assumption | with_reducible apply Tile.setOwned_ok | with_reducible apply Tile.evict_ok | with_reducible apply Tile.setSeq_ok | with_reducible apply Tile.write_ok )
    | with_reducible refine Keeps.ite ?_ ?_
    | split
    | intro _

theorem execChainRetire_keeps {s0 s : State} (h : Keeps s0 s) : ∀ a1, OutKeeps s0 (execChainRetire a1 s) := by
  intro a1
  unfold execChainRetire
  repeat' first
    | with_reducible assumption
    | with_reducible apply chainEnd_keeps
    | with_reducible apply chainAdvance_keeps
    | with_reducible apply when_keeps
    | with_reducible apply unpark_keeps
    | with_reducible apply OutKeeps.next
    | with_reducible refine Keeps.ite ?_ ?_
    | split

theorem execChain_keeps {s0 s : State} (h : Keeps s0 s) : ∀ a1 a2 a3, OutKeeps s0 (execChain a1 a2 a3 s) := by
  intro a1 a2 a3
  unfold execChain
  repeat' first
    | with_reducible assumption
    | with_reducible apply vecStall_keeps
    | with_reducible apply issue_keeps
    | with_reducible apply vecStart_keeps
    | with_reducible apply vecInvalid_keeps
    | with_reducible apply tilePoison_keeps
    | with_reducible apply Eff.kStop
    | with_reducible apply Eff.kIssued
    | split
    | intro _
    | dsimp only

theorem resumeSeq_keeps {s0 s : State} (h : Keeps s0 s) : ∀ a1 a2, Keeps s0 (resumeSeq a1 a2 s) := by
  intro a1 a2
  unfold resumeSeq
  repeat' first
    | with_reducible assumption
    | with_reducible apply updSeq_keeps
    | with_reducible apply reloadBlocks_keeps
    | with_reducible apply resumeDmas_keeps
    | with_reducible apply chainResume_keeps

theorem startSeq_keeps {s0 s : State} (h : Keeps s0 s) : ∀ a1 a2 a3 a4, Keeps s0 (startSeq a1 a2 a3 a4 s) := by
  intro a1 a2 a3 a4
  unfold startSeq
  repeat' first
    | with_reducible assumption
    | with_reducible apply updSeq_keeps

theorem stashSeq_keeps {s0 s : State} (h : Keeps s0 s) : ∀ a1 a2, Keeps s0 (stashSeq a1 a2 s) := by
  intro t k
  unfold stashSeq
  dsimp only
  split
  · have hp : ∀ (x : Tile) (t2 : Tbl SavedSeq), (s.MemsOk → x.Ok) → Keeps s0 { s with tiles := Tbl.put s.tiles t x, savedSeqs := t2 } :=
      fun x t2 hx => h.mk' (Nat.le_refl _) fun m => ⟨m.host, m.intake, m.fabric, m.nvm, m.sram, m.stk, m.owned, m.log, Tbl.all_put (P := Tile.Ok) m.tiles (hx m), m.loc, m.saved⟩
    exact hp _ _ fun m => Tile.setSeq_ok (Tile.Ok.mk' (m.tile t)) _ _
  · exact h

theorem unstashSeq_keeps {s0 s : State} (h : Keeps s0 s) : ∀ a1 a2 a3 a4, Keeps s0 (unstashSeq a1 a2 a3 a4 s) := by
  intro a1 a2 a3 a4
  unfold unstashSeq
  repeat' first
    | with_reducible assumption
    | with_reducible apply updTile_keeps
    | with_reducible apply semWake_keeps
    | with_reducible apply Keeps.foldl
    | ((with_reducible apply Keeps.mk') <;> first | with_reducible assumption | with_reducible apply updTile_keeps | with_reducible apply semWake_keeps | with_reducible apply Keeps.foldl | (with_reducible refine Keeps.snd (by assumption) ?_) | (with_reducible refine Keeps.snd2 (by assumption) ?_) | with_reducible exact Nat.le_refl _ | with_reducible exact fun m => ⟨m.host, m.intake, m.fabric, m.nvm, m.sram, m.stk, m.owned, m.log, m.tiles, m.loc, m.saved⟩)
    | ((with_reducible apply Tile.Ok.mk') <;> first | with_reducible assumption | with_reducible apply Tile.setOwned_ok | with_reducible apply Tile.evict_ok | with_reducible apply Tile.setSeq_ok | with_reducible apply Tile.write_ok )
    | intro _

theorem enterSeq_keeps {s0 s : State} (h : Keeps s0 s) : ∀ a1 a2 a3 a4, Keeps s0 (enterSeq a1 a2 a3 a4 s) := by
  intro a1 a2 a3 a4
  unfold enterSeq
  repeat' first
    | with_reducible assumption
    | with_reducible apply updSeq_keeps
    | with_reducible apply unstashSeq_keeps
    | with_reducible apply reloadBlocks_keeps
    | with_reducible apply resumeSeq_keeps
    | with_reducible apply startSeq_keeps
    | with_reducible apply stashSeq_keeps
    | with_reducible refine Keeps.ite ?_ ?_
    | split
    | dsimp only

theorem execDmaComplete_keeps {s0 s : State} (h : Keeps s0 s) : ∀ a1 a2, OutKeeps s0 (execDmaComplete a1 a2 s) := by
  intro a1 a2
  unfold execDmaComplete
  repeat' first
    | with_reducible assumption
    | with_reducible apply updSeq_keeps
    | with_reducible apply updTile_keeps
    | with_reducible apply whenP_keeps
    | with_reducible apply tileAccess_keeps
    | with_reducible apply undefine_keeps
    | with_reducible apply dmaMove_keeps
    | with_reducible apply retire_keeps
    | with_reducible apply tilePoison_keeps
    | with_reducible apply clashWith_keeps
    | with_reducible apply OutKeeps.next
    | (with_reducible refine Keeps.movedDone (by assumption) ?_)
    | (with_reducible refine Keeps.movedPoison (by assumption) ?_)
    | (with_reducible refine Keeps.movedAccess (by assumption) ?_)
    | ((with_reducible apply Keeps.mk') <;> first | with_reducible assumption | with_reducible apply updSeq_keeps | with_reducible apply updTile_keeps | with_reducible apply whenP_keeps | with_reducible apply tileAccess_keeps | with_reducible apply undefine_keeps | with_reducible apply dmaMove_keeps | with_reducible apply retire_keeps | with_reducible apply tilePoison_keeps | with_reducible apply clashWith_keeps | with_reducible apply bankEvents_keeps | with_reducible apply OutKeeps.next | with_reducible exact OutKeeps.fault | (with_reducible refine Keeps.movedDone (by assumption) ?_) | (with_reducible refine Keeps.movedPoison (by assumption) ?_) | (with_reducible refine Keeps.movedAccess (by assumption) ?_) | with_reducible exact Nat.le_refl _ | with_reducible exact fun m => ⟨m.host, m.intake, m.fabric, m.nvm, m.sram, m.stk, m.owned, m.log, m.tiles, m.loc, m.saved⟩)
    | ((with_reducible apply Tile.Ok.mk') <;> first | with_reducible assumption | with_reducible apply Tile.setOwned_ok | with_reducible apply Tile.evict_ok | with_reducible apply Tile.setSeq_ok | with_reducible apply Tile.write_ok )
    | split
    | intro _
    | dsimp only

theorem suspendSeq_keeps {s0 s : State} (h : Keeps s0 s) : ∀ a1 a2, Keeps s0 (suspendSeq a1 a2 s) := by
  intro a1 a2
  unfold suspendSeq
  repeat' first
    | with_reducible assumption
    | with_reducible apply ledgerDrop_keeps
    | with_reducible apply updTile_keeps
    | with_reducible apply pauseDmas_keeps
    | with_reducible apply chainPause_keeps
    | with_reducible apply ledgerReturn_keeps
    | ((with_reducible apply Tile.Ok.mk') <;> first | with_reducible assumption | with_reducible apply Tile.setOwned_ok | with_reducible apply Tile.evict_ok | with_reducible apply Tile.setSeq_ok | with_reducible apply Tile.write_ok )
    | with_reducible refine Keeps.ite ?_ ?_
    | split
    | intro _

theorem gateCredit_keeps {s0 s : State} (h : Keeps s0 s) : ∀ a1 a2 a3, Keeps s0 (gateCredit a1 a2 a3 s) := by
  intro a1 a2 a3
  unfold gateCredit
  repeat' first
    | with_reducible assumption
    | with_reducible apply setUnit_keeps
    | split
    | dsimp only

theorem tileNstat_keeps {s0 s : State} (h : Keeps s0 s) : ∀ a1 a2 a3 a4, Keeps s0 (tileNstat a1 a2 a3 a4 s) := by
  intro a1 a2 a3 a4
  unfold tileNstat
  repeat' first
    | with_reducible assumption
    | with_reducible apply orNstat_keeps
    | with_reducible apply orReg_keeps

theorem poisonCid_keeps {s0 s : State} (h : Keeps s0 s) : ∀ a1 a2 a3, Keeps s0 (poisonCid a1 a2 a3 s) := by
  intro a1 a2 a3
  unfold poisonCid
  repeat' first
    | with_reducible assumption
    | with_reducible apply stopCommand_keeps
    | with_reducible apply tilePoison_keeps
    | with_reducible apply raiseInt_keeps
    | ((with_reducible apply Keeps.mk') <;> first | with_reducible assumption | with_reducible apply stopCommand_keeps | with_reducible apply tilePoison_keeps | with_reducible apply raiseInt_keeps | with_reducible exact Nat.le_refl _ | with_reducible exact fun m => ⟨m.host, m.intake, m.fabric, m.nvm, m.sram, m.stk, m.owned, m.log, m.tiles, m.loc, m.saved⟩)
    | with_reducible refine Keeps.ite ?_ ?_
    | split

theorem runClose_keeps {s0 s : State} (h : Keeps s0 s) : ∀ a1 a2, Keeps s0 (runClose a1 a2 s) := by
  intro t c
  unfold runClose
  extract_lets x v bad ks s1
  split
  · exact h
  · next j _ =>
    refine Keeps.ite (poisonCid_keeps h _ _ _) ?_
    extract_lets ks s1
    have h1 : Keeps s0 s1 := clashWith_keeps (undefine_keeps h _ _) _ _ _
    clear_value s1
    have hx : s1.MemsOk → (closeRows t c (s1.tile t) j).1.Ok := fun m => closeRows_ok (m.tile t) _ _ _
    generalize closeRows t c (s1.tile t) j = y at hx ⊢
    obtain ⟨x1, j1, st⟩ := y
    refine retire_keeps (tileNstat_keeps (undefine_keeps ?_ _ _) _ _ _ _) _ _ _ _ _ _
    exact h1.mk' (Nat.le_refl _) fun m => ⟨m.host, m.intake, m.fabric, m.nvm, m.sram, m.stk, m.owned, m.log, Tbl.all_put (P := Tile.Ok) m.tiles (hx m), m.loc, m.saved⟩

theorem execMclose_keeps {s0 s : State} (h : Keeps s0 s) : ∀ a1 a2 a3, OutKeeps s0 (execMclose a1 a2 a3 s) := by
  intro a1 a2 a3
  unfold execMclose
  repeat' first
    | with_reducible assumption
    | with_reducible apply updTile_keeps
    | with_reducible apply issue_keeps
    | with_reducible apply runClose_keeps
    | with_reducible apply Eff.kStop
    | with_reducible apply Eff.kIssued
    | ((with_reducible apply Tile.Ok.mk') <;> first | with_reducible assumption | with_reducible apply Tile.setOwned_ok | with_reducible apply Tile.evict_ok | with_reducible apply Tile.setSeq_ok | with_reducible apply Tile.write_ok )
    | split
    | intro _
    | dsimp only

theorem runCloses_keeps {s0 s : State} (h : Keeps s0 s) : ∀ a1, Keeps s0 (runCloses a1 s) := by
  intro a1
  unfold runCloses
  repeat' first
    | with_reducible assumption
    | with_reducible apply updTile_keeps
    | with_reducible apply runClose_keeps
    | with_reducible apply Keeps.foldl
    | ((with_reducible apply Tile.Ok.mk') <;> first | with_reducible assumption | with_reducible apply Tile.setOwned_ok | with_reducible apply Tile.evict_ok | with_reducible apply Tile.setSeq_ok | with_reducible apply Tile.write_ok )
    | intro _

theorem doSwap_keeps {s0 s : State} (h : Keeps s0 s) : ∀ a1 a2 a3 a4 a5, Keeps s0 (doSwap a1 a2 a3 a4 a5 s) := by
  intro a1 a2 a3 a4 a5
  unfold doSwap
  repeat' first
    | with_reducible assumption
    | with_reducible apply reloadBlocks_keeps
    | with_reducible apply updTile_keeps
    | with_reducible apply setUnit_keeps
    | with_reducible apply ledgerShrink_keeps
    | ((with_reducible apply Keeps.mk') <;> first | with_reducible assumption | with_reducible apply reloadBlocks_keeps | with_reducible apply updTile_keeps | with_reducible apply setUnit_keeps | with_reducible apply ledgerShrink_keeps | with_reducible exact Nat.le_refl _ | with_reducible exact fun m => ⟨m.host, m.intake, m.fabric, m.nvm, m.sram, m.stk, m.owned, m.log, m.tiles, m.loc, m.saved⟩)
    | ((with_reducible apply Tile.Ok.mk') <;> first | with_reducible assumption | with_reducible apply Tile.setOwned_ok | with_reducible apply Tile.evict_ok | with_reducible apply Tile.setSeq_ok | with_reducible apply Tile.write_ok )
    | intro _

theorem execSwap_keeps {s0 s : State} (h : Keeps s0 s) : ∀ a1, OutKeeps s0 (execSwap a1 s) := by
  intro a1
  unfold execSwap
  repeat' first
    | with_reducible assumption
    | with_reducible apply updTile_keeps
    | with_reducible apply reserve_keeps
    | with_reducible apply when_keeps
    | with_reducible apply doSwap_keeps
    | with_reducible apply OutKeeps.next
    | ((with_reducible apply Tile.Ok.mk') <;> first | with_reducible assumption | with_reducible apply Tile.setOwned_ok | with_reducible apply Tile.evict_ok | with_reducible apply Tile.setSeq_ok | with_reducible apply Tile.write_ok )
    | with_reducible refine Keeps.ite ?_ ?_
    | split
    | intro _
    | dsimp only

theorem execPassEnd_keeps {s0 s : State} (h : Keeps s0 s) : ∀ a1, OutKeeps s0 (execPassEnd a1 s) := by
  intro t
  unfold execPassEnd
  split
  · exact OutKeeps.next h
  · next p r _ =>
    apply when_keeps h
    extract_lets drop
    have hd : ∀ x : Tile, x.Ok → (drop x).Ok := fun x hx => Tile.Ok.mk' hx
    clear_value drop
    refine Keeps.ite (poisonCid_keeps (updTile_keeps h _ _ hd) _ _ _) ?_
    extract_lets ks
    have hx : s.MemsOk → (passApply (s.tile t) p).1.Ok := fun m => passApply_ok (m.tile t) p
    generalize passApply (s.tile t) p = y at hx ⊢
    obtain ⟨x1, st⟩ := y
    have h1 : Keeps s0 { s with tiles := Tbl.put s.tiles t (drop x1) } :=
      h.mk' (Nat.le_refl _) fun m => ⟨m.host, m.intake, m.fabric, m.nvm, m.sram, m.stk, m.owned, m.log, Tbl.all_put (P := Tile.Ok) m.tiles (hd _ (hx m)), m.loc, m.saved⟩
    exact runCloses_keeps (retire_keeps (bankEvents_keeps (undefine_keeps (clashWith_keeps (gateCredit_keeps (tileNstat_keeps (count_keeps (count_keeps h1 _ _ _) _ _ _) _ _ _ _) _ _ _) _ _ _) _ _) _) _ _ _ _ _ _) _

theorem dropTileJob_keeps {s0 s : State} (h : Keeps s0 s) : ∀ a1, Keeps s0 (dropTileJob a1 s) := by
  intro j
  unfold dropTileJob
  have hf : ∀ (f : Nat → Tile → Tile), (∀ k x, x.Ok → (f k x).Ok) → Keeps s0 { s with tiles := Tbl.mapv s.tiles f } :=
    fun f hf => h.mk' (Nat.le_refl _) fun m => ⟨m.host, m.intake, m.fabric, m.nvm, m.sram, m.stk, m.owned, m.log, Tbl.all_mapv (P := Tile.Ok) (Q := Tile.Ok) m.tiles hf, m.loc, m.saved⟩
  exact hf _ fun k x hx => Tile.clear_ok (Tile.Ok.mk' hx) _

theorem execDeferredBlockStart_keeps {s0 s : State} (h : Keeps s0 s) : ∀ a1, OutKeeps s0 (execDeferredBlockStart a1 s) := by
  intro a1
  unfold execDeferredBlockStart
  repeat' first
    | with_reducible assumption
    | with_reducible apply updTile_keeps
    | with_reducible apply when_keeps
    | with_reducible apply OutKeeps.next
    | ((with_reducible apply Tile.Ok.mk') <;> first | with_reducible assumption | with_reducible apply Tile.setOwned_ok | with_reducible apply Tile.evict_ok | with_reducible apply Tile.setSeq_ok | with_reducible apply Tile.write_ok )
    | split
    | intro _
    | dsimp only

theorem execMma_keeps {s0 s : State} (h : Keeps s0 s) : ∀ a1 a2 a3, OutKeeps s0 (execMma a1 a2 a3 s) := by
  intro t st w
  delta execMma
  refine issue_keeps h t st w 1 1 _ _ _ ?_
  intro i s hs
  extract_lets o
  split
  · exact Eff.kStall hs
  · extract_lets
    clear_value *
    split
    · exact Eff.kStop (tilePoison_keeps hs _ _)
    · refine Eff.kIssued (updTile_keeps hs _ _ fun x hx => ?_)
      split
      · exact Tile.Ok.mk' (Tile.setOwned_ok (Tile.Ok.mk' hx) _ _ _)
      · exact Tile.Ok.mk' hx

theorem execWload_keeps {s0 s : State} (h : Keeps s0 s) : ∀ a1 a2 a3, OutKeeps s0 (execWload a1 a2 a3 s) := by
  intro a1 a2 a3
  unfold execWload
  repeat' first
    | with_reducible assumption
    | with_reducible apply updTile_keeps
    | with_reducible apply issue_keeps
    | with_reducible apply tilePoison_keeps
    | with_reducible apply Eff.kStall
    | with_reducible apply Eff.kStop
    | with_reducible apply Eff.kIssued
    | ((with_reducible apply Tile.Ok.mk') <;> first | with_reducible assumption | with_reducible apply Tile.setOwned_ok | with_reducible apply Tile.evict_ok | with_reducible apply Tile.setSeq_ok | with_reducible apply Tile.write_ok )
    | split
    | intro _
    | dsimp only

end Sys2Proof.Machine
end

