-- ==== Sys2Proof/Laws/KeepsLookup.lean ====
section
/-! SUPPORT. One lemma per function of the tables, the walkers and the two ends of a lookup: it keeps what `Keeps` names. -/

namespace Sys2Proof.Machine

theorem sendOthers_keeps {s0 s : State} (h : Keeps s0 s) : ∀ a1 a2 a3 a4, Keeps s0 (sendOthers a1 a2 a3 a4 s) := by
  intro a1 a2 a3 a4
  unfold sendOthers
  repeat' first
    | with_reducible assumption
    | with_reducible apply sendRank_keeps
    | with_reducible apply Keeps.foldl
    | split
    | intro _

theorem demotePoisoned_keeps {s0 s : State} (h : Keeps s0 s) : ∀ a1 a2 a3 a4 a5 a6, Keeps s0 (demotePoisoned a1 a2 a3 a4 a5 a6 s) := by
  intro a1 a2 a3 a4 a5 a6
  unfold demotePoisoned
  repeat' first
    | with_reducible apply sendOthers_keeps
    | with_reducible apply fault_keeps
    | ((with_reducible apply Keeps.mk') <;> first | with_reducible assumption | with_reducible apply sendOthers_keeps | with_reducible apply fault_keeps | with_reducible exact Nat.le_refl _ | with_reducible exact fun m => ⟨m.host, m.intake, m.fabric, m.nvm, m.sram, m.stk, m.owned, m.log, m.tiles, m.loc, m.saved⟩)

theorem sendHotRow_keeps {s0 s : State} (h : Keeps s0 s) : ∀ a1 a2 a3, Keeps s0 (sendHotRow a1 a2 a3 s).2 := by
  intro a1 a2 a3
  unfold sendHotRow
  repeat' first
    | with_reducible assumption
    | with_reducible apply sendOthers_keeps
    | with_reducible apply demotePoisoned_keeps
    | with_reducible apply rangeRead_keeps
    | (with_reducible refine Keeps.rdOk (by assumption) ?_)
    | (with_reducible refine Keeps.rdUn (by assumption) ?_)
    | ((with_reducible apply Keeps.mk') <;> first | with_reducible assumption | with_reducible apply sendOthers_keeps | with_reducible apply demotePoisoned_keeps | with_reducible apply rangeRead_keeps | (with_reducible refine Keeps.rdOk (by assumption) ?_) | (with_reducible refine Keeps.rdUn (by assumption) ?_) | with_reducible exact Nat.le_refl _ | with_reducible exact fun m => ⟨m.host, m.intake, m.fabric, m.nvm, m.sram, m.stk, m.owned, m.log, m.tiles, m.loc, m.saved⟩)
    | split
    | dsimp only

theorem continueRound_keeps {s0 s : State} (h : Keeps s0 s) : ∀ a1, Keeps s0 (continueRound a1 s) := by
  intro a1
  unfold continueRound
  repeat' first
    | with_reducible assumption
    | with_reducible apply needDraw_keeps
    | with_reducible apply powered_keeps
    | with_reducible apply sendHotRow_keeps
    | with_reducible apply Keeps.foldl2
    | (with_reducible refine Keeps.snd (by assumption) ?_)
    | ((with_reducible apply Keeps.mk') <;> first | with_reducible assumption | with_reducible apply sendOthers_keeps | with_reducible apply needDraw_keeps | with_reducible apply powered_keeps | with_reducible apply sendHotRow_keeps | with_reducible apply Keeps.foldl | with_reducible apply Keeps.foldl2 | with_reducible apply Keeps.foldl3 | (with_reducible refine Keeps.snd (by assumption) ?_) | (with_reducible refine Keeps.snd2 (by assumption) ?_) | with_reducible exact Nat.le_refl _ | with_reducible exact fun m => ⟨m.host, m.intake, m.fabric, m.nvm, m.sram, m.stk, m.owned, m.log, m.tiles, m.loc, m.saved⟩)
    | split
    | intro _

theorem cacheWrite_keeps {s0 s : State} (h : Keeps s0 s) : ∀ a1 a2 a3 a4 a5, Keeps s0 (cacheWrite a1 a2 a3 a4 a5 s).state := by
  intro a1 a2 a3 a4 a5
  unfold cacheWrite
  repeat' first
    | with_reducible assumption
    | with_reducible apply rangeWrite_keeps
    | with_reducible apply Keeps.foldl
    | with_reducible apply WrRes.keepsOk
    | with_reducible apply WrRes.keepsUn
    | (with_reducible refine Keeps.wrOk (by assumption) ?_)
    | (with_reducible refine Keeps.wrUn (by assumption) ?_)
    | ((with_reducible apply Keeps.mk') <;> first | with_reducible assumption | with_reducible apply rangeWrite_keeps | with_reducible apply Keeps.foldl | with_reducible apply WrRes.keepsOk | with_reducible apply WrRes.keepsUn | (with_reducible refine Keeps.snd (by assumption) ?_) | (with_reducible refine Keeps.snd2 (by assumption) ?_) | (with_reducible refine Keeps.wrOk (by assumption) ?_) | (with_reducible refine Keeps.wrUn (by assumption) ?_) | with_reducible exact Nat.le_refl _ | with_reducible exact fun m => ⟨m.host, m.intake, m.fabric, m.nvm, m.sram, m.stk, m.owned, m.log, m.tiles, m.loc, m.saved⟩)
    | with_reducible refine Keeps.ite ?_ ?_
    | split
    | intro _

theorem updTable_keeps {s0 s : State} (h : Keeps s0 s) : ∀ a1 a2 a3, Keeps s0 (updTable a1 a2 a3 s) := by
  intro a1 a2 a3
  unfold updTable
  repeat' first
    | ((with_reducible apply Keeps.mk') <;> first | with_reducible assumption | with_reducible exact Nat.le_refl _ | with_reducible exact fun m => ⟨m.host, m.intake, m.fabric, m.nvm, m.sram, m.stk, m.owned, m.log, m.tiles, m.loc, m.saved⟩)

theorem publishReply_keeps {s0 s : State} (h : Keeps s0 s) : ∀ a1 a2 a3 a4 a5, Keeps s0 (publishReply a1 a2 a3 a4 a5 s) := by
  intro a1 a2 a3 a4 a5
  unfold publishReply
  repeat' first
    | with_reducible assumption
    | with_reducible apply updTable_keeps

theorem execPubReply_keeps {s0 s : State} (h : Keeps s0 s) : ∀ a1, OutKeeps s0 (execPubReply a1 s) := by
  intro a1
  unfold execPubReply
  repeat' first
    | with_reducible assumption
    | with_reducible apply publishReply_keeps
    | with_reducible apply receive_keeps
    | with_reducible apply protoAck_keeps
    | intro _

theorem execTblDestroy_keeps {s0 s : State} (h : Keeps s0 s) : ∀ a1, OutKeeps s0 (execTblDestroy a1 s) := by
  intro a1
  unfold execTblDestroy
  repeat' first
    | with_reducible assumption
    | with_reducible apply updTable_keeps
    | with_reducible apply endHead_keeps
    | with_reducible apply runJob_keeps
    | with_reducible refine Keeps.ite ?_ ?_
    | split
    | intro _
    | dsimp only

theorem execTblStage_keeps {s0 s : State} (h : Keeps s0 s) : ∀ a1, OutKeeps s0 (execTblStage a1 s) := by
  intro a1
  unfold execTblStage
  repeat' first
    | with_reducible assumption
    | with_reducible apply updTable_keeps
    | with_reducible apply runJobNow_keeps
    | split
    | intro _
    | dsimp only

theorem hotWindow_keeps {s0 s : State} (h : Keeps s0 s) : ∀ a1, Keeps s0 (hotWindow a1 s) := by
  intro a1
  unfold hotWindow
  repeat' first
    | with_reducible assumption
    | ((with_reducible apply Keeps.mk') <;> first | with_reducible assumption | with_reducible apply Keeps.foldl | with_reducible apply Keeps.foldl2 | with_reducible apply Keeps.foldl3 | (with_reducible refine Keeps.snd (by assumption) ?_) | (with_reducible refine Keeps.snd2 (by assumption) ?_) | with_reducible exact Nat.le_refl _ | with_reducible exact fun m => ⟨m.host, m.intake, m.fabric, m.nvm, m.sram, m.stk, m.owned, m.log, m.tiles, m.loc, m.saved⟩)
    | split
    | intro _

theorem flipRound_keeps {s0 s : State} (h : Keeps s0 s) : ∀ a1 a2 a3 a4, Keeps s0 (flipRound a1 a2 a3 a4 s) := by
  intro a1 a2 a3 a4
  unfold flipRound
  repeat' first
    | ((with_reducible apply Keeps.mk') <;> first | with_reducible assumption | with_reducible exact Nat.le_refl _ | with_reducible exact fun m => ⟨m.host, m.intake, m.fabric, m.nvm, m.sram, m.stk, m.owned, m.log, m.tiles, m.loc, m.saved⟩)

theorem updRound_keeps {s0 s : State} (h : Keeps s0 s) : ∀ a1 a2 a3 a4, Keeps s0 (updRound a1 a2 a3 a4 s) := by
  intro a1 a2 a3 a4
  unfold updRound
  repeat' first
    | ((with_reducible apply Keeps.mk') <;> first | with_reducible assumption | with_reducible exact Nat.le_refl _ | with_reducible exact fun m => ⟨m.host, m.intake, m.fabric, m.nvm, m.sram, m.stk, m.owned, m.log, m.tiles, m.loc, m.saved⟩)

theorem readerStep_keeps {s0 s : State} (h : Keeps s0 s) : Keeps s0 (readerStep s) := by
  unfold readerStep
  repeat' first
    | with_reducible assumption
    | with_reducible apply flipRound_keeps
    | with_reducible apply updRound_keeps
    | with_reducible apply count_keeps
    | ((with_reducible apply Keeps.mk') <;> first | with_reducible assumption | with_reducible apply flipRound_keeps | with_reducible apply updRound_keeps | with_reducible apply count_keeps | with_reducible apply Keeps.foldl | (with_reducible refine Keeps.snd (by assumption) ?_) | (with_reducible refine Keeps.snd2 (by assumption) ?_) | with_reducible exact Nat.le_refl _ | with_reducible exact fun m => ⟨m.host, m.intake, m.fabric, m.nvm, m.sram, m.stk, m.owned, m.log, m.tiles, m.loc, m.saved⟩)
    | split
    | intro _

theorem lagCheck_keeps {s0 s : State} (h : Keeps s0 s) : Keeps s0 (lagCheck s) := by
  unfold lagCheck
  repeat' first
    | with_reducible assumption
    | with_reducible apply raiseInt_keeps
    | with_reducible refine Keeps.ite ?_ ?_

theorem startRound_keeps {s0 s : State} (h : Keeps s0 s) : ∀ a1 a2, Keeps s0 (startRound a1 a2 s) := by
  intro a1 a2
  unfold startRound
  repeat' first
    | with_reducible assumption
    | with_reducible apply continueRound_keeps
    | with_reducible apply count_keeps
    | ((with_reducible apply Keeps.mk') <;> first | with_reducible assumption | with_reducible apply continueRound_keeps | with_reducible apply count_keeps | with_reducible exact Nat.le_refl _ | with_reducible exact fun m => ⟨m.host, m.intake, m.fabric, m.nvm, m.sram, m.stk, m.owned, m.log, m.tiles, m.loc, m.saved⟩)
    | with_reducible refine Keeps.ite ?_ ?_
    | split

theorem replicaStep_keeps {s0 s : State} (h : Keeps s0 s) : ∀ a1, Keeps s0 (replicaStep a1 s) := by
  intro a1
  unfold replicaStep
  repeat' first
    | with_reducible assumption
    | with_reducible apply readerStep_keeps
    | with_reducible apply lagCheck_keeps
    | with_reducible apply startRound_keeps
    | with_reducible apply hotWindow_keeps
    | with_reducible apply Keeps.foldl
    | with_reducible refine Keeps.ite ?_ ?_
    | intro _

theorem replicaMismatch_keeps {s0 s : State} (h : Keeps s0 s) : ∀ a1 a2 a3 a4, Keeps s0 (replicaMismatch a1 a2 a3 a4 s) := by
  intro a1 a2 a3 a4
  unfold replicaMismatch
  repeat' first
    | with_reducible assumption
    | with_reducible apply sendRank_keeps
    | with_reducible apply fault_keeps
    | with_reducible apply count_keeps
    | with_reducible apply raiseInt_keeps
    | ((with_reducible apply Keeps.mk') <;> first | with_reducible assumption | with_reducible apply sendRank_keeps | with_reducible apply fault_keeps | with_reducible apply count_keeps | with_reducible apply raiseInt_keeps | with_reducible exact Nat.le_refl _ | with_reducible exact fun m => ⟨m.host, m.intake, m.fabric, m.nvm, m.sram, m.stk, m.owned, m.log, m.tiles, m.loc, m.saved⟩)
    | split

theorem publishHere_keeps {s0 s : State} (h : Keeps s0 s) : ∀ a1 a2 a3 a4, Keeps s0 (publishHere a1 a2 a3 a4 s).2 := by
  intro a1 a2 a3 a4
  unfold publishHere
  repeat' first
    | with_reducible assumption
    | with_reducible apply updTable_keeps
    | with_reducible apply count_keeps
    | with_reducible apply raiseInt_keeps
    | split
    | dsimp only

theorem execPublish_keeps {s0 s : State} (h : Keeps s0 s) : ∀ a1, OutKeeps s0 (execPublish a1 s) := by
  intro a1
  unfold execPublish
  repeat' first
    | with_reducible assumption
    | with_reducible apply publishHere_keeps
    | with_reducible apply sendRank_keeps
    | with_reducible apply receive_keeps
    | intro _

theorem execReplEnd_keeps {s0 s : State} (h : Keeps s0 s) : ∀ a1, OutKeeps s0 (execReplEnd a1 s) := by
  intro a1
  unfold execReplEnd
  repeat' first
    | with_reducible assumption
    | with_reducible apply needDraw_keeps
    | with_reducible apply updRound_keeps
    | with_reducible apply receive_keeps
    | intro _

theorem execReplRow_keeps {s0 s : State} (h : Keeps s0 s) : ∀ a1, OutKeeps s0 (execReplRow a1 s) := by
  intro a1
  unfold execReplRow
  repeat' first
    | with_reducible assumption
    | with_reducible apply replicaMismatch_keeps
    | with_reducible apply needDraw_keeps
    | with_reducible apply updRound_keeps
    | with_reducible apply badMsg_keeps
    | with_reducible apply cacheWrite_keeps
    | with_reducible apply receive_keeps
    | (with_reducible refine Keeps.wrUn (by assumption) ?_)
    | ((with_reducible apply Keeps.mk') <;> first | with_reducible assumption | with_reducible apply replicaMismatch_keeps | with_reducible apply needDraw_keeps | with_reducible apply updRound_keeps | with_reducible apply badMsg_keeps | with_reducible apply cacheWrite_keeps | with_reducible apply receive_keeps | with_reducible apply OutKeeps.next | with_reducible exact OutKeeps.fault | (with_reducible refine Keeps.wrOk (by assumption) ?_) | (with_reducible refine Keeps.wrUn (by assumption) ?_) | with_reducible exact Nat.le_refl _ | with_reducible exact fun m => ⟨m.host, m.intake, m.fabric, m.nvm, m.sram, m.stk, m.owned, m.log, m.tiles, m.loc, m.saved⟩)
    | with_reducible refine Keeps.ite ?_ ?_
    | split
    | intro _
    | dsimp only

theorem execReplDrop_keeps {s0 s : State} (h : Keeps s0 s) : ∀ a1, OutKeeps s0 (execReplDrop a1 s) := by
  intro a1
  unfold execReplDrop
  repeat' first
    | with_reducible assumption
    | with_reducible apply receive_keeps
    | ((with_reducible apply Keeps.mk') <;> first | with_reducible assumption | with_reducible apply receive_keeps | with_reducible apply OutKeeps.next | with_reducible exact OutKeeps.fault | with_reducible exact Nat.le_refl _ | with_reducible exact fun m => ⟨m.host, m.intake, m.fabric, m.nvm, m.sram, m.stk, m.owned, m.log, m.tiles, m.loc, m.saved⟩)
    | split
    | intro _

theorem monitorHit_keeps {s0 s : State} (h : Keeps s0 s) : ∀ a1 a2 a3, Keeps s0 (monitorHit a1 a2 a3 s) := by
  intro a1 a2 a3
  unfold monitorHit
  repeat' first
    | ((with_reducible apply Keeps.mk') <;> first | with_reducible assumption | with_reducible exact Nat.le_refl _ | with_reducible exact fun m => ⟨m.host, m.intake, m.fabric, m.nvm, m.sram, m.stk, m.owned, m.log, m.tiles, m.loc, m.saved⟩)

theorem finishPublishes_keeps {s0 s : State} (h : Keeps s0 s) : ∀ a1, Keeps s0 (finishPublishes a1 s) := by
  intro a1
  unfold finishPublishes
  repeat' first
    | with_reducible assumption
    | with_reducible apply updTable_keeps
    | with_reducible apply endCid_keeps
    | with_reducible apply Keeps.foldl
    | split
    | intro _

theorem execRepair_keeps {s0 s : State} (h : Keeps s0 s) : ∀ a1, OutKeeps s0 (execRepair a1 s) := by
  intro a1
  unfold execRepair
  repeat' first
    | with_reducible assumption
    | with_reducible apply receive_keeps
    | ((with_reducible apply Keeps.mk') <;> first | with_reducible assumption | with_reducible apply receive_keeps | with_reducible apply OutKeeps.next | with_reducible exact OutKeeps.fault | with_reducible exact Nat.le_refl _ | with_reducible exact fun m => ⟨m.host, m.intake, m.fabric, m.nvm, m.sram, m.stk, m.owned, m.log, m.tiles, m.loc, m.saved⟩)
    | intro _

theorem execTblCreate_keeps {s0 s : State} (h : Keeps s0 s) : ∀ a1, OutKeeps s0 (execTblCreate a1 s) := by
  intro a1
  unfold execTblCreate
  repeat' first
    | with_reducible assumption
    | with_reducible apply runJobNow_keeps
    | ((with_reducible apply Keeps.mk') <;> first | with_reducible assumption | with_reducible apply runJobNow_keeps | with_reducible apply OutKeeps.next | with_reducible exact OutKeeps.fault | with_reducible exact Nat.le_refl _ | with_reducible exact fun m => ⟨m.host, m.intake, m.fabric, m.nvm, m.sram, m.stk, m.owned, m.log, m.tiles, m.loc, m.saved⟩)
    | split
    | intro _
    | dsimp only

theorem markHot_keeps {s0 s : State} (h : Keeps s0 s) : ∀ a1 a2 a3, Keeps s0 (markHot a1 a2 a3 s) := by
  intro a1 a2 a3
  unfold markHot
  repeat' first
    | with_reducible assumption
    | ((with_reducible apply Keeps.mk') <;> first | with_reducible assumption | with_reducible exact Nat.le_refl _ | with_reducible exact fun m => ⟨m.host, m.intake, m.fabric, m.nvm, m.sram, m.stk, m.owned, m.log, m.tiles, m.loc, m.saved⟩)
    | split

theorem execTblPublish_keeps {s0 s : State} (h : Keeps s0 s) : ∀ a1, OutKeeps s0 (execTblPublish a1 s) := by
  intro a1
  unfold execTblPublish
  repeat' first
    | with_reducible assumption
    | with_reducible apply updTable_keeps
    | with_reducible apply endHead_keeps
    | with_reducible apply publishHere_keeps
    | with_reducible apply sendRank_keeps
    | with_reducible apply publishReply_keeps
    | with_reducible apply runJob_keeps
    | with_reducible apply Keeps.foldl
    | ((with_reducible apply Keeps.mk') <;> first | with_reducible assumption | with_reducible apply updTable_keeps | with_reducible apply endHead_keeps | with_reducible apply publishHere_keeps | with_reducible apply sendRank_keeps | with_reducible apply publishReply_keeps | with_reducible apply runJob_keeps | with_reducible apply Keeps.foldl | with_reducible apply OutKeeps.next | with_reducible exact OutKeeps.fault | (with_reducible refine Keeps.snd (by assumption) ?_) | (with_reducible refine Keeps.snd2 (by assumption) ?_) | with_reducible exact Nat.le_refl _ | with_reducible exact fun m => ⟨m.host, m.intake, m.fabric, m.nvm, m.sram, m.stk, m.owned, m.log, m.tiles, m.loc, m.saved⟩)
    | split
    | intro _
    | dsimp only

theorem markTable_keeps {s0 s : State} (h : Keeps s0 s) : ∀ a1 a2, Keeps s0 (markTable a1 a2 s) := by
  intro a1 a2
  unfold markTable
  repeat' first
    | ((with_reducible apply Keeps.mk') <;> first | with_reducible assumption | with_reducible exact Nat.le_refl _ | with_reducible exact fun m => ⟨m.host, m.intake, m.fabric, m.nvm, m.sram, m.stk, m.owned, m.log, m.tiles, m.loc, m.saved⟩)

theorem cacheTouch_keeps {s0 s : State} (h : Keeps s0 s) : ∀ a1 a2 a3 a4, Keeps s0 (cacheTouch a1 a2 a3 a4 s) := by
  intro a1 a2 a3 a4
  unfold cacheTouch
  repeat' first
    | with_reducible assumption
    | ((with_reducible apply Keeps.mk') <;> first | with_reducible assumption | with_reducible apply count_keeps | with_reducible exact Nat.le_refl _ | with_reducible exact fun m => ⟨m.host, m.intake, m.fabric, m.nvm, m.sram, m.stk, m.owned, m.log, m.tiles, m.loc, m.saved⟩)
    | split
    | dsimp only

theorem cacheDropBank_keeps {s0 s : State} (h : Keeps s0 s) : ∀ a1 a2, Keeps s0 (cacheDropBank a1 a2 s) := by
  intro a1 a2
  unfold cacheDropBank
  repeat' first
    | ((with_reducible apply Keeps.mk') <;> first | with_reducible assumption | with_reducible exact Nat.le_refl _ | with_reducible exact fun m => ⟨m.host, m.intake, m.fabric, m.nvm, m.sram, m.stk, m.owned, m.log, m.tiles, m.loc, m.saved⟩)

theorem cacheDrop_keeps {s0 s : State} (h : Keeps s0 s) : ∀ a1, Keeps s0 (cacheDrop a1 s) := by
  intro a1
  unfold cacheDrop
  repeat' first
    | ((with_reducible apply Keeps.mk') <;> first | with_reducible assumption | with_reducible exact Nat.le_refl _ | with_reducible exact fun m => ⟨m.host, m.intake, m.fabric, m.nvm, m.sram, m.stk, m.owned, m.log, m.tiles, m.loc, m.saved⟩)

theorem updDlx_keeps {s0 s : State} (h : Keeps s0 s) : ∀ a1 a2, Keeps s0 (updDlx a1 a2 s) := by
  intro a1 a2
  unfold updDlx
  repeat' first
    | ((with_reducible apply Keeps.mk') <;> first | with_reducible assumption | with_reducible exact Nat.le_refl _ | with_reducible exact fun m => ⟨m.host, m.intake, m.fabric, m.nvm, m.sram, m.stk, m.owned, m.log, m.tiles, m.loc, m.saved⟩)

theorem dlxProgress_keeps {s0 s : State} (h : Keeps s0 s) : ∀ a1 a2 a3 a4, Keeps s0 (dlxProgress a1 a2 a3 a4 s) := by
  intro a1 a2 a3 a4
  unfold dlxProgress
  repeat' first
    | with_reducible assumption
    | with_reducible apply updDlx_keeps

theorem updKeeper_keeps {s0 s : State} (h : Keeps s0 s) : ∀ a1 a2 a3, Keeps s0 (updKeeper a1 a2 a3 s) := by
  intro a1 a2 a3
  unfold updKeeper
  repeat' first
    | with_reducible assumption
    | with_reducible apply updDlx_keeps

theorem dlxAcked_keeps {s0 s : State} (h : Keeps s0 s) : ∀ a1 a2 a3, Keeps s0 (dlxAcked a1 a2 a3 s) := by
  intro a1 a2 a3
  unfold dlxAcked
  repeat' first
    | with_reducible assumption
    | with_reducible apply updKeeper_keeps

theorem ringWrite_keeps {s0 s : State} (h : Keeps s0 s) : ∀ a1 a2 a3 a4 a5, Keeps s0 (ringWrite a1 a2 a3 a4 a5 s).state := by
  intro a1 a2 a3 a4 a5
  unfold ringWrite
  repeat' first
    | with_reducible assumption
    | with_reducible apply rangeWrite_keeps
    | with_reducible apply evictDirty_keeps
    | with_reducible apply WrRes.keepsOk
    | with_reducible apply WrRes.keepsUn
    | (with_reducible refine Keeps.wrOk (by assumption) ?_)
    | (with_reducible refine Keeps.wrUn (by assumption) ?_)
    | split
    | dsimp only

theorem dlxSent_keeps {s0 s : State} (h : Keeps s0 s) : ∀ a1 a2 a3, Keeps s0 (dlxSent a1 a2 a3 s) := by
  intro a1 a2 a3
  unfold dlxSent
  repeat' first
    | with_reducible assumption
    | with_reducible apply updKeeper_keeps
    | ((with_reducible apply Keeps.mk') <;> first | with_reducible assumption | with_reducible apply updKeeper_keeps | with_reducible apply count_keeps | with_reducible exact Nat.le_refl _ | with_reducible exact fun m => ⟨m.host, m.intake, m.fabric, m.nvm, m.sram, m.stk, m.owned, m.log, m.tiles, m.loc, m.saved⟩)

theorem dlxWrite_keeps {s0 s : State} (h : Keeps s0 s) : ∀ a1 a2 a3 a4, Keeps s0 (dlxWrite a1 a2 a3 a4 s) := by
  intro a1 a2 a3 a4
  unfold dlxWrite
  repeat' first
    | with_reducible assumption
    | with_reducible apply dlxAcked_keeps
    | with_reducible apply dlxSent_keeps
    | with_reducible apply ringWrite_keeps
    | (with_reducible refine Keeps.wrOk (by assumption) ?_)
    | (with_reducible refine Keeps.wrUn (by assumption) ?_)
    | with_reducible refine Keeps.ite ?_ ?_
    | split

theorem dlxSendOne_keeps {s0 s : State} (h : Keeps s0 s) : ∀ a1 a2 a3 a4, Keeps s0 (dlxSendOne a1 a2 a3 a4 s) := by
  intro a1 a2 a3 a4
  unfold dlxSendOne
  repeat' first
    | with_reducible assumption
    | with_reducible apply dlxSent_keeps
    | with_reducible apply sendRank_keeps
    | with_reducible apply powered_keeps
    | with_reducible apply dlxWrite_keeps
    | with_reducible refine Keeps.ite ?_ ?_
    | intro _

theorem dlxPump_keeps {s0 s : State} (h : Keeps s0 s) : ∀ a1, Keeps s0 (dlxPump a1 s) := by
  intro a1
  unfold dlxPump
  repeat' first
    | with_reducible assumption
    | with_reducible apply reserve_keeps
    | with_reducible apply dlxSendOne_keeps
    | with_reducible apply Keeps.foldl
    | with_reducible refine Keeps.ite ?_ ?_
    | split
    | intro _

theorem dlxPumpAll_keeps {s0 s : State} (h : Keeps s0 s) : Keeps s0 (dlxPumpAll s) := by
  unfold dlxPumpAll
  repeat' first
    | with_reducible assumption
    | with_reducible apply dlxPump_keeps
    | with_reducible apply Keeps.foldl
    | intro _

theorem dlxPut_keeps {s0 s : State} (h : Keeps s0 s) : ∀ a1 a2 a3 a4 a5, Keeps s0 (dlxPut a1 a2 a3 a4 a5 s) := by
  intro a1 a2 a3 a4 a5
  unfold dlxPut
  repeat' first
    | with_reducible assumption
    | with_reducible apply updDlx_keeps

theorem dlxRec_keeps {s0 s : State} (h : Keeps s0 s) : ∀ a1 a2 a3 a4 a5 a6 a7 a8 a9, Keeps s0 (dlxRec a1 a2 a3 a4 a5 a6 a7 a8 a9 s) := by
  intro a1 a2 a3 a4 a5 a6 a7 a8 a9
  unfold dlxRec
  repeat' first
    | with_reducible assumption
    | with_reducible apply dlxPump_keeps
    | with_reducible apply updDlx_keeps
    | with_reducible apply dlxPut_keeps
    | split

theorem dlxCloseFrame_keeps {s0 s : State} (h : Keeps s0 s) : ∀ a1 a2, Keeps s0 (dlxCloseFrame a1 a2 s) := by
  intro a1 a2
  unfold dlxCloseFrame
  repeat' first
    | with_reducible assumption
    | with_reducible apply dlxPump_keeps
    | with_reducible apply updDlx_keeps
    | with_reducible apply dlxRec_keeps
    | with_reducible apply dlxPut_keeps
    | with_reducible apply raiseInt_keeps
    | with_reducible refine Keeps.ite ?_ ?_
    | split

theorem dlxCloseAll_keeps {s0 s : State} (h : Keeps s0 s) : ∀ a1, Keeps s0 (dlxCloseAll a1 s) := by
  intro a1
  unfold dlxCloseAll
  repeat' first
    | with_reducible assumption
    | with_reducible apply dlxCloseFrame_keeps
    | with_reducible apply Keeps.foldl
    | intro _

theorem dlxWriteBack_keeps {s0 s : State} (h : Keeps s0 s) : ∀ a1 a2 a3 a4 a5 a6 a7, Keeps s0 (dlxWriteBack a1 a2 a3 a4 a5 a6 a7 s) := by
  intro a1 a2 a3 a4 a5 a6 a7
  unfold dlxWriteBack
  repeat' first
    | with_reducible assumption
    | with_reducible apply dlxRec_keeps

theorem updWalker_keeps {s0 s : State} (h : Keeps s0 s) (k : Nat) (f : Walker → Walker) (hf : ∀ x, x.Ok → (f x).Ok) : Keeps s0 (updWalker k f s) :=
  h.mk' (Nat.le_refl _) fun m => ⟨m.host, m.intake, m.fabric, m.nvm, m.sram, m.stk, m.owned, m.log, m.tiles, Tbl.all_put (P := Walker.Ok) m.loc (hf _ (m.walker k)), m.saved⟩

theorem startWalkers_keeps {s0 s : State} (h : Keeps s0 s) : ∀ a1 a2, Keeps s0 (startWalkers a1 a2 s) := by
  intro cl c
  unfold startWalkers
  refine Keeps.foldl h fun s k hs => updWalker_keeps hs _ _ fun x _ => ?_
  exact ⟨Mem.wf_sets [] 0 _ _ rfl⟩

theorem freeClusters_keeps {s0 s : State} (h : Keeps s0 s) : ∀ a1 a2, Keeps s0 (freeClusters a1 a2 s) := by
  intro q cid
  unfold freeClusters
  have hp : ∀ (f : Nat × SavedCluster → Bool) (g : Nat → Walker → Walker) c2 h2, (∀ k w, w.Ok → (g k w).Ok) →
      Keeps s0 { s with savedClusters := s.savedClusters.filter f, lkp := { s.lkp with clusters := c2, walkers := Tbl.mapv s.lkp.walkers g, handles := h2 } } :=
    fun f g _ _ hg => h.mk' (Nat.le_refl _) fun m => ⟨m.host, m.intake, m.fabric, m.nvm, m.sram, m.stk, m.owned, m.log, m.tiles, Tbl.all_mapv (P := Walker.Ok) (Q := Walker.Ok) m.loc hg, fun p hp => m.saved p (List.mem_filter.1 hp).1⟩
  exact hp _ _ _ _ fun k w hw => by split <;> first | exact Walker.Ok.mk' hw | exact hw

theorem walkLeft_keeps {s0 s : State} (h : Keeps s0 s) : ∀ a1 a2, Keeps s0 (walkLeft a1 a2 s) := by
  intro a1 a2
  unfold walkLeft
  repeat' first
    | with_reducible assumption
    | with_reducible apply freeClusters_keeps
    | with_reducible refine Keeps.ite ?_ ?_
    | split

theorem walkStop_keeps {s0 s : State} (h : Keeps s0 s) : ∀ a1 a2 a3 a4 a5 a6, Keeps s0 (walkStop a1 a2 a3 a4 a5 a6 s) := by
  intro a1 a2 a3 a4 a5 a6
  unfold walkStop
  repeat' first
    | with_reducible assumption
    | with_reducible apply stopCommand_keeps
    | with_reducible apply setReg_keeps
    | with_reducible apply walkLeft_keeps
    | with_reducible apply raiseInt_keeps
    | split

theorem startCluster_keeps {s0 s : State} (h : Keeps s0 s) : ∀ a1 a2 a3, Keeps s0 (startCluster a1 a2 a3 s) := by
  intro cl q c
  unfold startCluster
  refine Keeps.foldl ?_ fun s k hs => updWalker_keeps hs _ _ fun _ _ => ⟨rfl⟩
  exact h.mk' (Nat.le_refl _) fun m => ⟨m.host, m.intake, m.fabric, m.nvm, m.sram, m.stk, m.owned, m.log, m.tiles, m.loc, m.saved⟩

theorem stashCluster_keeps {s0 s : State} (h : Keeps s0 s) : ∀ a1, Keeps s0 (stashCluster a1 s) := by
  intro cl
  unfold stashCluster
  split
  · exact h
  · dsimp only
    split
    · exact h.mk' (Nat.le_refl _) fun m => ⟨m.host, m.intake, m.fabric, m.nvm, m.sram, m.stk, m.owned, m.log, m.tiles, Tbl.all_filter (P := Walker.Ok) m.loc, Tbl.all_put (P := fun x : SavedCluster => ∀ w ∈ x.walkers, w.Ok) m.saved (fun w hw => by
        obtain ⟨k, _, rfl⟩ := List.mem_map.1 hw
        exact m.walker k)⟩
    · exact h.mk' (Nat.le_refl _) fun m => ⟨m.host, m.intake, m.fabric, m.nvm, m.sram, m.stk, m.owned, m.log, m.tiles, Tbl.all_filter (P := Walker.Ok) m.loc, m.saved⟩

theorem unstashCluster_keeps {s0 s : State} (h : Keeps s0 s) : ∀ a1 a2 a3, (s0.MemsOk → ∀ w ∈ a3.walkers, Walker.Ok w) → Keeps s0 (unstashCluster a1 a2 a3 s) := by
  intro cl cid sv hs
  unfold unstashCluster
  apply Keeps.foldl
  · exact h.mk' (Nat.le_refl _) fun m => ⟨m.host, m.intake, m.fabric, m.nvm, m.sram, m.stk, m.owned, m.log, m.tiles, m.loc, fun p hp => m.saved p ((Tbl.del_sublist _ _).subset hp)⟩
  · intro t i ht
    have hp : ∀ w, (s0.MemsOk → t.MemsOk → Walker.Ok w) → Keeps s0 { t with lkp := { t.lkp with walkers := Tbl.put t.lkp.walkers (64 * cl + i) w } } :=
      fun w hw => ⟨ht.pending, ht.now, fun m0 => have m := ht.mems m0; ⟨m.host, m.intake, m.fabric, m.nvm, m.sram, m.stk, m.owned, m.log, m.tiles, Tbl.all_put (P := Walker.Ok) m.loc (hw m0 m), m.saved⟩⟩
    refine hp _ fun m0 m => ?_
    show (sv.walkers.getD i (t.walker (64 * cl + i))).Ok
    rw [List.getD_eq_getElem?_getD]
    cases e : sv.walkers[i]? with
    | none => exact m.walker _
    | some w => exact hs m0 w (List.mem_of_getElem? e)

theorem loadCluster_keeps {s0 s : State} (h : Keeps s0 s) : ∀ a1 a2, Keeps s0 (loadCluster a1 a2 s) := by
  intro a1 a2
  unfold loadCluster
  repeat' first
    | with_reducible assumption
    | with_reducible apply startWalkers_keeps
    | with_reducible apply walkStop_keeps
    | with_reducible apply rangeRead_keeps
    | ((with_reducible apply Keeps.mk') <;> first | with_reducible assumption | with_reducible apply startWalkers_keeps | with_reducible apply walkStop_keeps | with_reducible apply rangeRead_keeps | (with_reducible refine Keeps.rdOk (by assumption) ?_) | (with_reducible refine Keeps.rdUn (by assumption) ?_) | with_reducible exact Nat.le_refl _ | with_reducible exact fun m => ⟨m.host, m.intake, m.fabric, m.nvm, m.sram, m.stk, m.owned, m.log, m.tiles, m.loc, m.saved⟩)
    | with_reducible refine Keeps.ite ?_ ?_
    | split

theorem fetchProgram_keeps {s0 s : State} (h : Keeps s0 s) : ∀ a1, Keeps s0 (fetchProgram a1 s) := by
  intro a1
  unfold fetchProgram
  repeat' first
    | with_reducible assumption
    | with_reducible apply loadCluster_keeps
    | with_reducible apply powered_keeps
    | with_reducible refine Keeps.ite ?_ ?_
    | split
    | intro _

theorem enterCluster_keeps {s0 s : State} (h : Keeps s0 s) : ∀ a1 a2 a3 a4, Keeps s0 (enterCluster a1 a2 a3 a4 s) := by
  intro cl q c fresh
  unfold enterCluster
  extract_lets own s2 s1 more
  have h2 : Keeps s0 s2 := stashCluster_keeps h _
  clear_value s2
  have h1 : Keeps s0 s1 := by
    simp only [s1]
    split
    · exact h
    · split
      · next e => exact unstashCluster_keeps h2 _ _ _ fun m0 => (h2.mems m0).saved _ (Tbl.look?_mem _ _ _ e)
      · exact startCluster_keeps h2 _ _ _
  clear_value s1
  refine fetchProgram_keeps ?_ _
  exact h1.mk' (Nat.le_refl _) fun m => ⟨m.host, m.intake, m.fabric, m.nvm, m.sram, m.stk, m.owned, m.log, m.tiles, m.loc, m.saved⟩

theorem walkInvalid_keeps {s0 s : State} (h : Keeps s0 s) : ∀ a1 a2, Keeps s0 (walkInvalid a1 a2 s) := by
  intro a1 a2
  unfold walkInvalid
  repeat' first
    | with_reducible assumption
    | with_reducible apply walkStop_keeps

theorem walkIssue_keeps {s0 s : State} (h : Keeps s0 s) (k : Fin 2048) (w : BitVec 32) (op : Nat) (check : WIss → Nat)
    (act : WIss → State → WEff) (ha : ∀ i s, Keeps s0 s → Keeps s0 (act i s).st) : OutKeeps s0 (walkIssue k w op check act s) := by
  unfold walkIssue
  repeat' first
    | with_reducible assumption
    | with_reducible apply walkInvalid_keeps
    | with_reducible apply updWalker_keeps
    | with_reducible apply ha
    | with_reducible apply OutKeeps.next
    | with_reducible exact OutKeeps.fault
    | ((with_reducible apply Keeps.mk') <;> first | (with_reducible refine Keeps.weffStall (by assumption) ?_) | (with_reducible refine Keeps.weffStop (by assumption) ?_) | (with_reducible refine Keeps.weffNext (by assumption) ?_) | with_reducible exact Nat.le_refl _ | with_reducible exact fun m => ⟨m.host, m.intake, m.fabric, m.nvm, m.sram, m.stk, m.owned, m.log, m.tiles, m.loc, m.saved⟩)
    | ((with_reducible apply Walker.Ok.mk') <;> first | with_reducible assumption | with_reducible apply Walker.setReg_ok)
    | with_reducible refine Keeps.ite ?_ ?_
    | with_reducible refine OutKeeps.ite ?_ ?_
    | split
    | intro _

theorem walkAccess_keeps {s0 s : State} (h : Keeps s0 s) : ∀ a1 a2, Keeps s0 (walkAccess a1 a2 s) := by
  intro a1 a2
  unfold walkAccess
  repeat' first
    | with_reducible assumption
    | with_reducible apply walkStop_keeps

theorem walkAlu_keeps {s0 s : State} (h : Keeps s0 s) : ∀ a1 a2 a3 a4, OutKeeps s0 (walkAlu a1 a2 a3 a4 s) := by
  intro a1 a2 a3 a4
  unfold walkAlu
  repeat' first
    | with_reducible assumption
    | with_reducible apply walkIssue_keeps
    | with_reducible apply updWalker_keeps
    | with_reducible apply WEff.kNext
    | ((with_reducible apply Walker.Ok.mk') <;> first | with_reducible assumption | with_reducible apply Walker.setReg_ok)
    | intro _

theorem walkFinish_keeps {s0 s : State} (h : Keeps s0 s) : ∀ a1 a2, Keeps s0 (walkFinish a1 a2 s) := by
  intro a1 a2
  unfold walkFinish
  repeat' first
    | with_reducible assumption
    | with_reducible apply satisfy_keeps
    | with_reducible apply walkLeft_keeps
    | with_reducible apply endCid_keeps
    | with_reducible refine Keeps.ite ?_ ?_
    | split

theorem clusterEnd_keeps {s0 s : State} (h : Keeps s0 s) : ∀ a1, Keeps s0 (clusterEnd a1 s) := by
  intro c
  unfold clusterEnd
  split
  · exact h
  · split
    · extract_lets s1 src s2
      have h1 : Keeps s0 s1 := releaseChunk_keeps h _
      have hp : ∀ (g : Nat → Walker → Walker), (∀ k w, w.Ok → (g k w).Ok) → Keeps s0 { s1 with lkp := { s1.lkp with walkers := Tbl.mapv s1.lkp.walkers g } } :=
        fun g hg => h1.mk' (Nat.le_refl _) fun m => ⟨m.host, m.intake, m.fabric, m.nvm, m.sram, m.stk, m.owned, m.log, m.tiles, Tbl.all_mapv (P := Walker.Ok) (Q := Walker.Ok) m.loc hg, m.saved⟩
      have h2 := hp (fun k w => if clusterOf k = c then { w with bound := false } else w) fun k w hw => by split <;> first | exact Walker.Ok.mk' hw | exact hw
      change Keeps s0 s2 at h2
      clear_value s2
      split
      · exact h2
      · split
        · exact h2
        · split
          · exact h2
          · split
            · exact walkLeft_keeps (boundary_keeps h2 _ _) _ _
            · split
              · exact walkFinish_keeps h2 _ _
              · exact boundary_keeps h2 _ _
    · exact h

theorem execWalkCbnd_keeps {s0 s : State} (h : Keeps s0 s) : ∀ a1 a2, OutKeeps s0 (execWalkCbnd a1 a2 s) := by
  intro a1 a2
  unfold execWalkCbnd
  repeat' first
    | with_reducible assumption
    | with_reducible apply walkIssue_keeps
    | with_reducible apply clusterEnd_keeps
    | with_reducible apply updWalker_keeps
    | with_reducible apply WEff.kStall
    | with_reducible apply WEff.kStop
    | ((with_reducible apply Walker.Ok.mk') <;> first | with_reducible assumption | with_reducible apply Walker.setReg_ok)
    | split
    | intro _

theorem execShr_keeps {s0 s : State} (h : Keeps s0 s) : ∀ a1 a2, OutKeeps s0 (execShr a1 a2 s) := by
  intro a1 a2
  unfold execShr
  repeat' first
    | with_reducible assumption
    | with_reducible apply walkAlu_keeps

theorem execXfer_keeps {s0 s : State} (h : Keeps s0 s) : ∀ a1 a2, OutKeeps s0 (execXfer a1 a2 s) := by
  intro a1 a2
  unfold execXfer
  repeat' first
    | with_reducible assumption
    | with_reducible apply walkAccess_keeps
    | with_reducible apply walkIssue_keeps
    | with_reducible apply urngFault_keeps
    | with_reducible apply updWalker_keeps
    | with_reducible apply WEff.kStop
    | with_reducible apply WEff.kNext
    | ((with_reducible apply Walker.Ok.mk') <;> first | with_reducible assumption | with_reducible apply Walker.setReg_ok)
    | split
    | intro _
    | dsimp only

theorem walkBranch_keeps {s0 s : State} (h : Keeps s0 s) : ∀ a1 a2 a3 a4, OutKeeps s0 (walkBranch a1 a2 a3 a4 s) := by
  intro a1 a2 a3 a4
  unfold walkBranch
  repeat' first
    | with_reducible assumption
    | with_reducible apply walkIssue_keeps
    | with_reducible apply WEff.kNext
    | split
    | intro _

theorem execJal_keeps {s0 s : State} (h : Keeps s0 s) : ∀ a1 a2, OutKeeps s0 (execJal a1 a2 s) := by
  intro a1 a2
  unfold execJal
  repeat' first
    | with_reducible assumption
    | with_reducible apply walkIssue_keeps
    | with_reducible apply updWalker_keeps
    | with_reducible apply WEff.kNext
    | ((with_reducible apply Walker.Ok.mk') <;> first | with_reducible assumption | with_reducible apply Walker.setReg_ok)
    | intro _

theorem execCsr_keeps {s0 s : State} (h : Keeps s0 s) : ∀ a1 a2, OutKeeps s0 (execCsr a1 a2 s) := by
  intro a1 a2
  unfold execCsr
  repeat' first
    | with_reducible assumption
    | with_reducible apply walkIssue_keeps
    | with_reducible apply updWalker_keeps
    | with_reducible apply WEff.kNext
    | ((with_reducible apply Walker.Ok.mk') <;> first | with_reducible assumption | with_reducible apply Walker.setReg_ok)
    | intro _

theorem execBne_keeps {s0 s : State} (h : Keeps s0 s) : ∀ a1 a2, OutKeeps s0 (execBne a1 a2 s) := by
  intro a1 a2
  unfold execBne
  repeat' first
    | with_reducible assumption
    | with_reducible apply walkBranch_keeps

theorem execBeq_keeps {s0 s : State} (h : Keeps s0 s) : ∀ a1 a2, OutKeeps s0 (execBeq a1 a2 s) := by
  intro a1 a2
  unfold execBeq
  repeat' first
    | with_reducible assumption
    | with_reducible apply walkBranch_keeps

theorem execJr_keeps {s0 s : State} (h : Keeps s0 s) : ∀ a1 a2, OutKeeps s0 (execJr a1 a2 s) := by
  intro a1 a2
  unfold execJr
  repeat' first
    | with_reducible assumption
    | with_reducible apply walkIssue_keeps
    | with_reducible apply WEff.kNext
    | intro _

theorem execWalkNop_keeps {s0 s : State} (h : Keeps s0 s) : ∀ a1 a2, OutKeeps s0 (execWalkNop a1 a2 s) := by
  intro a1 a2
  unfold execWalkNop
  repeat' first
    | with_reducible assumption
    | with_reducible apply walkIssue_keeps
    | with_reducible apply WEff.kNext
    | intro _

theorem execSub_keeps {s0 s : State} (h : Keeps s0 s) : ∀ a1 a2, OutKeeps s0 (execSub a1 a2 s) := by
  intro a1 a2
  unfold execSub
  repeat' first
    | with_reducible assumption
    | with_reducible apply walkAlu_keeps

theorem execLd_keeps {s0 s : State} (h : Keeps s0 s) : ∀ a1 a2, OutKeeps s0 (execLd a1 a2 s) := by
  intro a1 a2
  unfold execLd
  repeat' first
    | with_reducible assumption
    | with_reducible apply walkIssue_keeps
    | with_reducible apply updWalker_keeps
    | with_reducible apply WEff.kNext
    | ((with_reducible apply Walker.Ok.mk') <;> first | with_reducible assumption | with_reducible apply Walker.setReg_ok)
    | intro _

theorem execSltu_keeps {s0 s : State} (h : Keeps s0 s) : ∀ a1 a2, OutKeeps s0 (execSltu a1 a2 s) := by
  intro a1 a2
  unfold execSltu
  repeat' first
    | with_reducible assumption
    | with_reducible apply walkAlu_keeps

theorem execBlt_keeps {s0 s : State} (h : Keeps s0 s) : ∀ a1 a2, OutKeeps s0 (execBlt a1 a2 s) := by
  intro a1 a2
  unfold execBlt
  repeat' first
    | with_reducible assumption
    | with_reducible apply walkBranch_keeps

theorem execXor_keeps {s0 s : State} (h : Keeps s0 s) : ∀ a1 a2, OutKeeps s0 (execXor a1 a2 s) := by
  intro a1 a2
  unfold execXor
  repeat' first
    | with_reducible assumption
    | with_reducible apply walkAlu_keeps

theorem execOr_keeps {s0 s : State} (h : Keeps s0 s) : ∀ a1 a2, OutKeeps s0 (execOr a1 a2 s) := by
  intro a1 a2
  unfold execOr
  repeat' first
    | with_reducible assumption
    | with_reducible apply walkAlu_keeps

theorem execShl_keeps {s0 s : State} (h : Keeps s0 s) : ∀ a1 a2, OutKeeps s0 (execShl a1 a2 s) := by
  intro a1 a2
  unfold execShl
  repeat' first
    | with_reducible assumption
    | with_reducible apply walkAlu_keeps

theorem execWalkEnd_keeps {s0 s : State} (h : Keeps s0 s) : ∀ a1 a2, OutKeeps s0 (execWalkEnd a1 a2 s) := by
  intro a1 a2
  unfold execWalkEnd
  repeat' first
    | with_reducible assumption
    | with_reducible apply walkIssue_keeps
    | with_reducible apply clusterEnd_keeps
    | with_reducible apply updWalker_keeps
    | with_reducible apply WEff.kStall
    | with_reducible apply WEff.kStop
    | ((with_reducible apply Walker.Ok.mk') <;> first | with_reducible assumption | with_reducible apply Walker.setReg_ok)
    | split
    | intro _

theorem execSbset_keeps {s0 s : State} (h : Keeps s0 s) : ∀ a1 a2, OutKeeps s0 (execSbset a1 a2 s) := by
  intro a1 a2
  unfold execSbset
  repeat' first
    | with_reducible assumption
    | with_reducible apply walkIssue_keeps
    | with_reducible apply updWalker_keeps
    | with_reducible apply WEff.kNext
    | ((with_reducible apply Walker.Ok.mk') <;> first | with_reducible assumption | with_reducible apply Walker.setReg_ok)
    | intro _

theorem execXferComplete_keeps {s0 s : State} (h : Keeps s0 s) : ∀ a1, OutKeeps s0 (execXferComplete a1 s) := by
  intro a1
  unfold execXferComplete
  repeat' first
    | with_reducible assumption
    | with_reducible apply whenP_keeps
    | with_reducible apply updWalker_keeps
    | with_reducible apply rangeWrite_keeps
    | with_reducible apply walkAccess_keeps
    | with_reducible apply rangeRead_keeps
    | with_reducible apply OutKeeps.next
    | (with_reducible refine Keeps.rdOk (by assumption) ?_)
    | (with_reducible refine Keeps.rdUn (by assumption) ?_)
    | (with_reducible refine Keeps.wrOk (by assumption) ?_)
    | (with_reducible refine Keeps.wrUn (by assumption) ?_)
    | ((with_reducible apply Walker.Ok.mk') <;> first | with_reducible assumption | with_reducible apply Walker.setReg_ok)
    | (refine ⟨Mem.wf_sets _ _ _ _ (Walker.Ok.loc ?_)⟩; with_reducible assumption)
    | split
    | dsimp only
    | intro _

theorem execAdd_keeps {s0 s : State} (h : Keeps s0 s) : ∀ a1 a2, OutKeeps s0 (execAdd a1 a2 s) := by
  intro a1 a2
  unfold execAdd
  repeat' first
    | with_reducible assumption
    | with_reducible apply walkAlu_keeps

theorem execSlt_keeps {s0 s : State} (h : Keeps s0 s) : ∀ a1 a2, OutKeeps s0 (execSlt a1 a2 s) := by
  intro a1 a2
  unfold execSlt
  repeat' first
    | with_reducible assumption
    | with_reducible apply walkAlu_keeps

theorem execMulhu_keeps {s0 s : State} (h : Keeps s0 s) : ∀ a1 a2, OutKeeps s0 (execMulhu a1 a2 s) := by
  intro a1 a2
  unfold execMulhu
  repeat' first
    | with_reducible assumption
    | with_reducible apply walkAlu_keeps

theorem execXwait_keeps {s0 s : State} (h : Keeps s0 s) : ∀ a1 a2, OutKeeps s0 (execXwait a1 a2 s) := by
  intro a1 a2
  unfold execXwait
  repeat' first
    | with_reducible assumption
    | with_reducible apply walkIssue_keeps
    | with_reducible apply WEff.kStall
    | with_reducible apply WEff.kNext
    | split
    | intro _

theorem execSt_keeps {s0 s : State} (h : Keeps s0 s) : ∀ a1 a2, OutKeeps s0 (execSt a1 a2 s) := by
  intro a1 a2
  unfold execSt
  repeat' first
    | with_reducible assumption
    | with_reducible apply walkIssue_keeps
    | with_reducible apply updWalker_keeps
    | with_reducible apply WEff.kNext
    | (refine ⟨Mem.wf_sets _ _ _ _ (Walker.Ok.loc ?_)⟩; with_reducible assumption)
    | intro _

theorem execMul_keeps {s0 s : State} (h : Keeps s0 s) : ∀ a1 a2, OutKeeps s0 (execMul a1 a2 s) := by
  intro a1 a2
  unfold execMul
  repeat' first
    | with_reducible assumption
    | with_reducible apply walkAlu_keeps

theorem execSra_keeps {s0 s : State} (h : Keeps s0 s) : ∀ a1 a2, OutKeeps s0 (execSra a1 a2 s) := by
  intro a1 a2
  unfold execSra
  repeat' first
    | with_reducible assumption
    | with_reducible apply walkAlu_keeps

theorem execLui_keeps {s0 s : State} (h : Keeps s0 s) : ∀ a1 a2, OutKeeps s0 (execLui a1 a2 s) := by
  intro a1 a2
  unfold execLui
  repeat' first
    | with_reducible assumption
    | with_reducible apply walkAlu_keeps

theorem execAnd_keeps {s0 s : State} (h : Keeps s0 s) : ∀ a1 a2, OutKeeps s0 (execAnd a1 a2 s) := by
  intro a1 a2
  unfold execAnd
  repeat' first
    | with_reducible assumption
    | with_reducible apply walkAlu_keeps

theorem execBltu_keeps {s0 s : State} (h : Keeps s0 s) : ∀ a1 a2, OutKeeps s0 (execBltu a1 a2 s) := by
  intro a1 a2
  unfold execBltu
  repeat' first
    | with_reducible assumption
    | with_reducible apply walkBranch_keeps

theorem fetchCycle_keeps {s0 s : State} (h : Keeps s0 s) : Keeps s0 (fetchCycle s) := by
  unfold fetchCycle
  repeat' first
    | with_reducible assumption
    | with_reducible apply fetchProgram_keeps
    | with_reducible apply Keeps.foldl
    | intro _

theorem lkpNstat_keeps {s0 s : State} (h : Keeps s0 s) : ∀ a1, Keeps s0 (lkpNstat a1 s) := by
  intro a1
  unfold lkpNstat
  repeat' first
    | with_reducible assumption
    | with_reducible apply orReg_keeps

theorem engineAsk_keeps {s0 s : State} (h : Keeps s0 s) : ∀ a1, Keeps s0 (engineAsk a1 s) := by
  intro a1
  unfold engineAsk
  repeat' first
    | with_reducible assumption
    | with_reducible apply needDraw_keeps

theorem engineAskAll_keeps {s0 s : State} (h : Keeps s0 s) : ∀ a1, Keeps s0 (engineAskAll a1 s) := by
  intro a1
  unfold engineAskAll
  repeat' first
    | with_reducible assumption
    | with_reducible apply engineAsk_keeps
    | with_reducible apply Keeps.foldl
    | intro _

theorem gather_keeps {s0 s : State} (h : Keeps s0 s) : ∀ a1 a2 a3 a4 a5, Keeps s0 (gather a1 a2 a3 a4 a5 s).2.2 := by
  intro a1 a2 a3 a4 a5
  unfold gather
  repeat' first
    | with_reducible assumption
    | with_reducible apply cacheTouch_keeps
    | with_reducible apply rangeRead_keeps
    | with_reducible apply Keeps.foldl
    | (with_reducible refine Keeps.rdOk (by assumption) ?_)
    | (with_reducible refine Keeps.rdUn (by assumption) ?_)
    | split
    | intro _

theorem engineCall_keeps {s0 s : State} (h : Keeps s0 s) : ∀ a1, Keeps s0 (engineCall a1 s) := by
  intro a1
  unfold engineCall
  repeat' first
    | with_reducible assumption
    | with_reducible apply reserve_keeps
    | split

theorem engineCallAll_keeps {s0 s : State} (h : Keeps s0 s) : ∀ a1, Keeps s0 (engineCallAll a1 s) := by
  intro a1
  unfold engineCallAll
  repeat' first
    | with_reducible assumption
    | with_reducible apply engineCall_keeps
    | with_reducible apply Keeps.foldl
    | intro _

theorem flowAck_keeps {s0 s : State} (h : Keeps s0 s) : ∀ a1, Keeps s0 (flowAck a1 s) := by
  intro a1
  unfold flowAck
  repeat' first
    | with_reducible assumption
    | with_reducible apply protoAck_keeps

theorem updRFlow_keeps {s0 s : State} (h : Keeps s0 s) : ∀ a1 a2, Keeps s0 (updRFlow a1 a2 s) := by
  intro a1 a2
  unfold updRFlow
  repeat' first
    | ((with_reducible apply Keeps.mk') <;> first | with_reducible assumption | with_reducible exact Nat.le_refl _ | with_reducible exact fun m => ⟨m.host, m.intake, m.fabric, m.nvm, m.sram, m.stk, m.owned, m.log, m.tiles, m.loc, m.saved⟩)

theorem updHandle_keeps {s0 s : State} (h : Keeps s0 s) : ∀ a1 a2, Keeps s0 (updHandle a1 a2 s) := by
  intro a1 a2
  unfold updHandle
  repeat' first
    | ((with_reducible apply Keeps.mk') <;> first | with_reducible assumption | with_reducible exact Nat.le_refl _ | with_reducible exact fun m => ⟨m.host, m.intake, m.fabric, m.nvm, m.sram, m.stk, m.owned, m.log, m.tiles, m.loc, m.saved⟩)

theorem handleNstat_keeps {s0 s : State} (h : Keeps s0 s) : ∀ a1 a2, Keeps s0 (handleNstat a1 a2 s) := by
  intro a1 a2
  unfold handleNstat
  repeat' first
    | with_reducible assumption
    | with_reducible apply orNstat_keeps
    | with_reducible apply lkpNstat_keeps
    | split

theorem closeBag_keeps {s0 s : State} (h : Keeps s0 s) : ∀ a1 a2, Keeps s0 (closeBag a1 a2 s).2 := by
  intro a1 a2
  unfold closeBag
  repeat' first
    | with_reducible assumption
    | with_reducible apply rangeWrite_keeps
    | with_reducible apply handleNstat_keeps
    | with_reducible apply rangeWriteP_keeps
    | (with_reducible refine Keeps.wrOk (by assumption) ?_)
    | (with_reducible refine Keeps.wrUn (by assumption) ?_)
    | ((with_reducible apply Keeps.mk') <;> first | with_reducible assumption | with_reducible apply rangeWrite_keeps | with_reducible apply handleNstat_keeps | with_reducible apply rangeWriteP_keeps | with_reducible apply engineAsk_keeps | (with_reducible refine Keeps.wrOk (by assumption) ?_) | (with_reducible refine Keeps.wrUn (by assumption) ?_) | with_reducible exact Nat.le_refl _ | with_reducible exact fun m => ⟨m.host, m.intake, m.fabric, m.nvm, m.sram, m.stk, m.owned, m.log, m.tiles, m.loc, m.saved⟩)
    | split
    | dsimp only

theorem handleAccess_keeps {s0 s : State} (h : Keeps s0 s) : ∀ a1, Keeps s0 (handleAccess a1 s) := by
  intro a1
  unfold handleAccess
  repeat' first
    | with_reducible assumption
    | with_reducible apply stopCommand_keeps
    | with_reducible apply setReg_keeps
    | with_reducible apply walkLeft_keeps
    | with_reducible apply raiseInt_keeps
    | split

theorem closeHandle_keeps {s0 s : State} (h : Keeps s0 s) : ∀ a1, Keeps s0 (closeHandle a1 s) := by
  intro a1
  unfold closeHandle
  repeat' first
    | with_reducible assumption
    | with_reducible apply updHandle_keeps
    | with_reducible apply rangeWrite_keeps
    | with_reducible apply handleAccess_keeps
    | with_reducible apply walkFinish_keeps
    | with_reducible apply closeBag_keeps
    | with_reducible apply Keeps.foldl2
    | (with_reducible refine Keeps.snd (by assumption) ?_)
    | (with_reducible refine Keeps.wrOk (by assumption) ?_)
    | (with_reducible refine Keeps.wrUn (by assumption) ?_)
    | ((with_reducible apply Keeps.mk') <;> first | with_reducible assumption | with_reducible apply updHandle_keeps | with_reducible apply rangeWrite_keeps | with_reducible apply handleAccess_keeps | with_reducible apply walkFinish_keeps | with_reducible apply closeBag_keeps | with_reducible apply Keeps.foldl | with_reducible apply Keeps.foldl2 | with_reducible apply Keeps.foldl3 | (with_reducible refine Keeps.snd (by assumption) ?_) | (with_reducible refine Keeps.snd2 (by assumption) ?_) | (with_reducible refine Keeps.wrOk (by assumption) ?_) | (with_reducible refine Keeps.wrUn (by assumption) ?_) | with_reducible exact Nat.le_refl _ | with_reducible exact fun m => ⟨m.host, m.intake, m.fabric, m.nvm, m.sram, m.stk, m.owned, m.log, m.tiles, m.loc, m.saved⟩)
    | with_reducible refine Keeps.ite ?_ ?_
    | split
    | intro _

theorem tryClose_keeps {s0 s : State} (h : Keeps s0 s) : ∀ a1, Keeps s0 (tryClose a1 s) := by
  intro a1
  unfold tryClose
  repeat' first
    | with_reducible assumption
    | with_reducible apply powered_keeps
    | with_reducible apply closeHandle_keeps
    | with_reducible refine Keeps.ite ?_ ?_
    | split
    | intro _

theorem finalFlow_keeps {s0 s : State} (h : Keeps s0 s) : ∀ a1 a2 a3, Keeps s0 (finalFlow a1 a2 a3 s) := by
  intro a1 a2 a3
  unfold finalFlow
  repeat' first
    | with_reducible assumption
    | with_reducible apply tryClose_keeps
    | ((with_reducible apply Keeps.mk') <;> first | with_reducible assumption | with_reducible apply updHandle_keeps | with_reducible apply tryClose_keeps | with_reducible apply Keeps.foldl | (with_reducible refine Keeps.snd (by assumption) ?_) | (with_reducible refine Keeps.snd2 (by assumption) ?_) | with_reducible exact Nat.le_refl _ | with_reducible exact fun m => ⟨m.host, m.intake, m.fabric, m.nvm, m.sram, m.stk, m.owned, m.log, m.tiles, m.loc, m.saved⟩)
    | split

theorem deferFlow_keeps {s0 s : State} (h : Keeps s0 s) : ∀ a1 a2 a3 a4, Keeps s0 (deferFlow a1 a2 a3 a4 s) := by
  intro a1 a2 a3 a4
  unfold deferFlow
  repeat' first
    | with_reducible assumption
    | with_reducible apply updRFlow_keeps
    | with_reducible apply finalFlow_keeps
    | with_reducible refine Keeps.ite ?_ ?_
    | split

theorem attemptEnd_keeps {s0 s : State} (h : Keeps s0 s) : ∀ a1, Keeps s0 (attemptEnd a1 s) := by
  intro a1
  unfold attemptEnd
  repeat' first
    | with_reducible assumption
    | with_reducible apply deferFlow_keeps
    | with_reducible apply finalFlow_keeps
    | with_reducible refine Keeps.ite ?_ ?_
    | split

theorem cmdNstat_keeps {s0 s : State} (h : Keeps s0 s) : ∀ a1 a2, Keeps s0 (cmdNstat a1 a2 s) := by
  intro a1 a2
  unfold cmdNstat
  repeat' first
    | with_reducible assumption
    | with_reducible apply orNstat_keeps
    | split

theorem flowEndHere_keeps {s0 s : State} (h : Keeps s0 s) : ∀ a1 a2 a3 a4 a5 a6 a7 a8 a9 a10 a11, Keeps s0 (flowEndHere a1 a2 a3 a4 a5 a6 a7 a8 a9 a10 a11 s) := by
  intro a1 a2 a3 a4 a5 a6 a7 a8 a9 a10 a11
  unfold flowEndHere
  repeat' first
    | with_reducible assumption
    | with_reducible apply attemptEnd_keeps
    | with_reducible apply updRFlow_keeps
    | with_reducible apply cmdNstat_keeps
    | split

theorem execFlowEnd_keeps {s0 s : State} (h : Keeps s0 s) : ∀ a1, OutKeeps s0 (execFlowEnd a1 s) := by
  intro a1
  unfold execFlowEnd
  repeat' first
    | with_reducible assumption
    | with_reducible apply flowAck_keeps
    | with_reducible apply flowEndHere_keeps
    | with_reducible apply receive_keeps
    | intro _

theorem execFlowTimeout_keeps {s0 s : State} (h : Keeps s0 s) : ∀ a1, OutKeeps s0 (execFlowTimeout a1 s) := by
  intro a1
  unfold execFlowTimeout
  repeat' first
    | with_reducible assumption
    | with_reducible apply whenP_keeps
    | with_reducible apply deferFlow_keeps
    | with_reducible apply count_keeps
    | with_reducible apply raiseInt_keeps
    | intro _

theorem putHandle_keeps {s0 s : State} (h : Keeps s0 s) : ∀ a1 a2, Keeps s0 (putHandle a1 a2 s) := by
  intro a1 a2
  unfold putHandle
  repeat' first
    | ((with_reducible apply Keeps.mk') <;> first | with_reducible assumption | with_reducible exact Nat.le_refl _ | with_reducible exact fun m => ⟨m.host, m.intake, m.fabric, m.nvm, m.sram, m.stk, m.owned, m.log, m.tiles, m.loc, m.saved⟩)

theorem replyHere_keeps {s0 s : State} (h : Keeps s0 s) : ∀ a1 a2 a3 a4 a5 a6 a7 a8, Keeps s0 (replyHere a1 a2 a3 a4 a5 a6 a7 a8 s) := by
  intro a1 a2 a3 a4 a5 a6 a7 a8
  unfold replyHere
  repeat' first
    | with_reducible assumption
    | with_reducible apply putHandle_keeps
    | with_reducible apply attemptEnd_keeps
    | with_reducible apply handleNstat_keeps
    | with_reducible apply updRFlow_keeps
    | with_reducible apply engineAsk_keeps
    | with_reducible apply count_keeps
    | with_reducible refine Keeps.ite ?_ ?_
    | split

theorem execLookupReply_keeps {s0 s : State} (h : Keeps s0 s) : ∀ a1, OutKeeps s0 (execLookupReply a1 s) := by
  intro a1
  unfold execLookupReply
  repeat' first
    | with_reducible assumption
    | with_reducible apply replyHere_keeps
    | with_reducible apply flowAck_keeps
    | with_reducible apply receive_keeps
    | intro _

theorem execNojob_keeps {s0 s : State} (h : Keeps s0 s) : ∀ a1, OutKeeps s0 (execNojob a1 s) := by
  intro a1
  unfold execNojob
  repeat' first
    | with_reducible assumption
    | with_reducible apply flowEndHere_keeps
    | with_reducible apply receive_keeps
    | intro _

theorem closeCycle_keeps {s0 s : State} (h : Keeps s0 s) : Keeps s0 (closeCycle s) := by
  unfold closeCycle
  repeat' first
    | with_reducible assumption
    | with_reducible apply tryClose_keeps
    | with_reducible apply Keeps.foldl
    | intro _

theorem progError_keeps {s0 s : State} (h : Keeps s0 s) : ∀ a1 a2 a3 a4, Keeps s0 (progError a1 a2 a3 a4 s) := by
  intro a1 a2 a3 a4
  unfold progError
  repeat' first
    | with_reducible assumption
    | with_reducible apply setReg_keeps
    | with_reducible apply raiseInt_keeps

theorem runChains_keeps {s0 s : State} (h : Keeps s0 s) : ∀ a1 a2 a3 a4 a5, Keeps s0 (runChains a1 a2 a3 a4 a5 s).2.2 := by
  intro t j p cs
  induction cs generalizing s with
  | nil => intro w; exact h
  | cons c r ih =>
    intro w
    unfold runChains
    dsimp only
    split
    · exact ih (count_keeps (count_keeps h _ _ _) _ _ _) _
    · exact progError_keeps (count_keeps h _ _ _) _ _ _ _
    · exact raiseInt_keeps (count_keeps h _ _ _) _ _

theorem runChains_ok {t j : Nat} {p : Part} {cs : List Chain} {w : VSt} {s : State} (h : w.x.Ok) : (runChains t j p cs w s).2.1.x.Ok := by
  induction cs generalizing w s with
  | nil => exact h
  | cons c r ih =>
    have hv := runVectors_ok t w.x p c 0 c.count w h
    unfold runChains
    dsimp only
    split
    · next e1 => rw [e1] at hv; exact ih hv
    · next e1 => rw [e1] at hv; exact hv
    · next e1 => rw [e1] at hv; exact hv

theorem runProgram_keeps {s0 s : State} (h : Keeps s0 s) : ∀ a1 a2 a3, Keeps s0 (runProgram a1 a2 a3 s).2.2 := by
  intro t j b
  unfold runProgram
  split
  · next job x hj hx =>
    extract_lets p own spans ks s1
    split
    · exact progError_keeps h _ _ _ _
    · have h1 : Keeps s0 s1 := chainMark_keeps (undefine_keeps h _ _) _ _ _
      clear_value s1 ks spans own p
      have h2 := runChains_keeps h1 t j p b.chains { x := s1.tile t, j := job, ns := 0, fc := s1.freeCtr }
      have hx := fun (m : s1.MemsOk) => runChains_ok (t := t) (j := j) (p := p) (cs := b.chains)
        (s := s1) (w := { x := s1.tile t, j := job, ns := 0, fc := s1.freeCtr }) (m.tile t)
      generalize runChains t j p b.chains { x := s1.tile t, j := job, ns := 0, fc := s1.freeCtr } s1 = y at h2 hx ⊢
      obtain ⟨ok, w, s2⟩ := y
      refine orReg_keeps (undefine_keeps ?_ _ _) _ _
      refine ⟨h2.pending, h2.now, fun m0 => ?_⟩
      have m := h2.mems m0
      exact ⟨m.host, m.intake, m.fabric, m.nvm, m.sram, m.stk, m.owned, m.log, Tbl.all_put (P := Tile.Ok) m.tiles (hx (h1.mems m0)), m.loc, m.saved⟩
  · exact h

theorem addDeltas_keeps {s0 s : State} (h : Keeps s0 s) : ∀ a1 a2 a3, Keeps s0 (addDeltas a1 a2 a3 s).2 := by
  intro a1 a2 a3
  unfold addDeltas
  repeat' first
    | with_reducible assumption
    | with_reducible apply rangeAdd_keeps
    | with_reducible apply Keeps.foldl2
    | intro _

theorem stageWrite_keeps {s0 s : State} (h : Keeps s0 s) : ∀ a1 a2 a3, Keeps s0 (stageWrite a1 a2 a3 s) := by
  intro a1 a2 a3
  unfold stageWrite
  repeat' first
    | with_reducible assumption
    | with_reducible apply updTile_keeps
    | ((with_reducible apply Tile.Ok.mk') <;> first | with_reducible assumption | with_reducible apply Tile.setOwned_ok | with_reducible apply Tile.evict_ok | with_reducible apply Tile.setSeq_ok | with_reducible apply Tile.write_ok )
    | intro _

theorem readProgram_keeps {s0 s : State} (h : Keeps s0 s) : ∀ a1 a2, Keeps s0 (readProgram a1 a2 s).2 := by
  intro a1 a2
  unfold readProgram
  repeat' first
    | with_reducible assumption
    | with_reducible apply rangeRead_keeps
    | (with_reducible refine Keeps.rdOk (by assumption) ?_)
    | (with_reducible refine Keeps.rdUn (by assumption) ?_)
    | split
    | dsimp only

theorem countRefused_keeps {s0 s : State} (h : Keeps s0 s) : ∀ a1, Keeps s0 (countRefused a1 s) := by
  intro a1
  unfold countRefused
  repeat' first
    | with_reducible assumption
    | with_reducible apply setRegField_keeps
    | with_reducible apply count_keeps
    | with_reducible apply raiseInt_keeps
    | with_reducible refine Keeps.ite ?_ ?_

theorem answerEnd_keeps {s0 s : State} (h : Keeps s0 s) : ∀ a1 a2 a3 a4 a5 a6 a7 a8 a9 a10 a11, Keeps s0 (answerEnd a1 a2 a3 a4 a5 a6 a7 a8 a9 a10 a11 s) := by
  intro a1 a2 a3 a4 a5 a6 a7 a8 a9 a10 a11
  unfold answerEnd
  repeat' first
    | with_reducible assumption
    | with_reducible apply sendRank_keeps
    | with_reducible apply flowEndHere_keeps
    | with_reducible refine Keeps.ite ?_ ?_
    | split

theorem dropOwner_keeps {s0 s : State} (h : Keeps s0 s) : ∀ a1, Keeps s0 (dropOwner a1 s) := by
  intro a1
  unfold dropOwner
  repeat' first
    | ((with_reducible apply Keeps.mk') <;> first | with_reducible assumption | with_reducible exact Nat.le_refl _ | with_reducible exact fun m => ⟨m.host, m.intake, m.fabric, m.nvm, m.sram, m.stk, m.owned, m.log, m.tiles, m.loc, m.saved⟩)

theorem endOwner_keeps {s0 s : State} (h : Keeps s0 s) : ∀ a1 a2 a3 a4 a5, Keeps s0 (endOwner a1 a2 a3 a4 a5 s) := by
  intro a1 a2 a3 a4 a5
  unfold endOwner
  repeat' first
    | with_reducible assumption
    | with_reducible apply dropOwner_keeps
    | with_reducible apply answerEnd_keeps
    | split

theorem endUpdate_keeps {s0 s : State} (h : Keeps s0 s) : ∀ a1 a2 a3 a4, Keeps s0 (endUpdate a1 a2 a3 a4 s) := by
  intro a1 a2 a3 a4
  unfold endUpdate
  repeat' first
    | with_reducible assumption
    | with_reducible apply endOwner_keeps
    | with_reducible apply answerEnd_keeps
    | with_reducible apply Keeps.foldl
    | ((with_reducible apply Keeps.mk') <;> first | with_reducible assumption | with_reducible apply endOwner_keeps | with_reducible apply answerEnd_keeps | with_reducible apply Keeps.foldl | (with_reducible refine Keeps.snd (by assumption) ?_) | (with_reducible refine Keeps.snd2 (by assumption) ?_) | with_reducible exact Nat.le_refl _ | with_reducible exact fun m => ⟨m.host, m.intake, m.fabric, m.nvm, m.sram, m.stk, m.owned, m.log, m.tiles, m.loc, m.saved⟩)
    | split
    | intro _

theorem cancelFlows_keeps {s0 s : State} (h : Keeps s0 s) : ∀ a1 a2 a3, Keeps s0 (cancelFlows a1 a2 a3 s) := by
  intro a1 a2 a3
  unfold cancelFlows
  repeat' first
    | with_reducible assumption
    | with_reducible apply endUpdate_keeps
    | with_reducible apply countRefused_keeps
    | with_reducible apply endOwner_keeps
    | with_reducible apply raiseInt_keeps
    | ((with_reducible apply Keeps.mk') <;> first | with_reducible assumption | with_reducible apply endUpdate_keeps | with_reducible apply countRefused_keeps | with_reducible apply endOwner_keeps | with_reducible apply raiseInt_keeps | with_reducible apply Keeps.foldl | with_reducible apply Keeps.foldl2 | with_reducible apply Keeps.foldl3 | (with_reducible refine Keeps.snd (by assumption) ?_) | (with_reducible refine Keeps.snd2 (by assumption) ?_) | with_reducible exact Nat.le_refl _ | with_reducible exact fun m => ⟨m.host, m.intake, m.fabric, m.nvm, m.sram, m.stk, m.owned, m.log, m.tiles, m.loc, m.saved⟩)
    | split
    | intro _

theorem versionStep_keeps {s0 s : State} (h : Keeps s0 s) : ∀ a1 a2, Keeps s0 (versionStep a1 a2 s) := by
  intro a1 a2
  unfold versionStep
  repeat' first
    | with_reducible assumption
    | with_reducible apply updTable_keeps
    | with_reducible apply cancelFlows_keeps
    | with_reducible apply markTable_keeps
    | with_reducible refine Keeps.ite ?_ ?_
    | split
    | dsimp only

theorem answerReq_keeps {s0 s : State} (h : Keeps s0 s) : ∀ a1 a2 a3 a4 a5 a6, Keeps s0 (answerReq a1 a2 a3 a4 a5 a6 s) := by
  intro a1 a2 a3 a4 a5 a6
  unfold answerReq
  repeat' first
    | with_reducible assumption
    | with_reducible apply answerEnd_keeps

theorem refuse_keeps {s0 s : State} (h : Keeps s0 s) : ∀ a1 a2 a3, Keeps s0 (refuse a1 a2 a3 s) := by
  intro a1 a2 a3
  unfold refuse
  repeat' first
    | with_reducible assumption
    | with_reducible apply answerReq_keeps
    | with_reducible apply countRefused_keeps

theorem tableMismatch_keeps {s0 s : State} (h : Keeps s0 s) : ∀ a1 a2 a3, Keeps s0 (tableMismatch a1 a2 a3 s) := by
  intro a1 a2 a3
  unfold tableMismatch
  repeat' first
    | with_reducible assumption
    | with_reducible apply fault_keeps
    | with_reducible apply refuse_keeps
    | with_reducible apply raiseInt_keeps
    | with_reducible refine Keeps.ite ?_ ?_

theorem admitFlow_keeps {s0 s : State} (h : Keeps s0 s) : ∀ a1 a2 a3 a4 a5 a6, Keeps s0 (admitFlow a1 a2 a3 a4 a5 a6 s) := by
  intro a1 a2 a3 a4 a5 a6
  unfold admitFlow
  repeat' first
    | with_reducible apply engineCallAll_keeps
    | ((with_reducible apply Keeps.mk') <;> first | with_reducible assumption | with_reducible apply engineCallAll_keeps | with_reducible exact Nat.le_refl _ | with_reducible exact fun m => ⟨m.host, m.intake, m.fabric, m.nvm, m.sram, m.stk, m.owned, m.log, m.tiles, m.loc, m.saved⟩)

theorem deferReq_keeps {s0 s : State} (h : Keeps s0 s) : ∀ a1 a2 a3 a4, Keeps s0 (deferReq a1 a2 a3 a4 s) := by
  intro a1 a2 a3 a4
  unfold deferReq
  repeat' first
    | with_reducible assumption
    | with_reducible apply answerReq_keeps
    | with_reducible apply count_keeps
    | ((with_reducible apply Keeps.mk') <;> first | with_reducible assumption | with_reducible apply answerReq_keeps | with_reducible apply count_keeps | with_reducible exact Nat.le_refl _ | with_reducible exact fun m => ⟨m.host, m.intake, m.fabric, m.nvm, m.sram, m.stk, m.owned, m.log, m.tiles, m.loc, m.saved⟩)
    | with_reducible refine Keeps.ite ?_ ?_
    | split
    | dsimp only

theorem requestHere_keeps {s0 s : State} (h : Keeps s0 s) : ∀ a1 a2, Keeps s0 (requestHere a1 a2 s) := by
  intro a1 a2
  unfold requestHere
  repeat' first
    | with_reducible assumption
    | with_reducible apply tableMismatch_keeps
    | with_reducible apply deferReq_keeps
    | with_reducible apply admitFlow_keeps
    | with_reducible apply refuse_keeps
    | ((with_reducible apply Keeps.mk') <;> first | with_reducible assumption | with_reducible apply tableMismatch_keeps | with_reducible apply deferReq_keeps | with_reducible apply admitFlow_keeps | with_reducible apply refuse_keeps | with_reducible exact Nat.le_refl _ | with_reducible exact fun m => ⟨m.host, m.intake, m.fabric, m.nvm, m.sram, m.stk, m.owned, m.log, m.tiles, m.loc, m.saved⟩)
    | with_reducible refine Keeps.ite ?_ ?_
    | split

theorem updReqHere_keeps {s0 s : State} (h : Keeps s0 s) : ∀ a1 a2, Keeps s0 (updReqHere a1 a2 s) := by
  intro j r
  unfold updReqHere
  split
  · extract_lets s1
    have h1 : Keeps s0 s1 := count_keeps h _ _ _
    clear_value s1
    split
    · exact answerEnd_keeps h1 _ _ _ _ _ _ _ _ _ _ _
    · exact h1.mk' (Nat.le_refl _) fun m => ⟨m.host, m.intake, m.fabric, m.nvm, m.sram, m.stk, m.owned, m.log, m.tiles, m.loc, m.saved⟩
  · extract_lets src s1
    split
    · exact count_keeps h _ _ _
    · have h1 : Keeps s0 s1 := requestHere_keeps h _ _
      clear_value s1
      split
      · cases e : takeIdent j 0x53 [src, r.fseq] s1 with
        | none => exact h1
        | some t => exact takeIdent_keeps h1 _ _ _ _ e
      · exact h1

theorem execUpdReq_keeps {s0 s : State} (h : Keeps s0 s) : ∀ a1, OutKeeps s0 (execUpdReq a1 s) := by
  intro a1
  unfold execUpdReq
  repeat' first
    | with_reducible assumption
    | with_reducible apply receive_keeps
    | with_reducible apply updReqHere_keeps
    | intro _

theorem sendReply_keeps {s0 s : State} (h : Keeps s0 s) : ∀ a1 a2 a3, Keeps s0 (sendReply a1 a2 a3 s) := by
  intro a1 a2 a3
  unfold sendReply
  repeat' first
    | with_reducible assumption
    | with_reducible apply replyHere_keeps
    | with_reducible apply sendRank_keeps
    | with_reducible refine Keeps.ite ?_ ?_
    | split

theorem destroyStep_keeps {s0 s : State} (h : Keeps s0 s) : ∀ a1, Keeps s0 (destroyStep a1 s) := by
  intro a1
  unfold destroyStep
  repeat' first
    | with_reducible assumption
    | with_reducible apply cancelFlows_keeps
    | with_reducible apply endCid_keeps
    | with_reducible apply Keeps.foldl
    | ((with_reducible apply Keeps.mk') <;> first | with_reducible assumption | with_reducible apply cancelFlows_keeps | with_reducible apply cacheDrop_keeps | with_reducible apply endCid_keeps | with_reducible apply Keeps.foldl | with_reducible apply Keeps.foldl2 | with_reducible apply Keeps.foldl3 | (with_reducible refine Keeps.snd (by assumption) ?_) | (with_reducible refine Keeps.snd2 (by assumption) ?_) | with_reducible exact Nat.le_refl _ | with_reducible exact fun m => ⟨m.host, m.intake, m.fabric, m.nvm, m.sram, m.stk, m.owned, m.log, m.tiles, m.loc, m.saved⟩)
    | split
    | intro _
    | dsimp only

theorem midnight_keeps {s0 s : State} (h : Keeps s0 s) : ∀ a1, Keeps s0 (midnight a1 s) := by
  intro a1
  unfold midnight
  repeat' first
    | with_reducible assumption
    | with_reducible apply versionStep_keeps
    | with_reducible apply finishPublishes_keeps
    | with_reducible apply destroyStep_keeps
    | with_reducible apply Keeps.foldl
    | intro _

theorem storeMerge_keeps {s0 s : State} (h : Keeps s0 s) : ∀ a1 a2 a3 a4, Keeps s0 (storeMerge a1 a2 a3 a4 s) := by
  intro a1 a2 a3 a4
  unfold storeMerge
  repeat' first
    | with_reducible assumption
    | with_reducible apply rangeWrite_keeps
    | with_reducible apply Keeps.foldl
    | intro _

theorem execMergeDone_keeps {s0 s : State} (h : Keeps s0 s) : ∀ a1, OutKeeps s0 (execMergeDone a1 s) := by
  intro a1
  unfold execMergeDone
  repeat' first
    | with_reducible assumption
    | with_reducible apply whenP_keeps
    | with_reducible apply lkpNstat_keeps
    | with_reducible apply endUpdate_keeps
    | with_reducible apply storeMerge_keeps
    | with_reducible apply countRefused_keeps
    | with_reducible apply engineAskAll_keeps
    | with_reducible apply count_keeps
    | with_reducible apply OutKeeps.next
    | ((with_reducible apply Keeps.mk') <;> first | with_reducible assumption | with_reducible apply whenP_keeps | with_reducible apply lkpNstat_keeps | with_reducible apply endUpdate_keeps | with_reducible apply storeMerge_keeps | with_reducible apply countRefused_keeps | with_reducible apply engineAskAll_keeps | with_reducible apply count_keeps | with_reducible apply Keeps.foldl | with_reducible apply Keeps.foldl2 | with_reducible apply Keeps.foldl3 | with_reducible apply OutKeeps.next | with_reducible exact OutKeeps.fault | (with_reducible refine Keeps.snd (by assumption) ?_) | (with_reducible refine Keeps.snd2 (by assumption) ?_) | with_reducible exact Nat.le_refl _ | with_reducible exact fun m => ⟨m.host, m.intake, m.fabric, m.nvm, m.sram, m.stk, m.owned, m.log, m.tiles, m.loc, m.saved⟩)
    | with_reducible refine Keeps.ite ?_ ?_
    | split
    | intro _

theorem execLookupReq_keeps {s0 s : State} (h : Keeps s0 s) : ∀ a1, OutKeeps s0 (execLookupReq a1 s) := by
  intro a1
  unfold execLookupReq
  repeat' first
    | with_reducible assumption
    | with_reducible apply receive_keeps
    | with_reducible apply requestHere_keeps
    | intro _

theorem execGatherRelease_keeps {s0 s : State} (h : Keeps s0 s) : ∀ a1, OutKeeps s0 (execGatherRelease a1 s) := by
  intro a1
  unfold execGatherRelease
  repeat' first
    | with_reducible assumption
    | with_reducible apply when_keeps
    | with_reducible apply OutKeeps.next
    | ((with_reducible apply Keeps.mk') <;> first | with_reducible assumption | with_reducible apply when_keeps | with_reducible apply OutKeeps.next | with_reducible exact OutKeeps.fault | with_reducible exact Nat.le_refl _ | with_reducible exact fun m => ⟨m.host, m.intake, m.fabric, m.nvm, m.sram, m.stk, m.owned, m.log, m.tiles, m.loc, m.saved⟩)
    | split

theorem gatherSeg_keeps {s0 s : State} (h : Keeps s0 s) : ∀ a1 a2 a3 a4 a5, Keeps s0 (gatherSeg a1 a2 a3 a4 a5 s).2 := by
  intro a1 a2 a3 a4 a5
  unfold gatherSeg
  repeat' first
    | with_reducible assumption
    | with_reducible apply monitorHit_keeps
    | with_reducible apply gather_keeps
    | with_reducible apply Keeps.foldl2
    | split
    | intro _

theorem lookupFrame_keeps {s0 s : State} (h : Keeps s0 s) : ∀ a1, Keeps s0 (lookupFrame a1 s) := by
  intro a1
  unfold lookupFrame
  repeat' first
    | with_reducible apply setReg_keeps
    | ((with_reducible apply Keeps.mk') <;> first | with_reducible assumption | with_reducible apply setReg_keeps | with_reducible exact Nat.le_refl _ | with_reducible exact fun m => ⟨m.host, m.intake, m.fabric, m.nvm, m.sram, m.stk, m.owned, m.log, m.tiles, m.loc, m.saved⟩)

theorem execFlowPooled_keeps {s0 s : State} (h : Keeps s0 s) : ∀ a1, OutKeeps s0 (execFlowPooled a1 s) := by
  intro a1
  unfold execFlowPooled
  repeat' first
    | with_reducible assumption
    | with_reducible apply whenP_keeps
    | with_reducible apply lkpNstat_keeps
    | with_reducible apply gatherSeg_keeps
    | with_reducible apply sendReply_keeps
    | with_reducible apply engineAskAll_keeps
    | with_reducible apply endOwner_keeps
    | with_reducible apply count_keeps
    | with_reducible apply Keeps.foldl
    | with_reducible apply Keeps.foldl3
    | with_reducible apply OutKeeps.next
    | (with_reducible refine Keeps.snd (by assumption) ?_)
    | (with_reducible refine Keeps.snd2 (by assumption) ?_)
    | split
    | intro _

end Sys2Proof.Machine
end

