-- ==== Sys2Proof/Laws/KeepsTraining.lean ====
section
/-! SUPPORT. One lemma per function of the senders, row updates, reductions and the dense trainer: it keeps what `Keeps` names. -/

namespace Sys2Proof.Machine

theorem sendFlow_keeps {s0 s : State} (h : Keeps s0 s) : ∀ a1, Keeps s0 (sendFlow a1 s) := by
  intro a1
  unfold sendFlow
  repeat' first
    | with_reducible assumption
    | with_reducible apply sendRank_keeps
    | with_reducible apply updReqHere_keeps
    | with_reducible apply requestHere_keeps
    | with_reducible refine Keeps.ite ?_ ?_
    | split

theorem sendQueue_keeps {s0 s : State} (h : Keeps s0 s) : ∀ a1 a2, Keeps s0 (sendQueue a1 a2 s) := by
  intro a1 a2
  induction a1 generalizing s a2 with
  | zero => unfold sendQueue; repeat' first
    | with_reducible assumption
  | succ n ih =>
    unfold sendQueue
    repeat' first
    | with_reducible assumption
    | with_reducible apply updHandle_keeps
    | with_reducible apply sendFlow_keeps
    | with_reducible apply engineAsk_keeps
    | with_reducible apply ih
    | ((with_reducible apply Keeps.mk') <;> first | with_reducible assumption | with_reducible exact Nat.le_refl _ | with_reducible exact fun m => ⟨m.host, m.intake, m.fabric, m.nvm, m.sram, m.stk, m.owned, m.log, m.tiles, m.loc, m.saved⟩)
    | split

theorem sendHandle_keeps {s0 s : State} (h : Keeps s0 s) : ∀ a1, Keeps s0 (sendHandle a1 s) := by
  intro a1
  unfold sendHandle
  repeat' first
    | with_reducible assumption
    | with_reducible apply tryClose_keeps
    | with_reducible apply sendQueue_keeps
    | split

theorem readWords_keeps {s0 s : State} (h : Keeps s0 s) : ∀ a1 a2 a3 a4, Keeps s0 (readWords a1 a2 a3 a4 s).2 := by
  intro a1 a2 a3 a4
  unfold readWords
  repeat' first
    | with_reducible assumption
    | with_reducible apply urngFault_keeps
    | with_reducible apply rangeRead_keeps
    | (with_reducible refine Keeps.rdOk (by assumption) ?_)
    | (with_reducible refine Keeps.rdUn (by assumption) ?_)
    | split

theorem addReplica_keeps {s0 s : State} (h : Keeps s0 s) : ∀ a1 a2 a3, Keeps s0 (addReplica a1 a2 a3 s).2.2 := by
  intro a1 a2 a3
  unfold addReplica
  repeat' first
    | with_reducible assumption
    | with_reducible apply gather_keeps
    | with_reducible apply engineAsk_keeps

theorem readBag_keeps {s0 s : State} (h : Keeps s0 s) : ∀ a1 a2 a3 a4, Keeps s0 (readBag a1 a2 a3 a4 s).2 := by
  intro a1 a2 a3 a4
  unfold readBag
  repeat' first
    | with_reducible assumption
    | with_reducible apply readWords_keeps
    | (with_reducible refine Keeps.snd (by assumption) ?_)
    | split

theorem readGrad_keeps {s0 s : State} (h : Keeps s0 s) : ∀ a1 a2 a3 a4, Keeps s0 (readGrad a1 a2 a3 a4 s).2 := by
  intro a1 a2 a3 a4
  unfold readGrad
  repeat' first
    | with_reducible assumption
    | with_reducible apply readWords_keeps
    | with_reducible apply urngFault_keeps
    | with_reducible apply rangeRead_keeps
    | (with_reducible refine Keeps.snd (by assumption) ?_)
    | (with_reducible refine Keeps.rdOk (by assumption) ?_)
    | (with_reducible refine Keeps.rdUn (by assumption) ?_)
    | split
    | dsimp only

theorem Bucket_put_st (b : Bucket) (rank : Nat) (key : Nat × Nat) (seg : Seg) (head each : Nat) (row : Option (Nat × Nat)) :
    (b.put rank key seg head each row).st = b.st := by
  unfold Bucket.put
  dsimp only
  repeat' split
  all_goals rfl

theorem placeLookup_keeps {s0 : State} {b : Bucket} (h : Keeps s0 b.st) : ∀ a1 a2 a3 a4 a5 a6 a7 a8 a9, Keeps s0 (placeLookup a1 a2 a3 a4 a5 a6 a7 a8 a9 b).st := by
  intro a1 a2 a3 a4 a5 a6 a7 a8 a9
  unfold placeLookup
  dsimp only
  split
  · exact count_keeps h _ _ _
  · rw [Bucket_put_st]; exact count_keeps h _ _ _

theorem bagLookup_keeps {s0 : State} {b : Bucket} (h : Keeps s0 b.st) : ∀ a1 a2 a3 a4 a5 a6, Keeps s0 (bagLookup a1 a2 a3 a4 a5 a6 b).st := by
  intro a1 a2 a3 a4 a5 a6
  unfold bagLookup
  exact foldl_ind (P := fun b : Bucket => Keeps s0 b.st) h fun b x hb => placeLookup_keeps hb _ _ _ _ _ _ _ _ _

theorem bagUpdate_keeps {s0 : State} {b : Bucket} (h : Keeps s0 b.st) : ∀ a1 a2 a3 a4 a5 a6, Keeps s0 (bagUpdate a1 a2 a3 a4 a5 a6 b).st := by
  intro a1 a2 a3 a4 a5 a6
  unfold bagUpdate
  dsimp only
  split
  · exact h
  · split
    · next e => exact Keeps.snd e (readGrad_keeps h _ _ _ _)
    · next e =>
      have h1 := Keeps.snd e (readGrad_keeps h _ _ _ _)
      split
      · exact fault_keeps h1 _
      · split
        · exact foldl_ind (P := fun b : Bucket => Keeps s0 b.st) h1 fun b x hb => by rw [Bucket_put_st]; exact hb
        · exact foldl_ind (P := fun b : Bucket => Keeps s0 b.st) h1 fun b x hb => by rw [Bucket_put_st]; exact hb

theorem bucketBags_keeps {s0 : State} {b : Bucket} (h : Keeps s0 b.st) : ∀ a1 a2 a3 a4 a5 a6 a7, Keeps s0 (bucketBags a1 a2 a3 a4 a5 a6 a7 b).st := by
  intro a1 a2 a3 a4 a5 a6 a7
  unfold bucketBags
  refine foldl_ind (P := fun b : Bucket => Keeps s0 b.st) h fun b x hb => ?_
  split
  · exact hb
  · dsimp only
    split
    · exact hb
    · split
      · next e => exact Keeps.snd e (readBag_keeps hb _ _ _ _)
      · next e =>
        have h1 := Keeps.snd e (readBag_keeps hb _ _ _ _)
        split
        · exact bagUpdate_keeps h1 _ _ _ _ _ _
        · exact bagLookup_keeps h1 _ _ _ _ _ _

theorem startHandle_keeps {s0 s : State} (h : Keeps s0 s) : ∀ a1 a2 a3 a4 a5 a6 a7, Keeps s0 (startHandle a1 a2 a3 a4 a5 a6 a7 s) := by
  intro k rd pc cl upd d word
  unfold startHandle
  split
  · exact h
  · dsimp only
    split
    · next e => exact walkAccess_keeps (Keeps.snd e (readWords_keeps h _ _ _ _)) _ _
    · next e =>
      have h1 := Keeps.snd e (readWords_keeps h _ _ _ _)
      clear e
      split
      · exact walkAccess_keeps (urngFault_keeps h1 _ _ _) _ _
      · generalize hb : bucketBags .. = b
        have h2 : Keeps s0 b.st := by
          rw [← hb]; exact bucketBags_keeps (by exact h1) _ _ _ _ _ _ _
        clear hb
        split
        · exact walkAccess_keeps h2 _ _
        · generalize hf : List.foldl .. = p
          have h3 : Keeps s0 p.2.2 := by
            rw [← hf]
            exact Keeps.foldl3 (by exact h2) fun a o ha => addReplica_keeps ha _ _ _
          clear hf
          obtain ⟨h1', st, s2⟩ := p
          dsimp only at h3 ⊢
          have h4 : ∀ (k : Nat) (v : Nat × Nat), Keeps s0 (sendHandle k (handleNstat v.1 st (count Reg.LKP_BADIDX 32 v.2 (putHandle k h1'
            { s2 with lkp := { s2.lkp with nextHandle := s2.lkp.nextHandle + 1 } })))) := fun k v => sendHandle_keeps (handleNstat_keeps (count_keeps (putHandle_keeps (by exact h3.mk' (Nat.le_refl _) fun m => ⟨m.host, m.intake, m.fabric, m.nvm, m.sram, m.stk, m.owned, m.log, m.tiles, m.loc, m.saved⟩) _ _) _ _ _) _ _) _
          split
          · exact updWalker_keeps (h4 _ (_, _)) _ _ fun x hx => Walker.Ok.mk' hx
          · exact updWalker_keeps (h4 _ (_, _)) _ _ fun x hx => Walker.Ok.mk' (Walker.setReg_ok hx _ _)

theorem sendIssue_keeps {s0 s : State} (h : Keeps s0 s) : ∀ a1 a2 a3 a4 a5 a6 a7, Keeps s0 (sendIssue a1 a2 a3 a4 a5 a6 a7 s) := by
  intro a1 a2 a3 a4 a5 a6 a7
  unfold sendIssue
  repeat' first
    | with_reducible assumption
    | with_reducible apply startHandle_keeps
    | with_reducible apply walkInvalid_keeps
    | with_reducible apply updWalker_keeps
    | ((with_reducible apply Walker.Ok.mk') <;> first | with_reducible assumption | with_reducible apply Walker.setReg_ok)
    | with_reducible refine Keeps.ite ?_ ?_
    | split
    | intro _
    | dsimp only

theorem resumeSender_keeps {s0 s : State} (h : Keeps s0 s) : ∀ a1, Keeps s0 (resumeSender a1 s) := by
  intro a1
  unfold resumeSender
  repeat' first
    | with_reducible assumption
    | with_reducible apply sendHandle_keeps
    | with_reducible apply sendIssue_keeps
    | with_reducible apply updWalker_keeps
    | ((with_reducible apply Walker.Ok.mk') <;> first | with_reducible assumption | with_reducible apply Walker.setReg_ok)
    | with_reducible refine Keeps.ite ?_ ?_
    | split
    | intro _
    | dsimp only

theorem resumeOrphans_keeps {s0 s : State} (h : Keeps s0 s) : ∀ a1, Keeps s0 (resumeOrphans a1 s) := by
  intro a1
  unfold resumeOrphans
  repeat' first
    | with_reducible assumption
    | with_reducible apply sendHandle_keeps
    | with_reducible apply Keeps.foldl
    | split
    | intro _

theorem execLksendResume_keeps {s0 s : State} (h : Keeps s0 s) : ∀ a1, OutKeeps s0 (execLksendResume a1 s) := by
  intro a1
  unfold execLksendResume
  repeat' first
    | with_reducible assumption
    | with_reducible apply resumeOrphans_keeps
    | with_reducible apply whenP_keeps
    | with_reducible apply resumeSender_keeps
    | intro _

theorem completeStep_keeps {s0 s : State} (h : Keeps s0 s) : ∀ a1 a2 a3, Keeps s0 (completeStep a1 a2 a3 s) := by
  intro a1 a2 a3
  unfold completeStep
  repeat' first
    | with_reducible assumption
    | with_reducible apply dlxProgress_keeps
    | ((with_reducible apply Keeps.mk') <;> first | with_reducible assumption | with_reducible apply updTable_keeps | with_reducible apply dlxProgress_keeps | with_reducible exact Nat.le_refl _ | with_reducible exact fun m => ⟨m.host, m.intake, m.fabric, m.nvm, m.sram, m.stk, m.owned, m.log, m.tiles, m.loc, m.saved⟩)

theorem settleStep_keeps {s0 s : State} (h : Keeps s0 s) : ∀ a1 a2 a3, Keeps s0 (settleStep a1 a2 a3 s) := by
  intro a1 a2 a3
  induction a1 generalizing s a2 a3 with
  | zero => exact h
  | succ n ih =>
    unfold settleStep
    split
    · refine Keeps.ite h ?_
      split
      · exact Keeps.ite (updTable_keeps (engineCallAll_keeps h _) _ _ _) (ih (completeStep_keeps h _ _ _) _ _)
      · exact h
    · exact h

theorem settleTable_keeps {s0 s : State} (h : Keeps s0 s) : ∀ a1 a2, Keeps s0 (settleTable a1 a2 s) := by
  intro a1 a2
  unfold settleTable
  repeat' first
    | with_reducible assumption
    | with_reducible apply settleStep_keeps

theorem closeHere_keeps {s0 s : State} (h : Keeps s0 s) : ∀ a1 a2 a3 a4, Keeps s0 (closeHere a1 a2 a3 a4 s) := by
  intro a1 a2 a3 a4
  unfold closeHere
  repeat' first
    | with_reducible assumption
    | with_reducible apply updTable_keeps
    | with_reducible apply settleTable_keeps
    | with_reducible refine Keeps.ite ?_ ?_
    | split

theorem execLksend_keeps {s0 s : State} (h : Keeps s0 s) : ∀ a1 a2, OutKeeps s0 (execLksend a1 a2 s) := by
  intro a1 a2
  unfold execLksend
  repeat' first
    | with_reducible assumption
    | with_reducible apply poweredOut_keeps
    | with_reducible apply walkIssue_keeps
    | with_reducible apply sendIssue_keeps
    | with_reducible apply WEff.kStop
    | intro _

theorem execUpsend_keeps {s0 s : State} (h : Keeps s0 s) : ∀ a1 a2, OutKeeps s0 (execUpsend a1 a2 s) := by
  intro a1 a2
  unfold execUpsend
  repeat' first
    | with_reducible assumption
    | with_reducible apply poweredOut_keeps
    | with_reducible apply walkIssue_keeps
    | with_reducible apply sendIssue_keeps
    | with_reducible apply WEff.kStop
    | intro _

theorem execFlowRetry_keeps {s0 s : State} (h : Keeps s0 s) : ∀ a1, OutKeeps s0 (execFlowRetry a1 s) := by
  intro a1
  unfold execFlowRetry
  repeat' first
    | with_reducible assumption
    | with_reducible apply whenP_keeps
    | with_reducible apply updHandle_keeps
    | with_reducible apply sendFlow_keeps
    | with_reducible apply updRFlow_keeps
    | split
    | intro _

theorem execHwait_keeps {s0 s : State} (h : Keeps s0 s) : ∀ a1 a2, OutKeeps s0 (execHwait a1 a2 s) := by
  intro a1 a2
  unfold execHwait
  repeat' first
    | with_reducible assumption
    | with_reducible apply walkIssue_keeps
    | with_reducible apply updWalker_keeps
    | with_reducible apply WEff.kStall
    | with_reducible apply WEff.kNext
    | ((with_reducible apply Walker.Ok.mk') <;> first | with_reducible assumption | with_reducible apply Walker.setReg_ok)
    | split
    | intro _

theorem execUpclose_keeps {s0 s : State} (h : Keeps s0 s) : ∀ a1 a2, OutKeeps s0 (execUpclose a1 a2 s) := by
  intro a1 a2
  unfold execUpclose
  repeat' first
    | with_reducible assumption
    | with_reducible apply walkIssue_keeps
    | with_reducible apply sendRank_keeps
    | with_reducible apply walkInvalid_keeps
    | with_reducible apply closeHere_keeps
    | with_reducible apply Keeps.foldl
    | with_reducible apply WEff.kStall
    | with_reducible apply WEff.kStop
    | with_reducible apply WEff.kNext
    | ((with_reducible apply Keeps.mk') <;> first | with_reducible assumption | with_reducible apply walkIssue_keeps | with_reducible apply sendRank_keeps | with_reducible apply walkInvalid_keeps | with_reducible apply closeHere_keeps | with_reducible apply Keeps.foldl | with_reducible apply WEff.kStall | with_reducible apply WEff.kStop | with_reducible apply WEff.kNext | with_reducible apply OutKeeps.next | with_reducible exact OutKeeps.fault | (with_reducible refine Keeps.snd (by assumption) ?_) | (with_reducible refine Keeps.snd2 (by assumption) ?_) | with_reducible exact Nat.le_refl _ | with_reducible exact fun m => ⟨m.host, m.intake, m.fabric, m.nvm, m.sram, m.stk, m.owned, m.log, m.tiles, m.loc, m.saved⟩)
    | split
    | intro _
    | dsimp only

theorem execUpdClose_keeps {s0 s : State} (h : Keeps s0 s) : ∀ a1, OutKeeps s0 (execUpdClose a1 s) := by
  intro a1
  unfold execUpdClose
  repeat' first
    | with_reducible assumption
    | with_reducible apply closeHere_keeps
    | (refine takeIdent_keeps ?_ _ _ _ _ (by assumption))
    | with_reducible apply receive_keeps
    | with_reducible apply count_keeps
    | with_reducible apply Keeps.foldl
    | split
    | intro _
    | dsimp only

theorem gatherRow_keeps {s0 : State} {a : List BRow × State} (h : Keeps s0 a.2) : ∀ a1 a2 a3 a4 a5, Keeps s0 (gatherRow a1 a2 a3 a4 a5 a).2 := by
  intro a1 a2 a3 a4 a5
  unfold gatherRow
  repeat' first
    | with_reducible assumption
    | with_reducible apply fault_keeps
    | with_reducible apply rangeRead_keeps
    | with_reducible apply gather_keeps
    | ((with_reducible apply Keeps.mk') <;> first | (with_reducible refine Keeps.rdOk (by assumption) ?_) | (with_reducible refine Keeps.rdUn (by assumption) ?_) | with_reducible exact Nat.le_refl _ | with_reducible exact fun m => ⟨m.host, m.intake, m.fabric, m.nvm, m.sram, m.stk, m.owned, m.log, m.tiles, m.loc, m.saved⟩)
    | split
    | dsimp only

theorem stepDone_keeps {s0 s : State} (h : Keeps s0 s) : ∀ a1 a2, Keeps s0 (stepDone a1 a2 s) := by
  intro a1 a2
  unfold stepDone
  repeat' first
    | with_reducible assumption
    | with_reducible apply completeStep_keeps
    | with_reducible apply settleTable_keeps
    | with_reducible refine Keeps.ite ?_ ?_
    | split

theorem freeEntries_keeps {s0 s : State} (h : Keeps s0 s) : ∀ a1, Keeps s0 (freeEntries a1 s) := by
  intro a1
  unfold freeEntries
  repeat' first
    | ((with_reducible apply Keeps.mk') <;> first | with_reducible assumption | with_reducible exact Nat.le_refl _ | with_reducible exact fun m => ⟨m.host, m.intake, m.fabric, m.nvm, m.sram, m.stk, m.owned, m.log, m.tiles, m.loc, m.saved⟩)

theorem loadHparam_keeps {s0 s : State} (h : Keeps s0 s) : ∀ a1 a2 a3 a4 a5 a6, Keeps s0 (loadHparam a1 a2 a3 a4 a5 a6 s).2 := by
  intro a1 a2 a3 a4 a5 a6
  unfold loadHparam
  repeat' first
    | with_reducible assumption
    | with_reducible apply updTable_keeps
    | with_reducible apply stageWrite_keeps
    | with_reducible apply rangeRead_keeps
    | (with_reducible refine Keeps.rdOk (by assumption) ?_)
    | (with_reducible refine Keeps.rdUn (by assumption) ?_)
    | split

theorem fillStage_keeps {s0 s : State} (h : Keeps s0 s) : ∀ a1 a2 a3 a4 a5 a6, Keeps s0 (fillStage a1 a2 a3 a4 a5 a6 s) := by
  intro a1 a2 a3 a4 a5 a6
  unfold fillStage
  repeat' first
    | with_reducible assumption
    | with_reducible apply stageWrite_keeps
    | with_reducible refine Keeps.ite ?_ ?_

theorem writeBackRow_keeps {s0 s : State} (h : Keeps s0 s) : ∀ a1 a2 a3 a4 a5 a6 a7 a8 a9, Keeps s0 (writeBackRow a1 a2 a3 a4 a5 a6 a7 a8 a9 s).2.2 := by
  intro a1 a2 a3 a4 a5 a6 a7 a8 a9
  unfold writeBackRow
  repeat' first
    | with_reducible assumption
    | with_reducible apply rangeWrite_keeps
    | with_reducible apply cacheWrite_keeps
    | with_reducible apply addDeltas_keeps
    | with_reducible apply rangeRead_keeps
    | ((with_reducible apply Keeps.mk') <;> first | with_reducible assumption | with_reducible apply rangeWrite_keeps | with_reducible apply cacheWrite_keeps | with_reducible apply addDeltas_keeps | with_reducible apply rangeRead_keeps | (with_reducible refine Keeps.snd (by assumption) ?_) | (with_reducible refine Keeps.snd2 (by assumption) ?_) | (with_reducible refine Keeps.rdOk (by assumption) ?_) | (with_reducible refine Keeps.rdUn (by assumption) ?_) | (with_reducible refine Keeps.wrOk (by assumption) ?_) | (with_reducible refine Keeps.wrUn (by assumption) ?_) | with_reducible exact Nat.le_refl _ | with_reducible exact fun m => ⟨m.host, m.intake, m.fabric, m.nvm, m.sram, m.stk, m.owned, m.log, m.tiles, m.loc, m.saved⟩)
    | with_reducible refine Keeps.ite ?_ ?_
    | split
    | dsimp only

theorem writeBack_keeps {s0 s : State} (h : Keeps s0 s) : ∀ a1 a2 a3 a4 a5 a6 a7 a8 a9, Keeps s0 (writeBack a1 a2 a3 a4 a5 a6 a7 a8 a9 s) := by
  intro a1 a2 a3 a4 a5 a6 a7 a8 a9
  unfold writeBack
  repeat' first
    | with_reducible assumption
    | with_reducible apply markHot_keeps
    | with_reducible apply writeBackRow_keeps
    | with_reducible apply lkpNstat_keeps
    | with_reducible apply dlxWriteBack_keeps
    | with_reducible apply count_keeps
    | with_reducible apply Keeps.foldl3
    | (with_reducible refine Keeps.snd2 (by assumption) ?_)
    | split
    | intro _

theorem runBatch_keeps {s0 s : State} (h : Keeps s0 s) : ∀ a1 a2 a3 a4 a5 a6, Keeps s0 (runBatch a1 a2 a3 a4 a5 a6 s) := by
  intro j tid die t v ents
  unfold runBatch
  split
  · exact h
  · next job _ =>
    extract_lets fx d tile base
    clear_value fx d tile base
    generalize hg : List.foldl _ _ ents = g
    have h1 : Keeps s0 g.2 := by
      rw [← hg]
      exact Keeps.foldl2 (engineAsk_keeps h _) fun a m ha => gatherRow_keeps (a := a) ha _ _ _ _ _
    clear hg
    obtain ⟨rows, s1⟩ := g
    generalize roundRows die d rows ((s1.job? j).getD job) = rr
    obtain ⟨gs, st, job1⟩ := rr
    dsimp -zeta only at h1 ⊢
    extract_lets s2 s4
    have h2 : Keeps s0 s2 := by
      refine lkpNstat_keeps ?_ _
      exact h1.mk' (Nat.le_refl _) fun m => ⟨m.host, m.intake, m.fabric, m.nvm, m.sram, m.stk, m.owned, m.log, m.tiles, m.loc, m.saved⟩
    clear_value s2
    have h3 := fun gs => loadHparam_keeps (fillStage_keeps h2 tile base (vsOpt v) d gs rows) j tid die tile base v
    have h4 : Keeps s0 s4 := by
      unfold s4
      split
      · next e =>
        have hr := Keeps.snd e (readProgram_keeps (h3 _) _ _)
        refine Keeps.ite hr ?_
        dsimp only
        split
        · next e2 => exact writeBack_keeps (lkpNstat_keeps (Keeps.snd2 e2 (runProgram_keeps hr _ _ _)) _) _ _ _ _ _ _ _ _ _
        · next e2 => exact Keeps.snd2 e2 (runProgram_keeps hr _ _ _)
      · next e => exact Keeps.snd e (readProgram_keeps (h3 _) _ _)
    clear_value s4
    exact stepDone_keeps (freeEntries_keeps (ledgerReturn_keeps h4 _) _) _ _

theorem execUpdateBatch_keeps {s0 s : State} (h : Keeps s0 s) : ∀ a1 a2 a3, OutKeeps s0 (execUpdateBatch a1 a2 a3 s) := by
  intro a1 a2 a3
  unfold execUpdateBatch
  repeat' first
    | with_reducible assumption
    | with_reducible apply stepDone_keeps
    | with_reducible apply engineCall_keeps
    | with_reducible apply whenP_keeps
    | with_reducible apply reserve_keeps
    | with_reducible apply runBatch_keeps
    | with_reducible apply freeEntries_keeps
    | with_reducible apply OutKeeps.next
    | with_reducible refine Keeps.ite ?_ ?_
    | split
    | intro _

theorem dropLookupJob_keeps {s0 s : State} (h : Keeps s0 s) : ∀ a1, Keeps s0 (dropLookupJob a1 s) := by
  intro j
  unfold dropLookupJob
  have h1 := cacheDrop_keeps h (fun l => decide (l.key / 2 ^ 43 = j))
  generalize cacheDrop (fun l => decide (l.key / 2 ^ 43 = j)) s = s1 at h1 ⊢
  have hp : ∀ (f : Nat × SavedCluster → Bool) (g : Nat → Walker → Walker) c2 h2 r2 o2 m2 n2 l2 b2, (∀ k w, w.Ok → (g k w).Ok) →
      Keeps s0 { s1 with savedClusters := s1.savedClusters.filter f, lkp := { s1.lkp with clusters := c2, walkers := Tbl.mapv s1.lkp.walkers g, handles := h2, rflows := r2, oflows := o2, merge := m2, seen := n2, closed := l2, book := b2 } } :=
    fun f g _ _ _ _ _ _ _ _ hg => h1.mk' (Nat.le_refl _) fun m => ⟨m.host, m.intake, m.fabric, m.nvm, m.sram, m.stk, m.owned, m.log, m.tiles, Tbl.all_mapv (P := Walker.Ok) (Q := Walker.Ok) m.loc hg, fun p hp => m.saved p (List.mem_filter.1 hp).1⟩
  exact hp _ _ _ _ _ _ _ _ _ _ fun k w hw => by (repeat' split) <;> first | exact ⟨rfl⟩ | exact hw

theorem reductionAsk_keeps {s0 s : State} (h : Keeps s0 s) : ∀ a1, Keeps s0 (reductionAsk a1 s) := by
  intro a1
  unfold reductionAsk
  repeat' first
    | with_reducible assumption
    | with_reducible apply needDraw_keeps

theorem grantMore_keeps {s0 s : State} (h : Keeps s0 s) : ∀ a1 a2 a3, Keeps s0 (grantMore a1 a2 a3 s) := by
  intro a1 a2 a3
  unfold grantMore
  repeat' first
    | with_reducible assumption
    | with_reducible apply sendRank_keeps
    | with_reducible apply updLayer_keeps
    | with_reducible apply reductionAsk_keeps
    | with_reducible refine Keeps.ite ?_ ?_
    | split

theorem grantBoth_keeps {s0 s : State} (h : Keeps s0 s) : ∀ a1 a2, Keeps s0 (grantBoth a1 a2 s) := by
  intro a1 a2
  unfold grantBoth
  repeat' first
    | with_reducible assumption
    | with_reducible apply grantMore_keeps

theorem sendColl_keeps {s0 s : State} (h : Keeps s0 s) : ∀ a1 a2 a3 a4 a5 a6 a7 a8, ∀ t, sendColl a1 a2 a3 a4 a5 a6 a7 a8 s = some t → Keeps s0 t := by
  intro a1 a2 a3 a4 a5 a6 a7 a8
  intro t
  unfold sendColl
  repeat' first
    | with_reducible assumption
    | with_reducible apply sendRank_keeps
    | with_reducible apply takeLink_keeps
    | split
    | dsimp only
    | rintro ⟨⟩

theorem sendRanges_keeps {s0 s : State} (h : Keeps s0 s) : ∀ a1 a2 a3, Keeps s0 (sendRanges a1 a2 a3 s) := by
  intro a1 a2 a3
  unfold sendRanges
  refine Keeps.foldl h fun s x hs => ?_
  repeat' first
    | with_reducible assumption
    | with_reducible apply count_keeps
    | with_reducible apply updLayer_keeps
    | (refine sendColl_keeps ?_ _ _ _ _ _ _ _ _ _ (by assumption))
    | with_reducible refine Keeps.ite ?_ ?_
    | split
    | dsimp only

theorem sendSegs_keeps {s0 s : State} (h : Keeps s0 s) : ∀ a1 a2 a3, Keeps s0 (sendSegs a1 a2 a3 s) := by
  intro a1 a2 a3
  unfold sendSegs
  refine Keeps.foldl h fun s x hs => ?_
  repeat' first
    | with_reducible assumption
    | with_reducible apply count_keeps
    | with_reducible apply updLayer_keeps
    | (refine sendColl_keeps ?_ _ _ _ _ _ _ _ _ _ (by assumption))
    | split

theorem densePump_keeps {s0 s : State} (h : Keeps s0 s) : ∀ a1 a2, Keeps s0 (densePump a1 a2 s) := by
  intro a1 a2
  unfold densePump
  repeat' first
    | with_reducible assumption
    | with_reducible apply sendSegs_keeps
    | with_reducible apply sendRanges_keeps
    | with_reducible apply reductionAsk_keeps
    | with_reducible apply grantBoth_keeps
    | with_reducible refine Keeps.ite ?_ ?_
    | split

theorem sendVerdict_keeps {s0 s : State} (h : Keeps s0 s) : ∀ a1 a2, Keeps s0 (sendVerdict a1 a2 s) := by
  intro a1 a2
  unfold sendVerdict
  repeat' first
    | with_reducible assumption
    | with_reducible apply sendRank_keeps
    | with_reducible apply updLayer_keeps
    | with_reducible apply reductionAsk_keeps
    | with_reducible refine Keeps.ite ?_ ?_
    | split

theorem readyLayer_keeps {s0 s : State} (h : Keeps s0 s) : ∀ a1 a2 a3, Keeps s0 (readyLayer a1 a2 a3 s) := by
  intro a1 a2 a3
  unfold readyLayer
  repeat' first
    | with_reducible assumption
    | with_reducible apply semUp_keeps
    | with_reducible apply dlxProgress_keeps
    | ((with_reducible apply Keeps.mk') <;> first | with_reducible assumption | with_reducible apply updLayer_keeps | with_reducible apply semUp_keeps | with_reducible apply dlxProgress_keeps | with_reducible exact Nat.le_refl _ | with_reducible exact fun m => ⟨m.host, m.intake, m.fabric, m.nvm, m.sram, m.stk, m.owned, m.log, m.tiles, m.loc, m.saved⟩)
    | with_reducible refine Keeps.ite ?_ ?_
    | split

theorem checkReady_keeps {s0 s : State} (h : Keeps s0 s) : ∀ a1 a2, Keeps s0 (checkReady a1 a2 s) := by
  intro a1 a2
  unfold checkReady
  repeat' first
    | with_reducible assumption
    | with_reducible apply readyLayer_keeps
    | with_reducible refine Keeps.ite ?_ ?_
    | split

theorem dtrErr_keeps {s0 s : State} (h : Keeps s0 s) : ∀ a1 a2 a3 a4, Keeps s0 (dtrErr a1 a2 a3 a4 s) := by
  intro a1 a2 a3 a4
  unfold dtrErr
  repeat' first
    | with_reducible assumption
    | with_reducible apply setReg_keeps

theorem dtrNstat_keeps {s0 s : State} (h : Keeps s0 s) : ∀ a1, Keeps s0 (dtrNstat a1 s) := by
  intro a1
  unfold dtrNstat
  repeat' first
    | with_reducible assumption
    | with_reducible apply orReg_keeps

theorem dtrAccess_keeps {s0 s : State} (h : Keeps s0 s) : ∀ a1 a2, Keeps s0 (dtrAccess a1 a2 s) := by
  intro a1 a2
  unfold dtrAccess
  repeat' first
    | with_reducible assumption
    | with_reducible apply updLayer_keeps
    | with_reducible apply dtrErr_keeps
    | with_reducible apply raiseInt_keeps
    | split

theorem readArr_keeps {s0 s : State} (h : Keeps s0 s) : ∀ a1 a2 a3 a4, Keeps s0 (readArr a1 a2 a3 a4 s).2.2 := by
  intro a1 a2 a3 a4
  unfold readArr
  repeat' first
    | with_reducible assumption
    | with_reducible apply dtrAccess_keeps
    | with_reducible apply rangeRead_keeps
    | (with_reducible refine Keeps.rdOk (by assumption) ?_)
    | (with_reducible refine Keeps.rdUn (by assumption) ?_)
    | split

theorem writeArr_keeps {s0 s : State} (h : Keeps s0 s) : ∀ a1 a2 a3 a4 a5, Keeps s0 (writeArr a1 a2 a3 a4 a5 s) := by
  intro a1 a2 a3 a4 a5
  unfold writeArr
  repeat' first
    | with_reducible assumption
    | with_reducible apply dtrAccess_keeps
    | with_reducible apply rangeWriteP_keeps
    | (with_reducible refine Keeps.wrOk (by assumption) ?_)
    | (with_reducible refine Keeps.wrUn (by assumption) ?_)
    | split

theorem keepResidual_keeps {s0 s : State} (h : Keeps s0 s) : ∀ a1 a2 a3, Keeps s0 (keepResidual a1 a2 a3 s) := by
  intro a1 a2 a3
  unfold keepResidual
  repeat' first
    | with_reducible assumption
    | with_reducible apply readArr_keeps
    | with_reducible apply dtrNstat_keeps
    | with_reducible apply writeArr_keeps
    | with_reducible apply Keeps.foldl
    | intro _

theorem skipStep_keeps {s0 s : State} (h : Keeps s0 s) : ∀ a1 a2, Keeps s0 (skipStep a1 a2 s) := by
  intro a1 a2
  unfold skipStep
  repeat' first
    | with_reducible assumption
    | with_reducible apply keepResidual_keeps
    | with_reducible apply fault_keeps
    | with_reducible apply dtrErr_keeps
    | with_reducible apply readyLayer_keeps
    | with_reducible apply count_keeps
    | with_reducible apply raiseInt_keeps
    | with_reducible refine Keeps.ite ?_ ?_
    | split

theorem verdictKnown_keeps {s0 s : State} (h : Keeps s0 s) : ∀ a1 a2, Keeps s0 (verdictKnown a1 a2 s) := by
  intro a1 a2
  unfold verdictKnown
  repeat' first
    | with_reducible assumption
    | with_reducible apply updLayer_keeps
    | with_reducible apply skipStep_keeps
    | with_reducible apply checkReady_keeps
    | with_reducible refine Keeps.ite ?_ ?_
    | split

theorem takeVerdicts_keeps {s0 s : State} (h : Keeps s0 s) : ∀ a1 a2 a3, Keeps s0 (takeVerdicts a1 a2 a3 s) := by
  intro a1 a2 a3
  induction a1 generalizing s a2 a3 with
  | zero => exact h
  | succ n ih =>
    unfold takeVerdicts
    repeat' first
    | with_reducible assumption
    | with_reducible apply verdictKnown_keeps
    | with_reducible apply updLayer_keeps
    | with_reducible apply sendVerdict_keeps
    | with_reducible apply ih
    | with_reducible refine Keeps.ite ?_ ?_
    | split
    | dsimp only

theorem votePump_keeps {s0 s : State} (h : Keeps s0 s) : ∀ a1 a2, Keeps s0 (votePump a1 a2 s) := by
  intro a1 a2
  unfold votePump
  repeat' first
    | with_reducible assumption
    | with_reducible apply takeVerdicts_keeps
    | with_reducible apply powered_keeps
    | with_reducible refine Keeps.ite ?_ ?_
    | split
    | intro _

theorem densePumpAll_keeps {s0 s : State} (h : Keeps s0 s) : Keeps s0 (densePumpAll s) := by
  unfold densePumpAll
  repeat' first
    | with_reducible assumption
    | with_reducible apply votePump_keeps
    | with_reducible apply relink_keeps
    | with_reducible apply densePump_keeps
    | with_reducible apply pump_keeps
    | with_reducible apply Keeps.foldl
    | intro _

theorem execVerdict_keeps {s0 s : State} (h : Keeps s0 s) : ∀ a1, OutKeeps s0 (execVerdict a1 s) := by
  intro a1
  unfold execVerdict
  repeat' first
    | with_reducible assumption
    | with_reducible apply takeVerdicts_keeps
    | with_reducible apply updLayer_keeps
    | with_reducible apply badMsg_keeps
    | with_reducible apply receive_keeps
    | with_reducible refine Keeps.ite ?_ ?_
    | split
    | intro _
    | dsimp only

theorem slotStart_keeps {s0 s : State} (h : Keeps s0 s) : ∀ a1, Keeps s0 (slotStart a1 s) := by
  intro a1
  unfold slotStart
  repeat' first
    | with_reducible apply densePumpAll_keeps
    | with_reducible apply unlink_keeps
    | ((with_reducible apply Keeps.mk') <;> first | with_reducible assumption | with_reducible apply densePumpAll_keeps | with_reducible apply unlink_keeps | with_reducible exact Nat.le_refl _ | with_reducible exact fun m => ⟨m.host, m.intake, m.fabric, m.nvm, m.sram, m.stk, m.owned, m.log, m.tiles, m.loc, m.saved⟩)

theorem compareBlock_keeps {s0 s : State} (h : Keeps s0 s) : ∀ a1 a2 a3, Keeps s0 (compareBlock a1 a2 a3 s) := by
  intro a1 a2 a3
  unfold compareBlock
  repeat' first
    | with_reducible assumption
    | with_reducible apply updLayer_keeps
    | with_reducible apply reductionAsk_keeps
    | with_reducible apply count_keeps
    | with_reducible apply raiseInt_keeps
    | with_reducible refine Keeps.ite ?_ ?_
    | split

theorem contribution_keeps {s0 s : State} (h : Keeps s0 s) : ∀ a1 a2 a3 a4 a5 a6, Keeps s0 (contribution a1 a2 a3 a4 a5 a6 s).2.2 := by
  intro a1 a2 a3 a4 a5 a6
  unfold contribution
  repeat' first
    | with_reducible assumption
    | with_reducible apply readArr_keeps

theorem noteSample_keeps {s0 s : State} (h : Keeps s0 s) : ∀ a1 a2 a3 a4, Keeps s0 (noteSample a1 a2 a3 a4 s) := by
  intro a1 a2 a3 a4
  unfold noteSample
  repeat' first
    | with_reducible assumption
    | with_reducible apply compareBlock_keeps
    | with_reducible apply updLayer_keeps
    | split
    | dsimp only

theorem votePoison_keeps {s0 s : State} (h : Keeps s0 s) : ∀ a1 a2 a3 a4, Keeps s0 (votePoison a1 a2 a3 a4 s) := by
  intro a1 a2 a3 a4
  unfold votePoison
  repeat' first
    | with_reducible assumption
    | with_reducible apply updLayer_keeps
    | with_reducible refine Keeps.ite ?_ ?_

theorem takeMain_keeps {s0 s : State} (h : Keeps s0 s) : ∀ a1 a2 a3 a4 a5 a6 a7 a8, Keeps s0 (takeMain a1 a2 a3 a4 a5 a6 a7 a8 s) := by
  intro a1 a2 a3 a4 a5 a6 a7 a8
  unfold takeMain
  repeat' first
    | with_reducible assumption
    | with_reducible apply noteSample_keeps
    | with_reducible apply contribution_keeps
    | with_reducible apply updLayer_keeps
    | with_reducible apply dtrNstat_keeps
    | with_reducible apply writeArr_keeps
    | with_reducible apply votePoison_keeps
    | with_reducible apply count_keeps
    | with_reducible apply Keeps.foldl
    | with_reducible refine Keeps.ite ?_ ?_
    | intro _

theorem ownWhole_keeps {s0 s : State} (h : Keeps s0 s) : ∀ a1 a2 a3, Keeps s0 (ownWhole a1 a2 a3 s) := by
  intro a1 a2 a3
  unfold ownWhole
  repeat' first
    | with_reducible assumption
    | with_reducible apply contribution_keeps
    | with_reducible apply updLayer_keeps
    | with_reducible apply writeArr_keeps
    | with_reducible apply votePoison_keeps
    | with_reducible apply Keeps.foldl
    | (with_reducible refine Keeps.snd2 (by assumption) ?_)
    | split
    | intro _

theorem takeCheck_keeps {s0 s : State} (h : Keeps s0 s) : ∀ a1 a2 a3 a4 a5 a6 a7, Keeps s0 (takeCheck a1 a2 a3 a4 a5 a6 a7 s) := by
  intro a1 a2 a3 a4 a5 a6 a7
  unfold takeCheck
  repeat' first
    | with_reducible assumption
    | with_reducible apply noteSample_keeps
    | with_reducible apply contribution_keeps
    | with_reducible apply updLayer_keeps
    | with_reducible apply dtrNstat_keeps
    | with_reducible apply votePoison_keeps
    | with_reducible refine Keeps.ite ?_ ?_

theorem prepare1_keeps {s0 s : State} (h : Keeps s0 s) : ∀ a1 a2 a3 a4 a5, Keeps s0 (prepare1 a1 a2 a3 a4 a5 s) := by
  intro a1 a2 a3 a4 a5
  unfold prepare1
  repeat' first
    | with_reducible assumption
    | with_reducible apply readArr_keeps
    | with_reducible apply dtrNstat_keeps
    | with_reducible apply writeArr_keeps

theorem preparePass_keeps {s0 s : State} (h : Keeps s0 s) : ∀ a1 a2 a3, Keeps s0 (preparePass a1 a2 a3 s) := by
  intro a1 a2 a3
  unfold preparePass
  repeat' first
    | with_reducible assumption
    | with_reducible apply prepare1_keeps
    | with_reducible apply Keeps.foldl
    | intro _

theorem execXcredit_keeps {s0 s : State} (h : Keeps s0 s) : ∀ a1, OutKeeps s0 (execXcredit a1 s) := by
  intro a1
  unfold execXcredit
  repeat' first
    | with_reducible assumption
    | with_reducible apply updLayer_keeps
    | with_reducible apply densePump_keeps
    | with_reducible apply badMsg_keeps
    | with_reducible apply receive_keeps
    | with_reducible refine Keeps.ite ?_ ?_
    | split
    | intro _
    | dsimp only

theorem execVerdictExchangeStart_keeps {s0 s : State} (h : Keeps s0 s) : ∀ a1 a2, OutKeeps s0 (execVerdictExchangeStart a1 a2 s) := by
  intro a1 a2
  unfold execVerdictExchangeStart
  repeat' first
    | with_reducible assumption
    | with_reducible apply whenP_keeps
    | with_reducible apply takeVerdicts_keeps
    | with_reducible apply updLayer_keeps
    | with_reducible apply votePoison_keeps
    | with_reducible apply OutKeeps.next
    | split
    | intro _

theorem execRsData_keeps {s0 s : State} (h : Keeps s0 s) : ∀ a1, OutKeeps s0 (execRsData a1 s) := by
  intro a1
  unfold execRsData
  repeat' first
    | with_reducible assumption
    | with_reducible apply takeCheck_keeps
    | with_reducible apply updLayer_keeps
    | with_reducible apply densePump_keeps
    | with_reducible apply badMsg_keeps
    | with_reducible apply reductionAsk_keeps
    | (refine takeIdent_keeps ?_ _ _ _ _ (by assumption))
    | with_reducible apply receive_keeps
    | with_reducible apply grantBoth_keeps
    | with_reducible apply takeMain_keeps
    | with_reducible apply count_keeps
    | with_reducible refine Keeps.ite ?_ ?_
    | split
    | intro _
    | dsimp only

theorem beginRange_keeps {s0 s : State} (h : Keeps s0 s) : ∀ a1 a2 a3 a4 a5, Keeps s0 (beginRange a1 a2 a3 a4 a5 s) := by
  intro a1 a2 a3 a4 a5
  unfold beginRange
  repeat' first
    | with_reducible assumption
    | with_reducible apply contribution_keeps
    | with_reducible apply updLayer_keeps
    | with_reducible apply count_keeps

theorem beginRings_keeps {s0 s : State} (h : Keeps s0 s) : ∀ a1 a2, Keeps s0 (beginRings a1 a2 s) := by
  intro a1 a2
  unfold beginRings
  repeat' first
    | with_reducible assumption
    | with_reducible apply updLayer_keeps
    | with_reducible apply densePump_keeps
    | with_reducible apply beginRange_keeps
    | with_reducible apply ownWhole_keeps
    | with_reducible apply grantBoth_keeps
    | with_reducible apply Keeps.foldl
    | with_reducible refine Keeps.ite ?_ ?_
    | split
    | intro _

theorem execDenseStepStart_keeps {s0 s : State} (h : Keeps s0 s) : ∀ a1 a2, OutKeeps s0 (execDenseStepStart a1 a2 s) := by
  intro a1 a2
  unfold execDenseStepStart
  repeat' first
    | with_reducible assumption
    | with_reducible apply whenP_keeps
    | with_reducible apply updLayer_keeps
    | with_reducible apply beginRings_keeps
    | with_reducible apply preparePass_keeps
    | with_reducible apply reductionAsk_keeps
    | with_reducible apply OutKeeps.next
    | ((with_reducible apply Keeps.mk') <;> first | with_reducible assumption | with_reducible apply whenP_keeps | with_reducible apply updLayer_keeps | with_reducible apply beginRings_keeps | with_reducible apply preparePass_keeps | with_reducible apply reductionAsk_keeps | with_reducible apply OutKeeps.next | with_reducible exact OutKeeps.fault | with_reducible exact Nat.le_refl _ | with_reducible exact fun m => ⟨m.host, m.intake, m.fabric, m.nvm, m.sram, m.stk, m.owned, m.log, m.tiles, m.loc, m.saved⟩)
    | split
    | intro _
    | dsimp only

theorem execCollectiveStall_keeps {s0 s : State} (h : Keeps s0 s) : ∀ a1 a2, OutKeeps s0 (execCollectiveStall a1 a2 s) := by
  intro a1 a2
  unfold execCollectiveStall
  repeat' first
    | with_reducible assumption
    | with_reducible apply updLayer_keeps
    | with_reducible apply when_keeps
    | with_reducible apply fault_keeps
    | with_reducible apply dtrErr_keeps
    | with_reducible apply raiseInt_keeps
    | with_reducible apply OutKeeps.next
    | split
    | dsimp only

theorem segFetch_keeps {s0 s : State} (h : Keeps s0 s) : ∀ a1 a2 a3 a4, Keeps s0 (segFetch a1 a2 a3 a4 s) := by
  intro a1 a2 a3 a4
  unfold segFetch
  repeat' first
    | with_reducible assumption
    | with_reducible apply sendRank_keeps
    | with_reducible apply updLayer_keeps
    | with_reducible apply reductionAsk_keeps
    | with_reducible apply count_keeps
    | split
    | dsimp only

theorem segHere_keeps {s0 s : State} (h : Keeps s0 s) : ∀ a1 a2 a3 a4 a5 a6 a7, Keeps s0 (segHere a1 a2 a3 a4 a5 a6 a7 s) := by
  intro a1 a2 a3 a4 a5 a6 a7
  unfold segHere
  repeat' first
    | with_reducible assumption
    | with_reducible apply dtrAccess_keeps
    | with_reducible apply updLayer_keeps
    | with_reducible apply rangeWrite_keeps
    | (with_reducible refine Keeps.wrOk (by assumption) ?_)
    | (with_reducible refine Keeps.wrUn (by assumption) ?_)
    | split

theorem ownSegment_keeps {s0 s : State} (h : Keeps s0 s) : ∀ a1 a2 a3, Keeps s0 (ownSegment a1 a2 a3 s) := by
  intro a1 a2 a3
  unfold ownSegment
  repeat' first
    | with_reducible assumption
    | with_reducible apply dtrAccess_keeps
    | with_reducible apply segHere_keeps
    | with_reducible apply updLayer_keeps
    | with_reducible apply rangeRead_keeps
    | (with_reducible refine Keeps.rdOk (by assumption) ?_)
    | (with_reducible refine Keeps.rdUn (by assumption) ?_)
    | with_reducible refine Keeps.ite ?_ ?_
    | split
    | dsimp only

theorem finishPiece_keeps {s0 s : State} (h : Keeps s0 s) : ∀ a1 a2 a3 a4 a5, Keeps s0 (finishPiece a1 a2 a3 a4 a5 s) := by
  intro a1 a2 a3 a4 a5
  unfold finishPiece
  repeat' first
    | with_reducible assumption
    | with_reducible apply dtrAccess_keeps
    | with_reducible apply ownSegment_keeps
    | with_reducible apply updLayer_keeps
    | with_reducible apply rangeWrite_keeps
    | with_reducible apply dlxWriteBack_keeps
    | with_reducible apply Keeps.foldl
    | (with_reducible refine Keeps.wrOk (by assumption) ?_)
    | (with_reducible refine Keeps.wrUn (by assumption) ?_)
    | with_reducible refine Keeps.ite ?_ ?_
    | split
    | intro _

theorem segMismatch_keeps {s0 s : State} (h : Keeps s0 s) : ∀ a1 a2 a3 a4, Keeps s0 (segMismatch a1 a2 a3 a4 s) := by
  intro a1 a2 a3 a4
  unfold segMismatch
  repeat' first
    | with_reducible assumption
    | with_reducible apply segFetch_keeps
    | with_reducible apply fault_keeps
    | with_reducible apply count_keeps
    | with_reducible apply raiseInt_keeps
    | split

theorem digCheck_keeps {s0 s : State} (h : Keeps s0 s) : ∀ a1, Keeps s0 (digCheck a1 s) := by
  intro a1
  unfold digCheck
  repeat' first
    | with_reducible assumption
    | with_reducible apply replicaMismatch_keeps
    | with_reducible apply segMismatch_keeps
    | with_reducible apply rangeRead_keeps
    | (with_reducible refine Keeps.rdOk (by assumption) ?_)
    | (with_reducible refine Keeps.rdUn (by assumption) ?_)
    | with_reducible refine Keeps.ite ?_ ?_
    | split

theorem execSegFetchTimeout_keeps {s0 s : State} (h : Keeps s0 s) : ∀ a1 a2 a3 a4, OutKeeps s0 (execSegFetchTimeout a1 a2 a3 a4 s) := by
  intro a1 a2 a3 a4
  unfold execSegFetchTimeout
  repeat' first
    | with_reducible assumption
    | with_reducible apply whenP_keeps
    | with_reducible apply segFetch_keeps
    | with_reducible apply OutKeeps.next
    | split
    | intro _
    | dsimp only

theorem countMark_keeps {s0 s : State} (h : Keeps s0 s) : ∀ a1 a2, Keeps s0 (countMark a1 a2 s) := by
  intro a1 a2
  unfold countMark
  repeat' first
    | with_reducible assumption
    | with_reducible apply updLayer_keeps
    | with_reducible apply dtrErr_keeps
    | with_reducible apply raiseInt_keeps
    | ((with_reducible apply Keeps.mk') <;> first | with_reducible assumption | with_reducible apply updLayer_keeps | with_reducible apply dtrErr_keeps | with_reducible apply raiseInt_keeps | with_reducible exact Nat.le_refl _ | with_reducible exact fun m => ⟨m.host, m.intake, m.fabric, m.nvm, m.sram, m.stk, m.owned, m.log, m.tiles, m.loc, m.saved⟩)
    | with_reducible refine Keeps.ite ?_ ?_
    | split

theorem execLmarkDelivered_keeps {s0 s : State} (h : Keeps s0 s) : ∀ a1 a2, OutKeeps s0 (execLmarkDelivered a1 a2 s) := by
  intro a1 a2
  unfold execLmarkDelivered
  repeat' first
    | with_reducible assumption
    | with_reducible apply updTile_keeps
    | with_reducible apply countMark_keeps
    | with_reducible apply when_keeps
    | with_reducible apply OutKeeps.next
    | ((with_reducible apply Tile.Ok.mk') <;> first | with_reducible assumption | with_reducible apply Tile.setOwned_ok | with_reducible apply Tile.evict_ok | with_reducible apply Tile.setSeq_ok | with_reducible apply Tile.write_ok )
    | split
    | intro _
    | dsimp only

theorem loadArea_keeps {s0 s : State} (h : Keeps s0 s) : ∀ a1 a2 a3 a4 a5 a6, Keeps s0 (loadArea a1 a2 a3 a4 a5 a6 s).2 := by
  intro a1 a2 a3 a4 a5 a6
  unfold loadArea
  repeat' first
    | with_reducible assumption
    | with_reducible apply dtrAccess_keeps
    | with_reducible apply stageWrite_keeps
    | with_reducible apply votePoison_keeps
    | with_reducible apply rangeRead_keeps
    | (with_reducible refine Keeps.rdOk (by assumption) ?_)
    | (with_reducible refine Keeps.rdUn (by assumption) ?_)
    | split

theorem loadPiece_keeps {s0 s : State} (h : Keeps s0 s) : ∀ a1 a2 a3 a4, Keeps s0 (loadPiece a1 a2 a3 a4 s).2 := by
  intro a1 a2 a3 a4
  unfold loadPiece
  repeat' first
    | with_reducible assumption
    | with_reducible apply loadArea_keeps
    | split
    | dsimp only

theorem execSegFetch_keeps {s0 s : State} (h : Keeps s0 s) : ∀ a1, OutKeeps s0 (execSegFetch a1 s) := by
  intro a1
  unfold execSegFetch
  repeat' first
    | with_reducible assumption
    | with_reducible apply dtrAccess_keeps
    | with_reducible apply sendRank_keeps
    | with_reducible apply badMsg_keeps
    | with_reducible apply reductionAsk_keeps
    | with_reducible apply receive_keeps
    | with_reducible apply rangeRead_keeps
    | (with_reducible refine Keeps.rdOk (by assumption) ?_)
    | (with_reducible refine Keeps.rdUn (by assumption) ?_)
    | with_reducible refine Keeps.ite ?_ ?_
    | split
    | intro _
    | dsimp only

theorem storeArea_keeps {s0 s : State} (h : Keeps s0 s) : ∀ a1 a2 a3 a4 a5 a6, Keeps s0 (storeArea a1 a2 a3 a4 a5 a6 s) := by
  intro a1 a2 a3 a4 a5 a6
  unfold storeArea
  repeat' first
    | with_reducible assumption
    | with_reducible apply dtrAccess_keeps
    | with_reducible apply rangeWrite_keeps
    | (with_reducible refine Keeps.wrOk (by assumption) ?_)
    | (with_reducible refine Keeps.wrUn (by assumption) ?_)
    | split

theorem storePiece_keeps {s0 s : State} (h : Keeps s0 s) : ∀ a1 a2 a3 a4 a5, Keeps s0 (storePiece a1 a2 a3 a4 a5 s) := by
  intro a1 a2 a3 a4 a5
  unfold storePiece
  repeat' first
    | with_reducible assumption
    | with_reducible apply dtrNstat_keeps
    | with_reducible apply storeArea_keeps
    | with_reducible apply loadArea_keeps
    | with_reducible apply addDeltas_keeps
    | with_reducible refine Keeps.ite ?_ ?_

theorem workPiece_keeps {s0 s : State} (h : Keeps s0 s) : ∀ a1 a2 a3 a4, Keeps s0 (workPiece a1 a2 a3 a4 s).2 := by
  intro j x L wb
  unfold workPiece
  extract_lets d t n
  clear_value d t n
  split
  · exact h
  · split
    · exact h
    · generalize workPiece.deriveRowOn .. = p
      obtain ⟨w, st, job1⟩ := p
      exact dtrNstat_keeps (by exact h.mk' (Nat.le_refl _) fun m => ⟨m.host, m.intake, m.fabric, m.nvm, m.sram, m.stk, m.owned, m.log, m.tiles, m.loc, m.saved⟩) _

theorem runPiece_keeps {s0 s : State} (h : Keeps s0 s) : ∀ a1 a2 a3 a4, Keeps s0 (runPiece a1 a2 a3 a4 s) := by
  intro j l x L
  unfold runPiece
  extract_lets d s'
  have h1 : Keeps s0 s' := ledgerReturn_keeps h _
  clear_value s' d
  have h2 := loadPiece_keeps h1 j l x L
  generalize loadPiece j l x L s' = p at h2 ⊢
  split
  · exact skipStep_keeps h2 _ _
  · next s1 =>
    have h3 := readProgram_keeps h2 j (dlUprog d)
    generalize readProgram j (dlUprog d) _ = p at h3 ⊢
    split
    · exact skipStep_keeps (dtrAccess_keeps h3 _ _) _ _
    · next s2 =>
      extract_lets b
      have h4 : Keeps s0 (runProgram (dlUtile d) j b s2).2.2 := runProgram_keeps (by exact h3) _ _ _
      clear_value b
      generalize runProgram (dlUtile d) j b s2 = p at h4 ⊢
      split
      · exact skipStep_keeps (updLayer_keeps h4 _ _ _) _ _
      · next ns s3 =>
        extract_lets s4
        have h5 : Keeps s0 s4 := storePiece_keeps (dtrNstat_keeps (by exact h4) _) _ _ _ _ _
        clear_value s4
        have h6 := workPiece_keeps h5 j x L
        split
        next w s5 e =>
        have h7 : Keeps s0 s5 := Keeps.snd e (h6 _)
        clear e
        extract_lets s6
        have h8 : Keeps s0 s6 := finishPiece_keeps h7 _ _ _ _ _
        clear_value s6
        split
        · exact Keeps.ite (skipStep_keeps h8 _ _) (checkReady_keeps (densePump_keeps (reductionAsk_keeps h8 _) _ _) _ _)
        · exact h8

theorem beginPiece_keeps {s0 s : State} (h : Keeps s0 s) : ∀ a1 a2 a3 a4, Keeps s0 (beginPiece a1 a2 a3 a4 s) := by
  intro a1 a2 a3 a4
  unfold beginPiece
  repeat' first
    | with_reducible assumption
    | with_reducible apply freeVal_keeps
    | with_reducible apply updLayer_keeps
    | with_reducible apply runPiece_keeps
    | with_reducible refine Keeps.ite ?_ ?_

theorem execDensePieceAdmit_keeps {s0 s : State} (h : Keeps s0 s) : ∀ a1 a2, OutKeeps s0 (execDensePieceAdmit a1 a2 s) := by
  intro a1 a2
  unfold execDensePieceAdmit
  repeat' first
    | with_reducible assumption
    | with_reducible apply reserve_keeps
    | with_reducible apply when_keeps
    | with_reducible apply powered_keeps
    | with_reducible apply beginPiece_keeps
    | with_reducible apply unpark_keeps
    | with_reducible apply OutKeeps.next
    | with_reducible refine Keeps.ite ?_ ?_
    | split
    | intro _
    | dsimp only

theorem execDenseCreate_keeps {s0 s : State} (h : Keeps s0 s) : ∀ a1, OutKeeps s0 (execDenseCreate a1 s) := by
  intro a1
  unfold execDenseCreate
  repeat' first
    | with_reducible assumption
    | with_reducible apply runJobNow_keeps
    | ((with_reducible apply Keeps.mk') <;> first | with_reducible assumption | with_reducible apply runJobNow_keeps | with_reducible apply OutKeeps.next | with_reducible exact OutKeeps.fault | with_reducible exact Nat.le_refl _ | with_reducible exact fun m => ⟨m.host, m.intake, m.fabric, m.nvm, m.sram, m.stk, m.owned, m.log, m.tiles, m.loc, m.saved⟩)
    | split
    | intro _
    | dsimp only

theorem digJob_keeps {s0 s : State} (h : Keeps s0 s) : ∀ a1 a2 a3, Keeps s0 (digJob a1 a2 a3 s) := by
  intro a1 a2 a3
  unfold digJob
  repeat' first
    | with_reducible assumption
    | with_reducible apply digCheck_keeps
    | with_reducible apply count_keeps
    | with_reducible apply Keeps.foldl
    | ((with_reducible apply Keeps.mk') <;> first | with_reducible assumption | with_reducible apply digCheck_keeps | with_reducible apply count_keeps | with_reducible apply Keeps.foldl | (with_reducible refine Keeps.snd (by assumption) ?_) | (with_reducible refine Keeps.snd2 (by assumption) ?_) | with_reducible exact Nat.le_refl _ | with_reducible exact fun m => ⟨m.host, m.intake, m.fabric, m.nvm, m.sram, m.stk, m.owned, m.log, m.tiles, m.loc, m.saved⟩)
    | intro _

theorem digestCycle_keeps {s0 s : State} (h : Keeps s0 s) : Keeps s0 (digestCycle s) := by
  unfold digestCycle
  repeat' first
    | with_reducible assumption
    | with_reducible apply digJob_keeps
    | with_reducible apply powered_keeps
    | with_reducible apply ledgerReturn_keeps
    | with_reducible apply Keeps.foldl
    | ((with_reducible apply Keeps.mk') <;> first | with_reducible assumption | with_reducible apply digJob_keeps | with_reducible apply powered_keeps | with_reducible apply ledgerReturn_keeps | with_reducible apply Keeps.foldl | with_reducible apply Keeps.foldl2 | with_reducible apply Keeps.foldl3 | (with_reducible refine Keeps.snd (by assumption) ?_) | (with_reducible refine Keeps.snd2 (by assumption) ?_) | with_reducible exact Nat.le_refl _ | with_reducible exact fun m => ⟨m.host, m.intake, m.fabric, m.nvm, m.sram, m.stk, m.owned, m.log, m.tiles, m.loc, m.saved⟩)
    | with_reducible refine Keeps.ite ?_ ?_
    | intro _

theorem digestSample_keeps {s0 s : State} (h : Keeps s0 s) : Keeps s0 (digestSample s) := by
  unfold digestSample
  repeat' first
    | with_reducible apply digestCycle_keeps
    | with_reducible apply reserve_keeps
    | ((with_reducible apply Keeps.mk') <;> first | with_reducible assumption | with_reducible apply digestCycle_keeps | with_reducible apply reserve_keeps | with_reducible exact Nat.le_refl _ | with_reducible exact fun m => ⟨m.host, m.intake, m.fabric, m.nvm, m.sram, m.stk, m.owned, m.log, m.tiles, m.loc, m.saved⟩)

theorem dropDenseJob_keeps {s0 s : State} (h : Keeps s0 s) : ∀ a1, Keeps s0 (dropDenseJob a1 s) := by
  intro a1
  unfold dropDenseJob
  repeat' first
    | ((with_reducible apply Keeps.mk') <;> first | with_reducible assumption | with_reducible exact Nat.le_refl _ | with_reducible exact fun m => ⟨m.host, m.intake, m.fabric, m.nvm, m.sram, m.stk, m.owned, m.log, m.tiles, m.loc, m.saved⟩)

theorem execAgData_keeps {s0 s : State} (h : Keeps s0 s) : ∀ a1, OutKeeps s0 (execAgData a1 s) := by
  intro a1
  unfold execAgData
  repeat' first
    | with_reducible assumption
    | with_reducible apply dtrAccess_keeps
    | with_reducible apply segHere_keeps
    | with_reducible apply updLayer_keeps
    | with_reducible apply rangeWrite_keeps
    | with_reducible apply segMismatch_keeps
    | with_reducible apply densePump_keeps
    | with_reducible apply badMsg_keeps
    | with_reducible apply checkReady_keeps
    | with_reducible apply reductionAsk_keeps
    | with_reducible apply receive_keeps
    | (with_reducible refine Keeps.wrOk (by assumption) ?_)
    | (with_reducible refine Keeps.wrUn (by assumption) ?_)
    | with_reducible refine Keeps.ite ?_ ?_
    | split
    | intro _
    | dsimp only

theorem forcePieces_keeps {s0 s : State} (h : Keeps s0 s) : Keeps s0 (forcePieces s) := by
  unfold forcePieces
  repeat' first
    | with_reducible assumption
    | with_reducible apply ledgerReturn_keeps
    | with_reducible apply raiseInt_keeps
    | with_reducible apply Keeps.foldl
    | split
    | intro _

end Sys2Proof.Machine
end

