-- ==== Sys2Proof/Laws/KeepsControl.lean ====
section
/-! SUPPORT. One lemma per function of the exporter, admission and power: it keeps what `Keeps` names. -/

namespace Sys2Proof.Machine

theorem askLog_keeps {s0 s : State} (h : Keeps s0 s) : ∀ a1 a2, Keeps s0 (askLog a1 a2 s) := by
  intro a1 a2
  unfold askLog
  repeat' first
    | with_reducible assumption
    | with_reducible apply sendRank_keeps
    | with_reducible apply Keeps.foldl
    | ((with_reducible apply Keeps.mk') <;> first | with_reducible assumption | with_reducible apply sendRank_keeps | with_reducible apply Keeps.foldl | with_reducible apply Keeps.foldl2 | with_reducible apply Keeps.foldl3 | (with_reducible refine Keeps.snd (by assumption) ?_) | (with_reducible refine Keeps.snd2 (by assumption) ?_) | with_reducible exact Nat.le_refl _ | with_reducible exact fun m => ⟨m.host, m.intake, m.fabric, m.nvm, m.sram, m.stk, m.owned, m.log, m.tiles, m.loc, m.saved⟩)
    | intro _

theorem endRestore_keeps {s0 s : State} (h : Keeps s0 s) : ∀ a1 a2 a3, Keeps s0 (endRestore a1 a2 a3 s) := by
  intro a1 a2 a3
  unfold endRestore
  apply endCid_keeps
  have h1 : Keeps s0 (ledgerReturn .restorer (ledgerDrop .restorer s)) := ledgerReturn_keeps (ledgerDrop_keeps h _) _
  exact h1.mk' (Nat.le_refl _) fun m => ⟨m.host, m.intake, m.fabric, m.nvm, m.sram, m.stk, m.owned, (fun _ e => by cases e), m.tiles, m.loc, m.saved⟩

theorem restNstat_keeps {s0 s : State} (h : Keeps s0 s) : ∀ a1, Keeps s0 (restNstat a1 s) := by
  intro a1
  unfold restNstat
  repeat' first
    | with_reducible assumption
    | with_reducible apply orNstat_keeps
    | split

theorem applyStep_keeps {s0 s : State} (h : Keeps s0 s) : ∀ a1 a2, Keeps s0 (applyStep a1 a2 s) := by
  intro a1 a2
  unfold applyStep
  repeat' first
    | with_reducible assumption
    | with_reducible apply updTable_keeps
    | with_reducible apply updLayer_keeps
    | with_reducible apply dlxProgress_keeps
    | with_reducible refine Keeps.ite ?_ ?_
    | split
    | dsimp only

theorem exchangeLayer_keeps {s0 s : State} (h : Keeps s0 s) : ∀ a1 a2, Keeps s0 (exchangeLayer a1 a2 s) := by
  intro a1 a2
  unfold exchangeLayer
  repeat' first
    | with_reducible assumption
    | with_reducible apply segHere_keeps
    | with_reducible apply segFetch_keeps
    | with_reducible apply sendRank_keeps
    | with_reducible apply rangeRead_keeps
    | with_reducible apply Keeps.foldl
    | (with_reducible refine Keeps.rdOk (by assumption) ?_)
    | (with_reducible refine Keeps.rdUn (by assumption) ?_)
    | split
    | intro _

theorem deriveItem_keeps {s0 s : State} (h : Keeps s0 s) : ∀ a1 a2, Keeps s0 (deriveItem a1 a2 s) := by
  intro a1 a2
  unfold deriveItem
  repeat' first
    | with_reducible assumption
    | with_reducible apply lkpNstat_keeps
    | with_reducible apply rangeWrite_keeps
    | with_reducible apply dtrNstat_keeps
    | with_reducible apply cacheWrite_keeps
    | with_reducible apply restNstat_keeps
    | ((with_reducible apply Keeps.mk') <;> first | with_reducible assumption | with_reducible apply lkpNstat_keeps | with_reducible apply rangeWrite_keeps | with_reducible apply dtrNstat_keeps | with_reducible apply cacheWrite_keeps | with_reducible apply restNstat_keeps | (with_reducible refine Keeps.wrOk (by assumption) ?_) | (with_reducible refine Keeps.wrUn (by assumption) ?_) | with_reducible exact Nat.le_refl _ | with_reducible exact fun m => ⟨m.host, m.intake, m.fabric, m.nvm, m.sram, m.stk, m.owned, m.log, m.tiles, m.loc, m.saved⟩)
    | with_reducible refine Keeps.ite ?_ ?_
    | split

theorem putItem_keeps {s0 s : State} (h : Keeps s0 s) : ∀ a1 a2, Keeps s0 (putItem a1 a2 s) := by
  intro a1 a2
  unfold putItem
  repeat' first
    | with_reducible assumption
    | with_reducible apply rangeWrite_keeps
    | with_reducible refine Keeps.ite ?_ ?_
    | split

theorem applyLog_keeps {s0 s : State} (h : Keeps s0 s) : ∀ a1 a2 a3 a4, Keeps s0 (applyLog a1 a2 a3 a4 s) := by
  intro a1 a2 a3 a4
  unfold applyLog
  repeat' first
    | with_reducible assumption
    | with_reducible apply exchangeLayer_keeps
    | with_reducible apply applyStep_keeps
    | with_reducible apply putItem_keeps
    | with_reducible apply deriveItem_keeps
    | with_reducible apply Keeps.foldl
    | ((with_reducible apply Keeps.mk') <;> first | with_reducible assumption | with_reducible apply exchangeLayer_keeps | with_reducible apply applyStep_keeps | with_reducible apply putItem_keeps | with_reducible apply deriveItem_keeps | with_reducible apply Keeps.foldl | (with_reducible refine Keeps.snd (by assumption) ?_) | (with_reducible refine Keeps.snd2 (by assumption) ?_) | with_reducible exact Nat.le_refl _ | with_reducible exact fun m => ⟨m.host, m.intake, m.fabric, m.nvm, m.sram, m.stk, m.owned, m.log, m.tiles, m.loc, m.saved⟩)
    | with_reducible refine Keeps.ite ?_ ?_
    | split
    | intro _

theorem runRestore_keeps {s0 s : State} (h : Keeps s0 s) : ∀ a1 a2, Keeps s0 (runRestore a1 a2 s) := by
  intro a1 a2
  unfold runRestore
  repeat' first
    | with_reducible assumption
    | with_reducible apply endRestore_keeps
    | with_reducible apply applyLog_keeps
    | split
    | dsimp only

theorem restorePump_keeps {s0 s : State} (h : Keeps s0 s) : Keeps s0 (restorePump s) := by
  unfold restorePump
  split
  · exact h
  · next r er =>
    have hlog : s0.MemsOk → Mem.wf r.log 0 = true := fun m0 => (h.mems m0).log r er
    have h1 := reserve_keeps h .restorer 1 (restoreDraw s)
    generalize reserve .restorer 1 (restoreDraw s) s = s1 at h1 ⊢
    dsimp only
    split
    · exact h1
    · split
      · split
        · exact endRestore_keeps h1 _ _ _
        · exact powered_keeps h1 _ fun s hs => runRestore_keeps hs _ _
      · split
        · refine askLog_keeps ?_ _ _
          exact ⟨h1.pending, h1.now, fun m0 => have m := h1.mems m0; ⟨m.host, m.intake, m.fabric, m.nvm, m.sram, m.stk, m.owned, (fun r2 e => by cases e; exact hlog m0), m.tiles, m.loc, m.saved⟩⟩
        · split
          · exact powered_keeps h1 _ fun s hs => runRestore_keeps hs _ _
          · exact h1

theorem restoreStart_keeps {s0 s : State} (h : Keeps s0 s) : ∀ a1 a2, Keeps s0 (restoreStart a1 a2 s) := by
  intro q c
  unfold restoreStart
  split
  · exact h
  · dsimp only
    apply restorePump_keeps
    have h1 := updJob_keeps h c.job (fun x => { x with resumeFrame := s.clk.fnum, gens := [] })
    generalize updJob c.job (fun x => { x with resumeFrame := s.clk.fnum, gens := [] }) s = s1 at h1 ⊢
    have hp : ∀ r : Restore, r.log = [] → Keeps s0 { s1 with dlx := { s1.dlx with restore := some r } } :=
      fun r hr => h1.mk' (Nat.le_refl _) fun m => ⟨m.host, m.intake, m.fabric, m.nvm, m.sram, m.stk, m.owned, (fun r2 e => by cases e; rw [hr]; rfl), m.tiles, m.loc, m.saved⟩
    exact hp _ rfl

theorem restoreNext_keeps {s0 s : State} (h : Keeps s0 s) : Keeps s0 (restoreNext s) := by
  unfold restoreNext
  repeat' first
    | with_reducible assumption
    | with_reducible apply restoreStart_keeps
    | with_reducible apply Keeps.foldl
    | split
    | intro _

theorem execKeepRegion_keeps {s0 s : State} (h : Keeps s0 s) : ∀ a1, OutKeeps s0 (execKeepRegion a1 s) := by
  intro a1
  unfold execKeepRegion
  repeat' first
    | with_reducible assumption
    | with_reducible apply runJobNow_keeps
    | ((with_reducible apply Keeps.mk') <;> first | with_reducible assumption | with_reducible apply runJobNow_keeps | with_reducible apply OutKeeps.next | with_reducible exact OutKeeps.fault | with_reducible exact Nat.le_refl _ | with_reducible exact fun m => ⟨m.host, m.intake, m.fabric, m.nvm, m.sram, m.stk, m.owned, m.log, m.tiles, m.loc, m.saved⟩)
    | split
    | intro _
    | dsimp only

theorem dlxJob_keeps {s0 s : State} (h : Keeps s0 s) : ∀ a1 a2, Keeps s0 (dlxJob a1 a2 s) := by
  intro a1 a2
  unfold dlxJob
  repeat' first
    | ((with_reducible apply Keeps.mk') <;> first | with_reducible assumption | with_reducible exact Nat.le_refl _ | with_reducible exact fun m => ⟨m.host, m.intake, m.fabric, m.nvm, m.sram, m.stk, m.owned, m.log, m.tiles, m.loc, m.saved⟩)

theorem execExportBase_keeps {s0 s : State} (h : Keeps s0 s) : ∀ a1, OutKeeps s0 (execExportBase a1 s) := by
  intro a1
  unfold execExportBase
  repeat' first
    | with_reducible assumption
    | with_reducible apply endHead_keeps
    | with_reducible apply runJob_keeps
    | with_reducible apply dlxJob_keeps
    | split
    | intro _

theorem loseKeeper_keeps {s0 s : State} (h : Keeps s0 s) : ∀ a1 a2 a3, Keeps s0 (loseKeeper a1 a2 a3 s) := by
  intro a1 a2 a3
  unfold loseKeeper
  repeat' first
    | with_reducible assumption
    | with_reducible apply updKeeper_keeps
    | with_reducible apply fault_keeps
    | with_reducible apply raiseInt_keeps
    | with_reducible refine Keeps.ite ?_ ?_
    | split

theorem execRestore_keeps {s0 s : State} (h : Keeps s0 s) : ∀ a1, OutKeeps s0 (execRestore a1 s) := by
  intro a1
  unfold execRestore
  repeat' first
    | with_reducible assumption
    | with_reducible apply endHead_keeps
    | with_reducible apply restoreStart_keeps
    | with_reducible apply runJob_keeps
    | with_reducible refine Keeps.ite ?_ ?_
    | split
    | intro _

theorem startBase_keeps {s0 s : State} (h : Keeps s0 s) : ∀ a1 a2, Keeps s0 (startBase a1 a2 s) := by
  intro a1 a2
  unfold startBase
  repeat' first
    | with_reducible assumption
    | with_reducible apply updDlx_keeps
    | with_reducible apply endCid_keeps
    | with_reducible apply Keeps.foldl
    | split
    | intro _

theorem keepEntry_keeps {s0 s : State} (h : Keeps s0 s) : ∀ a1 a2 a3, Keeps s0 (keepEntry a1 a2 a3 s).2 := by
  intro a1 a2 a3
  unfold keepEntry
  repeat' first
    | with_reducible assumption
    | with_reducible apply ringWrite_keeps
    | (with_reducible refine Keeps.wrOk (by assumption) ?_)
    | (with_reducible refine Keeps.wrUn (by assumption) ?_)
    | split
    | dsimp only

theorem updRegion_keeps {s0 s : State} (h : Keeps s0 s) : ∀ a1 a2 a3, Keeps s0 (updRegion a1 a2 a3 s) := by
  intro a1 a2 a3
  unfold updRegion
  repeat' first
    | ((with_reducible apply Keeps.mk') <;> first | with_reducible assumption | with_reducible exact Nat.le_refl _ | with_reducible exact fun m => ⟨m.host, m.intake, m.fabric, m.nvm, m.sram, m.stk, m.owned, m.log, m.tiles, m.loc, m.saved⟩)

theorem execDlxRec_keeps {s0 s : State} (h : Keeps s0 s) : ∀ a1, OutKeeps s0 (execDlxRec a1 s) := by
  intro a1
  unfold execDlxRec
  repeat' first
    | with_reducible assumption
    | with_reducible apply keepEntry_keeps
    | with_reducible apply updRegion_keeps
    | with_reducible apply receive_keeps
    | (with_reducible refine Keeps.snd (by assumption) ?_)
    | split
    | intro _

theorem moveCloses_keeps {s0 s : State} (h : Keeps s0 s) : ∀ a1 a2 a3, Keeps s0 (moveCloses a1 a2 a3 s) := by
  intro a1 a2 a3
  unfold moveCloses
  repeat' first
    | with_reducible assumption
    | with_reducible apply updTable_keeps
    | with_reducible apply settleTable_keeps
    | with_reducible refine Keeps.ite ?_ ?_
    | split

theorem moveLayer_keeps {s0 s : State} (h : Keeps s0 s) : ∀ a1 a2, Keeps s0 (moveLayer a1 a2 s) := by
  intro a1 a2
  unfold moveLayer
  repeat' first
    | with_reducible assumption
    | with_reducible apply updLayer_keeps
    | with_reducible apply skipStep_keeps
    | with_reducible apply readyLayer_keeps
    | with_reducible refine Keeps.ite ?_ ?_
    | split

theorem landPart_keeps {s0 s : State} (h : Keeps s0 s) : ∀ a1 a2 a3 a4, Keeps s0 (landPart a1 a2 a3 a4 s) := by
  intro a1 a2 a3 a4
  unfold landPart
  repeat' first
    | with_reducible assumption
    | with_reducible apply updTile_keeps
    | with_reducible apply Tile.write_ok
    | with_reducible refine foldl_ind (P := Tile.Ok) ?_ ?_
    | intro _

theorem exportPoison_keeps {s0 s : State} (h : Keeps s0 s) : ∀ a1 a2 a3 a4, Keeps s0 (exportPoison a1 a2 a3 a4 s) := by
  intro a1 a2 a3 a4
  unfold exportPoison
  repeat' first
    | with_reducible assumption
    | with_reducible apply fault_keeps

theorem rowsBody_keeps {s0 s : State} (h : Keeps s0 s) : ∀ a1 a2 a3 a4 a5, Keeps s0 (rowsBody a1 a2 a3 a4 a5 s).2 := by
  intro a1 a2 a3 a4 a5
  unfold rowsBody
  repeat' first
    | with_reducible assumption
    | with_reducible apply exportPoison_keeps
    | with_reducible apply rangeRead_keeps
    | with_reducible apply Keeps.foldl2
    | (with_reducible refine Keeps.rdOk (by assumption) ?_)
    | (with_reducible refine Keeps.rdUn (by assumption) ?_)
    | with_reducible refine Keeps.ite ?_ ?_
    | split
    | intro _
    | dsimp only

theorem sweepMsg_keeps {s0 s : State} (h : Keeps s0 s) : ∀ a1 a2 a3 a4 a5 a6 a7, Keeps s0 (sweepMsg a1 a2 a3 a4 a5 a6 a7 s) := by
  intro a1 a2 a3 a4 a5 a6 a7
  unfold sweepMsg
  repeat' first
    | with_reducible assumption
    | with_reducible apply dlxRec_keeps

theorem sweepTable_keeps {s0 s : State} (h : Keeps s0 s) : ∀ a1 a2 a3 a4 p, sweepTable a1 a2 a3 a4 s = some p → Keeps s0 p.2.2 := by
  intro j tid from_ left p e
  unfold sweepTable at e
  split at e
  · dsimp only at e
    split at e
    · cases e
    · cases e
      refine Keeps.foldl2 h fun a x ha => ?_
      split
      · exact ha
      · exact sweepMsg_keeps (rowsBody_keeps ha _ _ _ _ _) _ _ _ _ _ _ _
  · cases e; exact h

theorem sweepLayer_keeps {s0 s : State} (h : Keeps s0 s) : ∀ a1 a2 a3 a4 p, sweepLayer a1 a2 a3 a4 s = some p → Keeps s0 p.2.2 := by
  intro j l idx left p e
  unfold sweepLayer at e
  split at e
  · cases e; exact h
  · split at e
    · cases e; exact h
    · dsimp -zeta only at e
      extract_lets d n off arrs at e
      clear_value arrs n off
      split at e
      · cases e
      · generalize hf : List.foldl _ _ arrs = y at e
        have hy : Keeps s0 y.2 := by
          rw [← hf]
          refine Keeps.foldl2 h fun a x ha => ?_
          split
          · next e => exact Keeps.rdUn e (rangeRead_keeps ha _ _ _)
          · next e => exact Keeps.ite (Keeps.rdOk e (rangeRead_keeps ha _ _ _)) (exportPoison_keeps (Keeps.rdOk e (rangeRead_keeps ha _ _ _)) _ _ _ _)
        clear hf
        cases e
        exact sweepMsg_keeps hy _ _ _ _ _ _ _

theorem sweepStep_keeps {s0 s : State} (h : Keeps s0 s) : ∀ a1, Keeps s0 (sweepStep a1 s) := by
  intro j
  unfold sweepStep
  split
  · exact h
  · split
    · exact h
    · refine Keeps.ite h ?_
      extract_lets goOn
      have hg : ∀ w n s, Keeps s0 s → Keeps s0 (goOn w n s) := fun w n s hs => updDlx_keeps hs _ _
      clear_value goOn
      split
      · split
        · next e => exact hg _ _ _ (sweepTable_keeps h _ _ _ _ _ e)
        · exact h
      · split
        · next e => exact hg _ _ _ (sweepLayer_keeps h _ _ _ _ _ e)
        · exact h
      · exact hg _ _ _ h

theorem sweepGo_keeps {s0 s : State} (h : Keeps s0 s) : ∀ a1 a2, Keeps s0 (sweepGo a1 a2 s) := by
  intro fuel j
  induction fuel generalizing s with
  | zero => exact h
  | succ n ih =>
    unfold sweepGo
    have h1 := powered_keeps h (sweepStep j) fun s hs => sweepStep_keeps hs j
    exact Keeps.ite h (Keeps.ite h1 (ih h1))

theorem partDone_keeps {s0 s : State} (h : Keeps s0 s) : ∀ a1 a2, Keeps s0 (partDone a1 a2 s) := by
  intro a1 a2
  unfold partDone
  repeat' first
    | ((with_reducible apply Keeps.mk') <;> first | with_reducible assumption | with_reducible exact Nat.le_refl _ | with_reducible exact fun m => ⟨m.host, m.intake, m.fabric, m.nvm, m.sram, m.stk, m.owned, m.log, m.tiles, m.loc, m.saved⟩)

theorem forgetFrame_keeps {s0 s : State} (h : Keeps s0 s) : ∀ a1 a2 a3 a4, Keeps s0 (forgetFrame a1 a2 a3 a4 s) := by
  intro a1 a2 a3 a4
  unfold forgetFrame
  repeat' first
    | with_reducible apply updRegion_keeps
    | ((with_reducible apply Keeps.mk') <;> first | with_reducible assumption | with_reducible apply updRegion_keeps | with_reducible exact Nat.le_refl _ | with_reducible exact fun m => ⟨m.host, m.intake, m.fabric, m.nvm, m.sram, m.stk, m.owned, m.log, m.tiles, m.loc, m.saved⟩)

theorem failedAnswer_keeps {s0 s : State} (h : Keeps s0 s) : ∀ a1 a2 a3, Keeps s0 (failedAnswer a1 a2 a3 s) := by
  intro a1 a2 a3
  unfold failedAnswer
  repeat' first
    | with_reducible assumption
    | with_reducible apply updKeeper_keeps
    | with_reducible apply dlxPump_keeps
    | with_reducible apply loseKeeper_keeps
    | with_reducible apply count_keeps
    | with_reducible apply raiseInt_keeps
    | with_reducible refine Keeps.ite ?_ ?_
    | split
    | dsimp only

theorem execKeeperTimeout_keeps {s0 s : State} (h : Keeps s0 s) : ∀ a1 a2, OutKeeps s0 (execKeeperTimeout a1 a2 s) := by
  intro a1 a2
  unfold execKeeperTimeout
  repeat' first
    | with_reducible assumption
    | with_reducible apply when_keeps
    | with_reducible apply loseKeeper_keeps
    | with_reducible apply OutKeeps.next
    | split

theorem execDlxClose_keeps {s0 s : State} (h : Keeps s0 s) : ∀ a1, OutKeeps s0 (execDlxClose a1 s) := by
  intro a1
  unfold execDlxClose
  repeat' first
    | with_reducible assumption
    | with_reducible apply forgetFrame_keeps
    | with_reducible apply keepEntry_keeps
    | with_reducible apply sendTo_keeps
    | with_reducible apply updRegion_keeps
    | with_reducible apply receive_keeps
    | (with_reducible refine Keeps.snd (by assumption) ?_)
    | with_reducible refine Keeps.ite ?_ ?_
    | split
    | intro _

theorem bulkAccess_keeps {s0 s : State} (h : Keeps s0 s) : ∀ a1 a2 a3, Keeps s0 (bulkAccess a1 a2 a3 s) := by
  intro a1 a2 a3
  unfold bulkAccess
  repeat' first
    | with_reducible assumption
    | with_reducible apply stopCommand_keeps
    | with_reducible apply tileAccess_keeps
    | ((with_reducible apply Keeps.mk') <;> first | with_reducible assumption | with_reducible apply stopCommand_keeps | with_reducible apply tileAccess_keeps | with_reducible exact Nat.le_refl _ | with_reducible exact fun m => ⟨m.host, m.intake, m.fabric, m.nvm, m.sram, m.stk, m.owned, m.log, m.tiles, m.loc, m.saved⟩)
    | with_reducible refine Keeps.ite ?_ ?_
    | split

theorem bulkAcked_keeps {s0 s : State} (h : Keeps s0 s) : ∀ a1 a2, Keeps s0 (bulkAcked a1 a2 s) := by
  intro a1 a2
  unfold bulkAcked
  repeat' first
    | with_reducible assumption
    | with_reducible apply protoAck_keeps

theorem execBulkAck_keeps {s0 s : State} (h : Keeps s0 s) : ∀ a1, OutKeeps s0 (execBulkAck a1 s) := by
  intro a1
  unfold execBulkAck
  repeat' first
    | with_reducible assumption
    | with_reducible apply partDone_keeps
    | with_reducible apply bulkAccess_keeps
    | with_reducible apply bulkAcked_keeps
    | with_reducible apply badMsg_keeps
    | with_reducible apply receive_keeps
    | split
    | intro _
    | dsimp only

theorem dropExportJob_keeps {s0 s : State} (h : Keeps s0 s) : ∀ a1, Keeps s0 (dropExportJob a1 s) := by
  intro a1
  unfold dropExportJob
  repeat' first
    | with_reducible apply ledgerDrop_keeps
    | ((with_reducible apply Keeps.mk') <;> first | with_reducible assumption | with_reducible apply ledgerReturn_keeps | with_reducible exact Nat.le_refl _ | with_reducible exact fun m => ⟨m.host, m.intake, m.fabric, m.nvm, m.sram, m.stk, m.owned, m.log, m.tiles, m.loc, m.saved⟩ | exact fun m => ⟨m.host, m.intake, m.fabric, m.nvm, m.sram, m.stk, m.owned, (fun _ e => by cases e), m.tiles, m.loc, m.saved⟩)
    | split

theorem execBulkRddata_keeps {s0 s : State} (h : Keeps s0 s) : ∀ a1, OutKeeps s0 (execBulkRddata a1 s) := by
  intro m
  unfold execBulkRddata
  apply receive_keeps h
  intro _ _ m s hs
  dsimp only
  split
  · exact badMsg_keeps hs
  · have h1 := partDone_keeps (bulkAcked_keeps hs 0x31 m) (bulkTag m) (bulkOffset m)
    generalize partDone (bulkTag m) (bulkOffset m) (bulkAcked 0x31 m s) = s1 at h1 ⊢
    split
    · split
      · exact h1
      · next b _ r er =>
        split
        · exact endRestore_keeps h1 _ _ _
        · have hp : ∀ a d, Keeps s0 { s1 with dlx := { s1.dlx with restore := some { r with log := Mem.sets r.log 0 a d } } } :=
            fun a d => ⟨h1.pending, h1.now, fun m0 => have m := h1.mems m0; ⟨m.host, m.intake, m.fabric, m.nvm, m.sram, m.stk, m.owned, (fun r2 e => by cases e; exact Mem.wf_sets _ _ _ _ (m.log r er)), m.tiles, m.loc, m.saved⟩⟩
          exact restorePump_keeps (hp _ _)
    · split
      · exact h1
      · split
        · exact bulkAccess_keeps h1 _ _ _
        · exact landPart_keeps h1 _ _ _ _

theorem moveSlots_keeps {s0 s : State} (h : Keeps s0 s) : ∀ a1 a2 a3, Keeps s0 (moveSlots a1 a2 a3 s) := by
  intro a1 a2 a3
  unfold moveSlots
  repeat' first
    | ((with_reducible apply Keeps.mk') <;> first | with_reducible assumption | with_reducible exact Nat.le_refl _ | with_reducible exact fun m => ⟨m.host, m.intake, m.fabric, m.nvm, m.sram, m.stk, m.owned, m.log, m.tiles, m.loc, m.saved⟩)

theorem execDlxKhead_keeps {s0 s : State} (h : Keeps s0 s) : ∀ a1 a2 a3, OutKeeps s0 (execDlxKhead a1 a2 a3 s) := by
  intro a1 a2 a3
  unfold execDlxKhead
  repeat' first
    | with_reducible assumption
    | with_reducible apply updKeeper_keeps
    | with_reducible apply when_keeps
    | with_reducible apply dlxPump_keeps
    | with_reducible refine Keeps.ite ?_ ?_
    | split

theorem setKeepers_keeps {s0 s : State} (h : Keeps s0 s) : ∀ a1 a2, Keeps s0 (setKeepers a1 a2 s) := by
  intro a1 a2
  unfold setKeepers
  repeat' first
    | with_reducible assumption
    | with_reducible apply updDlx_keeps
    | with_reducible apply endCid_keeps
    | with_reducible apply Keeps.foldl
    | split
    | intro _

theorem sweepCycle_keeps {s0 s : State} (h : Keeps s0 s) : Keeps s0 (sweepCycle s) := by
  unfold sweepCycle
  repeat' first
    | with_reducible assumption
    | with_reducible apply sweepGo_keeps
    | with_reducible apply Keeps.foldl
    | split
    | intro _

theorem exportTick_keeps {s0 s : State} (h : Keeps s0 s) : ∀ a1, Keeps s0 (exportTick a1 s) := by
  intro a1
  unfold exportTick
  repeat' first
    | with_reducible assumption
    | with_reducible apply sweepCycle_keeps
    | with_reducible apply startBase_keeps
    | with_reducible apply setKeepers_keeps
    | with_reducible apply Keeps.foldl
    | ((with_reducible apply Keeps.mk') <;> first | with_reducible assumption | with_reducible apply sweepCycle_keeps | with_reducible apply startBase_keeps | with_reducible apply setKeepers_keeps | with_reducible apply dlxCloseAll_keeps | with_reducible apply Keeps.foldl | (with_reducible refine Keeps.snd (by assumption) ?_) | (with_reducible refine Keeps.snd2 (by assumption) ?_) | with_reducible exact Nat.le_refl _ | with_reducible exact fun m => ⟨m.host, m.intake, m.fabric, m.nvm, m.sram, m.stk, m.owned, m.log, m.tiles, m.loc, m.saved⟩)
    | split
    | intro _

theorem execDlxAck_keeps {s0 s : State} (h : Keeps s0 s) : ∀ a1, OutKeeps s0 (execDlxAck a1 s) := by
  intro a1
  unfold execDlxAck
  repeat' first
    | with_reducible assumption
    | with_reducible apply dlxAcked_keeps
    | with_reducible apply dlxPump_keeps
    | with_reducible apply badMsg_keeps
    | with_reducible apply failedAnswer_keeps
    | (refine takeIdent_keeps ?_ _ _ _ _ (by assumption))
    | with_reducible apply receive_keeps
    | with_reducible apply protoAck_keeps
    | with_reducible apply count_keeps
    | with_reducible refine Keeps.ite ?_ ?_
    | split
    | intro _

theorem execExportSet_keeps {s0 s : State} (h : Keeps s0 s) : ∀ a1, OutKeeps s0 (execExportSet a1 s) := by
  intro a1
  unfold execExportSet
  repeat' first
    | with_reducible assumption
    | with_reducible apply endHead_keeps
    | with_reducible apply runJob_keeps
    | with_reducible apply dlxJob_keeps
    | with_reducible refine Keeps.ite ?_ ?_
    | split
    | intro _

theorem moveFlows_keeps {s0 s : State} (h : Keeps s0 s) : ∀ a1 a2, Keeps s0 (moveFlows a1 a2 s) := by
  intro a1 a2
  unfold moveFlows
  repeat' first
    | with_reducible assumption
    | with_reducible apply finalFlow_keeps
    | ((with_reducible apply Keeps.mk') <;> first | with_reducible assumption | with_reducible apply finalFlow_keeps | with_reducible apply Keeps.foldl | with_reducible apply Keeps.foldl2 | with_reducible apply Keeps.foldl3 | (with_reducible refine Keeps.snd (by assumption) ?_) | (with_reducible refine Keeps.snd2 (by assumption) ?_) | with_reducible exact Nat.le_refl _ | with_reducible exact fun m => ⟨m.host, m.intake, m.fabric, m.nvm, m.sram, m.stk, m.owned, m.log, m.tiles, m.loc, m.saved⟩)
    | split
    | intro _

theorem execRankMove_keeps {s0 s : State} (h : Keeps s0 s) : ∀ a1, OutKeeps s0 (execRankMove a1 s) := by
  intro a1
  unfold execRankMove
  repeat' first
    | with_reducible assumption
    | with_reducible apply moveCloses_keeps
    | with_reducible apply moveLayer_keeps
    | with_reducible apply moveFlows_keeps
    | with_reducible apply updJob_keeps
    | with_reducible apply moveSlots_keeps
    | with_reducible apply runJobNowP_keeps
    | with_reducible apply Keeps.foldl
    | split
    | intro _
    | dsimp only

theorem startChunk_keeps {s0 s : State} (h : Keeps s0 s) : ∀ a1 a2, Keeps s0 (startChunk a1 a2 s) := by
  intro a1 a2
  unfold startChunk
  repeat' first
    | with_reducible assumption
    | with_reducible apply updCid_keeps
    | with_reducible apply enterCluster_keeps
    | with_reducible apply setUnit_keeps
    | with_reducible apply enterSeq_keeps
    | with_reducible apply count_keeps
    | ((with_reducible apply Keeps.mk') <;> first | with_reducible assumption | with_reducible apply updCid_keeps | with_reducible apply enterCluster_keeps | with_reducible apply setUnit_keeps | with_reducible apply enterSeq_keeps | with_reducible apply count_keeps | with_reducible exact Nat.le_refl _ | with_reducible exact fun m => ⟨m.host, m.intake, m.fabric, m.nvm, m.sram, m.stk, m.owned, m.log, m.tiles, m.loc, m.saved⟩)
    | with_reducible refine Keeps.ite ?_ ?_
    | split

theorem takeGrant_keeps {s0 s : State} (h : Keeps s0 s) : ∀ a1, Keeps s0 (takeGrant a1 s) := by
  intro a1
  unfold takeGrant
  repeat' first
    | with_reducible apply startChunk_keeps
    | with_reducible apply setUnit_keeps
    | with_reducible apply ledgerReturn_keeps
    | ((with_reducible apply Keeps.mk') <;> first | with_reducible assumption | with_reducible apply startChunk_keeps | with_reducible apply setUnit_keeps | with_reducible apply ledgerReturn_keeps | with_reducible exact Nat.le_refl _ | with_reducible exact fun m => ⟨m.host, m.intake, m.fabric, m.nvm, m.sram, m.stk, m.owned, m.log, m.tiles, m.loc, m.saved⟩)
    | with_reducible refine Keeps.ite ?_ ?_
    | split
    | dsimp only

theorem takeGrants_keeps {s0 s : State} (h : Keeps s0 s) : Keeps s0 (takeGrants s) := by
  unfold takeGrants
  repeat' first
    | with_reducible assumption
    | with_reducible apply takeGrant_keeps
    | with_reducible apply Keeps.foldl
    | intro _

theorem askDraws_keeps {s0 s : State} (h : Keeps s0 s) : ∀ a1 a2, Keeps s0 (askDraws a1 a2 s) := by
  intro a1 a2
  unfold askDraws
  repeat' first
    | with_reducible assumption
    | with_reducible apply ledgerRequest_keeps
    | with_reducible apply takeGrant_keeps
    | with_reducible apply updCid_keeps
    | with_reducible apply startChunk_keeps
    | with_reducible apply setUnit_keeps
    | with_reducible apply raiseInt_keeps
    | with_reducible refine Keeps.ite ?_ ?_

theorem noteNoFit_keeps {s0 s : State} (h : Keeps s0 s) : ∀ a1, Keeps s0 (noteNoFit a1 s) := by
  intro a1
  unfold noteNoFit
  repeat' first
    | with_reducible assumption
    | with_reducible apply updCid_keeps
    | with_reducible apply raiseInt_keeps
    | with_reducible apply Keeps.foldl
    | split
    | intro _

theorem governedPick_keeps {s0 s : State} (h : Keeps s0 s) : ∀ a1, Keeps s0 (governedPick a1 s).2 := by
  intro a1
  unfold governedPick
  repeat' first
    | with_reducible assumption
    | with_reducible apply updCid_keeps
    | with_reducible apply Keeps.foldl
    | split
    | intro _

theorem pickCand_keeps {s0 s : State} (h : Keeps s0 s) : ∀ a1, Keeps s0 (pickCand a1 s).2 := by
  intro a1
  unfold pickCand
  repeat' first
    | with_reducible assumption
    | with_reducible apply governedPick_keeps
    | (with_reducible refine Keeps.snd (by assumption) ?_)
    | split

theorem noteNoDraw_keeps {s0 s : State} (h : Keeps s0 s) : ∀ a1, Keeps s0 (noteNoDraw a1 s) := by
  intro a1
  unfold noteNoDraw
  repeat' first
    | with_reducible assumption
    | with_reducible apply updCid_keeps
    | with_reducible apply raiseInt_keeps
    | with_reducible apply Keeps.foldl
    | split
    | intro _

theorem admitUnit_keeps {s0 s : State} (h : Keeps s0 s) : ∀ a1, Keeps s0 (admitUnit a1 s) := by
  intro a1
  unfold admitUnit
  repeat' first
    | with_reducible assumption
    | with_reducible apply takeGrant_keeps
    | with_reducible apply pickCand_keeps
    | with_reducible apply noteNoFit_keeps
    | with_reducible apply noteNoDraw_keeps
    | with_reducible apply askDraws_keeps
    | (with_reducible refine Keeps.snd (by assumption) ?_)
    | with_reducible refine Keeps.ite ?_ ?_
    | split
    | dsimp only

theorem admitAll_keeps {s0 s : State} (h : Keeps s0 s) : Keeps s0 (admitAll s) := by
  unfold admitAll
  repeat' first
    | with_reducible assumption
    | with_reducible apply admitUnit_keeps
    | with_reducible apply Keeps.foldl
    | intro _

theorem undoForced_keeps {s0 s : State} (h : Keeps s0 s) : ∀ a1, Keeps s0 (undoForced a1 s) := by
  intro a1
  unfold undoForced
  repeat' first
    | with_reducible assumption
    | with_reducible apply updCid_keeps
    | with_reducible apply count_keeps
    | with_reducible apply Keeps.foldl
    | ((with_reducible apply Keeps.mk') <;> first | with_reducible assumption | with_reducible apply updCid_keeps | with_reducible apply count_keeps | with_reducible apply Keeps.foldl | with_reducible apply Keeps.foldl2 | with_reducible apply Keeps.foldl3 | (with_reducible refine Keeps.snd (by assumption) ?_) | (with_reducible refine Keeps.snd2 (by assumption) ?_) | with_reducible exact Nat.le_refl _ | with_reducible exact fun m => ⟨m.host, m.intake, m.fabric, m.nvm, m.sram, m.stk, m.owned, m.log, m.tiles, m.loc, m.saved⟩)
    | split
    | intro _

theorem countOverruns_keeps {s0 s : State} (h : Keeps s0 s) : Keeps s0 (countOverruns s) := by
  unfold countOverruns
  repeat' first
    | with_reducible assumption
    | with_reducible apply setUnit_keeps
    | with_reducible apply count_keeps
    | with_reducible apply Keeps.foldl
    | split
    | intro _

theorem execChunkAdmit_keeps {s0 s : State} (h : Keeps s0 s) : ∀ a1, OutKeeps s0 (execChunkAdmit a1 s) := by
  intro a1
  unfold execChunkAdmit
  repeat' first
    | with_reducible assumption
    | with_reducible apply admitUnit_keeps
    | with_reducible apply when_keeps

theorem saveChunk_keeps {s0 s : State} (h : Keeps s0 s) : ∀ a1, Keeps s0 (saveChunk a1 s) := by
  intro a1
  unfold saveChunk
  repeat' first
    | with_reducible assumption
    | with_reducible apply releaseChunk_keeps
    | with_reducible apply setUnit_keeps
    | with_reducible apply suspendSeq_keeps
    | split
    | dsimp only

theorem forceChunk_keeps {s0 s : State} (h : Keeps s0 s) : ∀ a1, Keeps s0 (forceChunk a1 s) := by
  intro a1
  unfold forceChunk
  repeat' first
    | with_reducible assumption
    | with_reducible apply updCid_keeps
    | with_reducible apply saveChunk_keeps
    | with_reducible apply count_keeps
    | with_reducible apply raiseInt_keeps
    | ((with_reducible apply Keeps.mk') <;> first | with_reducible assumption | with_reducible apply updCid_keeps | with_reducible apply saveChunk_keeps | with_reducible apply count_keeps | with_reducible apply raiseInt_keeps | with_reducible exact Nat.le_refl _ | with_reducible exact fun m => ⟨m.host, m.intake, m.fabric, m.nvm, m.sram, m.stk, m.owned, m.log, m.tiles, m.loc, m.saved⟩)
    | with_reducible refine Keeps.ite ?_ ?_
    | split
    | dsimp only

theorem inState_keeps {s0 s : State} (h : Keeps s0 s) : ∀ a1, Keeps s0 (inState a1 s) := by
  intro a1
  unfold inState
  repeat' first
    | with_reducible assumption
    | with_reducible apply raiseInt_keeps
    | ((with_reducible apply Keeps.mk') <;> first | with_reducible assumption | with_reducible apply undoForced_keeps | with_reducible apply raiseInt_keeps | with_reducible exact Nat.le_refl _ | with_reducible exact fun m => ⟨m.host, m.intake, m.fabric, m.nvm, m.sram, m.stk, m.owned, m.log, m.tiles, m.loc, m.saved⟩)
    | with_reducible refine Keeps.ite ?_ ?_
    | split

theorem finishAt_keeps {s0 s : State} (h : Keeps s0 s) : ∀ a1 a2 a3, Keeps s0 (finishAt a1 a2 a3 s) := by
  intro a1 a2 a3
  unfold finishAt
  repeat' first
    | with_reducible assumption
    | with_reducible apply updCid_keeps
    | with_reducible apply endCid_keeps

theorem pendDone_keeps {s0 s : State} (h : Keeps s0 s) : ∀ a1, Keeps s0 (pendDone a1 s) := by
  intro a1
  unfold pendDone
  repeat' first
    | with_reducible apply finishAt_keeps
    | ((with_reducible apply Keeps.mk') <;> first | with_reducible assumption | with_reducible apply finishAt_keeps | with_reducible exact Nat.le_refl _ | with_reducible exact fun m => ⟨m.host, m.intake, m.fabric, m.nvm, m.sram, m.stk, m.owned, m.log, m.tiles, m.loc, m.saved⟩)

theorem settleTopUp_keeps {s0 s : State} (h : Keeps s0 s) : ∀ a1, Keeps s0 (settleTopUp a1 s) := by
  intro a1
  unfold settleTopUp
  repeat' first
    | with_reducible apply serveAll_keeps
    | ((with_reducible apply Keeps.mk') <;> first | with_reducible assumption | with_reducible apply serveAll_keeps | with_reducible exact Nat.le_refl _ | with_reducible exact fun m => ⟨m.host, m.intake, m.fabric, m.nvm, m.sram, m.stk, m.owned, m.log, m.tiles, m.loc, m.saved⟩)

theorem noonGranted_keeps {s0 s : State} (h : Keeps s0 s) : Keeps s0 (noonGranted s) := by
  unfold noonGranted
  repeat' first
    | with_reducible assumption
    | with_reducible apply settleTopUp_keeps
    | with_reducible apply pendDone_keeps
    | with_reducible apply inState_keeps
    | with_reducible refine Keeps.ite ?_ ?_
    | split

theorem waitOver_keeps {s0 s : State} (h : Keeps s0 s) : Keeps s0 (waitOver s) := by
  unfold waitOver
  repeat' first
    | with_reducible assumption
    | with_reducible apply admitAll_keeps
    | with_reducible apply noonGranted_keeps
    | ((with_reducible apply Keeps.mk') <;> first | with_reducible assumption | with_reducible apply admitAll_keeps | with_reducible apply noonGranted_keeps | with_reducible exact Nat.le_refl _ | with_reducible exact fun m => ⟨m.host, m.intake, m.fabric, m.nvm, m.sram, m.stk, m.owned, m.log, m.tiles, m.loc, m.saved⟩)
    | with_reducible refine Keeps.ite ?_ ?_

theorem afterGrants_keeps {s0 s : State} (h : Keeps s0 s) : Keeps s0 (afterGrants s) := by
  unfold afterGrants
  repeat' first
    | with_reducible assumption
    | with_reducible apply digestCycle_keeps
    | with_reducible apply fetchCycle_keeps
    | with_reducible apply densePumpAll_keeps
    | with_reducible apply rangeCycle_keeps
    | with_reducible apply sweepCycle_keeps
    | with_reducible apply waitOver_keeps
    | with_reducible apply dlxPumpAll_keeps
    | with_reducible apply closeCycle_keeps
    | with_reducible apply continueRound_keeps
    | with_reducible apply pump_keeps
    | with_reducible apply beginCopy_keeps
    | with_reducible apply restorePump_keeps
    | with_reducible apply takeGrants_keeps
    | with_reducible apply Keeps.foldl
    | intro _

theorem duskDrained_keeps {s0 s : State} (h : Keeps s0 s) : Keeps s0 (duskDrained s) := by
  unfold duskDrained
  repeat' first
    | with_reducible assumption
    | with_reducible apply endCid_keeps
    | with_reducible refine Keeps.ite ?_ ?_
    | split

theorem setVout_keeps {s0 s : State} (h : Keeps s0 s) : ∀ a1, Keeps s0 (setVout a1 s) := by
  intro a1
  unfold setVout
  repeat' first
    | ((with_reducible apply Keeps.mk') <;> first | with_reducible assumption | with_reducible exact Nat.le_refl _ | with_reducible exact fun m => ⟨m.host, m.intake, m.fabric, m.nvm, m.sram, m.stk, m.owned, m.log, m.tiles, m.loc, m.saved⟩)

theorem wakeDraws_keeps {s0 s : State} (h : Keeps s0 s) : ∀ a1, Keeps s0 (wakeDraws a1 s) := by
  intro a1
  unfold wakeDraws
  repeat' first
    | with_reducible apply ledgerRequest_keeps
    | ((with_reducible apply Keeps.mk') <;> first | with_reducible assumption | with_reducible apply ledgerRequest_keeps | with_reducible exact Nat.le_refl _ | with_reducible exact fun m => ⟨m.host, m.intake, m.fabric, m.nvm, m.sram, m.stk, m.owned, m.log, m.tiles, m.loc, m.saved⟩)

theorem wakeStart_keeps {s0 s : State} (h : Keeps s0 s) : Keeps s0 (wakeStart s) := by
  unfold wakeStart
  repeat' first
    | with_reducible assumption
    | with_reducible apply wakeDraws_keeps
    | with_reducible apply setVout_keeps
    | ((with_reducible apply Keeps.mk') <;> first | with_reducible assumption | with_reducible apply wakeDraws_keeps | with_reducible apply setVout_keeps | with_reducible exact Nat.le_refl _ | with_reducible exact fun m => ⟨m.host, m.intake, m.fabric, m.nvm, m.sram, m.stk, m.owned, m.log, m.tiles, m.loc, m.saved⟩)
    | with_reducible refine Keeps.ite ?_ ?_
    | split

theorem inNight_keeps {s0 s : State} (h : Keeps s0 s) : Keeps s0 (inNight s) := by
  unfold inNight
  repeat' first
    | with_reducible apply wakeStart_keeps
    | with_reducible apply inState_keeps
    | ((with_reducible apply Keeps.mk') <;> first | with_reducible assumption | with_reducible apply wakeStart_keeps | with_reducible apply inState_keeps | with_reducible exact Nat.le_refl _ | with_reducible exact fun m => ⟨m.host, m.intake, m.fabric, m.nvm, m.sram, m.stk, m.owned, m.log, m.tiles, m.loc, m.saved⟩)
    | split
    | dsimp only

theorem pmbusFail_keeps {s0 s : State} (h : Keeps s0 s) : ∀ a1 a2, Keeps s0 (pmbusFail a1 a2 s) := by
  intro a1 a2
  unfold pmbusFail
  repeat' first
    | with_reducible assumption
    | with_reducible apply fault_keeps
    | with_reducible apply raiseInt_keeps

theorem nightDrained_keeps {s0 s : State} (h : Keeps s0 s) : Keeps s0 (nightDrained s) := by
  unfold nightDrained
  repeat' first
    | with_reducible assumption
    | with_reducible apply pmbusFail_keeps
    | with_reducible apply inNight_keeps
    | with_reducible apply setVout_keeps
    | ((with_reducible apply Keeps.mk') <;> first | with_reducible assumption | with_reducible apply pmbusFail_keeps | with_reducible apply inNight_keeps | with_reducible apply setVout_keeps | with_reducible exact Nat.le_refl _ | with_reducible exact fun m => ⟨m.host, m.intake, m.fabric, m.nvm, m.sram, m.stk, m.owned, m.log, m.tiles, m.loc, m.saved⟩)
    | with_reducible refine Keeps.ite ?_ ?_

theorem powerDown_keeps {s0 s : State} (h : Keeps s0 s) : Keeps s0 (powerDown s) := by
  unfold powerDown
  repeat' first
    | with_reducible assumption
    | ((with_reducible apply Keeps.mk') <;> first | with_reducible assumption | with_reducible apply stopUnits_keeps | with_reducible exact Nat.le_refl _ | with_reducible exact fun m => ⟨m.host, m.intake, m.fabric, m.nvm, m.sram, m.stk, m.owned, m.log, m.tiles, m.loc, m.saved⟩)

theorem returnAll_keeps {s0 s : State} (h : Keeps s0 s) : Keeps s0 (returnAll s) := by
  unfold returnAll
  repeat' first
    | ((with_reducible apply Keeps.mk') <;> first | with_reducible assumption | with_reducible exact Nat.le_refl _ | with_reducible exact fun m => ⟨m.host, m.intake, m.fabric, m.nvm, m.sram, m.stk, m.owned, m.log, m.tiles, m.loc, m.saved⟩)

theorem settleStacks_keeps {s0 s : State} (h : Keeps s0 s) : Keeps s0 (settleStacks s) := by
  unfold settleStacks
  repeat' first
    | with_reducible assumption
    | with_reducible apply memEffect_keeps
    | with_reducible apply tagRefresh1_keeps
    | with_reducible apply Keeps.foldl
    | with_reducible apply Keeps.iter
    | ((with_reducible apply Keeps.mk') <;> first | with_reducible assumption | with_reducible apply memEffect_keeps | with_reducible apply tagRefresh1_keeps | with_reducible apply Keeps.foldl | with_reducible apply Keeps.foldl2 | with_reducible apply Keeps.foldl3 | with_reducible apply Keeps.iter | (with_reducible refine Keeps.snd (by assumption) ?_) | (with_reducible refine Keeps.snd2 (by assumption) ?_) | with_reducible exact Nat.le_refl _ | with_reducible exact fun m => ⟨m.host, m.intake, m.fabric, m.nvm, m.sram, m.stk, m.owned, m.log, m.tiles, m.loc, m.saved⟩)
    | intro _

theorem duskEnter_keeps {s0 s : State} (h : Keeps s0 s) : Keeps s0 (duskEnter s) := by
  unfold duskEnter
  repeat' first
    | with_reducible assumption
    | with_reducible apply powerDown_keeps
    | with_reducible apply nightDrained_keeps
    | with_reducible apply settleStacks_keeps
    | ((with_reducible apply Keeps.mk') <;> first | with_reducible assumption | with_reducible apply powerDown_keeps | with_reducible apply returnAll_keeps | with_reducible apply nightDrained_keeps | with_reducible apply settleStacks_keeps | with_reducible exact Nat.le_refl _ | with_reducible exact fun m => ⟨m.host, m.intake, m.fabric, m.nvm, m.sram, m.stk, m.owned, m.log, m.tiles, m.loc, m.saved⟩)
    | with_reducible refine Keeps.ite ?_ ?_
    | split

theorem lowerStanding_keeps {s0 s : State} (h : Keeps s0 s) : ∀ a1, Keeps s0 (lowerStanding a1 s) := by
  intro a1
  unfold lowerStanding
  repeat' first
    | with_reducible apply serveAll_keeps
    | ((with_reducible apply Keeps.mk') <;> first | with_reducible assumption | with_reducible apply serveAll_keeps | with_reducible exact Nat.le_refl _ | with_reducible exact fun m => ⟨m.host, m.intake, m.fabric, m.nvm, m.sram, m.stk, m.owned, m.log, m.tiles, m.loc, m.saved⟩)

theorem portDraws_keeps {s0 s : State} (h : Keeps s0 s) : Keeps s0 (portDraws s) := by
  unfold portDraws
  repeat' first
    | with_reducible assumption
    | with_reducible apply ledgerRequest_keeps
    | with_reducible apply lowerStanding_keeps
    | with_reducible apply ledgerReturn_keeps
    | ((with_reducible apply Keeps.mk') <;> first | with_reducible assumption | with_reducible apply ledgerRequest_keeps | with_reducible apply lowerStanding_keeps | with_reducible apply ledgerReturn_keeps | with_reducible exact Nat.le_refl _ | with_reducible exact fun m => ⟨m.host, m.intake, m.fabric, m.nvm, m.sram, m.stk, m.owned, m.log, m.tiles, m.loc, m.saved⟩)
    | with_reducible refine Keeps.ite ?_ ?_

theorem toEvening_keeps {s0 s : State} (h : Keeps s0 s) : Keeps s0 (toEvening s) := by
  unfold toEvening
  repeat' first
    | with_reducible assumption
    | with_reducible apply lowerStanding_keeps
    | with_reducible apply inState_keeps

theorem retrainAll_keeps {s0 s : State} (h : Keeps s0 s) : Keeps s0 (retrainAll s) := by
  unfold retrainAll
  repeat' first
    | with_reducible assumption
    | with_reducible apply retrainOutcome_keeps
    | with_reducible apply Keeps.foldl
    | ((with_reducible apply Keeps.mk') <;> first | with_reducible assumption | with_reducible apply retrainOutcome_keeps | with_reducible apply Keeps.foldl | with_reducible apply Keeps.foldl2 | with_reducible apply Keeps.foldl3 | (with_reducible refine Keeps.snd (by assumption) ?_) | (with_reducible refine Keeps.snd2 (by assumption) ?_) | with_reducible exact Nat.le_refl _ | with_reducible exact fun m => ⟨m.host, m.intake, m.fabric, m.nvm, m.sram, m.stk, m.owned, m.log, m.tiles, m.loc, m.saved⟩)
    | split
    | intro _

theorem execWakeComplete_keeps {s0 s : State} (h : Keeps s0 s) : OutKeeps s0 (execWakeComplete s) := by
  unfold execWakeComplete
  repeat' first
    | with_reducible assumption
    | with_reducible apply ledgerRequest_keeps
    | with_reducible apply settleTopUp_keeps
    | with_reducible apply when_keeps
    | with_reducible apply validateAll_keeps
    | with_reducible apply retrainAll_keeps
    | with_reducible apply inState_keeps
    | with_reducible apply endCid_keeps
    | with_reducible apply OutKeeps.next
    | ((with_reducible apply Keeps.mk') <;> first | with_reducible assumption | with_reducible apply ledgerRequest_keeps | with_reducible apply settleTopUp_keeps | with_reducible apply when_keeps | with_reducible apply validateAll_keeps | with_reducible apply retrainAll_keeps | with_reducible apply inState_keeps | with_reducible apply endCid_keeps | with_reducible apply OutKeeps.next | with_reducible exact OutKeeps.fault | with_reducible exact Nat.le_refl _ | with_reducible exact fun m => ⟨m.host, m.intake, m.fabric, m.nvm, m.sram, m.stk, m.owned, m.log, m.tiles, m.loc, m.saved⟩)
    | with_reducible refine Keeps.ite ?_ ?_
    | split

theorem packagePower_keeps {s0 s : State} (h : Keeps s0 s) : ∀ a1, Keeps s0 (packagePower a1 s) := by
  intro a1
  unfold packagePower
  repeat' first
    | with_reducible assumption
    | with_reducible apply raiseInt_keeps
    | ((with_reducible apply Keeps.mk') <;> first | with_reducible assumption | with_reducible apply raiseInt_keeps | with_reducible exact Nat.le_refl _ | with_reducible exact fun m => ⟨m.host, m.intake, m.fabric, m.nvm, m.sram, m.stk, m.owned, m.log, m.tiles, m.loc, m.saved⟩)
    | with_reducible refine Keeps.ite ?_ ?_
    | dsimp only

theorem thermalStop_keeps {s0 s : State} (h : Keeps s0 s) : Keeps s0 (thermalStop s) := by
  unfold thermalStop
  repeat' first
    | ((with_reducible apply Keeps.mk') <;> first | with_reducible assumption | with_reducible exact Nat.le_refl _ | with_reducible exact fun m => ⟨m.host, m.intake, m.fabric, m.nvm, m.sram, m.stk, m.owned, m.log, m.tiles, m.loc, m.saved⟩)

theorem thermalTrip_keeps {s0 s : State} (h : Keeps s0 s) : ∀ a1, Keeps s0 (thermalTrip a1 s) := by
  intro a1
  unfold thermalTrip
  repeat' first
    | with_reducible assumption
    | with_reducible apply ledgerDrop_keeps
    | with_reducible apply waitOver_keeps
    | with_reducible apply fault_keeps
    | with_reducible apply ledgerReturn_keeps
    | with_reducible apply endCid_keeps
    | with_reducible apply count_keeps
    | with_reducible apply raiseInt_keeps
    | with_reducible apply Keeps.foldl
    | ((with_reducible apply Keeps.mk') <;> first | with_reducible assumption | with_reducible apply ledgerDrop_keeps | with_reducible apply waitOver_keeps | with_reducible apply raiseIbi_keeps | with_reducible apply toEvening_keeps | with_reducible apply fault_keeps | with_reducible apply ledgerReturn_keeps | with_reducible apply endCid_keeps | with_reducible apply count_keeps | with_reducible apply raiseInt_keeps | with_reducible apply Keeps.foldl | with_reducible apply Keeps.foldl2 | with_reducible apply Keeps.foldl3 | (with_reducible refine Keeps.snd (by assumption) ?_) | (with_reducible refine Keeps.snd2 (by assumption) ?_) | with_reducible exact Nat.le_refl _ | with_reducible exact fun m => ⟨m.host, m.intake, m.fabric, m.nvm, m.sram, m.stk, m.owned, m.log, m.tiles, m.loc, m.saved⟩)
    | with_reducible refine Keeps.ite ?_ ?_
    | split
    | intro _
    | dsimp only

theorem execThermalSample_keeps {s0 s : State} (h : Keeps s0 s) : ∀ a1 a2 a3, OutKeeps s0 (execThermalSample a1 a2 a3 s) := by
  intro a1 a2 a3
  unfold execThermalSample
  repeat' first
    | with_reducible assumption
    | with_reducible apply thermalStop_keeps
    | with_reducible apply when_keeps
    | with_reducible apply thermalTrip_keeps
    | with_reducible apply raiseInt_keeps
    | ((with_reducible apply Keeps.mk') <;> first | with_reducible assumption | with_reducible apply thermalStop_keeps | with_reducible apply when_keeps | with_reducible apply thermalTrip_keeps | with_reducible apply raiseInt_keeps | with_reducible apply OutKeeps.next | with_reducible exact OutKeeps.fault | with_reducible exact Nat.le_refl _ | with_reducible exact fun m => ⟨m.host, m.intake, m.fabric, m.nvm, m.sram, m.stk, m.owned, m.log, m.tiles, m.loc, m.saved⟩)
    | with_reducible refine Keeps.ite ?_ ?_
    | split
    | dsimp only

theorem duskTick_keeps {s0 s : State} (h : Keeps s0 s) : ∀ a1, Keeps s0 (duskTick a1 s) := by
  intro a1
  unfold duskTick
  repeat' first
    | with_reducible assumption
    | with_reducible apply updCid_keeps
    | ((with_reducible apply Keeps.mk') <;> first | with_reducible assumption | with_reducible apply updCid_keeps | with_reducible exact Nat.le_refl _ | with_reducible exact fun m => ⟨m.host, m.intake, m.fabric, m.nvm, m.sram, m.stk, m.owned, m.log, m.tiles, m.loc, m.saved⟩)
    | with_reducible refine Keeps.ite ?_ ?_
    | split

theorem limitsTick_keeps {s0 s : State} (h : Keeps s0 s) : Keeps s0 (limitsTick s) := by
  unfold limitsTick
  repeat' first
    | with_reducible apply finishAt_keeps
    | with_reducible apply Keeps.foldl
    | ((with_reducible apply Keeps.mk') <;> first | with_reducible assumption | with_reducible apply finishAt_keeps | with_reducible apply Keeps.foldl | with_reducible apply Keeps.foldl2 | with_reducible apply Keeps.foldl3 | (with_reducible refine Keeps.snd (by assumption) ?_) | (with_reducible refine Keeps.snd2 (by assumption) ?_) | with_reducible exact Nat.le_refl _ | with_reducible exact fun m => ⟨m.host, m.intake, m.fabric, m.nvm, m.sram, m.stk, m.owned, m.log, m.tiles, m.loc, m.saved⟩)
    | intro _

theorem endFlows_keeps {s0 s : State} (h : Keeps s0 s) : Keeps s0 (endFlows s) := by
  unfold endFlows
  repeat' first
    | with_reducible assumption
    | with_reducible apply endUpdate_keeps
    | with_reducible apply finalFlow_keeps
    | with_reducible apply endOwner_keeps
    | with_reducible apply Keeps.foldl
    | split
    | intro _

theorem execDuskEnd_keeps {s0 s : State} (h : Keeps s0 s) : OutKeeps s0 (execDuskEnd s) := by
  unfold execDuskEnd
  repeat' first
    | with_reducible assumption
    | with_reducible apply duskDrained_keeps
    | with_reducible apply when_keeps
    | with_reducible apply endFlows_keeps
    | with_reducible apply OutKeeps.next
    | ((with_reducible apply Keeps.mk') <;> first | with_reducible assumption | with_reducible apply duskDrained_keeps | with_reducible apply when_keeps | with_reducible apply endFlows_keeps | with_reducible apply OutKeeps.next | with_reducible exact OutKeeps.fault | with_reducible exact Nat.le_refl _ | with_reducible exact fun m => ⟨m.host, m.intake, m.fabric, m.nvm, m.sram, m.stk, m.owned, m.log, m.tiles, m.loc, m.saved⟩)
    | split

theorem pendTick_keeps {s0 s : State} (h : Keeps s0 s) : ∀ a1, Keeps s0 (pendTick a1 s) := by
  intro a1
  unfold pendTick
  repeat' first
    | with_reducible assumption
    | with_reducible apply ledgerRequest_keeps
    | with_reducible apply pendDone_keeps
    | with_reducible apply toEvening_keeps
    | with_reducible apply noonGranted_keeps
    | ((with_reducible apply Keeps.mk') <;> first | with_reducible assumption | with_reducible apply ledgerRequest_keeps | with_reducible apply pendDone_keeps | with_reducible apply toEvening_keeps | with_reducible apply noonGranted_keeps | with_reducible exact Nat.le_refl _ | with_reducible exact fun m => ⟨m.host, m.intake, m.fabric, m.nvm, m.sram, m.stk, m.owned, m.log, m.tiles, m.loc, m.saved⟩)
    | with_reducible refine Keeps.ite ?_ ?_
    | split

theorem sameTick_keeps {s0 s : State} (h : Keeps s0 s) : Keeps s0 (sameTick s) := by
  unfold sameTick
  repeat' first
    | with_reducible apply finishAt_keeps
    | with_reducible apply Keeps.foldl
    | ((with_reducible apply Keeps.mk') <;> first | with_reducible assumption | with_reducible apply finishAt_keeps | with_reducible apply Keeps.foldl | with_reducible apply Keeps.foldl2 | with_reducible apply Keeps.foldl3 | (with_reducible refine Keeps.snd (by assumption) ?_) | (with_reducible refine Keeps.snd2 (by assumption) ?_) | with_reducible exact Nat.le_refl _ | with_reducible exact fun m => ⟨m.host, m.intake, m.fabric, m.nvm, m.sram, m.stk, m.owned, m.log, m.tiles, m.loc, m.saved⟩)
    | intro _

theorem powerTick_keeps {s0 s : State} (h : Keeps s0 s) : ∀ a1, Keeps s0 (powerTick a1 s) := by
  intro a1
  unfold powerTick
  repeat' first
    | with_reducible assumption
    | with_reducible apply pendTick_keeps
    | with_reducible apply sameTick_keeps
    | with_reducible apply limitsTick_keeps
    | with_reducible refine Keeps.ite ?_ ?_

theorem asNoon_keeps {s0 s : State} (h : Keeps s0 s) : Keeps s0 (asNoon s) := by
  unfold asNoon
  repeat' first
    | ((with_reducible apply Keeps.mk') <;> first | with_reducible assumption | with_reducible exact Nat.le_refl _ | with_reducible exact fun m => ⟨m.host, m.intake, m.fabric, m.nvm, m.sram, m.stk, m.owned, m.log, m.tiles, m.loc, m.saved⟩)

theorem execThermalShutdown_keeps {s0 s : State} (h : Keeps s0 s) : OutKeeps s0 (execThermalShutdown s) := by
  unfold execThermalShutdown
  repeat' first
    | with_reducible assumption
    | with_reducible apply thermalStop_keeps
    | with_reducible apply when_keeps

theorem execWakeVoltageSettled_keeps {s0 s : State} (h : Keeps s0 s) : ∀ a1, OutKeeps s0 (execWakeVoltageSettled a1 s) := by
  intro a1
  unfold execWakeVoltageSettled
  repeat' first
    | with_reducible assumption
    | with_reducible apply wakeDraws_keeps
    | with_reducible apply pmbusFail_keeps
    | with_reducible apply when_keeps
    | with_reducible apply endCid_keeps
    | with_reducible apply OutKeeps.next
    | ((with_reducible apply Keeps.mk') <;> first | with_reducible assumption | with_reducible apply wakeDraws_keeps | with_reducible apply pmbusFail_keeps | with_reducible apply when_keeps | with_reducible apply endCid_keeps | with_reducible apply OutKeeps.next | with_reducible exact OutKeeps.fault | with_reducible exact Nat.le_refl _ | with_reducible exact fun m => ⟨m.host, m.intake, m.fabric, m.nvm, m.sram, m.stk, m.owned, m.log, m.tiles, m.loc, m.saved⟩)
    | with_reducible refine Keeps.ite ?_ ?_
    | split

theorem stateAsleep_keeps {s0 s : State} (h : Keeps s0 s) : ∀ a1 a2 a3, Keeps s0 (stateAsleep a1 a2 a3 s) := by
  intro a1 a2 a3
  unfold stateAsleep
  repeat' first
    | with_reducible apply endHead_keeps
    | with_reducible apply wakeStart_keeps
    | ((with_reducible apply Keeps.mk') <;> first | with_reducible assumption | with_reducible apply endHead_keeps | with_reducible apply wakeStart_keeps | with_reducible exact Nat.le_refl _ | with_reducible exact fun m => ⟨m.host, m.intake, m.fabric, m.nvm, m.sram, m.stk, m.owned, m.log, m.tiles, m.loc, m.saved⟩)
    | with_reducible refine Keeps.ite ?_ ?_
    | split

theorem execLedgerGrant_keeps {s0 s : State} (h : Keeps s0 s) : OutKeeps s0 (execLedgerGrant s) := by
  unfold execLedgerGrant
  repeat' first
    | with_reducible assumption
    | with_reducible apply serveAll_keeps
    | with_reducible apply afterGrants_keeps
    | with_reducible apply when_keeps

theorem stateAwake_keeps {s0 s : State} (h : Keeps s0 s) : ∀ a1 a2 a3, Keeps s0 (stateAwake a1 a2 a3 s) := by
  intro a1 a2 a3
  unfold stateAwake
  repeat' first
    | ((with_reducible apply Keeps.mk') <;> first | with_reducible assumption | with_reducible exact Nat.le_refl _ | with_reducible exact fun m => ⟨m.host, m.intake, m.fabric, m.nvm, m.sram, m.stk, m.owned, m.log, m.tiles, m.loc, m.saved⟩)
    | with_reducible refine Keeps.ite ?_ ?_

theorem execPwrLimits_keeps {s0 s : State} (h : Keeps s0 s) : ∀ a1, OutKeeps s0 (execPwrLimits a1 s) := by
  intro a1
  unfold execPwrLimits
  repeat' first
    | with_reducible assumption
    | with_reducible apply endHead_keeps
    | with_reducible apply runHead_keeps
    | ((with_reducible apply Keeps.mk') <;> first | with_reducible assumption | with_reducible apply endHead_keeps | with_reducible apply runHead_keeps | with_reducible apply OutKeeps.next | with_reducible exact OutKeeps.fault | with_reducible exact Nat.le_refl _ | with_reducible exact fun m => ⟨m.host, m.intake, m.fabric, m.nvm, m.sram, m.stk, m.owned, m.log, m.tiles, m.loc, m.saved⟩)
    | split
    | intro _

theorem execPwrState_keeps {s0 s : State} (h : Keeps s0 s) : ∀ a1, OutKeeps s0 (execPwrState a1 s) := by
  intro a1
  unfold execPwrState
  repeat' first
    | with_reducible assumption
    | with_reducible apply stateAwake_keeps
    | with_reducible apply endHead_keeps
    | with_reducible apply runHead_keeps
    | with_reducible apply stateAsleep_keeps
    | split
    | intro _
    | dsimp only

theorem coreCurrent_keeps {s0 s : State} (h : Keeps s0 s) : ∀ a1, Keeps s0 (coreCurrent a1 s) := by
  intro a1
  unfold coreCurrent
  repeat' first
    | with_reducible apply fault_keeps
    | with_reducible apply raiseInt_keeps
    | ((with_reducible apply Keeps.mk') <;> first | with_reducible assumption | with_reducible apply fault_keeps | with_reducible apply raiseInt_keeps | with_reducible exact Nat.le_refl _ | with_reducible exact fun m => ⟨m.host, m.intake, m.fabric, m.nvm, m.sram, m.stk, m.owned, m.log, m.tiles, m.loc, m.saved⟩)
    | with_reducible refine Keeps.ite ?_ ?_

theorem railEnergy_keeps {s0 s : State} (h : Keeps s0 s) : ∀ a1 a2, Keeps s0 (railEnergy a1 a2 s) := by
  intro a1 a2
  unfold railEnergy
  repeat' first
    | ((with_reducible apply Keeps.mk') <;> first | with_reducible assumption | with_reducible exact Nat.le_refl _ | with_reducible exact fun m => ⟨m.host, m.intake, m.fabric, m.nvm, m.sram, m.stk, m.owned, m.log, m.tiles, m.loc, m.saved⟩)

theorem execPmbusPoll_keeps {s0 s : State} (h : Keeps s0 s) : ∀ a1 a2 a3 a4 a5, OutKeeps s0 (execPmbusPoll a1 a2 a3 a4 a5 s) := by
  intro a1 a2 a3 a4 a5
  unfold execPmbusPoll
  repeat' first
    | with_reducible assumption
    | with_reducible apply packagePower_keeps
    | with_reducible apply pmbusFail_keeps
    | with_reducible apply coreCurrent_keeps
    | with_reducible apply railEnergy_keeps
    | with_reducible apply when_keeps
    | with_reducible apply count_keeps
    | ((with_reducible apply Keeps.mk') <;> first | with_reducible assumption | with_reducible apply packagePower_keeps | with_reducible apply pmbusFail_keeps | with_reducible apply coreCurrent_keeps | with_reducible apply railEnergy_keeps | with_reducible apply when_keeps | with_reducible apply count_keeps | with_reducible apply OutKeeps.next | with_reducible exact OutKeeps.fault | with_reducible exact Nat.le_refl _ | with_reducible exact fun m => ⟨m.host, m.intake, m.fabric, m.nvm, m.sram, m.stk, m.owned, m.log, m.tiles, m.loc, m.saved⟩)
    | with_reducible refine Keeps.ite ?_ ?_

theorem execNightVoltageTimeout_keeps {s0 s : State} (h : Keeps s0 s) : OutKeeps s0 (execNightVoltageTimeout s) := by
  unfold execNightVoltageTimeout
  repeat' first
    | with_reducible assumption
    | with_reducible apply pmbusFail_keeps
    | with_reducible apply inNight_keeps
    | with_reducible apply when_keeps
    | with_reducible apply setVout_keeps
    | split

theorem execNightVoltageSettled_keeps {s0 s : State} (h : Keeps s0 s) : OutKeeps s0 (execNightVoltageSettled s) := by
  unfold execNightVoltageSettled
  repeat' first
    | with_reducible assumption
    | with_reducible apply inNight_keeps
    | with_reducible apply when_keeps

end Sys2Proof.Machine
end

