-- ==== Sys2Proof/Laws/KeepsTrust.lean ====
section
/-! SUPPORT. One lemma per function of trust, debug, jobs, completions and upsets: it keeps what `Keeps` names. -/

namespace Sys2Proof.Machine

theorem nvmGood_keeps {s0 s : State} (h : Keeps s0 s) : Keeps s0 (nvmGood s).2 := by
  unfold nvmGood
  repeat' first
    | with_reducible assumption
    | with_reducible apply freeVal_keeps

theorem nvmProgram_keeps {s0 s : State} (h : Keeps s0 s) : ∀ a1 a2, Keeps s0 (nvmProgram a1 a2 s) := fun _ _ =>
  h.mk' (Nat.le_refl _) fun m => ⟨m.host, m.intake, m.fabric, Mem.wf_sets _ _ _ _ (Mem.wf_filter _ _ _ m.nvm), m.sram, m.stk, m.owned, m.log, m.tiles, m.loc, m.saved⟩

theorem putRb_keeps {s0 s : State} (h : Keeps s0 s) : ∀ a1 a2, Keeps s0 (putRb a1 a2 s) := by
  intro a1 a2
  unfold putRb
  repeat' first
    | with_reducible assumption
    | with_reducible apply nvmProgram_keeps

theorem rewriteRb_keeps {s0 s : State} (h : Keeps s0 s) : ∀ a1, Keeps s0 (rewriteRb a1 s).2 := by
  intro a1
  unfold rewriteRb
  repeat' first
    | with_reducible assumption
    | with_reducible apply nvmGood_keeps
    | (with_reducible refine Keeps.snd (by assumption) ?_)
    | ((with_reducible apply Keeps.mk') <;> first | with_reducible assumption | with_reducible apply putRb_keeps | with_reducible apply nvmGood_keeps | (with_reducible refine Keeps.snd (by assumption) ?_) | (with_reducible refine Keeps.snd2 (by assumption) ?_) | with_reducible exact Nat.le_refl _ | with_reducible exact fun m => ⟨m.host, m.intake, m.fabric, m.nvm, m.sram, m.stk, m.owned, m.log, m.tiles, m.loc, m.saved⟩)
    | split
    | dsimp only

theorem writeDir_keeps {s0 s : State} (h : Keeps s0 s) : ∀ a1, Keeps s0 (writeDir a1 s) := by
  intro a1
  unfold writeDir
  repeat' first
    | with_reducible assumption
    | with_reducible apply nvmProgram_keeps

theorem putIdField_keeps {s0 s : State} (h : Keeps s0 s) : ∀ a1 a2, Keeps s0 (putIdField a1 a2 s) := by
  intro a1 a2
  unfold putIdField
  repeat' first
    | with_reducible assumption
    | with_reducible apply nvmProgram_keeps

theorem putIdent_keeps {s0 s : State} (h : Keeps s0 s) : ∀ a1, Keeps s0 (putIdent a1 s) := by
  intro a1
  unfold putIdent
  repeat' first
    | with_reducible assumption
    | with_reducible apply putIdField_keeps
    | with_reducible apply nvmProgram_keeps

theorem reEnrol_keeps {s0 s : State} (h : Keeps s0 s) : ∀ a1, Keeps s0 (reEnrol a1 s).2 := by
  intro w
  unfold reEnrol
  generalize Config.rsaKeyGen s.trngCtr = kg
  obtain ⟨m, k⟩ := kg
  dsimp only
  generalize Config.pufWrap s.adnt.puf k (s.trngCtr + 1) = pw
  obtain ⟨wrap, helper⟩ := pw
  dsimp only
  have h0 : Keeps s0 { s with trngCtr := s.trngCtr + 2 } := h.mk' (Nat.le_refl _) fun m => ⟨m.host, m.intake, m.fabric, m.nvm, m.sram, m.stk, m.owned, m.log, m.tiles, m.loc, m.saved⟩
  split
  · next e => exact Keeps.snd e (nvmGood_keeps h0)
  · next s1 e =>
    have h1 : Keeps s0 s1 := Keeps.snd e (nvmGood_keeps h0)
    generalize hs : putIdent _ _ = s2
    have h2 : Keeps s0 s2 := by
      rw [← hs]
      refine putIdent_keeps ?_ _
      exact h1.mk' (Nat.le_refl _) fun m => ⟨m.host, m.intake, m.fabric, m.nvm, m.sram, m.stk, m.owned, m.log, m.tiles, m.loc, m.saved⟩
    clear hs
    split
    · next e3 =>
      have h3 := Keeps.snd e3 (rewriteRb_keeps h2 _)
      exact ⟨h3.pending, h3.now, fun m0 => by
        have m := h3.mems m0
        have m1 := h1.mems m0
        exact ⟨m.host, m.intake, m.fabric, m1.nvm, m1.sram, m.stk, m.owned, m.log, m.tiles, m.loc, m.saved⟩⟩
    · next e3 => exact hostWrite_keeps (Keeps.snd e3 (rewriteRb_keeps h2 _)) _ _

theorem eachBekWaiter_keeps {s0 s : State} (h : Keeps s0 s) (f : Nat → Cmd → State → State) (hf : ∀ q c s, Keeps s0 s → Keeps s0 (f q c s)) : Keeps s0 (eachBekWaiter f s) := by
  unfold eachBekWaiter
  refine Keeps.foldl (h.mk' (Nat.le_refl _) fun m => ⟨m.host, m.intake, m.fabric, m.nvm, m.sram, m.stk, m.owned, m.log, m.tiles, m.loc, m.saved⟩) fun s x hs => ?_
  split
  · exact Keeps.ite (hf _ _ _ hs) hs
  · exact hs

theorem nvmErase_keeps {s0 s : State} (h : Keeps s0 s) : ∀ a1 a2, Keeps s0 (nvmErase a1 a2 s) := fun _ _ =>
  h.mk' (Nat.le_refl _) fun m => ⟨m.host, m.intake, m.fabric, Mem.wf_filter _ _ _ m.nvm, m.sram, m.stk, m.owned, m.log, m.tiles, m.loc, m.saved⟩

theorem retire412_keeps {s0 s : State} (h : Keeps s0 s) : ∀ a1, Keeps s0 (retire412 a1 s).2 := by
  intro a1
  unfold retire412
  repeat' first
    | with_reducible assumption
    | with_reducible apply rewriteRb_keeps
    | with_reducible apply endHead_keeps
    | with_reducible apply nvmErase_keeps
    | with_reducible apply eachBekWaiter_keeps
    | with_reducible apply hostWrite_keeps
    | (with_reducible refine Keeps.snd (by assumption) ?_)
    | ((with_reducible apply Keeps.mk') <;> first | with_reducible assumption | with_reducible apply rewriteRb_keeps | with_reducible apply endHead_keeps | with_reducible apply nvmErase_keeps | with_reducible apply eachBekWaiter_keeps | with_reducible apply hostWrite_keeps | with_reducible apply Keeps.iter | (with_reducible refine Keeps.snd (by assumption) ?_) | (with_reducible refine Keeps.snd2 (by assumption) ?_) | with_reducible exact Nat.le_refl _ | with_reducible exact fun m => ⟨m.host, m.intake, m.fabric, m.nvm, m.sram, m.stk, m.owned, m.log, m.tiles, m.loc, m.saved⟩)
    | split
    | intro _
    | dsimp only

theorem clearOwners_keeps {s0 s : State} (h : Keeps s0 s) : Keeps s0 (clearOwners s) := by
  unfold clearOwners
  repeat' first
    | ((with_reducible apply Keeps.mk') <;> first | with_reducible assumption | with_reducible exact Nat.le_refl _ | with_reducible exact fun m => ⟨m.host, m.intake, m.fabric, m.nvm, m.sram, m.stk, m.owned, m.log, m.tiles, m.loc, m.saved⟩)

theorem activate_keeps {s0 s : State} (h : Keeps s0 s) : ∀ a1 a2, Keeps s0 (activate a1 a2 s) := by
  intro a1 a2
  unfold activate
  repeat' first
    | with_reducible assumption
    | with_reducible apply writeDir_keeps
    | with_reducible apply Keeps.foldl
    | intro _

theorem storeObj_keeps {s0 s : State} (h : Keeps s0 s) : ∀ a1 a2 a3, Keeps s0 (storeObj a1 a2 a3 s) := by
  intro a1 a2 a3
  unfold storeObj
  repeat' first
    | with_reducible assumption
    | with_reducible apply nvmProgram_keeps
    | with_reducible apply Keeps.foldl
    | intro _

theorem presEffect_keeps {s0 s : State} (h : Keeps s0 s) : ∀ a1, Keeps s0 (presEffect a1 s).2 := by
  intro a1
  unfold presEffect
  repeat' first
    | with_reducible assumption
    | with_reducible apply reEnrol_keeps
    | with_reducible apply activate_keeps
    | with_reducible apply rewriteRb_keeps
    | with_reducible apply nvmGood_keeps
    | with_reducible apply clearOwners_keeps
    | with_reducible apply storeObj_keeps
    | with_reducible apply retire412_keeps
    | with_reducible apply raiseInt_keeps
    | (with_reducible refine Keeps.snd (by assumption) ?_)
    | ((with_reducible apply Keeps.mk') <;> first | with_reducible assumption | with_reducible apply reEnrol_keeps | with_reducible apply activate_keeps | with_reducible apply rewriteRb_keeps | with_reducible apply nvmGood_keeps | with_reducible apply clearOwners_keeps | with_reducible apply storeObj_keeps | with_reducible apply retire412_keeps | with_reducible apply raiseInt_keeps | (with_reducible refine Keeps.snd (by assumption) ?_) | (with_reducible refine Keeps.snd2 (by assumption) ?_) | with_reducible exact Nat.le_refl _ | with_reducible exact fun m => ⟨m.host, m.intake, m.fabric, m.nvm, m.sram, m.stk, m.owned, m.log, m.tiles, m.loc, m.saved⟩)
    | with_reducible refine Keeps.ite ?_ ?_
    | split
    | dsimp only

theorem execPresenceQualified_keeps {s0 s : State} (h : Keeps s0 s) : OutKeeps s0 (execPresenceQualified s) := by
  unfold execPresenceQualified
  repeat' first
    | with_reducible assumption
    | with_reducible apply presEffect_keeps
    | with_reducible apply when_keeps
    | with_reducible apply endCid_keeps
    | with_reducible apply raiseInt_keeps
    | with_reducible apply OutKeeps.next
    | ((with_reducible apply Keeps.mk') <;> first | with_reducible assumption | with_reducible apply presEffect_keeps | with_reducible apply when_keeps | with_reducible apply endCid_keeps | with_reducible apply raiseInt_keeps | with_reducible apply OutKeeps.next | with_reducible exact OutKeeps.fault | (with_reducible refine Keeps.snd (by assumption) ?_) | (with_reducible refine Keeps.snd2 (by assumption) ?_) | with_reducible exact Nat.le_refl _ | with_reducible exact fun m => ⟨m.host, m.intake, m.fabric, m.nvm, m.sram, m.stk, m.owned, m.log, m.tiles, m.loc, m.saved⟩)
    | split

theorem sealBreak_keeps {s0 s : State} (h : Keeps s0 s) : Keeps s0 (sealBreak s) := by
  unfold sealBreak
  repeat' first
    | with_reducible assumption
    | with_reducible apply rewriteRb_keeps
    | with_reducible apply stopJob_keeps
    | with_reducible apply fault_keeps
    | with_reducible apply raiseInt_keeps
    | with_reducible apply Keeps.foldl
    | ((with_reducible apply Keeps.mk') <;> first | with_reducible assumption | with_reducible apply rewriteRb_keeps | with_reducible apply stopJob_keeps | with_reducible apply fault_keeps | with_reducible apply raiseInt_keeps | with_reducible apply Keeps.foldl | with_reducible apply Keeps.foldl2 | with_reducible apply Keeps.foldl3 | (with_reducible refine Keeps.snd (by assumption) ?_) | (with_reducible refine Keeps.snd2 (by assumption) ?_) | with_reducible exact Nat.le_refl _ | with_reducible exact fun m => ⟨m.host, m.intake, m.fabric, m.nvm, m.sram, m.stk, m.owned, m.log, m.tiles, m.loc, m.saved⟩)
    | intro _

theorem updDawn_keeps {s0 s : State} (h : Keeps s0 s) : ∀ a1, Keeps s0 (updDawn a1 s) := by
  intro a1
  unfold updDawn
  repeat' first
    | ((with_reducible apply Keeps.mk') <;> first | with_reducible assumption | with_reducible exact Nat.le_refl _ | with_reducible exact fun m => ⟨m.host, m.intake, m.fabric, m.nvm, m.sram, m.stk, m.owned, m.log, m.tiles, m.loc, m.saved⟩)

theorem finding_keeps {s0 s : State} (h : Keeps s0 s) : ∀ a1, Keeps s0 (finding a1 s) := by
  intro a1
  unfold finding
  repeat' first
    | with_reducible assumption
    | with_reducible apply updDawn_keeps

theorem sealFinding_keeps {s0 s : State} (h : Keeps s0 s) : Keeps s0 (sealFinding s) := by
  unfold sealFinding
  repeat' first
    | with_reducible assumption
    | with_reducible apply finding_keeps
    | with_reducible refine Keeps.ite ?_ ?_

theorem execSealSample_keeps {s0 s : State} (h : Keeps s0 s) : ∀ a1, OutKeeps s0 (execSealSample a1 s) := by
  intro a1
  unfold execSealSample
  repeat' first
    | with_reducible assumption
    | with_reducible apply sealBreak_keeps
    | with_reducible apply when_keeps
    | with_reducible apply sealFinding_keeps
    | ((with_reducible apply Keeps.mk') <;> first | with_reducible assumption | with_reducible apply sealBreak_keeps | with_reducible apply when_keeps | with_reducible apply sealFinding_keeps | with_reducible apply draw64_keeps | with_reducible apply OutKeeps.next | with_reducible exact OutKeeps.fault | (with_reducible refine Keeps.snd (by assumption) ?_) | (with_reducible refine Keeps.snd2 (by assumption) ?_) | with_reducible exact Nat.le_refl _ | with_reducible exact fun m => ⟨m.host, m.intake, m.fabric, m.nvm, m.sram, m.stk, m.owned, m.log, m.tiles, m.loc, m.saved⟩)
    | with_reducible refine Keeps.ite ?_ ?_

theorem joinFailed_keeps {s0 s : State} (h : Keeps s0 s) : ∀ a1 a2, Keeps s0 (joinFailed a1 a2 s) := by
  intro a1 a2
  unfold joinFailed
  repeat' first
    | with_reducible assumption
    | with_reducible apply fault_keeps
    | with_reducible apply setSession_keeps
    | with_reducible apply count_keeps
    | with_reducible apply raiseInt_keeps

theorem attestNow_keeps {s0 s : State} (h : Keeps s0 s) : ∀ a1 a2, Keeps s0 (attestNow a1 a2 s) := by
  intro a1 a2
  unfold attestNow
  repeat' first
    | with_reducible assumption
    | with_reducible apply endHead_keeps
    | with_reducible apply hostWrite_keeps

theorem sessionNow_keeps {s0 s : State} (h : Keeps s0 s) : ∀ a1 a2, Keeps s0 (sessionNow a1 a2 s) := by
  intro a1 a2
  unfold sessionNow
  repeat' first
    | with_reducible assumption
    | with_reducible apply endHead_keeps
    | with_reducible apply setSession_keeps
    | ((with_reducible apply Keeps.mk') <;> first | with_reducible assumption | with_reducible apply endHead_keeps | with_reducible apply setSession_keeps | with_reducible exact Nat.le_refl _ | with_reducible exact fun m => ⟨m.host, m.intake, m.fabric, m.nvm, m.sram, m.stk, m.owned, m.log, m.tiles, m.loc, m.saved⟩)
    | with_reducible refine Keeps.ite ?_ ?_

theorem bekWaiters_keeps {s0 s : State} (h : Keeps s0 s) : Keeps s0 (bekWaiters s) := by
  unfold bekWaiters
  repeat' first
    | with_reducible assumption
    | with_reducible apply sessionNow_keeps
    | with_reducible apply attestNow_keeps
    | with_reducible apply eachBekWaiter_keeps
    | split
    | intro _

theorem awaitBek_keeps {s0 s : State} (h : Keeps s0 s) : ∀ a1 a2, Keeps s0 (awaitBek a1 a2 s) := by
  intro a1 a2
  unfold awaitBek
  repeat' first
    | ((with_reducible apply Keeps.mk') <;> first | with_reducible assumption | with_reducible exact Nat.le_refl _ | with_reducible exact fun m => ⟨m.host, m.intake, m.fabric, m.nvm, m.sram, m.stk, m.owned, m.log, m.tiles, m.loc, m.saved⟩)

theorem execAttest_keeps {s0 s : State} (h : Keeps s0 s) : ∀ a1, OutKeeps s0 (execAttest a1 s) := by
  intro a1
  unfold execAttest
  repeat' first
    | with_reducible assumption
    | with_reducible apply endHead_keeps
    | with_reducible apply attestNow_keeps
    | with_reducible apply runSecure_keeps
    | with_reducible apply awaitBek_keeps
    | split
    | intro _

theorem sendJoinAck_keeps {s0 s : State} (h : Keeps s0 s) : ∀ a1 a2 a3 a4, Keeps s0 (sendJoinAck a1 a2 a3 a4 s) := by
  intro a1 a2 a3 a4
  unfold sendJoinAck
  repeat' first
    | with_reducible assumption
    | with_reducible apply sendDevice_keeps

theorem joinAckAll_keeps {s0 s : State} (h : Keeps s0 s) : ∀ a1 a2 a3, Keeps s0 (joinAckAll a1 a2 a3 s) := by
  intro a1 a2 a3
  unfold joinAckAll
  repeat' first
    | with_reducible assumption
    | with_reducible apply sendJoinAck_keeps
    | with_reducible apply Keeps.foldl
    | split
    | intro _

theorem unseen_keeps {s0 s : State} (h : Keeps s0 s) : Keeps s0 (unseen s) := by
  unfold unseen
  repeat' first
    | ((with_reducible apply Keeps.mk') <;> first | with_reducible assumption | with_reducible exact Nat.le_refl _ | with_reducible exact fun m => ⟨m.host, m.intake, m.fabric, m.nvm, m.sram, m.stk, m.owned, m.log, m.tiles, m.loc, m.saved⟩)

theorem joined_keeps {s0 s : State} (h : Keeps s0 s) : ∀ a1, Keeps s0 (joined a1 s) := by
  intro a1
  unfold joined
  repeat' first
    | with_reducible assumption
    | with_reducible apply setSession_keeps

theorem execJoinAck_keeps {s0 s : State} (h : Keeps s0 s) : ∀ a1, OutKeeps s0 (execJoinAck a1 s) := by
  intro a1
  unfold execJoinAck
  repeat' first
    | with_reducible assumption
    | with_reducible apply receiveDevice_keeps
    | with_reducible apply badMsg_keeps
    | with_reducible apply joined_keeps
    | with_reducible apply unseen_keeps
    | with_reducible apply joinFailed_keeps
    | with_reducible refine Keeps.ite ?_ ?_
    | split
    | intro _

theorem execCertInstall_keeps {s0 s : State} (h : Keeps s0 s) : ∀ a1, OutKeeps s0 (execCertInstall a1 s) := by
  intro a1
  unfold execCertInstall
  repeat' first
    | with_reducible assumption
    | with_reducible apply nvmGood_keeps
    | with_reducible apply runSecureNow_keeps
    | (with_reducible refine Keeps.snd (by assumption) ?_)
    | ((with_reducible apply Keeps.mk') <;> first | with_reducible assumption | with_reducible apply putIdField_keeps | with_reducible apply nvmGood_keeps | with_reducible apply runSecureNow_keeps | with_reducible apply OutKeeps.next | with_reducible exact OutKeeps.fault | (with_reducible refine Keeps.snd (by assumption) ?_) | (with_reducible refine Keeps.snd2 (by assumption) ?_) | with_reducible exact Nat.le_refl _ | with_reducible exact fun m => ⟨m.host, m.intake, m.fabric, m.nvm, m.sram, m.stk, m.owned, m.log, m.tiles, m.loc, m.saved⟩)
    | split
    | intro _
    | dsimp only

theorem execKeyRegister_keeps {s0 s : State} (h : Keeps s0 s) : ∀ a1, OutKeeps s0 (execKeyRegister a1 s) := by
  intro a1
  unfold execKeyRegister
  repeat' first
    | with_reducible assumption
    | with_reducible apply runSecureNow_keeps
    | ((with_reducible apply Keeps.mk') <;> first | with_reducible assumption | with_reducible apply runSecureNow_keeps | with_reducible apply OutKeeps.next | with_reducible exact OutKeeps.fault | with_reducible exact Nat.le_refl _ | with_reducible exact fun m => ⟨m.host, m.intake, m.fabric, m.nvm, m.sram, m.stk, m.owned, m.log, m.tiles, m.loc, m.saved⟩)
    | split
    | intro _
    | dsimp only

theorem execPresenceNChange_keeps {s0 s : State} (h : Keeps s0 s) : ∀ a1, OutKeeps s0 (execPresenceNChange a1 s) := by
  intro a1
  unfold execPresenceNChange
  repeat' first
    | with_reducible assumption
    | with_reducible apply when_keeps
    | ((with_reducible apply Keeps.mk') <;> first | with_reducible assumption | with_reducible apply when_keeps | with_reducible apply OutKeeps.next | with_reducible exact OutKeeps.fault | with_reducible exact Nat.le_refl _ | with_reducible exact fun m => ⟨m.host, m.intake, m.fabric, m.nvm, m.sram, m.stk, m.owned, m.log, m.tiles, m.loc, m.saved⟩)

theorem execJoinTimeout_keeps {s0 s : State} (h : Keeps s0 s) : ∀ a1, OutKeeps s0 (execJoinTimeout a1 s) := by
  intro a1
  unfold execJoinTimeout
  repeat' first
    | with_reducible assumption
    | with_reducible apply when_keeps
    | with_reducible apply joinFailed_keeps

theorem joinStart_keeps {s0 s : State} (h : Keeps s0 s) : ∀ a1, Keeps s0 (joinStart a1 s) := by
  intro a1
  unfold joinStart
  repeat' first
    | with_reducible assumption
    | with_reducible apply freeVal_keeps
    | with_reducible apply sendDevice_keeps
    | with_reducible apply joined_keeps
    | with_reducible apply setSession_keeps
    | with_reducible refine Keeps.ite ?_ ?_
    | split

theorem execPresenceTimeout_keeps {s0 s : State} (h : Keeps s0 s) : OutKeeps s0 (execPresenceTimeout s) := by
  unfold execPresenceTimeout
  repeat' first
    | with_reducible assumption
    | with_reducible apply when_keeps
    | with_reducible apply endCid_keeps
    | with_reducible apply count_keeps
    | with_reducible apply raiseInt_keeps
    | with_reducible apply OutKeeps.next
    | ((with_reducible apply Keeps.mk') <;> first | with_reducible assumption | with_reducible apply when_keeps | with_reducible apply endCid_keeps | with_reducible apply count_keeps | with_reducible apply raiseInt_keeps | with_reducible apply OutKeeps.next | with_reducible exact OutKeeps.fault | with_reducible exact Nat.le_refl _ | with_reducible exact fun m => ⟨m.host, m.intake, m.fabric, m.nvm, m.sram, m.stk, m.owned, m.log, m.tiles, m.loc, m.saved⟩)
    | split

theorem execSessionOpen_keeps {s0 s : State} (h : Keeps s0 s) : ∀ a1, OutKeeps s0 (execSessionOpen a1 s) := by
  intro a1
  unfold execSessionOpen
  repeat' first
    | with_reducible assumption
    | with_reducible apply sessionNow_keeps
    | with_reducible apply endHead_keeps
    | with_reducible apply runSecure_keeps
    | with_reducible apply awaitBek_keeps
    | split
    | intro _

theorem joinReqHere_keeps {s0 s : State} (h : Keeps s0 s) : ∀ a1, Keeps s0 (joinReqHere a1 s) := by
  intro a1
  unfold joinReqHere
  repeat' first
    | with_reducible assumption
    | with_reducible apply sendJoinAck_keeps
    | with_reducible apply badMsg_keeps
    | with_reducible apply joined_keeps
    | with_reducible apply unseen_keeps
    | with_reducible apply setSession_keeps
    | with_reducible apply joinFailed_keeps
    | with_reducible apply joinAckAll_keeps
    | with_reducible refine Keeps.ite ?_ ?_
    | split

theorem execJoinReq_keeps {s0 s : State} (h : Keeps s0 s) : ∀ a1, OutKeeps s0 (execJoinReq a1 s) := by
  intro a1
  unfold execJoinReq
  repeat' first
    | with_reducible assumption
    | with_reducible apply receiveDevice_keeps
    | with_reducible apply joinReqHere_keeps
    | intro _

theorem execDebugLock_keeps {s0 s : State} (h : Keeps s0 s) : ∀ a1, OutKeeps s0 (execDebugLock a1 s) := by
  intro a1
  unfold execDebugLock
  repeat' first
    | with_reducible assumption
    | with_reducible apply runSecureNow_keeps
    | with_reducible apply raiseInt_keeps
    | ((with_reducible apply Keeps.mk') <;> first | with_reducible assumption | with_reducible apply runSecureNow_keeps | with_reducible apply raiseInt_keeps | with_reducible apply OutKeeps.next | with_reducible exact OutKeeps.fault | with_reducible exact Nat.le_refl _ | with_reducible exact fun m => ⟨m.host, m.intake, m.fabric, m.nvm, m.sram, m.stk, m.owned, m.log, m.tiles, m.loc, m.saved⟩)
    | split
    | intro _

theorem execBekReady_keeps {s0 s : State} (h : Keeps s0 s) : OutKeeps s0 (execBekReady s) := by
  unfold execBekReady
  repeat' first
    | with_reducible assumption
    | with_reducible apply bekWaiters_keeps
    | with_reducible apply when_keeps
    | ((with_reducible apply Keeps.mk') <;> first | with_reducible assumption | with_reducible apply bekWaiters_keeps | with_reducible apply when_keeps | with_reducible apply OutKeeps.next | with_reducible exact OutKeeps.fault | with_reducible exact Nat.le_refl _ | with_reducible exact fun m => ⟨m.host, m.intake, m.fabric, m.nvm, m.sram, m.stk, m.owned, m.log, m.tiles, m.loc, m.saved⟩)

theorem execPresRequest_keeps {s0 s : State} (h : Keeps s0 s) : ∀ a1, OutKeeps s0 (execPresRequest a1 s) := by
  intro a1
  unfold execPresRequest
  repeat' first
    | with_reducible assumption
    | with_reducible apply endHead_keeps
    | with_reducible apply runSecure_keeps
    | with_reducible apply raiseInt_keeps
    | ((with_reducible apply Keeps.mk') <;> first | with_reducible assumption | with_reducible apply endHead_keeps | with_reducible apply runSecure_keeps | with_reducible apply raiseInt_keeps | with_reducible apply OutKeeps.next | with_reducible exact OutKeeps.fault | with_reducible exact Nat.le_refl _ | with_reducible exact fun m => ⟨m.host, m.intake, m.fabric, m.nvm, m.sram, m.stk, m.owned, m.log, m.tiles, m.loc, m.saved⟩)
    | with_reducible refine Keeps.ite ?_ ?_
    | split
    | intro _

theorem outState_keeps {s0 s : State} (h : Keeps s0 s) (o : Out) (ho : OutKeeps s0 o) : Keeps s0 (outState o s) := by
  unfold outState
  split
  · exact ho.keeps _ rfl
  · exact h

theorem tileInstr_keeps {s0 s : State} (h : Keeps s0 s) : ∀ a1 a2 a3, OutKeeps s0 (tileInstr a1 a2 a3 s) := by
  intro a1 a2 a3
  unfold tileInstr
  repeat' first
    | with_reducible assumption
    | with_reducible apply execDefer_keeps
    | with_reducible apply execUprog_keeps
    | with_reducible apply execMclose_keeps
    | with_reducible apply execCbnd_keeps
    | with_reducible apply execMma_keeps
    | with_reducible apply execAinc_keeps
    | with_reducible apply execRbinc_keeps
    | with_reducible apply execTileEnd_keeps
    | with_reducible apply execRbset_keeps
    | with_reducible apply execNop_keeps
    | with_reducible apply execDma_keeps
    | with_reducible apply execSetc_keeps
    | with_reducible apply execWload_keeps
    | with_reducible apply execAset_keeps
    | with_reducible apply execChain_keeps
    | with_reducible apply execLmark_keeps
    | with_reducible apply execJmp_keeps
    | split

theorem stepTile_keeps {s0 s : State} (h : Keeps s0 s) : ∀ a1, Keeps s0 (stepTile a1 s) := by
  intro a1
  unfold stepTile
  repeat' first
    | with_reducible assumption
    | with_reducible apply tileAccess_keeps
    | with_reducible apply tileInstr_keeps
    | with_reducible apply outState_keeps
    | with_reducible apply rangeRead_keeps
    | (with_reducible refine Keeps.rdOk (by assumption) ?_)
    | (with_reducible refine Keeps.rdUn (by assumption) ?_)
    | with_reducible refine Keeps.ite ?_ ?_
    | split
    | dsimp only

theorem walkInstr_keeps {s0 s : State} (h : Keeps s0 s) : ∀ a1 a2, OutKeeps s0 (walkInstr a1 a2 s) := by
  intro a1 a2
  unfold walkInstr
  repeat' first
    | with_reducible assumption
    | with_reducible apply execHwait_keeps
    | with_reducible apply execShr_keeps
    | with_reducible apply execUpclose_keeps
    | with_reducible apply execSra_keeps
    | with_reducible apply execWalkEnd_keeps
    | with_reducible apply execAnd_keeps
    | with_reducible apply execBlt_keeps
    | with_reducible apply execLksend_keeps
    | with_reducible apply execXfer_keeps
    | with_reducible apply execXwait_keeps
    | with_reducible apply execWalkNop_keeps
    | with_reducible apply execAdd_keeps
    | with_reducible apply execOr_keeps
    | with_reducible apply execSlt_keeps
    | with_reducible apply execWalkCbnd_keeps
    | with_reducible apply execLd_keeps
    | with_reducible apply execSltu_keeps
    | with_reducible apply execCsr_keeps
    | with_reducible apply execXor_keeps
    | with_reducible apply execBltu_keeps
    | with_reducible apply execSt_keeps
    | with_reducible apply execMulhu_keeps
    | with_reducible apply execMul_keeps
    | with_reducible apply execSbset_keeps
    | with_reducible apply execJr_keeps
    | with_reducible apply execBne_keeps
    | with_reducible apply execUpsend_keeps
    | with_reducible apply execBeq_keeps
    | with_reducible apply execJal_keeps
    | with_reducible apply execShl_keeps
    | with_reducible apply execLui_keeps
    | with_reducible apply execSub_keeps
    | split

theorem stepWalker_keeps {s0 s : State} (h : Keeps s0 s) : ∀ a1, Keeps s0 (stepWalker a1 s) := by
  intro a1
  unfold stepWalker
  repeat' first
    | with_reducible assumption
    | with_reducible apply walkInstr_keeps
    | with_reducible apply outState_keeps
    | split

theorem openCore_keeps {s0 s : State} (h : Keeps s0 s) : ∀ a1, Keeps s0 (openCore a1 s) := by
  intro a1
  unfold openCore
  repeat' first
    | ((with_reducible apply Keeps.mk') <;> first | with_reducible assumption | with_reducible exact Nat.le_refl _ | with_reducible exact fun m => ⟨m.host, m.intake, m.fabric, m.nvm, m.sram, m.stk, m.owned, m.log, m.tiles, m.loc, m.saved⟩)

theorem dbgStep1_keeps {s0 s : State} (h : Keeps s0 s) : ∀ a1, Keeps s0 (dbgStep1 a1 s) := by
  intro a1
  unfold dbgStep1
  repeat' first
    | with_reducible assumption
    | with_reducible apply openCore_keeps
    | with_reducible apply stepWalker_keeps
    | with_reducible apply stepTile_keeps
    | split

theorem dbgEnd_keeps {s0 s : State} (h : Keeps s0 s) : ∀ a1, Keeps s0 (dbgEnd a1 s) := by
  intro a1
  unfold dbgEnd
  repeat' first
    | ((with_reducible apply Keeps.mk') <;> first | with_reducible assumption | with_reducible exact Nat.le_refl _ | with_reducible exact fun m => ⟨m.host, m.intake, m.fabric, m.nvm, m.sram, m.stk, m.owned, m.log, m.tiles, m.loc, m.saved⟩)

theorem debugOp_keeps {s0 s : State} (h : Keeps s0 s) (lv : Nat) (f : DbgSel → State → State)
    (hf : ∀ c s, Keeps s0 s → Keeps s0 (f c s)) : OutKeeps s0 (debugOp lv f s) := by
  unfold debugOp
  repeat' first
    | with_reducible assumption
    | with_reducible apply when_keeps
    | with_reducible apply dbgEnd_keeps
    | with_reducible apply hf
    | with_reducible refine Keeps.ite ?_ ?_

theorem dbgStore_keeps {s0 s : State} (h : Keeps s0 s) : ∀ a1 a2 t, dbgStore a1 a2 s = some t → Keeps s0 t := by
  intro d v t e
  unfold dbgStore at e
  dsimp only at e
  split at e
  · obtain ⟨x, hx, rfl⟩ := Option.map_eq_some_iff.1 e
    exact setTile_keeps h _ _ fun m => putSeqWord_ok (m.tile _) _ _ _ hx
  · obtain ⟨x, hx, rfl⟩ := Option.map_eq_some_iff.1 e
    refine ⟨h.pending, h.now, fun m0 => ?_⟩
    have m := h.mems m0
    exact ⟨m.host, m.intake, m.fabric, m.nvm, m.sram, m.stk, m.owned, m.log, m.tiles, Tbl.all_put (P := Walker.Ok) m.loc (putWalkWord_ok (m.walker _) _ _ hx), m.saved⟩
  · split at e
    · cases e; exact updTile_keeps h _ _ fun x hx => Tile.write_ok hx _ _ _
    · cases e
  · split at e
    · cases e; exact h.mk' (Nat.le_refl _) fun m => ⟨m.host, m.intake, Mem.wf_sets _ _ _ _ m.fabric, m.nvm, m.sram, m.stk, m.owned, m.log, m.tiles, m.loc, m.saved⟩
    · cases e
  · split at e
    · cases e
    · split at e
      · next er => cases e; exact Keeps.wrOk er (rangeWrite_keeps h _ _ _)
      · cases e
  · obtain ⟨x, hx, rfl⟩ := Option.map_eq_some_iff.1 e
    exact h.mk' (Nat.le_refl _) fun m => ⟨m.host, m.intake, m.fabric, m.nvm, m.sram, m.stk, m.owned, m.log, m.tiles, m.loc, m.saved⟩

theorem setHalt_keeps {s0 s : State} (h : Keeps s0 s) : ∀ a1 a2, Keeps s0 (setHalt a1 a2 s) := by
  intro a1 a2
  unfold setHalt
  repeat' first
    | with_reducible assumption
    | with_reducible apply openCore_keeps
    | with_reducible apply setUnit_keeps
    | with_reducible apply pump_keeps
    | with_reducible apply updWalker_keeps
    | ((with_reducible apply Keeps.mk') <;> first | with_reducible assumption | with_reducible apply openCore_keeps | with_reducible apply setUnit_keeps | with_reducible apply pump_keeps | with_reducible apply updWalker_keeps | with_reducible exact Nat.le_refl _ | with_reducible exact fun m => ⟨m.host, m.intake, m.fabric, m.nvm, m.sram, m.stk, m.owned, m.log, m.tiles, m.loc, m.saved⟩)
    | ((with_reducible apply Walker.Ok.mk') <;> first | with_reducible assumption | with_reducible apply Walker.setReg_ok)
    | with_reducible refine Keeps.ite ?_ ?_
    | split
    | intro _

theorem execDbgHalt_keeps {s0 s : State} (h : Keeps s0 s) : OutKeeps s0 (execDbgHalt s) := by
  unfold execDbgHalt
  repeat' first
    | with_reducible assumption
    | with_reducible apply setHalt_keeps
    | with_reducible apply dbgEnd_keeps
    | with_reducible apply debugOp_keeps
    | split
    | intro _

theorem execDbgRun_keeps {s0 s : State} (h : Keeps s0 s) : OutKeeps s0 (execDbgRun s) := by
  unfold execDbgRun
  repeat' first
    | with_reducible assumption
    | with_reducible apply setHalt_keeps
    | with_reducible apply dbgEnd_keeps
    | with_reducible apply debugOp_keeps
    | split
    | intro _

theorem execDbgWrite_keeps {s0 s : State} (h : Keeps s0 s) : OutKeeps s0 (execDbgWrite s) := by
  unfold execDbgWrite
  repeat' first
    | with_reducible assumption
    | with_reducible apply poweredBy_keeps
    | with_reducible apply dbgEnd_keeps
    | with_reducible apply debugOp_keeps
    | with_reducible apply dbgStore_keeps
    | split
    | intro _

theorem stepHalted_keeps {s0 s : State} (h : Keeps s0 s) : ∀ a1, Keeps s0 (stepHalted a1 s) := by
  intro a1
  unfold stepHalted
  repeat' first
    | with_reducible assumption
    | with_reducible apply dbgStep1_keeps
    | with_reducible apply setHalt_keeps
    | with_reducible refine Keeps.ite ?_ ?_

theorem execDbgStep_keeps {s0 s : State} (h : Keeps s0 s) : OutKeeps s0 (execDbgStep s) := by
  unfold execDbgStep
  repeat' first
    | with_reducible assumption
    | with_reducible apply poweredBy_keeps
    | with_reducible apply dbgEnd_keeps
    | with_reducible apply debugOp_keeps
    | with_reducible apply stepHalted_keeps
    | split
    | intro _

theorem readCore_keeps {s0 s : State} (h : Keeps s0 s) : ∀ a1, Keeps s0 (readCore a1 s).2 := by
  intro a1
  unfold readCore
  repeat' first
    | with_reducible assumption
    | with_reducible apply freeVal_keeps
    | (with_reducible refine Keeps.snd (by assumption) ?_)
    | ((with_reducible apply Keeps.mk') <;> first | with_reducible assumption | with_reducible apply freeVal_keeps | (with_reducible refine Keeps.snd (by assumption) ?_) | (with_reducible refine Keeps.snd2 (by assumption) ?_) | with_reducible exact Nat.le_refl _ | with_reducible exact fun m => ⟨m.host, m.intake, m.fabric, m.nvm, m.sram, m.stk, m.owned, m.log, m.tiles, m.loc, m.saved⟩)
    | split

theorem optPair {α : Type} {o : Option α} {s t : State} {x : α} (e : (o.map fun v => (v, s)) = some (x, t)) : t = s := by
  cases o with
  | none => cases e
  | some v => cases e; rfl

theorem somePair {α : Type} {s t : State} {x y : α} (e : some (y, s) = some (x, t)) : t = s := by cases e; rfl

theorem dbgLoad_keeps {s0 s : State} (h : Keeps s0 s) : ∀ a1 x t, dbgLoad a1 s = some (x, t) → Keeps s0 t := by
  intro d x t e
  unfold dbgLoad at e
  split at e
  · rw [optPair e]; exact h
  · rw [optPair e]; exact h
  · split at e
    · rw [somePair e]; exact h
    · contradiction
  · split at e
    · rw [somePair e]; exact h
    · contradiction
  · split at e
    · contradiction
    · split at e
      · next er => rw [somePair e]; exact Keeps.rdOk er (rangeRead_keeps h _ _ _)
      · contradiction
  · obtain ⟨_, _, e⟩ := Option.map_eq_some_iff.1 e
    exact Keeps.snd e (readCore_keeps h _)

theorem execDbgRead_keeps {s0 s : State} (h : Keeps s0 s) : OutKeeps s0 (execDbgRead s) := by
  unfold execDbgRead
  repeat' first
    | with_reducible assumption
    | with_reducible apply setReg_keeps
    | with_reducible apply poweredBy_keeps
    | with_reducible apply dbgEnd_keeps
    | with_reducible apply debugOp_keeps
    | with_reducible apply dbgLoad_keeps
    | split
    | intro _

theorem dropPages_keeps {s0 s : State} (h : Keeps s0 s) : ∀ a1, Keeps s0 (dropPages a1 s) := by
  intro a1
  unfold dropPages
  repeat' first
    | with_reducible assumption
    | with_reducible apply dropPage_keeps
    | ((with_reducible apply Keeps.mk') <;> first | with_reducible assumption | with_reducible apply dropPage_keeps | with_reducible apply Keeps.foldl | with_reducible apply Keeps.foldl2 | with_reducible apply Keeps.foldl3 | (with_reducible refine Keeps.snd (by assumption) ?_) | (with_reducible refine Keeps.snd2 (by assumption) ?_) | with_reducible exact Nat.le_refl _ | with_reducible exact fun m => ⟨m.host, m.intake, m.fabric, m.nvm, m.sram, m.stk, m.owned, m.log, m.tiles, m.loc, m.saved⟩)
    | intro _

theorem dropTables_keeps {s0 s : State} (h : Keeps s0 s) : ∀ a1, Keeps s0 (dropTables a1 s) := by
  intro a1
  unfold dropTables
  repeat' first
    | ((with_reducible apply Keeps.mk') <;> first | with_reducible assumption | with_reducible exact Nat.le_refl _ | with_reducible exact fun m => ⟨m.host, m.intake, m.fabric, m.nvm, m.sram, m.stk, m.owned, m.log, m.tiles, m.loc, m.saved⟩)

theorem dropChains_keeps {s0 s : State} (h : Keeps s0 s) : ∀ a1, Keeps s0 (dropChains a1 s) := by
  intro a1
  unfold dropChains
  repeat' first
    | with_reducible assumption
    | with_reducible apply ledgerDrop_keeps
    | with_reducible apply updTile_keeps
    | with_reducible apply ledgerReturn_keeps
    | with_reducible apply Keeps.foldl
    | ((with_reducible apply Tile.Ok.mk') <;> first | with_reducible assumption | with_reducible apply Tile.setOwned_ok | with_reducible apply Tile.evict_ok | with_reducible apply Tile.setSeq_ok | with_reducible apply Tile.write_ok )
    | with_reducible refine Keeps.ite ?_ ?_
    | split
    | intro _

theorem releaseJob_keeps {s0 s : State} (h : Keeps s0 s) : ∀ a1, Keeps s0 (releaseJob a1 s) := by
  intro a1
  unfold releaseJob
  repeat' first
    | with_reducible assumption
    | with_reducible apply dropPages_keeps
    | with_reducible apply dropTileJob_keeps
    | with_reducible apply dropDenseJob_keeps
    | with_reducible apply dropLookupJob_keeps
    | with_reducible apply dropExportJob_keeps
    | with_reducible apply dropChains_keeps
    | with_reducible apply dropTables_keeps
    | ((with_reducible apply Keeps.mk') <;> first | with_reducible assumption | with_reducible apply dropPages_keeps | with_reducible apply dropJobMessages_keeps | with_reducible apply dropTileJob_keeps | with_reducible apply dropDenseJob_keeps | with_reducible apply dropLookupJob_keeps | with_reducible apply dropExportJob_keeps | with_reducible apply dropChains_keeps | with_reducible apply dropTables_keeps | with_reducible exact Nat.le_refl _ | with_reducible exact fun m => ⟨m.host, m.intake, m.fabric, m.nvm, m.sram, m.stk, m.owned, m.log, m.tiles, m.loc, m.saved⟩)

theorem jobEndDone_keeps {s0 s : State} (h : Keeps s0 s) : ∀ a1, Keeps s0 (jobEndDone a1 s) := by
  intro a1
  unfold jobEndDone
  repeat' first
    | with_reducible assumption
    | with_reducible apply endHead_keeps
    | with_reducible apply retryRange_keeps
    | with_reducible apply releaseJob_keeps
    | with_reducible refine Keeps.ite ?_ ?_
    | split

theorem jobEndsDone_keeps {s0 s : State} (h : Keeps s0 s) : Keeps s0 (jobEndsDone s) := by
  unfold jobEndsDone
  repeat' first
    | with_reducible assumption
    | with_reducible apply jobEndDone_keeps
    | with_reducible apply Keeps.foldl
    | intro _

theorem execTileRun_keeps {s0 s : State} (h : Keeps s0 s) : ∀ a1, OutKeeps s0 (execTileRun a1 s) := by
  intro a1
  unfold execTileRun
  repeat' first
    | with_reducible assumption
    | with_reducible apply admitUnit_keeps
    | with_reducible apply when_keeps

theorem switchDone_keeps {s0 s : State} (h : Keeps s0 s) : ∀ a1 a2 a3, Keeps s0 (switchDone a1 a2 a3 s) := by
  intro a1 a2 a3
  unfold switchDone
  repeat' first
    | with_reducible assumption
    | with_reducible apply updCid_keeps
    | with_reducible apply updJob_keeps
    | with_reducible apply endCid_keeps

theorem switchIn_keeps {s0 s : State} (h : Keeps s0 s) : ∀ a1, Keeps s0 (switchIn a1 s) := by
  intro a1
  unfold switchIn
  repeat' first
    | with_reducible assumption
    | ((with_reducible apply Keeps.mk') <;> first | with_reducible assumption | with_reducible apply updJob_keeps | with_reducible exact Nat.le_refl _ | with_reducible exact fun m => ⟨m.host, m.intake, m.fabric, m.nvm, m.sram, m.stk, m.owned, m.log, m.tiles, m.loc, m.saved⟩)

theorem switchOut_keeps {s0 s : State} (h : Keeps s0 s) : ∀ a1, Keeps s0 (switchOut a1 s) := by
  intro a1
  unfold switchOut
  repeat' first
    | with_reducible assumption
    | ((with_reducible apply Keeps.mk') <;> first | with_reducible assumption | with_reducible apply updJob_keeps | with_reducible exact Nat.le_refl _ | with_reducible exact fun m => ⟨m.host, m.intake, m.fabric, m.nvm, m.sram, m.stk, m.owned, m.log, m.tiles, m.loc, m.saved⟩)

theorem switchJob_keeps {s0 s : State} (h : Keeps s0 s) : ∀ a1 a2, Keeps s0 (switchJob a1 a2 s) := by
  intro a1 a2
  unfold switchJob
  repeat' first
    | with_reducible assumption
    | with_reducible apply switchOut_keeps
    | with_reducible apply switchDone_keeps
    | with_reducible apply updJob_keeps
    | with_reducible apply switchIn_keeps
    | with_reducible apply Keeps.foldl
    | with_reducible refine Keeps.ite ?_ ?_
    | split
    | intro _

theorem admitJob_keeps {s0 s : State} (h : Keeps s0 s) : ∀ a1, Keeps s0 (admitJob a1 s) := by
  intro a1
  unfold admitJob
  repeat' first
    | with_reducible assumption
    | with_reducible apply drawBytes_keeps
    | with_reducible apply joinStart_keeps
    | with_reducible apply draw64_keeps
    | ((with_reducible apply Keeps.mk') <;> first | with_reducible assumption | with_reducible apply drawBytes_keeps | with_reducible apply joinStart_keeps | with_reducible apply draw64_keeps | (with_reducible refine Keeps.snd (by assumption) ?_) | (with_reducible refine Keeps.snd2 (by assumption) ?_) | with_reducible exact Nat.le_refl _ | with_reducible exact fun m => ⟨m.host, m.intake, m.fabric, m.nvm, m.sram, m.stk, m.owned, m.log, m.tiles, m.loc, m.saved⟩)

theorem execJobAdmit_keeps {s0 s : State} (h : Keeps s0 s) : ∀ a1, OutKeeps s0 (execJobAdmit a1 s) := by
  intro a1
  unfold execJobAdmit
  repeat' first
    | with_reducible assumption
    | with_reducible apply admitJob_keeps
    | with_reducible apply runNow_keeps
    | with_reducible refine Keeps.ite ?_ ?_
    | intro _

theorem switchAll_keeps {s0 s : State} (h : Keeps s0 s) : ∀ a1, Keeps s0 (switchAll a1 s) := by
  intro a1
  unfold switchAll
  repeat' first
    | with_reducible assumption
    | with_reducible apply switchJob_keeps
    | with_reducible apply Keeps.foldl
    | intro _

theorem execCtxSwitch_keeps {s0 s : State} (h : Keeps s0 s) : ∀ a1, OutKeeps s0 (execCtxSwitch a1 s) := by
  intro a1
  unfold execCtxSwitch
  repeat' first
    | with_reducible assumption
    | with_reducible apply updJob_keeps
    | with_reducible apply runJob_keeps
    | intro _

theorem execWalk_keeps {s0 s : State} (h : Keeps s0 s) : ∀ a1, OutKeeps s0 (execWalk a1 s) := by
  intro a1
  unfold execWalk
  repeat' first
    | with_reducible assumption
    | with_reducible apply admitUnit_keeps
    | with_reducible apply when_keeps
    | with_reducible apply Keeps.foldl
    | with_reducible apply OutKeeps.next
    | split
    | intro _

theorem execJobEnd_keeps {s0 s : State} (h : Keeps s0 s) : ∀ a1, OutKeeps s0 (execJobEnd a1 s) := by
  intro a1
  unfold execJobEnd
  repeat' first
    | with_reducible assumption
    | with_reducible apply jobEndDone_keeps
    | with_reducible apply cancelAll_keeps
    | with_reducible apply endHead_keeps
    | with_reducible apply updJob_keeps
    | with_reducible apply updHead_keeps
    | with_reducible apply runJob_keeps
    | split
    | intro _

theorem afterRecord_keeps {s0 s : State} (h : Keeps s0 s) : ∀ a1 a2, Keeps s0 (afterRecord a1 a2 s) := by
  intro a1 a2
  unfold afterRecord
  repeat' first
    | with_reducible apply validate_keeps
    | with_reducible apply promote_keeps
    | with_reducible apply duskEnter_keeps
    | with_reducible apply jobEndsDone_keeps
    | ((with_reducible apply Keeps.mk') <;> first | with_reducible assumption | with_reducible exact Nat.le_refl _ | exact fun m => ⟨m.host, m.intake, m.fabric, m.nvm, m.sram, m.stk, m.owned, m.log, m.tiles, m.loc, fun p hp => m.saved p (List.mem_filter.1 hp).1⟩)

theorem tryRecord_keeps {s0 s : State} (h : Keeps s0 s) : ∀ a1, Keeps s0 (tryRecord a1 s) := by
  intro a1
  unfold tryRecord
  repeat' first
    | with_reducible assumption
    | with_reducible apply afterRecord_keeps
    | with_reducible apply writeCompletion_keeps
    | (with_reducible refine Keeps.snd (by assumption) ?_)
    | split

theorem execCompletionFlushDone_keeps {s0 s : State} (h : Keeps s0 s) : ∀ a1, OutKeeps s0 (execCompletionFlushDone a1 s) := by
  intro a1
  unfold execCompletionFlushDone
  repeat' first
    | with_reducible assumption
    | with_reducible apply when_keeps
    | with_reducible apply evictDirty_keeps
    | with_reducible apply tryRecord_keeps

theorem unholdQueue_keeps {s0 s : State} (h : Keeps s0 s) : ∀ a1, Keeps s0 (unholdQueue a1 s) := by
  intro a1
  unfold unholdQueue
  repeat' first
    | with_reducible assumption
    | with_reducible apply promote_keeps
    | with_reducible apply updQueue_keeps
    | with_reducible apply evictDirty_keeps
    | with_reducible apply tryRecord_keeps
    | with_reducible refine Keeps.ite ?_ ?_

theorem execHostCrhead_keeps {s0 s : State} (h : Keeps s0 s) : ∀ a1 a2, OutKeeps s0 (execHostCrhead a1 a2 s) := by
  intro a1 a2
  unfold execHostCrhead
  repeat' first
    | with_reducible assumption
    | with_reducible apply updQueue_keeps
    | with_reducible apply when_keeps
    | with_reducible apply unholdQueue_keeps
    | with_reducible refine Keeps.ite ?_ ?_

theorem contextLost_keeps {s0 s : State} (h : Keeps s0 s) : ∀ a1 a2 a3, Keeps s0 (contextLost a1 a2 a3 s) := by
  intro a1 a2 a3
  unfold contextLost
  repeat' first
    | with_reducible assumption
    | with_reducible apply stopJob_keeps
    | with_reducible apply fault_keeps
    | with_reducible refine Keeps.ite ?_ ?_

theorem reserveUncorrectable_keeps {s0 s : State} (h : Keeps s0 s) : ∀ a1 a2 a3, Keeps s0 (reserveUncorrectable a1 a2 a3 s) := by
  intro a1 a2 a3
  unfold reserveUncorrectable
  repeat' first
    | with_reducible assumption
    | with_reducible apply enterFatal_keeps

theorem tileUncorrectable_keeps {s0 s : State} (h : Keeps s0 s) : ∀ a1 a2, Keeps s0 (tileUncorrectable a1 a2 s) := by
  intro a1 a2
  unfold tileUncorrectable
  repeat' first
    | with_reducible assumption
    | with_reducible apply updTile_keeps
    | with_reducible apply fault_keeps
    | ((with_reducible apply Tile.Ok.mk') <;> first | with_reducible assumption | with_reducible apply Tile.setOwned_ok | with_reducible apply Tile.evict_ok | with_reducible apply Tile.setSeq_ok | with_reducible apply Tile.write_ok )
    | intro _

theorem upsetFound_keeps {s0 s : State} (h : Keeps s0 s) : ∀ a1, Keeps s0 (upsetFound s a1) := by
  intro a1
  unfold upsetFound
  repeat' first
    | with_reducible assumption
    | with_reducible apply reserveUncorrectable_keeps
    | with_reducible apply corrected_keeps
    | with_reducible apply contextLost_keeps
    | with_reducible apply tileUncorrectable_keeps
    | with_reducible apply count_keeps
    | ((with_reducible apply Keeps.mk') <;> first | with_reducible assumption | with_reducible apply reserveUncorrectable_keeps | with_reducible apply corrected_keeps | with_reducible apply contextLost_keeps | with_reducible apply tileUncorrectable_keeps | with_reducible apply count_keeps | with_reducible exact Nat.le_refl _ | with_reducible exact fun m => ⟨m.host, m.intake, m.fabric, m.nvm, m.sram, m.stk, m.owned, m.log, m.tiles, m.loc, m.saved⟩)
    | with_reducible refine Keeps.ite ?_ ?_
    | split

theorem findUpsets_keeps {s0 s : State} (h : Keeps s0 s) : Keeps s0 (findUpsets s) := by
  unfold findUpsets
  repeat' first
    | with_reducible assumption
    | with_reducible apply upsetFound_keeps
    | with_reducible apply Keeps.foldl
    | ((with_reducible apply Keeps.mk') <;> first | with_reducible assumption | with_reducible apply upsetFound_keeps | with_reducible apply Keeps.foldl | (with_reducible refine Keeps.snd (by assumption) ?_) | (with_reducible refine Keeps.snd2 (by assumption) ?_) | with_reducible exact Nat.le_refl _ | with_reducible exact fun m => ⟨m.host, m.intake, m.fabric, m.nvm, m.sram, m.stk, m.owned, m.log, m.tiles, m.loc, m.saved⟩)
    | split
    | intro _

end Sys2Proof.Machine
end

