-- ==== Sys2Proof/Laws/KeepsClock.lean ====
section
/-! SUPPORT. One lemma per function of held work, the clock, Dawn, the self-test, register accesses and the sideband: it keeps what `Keeps` names. -/

namespace Sys2Proof.Machine

theorem execHeld_keeps {s0 s : State} (h : Keeps s0 s) : ∀ a1, OutKeeps s0 (execHeld a1 s) := by
  intro i
  cases i with
  | dmaComplete t idx => exact execDmaComplete_keeps h t idx
  | memRead src pa n ecc => exact execMemRead_keeps h src pa n ecc
  | memWrite src pa data mask poison ecc => exact execMemWrite_keeps h src pa data mask poison ecc
  | memAdd src pa addend fmt mask ecc => exact execMemAdd_keeps h src pa addend fmt mask ecc
  | map q => exact execMap_keeps h q
  | handback q => exact execHandback_keeps h q
  | adopt q => exact execAdopt_keeps h q
  | migrationSubblockCopied up => exact execMigrationSubblockCopied_keeps h up
  | hostLineResponse job va write data mask poison => exact execHostLineResponse_keeps h job va write data mask poison
  | publish m => exact execPublish_keeps h m
  | pubReply m => exact execPubReply_keeps h m
  | replRow m => exact execReplRow_keeps h m
  | replEnd m => exact execReplEnd_keeps h m
  | replDrop m => exact execReplDrop_keeps h m
  | repair m => exact execRepair_keeps h m
  | lksend k w => exact execLksend_keeps h k w
  | upsend k w => exact execUpsend_keeps h k w
  | lksendResume k => exact execLksendResume_keeps h k
  | lookupReq m => exact execLookupReq_keeps h m
  | flowPooled entry => exact execFlowPooled_keeps h entry
  | lookupReply m => exact execLookupReply_keeps h m
  | flowEnd m => exact execFlowEnd_keeps h m
  | flowRetry entry => exact execFlowRetry_keeps h entry
  | flowTimeout entry => exact execFlowTimeout_keeps h entry
  | updReq m => exact execUpdReq_keeps h m
  | mergeDone entry => exact execMergeDone_keeps h entry
  | updClose m => exact execUpdClose_keeps h m
  | updateBatch job tid die => exact execUpdateBatch_keeps h job tid die
  | nojob m => exact execNojob_keeps h m
  | denseStepStart job layer => exact execDenseStepStart_keeps h job layer
  | rsData m => exact execRsData_keeps h m
  | xcredit m => exact execXcredit_keeps h m
  | verdictExchangeStart job layer => exact execVerdictExchangeStart_keeps h job layer
  | verdict m => exact execVerdict_keeps h m
  | agData m => exact execAgData_keeps h m
  | segFetch m => exact execSegFetch_keeps h m
  | segFetchTimeout job layer shard seg => exact execSegFetchTimeout_keeps h job layer shard seg
  | bulkWr m => exact execBulkWr_keeps h m
  | bulkRdreq m => exact execBulkRdreq_keeps h m
  | bulkRddata m => exact execBulkRddata_keeps h m
  | bulkAck m => exact execBulkAck_keeps h m
  | dataIn q => exact execDataIn_keeps h q
  | copy q => exact execCopy_keeps h q
  | rankMove q => exact execRankMove_keeps h q
  | dlxRec m => exact execDlxRec_keeps h m
  | dlxClose m => exact execDlxClose_keeps h m
  | dlxAck m => exact execDlxAck_keeps h m
  | joinReq m => exact execJoinReq_keeps h m
  | joinAck m => exact execJoinAck_keeps h m
  | xferComplete k => exact execXferComplete_keeps h k
  | dbgRead => exact execDbgRead_keeps h
  | dbgWrite => exact execDbgWrite_keeps h
  | dbgStep => exact execDbgStep_keeps h
  | _ => exact OutKeeps.next h

theorem retryHeld_keeps {s0 s : State} (h : Keeps s0 s) : ∀ a1, Keeps s0 (retryHeld a1 s) := by
  intro i
  unfold retryHeld
  split
  · next t e =>
    have h2 : Keeps s0 t := by
      refine (execHeld_keeps ?_ i).keeps _ e
      exact h.mk' (Nat.le_refl _) fun m => ⟨m.host, m.intake, m.fabric, m.nvm, m.sram, m.stk, m.owned, m.log, m.tiles, m.loc, m.saved⟩
    exact h2.mk' (Nat.le_refl _) fun m => ⟨m.host, m.intake, m.fabric, m.nvm, m.sram, m.stk, m.owned, m.log, m.tiles, m.loc, m.saved⟩
  · exact h

theorem runHeld_keeps {s0 s : State} (h : Keeps s0 s) : Keeps s0 (runHeld s) := by
  unfold runHeld
  repeat' first
    | with_reducible assumption
    | with_reducible apply retryHeld_keeps
    | with_reducible apply Keeps.foldl
    | ((with_reducible apply Keeps.mk') <;> first | with_reducible assumption | with_reducible apply retryHeld_keeps | with_reducible apply Keeps.foldl | (with_reducible refine Keeps.snd (by assumption) ?_) | (with_reducible refine Keeps.snd2 (by assumption) ?_) | with_reducible exact Nat.le_refl _ | with_reducible exact fun m => ⟨m.host, m.intake, m.fabric, m.nvm, m.sram, m.stk, m.owned, m.log, m.tiles, m.loc, m.saved⟩)
    | intro _

theorem copyWaits_keeps {s0 s : State} (h : Keeps s0 s) : Keeps s0 (copyWaits s) := by
  unfold copyWaits
  repeat' first
    | with_reducible assumption
    | with_reducible apply count_keeps

theorem entryWaits_keeps {s0 s : State} (h : Keeps s0 s) : Keeps s0 (entryWaits s) := by
  unfold entryWaits
  repeat' first
    | with_reducible assumption
    | with_reducible apply count_keeps

theorem handoffCycle_keeps {s0 s : State} (h : Keeps s0 s) : Keeps s0 (handoffCycle s) := by
  unfold handoffCycle
  repeat' first
    | with_reducible assumption
    | with_reducible apply count_keeps
    | with_reducible apply Keeps.foldl
    | split
    | intro _

theorem holdCycle_keeps {s0 s : State} (h : Keeps s0 s) : Keeps s0 (holdCycle s) := by
  unfold holdCycle
  repeat' first
    | with_reducible assumption
    | with_reducible apply raiseInt_keeps
    | with_reducible apply Keeps.foldl
    | ((with_reducible apply Keeps.mk') <;> first | with_reducible assumption | with_reducible apply count_keeps | with_reducible apply raiseInt_keeps | with_reducible apply Keeps.foldl | with_reducible apply Keeps.foldl2 | with_reducible apply Keeps.foldl3 | (with_reducible refine Keeps.snd (by assumption) ?_) | (with_reducible refine Keeps.snd2 (by assumption) ?_) | with_reducible exact Nat.le_refl _ | with_reducible exact fun m => ⟨m.host, m.intake, m.fabric, m.nvm, m.sram, m.stk, m.owned, m.log, m.tiles, m.loc, m.saved⟩)
    | with_reducible refine Keeps.ite ?_ ?_
    | split
    | intro _

theorem ledgerRamp_keeps {s0 s : State} (h : Keeps s0 s) : Keeps s0 (ledgerRamp s) := by
  unfold ledgerRamp
  repeat' first
    | with_reducible apply count_keeps
    | ((with_reducible apply Keeps.mk') <;> first | with_reducible assumption | with_reducible apply count_keeps | with_reducible exact Nat.le_refl _ | with_reducible exact fun m => ⟨m.host, m.intake, m.fabric, m.nvm, m.sram, m.stk, m.owned, m.log, m.tiles, m.loc, m.saved⟩)

theorem waitOne_keeps {s0 s : State} (h : Keeps s0 s) : ∀ a1, Keeps s0 (waitOne s a1) := by
  intro a1
  unfold waitOne
  repeat' first
    | with_reducible assumption
    | with_reducible apply count_keeps
    | with_reducible apply raiseInt_keeps
    | with_reducible refine Keeps.ite ?_ ?_
    | split

theorem ledgerWaits_keeps {s0 s : State} (h : Keeps s0 s) : Keeps s0 (ledgerWaits s) := by
  unfold ledgerWaits
  repeat' first
    | with_reducible assumption
    | with_reducible apply waitOne_keeps
    | with_reducible apply count_keeps
    | ((with_reducible apply Keeps.mk') <;> first | with_reducible assumption | with_reducible apply waitOne_keeps | with_reducible apply count_keeps | with_reducible apply Keeps.foldl | (with_reducible refine Keeps.snd (by assumption) ?_) | (with_reducible refine Keeps.snd2 (by assumption) ?_) | with_reducible exact Nat.le_refl _ | with_reducible exact fun m => ⟨m.host, m.intake, m.fabric, m.nvm, m.sram, m.stk, m.owned, m.log, m.tiles, m.loc, m.saved⟩)
    | with_reducible refine Keeps.ite ?_ ?_
    | intro _

theorem overHeld_keeps {s0 s : State} (h : Keeps s0 s) : Keeps s0 (overHeld s) := by
  unfold overHeld
  repeat' first
    | with_reducible apply raiseInt_keeps
    | ((with_reducible apply Keeps.mk') <;> first | with_reducible assumption | with_reducible apply raiseInt_keeps | with_reducible exact Nat.le_refl _ | with_reducible exact fun m => ⟨m.host, m.intake, m.fabric, m.nvm, m.sram, m.stk, m.owned, m.log, m.tiles, m.loc, m.saved⟩)
    | with_reducible refine Keeps.ite ?_ ?_

theorem ledgerCycle_keeps {s0 s : State} (h : Keeps s0 s) : Keeps s0 (ledgerCycle s) := by
  unfold ledgerCycle
  repeat' first
    | with_reducible assumption
    | with_reducible apply ledgerWaits_keeps
    | with_reducible apply serveAll_keeps
    | with_reducible apply ledgerRamp_keeps
    | with_reducible apply overHeld_keeps
    | with_reducible refine Keeps.ite ?_ ?_

theorem clockTick_keeps {s0 s : State} (h : Keeps s0 s) : Keeps s0 (clockTick s) := by
  unfold clockTick
  extract_lets u1 u2 u3
  have h1 : Keeps s0 u1 := h.mk' (Nat.le_add_right _ _) fun m => ⟨m.host, m.intake, m.fabric, m.nvm, m.sram, m.stk, m.owned, m.log, m.tiles, m.loc, m.saved⟩
  clear_value u1
  have h2 : Keeps s0 u2 := Keeps.ite (findUpsets_keeps h1) h1
  clear_value u2
  have h3 : Keeps s0 u3 := chkCycle_keeps (portDraws_keeps (ledgerCycle_keeps h2))
  clear_value u3
  refine Keeps.ite h (Keeps.ite h2 (Keeps.ite ?_ (nightDrained_keeps (duskEnter_keeps h3))))
  exact duskEnter_keeps (duskDrained_keeps (restoreNext_keeps (afterGrants_keeps (runHeld_keeps (countOverruns_keeps (holdCycle_keeps (copyWaits_keeps (entryWaits_keeps (handoffCycle_keeps h3)))))))))

theorem runUntil_keeps {s0 s : State} (h : Keeps s0 s) : ∀ a1, Keeps s0 (runUntil a1 s) := by
  intro a1
  unfold runUntil
  repeat' first
    | with_reducible assumption
    | with_reducible apply clockTick_keeps
    | with_reducible apply Keeps.iter

theorem atInstant_keeps {s0 s : State} (h : Keeps s0 s) (r : State → Bool) (d : Int) (f : State → State)
    (hf : ∀ s, Keeps s0 s → Keeps s0 (f s)) : OutKeeps s0 (atInstant r d f s) := by
  unfold atInstant
  repeat' first
    | with_reducible assumption
    | with_reducible apply when_keeps
    | with_reducible apply runUntil_keeps
    | with_reducible apply hf
    | with_reducible refine Keeps.ite ?_ ?_

theorem execChannelGroupDrawReturn_keeps {s0 s : State} (h : Keeps s0 s) : ∀ a1 a2, OutKeeps s0 (execChannelGroupDrawReturn a1 a2 s) := by
  intro a1 a2
  unfold execChannelGroupDrawReturn
  repeat' first
    | with_reducible assumption
    | with_reducible apply atInstant_keeps
    | with_reducible apply ledgerReturn_keeps
    | split
    | intro _

theorem execLineEngineDrawReturn_keeps {s0 s : State} (h : Keeps s0 s) : OutKeeps s0 (execLineEngineDrawReturn s) := by
  unfold execLineEngineDrawReturn
  repeat' first
    | with_reducible assumption
    | with_reducible apply atInstant_keeps
    | with_reducible apply ledgerReturn_keeps
    | split
    | intro _

theorem execLinkTxDrawReturn_keeps {s0 s : State} (h : Keeps s0 s) : ∀ a1, OutKeeps s0 (execLinkTxDrawReturn a1 s) := by
  intro a1
  unfold execLinkTxDrawReturn
  repeat' first
    | with_reducible assumption
    | with_reducible apply atInstant_keeps
    | with_reducible apply ledgerReturn_keeps
    | split
    | intro _

theorem execLinkCensusEval_keeps {s0 s : State} (h : Keeps s0 s) : ∀ a1 a2, OutKeeps s0 (execLinkCensusEval a1 a2 s) := by
  intro a1 a2
  unfold execLinkCensusEval
  repeat' first
    | with_reducible assumption
    | with_reducible apply atInstant_keeps
    | with_reducible apply censusEval_keeps
    | split
    | intro _

theorem execRefreshEngineDrawReturn_keeps {s0 s : State} (h : Keeps s0 s) : OutKeeps s0 (execRefreshEngineDrawReturn s) := by
  unfold execRefreshEngineDrawReturn
  repeat' first
    | with_reducible assumption
    | with_reducible apply atInstant_keeps
    | with_reducible apply ledgerReturn_keeps
    | split
    | intro _

theorem execTableEngineDrawReturn_keeps {s0 s : State} (h : Keeps s0 s) : ∀ a1, OutKeeps s0 (execTableEngineDrawReturn a1 s) := by
  intro a1
  unfold execTableEngineDrawReturn
  repeat' first
    | with_reducible assumption
    | with_reducible apply atInstant_keeps
    | with_reducible apply ledgerReturn_keeps
    | split
    | intro _

theorem execReductionDrawReturn_keeps {s0 s : State} (h : Keeps s0 s) : ∀ a1, OutKeeps s0 (execReductionDrawReturn a1 s) := by
  intro a1
  unfold execReductionDrawReturn
  repeat' first
    | with_reducible assumption
    | with_reducible apply atInstant_keeps
    | with_reducible apply ledgerReturn_keeps
    | split
    | intro _

theorem execExporterDrawReturn_keeps {s0 s : State} (h : Keeps s0 s) : OutKeeps s0 (execExporterDrawReturn s) := by
  unfold execExporterDrawReturn
  repeat' first
    | with_reducible assumption
    | with_reducible apply atInstant_keeps
    | with_reducible apply ledgerReturn_keeps
    | split
    | intro _

theorem startFrame_keeps {s0 s : State} (h : Keeps s0 s) : ∀ a1 a2, Keeps s0 (startFrame a1 a2 s) := by
  intro a1 a2
  unfold startFrame
  repeat' first
    | with_reducible assumption
    | ((with_reducible apply Keeps.mk') <;> first | with_reducible assumption | with_reducible apply faultSummaries_keeps | with_reducible exact Nat.le_refl _ | with_reducible exact fun m => ⟨m.host, m.intake, m.fabric, m.nvm, m.sram, m.stk, m.owned, m.log, m.tiles, m.loc, m.saved⟩)

theorem lostFrame_keeps {s0 s : State} (h : Keeps s0 s) : Keeps s0 (lostFrame s) := by
  unfold lostFrame
  repeat' first
    | with_reducible assumption
    | ((with_reducible apply Keeps.mk') <;> first | with_reducible assumption | with_reducible apply startFrame_keeps | with_reducible exact Nat.le_refl _ | with_reducible exact fun m => ⟨m.host, m.intake, m.fabric, m.nvm, m.sram, m.stk, m.owned, m.log, m.tiles, m.loc, m.saved⟩)

theorem execLostFrameStart_keeps {s0 s : State} (h : Keeps s0 s) : OutKeeps s0 (execLostFrameStart s) := by
  unfold execLostFrameStart
  repeat' first
    | with_reducible assumption
    | with_reducible apply atInstant_keeps
    | with_reducible apply lostFrame_keeps

theorem deferTask_keeps {s0 s : State} (h : Keeps s0 s) : Keeps s0 (deferTask s) := by
  unfold deferTask
  repeat' first
    | with_reducible assumption
    | with_reducible apply count_keeps
    | with_reducible apply raiseInt_keeps

theorem updClk_keeps {s0 s : State} (h : Keeps s0 s) : ∀ a1, Keeps s0 (updClk a1 s) := by
  intro a1
  unfold updClk
  repeat' first
    | ((with_reducible apply Keeps.mk') <;> first | with_reducible assumption | with_reducible exact Nat.le_refl _ | with_reducible exact fun m => ⟨m.host, m.intake, m.fabric, m.nvm, m.sram, m.stk, m.owned, m.log, m.tiles, m.loc, m.saved⟩)

theorem reserveStart_keeps {s0 s : State} (h : Keeps s0 s) : Keeps s0 (reserveStart s) := by
  unfold reserveStart
  repeat' first
    | with_reducible assumption
    | with_reducible apply ledgerDrop_keeps
    | with_reducible apply deferTask_keeps
    | with_reducible apply refreshFrame_keeps
    | with_reducible apply updClk_keeps
    | with_reducible apply forceChunk_keeps
    | with_reducible apply ledgerReturn_keeps
    | with_reducible apply forcePieces_keeps
    | with_reducible apply Keeps.foldl
    | ((with_reducible apply Keeps.mk') <;> first | with_reducible assumption | with_reducible apply ledgerDrop_keeps | with_reducible apply deferTask_keeps | with_reducible apply refreshFrame_keeps | with_reducible apply updClk_keeps | with_reducible apply forceChunk_keeps | with_reducible apply ledgerReturn_keeps | with_reducible apply forcePieces_keeps | with_reducible apply Keeps.foldl | (with_reducible refine Keeps.snd (by assumption) ?_) | (with_reducible refine Keeps.snd2 (by assumption) ?_) | with_reducible exact Nat.le_refl _ | with_reducible exact fun m => ⟨m.host, m.intake, m.fabric, m.nvm, m.sram, m.stk, m.owned, m.log, m.tiles, m.loc, m.saved⟩)
    | with_reducible refine Keeps.ite ?_ ?_
    | intro _

theorem execProtectedReserveStart_keeps {s0 s : State} (h : Keeps s0 s) : OutKeeps s0 (execProtectedReserveStart s) := by
  unfold execProtectedReserveStart
  repeat' first
    | with_reducible assumption
    | with_reducible apply atInstant_keeps
    | with_reducible apply reserveStart_keeps

theorem rejectTick_keeps {s0 s : State} (h : Keeps s0 s) : Keeps s0 (rejectTick s) := by
  unfold rejectTick
  repeat' first
    | with_reducible assumption
    | with_reducible apply count_keeps

theorem lateTick_keeps {s0 s : State} (h : Keeps s0 s) : ∀ a1, Keeps s0 (lateTick a1 s) := by
  intro a1
  unfold lateTick
  repeat' first
    | with_reducible assumption
    | with_reducible apply count_keeps

theorem gatherCopy_keeps {s0 s : State} (h : Keeps s0 s) : ∀ a1 a2 a3 a4 a5 a6, Keeps s0 (gatherCopy a1 a2 a3 a4 a5 a6 s) := by
  intro a1 a2 a3 a4 a5 a6
  unfold gatherCopy
  repeat' first
    | with_reducible assumption
    | with_reducible apply updClk_keeps

theorem tickLocked_keeps {s0 s : State} (h : Keeps s0 s) : ∀ a1 a2 a3 a4 a5, Keeps s0 (tickLocked a1 a2 a3 a4 a5 s) := by
  intro a1 a2 a3 a4 a5
  unfold tickLocked
  repeat' first
    | with_reducible assumption
    | with_reducible apply gatherCopy_keeps
    | with_reducible apply lateTick_keeps
    | with_reducible apply rejectTick_keeps
    | with_reducible apply updClk_keeps
    | with_reducible refine Keeps.ite ?_ ?_

theorem tickSeeking_keeps {s0 s : State} (h : Keeps s0 s) : ∀ a1 a2 a3 a4 a5 a6, Keeps s0 (tickSeeking a1 a2 a3 a4 a5 a6 s) := by
  intro a1 a2 a3 a4 a5 a6
  unfold tickSeeking
  repeat' first
    | with_reducible assumption
    | with_reducible apply gatherCopy_keeps
    | with_reducible apply lateTick_keeps
    | with_reducible refine Keeps.ite ?_ ?_

theorem execTick_keeps {s0 s : State} (h : Keeps s0 s) : ∀ a1 a2 a3 a4, OutKeeps s0 (execTick a1 a2 a3 a4 s) := by
  intro a1 a2 a3 a4
  unfold execTick
  repeat' first
    | with_reducible assumption
    | with_reducible apply when_keeps
    | with_reducible apply tickLocked_keeps
    | with_reducible apply rejectTick_keeps
    | with_reducible apply tickSeeking_keeps
    | with_reducible apply OutKeeps.next
    | with_reducible refine Keeps.ite ?_ ?_
    | split

theorem plansOn_keeps {s0 s : State} (h : Keeps s0 s) : Keeps s0 (plansOn s) := by
  unfold plansOn
  repeat' first
    | ((with_reducible apply Keeps.mk') <;> first | with_reducible assumption | with_reducible exact Nat.le_refl _ | with_reducible exact fun m => ⟨m.host, m.intake, m.fabric, m.nvm, m.sram, m.stk, m.owned, m.log, m.tiles, m.loc, m.saved⟩)

theorem dropAsk_keeps {s0 s : State} (h : Keeps s0 s) : ∀ a1, Keeps s0 (dropAsk a1 s) := by
  intro a1
  unfold dropAsk
  repeat' first
    | with_reducible assumption
    | with_reducible apply ledgerDrop_keeps
    | with_reducible apply setUnit_keeps
    | with_reducible apply ledgerReturn_keeps
    | with_reducible refine Keeps.ite ?_ ?_

theorem dropAsks_keeps {s0 s : State} (h : Keeps s0 s) : Keeps s0 (dropAsks s) := by
  unfold dropAsks
  repeat' first
    | with_reducible assumption
    | with_reducible apply dropAsk_keeps
    | ((with_reducible apply Keeps.mk') <;> first | with_reducible assumption | with_reducible apply dropAsk_keeps | with_reducible apply Keeps.foldl | (with_reducible refine Keeps.snd (by assumption) ?_) | (with_reducible refine Keeps.snd2 (by assumption) ?_) | with_reducible exact Nat.le_refl _ | with_reducible exact fun m => ⟨m.host, m.intake, m.fabric, m.nvm, m.sram, m.stk, m.owned, m.log, m.tiles, m.loc, m.saved⟩)
    | intro _

theorem tickSteps_keeps {s0 s : State} (h : Keeps s0 s) : ∀ a1, Keeps s0 (tickSteps a1 s) := by
  intro a1
  unfold tickSteps
  repeat' first
    | with_reducible assumption
    | with_reducible apply spareSwaps_keeps
    | with_reducible apply exportTick_keeps
    | with_reducible apply admitAll_keeps
    | with_reducible apply switchAll_keeps
    | with_reducible apply powerTick_keeps
    | with_reducible apply plansOn_keeps
    | with_reducible apply midnight_keeps
    | with_reducible apply promoteAll_keeps
    | with_reducible apply updClk_keeps
    | with_reducible apply pump_keeps
    | with_reducible apply duskTick_keeps
    | with_reducible apply replicaStep_keeps
    | with_reducible apply dropAsks_keeps
    | with_reducible apply unmapEffects_keeps
    | with_reducible apply lookupFrame_keeps
    | with_reducible refine Keeps.ite ?_ ?_

theorem newFrame_keeps {s0 s : State} (h : Keeps s0 s) : ∀ a1 a2, Keeps s0 (newFrame a1 a2 s) := by
  intro a1 a2
  unfold newFrame
  repeat' first
    | with_reducible assumption
    | with_reducible apply tickSteps_keeps
    | with_reducible apply startFrame_keeps

theorem execFreerunFrameStart_keeps {s0 s : State} (h : Keeps s0 s) : OutKeeps s0 (execFreerunFrameStart s) := by
  unfold execFreerunFrameStart
  repeat' first
    | with_reducible assumption
    | with_reducible apply newFrame_keeps
    | with_reducible apply atInstant_keeps
    | intro _

theorem stopAllUnits_keeps {s0 s : State} (h : Keeps s0 s) : Keeps s0 (stopAllUnits s) := by
  unfold stopAllUnits
  repeat' first
    | with_reducible assumption
    | with_reducible apply saveChunk_keeps
    | with_reducible apply dropAsk_keeps
    | with_reducible apply Keeps.foldl
    | intro _

theorem holdCommand_keeps {s0 s : State} (h : Keeps s0 s) : ∀ a1, Keeps s0 (holdCommand s a1) := by
  intro a1
  unfold holdCommand
  repeat' first
    | with_reducible assumption
    | with_reducible apply updCid_keeps
    | with_reducible apply satisfy_keeps
    | with_reducible refine Keeps.ite ?_ ?_

theorem enterLost_keeps {s0 s : State} (h : Keeps s0 s) : ∀ a1, Keeps s0 (enterLost a1 s) := by
  intro a1
  unfold enterLost
  repeat' first
    | with_reducible assumption
    | with_reducible apply holdCommand_keeps
    | with_reducible apply stopAllUnits_keeps
    | with_reducible apply fault_keeps
    | with_reducible apply updClk_keeps
    | with_reducible apply dlxCloseAll_keeps
    | with_reducible apply raiseInt_keeps
    | ((with_reducible apply Keeps.mk') <;> first | with_reducible assumption | with_reducible apply holdCommand_keeps | with_reducible apply stopAllUnits_keeps | with_reducible apply fault_keeps | with_reducible apply updClk_keeps | with_reducible apply dlxCloseAll_keeps | with_reducible apply raiseInt_keeps | with_reducible apply Keeps.foldl | (with_reducible refine Keeps.snd (by assumption) ?_) | (with_reducible refine Keeps.snd2 (by assumption) ?_) | with_reducible exact Nat.le_refl _ | with_reducible exact fun m => ⟨m.host, m.intake, m.fabric, m.nvm, m.sram, m.stk, m.owned, m.log, m.tiles, m.loc, m.saved⟩)
    | intro _

theorem missTick_keeps {s0 s : State} (h : Keeps s0 s) : Keeps s0 (missTick s) := by
  unfold missTick
  repeat' first
    | with_reducible assumption
    | with_reducible apply newFrame_keeps
    | with_reducible apply enterLost_keeps
    | with_reducible apply updClk_keeps
    | with_reducible apply lostFrame_keeps
    | with_reducible apply count_keeps
    | with_reducible apply raiseInt_keeps
    | with_reducible refine Keeps.ite ?_ ?_

theorem emitTick_keeps {s0 s : State} (h : Keeps s0 s) : ∀ a1, Keeps s0 (emitTick a1 s) := by
  intro a1
  unfold emitTick
  repeat' first
    | with_reducible assumption
    | with_reducible apply updPort_keeps
    | with_reducible apply updClk_keeps
    | with_reducible apply Keeps.foldl
    | intro _

theorem execTickMissed_keeps {s0 s : State} (h : Keeps s0 s) : OutKeeps s0 (execTickMissed s) := by
  unfold execTickMissed
  repeat' first
    | with_reducible assumption
    | with_reducible apply atInstant_keeps
    | with_reducible apply missTick_keeps

theorem lockTo_keeps {s0 s : State} (h : Keeps s0 s) : ∀ a1 a2 a3, Keeps s0 (lockTo a1 a2 a3 s) := by
  intro a1 a2 a3
  unfold lockTo
  repeat' first
    | with_reducible assumption
    | with_reducible apply newFrame_keeps
    | with_reducible apply updClk_keeps
    | with_reducible apply startFrame_keeps
    | with_reducible refine Keeps.ite ?_ ?_

theorem discipline_keeps {s0 s : State} (h : Keeps s0 s) : ∀ a1, Keeps s0 (discipline a1 s) := by
  intro a1
  unfold discipline
  repeat' first
    | with_reducible assumption
    | with_reducible apply freeVal_keeps
    | with_reducible apply updClk_keeps

theorem seekEnd_keeps {s0 s : State} (h : Keeps s0 s) : ∀ a1 a2 a3, Keeps s0 (seekEnd a1 a2 a3 s) := by
  intro a1 a2 a3
  unfold seekEnd
  repeat' first
    | with_reducible assumption
    | with_reducible apply updClk_keeps
    | with_reducible apply discipline_keeps
    | with_reducible apply lockTo_keeps
    | with_reducible refine Keeps.ite ?_ ?_

theorem noteOffset_keeps {s0 s : State} (h : Keeps s0 s) : ∀ a1, Keeps s0 (noteOffset a1 s) := by
  intro a1
  unfold noteOffset
  repeat' first
    | with_reducible assumption
    | with_reducible apply setReg_keeps

theorem gatherEnd_keeps {s0 s : State} (h : Keeps s0 s) : ∀ a1, Keeps s0 (gatherEnd a1 s) := by
  intro a1
  unfold gatherEnd
  repeat' first
    | with_reducible assumption
    | with_reducible apply noteOffset_keeps
    | with_reducible apply newFrame_keeps
    | with_reducible apply seekEnd_keeps
    | with_reducible apply lateTick_keeps
    | with_reducible apply updClk_keeps
    | with_reducible apply discipline_keeps
    | with_reducible apply Keeps.foldl
    | with_reducible refine Keeps.ite ?_ ?_
    | split
    | intro _
    | dsimp only

theorem execHotWindowEnd_keeps {s0 s : State} (h : Keeps s0 s) : OutKeeps s0 (execHotWindowEnd s) := by
  unfold execHotWindowEnd
  repeat' first
    | with_reducible assumption
    | with_reducible apply atInstant_keeps
    | with_reducible apply hotWindow_keeps
    | intro _

theorem selfTick_keeps {s0 s : State} (h : Keeps s0 s) : Keeps s0 (selfTick s) := by
  unfold selfTick
  repeat' first
    | with_reducible assumption
    | with_reducible apply emitTick_keeps
    | with_reducible apply newFrame_keeps
    | with_reducible apply pump_keeps

theorem execSelfTick_keeps {s0 s : State} (h : Keeps s0 s) : OutKeeps s0 (execSelfTick s) := by
  unfold execSelfTick
  repeat' first
    | with_reducible assumption
    | with_reducible apply selfTick_keeps
    | with_reducible apply atInstant_keeps

theorem execRetrainStep_keeps {s0 s : State} (h : Keeps s0 s) : ∀ a1 a2, OutKeeps s0 (execRetrainStep a1 a2 s) := by
  intro a1 a2
  unfold execRetrainStep
  repeat' first
    | with_reducible assumption
    | with_reducible apply atInstant_keeps
    | with_reducible apply retrainStep_keeps
    | intro _

theorem askDelays_keeps {s0 s : State} (h : Keeps s0 s) : Keeps s0 (askDelays s) := by
  unfold askDelays
  repeat' first
    | with_reducible assumption
    | with_reducible apply updPort_keeps
    | with_reducible apply pump_keeps
    | with_reducible apply Keeps.foldl
    | intro _

theorem planTest_keeps {s0 s : State} (h : Keeps s0 s) : Keeps s0 (planTest s) := by
  unfold planTest
  repeat' first
    | with_reducible assumption
    | ((with_reducible apply Keeps.mk') <;> first | with_reducible assumption | with_reducible exact Nat.le_refl _ | with_reducible exact fun m => ⟨m.host, m.intake, m.fabric, m.nvm, m.sram, m.stk, m.owned, m.log, m.tiles, m.loc, m.saved⟩)
    | with_reducible refine Keeps.ite ?_ ?_
    | split
    | dsimp only

theorem sliceStart_keeps {s0 s : State} (h : Keeps s0 s) : Keeps s0 (sliceStart s) := by
  unfold sliceStart
  repeat' first
    | with_reducible apply hotAtSlice_keeps
    | with_reducible apply askDelays_keeps
    | with_reducible apply planSteps_keeps
    | with_reducible apply planTest_keeps
    | ((with_reducible apply Keeps.mk') <;> first | with_reducible assumption | with_reducible apply hotAtSlice_keeps | with_reducible apply askDelays_keeps | with_reducible apply planSteps_keeps | with_reducible apply planTest_keeps | with_reducible exact Nat.le_refl _ | with_reducible exact fun m => ⟨m.host, m.intake, m.fabric, m.nvm, m.sram, m.stk, m.owned, m.log, m.tiles, m.loc, m.saved⟩)
    | with_reducible refine Keeps.ite ?_ ?_

theorem execMaintenanceSliceStart_keeps {s0 s : State} (h : Keeps s0 s) : OutKeeps s0 (execMaintenanceSliceStart s) := by
  unfold execMaintenanceSliceStart
  repeat' first
    | with_reducible assumption
    | with_reducible apply atInstant_keeps
    | with_reducible apply sliceStart_keeps

theorem execTickGatherEnd_keeps {s0 s : State} (h : Keeps s0 s) : OutKeeps s0 (execTickGatherEnd s) := by
  unfold execTickGatherEnd
  repeat' first
    | with_reducible assumption
    | with_reducible apply atInstant_keeps
    | with_reducible apply gatherEnd_keeps
    | with_reducible apply OutKeeps.next
    | split
    | intro _

theorem execWorkWindowEnd_keeps {s0 s : State} (h : Keeps s0 s) : OutKeeps s0 (execWorkWindowEnd s) := by
  unfold execWorkWindowEnd
  repeat' first
    | with_reducible assumption
    | with_reducible apply atInstant_keeps
    | with_reducible apply workWindowEnd_keeps
    | ((with_reducible apply Keeps.mk') <;> first | with_reducible assumption | with_reducible apply atInstant_keeps | with_reducible apply workWindowEnd_keeps | with_reducible apply OutKeeps.next | with_reducible exact OutKeeps.fault | with_reducible exact Nat.le_refl _ | with_reducible exact fun m => ⟨m.host, m.intake, m.fabric, m.nvm, m.sram, m.stk, m.owned, m.log, m.tiles, m.loc, m.saved⟩)
    | intro _

theorem execSlotStart_keeps {s0 s : State} (h : Keeps s0 s) : ∀ a1, OutKeeps s0 (execSlotStart a1 s) := by
  intro a1
  unfold execSlotStart
  repeat' first
    | with_reducible assumption
    | with_reducible apply atInstant_keeps
    | with_reducible apply slotStart_keeps
    | intro _

theorem execDlyResp_keeps {s0 s : State} (h : Keeps s0 s) : ∀ a1 a2 a3, OutKeeps s0 (execDlyResp a1 a2 a3 s) := by
  intro a1 a2 a3
  unfold execDlyResp
  repeat' first
    | with_reducible assumption
    | with_reducible apply freeVal_keeps
    | with_reducible apply when_keeps
    | with_reducible apply updClk_keeps
    | with_reducible refine Keeps.ite ?_ ?_

theorem execDigestSample_keeps {s0 s : State} (h : Keeps s0 s) : OutKeeps s0 (execDigestSample s) := by
  unfold execDigestSample
  repeat' first
    | with_reducible assumption
    | with_reducible apply atInstant_keeps
    | with_reducible apply digestSample_keeps
    | split
    | intro _

theorem copyUsed_keeps {s0 s : State} (h : Keeps s0 s) : ∀ a1 a2, Keeps s0 (copyUsed a1 a2 s) := by
  intro a1 a2
  unfold copyUsed
  repeat' first
    | with_reducible assumption
    | with_reducible apply updDawn_keeps

theorem enrol_keeps {s0 s : State} (h : Keeps s0 s) : Keeps s0 (enrol s) := by
  unfold enrol
  repeat' first
    | with_reducible apply copyUsed_keeps
    | with_reducible apply putRb_keeps
    | with_reducible apply putIdent_keeps
    | ((with_reducible apply Keeps.mk') <;> first | with_reducible assumption | with_reducible apply copyUsed_keeps | with_reducible apply putRb_keeps | with_reducible apply putIdent_keeps | with_reducible exact Nat.le_refl _ | with_reducible exact fun m => ⟨m.host, m.intake, m.fabric, m.nvm, m.sram, m.stk, m.owned, m.log, m.tiles, m.loc, m.saved⟩)

theorem toStage_keeps {s0 s : State} (h : Keeps s0 s) : ∀ a1, Keeps s0 (toStage a1 s) := by
  intro a1
  unfold toStage
  repeat' first
    | with_reducible assumption
    | with_reducible apply updDawn_keeps

theorem clockSet_keeps {s0 s : State} (h : Keeps s0 s) : Keeps s0 (clockSet s) := by
  unfold clockSet
  repeat' first
    | with_reducible assumption
    | with_reducible apply toStage_keeps
    | with_reducible apply updDawn_keeps

theorem execDawnTickLock_keeps {s0 s : State} (h : Keeps s0 s) : OutKeeps s0 (execDawnTickLock s) := by
  unfold execDawnTickLock
  repeat' first
    | with_reducible assumption
    | with_reducible apply clockSet_keeps
    | with_reducible apply when_keeps

theorem declare_keeps {s0 s : State} (h : Keeps s0 s) : ∀ a1, Keeps s0 (declare a1 s) := by
  intro a1
  unfold declare
  repeat' first
    | with_reducible assumption
    | with_reducible apply faultSummaries_keeps
    | with_reducible apply raiseIbi_keeps
    | with_reducible apply raiseInt_keeps
    | ((with_reducible apply Keeps.mk') <;> first | with_reducible assumption | with_reducible apply faultSummaries_keeps | with_reducible apply raiseIbi_keeps | with_reducible apply toStage_keeps | with_reducible apply raiseInt_keeps | with_reducible exact Nat.le_refl _ | with_reducible exact fun m => ⟨m.host, m.intake, m.fabric, m.nvm, m.sram, m.stk, m.owned, m.log, m.tiles, m.loc, m.saved⟩)
    | with_reducible refine Keeps.ite ?_ ?_

theorem probeRail_keeps {s0 s : State} (h : Keeps s0 s) : ∀ a1, Keeps s0 (probeRail a1 s) := by
  intro a1
  unfold probeRail
  repeat' first
    | with_reducible assumption
    | ((with_reducible apply Keeps.mk') <;> first | with_reducible assumption | with_reducible apply freeVal_keeps | (with_reducible refine Keeps.snd (by assumption) ?_) | (with_reducible refine Keeps.snd2 (by assumption) ?_) | with_reducible exact Nat.le_refl _ | with_reducible exact fun m => ⟨m.host, m.intake, m.fabric, m.nvm, m.sram, m.stk, m.owned, m.log, m.tiles, m.loc, m.saved⟩)
    | with_reducible refine Keeps.ite ?_ ?_

theorem lastFindings_keeps {s0 s : State} (h : Keeps s0 s) : Keeps s0 (lastFindings s) := by
  unfold lastFindings
  repeat' first
    | with_reducible assumption
    | with_reducible apply probeRail_keeps
    | with_reducible apply finding_keeps
    | with_reducible apply Keeps.foldl
    | with_reducible refine Keeps.ite ?_ ?_
    | intro _

theorem failDawn_keeps {s0 s : State} (h : Keeps s0 s) : ∀ a1, Keeps s0 (failDawn a1 s) := by
  intro a1
  unfold failDawn
  repeat' first
    | with_reducible assumption
    | with_reducible apply ledgerDrop_keeps
    | with_reducible apply lastFindings_keeps
    | with_reducible apply finding_keeps
    | ((with_reducible apply Keeps.mk') <;> first | with_reducible assumption | with_reducible apply ledgerDrop_keeps | with_reducible apply lastFindings_keeps | with_reducible apply finding_keeps | with_reducible apply declare_keeps | with_reducible exact Nat.le_refl _ | with_reducible exact fun m => ⟨m.host, m.intake, m.fabric, m.nvm, m.sram, m.stk, m.owned, m.log, m.tiles, m.loc, m.saved⟩)

theorem enterRecovery_keeps {s0 s : State} (h : Keeps s0 s) : Keeps s0 (enterRecovery s) := by
  unfold enterRecovery
  repeat' first
    | with_reducible apply failDawn_keeps
    | with_reducible apply raiseInt_keeps
    | ((with_reducible apply Keeps.mk') <;> first | with_reducible assumption | with_reducible apply failDawn_keeps | with_reducible apply raiseInt_keeps | with_reducible exact Nat.le_refl _ | with_reducible exact fun m => ⟨m.host, m.intake, m.fabric, m.nvm, m.sram, m.stk, m.owned, m.log, m.tiles, m.loc, m.saved⟩)

theorem askStanding_keeps {s0 s : State} (h : Keeps s0 s) : ∀ a1, Keeps s0 (askStanding a1 s) := by
  intro a1
  unfold askStanding
  repeat' first
    | with_reducible assumption
    | with_reducible apply ledgerRequest_keeps
    | with_reducible refine Keeps.ite ?_ ?_

theorem settleStanding_keeps {s0 s : State} (h : Keeps s0 s) : Keeps s0 (settleStanding s) := by
  unfold settleStanding
  repeat' first
    | with_reducible assumption
    | with_reducible apply serveAll_keeps
    | ((with_reducible apply Keeps.mk') <;> first | with_reducible assumption | with_reducible apply ledgerDrop_keeps | with_reducible apply serveAll_keeps | with_reducible exact Nat.le_refl _ | with_reducible exact fun m => ⟨m.host, m.intake, m.fabric, m.nvm, m.sram, m.stk, m.owned, m.log, m.tiles, m.loc, m.saved⟩)

theorem stackTraining_keeps {s0 s : State} (h : Keeps s0 s) : ∀ a1, Keeps s0 (stackTraining a1 s) := by
  intro a1
  unfold stackTraining
  repeat' first
    | with_reducible assumption
    | with_reducible apply failDawn_keeps
    | with_reducible apply settleStanding_keeps
    | with_reducible apply toStage_keeps
    | with_reducible apply askStanding_keeps
    | with_reducible apply updDawn_keeps
    | ((with_reducible apply Keeps.mk') <;> first | with_reducible assumption | with_reducible apply finding_keeps | with_reducible apply failDawn_keeps | with_reducible apply settleStanding_keeps | with_reducible apply toStage_keeps | with_reducible apply askStanding_keeps | with_reducible apply updDawn_keeps | with_reducible exact Nat.le_refl _ | with_reducible exact fun m => ⟨m.host, m.intake, m.fabric, m.nvm, m.sram, m.stk, m.owned, m.log, m.tiles, m.loc, m.saved⟩)
    | with_reducible refine Keeps.ite ?_ ?_
    | split

theorem putAssign_keeps {s0 s : State} (h : Keeps s0 s) : ∀ a1, Keeps s0 (putAssign a1 s) := by
  intro a1
  unfold putAssign
  repeat' first
    | with_reducible assumption
    | with_reducible apply finding_keeps
    | with_reducible apply updDawn_keeps
    | ((with_reducible apply Keeps.mk') <;> first | with_reducible apply Keeps.foldl | with_reducible exact Nat.le_refl _ | exact fun m => ⟨m.host, m.intake, m.fabric, m.nvm, m.sram, m.stk, m.owned, m.log, (fun p hp => by obtain ⟨k, _, rfl⟩ := List.mem_map.1 hp; exact ⟨rfl⟩), m.loc, m.saved⟩)
    | split
    | intro _

theorem sramMarch_keeps {s0 s : State} (h : Keeps s0 s) : ∀ a1, Keeps s0 (sramMarch a1 s) := by
  intro a1
  unfold sramMarch
  repeat' first
    | with_reducible assumption
    | with_reducible apply finding_keeps
    | with_reducible apply putAssign_keeps
    | with_reducible apply failDawn_keeps
    | with_reducible apply settleStanding_keeps
    | with_reducible apply toStage_keeps
    | with_reducible apply updDawn_keeps
    | with_reducible refine Keeps.ite ?_ ?_

theorem portsTraining_keeps {s0 s : State} (h : Keeps s0 s) : Keeps s0 (portsTraining s) := by
  unfold portsTraining
  repeat' first
    | ((with_reducible apply Keeps.mk') <;> first | with_reducible assumption | with_reducible exact Nat.le_refl _ | with_reducible exact fun m => ⟨m.host, m.intake, m.fabric, m.nvm, m.sram, m.stk, m.owned, m.log, m.tiles, m.loc, m.saved⟩)

theorem firmware_keeps {s0 s : State} (h : Keeps s0 s) : ∀ a1, Keeps s0 (firmware a1 s) := by
  intro a1
  unfold firmware
  repeat' first
    | with_reducible assumption
    | with_reducible apply copyUsed_keeps
    | with_reducible apply finding_keeps
    | with_reducible apply putAssign_keeps
    | with_reducible apply failDawn_keeps
    | with_reducible apply portsTraining_keeps
    | with_reducible apply toStage_keeps
    | with_reducible apply askStanding_keeps
    | ((with_reducible apply Keeps.mk') <;> first | with_reducible assumption | with_reducible apply copyUsed_keeps | with_reducible apply finding_keeps | with_reducible apply putAssign_keeps | with_reducible apply failDawn_keeps | with_reducible apply portsTraining_keeps | with_reducible apply toStage_keeps | with_reducible apply askStanding_keeps | with_reducible exact Nat.le_refl _ | with_reducible exact fun m => ⟨m.host, m.intake, m.fabric, m.nvm, m.sram, m.stk, m.owned, m.log, m.tiles, m.loc, m.saved⟩)
    | with_reducible refine Keeps.ite ?_ ?_
    | split

theorem trainedSoFar_keeps {s0 s : State} (h : Keeps s0 s) : Keeps s0 (trainedSoFar s).2 := by
  unfold trainedSoFar
  repeat' first
    | with_reducible assumption
    | with_reducible apply freeVal_keeps
    | with_reducible apply Keeps.foldl2
    | (with_reducible refine Keeps.snd (by assumption) ?_)
    | split
    | intro _
    | dsimp only

theorem dawnSpares_keeps {s0 s : State} (h : Keeps s0 s) : Keeps s0 (dawnSpares s) := by
  unfold dawnSpares
  repeat' first
    | with_reducible assumption
    | with_reducible apply updPort_keeps
    | with_reducible apply setPort_keeps
    | with_reducible apply Keeps.foldl
    | with_reducible refine Keeps.ite ?_ ?_
    | split
    | intro _
    | dsimp only

theorem freeBufs_keeps {s0 s : State} (h : Keeps s0 s) : Keeps s0 (freeBufs s).2 := by
  unfold freeBufs
  repeat' first
    | with_reducible assumption
    | with_reducible apply freeVal_keeps
    | with_reducible apply Keeps.foldl2
    | (with_reducible refine Keeps.snd (by assumption) ?_)
    | split
    | intro _

theorem censusPort_keeps {s0 s : State} (h : Keeps s0 s) : ∀ a1 a2, Keeps s0 (censusPort a1 a2 s) := by
  intro a1 a2
  unfold censusPort
  repeat' first
    | with_reducible assumption
    | with_reducible apply freeBufs_keeps
    | with_reducible apply fault_keeps
    | with_reducible apply setPort_keeps
    | with_reducible apply raiseInt_keeps
    | (with_reducible refine Keeps.snd (by assumption) ?_)
    | with_reducible refine Keeps.ite ?_ ?_
    | split
    | dsimp only

theorem goFreerun_keeps {s0 s : State} (h : Keeps s0 s) : Keeps s0 (goFreerun s) := by
  unfold goFreerun
  repeat' first
    | with_reducible assumption
    | with_reducible apply newFrame_keeps
    | with_reducible apply finding_keeps
    | with_reducible apply updClk_keeps

theorem startLock_keeps {s0 s : State} (h : Keeps s0 s) : Keeps s0 (startLock s) := by
  unfold startLock
  repeat' first
    | with_reducible assumption
    | with_reducible apply emitTick_keeps
    | with_reducible apply askDelays_keeps
    | with_reducible apply newFrame_keeps
    | with_reducible apply goFreerun_keeps
    | with_reducible apply updClk_keeps
    | with_reducible refine Keeps.ite ?_ ?_

theorem linkCensus_keeps {s0 s : State} (h : Keeps s0 s) : ∀ a1, Keeps s0 (linkCensus a1 s) := by
  intro a1
  unfold linkCensus
  repeat' first
    | with_reducible assumption
    | with_reducible apply startLock_keeps
    | with_reducible apply dawnSpares_keeps
    | with_reducible apply finding_keeps
    | with_reducible apply failDawn_keeps
    | with_reducible apply settleStanding_keeps
    | with_reducible apply censusPort_keeps
    | with_reducible apply toStage_keeps
    | with_reducible apply Keeps.foldl
    | with_reducible refine Keeps.ite ?_ ?_
    | intro _

theorem notDone_keeps {s0 s : State} (h : Keeps s0 s) {α : Type} (l : List α) : Keeps s0 (notDone l s).2 := by
  unfold notDone
  refine Keeps.foldl2 h fun a x ha => ?_
  exact Keeps.snd rfl (freeVal_keeps ha)

theorem banksNotDone_keeps {s0 s : State} (h : Keeps s0 s) : Keeps s0 (banksNotDone s).2 := by
  unfold banksNotDone
  repeat' first
    | with_reducible assumption
    | with_reducible apply notDone_keeps

theorem coresNotDone_keeps {s0 s : State} (h : Keeps s0 s) : Keeps s0 (coresNotDone s).2 := by
  unfold coresNotDone
  repeat' first
    | with_reducible assumption
    | with_reducible apply notDone_keeps

theorem stageLimit_keeps {s0 s : State} (h : Keeps s0 s) : Keeps s0 (stageLimit s) := by
  unfold stageLimit
  repeat' first
    | with_reducible assumption
    | with_reducible apply firmware_keeps
    | with_reducible apply clockSet_keeps
    | with_reducible apply sramMarch_keeps
    | with_reducible apply coresNotDone_keeps
    | with_reducible apply goFreerun_keeps
    | with_reducible apply notDone_keeps
    | with_reducible apply failDawn_keeps
    | with_reducible apply stackTraining_keeps
    | with_reducible apply enterRecovery_keeps
    | with_reducible apply banksNotDone_keeps
    | with_reducible apply trainedSoFar_keeps
    | with_reducible apply linkCensus_keeps
    | with_reducible refine Keeps.ite ?_ ?_
    | split

theorem execDawnFirmware_keeps {s0 s : State} (h : Keeps s0 s) : ∀ a1, OutKeeps s0 (execDawnFirmware a1 s) := by
  intro a1
  unfold execDawnFirmware
  repeat' first
    | with_reducible assumption
    | with_reducible apply firmware_keeps
    | with_reducible apply when_keeps

theorem execVddAonRemoved_keeps {s0 s : State} (h : Keeps s0 s) : OutKeeps s0 (execVddAonRemoved s) := by
  unfold execVddAonRemoved
  repeat' first
    | with_reducible apply OutKeeps.next
    | ((with_reducible apply Keeps.mk') <;> first | with_reducible assumption | with_reducible apply OutKeeps.next | with_reducible exact OutKeeps.fault | with_reducible exact Nat.le_refl _ | with_reducible exact fun m => ⟨m.host, m.intake, m.fabric, m.nvm, m.sram, m.stk, m.owned, m.log, m.tiles, m.loc, m.saved⟩)

theorem loseState_keeps {s0 s : State} (h : Keeps s0 s) : Keeps s0 (loseState s) :=
  h.mk' (Nat.le_refl _) fun m => ⟨m.host, rfl, rfl, m.nvm, rfl, rfl, rfl, (fun _ e => by cases e), (fun _ hp => by cases hp), (fun _ hp => by cases hp), (fun _ hp => by cases hp)⟩

theorem heldReset_keeps {s0 s : State} (h : Keeps s0 s) : Keeps s0 (heldReset s) := by
  have h1 := loseState_keeps h
  unfold heldReset
  generalize loseState s = s1 at h1 ⊢
  exact ⟨h1.pending, h1.now, fun m0 => have m := h1.mems m0; ⟨m.host, m.intake, m.fabric, m.nvm, m.sram, (h.mems m0).stk, m.owned, m.log, m.tiles, m.loc, m.saved⟩⟩

theorem execPerstN_keeps {s0 s : State} (h : Keeps s0 s) : ∀ a1, OutKeeps s0 (execPerstN a1 s) := by
  intro a1
  unfold execPerstN
  repeat' first
    | with_reducible assumption
    | with_reducible apply when_keeps
    | with_reducible apply heldReset_keeps

theorem readModes_keeps {s0 s : State} (h : Keeps s0 s) : Keeps s0 (readModes s) := by
  unfold readModes
  repeat' first
    | with_reducible assumption
    | with_reducible apply freeVal_keeps
    | with_reducible apply Keeps.foldl
    | ((with_reducible apply Keeps.mk') <;> first | with_reducible assumption | with_reducible apply freeVal_keeps | with_reducible apply Keeps.foldl | (with_reducible refine Keeps.snd (by assumption) ?_) | (with_reducible refine Keeps.snd2 (by assumption) ?_) | with_reducible exact Nat.le_refl _ | with_reducible exact fun m => ⟨m.host, m.intake, m.fabric, m.nvm, m.sram, m.stk, m.owned, m.log, m.tiles, m.loc, m.saved⟩)
    | split
    | intro _

theorem applyManifest_keeps {s0 s : State} (h : Keeps s0 s) : ∀ a1, Keeps s0 (applyManifest a1 s) := by
  intro a1
  unfold applyManifest
  repeat' first
    | with_reducible apply toStage_keeps
    | with_reducible apply askStanding_keeps
    | with_reducible apply readModes_keeps
    | ((with_reducible apply Keeps.mk') <;> first | with_reducible assumption | with_reducible apply toStage_keeps | with_reducible apply askStanding_keeps | with_reducible apply readModes_keeps | with_reducible exact Nat.le_refl _ | with_reducible exact fun m => ⟨m.host, m.intake, m.fabric, m.nvm, m.sram, m.stk, m.owned, m.log, m.tiles, m.loc, m.saved⟩)

theorem manifestStage_keeps {s0 s : State} (h : Keeps s0 s) : Keeps s0 (manifestStage s) := by
  unfold manifestStage
  repeat' first
    | with_reducible assumption
    | with_reducible apply copyUsed_keeps
    | with_reducible apply applyManifest_keeps
    | with_reducible apply finding_keeps
    | with_reducible apply failDawn_keeps
    | ((with_reducible apply Keeps.mk') <;> first | with_reducible assumption | with_reducible apply copyUsed_keeps | with_reducible apply applyManifest_keeps | with_reducible apply finding_keeps | with_reducible apply failDawn_keeps | with_reducible exact Nat.le_refl _ | with_reducible exact fun m => ⟨m.host, m.intake, m.fabric, m.nvm, m.sram, m.stk, m.owned, m.log, m.tiles, m.loc, m.saved⟩)
    | with_reducible refine Keeps.ite ?_ ?_
    | split

theorem identityDone_keeps {s0 s : State} (h : Keeps s0 s) : ∀ a1, Keeps s0 (identityDone a1 s) := by
  intro a1
  unfold identityDone
  repeat' first
    | with_reducible apply toStage_keeps
    | ((with_reducible apply Keeps.mk') <;> first | with_reducible assumption | with_reducible apply toStage_keeps | with_reducible exact Nat.le_refl _ | with_reducible exact fun m => ⟨m.host, m.intake, m.fabric, m.nvm, m.sram, m.stk, m.owned, m.log, m.tiles, m.loc, m.saved⟩)

theorem otherRecord_keeps {s0 s : State} (h : Keeps s0 s) : Keeps s0 (otherRecord s) := by
  unfold otherRecord
  repeat' first
    | with_reducible assumption
    | with_reducible apply finding_keeps
    | with_reducible apply failDawn_keeps
    | with_reducible apply toStage_keeps
    | with_reducible apply updDawn_keeps
    | ((with_reducible apply Keeps.mk') <;> first | with_reducible assumption | with_reducible apply finding_keeps | with_reducible apply failDawn_keeps | with_reducible apply toStage_keeps | with_reducible apply updDawn_keeps | with_reducible exact Nat.le_refl _ | with_reducible exact fun m => ⟨m.host, m.intake, m.fabric, m.nvm, m.sram, m.stk, m.owned, m.log, m.tiles, m.loc, m.saved⟩)
    | split

theorem identity_keeps {s0 s : State} (h : Keeps s0 s) : Keeps s0 (identity s) := by
  unfold identity
  repeat' first
    | with_reducible assumption
    | with_reducible apply enrol_keeps
    | with_reducible apply failDawn_keeps
    | with_reducible apply toStage_keeps
    | with_reducible apply identityDone_keeps
    | with_reducible apply otherRecord_keeps
    | ((with_reducible apply Keeps.mk') <;> first | with_reducible assumption | with_reducible apply enrol_keeps | with_reducible apply failDawn_keeps | with_reducible apply toStage_keeps | with_reducible apply identityDone_keeps | with_reducible apply otherRecord_keeps | with_reducible exact Nat.le_refl _ | with_reducible exact fun m => ⟨m.host, m.intake, m.fabric, m.nvm, m.sram, m.stk, m.owned, m.log, m.tiles, m.loc, m.saved⟩)
    | with_reducible refine Keeps.ite ?_ ?_
    | split

theorem execPllLock_keeps {s0 s : State} (h : Keeps s0 s) : OutKeeps s0 (execPllLock s) := by
  unfold execPllLock
  repeat' first
    | with_reducible assumption
    | with_reducible apply when_keeps
    | with_reducible apply toStage_keeps

theorem bootVerify_keeps {s0 s : State} (h : Keeps s0 s) : Keeps s0 (bootVerify s) := by
  delta bootVerify
  generalize (if s.dawn.rbRetry then (s.adnt.rbIsB, some s.adnt.rb) else pickRb s) = p
  split
  extract_lets dir a d s1 a2
  have h1 : Keeps s0 s1 := by
    refine copyUsed_keeps ?_ _ _
    exact h.mk' (Nat.le_refl _) fun m => ⟨m.host, m.intake, m.fabric, m.nvm, rfl, m.stk, m.owned, m.log, m.tiles, m.loc, m.saved⟩
  clear_value s1
  split
  · exact enterRecovery_keeps h1
  · dsimp only
    apply toStage_keeps
    split
    · refine finding_keeps (copyUsed_keeps ?_ _ _) _
      exact h1.mk' (Nat.le_refl _) fun m => ⟨m.host, m.intake, m.fabric, m.nvm, m.sram, m.stk, m.owned, m.log, m.tiles, m.loc, m.saved⟩
    · refine copyUsed_keeps ?_ _ _
      exact h1.mk' (Nat.le_refl _) fun m => ⟨m.host, m.intake, m.fabric, m.nvm, m.sram, m.stk, m.owned, m.log, m.tiles, m.loc, m.saved⟩

theorem execDawnBootVerify_keeps {s0 s : State} (h : Keeps s0 s) : OutKeeps s0 (execDawnBootVerify s) := by
  unfold execDawnBootVerify
  repeat' first
    | with_reducible assumption
    | with_reducible apply bootVerify_keeps
    | with_reducible apply when_keeps

theorem execDawnManifest_keeps {s0 s : State} (h : Keeps s0 s) : OutKeeps s0 (execDawnManifest s) := by
  unfold execDawnManifest
  repeat' first
    | with_reducible assumption
    | with_reducible apply when_keeps
    | with_reducible apply manifestStage_keeps

theorem outcome_keeps {s0 s : State} (h : Keeps s0 s) : Keeps s0 (outcome s) := by
  unfold outcome
  repeat' first
    | with_reducible assumption
    | with_reducible apply lastFindings_keeps
    | with_reducible apply declare_keeps

theorem startDawn_keeps {s0 s : State} (h : Keeps s0 s) : Keeps s0 (startDawn s) := by
  unfold startDawn
  repeat' first
    | with_reducible assumption
    | with_reducible apply drawBytes_keeps
    | with_reducible apply draw64_keeps
    | ((with_reducible apply Keeps.mk') <;> first | with_reducible assumption | with_reducible apply drawBytes_keeps | with_reducible apply draw64_keeps | (with_reducible refine Keeps.snd (by assumption) ?_) | (with_reducible refine Keeps.snd2 (by assumption) ?_) | with_reducible exact Nat.le_refl _ | with_reducible exact fun m => ⟨m.host, m.intake, m.fabric, m.nvm, m.sram, m.stk, m.owned, m.log, m.tiles, m.loc, m.saved⟩)

theorem execPowerGood_keeps {s0 s : State} (h : Keeps s0 s) : OutKeeps s0 (execPowerGood s) := by
  unfold execPowerGood
  repeat' first
    | with_reducible assumption
    | with_reducible apply when_keeps
    | with_reducible apply startDawn_keeps

theorem execDawnOutcome_keeps {s0 s : State} (h : Keeps s0 s) : OutKeeps s0 (execDawnOutcome s) := by
  unfold execDawnOutcome
  repeat' first
    | with_reducible assumption
    | with_reducible apply when_keeps
    | with_reducible apply outcome_keeps

theorem awaitStanding_keeps {s0 s : State} (h : Keeps s0 s) : ∀ a1, Keeps s0 (awaitStanding a1 s) := by
  intro a1
  induction a1 generalizing s  with
  | zero => unfold awaitStanding; repeat' first
    | with_reducible assumption
  | succ n ih =>
    unfold awaitStanding
    repeat' first
    | with_reducible assumption
    | with_reducible apply clockTick_keeps
    | with_reducible apply ih
    | with_reducible refine Keeps.ite ?_ ?_

theorem afterDraws_keeps {s0 s : State} (h : Keeps s0 s) (n : Nat) (f : State → State)
    (hf : ∀ s, Keeps s0 s → Keeps s0 (f s)) : OutKeeps s0 (afterDraws n f s) := by
  unfold afterDraws
  repeat' first
    | with_reducible assumption
    | with_reducible apply when_keeps
    | with_reducible apply awaitStanding_keeps
    | with_reducible apply hf
    | with_reducible refine Keeps.ite ?_ ?_

theorem execDawnSramMarch_keeps {s0 s : State} (h : Keeps s0 s) : ∀ a1, OutKeeps s0 (execDawnSramMarch a1 s) := by
  intro a1
  unfold execDawnSramMarch
  repeat' first
    | with_reducible assumption
    | with_reducible apply sramMarch_keeps
    | with_reducible apply afterDraws_keeps
    | intro _

theorem execAcquireTimeout_keeps {s0 s : State} (h : Keeps s0 s) : OutKeeps s0 (execAcquireTimeout s) := by
  unfold execAcquireTimeout
  repeat' first
    | with_reducible assumption
    | with_reducible apply goFreerun_keeps
    | with_reducible apply when_keeps

theorem execDawnStackTraining_keeps {s0 s : State} (h : Keeps s0 s) : ∀ a1, OutKeeps s0 (execDawnStackTraining a1 s) := by
  intro a1
  unfold execDawnStackTraining
  repeat' first
    | with_reducible assumption
    | with_reducible apply stackTraining_keeps
    | with_reducible apply afterDraws_keeps
    | intro _

theorem execDawnLinkCensus_keeps {s0 s : State} (h : Keeps s0 s) : ∀ a1, OutKeeps s0 (execDawnLinkCensus a1 s) := by
  intro a1
  unfold execDawnLinkCensus
  repeat' first
    | with_reducible assumption
    | with_reducible apply afterDraws_keeps
    | with_reducible apply linkCensus_keeps
    | intro _

theorem execDawnStageLimit_keeps {s0 s : State} (h : Keeps s0 s) : OutKeeps s0 (execDawnStageLimit s) := by
  unfold execDawnStageLimit
  repeat' first
    | with_reducible assumption
    | with_reducible apply when_keeps
    | with_reducible apply stageLimit_keeps

theorem execPwrgoodFall_keeps {s0 s : State} (h : Keeps s0 s) : OutKeeps s0 (execPwrgoodFall s) := by
  unfold execPwrgoodFall
  repeat' first
    | with_reducible assumption
    | with_reducible apply loseState_keeps
    | with_reducible apply OutKeeps.next

theorem execDawnIdentity_keeps {s0 s : State} (h : Keeps s0 s) : OutKeeps s0 (execDawnIdentity s) := by
  unfold execDawnIdentity
  repeat' first
    | with_reducible assumption
    | with_reducible apply when_keeps
    | with_reducible apply identity_keeps

theorem execResetN_keeps {s0 s : State} (h : Keeps s0 s) : ∀ a1, OutKeeps s0 (execResetN a1 s) := by
  intro a1
  unfold execResetN
  repeat' first
    | with_reducible assumption
    | with_reducible apply when_keeps
    | with_reducible apply heldReset_keeps

theorem marchTile_keeps {s0 s : State} (h : Keeps s0 s) : ∀ a1, Keeps s0 (marchTile a1 s) := by
  intro t
  unfold marchTile
  refine updTile_keeps h _ _ fun x hx => ?_
  dsimp only
  split
  · exact hx
  · exact ⟨Mem.wf_filter _ _ _ hx.sram⟩

theorem stepWork_keeps {s0 s : State} (h : Keeps s0 s) : ∀ a1 a2, Keeps s0 (stepWork a1 a2 s) := by
  intro a1 a2
  unfold stepWork
  repeat' first
    | with_reducible assumption
    | with_reducible apply retrainOutcome_keeps
    | with_reducible apply marchTile_keeps
    | with_reducible apply cacheDropBank_keeps
    | with_reducible refine Keeps.ite ?_ ?_

theorem endTest_keeps {s0 s : State} (h : Keeps s0 s) : ∀ a1, Keeps s0 (endTest a1 s) := by
  intro a1
  unfold endTest
  repeat' first
    | with_reducible apply endCid_keeps
    | with_reducible apply raiseInt_keeps
    | ((with_reducible apply Keeps.mk') <;> first | with_reducible assumption | with_reducible apply endCid_keeps | with_reducible apply raiseInt_keeps | with_reducible exact Nat.le_refl _ | with_reducible exact fun m => ⟨m.host, m.intake, m.fabric, m.nvm, m.sram, m.stk, m.owned, m.log, m.tiles, m.loc, m.saved⟩)

theorem selfTestStep_keeps {s0 s : State} (h : Keeps s0 s) : ∀ a1 a2, Keeps s0 (selfTestStep a1 a2 s) := by
  intro a1 a2
  unfold selfTestStep
  repeat' first
    | with_reducible assumption
    | with_reducible apply endTest_keeps
    | with_reducible apply stepWork_keeps
    | ((with_reducible apply Keeps.mk') <;> first | with_reducible assumption | with_reducible apply endTest_keeps | with_reducible apply fault_keeps | with_reducible apply stepWork_keeps | with_reducible exact Nat.le_refl _ | with_reducible exact fun m => ⟨m.host, m.intake, m.fabric, m.nvm, m.sram, m.stk, m.owned, m.log, m.tiles, m.loc, m.saved⟩)
    | with_reducible refine Keeps.ite ?_ ?_
    | split

theorem execSelftestStep_keeps {s0 s : State} (h : Keeps s0 s) : ∀ a1 a2, OutKeeps s0 (execSelftestStep a1 a2 s) := by
  intro a1 a2
  unfold execSelftestStep
  repeat' first
    | with_reducible assumption
    | with_reducible apply atInstant_keeps
    | with_reducible apply selfTestStep_keeps
    | split
    | intro _

theorem execLedgerFault_keeps {s0 s : State} (h : Keeps s0 s) : OutKeeps s0 (execLedgerFault s) := by
  unfold execLedgerFault
  repeat' first
    | with_reducible assumption
    | with_reducible apply when_keeps
    | with_reducible apply enterFatal_keeps

theorem execSelftest_keeps {s0 s : State} (h : Keeps s0 s) : ∀ a1, OutKeeps s0 (execSelftest a1 s) := by
  intro a1
  unfold execSelftest
  repeat' first
    | with_reducible assumption
    | with_reducible apply endHead_keeps
    | with_reducible apply runHead_keeps
    | ((with_reducible apply Keeps.mk') <;> first | with_reducible assumption | with_reducible apply endHead_keeps | with_reducible apply runHead_keeps | with_reducible apply OutKeeps.next | with_reducible exact OutKeeps.fault | with_reducible exact Nat.le_refl _ | with_reducible exact fun m => ⟨m.host, m.intake, m.fabric, m.nvm, m.sram, m.stk, m.owned, m.log, m.tiles, m.loc, m.saved⟩)
    | split
    | intro _

theorem execCoreFailed_keeps {s0 s : State} (h : Keeps s0 s) : ∀ a1 a2, OutKeeps s0 (execCoreFailed a1 a2 s) := by
  intro a1 a2
  unfold execCoreFailed
  repeat' first
    | with_reducible assumption
    | with_reducible apply when_keeps
    | with_reducible apply enterFatal_keeps

theorem latchPos_keeps {s0 s1 : State} (h : Keeps s0 s1) : ∀ off s, Keeps s0 (latchPos off s s1) := by
  intro off s
  unfold latchPos
  split
  · exact h.mk' (Nat.le_refl _) fun m => ⟨m.host, m.intake, m.fabric, m.nvm, m.sram, m.stk, m.owned, m.log, m.tiles, m.loc, m.saved⟩
  · exact h

theorem clearRead_keeps {s0 s : State} (h : Keeps s0 s) : ∀ a1 a2, Keeps s0 (clearRead a1 a2 s) := by
  intro a1 a2
  unfold clearRead
  repeat' first
    | with_reducible assumption
    | with_reducible apply setReg_keeps
    | with_reducible apply updQueue_keeps
    | with_reducible apply updPort_keeps
    | ((with_reducible apply Keeps.mk') <;> first | with_reducible assumption | with_reducible apply setReg_keeps | with_reducible apply updQueue_keeps | with_reducible apply updPort_keeps | with_reducible exact Nat.le_refl _ | with_reducible exact fun m => ⟨m.host, m.intake, m.fabric, m.nvm, m.sram, m.stk, m.owned, m.log, m.tiles, m.loc, m.saved⟩)
    | with_reducible refine Keeps.ite ?_ ?_

theorem readLow_keeps {s0 s : State} (h : Keeps s0 s) : ∀ a1 a2, Keeps s0 (readLow a1 a2 s).2 := by
  intro off r
  have h1 := latchPos_keeps (clearRead_keeps h off r) off s
  unfold readLow
  generalize latchPos off s (clearRead off r s) = s1 at h1 ⊢
  dsimp only
  split
  · exact h1.mk' (Nat.le_refl _) fun m => ⟨m.host, m.intake, m.fabric, m.nvm, m.sram, m.stk, m.owned, m.log, m.tiles, m.loc, m.saved⟩
  · exact h1

theorem readHigh_keeps {s0 s : State} (h : Keeps s0 s) : ∀ a1, Keeps s0 (readHigh a1 s).2 := by
  intro a1
  unfold readHigh
  repeat' first
    | with_reducible assumption
    | ((with_reducible apply Keeps.mk') <;> first | with_reducible assumption | with_reducible exact Nat.le_refl _ | with_reducible exact fun m => ⟨m.host, m.intake, m.fabric, m.nvm, m.sram, m.stk, m.owned, m.log, m.tiles, m.loc, m.saved⟩)
    | split

theorem read32_keeps {s0 s : State} (h : Keeps s0 s) : ∀ a1, Keeps s0 (read32 a1 s).2 := by
  intro a1
  unfold read32
  repeat' first
    | with_reducible assumption
    | with_reducible apply readLow_keeps
    | with_reducible apply readHigh_keeps
    | split

theorem read64_keeps {s0 s : State} (h : Keeps s0 s) : ∀ a1, Keeps s0 (read64 a1 s).2 := by
  intro off
  have h2 : Keeps s0 (read32 (off + 4) (read32 off s).2).2 := read32_keeps (read32_keeps h _) _
  rw [read64]
  generalize read32 off s = p at h2 ⊢
  obtain ⟨a, s1⟩ := p
  dsimp only at h2 ⊢
  generalize read32 (off + 4) s1 = p at h2 ⊢
  obtain ⟨b, s2⟩ := p
  dsimp only at h2 ⊢
  split
  · refine iteInduction (motive := fun p : Nat × State => Keeps s0 p.2) (fun _ => ?_) (fun _ => h2)
    exact latchPos_keeps (clearRead_keeps h _ _) _ _
  · exact h2

theorem nextState_keeps {s0 s : State} (h : Keeps s0 s) (o : Out) (ho : OutKeeps s0 o) : Keeps s0 (nextState o s) := by
  unfold nextState
  split
  · exact ho.keeps _ rfl
  · exact h

theorem writeRing_keeps {s0 s : State} (h : Keeps s0 s) : ∀ a1 a2 a3 a4, Keeps s0 (writeRing a1 a2 a3 a4 s) := by
  intro a1 a2 a3 a4
  unfold writeRing
  repeat' first
    | with_reducible assumption
    | with_reducible apply setQueue_keeps
    | with_reducible refine Keeps.ite ?_ ?_

theorem writeRcfg_keeps {s0 s : State} (h : Keeps s0 s) : ∀ a1, Keeps s0 (writeRcfg a1 s) := by
  intro a1
  unfold writeRcfg
  repeat' first
    | with_reducible assumption
    | ((with_reducible apply Keeps.mk') <;> first | with_reducible assumption | with_reducible exact Nat.le_refl _ | with_reducible exact fun m => ⟨m.host, m.intake, m.fabric, m.nvm, m.sram, m.stk, m.owned, m.log, m.tiles, m.loc, m.saved⟩)
    | with_reducible refine Keeps.ite ?_ ?_

theorem writeRhead_keeps {s0 s : State} (h : Keeps s0 s) : ∀ a1, Keeps s0 (writeRhead a1 s) := by
  intro a1
  unfold writeRhead
  repeat' first
    | ((with_reducible apply Keeps.mk') <;> first | with_reducible assumption | with_reducible exact Nat.le_refl _ | with_reducible exact fun m => ⟨m.host, m.intake, m.fabric, m.nvm, m.sram, m.stk, m.owned, m.log, m.tiles, m.loc, m.saved⟩)

theorem writeDbg_keeps {s0 s : State} (h : Keeps s0 s) : ∀ a1, Keeps s0 (writeDbg a1 s) := by
  intro a1
  unfold writeDbg
  repeat' first
    | with_reducible assumption
    | with_reducible apply execDbgStep_keeps
    | with_reducible apply nextState_keeps
    | with_reducible apply execDbgRead_keeps
    | with_reducible apply execDbgHalt_keeps
    | with_reducible apply execDbgWrite_keeps
    | with_reducible apply execDbgRun_keeps
    | split

theorem afterIntWrite_keeps {s0 s1 : State} (h : Keeps s0 s1) : ∀ off s, Keeps s0 (afterIntWrite off s s1) := by
  intro off s
  unfold afterIntWrite
  split
  · exact h
  · split
    · exact sendVector_keeps h _
    · exact h

theorem writePlain_keeps {s0 s : State} (h : Keeps s0 s) : ∀ a1 a2 a3 a4 a5, Keeps s0 (writePlain a1 a2 a3 a4 a5 s) := by
  intro off r wide high v
  unfold writePlain
  split
  · exact h
  · exact afterIntWrite_keeps (setReg_keeps h _ _) _ _

theorem writeReg_keeps {s0 s : State} (h : Keeps s0 s) : ∀ a1 a2 a3 a4 a5, Keeps s0 (writeReg a1 a2 a3 a4 a5 s) := by
  intro off r wide high v
  unfold writeReg
  split
  · exact nextState_keeps h _ (execHostQcfgWrite_keeps h _ _ _)
  split
  · exact writeRing_keeps h _ _ _ _
  split
  · exact updQueue_keeps h _ _
  split
  · exact nextState_keeps h _ (execHostDb_keeps h _ _)
  split
  · exact nextState_keeps h _ (execHostCrhead_keeps h _ _)
  split
  · exact chkWrite_keeps h _ _
  split
  · exact nextState_keeps h _ (execDlxKhead_keeps h _ _ _)
  split
  · exact writeRcfg_keeps h _
  split
  · exact writeRhead_keeps h _
  split
  · exact writeDbg_keeps h _
  exact writePlain_keeps h _ _ _ _ _

theorem unmask_keeps {s0 s : State} (h : Keeps s0 s) : ∀ a1, Keeps s0 (unmask a1 s) := by
  intro a1
  unfold unmask
  repeat' first
    | with_reducible assumption
    | with_reducible apply sendVector_keeps
    | ((with_reducible apply Keeps.mk') <;> first | with_reducible assumption | with_reducible apply sendVector_keeps | with_reducible exact Nat.le_refl _ | with_reducible exact fun m => ⟨m.host, m.intake, m.fabric, m.nvm, m.sram, m.stk, m.owned, m.log, m.tiles, m.loc, m.saved⟩)
    | with_reducible refine Keeps.ite ?_ ?_

theorem writeMsix_keeps {s0 s : State} (h : Keeps s0 s) : ∀ a1 a2, Keeps s0 (writeMsix a1 a2 s) := by
  intro a1 a2
  unfold writeMsix
  repeat' first
    | with_reducible assumption
    | with_reducible apply unmask_keeps
    | ((with_reducible apply Keeps.mk') <;> first | with_reducible assumption | with_reducible apply unmask_keeps | with_reducible exact Nat.le_refl _ | with_reducible exact fun m => ⟨m.host, m.intake, m.fabric, m.nvm, m.sram, m.stk, m.owned, m.log, m.tiles, m.loc, m.saved⟩)
    | with_reducible refine Keeps.ite ?_ ?_

theorem write32_keeps {s0 s : State} (h : Keeps s0 s) : ∀ a1 a2, Keeps s0 (write32 a1 a2 s) := by
  intro off v
  unfold write32
  split
  · exact h
  split
  · exact writeMsix_keeps h _ _
  split
  · exact writeReg_keeps h _ _ _ _ _
  · exact writeReg_keeps h _ _ _ _ _
  · exact h

theorem write64_keeps {s0 s : State} (h : Keeps s0 s) : ∀ a1 a2, Keeps s0 (write64 a1 a2 s) := by
  intro off v
  have h2 := write32_keeps (write32_keeps h off (v % 2 ^ 32)) (off + 4) (v / 2 ^ 32)
  unfold write64
  split
  · split
    · split
      · exact writeReg_keeps h _ _ _ _ _
      · exact h
    · exact h2
  · exact h2

theorem busWrite_keeps {s0 s : State} (h : Keeps s0 s) : ∀ a1 a2 a3, Keeps s0 (busWrite a1 a2 a3 s) := by
  intro a1 a2 a3
  unfold busWrite
  repeat' first
    | with_reducible assumption
    | with_reducible apply write64_keeps
    | with_reducible apply write32_keeps
    | with_reducible apply badAccess_keeps
    | with_reducible refine Keeps.ite ?_ ?_

theorem execFltRhead_keeps {s0 s : State} (h : Keeps s0 s) : ∀ a1, OutKeeps s0 (execFltRhead a1 s) := by
  intro a1
  unfold execFltRhead
  repeat' first
    | with_reducible assumption
    | with_reducible apply when_keeps
    | with_reducible apply writeRhead_keeps

theorem answer_keeps {s0 : State} {p : Nat × State} (h : Keeps s0 p.2) : Keeps s0 (answer p) := by
  unfold answer
  exact h.mk' (Nat.le_refl _) fun m => ⟨m.host, m.intake, m.fabric, m.nvm, m.sram, m.stk, m.owned, m.log, m.tiles, m.loc, m.saved⟩

theorem chkFirst_keeps {s0 s : State} (h : Keeps s0 s) : ∀ a1, Keeps s0 (chkFirst a1 s) := by
  intro a1
  unfold chkFirst
  repeat' first
    | with_reducible assumption
    | with_reducible apply drainChk_keeps
    | with_reducible refine Keeps.ite ?_ ?_

theorem busRead_keeps {s0 s : State} (h : Keeps s0 s) : ∀ a1 a2, Keeps s0 (busRead a1 a2 s) := by
  intro a1 a2
  unfold busRead
  repeat' first
    | with_reducible assumption
    | with_reducible apply read32_keeps
    | with_reducible apply chkFirst_keeps
    | with_reducible apply answer_keeps
    | with_reducible apply badAccess_keeps
    | with_reducible apply read64_keeps
    | with_reducible refine Keeps.ite ?_ ?_
    | split

theorem execRegReadClear_keeps {s0 s : State} (h : Keeps s0 s) : ∀ a1 a2, OutKeeps s0 (execRegReadClear a1 a2 s) := by
  intro a1 a2
  unfold execRegReadClear
  repeat' first
    | with_reducible assumption
    | with_reducible apply when_keeps
    | with_reducible apply busRead_keeps

theorem execRegisterWrite_keeps {s0 s : State} (h : Keeps s0 s) : ∀ a1 a2 a3, OutKeeps s0 (execRegisterWrite a1 a2 a3 s) := by
  intro a1 a2 a3
  unfold execRegisterWrite
  repeat' first
    | with_reducible assumption
    | with_reducible apply busWrite_keeps
    | with_reducible apply when_keeps

theorem execRegReadLowHalf_keeps {s0 s : State} (h : Keeps s0 s) : ∀ a1, OutKeeps s0 (execRegReadLowHalf a1 s) := by
  intro a1
  unfold execRegReadLowHalf
  repeat' first
    | with_reducible assumption
    | with_reducible apply when_keeps
    | with_reducible apply busRead_keeps

theorem execFltRcfg_keeps {s0 s : State} (h : Keeps s0 s) : ∀ a1, OutKeeps s0 (execFltRcfg a1 s) := by
  intro a1
  unfold execFltRcfg
  repeat' first
    | with_reducible assumption
    | with_reducible apply writeRcfg_keeps
    | with_reducible apply when_keeps

theorem openBytes_keeps {s0 s : State} (h : Keeps s0 s) : ∀ a1, Keeps s0 (openBytes a1 s) := by
  intro a1
  unfold openBytes
  repeat' first
    | with_reducible assumption
    | ((with_reducible apply Keeps.mk') <;> first | with_reducible assumption | with_reducible apply freeVal_keeps | (with_reducible refine Keeps.snd (by assumption) ?_) | (with_reducible refine Keeps.snd2 (by assumption) ?_) | with_reducible exact Nat.le_refl _ | with_reducible exact fun m => ⟨m.host, m.intake, m.fabric, m.nvm, m.sram, m.stk, m.owned, m.log, m.tiles, m.loc, m.saved⟩)

theorem execGetstatus_keeps {s0 s : State} (h : Keeps s0 s) : OutKeeps s0 (execGetstatus s) := by
  unfold execGetstatus
  repeat' first
    | with_reducible assumption
    | with_reducible apply openBytes_keeps
    | with_reducible apply when_keeps

theorem sideband_keeps {s0 s : State} (h : Keeps s0 s) : ∀ a1, OutKeeps s0 (sideband a1 s) := by
  intro a1
  unfold sideband
  repeat' first
    | with_reducible assumption
    | with_reducible apply when_keeps
    | ((with_reducible apply Keeps.mk') <;> first | with_reducible assumption | with_reducible apply when_keeps | with_reducible apply OutKeeps.next | with_reducible exact OutKeeps.fault | with_reducible exact Nat.le_refl _ | with_reducible exact fun m => ⟨m.host, m.intake, m.fabric, m.nvm, m.sram, m.stk, m.owned, m.log, m.tiles, m.loc, m.saved⟩)

theorem execI3cPrivateRead_keeps {s0 s : State} (h : Keeps s0 s) : ∀ a1, OutKeeps s0 (execI3cPrivateRead a1 s) := by
  intro a1
  unfold execI3cPrivateRead
  repeat' first
    | with_reducible assumption
    | with_reducible apply sideband_keeps

theorem execSetdasa_keeps {s0 s : State} (h : Keeps s0 s) : ∀ a1, OutKeeps s0 (execSetdasa a1 s) := by
  intro a1
  unfold execSetdasa
  repeat' first
    | with_reducible assumption
    | with_reducible apply sideband_keeps

theorem execEntdaa_keeps {s0 s : State} (h : Keeps s0 s) : ∀ a1, OutKeeps s0 (execEntdaa a1 s) := by
  intro a1
  unfold execEntdaa
  repeat' first
    | with_reducible assumption
    | with_reducible apply sideband_keeps

theorem execRstdaa_keeps {s0 s : State} (h : Keeps s0 s) : OutKeeps s0 (execRstdaa s) := by
  unfold execRstdaa
  repeat' first
    | with_reducible assumption
    | with_reducible apply sideband_keeps

theorem execEnec_keeps {s0 s : State} (h : Keeps s0 s) : OutKeeps s0 (execEnec s) := by
  unfold execEnec
  repeat' first
    | with_reducible assumption
    | with_reducible apply sideband_keeps

theorem execGetdcr_keeps {s0 s : State} (h : Keeps s0 s) : OutKeeps s0 (execGetdcr s) := by
  unfold execGetdcr
  repeat' first
    | with_reducible assumption
    | with_reducible apply openBytes_keeps
    | with_reducible apply when_keeps

theorem execDisec_keeps {s0 s : State} (h : Keeps s0 s) : OutKeeps s0 (execDisec s) := by
  unfold execDisec
  repeat' first
    | with_reducible assumption
    | with_reducible apply sideband_keeps

theorem execGetpid_keeps {s0 s : State} (h : Keeps s0 s) : OutKeeps s0 (execGetpid s) := by
  unfold execGetpid
  repeat' first
    | with_reducible assumption
    | with_reducible apply openBytes_keeps
    | with_reducible apply when_keeps

theorem execI3cPrivateWrite_keeps {s0 s : State} (h : Keeps s0 s) : ∀ a1, OutKeeps s0 (execI3cPrivateWrite a1 s) := by
  intro a1
  unfold execI3cPrivateWrite
  repeat' first
    | with_reducible assumption
    | with_reducible apply sideband_keeps

theorem execGetbcr_keeps {s0 s : State} (h : Keeps s0 s) : OutKeeps s0 (execGetbcr s) := by
  unfold execGetbcr
  repeat' first
    | with_reducible assumption
    | with_reducible apply openBytes_keeps
    | with_reducible apply when_keeps

end Sys2Proof.Machine
end

