-- ==== Sys2Proof/Laws/KeepsExec.lean ====
section
/-! SUPPORT. One lemma per function of every command: it keeps what `Keeps` names. -/

namespace Sys2Proof.Machine

theorem exec_keeps {s0 s : State} (h : Keeps s0 s) : ∀ a1, OutKeeps s0 (exec a1 s) := by
  intro i
  cases i with
  | tick port arr crcOk payload => exact execTick_keeps h port arr crcOk payload
  | tickGatherEnd => exact execTickGatherEnd_keeps h
  | tickMissed => exact execTickMissed_keeps h
  | selfTick => exact execSelfTick_keeps h
  | freerunFrameStart => exact execFreerunFrameStart_keeps h
  | lostFrameStart => exact execLostFrameStart_keeps h
  | acquireTimeout => exact execAcquireTimeout_keeps h
  | chunkAdmit unit => exact execChunkAdmit_keeps h unit
  | maintenanceSliceStart => exact execMaintenanceSliceStart_keeps h
  | protectedReserveStart => exact execProtectedReserveStart_keeps h
  | dlyResp port t4 payload => exact execDlyResp_keeps h port t4 payload
  | nop t st w => exact execNop_keeps h t st w
  | cbnd t st w => exact execCbnd_keeps h t st w
  | tileEnd t st w => exact execTileEnd_keeps h t st w
  | jmp t st w => exact execJmp_keeps h t st w
  | setc t st w => exact execSetc_keeps h t st w
  | aset t st w => exact execAset_keeps h t st w
  | ainc t st w => exact execAinc_keeps h t st w
  | rbset t st w => exact execRbset_keeps h t st w
  | rbinc t st w => exact execRbinc_keeps h t st w
  | wload t st w => exact execWload_keeps h t st w
  | mma t st w => exact execMma_keeps h t st w
  | mclose t st w => exact execMclose_keeps h t st w
  | chain t st w => exact execChain_keeps h t st w
  | uprog t st w => exact execUprog_keeps h t st w
  | dma t st w => exact execDma_keeps h t st w
  | lmark t st w => exact execLmark_keeps h t st w
  | defer t st w => exact execDefer_keeps h t st w
  | dmaComplete t idx => exact execDmaComplete_keeps h t idx
  | swap t => exact execSwap_keeps h t
  | deferredBlockStart t => exact execDeferredBlockStart_keeps h t
  | lookaheadDmaIssue t st w => exact execLookaheadDmaIssue_keeps h t st w
  | chainRetire t => exact execChainRetire_keeps h t
  | memRead src pa n ecc => exact execMemRead_keeps h src pa n ecc
  | memWrite src pa data mask poison ecc => exact execMemWrite_keeps h src pa data mask poison ecc
  | memAdd src pa addend fmt mask ecc => exact execMemAdd_keeps h src pa addend fmt mask ecc
  | ceWriteback chan => exact execCeWriteback_keeps h chan
  | tagRefresh chan => exact execTagRefresh_keeps h chan
  | patrolScrub chan ecc => exact execPatrolScrub_keeps h chan ecc
  | retrainStep chan ok => exact execRetrainStep_keeps h chan ok
  | stackTempSample stk temp => exact execStackTempSample_keeps h stk temp
  | dawnChannelRefresh chan => exact execDawnChannelRefresh_keeps h chan
  | workWindowEnd => exact execWorkWindowEnd_keeps h
  | channelGroupDrawReturn group adder => exact execChannelGroupDrawReturn_keeps h group adder
  | map q => exact execMap_keeps h q
  | unmap q => exact execUnmap_keeps h q
  | htierAdd q => exact execHtierAdd_keeps h q
  | htierRemove q => exact execHtierRemove_keeps h q
  | handback q => exact execHandback_keeps h q
  | adopt q => exact execAdopt_keeps h q
  | stampAdvance => exact execStampAdvance_keeps h
  | touch chan sub => exact execTouch_keeps h chan sub
  | handVisit => exact execHandVisit_keeps h
  | migrationStart up job vpn => exact execMigrationStart_keeps h up job vpn
  | migrationSubblockCopied up => exact execMigrationSubblockCopied_keeps h up
  | migrationSourceFreed up => exact execMigrationSourceFreed_keeps h up
  | hostLineResponse job va write data mask poison => exact execHostLineResponse_keeps h job va write data mask poison
  | cxlSnoop kind line => exact execCxlSnoop_keeps h kind line
  | lineEngineDrawReturn => exact execLineEngineDrawReturn_keeps h
  | tblCreate q => exact execTblCreate_keeps h q
  | tblStage q => exact execTblStage_keeps h q
  | tblPublish q => exact execTblPublish_keeps h q
  | tblDestroy q => exact execTblDestroy_keeps h q
  | publish m => exact execPublish_keeps h m
  | pubReply m => exact execPubReply_keeps h m
  | hotWindowEnd => exact execHotWindowEnd_keeps h
  | replRow m => exact execReplRow_keeps h m
  | replEnd m => exact execReplEnd_keeps h m
  | replDrop m => exact execReplDrop_keeps h m
  | repair m => exact execRepair_keeps h m
  | digestSample => exact execDigestSample_keeps h
  | refreshEngineDrawReturn => exact execRefreshEngineDrawReturn_keeps h
  | walkNop k w => exact execWalkNop_keeps h k w
  | add k w => exact execAdd_keeps h k w
  | sub k w => exact execSub_keeps h k w
  | and k w => exact execAnd_keeps h k w
  | or k w => exact execOr_keeps h k w
  | xor k w => exact execXor_keeps h k w
  | shl k w => exact execShl_keeps h k w
  | shr k w => exact execShr_keeps h k w
  | sra k w => exact execSra_keeps h k w
  | mul k w => exact execMul_keeps h k w
  | mulhu k w => exact execMulhu_keeps h k w
  | slt k w => exact execSlt_keeps h k w
  | sltu k w => exact execSltu_keeps h k w
  | lui k w => exact execLui_keeps h k w
  | ld k w => exact execLd_keeps h k w
  | st k w => exact execSt_keeps h k w
  | beq k w => exact execBeq_keeps h k w
  | bne k w => exact execBne_keeps h k w
  | blt k w => exact execBlt_keeps h k w
  | bltu k w => exact execBltu_keeps h k w
  | jal k w => exact execJal_keeps h k w
  | jr k w => exact execJr_keeps h k w
  | walkEnd k w => exact execWalkEnd_keeps h k w
  | walkCbnd k w => exact execWalkCbnd_keeps h k w
  | csr k w => exact execCsr_keeps h k w
  | xfer k w => exact execXfer_keeps h k w
  | xwait k w => exact execXwait_keeps h k w
  | sbset k w => exact execSbset_keeps h k w
  | lksend k w => exact execLksend_keeps h k w
  | upsend k w => exact execUpsend_keeps h k w
  | hwait k w => exact execHwait_keeps h k w
  | upclose k w => exact execUpclose_keeps h k w
  | lksendResume k => exact execLksendResume_keeps h k
  | lookupReq m => exact execLookupReq_keeps h m
  | flowPooled entry => exact execFlowPooled_keeps h entry
  | gatherRelease entry => exact execGatherRelease_keeps h entry
  | lookupReply m => exact execLookupReply_keeps h m
  | flowEnd m => exact execFlowEnd_keeps h m
  | flowRetry entry => exact execFlowRetry_keeps h entry
  | flowTimeout entry => exact execFlowTimeout_keeps h entry
  | updReq m => exact execUpdReq_keeps h m
  | mergeDone entry => exact execMergeDone_keeps h entry
  | updClose m => exact execUpdClose_keeps h m
  | updateBatch job tid die => exact execUpdateBatch_keeps h job tid die
  | nojob m => exact execNojob_keeps h m
  | tableEngineDrawReturn unit => exact execTableEngineDrawReturn_keeps h unit
  | denseCreate q => exact execDenseCreate_keeps h q
  | lmarkDelivered job layer => exact execLmarkDelivered_keeps h job layer
  | denseStepStart job layer => exact execDenseStepStart_keeps h job layer
  | slotStart slot => exact execSlotStart_keeps h slot
  | rsData m => exact execRsData_keeps h m
  | xcredit m => exact execXcredit_keeps h m
  | verdictExchangeStart job layer => exact execVerdictExchangeStart_keeps h job layer
  | verdict m => exact execVerdict_keeps h m
  | densePieceAdmit job layer => exact execDensePieceAdmit_keeps h job layer
  | agData m => exact execAgData_keeps h m
  | segFetch m => exact execSegFetch_keeps h m
  | segFetchTimeout job layer shard seg => exact execSegFetchTimeout_keeps h job layer shard seg
  | collectiveStall job layer => exact execCollectiveStall_keeps h job layer
  | reductionDrawReturn unit => exact execReductionDrawReturn_keeps h unit
  | trainingStepDone port lanes => exact execTrainingStepDone_keeps h port lanes
  | trainingStepTimeout port => exact execTrainingStepTimeout_keeps h port
  | linkHello port payload => exact execLinkHello_keeps h port payload
  | flit port f => exact execFlit_keeps h port f
  | messageReassemblyTimeout port vc => exact execMessageReassemblyTimeout_keeps h port vc
  | unreach port payload => exact execUnreach_keeps h port payload
  | reachMarkExpiry dst plane => exact execReachMarkExpiry_keeps h dst plane
  | transmitStoreRelease id => exact execTransmitStoreRelease_keeps h id
  | linkLeaveService port cause => exact execLinkLeaveService_keeps h port cause
  | laneLockLoss port lane => exact execLaneLockLoss_keeps h port lane
  | linkCensusEval port ber => exact execLinkCensusEval_keeps h port ber
  | linkTxDrawReturn link => exact execLinkTxDrawReturn_keeps h link
  | bulkWr m => exact execBulkWr_keeps h m
  | bulkRdreq m => exact execBulkRdreq_keeps h m
  | bulkRddata m => exact execBulkRddata_keeps h m
  | bulkAck m => exact execBulkAck_keeps h m
  | pcieLinkTrained width rate flit cache => exact execPcieLinkTrained_keeps h width rate flit cache
  | pcieConfigRequest => exact execPcieConfigRequest_keeps h
  | bar0BadAccess off size write => exact execBar0BadAccess_keeps h off size write
  | bar2Read off n => exact execBar2Read_keeps h off n
  | intakeWrite off data enables => exact execIntakeWrite_keeps h off data enables
  | hostDb q v => exact execHostDb_keeps h q v
  | validationReread q => exact execValidationReread_keeps h q
  | hostQcfgWrite wide high v => exact execHostQcfgWrite_keeps h wide high v
  | hostCrhead q v => exact execHostCrhead_keeps h q v
  | completionFlushDone q => exact execCompletionFlushDone_keeps h q
  | msixModerationTimer q => exact execMsixModerationTimer_keeps h q
  | jobAdmit q => exact execJobAdmit_keeps h q
  | jobEnd q => exact execJobEnd_keeps h q
  | ctxSwitch q => exact execCtxSwitch_keeps h q
  | suspend q => exact execSuspend_keeps h q
  | resume q => exact execResume_keeps h q
  | cancel q => exact execCancel_keeps h q
  | dataIn q => exact execDataIn_keeps h q
  | copy q => exact execCopy_keeps h q
  | exportSet q => exact execExportSet_keeps h q
  | keepRegion q => exact execKeepRegion_keeps h q
  | exportBase q => exact execExportBase_keeps h q
  | restore q => exact execRestore_keeps h q
  | rankMove q => exact execRankMove_keeps h q
  | dlxRec m => exact execDlxRec_keeps h m
  | dlxClose m => exact execDlxClose_keeps h m
  | dlxAck m => exact execDlxAck_keeps h m
  | keeperTimeout job keeper => exact execKeeperTimeout_keeps h job keeper
  | dlxKhead wide high v => exact execDlxKhead_keeps h wide high v
  | exporterDrawReturn => exact execExporterDrawReturn_keeps h
  | selftest q => exact execSelftest_keeps h q
  | selftestStep failed addr => exact execSelftestStep_keeps h failed addr
  | tileRun q => exact execTileRun_keeps h q
  | walk q => exact execWalk_keeps h q
  | pwrState q => exact execPwrState_keeps h q
  | pwrLimits q => exact execPwrLimits_keeps h q
  | duskEnd => exact execDuskEnd_keeps h
  | nightVoltageSettled => exact execNightVoltageSettled_keeps h
  | nightVoltageTimeout => exact execNightVoltageTimeout_keeps h
  | wakeVoltageSettled ok => exact execWakeVoltageSettled_keeps h ok
  | wakeComplete => exact execWakeComplete_keeps h
  | ledgerGrant => exact execLedgerGrant_keeps h
  | thermalSample die0 die1 fabric => exact execThermalSample_keeps h die0 die1 fabric
  | thermalShutdown => exact execThermalShutdown_keeps h
  | pmbusPoll rail ok vout iout temp => exact execPmbusPoll_keeps h rail ok vout iout temp
  | attest q => exact execAttest_keeps h q
  | sessionOpen q => exact execSessionOpen_keeps h q
  | keyRegister q => exact execKeyRegister_keeps h q
  | presRequest q => exact execPresRequest_keeps h q
  | presenceQualified => exact execPresenceQualified_keeps h
  | presenceTimeout => exact execPresenceTimeout_keeps h
  | debugLock q => exact execDebugLock_keeps h q
  | certInstall q => exact execCertInstall_keeps h q
  | bekReady => exact execBekReady_keeps h
  | sealSample b => exact execSealSample_keeps h b
  | joinReq m => exact execJoinReq_keeps h m
  | joinAck m => exact execJoinAck_keeps h m
  | joinTimeout job => exact execJoinTimeout_keeps h job
  | dbgRead => exact execDbgRead_keeps h
  | dbgWrite => exact execDbgWrite_keeps h
  | dbgHalt => exact execDbgHalt_keeps h
  | dbgRun => exact execDbgRun_keeps h
  | dbgStep => exact execDbgStep_keeps h
  | powerGood => exact execPowerGood_keeps h
  | dawnBootVerify => exact execDawnBootVerify_keeps h
  | dawnIdentity => exact execDawnIdentity_keeps h
  | dawnManifest => exact execDawnManifest_keeps h
  | dawnStackTraining failed => exact execDawnStackTraining_keeps h failed
  | dawnSramMarch f => exact execDawnSramMarch_keeps h f
  | dawnFirmware f => exact execDawnFirmware_keeps h f
  | dawnLinkCensus ports => exact execDawnLinkCensus_keeps h ports
  | dawnTickLock => exact execDawnTickLock_keeps h
  | dawnOutcome => exact execDawnOutcome_keeps h
  | dawnStageLimit => exact execDawnStageLimit_keeps h
  | pwrgoodFall => exact execPwrgoodFall_keeps h
  | resetN ns => exact execResetN_keeps h ns
  | perstN ns => exact execPerstN_keeps h ns
  | chkStart u => exact execChkStart_keeps h u
  | chkClose u => exact execChkClose_keeps h u
  | chkArst u => exact execChkArst_keeps h u
  | chkDin8 u v => exact execChkDin8_keeps h u v
  | chkDin16 u v => exact execChkDin16_keeps h u v
  | chkDin32 u v => exact execChkDin32_keeps h u v
  | chkDin64 u v => exact execChkDin64_keeps h u v
  | chkAlive u v => exact execChkAlive_keeps h u v
  | fltRcfg v => exact execFltRcfg_keeps h v
  | fltRhead v => exact execFltRhead_keeps h v
  | regReadClear off wide => exact execRegReadClear_keeps h off wide
  | regReadLowHalf off => exact execRegReadLowHalf_keeps h off
  | registerWrite off wide v => exact execRegisterWrite_keeps h off wide v
  | i3cPrivateRead n => exact execI3cPrivateRead_keeps h n
  | i3cPrivateWrite data => exact execI3cPrivateWrite_keeps h data
  | setdasa addr => exact execSetdasa_keeps h addr
  | entdaa addr => exact execEntdaa_keeps h addr
  | rstdaa => exact execRstdaa_keeps h
  | getpid => exact execGetpid_keeps h
  | getbcr => exact execGetbcr_keeps h
  | getdcr => exact execGetdcr_keeps h
  | getstatus => exact execGetstatus_keeps h
  | enec => exact execEnec_keeps h
  | disec => exact execDisec_keeps h
  | passEnd t => exact execPassEnd_keeps h t
  | xferComplete k => exact execXferComplete_keeps h k
  | presenceNChange low => exact execPresenceNChange_keeps h low
  | vddAonRemoved => exact execVddAonRemoved_keeps h
  | coreFailed block core => exact execCoreFailed_keeps h block core
  | ledgerFault => exact execLedgerFault_keeps h
  | pllLock => exact execPllLock_keeps h

end Sys2Proof.Machine
end

