-- ==== Sys2Proof/Laws/Spec.lean ====
section
/-! SUPPORT. What each family's shared operation answers when its command may run: the lemmas to cite in place of unfolding the operation. -/

namespace Sys2Proof.Machine

/-- An instruction that may issue and passes its checks acts (R89 to R92): what remains is what its action does. -/
theorem issue_ready {t : Fin 8} {st : Fin 4} {w : BitVec 128} {cls op mask : Nat} {s : State} (h : TileReady t st w cls op mask s)
    (hop : opDefined cls op = true) (hc : cls ≤ 4) (check : Iss → Nat) (act : Iss → State → Eff) (hk : check (tileIss t st w s) = 0) :
    issue t st w cls op mask check act s = .next (match act (tileIss t st w s) (semTaken t st w s) with
          | .stall f => updSeq t (regSeq st) f s
          | .stop s1 => s1
          | .issued now next s1 =>
            moveOn t st next (if now then retire t st (tileIss t st w s).job (tileIss t st w s).cid w.toNat true s1 else s1)) := by
  have h1 := h.tok
  have h2 := h.sem
  have hf := h.fetch
  unfold issue
  simp only [h.cls, h.op, hop]
  rw [if_neg (by simp), if_neg (by simp [h.may]), if_neg (by simp [h.fresh])]
  simp only [tileIss, ne_eq] at hf hk h1 h2
  simp only [tileIss, semTaken]
  rw [hf]
  simp only [show ¬ cls > 4 from by omega, if_false, Bool.not_true, Bool.false_eq_true, h.rsvd, ne_eq, not_true_eq_false]
  rw [if_neg (by simpa using hk), if_neg (by simp only [issWaits, Bool.or_eq_true, Bool.and_eq_true, decide_eq_true_eq]; exact fun e => e.elim (fun e => e.2 (h1 e.1)) (fun e => h2 e.1 e.2))]
  all_goals rfl

/-- A walker instruction that may run and passes its checks acts (R222 to R224). -/
theorem walk_ready {k : Fin 2048} {w : BitVec 32} {op : Nat} {cl : Cluster} {s : State} (h : WalkReady k w op cl s)
    (hop : walkDefined op = true) (check : WIss → Nat) (act : WIss → State → WEff) (hk : check (walkIss k w cl s) = 0) :
    walkIssue k w op check act s = .next (match act (walkIss k w cl s) s with
          | .stall s1 => s1
          | .stop s1 => s1
          | .next pc s1 => updWalker k (fun w => { w with pc := pc }) s1) := by
  have hp := h.pc
  unfold walkIssue
  simp only [walkIss] at hk
  simp only [h.code, hop, h.own, walkIss]
  rw [if_neg (by simp), if_neg (by simp [h.may]), if_neg (by omega), if_neg (by simp), if_neg (by simpa using hk)]
  all_goals rfl

/-- Work whose uses are ready is done, wherever it would have waited. -/
theorem settle_done {wait : List Nat → State → State} {s t : State} (h : usesReady t) : settleUse wait s t = done s t := by
  unfold usesReady at h
  unfold settleUse done noted
  rw [h]; rfl

/-- Work whose uses are not all ready waits as its command says: here it is held, the draws asked for. -/
theorem poweredBy_held {i : Instr} {f : State → State} {s : State} (h : ¬ usesReady (f (unused s))) :
    poweredBy i f s = holdFrom i s (f (unused s)) (unready (f (unused s))) ((f (unused s)).stk.use.foldl (fun s p => askUse s p.1) s) := by
  unfold poweredBy settleUse
  rw [if_neg (by simpa [usesReady] using h)]

/-- Work of a command that is ready is done. -/
theorem poweredBy_done {i : Instr} {f : State → State} {s : State} (h : usesReady (f (unused s))) :
    poweredBy i f s = done s (f (unused s)) := settle_done h

/-- An event that reaches memory is done when it may come and its uses are ready. -/
theorem whenP_done {i : Instr} {b : Bool} {f : State → State} {s : State} (h : b = true) (hr : usesReady (f (unused s))) :
    whenP i b f s = .next (done s (f (unused s))) := by
  unfold whenP when; rw [if_pos h, poweredBy_done hr]

/-- A command at the head of its queue that reaches memory acts when what its work stands on is there. -/
theorem headP_done {i : Instr} {q op : Nat} {f : Cmd → State → State} {s : State} {c : Cmd} (h : runnable q op s = some c)
    (hr : usesReady (f c (started q (unused s)))) : runHeadP i q op f s = .next (done s (f c (started q (unused s)))) := by
  unfold runHeadP; rw [h]; exact congrArg _ (settle_done hr)

/-- The same of a command whose job lets it run. -/
theorem jobP_done {i : Instr} {q op : Nat} {f : Cmd → State → State} {s : State} {c : Cmd} (h : runnable q op s = some c)
    (hj : jobRefusal (started q s) c = none) (hr : usesReady (f c (started q (unused s)))) :
    runJobP i q op f s = .next (done s (f c (started q (unused s)))) := by
  have hj' : jobRefusal (started q (unused s)) c = none := hj
  unfold runJobP; rw [headP_done h (by rw [hj']; exact hr), hj']

/-- A message the device takes acts, when what its work stands on is there. -/
theorem takes_next {i : Instr} {typ : Nat} {m : Msg} {j r : Nat} {s s1 : State} (ident : Msg → Option (List Nat)) (f : Nat → Nat → Msg → State → State)
    (h : Takes typ m (ident m) j r s s1) (hl : listedType typ = true) (hr : usesReady (f j r m s1)) :
    receive i typ m ident f s = .next (done s (f j r m s1)) := by
  have hf := h.fresh
  have hk := h.kind
  have hframe : (msgFrame s m).isNone = false := by have := h.frame; cases e : msgFrame s m <;> simp_all
  have key : ∃ g : State → State, receive i typ m ident f s = .next (poweredBy i g s) ∧ g (unused s) = f j r m s1 := by
    refine ⟨_, by unfold receive whenP when; rw [if_pos (by simp [h.linked, h.up, h.dst, h.kind])], ?_⟩
    simp only [show (unused s).power = s.power from rfl, show (unused s).jobs = s.jobs from rfl, show ∀ k, (unused s).session k = s.session k from fun _ => rfl,
      show msgFrame (unused s) m = msgFrame s m from rfl, show ∀ k x, rankOf (unused s) k x = rankOf s k x from fun _ _ => rfl,
      h.awake, h.job, h.rank, hk, hl, hframe]
    rcases h.enc with ⟨rfl, e1⟩ | ⟨e1, e2, e3⟩ <;> rcases h.joined with e4 | e4 <;>
      (cases hi : ident m <;> rw [hi] at hf <;> dsimp only at hf <;> simp [*])
  obtain ⟨g, h1, h2⟩ := key
  rw [h1, poweredBy_done (h2 ▸ hr), h2]

/-- A command at the head of its queue that may start acts on the state in which it has started. -/
theorem head_next {q op : Nat} {f : Cmd → State → State} {s : State} {c : Cmd} (h : runnable q op s = some c) :
    runHead q op f s = .next (f c (started q s)) := by
  unfold runHead; rw [h]; rfl

/-- The same of a command whose job lets it run. -/
theorem job_next {q op : Nat} {f : Cmd → State → State} {s : State} {c : Cmd} (h : runnable q op s = some c) (hj : jobRefusal (started q s) c = none) :
    runJob q op f s = .next (f c (started q s)) := by
  unfold runJob; rw [head_next h, hj]
/-- The same of a security command. -/
theorem secure_next {q op : Nat} {f : Cmd → State → State} {s : State} {c : Cmd} (h : SecureAccepted q op s c) :
    runSecure q op f s = .next (f c (started q s)) := by
  unfold runSecure; rw [head_next h.head, h.job]
/-- An event whose rule lets it come acts. -/
theorem when_next {b : Bool} {f : State → State} {s : State} (h : b = true) : when b f s = .next (f s) := by
  unfold when; rw [if_pos h]
/-- An event at an instant acts there, when it may still come. -/
theorem instant_next {r : State → Bool} {d : Int} {f : State → State} {s : State} (h : r s = true) (h2 : r (runUntil d s) = true) :
    atInstant r d f s = .next (f (runUntil d s)) := by
  unfold atInstant; rw [when_next h]; dsimp only; rw [if_pos h2]
end Sys2Proof.Machine
end

