-- ==== Sys2Proof/Laws/State.lean ====
section
/-! SUPPORT. What the named updates of the state leave: one lemma per field and update. -/

namespace Sys2Proof.Machine

/-! ## setReg -/

@[simp] theorem setReg_pending (off v : Nat) (s : State) : (setReg off v s).pending = s.pending := rfl
@[simp] theorem setReg_held (off v : Nat) (s : State) : (setReg off v s).held = s.held := rfl
@[simp] theorem setReg_now (off v : Nat) (s : State) : (setReg off v s).now = s.now := rfl
@[simp] theorem setReg_trngCtr (off v : Nat) (s : State) : (setReg off v s).trngCtr = s.trngCtr := rfl
@[simp] theorem setReg_freeCtr (off v : Nat) (s : State) : (setReg off v s).freeCtr = s.freeCtr := rfl
@[simp] theorem setReg_nextCid (off v : Nat) (s : State) : (setReg off v s).nextCid = s.nextCid := rfl
@[simp] theorem setReg_latches (off v : Nat) (s : State) : (setReg off v s).latches = s.latches := rfl
@[simp] theorem setReg_resp (off v : Nat) (s : State) : (setReg off v s).resp = s.resp := rfl
@[simp] theorem setReg_msix (off v : Nat) (s : State) : (setReg off v s).msix = s.msix := rfl
@[simp] theorem setReg_hostMem (off v : Nat) (s : State) : (setReg off v s).hostMem = s.hostMem := rfl
@[simp] theorem setReg_link (off v : Nat) (s : State) : (setReg off v s).link = s.link := rfl
@[simp] theorem setReg_queues (off v : Nat) (s : State) : (setReg off v s).queues = s.queues := rfl
@[simp] theorem setReg_intake (off v : Nat) (s : State) : (setReg off v s).intake = s.intake := rfl
@[simp] theorem setReg_jobs (off v : Nat) (s : State) : (setReg off v s).jobs = s.jobs := rfl
@[simp] theorem setReg_clk (off v : Nat) (s : State) : (setReg off v s).clk = s.clk := rfl
@[simp] theorem setReg_units (off v : Nat) (s : State) : (setReg off v s).units = s.units := rfl
@[simp] theorem setReg_ledger (off v : Nat) (s : State) : (setReg off v s).ledger = s.ledger := rfl
@[simp] theorem setReg_power (off v : Nat) (s : State) : (setReg off v s).power = s.power := rfl
@[simp] theorem setReg_flt (off v : Nat) (s : State) : (setReg off v s).flt = s.flt := rfl
@[simp] theorem setReg_adnt (off v : Nat) (s : State) : (setReg off v s).adnt = s.adnt := rfl
@[simp] theorem setReg_nvm (off v : Nat) (s : State) : (setReg off v s).nvm = s.nvm := rfl
@[simp] theorem setReg_dawn (off v : Nat) (s : State) : (setReg off v s).dawn = s.dawn := rfl
@[simp] theorem setReg_dlx (off v : Nat) (s : State) : (setReg off v s).dlx = s.dlx := rfl
@[simp] theorem setReg_tiles (off v : Nat) (s : State) : (setReg off v s).tiles = s.tiles := rfl
@[simp] theorem setReg_stk (off v : Nat) (s : State) : (setReg off v s).stk = s.stk := rfl
@[simp] theorem setReg_urng (off v : Nat) (s : State) : (setReg off v s).urng = s.urng := rfl
@[simp] theorem setReg_emb (off v : Nat) (s : State) : (setReg off v s).emb = s.emb := rfl
@[simp] theorem setReg_lkp (off v : Nat) (s : State) : (setReg off v s).lkp = s.lkp := rfl
@[simp] theorem setReg_dtr (off v : Nat) (s : State) : (setReg off v s).dtr = s.dtr := rfl
@[simp] theorem setReg_zor (off v : Nat) (s : State) : (setReg off v s).zor = s.zor := rfl
@[simp] theorem setReg_chk (off v : Nat) (s : State) : (setReg off v s).chk = s.chk := rfl
@[simp] theorem setReg_fabric (off v : Nat) (s : State) : (setReg off v s).fabric = s.fabric := rfl
@[simp] theorem setReg_coreWords (off v : Nat) (s : State) : (setReg off v s).coreWords = s.coreWords := rfl
@[simp] theorem setReg_coreHalts (off v : Nat) (s : State) : (setReg off v s).coreHalts = s.coreHalts := rfl
@[simp] theorem setReg_savedSeqs (off v : Nat) (s : State) : (setReg off v s).savedSeqs = s.savedSeqs := rfl
@[simp] theorem setReg_savedClusters (off v : Nat) (s : State) : (setReg off v s).savedClusters = s.savedClusters := rfl
@[simp] theorem setReg_i3c (off v : Nat) (s : State) : (setReg off v s).i3c = s.i3c := rfl
@[simp] theorem setReg_pins (off v : Nat) (s : State) : (setReg off v s).pins = s.pins := rfl
@[simp] theorem setReg_upsets (off v : Nat) (s : State) : (setReg off v s).upsets = s.upsets := rfl

/-! ## updTile -/

@[simp] theorem updTile_pending (t : Nat) (f : Tile → Tile) (s : State) : (updTile t f s).pending = s.pending := rfl
@[simp] theorem updTile_held (t : Nat) (f : Tile → Tile) (s : State) : (updTile t f s).held = s.held := rfl
@[simp] theorem updTile_now (t : Nat) (f : Tile → Tile) (s : State) : (updTile t f s).now = s.now := rfl
@[simp] theorem updTile_trngCtr (t : Nat) (f : Tile → Tile) (s : State) : (updTile t f s).trngCtr = s.trngCtr := rfl
@[simp] theorem updTile_freeCtr (t : Nat) (f : Tile → Tile) (s : State) : (updTile t f s).freeCtr = s.freeCtr := rfl
@[simp] theorem updTile_nextCid (t : Nat) (f : Tile → Tile) (s : State) : (updTile t f s).nextCid = s.nextCid := rfl
@[simp] theorem updTile_regs (t : Nat) (f : Tile → Tile) (s : State) : (updTile t f s).regs = s.regs := rfl
@[simp] theorem updTile_latches (t : Nat) (f : Tile → Tile) (s : State) : (updTile t f s).latches = s.latches := rfl
@[simp] theorem updTile_resp (t : Nat) (f : Tile → Tile) (s : State) : (updTile t f s).resp = s.resp := rfl
@[simp] theorem updTile_msix (t : Nat) (f : Tile → Tile) (s : State) : (updTile t f s).msix = s.msix := rfl
@[simp] theorem updTile_hostMem (t : Nat) (f : Tile → Tile) (s : State) : (updTile t f s).hostMem = s.hostMem := rfl
@[simp] theorem updTile_link (t : Nat) (f : Tile → Tile) (s : State) : (updTile t f s).link = s.link := rfl
@[simp] theorem updTile_queues (t : Nat) (f : Tile → Tile) (s : State) : (updTile t f s).queues = s.queues := rfl
@[simp] theorem updTile_intake (t : Nat) (f : Tile → Tile) (s : State) : (updTile t f s).intake = s.intake := rfl
@[simp] theorem updTile_jobs (t : Nat) (f : Tile → Tile) (s : State) : (updTile t f s).jobs = s.jobs := rfl
@[simp] theorem updTile_clk (t : Nat) (f : Tile → Tile) (s : State) : (updTile t f s).clk = s.clk := rfl
@[simp] theorem updTile_units (t : Nat) (f : Tile → Tile) (s : State) : (updTile t f s).units = s.units := rfl
@[simp] theorem updTile_ledger (t : Nat) (f : Tile → Tile) (s : State) : (updTile t f s).ledger = s.ledger := rfl
@[simp] theorem updTile_power (t : Nat) (f : Tile → Tile) (s : State) : (updTile t f s).power = s.power := rfl
@[simp] theorem updTile_flt (t : Nat) (f : Tile → Tile) (s : State) : (updTile t f s).flt = s.flt := rfl
@[simp] theorem updTile_adnt (t : Nat) (f : Tile → Tile) (s : State) : (updTile t f s).adnt = s.adnt := rfl
@[simp] theorem updTile_nvm (t : Nat) (f : Tile → Tile) (s : State) : (updTile t f s).nvm = s.nvm := rfl
@[simp] theorem updTile_dawn (t : Nat) (f : Tile → Tile) (s : State) : (updTile t f s).dawn = s.dawn := rfl
@[simp] theorem updTile_dlx (t : Nat) (f : Tile → Tile) (s : State) : (updTile t f s).dlx = s.dlx := rfl
@[simp] theorem updTile_stk (t : Nat) (f : Tile → Tile) (s : State) : (updTile t f s).stk = s.stk := rfl
@[simp] theorem updTile_urng (t : Nat) (f : Tile → Tile) (s : State) : (updTile t f s).urng = s.urng := rfl
@[simp] theorem updTile_emb (t : Nat) (f : Tile → Tile) (s : State) : (updTile t f s).emb = s.emb := rfl
@[simp] theorem updTile_lkp (t : Nat) (f : Tile → Tile) (s : State) : (updTile t f s).lkp = s.lkp := rfl
@[simp] theorem updTile_dtr (t : Nat) (f : Tile → Tile) (s : State) : (updTile t f s).dtr = s.dtr := rfl
@[simp] theorem updTile_zor (t : Nat) (f : Tile → Tile) (s : State) : (updTile t f s).zor = s.zor := rfl
@[simp] theorem updTile_chk (t : Nat) (f : Tile → Tile) (s : State) : (updTile t f s).chk = s.chk := rfl
@[simp] theorem updTile_fabric (t : Nat) (f : Tile → Tile) (s : State) : (updTile t f s).fabric = s.fabric := rfl
@[simp] theorem updTile_coreWords (t : Nat) (f : Tile → Tile) (s : State) : (updTile t f s).coreWords = s.coreWords := rfl
@[simp] theorem updTile_coreHalts (t : Nat) (f : Tile → Tile) (s : State) : (updTile t f s).coreHalts = s.coreHalts := rfl
@[simp] theorem updTile_savedSeqs (t : Nat) (f : Tile → Tile) (s : State) : (updTile t f s).savedSeqs = s.savedSeqs := rfl
@[simp] theorem updTile_savedClusters (t : Nat) (f : Tile → Tile) (s : State) : (updTile t f s).savedClusters = s.savedClusters := rfl
@[simp] theorem updTile_i3c (t : Nat) (f : Tile → Tile) (s : State) : (updTile t f s).i3c = s.i3c := rfl
@[simp] theorem updTile_pins (t : Nat) (f : Tile → Tile) (s : State) : (updTile t f s).pins = s.pins := rfl
@[simp] theorem updTile_upsets (t : Nat) (f : Tile → Tile) (s : State) : (updTile t f s).upsets = s.upsets := rfl

/-! ## updSeq -/

@[simp] theorem updSeq_pending (t k : Nat) (f : Seq → Seq) (s : State) : (updSeq t k f s).pending = s.pending := rfl
@[simp] theorem updSeq_held (t k : Nat) (f : Seq → Seq) (s : State) : (updSeq t k f s).held = s.held := rfl
@[simp] theorem updSeq_now (t k : Nat) (f : Seq → Seq) (s : State) : (updSeq t k f s).now = s.now := rfl
@[simp] theorem updSeq_trngCtr (t k : Nat) (f : Seq → Seq) (s : State) : (updSeq t k f s).trngCtr = s.trngCtr := rfl
@[simp] theorem updSeq_freeCtr (t k : Nat) (f : Seq → Seq) (s : State) : (updSeq t k f s).freeCtr = s.freeCtr := rfl
@[simp] theorem updSeq_nextCid (t k : Nat) (f : Seq → Seq) (s : State) : (updSeq t k f s).nextCid = s.nextCid := rfl
@[simp] theorem updSeq_regs (t k : Nat) (f : Seq → Seq) (s : State) : (updSeq t k f s).regs = s.regs := rfl
@[simp] theorem updSeq_latches (t k : Nat) (f : Seq → Seq) (s : State) : (updSeq t k f s).latches = s.latches := rfl
@[simp] theorem updSeq_resp (t k : Nat) (f : Seq → Seq) (s : State) : (updSeq t k f s).resp = s.resp := rfl
@[simp] theorem updSeq_msix (t k : Nat) (f : Seq → Seq) (s : State) : (updSeq t k f s).msix = s.msix := rfl
@[simp] theorem updSeq_hostMem (t k : Nat) (f : Seq → Seq) (s : State) : (updSeq t k f s).hostMem = s.hostMem := rfl
@[simp] theorem updSeq_link (t k : Nat) (f : Seq → Seq) (s : State) : (updSeq t k f s).link = s.link := rfl
@[simp] theorem updSeq_queues (t k : Nat) (f : Seq → Seq) (s : State) : (updSeq t k f s).queues = s.queues := rfl
@[simp] theorem updSeq_intake (t k : Nat) (f : Seq → Seq) (s : State) : (updSeq t k f s).intake = s.intake := rfl
@[simp] theorem updSeq_jobs (t k : Nat) (f : Seq → Seq) (s : State) : (updSeq t k f s).jobs = s.jobs := rfl
@[simp] theorem updSeq_clk (t k : Nat) (f : Seq → Seq) (s : State) : (updSeq t k f s).clk = s.clk := rfl
@[simp] theorem updSeq_units (t k : Nat) (f : Seq → Seq) (s : State) : (updSeq t k f s).units = s.units := rfl
@[simp] theorem updSeq_ledger (t k : Nat) (f : Seq → Seq) (s : State) : (updSeq t k f s).ledger = s.ledger := rfl
@[simp] theorem updSeq_power (t k : Nat) (f : Seq → Seq) (s : State) : (updSeq t k f s).power = s.power := rfl
@[simp] theorem updSeq_flt (t k : Nat) (f : Seq → Seq) (s : State) : (updSeq t k f s).flt = s.flt := rfl
@[simp] theorem updSeq_adnt (t k : Nat) (f : Seq → Seq) (s : State) : (updSeq t k f s).adnt = s.adnt := rfl
@[simp] theorem updSeq_nvm (t k : Nat) (f : Seq → Seq) (s : State) : (updSeq t k f s).nvm = s.nvm := rfl
@[simp] theorem updSeq_dawn (t k : Nat) (f : Seq → Seq) (s : State) : (updSeq t k f s).dawn = s.dawn := rfl
@[simp] theorem updSeq_dlx (t k : Nat) (f : Seq → Seq) (s : State) : (updSeq t k f s).dlx = s.dlx := rfl
@[simp] theorem updSeq_stk (t k : Nat) (f : Seq → Seq) (s : State) : (updSeq t k f s).stk = s.stk := rfl
@[simp] theorem updSeq_urng (t k : Nat) (f : Seq → Seq) (s : State) : (updSeq t k f s).urng = s.urng := rfl
@[simp] theorem updSeq_emb (t k : Nat) (f : Seq → Seq) (s : State) : (updSeq t k f s).emb = s.emb := rfl
@[simp] theorem updSeq_lkp (t k : Nat) (f : Seq → Seq) (s : State) : (updSeq t k f s).lkp = s.lkp := rfl
@[simp] theorem updSeq_dtr (t k : Nat) (f : Seq → Seq) (s : State) : (updSeq t k f s).dtr = s.dtr := rfl
@[simp] theorem updSeq_zor (t k : Nat) (f : Seq → Seq) (s : State) : (updSeq t k f s).zor = s.zor := rfl
@[simp] theorem updSeq_chk (t k : Nat) (f : Seq → Seq) (s : State) : (updSeq t k f s).chk = s.chk := rfl
@[simp] theorem updSeq_fabric (t k : Nat) (f : Seq → Seq) (s : State) : (updSeq t k f s).fabric = s.fabric := rfl
@[simp] theorem updSeq_coreWords (t k : Nat) (f : Seq → Seq) (s : State) : (updSeq t k f s).coreWords = s.coreWords := rfl
@[simp] theorem updSeq_coreHalts (t k : Nat) (f : Seq → Seq) (s : State) : (updSeq t k f s).coreHalts = s.coreHalts := rfl
@[simp] theorem updSeq_savedSeqs (t k : Nat) (f : Seq → Seq) (s : State) : (updSeq t k f s).savedSeqs = s.savedSeqs := rfl
@[simp] theorem updSeq_savedClusters (t k : Nat) (f : Seq → Seq) (s : State) : (updSeq t k f s).savedClusters = s.savedClusters := rfl
@[simp] theorem updSeq_i3c (t k : Nat) (f : Seq → Seq) (s : State) : (updSeq t k f s).i3c = s.i3c := rfl
@[simp] theorem updSeq_pins (t k : Nat) (f : Seq → Seq) (s : State) : (updSeq t k f s).pins = s.pins := rfl
@[simp] theorem updSeq_upsets (t k : Nat) (f : Seq → Seq) (s : State) : (updSeq t k f s).upsets = s.upsets := rfl

/-! ## updWalker -/

@[simp] theorem updWalker_pending (k : Nat) (f : Walker → Walker) (s : State) : (updWalker k f s).pending = s.pending := rfl
@[simp] theorem updWalker_held (k : Nat) (f : Walker → Walker) (s : State) : (updWalker k f s).held = s.held := rfl
@[simp] theorem updWalker_now (k : Nat) (f : Walker → Walker) (s : State) : (updWalker k f s).now = s.now := rfl
@[simp] theorem updWalker_trngCtr (k : Nat) (f : Walker → Walker) (s : State) : (updWalker k f s).trngCtr = s.trngCtr := rfl
@[simp] theorem updWalker_freeCtr (k : Nat) (f : Walker → Walker) (s : State) : (updWalker k f s).freeCtr = s.freeCtr := rfl
@[simp] theorem updWalker_nextCid (k : Nat) (f : Walker → Walker) (s : State) : (updWalker k f s).nextCid = s.nextCid := rfl
@[simp] theorem updWalker_regs (k : Nat) (f : Walker → Walker) (s : State) : (updWalker k f s).regs = s.regs := rfl
@[simp] theorem updWalker_latches (k : Nat) (f : Walker → Walker) (s : State) : (updWalker k f s).latches = s.latches := rfl
@[simp] theorem updWalker_resp (k : Nat) (f : Walker → Walker) (s : State) : (updWalker k f s).resp = s.resp := rfl
@[simp] theorem updWalker_msix (k : Nat) (f : Walker → Walker) (s : State) : (updWalker k f s).msix = s.msix := rfl
@[simp] theorem updWalker_hostMem (k : Nat) (f : Walker → Walker) (s : State) : (updWalker k f s).hostMem = s.hostMem := rfl
@[simp] theorem updWalker_link (k : Nat) (f : Walker → Walker) (s : State) : (updWalker k f s).link = s.link := rfl
@[simp] theorem updWalker_queues (k : Nat) (f : Walker → Walker) (s : State) : (updWalker k f s).queues = s.queues := rfl
@[simp] theorem updWalker_intake (k : Nat) (f : Walker → Walker) (s : State) : (updWalker k f s).intake = s.intake := rfl
@[simp] theorem updWalker_jobs (k : Nat) (f : Walker → Walker) (s : State) : (updWalker k f s).jobs = s.jobs := rfl
@[simp] theorem updWalker_clk (k : Nat) (f : Walker → Walker) (s : State) : (updWalker k f s).clk = s.clk := rfl
@[simp] theorem updWalker_units (k : Nat) (f : Walker → Walker) (s : State) : (updWalker k f s).units = s.units := rfl
@[simp] theorem updWalker_ledger (k : Nat) (f : Walker → Walker) (s : State) : (updWalker k f s).ledger = s.ledger := rfl
@[simp] theorem updWalker_power (k : Nat) (f : Walker → Walker) (s : State) : (updWalker k f s).power = s.power := rfl
@[simp] theorem updWalker_flt (k : Nat) (f : Walker → Walker) (s : State) : (updWalker k f s).flt = s.flt := rfl
@[simp] theorem updWalker_adnt (k : Nat) (f : Walker → Walker) (s : State) : (updWalker k f s).adnt = s.adnt := rfl
@[simp] theorem updWalker_nvm (k : Nat) (f : Walker → Walker) (s : State) : (updWalker k f s).nvm = s.nvm := rfl
@[simp] theorem updWalker_dawn (k : Nat) (f : Walker → Walker) (s : State) : (updWalker k f s).dawn = s.dawn := rfl
@[simp] theorem updWalker_dlx (k : Nat) (f : Walker → Walker) (s : State) : (updWalker k f s).dlx = s.dlx := rfl
@[simp] theorem updWalker_tiles (k : Nat) (f : Walker → Walker) (s : State) : (updWalker k f s).tiles = s.tiles := rfl
@[simp] theorem updWalker_stk (k : Nat) (f : Walker → Walker) (s : State) : (updWalker k f s).stk = s.stk := rfl
@[simp] theorem updWalker_urng (k : Nat) (f : Walker → Walker) (s : State) : (updWalker k f s).urng = s.urng := rfl
@[simp] theorem updWalker_emb (k : Nat) (f : Walker → Walker) (s : State) : (updWalker k f s).emb = s.emb := rfl
@[simp] theorem updWalker_dtr (k : Nat) (f : Walker → Walker) (s : State) : (updWalker k f s).dtr = s.dtr := rfl
@[simp] theorem updWalker_zor (k : Nat) (f : Walker → Walker) (s : State) : (updWalker k f s).zor = s.zor := rfl
@[simp] theorem updWalker_chk (k : Nat) (f : Walker → Walker) (s : State) : (updWalker k f s).chk = s.chk := rfl
@[simp] theorem updWalker_fabric (k : Nat) (f : Walker → Walker) (s : State) : (updWalker k f s).fabric = s.fabric := rfl
@[simp] theorem updWalker_coreWords (k : Nat) (f : Walker → Walker) (s : State) : (updWalker k f s).coreWords = s.coreWords := rfl
@[simp] theorem updWalker_coreHalts (k : Nat) (f : Walker → Walker) (s : State) : (updWalker k f s).coreHalts = s.coreHalts := rfl
@[simp] theorem updWalker_savedSeqs (k : Nat) (f : Walker → Walker) (s : State) : (updWalker k f s).savedSeqs = s.savedSeqs := rfl
@[simp] theorem updWalker_savedClusters (k : Nat) (f : Walker → Walker) (s : State) : (updWalker k f s).savedClusters = s.savedClusters := rfl
@[simp] theorem updWalker_i3c (k : Nat) (f : Walker → Walker) (s : State) : (updWalker k f s).i3c = s.i3c := rfl
@[simp] theorem updWalker_pins (k : Nat) (f : Walker → Walker) (s : State) : (updWalker k f s).pins = s.pins := rfl
@[simp] theorem updWalker_upsets (k : Nat) (f : Walker → Walker) (s : State) : (updWalker k f s).upsets = s.upsets := rfl

/-! ## setQueue -/

@[simp] theorem setQueue_pending (q : Nat) (Q : Queue) (s : State) : (setQueue q Q s).pending = s.pending := rfl
@[simp] theorem setQueue_held (q : Nat) (Q : Queue) (s : State) : (setQueue q Q s).held = s.held := rfl
@[simp] theorem setQueue_now (q : Nat) (Q : Queue) (s : State) : (setQueue q Q s).now = s.now := rfl
@[simp] theorem setQueue_trngCtr (q : Nat) (Q : Queue) (s : State) : (setQueue q Q s).trngCtr = s.trngCtr := rfl
@[simp] theorem setQueue_freeCtr (q : Nat) (Q : Queue) (s : State) : (setQueue q Q s).freeCtr = s.freeCtr := rfl
@[simp] theorem setQueue_nextCid (q : Nat) (Q : Queue) (s : State) : (setQueue q Q s).nextCid = s.nextCid := rfl
@[simp] theorem setQueue_regs (q : Nat) (Q : Queue) (s : State) : (setQueue q Q s).regs = s.regs := rfl
@[simp] theorem setQueue_latches (q : Nat) (Q : Queue) (s : State) : (setQueue q Q s).latches = s.latches := rfl
@[simp] theorem setQueue_resp (q : Nat) (Q : Queue) (s : State) : (setQueue q Q s).resp = s.resp := rfl
@[simp] theorem setQueue_msix (q : Nat) (Q : Queue) (s : State) : (setQueue q Q s).msix = s.msix := rfl
@[simp] theorem setQueue_hostMem (q : Nat) (Q : Queue) (s : State) : (setQueue q Q s).hostMem = s.hostMem := rfl
@[simp] theorem setQueue_link (q : Nat) (Q : Queue) (s : State) : (setQueue q Q s).link = s.link := rfl
@[simp] theorem setQueue_intake (q : Nat) (Q : Queue) (s : State) : (setQueue q Q s).intake = s.intake := rfl
@[simp] theorem setQueue_jobs (q : Nat) (Q : Queue) (s : State) : (setQueue q Q s).jobs = s.jobs := rfl
@[simp] theorem setQueue_clk (q : Nat) (Q : Queue) (s : State) : (setQueue q Q s).clk = s.clk := rfl
@[simp] theorem setQueue_units (q : Nat) (Q : Queue) (s : State) : (setQueue q Q s).units = s.units := rfl
@[simp] theorem setQueue_ledger (q : Nat) (Q : Queue) (s : State) : (setQueue q Q s).ledger = s.ledger := rfl
@[simp] theorem setQueue_power (q : Nat) (Q : Queue) (s : State) : (setQueue q Q s).power = s.power := rfl
@[simp] theorem setQueue_flt (q : Nat) (Q : Queue) (s : State) : (setQueue q Q s).flt = s.flt := rfl
@[simp] theorem setQueue_adnt (q : Nat) (Q : Queue) (s : State) : (setQueue q Q s).adnt = s.adnt := rfl
@[simp] theorem setQueue_nvm (q : Nat) (Q : Queue) (s : State) : (setQueue q Q s).nvm = s.nvm := rfl
@[simp] theorem setQueue_dawn (q : Nat) (Q : Queue) (s : State) : (setQueue q Q s).dawn = s.dawn := rfl
@[simp] theorem setQueue_dlx (q : Nat) (Q : Queue) (s : State) : (setQueue q Q s).dlx = s.dlx := rfl
@[simp] theorem setQueue_tiles (q : Nat) (Q : Queue) (s : State) : (setQueue q Q s).tiles = s.tiles := rfl
@[simp] theorem setQueue_stk (q : Nat) (Q : Queue) (s : State) : (setQueue q Q s).stk = s.stk := rfl
@[simp] theorem setQueue_urng (q : Nat) (Q : Queue) (s : State) : (setQueue q Q s).urng = s.urng := rfl
@[simp] theorem setQueue_emb (q : Nat) (Q : Queue) (s : State) : (setQueue q Q s).emb = s.emb := rfl
@[simp] theorem setQueue_lkp (q : Nat) (Q : Queue) (s : State) : (setQueue q Q s).lkp = s.lkp := rfl
@[simp] theorem setQueue_dtr (q : Nat) (Q : Queue) (s : State) : (setQueue q Q s).dtr = s.dtr := rfl
@[simp] theorem setQueue_zor (q : Nat) (Q : Queue) (s : State) : (setQueue q Q s).zor = s.zor := rfl
@[simp] theorem setQueue_chk (q : Nat) (Q : Queue) (s : State) : (setQueue q Q s).chk = s.chk := rfl
@[simp] theorem setQueue_fabric (q : Nat) (Q : Queue) (s : State) : (setQueue q Q s).fabric = s.fabric := rfl
@[simp] theorem setQueue_coreWords (q : Nat) (Q : Queue) (s : State) : (setQueue q Q s).coreWords = s.coreWords := rfl
@[simp] theorem setQueue_coreHalts (q : Nat) (Q : Queue) (s : State) : (setQueue q Q s).coreHalts = s.coreHalts := rfl
@[simp] theorem setQueue_savedSeqs (q : Nat) (Q : Queue) (s : State) : (setQueue q Q s).savedSeqs = s.savedSeqs := rfl
@[simp] theorem setQueue_savedClusters (q : Nat) (Q : Queue) (s : State) : (setQueue q Q s).savedClusters = s.savedClusters := rfl
@[simp] theorem setQueue_i3c (q : Nat) (Q : Queue) (s : State) : (setQueue q Q s).i3c = s.i3c := rfl
@[simp] theorem setQueue_pins (q : Nat) (Q : Queue) (s : State) : (setQueue q Q s).pins = s.pins := rfl
@[simp] theorem setQueue_upsets (q : Nat) (Q : Queue) (s : State) : (setQueue q Q s).upsets = s.upsets := rfl

/-! ## updQueue -/

@[simp] theorem updQueue_pending (q : Nat) (f : Queue → Queue) (s : State) : (updQueue q f s).pending = s.pending := rfl
@[simp] theorem updQueue_held (q : Nat) (f : Queue → Queue) (s : State) : (updQueue q f s).held = s.held := rfl
@[simp] theorem updQueue_now (q : Nat) (f : Queue → Queue) (s : State) : (updQueue q f s).now = s.now := rfl
@[simp] theorem updQueue_trngCtr (q : Nat) (f : Queue → Queue) (s : State) : (updQueue q f s).trngCtr = s.trngCtr := rfl
@[simp] theorem updQueue_freeCtr (q : Nat) (f : Queue → Queue) (s : State) : (updQueue q f s).freeCtr = s.freeCtr := rfl
@[simp] theorem updQueue_nextCid (q : Nat) (f : Queue → Queue) (s : State) : (updQueue q f s).nextCid = s.nextCid := rfl
@[simp] theorem updQueue_regs (q : Nat) (f : Queue → Queue) (s : State) : (updQueue q f s).regs = s.regs := rfl
@[simp] theorem updQueue_latches (q : Nat) (f : Queue → Queue) (s : State) : (updQueue q f s).latches = s.latches := rfl
@[simp] theorem updQueue_resp (q : Nat) (f : Queue → Queue) (s : State) : (updQueue q f s).resp = s.resp := rfl
@[simp] theorem updQueue_msix (q : Nat) (f : Queue → Queue) (s : State) : (updQueue q f s).msix = s.msix := rfl
@[simp] theorem updQueue_hostMem (q : Nat) (f : Queue → Queue) (s : State) : (updQueue q f s).hostMem = s.hostMem := rfl
@[simp] theorem updQueue_link (q : Nat) (f : Queue → Queue) (s : State) : (updQueue q f s).link = s.link := rfl
@[simp] theorem updQueue_intake (q : Nat) (f : Queue → Queue) (s : State) : (updQueue q f s).intake = s.intake := rfl
@[simp] theorem updQueue_jobs (q : Nat) (f : Queue → Queue) (s : State) : (updQueue q f s).jobs = s.jobs := rfl
@[simp] theorem updQueue_clk (q : Nat) (f : Queue → Queue) (s : State) : (updQueue q f s).clk = s.clk := rfl
@[simp] theorem updQueue_units (q : Nat) (f : Queue → Queue) (s : State) : (updQueue q f s).units = s.units := rfl
@[simp] theorem updQueue_ledger (q : Nat) (f : Queue → Queue) (s : State) : (updQueue q f s).ledger = s.ledger := rfl
@[simp] theorem updQueue_power (q : Nat) (f : Queue → Queue) (s : State) : (updQueue q f s).power = s.power := rfl
@[simp] theorem updQueue_flt (q : Nat) (f : Queue → Queue) (s : State) : (updQueue q f s).flt = s.flt := rfl
@[simp] theorem updQueue_adnt (q : Nat) (f : Queue → Queue) (s : State) : (updQueue q f s).adnt = s.adnt := rfl
@[simp] theorem updQueue_nvm (q : Nat) (f : Queue → Queue) (s : State) : (updQueue q f s).nvm = s.nvm := rfl
@[simp] theorem updQueue_dawn (q : Nat) (f : Queue → Queue) (s : State) : (updQueue q f s).dawn = s.dawn := rfl
@[simp] theorem updQueue_dlx (q : Nat) (f : Queue → Queue) (s : State) : (updQueue q f s).dlx = s.dlx := rfl
@[simp] theorem updQueue_tiles (q : Nat) (f : Queue → Queue) (s : State) : (updQueue q f s).tiles = s.tiles := rfl
@[simp] theorem updQueue_stk (q : Nat) (f : Queue → Queue) (s : State) : (updQueue q f s).stk = s.stk := rfl
@[simp] theorem updQueue_urng (q : Nat) (f : Queue → Queue) (s : State) : (updQueue q f s).urng = s.urng := rfl
@[simp] theorem updQueue_emb (q : Nat) (f : Queue → Queue) (s : State) : (updQueue q f s).emb = s.emb := rfl
@[simp] theorem updQueue_lkp (q : Nat) (f : Queue → Queue) (s : State) : (updQueue q f s).lkp = s.lkp := rfl
@[simp] theorem updQueue_dtr (q : Nat) (f : Queue → Queue) (s : State) : (updQueue q f s).dtr = s.dtr := rfl
@[simp] theorem updQueue_zor (q : Nat) (f : Queue → Queue) (s : State) : (updQueue q f s).zor = s.zor := rfl
@[simp] theorem updQueue_chk (q : Nat) (f : Queue → Queue) (s : State) : (updQueue q f s).chk = s.chk := rfl
@[simp] theorem updQueue_fabric (q : Nat) (f : Queue → Queue) (s : State) : (updQueue q f s).fabric = s.fabric := rfl
@[simp] theorem updQueue_coreWords (q : Nat) (f : Queue → Queue) (s : State) : (updQueue q f s).coreWords = s.coreWords := rfl
@[simp] theorem updQueue_coreHalts (q : Nat) (f : Queue → Queue) (s : State) : (updQueue q f s).coreHalts = s.coreHalts := rfl
@[simp] theorem updQueue_savedSeqs (q : Nat) (f : Queue → Queue) (s : State) : (updQueue q f s).savedSeqs = s.savedSeqs := rfl
@[simp] theorem updQueue_savedClusters (q : Nat) (f : Queue → Queue) (s : State) : (updQueue q f s).savedClusters = s.savedClusters := rfl
@[simp] theorem updQueue_i3c (q : Nat) (f : Queue → Queue) (s : State) : (updQueue q f s).i3c = s.i3c := rfl
@[simp] theorem updQueue_pins (q : Nat) (f : Queue → Queue) (s : State) : (updQueue q f s).pins = s.pins := rfl
@[simp] theorem updQueue_upsets (q : Nat) (f : Queue → Queue) (s : State) : (updQueue q f s).upsets = s.upsets := rfl

/-! ## updHead -/

@[simp] theorem updHead_pending (q : Nat) (f : Cmd → Cmd) (s : State) : (updHead q f s).pending = s.pending := rfl
@[simp] theorem updHead_held (q : Nat) (f : Cmd → Cmd) (s : State) : (updHead q f s).held = s.held := rfl
@[simp] theorem updHead_now (q : Nat) (f : Cmd → Cmd) (s : State) : (updHead q f s).now = s.now := rfl
@[simp] theorem updHead_trngCtr (q : Nat) (f : Cmd → Cmd) (s : State) : (updHead q f s).trngCtr = s.trngCtr := rfl
@[simp] theorem updHead_freeCtr (q : Nat) (f : Cmd → Cmd) (s : State) : (updHead q f s).freeCtr = s.freeCtr := rfl
@[simp] theorem updHead_nextCid (q : Nat) (f : Cmd → Cmd) (s : State) : (updHead q f s).nextCid = s.nextCid := rfl
@[simp] theorem updHead_regs (q : Nat) (f : Cmd → Cmd) (s : State) : (updHead q f s).regs = s.regs := rfl
@[simp] theorem updHead_latches (q : Nat) (f : Cmd → Cmd) (s : State) : (updHead q f s).latches = s.latches := rfl
@[simp] theorem updHead_resp (q : Nat) (f : Cmd → Cmd) (s : State) : (updHead q f s).resp = s.resp := rfl
@[simp] theorem updHead_msix (q : Nat) (f : Cmd → Cmd) (s : State) : (updHead q f s).msix = s.msix := rfl
@[simp] theorem updHead_hostMem (q : Nat) (f : Cmd → Cmd) (s : State) : (updHead q f s).hostMem = s.hostMem := rfl
@[simp] theorem updHead_link (q : Nat) (f : Cmd → Cmd) (s : State) : (updHead q f s).link = s.link := rfl
@[simp] theorem updHead_intake (q : Nat) (f : Cmd → Cmd) (s : State) : (updHead q f s).intake = s.intake := rfl
@[simp] theorem updHead_jobs (q : Nat) (f : Cmd → Cmd) (s : State) : (updHead q f s).jobs = s.jobs := rfl
@[simp] theorem updHead_clk (q : Nat) (f : Cmd → Cmd) (s : State) : (updHead q f s).clk = s.clk := rfl
@[simp] theorem updHead_units (q : Nat) (f : Cmd → Cmd) (s : State) : (updHead q f s).units = s.units := rfl
@[simp] theorem updHead_ledger (q : Nat) (f : Cmd → Cmd) (s : State) : (updHead q f s).ledger = s.ledger := rfl
@[simp] theorem updHead_power (q : Nat) (f : Cmd → Cmd) (s : State) : (updHead q f s).power = s.power := rfl
@[simp] theorem updHead_flt (q : Nat) (f : Cmd → Cmd) (s : State) : (updHead q f s).flt = s.flt := rfl
@[simp] theorem updHead_adnt (q : Nat) (f : Cmd → Cmd) (s : State) : (updHead q f s).adnt = s.adnt := rfl
@[simp] theorem updHead_nvm (q : Nat) (f : Cmd → Cmd) (s : State) : (updHead q f s).nvm = s.nvm := rfl
@[simp] theorem updHead_dawn (q : Nat) (f : Cmd → Cmd) (s : State) : (updHead q f s).dawn = s.dawn := rfl
@[simp] theorem updHead_dlx (q : Nat) (f : Cmd → Cmd) (s : State) : (updHead q f s).dlx = s.dlx := rfl
@[simp] theorem updHead_tiles (q : Nat) (f : Cmd → Cmd) (s : State) : (updHead q f s).tiles = s.tiles := rfl
@[simp] theorem updHead_stk (q : Nat) (f : Cmd → Cmd) (s : State) : (updHead q f s).stk = s.stk := rfl
@[simp] theorem updHead_urng (q : Nat) (f : Cmd → Cmd) (s : State) : (updHead q f s).urng = s.urng := rfl
@[simp] theorem updHead_emb (q : Nat) (f : Cmd → Cmd) (s : State) : (updHead q f s).emb = s.emb := rfl
@[simp] theorem updHead_lkp (q : Nat) (f : Cmd → Cmd) (s : State) : (updHead q f s).lkp = s.lkp := rfl
@[simp] theorem updHead_dtr (q : Nat) (f : Cmd → Cmd) (s : State) : (updHead q f s).dtr = s.dtr := rfl
@[simp] theorem updHead_zor (q : Nat) (f : Cmd → Cmd) (s : State) : (updHead q f s).zor = s.zor := rfl
@[simp] theorem updHead_chk (q : Nat) (f : Cmd → Cmd) (s : State) : (updHead q f s).chk = s.chk := rfl
@[simp] theorem updHead_fabric (q : Nat) (f : Cmd → Cmd) (s : State) : (updHead q f s).fabric = s.fabric := rfl
@[simp] theorem updHead_coreWords (q : Nat) (f : Cmd → Cmd) (s : State) : (updHead q f s).coreWords = s.coreWords := rfl
@[simp] theorem updHead_coreHalts (q : Nat) (f : Cmd → Cmd) (s : State) : (updHead q f s).coreHalts = s.coreHalts := rfl
@[simp] theorem updHead_savedSeqs (q : Nat) (f : Cmd → Cmd) (s : State) : (updHead q f s).savedSeqs = s.savedSeqs := rfl
@[simp] theorem updHead_savedClusters (q : Nat) (f : Cmd → Cmd) (s : State) : (updHead q f s).savedClusters = s.savedClusters := rfl
@[simp] theorem updHead_i3c (q : Nat) (f : Cmd → Cmd) (s : State) : (updHead q f s).i3c = s.i3c := rfl
@[simp] theorem updHead_pins (q : Nat) (f : Cmd → Cmd) (s : State) : (updHead q f s).pins = s.pins := rfl
@[simp] theorem updHead_upsets (q : Nat) (f : Cmd → Cmd) (s : State) : (updHead q f s).upsets = s.upsets := rfl

/-! ## setUnit -/

@[simp] theorem setUnit_pending (u : Nat) (x : ExecUnit) (s : State) : (setUnit u x s).pending = s.pending := rfl
@[simp] theorem setUnit_held (u : Nat) (x : ExecUnit) (s : State) : (setUnit u x s).held = s.held := rfl
@[simp] theorem setUnit_now (u : Nat) (x : ExecUnit) (s : State) : (setUnit u x s).now = s.now := rfl
@[simp] theorem setUnit_trngCtr (u : Nat) (x : ExecUnit) (s : State) : (setUnit u x s).trngCtr = s.trngCtr := rfl
@[simp] theorem setUnit_freeCtr (u : Nat) (x : ExecUnit) (s : State) : (setUnit u x s).freeCtr = s.freeCtr := rfl
@[simp] theorem setUnit_nextCid (u : Nat) (x : ExecUnit) (s : State) : (setUnit u x s).nextCid = s.nextCid := rfl
@[simp] theorem setUnit_regs (u : Nat) (x : ExecUnit) (s : State) : (setUnit u x s).regs = s.regs := rfl
@[simp] theorem setUnit_latches (u : Nat) (x : ExecUnit) (s : State) : (setUnit u x s).latches = s.latches := rfl
@[simp] theorem setUnit_resp (u : Nat) (x : ExecUnit) (s : State) : (setUnit u x s).resp = s.resp := rfl
@[simp] theorem setUnit_msix (u : Nat) (x : ExecUnit) (s : State) : (setUnit u x s).msix = s.msix := rfl
@[simp] theorem setUnit_hostMem (u : Nat) (x : ExecUnit) (s : State) : (setUnit u x s).hostMem = s.hostMem := rfl
@[simp] theorem setUnit_link (u : Nat) (x : ExecUnit) (s : State) : (setUnit u x s).link = s.link := rfl
@[simp] theorem setUnit_queues (u : Nat) (x : ExecUnit) (s : State) : (setUnit u x s).queues = s.queues := rfl
@[simp] theorem setUnit_intake (u : Nat) (x : ExecUnit) (s : State) : (setUnit u x s).intake = s.intake := rfl
@[simp] theorem setUnit_jobs (u : Nat) (x : ExecUnit) (s : State) : (setUnit u x s).jobs = s.jobs := rfl
@[simp] theorem setUnit_clk (u : Nat) (x : ExecUnit) (s : State) : (setUnit u x s).clk = s.clk := rfl
@[simp] theorem setUnit_ledger (u : Nat) (x : ExecUnit) (s : State) : (setUnit u x s).ledger = s.ledger := rfl
@[simp] theorem setUnit_power (u : Nat) (x : ExecUnit) (s : State) : (setUnit u x s).power = s.power := rfl
@[simp] theorem setUnit_flt (u : Nat) (x : ExecUnit) (s : State) : (setUnit u x s).flt = s.flt := rfl
@[simp] theorem setUnit_adnt (u : Nat) (x : ExecUnit) (s : State) : (setUnit u x s).adnt = s.adnt := rfl
@[simp] theorem setUnit_nvm (u : Nat) (x : ExecUnit) (s : State) : (setUnit u x s).nvm = s.nvm := rfl
@[simp] theorem setUnit_dawn (u : Nat) (x : ExecUnit) (s : State) : (setUnit u x s).dawn = s.dawn := rfl
@[simp] theorem setUnit_dlx (u : Nat) (x : ExecUnit) (s : State) : (setUnit u x s).dlx = s.dlx := rfl
@[simp] theorem setUnit_tiles (u : Nat) (x : ExecUnit) (s : State) : (setUnit u x s).tiles = s.tiles := rfl
@[simp] theorem setUnit_stk (u : Nat) (x : ExecUnit) (s : State) : (setUnit u x s).stk = s.stk := rfl
@[simp] theorem setUnit_urng (u : Nat) (x : ExecUnit) (s : State) : (setUnit u x s).urng = s.urng := rfl
@[simp] theorem setUnit_emb (u : Nat) (x : ExecUnit) (s : State) : (setUnit u x s).emb = s.emb := rfl
@[simp] theorem setUnit_lkp (u : Nat) (x : ExecUnit) (s : State) : (setUnit u x s).lkp = s.lkp := rfl
@[simp] theorem setUnit_dtr (u : Nat) (x : ExecUnit) (s : State) : (setUnit u x s).dtr = s.dtr := rfl
@[simp] theorem setUnit_zor (u : Nat) (x : ExecUnit) (s : State) : (setUnit u x s).zor = s.zor := rfl
@[simp] theorem setUnit_chk (u : Nat) (x : ExecUnit) (s : State) : (setUnit u x s).chk = s.chk := rfl
@[simp] theorem setUnit_fabric (u : Nat) (x : ExecUnit) (s : State) : (setUnit u x s).fabric = s.fabric := rfl
@[simp] theorem setUnit_coreWords (u : Nat) (x : ExecUnit) (s : State) : (setUnit u x s).coreWords = s.coreWords := rfl
@[simp] theorem setUnit_coreHalts (u : Nat) (x : ExecUnit) (s : State) : (setUnit u x s).coreHalts = s.coreHalts := rfl
@[simp] theorem setUnit_savedSeqs (u : Nat) (x : ExecUnit) (s : State) : (setUnit u x s).savedSeqs = s.savedSeqs := rfl
@[simp] theorem setUnit_savedClusters (u : Nat) (x : ExecUnit) (s : State) : (setUnit u x s).savedClusters = s.savedClusters := rfl
@[simp] theorem setUnit_i3c (u : Nat) (x : ExecUnit) (s : State) : (setUnit u x s).i3c = s.i3c := rfl
@[simp] theorem setUnit_pins (u : Nat) (x : ExecUnit) (s : State) : (setUnit u x s).pins = s.pins := rfl
@[simp] theorem setUnit_upsets (u : Nat) (x : ExecUnit) (s : State) : (setUnit u x s).upsets = s.upsets := rfl

/-! ## updJob -/

@[simp] theorem updJob_pending (j : Nat) (f : Job → Job) (s : State) : (updJob j f s).pending = s.pending := rfl
@[simp] theorem updJob_held (j : Nat) (f : Job → Job) (s : State) : (updJob j f s).held = s.held := rfl
@[simp] theorem updJob_now (j : Nat) (f : Job → Job) (s : State) : (updJob j f s).now = s.now := rfl
@[simp] theorem updJob_trngCtr (j : Nat) (f : Job → Job) (s : State) : (updJob j f s).trngCtr = s.trngCtr := rfl
@[simp] theorem updJob_freeCtr (j : Nat) (f : Job → Job) (s : State) : (updJob j f s).freeCtr = s.freeCtr := rfl
@[simp] theorem updJob_nextCid (j : Nat) (f : Job → Job) (s : State) : (updJob j f s).nextCid = s.nextCid := rfl
@[simp] theorem updJob_regs (j : Nat) (f : Job → Job) (s : State) : (updJob j f s).regs = s.regs := rfl
@[simp] theorem updJob_latches (j : Nat) (f : Job → Job) (s : State) : (updJob j f s).latches = s.latches := rfl
@[simp] theorem updJob_resp (j : Nat) (f : Job → Job) (s : State) : (updJob j f s).resp = s.resp := rfl
@[simp] theorem updJob_msix (j : Nat) (f : Job → Job) (s : State) : (updJob j f s).msix = s.msix := rfl
@[simp] theorem updJob_hostMem (j : Nat) (f : Job → Job) (s : State) : (updJob j f s).hostMem = s.hostMem := rfl
@[simp] theorem updJob_link (j : Nat) (f : Job → Job) (s : State) : (updJob j f s).link = s.link := rfl
@[simp] theorem updJob_queues (j : Nat) (f : Job → Job) (s : State) : (updJob j f s).queues = s.queues := rfl
@[simp] theorem updJob_intake (j : Nat) (f : Job → Job) (s : State) : (updJob j f s).intake = s.intake := rfl
@[simp] theorem updJob_clk (j : Nat) (f : Job → Job) (s : State) : (updJob j f s).clk = s.clk := rfl
@[simp] theorem updJob_units (j : Nat) (f : Job → Job) (s : State) : (updJob j f s).units = s.units := rfl
@[simp] theorem updJob_ledger (j : Nat) (f : Job → Job) (s : State) : (updJob j f s).ledger = s.ledger := rfl
@[simp] theorem updJob_power (j : Nat) (f : Job → Job) (s : State) : (updJob j f s).power = s.power := rfl
@[simp] theorem updJob_flt (j : Nat) (f : Job → Job) (s : State) : (updJob j f s).flt = s.flt := rfl
@[simp] theorem updJob_adnt (j : Nat) (f : Job → Job) (s : State) : (updJob j f s).adnt = s.adnt := rfl
@[simp] theorem updJob_nvm (j : Nat) (f : Job → Job) (s : State) : (updJob j f s).nvm = s.nvm := rfl
@[simp] theorem updJob_dawn (j : Nat) (f : Job → Job) (s : State) : (updJob j f s).dawn = s.dawn := rfl
@[simp] theorem updJob_dlx (j : Nat) (f : Job → Job) (s : State) : (updJob j f s).dlx = s.dlx := rfl
@[simp] theorem updJob_tiles (j : Nat) (f : Job → Job) (s : State) : (updJob j f s).tiles = s.tiles := rfl
@[simp] theorem updJob_stk (j : Nat) (f : Job → Job) (s : State) : (updJob j f s).stk = s.stk := rfl
@[simp] theorem updJob_urng (j : Nat) (f : Job → Job) (s : State) : (updJob j f s).urng = s.urng := rfl
@[simp] theorem updJob_emb (j : Nat) (f : Job → Job) (s : State) : (updJob j f s).emb = s.emb := rfl
@[simp] theorem updJob_lkp (j : Nat) (f : Job → Job) (s : State) : (updJob j f s).lkp = s.lkp := rfl
@[simp] theorem updJob_dtr (j : Nat) (f : Job → Job) (s : State) : (updJob j f s).dtr = s.dtr := rfl
@[simp] theorem updJob_zor (j : Nat) (f : Job → Job) (s : State) : (updJob j f s).zor = s.zor := rfl
@[simp] theorem updJob_chk (j : Nat) (f : Job → Job) (s : State) : (updJob j f s).chk = s.chk := rfl
@[simp] theorem updJob_fabric (j : Nat) (f : Job → Job) (s : State) : (updJob j f s).fabric = s.fabric := rfl
@[simp] theorem updJob_coreWords (j : Nat) (f : Job → Job) (s : State) : (updJob j f s).coreWords = s.coreWords := rfl
@[simp] theorem updJob_coreHalts (j : Nat) (f : Job → Job) (s : State) : (updJob j f s).coreHalts = s.coreHalts := rfl
@[simp] theorem updJob_savedSeqs (j : Nat) (f : Job → Job) (s : State) : (updJob j f s).savedSeqs = s.savedSeqs := rfl
@[simp] theorem updJob_savedClusters (j : Nat) (f : Job → Job) (s : State) : (updJob j f s).savedClusters = s.savedClusters := rfl
@[simp] theorem updJob_i3c (j : Nat) (f : Job → Job) (s : State) : (updJob j f s).i3c = s.i3c := rfl
@[simp] theorem updJob_pins (j : Nat) (f : Job → Job) (s : State) : (updJob j f s).pins = s.pins := rfl
@[simp] theorem updJob_upsets (j : Nat) (f : Job → Job) (s : State) : (updJob j f s).upsets = s.upsets := rfl

/-! ## updLayer -/

@[simp] theorem updLayer_pending (j l : Nat) (f : DLayer → DLayer) (s : State) : (updLayer j l f s).pending = s.pending := rfl
@[simp] theorem updLayer_held (j l : Nat) (f : DLayer → DLayer) (s : State) : (updLayer j l f s).held = s.held := rfl
@[simp] theorem updLayer_now (j l : Nat) (f : DLayer → DLayer) (s : State) : (updLayer j l f s).now = s.now := rfl
@[simp] theorem updLayer_trngCtr (j l : Nat) (f : DLayer → DLayer) (s : State) : (updLayer j l f s).trngCtr = s.trngCtr := rfl
@[simp] theorem updLayer_freeCtr (j l : Nat) (f : DLayer → DLayer) (s : State) : (updLayer j l f s).freeCtr = s.freeCtr := rfl
@[simp] theorem updLayer_nextCid (j l : Nat) (f : DLayer → DLayer) (s : State) : (updLayer j l f s).nextCid = s.nextCid := rfl
@[simp] theorem updLayer_regs (j l : Nat) (f : DLayer → DLayer) (s : State) : (updLayer j l f s).regs = s.regs := rfl
@[simp] theorem updLayer_latches (j l : Nat) (f : DLayer → DLayer) (s : State) : (updLayer j l f s).latches = s.latches := rfl
@[simp] theorem updLayer_resp (j l : Nat) (f : DLayer → DLayer) (s : State) : (updLayer j l f s).resp = s.resp := rfl
@[simp] theorem updLayer_msix (j l : Nat) (f : DLayer → DLayer) (s : State) : (updLayer j l f s).msix = s.msix := rfl
@[simp] theorem updLayer_hostMem (j l : Nat) (f : DLayer → DLayer) (s : State) : (updLayer j l f s).hostMem = s.hostMem := rfl
@[simp] theorem updLayer_link (j l : Nat) (f : DLayer → DLayer) (s : State) : (updLayer j l f s).link = s.link := rfl
@[simp] theorem updLayer_queues (j l : Nat) (f : DLayer → DLayer) (s : State) : (updLayer j l f s).queues = s.queues := rfl
@[simp] theorem updLayer_intake (j l : Nat) (f : DLayer → DLayer) (s : State) : (updLayer j l f s).intake = s.intake := rfl
@[simp] theorem updLayer_jobs (j l : Nat) (f : DLayer → DLayer) (s : State) : (updLayer j l f s).jobs = s.jobs := rfl
@[simp] theorem updLayer_clk (j l : Nat) (f : DLayer → DLayer) (s : State) : (updLayer j l f s).clk = s.clk := rfl
@[simp] theorem updLayer_units (j l : Nat) (f : DLayer → DLayer) (s : State) : (updLayer j l f s).units = s.units := rfl
@[simp] theorem updLayer_ledger (j l : Nat) (f : DLayer → DLayer) (s : State) : (updLayer j l f s).ledger = s.ledger := rfl
@[simp] theorem updLayer_power (j l : Nat) (f : DLayer → DLayer) (s : State) : (updLayer j l f s).power = s.power := rfl
@[simp] theorem updLayer_flt (j l : Nat) (f : DLayer → DLayer) (s : State) : (updLayer j l f s).flt = s.flt := rfl
@[simp] theorem updLayer_adnt (j l : Nat) (f : DLayer → DLayer) (s : State) : (updLayer j l f s).adnt = s.adnt := rfl
@[simp] theorem updLayer_nvm (j l : Nat) (f : DLayer → DLayer) (s : State) : (updLayer j l f s).nvm = s.nvm := rfl
@[simp] theorem updLayer_dawn (j l : Nat) (f : DLayer → DLayer) (s : State) : (updLayer j l f s).dawn = s.dawn := rfl
@[simp] theorem updLayer_dlx (j l : Nat) (f : DLayer → DLayer) (s : State) : (updLayer j l f s).dlx = s.dlx := rfl
@[simp] theorem updLayer_tiles (j l : Nat) (f : DLayer → DLayer) (s : State) : (updLayer j l f s).tiles = s.tiles := rfl
@[simp] theorem updLayer_stk (j l : Nat) (f : DLayer → DLayer) (s : State) : (updLayer j l f s).stk = s.stk := rfl
@[simp] theorem updLayer_urng (j l : Nat) (f : DLayer → DLayer) (s : State) : (updLayer j l f s).urng = s.urng := rfl
@[simp] theorem updLayer_emb (j l : Nat) (f : DLayer → DLayer) (s : State) : (updLayer j l f s).emb = s.emb := rfl
@[simp] theorem updLayer_lkp (j l : Nat) (f : DLayer → DLayer) (s : State) : (updLayer j l f s).lkp = s.lkp := rfl
@[simp] theorem updLayer_zor (j l : Nat) (f : DLayer → DLayer) (s : State) : (updLayer j l f s).zor = s.zor := rfl
@[simp] theorem updLayer_chk (j l : Nat) (f : DLayer → DLayer) (s : State) : (updLayer j l f s).chk = s.chk := rfl
@[simp] theorem updLayer_fabric (j l : Nat) (f : DLayer → DLayer) (s : State) : (updLayer j l f s).fabric = s.fabric := rfl
@[simp] theorem updLayer_coreWords (j l : Nat) (f : DLayer → DLayer) (s : State) : (updLayer j l f s).coreWords = s.coreWords := rfl
@[simp] theorem updLayer_coreHalts (j l : Nat) (f : DLayer → DLayer) (s : State) : (updLayer j l f s).coreHalts = s.coreHalts := rfl
@[simp] theorem updLayer_savedSeqs (j l : Nat) (f : DLayer → DLayer) (s : State) : (updLayer j l f s).savedSeqs = s.savedSeqs := rfl
@[simp] theorem updLayer_savedClusters (j l : Nat) (f : DLayer → DLayer) (s : State) : (updLayer j l f s).savedClusters = s.savedClusters := rfl
@[simp] theorem updLayer_i3c (j l : Nat) (f : DLayer → DLayer) (s : State) : (updLayer j l f s).i3c = s.i3c := rfl
@[simp] theorem updLayer_pins (j l : Nat) (f : DLayer → DLayer) (s : State) : (updLayer j l f s).pins = s.pins := rfl
@[simp] theorem updLayer_upsets (j l : Nat) (f : DLayer → DLayer) (s : State) : (updLayer j l f s).upsets = s.upsets := rfl

/-! ## setPort -/

@[simp] theorem setPort_pending (p : Nat) (x : Port) (s : State) : (setPort p x s).pending = s.pending := rfl
@[simp] theorem setPort_held (p : Nat) (x : Port) (s : State) : (setPort p x s).held = s.held := rfl
@[simp] theorem setPort_now (p : Nat) (x : Port) (s : State) : (setPort p x s).now = s.now := rfl
@[simp] theorem setPort_trngCtr (p : Nat) (x : Port) (s : State) : (setPort p x s).trngCtr = s.trngCtr := rfl
@[simp] theorem setPort_freeCtr (p : Nat) (x : Port) (s : State) : (setPort p x s).freeCtr = s.freeCtr := rfl
@[simp] theorem setPort_nextCid (p : Nat) (x : Port) (s : State) : (setPort p x s).nextCid = s.nextCid := rfl
@[simp] theorem setPort_regs (p : Nat) (x : Port) (s : State) : (setPort p x s).regs = s.regs := rfl
@[simp] theorem setPort_latches (p : Nat) (x : Port) (s : State) : (setPort p x s).latches = s.latches := rfl
@[simp] theorem setPort_resp (p : Nat) (x : Port) (s : State) : (setPort p x s).resp = s.resp := rfl
@[simp] theorem setPort_msix (p : Nat) (x : Port) (s : State) : (setPort p x s).msix = s.msix := rfl
@[simp] theorem setPort_hostMem (p : Nat) (x : Port) (s : State) : (setPort p x s).hostMem = s.hostMem := rfl
@[simp] theorem setPort_link (p : Nat) (x : Port) (s : State) : (setPort p x s).link = s.link := rfl
@[simp] theorem setPort_queues (p : Nat) (x : Port) (s : State) : (setPort p x s).queues = s.queues := rfl
@[simp] theorem setPort_intake (p : Nat) (x : Port) (s : State) : (setPort p x s).intake = s.intake := rfl
@[simp] theorem setPort_jobs (p : Nat) (x : Port) (s : State) : (setPort p x s).jobs = s.jobs := rfl
@[simp] theorem setPort_clk (p : Nat) (x : Port) (s : State) : (setPort p x s).clk = s.clk := rfl
@[simp] theorem setPort_units (p : Nat) (x : Port) (s : State) : (setPort p x s).units = s.units := rfl
@[simp] theorem setPort_ledger (p : Nat) (x : Port) (s : State) : (setPort p x s).ledger = s.ledger := rfl
@[simp] theorem setPort_power (p : Nat) (x : Port) (s : State) : (setPort p x s).power = s.power := rfl
@[simp] theorem setPort_flt (p : Nat) (x : Port) (s : State) : (setPort p x s).flt = s.flt := rfl
@[simp] theorem setPort_adnt (p : Nat) (x : Port) (s : State) : (setPort p x s).adnt = s.adnt := rfl
@[simp] theorem setPort_nvm (p : Nat) (x : Port) (s : State) : (setPort p x s).nvm = s.nvm := rfl
@[simp] theorem setPort_dawn (p : Nat) (x : Port) (s : State) : (setPort p x s).dawn = s.dawn := rfl
@[simp] theorem setPort_dlx (p : Nat) (x : Port) (s : State) : (setPort p x s).dlx = s.dlx := rfl
@[simp] theorem setPort_tiles (p : Nat) (x : Port) (s : State) : (setPort p x s).tiles = s.tiles := rfl
@[simp] theorem setPort_stk (p : Nat) (x : Port) (s : State) : (setPort p x s).stk = s.stk := rfl
@[simp] theorem setPort_urng (p : Nat) (x : Port) (s : State) : (setPort p x s).urng = s.urng := rfl
@[simp] theorem setPort_emb (p : Nat) (x : Port) (s : State) : (setPort p x s).emb = s.emb := rfl
@[simp] theorem setPort_lkp (p : Nat) (x : Port) (s : State) : (setPort p x s).lkp = s.lkp := rfl
@[simp] theorem setPort_dtr (p : Nat) (x : Port) (s : State) : (setPort p x s).dtr = s.dtr := rfl
@[simp] theorem setPort_chk (p : Nat) (x : Port) (s : State) : (setPort p x s).chk = s.chk := rfl
@[simp] theorem setPort_fabric (p : Nat) (x : Port) (s : State) : (setPort p x s).fabric = s.fabric := rfl
@[simp] theorem setPort_coreWords (p : Nat) (x : Port) (s : State) : (setPort p x s).coreWords = s.coreWords := rfl
@[simp] theorem setPort_coreHalts (p : Nat) (x : Port) (s : State) : (setPort p x s).coreHalts = s.coreHalts := rfl
@[simp] theorem setPort_savedSeqs (p : Nat) (x : Port) (s : State) : (setPort p x s).savedSeqs = s.savedSeqs := rfl
@[simp] theorem setPort_savedClusters (p : Nat) (x : Port) (s : State) : (setPort p x s).savedClusters = s.savedClusters := rfl
@[simp] theorem setPort_i3c (p : Nat) (x : Port) (s : State) : (setPort p x s).i3c = s.i3c := rfl
@[simp] theorem setPort_pins (p : Nat) (x : Port) (s : State) : (setPort p x s).pins = s.pins := rfl
@[simp] theorem setPort_upsets (p : Nat) (x : Port) (s : State) : (setPort p x s).upsets = s.upsets := rfl

/-! ## updPort -/

@[simp] theorem updPort_pending (p : Nat) (f : Port → Port) (s : State) : (updPort p f s).pending = s.pending := rfl
@[simp] theorem updPort_held (p : Nat) (f : Port → Port) (s : State) : (updPort p f s).held = s.held := rfl
@[simp] theorem updPort_now (p : Nat) (f : Port → Port) (s : State) : (updPort p f s).now = s.now := rfl
@[simp] theorem updPort_trngCtr (p : Nat) (f : Port → Port) (s : State) : (updPort p f s).trngCtr = s.trngCtr := rfl
@[simp] theorem updPort_freeCtr (p : Nat) (f : Port → Port) (s : State) : (updPort p f s).freeCtr = s.freeCtr := rfl
@[simp] theorem updPort_nextCid (p : Nat) (f : Port → Port) (s : State) : (updPort p f s).nextCid = s.nextCid := rfl
@[simp] theorem updPort_regs (p : Nat) (f : Port → Port) (s : State) : (updPort p f s).regs = s.regs := rfl
@[simp] theorem updPort_latches (p : Nat) (f : Port → Port) (s : State) : (updPort p f s).latches = s.latches := rfl
@[simp] theorem updPort_resp (p : Nat) (f : Port → Port) (s : State) : (updPort p f s).resp = s.resp := rfl
@[simp] theorem updPort_msix (p : Nat) (f : Port → Port) (s : State) : (updPort p f s).msix = s.msix := rfl
@[simp] theorem updPort_hostMem (p : Nat) (f : Port → Port) (s : State) : (updPort p f s).hostMem = s.hostMem := rfl
@[simp] theorem updPort_link (p : Nat) (f : Port → Port) (s : State) : (updPort p f s).link = s.link := rfl
@[simp] theorem updPort_queues (p : Nat) (f : Port → Port) (s : State) : (updPort p f s).queues = s.queues := rfl
@[simp] theorem updPort_intake (p : Nat) (f : Port → Port) (s : State) : (updPort p f s).intake = s.intake := rfl
@[simp] theorem updPort_jobs (p : Nat) (f : Port → Port) (s : State) : (updPort p f s).jobs = s.jobs := rfl
@[simp] theorem updPort_clk (p : Nat) (f : Port → Port) (s : State) : (updPort p f s).clk = s.clk := rfl
@[simp] theorem updPort_units (p : Nat) (f : Port → Port) (s : State) : (updPort p f s).units = s.units := rfl
@[simp] theorem updPort_ledger (p : Nat) (f : Port → Port) (s : State) : (updPort p f s).ledger = s.ledger := rfl
@[simp] theorem updPort_power (p : Nat) (f : Port → Port) (s : State) : (updPort p f s).power = s.power := rfl
@[simp] theorem updPort_flt (p : Nat) (f : Port → Port) (s : State) : (updPort p f s).flt = s.flt := rfl
@[simp] theorem updPort_adnt (p : Nat) (f : Port → Port) (s : State) : (updPort p f s).adnt = s.adnt := rfl
@[simp] theorem updPort_nvm (p : Nat) (f : Port → Port) (s : State) : (updPort p f s).nvm = s.nvm := rfl
@[simp] theorem updPort_dawn (p : Nat) (f : Port → Port) (s : State) : (updPort p f s).dawn = s.dawn := rfl
@[simp] theorem updPort_dlx (p : Nat) (f : Port → Port) (s : State) : (updPort p f s).dlx = s.dlx := rfl
@[simp] theorem updPort_tiles (p : Nat) (f : Port → Port) (s : State) : (updPort p f s).tiles = s.tiles := rfl
@[simp] theorem updPort_stk (p : Nat) (f : Port → Port) (s : State) : (updPort p f s).stk = s.stk := rfl
@[simp] theorem updPort_urng (p : Nat) (f : Port → Port) (s : State) : (updPort p f s).urng = s.urng := rfl
@[simp] theorem updPort_emb (p : Nat) (f : Port → Port) (s : State) : (updPort p f s).emb = s.emb := rfl
@[simp] theorem updPort_lkp (p : Nat) (f : Port → Port) (s : State) : (updPort p f s).lkp = s.lkp := rfl
@[simp] theorem updPort_dtr (p : Nat) (f : Port → Port) (s : State) : (updPort p f s).dtr = s.dtr := rfl
@[simp] theorem updPort_chk (p : Nat) (f : Port → Port) (s : State) : (updPort p f s).chk = s.chk := rfl
@[simp] theorem updPort_fabric (p : Nat) (f : Port → Port) (s : State) : (updPort p f s).fabric = s.fabric := rfl
@[simp] theorem updPort_coreWords (p : Nat) (f : Port → Port) (s : State) : (updPort p f s).coreWords = s.coreWords := rfl
@[simp] theorem updPort_coreHalts (p : Nat) (f : Port → Port) (s : State) : (updPort p f s).coreHalts = s.coreHalts := rfl
@[simp] theorem updPort_savedSeqs (p : Nat) (f : Port → Port) (s : State) : (updPort p f s).savedSeqs = s.savedSeqs := rfl
@[simp] theorem updPort_savedClusters (p : Nat) (f : Port → Port) (s : State) : (updPort p f s).savedClusters = s.savedClusters := rfl
@[simp] theorem updPort_i3c (p : Nat) (f : Port → Port) (s : State) : (updPort p f s).i3c = s.i3c := rfl
@[simp] theorem updPort_pins (p : Nat) (f : Port → Port) (s : State) : (updPort p f s).pins = s.pins := rfl
@[simp] theorem updPort_upsets (p : Nat) (f : Port → Port) (s : State) : (updPort p f s).upsets = s.upsets := rfl

/-! ## updChan -/

@[simp] theorem updChan_pending (c : Nat) (f : Chan → Chan) (s : State) : (updChan c f s).pending = s.pending := rfl
@[simp] theorem updChan_held (c : Nat) (f : Chan → Chan) (s : State) : (updChan c f s).held = s.held := rfl
@[simp] theorem updChan_now (c : Nat) (f : Chan → Chan) (s : State) : (updChan c f s).now = s.now := rfl
@[simp] theorem updChan_trngCtr (c : Nat) (f : Chan → Chan) (s : State) : (updChan c f s).trngCtr = s.trngCtr := rfl
@[simp] theorem updChan_freeCtr (c : Nat) (f : Chan → Chan) (s : State) : (updChan c f s).freeCtr = s.freeCtr := rfl
@[simp] theorem updChan_nextCid (c : Nat) (f : Chan → Chan) (s : State) : (updChan c f s).nextCid = s.nextCid := rfl
@[simp] theorem updChan_regs (c : Nat) (f : Chan → Chan) (s : State) : (updChan c f s).regs = s.regs := rfl
@[simp] theorem updChan_latches (c : Nat) (f : Chan → Chan) (s : State) : (updChan c f s).latches = s.latches := rfl
@[simp] theorem updChan_resp (c : Nat) (f : Chan → Chan) (s : State) : (updChan c f s).resp = s.resp := rfl
@[simp] theorem updChan_msix (c : Nat) (f : Chan → Chan) (s : State) : (updChan c f s).msix = s.msix := rfl
@[simp] theorem updChan_hostMem (c : Nat) (f : Chan → Chan) (s : State) : (updChan c f s).hostMem = s.hostMem := rfl
@[simp] theorem updChan_link (c : Nat) (f : Chan → Chan) (s : State) : (updChan c f s).link = s.link := rfl
@[simp] theorem updChan_queues (c : Nat) (f : Chan → Chan) (s : State) : (updChan c f s).queues = s.queues := rfl
@[simp] theorem updChan_intake (c : Nat) (f : Chan → Chan) (s : State) : (updChan c f s).intake = s.intake := rfl
@[simp] theorem updChan_jobs (c : Nat) (f : Chan → Chan) (s : State) : (updChan c f s).jobs = s.jobs := rfl
@[simp] theorem updChan_clk (c : Nat) (f : Chan → Chan) (s : State) : (updChan c f s).clk = s.clk := rfl
@[simp] theorem updChan_units (c : Nat) (f : Chan → Chan) (s : State) : (updChan c f s).units = s.units := rfl
@[simp] theorem updChan_ledger (c : Nat) (f : Chan → Chan) (s : State) : (updChan c f s).ledger = s.ledger := rfl
@[simp] theorem updChan_power (c : Nat) (f : Chan → Chan) (s : State) : (updChan c f s).power = s.power := rfl
@[simp] theorem updChan_flt (c : Nat) (f : Chan → Chan) (s : State) : (updChan c f s).flt = s.flt := rfl
@[simp] theorem updChan_adnt (c : Nat) (f : Chan → Chan) (s : State) : (updChan c f s).adnt = s.adnt := rfl
@[simp] theorem updChan_nvm (c : Nat) (f : Chan → Chan) (s : State) : (updChan c f s).nvm = s.nvm := rfl
@[simp] theorem updChan_dawn (c : Nat) (f : Chan → Chan) (s : State) : (updChan c f s).dawn = s.dawn := rfl
@[simp] theorem updChan_dlx (c : Nat) (f : Chan → Chan) (s : State) : (updChan c f s).dlx = s.dlx := rfl
@[simp] theorem updChan_tiles (c : Nat) (f : Chan → Chan) (s : State) : (updChan c f s).tiles = s.tiles := rfl
@[simp] theorem updChan_urng (c : Nat) (f : Chan → Chan) (s : State) : (updChan c f s).urng = s.urng := rfl
@[simp] theorem updChan_emb (c : Nat) (f : Chan → Chan) (s : State) : (updChan c f s).emb = s.emb := rfl
@[simp] theorem updChan_lkp (c : Nat) (f : Chan → Chan) (s : State) : (updChan c f s).lkp = s.lkp := rfl
@[simp] theorem updChan_dtr (c : Nat) (f : Chan → Chan) (s : State) : (updChan c f s).dtr = s.dtr := rfl
@[simp] theorem updChan_zor (c : Nat) (f : Chan → Chan) (s : State) : (updChan c f s).zor = s.zor := rfl
@[simp] theorem updChan_chk (c : Nat) (f : Chan → Chan) (s : State) : (updChan c f s).chk = s.chk := rfl
@[simp] theorem updChan_fabric (c : Nat) (f : Chan → Chan) (s : State) : (updChan c f s).fabric = s.fabric := rfl
@[simp] theorem updChan_coreWords (c : Nat) (f : Chan → Chan) (s : State) : (updChan c f s).coreWords = s.coreWords := rfl
@[simp] theorem updChan_coreHalts (c : Nat) (f : Chan → Chan) (s : State) : (updChan c f s).coreHalts = s.coreHalts := rfl
@[simp] theorem updChan_savedSeqs (c : Nat) (f : Chan → Chan) (s : State) : (updChan c f s).savedSeqs = s.savedSeqs := rfl
@[simp] theorem updChan_savedClusters (c : Nat) (f : Chan → Chan) (s : State) : (updChan c f s).savedClusters = s.savedClusters := rfl
@[simp] theorem updChan_i3c (c : Nat) (f : Chan → Chan) (s : State) : (updChan c f s).i3c = s.i3c := rfl
@[simp] theorem updChan_pins (c : Nat) (f : Chan → Chan) (s : State) : (updChan c f s).pins = s.pins := rfl
@[simp] theorem updChan_upsets (c : Nat) (f : Chan → Chan) (s : State) : (updChan c f s).upsets = s.upsets := rfl

/-! ## updStack -/

@[simp] theorem updStack_pending (i : Nat) (f : Stack → Stack) (s : State) : (updStack i f s).pending = s.pending := rfl
@[simp] theorem updStack_held (i : Nat) (f : Stack → Stack) (s : State) : (updStack i f s).held = s.held := rfl
@[simp] theorem updStack_now (i : Nat) (f : Stack → Stack) (s : State) : (updStack i f s).now = s.now := rfl
@[simp] theorem updStack_trngCtr (i : Nat) (f : Stack → Stack) (s : State) : (updStack i f s).trngCtr = s.trngCtr := rfl
@[simp] theorem updStack_freeCtr (i : Nat) (f : Stack → Stack) (s : State) : (updStack i f s).freeCtr = s.freeCtr := rfl
@[simp] theorem updStack_nextCid (i : Nat) (f : Stack → Stack) (s : State) : (updStack i f s).nextCid = s.nextCid := rfl
@[simp] theorem updStack_regs (i : Nat) (f : Stack → Stack) (s : State) : (updStack i f s).regs = s.regs := rfl
@[simp] theorem updStack_latches (i : Nat) (f : Stack → Stack) (s : State) : (updStack i f s).latches = s.latches := rfl
@[simp] theorem updStack_resp (i : Nat) (f : Stack → Stack) (s : State) : (updStack i f s).resp = s.resp := rfl
@[simp] theorem updStack_msix (i : Nat) (f : Stack → Stack) (s : State) : (updStack i f s).msix = s.msix := rfl
@[simp] theorem updStack_hostMem (i : Nat) (f : Stack → Stack) (s : State) : (updStack i f s).hostMem = s.hostMem := rfl
@[simp] theorem updStack_link (i : Nat) (f : Stack → Stack) (s : State) : (updStack i f s).link = s.link := rfl
@[simp] theorem updStack_queues (i : Nat) (f : Stack → Stack) (s : State) : (updStack i f s).queues = s.queues := rfl
@[simp] theorem updStack_intake (i : Nat) (f : Stack → Stack) (s : State) : (updStack i f s).intake = s.intake := rfl
@[simp] theorem updStack_jobs (i : Nat) (f : Stack → Stack) (s : State) : (updStack i f s).jobs = s.jobs := rfl
@[simp] theorem updStack_clk (i : Nat) (f : Stack → Stack) (s : State) : (updStack i f s).clk = s.clk := rfl
@[simp] theorem updStack_units (i : Nat) (f : Stack → Stack) (s : State) : (updStack i f s).units = s.units := rfl
@[simp] theorem updStack_ledger (i : Nat) (f : Stack → Stack) (s : State) : (updStack i f s).ledger = s.ledger := rfl
@[simp] theorem updStack_power (i : Nat) (f : Stack → Stack) (s : State) : (updStack i f s).power = s.power := rfl
@[simp] theorem updStack_flt (i : Nat) (f : Stack → Stack) (s : State) : (updStack i f s).flt = s.flt := rfl
@[simp] theorem updStack_adnt (i : Nat) (f : Stack → Stack) (s : State) : (updStack i f s).adnt = s.adnt := rfl
@[simp] theorem updStack_nvm (i : Nat) (f : Stack → Stack) (s : State) : (updStack i f s).nvm = s.nvm := rfl
@[simp] theorem updStack_dawn (i : Nat) (f : Stack → Stack) (s : State) : (updStack i f s).dawn = s.dawn := rfl
@[simp] theorem updStack_dlx (i : Nat) (f : Stack → Stack) (s : State) : (updStack i f s).dlx = s.dlx := rfl
@[simp] theorem updStack_tiles (i : Nat) (f : Stack → Stack) (s : State) : (updStack i f s).tiles = s.tiles := rfl
@[simp] theorem updStack_urng (i : Nat) (f : Stack → Stack) (s : State) : (updStack i f s).urng = s.urng := rfl
@[simp] theorem updStack_emb (i : Nat) (f : Stack → Stack) (s : State) : (updStack i f s).emb = s.emb := rfl
@[simp] theorem updStack_lkp (i : Nat) (f : Stack → Stack) (s : State) : (updStack i f s).lkp = s.lkp := rfl
@[simp] theorem updStack_dtr (i : Nat) (f : Stack → Stack) (s : State) : (updStack i f s).dtr = s.dtr := rfl
@[simp] theorem updStack_zor (i : Nat) (f : Stack → Stack) (s : State) : (updStack i f s).zor = s.zor := rfl
@[simp] theorem updStack_chk (i : Nat) (f : Stack → Stack) (s : State) : (updStack i f s).chk = s.chk := rfl
@[simp] theorem updStack_fabric (i : Nat) (f : Stack → Stack) (s : State) : (updStack i f s).fabric = s.fabric := rfl
@[simp] theorem updStack_coreWords (i : Nat) (f : Stack → Stack) (s : State) : (updStack i f s).coreWords = s.coreWords := rfl
@[simp] theorem updStack_coreHalts (i : Nat) (f : Stack → Stack) (s : State) : (updStack i f s).coreHalts = s.coreHalts := rfl
@[simp] theorem updStack_savedSeqs (i : Nat) (f : Stack → Stack) (s : State) : (updStack i f s).savedSeqs = s.savedSeqs := rfl
@[simp] theorem updStack_savedClusters (i : Nat) (f : Stack → Stack) (s : State) : (updStack i f s).savedClusters = s.savedClusters := rfl
@[simp] theorem updStack_i3c (i : Nat) (f : Stack → Stack) (s : State) : (updStack i f s).i3c = s.i3c := rfl
@[simp] theorem updStack_pins (i : Nat) (f : Stack → Stack) (s : State) : (updStack i f s).pins = s.pins := rfl
@[simp] theorem updStack_upsets (i : Nat) (f : Stack → Stack) (s : State) : (updStack i f s).upsets = s.upsets := rfl

/-! ## setSession -/

@[simp] theorem setSession_pending (j : Nat) (x : Session) (s : State) : (setSession j x s).pending = s.pending := rfl
@[simp] theorem setSession_held (j : Nat) (x : Session) (s : State) : (setSession j x s).held = s.held := rfl
@[simp] theorem setSession_now (j : Nat) (x : Session) (s : State) : (setSession j x s).now = s.now := rfl
@[simp] theorem setSession_trngCtr (j : Nat) (x : Session) (s : State) : (setSession j x s).trngCtr = s.trngCtr := rfl
@[simp] theorem setSession_freeCtr (j : Nat) (x : Session) (s : State) : (setSession j x s).freeCtr = s.freeCtr := rfl
@[simp] theorem setSession_nextCid (j : Nat) (x : Session) (s : State) : (setSession j x s).nextCid = s.nextCid := rfl
@[simp] theorem setSession_regs (j : Nat) (x : Session) (s : State) : (setSession j x s).regs = s.regs := rfl
@[simp] theorem setSession_latches (j : Nat) (x : Session) (s : State) : (setSession j x s).latches = s.latches := rfl
@[simp] theorem setSession_resp (j : Nat) (x : Session) (s : State) : (setSession j x s).resp = s.resp := rfl
@[simp] theorem setSession_msix (j : Nat) (x : Session) (s : State) : (setSession j x s).msix = s.msix := rfl
@[simp] theorem setSession_hostMem (j : Nat) (x : Session) (s : State) : (setSession j x s).hostMem = s.hostMem := rfl
@[simp] theorem setSession_link (j : Nat) (x : Session) (s : State) : (setSession j x s).link = s.link := rfl
@[simp] theorem setSession_queues (j : Nat) (x : Session) (s : State) : (setSession j x s).queues = s.queues := rfl
@[simp] theorem setSession_intake (j : Nat) (x : Session) (s : State) : (setSession j x s).intake = s.intake := rfl
@[simp] theorem setSession_jobs (j : Nat) (x : Session) (s : State) : (setSession j x s).jobs = s.jobs := rfl
@[simp] theorem setSession_clk (j : Nat) (x : Session) (s : State) : (setSession j x s).clk = s.clk := rfl
@[simp] theorem setSession_units (j : Nat) (x : Session) (s : State) : (setSession j x s).units = s.units := rfl
@[simp] theorem setSession_ledger (j : Nat) (x : Session) (s : State) : (setSession j x s).ledger = s.ledger := rfl
@[simp] theorem setSession_power (j : Nat) (x : Session) (s : State) : (setSession j x s).power = s.power := rfl
@[simp] theorem setSession_flt (j : Nat) (x : Session) (s : State) : (setSession j x s).flt = s.flt := rfl
@[simp] theorem setSession_nvm (j : Nat) (x : Session) (s : State) : (setSession j x s).nvm = s.nvm := rfl
@[simp] theorem setSession_dawn (j : Nat) (x : Session) (s : State) : (setSession j x s).dawn = s.dawn := rfl
@[simp] theorem setSession_dlx (j : Nat) (x : Session) (s : State) : (setSession j x s).dlx = s.dlx := rfl
@[simp] theorem setSession_tiles (j : Nat) (x : Session) (s : State) : (setSession j x s).tiles = s.tiles := rfl
@[simp] theorem setSession_stk (j : Nat) (x : Session) (s : State) : (setSession j x s).stk = s.stk := rfl
@[simp] theorem setSession_urng (j : Nat) (x : Session) (s : State) : (setSession j x s).urng = s.urng := rfl
@[simp] theorem setSession_emb (j : Nat) (x : Session) (s : State) : (setSession j x s).emb = s.emb := rfl
@[simp] theorem setSession_lkp (j : Nat) (x : Session) (s : State) : (setSession j x s).lkp = s.lkp := rfl
@[simp] theorem setSession_dtr (j : Nat) (x : Session) (s : State) : (setSession j x s).dtr = s.dtr := rfl
@[simp] theorem setSession_zor (j : Nat) (x : Session) (s : State) : (setSession j x s).zor = s.zor := rfl
@[simp] theorem setSession_chk (j : Nat) (x : Session) (s : State) : (setSession j x s).chk = s.chk := rfl
@[simp] theorem setSession_fabric (j : Nat) (x : Session) (s : State) : (setSession j x s).fabric = s.fabric := rfl
@[simp] theorem setSession_coreWords (j : Nat) (x : Session) (s : State) : (setSession j x s).coreWords = s.coreWords := rfl
@[simp] theorem setSession_coreHalts (j : Nat) (x : Session) (s : State) : (setSession j x s).coreHalts = s.coreHalts := rfl
@[simp] theorem setSession_savedSeqs (j : Nat) (x : Session) (s : State) : (setSession j x s).savedSeqs = s.savedSeqs := rfl
@[simp] theorem setSession_savedClusters (j : Nat) (x : Session) (s : State) : (setSession j x s).savedClusters = s.savedClusters := rfl
@[simp] theorem setSession_i3c (j : Nat) (x : Session) (s : State) : (setSession j x s).i3c = s.i3c := rfl
@[simp] theorem setSession_pins (j : Nat) (x : Session) (s : State) : (setSession j x s).pins = s.pins := rfl
@[simp] theorem setSession_upsets (j : Nat) (x : Session) (s : State) : (setSession j x s).upsets = s.upsets := rfl

/-! ## putPage -/

@[simp] theorem putPage_pending (j vpn : Nat) (p : Page) (s : State) : (putPage j vpn p s).pending = s.pending := rfl
@[simp] theorem putPage_held (j vpn : Nat) (p : Page) (s : State) : (putPage j vpn p s).held = s.held := rfl
@[simp] theorem putPage_now (j vpn : Nat) (p : Page) (s : State) : (putPage j vpn p s).now = s.now := rfl
@[simp] theorem putPage_trngCtr (j vpn : Nat) (p : Page) (s : State) : (putPage j vpn p s).trngCtr = s.trngCtr := rfl
@[simp] theorem putPage_freeCtr (j vpn : Nat) (p : Page) (s : State) : (putPage j vpn p s).freeCtr = s.freeCtr := rfl
@[simp] theorem putPage_nextCid (j vpn : Nat) (p : Page) (s : State) : (putPage j vpn p s).nextCid = s.nextCid := rfl
@[simp] theorem putPage_regs (j vpn : Nat) (p : Page) (s : State) : (putPage j vpn p s).regs = s.regs := rfl
@[simp] theorem putPage_latches (j vpn : Nat) (p : Page) (s : State) : (putPage j vpn p s).latches = s.latches := rfl
@[simp] theorem putPage_resp (j vpn : Nat) (p : Page) (s : State) : (putPage j vpn p s).resp = s.resp := rfl
@[simp] theorem putPage_msix (j vpn : Nat) (p : Page) (s : State) : (putPage j vpn p s).msix = s.msix := rfl
@[simp] theorem putPage_hostMem (j vpn : Nat) (p : Page) (s : State) : (putPage j vpn p s).hostMem = s.hostMem := rfl
@[simp] theorem putPage_link (j vpn : Nat) (p : Page) (s : State) : (putPage j vpn p s).link = s.link := rfl
@[simp] theorem putPage_queues (j vpn : Nat) (p : Page) (s : State) : (putPage j vpn p s).queues = s.queues := rfl
@[simp] theorem putPage_intake (j vpn : Nat) (p : Page) (s : State) : (putPage j vpn p s).intake = s.intake := rfl
@[simp] theorem putPage_jobs (j vpn : Nat) (p : Page) (s : State) : (putPage j vpn p s).jobs = s.jobs := rfl
@[simp] theorem putPage_clk (j vpn : Nat) (p : Page) (s : State) : (putPage j vpn p s).clk = s.clk := rfl
@[simp] theorem putPage_units (j vpn : Nat) (p : Page) (s : State) : (putPage j vpn p s).units = s.units := rfl
@[simp] theorem putPage_ledger (j vpn : Nat) (p : Page) (s : State) : (putPage j vpn p s).ledger = s.ledger := rfl
@[simp] theorem putPage_power (j vpn : Nat) (p : Page) (s : State) : (putPage j vpn p s).power = s.power := rfl
@[simp] theorem putPage_flt (j vpn : Nat) (p : Page) (s : State) : (putPage j vpn p s).flt = s.flt := rfl
@[simp] theorem putPage_adnt (j vpn : Nat) (p : Page) (s : State) : (putPage j vpn p s).adnt = s.adnt := rfl
@[simp] theorem putPage_nvm (j vpn : Nat) (p : Page) (s : State) : (putPage j vpn p s).nvm = s.nvm := rfl
@[simp] theorem putPage_dawn (j vpn : Nat) (p : Page) (s : State) : (putPage j vpn p s).dawn = s.dawn := rfl
@[simp] theorem putPage_dlx (j vpn : Nat) (p : Page) (s : State) : (putPage j vpn p s).dlx = s.dlx := rfl
@[simp] theorem putPage_tiles (j vpn : Nat) (p : Page) (s : State) : (putPage j vpn p s).tiles = s.tiles := rfl
@[simp] theorem putPage_stk (j vpn : Nat) (p : Page) (s : State) : (putPage j vpn p s).stk = s.stk := rfl
@[simp] theorem putPage_emb (j vpn : Nat) (p : Page) (s : State) : (putPage j vpn p s).emb = s.emb := rfl
@[simp] theorem putPage_lkp (j vpn : Nat) (p : Page) (s : State) : (putPage j vpn p s).lkp = s.lkp := rfl
@[simp] theorem putPage_dtr (j vpn : Nat) (p : Page) (s : State) : (putPage j vpn p s).dtr = s.dtr := rfl
@[simp] theorem putPage_zor (j vpn : Nat) (p : Page) (s : State) : (putPage j vpn p s).zor = s.zor := rfl
@[simp] theorem putPage_chk (j vpn : Nat) (p : Page) (s : State) : (putPage j vpn p s).chk = s.chk := rfl
@[simp] theorem putPage_fabric (j vpn : Nat) (p : Page) (s : State) : (putPage j vpn p s).fabric = s.fabric := rfl
@[simp] theorem putPage_coreWords (j vpn : Nat) (p : Page) (s : State) : (putPage j vpn p s).coreWords = s.coreWords := rfl
@[simp] theorem putPage_coreHalts (j vpn : Nat) (p : Page) (s : State) : (putPage j vpn p s).coreHalts = s.coreHalts := rfl
@[simp] theorem putPage_savedSeqs (j vpn : Nat) (p : Page) (s : State) : (putPage j vpn p s).savedSeqs = s.savedSeqs := rfl
@[simp] theorem putPage_savedClusters (j vpn : Nat) (p : Page) (s : State) : (putPage j vpn p s).savedClusters = s.savedClusters := rfl
@[simp] theorem putPage_i3c (j vpn : Nat) (p : Page) (s : State) : (putPage j vpn p s).i3c = s.i3c := rfl
@[simp] theorem putPage_pins (j vpn : Nat) (p : Page) (s : State) : (putPage j vpn p s).pins = s.pins := rfl
@[simp] theorem putPage_upsets (j vpn : Nat) (p : Page) (s : State) : (putPage j vpn p s).upsets = s.upsets := rfl

/-! ## started -/

@[simp] theorem started_pending (q : Nat) (s : State) : (started q s).pending = s.pending := rfl
@[simp] theorem started_held (q : Nat) (s : State) : (started q s).held = s.held := rfl
@[simp] theorem started_now (q : Nat) (s : State) : (started q s).now = s.now := rfl
@[simp] theorem started_trngCtr (q : Nat) (s : State) : (started q s).trngCtr = s.trngCtr := rfl
@[simp] theorem started_freeCtr (q : Nat) (s : State) : (started q s).freeCtr = s.freeCtr := rfl
@[simp] theorem started_nextCid (q : Nat) (s : State) : (started q s).nextCid = s.nextCid := rfl
@[simp] theorem started_regs (q : Nat) (s : State) : (started q s).regs = s.regs := rfl
@[simp] theorem started_latches (q : Nat) (s : State) : (started q s).latches = s.latches := rfl
@[simp] theorem started_resp (q : Nat) (s : State) : (started q s).resp = s.resp := rfl
@[simp] theorem started_msix (q : Nat) (s : State) : (started q s).msix = s.msix := rfl
@[simp] theorem started_hostMem (q : Nat) (s : State) : (started q s).hostMem = s.hostMem := rfl
@[simp] theorem started_link (q : Nat) (s : State) : (started q s).link = s.link := rfl
@[simp] theorem started_intake (q : Nat) (s : State) : (started q s).intake = s.intake := rfl
@[simp] theorem started_jobs (q : Nat) (s : State) : (started q s).jobs = s.jobs := rfl
@[simp] theorem started_clk (q : Nat) (s : State) : (started q s).clk = s.clk := rfl
@[simp] theorem started_units (q : Nat) (s : State) : (started q s).units = s.units := rfl
@[simp] theorem started_ledger (q : Nat) (s : State) : (started q s).ledger = s.ledger := rfl
@[simp] theorem started_power (q : Nat) (s : State) : (started q s).power = s.power := rfl
@[simp] theorem started_flt (q : Nat) (s : State) : (started q s).flt = s.flt := rfl
@[simp] theorem started_adnt (q : Nat) (s : State) : (started q s).adnt = s.adnt := rfl
@[simp] theorem started_nvm (q : Nat) (s : State) : (started q s).nvm = s.nvm := rfl
@[simp] theorem started_dawn (q : Nat) (s : State) : (started q s).dawn = s.dawn := rfl
@[simp] theorem started_dlx (q : Nat) (s : State) : (started q s).dlx = s.dlx := rfl
@[simp] theorem started_tiles (q : Nat) (s : State) : (started q s).tiles = s.tiles := rfl
@[simp] theorem started_stk (q : Nat) (s : State) : (started q s).stk = s.stk := rfl
@[simp] theorem started_urng (q : Nat) (s : State) : (started q s).urng = s.urng := rfl
@[simp] theorem started_emb (q : Nat) (s : State) : (started q s).emb = s.emb := rfl
@[simp] theorem started_lkp (q : Nat) (s : State) : (started q s).lkp = s.lkp := rfl
@[simp] theorem started_dtr (q : Nat) (s : State) : (started q s).dtr = s.dtr := rfl
@[simp] theorem started_zor (q : Nat) (s : State) : (started q s).zor = s.zor := rfl
@[simp] theorem started_chk (q : Nat) (s : State) : (started q s).chk = s.chk := rfl
@[simp] theorem started_fabric (q : Nat) (s : State) : (started q s).fabric = s.fabric := rfl
@[simp] theorem started_coreWords (q : Nat) (s : State) : (started q s).coreWords = s.coreWords := rfl
@[simp] theorem started_coreHalts (q : Nat) (s : State) : (started q s).coreHalts = s.coreHalts := rfl
@[simp] theorem started_savedSeqs (q : Nat) (s : State) : (started q s).savedSeqs = s.savedSeqs := rfl
@[simp] theorem started_savedClusters (q : Nat) (s : State) : (started q s).savedClusters = s.savedClusters := rfl
@[simp] theorem started_i3c (q : Nat) (s : State) : (started q s).i3c = s.i3c := rfl
@[simp] theorem started_pins (q : Nat) (s : State) : (started q s).pins = s.pins := rfl
@[simp] theorem started_upsets (q : Nat) (s : State) : (started q s).upsets = s.upsets := rfl

/-! ## Counters and interrupts: they change registers, and the vectors sent -/

@[simp] theorem count_pending (off w n : Nat) (s : State) : (count off w n s).pending = s.pending := by unfold count; split <;> rfl
@[simp] theorem sendVector_pending (v : Nat) (s : State) : (sendVector v s).pending = s.pending := by unfold sendVector; split <;> rfl
@[simp] theorem raiseInt_pending (b : Blk) (n : Nat) (s : State) : (raiseInt b n s).pending = s.pending := by
  unfold raiseInt; dsimp only; split
  · exact sendVector_pending _ _
  · rfl
@[simp] theorem count_held (off w n : Nat) (s : State) : (count off w n s).held = s.held := by unfold count; split <;> rfl
@[simp] theorem sendVector_held (v : Nat) (s : State) : (sendVector v s).held = s.held := by unfold sendVector; split <;> rfl
@[simp] theorem raiseInt_held (b : Blk) (n : Nat) (s : State) : (raiseInt b n s).held = s.held := by
  unfold raiseInt; dsimp only; split
  · exact sendVector_held _ _
  · rfl
@[simp] theorem count_now (off w n : Nat) (s : State) : (count off w n s).now = s.now := by unfold count; split <;> rfl
@[simp] theorem sendVector_now (v : Nat) (s : State) : (sendVector v s).now = s.now := by unfold sendVector; split <;> rfl
@[simp] theorem raiseInt_now (b : Blk) (n : Nat) (s : State) : (raiseInt b n s).now = s.now := by
  unfold raiseInt; dsimp only; split
  · exact sendVector_now _ _
  · rfl
@[simp] theorem count_trngCtr (off w n : Nat) (s : State) : (count off w n s).trngCtr = s.trngCtr := by unfold count; split <;> rfl
@[simp] theorem sendVector_trngCtr (v : Nat) (s : State) : (sendVector v s).trngCtr = s.trngCtr := by unfold sendVector; split <;> rfl
@[simp] theorem raiseInt_trngCtr (b : Blk) (n : Nat) (s : State) : (raiseInt b n s).trngCtr = s.trngCtr := by
  unfold raiseInt; dsimp only; split
  · exact sendVector_trngCtr _ _
  · rfl
@[simp] theorem count_freeCtr (off w n : Nat) (s : State) : (count off w n s).freeCtr = s.freeCtr := by unfold count; split <;> rfl
@[simp] theorem sendVector_freeCtr (v : Nat) (s : State) : (sendVector v s).freeCtr = s.freeCtr := by unfold sendVector; split <;> rfl
@[simp] theorem raiseInt_freeCtr (b : Blk) (n : Nat) (s : State) : (raiseInt b n s).freeCtr = s.freeCtr := by
  unfold raiseInt; dsimp only; split
  · exact sendVector_freeCtr _ _
  · rfl
@[simp] theorem count_nextCid (off w n : Nat) (s : State) : (count off w n s).nextCid = s.nextCid := by unfold count; split <;> rfl
@[simp] theorem sendVector_nextCid (v : Nat) (s : State) : (sendVector v s).nextCid = s.nextCid := by unfold sendVector; split <;> rfl
@[simp] theorem raiseInt_nextCid (b : Blk) (n : Nat) (s : State) : (raiseInt b n s).nextCid = s.nextCid := by
  unfold raiseInt; dsimp only; split
  · exact sendVector_nextCid _ _
  · rfl
@[simp] theorem count_latches (off w n : Nat) (s : State) : (count off w n s).latches = s.latches := by unfold count; split <;> rfl
@[simp] theorem sendVector_latches (v : Nat) (s : State) : (sendVector v s).latches = s.latches := by unfold sendVector; split <;> rfl
@[simp] theorem raiseInt_latches (b : Blk) (n : Nat) (s : State) : (raiseInt b n s).latches = s.latches := by
  unfold raiseInt; dsimp only; split
  · exact sendVector_latches _ _
  · rfl
@[simp] theorem count_resp (off w n : Nat) (s : State) : (count off w n s).resp = s.resp := by unfold count; split <;> rfl
@[simp] theorem sendVector_resp (v : Nat) (s : State) : (sendVector v s).resp = s.resp := by unfold sendVector; split <;> rfl
@[simp] theorem raiseInt_resp (b : Blk) (n : Nat) (s : State) : (raiseInt b n s).resp = s.resp := by
  unfold raiseInt; dsimp only; split
  · exact sendVector_resp _ _
  · rfl
@[simp] theorem count_msix (off w n : Nat) (s : State) : (count off w n s).msix = s.msix := by unfold count; split <;> rfl
@[simp] theorem count_hostMem (off w n : Nat) (s : State) : (count off w n s).hostMem = s.hostMem := by unfold count; split <;> rfl
@[simp] theorem sendVector_hostMem (v : Nat) (s : State) : (sendVector v s).hostMem = s.hostMem := by unfold sendVector; split <;> rfl
@[simp] theorem raiseInt_hostMem (b : Blk) (n : Nat) (s : State) : (raiseInt b n s).hostMem = s.hostMem := by
  unfold raiseInt; dsimp only; split
  · exact sendVector_hostMem _ _
  · rfl
@[simp] theorem count_link (off w n : Nat) (s : State) : (count off w n s).link = s.link := by unfold count; split <;> rfl
@[simp] theorem sendVector_link (v : Nat) (s : State) : (sendVector v s).link = s.link := by unfold sendVector; split <;> rfl
@[simp] theorem raiseInt_link (b : Blk) (n : Nat) (s : State) : (raiseInt b n s).link = s.link := by
  unfold raiseInt; dsimp only; split
  · exact sendVector_link _ _
  · rfl
@[simp] theorem count_queues (off w n : Nat) (s : State) : (count off w n s).queues = s.queues := by unfold count; split <;> rfl
@[simp] theorem sendVector_queues (v : Nat) (s : State) : (sendVector v s).queues = s.queues := by unfold sendVector; split <;> rfl
@[simp] theorem raiseInt_queues (b : Blk) (n : Nat) (s : State) : (raiseInt b n s).queues = s.queues := by
  unfold raiseInt; dsimp only; split
  · exact sendVector_queues _ _
  · rfl
@[simp] theorem count_intake (off w n : Nat) (s : State) : (count off w n s).intake = s.intake := by unfold count; split <;> rfl
@[simp] theorem sendVector_intake (v : Nat) (s : State) : (sendVector v s).intake = s.intake := by unfold sendVector; split <;> rfl
@[simp] theorem raiseInt_intake (b : Blk) (n : Nat) (s : State) : (raiseInt b n s).intake = s.intake := by
  unfold raiseInt; dsimp only; split
  · exact sendVector_intake _ _
  · rfl
@[simp] theorem count_jobs (off w n : Nat) (s : State) : (count off w n s).jobs = s.jobs := by unfold count; split <;> rfl
@[simp] theorem sendVector_jobs (v : Nat) (s : State) : (sendVector v s).jobs = s.jobs := by unfold sendVector; split <;> rfl
@[simp] theorem raiseInt_jobs (b : Blk) (n : Nat) (s : State) : (raiseInt b n s).jobs = s.jobs := by
  unfold raiseInt; dsimp only; split
  · exact sendVector_jobs _ _
  · rfl
@[simp] theorem count_clk (off w n : Nat) (s : State) : (count off w n s).clk = s.clk := by unfold count; split <;> rfl
@[simp] theorem sendVector_clk (v : Nat) (s : State) : (sendVector v s).clk = s.clk := by unfold sendVector; split <;> rfl
@[simp] theorem raiseInt_clk (b : Blk) (n : Nat) (s : State) : (raiseInt b n s).clk = s.clk := by
  unfold raiseInt; dsimp only; split
  · exact sendVector_clk _ _
  · rfl
@[simp] theorem count_units (off w n : Nat) (s : State) : (count off w n s).units = s.units := by unfold count; split <;> rfl
@[simp] theorem sendVector_units (v : Nat) (s : State) : (sendVector v s).units = s.units := by unfold sendVector; split <;> rfl
@[simp] theorem raiseInt_units (b : Blk) (n : Nat) (s : State) : (raiseInt b n s).units = s.units := by
  unfold raiseInt; dsimp only; split
  · exact sendVector_units _ _
  · rfl
@[simp] theorem count_ledger (off w n : Nat) (s : State) : (count off w n s).ledger = s.ledger := by unfold count; split <;> rfl
@[simp] theorem sendVector_ledger (v : Nat) (s : State) : (sendVector v s).ledger = s.ledger := by unfold sendVector; split <;> rfl
@[simp] theorem raiseInt_ledger (b : Blk) (n : Nat) (s : State) : (raiseInt b n s).ledger = s.ledger := by
  unfold raiseInt; dsimp only; split
  · exact sendVector_ledger _ _
  · rfl
@[simp] theorem count_power (off w n : Nat) (s : State) : (count off w n s).power = s.power := by unfold count; split <;> rfl
@[simp] theorem sendVector_power (v : Nat) (s : State) : (sendVector v s).power = s.power := by unfold sendVector; split <;> rfl
@[simp] theorem raiseInt_power (b : Blk) (n : Nat) (s : State) : (raiseInt b n s).power = s.power := by
  unfold raiseInt; dsimp only; split
  · exact sendVector_power _ _
  · rfl
@[simp] theorem count_flt (off w n : Nat) (s : State) : (count off w n s).flt = s.flt := by unfold count; split <;> rfl
@[simp] theorem sendVector_flt (v : Nat) (s : State) : (sendVector v s).flt = s.flt := by unfold sendVector; split <;> rfl
@[simp] theorem raiseInt_flt (b : Blk) (n : Nat) (s : State) : (raiseInt b n s).flt = s.flt := by
  unfold raiseInt; dsimp only; split
  · exact sendVector_flt _ _
  · rfl
@[simp] theorem count_adnt (off w n : Nat) (s : State) : (count off w n s).adnt = s.adnt := by unfold count; split <;> rfl
@[simp] theorem sendVector_adnt (v : Nat) (s : State) : (sendVector v s).adnt = s.adnt := by unfold sendVector; split <;> rfl
@[simp] theorem raiseInt_adnt (b : Blk) (n : Nat) (s : State) : (raiseInt b n s).adnt = s.adnt := by
  unfold raiseInt; dsimp only; split
  · exact sendVector_adnt _ _
  · rfl
@[simp] theorem count_nvm (off w n : Nat) (s : State) : (count off w n s).nvm = s.nvm := by unfold count; split <;> rfl
@[simp] theorem sendVector_nvm (v : Nat) (s : State) : (sendVector v s).nvm = s.nvm := by unfold sendVector; split <;> rfl
@[simp] theorem raiseInt_nvm (b : Blk) (n : Nat) (s : State) : (raiseInt b n s).nvm = s.nvm := by
  unfold raiseInt; dsimp only; split
  · exact sendVector_nvm _ _
  · rfl
@[simp] theorem count_dawn (off w n : Nat) (s : State) : (count off w n s).dawn = s.dawn := by unfold count; split <;> rfl
@[simp] theorem sendVector_dawn (v : Nat) (s : State) : (sendVector v s).dawn = s.dawn := by unfold sendVector; split <;> rfl
@[simp] theorem raiseInt_dawn (b : Blk) (n : Nat) (s : State) : (raiseInt b n s).dawn = s.dawn := by
  unfold raiseInt; dsimp only; split
  · exact sendVector_dawn _ _
  · rfl
@[simp] theorem count_dlx (off w n : Nat) (s : State) : (count off w n s).dlx = s.dlx := by unfold count; split <;> rfl
@[simp] theorem sendVector_dlx (v : Nat) (s : State) : (sendVector v s).dlx = s.dlx := by unfold sendVector; split <;> rfl
@[simp] theorem raiseInt_dlx (b : Blk) (n : Nat) (s : State) : (raiseInt b n s).dlx = s.dlx := by
  unfold raiseInt; dsimp only; split
  · exact sendVector_dlx _ _
  · rfl
@[simp] theorem count_tiles (off w n : Nat) (s : State) : (count off w n s).tiles = s.tiles := by unfold count; split <;> rfl
@[simp] theorem sendVector_tiles (v : Nat) (s : State) : (sendVector v s).tiles = s.tiles := by unfold sendVector; split <;> rfl
@[simp] theorem raiseInt_tiles (b : Blk) (n : Nat) (s : State) : (raiseInt b n s).tiles = s.tiles := by
  unfold raiseInt; dsimp only; split
  · exact sendVector_tiles _ _
  · rfl
@[simp] theorem count_stk (off w n : Nat) (s : State) : (count off w n s).stk = s.stk := by unfold count; split <;> rfl
@[simp] theorem sendVector_stk (v : Nat) (s : State) : (sendVector v s).stk = s.stk := by unfold sendVector; split <;> rfl
@[simp] theorem raiseInt_stk (b : Blk) (n : Nat) (s : State) : (raiseInt b n s).stk = s.stk := by
  unfold raiseInt; dsimp only; split
  · exact sendVector_stk _ _
  · rfl
@[simp] theorem count_urng (off w n : Nat) (s : State) : (count off w n s).urng = s.urng := by unfold count; split <;> rfl
@[simp] theorem sendVector_urng (v : Nat) (s : State) : (sendVector v s).urng = s.urng := by unfold sendVector; split <;> rfl
@[simp] theorem raiseInt_urng (b : Blk) (n : Nat) (s : State) : (raiseInt b n s).urng = s.urng := by
  unfold raiseInt; dsimp only; split
  · exact sendVector_urng _ _
  · rfl
@[simp] theorem count_emb (off w n : Nat) (s : State) : (count off w n s).emb = s.emb := by unfold count; split <;> rfl
@[simp] theorem sendVector_emb (v : Nat) (s : State) : (sendVector v s).emb = s.emb := by unfold sendVector; split <;> rfl
@[simp] theorem raiseInt_emb (b : Blk) (n : Nat) (s : State) : (raiseInt b n s).emb = s.emb := by
  unfold raiseInt; dsimp only; split
  · exact sendVector_emb _ _
  · rfl
@[simp] theorem count_lkp (off w n : Nat) (s : State) : (count off w n s).lkp = s.lkp := by unfold count; split <;> rfl
@[simp] theorem sendVector_lkp (v : Nat) (s : State) : (sendVector v s).lkp = s.lkp := by unfold sendVector; split <;> rfl
@[simp] theorem raiseInt_lkp (b : Blk) (n : Nat) (s : State) : (raiseInt b n s).lkp = s.lkp := by
  unfold raiseInt; dsimp only; split
  · exact sendVector_lkp _ _
  · rfl
@[simp] theorem count_dtr (off w n : Nat) (s : State) : (count off w n s).dtr = s.dtr := by unfold count; split <;> rfl
@[simp] theorem sendVector_dtr (v : Nat) (s : State) : (sendVector v s).dtr = s.dtr := by unfold sendVector; split <;> rfl
@[simp] theorem raiseInt_dtr (b : Blk) (n : Nat) (s : State) : (raiseInt b n s).dtr = s.dtr := by
  unfold raiseInt; dsimp only; split
  · exact sendVector_dtr _ _
  · rfl
@[simp] theorem count_zor (off w n : Nat) (s : State) : (count off w n s).zor = s.zor := by unfold count; split <;> rfl
@[simp] theorem sendVector_zor (v : Nat) (s : State) : (sendVector v s).zor = s.zor := by unfold sendVector; split <;> rfl
@[simp] theorem raiseInt_zor (b : Blk) (n : Nat) (s : State) : (raiseInt b n s).zor = s.zor := by
  unfold raiseInt; dsimp only; split
  · exact sendVector_zor _ _
  · rfl
@[simp] theorem count_chk (off w n : Nat) (s : State) : (count off w n s).chk = s.chk := by unfold count; split <;> rfl
@[simp] theorem sendVector_chk (v : Nat) (s : State) : (sendVector v s).chk = s.chk := by unfold sendVector; split <;> rfl
@[simp] theorem raiseInt_chk (b : Blk) (n : Nat) (s : State) : (raiseInt b n s).chk = s.chk := by
  unfold raiseInt; dsimp only; split
  · exact sendVector_chk _ _
  · rfl
@[simp] theorem count_fabric (off w n : Nat) (s : State) : (count off w n s).fabric = s.fabric := by unfold count; split <;> rfl
@[simp] theorem sendVector_fabric (v : Nat) (s : State) : (sendVector v s).fabric = s.fabric := by unfold sendVector; split <;> rfl
@[simp] theorem raiseInt_fabric (b : Blk) (n : Nat) (s : State) : (raiseInt b n s).fabric = s.fabric := by
  unfold raiseInt; dsimp only; split
  · exact sendVector_fabric _ _
  · rfl
@[simp] theorem count_coreWords (off w n : Nat) (s : State) : (count off w n s).coreWords = s.coreWords := by unfold count; split <;> rfl
@[simp] theorem sendVector_coreWords (v : Nat) (s : State) : (sendVector v s).coreWords = s.coreWords := by unfold sendVector; split <;> rfl
@[simp] theorem raiseInt_coreWords (b : Blk) (n : Nat) (s : State) : (raiseInt b n s).coreWords = s.coreWords := by
  unfold raiseInt; dsimp only; split
  · exact sendVector_coreWords _ _
  · rfl
@[simp] theorem count_coreHalts (off w n : Nat) (s : State) : (count off w n s).coreHalts = s.coreHalts := by unfold count; split <;> rfl
@[simp] theorem sendVector_coreHalts (v : Nat) (s : State) : (sendVector v s).coreHalts = s.coreHalts := by unfold sendVector; split <;> rfl
@[simp] theorem raiseInt_coreHalts (b : Blk) (n : Nat) (s : State) : (raiseInt b n s).coreHalts = s.coreHalts := by
  unfold raiseInt; dsimp only; split
  · exact sendVector_coreHalts _ _
  · rfl
@[simp] theorem count_savedSeqs (off w n : Nat) (s : State) : (count off w n s).savedSeqs = s.savedSeqs := by unfold count; split <;> rfl
@[simp] theorem sendVector_savedSeqs (v : Nat) (s : State) : (sendVector v s).savedSeqs = s.savedSeqs := by unfold sendVector; split <;> rfl
@[simp] theorem raiseInt_savedSeqs (b : Blk) (n : Nat) (s : State) : (raiseInt b n s).savedSeqs = s.savedSeqs := by
  unfold raiseInt; dsimp only; split
  · exact sendVector_savedSeqs _ _
  · rfl
@[simp] theorem count_savedClusters (off w n : Nat) (s : State) : (count off w n s).savedClusters = s.savedClusters := by unfold count; split <;> rfl
@[simp] theorem sendVector_savedClusters (v : Nat) (s : State) : (sendVector v s).savedClusters = s.savedClusters := by unfold sendVector; split <;> rfl
@[simp] theorem raiseInt_savedClusters (b : Blk) (n : Nat) (s : State) : (raiseInt b n s).savedClusters = s.savedClusters := by
  unfold raiseInt; dsimp only; split
  · exact sendVector_savedClusters _ _
  · rfl
@[simp] theorem count_i3c (off w n : Nat) (s : State) : (count off w n s).i3c = s.i3c := by unfold count; split <;> rfl
@[simp] theorem sendVector_i3c (v : Nat) (s : State) : (sendVector v s).i3c = s.i3c := by unfold sendVector; split <;> rfl
@[simp] theorem raiseInt_i3c (b : Blk) (n : Nat) (s : State) : (raiseInt b n s).i3c = s.i3c := by
  unfold raiseInt; dsimp only; split
  · exact sendVector_i3c _ _
  · rfl
@[simp] theorem count_pins (off w n : Nat) (s : State) : (count off w n s).pins = s.pins := by unfold count; split <;> rfl
@[simp] theorem sendVector_pins (v : Nat) (s : State) : (sendVector v s).pins = s.pins := by unfold sendVector; split <;> rfl
@[simp] theorem raiseInt_pins (b : Blk) (n : Nat) (s : State) : (raiseInt b n s).pins = s.pins := by
  unfold raiseInt; dsimp only; split
  · exact sendVector_pins _ _
  · rfl
@[simp] theorem count_upsets (off w n : Nat) (s : State) : (count off w n s).upsets = s.upsets := by unfold count; split <;> rfl
@[simp] theorem sendVector_upsets (v : Nat) (s : State) : (sendVector v s).upsets = s.upsets := by unfold sendVector; split <;> rfl
@[simp] theorem raiseInt_upsets (b : Blk) (n : Nat) (s : State) : (raiseInt b n s).upsets = s.upsets := by
  unfold raiseInt; dsimp only; split
  · exact sendVector_upsets _ _
  · rfl

end Sys2Proof.Machine
end

