-- ==== Sys2Proof/Tests/Slice0.lean ====
section
/-! SUPPORT. Small tests: ill-formed commands are refused, and for every statement with hypotheses a state and operands that meet them. -/

set_option Elab.async false

namespace Sys2Proof.Tests

open Sys2Proof.Machine

/-- An ill-formed tile word is refused: a JMP word given to the row of NOP. -/
theorem test_wf_tile : WellFormed (.nop 0 0 0x30#128) = false := by decide

/-! ## Small states the witnesses share -/

/-- A record of operation `op` for job 0 with the operand bytes `o`, at the head of its queue. -/
def cmdOf (op : Nat) (o : Bytes) : Cmd :=
  { cid := 1, record := toLe 2 op ++ zeros 62 ++ o, payload := [], slot := 0, life := .head, early := none, authBad := false, suspReq := false,
    cancReq := false, overReq := false, faultReq := none, waits := [], robbed := false, chunks := 0, charged := 0, energy := 0, nstat := 0,
    forced := false, susp := false, fstart := none, ranIn := none, nowForced := false, prevForced := false, passed := 0, noFit := false,
    ledgNoFit := false, inLost := false, done := 0 }

/-- A resident job of two devices that holds a partition of every tile. -/
def jobA : Job :=
  { jobid := 7, ndev := 2, seed := 0, floor := 4, ceil := 8, quota := 16, digSamples := 0, replMaxLag := 0, gmode := 0, replBytes := 64,
    replSlots := 8, mergeEntries := 16, mergeSlot := 4096, utile0 := 0, utile1 := 0, replBase := 0, mergeBase := 0, ustage := 0, dstage := 0,
    parts := List.replicate 8 { osBase := 0, osSize := 0x40000, afBase := 0xF00000, afSize := 0x100000 }, stage := 0, nstages := 1,
    slots := [], ranks := [5, 6], stageTab := [], rank := 0, planOn := true, switchedIn := true, switches := [], fresh := false,
    held := false, ending := none, stopped := none, resumeFrame := 0, gens := [], xtsKey := [], ilKey0 := 0, ilKey1 := 0 }

/-- A device in service: powered, Ready, Noon, its clock locked to device 9 in frame 5, job 0 resident and joined. -/
def stBase : State := { State.reset with
  dawn := { Dawn.init with powered := true, outcome := 1, stackUp := List.replicate 8 true, man := { Manifest.init with devAddr := 5 } },
  power := { Power.init with state := .noon },
  clk := { FrameClk.init with lock := .locked, fnum := 5, stepsDone := true, src0 := ⟨2, 9⟩, delay := [(0, 100)] },
  ledger := { Ledger.init with on := true, bucket := 80 },
  urng := { Urng.init with pool := 4096 },
  jobs := [(0, jobA)],
  adnt := { Adnt.init with sessions := [(0, { Session.init with state := .joined, jobid := 7, linkKey := [1] })] } }

/-- The same with page 0 of job 0 in stack frame 4096. -/
def stPage : State := { stBase with
  urng := { stBase.urng with pages := [(0, Page.new (.stack 4096) false)], frames := [(4096, 0)] } }

/-- Every owner that work can stand on holds its draws. -/
def owners : List Owner :=
  (List.range 64).map .memGroup ++ (List.range 64).map .memAdder ++ (List.range 32).map .link ++ (List.range 8).map .tableEngine ++
    (List.range 3).map .reduction ++ [.lineEngine, .exporter, .restorer, .refresh, .digest]

/-- The same state with those draws held. -/
def withDraws (s : State) : State := { s with ledger := { s.ledger with holds := s.ledger.holds ++ owners.map fun o => (o, 1) } }

/-- Whether what the work that led to `t` stands on is there, as a computed value. -/
def ready (t : State) : Bool := (unready t).isEmpty

theorem ready_iff (t : State) : usesReady t ↔ ready t = true := by unfold usesReady ready; exact List.isEmpty_iff.symm

/-- A state with the command `c` at the head of queue 0. -/
def withCmd (c : Cmd) (s : State) : State := setQueue 0 { Queue.init with en := true, cmds := [c] } s

/-! ## Steps and whole-machine statements -/

theorem witness_StepOnEmptyQueueIsOneCycle : stBase.pending = [] := rfl

theorem witness_StepKeepsMemoriesCanonical :
    { stBase with hostMem := [(3, 1)], nvm := { stBase.nvm with mem := [(0, 0)] }, tiles := [(2, { Tile.init with sram := [(1, 1)] })] }.MemsOk ∧
      ∃ t, step { stBase with hostMem := [(3, 1)], nvm := { stBase.nvm with mem := [(0, 0)] },
                              tiles := [(2, { Tile.init with sram := [(1, 1)] })] } = .next t := by
  refine ⟨⟨?_, ?_, ?_, ?_, ?_, ?_, ?_, ?_, ?_, ?_, ?_⟩, ⟨_, rfl⟩⟩
  case refine_9 =>
    intro p hp
    cases hp with
    | head => exact ⟨by decide +kernel⟩
    | tail _ h => cases h
  case refine_10 => intro p hp; cases hp
  case refine_11 => intro p hp; cases hp
  case refine_8 => intro r hr; cases hr
  all_goals decide +kernel

theorem witness_StepKeepsQueueAndTime : ∃ t, step { stBase with pending := [.rstdaa, .ledgerGrant] } = .next t := ⟨_, rfl⟩

theorem witness_WellFormedCommandsComplete : WellFormed (.setc 0 0 0x40#128) = true ∧ WellFormed (.workWindowEnd) = true := by decide +kernel

theorem witness_ReservedAddressReadsZero :
    stBase.answers = true ∧ reservedWord 0x3FFFF8 = true ∧ reservedWord (0x3FFFF8 + 4) = true ∧ 0x3FFFF8 % 8 = 0 := by decide +kernel

theorem witness_Bar2ReadsZeroAndTakesWrites : stBase.served = true := by decide +kernel

/-! ## The frame clock -/

/-- A TICK of frame `f` from device 9 with CORR 0 and rank 0. -/
def tickOf (f : Nat) : Bytes :=
  toLe 2 7 ++ toLe 2 9 ++ [1, 0] ++ toLe 2 (f % 65536) ++ toLe 6 f ++ toLe 4 800000 ++ toLe 1 30 ++ zeros 13

theorem witness_TickCopyOfNextFrameIsGathered :
    stBase.live = true ∧ Tbl.look? stBase.clk.delay 0 = some 100 ∧ stBase.clk.lock = .locked ∧ tickFieldsOk stBase true (tickOf 6) = true ∧
      leAt (tickOf 6) 8 6 = stBase.clk.fnum + 1 ∧ absDiff (64006500 - sx 32 (leAt (tickOf 6) 20 4) - 100) stBase.expected ≤ 6400 ∧
      gatherOf stBase (stBase.clk.fnum + 1) (b2n stBase.clk.secondary) = none := by
  decide +kernel

/-- With a window open the copy joins it no later than 200 ns after the window's first. -/
theorem witness_TickCopyOfNextFrameIsGathered_open :
    let g : Gather := { fnum := 6, rank := 0, since := 64000000, copies := [(1, 64000000)] }
    gatherOf { stBase with clk := { stBase.clk with gathers := [g] } } (stBase.clk.fnum + 1) (b2n stBase.clk.secondary) = some g ∧
      (64006500 : Int) ≤ g.since + 12800 := by decide +kernel

theorem witness_TickCopyRejected_field : stBase.live = true ∧ Tbl.look? stBase.clk.delay 0 = some 100 ∧ tickFieldsOk stBase false (tickOf 6) = false := by
  decide +kernel

theorem witness_TickCopyRejected_late :
    stBase.clk.lock = .locked ∧ leAt (tickOf 6) 8 6 ≠ stBase.clk.fnum ∧
      absDiff (64006501 - sx 32 (leAt (tickOf 6) 20 4) - 100) stBase.expected > 6400 := by decide +kernel

theorem witness_TickCopyRejected_freerun :
    let s := { stBase with clk := { stBase.clk with lock := .freerun } }
    s.live = true ∧ Tbl.look? s.clk.delay 0 = some 100 ∧ s.clk.lock = .freerun := by decide +kernel

/-- An instant after the expected start of the next frame of `stBase`, with 200 ns and the delays gone by. -/
def stLate (k : FrameClk) : State := { stBase with now := 64020000, clk := k }

theorem witness_ClockEventsComplete_gather :
    let g : Gather := { fnum := 6, rank := 0, since := 64000000, copies := [(0, 64000000)] }
    let s := stLate { stBase.clk with gathers := [g] }
    nextGather s = some g ∧ s.live = true ∧ g ∈ s.clk.gathers ∧ (runUntil (g.since + 12800) s).live = true ∧
      g ∈ (runUntil (g.since + 12800) s).clk.gathers := by decide +kernel

theorem witness_ClockEventsComplete_missed :
    let s := stLate stBase.clk
    tickDue s = true ∧ tickDue (runUntil (s.expected + 12800 + dMax s) s) = true := by decide +kernel

theorem witness_ClockEventsComplete_self :
    let s := stLate { stBase.clk with src0 := ⟨1, 0⟩ }
    s.live = true ∧ s.ownSource = true ∧ s.clk.lock = .locked ∧ (runUntil s.expected s).live = true ∧ (runUntil s.expected s).ownSource = true ∧
      (runUntil s.expected s).clk.lock = .locked := by decide +kernel

theorem witness_ClockEventsComplete_freerun :
    let s := stLate { stBase.clk with lock := .freerun }
    s.live = true ∧ s.clk.lock = .freerun ∧ (runUntil s.expected s).live = true ∧ (runUntil s.expected s).clk.lock = .freerun := by decide +kernel

theorem witness_ClockEventsComplete_lost :
    let s := stLate { stBase.clk with lock := .lost }
    s.live = true ∧ s.lost = true ∧ (runUntil s.expected s).live = true ∧ (runUntil s.expected s).lost = true := by decide +kernel

theorem witness_ClockEventsComplete_timeout :
    let s := { stBase with clk := FrameClk.init, dawn := { stBase.dawn with outcome := 0, stage := 8 } }
    atStage 8 s = true ∧ s.clk.lock = .acquiring := by decide +kernel

theorem witness_ClockEventsComplete_slice :
    let s := stLate stBase.clk
    s.framed = true ∧ s.clk.sliceDone = false ∧ (runUntil (s.atPos s.W) s).framed = true ∧ (runUntil (s.atPos s.W) s).clk.sliceDone = false ∧
      s.clk.reserveDone = false ∧ (runUntil (s.atPos s.reserveAt) s).framed = true ∧ (runUntil (s.atPos s.reserveAt) s).clk.reserveDone = false ∧
      s.clk.windowDone = false ∧ (runUntil (s.atPos s.W) s).clk.windowDone = false := by decide +kernel

theorem witness_ClockEventsComplete_delay :
    let p := toLe 2 3 ++ zeros 6 ++ toLe 8 1000 ++ toLe 8 1100 ++ toLe 8 1200
    let s := { stBase with zor := { stBase.zor with ports := [(0, { Port.init with state := 2 })] },
                           clk := { stBase.clk with dlySent := [(0, 1000)] } }
    s.live = true ∧ (s.port 0).up = true ∧ leAt p 0 2 = 3 ∧ Tbl.look? s.clk.dlySent 0 = some (leAt p 8 8) ∧
      ((((1300 : BitVec 64).toNat : Int) - leAt p 8 8) - ((leAt p 24 8 : Int) - leAt p 16 8)) / 2 = (100 : Nat) ∧ 100 < 2 ^ 20 := by
  decide +kernel

theorem witness_ClockEventsComplete_delay_outside :
    let p := toLe 2 3 ++ zeros 6 ++ toLe 8 1000 ++ toLe 8 1100 ++ toLe 8 1400
    (((1200 : BitVec 64).toNat : Int) - leAt p 8 8 - ((leAt p 24 8 : Int) - leAt p 16 8)) / 2 = -50 := by decide +kernel

theorem witness_ClockEventsComplete_pll :
    atStage 0 { stBase with dawn := { stBase.dawn with outcome := 0, stage := 0 } } = true := by decide +kernel

/-! ## Admission -/

/-- A TILE_RUN of job 0: 100 cc in chunks of 100, no draws. -/
def tileRunCmd (draws : Nat) : Cmd :=
  { cmdOf Op.TILE_RUN [] with record := toLe 2 Op.TILE_RUN ++ zeros 14 ++ toLe 5 100 ++ toLe 3 100 ++ toLe 2 draws ++ zeros 38 }

/-- The chunk of that command on unit 0. -/
def chunkA (draws : Nat) : Chunk :=
  { queue := 0, cid := 1, charge := 100, draws := draws, begun := 0, start := 0, energy := 0, counted := false, held := draws, used := 0 }

/-- The command at the head of queue 0, which serves tile 0, sequencer 0. -/
def stAdmit (draws : Nat) : State :=
  setQueue 0 { Queue.init with en := true, target := 1, tile := 0, seq := 0, cmds := [tileRunCmd draws] } stBase

theorem witness_ChunkAdmission_granted :
    let s := { stAdmit 10 with units := [(0, { ExecUnit.init with asking := some (chunkA 10) })],
                               ledger := { stBase.ledger with granted := [0], holds := [(.chunk 0, 10)], held := 10 } }
    let s' := { s with ledger := { s.ledger with granted := s.ledger.granted.filter (· ≠ 0) } }
    s.clocked = true ∧ s.ledger.granted.contains 0 = true ∧ (s.unit 0).asking = some (chunkA 10) ∧ (s.unit 0).forced = [] ∧ admitting s = true ∧
      (tileRunCmd 10).cid = (chunkA 10).cid ∧ s.pos + (tileRunCmd 10).budgetAt (chunkIndex s' 0 (tileRunCmd 10)) * s.mult ≤ s.W ∧ headOf s' (chunkA 10).queue = some (tileRunCmd 10) ∧
      (unitHead s' 0 (chunkA 10).queue).isSome = true := by decide +kernel

theorem witness_ChunkAdmission_picked :
    let s := stAdmit 10
    let p := pickCand 0 (noteNoDraw 0 (noteNoFit 0 s))
    s.clocked = true ∧ s.ledger.granted.contains 0 = false ∧ admitting s = true ∧ (s.unit 0).run = none ∧ (s.unit 0).asking = none ∧
      (s.unit 0).halted = false ∧ (p.1.map fun x => decide (p.2.pos + x.charge ≤ p.2.W ∧ x.draws ≤ ledgerLimit p.2 - p.2.ledger.standing)) = some true := by
  decide +kernel

theorem witness_ChunkAdmission_noDraws :
    let p := pickCand 0 (noteNoDraw 0 (noteNoFit 0 (stAdmit 0)))
    (p.1.map fun x => decide (p.2.pos + x.charge ≤ p.2.W ∧ x.draws = 0)) = some true := by decide +kernel

theorem witness_ChunkAdmission_grants : stBase.live = true ∧ stBase.ledger.on = true := by decide +kernel

/-! ## Tiles -/

/-- Tile 0 with its sequencer 0 at `q` and what `f` makes of the rest; the chunk of command 1 runs on unit 0. -/
def stTile (q : Seq) (f : Tile → Tile) : State := { stPage with
  tiles := [(0, f { Tile.init with seqs := [(0, q)] })],
  units := [(0, { ExecUnit.init with run := some (chunkA 200) })],
  queues := [(0, { Queue.init with en := true, target := 1, cmds := [{ tileRunCmd 200 with life := .running }] })] }

/-- A sequencer that runs command 1 of job 0 from address 0. -/
def seqA : Seq := { Seq.init with cid := 1, state := 1 }

/-- Nothing else on the tile. -/
abbrev stIssue : State := stTile seqA id

theorem witness_TileControl_nop : TileReady 0 0 0#128 0 0 (tileMask 0 0) stIssue := by constructor <;> decide +kernel

/-- A NOP that takes semaphore 2, gives semaphore 3, and waits for and frees token 1. -/
theorem witness_TileControl_flags :
    TileReady 0 0 0x73_9400#128 0 0 (tileMask 0 0) (stTile { seqA with tok := [(1, .full)] } fun x => { x with sems := [(2, 1)] }) := by
  constructor <;> decide +kernel

theorem witness_TileControl_setc : TileReady 0 0 0xFFFFFF03_00000040#128 0 4 (tileMask 0 4) stIssue := by constructor <;> decide +kernel

theorem witness_TileControl_aset :
    TileReady 0 0 0xFFFFFF07_00000050#128 0 5 (tileMask 0 5) stIssue ∧ bits (0xFFFFFF07_00000050#128).toNat 34 32 ≠ 0 := by
  constructor
  · constructor <;> decide +kernel
  · decide +kernel

theorem witness_TileControl_ainc :
    TileReady 0 0 0x00000801_00000060#128 0 6 (tileMask 0 6) stIssue ∧ bits (0x00000801_00000060#128).toNat 34 32 ≠ 0 := by
  constructor
  · constructor <;> decide +kernel
  · decide +kernel

theorem witness_TileControl_rbset : TileReady 0 0 0xFFFF0000_00000000_00000003_00000070#128 0 7 (tileMask 0 7) stIssue := by
  constructor <;> decide +kernel

theorem witness_TileControl_rbinc : TileReady 0 0 0x00000000_00000020_00000001_00000080#128 0 8 (tileMask 0 8) stIssue := by
  constructor <;> decide +kernel

/-- A JMP always, to itself. -/
theorem witness_TileControl_jmp :
    TileReady 0 0 0x30#128 0 3 (tileMask 0 3) stIssue ∧ inStream (tileIss 0 0 0x30#128 stIssue) (jumpTo (tileIss 0 0 0x30#128 stIssue)) = true ∧
      bitOf (0x30#128).toNat 66 = false := by
  refine ⟨?_, by decide +kernel, by decide +kernel⟩
  constructor <;> decide +kernel

/-- A JMP while counter 0 is not 0: at 1 it falls through, at 0 the counter wraps and it jumps. -/
theorem witness_TileControl_jmpCounted (n : Nat) (h : n = 0 ∨ n = 1) :
    let s := stTile { seqA with loop := [(0, n)] } id
    let w := 0x4_00000000_00000030#128
    TileReady 0 0 w 0 3 (tileMask 0 3) s ∧ inStream (tileIss 0 0 w s) (jumpTo (tileIss 0 0 w s)) = true ∧ bitOf w.toNat 66 = true := by
  rcases h with rfl | rfl <;> (refine ⟨?_, by decide +kernel, by decide +kernel⟩; constructor <;> decide +kernel)

theorem witness_TileChunkEnds_cbnd :
    let w := 0x10#128
    let i := tileIss 0 0 w stIssue
    let s2 := updSeq 0 0 (fun q => { q with pc := i.pc + 1, dyn := q.dyn + 1, state := 3, ahead := [], laStop := none, resumed := false })
      (retire 0 0 i.job i.cid w.toNat true (semTaken 0 0 w stIssue))
    (chunkDone i = true ∧ bitOf w.toNat 15 = false) ∧ TileReady 0 0 w 0 1 (tileMask 0 1) stIssue ∧
      (headOf (boundary i.q.queue i.cid (releaseChunk (unitOf 0 0) s2)) i.q.queue).map (·.cid) = some i.cid := by
  refine ⟨by decide +kernel, ?_, by decide +kernel⟩
  constructor <;> decide +kernel

theorem witness_TileChunkEnds_end :
    let w := 0x20#128
    let i := tileIss 0 0 w stIssue
    let s2 := updTile 0 (fun x => x.release (regSeq 0) 0) (releaseChunk (unitOf 0 0) (retire 0 0 i.job i.cid w.toNat true (semTaken 0 0 w stIssue)))
    (chunkDone i = true ∧ bitOf w.toNat 15 = false) ∧ TileReady 0 0 w 0 2 (tileMask 0 2) stIssue ∧
      (headOf s2 i.q.queue).map (fun c => (c.cid, c.cancReq, c.faultReq, c.overReq)) = some (i.cid, false, none, false) := by
  refine ⟨by decide +kernel, ?_, by decide +kernel⟩
  constructor <;> decide +kernel

/-- WLOAD of one BF16 weight from address 0. -/
theorem witness_TileArray_wload :
    let w := 0x20100_00000000_00000001#128
    let i := tileIss 0 0 w stIssue
    TileReady 0 0 w 1 0 (tileMask 1 0) stIssue ∧ wloadCheck i = 0 ∧ shadowGrant 0 0 (semTaken 0 0 w stIssue) = true ∧
      (readBlock i.x (streamOf i.x 0) i.job w (i.q.taddr (bits w.toNat 63 32))).isSome = true := by
  refine ⟨?_, by decide +kernel, by decide +kernel, by decide +kernel⟩
  constructor <;> decide +kernel

/-- The block of that WLOAD. -/
def blockA : WBlock :=
  { owner := .seq 0, job := 0, k := 1, n := 1, wfmt := 1, split := 0, zc := false, nz := 0, rows := [[0]], word := 0x20100_00000000_00000001#128 }

/-- MMA of one BF16 activation row, INIT and LAST. -/
theorem witness_TileArray_mma :
    let w := 0x3100_00000000_00000011#128
    let s := stTile { seqA with owned := some (blockA.word, 0) } fun x => { x with active := some blockA }
    let i := tileIss 0 0 w s
    TileReady 0 0 w 1 1 (tileMask 1 1) s ∧ mmaCheck i = 0 ∧ activeOf i.x (streamOf i.x 0) = some blockA ∧
      (∀ r < 1, i.x.poisoned (0 + r * 2) 2 = false ∧ (bitOf w.toNat 76 = true ∨ i.x.poisoned (afBase + 4096 * r) (16 * 1) = false)) := by
  refine ⟨?_, by decide +kernel, by decide +kernel, by decide +kernel⟩
  constructor <;> decide +kernel

/-- MCLOSE of one FP32 element: with no pass before it, and behind a pass of its own stream. -/
theorem witness_TileArray_mclose :
    let w := 0x10000_00000000_00000021#128
    let i := tileIss 0 0 w stIssue
    let c : Close := { owner := streamOf i.x 0, after := closeAfter i.x (streamOf i.x 0) (bits w.toNat 79 72) (bits w.toNat 71 64 + 1), cid := i.cid, job := i.job,
                       dst := i.q.taddr (bits w.toNat 63 32), word := w, hit := [] }
    TileReady 0 0 w 1 2 (tileMask 1 2) stIssue ∧ mcloseCheck i = 0 ∧ c.after = 0 ∧
      ((runClose 0 c (semTaken 0 0 w stIssue)).tile 0 |>.seq (regSeq 0)).state ≠ 6 := by
  refine ⟨?_, by decide +kernel, by decide +kernel, by decide +kernel⟩
  constructor <;> decide +kernel

/-- The pass of that MMA. -/
def passA : Pass := { blk := blockA, afmt := 1, acts := [[0]], rowBase := 0, init := true, last := true, cid := 1, word := 0x11#128, hit := [] }

theorem witness_TileArray_mcloseWaits :
    let w := 0x10000_00000000_00000021#128
    let s := stTile seqA fun x => { x with passes := [passA] }
    let i := tileIss 0 0 w s
    TileReady 0 0 w 1 2 (tileMask 1 2) s ∧ mcloseCheck i = 0 ∧ closeAfter i.x (streamOf i.x 0) (bits w.toNat 79 72) (bits w.toNat 71 64 + 1) ≠ 0 := by
  refine ⟨?_, by decide +kernel, by decide +kernel⟩
  constructor <;> decide +kernel

theorem witness_TileArray_swap :
    let s := stTile seqA fun x => { x with shadow := some blockA }
    let arr := blockDraw s blockA (chunkA 200).draws
    (s.tile 0).shadow = some blockA ∧ (s.unit (unitOf 0 blockA.owner.num)).run = some (chunkA 200) ∧ s.clocked = true ∧
      planeFree (s.tile 0) (s.tile 0).active blockA.owner = true ∧
      (chunkA 200).held + heldBy (.block 0) s ≥ (chunkA 200).draws - arrShare s (chunkA 200).draws + arr := by decide +kernel

/-- A chain of one vector of one lane: V0 is copied and stored to 0x1000. -/
def chainA : Bytes := toLe 4 0x10000 ++ zeros 60 ++ toLe 16 0x30_00001000 ++ zeros 176

/-- The tile with that chain at address 0, an update program of it at 0x400 and its binding table (extent 1) at 0x800. -/
def stVec (f : Tile → Tile) : State :=
  stTile seqA fun x => f { x with
    sram := Mem.sets (Mem.sets (Mem.sets [] 0 0 chainA) 0 0x400 (toLe 4 4 ++ zeros 60 ++ chainA)) 0 0x800 (toLe 4 1 ++ zeros 60) }

theorem witness_TileVectors_chain :
    let w := 2#128
    let s := stVec id
    let i := tileIss 0 0 w s
    let a := i.q.taddr (bits w.toNat 63 32)
    TileReady 0 0 w 2 0 (tileMask 2 0) s ∧ bits w.toNat 63 59 = 0 ∧ vecAccepts 0 0 (semTaken 0 0 w s) = true ∧ a % 32 = 0 ∧ osSpanOk i.x i.part a 256 = true ∧
      i.x.poisoned a 256 = false ∧ (chainOf (i.x.read a 256) [] 0 false (i.q.ar (bits w.toNat 66 64)) i.q).check i.x i.part false 0 = none := by
  refine ⟨?_, by decide +kernel, by decide +kernel, by decide +kernel, by decide +kernel, by decide +kernel, by decide +kernel⟩
  constructor <;> decide +kernel

theorem witness_TileVectors_uprog :
    let w := 0x800_00000400_00000012#128
    let s := stVec id
    let i := tileIss 0 0 w s
    let a := i.q.taddr (bits w.toNat 63 32)
    let ba := i.q.taddr (bits w.toNat 95 64)
    let hdr := i.x.read a 64
    let h := leAt hdr 0 4
    let n := bits h 1 0 + 1
    let b := i.x.read ba 64
    let roles := bindRoles i.q b
    let ds := (List.range n).map (fun k => i.x.read (a + 64 + 256 * k) 256)
    TileReady 0 0 w 2 1 (tileMask 2 1) s ∧
      (bits w.toNat 63 59 = 0 ∧ bits w.toNat 95 91 = 0 ∧ vecAccepts 0 0 (semTaken 0 0 w s) = true ∧ a % 32 = 0 ∧ ba % 32 = 0 ∧ osSpanOk i.x i.part a 64 = true ∧
        osSpanOk i.x i.part ba 64 = true ∧ osSpanOk i.x i.part a (64 + 256 * n) = true ∧ i.x.poisoned a (64 + 256 * n) = false ∧
        i.x.poisoned ba 64 = false) ∧ (progBad hdr b roles ds = false ∧ bits h 31 15 = 0 ∧ leAt hdr 8 56 = 0 ∧ bindRsvd b = false) ∧
      (∀ k < n, ((progChains h ds roles (leAt b 0 4) i.q).getD k (chainOf [] [] 0 false 0 i.q)).check i.x i.part true (bits h 13 6) = none) := by
  refine ⟨?_, by decide +kernel, by decide +kernel, by decide +kernel⟩
  constructor <;> decide +kernel

theorem witness_TileTransfers_dma :
    let w := 3#128
    let i := tileIss 0 0 w stIssue
    TileReady 0 0 w 3 0 (tileMask 3 0) stIssue ∧ dmaCheck i.x i.part i.q w.toNat = 0 ∧ i.q.ahead.contains i.dyn = false ∧
      i.q.token (bits w.toNat 35 32) = .empty ∧ ((dmaStart 0 0 w i.q (semTaken 0 0 w stIssue)).tile 0 |>.seq (regSeq 0)).state ≠ 6 := by
  refine ⟨?_, by decide +kernel, by decide +kernel, by decide +kernel, by decide +kernel⟩
  constructor <;> decide +kernel

theorem witness_TileTransfers_dmaAhead :
    let w := 3#128
    let s := stTile { seqA with ahead := [0] } id
    let i := tileIss 0 0 w s
    TileReady 0 0 w 3 0 (tileMask 3 0) s ∧ dmaCheck i.x i.part i.q w.toNat = 0 ∧ (0 : Fin 4).val ≠ 3 ∧ i.q.ahead.contains i.dyn = true := by
  refine ⟨?_, by decide +kernel, by decide +kernel, by decide +kernel⟩
  constructor <;> decide +kernel

/-- The stream's first word is a DMA with PF. -/
theorem witness_TileTransfers_lookahead :
    let w := 0x20_00000003#128
    let s := { stIssue with stk := { stIssue.stk with bytes := Mem.sets [] 0 (4096 * pageBytes) (toLe 16 w.toNat) } }
    let x := s.tile 0
    let q := x.seq 0
    s.clocked = true ∧ (s.tile? 0).isSome = true ∧ (s.unit 0).run.isSome = true ∧ (s.unit 0).halted = false ∧ q.laHeld = false ∧
      (match lookahead s q 64 q q.pc q.dyn with
        | .dma v d q1 => (v, d, dmaCheck x (partOf s q.job 0) q1 w.toNat)
        | .stop _ => (0, 0, 1)) = (w.toNat, 0, 0) := by
  decide +kernel

/-- A transfer of 32 bytes from the range, all still to move. -/
def dmaA : Dma :=
  { owner := .seq 0, job := 0, cid := 1, tok := 0, out := false, space := 0, rank := 0, remote := 0, loc := 0, len := 32, moved := 0, bulk := none,
    stopped := [], word := 3#128, hit := [] }

theorem witness_TileTransfers_complete :
    let s := withDraws (stTile seqA fun x => { x with dmas := [dmaA] })
    let ks := foreign 0 dmaA.owner dmaA.afSpans (unused s) ++ dmaA.hit
    (s.tile 0).dmas[0]? = some dmaA ∧ s.clocked = true ∧ dmaRuns 0 dmaA s = true ∧ bulkDone s dmaA = true ∧
      (match dmaMove 0 dmaA dmaA.moved dmaA.len (clashWith 0 dmaA.owner dmaA.afSpans (undefine 0 ks (unused s))) with
        | .done s1 => (ready (retire 0 dmaA.owner.num dmaA.job dmaA.cid dmaA.word.toNat false
            (updSeq 0 (regSeq dmaA.owner.num) (fun q => { q with tok := Tbl.put q.tok dmaA.tok .full })
              (bankEvents 0 (undefine 0 ks (updTile 0 (fun x => { x with dmas := x.dmas.eraseIdx 0 }) s1))))))
        | _ => false) = true := by decide +kernel

theorem witness_TileVectors_retire :
    let r : ChainRun := { owner := .seq 0, job := 0, cid := 1, descs := [(chainA, [], 0, false)], idx := 0, vdone := 0, abase := 0, areg := [], extra := 0,
                          stopped := false, word := 2#128, hit := [] }
    let s := stVec fun x => { x with chain := some r }
    (s.tile 0).chain = some r ∧ s.clocked = true ∧ r.stopped = false ∧ (s.unit (unitOf 0 r.owner.num)).run.isSome = true ∧ r.extra = 0 ∧
      r.cur.map (handoffWaits (s.tile 0) r) = some false ∧ chainOver (chainAdvance 0 65536 s) 0 = true := by
  decide +kernel

/-! ### The deferred queue -/

/-- Sequencer 1 (Backward) of tile 0 runs command 1; `b` waits in the deferred queue. -/
def stBack (b : List DefBlock) : State := { stPage with
  tiles := [(0, { Tile.init with seqs := [(1, seqA)], defq := b })],
  units := [(1, { ExecUnit.init with run := some (chunkA 200) })] }

/-- A deferred block of one instruction. -/
def defA : DefBlock := { offset := 4, count := 1, layer := 0, job := 0, cid := 1 }

theorem witness_DeferredQueue_room :
    let w := 0x1_00000004_00000014#128
    let i := tileIss 0 1 w (stBack [])
    TileReady 0 1 w 4 1 (tileMask 4 1) (stBack []) ∧ bits w.toNat 79 64 ≠ 0 ∧
      i.q.base + 16 * (bits w.toNat 63 32 + bits w.toNat 79 64) ≤ rangeBytes ∧ ((stBack []).tile 0).defq.length < 64 := by
  refine ⟨?_, by decide +kernel, by decide +kernel, by decide +kernel⟩
  constructor <;> decide +kernel

theorem witness_DeferredQueue_full :
    let w := 0x1_00000004_00000014#128
    let s := stBack (List.replicate 64 defA)
    let i := tileIss 0 1 w s
    TileReady 0 1 w 4 1 (tileMask 4 1) s ∧ bits w.toNat 79 64 ≠ 0 ∧
      i.q.base + 16 * (bits w.toNat 63 32 + bits w.toNat 79 64) ≤ rangeBytes ∧ (s.tile 0).defq.length ≥ 64 := by
  refine ⟨?_, by decide +kernel, by decide +kernel, by decide +kernel⟩
  constructor <;> decide +kernel

theorem witness_DeferredQueue_start :
    let u := stBack [defA]
    (u.tile 0).defq = defA :: [] ∧ u.clocked = true ∧ (u.tile 0).defRun = none ∧ shadowGrant 0 3 u = true ∧
      ((u.tile 0).seq 1).cid = defA.cid ∧ (u.unit (unitOf 0 1)).run.isSome = true := by decide +kernel

theorem witness_DeferredQueue_lmark : (0 : Fin 4).val ≠ 3 ∧ TileReady 0 0 0x1234_00000004#128 4 0 (tileMask 4 0) stIssue := by
  refine ⟨by decide, ?_⟩
  constructor <;> decide +kernel

/-! ### Words that stop the stream, and waits -/

theorem witness_TileInvalidWords :
    let open_ := firstUnmapped stIssue (tileIss 0 0 5#128 stIssue).job ((tileIss 0 0 5#128 stIssue).q.base + 16 * (tileIss 0 0 5#128 stIssue).pc) 16
    mayIssue 0 0 stIssue = true ∧ (stIssue.tile 0).reloads (streamOf (stIssue.tile 0) 0) = false ∧ open_ = none ∧ tileAt (.nop 0 0 5#128) = some (0, 0, 5#128) ∧ bits (5#128).toNat 3 0 > 4 := by decide +kernel

theorem witness_TileInvalidWords_op :
    tileAt (.dma 0 0 0x13#128) = some (0, 0, 0x13#128) ∧ bits (0x13#128).toNat 3 0 ≤ 4 ∧
      opDefined (bits (0x13#128).toNat 3 0) (bits (0x13#128).toNat 9 4) = false := by decide +kernel

theorem witness_TileInvalidWords_reserved :
    let w := 0x100_00000000#128
    (Instr.nop 0 0 w).tileRow = some (0, 0, w) ∧ bits w.toNat 3 0 = 0 ∧ bits w.toNat 9 4 = 0 ∧ w.toNat &&& tileMask 0 0 ≠ w.toNat := by
  decide +kernel

theorem witness_TileWaits_token :
    let w := 0x100000#128
    (Instr.nop 0 0 w).tileRow = some (0, 0, w) ∧ mayIssue 0 0 stIssue = true ∧ bits w.toNat 3 0 = 0 ∧ bits w.toNat 9 4 = 0 ∧
      w.toNat &&& tileMask 0 0 = w.toNat ∧ bitOf w.toNat 20 = true ∧ (tileIss 0 0 w stIssue).q.token (bits w.toNat 25 22) ≠ .full := by
  decide +kernel

theorem witness_TileWaits_semaphore :
    let w := 0x440#128
    (Instr.setc 0 0 w).tileRow = some (0, 4, w) ∧ mayIssue 0 0 stIssue = true ∧ bits w.toNat 3 0 = 0 ∧ bits w.toNat 9 4 = 4 ∧
      w.toNat &&& tileMask 0 4 = w.toNat ∧ bitOf w.toNat 10 = true ∧
      (stIssue.tile 0).sem (semKey (tileIss 0 0 w stIssue).job (bits w.toNat 14 11)) = 0 := by decide +kernel

/-! ## Memory requests and the controllers' own events -/

theorem witness_EqualMemoriesAreEqualData : Mem.wf [(3, 1)] 0 = true ∧ Mem.wf [(3, 1)] 0xFF = true := by decide

/-- The draws of the channel group of `c` held, its adder's too. -/
def stDraws (c : Nat) : State := { stBase with ledger := { stBase.ledger with holds := [(groupOwner c, 5), (adderOwner c, 2)], held := 7 } }

/-- Nothing left in the ramp's bucket: a group that asks for its draws waits for them. -/
def stDry : State := { stBase with ledger := { stBase.ledger with bucket := 0 } }

theorem witness_MemoryRequestsComplete (r : MemReq)
    (h : r ∈ [.read 0xFFFFFFE0 1 [.clean], .write 0xFFFFFF00 (zeros 256) (List.replicate 256 true) false [], .add 0x20 (zeros 32) 0 0xFF .clean]) :
    let s := stDraws (chanOf stBase r.pa)
    stacksUp s = true ∧ r.extentOk = true ∧ ready (memEffect (0, r) (memDraws (chanOf (unused s) r.pa) r.isAdd (unused s))) = true ∧
      stacksUp stDry = true ∧ ready (memEffect (0, r) (memDraws (chanOf (unused stDry) r.pa) r.isAdd (unused stDry))) = false := by
  simp only [List.mem_cons, List.not_mem_nil, or_false] at h
  rcases h with rfl | rfl | rfl <;> decide +kernel

theorem witness_MemoryRequestOfABadExtent :
    stacksUp stBase = true ∧ (MemReq.read 0xE0 2 []).extentOk = false ∧ (MemReq.read 0xE0 1 []).extentOk = true := by decide +kernel

/-- An instant in the maintenance slice of `stBase`, before the protected reserve. -/
def stSlice : State := { stBase with now := 62400000 }

/-- Channel 3 with a corrected sector, a tag to refresh and a touch. -/
def stChan : State := { stPage with
  stk := { stPage.stk with chans := [(3, { Chan.init with wbq := [96], tagq := [96] })], touches := [(3, 32 * 4096)] },
  clk := { stPage.clk with fnum := 1024 } }

theorem witness_MemoryMaintenanceCompletes_upkeep :
    stacksUp stChan = true ∧ chanBusy stChan 3 = false ∧ (stChan.chan 3).wbq = 96 :: [] ∧ (stChan.chan 3).tagq = 96 :: [] ∧ (stChan.chan 3).failed = false ∧ stChan.live = true := by decide +kernel

/-- Late in a frame whose slice gave channel 0 its step. -/
def stStep : State := { stLate { stBase.clk with sliceDone := true } with
  stk := { stBase.stk with stks := [(0, { Stack.init with step := some 0 })] } }

theorem witness_MemoryMaintenanceCompletes_retrain :
    let u := runUntil (stStep.atPos (stepStart stStep 0 + 2400)) stStep
    stStep.framed = true ∧ retrainDue 0 stStep = true ∧ u.framed = true ∧ retrainDue 0 u = true := by decide +kernel

theorem witness_MemoryMaintenanceCompletes_dawn :
    let s := { stBase with dawn := { stBase.dawn with outcome := 0 }, clk := FrameClk.init }
    stacksUp s = true ∧ s.dawn.outcome = 0 ∧ s.clk.lock = .acquiring := by decide +kernel

theorem witness_MemoryMaintenanceCompletes_draws :
    let s := { stDraws 64 with now := 64020000 }
    let u := runUntil (groupUse 2 false s + 64000) s
    let v := runUntil (groupUse 2 true s + 64000) s
    groupIdle 2 false s = true ∧ groupIdle 2 true s = true ∧ groupIdle 2 false u = true ∧ groupIdle 2 true v = true ∧
      groupUse 2 false u + 64000 ≤ u.now ∧ groupUse 2 true v + 64000 ≤ v.now ∧ asking (.memGroup 2) u = false ∧ asking (.memAdder 2) v = false := by
  decide +kernel

theorem witness_MemoryMaintenanceCompletes_touch :
    stChan.clocked = true ∧ stChan.stk.touches.contains (3, 32 * 4096) = true ∧ pageOfSub stChan (32 * 4096) = some 0 := by decide +kernel

theorem witness_MemoryMaintenanceCompletes_stamp :
    stChan.clocked = true ∧ stChan.clk.stepsDone = true ∧ stChan.clk.fnum % stChan.urng.period = 0 ∧ stChan.urng.stampAt ≠ some stChan.clk.fnum := by
  decide +kernel

/-! ## The unified range -/

/-- A command of operation `op` with operands `o` heads queue 0 of `s`, and its job lets it run. -/
theorem accepted_of {op : Nat} {o : Bytes} {s : State} (h : runnable 0 op (withCmd (cmdOf op o) s) = some (cmdOf op o))
    (hj : jobRefusal (started 0 (withCmd (cmdOf op o) s)) (cmdOf op o) = none) : Accepted 0 op (withCmd (cmdOf op o) s) (cmdOf op o) := ⟨h, hj⟩

/-- The start of job 0's page 1, and one page. -/
def mapOpnd (flags : Nat) : Bytes := toLe 8 pageBytes ++ toLe 4 1 ++ toLe 4 flags

theorem witness_RangeCommandsComplete_unmap :
    let c := cmdOf Op.UNMAP (mapOpnd 0)
    Accepted 0 Op.UNMAP (withCmd c stPage) c ∧ spanOk (c.opnd 0 8) (c.opnd 8 4) = true :=
  ⟨accepted_of (by decide +kernel) (by decide +kernel), by decide +kernel⟩

/-- Two granted host frames from frame 8 on. -/
def stHost : State := { stPage with urng := { stPage.urng with regions := [(8, 2)] } }

/-- A page of the shared host tier. -/
theorem witness_RangeCommandsComplete_map :
    let c := cmdOf Op.MAP (mapOpnd 1)
    let s := withCmd c (withDraws stHost)
    let s1 := started 0 s
    Accepted 0 Op.MAP s c ∧ s1.job? c.job = some jobA ∧ spanOk (c.opnd 0 8) (c.opnd 8 4) = true ∧
      ¬ (bitOf (c.opnd 12 1) 0 = true ∧ bitOf (c.opnd 12 1) 1 = true) ∧
      (∀ p ∈ s1.urng.pages, ¬ (pageKey c.job (c.opnd 0 8 / pageBytes) ≤ p.1 ∧ p.1 < pageKey c.job (c.opnd 0 8 / pageBytes + c.opnd 8 4))) ∧
      bitOf (c.opnd 12 1) 1 = false ∧
      (match mapAll c.job jobA (bitOf (c.opnd 12 1) 0) (bitOf (c.opnd 12 1) 1) (c.opnd 0 8 / pageBytes) (c.opnd 8 4) (started 0 (unused s)) with
        | .ok s2 => ready (endHead 0 St.OK 0 0 s2)
        | .error _ => false) = true :=
  ⟨accepted_of (by decide +kernel) (by decide +kernel), by decide +kernel⟩

theorem witness_RangeCommandsComplete_htierAdd :
    let c := cmdOf Op.HTIER_ADD (toLe 8 (pageBytes * 10) ++ toLe 8 (pageBytes * 1))
    let s := withCmd c stHost
    runnable 0 Op.HTIER_ADD s = some c ∧ c.opnd 0 8 = pageBytes * 10 ∧ c.opnd 8 8 = pageBytes * 1 ∧
      (∀ r ∈ (started 0 s).urng.regions, overlaps 10 1 r.1 r.2 = false) ∧ (started 0 s).hostTotal + 1 ≤ 4194304 := by decide +kernel

theorem witness_RangeCommandsComplete_htierRemove :
    let c := cmdOf Op.HTIER_REMOVE (toLe 8 (pageBytes * 9) ++ toLe 8 (pageBytes * 1))
    let s := withCmd c stHost
    runnable 0 Op.HTIER_REMOVE s = some c ∧ c.opnd 0 8 = pageBytes * 9 ∧ c.opnd 8 8 = pageBytes * 1 ∧ usedIn (started 0 s) 9 1 = [] ∧
      (started 0 s).urng.down = none := by
  decide +kernel

/-- Page 1 of job 0 in host frame 8, shared or device-owned. -/
def stShared (b : Backing) : State := { stHost with
  urng := { stHost.urng with pages := [(0, Page.new (.stack 4096) false), (1, Page.new b false)], hframes := [(8, 1)] } }

theorem witness_RangeCommandsComplete_handback :
    let c := cmdOf Op.HANDBACK (mapOpnd 0)
    let s := withCmd c (withDraws (stShared (.owned 8)))
    let s1 := started 0 s
    Accepted 0 Op.HANDBACK s c ∧ spanOk (c.opnd 0 8) 1 = true ∧ c.opnd 8 4 = 1 ∧ c.opnd 0 8 / pageBytes = 1 ∧
      s1.page? c.job 1 = some (Page.new (.owned 8) false) ∧
      ((handbackAll c.job 1 1 (started 0 (unused s))).map fun s2 => ready (endHead 0 St.OK 0 0 s2)) = some true :=
  ⟨accepted_of (by decide +kernel) (by decide +kernel), by decide +kernel⟩

/-- What stays as it is while host lines are made the device's. -/
def same (s t : State) : Prop := t.stk = s.stk ∧ t.ledger = s.ledger ∧ t.held = s.held

theorem same_trans {s t u : State} (h : same s t) (k : same t u) : same s u := ⟨k.1.trans h.1, k.2.1.trans h.2.1, k.2.2.trans h.2.2⟩

theorem ownLine_same (l : Nat) (s : State) : same s (ownLine l s) := by
  unfold ownLine
  repeat' split
  all_goals exact ⟨rfl, rfl, rfl⟩

theorem writeOwned_same (a : Nat) (b : Bytes) (s : State) : same s (writeOwned a b s) := by
  unfold writeOwned same
  by_cases h : b.length < 64 <;> simp only [h, if_true, if_false] <;> exact ⟨rfl, rfl, rfl⟩

theorem adoptLine_same (l : Nat) (s : State) : same s (adoptLine l s) :=
  same_trans (t := { ownLine l s with urng := { (ownLine l s).urng with lines := Tbl.del s.urng.lines l } }) (ownLine_same l s) (writeOwned_same _ _ _)

theorem adoptLines_same (f : Nat) (s : State) : same s (adoptLines f s) := by
  unfold adoptLines
  generalize List.range 32768 = l
  induction l generalizing s with
  | nil => exact ⟨rfl, rfl, rfl⟩
  | cons i l ih => exact same_trans (adoptLine_same _ _) (ih _)

/-- Work that stands on the line engine alone, with nothing held before it, is ready when its draws are held. -/
theorem ready_of_line {t : State} (h : t.stk.use.all (fun p => decide (p.1 = 8192)) = true) (hl : holds .lineEngine t = true) (hh : t.held = []) :
    ready t = true := by
  have key : useReady t 8192 = true := by
    unfold useReady heldOn useDraw
    simp [hh, hl]
  unfold ready unready
  rw [List.isEmpty_iff, List.filter_eq_nil_iff]
  intro k hk
  obtain ⟨p, hp, rfl⟩ := List.mem_map.mp hk
  have : p.1 = 8192 := by simpa using List.all_eq_true.mp h p hp
  rw [this, key]
  decide

theorem putEnd_same (q a b c j v : Nat) (p : Page) (s : State) : same s (endHead q a b c (putPage j v p s)) := ⟨rfl, rfl, rfl⟩

theorem witness_RangeCommandsComplete_adopt :
    let c := cmdOf Op.ADOPT (mapOpnd 0)
    let s := withCmd c (withDraws (stShared (.shared 8)))
    Accepted 0 Op.ADOPT s c ∧ spanOk (c.opnd 0 8) 1 = true ∧ c.opnd 8 4 = 1 ∧ c.opnd 0 8 / pageBytes = 1 ∧
      (started 0 s).page? c.job 1 = some (Page.new (.shared 8) false) ∧
      usesReady (endHead 0 St.OK 0 0 ((List.range 1).foldl (fun s i => adoptPage c.job (1 + i) s) (started 0 (unused s)))) := by
  refine ⟨accepted_of (by decide +kernel) (by decide +kernel), by decide +kernel, by decide +kernel, by decide +kernel, by decide +kernel, ?_⟩
  have hp : ∀ u, (u : State).page? 0 1 = some (Page.new (.shared 8) false) → adoptPage 0 1 u =
      putPage 0 1 { Page.new (.shared 8) false with back := .owned 8 } (adoptLines 8 (touchFrame 8 (lineDraw u))) := by
    intro u hu
    unfold adoptPage
    rw [hu]
    rfl
  rw [ready_iff]
  show ready (endHead 0 St.OK 0 0 (adoptPage 0 1 (started 0 (unused (withCmd (cmdOf Op.ADOPT (mapOpnd 0)) (withDraws (stShared (.shared 8)))))))) = true
  rw [hp _ (by decide +kernel)]
  generalize hu : started 0 (unused (withCmd (cmdOf Op.ADOPT (mapOpnd 0)) (withDraws (stShared (.shared 8))))) = u
  have e := adoptLines_same 8 (touchFrame 8 (lineDraw u))
  generalize hw : adoptLines 8 (touchFrame 8 (lineDraw u)) = w at e ⊢
  have a := same_trans e (putEnd_same 0 St.OK 0 0 0 1 { Page.new (.shared 8) false with back := .owned 8 } w)
  refine ready_of_line ?_ ?_ ?_
  · rw [a.1, ← hu]; decide +kernel
  · unfold holds; rw [a.2.1, ← hu]; decide +kernel
  · rw [a.2.2, ← hu]; decide +kernel

/-! ## Migration and host lines -/

/-- The draws of both migration directions and of the line engine held, page 0 chosen as victim. -/
def stMig : State := { stHost with
  ledger := { stHost.ledger with holds := [(.migration true, 6), (.migration false, 6), (.lineEngine, 8)], held := 20 },
  urng := { stHost.urng with victim := some 0 } }

theorem witness_MigrationAndLineEventsComplete_start :
    let s1 := reserve (.migration false) 1 (migDraw stMig) stMig
    stMig.clocked = true ∧ stMig.urng.down = none ∧ stMig.power.dusk = none ∧ stMig.page? 0 0 = some (Page.new (.stack 4096) false) ∧
      migDest stMig false 0 0 (Page.new (.stack 4096) false) = some (.owned 8) ∧ holds (.migration false) s1 = true := by decide +kernel

/-- The migration of page 0 to host frame 8, and the same with everything copied. -/
def migA : Mig := { job := 0, vpn := 0, src := .stack 4096, dest := .owned 8, copied := 0, copying := true, done := false }

/-- One sector of it, from the stack to the host, is ready when every draw is held. -/
theorem test_migration_sector_ready :
    ready (copySectors migA.src migA.dest 0 1 (unused (setMig false (some migA) (withDraws stMig)))) = true := by decide +kernel

/-- Work so far has stood on the line engine alone, which holds its draws, and nothing is held before it. -/
def lineOnly (t : State) : Prop := t.stk.use.all (fun p => decide (p.1 = 8192)) = true ∧ holds .lineEngine t = true ∧ t.held = []

theorem put_all {t : Tbl Nat} (k v : Nat) (hk : k = 8192) (h : t.all (fun p => decide (p.1 = 8192)) = true) :
    (Tbl.put t k v).all (fun p => decide (p.1 = 8192)) = true := by
  induction t with
  | nil => simp [Tbl.put, hk]
  | cons q r ih =>
    obtain ⟨i, w⟩ := q
    simp only [List.all_cons, Bool.and_eq_true] at h
    unfold Tbl.put
    split
    · simp [hk, h.1, h.2]
    · have e := ih h.2
      have h1 := of_decide_eq_true h.1
      subst hk
      split
      all_goals first
        | exact Bool.and_eq_true_iff.mpr ⟨decide_eq_true h1, e⟩
        | exact Bool.and_eq_true_iff.mpr ⟨by simp, h.2⟩
        | simp_all

theorem lineDraw_lineOnly {s : State} (h : lineOnly s) : lineOnly (lineDraw s) := by
  have hh : holds .lineEngine (markUse 8192 s) = true := h.2.1
  have hu : useDraw s 8192 = some (.lineEngine, if s.evening then 5 else 8) := rfl
  have e : lineDraw s = markUse 8192 s := by
    unfold lineDraw needDraw reserve
    rw [hu]
    simp only [hh, Bool.true_or, if_true]
  rw [e]
  exact ⟨put_all _ _ rfl h.1, h.2.1, h.2.2⟩

theorem count_lineOnly {r w n : Nat} {s : State} (h : lineOnly s) : lineOnly (count r w n s) := by
  unfold count
  split <;> exact h

theorem sendTouch_lineOnly {a b : Nat} {s : State} (h : lineOnly s) : lineOnly (sendTouch a b s) := by
  unfold sendTouch
  split
  · exact h
  · dsimp only
    split
    · exact count_lineOnly h
    · exact h

theorem copySector_lineOnly {a b c : Nat} {s : State} (h : lineOnly s) : lineOnly (copySector (.owned a) (.owned b) (.owned c) s) := by
  have h1 : ∀ (x : Nat) (u : State), lineOnly u → lineOnly (hostTouch x (lineDraw u)) := fun x u hu => sendTouch_lineOnly (lineDraw_lineOnly hu)
  have h2 : ∀ (x : Nat) (d : Bytes) (u : State), lineOnly u → lineOnly (writeOwned x d u) := by
    intro x d u hu
    unfold writeOwned
    split <;> exact hu
  have h3 : ∀ (x : Nat) (p : Bool) (u : State), lineOnly u → lineOnly (linePoison x p u) := by
    intro x p u hu
    unfold linePoison
    repeat' split
    all_goals exact hu
  have hr : lineOnly (readPiece (.owned a) 32 s).2.2 := by
    unfold readPiece
    dsimp only
    split
    · exact count_lineOnly (h1 _ _ h)
    · exact h1 _ _ h
  unfold copySector
  dsimp only
  unfold writePiece
  dsimp only
  split
  · exact h1 _ _ hr
  · exact h3 _ _ _ (h2 _ _ _ (h1 _ _ hr))

theorem copySectors_lineOnly (a b lo n : Nat) {s : State} (h : lineOnly s) : lineOnly (copySectors (.owned a) (.owned b) lo n s) := by
  unfold copySectors
  generalize List.range n = l
  induction l generalizing s with
  | nil => exact h
  | cons i l ih => exact ih (copySector_lineOnly h)

theorem copied_ready (w : State) (h : lineOnly w) :
    let m := { migA with src := .owned 9 }
    let p := (w.page? 0 0).getD (Page.new (.owned 9) false)
    usesReady (beginCopy false (setMig false (some { m with copied := m.copied + 1, copying := false }) (putPage m.job m.vpn { p with moved := m.copied + 1 } w))) := by
  dsimp only
  generalize (w.page? 0 0).getD (Page.new (.owned 9) false) = p
  have k : lineOnly (beginCopy false (setMig false (some { migA with src := .owned 9, copied := migA.copied + 1, copying := false })
      (putPage migA.job migA.vpn { p with moved := migA.copied + 1 } w))) := by
    unfold beginCopy
    repeat' split
    all_goals exact h
  rw [ready_iff]
  exact ready_of_line k.1 k.2.1 k.2.2

/-- Between two host frames, the whole sub-block. -/
theorem witness_MigrationAndLineEventsComplete_copied :
    let m := { migA with src := .owned 9 }
    let s := setMig false (some m) (withDraws stMig)
    let s1 := copySectors m.src m.dest (2048 * m.copied) 2048 (unused s)
    let p := (s1.page? 0 0).getD (Page.new (.owned 9) false)
    s.clocked = true ∧ s.mig false = some m ∧ m.done = false ∧ m.copying = true ∧
      usesReady (beginCopy false (setMig false (some { m with copied := m.copied + 1, copying := false }) (putPage m.job m.vpn { p with moved := m.copied + 1 } s1))) := by
  refine ⟨by decide +kernel, by decide +kernel, by decide +kernel, by decide +kernel, ?_⟩
  exact copied_ready _ (copySectors_lineOnly 9 8 _ _ ⟨by decide +kernel, by decide +kernel, by decide +kernel⟩)

theorem witness_MigrationAndLineEventsComplete_freed :
    let m := { migA with copied := 32, done := true }
    (setMig false (some m) stMig).clocked = true ∧ (setMig false (some m) stMig).mig false = some m ∧ m.done = true ∧
      frameBusy m (setMig false (some m) stMig) = false := by decide +kernel

theorem witness_MigrationAndLineEventsComplete_hand :
    stMig.clocked = true ∧ nextVisit stMig = some (4096, 0) ∧ stMig.urng.hand ≤ 4096 ∧ stMig.urng.wants = false ∧ stMig.urng.evicting = false ∧ 1024 ≤ stMig.freeFrames ∧
      Tbl.look? stMig.urng.pages 0 = some (Page.new (.stack 4096) false) := by decide +kernel

/-- A CXL.cache link and one modified line, line 3. -/
def stLines : State := { stShared (.owned 8) with
  link := { width := 8, rate := 6, flit := true, noflit := false, cache := true },
  urng := { (stShared (.owned 8)).urng with lines := [(3, { modified := true, excl := true, data := zeros 64 })] } }

theorem witness_MigrationAndLineEventsComplete_line :
    let s := withDraws stLines
    let hpa := 8 * pageBytes + 64
    s.clocked = true ∧ s.link.cache = true ∧ locOf (unused s) 0 (pageBytes + 64) = some (.owned hpa) ∧
      ready (ownedFill (hpa / 64) (zeros 64) (sendCxl .rdCurr (hpa / 64) (setHostPoison (hpa / 64 * 2 + 1) false (setHostPoison (hpa / 64 * 2) false
        (hostTouch hpa (copyWait 0 (pageBytes + 64) 1 (lineDraw (unused s)))))))) = true ∧
      Tbl.look? stLines.urng.lines 3 = some { modified := true, excl := true, data := zeros 64 } := by decide +kernel

theorem witness_MigrationAndLineEventsComplete_draws :
    let s := { stMig with now := 64020000 }
    let u := runUntil ((Tbl.look s.stk.use 8192 0 : Nat) + 64000) s
    s.live = true ∧ holds .lineEngine s = true ∧ u.live = true ∧ holds .lineEngine u = true ∧ Tbl.look u.stk.use 8192 0 + 64000 ≤ u.now ∧
      asking .lineEngine u = false := by decide +kernel

/-! ## Embedding tables and replicas -/

/-- The fixed part of table 3: 8 rows of dimension 4, range placement, rank 0 owns all. -/
def fxA : Bytes := toLe 2 3 ++ toLe 5 7 ++ zeros 25
/-- A version slot: number `v`, FP32 working records, no optimizer. -/
def slotA (v : Nat) : Bytes := toLe 2 v ++ toLe 2 1 ++ zeros 60
/-- Table 3 with version 1 current. -/
def tableA : Table :=
  { fixed := fxA, cur := slotA 1, oth := zeros 64, othSt := 0, othFrame := 0, pub := [], destroy := none, last := none, updating := none, hdone := [],
    closes := [] }
/-- Job 0 holds table 3. -/
def stTable : State := { stPage with emb := { stPage.emb with tables := [(3, tableA)] } }

theorem witness_TableCommandsComplete_create :
    let c := cmdOf Op.TBL_CREATE (fxA ++ slotA 1)
    let s1 := started 0 (withCmd c stPage)
    Accepted 0 Op.TBL_CREATE (withCmd c stPage) c ∧ s1.table? c.job (fxTid (c.opndBytes 0 32)) = none ∧ s1.emb.tables.length < 65536 ∧
      fixedOk (c.opndBytes 0 32) (((s1.job? c.job).map (·.ndev)).getD 0) = true ∧ slotOk (c.opndBytes 32 64) = true :=
  ⟨accepted_of (by decide +kernel) (by decide +kernel), by decide +kernel⟩

theorem witness_TableCommandsComplete_stage :
    let c := cmdOf Op.TBL_STAGE (toLe 32 3 ++ slotA 2)
    let s1 := started 0 (withCmd c stTable)
    Accepted 0 Op.TBL_STAGE (withCmd c stTable) c ∧ c.opnd 0 2 < 4096 ∧ s1.table? c.job (c.opnd 0 2) = some tableA ∧ tableA.othSt < 2 ∧
      slotOk (c.opndBytes 32 64) = true ∧ newer (vsVnum (c.opndBytes 32 64)) (vsVnum tableA.cur) = true :=
  ⟨accepted_of (by decide +kernel) (by decide +kernel), by decide +kernel⟩

theorem witness_TableCommandsComplete_publish :
    let c := cmdOf Op.TBL_PUBLISH (toLe 2 3 ++ toLe 6 2 ++ toLe 6 9)
    let s1 := started 0 (withCmd c stTable)
    Accepted 0 Op.TBL_PUBLISH (withCmd c stTable) c ∧ c.opnd 0 2 < 4096 ∧ s1.job? c.job = some jobA ∧ s1.table? c.job (c.opnd 0 2) = some tableA :=
  ⟨accepted_of (by decide +kernel) (by decide +kernel), by decide +kernel⟩

theorem witness_TableCommandsComplete_destroy :
    let c := cmdOf Op.TBL_DESTROY (toLe 2 3)
    Accepted 0 Op.TBL_DESTROY (withCmd c stTable) c ∧ c.opnd 0 2 < 4096 ∧
      (started 0 (withCmd c stTable)).table? c.job (c.opnd 0 2) = some tableA ∧ tableA.destroy = none :=
  ⟨accepted_of (by decide +kernel) (by decide +kernel), by decide +kernel⟩

/-- Port 0 in service. -/
def linkUp (s : State) : State := { s with zor := { s.zor with ports := [(0, { Port.init with state := 2, link := some 0 })] } }

/-- A message of rank 1 to this device, of this frame. -/
def msgOf (hdr body : Bytes) : Msg :=
  { port := 0, dst := 5, src := 6, jobid := 7, enc := true, resent := false, oseq := 0, stream := 0, fseq := 0, nframe := 5, nctr := 0,
    hdr := header hdr, body := body, tagOk := true }

/-- The checks of `Takes` as one test, and the state with the identity recorded. -/
def takesOk (typ : Nat) (m : Msg) (ident : Option (List Nat)) (j r : Nat) (s : State) : Bool :=
  s.linked && (s.port m.port).up && decide (m.dst.toNat = s.addr) && decide (msgTyp m = typ) && decide (s.power.night = .none) &&
    decide ((s.jobs.find? fun p => decide (p.2.jobid = m.jobid.toNat)).map (·.1) = some j) && decide ((s.session j).state = .joined) &&
    m.enc && m.tagOk && decide ((s.session j).linkKey ≠ []) && (msgFrame s m).isSome && decide (rankOf s j m.src.toNat = some r) &&
    (match ident with | none => true | some id => (takeIdent j typ id (unused s)).isSome)
def taken (j typ : Nat) (ident : Option (List Nat)) (s : State) : State :=
  match ident with | none => unused s | some id => (takeIdent j typ id (unused s)).getD s

theorem taken_some {j typ : Nat} {id : List Nat} {s : State} (h : (takeIdent j typ id (unused s)).isSome = true) :
    takeIdent j typ id (unused s) = some (taken j typ (some id) s) := by
  obtain ⟨t, ht⟩ := Option.isSome_iff_exists.mp h
  simp [taken, ht]

theorem takes_of {typ : Nat} {m : Msg} {ident : Option (List Nat)} {j r : Nat} {s : State} (h : takesOk typ m ident j r s = true) :
    Takes typ m ident j r s (taken j typ ident s) := by
  simp only [takesOk, Bool.and_eq_true, decide_eq_true_eq] at h
  obtain ⟨⟨⟨⟨⟨⟨⟨⟨⟨⟨⟨⟨h1, h2⟩, h3⟩, h4⟩, h5⟩, h6⟩, h7⟩, h8⟩, h9⟩, h10⟩, h11⟩, h12⟩, h13⟩ := h
  refine ⟨h1, h2, h3, h4, h5, h6, .inl h7, .inr ⟨h8, h9, h10⟩, h11, h12, ?_⟩
  cases ident with
  | none => rfl
  | some id =>
    obtain ⟨t, ht⟩ := Option.isSome_iff_exists.mp h13
    simp [taken, ht]

/-- A job with room for replicas: 4 hot rows for each of its two ranks, copies of 16 bytes from address 0x1000 on. -/
def jobRep : Job := { jobA with replBytes := 16, replBase := 0x1000 }
/-- Table 3 and that job, with port 0 in service. -/
def stRep : State := withDraws (linkUp { stTable with jobs := [(0, jobRep)] })

theorem witness_ReplicaMessagesComplete_publish :
    let m := msgOf (pubHdr 3 2 9 1 4) []
    let s1 := taken 0 0x40 (some [leAt m.hdr 12 2, leAt m.hdr 14 2]) stRep
    Takes 0x40 m (some [leAt m.hdr 12 2, leAt m.hdr 14 2]) 0 1 stRep s1 ∧
      ready (sendRank 0 (leAt m.hdr 12 2) 2 (pubReplyHdr (leAt m.hdr 2 2 % 4096) (leAt m.hdr 4 2) (leAt m.hdr 14 2)
        (publishHere 0 (leAt m.hdr 2 2 % 4096) (leAt m.hdr 4 2) (leAt m.hdr 6 6) s1).1) [] {}
        (publishHere 0 (leAt m.hdr 2 2 % 4096) (leAt m.hdr 4 2) (leAt m.hdr 6 6) s1).2) = true :=
  ⟨takes_of (by decide +kernel), by decide +kernel⟩

theorem witness_ReplicaMessagesComplete_reply :
    let m := msgOf (pubReplyHdr 3 2 4 0) []
    let s1 := taken 0 0x41 (some [m.src.toNat, leAt m.hdr 6 2]) stRep
    Takes 0x41 m (some [m.src.toNat, leAt m.hdr 6 2]) 0 1 stRep s1 ∧
      ready (publishReply 0 (leAt m.hdr 2 2 % 4096) (leAt m.hdr 6 2) 1 (leAt m.hdr 8 1)
        (protoAck m.src.toNat (fun t => decide (leAt t.hdr 0 2 = 0x40) && decide (leAt t.hdr 14 2 = leAt m.hdr 6 2)) s1)) = true :=
  ⟨takes_of (by decide +kernel), by decide +kernel⟩

theorem witness_ReplicaMessagesComplete_row :
    let m := msgOf (replRowHdr 3 5 3 1 4 (crc64 (zeros 16)) 16) (zeros 16)
    let id := some [m.src.toNat, leAt m.hdr 9 2, leAt m.hdr 13 6]
    let s1 := taken 0 0x42 id stRep
    let df := leAt m.hdr 13 6
    let s2 := needDraw 8195 (updRound 0 1 df (fun x => { x with count := x.count + 1 }) s1)
    Takes 0x42 m id 0 1 stRep s1 ∧ s1.job? 0 = some jobRep ∧ leAt m.hdr 9 2 < hotQuota jobRep ∧ leAt m.hdr 27 2 ≤ jobRep.replBytes ∧
      leAt m.hdr 27 2 ≤ m.body.length ∧ Tbl.look? s2.emb.slots (hotKey 0 7) = none ∧
      crc64 (slice m.body 0 (leAt m.hdr 27 2)) = leAt m.hdr 19 8 ∧
      (match cacheWrite (7 % 2) 0 (leAt m.hdr 2 2 % 4096) (jobRep.replBase + (2 * 7 + 0) * jobRep.replBytes) (slice m.body 0 16) s2 with
        | .ok _ s3 => ready s3
        | _ => false) = true :=
  ⟨takes_of (by decide +kernel), by decide +kernel⟩

theorem witness_ReplicaMessagesComplete_end :
    let m := msgOf (replEndHdr 4 1) []
    let id := some [m.src.toNat, leAt m.hdr 2 6]
    Takes 0x43 m id 0 1 stRep (taken 0 0x43 id stRep) ∧
      ready (updRound 0 1 (leAt m.hdr 2 6) (fun x => { x with total := some (leAt m.hdr 8 4) }) (needDraw 8195 (taken 0 0x43 id stRep))) = true :=
  ⟨takes_of (by decide +kernel), by decide +kernel⟩

theorem witness_ReplicaMessagesComplete_drop :
    let m := msgOf (replNameHdr 0x44 3 5 3) []
    let id := some [m.src.toNat, leAt m.hdr 9 2]
    Takes 0x44 m id 0 1 stRep (taken 0 0x44 id stRep) ∧ (taken 0 0x44 id stRep).job? 0 = some jobRep ∧ ready (taken 0 0x44 id stRep) = true :=
  ⟨takes_of (by decide +kernel), by decide +kernel⟩

theorem witness_ReplicaMessagesComplete_repair :
    let m := msgOf (replNameHdr 0x45 3 5 3) []
    let id := some [m.src.toNat, leAt m.hdr 9 2]
    Takes 0x45 m id 0 1 stRep (taken 0 0x45 id stRep) ∧ ready (taken 0 0x45 id stRep) = true := ⟨takes_of (by decide +kernel), by decide +kernel⟩

theorem witness_ReplicaEngineEventsComplete_window :
    let s := { stLate stBase.clk with clk := { stBase.clk with fnum := 63 } }
    s.framed = true ∧ (s.clk.fnum + 1) % 64 = 0 ∧ s.emb.windowAt ≠ s.clk.fnum + 1 ∧ (runUntil s.expected s).framed = true ∧
      ((runUntil s.expected s).clk.fnum + 1) % 64 = 0 ∧ (runUntil s.expected s).emb.windowAt ≠ (runUntil s.expected s).clk.fnum + 1 := by
  decide +kernel

theorem witness_ReplicaEngineEventsComplete_sample (x : State) (h : x = stSlice ∨ x = runUntil (stSlice.atPos stSlice.W) stSlice) :
    x.framed = true ∧ x.lost = false ∧ x.clk.digest = 0 ∧ sliceFree x = true ∧ censusWaits x = false ∧ x.W ≤ x.pos := by
  rcases h with rfl | rfl <;> decide +kernel

theorem witness_ReplicaEngineEventsComplete_draws :
    let s := { stBase with now := 64020000, ledger := { stBase.ledger with holds := [(.refresh, 5)], held := 5 } }
    let u := runUntil ((Tbl.look s.stk.use 8195 0 : Nat) + 64000) s
    s.live = true ∧ holds .refresh s = true ∧ s.emb.roundOut = [] ∧ u.live = true ∧ holds .refresh u = true ∧ u.emb.roundOut = [] ∧
      Tbl.look u.stk.use 8195 0 + 64000 ≤ u.now ∧ asking .refresh u = false := by decide +kernel

/-! ## Walkers -/

/-- Cluster 0 runs command 1 of job 0. -/
def clA : Cluster := { job := 0, queue := 0, cid := 1, chunks := 1, prog := [], fetched := true }

/-- A lookup handle of its command that has ended. -/
def handleA : Handle :=
  { job := 0, walker := 0, cid := 1, upd := false, desc := zeros 64, tid := 3, vnum := 1, slot := slotA 1, fixed := fxA, dim := 4, space := 0,
    counts := [], acc := [], wins := [], poisoned := [], dropped := 0, retries := 0, firstRef := 0, queue := [], flows := [], unserved := [],
    ended := some 0 }

/-- Walker 0 of it as `w`, its chunk running; handle 1 of its command has ended. -/
def stWalk (w : Walker) : State := { stTable with
  units := [(24, { ExecUnit.init with run := some (chunkA 200) })],
  lkp := { stTable.lkp with
    clusters := [(0, clA)], walkers := [(0, w)],
    handles := [(1, handleA)] } }

/-- A walker in its command: w1 is 1, w2 the last instruction index, w3 32, w4 the last local address a transfer of 32 bytes fits. -/
def walkerA : Walker := { Walker.init with active := true, regs := [(1, 1), (2, 16383), (3, 32), (4, 0x1FE0)] }

/-- The word of operation `op` with RD, RS1, RS2 and the immediate. -/
def walkWord (op rd rs1 rs2 imm : Nat) : BitVec 32 := BitVec.ofNat 32 (op + rd * 2 ^ 6 + rs1 * 2 ^ 10 + rs2 * 2 ^ 14 + imm * 2 ^ 18)

theorem walkReady_of {k : Fin 2048} {w : BitVec 32} {op : Nat} {cl : Cluster} {s : State}
    (h : (mayWalk k s && decide (bits w.toNat 5 0 = op) && decide (s.cluster? (clusterOf k) = some cl) && decide ((s.walker k).pc < storeWords)) = true) :
    WalkReady k w op cl s := by
  simp only [Bool.and_eq_true, decide_eq_true_eq] at h
  exact ⟨h.1.1.1, h.1.1.2, h.1.2, h.2⟩

/-- Every operation of walker arithmetic and control may run on that walker. -/
theorem witness_WalkerArithmeticResults (op : Fin 14) : WalkReady 0 (walkWord op 5 1 2 3) op clA (stWalk walkerA) := by
  apply walkReady_of
  revert op
  decide +kernel

theorem witness_WalkerRegisterFile : (2 : Nat) ≠ 0 := by decide

/-- LD and ST of the last word of local memory. -/
theorem witness_WalkerMemoryAndControl_local :
    let s := stWalk walkerA
    (∀ op ∈ [0x10, 0x11], WalkReady 0 (walkWord op 5 0 1 0x1FFC) op clA s) ∧
      localOk (walkIss 0 (walkWord 0x10 5 0 1 0x1FFC) clA s).laddr 4 4 = true ∧ localOk (walkIss 0 (walkWord 0x11 5 0 1 0x1FFC) clA s).laddr 4 4 = true := by
  refine ⟨fun op h => walkReady_of ?_, by decide +kernel, by decide +kernel⟩
  revert op
  decide +kernel

theorem witness_WalkerMemoryAndControl_branch (op : Nat) (h : op ∈ [0x12, 0x13, 0x14, 0x15, 0x16]) :
    WalkReady 0 (walkWord op 5 1 2 7) op clA (stWalk walkerA) ∧ targetOk (walkIss 0 (walkWord op 5 1 2 7) clA (stWalk walkerA)).target = true := by
  refine ⟨walkReady_of ?_, ?_⟩ <;> (revert op; decide +kernel)

theorem witness_WalkerMemoryAndControl_jr :
    WalkReady 0 (walkWord 0x17 0 2 0 0) 0x17 clA (stWalk walkerA) ∧ (walkIss 0 (walkWord 0x17 0 2 0 0) clA (stWalk walkerA)).a < storeWords :=
  ⟨walkReady_of (by decide +kernel), by decide +kernel⟩

theorem witness_WalkerMemoryAndControl_ends (op : Nat) (h : op ∈ [0x18, 0x19, 0x21, 0x22]) :
    WalkReady 0 (walkWord op 0 1 2 1) op clA (stWalk walkerA) ∧ (walkIss 0 (walkWord op 0 1 2 1) clA (stWalk walkerA)).w.xfers = [] := by
  refine ⟨walkReady_of ?_, ?_⟩ <;> (revert op; decide +kernel)

theorem witness_WalkerMemoryAndControl_csr :
    WalkReady 0 (walkWord 0x1A 5 0 0 6) 0x1A clA (stWalk walkerA) ∧ bits (walkWord 0x1A 5 0 0 6).toNat 21 18 ≤ 6 :=
  ⟨walkReady_of (by decide +kernel), by decide +kernel⟩

theorem witness_WalkerMemoryAndControl_xfer :
    let w := walkWord 0x20 3 4 0 0
    let i := walkIss 0 w clA (stWalk walkerA)
    let n := i.w.reg i.rd
    WalkReady 0 w 0x20 clA (stWalk walkerA) ∧ 32 ≤ n ∧ n ≤ 8192 ∧ n % 32 = 0 ∧ i.a + n ≤ 0x2000 ∧ spanMapped (stWalk walkerA) clA.job i.xaddr n = true :=
  ⟨walkReady_of (by decide +kernel), by decide +kernel⟩

theorem witness_WalkerMemoryAndControl_hwait :
    let w := walkWord 0x25 5 1 0 0
    WalkReady 0 w 0x25 clA (stWalk walkerA) ∧
      (((stWalk walkerA).handle? (walkIss 0 w clA (stWalk walkerA)).a).map fun h => (h.ended, h.cid)) = some (some 0, clA.cid) :=
  ⟨walkReady_of (by decide +kernel), by decide +kernel⟩

/-- A transfer in, then one out, both still to be carried out. -/
def stXfer (out : Bool) : State := withDraws <| stWalk { walkerA with xfers := [{ out := out, loc := 0, addr := 0, len := 32 }] }

theorem witness_WalkerMemoryAndControl_xferComplete (out : Bool) :
    let s := stXfer out
    let u := updWalker 0 (fun w => { w with xfers := [] }) (unused s)
    (s.walker 0).xfers = [{ out := out, loc := 0, addr := 0, len := 32 }] ∧ s.cluster? (clusterOf 0) = some clA ∧ s.clocked = true ∧
      (match rangeRead clA.job 0 32 u with | .ok _ _ t => ready t | _ => false) = true ∧
      (match rangeWrite clA.job 0 ((s.walker 0).read 0 32) u with | .ok _ t => ready t | _ => false) = true := by
  cases out <;> decide +kernel

/-- A lookup descriptor of table 3 with one bag. -/
def descA : Bytes := toLe 4 3 ++ toLe 4 1 ++ zeros 56
/-- Local memory with that descriptor at 0x40, and at 0x80 a list of table 3 to close at step 1. -/
def walkerB : Walker := { Walker.init with
  active := true, regs := [(1, 0x40), (2, 0x80)],
  loc := Mem.sets (Mem.sets [] 0 0x40 descA) 0 0x80 (toLe 4 1 ++ toLe 4 1 ++ toLe 2 3) }

theorem witness_WalkerSendsComplete_lksend :
    let s := withDraws (stWalk walkerB)
    let w := walkWord 0x23 5 1 0 0
    let d := (s.walker 0).read (walkIss 0 w clA s).a 64
    WalkReady 0 w 0x23 clA s ∧ localOk (walkIss 0 w clA s).a 64 8 = true ∧ descError s clA.job false d = 0 ∧ s.table? clA.job (dsTid d) = some tableA ∧
      combineUsed s + dsNbags d * fxDim tableA.fixed * 16 ≤ 2 ^ 24 ∧ ready (startHandle 0 5 (s.walker 0).pc clA false d w (unused s)) = true :=
  ⟨walkReady_of (by decide +kernel), by decide +kernel⟩

theorem witness_WalkerSendsComplete_upsend :
    let s := withDraws (stWalk walkerB)
    let w := walkWord 0x24 5 1 0 0
    let d := (s.walker 0).read (walkIss 0 w clA s).a 64
    WalkReady 0 w 0x24 clA s ∧ localOk (walkIss 0 w clA s).a 64 8 = true ∧ descError s clA.job true d = 0 ∧
      ready (startHandle 0 5 (s.walker 0).pc clA true d w (unused s)) = true :=
  ⟨walkReady_of (by decide +kernel), by decide +kernel⟩

theorem witness_WalkerSendsComplete_upclose :
    let s := stWalk walkerB
    let w := walkWord 0x26 0 2 0 0
    let i := walkIss 0 w clA s
    let n := leAt (i.w.read i.a 8) 4 4
    let l := i.w.read i.a (8 + 2 * n)
    WalkReady 0 w 0x26 clA s ∧ localOk i.a 8 4 = true ∧ n = 1 ∧ i.a + 8 + 2 * n ≤ 0x2000 ∧
      (∀ t ∈ closeTids l n, t < 4096 ∧ (s.table? clA.job t).isSome = true) ∧ s.job? clA.job = some jobA ∧ stepOpen s clA.job (leAt l 0 4) = false ∧
      s.clocked = true :=
  ⟨walkReady_of (by decide +kernel), by decide +kernel⟩

theorem witness_WalkerSendsComplete_resume :
    let s := withDraws (stWalk walkerB)
    s.clocked = true ∧ ready (resumeOrphans 0 (resumeSender 0 (unused s))) = true := by decide +kernel

theorem witness_WalkerInvalidWordsStopTheCommand :
    let s := stWalk walkerA
    let w := walkWord 0x0E 0 0 0 0
    walkAt (.add 0 w) = some (0, w) ∧ mayWalk 0 s = true ∧ s.cluster? (clusterOf 0) = some clA ∧ (s.walker 0).pc < storeWords ∧
      walkDefined (bits w.toNat 5 0) = false := by decide +kernel

/-! ## Lookups and updates -/

/-- The state of the lookups: table 3, port 0 in service. -/
def stLkp : State := withDraws (linkUp stTable)

theorem crcFeed_append (c : CrcSpec) (r : Nat) (a b : Bytes) : crcFeed c r (a ++ b) = crcFeed c (crcFeed c r a) b := List.foldl_append

/-- The fingerprint of that table's version 1, sixteen bytes at a time. -/
theorem fingerprintA : fingerprint fxA (slotA 1) = 0xa950874 := by
  have e : fxA ++ slotA 1 = (toLe 2 3 ++ toLe 14 7) ++ (zeros 16 ++ ((toLe 2 1 ++ toLe 14 1) ++ (zeros 16 ++ (zeros 16 ++ zeros 16)))) := by
    decide +kernel
  rw [fingerprint, e, crc32c, crcOf]
  rw [show crc32cSpec.init % 2 ^ crc32cSpec.width = 0xFFFFFFFF from rfl]
  rw [crcFeed_append, show crcFeed crc32cSpec 0xffffffff (toLe 2 3 ++ toLe 14 7) = 0xa39bf1e0 by decide +kernel]
  rw [crcFeed_append, show crcFeed crc32cSpec 0xa39bf1e0 (zeros 16) = 0xecfea5da by decide +kernel]
  rw [crcFeed_append, show crcFeed crc32cSpec 0xecfea5da (toLe 2 1 ++ toLe 14 1) = 0x91977909 by decide +kernel]
  rw [crcFeed_append, show crcFeed crc32cSpec 0x91977909 (zeros 16) = 0x74619776 by decide +kernel]
  rw [crcFeed_append, show crcFeed crc32cSpec 0x74619776 (zeros 16) = 0xec4ae8da by decide +kernel]
  rw [show crcFeed crc32cSpec 0xec4ae8da (zeros 16) = 0xd1ef56af by decide +kernel]
  decide +kernel

/-- A lookup of row 5 of table 3 in version 1 by rank 1, or an update of it. -/
def reqA (typ : Nat) : Msg :=
  let hdr := reqHdr typ 3 1 0xa950874 1 0 0 0 0 1 1 1
  msgOf hdr (if typ = 0x53 then toLe 4 0 ++ toLe 4 1 ++ toLe 8 1 ++ zeros 16 ++ toLe 8 5 else toLe 4 0 ++ toLe 4 1 ++ toLe 8 5)

theorem witness_LookupMessagesComplete_lookup :
    let m := reqA 0x50
    let id := some [m.src.toNat, m.fseq.toNat, attemptOf m]
    let s1 := taken 0 0x50 id stLkp
    let f := reqOf false m.hdr m.body m.fseq.toNat
    let segs := segsOf f (fxDim tableA.fixed)
    Takes 0x50 m id 0 1 stLkp s1 ∧ flowsAdmitted s1 0 = true ∧ s1.job? 0 = some jobA ∧ s1.table? 0 f.tid = some tableA ∧
      tableA.version? f.vnum = some (slotA 1) ∧ f.fprint = fingerprint tableA.fixed (slotA 1) ∧ segs ≠ [] ∧
      (∀ g ∈ segs, ∀ i ∈ g.idx, i < fxRows tableA.fixed ∧ ownerRank tableA.fixed i = jobA.rank) ∧ jobEntries s1 0 < jobA.quota ∧
      f.rsv = 0 ∧ s1.lkp.charged + s1.lkp.reserved + f.nocc * ceilDiv (workBytes (vsWfmt (slotA 1)) (fxDim tableA.fixed)) 32 ≤
        classCap s1 (bits f.mode 5 4) ∧ freeOwner s1 = some 0 := by
  refine ⟨takes_of (by decide +kernel), by decide +kernel, by decide +kernel, by decide +kernel, by decide +kernel, ?_, by decide +kernel,
    by decide +kernel, by decide +kernel, by decide +kernel, by decide +kernel, ?_⟩
  · rw [show tableA.fixed = fxA from rfl, fingerprintA]; decide +kernel
  rw [freeOwner, List.range_succ_eq_map, List.find?_cons_of_pos]
  decide +kernel

theorem witness_LookupMessagesComplete_reply :
    let m := msgOf (toLe 2 0x51 ++ toLe 2 0 ++ toLe 2 0) []
    let id := some [m.src.toNat, m.fseq.toNat, attemptOf m, m.oseq.toNat]
    let s1 := taken 0 0x51 id stLkp
    Takes 0x51 m id 0 1 stLkp s1 ∧
      ready (replyHere 0 1 (flowIdOf m) (attemptOf m) m.fseq.toNat m.oseq.toNat (leAt m.hdr 4 2) m.body (flowAck m s1)) = true :=
  ⟨takes_of (by decide +kernel), by decide +kernel⟩

theorem witness_LookupMessagesComplete_flowEnd :
    let m := msgOf (flowEndHdr 0 1 3 0 0 8) []
    let id := some [m.src.toNat, m.fseq.toNat, attemptOf m]
    let s1 := taken 0 0x52 id stLkp
    Takes 0x52 m id 0 1 stLkp s1 ∧
      ready (flowEndHere 0 1 (flowIdOf m) (attemptOf m) m.fseq.toNat (leAt m.hdr 4 1) (leAt m.hdr 5 1) m.oseq.toNat (leAt m.hdr 6 2)
        (leAt m.hdr 8 1) (leAt m.hdr 9 6) (flowAck m s1)) = true :=
  ⟨takes_of (by decide +kernel), by decide +kernel⟩

theorem witness_LookupMessagesComplete_nojob :
    let m := msgOf (toLe 2 9) []
    let id := some [m.src.toNat, m.fseq.toNat, attemptOf m]
    Takes 0x09 m id 0 1 stLkp (taken 0 0x09 id stLkp) ∧
      ready (flowEndHere 0 1 (flowIdOf m) (attemptOf m) m.fseq.toNat 2 2 0 0 0 0 (taken 0 0x09 id stLkp)) = true :=
  ⟨takes_of (by decide +kernel), by decide +kernel⟩

/-- An update of a table the job does not hold. -/
theorem witness_LookupMessagesComplete_update :
    let m := msgOf (reqHdr 0x53 9 1 0 1 0 0 0 0 1 1 1) []
    Takes 0x53 m none 0 1 stLkp (unused stLkp) ∧ ready (updReqHere 0 (reqOf true m.hdr m.body m.fseq.toNat) (unused stLkp)) = true :=
  ⟨takes_of (by decide +kernel), by decide +kernel⟩

theorem witness_LookupMessagesComplete_close :
    let m := msgOf (updCloseHdr 1 1 1) (toLe 2 3)
    Takes 0x54 m none 0 1 stLkp (unused stLkp) ∧
      ((takeIdent 0 0x54 [m.src.toNat, leAt m.hdr 2 4, leAt m.body 0 2 % 4096] (unused stLkp)).map fun s1 =>
        ready (closeHere 0 (leAt m.body 0 2 % 4096) (leAt m.hdr 2 4) 1 s1)) = some true ∧ leAt m.hdr 8 2 = 1 :=
  ⟨takes_of (by decide +kernel), by decide +kernel⟩

/-- An owner flow of rank 1: one segment with row 5; an update's gradient is 0. -/
def oflowA (upd wait : Bool) : OFlow :=
  { job := 0, upd := upd, rrank := 1, flowid := 0, tid := 3, vnum := 1, pool := 0, rfmt := 0, waitUpd := wait, cls := 0, step := 2, attempt := 0, fseq := 0,
    segs := [{ bag := 0, idx := [5], wgt := [], n := 1, grad := [0, 0, 0, 0], wins := [] }], cost := 1, seq := 0 }

/-- That flow in entry 0, every draw held, step 1 of table 3 done. -/
def stFlow (upd wait : Bool) : State := { stLkp with
  emb := { stLkp.emb with tables := [(3, { tableA with last := some 1 })] },
  lkp := { stLkp.lkp with oflows := [(0, oflowA upd wait)] } }

theorem witness_FlowEngineEventsComplete_pooled :
    let s := stFlow false false
    let g := gatherSeg 0 3 fxA (slotA 1) { bag := 0, idx := [5], wgt := [], n := 1, grad := [0, 0, 0, 0], wins := [] } (unused s)
    (∀ p ∈ s.lkp.oflows, p.2.upd = false → p.2.waitUpd = false → p.2.before (oflowA false false) = false) ∧
      ready (endOwner 0 0 0 1 0 (count Reg.LKP_SERVED 64 1 (sendReply (oflowA false false) 0 [] (lkpNstat 0 g.2)))) = true ∧
    Tbl.look? s.lkp.oflows 0 = some (oflowA false false) ∧ s.clocked = true ∧ engineHeld s (flowUnits s (oflowA false false)) = true ∧
      s.table? 0 3 = some { tableA with last := some 1 } ∧ ({ tableA with last := some 1 } : Table).version? 1 = some (slotA 1) := by decide +kernel

theorem witness_FlowEngineEventsComplete_release :
    let s := stFlow false true
    Tbl.look? s.lkp.oflows 0 = some (oflowA false true) ∧ s.table? 0 3 = some { tableA with last := some 1 } ∧ (oflowA false true).step ≤ 1 + 1 ∧
      s.clocked = true := by decide +kernel

/-- A flow this device has sent in frame 0, in entry 0. -/
def rflowA (t : Option Nat) : RFlow :=
  { job := 0, handle := 1, pos := 0, rank := 1, segs := [], attempt := 0, fseq := 0, rsv := 0, sent := 0, tframe := t, recv := [], got := [], fin := none }

theorem witness_FlowEngineEventsComplete_retry :
    let s := { stLkp with lkp := { stLkp.lkp with rflows := [(0, rflowA (some 5))] } }
    ready (sendFlow 0 (updHandle 1 (fun h => { h with retries := h.retries + 1 })
      (updRFlow 0 (fun r => { r with sent := s.clk.fnum, tframe := none }) (unused s)))) = true ∧
    s.rflow? 0 = some (rflowA (some 5)) ∧ 5 ≤ s.clk.fnum ∧ s.clocked = true ∧ s.clk.stepsDone = true ∧ s.clk.step7Wait = false ∧ s.lost = false ∧
      s.pos < s.W := by decide +kernel

theorem witness_FlowEngineEventsComplete_timeout :
    let s := { stLkp with lkp := { stLkp.lkp with rflows := [(0, rflowA none)] }, clk := { stLkp.clk with fnum := 300 } }
    ready (deferFlow 0 1 0 (s.clk.fnum + 1) (raiseInt blkZor 5 (count Reg.ZOR_LOSTFLOW 32 1 (unused s)))) = true ∧
    s.rflow? 0 = some (rflowA none) ∧ (rflowA none).tframe = none ∧ (rflowA none).fin = none ∧ s.live = true ∧ (rflowA none).sent + regField s Reg.ZOR_CFG 7 0 ≤ s.clk.fnum := by
  decide +kernel

theorem witness_FlowEngineEventsComplete_merge :
    let s := stFlow true false
    let ts := (segTerms 0 4 (fun r => decide (r < fxRows fxA) && decide (ownerRank fxA r = jobA.rank))
      { bag := 0, idx := [5], wgt := [], n := 1, grad := [0, 0, 0, 0], wins := [] }).1
    let l := (mergeAll 0 3 1 2 4 s.lkp.merge ts).1
    Tbl.look? s.lkp.oflows 0 = some (oflowA true false) ∧ s.clocked = true ∧ engineHeld s (flowUnits s (oflowA true false)) = true ∧
      s.job? 0 = some jobA ∧ s.table? 0 3 = some { tableA with last := some 1 } ∧ ts.length = 1 ∧ 32 + 40 * fxDim fxA ≤ jobA.mergeSlot ∧
      (∀ p ∈ s.lkp.oflows, p.2.upd = true → p.2.waitUpd = false → p.2.before (oflowA true false) = false) ∧
      (l.filter fun m => decide (m.job = 0)).length ≤ jobA.mergeEntries ∧ (∀ m ∈ l, m.count ≤ 2 ^ 32 - 1) ∧
      ready (endUpdate 0 0 0 0 (count Reg.LKP_SERVED 64 1 (count Reg.LKP_MERGED 64 1 (lkpNstat 0
        (storeMerge jobA 0 s.lkp.merge l { unused s with lkp := { s.lkp with merge := l } }))))) = true := by decide +kernel

/-- A merged row of step 2 of table 3, whose step is in work. -/
def mergeA : MergeEnt := { job := 0, tid := 3, vnum := 1, step := 2, row := 4, slot := 0, count := 1, acc := [0, 0, 0, 0], spec := [0, 0, 0, 0] }

theorem witness_FlowEngineEventsComplete_batch :
    let t := { tableA with last := some 1, updating := some 2 }
    let s := { stFlow true false with
      emb := { stLkp.emb with tables := [(3, t)] }, tiles := [(0, Tile.init)],
      lkp := { stLkp.lkp with merge := [mergeA] } }
    s.table? 0 3 = some t ∧ s.clocked = true ∧ t.updating.isSome = true ∧ batchRows s 0 3 0 t = mergeA :: [] ∧ t.version? mergeA.vnum = some (slotA 1) ∧
      updatesAdmitted s 0 (batchMsgBytes 1 (masterBytes (vsOpt (slotA 1)) (fxDim t.fixed))) = true ∧ engineHeld s [4 + 0] = true ∧
      vecIdle s (updTileOf s 0 0) = true ∧ pieceFirst s (updTileOf s 0 0) = false ∧
      ready (runBatch 0 3 0 t (slotA 1) [mergeA] (unused s)) = true ∧ holds (.tableEngine (6 + 0)) s = true := by decide +kernel

theorem witness_FlowEngineEventsComplete_draws :
    let s := { stFlow false false with lkp := stLkp.lkp, now := 64020000 }
    let u := runUntil ((Tbl.look s.stk.use (8220 + 5) 0 : Nat) + 64000) s
    s.clocked = true ∧ holds (.tableEngine 5) s = true ∧ engineBusy s 5 = false ∧ u.clocked = true ∧ holds (.tableEngine 5) u = true ∧
      engineBusy u 5 = false ∧ Tbl.look u.stk.use (8220 + 5) 0 + 64000 ≤ u.now ∧ asking (.tableEngine 5) u = false := by decide +kernel

/-! ## Dense layers -/

/-- Layer 2: 16 BF16 elements shared by both ranks, one marker a step, no slots, no samples; its arrays lie in page 0, its program is zeros. -/
def denseA : Bytes :=
  toLe 4 0x10002 ++ toLe 4 16 ++ toLe 2 0 ++ toLe 2 1 ++ toLe 2 1 ++ toLe 2 1 ++ toLe 2 0xFFFF ++ toLe 2 0xFFFF ++ toLe 4 0x1F000 ++
    toLe 6 0x10000 ++ toLe 6 0x20000 ++ zeros 6 ++ toLe 6 0x30000 ++ toLe 6 0x40000 ++ zeros 12 ++ toLe 6 0x50000 ++ toLe 6 0x60000 ++
    toLe 6 0x70000 ++ zeros 44

/-- Job 0 holds that layer as `f` leaves it; tile 0 is idle. -/
def stDense (f : DLayer → DLayer) : State := withDraws <| linkUp { stPage with
  tiles := [(0, Tile.init)], dtr := { stPage.dtr with layers := [(2, f (DLayer.init denseA 0))] } }

theorem witness_DenseStepEventsComplete_create :
    let c := cmdOf Op.DENSE_CREATE denseA
    let s1 := started 0 (withCmd c stPage)
    Accepted 0 Op.DENSE_CREATE (withCmd c stPage) c ∧ s1.job? c.job = some jobA ∧ denseRefusal s1 c.job jobA (c.opndBytes 0 128) = none :=
  ⟨accepted_of (by decide +kernel) (by decide +kernel), by decide +kernel⟩

theorem witness_DenseStepEventsComplete_mark :
    let x := { Tile.init with lmarks := [(0, 2)] }
    let s := { stDense id with tiles := [(0, x)] }
    s.clocked = true ∧ s.tiles.find? (fun p => p.2.lmarks.contains (0, 2) && !deferredLeft s p.1 0 2) = some (0, x) := by decide +kernel

theorem witness_DenseStepEventsComplete_start :
    let L := { DLayer.init denseA 0 with marks := 1 }
    let s := stDense fun _ => L
    s.layer? 0 2 = some L ∧ denseOn s 0 = true ∧ duskBegun s = false ∧ L.phase = 0 ∧ dlMarks L.desc ≤ L.marks ∧ dlResbase L.desc = 0 ∧
      ready (beginRings 0 2 (updLayer 0 2 (fun L' => { L' with
        phase := 2, marks := L'.marks - dlMarks L.desc, order := s.dtr.nextOrder, progress := s.clk.fnum, stalled := false, segs := [] })
        { unused s with dtr := { s.dtr with nextOrder := s.dtr.nextOrder + 1 } })) = true := by
  decide +kernel

theorem witness_DenseStepEventsComplete_slot :
    let s := stDense id
    let u := runUntil (s.atPos (0 * s.slotLen)) s
    ∀ x, x = s ∨ x = u → x.framed = true ∧ x.lost = false ∧ x.slotLen ≠ 0 ∧ x.pos / x.slotLen ≤ 0 ∧ x.dtr.slot ≠ some (x.clk.fnum, 0) := by
  intro s u x h
  rcases h with rfl | rfl <;> decide +kernel

theorem witness_DenseStepEventsComplete_verdict :
    let L := { DLayer.init denseA 0 with phase := 2, owned := [(0, 8)] }
    let s := stDense fun _ => L
    let p := ownPoison (unused s) 0 L
    s.layer? 0 2 = some L ∧ denseOn s 0 = true ∧ L.phase = 2 ∧ shardWhole L = true ∧
      ready (takeVerdicts 18 0 2 (updLayer 0 2 (fun L => { L with
        phase := 3, votes := L.vote, round := 0, sentRounds := 0, progress := s.clk.fnum, stalled := false }) (votePoison 0 2 p.isSome p (unused s)))) = true := by
  decide +kernel

theorem witness_DenseStepEventsComplete_piece :
    let L := { DLayer.init denseA 0 with phase := 4 }
    let s0 := stDense fun _ => L
    let s := { s0 with ledger := { s0.ledger with holds := s0.ledger.holds ++ [(pieceOwner 0 2, 4)], held := 4 } }
    let s1 := (freeVal (unused s)).2
    s.layer? 0 2 = some L ∧ s.job? 0 = some jobA ∧ denseOn s 0 = true ∧ L.phase = 4 ∧ pieceTime s L = true ∧ L.running = none ∧
      dlxHolds s 0 (pieceMsgBytes L) = false ∧ vecIdle s (dlUtile L.desc) = true ∧ holds (pieceOwner 0 2) s = true ∧
      ready (unpark (dlUtile L.desc) (runPiece 0 2 jobA L s1)) = true ∧
      ready (unpark (dlUtile L.desc) (updLayer 0 2 (fun L => { L with running := some s.clk.fnum, progress := s.clk.fnum, stalled := false }) s1)) = true := by
  decide +kernel

theorem witness_DenseStepEventsComplete_pieceGoesOn :
    let L := { DLayer.init denseA 0 with phase := 4, running := some 4 }
    let s := stDense fun _ => L
    s.layer? 0 2 = some L ∧ denseOn s 0 = true ∧ pieceTime s L = true ∧ (s.tile (dlUtile L.desc)).vecFree = true ∧ L.running.isSome = true ∧
      ready (unpark (dlUtile L.desc) (runPiece 0 2 jobA L (unused s))) = true := by decide +kernel

theorem witness_DenseStepEventsComplete_fetch :
    let L := { DLayer.init denseA 0 with phase := 5 }
    let s0 := stDense fun _ => L
    let s := { s0 with clk := { s0.clk with fnum := 300 } }
    s.layer? 0 2 = some L ∧ denseOn s 0 = true ∧ L.phase = 5 ∧ 1 < dlG L.desc ∧ 1 ≠ L.gidx ∧ 0 < shardSegs L.desc 1 ∧ L.segs.contains (1, 0) = false ∧
      L.fetch.contains (1, 0) = false ∧ L.gatherAt + regField s Reg.DTR_CFG 7 0 ≤ s.clk.fnum ∧ ready (segFetch 0 2 1 0 (unused s)) = true := by
  decide +kernel

theorem witness_DenseStepEventsComplete_stall :
    let L := { DLayer.init denseA 0 with phase := 2 }
    let s0 := stDense fun _ => L
    let s := { s0 with clk := { s0.clk with fnum := 300 } }
    s.layer? 0 2 = some L ∧ s.clocked = true ∧ s.lost = false ∧ L.phase ≠ 0 ∧ L.stalled = false ∧
      L.progress + regField s Reg.DTR_CFG 7 0 ≤ s.clk.fnum := by decide +kernel

theorem witness_DenseStepEventsComplete_draws :
    let s := { stDense id with now := 64020000 }
    let u := runUntil ((Tbl.look s.stk.use (8200 + 2) 0 : Nat) + 64000) s
    s.clocked = true ∧ holds (.reduction 2) s = true ∧ reductionBusy s 2 = false ∧ u.clocked = true ∧ holds (.reduction 2) u = true ∧
      reductionBusy u 2 = false ∧ Tbl.look u.stk.use (8200 + 2) 0 + 64000 ≤ u.now ∧ asking (.reduction 2) u = false := by decide +kernel

/-- The layer in phase 2 with one range granted on the main path. -/
def layerA : DLayer := { DLayer.init denseA 0 with phase := 2, given := [1, 0] }
/-- The state of the ring messages. -/
def stRing : State := stDense fun _ => layerA

theorem witness_DenseMessagesComplete_rsData :
    let m := msgOf (rsHdr 2 0 0 1 0 0 0 0 8) (zeros 32)
    let s0 := taken 0 0x60 (some [2, 0, 0, m.src.toNat, 0, 0]) stRing
    Takes 0x60 m none 0 1 stRing (unused stRing) ∧ (unused stRing).layer? 0 (leAt m.hdr 2 2) = some layerA ∧
      rangeFits layerA (leAt m.hdr 8 2) 0 (leAt m.hdr 12 1) (leAt m.hdr 16 4) (leAt m.hdr 20 4) = true ∧ leAt m.hdr 13 1 = 0 ∧ layerA.phase = 2 ∧
      leAt m.hdr 4 4 = layerA.step ∧ idxOfRank denseA 1 = some (pathPrev denseA 0 0) ∧
      takeIdent 0 0x60 [2, 0, 0, m.src.toNat, 0, 0] (unused stRing) = some s0 ∧ layerA.taken.getD 0 0 < layerA.given.getD 0 0 ∧
      ready (densePump 0 2 (grantBoth 0 2 (takeMain 0 2 layerA (leAt m.hdr 8 2) (leAt m.hdr 16 4) (leAt m.hdr 20 4) (decide (leAt m.hdr 14 1 = 1)) m.body
        (updLayer 0 2 (fun L => { L with
          taken := L.taken.set 0 (L.taken.getD 0 0 + 1), arrived := L.arrived.set 0 (L.arrived.getD 0 0 + leAt m.hdr 20 4), progress := stRing.clk.fnum,
          through := L.through.set 0 (L.through.getD 0 0 + if leAt m.hdr 8 2 = layerA.gidx then 0 else leAt m.hdr 20 4), stalled := false }) (reductionAsk 0 s0))))) = true :=
  ⟨takes_of (by decide +kernel), by decide +kernel, by decide +kernel, by decide +kernel, by decide +kernel, by decide +kernel, by decide +kernel,
    taken_some (by decide +kernel), by decide +kernel, by decide +kernel⟩

/-- XCREDIT for the step in progress and for the next. -/
theorem witness_DenseMessagesComplete_xcredit (step : Nat) (h : step = 0 ∨ step = 1) :
    let m := msgOf (xcreditHdr 2 step 0 1) []
    ready (densePump 0 2 (updLayer 0 2 (fun L => { L with grant := L.grant.set 0 (max 1 (L.grant.getD 0 0)) }) (unused stRing))) = true ∧
    ready (updLayer 0 2 (fun L => { L with grantNext := L.grantNext.set 0 (max 1 (L.grantNext.getD 0 0)) }) (unused stRing)) = true ∧
    Takes 0x08 m none 0 1 stRing (unused stRing) ∧ leAt m.hdr 8 1 ≤ 1 ∧ idxOfRank denseA 1 = some (pathNext denseA 0 0) ∧ leAt m.hdr 4 4 = step ∧
      leAt m.hdr 4 4 = (layerA.step + step) % 2 ^ 32 := by
  rcases h with rfl | rfl <;> exact ⟨by decide +kernel, by decide +kernel, takes_of (by decide +kernel), by decide +kernel⟩

theorem witness_DenseMessagesComplete_verdict :
    let m := msgOf (verdictHdr 2 0 1 0 0) []
    let id := some [2, leAt m.hdr 4 4, m.src.toNat, leAt m.hdr 12 1]
    Takes 0x62 m id 0 1 stRing (taken 0 0x62 id stRing) ∧ idxOfRank denseA 1 = some (ringBack denseA 0 (2 ^ leAt m.hdr 12 1)) ∧
      leAt m.hdr 12 1 < rounds (dlG denseA) ∧ denseOn (taken 0 0x62 id stRing) 0 = true ∧
      ready (takeVerdicts 18 0 2 (updLayer 0 2 (fun L => { L with early := L.early ++ [(leAt m.hdr 4 4, 0, leAt m.hdr 13 1 % 4)] })
        (taken 0 0x62 id stRing))) = true := ⟨takes_of (by decide +kernel), by decide +kernel⟩

theorem witness_DenseMessagesComplete_agData :
    let m := msgOf (agHdr 2 0 1 1 0 (crc64 (zeros 16)) 16 0) (zeros 16)
    let id := some [2, leAt m.hdr 4 4, leAt m.hdr 8 2, leAt m.hdr 12 4, leAt m.hdr 28 1]
    let s1 := taken 0 0x61 id stRing
    Takes 0x61 m id 0 1 stRing s1 ∧ leAt m.hdr 28 1 ≠ 1 ∧ 1 < dlG denseA ∧ 1 ≠ layerA.gidx ∧ leAt m.hdr 12 4 < shardSegs denseA 1 ∧
      (slice m.body 0 (leAt m.hdr 24 4)).length = segLen denseA 1 0 ∧ 2 ≤ layerA.phase ∧ layerA.ended = false ∧ leAt m.hdr 4 4 = layerA.step ∧
      idxOfRank denseA 1 = some (ringBack denseA 0 1) ∧ crc64 (slice m.body 0 (leAt m.hdr 24 4)) = leAt m.hdr 16 8 ∧
      layerA.gidx = ringBack denseA 1 1 ∧
      (match rangeWrite 0 (segAddr denseA 1 0) (slice m.body 0 16) s1 with
        | .ok _ s2 => ready (checkReady 0 2 (densePump 0 2 (reductionAsk 0 (segHere 0 2 1 0 0 (crc64 (slice m.body 0 16)) true s2))))
        | _ => false) = true :=
  ⟨takes_of (by decide +kernel), by decide +kernel⟩

theorem witness_DenseMessagesComplete_segFetch :
    let m := msgOf (toLe 2 0x63 ++ toLe 2 2 ++ toLe 4 0 ++ toLe 2 0 ++ toLe 2 1 ++ toLe 4 0) []
    let id := some [2, leAt m.hdr 4 4, leAt m.hdr 8 2, leAt m.hdr 12 4, m.src.toNat]
    let s1 := taken 0 0x63 id stRing
    Takes 0x63 m id 0 1 stRing s1 ∧ leAt m.hdr 8 2 = layerA.gidx ∧ leAt m.hdr 12 4 < shardSegs denseA layerA.gidx ∧
      (match rangeRead 0 (segAddr denseA 0 0) (segLen denseA 0 0) s1 with
        | .ok b _ s2 => ready (sendRank 0 1 4 (agHdr 2 0xFFFFFFFF 0 0 0 (crc64 b) b.length 1) b {} (reductionAsk 0 s2))
        | _ => false) = true :=
  ⟨takes_of (by decide +kernel), by decide +kernel⟩

/-! ## Links -/

/-- Port 0 as `x`. -/
def stPort (x : Port) : State := { stBase with zor := { stBase.zor with ports := [(0, x)] } }
/-- A port in service on link 0 with four lanes. -/
def portA : Port := { Port.init with state := 2, link := some 0, lanes := 15 }

theorem witness_LinkTrainingCompletes_step :
    let s := stPort { Port.init with state := 1, step := 2, lanes := 15 }
    s.live = true ∧ (s.port 0).state = 1 ∧ (usableLanes ((s.port 0).lanes &&& (0x3#4).toNat)).isSome = true ∧ (s.port 0).step < 3 ∧
      (usableLanes ((s.port 0).lanes &&& (0x2#4).toNat)).isSome = false := by decide +kernel

theorem witness_LinkTrainingCompletes_hellos :
    let s := stPort { Port.init with state := 1, step := 3, lanes := 15 }
    s.live = true ∧ (s.port 0).state = 1 ∧ (s.port 0).step = 3 ∧ (usableLanes (s.port 0).lanes).isSome = true := by decide +kernel

/-- The LINK_HELLO of a switch of a plane. -/
def helloA (plane : Nat) : Bytes := toLe 2 1 ++ toLe 1 2 ++ toLe 1 plane ++ zeros 2 ++ toLe 10 0

theorem witness_LinkTrainingCompletes_hello :
    let s := stPort { Port.init with state := 1, step := 4, lanes := 15 }
    let b := helloA 0
    s.live = true ∧ leAt b 0 2 = 1 ∧ leAt b 2 1 = 2 ∧ leAt b 3 1 = (s.portPlan 0).plane ∧ (s.port 0).state = 1 ∧ (s.port 0).step = 4 ∧
      ((stPort portA).port 0).up = true ∧ ((stPort portA).port 0).state ≠ 1 := by decide +kernel

theorem witness_LinkTrainingCompletes_miswired :
    let s := stPort { Port.init with state := 1, step := 4, lanes := 15 }
    let b := helloA 1
    s.live = true ∧ leAt b 0 2 = 1 ∧ leAt b 2 1 = 2 ∧ leAt b 3 1 ≠ (s.portPlan 0).plane ∧ (s.port 0).state = 1 ∧ (s.port 0).step = 4 ∧
      (s.port 0).up = false := by decide +kernel

theorem witness_LinkTrainingCompletes_service :
    let s := stPort portA
    s.live = true ∧ (s.port 0).up = true ∧ bitOf (s.port 0).lanes (3 : Fin 4) = true := by decide +kernel

theorem witness_LinkTrainingCompletes_census :
    let s := { stPort portA with now := 62400000 }
    let u := runUntil (s.atPos s.W) s
    s.framed = true ∧ censusDue s 0 = true ∧ sliceFree s = true ∧ u.framed = true ∧ censusDue u 0 = true ∧ sliceFree u = true ∧ u.W ≤ u.pos ∧
      (∀ i < 4, bitOf (u.port 0).lanes i = true → berClass (berCode (laneErrs u (u.port 0) i) (laneBits u)) = 0) := by decide +kernel

theorem witness_LinkTrainingCompletes_draws :
    let s := { stPort portA with now := 64020000, ledger := { stBase.ledger with holds := [(.link 31, 4)], held := 4 } }
    let u := runUntil ((linkSentAt s 31 : Nat) + 64000) s
    s.live = true ∧ holds (.link 31) s = true ∧ linkQuiet s 31 = true ∧ u.live = true ∧ holds (.link 31) u = true ∧ linkQuiet u 31 = true ∧
      linkSentAt u 31 + 64000 ≤ u.now ∧ asking (.link 31) u = false := by decide +kernel

/-- The CRC of that flit, sixteen bytes at a time. -/
theorem flitCrcA : crcOf flitCrc (toLe 16 0x6D ++ zeros 228) = 0xdc8ca977 := by
  have e : toLe 16 0x6D ++ zeros 228 = toLe 16 0x6D ++ (zeros 16 ++ (zeros 16 ++ (zeros 16 ++ (zeros 16 ++ (zeros 16 ++ (zeros 16 ++ (zeros 16 ++
      (zeros 16 ++ (zeros 16 ++ (zeros 16 ++ (zeros 16 ++ (zeros 16 ++ (zeros 16 ++ (zeros 16 ++ zeros 4)))))))))))))) := by
    simp only [zeros, List.replicate_append_replicate]
  rw [e, crcOf, show flitCrc.init % 2 ^ flitCrc.width = 0xFFFFFFFF from rfl]
  rw [crcFeed_append, show crcFeed flitCrc 0xffffffff (toLe 16 0x6D) = 0x2edef2c4 by decide +kernel]
  rw [crcFeed_append, show crcFeed flitCrc 0x2edef2c4 (zeros 16) = 0xfe76653 by decide +kernel]
  rw [crcFeed_append, show crcFeed flitCrc 0xfe76653 (zeros 16) = 0x554f21e2 by decide +kernel]
  rw [crcFeed_append, show crcFeed flitCrc 0x554f21e2 (zeros 16) = 0x9402b0a0 by decide +kernel]
  rw [crcFeed_append, show crcFeed flitCrc 0x9402b0a0 (zeros 16) = 0x69b35655 by decide +kernel]
  rw [crcFeed_append, show crcFeed flitCrc 0x69b35655 (zeros 16) = 0x4c781967 by decide +kernel]
  rw [crcFeed_append, show crcFeed flitCrc 0x4c781967 (zeros 16) = 0x6950b2e0 by decide +kernel]
  rw [crcFeed_append, show crcFeed flitCrc 0x6950b2e0 (zeros 16) = 0x56622ea0 by decide +kernel]
  rw [crcFeed_append, show crcFeed flitCrc 0x56622ea0 (zeros 16) = 0x96e8f8d3 by decide +kernel]
  rw [crcFeed_append, show crcFeed flitCrc 0x96e8f8d3 (zeros 16) = 0x91098a8f by decide +kernel]
  rw [crcFeed_append, show crcFeed flitCrc 0x91098a8f (zeros 16) = 0xc464f66f by decide +kernel]
  rw [crcFeed_append, show crcFeed flitCrc 0xc464f66f (zeros 16) = 0x4e195f2f by decide +kernel]
  rw [crcFeed_append, show crcFeed flitCrc 0x4e195f2f (zeros 16) = 0xc01653f by decide +kernel]
  rw [crcFeed_append, show crcFeed flitCrc 0xc01653f (zeros 16) = 0x3d917691 by decide +kernel]
  rw [crcFeed_append, show crcFeed flitCrc 0x3d917691 (zeros 16) = 0xba96d14a by decide +kernel]
  rw [show crcFeed flitCrc 0xba96d14a (zeros 4) = 0x116acec4 by decide +kernel]
  decide +kernel

/-- A data flit, the whole of a message of channel 3, with a CRC and the parity bytes of the two codewords. -/
def flitA (crc parity : Nat) : Bytes := (toLe 16 0x6D ++ zeros 228) ++ (toLe 4 crc ++ toLe 8 parity)

theorem slice_head (a b : Bytes) (n : Nat) (h : a.length = n) : slice (a ++ b) 0 n = a := by
  subst h
  refine List.ext_getElem (by simp [slice]) fun i h1 h2 => ?_
  simp [slice, byteAt, List.getElem?_append_left h2, List.getElem?_eq_getElem h2]

theorem flitA_head (crc parity : Nat) : slice (flitA crc parity) 0 244 = toLe 16 0x6D ++ zeros 228 :=
  slice_head _ _ _ (by rw [List.length_append, zeros, List.length_replicate]; rfl)

/-- A codeword of that flit without errors, and one wrong byte put right. -/
theorem test_fec :
    fecFixes (flitA 0xdc8ca977 0xda6946f61e67f76e) = [] ∧ fecFixes (patch (flitA 0xdc8ca977 0xda6946f61e67f76e) 30 (toLe 1 0x41)) = [(30, 0x41)] := by
  decide +kernel

theorem witness_FlitsAndStoreComplete_badCrc :
    let b := flitA 0 0x5e007e00e700aa
    (stPort portA).live = true ∧ ((stPort portA).port 0).up = true ∧ fecApply (fecFixes b) b = b ∧ crcOf flitCrc (slice b 0 244) ≠ leAt b 244 4 := by
  refine ⟨by decide +kernel, by decide +kernel, ?_, ?_⟩
  · rw [show fecFixes (flitA 0 0x5e007e00e700aa) = [] by decide +kernel]; rfl
  · rw [flitA_head, flitCrcA]; decide +kernel

theorem witness_FlitsAndStoreComplete_good :
    let b := flitA 0xdc8ca977 0xda6946f61e67f76e
    let h := leAt b 0 8
    let s0 := noteFixes 0 [] (stPort portA)
    let s2 := updPort 0 (fun x => { x with credits := x.credits.modify (bits h 35 33) (· + bits h 47 36) }) (takeAck 0 (bits h 31 20) s0)
    let y := (if bitOf h 32 then takeNak 0 s2 else s2).port 0
    fecApply (fecFixes b) b = b ∧ crcOf flitCrc (slice b 0 244) = leAt b 244 4 ∧ bits h 1 0 = 1 ∧ y.up = true ∧ bits h 19 8 = y.lseqRx := by
  refine ⟨?_, ?_, by decide +kernel⟩
  · rw [test_fec.1]; rfl
  · rw [flitA_head, flitCrcA]; decide +kernel

theorem witness_FlitsAndStoreComplete_reassembly :
    let s := stPort { portA with reasm := [{ vc := 4, bytes := [] }] }
    s.live = true ∧ (s.port 0).reasm.any (fun r => decide (r.vc = (4 : Fin 5).val)) = true := by decide +kernel

/-- A message to device 6 whose one flit went out in frame 5. -/
def txA : TxMsg :=
  { id := 3, dst := 6, jobid := 7, enc := true, resent := false, oseq := 0, stream := 0, fseq := 0, vc := 3, hdr := zeros 32, body := [], snum := some 0,
    plane := some 0, nonce := some (5, 0), flits := 1, placed := 1, acked := 1 }
/-- It stands in the transmit store. -/
def stTx : State := { stPort portA with zor := { (stPort portA).zor with store := [txA], reach := [(32 * 6, 0)] } }

/-- UNREACH about a plane (1) and about a destination (2). -/
theorem witness_FlitsAndStoreComplete_unreach (why : Nat) (h : why = 1 ∨ why = 2) :
    let b := toLe 2 4 ++ toLe 2 6 ++ toLe 1 why ++ zeros 27 ++ txA.envelope 5
    stTx.live = true ∧ (stTx.port 0).up = true ∧ leAt b 0 2 = 4 ∧ heldByEnvelope stTx (slice b 32 32) = some txA ∧ leAt b 4 1 = why ∧
      (stTx.port 0).link = some 0 := by
  rcases h with rfl | rfl <;> decide +kernel

theorem witness_FlitsAndStoreComplete_expiry :
    let s := { stTx with clk := { stTx.clk with fnum := 1024 } }
    s.live = true ∧ Tbl.look? s.zor.reach (32 * (6#16).toNat + (0 : Fin 32).val) = some 0 ∧ 0 + 1024 ≤ s.clk.fnum := by decide +kernel

theorem witness_FlitsAndStoreComplete_release : stTx.live = true ∧ txA ∈ stTx.zor.store ∧ txA.flits ≤ txA.acked := by decide +kernel

/-! ## Bulk transfers and dropped messages -/

/-- A bulk request of 32 bytes at address 0 of job 0's range. -/
def bulkA (typ : Nat) : Msg := msgOf (toLe 2 typ ++ zeros 2 ++ toLe 4 1 ++ toLe 4 0 ++ toLe 4 32 ++ toLe 6 0) (zeros 32)

theorem witness_BulkTransfersComplete_write :
    let s := withDraws (linkUp stPage)
    let s1 := taken 0 0x30 (bulkIdent (bulkA 0x30)) s
    Takes 0x30 (bulkA 0x30) (bulkIdent (bulkA 0x30)) 0 1 s s1 ∧
      (match rangeWrite 0 (bulkAddr (bulkA 0x30)) (slice (bulkA 0x30).body 0 (bulkLength (bulkA 0x30))) s1 with
        | .ok [] s2 => ready (sendTo 0 6 2 (header (toLe 2 0x33 ++ zeros 2 ++ toLe 4 1 ++ toLe 4 0 ++ toLe 1 0)) [] {} s2)
        | _ => false) = true :=
  ⟨takes_of (by decide +kernel), by decide +kernel⟩

theorem witness_BulkTransfersComplete_read :
    let s := withDraws (linkUp stPage)
    let s1 := taken 0 0x31 (bulkIdent (bulkA 0x31)) s
    Takes 0x31 (bulkA 0x31) (bulkIdent (bulkA 0x31)) 0 1 s s1 ∧
      (match rangeRead 0 (bulkAddr (bulkA 0x31)) (bulkLength (bulkA 0x31)) s1 with
        | .ok d [] s2 => ready (sendTo 0 6 2 (header (toLe 2 0x32 ++ zeros 2 ++ toLe 4 1 ++ toLe 4 0 ++ toLe 1 0)) d {} s2)
        | _ => false) = true :=
  ⟨takes_of (by decide +kernel), by decide +kernel⟩

/-- Transfer 1 of tile 0 waits for its one part. -/
def stBulk : State := linkUp { stPage with
  tiles := [(0, { Tile.init with dmas := [{ dmaA with space := 2, bulk := some 1 }] })],
  zor := { stPage.zor with bulks := [{ tag := 1, tile := 0, parts := [0], restore := false }] } }

theorem witness_BulkTransfersComplete_answers (typ : Nat) (h : typ = 0x32 ∨ typ = 0x33) :
    let m := msgOf (toLe 2 typ ++ zeros 2 ++ toLe 4 1 ++ toLe 4 0 ++ toLe 1 0) (zeros 32)
    let id := some [m.src.toNat, leAt m.hdr 4 4, leAt m.hdr 8 4]
    let s1 := taken 0 typ id stBulk
    Takes typ m id 0 1 stBulk s1 ∧ (bulkOf s1 (bulkTag m) (bulkOffset m)).map (·.restore) = some false ∧
      (dmaOf (partDone (bulkTag m) (bulkOffset m) (bulkAcked 0x31 m s1)) 0 (bulkTag m)).isSome = true ∧ leAt m.hdr 12 1 ≠ 1 ∧
      ready (landPart 0 0 (slice m.body 0 32) false (partDone (bulkTag m) (bulkOffset m) (bulkAcked 0x31 m s1))) = true ∧
      ready (partDone (bulkTag m) (bulkOffset m) (bulkAcked 0x30 m s1)) = true := by
  rcases h with rfl | rfl <;> exact ⟨takes_of (by decide +kernel), by decide +kernel⟩

/-- A message whose identity has been recorded. -/
theorem witness_RepeatedMessageIsOnlyCounted :
    let m := bulkA 0x31
    let id := [m.src.toNat, bulkTag m, bulkOffset m]
    let s := taken 0 0x31 (some id) (linkUp stPage)
    (Instr.bulkRdreq m).msgRow = some m ∧ msgTyp m = 0x31 ∧ s.linked = true ∧ s.stk.counted = false ∧ (s.port m.port).up = true ∧ m.dst.toNat = s.addr ∧
      s.power.night = .none ∧ (s.jobs.find? fun p => decide (p.2.jobid = m.jobid.toNat)).map (·.1) = some 0 ∧ (s.session 0).state = .joined ∧
      m.enc = true ∧ m.tagOk = true ∧ (s.session 0).linkKey ≠ [] ∧ (msgFrame s m).isSome = true ∧ rankOf s 0 m.src.toNat = some 1 ∧
      takeIdent 0 (msgTyp m) id s = none := by decide +kernel

theorem witness_ForeignMessageIsDropped_type :
    let m := msgOf (toLe 2 0x7F) []
    let s := linkUp stPage
    (Instr.publish m).msgRow = some m ∧ s.linked = true ∧ s.stk.counted = false ∧ (s.port m.port).up = true ∧ m.dst.toNat = s.addr ∧ listedType (msgTyp m) = false ∧ m.enc = true ∧
      (msgFrame s m).isSome = true ∧ m.tagOk = true := by decide +kernel

theorem witness_ForeignMessageIsDropped_clear :
    let m := { msgOf (toLe 2 0x7F) [] with enc := false }
    listedType (msgTyp m) = false ∧ m.enc = false ∧ m.jobid.toNat ≠ 0 := by decide +kernel

theorem witness_ForeignMessageIsDropped_session :
    let m := bulkA 0x30
    let s := { linkUp stPage with adnt := { stPage.adnt with sessions := [(0, { Session.init with state := .open, jobid := 7 })] } }
    (Instr.bulkWr m).msgRow = some m ∧ s.linked = true ∧ s.stk.counted = false ∧ (s.port m.port).up = true ∧ m.dst.toNat = s.addr ∧ msgTyp m = 0x30 ∧
      s.power.night = .none ∧ (s.jobs.find? fun p => decide (p.2.jobid = m.jobid.toNat)).map (·.1) = some 0 ∧ m.enc = true ∧ (s.session 0).linkKey = [] ∧
      (s.session 0).state ≠ .joined ∧ (s.session 0).state ≠ .keyless := by decide +kernel

/-! ## The host port -/

theorem witness_HostPortAccessesComplete_link :
    stBase.dawn.powered = true ∧ (8#4).toNat ∈ [1, 2, 4, 8] ∧ (1 ≤ (1#4).toNat ∧ (7#4).toNat ≤ 7) := by decide +kernel

theorem witness_HostPortAccessesComplete_config :
    stBase.answers = true ∧ { stBase with now := 6399999999 }.now - stBase.dawn.t0 < 6400000000 ∧
      6400000000 ≤ { stBase with now := 6400000000 }.now - stBase.dawn.t0 := by decide +kernel

theorem witness_HostPortAccessesComplete_badAccess :
    let s := { stBase with dawn := { stBase.dawn with outcome := 0 } }
    s.answers = true ∧ s.served = false ∧ (2 ≠ 4 ∧ 2 ≠ 8) ∧ 4 % 8 ≠ 0 := by decide +kernel

/-- Queue 0 as `f` leaves an enabled one. -/
def stQueue (f : Queue → Queue) : State := setQueue 0 (f { Queue.init with en := true }) stBase

theorem witness_HostPortAccessesComplete_doorbell (t : Nat) (h : t ∈ [1, 1024]) :
    let s := stQueue id
    s.served = true ∧ (s.queue 0).en = true ∧ t = (BitVec.ofNat 32 t).toNat % slots ∧ t ≠ (s.queue 0).tail ∧
      ringDist t (s.queue 0).head ≤ (s.queue 0).credit ∧ ringDist (s.queue 0).tail (s.queue 0).head ≤ ringDist t (s.queue 0).head := by
  simp only [List.mem_cons, List.not_mem_nil, or_false] at h
  rcases h with rfl | rfl <;> decide +kernel

theorem witness_HostPortAccessesComplete_reread :
    let s := stQueue fun Q => { Q with tail := 1, rereads := some 0 }
    s.served = true ∧ (s.queue 0).en = true ∧ nightWaits s 0 = false ∧ (s.queue 0).rereads = some 0 := by decide +kernel

theorem witness_HostPortAccessesComplete_qcfg :
    let s := stBase
    let x := halfWrite (s.queue s.qsel).cfgWord true false 1
    let Q := (s.queue s.qsel).configure x s.limited false
    s.served = true ∧ (s.queue s.qsel).en = false ∧ bitOf x 0 = true ∧ Q.target ≠ 3 ∧ Q.seq ≠ 3 ∧ s.queues = [] := by decide +kernel

theorem witness_HostPortAccessesComplete_crhead :
    let s := stQueue fun Q => { Q with crHead := 65535 }
    s.served = true ∧ (s.queue 0).held = false ∧ 65536 = (s.queue 0).crHead + (0 + 65536 - (s.queue 0).crHead % 65536) % 65536 := by decide +kernel

/-- A HELD queue whose ring has space again. -/
theorem witness_HostPortAccessesComplete_unhold :
    let s := stQueue fun Q => { Q with held := true }
    let s1 := updQueue 0 (fun Q => { Q with crHead := Q.crHead + (0 + 65536 - Q.crHead % 65536) % 65536 }) s
    s.served = true ∧ (s.queue 0).held = true ∧ (s1.queue 0).ringFull = false := by decide +kernel

/-- A completion record that waits. -/
def cplA : Cpl :=
  { cid := 1, tag := 0, opcode := Op.JOB_END, alive := 0, intr := true, status := 0, nstat := 0, forced := false, susp := false, detail := 0,
    fstart := 5, fend := 5, chunks := 0, charged := 0, energy := 0, result := 0, job := 0 }

theorem witness_HostPortAccessesComplete_flush :
    let s := stQueue fun Q => { Q with flush := some cplA }
    s.served = true ∧ (s.queue 0).flush.isSome = true ∧ (s.queue 0).held = false := by decide +kernel

theorem witness_HostPortAccessesComplete_moderation :
    let s := stQueue fun Q => { Q with intrs := 1, modTime := 1 }
    s.live = true ∧ 0 < (s.queue 0).intrs ∧ 0 < (s.queue 0).modTime := by decide +kernel

/-- A write into the last slot of queue 0's window, and into its first. -/
theorem witness_IntakeWriteStoresItsBytes (off : BitVec 28) (h : off ∈ [0#28, 0x3FFFFC#28]) :
    let s := stQueue id
    s.served = true ∧ s.link.noflit = false ∧ Mem.wf s.intake 0 = true ∧ off.toNat + (zeros 4).length ≤ 2 ^ 28 ∧
      ∀ i < (zeros 4).length, intakeTakes s (off.toNat + i) = true := by
  simp only [List.mem_cons, List.not_mem_nil, or_false] at h
  rcases h with rfl | rfl <;> decide +kernel

/-! ## Jobs and data commands -/

/-- An admission record of job 7: this device alone, update tiles 0 and 4. -/
def admitRec : Bytes :=
  toLe 4 7 ++ toLe 4 1 ++ zeros 16 ++ toLe 2 1 ++ zeros 2 ++ toLe 1 2 ++ zeros 1 ++ toLe 2 32 ++ zeros 8 ++ toLe 2 32 ++ toLe 1 0 ++ toLe 1 4 ++
    zeros 28 ++ (toLe 4 0 ++ toLe 4 0x180000 ++ zeros 8) ++ zeros 48 ++ (toLe 4 0 ++ toLe 4 0x180000 ++ zeros 8) ++ zeros 48 ++
    zeros 8 ++ toLe 4 256 ++ toLe 4 512 ++ toLe 4 512 ++ zeros 36 ++ toLe 2 5

/-- A command with that payload. -/
def loadCmd (op : Nat) (o p : Bytes) : Cmd := { cmdOf op o with payload := p }

/-- The session of job 0 open and the job not resident yet; tiles 0 and 4 present. -/
def stAdmitJob : State := withCmd (loadCmd Op.JOB_ADMIT [] admitRec) { stBase with
  jobs := [], tiles := [(0, Tile.init), (4, { Tile.init with die := 1 })],
  adnt := { stBase.adnt with sessions := [(0, { Session.init with state := .open, jobid := 7 })] } }

theorem witness_JobCommandsComplete_admit :
    runnable 0 Op.JOB_ADMIT stAdmitJob = some (loadCmd Op.JOB_ADMIT [] admitRec) ∧
      admitStatus (started 0 stAdmitJob) (loadCmd Op.JOB_ADMIT [] admitRec) = St.OK := by decide +kernel

theorem witness_JobCommandsComplete_endAndSwitch :
    let c := cmdOf Op.JOB_END []
    let s := withCmd c stBase
    let c' := cmdOf Op.CTX_SWITCH (toLe 8 1 ++ toLe 6 9)
    Accepted 0 Op.JOB_END s c ∧ ((started 0 s).job? c.job).bind (·.ending) = none ∧ Accepted 0 Op.CTX_SWITCH (withCmd c' stBase) c' :=
  ⟨accepted_of (by decide +kernel) (by decide +kernel), by decide +kernel, accepted_of (by decide +kernel) (by decide +kernel)⟩

/-- SUSPEND, RESUME or CANCEL of the one command of queue 1, which has life `l`. -/
def trioCmd (op : Nat) : Cmd := cmdOf op (toLe 1 0 ++ toLe 1 1 ++ zeros 6)
def stTrio (op : Nat) (l : Life) : State :=
  setQueue 1 { Queue.init with en := true, target := 1, cmds := [{ tileRunCmd 0 with cid := 2, life := l }] } (withCmd (trioCmd op) stBase)

theorem witness_JobCommandsComplete_suspend (l : Life) (h : l ∈ [.head, .running]) :
    TrioAccepted 0 Op.SUSPEND (stTrio Op.SUSPEND l) (trioCmd Op.SUSPEND) ∧
      trioTargets (started 0 (stTrio Op.SUSPEND l)) (trioCmd Op.SUSPEND) ≠ [] := by
  simp only [List.mem_cons, List.not_mem_nil, or_false] at h
  rcases h with rfl | rfl <;> exact ⟨⟨⟨by decide +kernel, by decide +kernel⟩, by decide +kernel⟩, by decide +kernel⟩

theorem witness_JobCommandsComplete_resume :
    let s := stTrio Op.RESUME .suspended
    let c := trioCmd Op.RESUME
    TrioAccepted 0 Op.RESUME s c ∧ c.opnd 0 1 ≠ 1 ∧ (started 0 s).lost = false ∧ c.inLost = false ∧
      (trioTargets (started 0 s) c).filter (fun p => decide (p.2.life = .suspended)) ≠ [] :=
  ⟨⟨⟨by decide +kernel, by decide +kernel⟩, by decide +kernel⟩, by decide +kernel⟩

theorem witness_JobCommandsComplete_cancel :
    let s := stTrio Op.CANCEL .running
    let c := trioCmd Op.CANCEL
    TrioAccepted 0 Op.CANCEL s c ∧ trioTargets (started 0 s) c ≠ [] ∧
      (trioTargets (started 0 s) c).any (fun p => !p.2.runs || isWork p.2.opcode) = true :=
  ⟨⟨⟨by decide +kernel, by decide +kernel⟩, by decide +kernel⟩, by decide +kernel⟩

theorem witness_JobCommandsComplete_dataIn :
    let c := loadCmd Op.DATA_IN (toLe 8 0 ++ toLe 4 32) (zeros 32)
    let s := withCmd c (withDraws stPage)
    Accepted 0 Op.DATA_IN s c ∧ 1 ≤ c.opnd 8 4 ∧ c.opnd 8 4 ≤ c.body.length ∧
      (match rangeWrite c.job (c.opnd 0 8) (c.body.take (c.opnd 8 4)) (started 0 (unused s)) with
        | .ok [] s2 => ready (consume 0 c.cid (endHead 0 St.OK 0 0 s2))
        | _ => false) = true :=
  ⟨⟨by decide +kernel, by decide +kernel⟩, by decide +kernel⟩

theorem witness_JobCommandsComplete_copy :
    let c := cmdOf Op.COPY (toLe 8 0 ++ toLe 8 4096 ++ toLe 8 32)
    let s := withCmd c (withDraws stPage)
    Accepted 0 Op.COPY s c ∧ 1 ≤ c.opnd 16 8 ∧ c.opnd 16 8 ≤ 2 ^ 40 ∧
      (match rangeRead c.job (c.opnd 0 8) (c.opnd 16 8) (started 0 (unused s)) with
        | .ok d [] s2 => (match rangeWriteP c.job (c.opnd 8 8) d (fun _ => false) s2 with | .ok [] s3 => ready (endHead 0 St.OK 0 0 s3) | _ => false)
        | _ => false) = true :=
  ⟨accepted_of (by decide +kernel) (by decide +kernel), by decide +kernel⟩

theorem witness_JobCommandsComplete_work :
    let c := cmdOf Op.WALK []
    let w := setQueue 0 { Queue.init with en := true, target := 2, cmds := [c] } stBase
    (stAdmit 0).clocked = true ∧ ((stAdmit 0).queue 0).en = true ∧ ((stAdmit 0).queue 0).target = 1 ∧
      w.clocked = true ∧ (w.queue 0).en = true ∧ (w.queue 0).target = 2 ∧ headOf w 0 = some c := by decide +kernel

/-! ## The exporter and self-test -/

/-- Rank 1 as keeper with a region of 64 MiB. -/
def keeperBytes : Bytes := toLe 2 1 ++ toLe 2 1 ++ toLe 6 0 ++ toLe 6 (64 * 2 ^ 20)
def keeperA : Keeper := keeperOf keeperBytes

theorem witness_ExportCommandsComplete_set :
    let c := cmdOf Op.EXPORT_SET (toLe 1 1 ++ toLe 1 2 ++ toLe 2 16 ++ toLe 4 16 ++ zeros 8 ++ keeperBytes)
    let s1 := started 0 (withCmd c stBase)
    let ks := (List.range (c.opnd 0 1)).map (fun i => keeperOf (c.opndBytes (16 + 16 * i) 16))
    Accepted 0 Op.EXPORT_SET (withCmd c stBase) c ∧ s1.job? c.job = some jobA ∧ ks = [keeperA] ∧ c.opnd 0 1 ≤ 2 ∧ 2 ≤ c.opnd 1 1 ∧ c.opnd 1 1 ≤ 64 ∧
      16 ≤ c.opnd 2 2 ∧ c.opnd 2 2 ≤ 1024 ∧ 16 ≤ c.opnd 4 4 ∧ c.opnd 4 4 ≤ 1024 ∧ ks.all (keeperOk s1 c.job jobA) = true ∧
      sweepBusy s1 c.job = false :=
  ⟨accepted_of (by decide +kernel) (by decide +kernel), by decide +kernel⟩

theorem witness_ExportCommandsComplete_region :
    let c := cmdOf Op.KEEP_REGION (toLe 2 1 ++ toLe 6 0 ++ toLe 6 (64 * 2 ^ 20))
    Accepted 0 Op.KEEP_REGION (withCmd c stBase) c ∧ (started 0 (withCmd c stBase)).job? c.job = some jobA ∧ c.opnd 0 2 < jobA.ndev ∧
      c.opnd 0 2 ≠ jobA.rank ∧ regionLeast (c.opnd 8 6) = true ∧ c.opnd 2 6 + c.opnd 8 6 ≤ rangeBytes :=
  ⟨accepted_of (by decide +kernel) (by decide +kernel), by decide +kernel⟩

theorem witness_ExportCommandsComplete_base :
    let c := cmdOf Op.EXPORT_BASE []
    Accepted 0 Op.EXPORT_BASE (withCmd c stBase) c ∧ sweepBusy (started 0 (withCmd c stBase)) c.job = false :=
  ⟨accepted_of (by decide +kernel) (by decide +kernel), by decide +kernel⟩

theorem witness_ExportCommandsComplete_restore :
    let c := cmdOf Op.RESTORE (toLe 2 0 ++ toLe 2 1 ++ toLe 4 1 ++ toLe 8 0 ++ toLe 8 (64 * 2 ^ 20))
    let s1 := started 0 (withCmd c stBase)
    Accepted 0 Op.RESTORE (withCmd c stBase) c ∧ s1.job? c.job = some jobA ∧ (s1.session c.job).state = .joined ∧ c.opnd 0 2 = jobA.rank ∧
      c.opnd 2 1 ≤ 1 ∧ (c.opnd 4 2 < jobA.ndev ∧ c.opnd 4 2 ≠ jobA.rank) ∧ regionOk (c.opnd 16 8) = true ∧ c.opnd 8 8 + c.opnd 16 8 ≤ rangeBytes ∧
      othersSuspended s1 c = true :=
  ⟨accepted_of (by decide +kernel) (by decide +kernel), by decide +kernel⟩

theorem witness_ExportCommandsComplete_rankMove :
    let c := cmdOf Op.RANK_MOVE (toLe 2 1 ++ toLe 2 9)
    let s := withCmd c (withDraws stBase)
    let s1 := started 0 s
    let s2 := moveSlots c.job (c.opnd 0 2) jobA (moveFlows c.job (c.opnd 0 2)
        (updJob c.job (fun x => { x with ranks := x.ranks.set (c.opnd 0 2) (c.opnd 2 2) }) (started 0 (unused s))))
    let s3 := s2.emb.tables.foldl (fun s p => moveCloses c.job (c.opnd 0 2) p.1 s) s2
    Accepted 0 Op.RANK_MOVE s c ∧ s1.job? c.job = some jobA ∧ c.opnd 0 2 < jobA.ndev ∧ c.opnd 0 2 ≠ jobA.rank ∧
      othersSuspended s1 c = true ∧
      ready (endHead 0 St.OK 0 0 (s3.dtr.layers.foldl (fun s p => if p.1 / 65536 = c.job then moveLayer c.job (p.1 % 65536) s else s) s3)) = true :=
  ⟨accepted_of (by decide +kernel) (by decide +kernel), by decide +kernel⟩

/-- The region of rank 1's log, with the frames `f` held, on a device linked to it; page 0 is mapped. -/
def regionA (f : List (Nat × Nat × Nat × Bool)) : KeepRegion := { job := 0, src := 1, addr := 0, bytes := 64 * 2 ^ 20, frames := f }
def stKeep (f : List (Nat × Nat × Nat × Bool)) : State := withDraws <| linkUp { stPage with dlx := { stPage.dlx with regions := [regionA f] } }

theorem witness_ExportCommandsComplete_rec :
    let m := msgOf (toLe 2 0x70) []
    let id := some [m.src.toNat, leAt m.hdr 4 6, leAt m.hdr 10 4]
    Takes 0x70 m id 0 1 (stKeep []) (taken 0 0x70 id (stKeep [])) ∧ regionOf (taken 0 0x70 id (stKeep [])) 0 1 = some (regionA []) ∧
      ready (updRegion 0 1 (fun y => { y with
        frames := y.frames.filter (fun y => decide (y.1 ≠ (keptFrame (regionA []) 0).1)) ++ [((keptFrame (regionA []) 0).1, 1, 0, false)] })
        (keepEntry 0 (regionA []) m (taken 0 0x70 id (stKeep []))).2) = true :=
  ⟨takes_of (by decide +kernel), by decide +kernel⟩

theorem witness_ExportCommandsComplete_close :
    let m := msgOf (toLe 2 0x71 ++ zeros 8 ++ toLe 4 1) []
    let id := some [m.src.toNat, leAt m.hdr 4 6]
    let s := stKeep [(0, 1, 0, false)]
    let k := regionA [(0, 1, 0, false)]
    Takes 0x71 m id 0 1 s (taken 0 0x71 id s) ∧ regionOf (taken 0 0x71 id s) 0 1 = some k ∧ (keepEntry 0 k m (taken 0 0x71 id s)).1 = true ∧
      (keptFrame k (leAt m.hdr 4 6)).2 = (leAt m.hdr 10 4, leAt m.hdr 14 8, false) ∧
      ready (sendTo 0 6 2 (dlxAckHdr 0 0) [] {} (updRegion 0 1 (fun k => { k with frames := k.frames.filter fun y => decide (y.1 ≠ 0) })
        (keepEntry 0 k m (taken 0 0x71 id s)).2)) = true :=
  ⟨takes_of (by decide +kernel), by decide +kernel⟩

/-- Job 0 exports to that keeper. -/
def stExport (k : Keeper) : State := linkUp { stBase with dlx := { stBase.dlx with jobs := [(0, { DlxJob.init with keepers := [k] })] } }

theorem witness_ExportCommandsComplete_ack :
    let m := msgOf (toLe 2 0x72) []
    let s := withDraws (stExport keeperA)
    let a := protoAck m.src.toNat (fun t => decide (leAt t.hdr 0 2 = 0x71) && decide (leAt t.hdr 4 6 = leAt m.hdr 4 6)) (unused s)
    Takes 0x72 m none 0 1 s (unused s) ∧ leAt m.hdr 10 1 = 0 ∧
      (((Tbl.look? s.dlx.jobs 0).bind fun d => d.keepers.findIdx? fun x => decide (x.kind = 1) && decide (x.rank = 1) && !x.lost) = some 0) ∧
      ((takeIdent 0 0x72 [m.src.toNat, leAt m.hdr 4 6] a).map fun t2 => ready (dlxPump 0 (dlxAcked 0 0 (leAt m.hdr 4 6) t2))) = some true :=
  ⟨takes_of (by decide +kernel), by decide +kernel⟩

theorem witness_ExportCommandsComplete_timeout :
    let d := { DlxJob.init with keepers := [keeperA] }
    let s0 := stExport keeperA
    let s := { s0 with clk := { s0.clk with fnum := 2000 } }
    Tbl.look? s.dlx.jobs 0 = some d ∧ d.keepers[0]? = some keeperA ∧ s.clocked = true ∧ keeperA.lost = false ∧
      keeperA.since + d.keepTo ≤ s.clk.fnum := by decide +kernel

theorem witness_ExportCommandsComplete_khead :
    let y := { keeperA with kind := 2 }
    let s := stExport y
    s.served = true ∧ ((Tbl.look? s.dlx.jobs s.dlxSel.1).bind fun d => d.keepers[s.dlxSel.2]?) = some y ∧ y.kind = 2 := by decide +kernel

theorem witness_ExportCommandsComplete_draws :
    let s := { stBase with now := 64020000, ledger := { stBase.ledger with holds := [(.exporter, 4)], held := 4 } }
    let u := runUntil ((s.dlx.sentAt : Nat) + 64000) s
    s.live = true ∧ holds .exporter s = true ∧ u.live = true ∧ holds .exporter u = true ∧
      u.dlx.sentAt + 64000 ≤ u.now ∧ asking .exporter u = false := by decide +kernel

/-- SELFTEST of channel 3. -/
def selfCmd : Cmd := cmdOf Op.SELFTEST (toLe 2 3 ++ toLe 2 3 ++ zeros 12)

theorem witness_ExportCommandsComplete_selftest :
    let s := withCmd selfCmd stBase
    runnable 0 Op.SELFTEST s = some selfCmd ∧ ((selfTestOf 0 selfCmd).map (·.kind)) = some 3 ∧ (started 0 s).flt.selftest = none := by decide +kernel

/-- A step of walker 3's local memory in the slice, and one of channel 3 whose turn the stack has taken up. -/
theorem witness_ExportCommandsComplete_selftestStep (kind : Nat) (h : kind = 2 ∨ kind = 3) :
    let t := (selfTestOf 0 (cmdOf Op.SELFTEST (toLe 2 kind ++ toLe 2 3 ++ zeros 12))).map fun t => { t with armed := true }
    let s := { stSlice with
      now := if kind = 3 then 63715840 else stSlice.now, flt := { stSlice.flt with selftest := t }, stk := { stSlice.stk with test := some 3 },
      clk := { stSlice.clk with sliceDone := true } }
    let u := runUntil (s.atPos (stepAt s)) s
    (t.map (·.kind)) = some kind ∧ stepReady s = true ∧ stepReady u = true ∧ stepAt u ≤ u.pos := by
  rcases h with rfl | rfl <;> decide +kernel

/-! ## Power -/

/-- PWR_STATE to state `t` at once, at the head of queue 0. -/
def pwrCmd (t : Nat) : Cmd := cmdOf Op.PWR_STATE (toLe 8 t ++ toLe 6 0)

theorem witness_PowerCommandsComplete_state (t : Nat) (h : t ∈ [0, 1, 2, 3]) :
    let s := withCmd (pwrCmd t) stBase
    runnable 0 Op.PWR_STATE s = some (pwrCmd t) ∧ pwrRefusal ((pwrCmd t).opnd 0 1) (started 0 s).power.hold = none ∧
      heldByPower (pwrCmd t).cid (started 0 s) = false ∧ (started 0 s).power.night = .none ∧
      (t = 0 → targetState ((pwrCmd t).opnd 0 1) = .noon ∧ PState.noon = (started 0 s).power.state) ∧
      (t = 1 → targetState ((pwrCmd t).opnd 0 1) = .evening ∧ PState.evening ≠ (started 0 s).power.state) ∧
      (2 ≤ t → targetState ((pwrCmd t).opnd 0 1) = .night ∨ targetState ((pwrCmd t).opnd 0 1) = .off) := by
  simp only [List.mem_cons, List.not_mem_nil, or_false] at h
  rcases h with rfl | rfl | rfl | rfl <;> decide +kernel

theorem witness_PowerCommandsComplete_limits :
    let c := cmdOf Op.PWR_LIMITS (toLe 2 800 ++ toLe 2 800 ++ toLe 2 1300 ++ toLe 4 0 ++ toLe 1 104)
    runnable 0 Op.PWR_LIMITS (withCmd c stBase) = some c ∧
      limitsOf c = some { noon := 800, eve := 800, plimit := 1300, gov := 0, tsoft := 104 } := by decide +kernel

/-- A Dusk of command 1 since frame 4. -/
def duskA : Dusk := { target := .night, queue := 0, cid := 1, first := some 4, frames := 0, ended := false }

theorem witness_PowerCommandsComplete_dusk :
    let s := { stBase with power := { stBase.power with dusk := some duskA } }
    s.power.dusk = some duskA ∧ duskA.first = some 4 ∧ s.clocked = true ∧ s.clk.stepsDone = true ∧ s.pos ≤ 256 ∧ duskA.ended = false ∧
      duskBusy s = false := by decide +kernel

/-- The device in step `n` of Night, its core rail at address 0x40. -/
def stNight (n : NightStep) : State := { stBase with
  power := { stBase.power with night := n, wake := some { target := .evening, latest := .evening, queue := 0, cid := 1 } },
  dawn := { stBase.dawn with man := { stBase.dawn.man with rails := [⟨0x40, 1⟩, ⟨0x41, 2⟩] } } }

theorem witness_PowerCommandsComplete_night :
    (stNight .lowering).live = true ∧ (stNight .lowering).power.night = .lowering ∧ coreRail (stNight .lowering) = some (0, ⟨0x40, 1⟩) ∧
      (stNight .raising).live = true ∧ (stNight .raising).power.night = .raising := by decide +kernel

theorem witness_PowerCommandsComplete_wake :
    let s0 := stNight .waking
    let s := { s0 with ledger := { s0.ledger with holds := [(.topUp, 120)], held := 120 } }
    let w : Wake := { target := .evening, latest := .evening, queue := 0, cid := 1 }
    s.power.wake = some w ∧ s.live = true ∧ s.power.night = .waking ∧ holds .topUp s = true ∧ asking .topUp s = false ∧
      standingFor (decide (w.final = .noon)) s ≤ heldBy .topUp s ∧ w.latest = w.final := by decide +kernel

theorem witness_PowerCommandsComplete_thermal :
    stBase.dawn.powered = true ∧ stBase.answers = true ∧ stBase.pins.thermtrip = false ∧ stBase.pins.pwrdn = false ∧ stBase.flt.fatal = false ∧
      115 ≤ max (115#8).toNat (max (0#8).toNat (0#8).toNat) ∧
      max (69#8).toNat (max (0#8).toNat (0#8).toNat) < stBase.power.limits.tsoft ∧ max (69#8).toNat (max (0#8).toNat (0#8).toNat) < 100 := by
  decide +kernel

/-- A rail that is the core rail, and one that is not. -/
theorem witness_PowerCommandsComplete_poll (k : Fin 8) (h : k ∈ [(0 : Fin 8), 1]) :
    let s := stNight .none
    s.live = true ∧ s.dawn.outcome ≠ 0 ∧ (s.dawn.man.rails.getD k ⟨0, 0⟩).addr ≠ 0 ∧
      ((s.dawn.man.rails.getD k ⟨0, 0⟩).role = 1 ↔ k = 0) ∧ (Tbl.look s.power.rails k Rail.init).linear = true := by
  simp only [List.mem_cons, List.not_mem_nil, or_false] at h
  rcases h with rfl | rfl <;> decide +kernel

/-- A first failed poll, and a third in a row. -/
theorem witness_PowerCommandsComplete_pollFails :
    let s := stNight .none
    (Tbl.look s.power.rails 1 Rail.init).misses ≠ 2 ∧
      (Tbl.look { s with power := { s.power with rails := [(1, { Rail.init with misses := 2 })] } }.power.rails 1 Rail.init).misses = 2 := by
  decide +kernel

/-! ## Security

What a signature, a decryption or a read-back of the NVM answers is a free value of Config, so the witnesses of a clause that asks one of
them take that answer as their only hypothesis. -/

/-- The command `c` at the head of queue 0, a SYSTEM queue. -/
def systemCmd (c : Cmd) (s : State) : State := setQueue 0 { Queue.init with en := true, system := true, cmds := [c] } s

/-- The boot key ready and the identity valid. -/
def stKeys : State := { stBase with adnt := { stBase.adnt with bekReady := true, idValid := true, debug := 1 } }

theorem witness_SecurityCommandsComplete_attest :
    let c := cmdOf Op.ATTEST (zeros 32 ++ toLe 8 4096)
    let s := withCmd c stKeys
    SecureAccepted 0 Op.ATTEST s c ∧ (started 0 s).lc ≠ .retired ∧ c.opnd 32 8 % 4096 = 0 ∧ (started 0 s).adnt.bekReady = true :=
  ⟨⟨by decide +kernel, by decide +kernel⟩, by decide +kernel⟩

/-- Before the boot key is ready both wait. -/
theorem witness_SecurityCommandsComplete_wait (op : Nat) (h : op ∈ [Op.ATTEST, Op.SESSION_OPEN]) :
    let c := loadCmd op (zeros 32 ++ toLe 8 4096) (zeros 896)
    let s := systemCmd c { stKeys with jobs := [], adnt := { stKeys.adnt with bekReady := false } }
    SecureAccepted 0 op s c ∧ (started 0 s).lc ≠ .retired ∧ c.opnd 32 8 % 4096 = 0 ∧ (started 0 s).adnt.bekReady = false := by
  simp only [List.mem_cons, List.not_mem_nil, or_false] at h
  rcases h with rfl | rfl <;> exact ⟨⟨by decide +kernel, by decide +kernel⟩, by decide +kernel⟩

theorem witness_SecurityCommandsComplete_session :
    let c := loadCmd Op.SESSION_OPEN [] (zeros 896)
    let s := systemCmd c { stKeys with jobs := [], adnt := { stKeys.adnt with sessions := [] } }
    SecureAccepted 0 Op.SESSION_OPEN s c ∧ (started 0 s).lc ≠ .retired ∧ (started 0 s).adnt.bekReady = true ∧
      ((started 0 s).session (c.opnd 0 1 % 64)).state = .none := ⟨⟨by decide +kernel, by decide +kernel⟩, by decide +kernel⟩

/-- A slice behind `a` of a string that goes on with `b`. -/
theorem slice_mid (a b c : Bytes) (n m : Nat) (hn : a.length = n) (hm : b.length = m) : slice (a ++ (b ++ c)) n m = b := by
  subst hn hm
  refine List.ext_getElem (by simp [slice]) fun i h1 h2 => ?_
  simp [slice, byteAt, List.getElem?_append_right, List.getElem?_append_left h2, List.getElem?_eq_getElem h2]

/-- Bytes inside the first of two parts. -/
theorem slice_left (a b : Bytes) (o n : Nat) (h : o + n ≤ a.length) : slice (a ++ b) o n = slice a o n := by
  refine List.map_congr_left fun i hi => ?_
  have : o + i < a.length := by have := List.mem_range.mp hi; omega
  simp [byteAt, List.getElem?_append_left this]

theorem toLe_length (n v : Nat) : (toLe n v).length = n := by
  induction n generalizing v with
  | zero => rfl
  | succ n ih => simp [toLe, ih]

/-- A grant of slot 0 for job 0 with policy 5 and GCTR 1, the boot nonce zeros, the device `d`. -/
def grantA (d : Bytes) : Bytes := (zeros 3 ++ [5] ++ zeros 4 ++ toLe 8 1 ++ zeros 32) ++ (d ++ zeros 816)

/-- That grant passes every check once the signature verifies. -/
theorem grant_of (s : State) (hv : Config.rsaVerify [] ((grantA s.idDig).take 512) (slice (grantA s.idDig) 512 384) = true)
    (ho : Tbl.look? s.adnt.owners 0 = some []) (hn : slice s.adnt.bootNonce 0 32 = zeros 32) (hg : Tbl.look? s.adnt.gctr 0 = none)
    (hl : s.lc = .manufacture) (hs : s.adnt.sealOk = true) (hd : s.adnt.debug = 1) : grantStatus 0 (grantA s.idDig) (some (zeros 32)) s = 0 := by
  have e : slice (grantA s.idDig) 48 32 = s.idDig := slice_mid _ _ _ _ _ rfl (toLe_length _ _)
  have l : ∀ o n, o + n ≤ 48 → slice (grantA s.idDig) o n = slice (zeros 3 ++ [5] ++ zeros 4 ++ toLe 8 1 ++ zeros 32) o n := fun o n h => slice_left _ _ _ _ h
  have f : ∀ o n, o + n ≤ 48 → leAt (grantA s.idDig) o n = leAt (zeros 3 ++ [5] ++ zeros 4 ++ toLe 8 1 ++ zeros 32) o n := fun o n h => congrArg le (l o n h)
  simp only [grantStatus]
  rw [e, l 16 32 (by decide), f 8 8 (by decide), f 0 2 (by decide), f 2 1 (by decide), f 3 1 (by decide)]
  rw [show slice (zeros 3 ++ [5] ++ zeros 4 ++ toLe 8 1 ++ zeros 32) 16 32 = zeros 32 by decide +kernel, show leAt (zeros 3 ++ [5] ++ zeros 4 ++ toLe 8 1 ++ zeros 32) 8 8 = 1 by decide +kernel,
    show leAt (zeros 3 ++ [5] ++ zeros 4 ++ toLe 8 1 ++ zeros 32) 0 2 = 0 by decide +kernel, show leAt (zeros 3 ++ [5] ++ zeros 4 ++ toLe 8 1 ++ zeros 32) 2 1 = 0 by decide +kernel, show leAt (zeros 3 ++ [5] ++ zeros 4 ++ toLe 8 1 ++ zeros 32) 3 1 = 5 by decide +kernel]
  simp [ho, hv, hn, hg, hl, hs, hd, show (zeros 32).length = 32 from rfl, show bitOf 5 2 = true from rfl, show permits 5 1 = true from rfl]

def stGrant : State := { stKeys with adnt := { stKeys.adnt with owners := [(0, [])], bootNonce := zeros 32, sealOk := true } }

theorem witness_SecurityCommandsComplete_grant
    (hv : Config.rsaVerify [] ((grantA stGrant.idDig).take 512) (slice (grantA stGrant.idDig) 512 384) = true) :
    grantStatus 0 (grantA stGrant.idDig) (some (zeros 32)) stGrant = 0 :=
  grant_of stGrant hv (by decide +kernel) (by decide +kernel) (by decide +kernel) (by decide +kernel) (by decide +kernel) (by decide +kernel)

/-- In Manufacture a request is signed by a vendor key that is not revoked. -/
theorem signed_of {s : State} {msg sig : Bytes} (hl : s.lc = .manufacture) (hr : bitOf s.adnt.rb.revMask 0 = false)
    (h : Config.signedBy (Config.vendorDigest 0) msg sig = true) : requestSigned s msg sig = true := by
  rw [requestSigned, if_pos hl]
  exact List.any_eq_true.mpr ⟨0, by decide, by rw [hr, h]; rfl⟩

/-- KEY_REGISTER with OPCTR 1, the boot nonce, the slot and the key zeros; and a debug unlock of level 1. -/
def keyReq : Bytes := (toLe 4 0 ++ toLe 4 1 ++ zeros 440) ++ (zeros 384 ++ [])
def presReq : Bytes := (toLe 4 1 ++ zeros 32 ++ [1, 1] ++ zeros 474) ++ (zeros 384 ++ [])

theorem witness_SecurityCommandsComplete_key (h : Config.signedBy (Config.vendorDigest 0) (keyReq.take 448) (slice keyReq 448 384) = true) :
    let c := loadCmd Op.KEY_REGISTER [] keyReq
    let s := withCmd c { stKeys with adnt := { stKeys.adnt with bootNonce := zeros 32 } }
    SecureAccepted 0 Op.KEY_REGISTER s c ∧ c.body = keyReq ∧ (started 0 s).lc ≠ .retired ∧
      requestSigned (started 0 s) (keyReq.take 448) (slice keyReq 448 384) = true ∧
      requestFresh (started 0 s) (leAt keyReq 4 4) (slice keyReq 8 32) = true ∧ leAt keyReq 0 2 < 1024 :=
  ⟨⟨by decide +kernel, by decide +kernel⟩, by decide +kernel, by decide +kernel, signed_of (by decide +kernel) (by decide +kernel) h, by decide +kernel, by decide +kernel⟩

theorem witness_SecurityCommandsComplete_presence
    (h : Config.signedBy (Config.vendorDigest 0) (presReq.take 512) (slice presReq 512 384) = true) :
    let c := loadCmd Op.PRES_REQUEST [1, 1] presReq
    let s := systemCmd c { stKeys with
      dawn := { stKeys.dawn with man := { stKeys.dawn.man with dbgMax := 2 } }, jobs := [],
      adnt := { stKeys.adnt with bootNonce := zeros 32 } }
    SecureAccepted 0 Op.PRES_REQUEST s c ∧ (started 0 s).adnt.window = none ∧ c.opnd 0 1 = 1 ∧ c.opnd 1 1 = 1 ∧ (started 0 s).lc ≠ .retired ∧
      c.body = presReq ∧ presAuth 1 1 presReq (started 0 s) = 0 ∧ presObject 1 1 (slice presReq 38 32) [] (started 0 s) = 0 := by
  have hs : ∀ s : State, s.lc = .manufacture → bitOf s.adnt.rb.revMask 0 = false → requestFresh s 1 (zeros 32) = true → presAuth 1 1 presReq s = 0 := by
    intro s hl hr hf
    rw [presAuth, if_neg (by rw [hl]; decide), signed_of hl hr h, show leAt presReq 0 4 = 1 by decide +kernel,
      show slice presReq 4 32 = zeros 32 by decide +kernel, show leAt presReq 36 1 = 1 by decide +kernel,
      show leAt presReq 37 1 = 1 by decide +kernel, hf]
    rfl
  exact ⟨⟨by decide +kernel, by decide +kernel⟩, by decide +kernel, by decide +kernel, by decide +kernel, by decide +kernel, by decide +kernel,
    hs _ (by decide +kernel) (by decide +kernel) (by decide +kernel), by decide +kernel⟩

/-- A debug unlock of level 1 waits for presence since instant 0, the pin held since `hold`; it is second `n`. -/
def windowA (hold : Option Nat) : PresWindow := { op := 1, arg := 1, queue := 0, cid := 1, obj := [], out := 0, since := 0, hold := hold }
def stWindow (hold : Option Nat) (n : Nat) : State := { stKeys with now := seconds n, adnt := { stKeys.adnt with window := some (windowA hold) } }

/-- A hold from the 28th to the 30th second is long enough. -/
theorem witness_SecurityCommandsComplete_window :
    let s := stWindow (some (seconds 28)) 30
    s.adnt.window = some (windowA (some (seconds 28))) ∧ s.live = true ∧ seconds 28 + seconds 2 ≤ (windowA (some (seconds 28))).since + seconds 30 ∧
      seconds 28 + seconds 2 ≤ s.now := by decide +kernel

/-- A pin not held, and one held since a picosecond later. -/
theorem witness_SecurityCommandsComplete_timeout (hold : Option Nat) (h : hold ∈ [none, some (seconds 28 + 1)]) :
    let s := stWindow hold 30
    s.adnt.window = some (windowA hold) ∧ s.live = true ∧ (windowA hold).since + seconds 30 ≤ s.now ∧
      ∀ h, (windowA hold).hold = some h → (windowA hold).since + seconds 30 < h + seconds 2 := by
  simp only [List.mem_cons, List.not_mem_nil, or_false] at h
  rcases h with rfl | rfl
  · exact ⟨by decide +kernel, by decide +kernel, by decide +kernel, by simp [windowA]⟩
  · refine ⟨by decide +kernel, by decide +kernel, by decide +kernel, fun h hh => ?_⟩
    simp only [windowA, Option.some.injEq] at hh
    subst hh
    decide +kernel

/-- Without a key to sign with the rollback record changes at once. -/
theorem witness_SecurityCommandsComplete_qualified :
    let s := stWindow (some (seconds 28)) 30
    ∃ t, presEffect (windowA (some (seconds 28))) { s with adnt := { s.adnt with window := none } } = (true, t) :=
  ⟨_, Prod.ext (show _ = true by decide +kernel) rfl⟩

theorem witness_SecurityCommandsComplete_lock :
    let c := cmdOf Op.DEBUG_LOCK [0]
    let s := withCmd c stKeys
    s.answers = true ∧ SecureAccepted 0 Op.DEBUG_LOCK s c ∧ c.opnd 0 1 < (started 0 s).adnt.debug :=
  ⟨by decide +kernel, ⟨by decide +kernel, by decide +kernel⟩, by decide +kernel⟩

theorem witness_SecurityCommandsComplete_cert (h : Config.certKey [0x30, 2, 0, 0] = some stKeys.adnt.idMod) (hf : (Config.free 0).toNat % 2 = 0) :
    let c := loadCmd Op.CERT_INSTALL [] [0x30, 2, 0, 0]
    let s := withCmd c stKeys
    SecureAccepted 0 Op.CERT_INSTALL s c ∧ (started 0 s).adnt.idValid = true ∧
      Config.certKey (c.body.take (min 4096 (derLength c.body))) = some (started 0 s).adnt.idMod ∧ ∃ t, nvmGood (started 0 s) = (true, t) := by
  refine ⟨⟨by decide +kernel, by decide +kernel⟩, by decide +kernel, ?_, ⟨(nvmGood (started 0 (withCmd (loadCmd Op.CERT_INSTALL [] [0x30, 2, 0, 0]) stKeys))).2, ?_⟩⟩
  · rw [show (loadCmd Op.CERT_INSTALL [] [0x30, 2, 0, 0]).body.take (min 4096 (derLength (loadCmd Op.CERT_INSTALL [] [0x30, 2, 0, 0]).body)) =
      [0x30, 2, 0, 0] by decide +kernel, h]
    decide +kernel
  · exact Prod.ext (by
      show ((Config.free 0).toNat % 2 == 0) = true
      rw [hf]; rfl) rfl

theorem witness_SecurityCommandsComplete_bekAndSeal :
    let s := { stKeys with adnt := { stKeys.adnt with bekReady := false } }
    let l := { stKeys with adnt := { stKeys.adnt with rb := { stKeys.adnt.rb with lc := .deployed } } }
    let m := { l with adnt := { l.adnt with sealMiss := 1, sealOk := true } }
    s.live = true ∧ s.adnt.idValid = true ∧ s.adnt.bekReady = false ∧ sealOn l = true ∧ sealOn m = true ∧ (!m.adnt.sealBit) ≠ m.adnt.sealBit ∧
      m.adnt.sealMiss = 1 ∧ m.adnt.sealOk = true := by decide +kernel

/-! ## Joining and the debug port -/

/-- A clear message of device 6 for no job. -/
def joinMsg (hdr body : Bytes) : Msg := { msgOf hdr body with jobid := 0, enc := false }

/-- The device linked, job 0 joining under rank 0. -/
def stJoin : State := linkUp { stBase with
  jobs := [(0, { jobA with ranks := [6, 5], rank := 1 })],
  adnt := { stBase.adnt with sessions := [(0, { Session.init with state := .joining, jobid := 7 })] } }

/-- JOIN_REQ, carried out whole; JOIN_ACK, of which whether the report passes rests on a certificate and a signature, free values of Config. -/
theorem witness_JoinAndDebugComplete_messages (typ : Nat) (h : typ ∈ [0x80, 0x81]) :
    let m := joinMsg (toLe 2 typ ++ toLe 4 7) []
    let s := withDraws stJoin
    s.linked = true ∧ (s.port m.port).up = true ∧ m.dst.toNat = s.addr ∧ msgTyp m = typ ∧ m.enc = false ∧ m.jobid.toNat = 0 ∧
      (msgFrame s m).isSome = true ∧
      ((takeIdent 64 typ [m.src.toNat, leAt m.hdr 2 4] (unused s)).map fun s1 =>
        decide (ctxWith s1 (leAt m.hdr 2 4) = some 0) && decide ((s1.session 0).state = .joining) && !(s1.session 0).spare &&
        decide ((s1.job? 0).map (fun y => y.addrOf 0) = some m.src.toNat) && ready (if typ = 0x80 then joinReqHere m s1 else joined 0 s1)) = some true ∧
      leAt m.hdr 6 1 = 0 := by
  simp only [List.mem_cons, List.not_mem_nil, or_false] at h
  rcases h with rfl | rfl <;> decide +kernel

theorem witness_JoinAndDebugComplete_timeout :
    let s := { stJoin with now := seconds 200 }
    s.live = true ∧ s.resident 0 = true ∧ (s.session 0).state = .joining ∧
      (s.session 0).admitted + seconds (regField s Reg.ADNT_CFG 7 0) ≤ s.now := by decide +kernel

/-- Debug level 2 on sequencer 0, halted or not. -/
def stDebug (h : Bool) : State := { stBase with
  adnt := { stBase.adnt with debug := 2 }, units := [(0, { ExecUnit.init with halted := h })] }

theorem witness_JoinAndDebugComplete_debug (h : Bool) :
    let s := stDebug h
    s.answers = true ∧ s.dbgSel.cls ≤ 3 ∧ dbgError s.dbgSel 1 s = 0 ∧ dbgError s.dbgSel 2 s = 0 ∧
      (dbgLoad s.dbgSel (unused s)).map (fun p => ready (dbgEnd 0 (setReg Reg.ADNT_DBGDATA p.1 p.2))) = some true ∧
      (dbgStore s.dbgSel (regRaw s Reg.ADNT_DBGDATA) (unused s)).map (fun t => ready (dbgEnd 0 t)) = some true ∧ dbgHalted s.dbgSel s = h ∧
      (h = true → ready (dbgEnd 0 (stepHalted s.dbgSel (unused s))) = true) := by
  cases h <;> decide +kernel

theorem witness_DebugNeedsItsLevel (l : Nat) (n : NightStep) (h : (l = 0 ∨ l = 1) ∧ (n = .none ∨ n = .asleep)) :
    let s := { stBase with adnt := { stBase.adnt with debug := l }, power := { stBase.power with night := n } }
    s.answers = true ∧ s.dbgSel.cls ≤ 6 ∧ s.adnt.debug = l ∧ s.power.night = n := by
  rcases h with ⟨rfl | rfl, rfl | rfl⟩ <;> decide +kernel

/-! ## Dawn, the dead device and the check units -/

/-- Stage `n` of Dawn. -/
def stDawn (n : Nat) : State := { stBase with dawn := { stBase.dawn with outcome := 0, stage := n }, clk := FrameClk.init }

theorem witness_DawnStagesComplete (n : Fin 10) :
    State.reset.dawn.powered = false ∧ atStage n (stDawn n) = true ∧ (stDawn n).live = true ∧ (stDawn n).dawn.outcome = 0 := by
  revert n
  decide +kernel

theorem witness_DawnStagesComplete_standing (n : Nat) (h : n ∈ [4, 5, 7]) :
    awaitStanding 4096 (stDawn n) = stDawn n ∧ asking .topUp (stDawn n) = false ∧ atStage n (stDawn n) = true := by
  simp only [List.mem_cons, List.not_mem_nil, or_false] at h
  rcases h with rfl | rfl | rfl <;> decide +kernel

theorem witness_DawnStagesComplete_lock :
    let s := { stDawn 8 with clk := { FrameClk.init with lock := .locked } }
    atStage 8 s = true ∧ s.clk.lock ≠ .acquiring ∧ s.ledger.on = true := by decide +kernel

theorem witness_DawnStagesComplete_passEnd :
    let s := stTile seqA fun x => { x with passes := [passA] }
    (s.tile 0).passes = passA :: [] ∧ s.clocked = true ∧ passPoisoned (s.tile 0) passA = false := by decide +kernel

theorem witness_DeadDeviceRunsNoCommand :
    State.reset.live = false ∧ WellFormed (.jobEnd 0) = true ∧ (tileAt (.nop 0 0 0x0#128)).isSome = true ∧ WellFormed (.nop 0 0 0x0#128) = true := by
  decide +kernel

/-- Unit `u` with the writes `l` in its stream, as `f` leaves it. -/
def stChk (u : Fin 144) (l : List ChkReq) (f : ChkUnit → ChkUnit) : State :=
  { stBase with chk := [(u.val, f { ChkUnit.init with stream := l })] }

/-- The first and the last unit the host writes, the stream empty or full. -/
theorem witness_AliveCheckCountsUp_join (n : Nat) (h : n ∈ [0, 31, 32]) :
    (stChk 128 (List.replicate n ⟨0x04, false, false, 4⟩) id).served = true ∧ 128 ≤ (128 : Fin 144).val ∧ 128 ≤ (143 : Fin 144).val ∧
      (32 ≤ ((stChk 128 (List.replicate n ⟨0x04, false, false, 4⟩) id).chkUnit 128).stream.length ↔ n = 32) := by
  simp only [List.mem_cons, List.not_mem_nil, or_false] at h
  rcases h with rfl | rfl | rfl <;> decide +kernel

/-- The expected value, the one before it modulo 256, and another. -/
theorem witness_AliveCheckCountsUp_take (A v : Nat) (h : (A, v) ∈ [(255, 255), (0, 255), (255, 0)]) :
    let s := stChk 143 [⟨0x58, false, false, (BitVec.ofNat 32 v).toNat⟩] fun c => { c with alive := A }
    A = (s.chkUnit 143).alive ∧ (s.chkUnit 143).stream = ⟨0x58, false, false, (BitVec.ofNat 32 v).toNat⟩ :: [] ∧
      (A = 255 ∧ v = 255 → (BitVec.ofNat 32 v).toNat % 256 = A) ∧
      (A = 0 → (BitVec.ofNat 32 v).toNat % 256 = (A + 255) % 256 ∧ (BitVec.ofNat 32 v).toNat % 256 ≠ A) ∧
      (v = 0 → (BitVec.ofNat 32 v).toNat % 256 ≠ (A + 255) % 256 ∧ (BitVec.ofNat 32 v).toNat % 256 ≠ A) := by
  simp only [List.mem_cons, List.not_mem_nil, or_false, Prod.mk.injEq] at h
  rcases h with ⟨rfl, rfl⟩ | ⟨rfl, rfl⟩ | ⟨rfl, rfl⟩ <;> decide +kernel

/-- CHK_ALIVE read while an alive write waits: the unit takes it first. -/
theorem witness_AliveCheckCountsUp_read :
    let s := stChk 143 [⟨0x58, false, false, 7⟩, ⟨0x04, false, false, 4⟩] fun c => { c with alive := 7 }
    s.served = true ∧ (drainChk 143 s).served = true ∧ 0 = ((drainChk 143 s).chkUnit 143).alive ∧
      (s.chkUnit 143).stream = ⟨0x58, false, false, 7⟩ :: [⟨0x04, false, false, 4⟩] := by decide +kernel

/-- Every kind of write at the head of the stream of an open unit, in either byte order. -/
theorem witness_CheckUnitsTakeMessages (cfg : Nat) (w : ChkReq) (h : cfg ∈ [32, 32 + 1024])
    (hw : w ∈ [⟨0x04, false, false, 1⟩, ⟨0x04, false, false, 2⟩, ⟨0x28, false, false, (0#32).toNat⟩, ⟨0x2C, false, false, (0#32).toNat⟩,
      ⟨0x30, false, false, (0#32).toNat⟩, ⟨0x38, true, false, (0#64).toNat⟩]) :
    let s := stChk 143 [w] fun c => { c with lcfg := cfg, isOpen := true }
    s.served = true ∧ 128 ≤ (143 : Fin 144).val ∧ (s.chkUnit 143).stream = w :: [] ∧ bitOf (s.chkUnit 143).lcfg 10 = decide (cfg = 32 + 1024) ∧
      (s.chkUnit 143).isOpen = true := by
  simp only [List.mem_cons, List.not_mem_nil, or_false] at h hw
  rcases h with rfl | rfl <;> rcases hw with rfl | rfl | rfl | rfl | rfl | rfl <;> decide +kernel

theorem witness_HostWritesToQueueUnits : stBase.served = true ∧ (127 : Fin 144).val < 128 := by decide +kernel

theorem witness_RegisterAndSidebandAccess :
    stBase.answers = true ∧ 0x3FFFFC % 4 = 0 ∧ 0x3FFFF8 % 8 = 0 ∧ wordServed stBase Reg.FLT_RCFG = true ∧ stBase.flt.ringEn = false ∧
      bitOf (0x21#32).toNat 0 = true ∧ wordServed stBase Reg.FLT_RHEAD = true ∧ stBase.i3c.dyn = none := by decide +kernel

/-! ## Idle draws and upkeep -/

/-- Late in a frame, every draw held and no work waiting; the refresh engine has no round to send. -/
def stIdle : State := { withDraws (linkUp stPage) with now := 64020000 }

/-- Whether the draws of `o` may go back 800 cc after instant `last`, before and after what is due until then. -/
def mayReturn (o : Owner) (last : State → Nat) (idle : State → Bool) (s : State) : Bool :=
  let u := runUntil (last s + 64000) s
  idle s && idle u && decide (last u + 64000 ≤ u.now) && !asking o u

theorem witness_UpkeepEventsAct_groups (a : Bool) :
    mayReturn (if a then .memAdder 2 else .memGroup 2) (groupUse 2 a) (groupIdle 2 a) stIdle = true := by
  cases a <;> decide +kernel

theorem witness_UpkeepEventsAct_engines :
    mayReturn .lineEngine (fun s => Tbl.look s.stk.use 8192 0) (fun s => s.live && holds .lineEngine s) stIdle = true ∧
      mayReturn .refresh (fun s => Tbl.look s.stk.use 8195 0) (fun s => s.live && holds .refresh s && decide (s.emb.roundOut = [])) stIdle = true ∧
      mayReturn (.tableEngine 5) (fun s => Tbl.look s.stk.use (8220 + 5) 0) (fun s => s.clocked && holds (.tableEngine 5) s && !engineBusy s 5)
        stIdle = true ∧
      mayReturn (.reduction 2) (fun s => Tbl.look s.stk.use (8200 + 2) 0) (fun s => s.clocked && holds (.reduction 2) s && !reductionBusy s 2)
        stIdle = true ∧
      mayReturn (.link 31) (fun s => linkSentAt s 31) (fun s => s.live && holds (.link 31) s && linkQuiet s 31) stIdle = true ∧
      mayReturn .exporter (fun s => s.dlx.sentAt) (fun s => s.live && holds .exporter s) stIdle = true := by decide +kernel

theorem witness_UpkeepEventsAct_queues :
    stacksUp stChan = true ∧ chanBusy stChan 3 = false ∧ (stChan.chan 3).wbq = 96 :: [] ∧ (stChan.chan 3).tagq = 96 :: [] ∧ (stChan.chan 3).failed = false := by decide +kernel

theorem witness_UpkeepEventsAct_dawn :
    let s := { stBase with dawn := { stBase.dawn with outcome := 0 }, clk := FrameClk.init }
    stacksUp s = true ∧ s.dawn.outcome = 0 ∧ s.clk.lock = .acquiring := by decide +kernel

theorem witness_UpkeepEventsAct_retrain :
    let u := runUntil (stStep.atPos (stepStart stStep ((0 : Fin 2048).val / 256) + 2400)) stStep
    stStep.framed = true ∧ retrainDue 0 stStep = true ∧ u.framed = true ∧ retrainDue 0 u = true := by decide +kernel

theorem witness_UpkeepEventsAct_stamp :
    stChan.live = true ∧ stChan.clocked = true ∧ stChan.clk.stepsDone = true ∧ stChan.clk.fnum % stChan.urng.period = 0 ∧
      stChan.urng.stampAt ≠ some stChan.clk.fnum := by decide +kernel

end Sys2Proof.Tests
end

section
/-! SUPPORT. Accesses of BAR0 and the sideband: what an aligned access of the bus does, what a reserved word answers (R5 to R8, R459, R488). -/

namespace Sys2Proof.Machine

/-! ## Aligned accesses of the bus -/

theorem busRead_word {off : Nat} (s : State) (ha : off % 4 = 0) (hb : off < 0x400000) :
    busRead off 4 s = answer (read32 off (chkFirst off s)) := by
  unfold busRead
  rw [if_neg (by omega), if_neg (by decide)]

theorem busRead_wide {off : Nat} (s : State) (ha : off % 8 = 0) (hb : off < 0x400000) :
    busRead off 8 s = answer (read64 off (chkFirst (off + 4) (chkFirst off s))) := by
  unfold busRead
  rw [if_neg (by omega), if_pos rfl]

theorem busWrite_word {off : Nat} (v : Nat) (s : State) (ha : off % 4 = 0) (hb : off < 0x400000) :
    busWrite off 4 v s = write32 off (v % 2 ^ 32) s := by
  unfold busWrite
  rw [if_neg (by omega), if_neg (by decide)]

theorem busWrite_wide {off : Nat} (v : Nat) (s : State) (ha : off % 8 = 0) (hb : off < 0x400000) :
    busWrite off 8 v s = write64 off v s := by
  unfold busWrite
  rw [if_neg (by omega), if_pos rfl]

section
variable {off : Nat} {s : State} (hs : s.answers = true) (hb : off < 0x400000)
include hs hb

theorem exec_regReadClear_word (ha : off % 4 = 0) : exec (.regReadClear off false) s = .next (answer (read32 off (chkFirst off s))) :=
  (when_next hs).trans (congrArg _ (busRead_word s ha hb))

theorem exec_regReadLowHalf (ha : off % 4 = 0) : exec (.regReadLowHalf off) s = .next (answer (read32 off (chkFirst off s))) :=
  (when_next hs).trans (congrArg _ (busRead_word s ha hb))

theorem exec_regReadClear_wide (ha : off % 8 = 0) :
    exec (.regReadClear off true) s = .next (answer (read64 off (chkFirst (off + 4) (chkFirst off s)))) :=
  (when_next hs).trans (congrArg _ (busRead_wide s ha hb))

theorem exec_registerWrite_word (v : Word64) (ha : off % 4 = 0) :
    exec (.registerWrite off false v) s = .next (write32 off (v.toNat % 2 ^ 32) s) :=
  (when_next hs).trans (congrArg _ (busWrite_word v.toNat s ha hb))

theorem exec_registerWrite_wide (v : Word64) (ha : off % 8 = 0) : exec (.registerWrite off true v) s = .next (write64 off v.toNat s) :=
  (when_next hs).trans (congrArg _ (busWrite_wide v.toNat s ha hb))

end

/-! ## Reserved words -/

/-- A reserved word is none of a register and none of the MSI-X table or its pending bits. -/
theorem reservedWord_iff {off : Nat} : reservedWord off = true ↔ placeOf off = .nothing ∧ ¬ (0x7F00 ≤ off ∧ off < 0x10000) := by
  simp only [reservedWord, ← Bool.decide_and, Bool.and_eq_true, Bool.not_eq_true', decide_eq_true_eq, decide_eq_false_iff_not]

section
variable {off : Nat} (h : reservedWord off = true) (s : State)
include h

theorem chkFirst_reserved : chkFirst off s = s := by
  obtain ⟨hp, -⟩ := reservedWord_iff.1 h
  simp [chkFirst, hp]

theorem read32_reserved : read32 off s = (0, s) := by
  obtain ⟨hp, hm⟩ := reservedWord_iff.1 h
  simp only [read32, hp, if_neg hm, ite_self]

theorem write32_reserved (v : Nat) : write32 off v s = s := by
  obtain ⟨hp, hm⟩ := reservedWord_iff.1 h
  simp only [write32, hp, if_neg hm, ite_self]

/-- Where no register takes the lower word, a 64-bit access is one of each word. -/
theorem read64_reserved (h4 : reservedWord (off + 4) = true) : read64 off s = (0, s) := by
  obtain ⟨hp, -⟩ := reservedWord_iff.1 h
  simp only [read64, hp, read32_reserved h, read32_reserved h4, Nat.zero_mul, Nat.add_zero]

theorem write64_reserved (h4 : reservedWord (off + 4) = true) (v : Nat) : write64 off v s = s := by
  obtain ⟨hp, -⟩ := reservedWord_iff.1 h
  simp only [write64, hp, write32_reserved h, write32_reserved h4]

end

/-- Settles O7: a reserved word has no place in the register maps, so no check unit is drained before its read and the access touches
nothing, as one word or as two. -/
theorem reservedAddressReadsZero : Obligations.ReservedAddressReadsZero := by
  intro off v s hs h
  refine ⟨fun ha hb => ⟨?_, ?_⟩, fun ha hb h4 => ⟨?_, ?_⟩⟩
  · rw [exec_regReadClear_word hs hb ha, chkFirst_reserved h, read32_reserved h]; rfl
  · rw [exec_registerWrite_word hs hb v ha, write32_reserved h]
  · rw [exec_regReadClear_wide hs hb ha, chkFirst_reserved h, chkFirst_reserved h4, read64_reserved h s h4]; rfl
  · rw [exec_registerWrite_wide hs hb v ha, write64_reserved h s h4]

/-! ## The fault ring's registers (R459) -/

/-- Setting EN of a disabled ring restarts it at the size written. -/
theorem writeRcfg_enable {v : Nat} {s : State} (hoff : s.flt.ringEn = false) (hen : bitOf v 0 = true) :
    writeRcfg v s = { s with flt := { s.flt with ringEn := true, log2 := clampNat 8 16 (bits v 5 1), tail := 0, head := 0 } } := by
  simp only [writeRcfg, hoff, hen, Bool.false_eq_true, if_false, if_true]

/-! ## The sideband (R383, R488) -/

theorem sideband_next (f : I3c → I3c) {s : State} (h : s.answers = true) : sideband f s = .next { s with i3c := f s.i3c } := when_next h

/-- A target without a dynamic address takes the one it is assigned, by its static address or in the enumeration. -/
theorem exec_assignAddress {a : BitVec 7} {s : State} (h : s.answers = true) (hd : s.i3c.dyn = none) :
    exec (.setdasa a) s = .next { s with i3c := { s.i3c with dyn := some a.toNat, acked := true } } ∧
      exec (.entdaa a) s = .next { s with i3c := { s.i3c with dyn := some a.toNat, acked := true } } := by
  have key : sideband (fun x => if x.dyn.isSome then { x with acked := false } else { x with dyn := some a.toNat, acked := true }) s =
      .next { s with i3c := { s.i3c with dyn := some a.toNat, acked := true } } := by
    rw [sideband_next _ h]; simp [hd]
  exact ⟨key, key⟩

/-- Settles O59: the aligned accesses of the bus, the two ring registers, and the sideband command by command. -/
theorem registerAndSidebandAccess : Obligations.RegisterAndSidebandAccess := by
  intro s hs
  refine ⟨fun off ha hb => ⟨exec_regReadClear_word hs hb ha, exec_regReadLowHalf hs hb ha⟩,
    fun off ha hb => exec_regReadClear_wide hs hb ha, fun off v ha hb => exec_registerWrite_word hs hb v ha,
    fun off v ha hb => exec_registerWrite_wide hs hb v ha, fun v hw hoff hen => ?rcfg, fun v hw => ?rhead,
    fun n => sideband_next (fun x => { x with answer := slice (statusBlock s) 0 n, acked := true }) hs,
    fun d => sideband_next (fun x => { x with acked := true }) hs, fun a hd => exec_assignAddress hs hd,
    sideband_next (fun x => { x with dyn := none, acked := true }) hs,
    when_next hs, when_next hs, when_next hs, when_next hs,
    sideband_next (fun x => { x with ibiOn := true, acked := true }) hs,
    sideband_next (fun x => { x with ibiOn := false, acked := true }) hs⟩
  case rcfg => exact (when_next (by rw [hs, hw]; rfl)).trans (congrArg _ (writeRcfg_enable hoff hen))
  case rhead => exact when_next (by rw [hs, hw]; rfl)

end Sys2Proof.Machine
end

section
/-! SUPPORT. The host port's accesses and timers, one lemma per command: link training, configuration requests, bad accesses, doorbells, the
check repeated, queue configuration, CRHEAD, the flush of a record, and the moderation timer (R6, R321 to R347, R423). -/

namespace Sys2Proof.Machine

/-! ## The link, configuration requests and bad accesses -/

/-- A width and a rate the port supports (R321). -/
theorem pcieLink_supported {w r : BitVec 4} {s : State} (hp : s.dawn.powered = true) (hw : w.toNat ∈ [1, 2, 4, 8]) (hr : 1 ≤ r.toNat)
    (hr' : r.toNat ≤ 7) :
    (s.dawn.powered && (w.toNat == 1 || w.toNat == 2 || w.toNat == 4 || w.toNat == 8) && decide (1 ≤ r.toNat ∧ r.toNat ≤ 7)) = true := by
  simp only [List.mem_cons, List.not_mem_nil, or_false] at hw
  simpa [hp, hr, hr', or_assoc] using hw

theorem exec_pcieLinkTrained {w r : BitVec 4} (cache : Bool) {s : State} (hp : s.dawn.powered = true) (hw : w.toNat ∈ [1, 2, 4, 8])
    (hr : 1 ≤ r.toNat) (hr' : r.toNat ≤ 7) :
    exec (.pcieLinkTrained w r true cache) s =
        .next { s with link := { width := w.toNat, rate := r.toNat, flit := true, noflit := false, cache := cache } } ∧
      exec (.pcieLinkTrained w r false cache) s =
        .next (raiseInt blkHost 4 { s with link := { width := w.toNat, rate := r.toNat, flit := false, noflit := true, cache := false } }) := by
  have key := pcieLink_supported hp hw hr hr'
  constructor
  · show execPcieLinkTrained w r true cache s = _
    simp only [execPcieLinkTrained, when_next key, if_true, Bool.not_true, Bool.and_true]
  · show execPcieLinkTrained w r false cache s = _
    simp only [execPcieLinkTrained, when_next key, Bool.false_eq_true, if_false, Bool.not_false, Bool.and_false]

/-- Before 100 ms after power-good, 6,400,000,000 units of time, a configuration request asks for a retry; from then on it takes the next
free value (R423). -/
theorem exec_pcieConfigRequest {s : State} (hs : s.answers = true) :
    exec .pcieConfigRequest s = .next (if s.now - s.dawn.t0 < 6400000000 then { s with resp := .retry }
      else { (freeVal s).2 with resp := .data (freeVal s).1 }) := by
  show execPcieConfigRequest s = _
  exact when_next hs

theorem exec_bar0BadAccess {off size : Nat} (write : Bool) {s : State} (hs : s.answers = true) (hbad : (size ≠ 4 ∧ size ≠ 8) ∨ off % size ≠ 0) :
    exec (.bar0BadAccess off size write) s = .next (badAccess off size write s) := by
  refine when_next ?_
  simp only [hs, Bool.true_and, Bool.not_eq_true', Bool.and_eq_false_iff, Bool.or_eq_false_iff, beq_eq_false_iff_ne]
  exact hbad

/-- Outside normal service a bad access is not logged (R6). -/
theorem badAccess_unlogged {off size : Nat} {write : Bool} {s : State} (h : s.served = false) :
    badAccess off size write s = { s with resp := .unsupported } := by
  simp only [badAccess, h, Bool.false_eq_true, if_false]

/-! ## Queues -/

/-- A queue in normal service answers, whatever the limited form answers. -/
theorem served_or {s : State} (b : Bool) (h : s.served = true) : (s.served || b) = true := by rw [h]; rfl

/-- A doorbell that moves the tail on within the credit (R328, R336). -/
theorem exec_hostDb_moves {q : Fin 128} {v : Word32} {s : State} (h : s.served = true) (hen : (s.queue q).en = true)
    (hne : v.toNat % slots ≠ (s.queue q).tail) (hcr : ringDist (v.toNat % slots) (s.queue q).head ≤ (s.queue q).credit)
    (hfwd : ringDist (s.queue q).tail (s.queue q).head ≤ ringDist (v.toNat % slots) (s.queue q).head) :
    exec (.hostDb q v) s = .next (validate q (updQueue q (fun Q => { Q with tail := v.toNat % slots, stalled := false }) s)) := by
  have hfit : ¬ (ringDist (v.toNat % slots) (s.queue q).head > (s.queue q).credit ∨
      ringDist (v.toNat % slots) (s.queue q).head < ringDist (s.queue q).tail (s.queue q).head) := by omega
  show execHostDb q v s = _
  refine (when_next (by rw [served_or _ h, hen]; rfl)).trans ?_
  simp only [if_neg hne, if_neg hfit]

theorem exec_validationReread {q : Fin 128} {k : Nat} {s : State} (h : s.served = true) (hen : (s.queue q).en = true)
    (hn : nightWaits s q = false) (hk : (s.queue q).rereads = some k) : exec (.validationReread q) s = .next (rereadHead q k s) := by
  show execValidationReread q s = _
  refine (when_next (by rw [served_or _ h, hen, hn]; rfl)).trans ?_
  simp only [hk]

/-- No other enabled queue is bound to sub-window `w`. -/
theorem subwin_free {s : State} {w : Nat} (h : ∀ p ∈ s.queues, p.1 ≠ s.qsel → p.2.en = true → p.2.subwin ≠ w) :
    (s.queues.any fun p => decide (p.1 ≠ s.qsel) && p.2.en && decide (p.2.subwin = w)) = false := by
  simpa only [List.any_eq_false, Bool.and_eq_true, decide_eq_true_eq, not_and, and_imp] using h

/-- The selected queue, disabled, is enabled by a legal setting on a free sub-window (R325, R326). -/
theorem exec_hostQcfgWrite_enables {wide high : Bool} {v : Word64} {x : Nat} {Q : Queue} {s : State} (h : s.served = true)
    (hoff : (s.queue s.qsel).en = false) (hx : x = halfWrite (s.queue s.qsel).cfgWord wide high v.toNat) (hen : bitOf x 0 = true)
    (hQ : Q = (s.queue s.qsel).configure x s.limited (decide ((s.queues.filter fun p => decide (p.1 ≠ s.qsel) && p.2.governed).length ≥ 8)))
    (htarget : Q.target ≠ 3) (hseq : Q.seq ≠ 3)
    (hfree : ∀ p ∈ s.queues, p.1 ≠ s.qsel → p.2.en = true → p.2.subwin ≠ Q.subwin) :
    exec (.hostQcfgWrite wide high v) s = .next (setQueue s.qsel
      { Q with en := true, alive := 0, crTail := 0, crHead := 0, stalled := false, held := false, rereads := none } s) := by
  have hfree' := subwin_free hfree
  show execHostQcfgWrite wide high v s = _
  refine (when_next (served_or _ h)).trans ?_
  simp only [hoff, Bool.false_eq_true, if_false, ← hx, ← hQ, hen, hfree', htarget, hseq, ne_eq, not_false_eq_true, decide_true,
    Bool.not_false, Bool.and_self, if_true]

/-! ## Completion rings -/

/-- The queue's state after the host has written its CRHEAD (R343): the head counts on from its last value. -/
def crheadMoved (q : Nat) (v : Nat) (s : State) : State :=
  updQueue q (fun Q => { Q with crHead := Q.crHead + (v % 65536 + 65536 - Q.crHead % 65536) % 65536 }) s

/-- CRHEAD moves the head, and a HELD queue goes on when that gave its ring space. -/
theorem exec_hostCrhead {q : Fin 128} {v : Word32} {s : State} (h : s.served = true) :
    exec (.hostCrhead q v) s = .next (if (s.queue q).held && !((crheadMoved q v.toNat s).queue q).ringFull
      then unholdQueue q (crheadMoved q v.toNat s) else crheadMoved q v.toNat s) := by
  show execHostCrhead q v s = _
  exact when_next (served_or _ h)

theorem exec_completionFlushDone {q : Fin 128} {s : State} (h : s.served = true) (hf : (s.queue q).flush.isSome = true)
    (hheld : (s.queue q).held = false) : exec (.completionFlushDone q) s = .next (tryRecord q (evictDirty s)) := by
  show execCompletionFlushDone q s = _
  exact when_next (by rw [served_or _ h, hf, hheld]; rfl)

theorem exec_msixModerationTimer {q : Fin 128} {s : State} (h : s.live = true) (hi : 0 < (s.queue q).intrs) (ht : 0 < (s.queue q).modTime) :
    exec (.msixModerationTimer q) s = .next (sendVector q (updQueue q (fun Q => { Q with intrs := 0 }) s)) := by
  show execMsixModerationTimer q s = _
  exact when_next (by rw [h, decide_eq_true hi, decide_eq_true ht]; rfl)

/-- Settles O44: one lemma per command of the host port. -/
theorem hostPortAccessesComplete : Obligations.HostPortAccessesComplete := by
  refine ⟨fun w r cache s hp hw hr hr' => exec_pcieLinkTrained cache hp hw hr hr', fun s hs => ⟨fun hlt => ?retry, fun hge => ?data⟩,
    fun off size write s hs hbad => ⟨exec_bar0BadAccess write hs hbad, fun hsrv => ?unlogged⟩,
    fun q v t s h hen ht hne hcr hfwd => ?db, fun q k s h hen hn hk => exec_validationReread h hen hn hk,
    fun wide high v x Q s h hoff hx hen hQ ht hq hfree => exec_hostQcfgWrite_enables h hoff hx hen hQ ht hq hfree,
    fun q v hd s h hheld hhd => ?crhead, fun q v s s1 h hheld hs1 hroom => ?unhold,
    fun q s h hf hheld => exec_completionFlushDone h hf hheld, fun q s h hi ht => exec_msixModerationTimer h hi ht⟩
  case retry => rw [exec_pcieConfigRequest hs, if_pos hlt]
  case data => rw [exec_pcieConfigRequest hs, if_neg (by omega)]
  case unlogged => rw [exec_bar0BadAccess write hs hbad, badAccess_unlogged hsrv]
  case db => subst ht; exact exec_hostDb_moves h hen hne hcr hfwd
  case crhead => rw [exec_hostCrhead h, hheld, hhd]; rfl
  case unhold =>
    have hmoved : crheadMoved q v.toNat s = s1 := hs1.symm
    rw [exec_hostCrhead h, hmoved, hheld, hroom]; rfl

end Sys2Proof.Machine
end

section
/-! SUPPORT. What one step does to the queue of commands and to the time (R12, R327). -/

namespace Sys2Proof.Machine

theorem step_nil {s : State} (h : s.pending = []) : step s = .next (clockTick s) := by unfold step; rw [h]

theorem step_cons {s : State} {c : Instr} {rest : List Instr} (h : s.pending = c :: rest) : step s = exec c { s with pending := rest } := by
  unfold step; rw [h]

/-- A step keeps, of the state without its front command, all that `Keeps` names. -/
theorem step_keeps {s t : State} (h : step s = .next t) : Keeps { s with pending := s.pending.tail } t := by
  cases hp : s.pending with
  | nil =>
    obtain rfl := Host.Outcome.next.inj ((step_nil hp).symm.trans h)
    have k := clockTick_keeps (Keeps.refl s)
    exact ⟨k.pending.trans hp, k.now, k.mems⟩
  | cons c rest => exact (exec_keeps (Keeps.refl _) c).keeps t ((step_cons hp).symm.trans h)

/-- Settles O2: the queue is empty, so time passes. -/
theorem stepOnEmptyQueueIsOneCycle : Obligations.StepOnEmptyQueueIsOneCycle := fun _ h => step_nil h

/-- Settles O5: every command and the idle cycle keep the queue they are given and do not turn time back (`step_keeps`). -/
theorem stepKeepsQueueAndTime : Obligations.StepKeepsQueueAndTime := fun _ _ h =>
  have k := step_keeps h
  ⟨k.pending, k.now⟩

end Sys2Proof.Machine
end

section
/-! SUPPORT. The frame clock's commands: a TICK copy branch by branch, and the events at their instants (R14 to R25, R31, R33, R291). -/

namespace Sys2Proof.Machine

/-! ## TICK copies (R14 to R17, R19) -/

/-- A copy of a frame that does not run is held against the expected instant first. -/
theorem tickLocked_far {port f : Nat} {arr c corr : Int} {s : State} (hf : f ≠ s.clk.fnum) (hc : absDiff c s.expected > 6400) :
    tickLocked port f arr c corr s = rejectTick s := by
  unfold tickLocked
  rw [if_neg (by simp [hf]), if_pos hc]

theorem tickLocked_next {port : Nat} {arr c corr : Int} {s : State} (hc : absDiff c s.expected ≤ 6400)
    (hw : pastWindow (gatherOf s (s.clk.fnum + 1) (b2n s.clk.secondary)) arr = false) :
    tickLocked port (s.clk.fnum + 1) arr c corr s = gatherCopy port (b2n s.clk.secondary) (s.clk.fnum + 1) arr c corr s := by
  unfold tickLocked
  rw [if_neg (by simp), if_neg (by omega), if_neg (by simp), if_neg (by simp [hw])]

theorem pastWindow_false {o : Option Gather} {arr : Int} (h : ∀ g, o = some g → arr ≤ g.since + 12800) : pastWindow o arr = false := by
  cases o with
  | none => rfl
  | some g => exact decide_eq_false (by have := h g rfl; omega)

section
variable {port : Fin 34} {arr : Int} {crcOk : Bool} {p : Bytes} {d : Nat} {s : State} (hl : s.live = true)
  (hd : Tbl.look? s.clk.delay port = some d)
include hl hd

theorem exec_tick_freerun (h : s.clk.lock = .freerun) : exec (.tick port arr crcOk p) s = .next (rejectTick s) := by
  show execTick port arr crcOk p s = _
  unfold execTick
  rw [hd]
  refine (when_next hl).trans ?_
  rw [if_pos h]

theorem exec_tick_badFields (h : tickFieldsOk s crcOk p = false) : exec (.tick port arr crcOk p) s = .next (rejectTick s) := by
  show execTick port arr crcOk p s = _
  unfold execTick
  rw [hd]
  refine (when_next hl).trans ?_
  simp only [h, Bool.not_false, if_true, ite_self]

/-- While LOCKED or in HOLDOVER a copy with good fields is judged by its frame number and its corrected instant. -/
theorem exec_tick_tracked (hk : s.clk.lock = .locked ∨ s.clk.lock = .holdover) (hf : tickFieldsOk s crcOk p = true) :
    exec (.tick port arr crcOk p) s = .next (tickLocked port (leAt p 8 6) arr (arr - sx 32 (leAt p 20 4) - d) (sx 32 (leAt p 20 4)) s) := by
  show execTick port arr crcOk p s = _
  unfold execTick
  rw [hd]
  refine (when_next hl).trans ?_
  rcases hk with hk | hk <;> simp [hk, hf]

end

/-- Settles O9: the copy passes each test of `tickLocked`. -/
theorem tickCopyOfNextFrameIsGathered : Obligations.TickCopyOfNextFrameIsGathered := by
  intro port arr crcOk p d s hl hd hk hf hnum hc hw
  rw [exec_tick_tracked hl hd hk hf, hnum, tickLocked_next hc (pastWindow_false hw)]
  rfl

/-- Settles O10: in FREERUN, with a wrong field, and far from the expected instant. -/
theorem tickCopyRejected : Obligations.TickCopyRejected := by
  rintro port arr crcOk p d s hl hd (hk | hf | ⟨hk, hnum, hc⟩)
  · exact exec_tick_freerun hl hd hk
  · exact exec_tick_badFields hl hd hf
  · cases hf : tickFieldsOk s crcOk p with
    | false => exact exec_tick_badFields hl hd hf
    | true => rw [exec_tick_tracked hl hd hk hf, tickLocked_far hnum hc]; rfl

/-! ## Events at an instant of the frame -/

theorem exec_tickGatherEnd {g : Gather} {s : State} (hn : nextGather s = some g) (hl : s.live = true) (hg : g ∈ s.clk.gathers)
    (hl' : (runUntil (g.since + 12800) s).live = true) (hg' : g ∈ (runUntil (g.since + 12800) s).clk.gathers) :
    exec .tickGatherEnd s = .next (gatherEnd g (runUntil (g.since + 12800) s)) := by
  show execTickGatherEnd s = _
  unfold execTickGatherEnd
  rw [hn]
  exact instant_next (by simp [hl, hg]) (by simp [hl', hg'])

/-! ## Delay measurements (R16, R291) -/

section
variable {port : Fin 34} {t4 : BitVec 64} {p : Bytes} {s : State} (hl : s.live = true) (hu : (s.port port).up = true)
  (ht : leAt p 0 2 = 3) (hs : Tbl.look? s.clk.dlySent port = some (leAt p 8 8))
include hl hu ht hs

theorem exec_dlyResp_inRange {d : Nat} (hd : (((t4.toNat : Int) - leAt p 8 8) - ((leAt p 24 8 : Int) - leAt p 16 8)) / 2 = d)
    (hlt : d < 2 ^ 20) :
    exec (.dlyResp port t4 p) s =
      .next { s with clk := { s.clk with dlySent := Tbl.del s.clk.dlySent port, delay := Tbl.put s.clk.delay port d } } := by
  show execDlyResp port t4 p s = _
  refine (when_next (by simp [hl, hu, ht, hs])).trans ?_
  simp only [hd]
  rw [if_pos (by omega)]
  rfl

/-- Outside the register's range the delay is a free value of that range (log entry 31). -/
theorem exec_dlyResp_outside {d : Int} (hd : d = (((t4.toNat : Int) - leAt p 8 8) - ((leAt p 24 8 : Int) - leAt p 16 8)) / 2)
    (hout : ¬ (0 ≤ d ∧ d < 2 ^ 20)) :
    exec (.dlyResp port t4 p) s = .next { s with
      freeCtr := s.freeCtr + 1,
      clk := { s.clk with dlySent := Tbl.del s.clk.dlySent port, delay := Tbl.put s.clk.delay port ((freeVal s).1 % 2 ^ 20) } } := by
  show execDlyResp port t4 p s = _
  refine (when_next (by simp [hl, hu, ht, hs])).trans ?_
  simp only [← hd]
  rw [if_neg hout]
  rfl

end

/-- Settles O11: each event is one of the block at its instant, or acts where its rule lets it come. -/
theorem clockEventsComplete : Obligations.ClockEventsComplete := by
  refine ⟨fun s g hn hl hg hl' hg' => exec_tickGatherEnd hn hl hg hl' hg', fun s h h' => instant_next h h',
    fun s hl ho hk hl' ho' hk' => ?self, fun s hl hk hl' hk' => ?freerun, fun s hl hk hl' hk' => ?lost, fun s h hk => ?timeout,
    fun s hf hd hf' hd' => ?slice, fun s hf hd hf' hd' => ?reserve, fun s hf hd hf' hd' => ?window,
    fun port t4 p d s hl hu ht hs hd hlt => exec_dlyResp_inRange hl hu ht hs hd hlt,
    fun port t4 p d s hl hu ht hs hd hout => ⟨_, Nat.mod_lt _ (by decide), exec_dlyResp_outside hl hu ht hs hd hout⟩,
    fun s h => when_next h⟩
  case self => exact (instant_next (by simp [hl, ho, hk]) (by simp [hl', ho', hk']) : execSelfTick s = _)
  case freerun => exact (instant_next (by simp [hl, hk]) (by simp [hl', hk']) : execFreerunFrameStart s = _)
  case lost => exact (instant_next (by simp [hl, hk]) (by simp [hl', hk']) : execLostFrameStart s = _)
  case timeout => exact when_next (by simp [h, hk])
  case slice => exact (instant_next (by simp [hf, hd]) (by simp [hf', hd']) : execMaintenanceSliceStart s = _)
  case reserve => exact (instant_next (by simp [hf, hd]) (by simp [hf', hd']) : execProtectedReserveStart s = _)
  case window => exact (instant_next (by simp [hf, hd]) (by simp [hf', hd']) : execWorkWindowEnd s = _)

end Sys2Proof.Machine
end

section
/-! SUPPORT. Chunks: admission on a unit and the ledger's grant (R28, R29, R377, R378), and the instructions that end one (R30, R94, R100). -/

namespace Sys2Proof.Machine

/-! ## Admission -/

/-- A grant taken up while nothing is suspended by force on the unit: the chunk's command is still at the head and its charge, fixed now, fits. -/
theorem takeGrant_starts {u : Nat} {s s0 : State} {ch : Chunk} {c : Cmd} (hask : (s.unit u).asking = some ch) (hforced : (s.unit u).forced = [])
    (hs0 : s0 = { s with ledger := { s.ledger with granted := s.ledger.granted.filter (· ≠ u) } }) (hhead : headOf s0 ch.queue = some c)
    (hcid : c.cid = ch.cid) (hstill : (unitHead s0 u ch.queue).isSome = true) (hadm : admitting s = true)
    (hfit : s.pos + c.budgetAt (chunkIndex s0 u c) * s.mult ≤ s.W) :
    takeGrant u s = startChunk u
      { q := ch.queue, c := c, charge := c.budgetAt (chunkIndex s0 u c) * s.mult, draws := ch.draws, again := false } s0 := by
  have hadm0 : admitting s0 = true := by subst hs0; exact hadm
  have hfit0 : s0.pos + c.budgetAt (chunkIndex s0 u c) * s0.mult ≤ s0.W := by subst hs0; exact hfit
  have hmult : s0.mult = s.mult := by subst hs0; rfl
  unfold takeGrant
  simp only [hask, ← hs0, hhead, hforced, List.any_nil, Bool.false_eq_true, if_false, hcid, hstill, hadm0, hfit0, decide_true, Bool.and_self,
    if_true]
  rw [hmult]

theorem admitUnit_granted {u : Nat} {s : State} (h : s.ledger.granted.contains u = true) : admitUnit u s = takeGrant u s := by
  unfold admitUnit; rw [if_pos h]

/-- A free unit asks for the draws of the candidate it picks, when that one's charge fits. -/
theorem admitUnit_asks {u : Nat} {s s1 : State} {x : Cand} (hg : s.ledger.granted.contains u = false) (hadm : admitting s = true)
    (hrun : (s.unit u).run = none) (hask : (s.unit u).asking = none) (hhalt : (s.unit u).halted = false)
    (hpick : pickCand u (noteNoDraw u (noteNoFit u s)) = (some x, s1)) (hfit : s1.pos + x.charge ≤ s1.W) :
    admitUnit u s = askDraws u x s1 := by
  unfold admitUnit
  rw [if_neg (by rw [hg]; decide), if_neg (by simp [hadm, hrun, hask, hhalt])]
  simp only [hpick, if_pos hfit]

theorem askDraws_none {u : Nat} {x : Cand} {s : State} (h : x.draws = 0) : askDraws u x s = startChunk u x s := by
  unfold askDraws
  rw [if_neg (by omega), if_pos h]

/-- Settles O12: an admission that finds a grant, one that asks for draws, and the ledger's own event. -/
theorem chunkAdmissionAndGrants : Obligations.ChunkAdmissionAndGrants := by
  refine ⟨fun u s s0 ch c n hclk hg hask hforced hadm hcid hs0 hhead hstill hn hfit => ?granted,
    fun u s s1 x hclk hg hadm hrun hask hhalt hpick hfit hdraws => ⟨?asks, askDraws_none⟩,
    fun s hl hon => (when_next (by simp [hl, hon]) : execLedgerGrant s = _)⟩
  case granted =>
    subst hn
    rw [← takeGrant_starts hask hforced hs0 hhead hcid hstill hadm hfit, ← admitUnit_granted hg]
    exact (when_next hclk : execChunkAdmit u s = _)
  case asks =>
    rw [← admitUnit_asks hg hadm hrun hask hhalt hpick hfit]
    exact (when_next hclk : execChunkAdmit u s = _)

/-! ## CBND and END -/

/-- What R100 names is done and the semaphore of the word's SEN has room. -/
theorem mayRetire_of_room {i : Iss} {s : State} (hdone : chunkDone i = true)
    (hroom : bitOf i.v 15 = true → (s.tile i.t).sem (semKey i.job (bits i.v 19 16)) < 15) : mayRetire i s = true := by
  unfold mayRetire
  rw [hdone]
  cases hb : bitOf i.v 15 with
  | false => rfl
  | true => simpa using hroom hb

/-- An instruction without checks whose action stops the stream leaves what that action answers. -/
theorem issue_stops {t : Fin 8} {st : Fin 4} {w : BitVec 128} {cls op mask : Nat} {s u : State} {act : Iss → State → Eff}
    (h : TileReady t st w cls op mask s) (hop : opDefined cls op = true) (hc : cls ≤ 4)
    (hact : act (tileIss t st w s) (semTaken t st w s) = .stop u) : issue t st w cls op mask (fun _ => 0) act s = .next u := by
  rw [issue_ready h hop hc (fun _ => 0) act rfl, hact]

theorem tileIss_v (t : Fin 8) (st : Fin 4) (w : BitVec 128) (s : State) : (tileIss t st w s).v = w.toNat := rfl

section
variable {t : Fin 8} {st : Fin 4} {w : BitVec 128} {s s2 : State} {i : Iss} {c : Cmd} (hi : i = tileIss t st w s)
  (hret : mayRetire i (semTaken t st w s) = true)
include hi hret

theorem exec_cbnd (h : TileReady t st w 0 1 (tileMask 0 1) s) (hcid : c.cid = i.cid)
    (hs2 : s2 = updSeq t (regSeq st) (fun q => { q with pc := i.pc + 1, dyn := q.dyn + 1, state := 3, ahead := [], laStop := none, resumed := false })
      (retire t st i.job i.cid w.toNat true (semTaken t st w s)))
    (hhead : headOf (boundary i.q.queue i.cid (releaseChunk (unitOf t st) s2)) i.q.queue = some c) :
    exec (.cbnd t st w) s = .next (boundary i.q.queue i.cid (releaseChunk (unitOf t st) s2)) := by
  subst hi
  show execCbnd t st w s = _
  refine issue_stops h rfl (by decide) ?_
  simp only [hret, Bool.not_true, Bool.false_eq_true, if_false, tileIss_v, ← hs2, hhead, hcid, if_true]

theorem exec_tileEnd (h : TileReady t st w 0 2 (tileMask 0 2) s)
    (hs2 : s2 = updTile t (fun x => x.release (regSeq st) 0) (releaseChunk (unitOf t st) (retire t st i.job i.cid w.toNat true (semTaken t st w s))))
    (hhead : headOf s2 i.q.queue = some c) (hcanc : c.cancReq = false) (hfault : c.faultReq = none) (hover : c.overReq = false) :
    exec (.tileEnd t st w) s = .next (endCid i.q.queue i.cid St.OK 0 0 (satisfy Op.SUSPEND i.cid true s2)) := by
  subst hi
  show execTileEnd t st w s = _
  refine issue_stops h rfl (by decide) ?_
  simp only [hret, Bool.not_true, Bool.false_eq_true, if_false, tileIss_v, ← hs2, hhead, hcanc, hfault, hover,
    Option.isSome_none, Bool.or_self]

end

/-- Settles O14: neither instruction waits (`mayRetire_of_room`), so each stops its stream as its action says. -/
theorem tileChunkEndsComplete : Obligations.TileChunkEndsComplete := by
  intro t st w s s2 i c hi hdone hcid hroom
  have hret : mayRetire i (semTaken t st w s) = true := mayRetire_of_room hdone (by subst hi; exact hroom)
  exact ⟨fun h hs2 hhead => exec_cbnd hi hret h hcid hs2 hhead,
    fun h hs2 hhead hcanc hfault hover => exec_tileEnd hi hret h hs2 hhead hcanc hfault hover⟩

end Sys2Proof.Machine
end

section
/-! SUPPORT. The job commands, DATA_IN and COPY, and the two commands that run in chunks (R330, R332, R337 to R342). -/

namespace Sys2Proof.Machine

/-! ## Work of a head command that comes to a known state -/

theorem headP_done_of {i : Instr} {q op : Nat} {f : Cmd → State → State} {s u : State} {c : Cmd} (h : runnable q op s = some c)
    (hu : f c (started q (unused s)) = u) (hr : usesReady u) : runHeadP i q op f s = .next (done s u) := by
  subst hu; exact headP_done h hr

theorem jobP_done_of {i : Instr} {q op : Nat} {f : Cmd → State → State} {s u : State} {c : Cmd} (h : runnable q op s = some c)
    (hj : jobRefusal (started q s) c = none) (hu : f c (started q (unused s)) = u) (hr : usesReady u) :
    runJobP i q op f s = .next (done s u) := by
  subst hu; exact jobP_done h hj hr

theorem trio_next {q op : Nat} {f : Cmd → State → State} {s : State} {c : Cmd} (h : TrioAccepted q op s c) :
    runTrio q op f s = .next (f c (started q s)) := by
  unfold runTrio
  rw [h.turn]
  exact job_next h.head h.job

/-! ## SUSPEND, RESUME and CANCEL (R342) -/

/-- What a SUSPEND does to one of its targets: a chunk that runs is asked for its boundary, a command that waits is suspended. -/
def suspendTarget (s : State) (p : Nat × Cmd) : State :=
  if chunkRuns p.2 then updCid p.1 p.2.cid (fun y => { y with suspReq := true }) s
  else if (p.2.life = .queued ∨ p.2.life = .head) ∧ p.2.runs = false then
    updCid p.1 p.2.cid (fun y => { y with life := .suspended, susp := true }) s
  else s

/-- The commands a SUSPEND waits for. -/
def suspendWaits (ts : List (Nat × Cmd)) : List Nat := (ts.filter fun p => chunkRuns p.2).map (·.2.cid)

/-- A suspended target of a RESUME waits in its queue again. -/
def resumeTarget (s : State) (p : Nat × Cmd) : State := promote p.1 (updCid p.1 p.2.cid (fun y => { y with life := .queued }) s)

section
variable {q : Fin 128} {c : Cmd} {s : State} {ts : List (Nat × Cmd)} (hts : ts = trioTargets (started q s) c)
include hts

theorem exec_suspend (h : TrioAccepted q Op.SUSPEND s c) (hne : ts ≠ []) :
    exec (.suspend q) s = .next (if suspendWaits ts = [] then endHead q St.OK 0 0 (ts.foldl suspendTarget (started q s))
      else updHead q (fun c => { c with waits := suspendWaits ts }) (ts.foldl suspendTarget (started q s))) := by
  show execSuspend q s = _
  refine (trio_next h).trans ?_
  simp only [← hts, if_neg hne, Bool.not_eq_true']
  rfl

theorem exec_resume (h : TrioAccepted q Op.RESUME s c) (hone : c.opnd 0 1 ≠ 1) (hl : (started q s).lost = false) (hc : c.inLost = false)
    {sus : List (Nat × Cmd)} (hsus : sus = ts.filter (fun p => decide (p.2.life = .suspended))) (hne : sus ≠ []) :
    exec (.resume q) s = .next (endHead q St.OK 0 0 (sus.foldl resumeTarget (started q s))) := by
  show execResume q s = _
  refine (trio_next h).trans ?_
  have hsome : (sus != []) = true := bne_iff_ne.2 hne
  simp only [← hts, ← hsus, hl, hc, hone, hsome, Bool.or_self, Bool.false_and, Bool.false_eq_true, if_false, Bool.true_or, if_true]
  rfl

theorem exec_cancel (h : TrioAccepted q Op.CANCEL s c) (hne : ts ≠ []) (hin : ∃ p ∈ ts, p.2.runs = false ∨ isWork p.2.opcode = true) :
    exec (.cancel q) s = .next (if (cancelAll q ts (started q s)).1 = [] then endHead q St.OK 0 0 (cancelAll q ts (started q s)).2
      else updHead q (fun c => { c with waits := (cancelAll q ts (started q s)).1 }) (cancelAll q ts (started q s)).2) := by
  have hlate : (ts.all fun p => p.2.runs && !isWork p.2.opcode) = false := by
    obtain ⟨p, hp, hw⟩ := hin
    refine List.all_eq_false.2 ⟨p, hp, ?_⟩
    rcases hw with hw | hw <;> simp [hw]
  show execCancel q s = _
  refine (trio_next h).trans ?_
  simp only [← hts, if_neg hne, hlate, Bool.false_eq_true, if_false]

end

/-! ## JOB_ADMIT and JOB_END (R338 to R340) -/

section
variable {q : Fin 128} {c : Cmd} {s : State}

theorem exec_jobAdmit (h : runnable q Op.JOB_ADMIT s = some c) (hst : admitStatus (started q s) c = St.OK) :
    exec (.jobAdmit q) s = .next (endHead q St.OK 0 0 (admitJob c (started q s))) := by
  show execJobAdmit q s = _
  unfold execJobAdmit runNow
  refine (head_next h).trans ?_
  simp only [hst, if_true]

/-- The commands JOB_END waits for: those it cancels at a chunk boundary, those the control engine runs on other queues, and those whose
record is not written yet. -/
def jobEndWaits (q : Nat) (c : Cmd) (ts : List (Nat × Cmd)) (s : State) : List Nat :=
  (cancelAll q ts (updJob c.job (fun x => { x with ending := some (q, c.cid) }) s)).1 ++
    ((ts.filter fun p => decide (p.2.life = .running) && !isWork p.2.opcode && decide (p.1 ≠ q)).map fun p => p.2.cid) ++ unwritten s c.job

theorem exec_jobEnd {ts : List (Nat × Cmd)} (h : Accepted q Op.JOB_END s c) (hend : ((started q s).job? c.job).bind (·.ending) = none)
    (hts : ts = (jobCommands (started q s) c.job).filter (fun p => decide (p.2.cid ≠ c.cid))) :
    exec (.jobEnd q) s = .next (jobEndDone q (updHead q (fun c' => { c' with waits := jobEndWaits q c ts (started q s) })
      (cancelAll q ts (updJob c.job (fun x => { x with ending := some (q.val, c.cid) }) (started q s))).2)) := by
  show execJobEnd q s = _
  refine (job_next h.head h.job).trans ?_
  simp only [hend, Option.isSome_none, Bool.false_eq_true, if_false, ← hts]
  rfl

/-! ## DATA_IN and COPY (R330, R332) -/

theorem exec_dataIn {s2 : State} (h : Accepted q Op.DATA_IN s c) (hlo : 1 ≤ c.opnd 8 4) (hhi : c.opnd 8 4 ≤ c.body.length)
    (hw : rangeWrite c.job (c.opnd 0 8) (c.body.take (c.opnd 8 4)) (started q (unused s)) = .ok [] s2)
    (hr : usesReady (consume q c.cid (endHead q St.OK 0 0 s2))) :
    exec (.dataIn q) s = .next (done s (consume q c.cid (endHead q St.OK 0 0 s2))) := by
  have hj : jobRefusal (started q (unused s)) c = none := h.job
  have hlen : ¬ (c.opnd 8 4 = 0 ∨ c.opnd 8 4 > c.body.length) := by omega
  show execDataIn q s = _
  refine headP_done_of h.head ?_ hr
  simp only [hj, if_neg hlen, hw]

/-- The whole source is read, none of it poisoned, and all of it is written. -/
theorem exec_copy {d : Bytes} {s2 s3 : State} (h : Accepted q Op.COPY s c) (hlo : 1 ≤ c.opnd 16 8) (hhi : c.opnd 16 8 ≤ 2 ^ 40)
    (hread : rangeRead c.job (c.opnd 0 8) (c.opnd 16 8) (started q (unused s)) = .ok d [] s2)
    (hwrite : rangeWriteP c.job (c.opnd 8 8) d (fun _ => false) s2 = .ok [] s3) (hr : usesReady (endHead q St.OK 0 0 s3)) :
    exec (.copy q) s = .next (done s (endHead q St.OK 0 0 s3)) := by
  have hlen : ¬ (c.opnd 16 8 = 0 ∨ c.opnd 16 8 > 2 ^ 40) := by omega
  show execCopy q s = _
  unfold execCopy runJobNowP
  refine jobP_done_of h.head h.job ?_ hr
  simp only [if_neg hlen, hread, List.any_nil, hwrite]

/-! ## WALK (R222, R341) -/

theorem exec_walk (hclk : s.clocked = true) (hen : (s.queue q).en = true) (ht : (s.queue q).target = 2) (hc : headOf s q = some c) :
    exec (.walk q) s = .next (c.clusters.foldl (fun s i => admitUnit (24 + i) s) s) := by
  show execWalk q s = _
  unfold execWalk
  rw [hc]
  exact when_next (by simp [hclk, hen, ht])

end

/-- Settles O46: one lemma per command; CTX_SWITCH and TILE_RUN only meet the condition of the operation they are. -/
theorem jobCommandsComplete : Obligations.JobCommandsComplete := by
  intro q c s s1 hs1
  subst hs1
  refine ⟨exec_jobAdmit, fun ts h hend hts => exec_jobEnd h hend hts, fun h => (job_next h.head h.job : execCtxSwitch q s = _),
    fun ts w s2 h hts hne hs2 hw => ?suspend, fun ts sus h hone hl hc hts hsus hne => exec_resume hts h hone hl hc hsus hne,
    fun ts h hts hne hin => exec_cancel hts h hne hin,
    fun s2 u h hlo hhi hw hu hr => ?dataIn, fun d s2 s3 u h hlo hhi hread hwrite hu hr => ?copy, fun hclk hen ht => ?tileRun, exec_walk⟩
  case suspend => subst hs2 hw; exact exec_suspend hts h hne
  case dataIn => subst hu; exact exec_dataIn h hlo hhi hw hr
  case copy => subst hu; exact exec_copy h hlo hhi hread hwrite hr
  case tileRun => exact when_next (by simp [hclk, hen, ht])

end Sys2Proof.Machine
end

section
/-! SUPPORT. What a memory reads after it is written, and why its canonical form is unique (R79, R134, R139). -/

namespace Sys2Proof

/-! ## Entries of a table -/

theorem Tbl.look?_cons {α : Type} (i : Nat) (v : α) (r : Tbl α) (b : Nat) :
    Tbl.look? ((i, v) :: r) b = if i = b then some v else if b < i then none else Tbl.look? r b := rfl

/-- A key below all that are listed is not listed. -/
theorem Tbl.look?_eq_none_of_lt {α : Type} {t : Tbl α} {k : Nat} (h : ∀ p ∈ t, k < p.1) : Tbl.look? t k = none := by
  cases t with
  | nil => rfl
  | cons p r =>
    have hk := h p (List.mem_cons_self ..)
    rw [Tbl.look?_cons, if_neg (by omega), if_pos hk]

theorem Tbl.look?_put {α : Type} (t : Tbl α) (k : Nat) (v : α) (b : Nat) :
    Tbl.look? (Tbl.put t k v) b = if k = b then some v else Tbl.look? t b := by
  induction t with
  | nil => simp only [Tbl.put, Tbl.look?_cons, Tbl.look?, ite_self]
  | cons p r ih =>
    obtain ⟨i, w⟩ := p
    unfold Tbl.put
    split_ifs with hlt heq <;> simp only [Tbl.look?_cons, ih] <;> grind

/-- In a table in order the keys after the head are above it, so a dropped head leaves no entry of its key. -/
theorem Tbl.look?_del {α : Type} {t : Tbl α} (k b : Nat) (h : t.wf = true) :
    Tbl.look? (Tbl.del t k) b = if k = b then none else Tbl.look? t b := by
  induction t with
  | nil => simp only [Tbl.del, Tbl.look?, ite_self]
  | cons p r ih =>
    obtain ⟨i, w⟩ := p
    obtain ⟨hr, hlow⟩ := (Tbl.wf_cons i w r).1 h
    have hnone (hb : b ≤ i) : Tbl.look? r b = none := Tbl.look?_eq_none_of_lt fun p hp => by have := hlow p hp; omega
    unfold Tbl.del
    split_ifs with heq hlt <;> simp only [Tbl.look?_cons, ih hr] <;> grind

/-! ## Bytes of a memory -/

theorem Mem.get_eq (m : Mem) (d : Byte) (a : Nat) : Mem.get m d a = (Tbl.look? m a).getD d := by
  unfold Mem.get Tbl.look
  cases Tbl.look? m a <;> rfl

theorem Mem.get_set {m : Mem} {d : Byte} (h : m.wf d = true) (a b : Nat) (v : Byte) :
    Mem.get (Mem.set m d a v) d b = if a = b then v else Mem.get m d b := by
  have hwf := ((Mem.wf_iff m d).1 h).1
  simp only [Mem.get_eq, Mem.set]
  split_ifs with hv hab hab
  · rw [Tbl.look?_del a b hwf, if_pos hab, hv]; rfl
  · rw [Tbl.look?_del a b hwf, if_neg hab]
  · rw [Tbl.look?_put, if_pos hab]; rfl
  · rw [Tbl.look?_put, if_neg hab]

/-- Settles O20, by induction on the string: its first byte is overwritten by none of the rest. -/
theorem memoryReadsBackWhatWasWritten : Obligations.MemoryReadsBackWhatWasWritten := by
  intro m d a b bs h
  induction bs generalizing m a with
  | nil => simp [Mem.sets]
  | cons v r ih =>
    rw [Mem.sets, ih _ (a + 1) (Mem.wf_set m d a v h), Mem.get_set h]
    by_cases hab : a = b
    · subst hab; simp
    · have hcut : (a + 1 ≤ b ∧ b - (a + 1) < r.length) ↔ (a ≤ b ∧ b - a < (v :: r).length) := by
        simp only [List.length_cons]; omega
      simp only [hcut, if_neg hab]
      split_ifs with hin
      · have hidx : b - a = b - (a + 1) + 1 := by omega
        simp only [hidx, List.getElem_cons_succ]
      · rfl

/-! ## The canonical form -/

/-- The head of a canonical memory is the first address that does not read as an unlisted one. -/
theorem Mem.get_head {i : Nat} {v d : Byte} {r : Mem} : Mem.get ((i, v) :: r) d i = v := by
  rw [Mem.get_eq, Tbl.look?_cons, if_pos rfl]; rfl

theorem Mem.get_below {m : Mem} {d : Byte} {a : Nat} (h : ∀ p ∈ m, a < p.1) : Mem.get m d a = d := by
  rw [Mem.get_eq, Tbl.look?_eq_none_of_lt h]; rfl

theorem Mem.get_tail {i : Nat} {v d : Byte} {r : Mem} {a : Nat} (hlow : ∀ p ∈ r, i < p.1) (hne : a ≠ i) :
    Mem.get r d a = Mem.get ((i, v) :: r) d a := by
  rw [Mem.get_eq, Mem.get_eq, Tbl.look?_cons, if_neg (Ne.symm hne)]
  split_ifs with hlt
  · rw [Tbl.look?_eq_none_of_lt fun p hp => lt_trans hlt (hlow p hp)]
  · rfl

theorem Mem.wf_cons_iff (i : Nat) (v d : Byte) (r : Mem) :
    Mem.wf ((i, v) :: r) d = true ↔ Mem.wf r d = true ∧ (∀ p ∈ r, i < p.1) ∧ v ≠ d := by
  simp only [Mem.wf_iff, Tbl.wf_cons, List.forall_mem_cons]
  tauto

/-- A canonical memory that lists an address reads there other than a memory that lists none so low. -/
theorem Mem.head_le {i : Nat} {v d : Byte} {r n : Mem} (hv : v ≠ d) (h : Mem.get ((i, v) :: r) d i = Mem.get n d i) : ¬ ∀ p ∈ n, i < p.1 :=
  fun hlow => hv (Mem.get_head.symm.trans (h.trans (Mem.get_below hlow)))

/-- Settles O21, by induction on the first listing: the heads are each the lowest address listed, hence the same entry. -/
theorem equalMemoriesAreEqualData : Obligations.EqualMemoriesAreEqualData := by
  intro m n d hm hn h
  induction m generalizing n with
  | nil =>
    cases n with
    | nil => rfl
    | cons q s =>
      obtain ⟨_, _, hw⟩ := (Mem.wf_cons_iff q.1 q.2 d s).1 hn
      exact absurd (by simp) (Mem.head_le hw (h q.1).symm)
  | cons p r ih =>
    obtain ⟨i, v⟩ := p
    obtain ⟨hr, hlow, hv⟩ := (Mem.wf_cons_iff i v d r).1 hm
    cases n with
    | nil => exact absurd (by simp) (Mem.head_le hv (h i))
    | cons q s =>
      obtain ⟨j, w⟩ := q
      obtain ⟨hs, hlow', hw⟩ := (Mem.wf_cons_iff j w d s).1 hn
      have hij : ¬ i < j := fun hlt => Mem.head_le hv (h i) (List.forall_mem_cons.2 ⟨hlt, fun p hp => lt_trans hlt (hlow' p hp)⟩)
      have hji : ¬ j < i := fun hlt => Mem.head_le hw (h j).symm (List.forall_mem_cons.2 ⟨hlt, fun p hp => lt_trans hlt (hlow p hp)⟩)
      obtain rfl : i = j := by omega
      have hvw : v = w := Mem.get_head.symm.trans ((h i).trans Mem.get_head)
      have hrs : r = s := ih s hr hs fun a => by
        by_cases ha : a = i
        · rw [ha, Mem.get_below hlow, Mem.get_below hlow']
        · rw [Mem.get_tail (v := v) hlow ha, h, ← Mem.get_tail hlow' ha]
      rw [hvw, hrs]

end Sys2Proof
end

section
/-! SUPPORT. Every addressed memory of the device is canonical at reset and stays so (R79, R134, R163, R221, R323, R418). -/

namespace Sys2Proof.Machine

/-- Settles O4: the queue's front command, or the idle cycle, keeps every memory canonical (`step_keeps`). -/
theorem stepKeepsMemoriesCanonical : Obligations.StepKeepsMemoriesCanonical := fun _ _ hm h => (step_keeps h).mems hm

/-- Settles O3: at reset no memory lists an address. -/
theorem resetMemoriesCanonical : Obligations.ResetMemoriesCanonical := by
  unfold Obligations.ResetMemoriesCanonical
  refine ⟨rfl, rfl, rfl, rfl, rfl, rfl, rfl, ?log, ?tiles, ?loc, ?saved⟩
  case log => intro r hr; cases hr
  case tiles | loc | saved => intro p hp; cases hp

end Sys2Proof.Machine
end

section
/-! SUPPORT. The issue of tile instructions: what a fetched word comes to, the control instructions, the words that stop a stream, the waits,
and the deferred queue (R89 to R94, R99, R101, R102, R106). -/

namespace Sys2Proof.Machine

/-! ## A tile and its update -/

theorem tile_of_listed {s : State} {t : Nat} {x : Tile} (h : s.tile? t = some x) : s.tile t = x := by
  unfold State.tile? at h
  unfold State.tile Tbl.look
  rw [h]

theorem tile_updTile {s : State} {t : Nat} {x : Tile} (f : Tile → Tile) (h : s.tile? t = some x) : (updTile t f s).tile t = f (s.tile t) := by
  rw [tile_of_listed h]
  unfold State.tile? at h
  refine tile_of_listed ?_
  simp only [updTile, Tbl.upd, State.tile?, h, Tbl.look?_put, if_true]

/-- An update of a tile depends on what it makes of the tile as it stands and on nothing else. -/
theorem updTile_congr {s : State} {t : Nat} {f g : Tile → Tile} (h : f (s.tile t) = g (s.tile t)) : updTile t f s = updTile t g s := by
  unfold updTile Tbl.upd
  split
  · next x hx => rw [tile_of_listed hx] at h; rw [h]
  · rfl

/-- An entry written as it is leaves its table. -/
theorem put_of_look? {α : Type} {t : Tbl α} {k : Nat} {v : α} (h : Tbl.look? t k = some v) : Tbl.put t k v = t := by
  induction t with
  | nil => cases h
  | cons p r ih =>
    obtain ⟨i, w⟩ := p
    rw [Tbl.look?_cons] at h
    unfold Tbl.put
    split_ifs at h with heq hlt
    · rw [if_neg (by omega), if_pos heq, ← heq, Option.some.inj h]
    · rw [if_neg hlt, if_neg heq, ih h]

/-- A sequencer that is not idle is listed, so writing it back changes nothing. -/
theorem setSeq_self {x : Tile} {k : Nat} (h : (x.seq k).state ≠ 0) : x.setSeq k (x.seq k) = x := by
  have hlook : Tbl.look? x.seqs k = some (x.seq k) := by
    unfold Tile.seq Tbl.look at h ⊢
    cases e : Tbl.look? x.seqs k with
    | none => rw [e] at h; exact absurd rfl h
    | some q => rfl
  unfold Tile.setSeq
  rw [put_of_look? hlook]

/-- A stream that may issue belongs to a tile that is there and to a sequencer that is not idle. -/
theorem mayIssue_listed {t st : Nat} {s : State} (h : mayIssue t st s = true) :
    ∃ x, s.tile? t = some x ∧ ((s.tile t).seq (regSeq st)).state ≠ 0 := by
  unfold mayIssue at h
  cases hx : s.tile? t with
  | none => rw [hx] at h; cases h
  | some x =>
    refine ⟨x, rfl, fun h0 => ?_⟩
    rw [tile_of_listed hx] at h0
    simp [hx, h0] at h

/-! ## What a fetched word comes to -/

/-- What a word fetched for its row does, in the order in which R89 to R92 and R106 look at it. -/
def issueFetched (t : Fin 8) (st : Fin 4) (w : BitVec 128) (mask : Nat) (check : Iss → Nat) (act : Iss → State → Eff) (s : State) : State :=
  let i := tileIss t st w s
  if bits w.toNat 3 0 > 4 then tileInvalid t st 1 s
  else if !opDefined (bits w.toNat 3 0) (bits w.toNat 9 4) then tileInvalid t st 2 s
  else if w.toNat &&& mask ≠ w.toNat then tileInvalid t st 10 s
  else if check i ≠ 0 then tileInvalid t st (check i) s
  else if issWaits i.x i.q w.toNat then updSeq t (regSeq st) (fun q => { q with state := 5 }) s
  else
    match act i (semTaken t st w s) with
    | .stall f => updSeq t (regSeq st) f s
    | .stop s1 => s1
    | .issued now next s1 => moveOn t st next (if now then retire t st i.job i.cid w.toNat true s1 else s1)

section
variable {t : Fin 8} {st : Fin 4} {w : BitVec 128} {s : State} {cls op mask : Nat} {check : Iss → Nat} {act : Iss → State → Eff}

theorem issue_fetched (hmay : mayIssue t st s = true) (hfresh : (s.tile t).reloads (streamOf (s.tile t) st) = false)
    (hfetch : firstUnmapped s (tileIss t st w s).job ((tileIss t st w s).q.base + 16 * (tileIss t st w s).pc) 16 = none)
    (hrow : bits w.toNat 3 0 ≤ 4 → opDefined (bits w.toNat 3 0) (bits w.toNat 9 4) = true → bits w.toNat 3 0 = cls ∧ bits w.toNat 9 4 = op) :
    issue t st w cls op mask check act s = .next (issueFetched t st w mask check act s) := by
  simp only [tileIss] at hfetch
  have hown : ¬ (decide (bits w.toNat 3 0 ≤ 4) && opDefined (bits w.toNat 3 0) (bits w.toNat 9 4) &&
      !(decide (bits w.toNat 3 0 = cls) && decide (bits w.toNat 9 4 = op))) = true := by
    simp only [Bool.and_eq_true, Bool.not_eq_true', Bool.and_eq_false_iff, decide_eq_true_eq, decide_eq_false_iff_not]
    rintro ⟨⟨hc, ho⟩, hne⟩
    exact hne.elim (fun e => e (hrow hc ho).1) (fun e => e (hrow hc ho).2)
  unfold issue
  simp only
  rw [if_neg hown, if_neg (by simp [hmay]), if_neg (by simp [hfresh]), hfetch]
  rfl

/-! ## The three ends of an instruction that is ready -/

theorem issue_retires {next : Nat} {u : State} (h : TileReady t st w cls op mask s) (hop : opDefined cls op = true) (hc : cls ≤ 4)
    (hk : check (tileIss t st w s) = 0) (hact : act (tileIss t st w s) (semTaken t st w s) = .issued true next u) :
    issue t st w cls op mask check act s = .next (retired t st w (tileIss t st w s) next u) := by
  rw [issue_ready h hop hc check act hk, hact]; rfl

theorem issue_moves {next : Nat} {u : State} (h : TileReady t st w cls op mask s) (hop : opDefined cls op = true) (hc : cls ≤ 4)
    (hk : check (tileIss t st w s) = 0) (hact : act (tileIss t st w s) (semTaken t st w s) = .issued false next u) :
    issue t st w cls op mask check act s = .next (moveOn t st next u) := by
  rw [issue_ready h hop hc check act hk, hact]; rfl

theorem issue_stalls {f : Seq → Seq} (h : TileReady t st w cls op mask s) (hop : opDefined cls op = true) (hc : cls ≤ 4)
    (hk : check (tileIss t st w s) = 0) (hact : act (tileIss t st w s) (semTaken t st w s) = .stall f) :
    issue t st w cls op mask check act s = .next (updSeq t (regSeq st) f s) := by
  rw [issue_ready h hop hc check act hk, hact]

/-! ## Control instructions (R94) -/

theorem control_retires {f : Iss → Seq → Seq} (h : TileReady t st w 0 op mask s) (hop : opDefined 0 op = true)
    (hk : check (tileIss t st w s) = 0) :
    control t st w op mask check f s =
      .next (retired t st w (tileIss t st w s) ((tileIss t st w s).pc + 1) (updRegs t st (f (tileIss t st w s)) (semTaken t st w s))) :=
  issue_retires h hop (by decide) hk rfl

theorem exec_jmp {go : Bool} {c : Nat} (h : TileReady t st w 0 3 (tileMask 0 3) s)
    (hin : inStream (tileIss t st w s) (jumpTo (tileIss t st w s)) = true) (hj : jmpTaken (tileIss t st w s) = (go, c)) :
    exec (.jmp t st w) s = .next (retired t st w (tileIss t st w s)
      (if go then (jumpTo (tileIss t st w s)).toNat else (tileIss t st w s).pc + 1)
      (updRegs t st (fun q => { q with loop := Tbl.put q.loop (bits w.toNat 65 64) c }) (semTaken t st w s))) := by
  show execJmp t st w s = _
  refine issue_retires h rfl (by decide) (if_pos hin) ?_
  rw [hj]
  rfl

end

theorem jmpTaken_always {i : Iss} (h : bitOf i.v 66 = false) : jmpTaken i = (true, i.q.ctr (bits i.v 65 64)) := by
  unfold jmpTaken; rw [h]; rfl

theorem jmpTaken_counted {i : Iss} {c : Nat} (h : bitOf i.v 66 = true) (hc : c = (i.q.ctr (bits i.v 65 64) + 2 ^ 24 - 1) % 2 ^ 24) :
    jmpTaken i = (decide (c ≠ 0), c) := by
  unfold jmpTaken; rw [h, hc]; rfl

/-- Settles O13: the instructions without a jump retire with their effect on the registers (`control_retires`), JMP where `jmpTaken` says. -/
theorem tileControlInstructionsComplete : Obligations.TileControlInstructionsComplete := by
  rintro t st w s _ rfl
  refine ⟨fun h => (control_retires h rfl rfl : execNop t st w s = _), fun h => (control_retires h rfl rfl : execSetc t st w s = _),
    fun h h0 => (control_retires h rfl (if_neg h0) : execAset t st w s = _), fun h h0 => (control_retires h rfl (if_neg h0) : execAinc t st w s = _),
    fun h => (control_retires h rfl rfl : execRbset t st w s = _), fun h => (control_retires h rfl rfl : execRbinc t st w s = _),
    fun h hin hb => ?always, fun c hc h hin hb => ?counted⟩
  case always => exact exec_jmp h hin (jmpTaken_always hb)
  case counted =>
    rw [exec_jmp h hin (jmpTaken_counted hb hc)]
    simp only [decide_eq_true_eq, ite_not]

/-! ## Words that stop the stream (R89, R106) -/

/-- Every row that issues a tile instruction issues it with its class, its operation and the bits that are not reserved in it. -/
theorem exec_issue {i : Instr} {t : Fin 8} {st : Fin 4} {w : BitVec 128} (s : State) (h : tileAt i = some (t, st, w)) :
    ∃ cls op check act, i.tileRow = some (cls, op, w) ∧ exec i s = issue t st w cls op (tileMask cls op) check act s := by
  unfold tileAt at h
  split at h <;> cases h <;> simp only [exec, execNop, execCbnd, execTileEnd, execJmp, execSetc, execAset, execAinc, execRbset, execRbinc, execWload,
    execMma, execMclose, execChain, execUprog, execDma, execLmark, execDefer, control] <;> exact ⟨_, _, _, _, rfl, rfl⟩

/-- A row's class and operation are defined. -/
theorem tileRow_defined {i : Instr} {cls op : Nat} {w : BitVec 128} (h : i.tileRow = some (cls, op, w)) : cls ≤ 4 ∧ opDefined cls op = true := by
  unfold Instr.tileRow at h
  split at h <;> cases h <;> decide

/-- Settles O18: the fetched word meets the check of its class, of its operation or of its reserved bits first (`issueFetched`). -/
theorem tileInvalidWordsStopTheStream : Obligations.TileInvalidWordsStopTheStream := by
  intro i t st w s hat hmay hfresh hfetch
  obtain ⟨cls, op, check, act, hrow, hexec⟩ := exec_issue s hat
  rw [hexec]
  refine ⟨fun hcls => ?cls, fun hcls hop => ?op, fun cls' op' hrow' hcls hop hrsvd => ?rsvd⟩
  case cls =>
    rw [issue_fetched hmay hfresh hfetch fun hle => absurd hle (by omega), issueFetched, if_pos hcls]
  case op =>
    rw [issue_fetched hmay hfresh hfetch fun _ hdef => absurd hdef (by simp [hop]), issueFetched, if_neg (by omega), if_pos (by simp [hop])]
  case rsvd =>
    obtain ⟨rfl, rfl⟩ : cls' = cls ∧ op' = op := by simpa using hrow'.symm.trans hrow
    have hknown : cls' ≤ 4 ∧ opDefined cls' op' = true := tileRow_defined hrow
    rw [issue_fetched hmay hfresh hfetch fun _ _ => ⟨hcls, hop⟩, issueFetched, hcls, hop, if_neg (by omega), if_neg (by simp [hknown.2]), if_pos hrsvd]

/-! ## Waits (R89 to R91) -/

theorem issWaits_of {t : Fin 8} {st : Fin 4} {w : BitVec 128} {s : State}
    (h : (bitOf w.toNat 20 = true ∧ (tileIss t st w s).q.token (bits w.toNat 25 22) ≠ .full) ∨
      (bitOf w.toNat 10 = true ∧ (s.tile t).sem (semKey (tileIss t st w s).job (bits w.toNat 14 11)) = 0)) :
    issWaits (tileIss t st w s).x (tileIss t st w s).q w.toNat = true := by
  simp only [issWaits, Bool.or_eq_true, Bool.and_eq_true, decide_eq_true_eq]
  exact h

/-- Settles O19: the word passes its checks and stops at its wait (`issueFetched`), and none of the four rows has a check of its own. -/
theorem tileWaitsChangeNothingElse : Obligations.TileWaitsChangeNothingElse := by
  intro i t st w s op hi hrow hmay hfresh hcls hop hfetch hrsvd hwait
  have key : ∀ f, control t st w op (tileMask 0 op) (fun _ => 0) f s = .next (updSeq t (regSeq st) (fun q => { q with state := 5 }) s) := by
    intro f
    have hdef : opDefined 0 op = true := (tileRow_defined hrow).2
    rw [control, issue_fetched hmay hfresh hfetch fun _ _ => ⟨hcls, hop⟩, issueFetched, hcls, hop, if_neg (by decide), if_neg (by simp [hdef]),
      if_neg (by simp [hrsvd]), if_neg (by simp), if_pos (issWaits_of hwait)]
  rcases hi with rfl | rfl | rfl | rfl <;> cases hrow
  · exact (key _ : execNop t st w s = _)
  · exact (key _ : execSetc t st w s = _)
  · exact (key _ : execRbset t st w s = _)
  · exact (key _ : execRbinc t st w s = _)

/-! ## LMARK, DEFER and the start of a deferred block (R99, R101, R102) -/

section
variable {t : Fin 8} {w : BitVec 128} {s : State}

theorem exec_lmark {st : Fin 4} (hst : st.val ≠ 3) (h : TileReady t st w 4 0 (tileMask 4 0) s) :
    exec (.lmark t st w) s = .next (retired t st w (tileIss t st w s) ((tileIss t st w s).pc + 1)
      (updTile t (fun x => { x with lmarks := x.lmarks ++ [((tileIss t st w s).job, bits w.toNat 47 32)] }) (semTaken t st w s))) :=
  (issue_retires h rfl (by decide) (if_neg hst) rfl : execLmark t st w s = _)

section
variable (h : TileReady t 1 w 4 1 (tileMask 4 1) s) (hcount : bits w.toNat 79 64 ≠ 0)
  (hrange : (tileIss t 1 w s).q.base + 16 * (bits w.toNat 63 32 + bits w.toNat 79 64) ≤ rangeBytes)
include h hcount hrange

theorem exec_defer_queues (hroom : (s.tile t).defq.length < 64) :
    exec (.defer t 1 w) s = .next (retired t 1 w (tileIss t 1 w s) ((tileIss t 1 w s).pc + 1)
      (updTile t (fun x => { x with defq := x.defq ++ [{
        offset := bits w.toNat 63 32, count := bits w.toNat 79 64, layer := bits w.toNat 95 80,
        job := (tileIss t 1 w s).job, cid := (tileIss t 1 w s).cid }] }) (semTaken t 1 w s))) :=
  have hk := (if_neg (not_not.2 rfl)).trans ((if_neg hcount).trans (if_neg (not_lt.2 hrange)))
  (issue_retires h rfl (by decide) hk (if_neg (not_le.2 hroom)) : execDefer t 1 w s = _)

theorem exec_defer_stalls (hfull : (s.tile t).defq.length ≥ 64) : exec (.defer t 1 w) s = .next (updSeq t 1 id s) :=
  have hk := (if_neg (not_not.2 rfl)).trans ((if_neg hcount).trans (if_neg (not_lt.2 hrange)))
  (issue_stalls h rfl (by decide) hk (if_pos hfull) : execDefer t 1 w s = _)

end

/-- A wait that leaves nothing on its sequencer leaves the tile as it was. -/
theorem updSeq_id_tile {st : Fin 4} (h : mayIssue t st s = true) : (updSeq t (regSeq st) id s).tile t = s.tile t := by
  obtain ⟨x, hx, hstate⟩ := mayIssue_listed h
  unfold updSeq
  rw [tile_updTile _ hx]
  exact setSeq_self hstate

theorem exec_deferredBlockStart {b : DefBlock} {r : List DefBlock} (hq : (s.tile t).defq = b :: r) (hclk : s.clocked = true)
    (hrun : (s.tile t).defRun = none) (hgrant : shadowGrant t 3 s = true) (hcid : ((s.tile t).seq 1).cid = b.cid)
    (hunit : (s.unit (unitOf t 1)).run.isSome = true) :
    exec (.deferredBlockStart t) s = .next (updTile t (fun x => { x with
      defq := r, defNo := x.defNo + 1,
      defRun := some { blk := b, no := x.defNo, pc := b.offset, areg := (s.tile t |>.seq 1).areg, loop := (s.tile t |>.seq 1).loop,
                       rbase := (s.tile t |>.seq 1).rbase, owned := none, reload := false, started := false } }) s) := by
  show execDeferredBlockStart t s = _
  unfold execDeferredBlockStart
  simp only [hq]
  rw [when_next (by simp [hclk, hrun, hgrant, hcid, hunit])]
  exact congrArg _ (updTile_congr rfl)

end

/-- Settles O17: DEFER queues or waits by the length of the queue (`exec_defer_queues`, `exec_defer_stalls`); the front block starts. -/
theorem deferredQueueIsFirstInFirstOut : Obligations.DeferredQueueIsFirstInFirstOut := by
  rintro t w s _ rfl h hcount hrange
  refine ⟨fun hroom => exec_defer_queues h hcount hrange hroom, fun hfull => ⟨_, exec_defer_stalls h hcount hrange hfull, ?_⟩,
    fun u b r hq hclk hrun hgrant hcid hunit => exec_deferredBlockStart hq hclk hrun hgrant hcid hunit,
    fun st v u hst hv => exec_lmark hst hv⟩
  have htile : (updSeq t 1 id s).tile t = s.tile t := updSeq_id_tile h.may
  rw [htile]
  exact ⟨rfl, rfl, rfl⟩

end Sys2Proof.Machine
end

section
/-! SUPPORT. The array: WLOAD, MMA, MCLOSE and the plane swap (R95 to R97, R101, R103, R104). -/

namespace Sys2Proof.Machine

/-- No row of the activations, nor of the accumulators that an MMA adds to, is poisoned. -/
theorem mmaRows_clean {x : Tile} {w : BitVec 128} {b : WBlock} {m rb a n stride : Nat} (hclean : ∀ r < m, x.poisoned (a + r * stride) n = false ∧
      (bitOf w.toNat 76 = true ∨ x.poisoned (afBase + 4096 * (rb + r)) (16 * b.n) = false)) :
    ((List.range m).any fun r => x.poisoned (a + r * stride) n ||
      (!bitOf w.toNat 76 && x.poisoned (afBase + 4096 * (rb + r)) (16 * b.n))) = false := by
  simp only [List.any_eq_false, List.mem_range, Bool.or_eq_true, Bool.and_eq_true, Bool.not_eq_true', not_or, not_and]
  intro r hr
  obtain ⟨hact, hacc⟩ := hclean r hr
  refine ⟨by simp [hact], fun hb => ?_⟩
  rcases hacc with hacc | hacc
  · simp [hacc] at hb
  · simp [hacc]

section
variable {t : Fin 8} {st : Fin 4} {w : BitVec 128} {s : State} {i : Iss} (hi : i = tileIss t st w s)
include hi

theorem exec_wload {b : WBlock} (h : TileReady t st w 1 0 (tileMask 1 0) s) (hk : wloadCheck i = 0)
    (hgrant : shadowGrant t st (semTaken t st w s) = true)
    (hb : readBlock i.x (streamOf i.x st) i.job w (i.q.taddr (bits w.toNat 63 32)) = some b) :
    exec (.wload t st w) s = .next (retired t st w i (i.pc + 1) (updTile t (fun x =>
      let x1 := (x.evict x.shadow).setOwned (streamOf i.x st) (some (w, i.q.taddr (bits w.toNat 63 32))) false
      let x2 := if st.val = 3 then x1 else x1.setSeq st { x1.seq st with wantsShadow := none }
      { x2 with shadow := some b }) (semTaken t st w s))) := by
  subst hi
  show execWload t st w s = _
  refine issue_retires h rfl (by decide) hk ?_
  have hb' : readBlock (tileIss t st w s).x (streamOf (tileIss t st w s).x (tileIss t st w s).st) (tileIss t st w s).job w
      ((tileIss t st w s).q.taddr (bits (tileIss t st w s).v 63 32)) = some b := hb
  simp only [hgrant, Bool.not_true, Bool.false_eq_true, if_false, hb']
  rfl

theorem exec_mma {b : WBlock} {m rb a n stride : Nat} {p : Pass} (h : TileReady t st w 1 1 (tileMask 1 1) s) (hk : mmaCheck i = 0)
    (hb : activeOf i.x (streamOf i.x st) = some b) (hm : m = bits w.toNat 71 64 + 1) (hrb : rb = bits w.toNat 85 78)
    (ha : a = i.q.taddr (bits w.toNat 63 32)) (hn : n = fmtBytes (bits w.toNat 75 72) b.k) (hstride : stride = strideOf (bits w.toNat 101 86) n)
    (hclean : ∀ r < m, i.x.poisoned (a + r * stride) n = false ∧
      (bitOf w.toNat 76 = true ∨ i.x.poisoned (afBase + 4096 * (rb + r)) (16 * b.n) = false))
    (hp : p = { blk := b, afmt := bits w.toNat 75 72,
                acts := (List.range m).map fun r => elems (bits w.toNat 75 72) (i.x.read (a + r * stride) n) b.k,
                rowBase := rb, init := bitOf w.toNat 76, last := bitOf w.toNat 77, cid := i.cid, word := w, hit := [] }) :
    exec (.mma t st w) s = .next (moveOn t st (i.pc + 1) (updTile t (fun x =>
      let x1 := { x with passes := x.passes ++ [p] }
      if p.last then { x1.setOwned (streamOf i.x st) none false with active := none } else x1) (semTaken t st w s))) := by
  have hbad := mmaRows_clean hclean
  subst hi hm hrb ha hn hstride hp
  show execMma t st w s = _
  refine issue_moves h rfl (by decide) hk ?_
  have hb' : activeOf (tileIss t st w s).x (streamOf (tileIss t st w s).x (tileIss t st w s).st) = some b := hb
  simp only [hb', tileIss_v, hbad, Bool.false_eq_true, if_false]
  rfl

section
variable {c : Close} (h : TileReady t st w 1 2 (tileMask 1 2) s) (hk : mcloseCheck i = 0)
  (hc : c = { owner := streamOf i.x st, after := closeAfter i.x (streamOf i.x st) (bits w.toNat 79 72) (bits w.toNat 71 64 + 1), cid := i.cid,
              job := i.job, dst := i.q.taddr (bits w.toNat 63 32), word := w, hit := [] })
include h hk hc

theorem exec_mclose_waits (hafter : c.after ≠ 0) :
    exec (.mclose t st w) s = .next (moveOn t st (i.pc + 1) (updTile t (fun x => { x with closes := x.closes ++ [c] }) (semTaken t st w s))) := by
  subst hi hc
  exact (issue_moves h rfl (by decide) hk (if_neg hafter) : execMclose t st w s = _)

theorem exec_mclose_runs (hafter : c.after = 0) (hrun : ((runClose t c (semTaken t st w s)).tile t |>.seq (regSeq st)).state ≠ 6) :
    exec (.mclose t st w) s = .next (moveOn t st (i.pc + 1) (runClose t c (semTaken t st w s))) := by
  subst hi hc
  exact (issue_moves h rfl (by decide) hk ((if_pos hafter).trans (if_neg hrun)) : execMclose t st w s = _)

end

end

theorem exec_swap {t : Fin 8} {s : State} {b : WBlock} {ch : Chunk} (hshadow : (s.tile t).shadow = some b)
    (hrun : (s.unit (unitOf t b.owner.num)).run = some ch) (hclk : s.clocked = true) (hfree : planeFree (s.tile t) (s.tile t).active b.owner = true)
    (hheld : ch.held + heldBy (.block t) s ≥ ch.draws - arrShare s ch.draws + blockDraw s b ch.draws) :
    exec (.swap t) s =
      .next (doSwap t (unitOf t b.owner.num) (ch.draws - arrShare s ch.draws + blockDraw s b ch.draws) ch b s) := by
  show execSwap t s = _
  unfold execSwap
  simp only [hshadow, hrun]
  rw [when_next (by simp [hclk, hfree]), if_pos hheld]

/-- Settles O15: one lemma per instruction, MCLOSE by whether it has passes to wait for. -/
theorem tileArrayInstructionsComplete : Obligations.TileArrayInstructionsComplete := by
  intro t st w s i hi
  refine ⟨fun b h hk hgrant hb => exec_wload hi h hk hgrant hb,
    fun b m rb a n stride p h hk hb hm hrb ha hn hstride hclean hp => exec_mma hi h hk hb hm hrb ha hn hstride hclean hp,
    fun c h hk hc => ⟨exec_mclose_waits hi h hk hc, exec_mclose_runs hi h hk hc⟩,
    fun x b ch arr target hx hshadow hrun hclk hfree harr htarget hheld => ?swap⟩
  case swap => subst hx harr htarget; exact exec_swap hshadow hrun hclk hfree hheld

end Sys2Proof.Machine
end

section
/-! SUPPORT. The vector engine's instructions, the tile's transfers and the lookahead engine (R91, R98, R99, R105, R109, R110, R125, R130). -/

namespace Sys2Proof.Machine

/-! ## CHAIN and UPROG -/

/-- A program none of whose checks fails. -/
theorem progCheck_none {hdr b : Bytes} {roles : List Nat} {ds : List Bytes} {cs : List Chain} {x : Tile} {p : Part} {tableRsvd : Bool}
    (hbad : progBad hdr b roles ds = false) (hbits : bits (leAt hdr 0 4) 31 15 = 0) (hrest : leAt hdr 8 56 = 0) (htable : tableRsvd = false)
    (hcs : ∀ c ∈ cs, c.check x p true (bits (leAt hdr 0 4) 13 6) = none) : progCheck hdr b roles ds cs x p tableRsvd = none := by
  have hchains : (cs.filterMap fun c => (c.check x p true (bits (leAt hdr 0 4) 13 6)).map fun e => (e, c.id)) = [] :=
    List.filterMap_eq_nil_iff.2 fun c hc => by rw [hcs c hc]; rfl
  simp only [progCheck, hchains, hbad, hbits, hrest, htable, ne_eq, not_true_eq_false, decide_false, Bool.or_self, Bool.false_eq_true, if_false]
  rfl

section
variable {t : Fin 8} {st : Fin 4} {w : BitVec 128} {s : State} {i : Iss} (hi : i = tileIss t st w s)
include hi

theorem exec_chain {a ab : Nat} {d : Bytes} (h : TileReady t st w 2 0 (tileMask 2 0) s) (hbits : bits w.toNat 63 59 = 0)
    (hacc : vecAccepts t st (semTaken t st w s) = true) (ha : a = i.q.taddr (bits w.toNat 63 32)) (halign : a % 32 = 0)
    (hspan : osSpanOk i.x i.part a 256 = true) (hclean : i.x.poisoned a 256 = false) (hd : d = i.x.read a 256)
    (hab : ab = i.q.ar (bits w.toNat 66 64)) (hk : (chainOf d [] 0 false ab i.q).check i.x i.part false 0 = none) :
    exec (.chain t st w) s = .next (moveOn t st (i.pc + 1) (vecStart i [(d, [], 0, false)] ab (semTaken t st w s))) := by
  subst hi ha hd hab
  show execChain t st w s = _
  refine issue_moves h rfl (by decide) (if_neg (not_not.2 hbits)) ?_
  simp only [hacc, tileIss_v, halign, hspan, hclean, hk, Bool.not_true, Bool.false_eq_true, ne_eq, not_true_eq_false, decide_false,
    Bool.or_self, if_false]

theorem exec_uprog {a ba h n : Nat} {hdr b : Bytes} {roles : List Nat} {ds : List Bytes} (hr : TileReady t st w 2 1 (tileMask 2 1) s)
    (hbits : bits w.toNat 63 59 = 0) (hbits' : bits w.toNat 95 91 = 0) (hacc : vecAccepts t st (semTaken t st w s) = true)
    (ha : a = i.q.taddr (bits w.toNat 63 32)) (hba : ba = i.q.taddr (bits w.toNat 95 64)) (halign : a % 32 = 0) (halign' : ba % 32 = 0)
    (hspan : osSpanOk i.x i.part a 64 = true) (hspan' : osSpanOk i.x i.part ba 64 = true) (hhdr : hdr = i.x.read a 64) (hh : h = leAt hdr 0 4)
    (hn : n = bits h 1 0 + 1) (hwhole : osSpanOk i.x i.part a (64 + 256 * n) = true) (hclean : i.x.poisoned a (64 + 256 * n) = false)
    (hclean' : i.x.poisoned ba 64 = false) (hb : b = i.x.read ba 64) (hroles : roles = bindRoles i.q b)
    (hds : ds = (List.range n).map (fun k => i.x.read (a + 64 + 256 * k) 256))
    (hk : progCheck hdr b roles ds (progChains h ds roles (leAt b 0 4) i.q) i.x i.part (bindRsvd b) = none) :
    exec (.uprog t st w) s = .next (moveOn t st (i.pc + 1)
      (vecStart i ((List.range n).map fun k => (ds.getD k [], roles, leAt b 0 4, !bitOf h (2 + k))) 0 (semTaken t st w s))) := by
  subst hi ha hba hhdr hh hn hb hroles hds
  show execUprog t st w s = _
  refine issue_moves hr rfl (by decide) (if_neg fun e => e.elim (· hbits) (· hbits')) ?_
  simp only [hacc, tileIss_v, halign, halign', hspan, hspan', hwhole, hclean, hclean', hk, Bool.not_true, Bool.false_eq_true, ne_eq,
    not_true_eq_false, decide_false, Bool.or_self, if_false]

/-! ## DMA -/

theorem exec_dma_ahead (h : TileReady t st w 3 0 (tileMask 3 0) s) (hk : dmaCheck i.x i.part i.q w.toNat = 0) (hst : st.val ≠ 3)
    (hahead : i.q.ahead.contains i.dyn = true) :
    exec (.dma t st w) s = .next (moveOn t st (i.pc + 1)
      (updSeq t (regSeq st) (fun q => { q with ahead := q.ahead.erase i.dyn }) (semTaken t st w s))) := by
  subst hi
  exact (issue_moves h rfl (by decide) hk (if_pos (by simp only [hahead, Bool.and_true]; exact decide_eq_true hst)) : execDma t st w s = _)

theorem exec_dma_starts (h : TileReady t st w 3 0 (tileMask 3 0) s) (hk : dmaCheck i.x i.part i.q w.toNat = 0)
    (hnew : st.val = 3 ∨ i.q.ahead.contains i.dyn = false) (htok : i.q.token (bits w.toNat 35 32) = .empty)
    (hrun : ((dmaStart t st w i.q (semTaken t st w s)).tile t |>.seq (regSeq st)).state ≠ 6) :
    exec (.dma t st w) s = .next (moveOn t st (i.pc + 1) (dmaStart t st w i.q (semTaken t st w s))) := by
  subst hi
  have hfirst : ¬ (decide ((tileIss t st w s).st ≠ 3) && (tileIss t st w s).q.ahead.contains (tileIss t st w s).dyn) = true := by
    rcases hnew with hst | hnew
    · simp [tileIss, hst]
    · simp only [hnew, Bool.and_false, Bool.false_eq_true, not_false_eq_true]
  exact (issue_moves h rfl (by decide) hk ((if_neg hfirst).trans ((if_neg (not_not.2 htok)).trans (if_neg hrun))) : execDma t st w s = _)

end

/-- The lookahead engine at a DMA that it may issue: the transfer starts and the engine walks on. -/
theorem exec_lookaheadDmaIssue {t : Fin 8} {sq : Fin 3} {w : BitVec 128} {s : State} {q q1 : Seq} {dyn : Nat} (hq : q = (s.tile t).seq sq)
    (hclk : s.clocked = true) (hlisted : (s.tile? t).isSome = true) (hrun : (s.unit (3 * t + sq)).run.isSome = true)
    (hhalt : (s.unit (3 * t + sq)).halted = false) (hheld : q.laHeld = false) (hla : lookahead s q 64 q q.pc q.dyn = .dma w.toNat dyn q1)
    (hrsvd : w.toNat &&& dmaMask = w.toNat) (hk : dmaCheck (s.tile t) (partOf s q.job t) q1 w.toNat = 0) :
    exec (.lookaheadDmaIssue t sq w) s =
      .next (laSettle t sq (updSeq t sq (fun y => { y with ahead := y.ahead ++ [dyn], laStop := none }) (dmaStart t sq w q1 s))) := by
  subst hq
  show execLookaheadDmaIssue t sq w s = _
  unfold execLookaheadDmaIssue
  simp only
  rw [when_next (by simp [hclk, hlisted, hrun, hhalt, hheld]), hla]
  simp only [hrsvd, hk, ne_eq, not_true_eq_false, or_self, if_false]

/-! ## The ends of transfers and chains -/

theorem whenP_done_of {i : Instr} {b : Bool} {f : State → State} {s u : State} (h : b = true) (hu : f (unused s) = u) (hr : usesReady u) :
    whenP i b f s = .next (done s u) := by
  subst hu; exact whenP_done h hr

theorem exec_dmaComplete {t : Fin 8} {k : Nat} {d : Dma} {ks : List Nat} {s s1 s2 u : State} (hd : (s.tile t).dmas[k]? = some d)
    (hclk : s.clocked = true) (hruns : dmaRuns t d s = true) (hbulk : bulkDone s d = true) (hks : ks = foreign t d.owner d.afSpans (unused s) ++ d.hit)
    (hmove : dmaMove t d d.moved d.len (clashWith t d.owner d.afSpans (undefine t ks (unused s))) = .done s1)
    (hs2 : s2 = bankEvents t (undefine t ks (updTile t (fun x => { x with dmas := x.dmas.eraseIdx k }) s1)))
    (hu : u = retire t d.owner.num d.job d.cid d.word.toNat false
      (updSeq t (regSeq d.owner.num) (fun q => { q with tok := Tbl.put q.tok d.tok .full })
        { s2 with zor := { s2.zor with bulks := s2.zor.bulks.filter fun b => decide (some b.tag ≠ d.bulk) } })) (hr : usesReady u) :
    exec (.dmaComplete t k) s = .next (done s u) := by
  show execDmaComplete t k s = _
  unfold execDmaComplete
  simp only [hd]
  refine whenP_done_of (by simp [hclk, hruns, hbulk]) ?_ hr
  subst hks hs2 hu
  simp only [hmove]

theorem exec_chainRetire {t : Fin 8} {r : ChainRun} {c : Chain} {s : State} (hr : (s.tile t).chain = some r) (hclk : s.clocked = true)
    (hgoes : r.stopped = false) (hrun : (s.unit (unitOf t r.owner.num)).run.isSome = true) (hextra : r.extra = 0 ∨ holds (.vecExtra t) s = true)
    (hcur : r.cur = some c) (hwaits : handoffWaits (s.tile t) r c = false) (hover : chainOver (chainAdvance t 65536 s) t = true) :
    exec (.chainRetire t) s = .next (chainEnd t (chainAdvance t 65536 s)) := by
  show execChainRetire t s = _
  unfold execChainRetire
  simp only [hr, hcur]
  rw [when_next (by simp [hclk, hgoes, hrun, hextra, hwaits]), if_pos hover]

/-- Settles O16: one lemma per instruction and event; a program's checks are those of `progCheck_none`. -/
theorem tileTransfersAndVectorsComplete : Obligations.TileTransfersAndVectorsComplete := by
  intro t st w s i hi
  refine ⟨fun a d ab h hbits hacc ha halign hspan hclean hd hab hk => exec_chain hi h hbits hacc ha halign hspan hclean hd hab hk,
    ?uprog, fun h hk => ⟨exec_dma_ahead hi h hk, exec_dma_starts hi h hk⟩, ?lookahead,
    fun k d ks s1 s2 u hd hclk hruns hbulk hks hmove hs2 hu hr => exec_dmaComplete hd hclk hruns hbulk hks hmove hs2 hu hr,
    fun r c hr hclk hgoes hrun hextra hcur hwaits hover => exec_chainRetire hr hclk hgoes hrun hextra hcur hwaits hover⟩
  case uprog =>
    intro a ba h n hdr b roles ds hr hbits hbits' hacc ha hba halign halign' hspan hspan' hhdr hh hn hwhole hclean hclean' hb hroles hds hbad hhigh
      hrest htable hcs
    refine exec_uprog hi hr hbits hbits' hacc ha hba halign halign' hspan hspan' hhdr hh hn hwhole hclean hclean' hb hroles hds ?_
    subst hh
    exact progCheck_none hbad hhigh hrest htable hcs
  case lookahead =>
    intro sq x q q1 dyn hx hq hclk hlisted hrun hhalt hheld hla hrsvd hk
    subst hx
    exact exec_lookaheadDmaIssue hq hclk hlisted hrun hhalt hheld hla hrsvd hk

end Sys2Proof.Machine
end

section
/-! SUPPORT. A dense layer's step, one lemma per command and event: its creation, its markers and its start, slots, the verdict exchange, the
pieces, segments that stay away, stalls and draws (R99, R253, R257, R259, R267, R271, R272, R275, R278, R282). -/

namespace Sys2Proof.Machine

/-! ## Creation and markers -/

theorem exec_denseCreate {q : Fin 128} {c : Cmd} {x : Job} {s : State} (h : Accepted q Op.DENSE_CREATE s c)
    (hx : (started q s).job? c.job = some x) (hk : denseRefusal (started q s) c.job x (c.opndBytes 0 128) = none) :
    exec (.denseCreate q) s = .next (endHead q St.OK 0 0 { started q s with dtr := { (started q s).dtr with
      layers := Tbl.put (started q s).dtr.layers (layerKey c.job (dlLayer (c.opndBytes 0 128)))
        (DLayer.init (c.opndBytes 0 128) ((idxOfRank (c.opndBytes 0 128) x.rank).getD 0)) } }) := by
  show execDenseCreate q s = _
  unfold execDenseCreate runJobNow
  refine (job_next h.head h.job).trans ?_
  simp only [hx, hk]

theorem exec_lmarkDelivered {j : Fin 64} {l : BitVec 16} {t : Nat} {x : Tile} {s : State} (hclk : s.clocked = true)
    (hfind : s.tiles.find? (fun p => p.2.lmarks.contains (j.val, l.toNat) && !deferredLeft s p.1 j l.toNat) = some (t, x)) :
    exec (.lmarkDelivered j l) s =
      .next (countMark j l.toNat (updTile t (fun x => { x with lmarks := x.lmarks.erase (j.val, l.toNat) }) s)) := by
  show execLmarkDelivered j l s = _
  unfold execLmarkDelivered
  simp only [hfind]
  exact when_next hclk

/-! ## The start of a step, slots and the verdict -/

section
variable {j : Fin 64} {l : BitVec 16} {L : DLayer} {s s1 u : State} (hL : s.layer? j l.toNat = some L)
include hL

theorem exec_denseStepStart (hon : denseOn s j = true) (hdusk : duskBegun s = false) (hphase : L.phase = 0) (hmarks : dlMarks L.desc ≤ L.marks)
    (hs1 : s1 = updLayer j l.toNat (fun L' => { L' with
      phase := 2, marks := L'.marks - dlMarks L.desc, order := s.dtr.nextOrder, progress := s.clk.fnum, stalled := false, segs := [] })
      { unused s with dtr := { s.dtr with nextOrder := s.dtr.nextOrder + 1 } })
    (hu : u = beginRings j l.toNat (if dlResbase L.desc = 0 then s1 else preparePass j l.toNat L.desc (reductionAsk 1 s1))) (hr : usesReady u) :
    exec (.denseStepStart j l) s = .next (done s u) := by
  show execDenseStepStart j l s = _
  unfold execDenseStepStart
  simp only [hL]
  refine whenP_done_of (by simp [hon, hdusk, hphase, hmarks]) ?_ hr
  subst hs1 hu
  rfl

theorem exec_verdictExchangeStart {p : Option Nat} (hon : denseOn s j = true) (hphase : L.phase = 2) (hwhole : shardWhole L = true)
    (hp : p = ownPoison (unused s) j L)
    (hu : u = takeVerdicts 18 j l.toNat (updLayer j l.toNat (fun L => { L with
      phase := 3, votes := L.vote, round := 0, sentRounds := 0, progress := s.clk.fnum, stalled := false })
      (votePoison j l.toNat p.isSome p (unused s)))) (hr : usesReady u) :
    exec (.verdictExchangeStart j l) s = .next (done s u) := by
  show execVerdictExchangeStart j l s = _
  unfold execVerdictExchangeStart
  simp only [hL]
  refine whenP_done_of (by simp [hon, hphase, hwhole]) ?_ hr
  subst hp hu
  rfl

end

theorem exec_slotStart {slot : Fin 64} {s u : State} (hu : u = runUntil (s.atPos (slot.val * s.slotLen)) s)
    (h : ∀ x, x = s ∨ x = u → x.framed = true ∧ x.lost = false ∧ x.slotLen ≠ 0 ∧ x.pos / x.slotLen ≤ slot.val ∧
      x.dtr.slot ≠ some (x.clk.fnum, slot.val)) : exec (.slotStart slot) s = .next (slotStart slot.val u) := by
  have hready : ∀ x, x = s ∨ x = u → (x.framed && !x.lost && decide (x.slotLen ≠ 0) && decide (x.pos / x.slotLen ≤ slot.val) &&
      decide (x.dtr.slot ≠ some (x.clk.fnum, slot.val))) = true := by
    intro x hx
    obtain ⟨hframed, hlost, hlen, hpos, hslot⟩ := h x hx
    simp [hframed, hlost, hlen, hpos, hslot]
  subst hu
  exact (instant_next (hready s (.inl rfl)) (hready _ (.inr rfl)) : execSlotStart slot s = _)

/-! ## Pieces -/

/-- Work of an engine with a place of its own that comes to a known state. -/
theorem powered_done_of {f : State → State} {s u : State} (hu : f (unused s) = u) (hr : usesReady u) : powered f s = done s u := by
  subst hu; exact settle_done hr

theorem beginPiece_goesOn {j l : Nat} {x : Job} {L : DLayer} {s : State} (h : L.running.isSome = true) : beginPiece j l x L s = runPiece j l x L s :=
  if_pos h

theorem beginPiece_new {j l v : Nat} {x : Job} {L : DLayer} {s s1 : State} (h : L.running = none) (hv : (v, s1) = freeVal s) :
    beginPiece j l x L s = if v % 2 = 0 then runPiece j l x L s1
      else updLayer j l (fun L => { L with running := some s.clk.fnum, progress := s.clk.fnum, stalled := false }) s1 := by
  unfold beginPiece
  rw [h, ← hv]
  rfl

theorem exec_densePieceAdmit {j : Fin 64} {l : BitVec 16} {L : DLayer} {x : Job} {s u : State} (hL : s.layer? j l.toNat = some L)
    (hx : s.job? j = some x) (hon : denseOn s j = true) (hphase : L.phase = 4) (htime : pieceTime s L = true)
    (hneed : pieceNeed s j x L = 0 ∨ holds (pieceOwner j l.toNat) s = true)
    (hturn : (L.running.isSome = true ∧ (s.tile (dlUtile L.desc)).vecFree = true) ∨
      (L.running = none ∧ dlxHolds s j (pieceMsgBytes L) = false ∧ vecIdle s (dlUtile L.desc) = true))
    (hu : unpark (dlUtile L.desc) (beginPiece j l.toNat x L (unused s)) = u) (hr : usesReady u) :
    exec (.densePieceAdmit j l) s = .next (done s u) := by
  show execDensePieceAdmit j l s = _
  unfold execDensePieceAdmit
  simp only [hL, hx]
  refine (when_next ?may).trans ?acts
  case may =>
    simp only [hon, hphase, htime, decide_true, Bool.true_and]
    rcases hturn with ⟨hrun, hfree⟩ | ⟨hrun, hdlx, hidle⟩
    · obtain ⟨f, hf⟩ := Option.isSome_iff_exists.1 hrun
      simp only [hf, hfree]
    · simp only [hrun, hdlx, hidle, Bool.not_false, Bool.and_self]
  case acts => rw [if_pos (by simpa using hneed), powered_done_of hu hr]

/-! ## What stays away -/

theorem exec_segFetchTimeout {j : Fin 64} {l : BitVec 16} {shard seg : Nat} {L : DLayer} {s u : State} (hL : s.layer? j l.toNat = some L)
    (hon : denseOn s j = true) (hphase : L.phase = 4 ∨ L.phase = 5) (hshard : shard < dlG L.desc) (hother : shard ≠ L.gidx)
    (hseg : seg < shardSegs L.desc shard) (haway : L.segs.contains (shard, seg) = false) (hnew : L.fetch.contains (shard, seg) = false)
    (hdue : L.gatherAt + regField s Reg.DTR_CFG 7 0 ≤ s.clk.fnum) (hu : u = segFetch j l.toNat shard seg (unused s)) (hr : usesReady u) :
    exec (.segFetchTimeout j l shard seg) s = .next (done s u) := by
  show execSegFetchTimeout j l shard seg s = _
  unfold execSegFetchTimeout
  simp only [hL]
  refine whenP_done_of ?_ hu.symm hr
  simp only [hon, hshard, hother, hseg, haway, hnew, hdue, ne_eq, not_false_eq_true, decide_true, Bool.not_false, Bool.and_true, Bool.true_and,
    Bool.or_eq_true, decide_eq_true_eq]
  exact hphase

theorem exec_collectiveStall {j : Fin 64} {l : BitVec 16} {L : DLayer} {s : State} (hL : s.layer? j l.toNat = some L) (hclk : s.clocked = true)
    (hlost : s.lost = false) (hphase : L.phase ≠ 0) (hnew : L.stalled = false) (hdue : L.progress + regField s Reg.DTR_CFG 7 0 ≤ s.clk.fnum) :
    exec (.collectiveStall j l) s = .next (raiseInt blkDtr 3 (dtrErr 5 j l.toNat L.step
      (fault { code := 0x0042, job := some j.val, arg0 := denseArg l.toNat L.step, arg1 := if L.access then 6 else L.phase }
        (updLayer j l.toNat (fun L => { L with stalled := true }) s)))) := by
  show execCollectiveStall j l s = _
  unfold execCollectiveStall
  simp only [hL]
  exact when_next (by simp [hclk, hlost, hphase, hnew, hdue])

theorem exec_reductionDrawReturn {k : Fin 3} {s u : State} (hclk : s.clocked = true) (hheld : holds (.reduction k) s = true)
    (hidle : reductionBusy s k = false) (hu : u = runUntil (Tbl.look s.stk.use (8200 + k.val) 0 + 64000) s) (hclk' : u.clocked = true)
    (hheld' : holds (.reduction k) u = true) (hidle' : reductionBusy u k = false) (hdue : Tbl.look u.stk.use (8200 + k.val) 0 + 64000 ≤ u.now) :
    exec (.reductionDrawReturn k) s = .next (ledgerReturn (.reduction k) u) := by
  subst hu
  show execReductionDrawReturn k s = _
  refine (instant_next (by simp [hclk, hheld, hidle]) (by simp [hclk', hheld', hidle'])).trans ?_
  rw [if_neg (not_lt.2 hdue)]

/-- Settles O37: one lemma per event; a piece goes on (`beginPiece_goesOn`) or begins as its free value says (`beginPiece_new`). -/
theorem denseStepEventsComplete : Obligations.DenseStepEventsComplete := by
  refine ⟨fun q c x s s1 hs1 h hx hk => ?create, fun j l t x s hclk hfind => exec_lmarkDelivered hclk hfind,
    fun j l L s s1 u hL hon hdusk hphase hmarks hs1 hu hr => exec_denseStepStart hL hon hdusk hphase hmarks hs1 hu hr,
    fun slot s u hu h => exec_slotStart hu h,
    fun j l L p s u hL hon hphase hwhole hp hu hr => exec_verdictExchangeStart hL hon hphase hwhole hp hu hr,
    fun j l L x v s s1 u hL hx hon hphase htime hneed hv hturn hr => ?piece,
    fun j l shard seg L s u hL hon hphase hshard hother hseg haway hnew hdue hu hr =>
      exec_segFetchTimeout hL hon hphase hshard hother hseg haway hnew hdue hu hr,
    fun j l L s hL hclk hlost hphase hnew hdue => exec_collectiveStall hL hclk hlost hphase hnew hdue,
    fun k s u hclk hheld hidle hu hclk' hheld' hidle' hdue => exec_reductionDrawReturn hclk hheld hidle hu hclk' hheld' hidle' hdue⟩
  case create => subst hs1; exact exec_denseCreate h hx hk
  case piece =>
    rcases hturn with ⟨hrun, hfree, hu⟩ | ⟨hrun, hdlx, hidle, hu⟩
    · exact exec_densePieceAdmit hL hx hon hphase htime hneed (.inl ⟨hrun, hfree⟩) (by rw [beginPiece_goesOn hrun, hu]) hr
    · exact exec_densePieceAdmit hL hx hon hphase htime hneed (.inr ⟨hrun, hdlx, hidle⟩) (by rw [beginPiece_new hrun hv, hu]; rfl) hr

end Sys2Proof.Machine
end

section
/-! SUPPORT. The current ledger's service: what it leaves as it is, who holds draws after it, and the units' idle draws returned (R161, R190,
R219, R250, R282, R319, R377, R454). -/

namespace Sys2Proof.Machine

/-! ## One round of the serving loop (R377) -/

@[simp] theorem grantReq_holds (r : Req) (s : State) : (grantReq r s).ledger.holds = s.ledger.holds ++ [(r.owner, r.units)] := by
  unfold grantReq; dsimp only; split <;> simp

@[simp] theorem grantReq_waiting (r : Req) (s : State) : (grantReq r s).ledger.waiting = s.ledger.waiting.tail := by
  unfold grantReq; dsimp only; split <;> simp

/-- A round of the serving loop either ends it, with no reservation changed, or grants the first request and goes on. -/
theorem ledgerServe_succ {n : Nat} {s t : State} (h : ledgerServe (n + 1) s = t) :
    (∃ l, t = { s with ledger := l } ∧ l.holds = s.ledger.holds) ∨
      ∃ r rest l, t = ledgerServe n (grantReq r { s with ledger := l }) ∧ s.ledger.waiting = r :: rest ∧ l.holds = s.ledger.holds ∧
        l.waiting.tail = rest := by
  unfold ledgerServe at h
  split at h
  case h_1 _ hfuel => cases hfuel
  case h_2 => exact .inl ⟨s.ledger, h.symm, rfl⟩
  case h_3 fuel r rest hfuel hw =>
    cases hfuel
    dsimp only at h
    split_ifs at h
    · exact .inl ⟨_, h.symm, rfl⟩
    · exact .inl ⟨_, h.symm, rfl⟩
    · exact .inr ⟨r, rest, _, h.symm, hw, rfl, rfl⟩

/-! ## What the service of requests brings about -/

/-- What work that waits leaves as it is: the work held before it, the bytes of the stacks and the answers returned. -/
def atRest (s : State) : List (Instr × List Nat) × Mem × List (Nat × MemResp) := (s.held, s.stk.bytes, s.stk.answers)

@[simp] theorem atRest_ledger (l : Ledger) (s : State) : atRest { s with ledger := l } = atRest s := rfl

@[simp] theorem atRest_grantReq (r : Req) (s : State) : atRest (grantReq r s) = atRest s := by
  unfold grantReq; dsimp only; split <;> simp [atRest]

/-- From `s` the service of waiting requests leads to `t`: what is at rest stays, every reservation stands, and a new one is of an owner
that asked. -/
structure Served (s t : State) : Prop where
  rest  : atRest t = atRest s
  stand : ∀ o, holds o s = true → holds o t = true
  asked : ∀ o, holds o t = true → holds o s = true ∨ asking o s = true

theorem Served.refl (s : State) : Served s s := ⟨rfl, fun _ h => h, fun _ h => .inl h⟩

/-- The service after the first request is granted. -/
theorem Served.of_grant {r : Req} {rest : List Req} {l : Ledger} {s t : State} (hw : s.ledger.waiting = r :: rest)
    (hl : l.holds = s.ledger.holds) (hrest : l.waiting.tail = rest) (h : Served (grantReq r { s with ledger := l }) t) : Served s t := by
  have hheld o : holds o (grantReq r { s with ledger := l }) = (holds o s || decide (r.owner = o)) := by simp [holds, hl]
  have hasking o : asking o s = (decide (r.owner = o) || asking o (grantReq r { s with ledger := l })) := by simp [asking, hw, hrest]
  refine ⟨h.rest.trans (by simp), fun o ho => h.stand o (by simp [hheld, ho]), fun o ho => ?_⟩
  have hcases := h.asked o ho
  simp only [hheld, hasking, Bool.or_eq_true] at hcases ⊢
  tauto

theorem served_ledgerServe (n : Nat) (s : State) : Served s (ledgerServe n s) := by
  induction n generalizing s with
  | zero => exact .refl s
  | succ n ih =>
    obtain ⟨l, e, hl⟩ | ⟨r, rest, l, e, hw, hl, hrest⟩ := ledgerServe_succ (n := n) (s := s) rfl <;> rw [e]
    · exact ⟨rfl, fun o ho => by simpa [holds, hl] using ho, fun o ho => .inl (by simpa [holds, hl] using ho)⟩
    · exact (ih _).of_grant hw hl hrest

theorem served_serveAll (s : State) : Served s (serveAll s) := by
  unfold serveAll
  split
  · exact served_ledgerServe _ s
  · exact .refl s

/-! ## Draws returned -/

/-- An owner that does not ask holds nothing after its draws have gone back. -/
theorem holds_ledgerReturn_self {o : Owner} {s : State} (h : asking o s = false) : holds o (ledgerReturn o s) = false := by
  rw [Bool.eq_false_iff]
  intro ho
  rcases (served_serveAll _).asked o ho with hheld | hask
  · simp [holds] at hheld
  · exact Bool.false_ne_true (h.symm.trans hask)

theorem holds_ledgerReturn_other {o o' : Owner} {s : State} (hne : o' ≠ o) (h : holds o' s = true) : holds o' (ledgerReturn o s) = true := by
  refine (served_serveAll _).stand o' ?_
  simp only [holds, List.any_eq_true, decide_eq_true_eq, List.mem_filter] at h ⊢
  obtain ⟨p, hp, rfl⟩ := h
  exact ⟨p, ⟨hp, hne⟩, rfl⟩

/-- A unit that stays idle until 800 cc after its last work returns its draws there. -/
theorem drawReturn_next {o : Owner} {last : State → Nat} {idle : State → Bool} {s u : State} (hidle : idle s = true)
    (hu : u = runUntil (last s + 64000) s) (hidle' : idle u = true) (hdue : last u + 64000 ≤ u.now) :
    atInstant idle (last s + 64000) (fun s => if s.now < last s + 64000 then s else ledgerReturn o s) s = .next (ledgerReturn o u) := by
  subst hu
  rw [instant_next hidle hidle', if_neg (not_lt.2 hdue)]

end Sys2Proof.Machine
end

section
/-! SUPPORT. Requests of the source ports: served when what they stand on is there, held in order until then, refused when their extent is
bad (R144 to R148, R161). -/

namespace Sys2Proof.Machine

/-! ## What asking for draws leaves as it is -/

@[simp] theorem atRest_reserve (o : Owner) (cls units : Nat) (s : State) : atRest (reserve o cls units s) = atRest s := by
  unfold reserve
  split
  · rfl
  · exact (served_serveAll _).rest

@[simp] theorem atRest_needDraw (k : Nat) (s : State) : atRest (needDraw k s) = atRest s := by
  unfold needDraw
  split
  · exact atRest_reserve ..
  · rfl

@[simp] theorem atRest_askUse (k : Nat) (s : State) : atRest (askUse s k) = atRest s := by
  unfold askUse
  split
  · rfl
  · exact atRest_needDraw k s

/-- A fold whose every step leaves what is at rest leaves it too. -/
theorem atRest_foldl {α : Type} {f : State → α → State} (hf : ∀ s x, atRest (f s x) = atRest s) (l : List α) (s : State) :
    atRest (l.foldl f s) = atRest s := by
  induction l generalizing s with
  | nil => rfl
  | cons x r ih => exact (ih _).trans (hf s x)

@[simp] theorem atRest_takeLoads (t s : State) : atRest (takeLoads t s) = atRest s := by
  refine atRest_foldl (fun s p => ?_) _ s
  split <;> rfl

/-- A command that is held joins the end of what is held, and leaves the rest as it is. -/
theorem atRest_holdFrom (i : Instr) (s s1 : State) (keys : List Nat) (t : State) :
    atRest (holdFrom i s s1 keys t) = ((atRest t).1 ++ [(i, keys)], (atRest t).2) := by
  have hload : atRest (if s.stk.counted then t else takeLoads s1 t) = atRest t := by
    split
    · rfl
    · exact atRest_takeLoads s1 t
  rw [← hload]
  rfl

theorem atRest_poweredBy_held {i : Instr} {f : State → State} {s : State} (h : ¬ usesReady (f (unused s))) :
    atRest (poweredBy i f s) = (s.held ++ [(i, unready (f (unused s)))], s.stk.bytes, s.stk.answers) := by
  rw [poweredBy_held h, atRest_holdFrom, atRest_foldl fun s p => atRest_askUse (Prod.fst p) s]
  rfl

/-! ## Requests (R144, R161) -/

theorem memRequest_legal {i : Instr} {src : Nat} {r : MemReq} (s : State) (h : r.extentOk = true) :
    memRequest i src r s = poweredBy i (fun s => memEffect (src, r) (memDraws (chanOf s r.pa) r.isAdd s)) s := if_pos h

theorem memRequest_badExtent {i : Instr} {src : Nat} {r : MemReq} (s : State) (h : r.extentOk = false) :
    memRequest i src r s = memAnswer src { data := [], poison := [], status := St.MEM_BADREQ, nstat := 0 } s := by
  unfold memRequest
  rw [if_neg (by rw [h]; decide)]

/-- Settles O22: by whether the uses of the request's work are ready; one that waits leaves what is at rest (`atRest_poweredBy_held`). -/
theorem memoryRequestsComplete : Obligations.MemoryRequestsComplete := by
  intro src pa n fmt ecc e data a mask lanes poison r i s s1 hi hup hext hs1
  have hexec : exec i s = .next (memRequest i src r s) := by
    rcases hi with hi | hi | hi <;> obtain ⟨rfl, rfl⟩ := Prod.mk.inj hi <;> exact when_next hup
  rw [hexec, memRequest_legal s hext]
  subst hs1
  refine ⟨fun hr => congrArg _ (poweredBy_done hr), fun hr => ⟨_, rfl, ?_⟩⟩
  have hrest := atRest_poweredBy_held (i := i) (f := fun s => memEffect (src, r) (memDraws (chanOf s r.pa) r.isAdd s)) hr
  simp only [atRest, Prod.mk.injEq] at hrest
  exact hrest

/-- Settles O23: a bad extent is answered before any draw is asked for. -/
theorem memoryRequestOfABadExtent : Obligations.MemoryRequestOfABadExtent := by
  intro src pa n ecc s hup hext
  exact (when_next hup).trans (congrArg _ (memRequest_badExtent s hext))

end Sys2Proof.Machine
end

section
/-! SUPPORT. The memory controllers' own events, one lemma per event, and what they leave in the channels and stacks (R137, R140, R141, R153
to R157, R161, R172, R173). -/

namespace Sys2Proof.Machine

/-! ## Channels and stacks after an update -/

theorem look_put_same {α : Type} (t : Tbl α) (k : Nat) (v d : α) : Tbl.look (Tbl.put t k v) k d = v := by
  unfold Tbl.look
  rw [Tbl.look?_put, if_pos rfl]

theorem look_put_other {α : Type} (t : Tbl α) {k b : Nat} (v d : α) (h : k ≠ b) : Tbl.look (Tbl.put t k v) b d = Tbl.look t b d := by
  unfold Tbl.look
  rw [Tbl.look?_put, if_neg h]

@[simp] theorem chan_updChan_same (c : Nat) (f : Chan → Chan) (s : State) : (updChan c f s).chan c = f (s.chan c) := look_put_same ..

theorem chan_updChan_other {c b : Nat} (f : Chan → Chan) (s : State) (h : c ≠ b) : (updChan c f s).chan b = s.chan b := look_put_other _ _ _ h

/-- A part of a channel that an update keeps reads the same in every channel. -/
theorem chan_updChan_part {α : Type} (part : Chan → α) (c b : Nat) {f : Chan → Chan} (s : State) (h : ∀ k, part (f k) = part k) :
    part ((updChan c f s).chan b) = part (s.chan b) := by
  by_cases hcb : c = b
  · subst hcb; rw [chan_updChan_same, h]
  · rw [chan_updChan_other f s hcb]

@[simp] theorem stack_updStack_same (i : Nat) (f : Stack → Stack) (s : State) : (updStack i f s).stack i = f (s.stack i) := look_put_same ..

theorem chan_of_stk {s t : State} (c : Nat) (h : t.stk = s.stk) : t.chan c = s.chan c := by unfold State.chan; rw [h]

theorem stack_of_stk {s t : State} (i : Nat) (h : t.stk = s.stk) : t.stack i = s.stack i := by unfold State.stack; rw [h]

/-! ## Faults leave the stacks as they are (R456 to R460, R466) -/

@[simp] theorem writeRecord_stk (f : FaultRec) (s : State) : (writeRecord f s).stk = s.stk := by
  unfold writeRecord
  extract_lets f1 fl s1 s2 fl2 s3
  have hseq : s1.stk = s.stk := by dsimp only [s1]
  have hring : s3.stk = s.stk := by dsimp only [s3, s2, hostWrite, s1]
  clear_value s3 f1 s1
  split
  · exact hseq
  · split
    · split
      · split
        · rw [sendVector_stk, hring]
        · exact hring
      · exact hring
    · rw [raiseInt_stk, count_stk, hseq]

@[simp] theorem countFault_stk (code cls : Nat) (s : State) : (countFault code cls s).stk = s.stk := by
  unfold countFault
  dsimp only
  split <;> simp only [count_stk]

@[simp] theorem recordInts_stk (cls : Nat) (s : State) : (recordInts cls s).stk = s.stk := by
  unfold recordInts
  dsimp only
  split_ifs <;> simp only [raiseInt_stk]

@[simp] theorem fault_stk (r : Report) (s : State) : (fault r s).stk = s.stk := by
  unfold fault
  dsimp only
  split <;> simp

@[simp] theorem raiseIbi_stk (v : Nat) (s : State) : (raiseIbi v s).stk = s.stk := by unfold raiseIbi; split <;> rfl

@[simp] theorem enterFatal_stk (r : Report) (s : State) : (enterFatal r s).stk = s.stk := by
  simp [enterFatal, zeroJobKeys, stopUnits]

/-! ## What a sector's correction, poisoning and stamp leave in its channel -/

theorem scrub_correctedSector (c b sec : Nat) (s : State) : ((correctedSector c sec s).chan b).scrub = (s.chan b).scrub := by
  have hstk : (corrected (count Reg.MEM_CE 64 1 s)).stk = s.stk := by simp [corrected]
  refine (chan_updChan_part (·.scrub) c b _ ?_).trans (congrArg (·.scrub) (chan_of_stk b hstk))
  exact fun _ => rfl

@[simp] theorem chan_uncorrectableSector (c sec b : Nat) (s : State) : (uncorrectableSector c sec s).chan b = s.chan b := by
  have hput : (setPoison sec true (putSector sec (sectorSeen s sec .clean).2 s)).chan b = s.chan b := rfl
  rw [← hput]
  refine chan_of_stk b ?_
  unfold uncorrectableSector
  dsimp only
  split
  · simp
  · split <;> simp

/-- An entry dropped from a table is not listed, whatever the order of the keys. -/
theorem look?_del_same {α : Type} (t : Tbl α) (k : Nat) : Tbl.look? (Tbl.del t k) k = none := by
  induction t with
  | nil => rfl
  | cons p r ih =>
    obtain ⟨i, w⟩ := p
    unfold Tbl.del
    split_ifs with heq hlt
    · exact ih
    · rw [Tbl.look?_cons, if_neg heq, if_pos hlt]
    · rw [Tbl.look?_cons, if_neg heq, if_neg hlt, ih]

@[simp] theorem ageOf_putAge (sec v : Nat) (s : State) : ageOf (putAge sec v s) sec = v := by
  unfold ageOf putAge
  dsimp only
  split_ifs with hv
  · unfold Tbl.look; rw [look?_del_same, hv]
  · exact look_put_same ..

theorem ageOf_sendTouch (src sub sec : Nat) (s : State) : ageOf (sendTouch src sub s) sec = ageOf s sec := by
  unfold sendTouch ageOf
  dsimp only
  split_ifs
  · rfl
  · rw [count_stk]; rfl
  · rfl

theorem tagq_sendTouch (src sub c : Nat) (s : State) : ((sendTouch src sub s).chan c).tagq = (s.chan c).tagq := by
  have hfilter : ((updChan src (fun c => { c with touched := (sub :: c.touched).take 256 }) s).chan c).tagq = (s.chan c).tagq :=
    chan_updChan_part (·.tagq) src c s fun _ => rfl
  unfold sendTouch
  dsimp only
  split_ifs
  · rfl
  · rw [chan_of_stk c (count_stk ..), hfilter]
  · exact hfilter

theorem ageOf_stampSector (sec : Nat) (s : State) : ageOf (stampSector sec s) sec = s.urng.stamp := by
  unfold stampSector
  split
  case isTrue h => exact h
  case isFalse => rw [ageOf_sendTouch, ageOf_putAge]

theorem tagq_stampSector (sec c : Nat) (s : State) : ((stampSector sec s).chan c).tagq = (s.chan c).tagq := by
  unfold stampSector
  split
  · rfl
  · exact tagq_sendTouch ..

/-! ## Events of a channel (R137, R140, R141, R157) -/

section
variable {c : Fin 2048} {s : State} (hup : stacksUp s = true)
include hup

section
variable {sec : Nat} {r : List Nat} (hfree : chanBusy s c = false)
include hfree

theorem exec_ceWriteback (hq : (s.chan c).wbq = sec :: r) :
    exec (.ceWriteback c) s = .next (updChan c (fun k => { k with wbq := r }) (putSector sec (sectorSeen s sec .clean).2 s)) := by
  refine (when_next (by simp [hup, hfree]) : execCeWriteback c s = _).trans ?_
  simp only [writeBack1, hq]

theorem exec_tagRefresh (hq : (s.chan c).tagq = sec :: r) :
    exec (.tagRefresh c) s = .next (stampSector sec (updChan c (fun k => { k with tagq := r }) s)) := by
  refine (when_next (by simp [hup, hfree]) : execTagRefresh c s = _).trans ?_
  simp only [tagRefresh1, hq]

theorem exec_patrolScrub {e : Ecc} (hin : (s.chan c).failed = false) (hsec : sec = paOfLocal s c (s.chan c).scrub / 32) :
    exec (.patrolScrub c e) s = .next (updChan c (fun k => { k with scrub := (k.scrub + 1) % chanSectors })
      (match (sectorSeen s sec e).1 with
        | .clean => s
        | .corrected => correctedSector c sec s
        | .uncorrectable => uncorrectableSector c sec s)) := by
  subst hsec
  exact (when_next (by simp [hup, hfree, hin]) : execPatrolScrub c e s = _)

end

theorem exec_dawnChannelRefresh (hout : s.dawn.outcome = 0) (hlock : s.clk.lock = .acquiring) :
    exec (.dawnChannelRefresh c) s = .next (updChan c (fun k => { k with refresh := (k.refresh + 1) % 512 }) s) :=
  (when_next (by simp [hup, hout, hlock]) : execDawnChannelRefresh c s = _)

end

/-! ## A group's draws (R161), retraining and temperatures (R154, R155) -/

theorem exec_channelGroupDrawReturn {g : Fin 64} {adder : Bool} {s u : State} (hidle : groupIdle g adder s = true)
    (hu : u = runUntil (groupUse g adder s + 64000) s) (hidle' : groupIdle g adder u = true) (hdue : groupUse g adder u + 64000 ≤ u.now) :
    exec (.channelGroupDrawReturn g adder) s = .next (ledgerReturn (if adder then .memAdder g else .memGroup g) u) :=
  (drawReturn_next hidle hu hidle' hdue : execChannelGroupDrawReturn g adder s = _)

theorem exec_retrainStep {c : Fin 2048} {s u : State} (ok : Bool) (hframed : s.framed = true) (hdue : retrainDue c s = true)
    (hu : u = runUntil (s.atPos (stepStart s (c.val / 256) + 2400)) s) (hframed' : u.framed = true) (hdue' : retrainDue c u = true) :
    exec (.retrainStep c ok) s = .next (retrainStep c ok u) := by
  subst hu
  exact (instant_next (by simp [hframed, hdue]) (by simp [hframed', hdue']) : execRetrainStep c ok s = _)

/-- A stack's temperature as a sample notes it. -/
def sampledStack (t : Nat) (x : Stack) : Stack :=
  { x with temp := t, saw85 := x.saw85 || decide (t ≥ 85), saw80 := x.saw80 || decide (t ≥ 80), hot95 := decide (t ≥ 95) }

theorem exec_stackTempSample {s : State} (k : Fin 8) (v : BitVec 8) (hl : s.live = true) :
    exec (.stackTempSample k v) s = .next
      (if v.toNat ≥ 95 && !(s.stack k).hot95 then
        raiseInt blkMem 3 (fault { code := 0x0004, inst := k, arg0 := v.toNat } (updStack k (sampledStack v.toNat) s))
      else updStack k (sampledStack v.toNat) s) :=
  (when_next hl : execStackTempSample k v s = _)

/-! ## Age (R172, R173) -/

theorem exec_stampAdvance {s : State} (hclk : s.clocked = true) (hsteps : s.clk.stepsDone = true) (hper : s.clk.fnum % s.urng.period = 0)
    (hnew : s.urng.stampAt ≠ some s.clk.fnum) :
    exec .stampAdvance s = .next { s with
      urng := { s.urng with
        stamp := (s.urng.stamp + 1) % 8, stampAt := some s.clk.fnum,
        pages := Tbl.mapv s.urng.pages fun _ p => { p with hitLast := p.hitNow, hitNow := false } },
      stk := { s.stk with chans := Tbl.mapv s.stk.chans fun _ c => { c with touched := [] } } } :=
  (when_next (by simp [hclk, hsteps, hper, hnew]) : execStampAdvance s = _)

theorem exec_touch {chan sub k : Nat} {s : State} (hclk : s.clocked = true) (hway : s.stk.touches.contains (chan, sub) = true)
    (hpage : pageOfSub s sub = some k) :
    exec (.touch chan sub) s = .next { s with
      stk := { s.stk with touches := s.stk.touches.erase (chan, sub) },
      urng := { s.urng with
        summary := Tbl.put s.urng.summary sub s.urng.stamp,
        pages := Tbl.upd s.urng.pages k fun p => { p with hitNow := true } } } := by
  refine (when_next (by rw [hclk, hway]; rfl) : execTouch chan sub s = _).trans ?_
  simp only [hpage]

/-- Settles O24: one lemma per event; a sample is reported where it is hot and the stack's last was not. -/
theorem memoryMaintenanceCompletes : Obligations.MemoryMaintenanceCompletes := by
  refine ⟨fun c sec r s hup hfree hq => exec_ceWriteback hup hfree hq, fun c sec r s hup hfree hq => exec_tagRefresh hup hfree hq,
    fun c e sec s hup hin hfree hsec => exec_patrolScrub hup hfree hin hsec,
    fun c ok s u hframed hdue hu hframed' hdue' => exec_retrainStep ok hframed hdue hu hframed' hdue',
    fun k t s s1 hl hs1 => ⟨fun hcool => ?quiet, fun hhot hnew => ?reported⟩,
    fun c s hup hout hlock => exec_dawnChannelRefresh hup hout hlock,
    fun g adder s u hidle hu hidle' hdue => exec_channelGroupDrawReturn hidle hu hidle' hdue,
    fun chan sub k s hclk hway hpage => exec_touch hclk hway hpage,
    fun s hclk hsteps hper hnew => exec_stampAdvance hclk hsteps hper hnew⟩
  case quiet =>
    subst hs1
    have hno : ¬ (t.toNat ≥ 95 && !(s.stack k).hot95) = true := by
      rcases hcool with hlow | hknown
      · simp [not_le.2 hlow]
      · simp [hknown]
    rw [exec_stackTempSample k t hl, if_neg hno]
    rfl
  case reported =>
    subst hs1
    rw [exec_stackTempSample k t hl, if_pos (by simp [hhot, hnew])]
    rfl

/-! ## Upkeep as it shows in the state -/

theorem temp_stackTempSample {s : State} (k : Fin 8) (v : BitVec 8) (hl : s.live = true) :
    ∃ t, exec (.stackTempSample k v) s = .next t ∧ (t.stack k).temp = v.toNat := by
  refine ⟨_, exec_stackTempSample k v hl, ?_⟩
  have hnoted : ((updStack k (sampledStack v.toNat) s).stack k).temp = v.toNat := by rw [stack_updStack_same]; rfl
  split
  · rw [stack_of_stk k ((raiseInt_stk ..).trans (fault_stk ..)), hnoted]
  · exact hnoted

/-- The scrub place moves on by a sector, whatever the scrub found. -/
theorem scrub_patrolScrub {c : Fin 2048} {e : Ecc} {s : State} (hup : stacksUp s = true) (hfree : chanBusy s c = false)
    (hin : (s.chan c).failed = false) :
    ∃ t, exec (.patrolScrub c e) s = .next t ∧ (t.chan c).scrub = ((s.chan c).scrub + 1) % chanSectors := by
  refine ⟨_, exec_patrolScrub hup hfree hin rfl, ?_⟩
  rw [chan_updChan_same]
  dsimp only
  split
  · rfl
  · rw [scrub_correctedSector]
  · rw [chan_uncorrectableSector]

/-- A good step leaves the channel without failed steps, and is its stack's step of this slice. -/
theorem retrainStep_good (c : Nat) (s : State) :
    ((retrainStep c true s).chan c).failRun = 0 ∧ (retrainStep c true s).stk.stepped.contains (c / 256) = true := by
  constructor
  · have hkeep : (retrainStep c true s).chan c = (retrainOutcome c true s).chan c := by simp only [retrainStep, State.chan, updStack]
    rw [hkeep]
    unfold retrainOutcome
    dsimp only
    rw [if_pos rfl, chan_updChan_same]
  · simp [retrainStep, updStack]

/-- Settles O60: a unit's row comes to the return of its draws (`drawReturn_next`), after which it holds none; every other event is read off
what it leaves in its channel, its stack or the stamp. -/
theorem upkeepEventsAct : Obligations.UpkeepEventsAct := by
  refine ⟨fun i o last idle s u hi hidle hu hidle' hdue hask => ?returned,
    fun c sec r e s hup => ⟨fun hfree hq => ⟨_, exec_ceWriteback hup hfree hq, ?written⟩,
      fun hfree hq => ⟨_, exec_tagRefresh hup hfree hq, ?requeued, ageOf_stampSector ..⟩, fun hfree hin => scrub_patrolScrub hup hfree hin,
      fun hout hlock => ⟨_, exec_dawnChannelRefresh hup hout hlock, ?refreshed⟩⟩,
    fun c s u hframed hdue hu hframed' hdue' => ⟨_, exec_retrainStep true hframed hdue hu hframed' hdue', retrainStep_good c u⟩,
    fun k v s hl => temp_stackTempSample k v hl,
    fun s hclk hsteps hper hnew => ⟨_, exec_stampAdvance hclk hsteps hper hnew, rfl⟩⟩
  case returned =>
    have hrow : exec i s = atInstant idle (last s + 64000) (fun s => if s.now < last s + 64000 then s else ledgerReturn o s) s := by
      rcases hi with ⟨g, a, rfl, rfl, rfl, rfl⟩ | ⟨rfl, rfl, rfl, rfl⟩ | ⟨rfl, rfl, rfl, rfl⟩ | ⟨k, rfl, rfl, rfl, rfl⟩ |
        ⟨k, rfl, rfl, rfl, rfl⟩ | ⟨k, rfl, rfl, rfl, rfl⟩ | ⟨rfl, rfl, rfl, rfl⟩ <;> rfl
    exact ⟨_, hrow.trans (drawReturn_next hidle hu hidle' hdue), holds_ledgerReturn_self hask, fun o' hne ho => holds_ledgerReturn_other hne ho⟩
  case written => rw [chan_updChan_same]
  case requeued => rw [tagq_stampSector, chan_updChan_same]
  case refreshed => rw [chan_updChan_same]

end Sys2Proof.Machine
end

section
/-! SUPPORT. The unified range's commands, one lemma per command: what each does of a job that lets it run, on pages that are as it needs them
(R166 to R169, R185, R186). -/

namespace Sys2Proof.Machine

theorem pageBytes_mul_div (n : Nat) : pageBytes * n / pageBytes = n := Nat.mul_div_cancel_left n (by decide)
theorem pageBytes_mul_mod (n : Nat) : pageBytes * n % pageBytes = 0 := Nat.mul_mod_right ..

/-! ## MAP and UNMAP (R166 to R169) -/

theorem mapTry_ok {q n : Nat} {c : Cmd} {j : Job} {s s2 : State} (hj : s.job? c.job = some j) (hspan : spanOk (c.opnd 0 8) n = true)
    (hn : n = c.opnd 8 4) (hflags : ¬ (bitOf (c.opnd 12 1) 0 = true ∧ bitOf (c.opnd 12 1) 1 = true))
    (hfree : ∀ p ∈ s.urng.pages, ¬ (pageKey c.job (c.opnd 0 8 / pageBytes) ≤ p.1 ∧ p.1 < pageKey c.job (c.opnd 0 8 / pageBytes + n)))
    (hpin : bitOf (c.opnd 12 1) 1 = true → pinned s c.job + n ≤ j.floor)
    (hall : mapAll c.job j (bitOf (c.opnd 12 1) 0) (bitOf (c.opnd 12 1) 1) (c.opnd 0 8 / pageBytes) n s = .ok s2) :
    mapTry q c s = endHead q St.OK 0 0 s2 := by
  subst hn
  have hflags' : (bitOf (c.opnd 12 1) 0 && bitOf (c.opnd 12 1) 1) = false := by simpa using hflags
  have hnew : (s.urng.pages.any fun p => decide (pageKey c.job (c.opnd 0 8 / pageBytes) ≤ p.1 ∧
      p.1 < pageKey c.job (c.opnd 0 8 / pageBytes + c.opnd 8 4))) = false :=
    List.any_eq_false.2 fun p hp => by rw [decide_eq_true_eq]; exact hfree p hp
  have hwithin : ¬ (bitOf (c.opnd 12 1) 1 && decide (pinned s c.job + c.opnd 8 4 > j.floor)) = true := by
    simpa using hpin
  unfold mapTry
  simp only [hj, hspan, hflags', hnew, hall, Bool.not_true, Bool.or_self, Bool.false_eq_true, if_false]
  rw [if_neg hwithin]

theorem exec_unmap {q : Fin 128} {c : Cmd} {s : State} (h : Accepted q Op.UNMAP s c)
    (hspan : spanOk (c.opnd 0 8) (c.opnd 8 4) = true) :
    exec (.unmap q) s = .next { started q s with urng := { (started q s).urng with unmaps := (started q s).urng.unmaps ++
      [{ job := c.job, vpn := c.opnd 0 8 / pageBytes, count := c.opnd 8 4, queue := q, cid := c.cid }] } } :=
  (job_next h.head h.job : execUnmap q s = _).trans (congrArg _ (if_pos hspan))

/-! ## The host tier's regions (R166, R186) -/

/-- The granted parts of a span are to be left: no page is placed in them, and theirs move out. -/
def startLeaving (f n : Nat) (s : State) : State := { s with urng := { s.urng with leaving := s.urng.leaving ++ grantedParts s f n } }

/-- No part of a span is to be left any more. -/
def endLeaving (f n : Nat) (s : State) : State :=
  { s with urng := { s.urng with leaving := s.urng.leaving.filter fun r => !(overlaps f n r.1 r.2) } }

/-- A span out of the regions; HTFULL when that leaves no frame free (R191). -/
def releaseSpan (f n : Nat) (s : State) : State :=
  noteHostFree s.hostFree { s with urng := { s.urng with regions := s.urng.regions.flatMap fun r => cutRegion r f n } }

section
variable {q : Fin 128} {c : Cmd} {s : State} {f n : Nat} (hbase : c.opnd 0 8 = pageBytes * f) (hsize : c.opnd 8 8 = pageBytes * n)
include hbase hsize

theorem exec_htierAdd (h : runnable q Op.HTIER_ADD s = some c) (hpos : 0 < n)
    (hnew : ∀ r ∈ (started q s).urng.regions, overlaps f n r.1 r.2 = false) (hlimit : (started q s).hostTotal + n ≤ 4194304) :
    exec (.htierAdd q) s = .next (endHead q St.OK 0 0 { started q s with urng := { (started q s).urng with
      regions := insertBy (fun a b => decide (a.1 < b.1)) (f, n) (started q s).urng.regions } }) := by
  have hapart : ((started q s).urng.regions.any fun r => overlaps f n r.1 r.2) = false :=
    List.any_eq_false.2 fun r hr => by rw [hnew r hr]; exact Bool.false_ne_true
  show execHtierAdd q s = _
  unfold execHtierAdd runNow
  refine (head_next h).trans ?_
  simp only [hbase, hsize, pageBytes_mul_div, pageBytes_mul_mod, hapart]
  rw [if_neg (by simp), if_neg (by omega), if_neg (by omega)]

/-- A region no page is in, with nothing moving toward the host tier, goes at once. -/
theorem removeTry_unused (hempty : usedIn s f n = []) (hstill : s.urng.down = none) :
    removeTry q c s = endHead q St.OK 0 0 (releaseSpan f n (endLeaving f n s)) := by
  unfold removeTry
  simp only [hbase, hsize, pageBytes_mul_div]
  exact if_pos (by simp [hempty, hstill])

theorem exec_htierRemove {s2 : State} (h : runnable q Op.HTIER_REMOVE s = some c)
    (hs2 : s2 = endLeaving f n (startLeaving f n (started q s))) (hempty : usedIn (started q s) f n = [])
    (hstill : (started q s).urng.down = none) : exec (.htierRemove q) s = .next (endHead q St.OK 0 0 (releaseSpan f n s2)) := by
  subst hs2
  refine (head_next h : execHtierRemove q s = _).trans (congrArg _ ?_)
  have haligned : ¬ (c.opnd 0 8 % pageBytes ≠ 0 ∨ c.opnd 8 8 % pageBytes ≠ 0) := by
    rw [hbase, hsize, pageBytes_mul_mod, pageBytes_mul_mod]; decide
  rw [if_neg haligned]
  simp only [hbase, hsize, pageBytes_mul_div]
  exact removeTry_unused (s := startLeaving f n (started q s)) hbase hsize hempty hstill

end

/-! ## HANDBACK and ADOPT (R185) -/

theorem mem_spanPages {s : State} {j v n : Nat} {x : Option Page} : x ∈ spanPages s j v n ↔ ∃ i < n, s.page? j (v + i) = x := by
  unfold spanPages
  simp only [List.mem_map, List.mem_range]

theorem handbackTry_ok {q v n : Nat} {c : Cmd} {s s2 : State} (hspan : spanOk (c.opnd 0 8) n = true) (hn : n = c.opnd 8 4)
    (hv : v = c.opnd 0 8 / pageBytes) (hpages : ∀ i < n, ∃ p, s.page? c.job (v + i) = some p ∧ (∀ f, p.back ≠ .shared f) ∧ p.dest = none)
    (hall : handbackAll c.job v n s = some s2) : handbackTry q c s = endHead q St.OK 0 0 s2 := by
  subst hn hv
  unfold handbackTry
  simp only [hspan, hall]
  rw [if_neg (by decide), if_neg ?ours, if_neg ?still]
  case ours =>
    rw [Bool.not_eq_true, Bool.not_eq_false', List.all_eq_true]
    intro x hx
    obtain ⟨i, hi, rfl⟩ := mem_spanPages.1 hx
    obtain ⟨p, hp, hback, -⟩ := hpages i hi
    rw [hp]
    cases hb : p.back with
    | shared f => exact absurd hb (hback f)
    | stack f | owned f => simp only [hb]
  case still =>
    rw [Bool.not_eq_true, List.any_eq_false]
    intro x hx
    obtain ⟨i, hi, rfl⟩ := mem_spanPages.1 hx
    obtain ⟨p, hp, -, hdest⟩ := hpages i hi
    rw [hp]
    simp [hdest]

section
variable {q : Fin 128} {c : Cmd} {s u : State}

theorem exec_map {n : Nat} {j : Job} {s2 : State} (h : Accepted q Op.MAP s c) (hj : (started q s).job? c.job = some j)
    (hspan : spanOk (c.opnd 0 8) n = true) (hn : n = c.opnd 8 4)
    (hflags : ¬ (bitOf (c.opnd 12 1) 0 = true ∧ bitOf (c.opnd 12 1) 1 = true))
    (hfree : ∀ p ∈ (started q s).urng.pages,
      ¬ (pageKey c.job (c.opnd 0 8 / pageBytes) ≤ p.1 ∧ p.1 < pageKey c.job (c.opnd 0 8 / pageBytes + n)))
    (hpin : bitOf (c.opnd 12 1) 1 = true → pinned (started q s) c.job + n ≤ j.floor)
    (hall : mapAll c.job j (bitOf (c.opnd 12 1) 0) (bitOf (c.opnd 12 1) 1) (c.opnd 0 8 / pageBytes) n (started q (unused s)) = .ok s2)
    (hu : u = endHead q St.OK 0 0 s2) (hr : usesReady u) : exec (.map q) s = .next (done s u) :=
  (jobP_done_of h.head h.job ((mapTry_ok (s := started q (unused s)) hj hspan hn hflags hfree hpin hall).trans hu.symm) hr : execMap q s = _)

section
variable {v n : Nat} (hspan : spanOk (c.opnd 0 8) n = true) (hn : n = c.opnd 8 4) (hv : v = c.opnd 0 8 / pageBytes)
include hspan hn hv

theorem exec_handback {s2 : State} (h : Accepted q Op.HANDBACK s c)
    (hpages : ∀ i < n, ∃ p, (started q s).page? c.job (v + i) = some p ∧ (∀ f, p.back ≠ .shared f) ∧ p.dest = none)
    (hall : handbackAll c.job v n (started q (unused s)) = some s2) (hu : u = endHead q St.OK 0 0 s2) (hr : usesReady u) :
    exec (.handback q) s = .next (done s u) :=
  (jobP_done_of h.head h.job ((handbackTry_ok (s := started q (unused s)) hspan hn hv hpages hall).trans hu.symm) hr : execHandback q s = _)

theorem exec_adopt (h : Accepted q Op.ADOPT s c)
    (hpages : ∀ i < n, ∃ p f, (started q s).page? c.job (v + i) = some p ∧ p.back = .shared f ∧ p.dest = none)
    (hu : u = endHead q St.OK 0 0 ((List.range n).foldl (fun s i => adoptPage c.job (v + i) s) (started q (unused s)))) (hr : usesReady u) :
    exec (.adopt q) s = .next (done s u) := by
  subst hn hv
  show execAdopt q s = _
  unfold execAdopt runJobNowP
  refine jobP_done_of h.head h.job ?_ hr
  simp only [hspan, Bool.true_and]
  rw [if_pos ?shared]
  case shared =>
    rw [List.all_eq_true]
    intro x hx
    obtain ⟨i, hi, rfl⟩ := mem_spanPages.1 hx
    obtain ⟨p, f, hp, hback, hdest⟩ := hpages i hi
    have hp' : (started q (unused s)).page? c.job (c.opnd 0 8 / pageBytes + i) = some p := hp
    simp [hp', hback, hdest]
  exact hu.symm

end

end

/-- Settles O25: one lemma per command; MAP and HANDBACK complete when tried (`mapTry_ok`, `handbackTry_ok`). -/
theorem rangeCommandsComplete : Obligations.RangeCommandsComplete := by
  rintro q c s _ s2 rfl
  exact ⟨fun j n u h hj hspan hn hflags hfree hpin hall hu hr => exec_map h hj (hn ▸ hspan) hn hflags hfree hpin hall hu hr,
    exec_unmap, fun f n h hbase hsize hpos hnew hlimit => exec_htierAdd hbase hsize h hpos hnew hlimit,
    fun f n h hbase hsize hs2 hempty hstill => exec_htierRemove hbase hsize h hs2 hempty hstill,
    fun v n u h hspan hn hv hpages hall hu hr => exec_handback hspan hn hv h hpages hall hu hr,
    fun v n u h hspan hn hv hpages hu hr => exec_adopt hspan hn hv h hpages hu hr⟩

end Sys2Proof.Machine
end

section
/-! SUPPORT. Migration, the clock hand and the CXL line engine, one lemma per event (R174 to R182, R188, R190). -/

namespace Sys2Proof.Machine

/-! ## The migration of a direction -/

@[simp] theorem mig_setMig_same (up : Bool) (m : Option Mig) (s : State) : (setMig up m s).mig up = m := by cases up <;> rfl

@[simp] theorem setMig_held (up : Bool) (m : Option Mig) (s : State) : (setMig up m s).held = s.held := by cases up <;> rfl

@[simp] theorem page?_setMig (up : Bool) (m : Option Mig) (s : State) (j vpn : Nat) : (setMig up m s).page? j vpn = s.page? j vpn := by
  cases up <;> rfl

/-- A migration set to what it is leaves the state. -/
theorem setMig_self (up : Bool) (s : State) : setMig up (s.mig up) s = s := by cases up <;> rfl

/-- Which requests wait for the next sub-block depends on its source, its place and the requests alone. -/
theorem sourceBusy_congr {m m' : Mig} {s s' : State} (hsrc : m'.src = m.src) (hat : m'.copied = m.copied) (hheld : s'.held = s.held) :
    sourceBusy m' s' = sourceBusy m s := by
  unfold sourceBusy memQueue
  rw [hsrc, hat, hheld]

/-- A migration with nothing COPYING begins its next sub-block, unless something accepted at the source waits for it (R177 step 2). -/
theorem beginCopy_next {up : Bool} {m : Mig} {s : State} (hm : s.mig up = some m) (hdone : m.done = false) (hcopying : m.copying = false) :
    beginCopy up s = setMig up (some { m with copying := !sourceBusy m s }) s := by
  obtain ⟨j, vpn, src, dest, copied, copying, done⟩ := m
  cases hdone
  cases hcopying
  unfold beginCopy
  simp only [hm, Bool.false_or]
  cases sourceBusy _ s with
  | false => rfl
  | true => exact (setMig_self up s).symm.trans (congrArg (setMig up · s) hm)

/-! ## The start of a migration (R177 step 1) -/

/-- A frame of a backing taken for a page. -/
def takeBacking (d : Backing) (j vpn : Nat) (s : State) : State :=
  match d with
  | .stack f => takeFrame f j vpn s
  | .owned f => takeHost f j vpn s
  | .shared f => takeHost f j vpn s

/-- A migration noted in its direction; the victim of an eviction is chosen no more. -/
def noteMig (up : Bool) (m : Mig) (s : State) : State :=
  if up then { s with urng := { s.urng with up := some m } } else { s with urng := { s.urng with down := some m, victim := none } }

@[simp] theorem mig_noteMig_same (up : Bool) (m : Mig) (s : State) : (noteMig up m s).mig up = some m := by cases up <;> rfl

@[simp] theorem page?_noteMig (up : Bool) (m : Mig) (s : State) (j vpn : Nat) : (noteMig up m s).page? j vpn = s.page? j vpn := by
  cases up <;> rfl

theorem page?_putPage_same (j vpn : Nat) (p : Page) (s : State) : (putPage j vpn p s).page? j vpn = some p :=
  (Tbl.look?_put ..).trans (if_pos rfl)

/-- The migration of a page to a backing before its first sub-block. -/
def firstMig (j vpn : Nat) (p : Page) (d : Backing) : Mig :=
  { job := j, vpn := vpn, src := p.back, dest := d, copied := 0, copying := false, done := false }

/-- A migration started: its destination taken, its page marked, its first sub-block begun. -/
def startMig (up : Bool) (j vpn : Nat) (p : Page) (d : Backing) (s : State) : State :=
  beginCopy up (noteMig up (firstMig j vpn p d) (putPage j vpn { p with dest := some d, moved := 0 } (takeBacking d j vpn s)))

theorem exec_migrationStart {up : Bool} {j : Fin 64} {vpn : Nat} {p : Page} {d : Backing} {s s1 : State} (hclk : s.clocked = true)
    (hfree : (if up then s.urng.up else s.urng.down) = none) (hday : s.power.dusk = none) (hp : s.page? j vpn = some p)
    (hd : migDest s up j vpn p = some d) (hs1 : s1 = reserve (.migration up) 1 (migDraw s) s) (hheld : holds (.migration up) s1 = true) :
    exec (.migrationStart up j vpn) s = .next (startMig up j vpn p d s1) := by
  subst hs1
  have hidle : (if up then s.urng.up.isSome else s.urng.down.isSome) = false := by
    cases up <;> simpa using hfree
  show execMigrationStart up j vpn s = _
  unfold execMigrationStart
  simp only [hidle]
  refine (when_next (by simp [hclk, hday])).trans ?_
  simp only [hp, hd, hheld, if_true]
  rfl

/-- What a start leaves: the page names its destination, and the migration is in its direction, its first sub-block COPYING unless its
source is busy. -/
theorem startMig_spec (up : Bool) (j vpn : Nat) (p : Page) (d : Backing) (s : State) :
    ((startMig up j vpn p d s).page? j vpn).map (·.dest) = some (some d) ∧
      ∃ m, (startMig up j vpn p d s).mig up = some m ∧ m.copying = !sourceBusy m (startMig up j vpn p d s) ∧
        m = { firstMig j vpn p d with copying := m.copying } := by
  unfold startMig
  rw [beginCopy_next (mig_noteMig_same ..) rfl rfl]
  refine ⟨?marked, _, mig_setMig_same .., ?begun, rfl⟩
  case marked => rw [page?_setMig, page?_noteMig, page?_putPage_same]; rfl
  case begun => exact congrArg (!·) (sourceBusy_congr rfl rfl (setMig_held ..)).symm

/-! ## Its steps and its end (R177 steps 2 and 3) -/

section
variable {up : Bool} {m : Mig} {s s1 : State} (hclk : s.clocked = true) (hm : s.mig up = some m)
include hclk hm

theorem exec_migrationSubblockCopied {p : Page} {u : State} (hdone : m.done = false) (hcopying : m.copying = true)
    (hs1 : s1 = copySectors m.src m.dest (2048 * m.copied) 2048 (unused s)) (hp : s1.page? m.job m.vpn = some p)
    (hu : u = if m.copied + 1 < 32
      then beginCopy up (setMig up (some { m with copied := m.copied + 1, copying := false })
        (putPage m.job m.vpn { p with moved := m.copied + 1 } s1))
      else setMig up (some { m with copied := m.copied + 1, copying := false, done := true })
        (putPage m.job m.vpn { p with back := m.dest, dest := none, moved := 0 } s1)) (hr : usesReady u) :
    exec (.migrationSubblockCopied up) s = .next (done s u) := by
  subst hu
  have hm' : (unused s).mig up = some m := hm
  show execMigrationSubblockCopied up s = _
  refine whenP_done_of hclk ?_ hr
  simp only [hm', hdone, hcopying, ← hs1, hp, Bool.not_true, Bool.or_self, Bool.false_eq_true, if_false]

theorem exec_migrationSourceFreed (hdone : m.done = true) (hbusy : frameBusy m s = false)
    (hs1 : s1 = ledgerReturn (.migration up) (setMig up none (freeBacking m.src s))) :
    exec (.migrationSourceFreed up) s = .next (retryRange (match m.src, m.dest with
      | .stack _, _ => count Reg.URNG_EVICT 32 1 s1
      | _, .stack _ => count Reg.URNG_PROMOTE 32 1 s1
      | _, _ => s1)) := by
  subst hs1
  show execMigrationSourceFreed up s = _
  refine (when_next hclk).trans ?_
  simp only [hm, hdone, hbusy, Bool.not_true, Bool.or_self, Bool.false_eq_true, if_false] <;> rfl

end

/-! ## The clock hand (R174, R175) -/

/-- The hand gone on from a place, the old entries of the page there dropped (R174). -/
def handPassed (place : Nat) (s : State) : State :=
  { s with urng := { s.urng with
    hand := place + 1, thresh := 6,
    summary := (List.range 32).foldl (fun t i =>
      if entryAge s.urng.stamp (Tbl.look t (32 * place + i) 8) ≥ 6 then Tbl.del t (32 * place + i) else t) s.urng.summary } }

section
variable {s : State} {place key : Nat} {p : Page} (hnext : nextVisit s = some (place, key)) (hahead : s.urng.hand ≤ place)
  (hwants : s.urng.wants = false) (hev : s.urng.evicting = false) (hfree : 1024 ≤ s.freeFrames) (hp : Tbl.look? s.urng.pages key = some p)
include hnext hahead hwants hev hfree hp

/-- While no frame is to be freed the hand goes on within its revolution and only drops old entries. -/
theorem handVisit_quiet : handVisit s = handPassed place s := by
  have hsame : decide (place < s.urng.hand) = false := decide_eq_false (by omega)
  have henough : decide (s.freeFrames < 1024) = false := decide_eq_false (by omega)
  unfold handVisit handPassed
  simp only [hnext, hsame, hwants, hev, henough, hp, Bool.false_and, Bool.or_self, Bool.not_false, Bool.false_eq_true, if_false, if_true]

theorem exec_handVisit (hclk : s.clocked = true) : exec .handVisit s = .next (handPassed place s) := by
  refine (when_next hclk : execHandVisit s = _).trans (congrArg _ ?_)
  rw [handVisit_quiet hnext hahead hwants hev hfree hp]
  have hnone : (handPassed place s).urng.wants = false := by simp only [handPassed, hwants]
  exact if_neg (by simp [hnone])

end

/-! ## The line engine (R180, R182, R190) -/

theorem exec_hostLineResponse_owned {j : Fin 64} {va : BitVec 48} {data : Bytes} {mask : List Bool} {hpa : Nat} {s s1 u : State}
    (hclk : s.clocked = true) (hcache : s.link.cache = true) (hloc : locOf (unused s) j va.toNat = some (.owned hpa))
    (hs1 : s1 = hostTouch hpa (copyWait j va.toNat 1 (lineDraw (unused s))))
    (hu : u = ownedFill (hpa / 64) (slice data 0 64) (sendCxl .rdCurr (hpa / 64)
      (setHostPoison (hpa / 64 * 2 + 1) false (setHostPoison (hpa / 64 * 2) false s1)))) (hr : usesReady u) :
    exec (.hostLineResponse j va false data mask false) s = .next (done s u) := by
  show execHostLineResponse j va false data mask false s = _
  refine whenP_done_of (by simp [hclk, hcache]) ?_ hr
  simp only [hloc, ← hs1, Bool.false_eq_true, if_false]
  exact hu.symm

/-- What a snoop of a line the device holds answers, and what it leaves, by its kind. -/
theorem exec_cxlSnoop_hit {line : Nat} {l : HostLine} {s : State} (kind : Snoop) (hlive : s.live = true) (hcache : s.link.cache = true)
    (hl : Tbl.look? s.urng.lines line = some l) :
    exec (.cxlSnoop kind line) s = .next (match kind with
      | .snpInv => { giveLine line s with urng := { (giveLine line s).urng with
          snoop := { hit := true, data := if l.modified then some l.data else none } } }
      | .snpData =>
        let u := putLine line { l with modified := false, excl := false } (if l.modified then hostWrite (64 * line) l.data s else s)
        { u with urng := { u.urng with snoop := { hit := true, data := if l.modified then some l.data else none } } }
      | .snpCur => { s with urng := { s.urng with snoop := { hit := true, data := some l.data } } }) := by
  refine (when_next (by simp [hlive, hcache]) : execCxlSnoop kind line s = _).trans (congrArg _ ?_)
  simp only [hl] <;> rfl

theorem exec_lineEngineDrawReturn {s u : State} (hlive : s.live = true) (hheld : holds .lineEngine s = true)
    (hu : u = runUntil (Tbl.look s.stk.use 8192 0 + 64000) s) (hlive' : u.live = true) (hheld' : holds .lineEngine u = true)
    (hdue : Tbl.look u.stk.use 8192 0 + 64000 ≤ u.now) : exec .lineEngineDrawReturn s = .next (ledgerReturn .lineEngine u) :=
  (drawReturn_next (o := .lineEngine) (last := fun s => Tbl.look s.stk.use 8192 0) (idle := fun s => s.live && holds .lineEngine s)
    (by simp [hlive, hheld]) hu (by simp [hlive', hheld']) hdue : execLineEngineDrawReturn s = _)

/-- Settles O26: one lemma per event; what a start leaves is `startMig_spec`. -/
theorem migrationAndLineEventsComplete : Obligations.MigrationAndLineEventsComplete := by
  refine ⟨fun up j vpn p d f s s1 hclk hfree hday hp hd hs1 hheld _ => ?start,
    fun up m p s s1 u hclk hm hdone hcopying hs1 hp hu hr => exec_migrationSubblockCopied hclk hm hdone hcopying hs1 hp hu hr,
    fun up m s s1 hclk hm hdone hbusy hs1 => exec_migrationSourceFreed hclk hm hdone hbusy hs1,
    fun s place key p hclk hnext hahead hwants hev hfree hp => exec_handVisit hnext hahead hwants hev hfree hp hclk,
    fun j va data mask hpa s s1 u hclk hcache hloc hs1 hu hr => exec_hostLineResponse_owned hclk hcache hloc hs1 hu hr,
    fun line l s hlive hcache hl => ⟨exec_cxlSnoop_hit .snpInv hlive hcache hl, exec_cxlSnoop_hit .snpCur hlive hcache hl, ?data⟩,
    fun s u hlive hheld hu hlive' hheld' hdue => exec_lineEngineDrawReturn hlive hheld hu hlive' hheld' hdue⟩
  case start => exact ⟨_, exec_migrationStart hclk hfree hday hp hd hs1 hheld, startMig_spec ..⟩
  case data =>
    rintro u rfl
    exact exec_cxlSnoop_hit .snpData hlive hcache hl

end Sys2Proof.Machine
end

section
/-! SUPPORT. Embedding tables, one lemma per command: a table listed, a version staged, a publication sent out, a removal asked for (R193, R201,
R202, R205). -/

namespace Sys2Proof.Machine

/-- A table that TBL_CREATE lists: its first version is current and the other slot is empty. -/
def Table.init (fixed cur : Bytes) : Table :=
  { fixed := fixed, cur := cur, oth := zeros 64, othSt := 0, othFrame := 0, pub := [], destroy := none, last := none, updating := none,
    hdone := [], closes := [] }

/-- A PUBLISH of a job goes to rank `r`; at the publisher's own rank it is judged and answered on the spot (R202). -/
def publishTo (job : Job) (j tid vnum f pseq : Nat) (s : State) (r : Nat) : State :=
  if r = job.rank then publishReply j tid pseq r (publishHere j tid vnum f s).1 (publishHere j tid vnum f s).2
  else sendRank j r 3 (pubHdr tid vnum f job.rank pseq) [] {} s

section
variable {q : Fin 128} {c : Cmd} {s : State}

theorem exec_tblCreate (h : Accepted q Op.TBL_CREATE s c) (hnew : (started q s).table? c.job (fxTid (c.opndBytes 0 32)) = none)
    (hroom : (started q s).emb.tables.length < 65536)
    (hfixed : fixedOk (c.opndBytes 0 32) ((((started q s).job? c.job).map (·.ndev)).getD 0) = true) (hslot : slotOk (c.opndBytes 32 64) = true) :
    exec (.tblCreate q) s = .next (endHead q St.OK 0 0 { started q s with emb := { (started q s).emb with
      tables := Tbl.put (started q s).emb.tables (tableKey c.job (fxTid (c.opndBytes 0 32)))
        (.init (c.opndBytes 0 32) (c.opndBytes 32 64)) } }) := by
  show execTblCreate q s = _
  unfold execTblCreate runJobNow
  refine (job_next h.head h.job).trans ?_
  simp only [hnew, if_neg (not_le.2 hroom), hfixed, hslot, Option.isSome_none, Bool.not_true, Bool.or_self, Bool.false_eq_true, if_false]
  rfl

section
variable {t : Table} (htid : c.opnd 0 2 < 4096) (ht : (started q s).table? c.job (c.opnd 0 2) = some t)
include htid ht

theorem exec_tblStage (h : Accepted q Op.TBL_STAGE s c) (hidle : t.othSt < 2) (hslot : slotOk (c.opndBytes 32 64) = true)
    (hnewer : newer (vsVnum (c.opndBytes 32 64)) (vsVnum t.cur) = true) :
    exec (.tblStage q) s = .next (endHead q St.OK 0 0
      (updTable c.job (c.opnd 0 2) (fun t => { t with oth := c.opndBytes 32 64, othSt := 1, othFrame := 0 }) (started q s))) := by
  show execTblStage q s = _
  unfold execTblStage runJobNow
  refine (job_next h.head h.job).trans ?_
  simp only [if_pos htid, ht, if_neg (not_le.2 hidle), hslot, hnewer, Bool.not_true, Bool.or_self, Bool.false_eq_true, if_false]

theorem exec_tblPublish {job : Job} (h : Accepted q Op.TBL_PUBLISH s c) (hjob : (started q s).job? c.job = some job) :
    exec (.tblPublish q) s = .next ((List.range job.ndev).foldl
      (publishTo job c.job (c.opnd 0 2) (c.opnd 2 2) (c.opnd 8 6) ((started q s).emb.pseq % 65536))
      (updTable c.job (c.opnd 0 2) (fun t => { t with pub := t.pub ++
        [{ ftgt := c.opnd 8 6, vnum := c.opnd 2 2, queue := q, cid := c.cid, pseq := (started q s).emb.pseq % 65536, replies := [] }] })
        { started q s with emb := { (started q s).emb with pseq := (started q s).emb.pseq + 1 } })) := by
  show execTblPublish q s = _
  refine (job_next h.head h.job).trans ?_
  simp only [hjob, if_pos htid, ht]
  rfl

theorem exec_tblDestroy (h : Accepted q Op.TBL_DESTROY s c) (hstays : t.destroy = none) :
    exec (.tblDestroy q) s = .next (updTable c.job (c.opnd 0 2) (fun t => { t with destroy := some (q.val, c.cid) }) (started q s)) := by
  show execTblDestroy q s = _
  refine (job_next h.head h.job).trans ?_
  simp only [if_pos htid, ht, hstays, Option.isSome_none, Bool.false_eq_true, if_false]

end

end

/-- Settles O27: one lemma per command. -/
theorem tableCommandsComplete : Obligations.TableCommandsComplete := by
  rintro q c s _ rfl
  exact ⟨fun h hnew hroom hfixed hslot => exec_tblCreate h hnew hroom hfixed hslot,
    fun t h htid ht hidle hslot hnewer => exec_tblStage htid ht h hidle hslot hnewer,
    fun job t h htid hjob ht => exec_tblPublish htid ht h hjob, fun t h htid ht hstays => exec_tblDestroy htid ht h hstays⟩

end Sys2Proof.Machine
end

section
/-! SUPPORT. The publication and replica messages, one lemma per message, and the events of the replica engines (R202, R206, R207, R210, R211,
R214 to R217, R219). -/

namespace Sys2Proof.Machine

/-- A message the device takes whose work comes to a known state. -/
theorem takes_done_of {i : Instr} {typ : Nat} {m : Msg} {j r : Nat} {s s1 u : State} {ident : Msg → Option (List Nat)}
    {f : Nat → Nat → Msg → State → State} (h : Takes typ m (ident m) j r s s1) (hl : listedType typ = true) (hu : f j r m s1 = u)
    (hr : usesReady u) : receive i typ m ident f s = .next (done s u) := by
  subst hu; exact takes_next ident f h hl hr

/-! ## A replica row (R211, R216, R217) -/

/-- The slot a REPL_ROW finds in the directory: an empty one, under the row's name, where none is listed. -/
def slotFor (m : Msg) (j slot : Nat) (s : State) : RepSlot :=
  Tbl.look s.emb.slots (hotKey j slot)
    { tid := leAt m.hdr 2 2 % 4096, row := leAt m.hdr 4 5, live := none, vnum := [0, 0], dframe := [0, 0], digest := [0, 0], len := [0, 0],
      fresh := none }

/-- The copy of a slot that a row is written to: the one that does not serve, or the one written last. -/
def RepSlot.spare (x : RepSlot) : Nat := match x.live with | some c => 1 - c | none => (x.fresh.map (·.copy)).getD 0

/-- A slot with the row of a REPL_ROW written to a copy, which waits for the flip. -/
def RepSlot.filled (x : RepSlot) (m : Msg) (c digest : Nat) : RepSlot :=
  { x with
    vnum := x.vnum.set c (leAt m.hdr 11 2), dframe := x.dframe.set c (leAt m.hdr 13 6), digest := x.digest.set c digest,
    len := x.len.set c (leAt m.hdr 27 2),
    fresh := some { copy := c, dframe := leAt m.hdr 13 6, tid := leAt m.hdr 2 2 % 4096, row := leAt m.hdr 4 5 } }

/-- A row written to a copy of its slot, which then waits for the flip; an address that is not mapped leaves the directory as it was. -/
def storeRow (m : Msg) (j slot : Nat) (job : Job) (x : RepSlot) (d : Bytes) (s : State) : State :=
  match cacheWrite (slot % 2) j (leAt m.hdr 2 2 % 4096) (job.replBase + (2 * slot + x.spare) * job.replBytes) d s with
  | .unmapped _ s1 => s1
  | .ok _ s1 => { s1 with emb := { s1.emb with slots := Tbl.put s1.emb.slots (hotKey j slot) (x.filled m x.spare (crc64 d)) } }

theorem storeRow_mapped {m : Msg} {j slot : Nat} {job : Job} {x : RepSlot} {d : Bytes} {bad : List Nat} {s s1 : State}
    (h : cacheWrite (slot % 2) j (leAt m.hdr 2 2 % 4096) (job.replBase + (2 * slot + x.spare) * job.replBytes) d s = .ok bad s1) :
    storeRow m j slot job x d s =
      { s1 with emb := { s1.emb with slots := Tbl.put s1.emb.slots (hotKey j slot) (x.filled m x.spare (crc64 d)) } } := by
  unfold storeRow; rw [h]

/-! ## The messages -/

section
variable {m : Msg} {j r : Nat} {s s1 u : State} (hr : usesReady u)
include hr

theorem exec_publish {answer : Nat × State} (h : Takes 0x40 m (some [leAt m.hdr 12 2, leAt m.hdr 14 2]) j r s s1)
    (hanswer : answer = publishHere j (leAt m.hdr 2 2 % 4096) (leAt m.hdr 4 2) (leAt m.hdr 6 6) s1)
    (hu : u = sendRank j (leAt m.hdr 12 2) 2 (pubReplyHdr (leAt m.hdr 2 2 % 4096) (leAt m.hdr 4 2) (leAt m.hdr 14 2) answer.1) [] {} answer.2) :
    exec (.publish m) s = .next (done s u) := by
  subst hanswer
  exact (takes_done_of h rfl hu.symm hr : execPublish m s = _)

theorem exec_pubReply (h : Takes 0x41 m (some [m.src.toNat, leAt m.hdr 6 2]) j r s s1)
    (hu : u = publishReply j (leAt m.hdr 2 2 % 4096) (leAt m.hdr 6 2) r (leAt m.hdr 8 1)
      (protoAck m.src.toNat (fun t => decide (leAt t.hdr 0 2 = 0x40) && decide (leAt t.hdr 14 2 = leAt m.hdr 6 2)) s1)) :
    exec (.pubReply m) s = .next (done s u) :=
  (takes_done_of h rfl hu.symm hr : execPubReply m s = _)

/-- A row of a hot row number of its owner, within a copy and whole, whose digest agrees, of a slot that holds no newer one. -/
theorem exec_replRow {job : Job} {x : RepSlot} {slot : Nat} {d : Bytes} {s2 : State}
    (h : Takes 0x42 m (some [m.src.toNat, leAt m.hdr 9 2, leAt m.hdr 13 6]) j r s s1) (hjob : s1.job? j = some job)
    (hhot : leAt m.hdr 9 2 < hotQuota job) (hfits : leAt m.hdr 27 2 ≤ job.replBytes) (hwhole : leAt m.hdr 27 2 ≤ m.body.length)
    (hslot : slot = r * hotQuota job + leAt m.hdr 9 2)
    (hs2 : s2 = needDraw 8195 (updRound j r (leAt m.hdr 13 6) (fun x => { x with count := x.count + 1 }) s1))
    (hx : x = slotFor m j slot s2) (hd : d = slice m.body 0 (leAt m.hdr 27 2)) (hdigest : crc64 d = leAt m.hdr 19 8)
    (hnewest : x.newerThan (leAt m.hdr 13 6) s1.clk.fnum = false) (hu : u = storeRow m j slot job x d s2) :
    exec (.replRow m) s = .next (done s u) := by
  have hgood : ¬ (leAt m.hdr 9 2 ≥ hotQuota job ∨ leAt m.hdr 27 2 > job.replBytes ∨ m.body.length < leAt m.hdr 27 2) := by omega
  have hsame : ¬ crc64 d ≠ leAt m.hdr 19 8 := not_not.2 hdigest
  unfold slotFor at hx
  subst hu
  show execReplRow m s = _
  refine takes_done_of h rfl ?_ hr
  simp only [hjob, if_neg hgood, ← hslot, ← hs2, ← hx, ← hd, if_neg hsame, hnewest, Bool.false_eq_true, if_false]
  rfl

theorem exec_replEnd (h : Takes 0x43 m (some [m.src.toNat, leAt m.hdr 2 6]) j r s s1)
    (hu : u = updRound j r (leAt m.hdr 2 6) (fun x => { x with total := some (leAt m.hdr 8 4) }) (needDraw 8195 s1)) :
    exec (.replEnd m) s = .next (done s u) :=
  (takes_done_of h rfl hu.symm hr : execReplEnd m s = _)

theorem exec_replDrop {job : Job} (h : Takes 0x44 m (some [m.src.toNat, leAt m.hdr 9 2]) j r s s1) (hjob : s1.job? j = some job)
    (hu : u = { s1 with emb := { s1.emb with drops := s1.emb.drops ++
      [(j, r * hotQuota job + leAt m.hdr 9 2, leAt m.hdr 2 2 % 4096, leAt m.hdr 4 5)] } }) :
    exec (.replDrop m) s = .next (done s u) := by
  subst hu
  refine (takes_done_of h rfl ?_ hr : execReplDrop m s = _)
  simp only [hjob]

theorem exec_repair (h : Takes 0x45 m (some [m.src.toNat, leAt m.hdr 9 2]) j r s s1)
    (hu : u = { s1 with emb := { s1.emb with
      hot := Tbl.upd s1.emb.hot (hotKey j (leAt m.hdr 9 2)) fun x =>
        if x.tid = leAt m.hdr 2 2 % 4096 ∧ x.row = leAt m.hdr 4 5 then { x with dirty := true } else x } }) :
    exec (.repair m) s = .next (done s u) :=
  (takes_done_of h rfl hu.symm hr : execRepair m s = _)

end

/-- Settles O28: one lemma per message; what a row leaves in its slot is `storeRow_mapped`. -/
theorem replicaMessagesComplete : Obligations.ReplicaMessagesComplete := by
  intro m j r s s1 u hr
  refine ⟨fun h hu => exec_publish hr h rfl hu, fun h hu => exec_pubReply hr h hu, ?row, fun h hu => exec_replEnd hr h hu,
    fun job h hjob hu => exec_replDrop hr h hjob hu, fun h hu => exec_repair hr h hu⟩
  case row =>
    rintro job h slot df x d c bad s2 s3 htakes hjob rfl hhot hfits hwhole hslot rfl hs2 hx rfl hdigest hnewest rfl hwrite hu
    exact exec_replRow hr htakes hjob hhot hfits hwhole hslot hs2 hx rfl hdigest hnewest (hu.trans (storeRow_mapped hwrite).symm)

/-! ## The hot window, the digest sample and the refresh engine's draws (R207, R215, R219) -/

/-- At the tick whose number is a multiple of 64, and not chosen there yet, the hot set is chosen anew. -/
theorem exec_hotWindowEnd {s u : State} (hframed : s.framed = true) (htick : (s.clk.fnum + 1) % 64 = 0) (hnew : s.emb.windowAt ≠ s.clk.fnum + 1)
    (hu : u = runUntil s.expected s) (hframed' : u.framed = true) (htick' : (u.clk.fnum + 1) % 64 = 0)
    (hnew' : u.emb.windowAt ≠ u.clk.fnum + 1) : exec .hotWindowEnd s = .next (hotWindow (u.clk.fnum + 1) u) := by
  subst hu
  exact (instant_next (by simp [hframed, htick, hnew]) (by simp [hframed', htick', hnew']) : execHotWindowEnd s = _)

theorem exec_digestSample {s u : State} (hu : u = runUntil (s.atPos s.W) s) (hslice : u.W ≤ u.pos)
    (h : ∀ x, x = s ∨ x = u → x.framed = true ∧ x.lost = false ∧ x.clk.digest = 0 ∧ sliceFree x = true ∧ censusWaits x = false) :
    exec .digestSample s = .next (digestSample u) := by
  have hready : ∀ x, x = s ∨ x = u →
      (x.framed && !x.lost && decide (x.clk.digest = 0) && sliceFree x && !censusWaits x) = true := by
    intro x hx
    obtain ⟨hframed, hlost, hdigest, hfree, hcensus⟩ := h x hx
    simp [hframed, hlost, hdigest, hfree, hcensus]
  subst hu
  refine (instant_next (hready s (.inl rfl)) (hready _ (.inr rfl)) : execDigestSample s = _).trans ?_
  rw [if_neg (not_lt.2 hslice)]

theorem exec_refreshEngineDrawReturn {s u : State} (hu : u = runUntil (Tbl.look s.stk.use 8195 0 + 64000) s)
    (h : ∀ x, x = s ∨ x = u → x.live = true ∧ holds .refresh x = true ∧ x.emb.roundOut = [])
    (hdue : Tbl.look u.stk.use 8195 0 + 64000 ≤ u.now) : exec .refreshEngineDrawReturn s = .next (ledgerReturn .refresh u) := by
  have hidle : ∀ x, x = s ∨ x = u → (x.live && holds .refresh x && decide (x.emb.roundOut = [])) = true := by
    intro x hx
    obtain ⟨hlive, hheld, hout⟩ := h x hx
    simp [hlive, hheld, hout]
  exact (drawReturn_next (o := .refresh) (last := fun s => Tbl.look s.stk.use 8195 0)
    (idle := fun s => s.live && holds .refresh s && decide (s.emb.roundOut = []))
    (hidle s (.inl rfl)) hu (hidle u (.inr rfl)) hdue : execRefreshEngineDrawReturn s = _)

/-- Settles O29: one lemma per event. -/
theorem replicaEngineEventsComplete : Obligations.ReplicaEngineEventsComplete := by
  refine ⟨fun s hframed htick hnew hframed' htick' hnew' => exec_hotWindowEnd hframed htick hnew rfl hframed' htick' hnew',
    fun s u hframed hlost hdigest hfree hcensus hu hframed' hlost' hdigest' hfree' hcensus' hslice => exec_digestSample hu hslice ?sample,
    fun s u hlive hheld hout hu hlive' hheld' hout' hdue => exec_refreshEngineDrawReturn hu ?draws hdue⟩
  case sample =>
    rintro x (rfl | rfl)
    · exact ⟨hframed, hlost, hdigest, hfree, hcensus⟩
    · exact ⟨hframed', hlost', hdigest', hfree', hcensus'⟩
  case draws =>
    rintro x (rfl | rfl)
    · exact ⟨hlive, hheld, hout⟩
    · exact ⟨hlive', hheld', hout'⟩

end Sys2Proof.Machine
end

section
/-! SUPPORT. The registers of a walker and its arithmetic: what a register holds after a write, what an instruction that writes RD does, and
its operands as 32-bit words (R221, R223, R224). -/

namespace Sys2Proof.Machine

/-! ## Registers (R221) -/

@[simp] theorem Walker.reg_zero (w : Walker) : w.reg 0 = 0 := if_pos rfl

@[simp] theorem Walker.setReg_zero (w : Walker) (v : Nat) : w.setReg 0 v = w := if_pos rfl

theorem Walker.reg_lt (w : Walker) (r : Nat) : w.reg r < 2 ^ 32 := by
  unfold Walker.reg
  split
  · decide
  · exact Nat.mod_lt _ (by decide)

theorem Walker.reg_setReg (w : Walker) {rd : Nat} (hrd : rd ≠ 0) (v r : Nat) :
    (w.setReg rd v).reg r = if r = rd then v % 2 ^ 32 else w.reg r := by
  have hlook : Tbl.look (Tbl.put w.regs rd (v % 2 ^ 32)) r 0 = if r = rd then v % 2 ^ 32 else Tbl.look w.regs r 0 := by
    unfold Tbl.look
    rw [Tbl.look?_put]
    rcases eq_or_ne rd r with heq | hne
    · rw [if_pos heq, if_pos heq.symm]
    · rw [if_neg hne, if_neg hne.symm]
  unfold Walker.setReg
  rw [if_neg hrd]
  rcases eq_or_ne r 0 with rfl | hr
  · rw [Walker.reg_zero, Walker.reg_zero, if_neg hrd.symm]
  · simp only [Walker.reg, if_neg hr, hlook]
    split <;> simp

/-- A register takes the low 32 bits of what is written to it. -/
theorem Walker.setReg_congr (w : Walker) (rd : Nat) {v v' : Nat} (h : v % 2 ^ 32 = v' % 2 ^ 32) : w.setReg rd v = w.setReg rd v' := by
  unfold Walker.setReg
  rw [h]

/-- Settles O31: by the two cases of a write (`Walker.setReg_zero`, `Walker.reg_setReg`). -/
theorem walkerRegisterFile : Obligations.WalkerRegisterFile :=
  fun w _ r v => ⟨w.reg_zero, w.setReg_zero v, fun hrd => w.reg_setReg hrd v r, w.reg_lt r⟩

/-! ## The three ends of an instruction that is ready -/

section
variable {k : Fin 2048} {w : BitVec 32} {op : Nat} {cl : Cluster} {s s1 : State} {check : WIss → Nat} {act : WIss → State → WEff}
  (h : WalkReady k w op cl s) (hop : walkDefined op = true) (hk : check (walkIss k w cl s) = 0)
include h hop hk

theorem walk_goes {pc : Nat} (hact : act (walkIss k w cl s) s = .next pc s1) : walkIssue k w op check act s = .next (walkTo k pc s1) := by
  rw [walk_ready h hop check act hk, hact]; rfl

theorem walk_stops (hact : act (walkIss k w cl s) s = .stop s1) : walkIssue k w op check act s = .next s1 := by
  rw [walk_ready h hop check act hk, hact]

end

/-! ## Arithmetic (R224) -/

theorem walkAlu_writes {k : Fin 2048} {w : BitVec 32} {op : Nat} {cl : Cluster} {s : State} {f : WIss → Nat} {v : BitVec 32}
    (h : WalkReady k w op cl s) (hop : walkDefined op = true) (hv : f (walkIss k w cl s) % 2 ^ 32 = v.toNat) :
    walkAlu k w op f s = .next (walkWrote k (bits w.toNat 9 6) v s) := by
  have hset (x : Walker) : x.setReg (bits w.toNat 9 6) (f (walkIss k w cl s)) = x.setReg (bits w.toNat 9 6) v.toNat :=
    x.setReg_congr _ (by rw [hv, Nat.mod_eq_of_lt v.isLt])
  refine (walk_goes h hop rfl rfl : walkAlu k w op f s = _).trans ?_
  show Host.Outcome.next (walkTo k ((s.walker k).pc + 1)
    (updWalker k (fun x => x.setReg (bits w.toNat 9 6) (f (walkIss k w cl s))) s)) = _
  simp only [hset]
  rfl

/-- The two's complement value of a word. -/
theorem sx_toNat (x : BitVec 32) : sx 32 x.toNat = x.toInt := by
  unfold sx
  rw [BitVec.toInt_eq_msb_cond, BitVec.msb_eq_getLsbD_last, Nat.mod_eq_of_lt x.isLt]
  have : ((x.toNat : Int) % 2 ^ 32) = x.toNat := by have := x.isLt; omega
  rw [this]
  rfl

theorem wrapInt_eq_toNat (i : Int) : wrapInt 32 i = (BitVec.ofInt 32 i).toNat := by
  rw [BitVec.toNat_ofInt]; rfl

section
variable {i : WIss} {a b imm : BitVec 32} (ha : i.a = a.toNat) (hb : i.b = b.toNat) (himm : i.immw = imm.toNat)
include hb himm

theorem WIss.shift_eq : i.shift = (b + imm).toNat % 32 := by
  unfold WIss.shift
  rw [hb, himm, BitVec.toNat_add]
  omega

theorem WIss.logic_eq : i.logic = (if bits i.v 17 14 = 0 then imm else b).toNat := by
  unfold WIss.logic
  rw [hb, himm]
  split <;> rfl

end

/-- The upper 22 bits of a word in place. -/
theorem upper_bits (w : BitVec 32) : bits w.toNat 31 10 * 1024 % 2 ^ 32 = (w &&& 0xFFFFFC00#32).toNat := by
  have hmask : (0xFFFFFC00#32).toNat = (2 ^ 22 - 1) <<< 10 := rfl
  rw [BitVec.toNat_and, hmask, bits, show (1024 : Nat) = 2 ^ 10 from rfl, ← Nat.shiftLeft_eq]
  refine Nat.eq_of_testBit_eq fun i => ?_
  simp only [Nat.testBit_mod_two_pow, Nat.testBit_shiftLeft, Nat.testBit_and, Nat.testBit_two_pow_sub_one, Nat.testBit_shiftRight]
  by_cases hi : 10 ≤ i
  · have hhigh : i - 10 < 22 ↔ i < 32 := by omega
    rw [show 10 + (i - 10) = i by omega]
    simp only [hi, hhigh, decide_true, Bool.true_and, Bool.and_comm, Bool.and_self_left]
  · simp [hi]

theorem mulhu_toNat (a b : BitVec 32) :
    a.toNat * b.toNat / 2 ^ 32 % 2 ^ 32 = ((a.zeroExtend 64 * b.zeroExtend 64).extractLsb' 32 32).toNat := by
  have ha := a.isLt
  have hb := b.isLt
  have hab : a.toNat * b.toNat < 2 ^ 64 := by nlinarith
  simp only [BitVec.extractLsb'_toNat, BitVec.toNat_mul, BitVec.toNat_setWidth, Nat.shiftRight_eq_div_pow]
  rw [Nat.mod_eq_of_lt (a := a.toNat) (by omega), Nat.mod_eq_of_lt (a := b.toNat) (by omega), Nat.mod_eq_of_lt hab]

theorem sra_toNat (a : BitVec 32) (n : Nat) : wrapInt 32 (sx 32 a.toNat / 2 ^ n) % 2 ^ 32 = (a.sshiftRight n).toNat := by
  rw [wrapInt_eq_toNat, Nat.mod_eq_of_lt (BitVec.isLt _), sx_toNat, BitVec.sshiftRight_eq, Int.shiftRight_eq_div_pow]
  rfl

theorem b2n_decide (p : Prop) [Decidable p] : b2n (decide p) % 2 ^ 32 = (if p then 1#32 else 0#32).toNat := by
  by_cases h : p <;> simp [h, b2n]

/-- Settles O30: each operation writes what its row says (`walkAlu_writes`) of its operands as words. -/
theorem walkerArithmeticResults : Obligations.WalkerArithmeticResults := by
  rintro k w cl s rd sh a b imm rfl hwa hwb hwi rfl
  have ha : (walkIss k w cl s).a = a.toNat := by rw [hwa, BitVec.toNat_ofNat, Nat.mod_eq_of_lt (Walker.reg_lt ..)]; rfl
  have hb : (walkIss k w cl s).b = b.toNat := by rw [hwb, BitVec.toNat_ofNat, Nat.mod_eq_of_lt (Walker.reg_lt ..)]; rfl
  have himm : (walkIss k w cl s).immw = imm.toNat := by rw [hwi, ← wrapInt_eq_toNat]; rfl
  have hshift := WIss.shift_eq hb himm
  have hlogic := WIss.logic_eq hb himm
  refine ⟨fun h => (walkAlu_writes h rfl ?add : execAdd k w s = _), fun h => (walkAlu_writes h rfl ?sub : execSub k w s = _),
    fun h => (walkAlu_writes h rfl ?and : execAnd k w s = _), fun h => (walkAlu_writes h rfl ?or : execOr k w s = _),
    fun h => (walkAlu_writes h rfl ?xor : execXor k w s = _), fun h => (walkAlu_writes h rfl ?shl : execShl k w s = _),
    fun h => (walkAlu_writes h rfl ?shr : execShr k w s = _), fun h => (walkAlu_writes h rfl ?sra : execSra k w s = _),
    fun h => (walkAlu_writes h rfl ?mul : execMul k w s = _), fun h => (walkAlu_writes h rfl ?mulhu : execMulhu k w s = _),
    fun h => (walkAlu_writes h rfl ?slt : execSlt k w s = _), fun h => (walkAlu_writes h rfl ?sltu : execSltu k w s = _),
    fun h => (walkAlu_writes h rfl ?lui : execLui k w s = _), fun h => (walk_goes h rfl rfl rfl : execWalkNop k w s = _)⟩
  case add => simp only [ha, hb, himm, BitVec.toNat_add, Nat.mod_add_mod]
  case sub => simp only [ha, hb, BitVec.toNat_sub]; have := b.isLt; omega
  case and => simp only [ha, hlogic, ← BitVec.toNat_and]; exact Nat.mod_eq_of_lt (BitVec.isLt _)
  case or => simp only [ha, hlogic, ← BitVec.toNat_or]; exact Nat.mod_eq_of_lt (BitVec.isLt _)
  case xor => simp only [ha, hlogic, ← BitVec.toNat_xor]; exact Nat.mod_eq_of_lt (BitVec.isLt _)
  case shl => simp only [ha, hshift, BitVec.toNat_shiftLeft]
  case shr => simp only [ha, hshift, ← BitVec.toNat_ushiftRight]; exact Nat.mod_eq_of_lt (BitVec.isLt _)
  case sra => simp only [ha, hshift]; exact sra_toNat ..
  case mul => simp only [ha, hb, BitVec.toNat_mul]
  case mulhu => simp only [ha, hb]; exact mulhu_toNat a b
  case slt => simp only [ha, hb, sx_toNat]; exact (b2n_decide _).trans (by simp [BitVec.slt])
  case sltu => simp only [ha, hb]; exact (b2n_decide _).trans (by simp [BitVec.ult])
  case lui => exact upper_bits w

end Sys2Proof.Machine
end

section
/-! SUPPORT. A walker's loads, stores, jumps, ends, control values, transfers and waits, one lemma per instruction or kind of instruction
(R223 to R225, R236). -/

namespace Sys2Proof.Machine

section
variable {k : Fin 2048} {w : BitVec 32} {op : Nat} {cl : Cluster} {s : State} {i : WIss} (hi : i = walkIss k w cl s)
include hi

/-! ## Local memory -/

theorem exec_ld (h : WalkReady k w 0x10 cl s) (hok : localOk i.laddr 4 4 = true) :
    exec (.ld k w) s = .next (walkTo k (i.w.pc + 1) (updWalker k (fun x => x.setReg i.rd (le (x.read i.laddr 4))) s)) := by
  subst hi
  exact (walk_goes h rfl (if_pos hok) rfl : execLd k w s = _)

theorem exec_st (h : WalkReady k w 0x11 cl s) (hok : localOk i.laddr 4 4 = true) :
    exec (.st k w) s =
      .next (walkTo k (i.w.pc + 1) (updWalker k (fun x => { x with loc := Mem.sets x.loc 0 i.laddr (toLe 4 i.b) }) s)) := by
  subst hi
  exact (walk_goes h rfl (if_pos hok) rfl : execSt k w s = _)

/-! ## Jumps -/

theorem walkBranch_goes {f : WIss → Bool} (h : WalkReady k w op cl s) (hop : walkDefined op = true) (hok : targetOk i.target = true) :
    walkBranch k w op f s = .next (walkTo k (if f i then i.target.toNat else i.w.pc + 1) s) := by
  subst hi
  exact walk_goes h hop (if_pos hok) rfl

theorem exec_jal (h : WalkReady k w 0x16 cl s) (hok : targetOk i.target = true) :
    exec (.jal k w) s = .next (walkTo k i.target.toNat (updWalker k (fun x => x.setReg i.rd (i.w.pc + 1)) s)) := by
  subst hi
  exact (walk_goes h rfl (if_pos hok) rfl : execJal k w s = _)

theorem exec_jr (h : WalkReady k w 0x17 cl s) (hok : i.a < storeWords) : exec (.jr k w) s = .next (walkTo k i.a s) := by
  subst hi
  exact (walk_goes h rfl (if_pos hok) rfl : execJr k w s = _)

/-! ## Ends and waits -/

section
variable (hdone : i.w.xfers = [])
include hdone

theorem exec_walkEnd (h : WalkReady k w 0x18 cl s) :
    exec (.walkEnd k w) s = .next (clusterEnd (clusterOf k) (updWalker k (fun x => { x with ended := true }) s)) := by
  subst hi
  exact (walk_stops h rfl rfl (if_pos hdone) : execWalkEnd k w s = _)

theorem exec_walkCbnd (h : WalkReady k w 0x19 cl s) :
    exec (.walkCbnd k w) s = .next (clusterEnd (clusterOf k) (updWalker k (fun x => { x with bound := true, pc := x.pc + 1 }) s)) := by
  subst hi
  exact (walk_stops h rfl rfl (if_pos hdone) : execWalkCbnd k w s = _)

theorem exec_xwait (h : WalkReady k w 0x21 cl s) : exec (.xwait k w) s = .next (walkTo k (i.w.pc + 1) s) := by
  subst hi
  exact (walk_goes h rfl rfl (if_pos hdone) : execXwait k w s = _)

end

theorem exec_hwait {x : Handle} {sum : Nat} (h : WalkReady k w 0x25 cl s) (hx : s.handle? i.a = some x) (hended : x.ended = some sum)
    (hcid : x.cid = cl.cid) : exec (.hwait k w) s = .next (walkTo k (i.w.pc + 1) (updWalker k (fun x => x.setReg i.rd sum) s)) := by
  subst hi
  show execHwait k w s = _
  refine walk_goes h rfl rfl ?_
  simp only [hx, hended]
  exact if_pos hcid

/-! ## Control values and segment bases -/

theorem exec_csr (h : WalkReady k w 0x1A cl s) (hlisted : bits w.toNat 21 18 ≤ 6) :
    exec (.csr k w) s =
      .next (walkTo k (i.w.pc + 1) (updWalker k (fun x => x.setReg i.rd (csrValue s i (bits w.toNat 21 18))) s)) := by
  subst hi
  exact (walk_goes h rfl (if_pos hlisted) rfl : execCsr k w s = _)

theorem exec_sbset (h : WalkReady k w 0x22 cl s) :
    exec (.sbset k w) s = .next (walkTo k (i.w.pc + 1) (updWalker k (fun x => { x with
      sb := Tbl.put x.sb (bits w.toNat 19 18) (i.b % 65536 * 2 ^ 32 + i.a) }) s)) := by
  subst hi
  exact (walk_goes h rfl rfl rfl : execSbset k w s = _)

/-! ## Transfers -/

/-- A transfer of whole 32-byte units within local memory, of a mapped span, joins the walker's transfers. -/
theorem exec_xfer {n : Nat} (h : WalkReady k w 0x20 cl s) (hn : n = i.w.reg i.rd) (hmin : 32 ≤ n) (hmax : n ≤ 8192) (hunit : n % 32 = 0)
    (hlocal : i.a + n ≤ 0x2000) (hspan : spanMapped s cl.job i.xaddr n = true) :
    exec (.xfer k w) s = .next (walkTo k (i.w.pc + 1) (updWalker k (fun x => { x with
      xfers := x.xfers ++ [{ out := bitOf w.toNat 20, loc := i.a, addr := i.xaddr, len := n }] }) s)) := by
  subst hi hn
  show execXfer k w s = _
  refine walk_goes h rfl (if_neg (by omega)) ?_
  exact if_neg (by simp only [walkIss] at hspan ⊢; rw [hspan]; decide)

end

section
variable {k : Fin 2048} {cl : Cluster} {s u : State} {x : Xfer} {r : List Xfer} (hx : (s.walker k).xfers = x :: r)
  (hcl : s.cluster? (clusterOf k) = some cl) (hclk : s.clocked = true)
include hx hcl hclk

theorem exec_xferComplete_in {d : Bytes} {bad : List Nat} {s1 : State} (hin : x.out = false)
    (hread : rangeRead cl.job x.addr x.len (updWalker k (fun w => { w with xfers := r }) (unused s)) = .ok d bad s1)
    (hu : u = updWalker k (fun w => { w with loc := Mem.sets w.loc 0 x.loc d }) s1) (hr : usesReady u) :
    exec (.xferComplete k) s = .next (done s u) := by
  show execXferComplete k s = _
  unfold execXferComplete
  simp only [hx, hcl]
  refine whenP_done_of hclk ?_ hr
  simp only [hin, hread, Bool.false_eq_true, if_false]
  exact hu.symm

theorem exec_xferComplete_out {bad : List Nat} (hout : x.out = true)
    (hwrite : rangeWrite cl.job x.addr ((s.walker k).read x.loc x.len) (updWalker k (fun w => { w with xfers := r }) (unused s)) = .ok bad u)
    (hr : usesReady u) : exec (.xferComplete k) s = .next (done s u) := by
  show execXferComplete k s = _
  unfold execXferComplete
  simp only [hx, hcl]
  refine whenP_done_of hclk ?_ hr
  have hread : (unused s).walker k = s.walker k := rfl
  simp only [hout, hread, hwrite, if_true]

end

/-- Settles O32: one lemma per instruction; the four branches are `walkBranch_goes` with their comparisons. -/
theorem walkerMemoryAndControl : Obligations.WalkerMemoryAndControl := by
  intro k w cl s i hi
  refine ⟨fun h hok => exec_ld hi h hok, fun h hok => exec_st hi h hok, fun h hok => ?beq, fun h hok => ?bne, fun h hok => ?blt,
    fun h hok => ?bltu, fun h hok => exec_jal hi h hok, fun h hok => exec_jr hi h hok, fun h hdone => exec_walkEnd hi hdone h,
    fun h hdone => exec_walkCbnd hi hdone h, fun h hlisted => exec_csr hi h hlisted,
    fun n h hn hmin hmax hunit hlocal hspan => exec_xfer hi h hn hmin hmax hunit hlocal hspan, fun h hdone => exec_xwait hi hdone h,
    fun h => exec_sbset hi h, fun x sum h hx hended hcid => exec_hwait hi h hx hended hcid,
    fun x r d bad s1 u hx hcl hclk hin hread hu hr => exec_xferComplete_in hx hcl hclk hin hread hu hr,
    fun x r bad u hx hcl hclk hout hwrite hr => exec_xferComplete_out hx hcl hclk hout hwrite hr⟩
  case beq => exact (walkBranch_goes hi h rfl hok : execBeq k w s = _).trans (by simp only [beq_iff_eq])
  case bne => exact (walkBranch_goes hi h rfl hok : execBne k w s = _).trans (by simp only [bne_iff_ne, ne_eq, ite_not])
  case blt => exact (walkBranch_goes hi h rfl hok : execBlt k w s = _).trans (by simp only [decide_eq_true_eq])
  case bltu => exact (walkBranch_goes hi h rfl hok : execBltu k w s = _).trans (by simp only [decide_eq_true_eq])

end Sys2Proof.Machine
end

section
/-! SUPPORT. The sends of a walker: LKSEND and UPSEND of a valid descriptor, the waiting sender that goes on, and UPCLOSE (R226, R228, R241,
R245). -/

namespace Sys2Proof.Machine

/-! ## Work of a row that answers by itself -/

/-- Work that reaches memory and comes to a known state is done. -/
theorem poweredOut_done_of {i : Instr} {f : State → Out} {s u : State} (hu : f (unused s) = .next u) (hr : usesReady u) :
    poweredOut i f s = .next (done s u) := by
  unfold poweredOut
  rw [hu]
  exact congrArg _ (settle_done hr)

theorem WalkReady.unused {k : Fin 2048} {w : BitVec 32} {op : Nat} {cl : Cluster} {s : State} (h : WalkReady k w op cl s) :
    WalkReady k w op cl (unused s) := ⟨h.may, h.code, h.own, h.pc⟩

/-! ## LKSEND and UPSEND -/

/-- A sender of a valid descriptor starts its handle, a lookup when the combine pool has its space. -/
theorem sendIssue_starts {k rd a pc : Nat} {cl : Cluster} {upd : Bool} {word : BitVec 32} {d : Bytes} {s : State} (hd : d = (s.walker k).read a 64)
    (hvalid : descError s cl.job upd d = 0)
    (hspace : upd = true ∨
      combineUsed s + (match s.table? cl.job (dsTid d) with | some t => dsNbags d * fxDim t.fixed * 16 | none => 0) ≤ 2 ^ 24) :
    sendIssue k rd a pc cl upd word s = startHandle k rd pc cl upd d word s := by
  subst hd
  unfold sendIssue
  simp only [hvalid]
  refine if_neg ?_
  rcases hspace with hupd | hroom
  · simp [hupd]
  · simp only [Bool.and_eq_true, decide_eq_true_eq, not_and]
    exact fun _ => not_lt.2 hroom

section
variable {k : Fin 2048} {w : BitVec 32} {cl : Cluster} {s u : State} {i : WIss} {d : Bytes} (hi : i = walkIss k w cl s)
  (hd : d = (s.walker k).read i.a 64) (hok : localOk i.a 64 8 = true) (hr : usesReady u)
include hi hd hok hr

theorem exec_lksend {need : Nat} (h : WalkReady k w 0x23 cl s) (hvalid : descError s cl.job false d = 0)
    (hneed : need = (match s.table? cl.job (dsTid d) with | some t => dsNbags d * fxDim t.fixed * 16 | none => 0))
    (hroom : combineUsed s + need ≤ 2 ^ 24) (hu : u = startHandle k i.rd i.w.pc cl false d w (unused s)) :
    exec (.lksend k w) s = .next (done s u) := by
  subst hi hneed
  have hstart := sendIssue_starts (rd := (walkIss k w cl s).rd) (pc := (s.walker k).pc) (word := w) (s := unused s) hd hvalid (.inr hroom)
  refine (poweredOut_done_of ?_ hr : execLksend k w s = _)
  exact walk_stops h.unused rfl (if_pos hok) (congrArg _ (hstart.trans hu.symm))

theorem exec_upsend (h : WalkReady k w 0x24 cl s) (hvalid : descError s cl.job true d = 0)
    (hu : u = startHandle k i.rd i.w.pc cl true d w (unused s)) : exec (.upsend k w) s = .next (done s u) := by
  subst hi
  have hstart := sendIssue_starts (rd := (walkIss k w cl s).rd) (pc := (s.walker k).pc) (word := w) (s := unused s) hd hvalid (.inl rfl)
  refine (poweredOut_done_of ?_ hr : execUpsend k w s = _)
  exact walk_stops h.unused rfl (if_pos hok) (congrArg _ (hstart.trans hu.symm))

end

/-- A waiting sender goes on with the space or the entries that have come free. -/
theorem exec_lksendResume {k : Fin 2048} {s u : State} (hclk : s.clocked = true) (hu : u = resumeOrphans k (resumeSender k (unused s)))
    (hr : usesReady u) : exec (.lksendResume k) s = .next (done s u) :=
  (whenP_done_of hclk hu.symm hr : execLksendResume k s = _)

/-! ## UPCLOSE (R245) -/

theorem exec_upclose {k : Fin 2048} {w : BitVec 32} {cl : Cluster} {s s1 : State} {i : WIss} {n step : Nat} {l : Bytes} {tids : List Nat}
    {job : Job} (hi : i = walkIss k w cl s) (h : WalkReady k w 0x26 cl s) (hok : localOk i.a 8 4 = true)
    (hn : n = leAt (i.w.read i.a 8) 4 4) (hmin : 1 ≤ n) (hmax : n ≤ 4096) (hlocal : i.a + 8 + 2 * n ≤ 0x2000)
    (hl : l = i.w.read i.a (8 + 2 * n)) (hstep : step = leAt l 0 4) (htids : tids = closeTids l n)
    (hlisted : ∀ t ∈ tids, t < 4096 ∧ (s.table? cl.job t).isSome = true) (hjob : s.job? cl.job = some job)
    (hclosed : stepOpen s cl.job step = false)
    (hs1 : s1 = { s with lkp := { s.lkp with
      closed := s.lkp.closed ++ (tids.map fun t => (cl.job, t, step)).filter fun c => !s.lkp.closed.contains c } }) :
    exec (.upclose k w) s = .next (walkTo k (i.w.pc + 1) ((ownersOf s1 cl.job tids).foldl (fun s r =>
      if r = job.rank then tids.foldl (fun s t => closeHere cl.job t step r s) s
      else sendRank cl.job r 3 (updCloseHdr step job.rank n) (tids.flatMap fun t => toLe 2 t) {} s) s1)) := by
  subst hi hs1
  have hin : (tids.any fun t => decide (t ≥ 4096)) = false := by
    simp only [List.any_eq_false, decide_eq_true_eq]
    exact fun t ht => not_le.2 (hlisted t ht).1
  have hheld : (tids.any fun t => (s.table? cl.job t).isNone) = false := by
    simp only [List.any_eq_false, Option.isNone_iff_eq_none]
    exact fun t ht hnone => by simpa [hnone] using (hlisted t ht).2
  show execUpclose k w s = _
  refine walk_goes h rfl ?checks ?acts
  case checks =>
    simp only [hok, ← hn, ← hl, ← htids, hin, Bool.not_true, Bool.false_eq_true, if_false]
    rw [if_neg (by omega), if_neg (by omega)]
  case acts =>
    have hcl : (walkIss k w cl s).cl = cl := rfl
    simp only [hcl, hjob, ← hn, ← hl, ← hstep, ← htids, hheld, hclosed, Bool.false_eq_true, if_false]

/-- Settles O33: one lemma per row. -/
theorem walkerSendsComplete : Obligations.WalkerSendsComplete := by
  intro k w cl s i d hi hd
  exact ⟨fun need u h hok hvalid hneed hroom hu hr => exec_lksend hi hd hok hr h hvalid hneed hroom hu,
    fun u h hok hvalid hu hr => exec_upsend hi hd hok hr h hvalid hu,
    fun n step l tids job s1 h hok hn hmin hmax hlocal hl hstep htids hlisted hjob hclosed hs1 =>
      exec_upclose hi h hok hn hmin hmax hlocal hl hstep htids hlisted hjob hclosed hs1,
    fun u hclk hu hr => exec_lksendResume hclk hu hr⟩

end Sys2Proof.Machine
end

section
/-! SUPPORT. The lookup and update messages, one lemma per message (R228, R235, R237, R244, R245, R294, R310). -/

namespace Sys2Proof.Machine

/-! ## Admission of a lookup (R237) -/

/-- A lookup without a reservation, of a version this device holds and of rows it owns, whose cost the cap still takes, is admitted. -/
theorem requestHere_admits {j e cost cap : Nat} {f : FReq} {x : Job} {t : Table} {v : Bytes} {segs : List Seg} {s : State}
    (hlookup : f.upd = false) (hadmitted : flowsAdmitted s j = true) (hx : s.job? j = some x) (ht : s.table? j f.tid = some t)
    (hv : t.version? f.vnum = some v) (hprint : f.fprint = fingerprint t.fixed v) (hsegs : segs = segsOf f (fxDim t.fixed))
    (howned : ∀ g ∈ segs, ∀ i ∈ g.idx, i < fxRows t.fixed ∧ ownerRank t.fixed i = x.rank) (hentry : freeOwner s = some e)
    (hquota : jobEntries s j < x.quota) (hcost : cost = f.nocc * ceilDiv (workBytes (vsWfmt v) (fxDim t.fixed)) 32)
    (hcap : cap = classCap s (bits f.mode 5 4)) (hrsv : f.rsv = 0) (hfits : s.lkp.charged + s.lkp.reserved + cost ≤ cap) :
    requestHere j f s = admitFlow j e f t.fixed segs cost { s with lkp := { s.lkp with charged := s.lkp.charged + cost } } := by
  have howned' : (segs.any fun g => g.idx.any fun i => !(decide (i < fxRows t.fixed) && decide (ownerRank t.fixed i = x.rank))) = false := by
    simp only [List.any_eq_false]
    exact fun g hg => by simpa using howned g hg
  have hbook : (s.lkp.book.find? fun b => decide (f.rsv ≠ 0) && decide (b.token = f.rsv) && decide (b.frame = s.clk.fnum) &&
      decide (b.job = j)) = none := by
    simp [hrsv]
  unfold requestHere
  simp only [hadmitted, hx, ht, hv, ← hsegs, howned', hentry, hlookup, ← hcost, ← hcap, hbook, Bool.not_true, Bool.false_eq_true, if_false]
  rw [if_neg (not_not.2 hprint), if_neg (not_le.2 hquota), if_neg (by omega), if_pos hfits]

/-! ## The messages -/

section
variable {m : Msg} {j r : Nat} {s s1 u : State} (hr : usesReady u)
include hr

theorem exec_lookupReq (h : Takes 0x50 m (some [m.src.toNat, m.fseq.toNat, attemptOf m]) j r s s1)
    (hu : requestHere j (reqOf false m.hdr m.body m.fseq.toNat) s1 = u) : exec (.lookupReq m) s = .next (done s u) :=
  (takes_done_of h rfl hu hr : execLookupReq m s = _)

theorem exec_lookupReply (h : Takes 0x51 m (some [m.src.toNat, m.fseq.toNat, attemptOf m, m.oseq.toNat]) j r s s1)
    (hu : u = replyHere j r (flowIdOf m) (attemptOf m) m.fseq.toNat m.oseq.toNat (leAt m.hdr 4 2) m.body (flowAck m s1)) :
    exec (.lookupReply m) s = .next (done s u) :=
  (takes_done_of h rfl hu.symm hr : execLookupReply m s = _)

theorem exec_flowEnd (h : Takes 0x52 m (some [m.src.toNat, m.fseq.toNat, attemptOf m]) j r s s1)
    (hu : u = flowEndHere j r (flowIdOf m) (attemptOf m) m.fseq.toNat (leAt m.hdr 4 1) (leAt m.hdr 5 1) m.oseq.toNat (leAt m.hdr 6 2)
      (leAt m.hdr 8 1) (leAt m.hdr 9 6) (flowAck m s1)) : exec (.flowEnd m) s = .next (done s u) :=
  (takes_done_of h rfl hu.symm hr : execFlowEnd m s = _)

theorem exec_nojob (h : Takes 0x09 m (some [m.src.toNat, m.fseq.toNat, attemptOf m]) j r s s1)
    (hu : u = flowEndHere j r (flowIdOf m) (attemptOf m) m.fseq.toNat 2 2 0 0 0 0 s1) : exec (.nojob m) s = .next (done s u) :=
  (takes_done_of h rfl hu.symm hr : execNojob m s = _)

theorem exec_updReq (h : Takes 0x53 m none j r s s1) (hu : u = updReqHere j (reqOf true m.hdr m.body m.fseq.toNat) s1) :
    exec (.updReq m) s = .next (done s u) :=
  (takes_done_of (ident := fun _ => none) h rfl hu.symm hr : execUpdReq m s = _)

theorem exec_updClose (h : Takes 0x54 m none j r s s1)
    (hu : u = (List.range (leAt m.hdr 8 2)).foldl (fun s i =>
      match takeIdent j 0x54 [m.src.toNat, leAt m.hdr 2 4, leAt m.body (2 * i) 2 % 4096] s with
      | none => count Reg.ZOR_DUP 32 1 s
      | some s1 => closeHere j (leAt m.body (2 * i) 2 % 4096) (leAt m.hdr 2 4) r s1) s1) : exec (.updClose m) s = .next (done s u) := by
  subst hu
  exact (takes_done_of (ident := fun _ => none) h rfl rfl hr : execUpdClose m s = _)

end

/-- Settles O35: one lemma per message; the lookup that is admitted is `requestHere_admits`. -/
theorem lookupMessagesComplete : Obligations.LookupMessagesComplete := by
  intro m j r s s1 u f hr
  refine ⟨?lookup, fun h hu => exec_lookupReply hr h hu, fun h hu => exec_flowEnd hr h hu, fun h hu => exec_nojob hr h hu,
    fun h hf hu => exec_updReq hr h (hf ▸ hu), fun h hu => exec_updClose hr h hu⟩
  case lookup =>
    rintro x t v segs e cost cap h rfl hadmitted hx ht hv hprint hsegs howned hentry hquota hcost hcap hrsv hfits hu
    exact exec_lookupReq hr h
      ((requestHere_admits rfl hadmitted hx ht hv hprint hsegs howned hentry hquota hcost hcap hrsv hfits).trans hu.symm)

end Sys2Proof.Machine
end

section
/-! SUPPORT. The flow engine's own events, one lemma per event (R231, R233, R239, R244, R246, R250, R308). -/

namespace Sys2Proof.Machine

/-! ## The owner's side -/

/-- A flow that none of its kind comes before is the next to be served (R233). -/
theorem nextServed_of {s : State} {f : OFlow} {upd : Bool} (hupd : f.upd = upd)
    (hfirst : ∀ p ∈ s.lkp.oflows, p.2.upd = upd → p.2.waitUpd = false → p.2.before f = false) : nextServed s f = true := by
  unfold nextServed
  simp only [List.all_eq_true, Bool.not_eq_true', Bool.and_eq_false_iff, decide_eq_false_iff_not, Bool.not_eq_false']
  intro p hp
  by_cases hkind : p.2.upd = f.upd
  · cases hwait : p.2.waitUpd with
    | true => exact .inl (.inr rfl)
    | false => exact .inr (hfirst p hp (hkind.trans hupd) hwait)
  · exact .inl (.inl hkind)

/-- A segment gathered and pooled after those before it: its partial, the numeric status so far and the state. -/
def pooled (f : OFlow) (t : Table) (v : Bytes) (a : List Part1 × Nat × State) (g : Seg) : List Part1 × Nat × State :=
  let o := gatherSeg f.job f.tid t.fixed v g a.2.2
  let p := poolSeg f.pool f.rfmt (vsWfmt v) (fxDim t.fixed) g.bag o.1
  (p.1 :: a.1, a.2.1 ||| p.2, o.2)

section
variable {e : Fin 4096} {f : OFlow} {t : Table} {s : State} (hf : Tbl.look? s.lkp.oflows e = some f)
include hf

theorem exec_flowPooled {v : Bytes} {s1 u : State} {ps : List Part1} {st : Nat} (hclk : s.clocked = true) (hlookup : f.upd = false)
    (hgo : f.waitUpd = false) (hheld : engineHeld s (flowUnits s f) = true) (ht : s.table? f.job f.tid = some t)
    (hfirst : ∀ p ∈ s.lkp.oflows, p.2.upd = false → p.2.waitUpd = false → p.2.before f = false) (hv : t.version? f.vnum = some v)
    (hps : (ps, st, s1) = f.segs.foldl (pooled f t v) ([], 0, engineAskAll (flowUnits s f) (unused s)))
    (hu : u = endOwner e 0 0 (packReplies ps.reverse).length st (count Reg.LKP_SERVED 64 1
      ((List.range (packReplies ps.reverse).length).foldl (fun s k => sendReply f k ((packReplies ps.reverse).getD k []) s) (lkpNstat st s1))))
    (hr : usesReady u) : exec (.flowPooled e) s = .next (done s u) := by
  have ht' : (unused s).table? f.job f.tid = some t := ht
  show execFlowPooled e s = _
  unfold execFlowPooled
  simp only [hf]
  refine whenP_done_of (by simp [hclk, hlookup, hgo, hheld, nextServed_of hlookup hfirst]) ?_ hr
  simp only [ht', hv]
  generalize hfold : List.foldl _ _ f.segs = a
  obtain rfl : (ps, st, s1) = a := hps.trans hfold
  exact hu.symm

theorem exec_gatherRelease {l : Nat} (ht : s.table? f.job f.tid = some t) (hlast : t.last = some l) (hstep : f.step ≤ l + 1)
    (hclk : s.clocked = true) (hwait : f.waitUpd = true) :
    exec (.gatherRelease e) s = .next { s with lkp := { s.lkp with oflows := Tbl.put s.lkp.oflows e { f with waitUpd := false } } } := by
  show execGatherRelease e s = _
  unfold execGatherRelease
  simp only [hf, ht, hlast]
  exact when_next (by simp [hclk, hwait, hstep])

/-- The terms of a segment after those before it, with the numeric status so far. -/
def termed (f : OFlow) (t : Table) (x : Job) (a : List Term × Nat) (g : Seg) : List Term × Nat :=
  let l := segTerms f.pool (fxDim t.fixed) (fun r => decide (r < fxRows t.fixed) && decide (ownerRank t.fixed r = x.rank)) g
  (a.1 ++ l.1, a.2 ||| l.2)

theorem exec_mergeDone {x : Job} {u : State} {ts : List Term} {l : List MergeEnt} {st0 st1 : Nat} (hclk : s.clocked = true)
    (hupd : f.upd = true) (hheld : engineHeld s (flowUnits s f) = true) (hx : s.job? f.job = some x) (ht : s.table? f.job f.tid = some t)
    (hfirst : ∀ p ∈ s.lkp.oflows, p.2.upd = true → p.2.waitUpd = false → p.2.before f = false)
    (hts : (ts, st0) = f.segs.foldl (termed f t x) ([], 0))
    (hl : (l, st1) = mergeAll f.job f.tid f.vnum f.step (fxDim t.fixed) s.lkp.merge ts)
    (hslot : ts = [] ∨ 32 + 40 * fxDim t.fixed ≤ x.mergeSlot) (hquota : (l.filter fun m => decide (m.job = f.job)).length ≤ x.mergeEntries)
    (hcount : ∀ m ∈ l, m.count ≤ 2 ^ 32 - 1)
    (hu : u = endUpdate e 0 0 (st0 ||| st1) (count Reg.LKP_SERVED 64 1 (count Reg.LKP_MERGED 64 ts.length (lkpNstat (st0 ||| st1)
      (storeMerge x f.job s.lkp.merge l (engineAskAll (flowUnits s f) { unused s with lkp := { s.lkp with merge := l } }))))))
    (hr : usesReady u) : exec (.mergeDone e) s = .next (done s u) := by
  have ht' : (unused s).table? f.job f.tid = some t := ht
  have hx' : (unused s).job? f.job = some x := hx
  show execMergeDone e s = _
  unfold execMergeDone
  simp only [hf]
  refine whenP_done_of (by simp [hclk, hupd, hheld, nextServed_of hupd hfirst]) ?_ hr
  simp only [ht', hx']
  generalize hfold : List.foldl _ _ f.segs = a
  obtain rfl : (ts, st0) = a := hts.trans hfold
  generalize hmerge : mergeAll f.job f.tid f.vnum f.step (fxDim t.fixed) _ ts = b
  obtain rfl : (l, st1) = b := hl.trans hmerge
  refine (if_neg ?_).trans hu.symm
  rintro (⟨hsome, hsmall⟩ | hmany | hbig)
  · exact hslot.elim hsome (not_le.2 hsmall)
  · exact absurd hquota (not_le.2 hmany)
  · obtain ⟨m, hm, hover⟩ := List.any_eq_true.1 hbig
    exact absurd (hcount m hm) (not_le.2 (of_decide_eq_true hover))

end

/-! ## The requester's side -/

section
variable {e : Fin 4096} {r : RFlow} {s u : State} (hflow : s.rflow? e = some r) (hr : usesReady u)
include hflow hr

theorem exec_flowRetry {n : Nat} (htarget : r.tframe = some n) (hdue : n ≤ s.clk.fnum) (hclk : s.clocked = true)
    (hsteps : s.clk.stepsDone = true) (hwait : s.clk.step7Wait = false) (hlost : s.lost = false) (hpos : s.pos < s.W)
    (hu : u = sendFlow e (updHandle r.handle (fun h => { h with retries := h.retries + 1 })
      (updRFlow e (fun r => { r with sent := s.clk.fnum, tframe := none }) (unused s)))) :
    exec (.flowRetry e) s = .next (done s u) := by
  have hflow' : (unused s).rflow? e = some r := hflow
  show execFlowRetry e s = _
  unfold execFlowRetry
  simp only [hflow, htarget]
  refine whenP_done_of (by simp [hclk, hsteps, hwait, hlost, hpos, hdue]) ?_ hr
  simp only [hflow']
  exact hu.symm

theorem exec_flowTimeout (htarget : r.tframe = none) (hfin : r.fin = none) (hlive : s.live = true)
    (hdue : r.sent + regField s Reg.ZOR_CFG 7 0 ≤ s.clk.fnum)
    (hu : u = deferFlow e 1 0 (s.clk.fnum + 1) (raiseInt blkZor 5 (count Reg.ZOR_LOSTFLOW 32 1 (unused s)))) :
    exec (.flowTimeout e) s = .next (done s u) := by
  show execFlowTimeout e s = _
  unfold execFlowTimeout
  simp only [hflow]
  exact whenP_done_of (by simp [hlive, htarget, hfin, hdue]) hu.symm hr

end

/-! ## The update of a table and the engines' draws -/

theorem exec_updateBatch {j : Fin 64} {tid : Fin 4096} {die : Fin 2} {t : Table} {m : MergeEnt} {r : List MergeEnt} {v : Bytes} {s u : State}
    (ht : s.table? j tid = some t) (hclk : s.clocked = true) (hupdating : t.updating.isSome = true) (hrows : batchRows s j tid die t = m :: r)
    (hv : t.version? m.vnum = some v)
    (hadmitted : updatesAdmitted s j (batchMsgBytes (r.length + 1) (masterBytes (vsOpt v) (fxDim t.fixed))) = true)
    (hheld : engineHeld s [4 + die.val] = true) (hidle : vecIdle s (updTileOf s j die) = true) (hpiece : pieceFirst s (updTileOf s j die) = false)
    (hdraws : holds (.tableEngine (6 + die.val)) s = true) (hu : u = runBatch j tid die t v (m :: r) (unused s)) (hr : usesReady u) :
    exec (.updateBatch j tid die) s = .next (done s u) := by
  have hrows' : batchRows (unused s) j tid die t = m :: r := hrows
  have hadmitted' : updatesAdmitted (unused s) j (batchMsgBytes (m :: r).length (masterBytes (vsOpt v) (fxDim t.fixed))) = true := hadmitted
  have hheld' : engineHeld (unused s) [4 + die.val] = true := hheld
  have hidle' : vecIdle (unused s) (updTileOf (unused s) j die) = true := hidle
  have hpiece' : pieceFirst (unused s) (updTileOf (unused s) j die) = false := hpiece
  have hdraws' : holds (.tableEngine (6 + die.val)) (unused s) = true := hdraws
  show execUpdateBatch j tid die s = _
  unfold execUpdateBatch
  simp only [ht]
  refine whenP_done_of (by simp [hclk, hupdating]) ?_ hr
  simp only [hrows', hv, hadmitted', hheld', hidle', hpiece', hdraws', Bool.not_true, Bool.or_self, Bool.or_true, Bool.false_eq_true, if_false,
    if_true]
  exact hu.symm

theorem exec_tableEngineDrawReturn {k : Fin 6} {s u : State} (hu : u = runUntil (Tbl.look s.stk.use (8220 + k.val) 0 + 64000) s)
    (h : ∀ x, x = s ∨ x = u → x.clocked = true ∧ holds (.tableEngine k) x = true ∧ engineBusy x k = false)
    (hdue : Tbl.look u.stk.use (8220 + k.val) 0 + 64000 ≤ u.now) :
    exec (.tableEngineDrawReturn k) s = .next (ledgerReturn (.tableEngine k) u) := by
  have hidle : ∀ x, x = s ∨ x = u → (x.clocked && holds (.tableEngine k) x && !engineBusy x k) = true := by
    intro x hx
    obtain ⟨hclk, hheld, hbusy⟩ := h x hx
    simp [hclk, hheld, hbusy]
  exact (drawReturn_next (o := .tableEngine k) (last := fun s => Tbl.look s.stk.use (8220 + k.val) 0)
    (idle := fun s => s.clocked && holds (.tableEngine k) s && !engineBusy s k)
    (hidle s (.inl rfl)) hu (hidle u (.inr rfl)) hdue : execTableEngineDrawReturn k s = _)

/-- Settles O36: one lemma per event. -/
theorem flowEngineEventsComplete : Obligations.FlowEngineEventsComplete := by
  refine ⟨fun e f t v s s1 u ps st hf hclk hlookup hgo hheld ht hfirst hv hps hu hr =>
      exec_flowPooled hf hclk hlookup hgo hheld ht hfirst hv hps hu hr,
    fun e f t l s hf ht hlast hstep hclk hwait => exec_gatherRelease hf ht hlast hstep hclk hwait,
    fun e r n s u hflow htarget hdue hclk hsteps hwait hlost hpos hu hr =>
      exec_flowRetry hflow hr htarget hdue hclk hsteps hwait hlost hpos hu,
    fun e r s u hflow htarget hfin hlive hdue hu hr => exec_flowTimeout hflow hr htarget hfin hlive hdue hu,
    fun e f x t s u ts l st0 st1 hf hclk hupd hheld hx ht hfirst hts hl hslot hquota hcount hu hr =>
      exec_mergeDone hf hclk hupd hheld hx ht hfirst hts hl hslot hquota hcount hu hr,
    fun j tid die t m r v s u ht hclk hupdating hrows hv hadmitted hheld hidle hpiece hdraws hu hr =>
      exec_updateBatch ht hclk hupdating hrows hv hadmitted hheld hidle hpiece hdraws hu hr,
    fun k s u hclk hheld hbusy hu hclk' hheld' hbusy' hdue => exec_tableEngineDrawReturn hu ?draws hdue⟩
  case draws =>
    rintro x (rfl | rfl)
    · exact ⟨hclk, hheld, hbusy⟩
    · exact ⟨hclk', hheld', hbusy'⟩

end Sys2Proof.Machine
end

section
/-! SUPPORT. Undefined walker operations: the issue stops the command with subcode 1, and LKSEND's row, whose work reaches memory, takes over
the channels' sector counts besides (R162, R224, R251). -/

namespace Sys2Proof.Machine

/-- A word whose operation is not listed stops the command at its issue, before any check of the row. -/
theorem walkIssue_undefined {k : Fin 2048} {w : BitVec 32} {cl : Cluster} {s : State} (op : Nat) (check : WIss → Nat)
    (act : WIss → State → WEff) (hmay : mayWalk k s = true) (hcl : s.cluster? (clusterOf k) = some cl) (hpc : (s.walker k).pc < storeWords)
    (hundef : walkDefined (bits w.toNat 5 0) = false) : walkIssue k w op check act s = .next (walkInvalid k 1 s) := by
  unfold walkIssue
  simp only [hundef, hcl, Bool.false_and, Bool.not_false, Bool.false_eq_true, if_false, if_true]
  rw [if_neg (by simp [hmay]), if_neg (not_le.2 hpc)]

/-- At LKSEND's row that stop is work that reaches memory, and is done as such work is. -/
theorem exec_lksend_undefined {k : Fin 2048} {w : BitVec 32} {cl : Cluster} {s : State} (hmay : mayWalk k s = true)
    (hcl : s.cluster? (clusterOf k) = some cl) (hpc : (s.walker k).pc < storeWords) (hundef : walkDefined (bits w.toNat 5 0) = false)
    (hr : usesReady (walkInvalid k 1 (unused s))) : exec (.lksend k w) s = .next (done s (walkInvalid k 1 (unused s))) :=
  (poweredOut_done_of (walkIssue_undefined (cl := cl) _ _ _ hmay hcl hpc hundef) hr : execLksend k w s = _)

/-- The cluster that runs command 1 of queue 0. -/
def oneCluster : Cluster := { job := 0, queue := 0, cid := 1, chunks := 1, prog := [], fetched := true }

/-- A chunk of that command. -/
def oneChunk : Chunk :=
  { queue := 0, cid := 1, charge := 0, draws := 0, begun := 0, start := 0, energy := 0, counted := false, held := 0, used := 0 }

/-- Walker 0 runs in cluster 0 of a powered device whose work has waited (its sectors were counted when it came), and whose channels list
channel 0 a second time, with another sector count. -/
def channelListedTwice : State := { State.reset with
  dawn := { Dawn.init with powered := true },
  units := [(24, { ExecUnit.init with run := some oneChunk })],
  stk := { Stacks.init with chans := [(0, Chan.init), (0, { Chan.init with load := 1 })], counted := true },
  lkp := { Lkp.init with clusters := [(0, oneCluster)], walkers := [(0, { Walker.init with active := true })] } }

/-- Refutes O34: the state is free, so its table of channels may list one twice, and LKSEND's row then writes the second count into the
first entry as it takes over the sectors counted, which `walkInvalid` does not. With channels listed once there is nothing to take over. -/
theorem not_walkerInvalidWordsStopTheCommand : ¬ Obligations.WalkerInvalidWordsStopTheCommand := by
  intro h
  have hmay : mayWalk 0 channelListedTwice = true := by decide +kernel
  have hcl : channelListedTwice.cluster? (clusterOf 0) = some oneCluster := by decide +kernel
  have hpc : (channelListedTwice.walker 0).pc < storeWords := by decide +kernel
  have hundef : walkDefined (bits (0x0E : BitVec 32).toNat 5 0) = false := by decide
  have hr : usesReady (walkInvalid 0 1 (unused channelListedTwice)) := by unfold usesReady; decide +kernel
  have hdone : ((done channelListedTwice (walkInvalid 0 1 (unused channelListedTwice))).chan 0).load = 1 := by decide +kernel
  have hstop : ((walkInvalid 0 1 channelListedTwice).chan 0).load = 0 := by decide +kernel
  have hexec := exec_lksend_undefined (k := 0) (w := 0x0E) hmay hcl hpc hundef hr
  rw [h (.lksend 0 0x0E) 0 0x0E oneCluster channelListedTwice rfl hmay hcl hpc hundef] at hexec
  injection hexec with hsame
  have hload : (0 : Nat) = 1 := hstop.symm.trans ((congrArg (fun s => (s.chan 0).load) hsame).trans hdone)
  exact absurd hload (by decide)

end Sys2Proof.Machine
end

section
/-! SUPPORT. The collective's messages, one lemma per message: ranges and credits, verdicts, segments gathered and segments asked for (R268, R271,
R274, R275, R294, R303). -/

namespace Sys2Proof.Machine

/-! ## The layers where a message's work starts -/

@[simp] theorem grantReq_dtr (r : Req) (s : State) : (grantReq r s).dtr = s.dtr := by
  unfold grantReq; dsimp only; split <;> simp

@[simp] theorem ledgerServe_dtr (n : Nat) (s : State) : (ledgerServe n s).dtr = s.dtr := by
  induction n generalizing s with
  | zero => rfl
  | succ n ih =>
    obtain ⟨l, e, -⟩ | ⟨r, rest, l, e, -⟩ := ledgerServe_succ (n := n) (s := s) rfl <;> rw [e]
    rw [ih, grantReq_dtr]

@[simp] theorem serveAll_dtr (s : State) : (serveAll s).dtr = s.dtr := by
  unfold serveAll
  split
  · exact ledgerServe_dtr ..
  · rfl

@[simp] theorem reserve_dtr (o : Owner) (cls units : Nat) (s : State) : (reserve o cls units s).dtr = s.dtr := by
  unfold reserve
  split
  · rfl
  · exact serveAll_dtr _

@[simp] theorem needDraw_dtr (k : Nat) (s : State) : (needDraw k s).dtr = s.dtr := by
  unfold needDraw
  split
  · exact reserve_dtr ..
  · rfl

theorem takeIdent_dtr {j typ : Nat} {id : List Nat} {s s0 : State} (h : takeIdent j typ id s = some s0) : s0.dtr = s.dtr := by
  unfold takeIdent at h
  dsimp only at h
  split_ifs at h
  cases h
  rfl

/-- A range whose identity is recorded and whose draws are asked for finds the layer as it was. -/
theorem layer?_reductionAsk_takeIdent {j l typ k : Nat} {id : List Nat} {s s0 : State} (h : takeIdent j typ id s = some s0) :
    (reductionAsk k s0).layer? j l = s.layer? j l := by
  unfold State.layer? reductionAsk
  rw [needDraw_dtr, takeIdent_dtr h]

/-- Two updates that agree on the layer listed are one. -/
theorem updLayer_congr {j l : Nat} {L : DLayer} {f g : DLayer → DLayer} {s : State} (hL : s.layer? j l = some L) (h : f L = g L) :
    updLayer j l f s = updLayer j l g s := by
  unfold State.layer? at hL
  simp only [updLayer, Tbl.upd, hL, h]

/-! ## The messages -/

section
variable {m : Msg} {j r l : Nat} {L : DLayer} {s s1 u : State} (hl : l = leAt m.hdr 2 2) (hL : s1.layer? j l = some L) (hr : usesReady u)
include hl hL hr

/-- A range of a form allowed, from the path's predecessor, for the step in progress, new and within the grant; `on` of its elements go on to
the successor. -/
theorem exec_rsData {p shard off n on : Nat} {s0 s2 : State} (h : Takes 0x60 m none j r s s1) (hshard : shard = leAt m.hdr 8 2)
    (hp : p = leAt m.hdr 13 1) (hoff : off = leAt m.hdr 16 4) (hn : n = leAt m.hdr 20 4)
    (hfits : rangeFits L shard p (leAt m.hdr 12 1) off n = true) (hphase : L.phase = 2 ∨ L.phase = 3) (hstep : leAt m.hdr 4 4 = L.step)
    (hprev : idxOfRank L.desc r = some (pathPrev L.desc p L.gidx))
    (hnew : takeIdent j 0x60 [l, L.step, shard, m.src.toNat, p, off] s1 = some s0) (hgrant : L.taken.getD p 0 < L.given.getD p 0)
    (hon : on = if shard = L.gidx then 0 else n)
    (hs2 : s2 = updLayer j l (fun L => { L with
      taken := L.taken.set p (L.taken.getD p 0 + 1), arrived := L.arrived.set p (L.arrived.getD p 0 + n), progress := s1.clk.fnum,
      through := L.through.set p (L.through.getD p 0 + on), stalled := false }) (reductionAsk 0 s0))
    (hu : u = densePump j l (grantBoth j l
      (if p = 0 then takeMain j l L shard off n (decide (leAt m.hdr 14 1 = 1)) m.body s2
       else takeCheck j l L shard (off / 4096) (decide (leAt m.hdr 14 1 = 1)) m.body s2))) :
    exec (.rsData m) s = .next (done s u) := by
  have hturn : (decide (L.phase = 2) || decide (L.phase = 3)) = true := by simpa using hphase
  show execRsData m s = _
  refine takes_done_of (ident := fun _ => none) h rfl ?_ hr
  subst hon hs2 hu
  simp only [← hl, hL, ← hshard, ← hp, ← hoff, ← hn, hstep, hnew, hfits, hturn, hprev, not_le.2 hgrant, decide_true, decide_false,
    Bool.and_self, Bool.not_true, Bool.or_self, Bool.false_eq_true, if_false]

/-- A credit of the path's successor raises the grant of the step it is for. -/
theorem exec_xcredit {p n step : Nat} (h : Takes 0x08 m none j r s s1) (hp : p = leAt m.hdr 8 1) (hn : n = leAt m.hdr 12 4)
    (hstep : step = leAt m.hdr 4 4) (hpath : p ≤ 1) (hnext : idxOfRank L.desc r = some (pathNext L.desc p L.gidx))
    (hu : (if step = L.step then densePump j l (updLayer j l (fun L => { L with grant := L.grant.set p (max n (L.grant.getD p 0)) }) s1)
      else if step = (L.step + 1) % 2 ^ 32 then updLayer j l (fun L => { L with grantNext := L.grantNext.set p (max n (L.grantNext.getD p 0)) }) s1
      else s1) = u) : exec (.xcredit m) s = .next (done s u) := by
  have hsent : ¬ (p > 1 ∨ idxOfRank L.desc r ≠ some (pathNext L.desc p L.gidx)) :=
    not_or.2 ⟨not_lt.2 hpath, not_not.2 hnext⟩
  show execXcredit m s = _
  refine takes_done_of (ident := fun _ => none) h rfl ?_ hr
  simp only [← hl, hL, ← hp, ← hn, ← hstep, if_neg hsent, hu]

/-- A verdict of the round's partner. -/
theorem exec_verdict {rd : Nat} {s2 : State} (h : Takes 0x62 m (some [l, leAt m.hdr 4 4, m.src.toNat, leAt m.hdr 12 1]) j r s s1)
    (hrd : rd = leAt m.hdr 12 1) (hpartner : idxOfRank L.desc r = some (ringBack L.desc L.gidx (2 ^ rd))) (hround : rd < rounds (dlG L.desc))
    (hs2 : s2 = updLayer j l (fun L => { L with early := L.early ++ [(leAt m.hdr 4 4, rd, leAt m.hdr 13 1 % 4)] }) s1)
    (hu : u = if denseOn s1 j then takeVerdicts 18 j l s2 else s2) : exec (.verdict m) s = .next (done s u) := by
  have hsent : ¬ (idxOfRank L.desc r ≠ some (ringBack L.desc L.gidx (2 ^ rd)) ∨ rd ≥ rounds (dlG L.desc)) :=
    not_or.2 ⟨not_not.2 hpartner, not_le.2 hround⟩
  subst hl hs2 hu
  refine (takes_done_of h rfl ?_ hr : execVerdict m s = _)
  simp only [hL, ← hrd, if_neg hsent]

/-- A segment of another shard that comes round the ring in the step in progress, whole and with its digest, as it is written. -/
theorem exec_agData {step shard seg : Nat} {b : Bytes} {bad : List Nat} {s2 s3 : State}
    (h : Takes 0x61 m (some [l, leAt m.hdr 4 4, leAt m.hdr 8 2, leAt m.hdr 12 4, leAt m.hdr 28 1]) j r s s1)
    (hstep : step = leAt m.hdr 4 4) (hshard : shard = leAt m.hdr 8 2) (hseg : seg = leAt m.hdr 12 4) (hring : leAt m.hdr 28 1 ≠ 1)
    (hb : b = slice m.body 0 (leAt m.hdr 24 4)) (hlisted : shard < dlG L.desc) (hother : shard ≠ L.gidx) (hwithin : seg < shardSegs L.desc shard)
    (hlen : b.length = segLen L.desc shard seg) (hphase : 2 ≤ L.phase) (hruns : L.ended = false) (hnow : step = L.step)
    (hprev : idxOfRank L.desc r = some (ringBack L.desc L.gidx 1)) (hdigest : crc64 b = leAt m.hdr 16 8)
    (hwrite : rangeWrite j (segAddr L.desc shard seg) b s1 = .ok bad s2) (hs3 : s3 = segHere j l shard seg step (crc64 b) true s2)
    (hu : u = checkReady j l (densePump j l (reductionAsk 0 (if L.gidx = ringBack L.desc shard 1 then s3
      else updLayer j l (fun L => { L with
        handed := L.handed + 1, ag := L.ag ++ [{ step := step, shard := shard, seg := seg, digest := crc64 b, body := b, hdr := m.hdr }] }) s3)))) :
    exec (.agData m) s = .next (done s u) := by
  have hrunning : (decide (L.phase ≥ 2) && decide (step = L.step) && !L.ended) = true := by simp [hphase, hnow, hruns]
  have hform : (decide (shard < dlG L.desc) && decide (shard ≠ L.gidx) && decide (seg < shardSegs L.desc shard) &&
      decide (b.length = segLen L.desc shard seg)) = true := by simp [hlisted, hother, hwithin, hlen]
  have hsame : ¬ crc64 b ≠ leAt m.hdr 16 8 := not_not.2 hdigest
  subst hl hs3 hu
  refine (takes_done_of h rfl ?_ hr : execAgData m s = _)
  simp only [hL, ← hstep, ← hshard, ← hseg, ← hb, hrunning, hform, hring, hprev, if_neg hsame, hwrite, decide_true, decide_false, Bool.and_self,
    Bool.not_true, Bool.false_or, Bool.false_eq_true, if_false, decide_eq_true_eq]

/-- A segment of the own shard asked for goes back with the step of its bytes. -/
theorem exec_segFetch {seg : Nat} {b : Bytes} {bad : List Nat} {s2 : State}
    (h : Takes 0x63 m (some [l, leAt m.hdr 4 4, leAt m.hdr 8 2, leAt m.hdr 12 4, m.src.toNat]) j r s s1) (hseg : seg = leAt m.hdr 12 4)
    (hown : leAt m.hdr 8 2 = L.gidx) (hwithin : seg < shardSegs L.desc L.gidx)
    (hread : rangeRead j (segAddr L.desc L.gidx seg) (segLen L.desc L.gidx seg) s1 = .ok b bad s2)
    (hu : u = sendRank j r 4 (agHdr l (segStep L L.gidx seg) L.gidx L.gidx seg (crc64 b) b.length 1) b {} (reductionAsk 0 s2)) :
    exec (.segFetch m) s = .next (done s u) := by
  have hheld : ¬ (leAt m.hdr 8 2 ≠ L.gidx ∨ seg ≥ shardSegs L.desc L.gidx) := not_or.2 ⟨not_not.2 hown, not_le.2 hwithin⟩
  subst hl hu
  refine (takes_done_of h rfl ?_ hr : execSegFetch m s = _)
  simp only [hL, ← hseg, if_neg hheld, hread]

end

/-- Settles O38: one lemma per message; a credit for the step in progress and one for the next are the two cases of `exec_xcredit`. -/
theorem denseMessagesComplete : Obligations.DenseMessagesComplete := by
  intro m j r l L s s1 u hl hL hr
  refine ⟨?ranges, fun p n h hp hn hpath hnext => ⟨?now, ?next⟩,
    fun rd s2 h hrd hpartner hround hs2 hu => exec_verdict hl hL hr h hrd hpartner hround hs2 hu, ?segments,
    fun seg b bad s2 h hseg hown hwithin hread hu => exec_segFetch hl hL hr h hseg hown hwithin hread hu⟩
  case ranges =>
    intro p shard off n s0 s2 h hshard hp hoff hn hfits hphase hstep hprev hnew hgrant hs2 hu
    have hfound : (reductionAsk 0 s0).layer? j l = some L := (layer?_reductionAsk_takeIdent hnew).trans hL
    exact exec_rsData hl hL hr h hshard hp hoff hn hfits hphase hstep hprev hnew hgrant rfl (hs2.trans (updLayer_congr hfound rfl)) hu
  case now =>
    intro hstep hu
    exact exec_xcredit hl hL hr h hp hn rfl hpath hnext (by rw [if_pos hstep, hu])
  case next =>
    intro hother hstep hu
    exact exec_xcredit hl hL hr h hp hn rfl hpath hnext (by rw [if_neg hother, if_pos hstep, hu])
  case segments =>
    intro step shard seg b bad s2 s3 h hstep hshard hseg hring hb hlisted hother hwithin hlen hphase hruns hnow hprev hdigest hwrite hs3 hu
    exact exec_agData hl hL hr h hstep hshard hseg hring hb hlisted hother hwithin hlen hphase hruns hnow hprev hdigest hwrite hs3 hu

end Sys2Proof.Machine
end

section
/-! SUPPORT. Links, one lemma per command: training, LINK_HELLO, leaving service, census and draws (R286 to R288, R291, R302, R314, R315,
R319). -/

namespace Sys2Proof.Machine

/-! ## Training and leaving service -/

section
variable {p : Fin 34} {s : State} (hl : s.live = true)
include hl

/-- A device that is live answers. -/
theorem answers_of_live : s.answers = true := by
  simp only [State.live, State.answers, Bool.and_eq_true] at hl ⊢
  obtain ⟨⟨hpowered, -⟩, hrun⟩ := hl
  exact ⟨hpowered, hrun⟩

section
variable {lanes : BitVec 4} {m : Nat} (htrain : (s.port p).state = 1)
  (hm : m = (if (s.port p).step ≤ 2 then (s.port p).lanes &&& lanes.toNat else (s.port p).lanes))
include htrain

theorem exec_trainingStepTimeout : exec (.trainingStepTimeout p) s = .next (trainingFails p s) :=
  (when_next (by simp [hl, htrain]) : execTrainingStepTimeout p s = _)

include hm

theorem exec_trainingStepDone_fails (hno : (usableLanes m).isSome = false) :
    exec (.trainingStepDone p lanes) s = .next (trainingFails p s) := by
  subst hm
  refine (when_next (by simp [hl, htrain]) : execTrainingStepDone p lanes s = _).trans ?_
  exact congrArg _ (if_pos (by simpa using hno))

/-- With usable lanes left the port goes on to the next step; to step 4 with its own LINK_HELLO. -/
theorem exec_trainingStepDone_goesOn (hsome : (usableLanes m).isSome = true) (hstep : (s.port p).step < 4) :
    exec (.trainingStepDone p lanes) s = .next
      (if (s.port p).step = 3 then sendHello p (setPort p { s.port p with lanes := m, step := (s.port p).step + 1 } s)
       else setPort p { s.port p with lanes := m, step := (s.port p).step + 1 } s) := by
  subst hm
  refine (when_next (by simp [hl, htrain]) : execTrainingStepDone p lanes s = _).trans ?_
  exact congrArg _ ((if_neg (by simpa [Option.isSome_iff_ne_none] using hsome)).trans (if_pos hstep))

end

section
variable {b : Bytes} (htype : leAt b 0 2 = 1) (hswitch : leAt b 2 1 = 2)
include htype hswitch

/-- A LINK_HELLO of the planned plane records the buffers, and ends a training. -/
theorem exec_linkHello_planned (hplane : leAt b 3 1 = (s.portPlan p).plane)
    (hwhen : (s.port p).up = true ∨ (s.port p).state = 1 ∧ (s.port p).step = 4) :
    exec (.linkHello p b) s = .next
      (if (s.port p).state = 1 then portReady p (setPort p { s.port p with bufs := (List.range 5).map fun i => leAt b (6 + 2 * i) 2 } s)
       else setPort p { s.port p with bufs := (List.range 5).map fun i => leAt b (6 + 2 * i) 2 } s) := by
  have hcome : (s.answers && decide (leAt b 0 2 = 1) && decide (leAt b 2 1 = 2) &&
      ((s.port p).up || decide ((s.port p).state = 4) || (decide ((s.port p).state = 1) && decide ((s.port p).step = 4)))) = true := by
    rcases hwhen with hup | ⟨htrain, hstep⟩ <;> simp [answers_of_live hl, *]
  show execLinkHello p b s = _
  unfold execLinkHello
  dsimp only
  rw [when_next hcome, if_neg (not_not.2 hplane)]

/-- A LINK_HELLO of another plane at the end of a training makes the port MISWIRED. -/
theorem exec_linkHello_miswired (hplane : leAt b 3 1 ≠ (s.portPlan p).plane) (htrain : (s.port p).state = 1) (hstep : (s.port p).step = 4)
    (hdown : (s.port p).up = false) :
    exec (.linkHello p b) s = .next (raiseInt blkZor 6 (fault { code := 0x0022, inst := p, arg0 := leAt b 3 1, arg1 := (s.portPlan p).plane }
      (setPort p { s.port p with state := 6, step := 0, lanes := 0 } s))) := by
  show execLinkHello p b s = _
  unfold execLinkHello
  dsimp only
  rw [when_next (by simp [answers_of_live hl, htype, hswitch, htrain, hstep]), if_pos hplane, if_neg (by rw [hdown]; decide)]

end

theorem exec_linkLeaveService {c : Nat} (hup : (s.port p).up = true) (h1 : 1 ≤ c) (h3 : c ≤ 3) :
    exec (.linkLeaveService p c) s = .next (leaveService p 1 c s) :=
  (when_next (by simp [hl, hup, h1, h3]) : execLinkLeaveService p c s = _)

theorem exec_laneLockLoss {lane : Fin 4} (hup : (s.port p).up = true) (hlane : bitOf (s.port p).lanes lane = true) :
    exec (.laneLockLoss p lane) s =
      .next (leaveService p 1 3 (updPort p (fun x => { x with cls := setBits x.cls (2 * lane + 1) (2 * lane) 3 }) s)) := by
  show execLaneLockLoss p lane s = _
  unfold execLaneLockLoss
  exact when_next (by rw [hl, hup, hlane]; rfl)

end

/-! ## Census and draws of a link -/

theorem exec_linkCensusEval {p : Fin 34} {s u : State} (hu : u = runUntil (s.atPos s.W) s)
    (hdue : ∀ x, x = s ∨ x = u → x.framed = true ∧ censusDue x p = true ∧ sliceFree x = true) (hslice : u.W ≤ u.pos) :
    exec (.linkCensusEval p ()) s = .next (censusEval p u) := by
  have hready : ∀ x, x = s ∨ x = u → (x.framed && censusDue x p && sliceFree x) = true := by
    intro x hx
    obtain ⟨hframed, hcensus, hfree⟩ := hdue x hx
    rw [hframed, hcensus, hfree]; rfl
  subst hu
  refine (instant_next (hready _ (.inl rfl)) (hready _ (.inr rfl)) : execLinkCensusEval p () s = _).trans ?_
  rw [if_neg (not_lt.2 hslice)]

/-- Lanes whose rates are all of class 0 are recorded, with nothing reported and the link in service. -/
theorem censusEval_good {p : Nat} {u : State}
    (hgood : ∀ i < 4, bitOf (u.port p).lanes i = true → berClass (berCode (laneErrs u (u.port p) i) (laneBits u)) = 0) :
    censusEval p u = setPort p { u.port p with
      ber := le ((List.range 4).flatMap fun i => toLe 1 (if bitOf (u.port p).lanes i
        then berCode (laneErrs u (u.port p) i) (laneBits u) else leAt (toLe 4 (u.port p).ber) i 1)),
      cls := sumNat ((List.range 4).map fun i => (if bitOf (u.port p).lanes i then 0 else bits (u.port p).cls (2 * i + 1) (2 * i)) * 4 ^ i),
      dawnCensus := false, evalAt := some u.clk.fnum,
      errs := (u.port p).errs.filter fun e => decide (u.clk.fnum < e.1 + 1024) } u := by
  unfold censusEval
  extract_lets x old code lane s1 s2
  have hlane : ∀ i ∈ List.range 4, lane i = if bitOf x.lanes i = true then 0 else old i := by
    intro i hi
    by_cases hin : bitOf x.lanes i = true
    · simp only [lane, code, if_pos hin]
      exact hgood i (List.mem_range.1 hi) hin
    · simp only [lane, if_neg hin]
  have hnone : ∀ c ≠ 0, ∀ i ∈ List.range 4, bitOf x.lanes i = true → lane i ≠ c := by
    intro c hc i hi hin
    rw [hlane i hi, if_pos hin]
    exact hc.symm
  have hcls : (List.range 4).map (fun i => lane i * 4 ^ i) =
      (List.range 4).map fun i => (if bitOf x.lanes i = true then 0 else old i) * 4 ^ i :=
    List.map_congr_left fun i hi => by rw [hlane i hi]
  have hquiet : s2 = s1 := if_neg (by simpa using fun i hi hin h1 => absurd h1 (hnone 1 (by decide) i (List.mem_range.2 hi) hin))
  rw [if_neg (by simpa using fun i hi hin => hnone 2 (by decide) i (List.mem_range.2 hi) hin), hquiet]
  simp only [s1, hcls]
  rfl

theorem exec_linkTxDrawReturn {k : Fin 32} {s u : State} (hl : s.live = true) (hh : holds (.link k) s = true) (hq : linkQuiet s k = true)
    (hu : u = runUntil (linkSentAt s k + 64000) s) (hl' : u.live = true) (hh' : holds (.link k) u = true) (hq' : linkQuiet u k = true)
    (hdue : linkSentAt u k + 64000 ≤ u.now) : exec (.linkTxDrawReturn k) s = .next (ledgerReturn (.link k) u) := by
  show execLinkTxDrawReturn k s = _
  unfold execLinkTxDrawReturn
  exact drawReturn_next (last := fun s => linkSentAt s k) (by rw [hl, hh, hq]; rfl) hu (by rw [hl', hh', hq']; rfl) hdue

/-- Settles O39: one lemma per command; a training step that goes on is by its number, a LINK_HELLO by the port's state. -/
theorem linkTrainingCompletes : Obligations.LinkTrainingCompletes := by
  intro p s hl
  refine ⟨fun lanes m htrain hm => ⟨fun hsome hstep => ?goesOn, fun hsome hstep => ?begins,
      fun hno => exec_trainingStepDone_fails hl htrain hm hno⟩,
    fun htrain => exec_trainingStepTimeout hl htrain,
    fun b htype hswitch hplane => ⟨fun htrain hstep => ?ends, fun hup hserves => ?records⟩,
    fun b htype hswitch hplane htrain hstep hdown => exec_linkHello_miswired hl htype hswitch hplane htrain hstep hdown,
    fun c h1 h3 hup => exec_linkLeaveService hl hup h1 h3, fun lane hup hlane => exec_laneLockLoss hl hup hlane,
    fun u hu hdue hslice => ⟨exec_linkCensusEval hu hdue hslice, fun hgood => ?good⟩,
    fun k u hh hq hu hl' hh' hq' hdue => exec_linkTxDrawReturn hl hh hq hu hl' hh' hq' hdue⟩
  case goesOn => rw [exec_trainingStepDone_goesOn hl htrain hm hsome (by omega), if_neg (by omega)]
  case begins => rw [exec_trainingStepDone_goesOn hl htrain hm hsome (by omega), if_pos hstep, hstep]
  case ends => rw [exec_linkHello_planned hl htype hswitch hplane (.inr ⟨htrain, hstep⟩), if_pos htrain]
  case records => rw [exec_linkHello_planned hl htype hswitch hplane (.inl hup), if_neg hserves]
  case good => rw [exec_linkCensusEval hu hdue hslice, censusEval_good hgood]

end Sys2Proof.Machine
end

section
/-! SUPPORT. Flits, reassembly, reach and release, one lemma per command (R289, R290, R293, R297, R302, R307, R456). -/

namespace Sys2Proof.Machine

/-! ## Flits and reassembly -/

section
variable {p : Fin 34} {f : FlitIn} {b : Bytes} {s : State} (hans : s.answers = true) (hup : (s.port p).up = true)
  (hruns : engineHalted s p = false) (hb : b = fecApply (fecFixes f.bytes) f.bytes)
include hans hup hruns hb

/-- A flit whose CRC is wrong after the FEC is an error of class 0 and asks for a replay; what the FEC put right in it does not count. -/
theorem exec_flit_badCrc (hcrc : crcOf flitCrc (slice b 0 244) ≠ leAt b 244 4) :
    exec (.flit p f) s = .next (answerFlits 6 p (askReplay p true (updPort p (fun x => { x with crc := satTo 32 (x.crc + 1) })
      (corrected (noteFixes p [] s))))) := by
  show execFlit p f s = _
  unfold execFlit
  dsimp only
  rw [when_next (by rw [hans, hup, hruns]; rfl), ← hb, if_pos hcrc]

/-- A good message flit in sequence is acknowledged, its own acknowledgement, credits and replay request are taken, and it goes to
reassembly. -/
theorem exec_flit_inSequence {h : Nat} {s0 s2 s3 : State} {y : Port} (hs0 : s0 = noteFixes p (fecFixes f.bytes) s)
    (hcrc : crcOf flitCrc (slice b 0 244) = leAt b 244 4) (hh : h = leAt b 0 8) (hkind : bits h 1 0 = 1)
    (hs2 : s2 = updPort p (fun x => { x with credits := x.credits.modify (bits h 35 33) (· + bits h 47 36) }) (takeAck p (bits h 31 20) s0))
    (hs3 : s3 = (if bitOf h 32 then takeNak p s2 else s2)) (hy : y = s3.port p) (hyup : y.up = true) (hseq : bits h 19 8 = y.lseqRx) :
    exec (.flit p f) s = .next (answerFlits 6 p (pump (reassemble p (bits h 4 2) (bitOf h 5) (bitOf h 6) (slice b 8 236) (setPort p { y with
      lseqRx := (y.lseqRx + 1) % 4096, nak := false, rx := satTo 64 (y.rx + 1), unacked := y.unacked + 1,
      owed := y.owed.modify (bits h 4 2) (· + 1) } s3)))) := by
  show execFlit p f s = _
  unfold execFlit
  dsimp only
  rw [when_next (by rw [hans, hup, hruns]; rfl), ← hb, if_neg (not_not.2 hcrc), ← hh, ← hs0, ← hs2, ← hs3, ← hy,
    if_neg (by simp [hyup, hkind]), if_neg (not_not.2 hseq), if_pos hkind]

end

theorem exec_messageReassemblyTimeout {p : Fin 34} {vc : Fin 5} {s : State} (hl : s.live = true)
    (hpart : (s.port p).reasm.any (fun r => decide (r.vc = vc.val)) = true) :
    exec (.messageReassemblyTimeout p vc) s =
      .next (count Reg.ZOR_BADMSG 32 1 (updPort p (fun x => { x with reasm := x.reasm.filter fun r => decide (r.vc ≠ vc.val) }) s)) :=
  (when_next (by rw [hl, hpart]; rfl) : execMessageReassemblyTimeout p vc s = _)

/-! ## Reach and release -/

section
variable {p : Fin 34} {b : Bytes} {m : TxMsg} {s s1 : State} (hl : s.live = true) (hup : (s.port p).up = true) (htype : leAt b 0 2 = 4)
  (hs1 : s1 = count Reg.ZOR_UNREACH 32 1 s) (hheld : heldByEnvelope s (slice b 32 32) = some m)
include hl hup htype hs1 hheld

/-- UNREACH about a plane marks it for the destination and sends the message again. -/
theorem exec_unreach_plane {l : Nat} (hwhy : leAt b 4 1 = 1) (hlink : (s.port p).link = some l) :
    exec (.unreach p b) s = .next (pump (resendMsg m.id
      { s1 with zor := { s1.zor with reach := Tbl.put s1.zor.reach (32 * leAt b 2 2 + l) s.clk.fnum } })) := by
  subst hs1
  refine (when_next (by simp [hl, hup, htype]) : execUnreach p b s = _).trans ?_
  simp only [hheld, hlink, if_pos hwhy]

/-- UNREACH about a destination drops the message. -/
theorem exec_unreach_destination (hwhy : leAt b 4 1 ≠ 1) :
    exec (.unreach p b) s = .next (lostMsg m { raiseInt blkZor 4 s1 with
      zor := { (raiseInt blkZor 4 s1).zor with store := (raiseInt blkZor 4 s1).zor.store.filter fun y => decide (y.id ≠ m.id) } }) := by
  subst hs1
  refine (when_next (by simp [hl, hup, htype]) : execUnreach p b s = _).trans ?_
  simp only [hheld, if_neg hwhy]

end

theorem exec_reachMarkExpiry {d : BitVec 16} {plane : Fin 32} {f : Nat} {s : State} (hl : s.live = true)
    (hmark : Tbl.look? s.zor.reach (32 * d.toNat + plane.val) = some f) (hold : f + 1024 ≤ s.clk.fnum) :
    exec (.reachMarkExpiry d plane) s =
      .next (respray { s with zor := { s.zor with reach := Tbl.del s.zor.reach (32 * d.toNat + plane.val) } }) := by
  show execReachMarkExpiry d plane s = _
  unfold execReachMarkExpiry
  exact when_next (by simp [hl, hmark, hold])

theorem exec_transmitStoreRelease {m : TxMsg} {s : State} (hl : s.live = true) (hstore : m ∈ s.zor.store) (hacked : m.flits ≤ m.acked) :
    exec (.transmitStoreRelease m.id) s = .next { s with zor := { s.zor with
      store := s.zor.store.filter fun x => decide (x.id ≠ m.id),
      released := s.zor.released ++
        ((s.zor.store.filter fun x => decide (x.id = m.id) && protoAnswered x).map fun x => { x with body := [], img := [] }) } } := by
  have hany : (s.zor.store.any fun x => decide (x.id = m.id) && decide (x.acked ≥ x.flits)) = true :=
    List.any_eq_true.2 ⟨m, hstore, by simp [hacked]⟩
  exact (when_next (by rw [hl, hany]; rfl) : execTransmitStoreRelease m.id s = _)

/-- Settles O40: one lemma per command; a flit by its CRC, UNREACH by what it is about. -/
theorem flitsAndStoreComplete : Obligations.FlitsAndStoreComplete :=
  ⟨fun _ _ _ _ _ hans hup hruns hb => ⟨fun hcrc => exec_flit_badCrc hans hup hruns hb hcrc,
      fun _ _ _ _ hs0 hcrc hh hkind hs2 hs3 hy hyup hseq => exec_flit_inSequence hans hup hruns hb hs0 hcrc hh hkind hs2 hs3 hy hyup hseq⟩,
    fun _ _ _ hl hpart => exec_messageReassemblyTimeout hl hpart,
    fun _ _ _ _ _ _ hl hup htype hs1 hheld => ⟨fun hwhy hlink => exec_unreach_plane hl hup htype hs1 hheld hwhy hlink,
      fun hwhy => exec_unreach_destination hl hup htype hs1 hheld hwhy⟩,
    fun _ _ _ _ hl hmark hold => exec_reachMarkExpiry hl hmark hold,
    fun _ _ hl hstore hacked => exec_transmitStoreRelease hl hstore hacked⟩

end Sys2Proof.Machine
end

section
/-! SUPPORT. Bulk requests and their answers, one lemma per message (R297, R311). -/

namespace Sys2Proof.Machine

section
variable {m : Msg} {j r : Nat} {s s1 s2 u : State} (hr : usesReady u)
include hr

theorem exec_bulkWr (h : Takes 0x30 m (bulkIdent m) j r s s1)
    (hwrite : rangeWrite j (bulkAddr m) (slice m.body 0 (bulkLength m)) s1 = .ok [] s2)
    (hu : u = sendTo j m.src.toNat 2
      (header (toLe 2 0x33 ++ zeros 2 ++ toLe 4 (bulkTag m) ++ toLe 4 (bulkOffset m) ++ toLe 1 0)) [] {} s2) :
    exec (.bulkWr m) s = .next (done s u) := by
  refine (takes_done_of h rfl ?_ hr : execBulkWr m s = _)
  simp only [hwrite, hu]

theorem exec_bulkRdreq {d : Bytes} (h : Takes 0x31 m (bulkIdent m) j r s s1) (hread : rangeRead j (bulkAddr m) (bulkLength m) s1 = .ok d [] s2)
    (hu : u = sendTo j m.src.toNat 2
      (header (toLe 2 0x32 ++ zeros 2 ++ toLe 4 (bulkTag m) ++ toLe 4 (bulkOffset m) ++ toLe 1 0)) d {} s2) :
    exec (.bulkRdreq m) s = .next (done s u) := by
  refine (takes_done_of h rfl ?_ hr : execBulkRdreq m s = _)
  simp only [hread, hu]

/-- Data for a tile DMA still on its tile or saved lands in the tile; the part is answered and the request's mark cleared. -/
theorem exec_bulkRddata {b : Bulk} {d : Dma} (h : Takes 0x32 m (some [m.src.toNat, leAt m.hdr 4 4, leAt m.hdr 8 4]) j r s s1)
    (hb : bulkOf s1 (bulkTag m) (bulkOffset m) = some b) (htile : b.restore = false)
    (hs2 : s2 = partDone (bulkTag m) (bulkOffset m) (bulkAcked 0x31 m s1)) (hd : dmaOf s2 b.tile (bulkTag m) = some d)
    (hmapped : leAt m.hdr 12 1 ≠ 1)
    (hu : u = landPart b.tile (d.loc + bulkOffset m) (slice m.body 0 (min 65536 (d.len - bulkOffset m))) (decide (leAt m.hdr 12 1 = 2)) s2) :
    exec (.bulkRddata m) s = .next (done s u) := by
  subst hs2
  refine (takes_done_of h rfl ?_ hr : execBulkRddata m s = _)
  simp only [hb, htile, hd, if_neg hmapped, hu, Bool.false_eq_true, if_false]

/-- The acknowledgement of a mapped write ends its part, whether or not the DMA still waits for it. -/
theorem exec_bulkAck {b : Bulk} (h : Takes 0x33 m (some [m.src.toNat, leAt m.hdr 4 4, leAt m.hdr 8 4]) j r s s1)
    (hb : bulkOf s1 (bulkTag m) (bulkOffset m) = some b) (hmapped : leAt m.hdr 12 1 ≠ 1)
    (hu : u = partDone (bulkTag m) (bulkOffset m) (bulkAcked 0x30 m s1)) : exec (.bulkAck m) s = .next (done s u) := by
  subst hu
  refine (takes_done_of h rfl ?_ hr : execBulkAck m s = _)
  simp only [hb, if_neg hmapped]
  split <;> rfl

end

/-- Settles O41: one lemma per message. -/
theorem bulkTransfersComplete : Obligations.BulkTransfersComplete :=
  fun _ _ _ _ _ _ _ hr => ⟨fun h hwrite hu => exec_bulkWr hr h hwrite hu, fun _ h hread hu => exec_bulkRdreq hr h hread hu,
    fun _ _ h hb htile hs2 hd hmapped hu => exec_bulkRddata hr h hb htile hs2 hd hmapped hu,
    fun _ h hb hmapped hu => exec_bulkAck hr h hb hmapped hu⟩

end Sys2Proof.Machine
end

section
/-! SUPPORT. Messages dropped where they arrive: a repeat, a TYPE no rule lists, a session that lets no traffic in (R292, R294, R304, R305,
R374, R405). -/

namespace Sys2Proof.Machine

/-! ## Work that stands on no draw -/

@[simp] theorem unused_power (s : State) : (unused s).power = s.power := rfl
@[simp] theorem unused_jobs (s : State) : (unused s).jobs = s.jobs := rfl
@[simp] theorem session_unused (j : Nat) (s : State) : (unused s).session j = s.session j := rfl
@[simp] theorem msgFrame_unused (m : Msg) (s : State) : msgFrame (unused s) m = msgFrame s m := rfl
@[simp] theorem rankOf_unused (j src : Nat) (s : State) : rankOf (unused s) j src = rankOf s j src := rfl

/-- Whether an identity has been acted on does not depend on the uses noted. -/
theorem takeIdent_unused_none {j typ : Nat} {id : List Nat} {s : State} (h : takeIdent j typ id s = none) : takeIdent j typ id (unused s) = none := by
  unfold takeIdent at h ⊢
  dsimp only at h
  split_ifs at h with hseen
  exact if_pos hseen

theorem count_unused (off w n : Nat) (s : State) : count off w n (unused s) = unused (count off w n s) := by
  unfold count
  split <;> rfl

theorem badMsg_unused (s : State) : badMsg (unused s) = unused (badMsg s) := count_unused ..

theorem sendVector_unused (v : Nat) (s : State) : sendVector v (unused s) = unused (sendVector v s) := by
  unfold sendVector
  rw [apply_ite unused]
  rfl

theorem raiseInt_unused (b : Blk) (n : Nat) (s : State) : raiseInt b n (unused s) = unused (raiseInt b n s) := by
  unfold raiseInt
  dsimp only
  rw [apply_ite unused, ← sendVector_unused]
  rfl

theorem hostWrite_unused (a : Nat) (bs : Bytes) (s : State) : hostWrite a bs (unused s) = unused (hostWrite a bs s) := rfl

theorem countFault_unused (code cls : Nat) (s : State) : countFault code cls (unused s) = unused (countFault code cls s) := by
  unfold countFault
  dsimp only
  rw [apply_ite unused, ← count_unused, ← count_unused]
  rfl

theorem recordInts_unused (cls : Nat) (s : State) : recordInts cls (unused s) = unused (recordInts cls s) := by
  unfold recordInts
  simp only [raiseInt_unused, apply_ite unused]

theorem writeRecord_unused (f : FaultRec) (s : State) : writeRecord f (unused s) = unused (writeRecord f s) := by
  unfold writeRecord
  extract_lets f1 fl s1 s2 fl2 s3 f1' fl' s1' s2' fl2' s3'
  have hdawn : (unused s).dawn = s.dawn := rfl
  have htakes : ringTakes (unused s) = ringTakes s := rfl
  have hflt : (unused s).flt = s.flt := rfl
  have hregs : ∀ off, regRaw (unused s) off = regRaw s off := fun _ => rfl
  have hf : f1 = f1' := rfl
  have hseq : s1 = unused s1' := rfl
  have hwrite : s2 = unused s2' := by
    dsimp only [s2, s2']
    rw [hf, hseq, hregs, hflt, hostWrite_unused]
  have hring : s3 = unused s3' := by
    dsimp only [s3, s3', fl2, fl2']
    rw [hwrite]
    rfl
  clear_value s1 s1' s3 s3'
  subst hseq hring
  cases f.job <;> simp only [hdawn, htakes, hregs, sendVector_unused, count_unused, raiseInt_unused, apply_ite unused]

theorem fault_unused (r : Report) (s : State) : fault r (unused s) = unused (fault r s) := by
  have hrec : r.record (unused s) = r.record s := rfl
  have hflt : (unused s).flt = s.flt := rfl
  unfold fault
  simp only [hrec, hflt, countFault_unused, recordInts_unused, writeRecord_unused, count_unused]
  split <;> rfl

theorem authFail_unused (m : Msg) (s : State) : authFail m (unused s) = unused (authFail m s) := by
  unfold authFail
  simp only [count_unused, raiseInt_unused, apply_ite unused, ← fault_unused]
  rfl

theorem badMsg_stk (s : State) : (badMsg s).stk = s.stk := count_stk ..

theorem authFail_stk (m : Msg) (s : State) : (authFail m s).stk = s.stk := by
  unfold authFail
  dsimp only
  split <;> simp

/-- Work that comes to `t` and notes no use is done as it comes, here for a command that has not waited. -/
theorem whenP_settled {i : Instr} {b : Bool} {f : State → State} {s t : State} (h : b = true) (hf : f (unused s) = unused t)
    (huse : t.stk.use = s.stk.use) (hfirst : s.stk.counted = false) : whenP i b f s = .next t := by
  have hready : usesReady (unused t) := rfl
  rw [whenP_done h (hf ▸ hready), hf]
  unfold done
  rw [if_neg (by rw [hfirst]; decide)]
  have hnoted : noted s (unused t) = { t with stk := { t.stk with use := s.stk.use } } := rfl
  rw [hnoted, ← huse]

/-! ## Messages that are dropped as they come -/

/-- A message for this device comes in on a link in service, for the first time. -/
structure Arrives (m : Msg) (s : State) : Prop where
  linked : s.linked = true
  up     : (s.port m.port).up = true
  dst    : m.dst.toNat = s.addr
  first  : s.stk.counted = false

/-- The job a message names. -/
def msgJob (s : State) (m : Msg) : Option Nat := (s.jobs.find? fun p => decide (p.2.jobid = m.jobid.toNat)).map (·.1)

/-- A row takes in a message of its TYPE and one of a TYPE that is not listed. -/
theorem Arrives.accepted {m : Msg} {typ : Nat} {s : State} (h : Arrives m s) (hkind : msgTyp m = typ ∨ listedType (msgTyp m) = false) :
    (s.linked && (s.port m.port).up && decide (m.dst.toNat = s.addr) && (decide (msgTyp m = typ) || !listedType (msgTyp m))) = true := by
  rcases hkind with hkind | hkind <;> simp [h.linked, h.up, h.dst, hkind]

/-- The TYPE of NOJOB, the job message sent in the clear, is listed. -/
theorem ne_nojob_of_unlisted {t : Nat} (h : listedType t = false) : t ≠ 9 := by
  rintro rfl
  exact absurd h (by decide)

section
variable {i : Instr} {typ : Nat} {m : Msg} {s : State} (harr : Arrives m s)
include harr

section
variable (hunlisted : listedType (msgTyp m) = false)
include hunlisted

theorem receive_unlisted_clear (hclear : m.enc = false) (hnamed : m.jobid.toNat ≠ 0) (ident : Msg → Option (List Nat))
    (f : Nat → Nat → Msg → State → State) : receive i typ m ident f s = .next (authFail m s) := by
  refine whenP_settled (harr.accepted (.inr hunlisted)) ?_ (by rw [authFail_stk]) harr.first
  rw [if_pos (by simp [hclear, hnamed, ne_nojob_of_unlisted hunlisted]), authFail_unused]

theorem receiveDevice_unlisted_clear (hclear : m.enc = false) (hnamed : m.jobid.toNat ≠ 0) (ident : List Nat) (f : Msg → State → State) :
    receiveDevice i typ m ident f s = .next (authFail m s) := by
  refine whenP_settled (harr.accepted (.inr hunlisted)) ?_ (by rw [authFail_stk]) harr.first
  rw [if_pos (by simp [hclear, hnamed]), authFail_unused]

/-- Of a TYPE that is not listed, whether its job is known or not: what stands before the drop passes. -/
theorem receive_unlisted_bad (hsealed : m.enc = true ∨ m.jobid.toNat = 0)
    (htag : ∀ j, msgJob s m = some j → m.enc = false ∨ (s.session j).linkKey = [] ∨ ((msgFrame s m).isSome = true ∧ m.tagOk = true))
    (ident : Msg → Option (List Nat)) (f : Nat → Nat → Msg → State → State) : receive i typ m ident f s = .next (badMsg s) := by
  refine whenP_settled (harr.accepted (.inr hunlisted)) ?_ (by rw [badMsg_stk]) harr.first
  rw [if_neg (by rcases hsealed with h | h <;> simp [h]), unused_power]
  by_cases hawake : s.power.night = .none
  · rw [if_neg (not_not.2 hawake)]
    cases hjob : msgJob s m with
    | none =>
      unfold msgJob at hjob
      simp only [unused_jobs, hjob, hunlisted, Bool.false_and, Bool.false_eq_true, if_false, badMsg_unused]
    | some j =>
      have hpass := htag j hjob
      unfold msgJob at hjob
      simp only [unused_jobs, hjob, hunlisted]
      rcases hpass with hclear | hkey | ⟨hframe, hgood⟩
      · simp [hclear, badMsg_unused]
      · simp [hkey, badMsg_unused]
      · simp [Option.isSome_iff_ne_none.1 hframe, hgood, badMsg_unused]
  · rw [if_pos hawake, badMsg_unused]

theorem receiveDevice_unlisted_bad (hsealed : m.enc = true ∨ m.jobid.toNat = 0) (ident : List Nat) (f : Msg → State → State) :
    receiveDevice i typ m ident f s = .next (badMsg s) := by
  refine whenP_settled (harr.accepted (.inr hunlisted)) ?_ (by rw [badMsg_stk]) harr.first
  rw [if_neg (by rcases hsealed with h | h <;> simp [h]), if_pos (by rw [hunlisted]; rfl), badMsg_unused]

end

section
variable {j : Nat} (hkind : msgTyp m = typ) (hawake : s.power.night = .none) (hjob : msgJob s m = some j)
  (henc : m.enc = true)
include hkind hawake hjob henc

theorem receive_unjoined (htag : (s.session j).linkKey = [] ∨ ((msgFrame s m).isSome = true ∧ m.tagOk = true))
    (hjoined : (s.session j).state ≠ .joined) (hkeyless : (s.session j).state ≠ .keyless)
    (ident : Msg → Option (List Nat)) (f : Nat → Nat → Msg → State → State) : receive i typ m ident f s = .next (badMsg s) := by
  refine whenP_settled (harr.accepted (.inl hkind)) ?_ (by rw [badMsg_stk]) harr.first
  unfold msgJob at hjob
  simp only [unused_power, unused_jobs, hawake, hjob]
  rcases htag with hkey | ⟨hframe, hgood⟩
  · simp [henc, hkey, hjoined, hkeyless, badMsg_unused]
  · simp [henc, Option.isSome_iff_ne_none.1 hframe, hgood, hjoined, hkeyless, badMsg_unused]

theorem receive_repeat (hlisted : listedType typ = true) {r : Nat} {ident : Msg → Option (List Nat)} {id : List Nat} (hid : ident m = some id)
    (hjoined : (s.session j).state = .joined) (htag : m.tagOk = true) (hkey : (s.session j).linkKey ≠ [])
    (hframe : (msgFrame s m).isSome = true) (hrank : rankOf s j m.src.toNat = some r) (hseen : takeIdent j typ id s = none)
    (f : Nat → Nat → Msg → State → State) : receive i typ m ident f s = .next (count Reg.ZOR_DUP 32 1 s) := by
  refine whenP_settled (harr.accepted (.inl hkind)) ?_ (by rw [count_stk]) harr.first
  unfold msgJob at hjob
  have hseen' : takeIdent j typ id (unused s) = none := takeIdent_unused_none hseen
  simp only [unused_power, unused_jobs, hawake, hjob]
  simp [hkind, hlisted, henc, hkey, Option.isSome_iff_ne_none.1 hframe, htag, hjoined, hrank, hid, hseen', count_unused]

end

end

/-! ## The rows -/

/-- Every message row receives its message as job traffic, but for the two of joining, JOIN_REQ and JOIN_ACK, which receive a device's. -/
theorem exec_msgRow {i : Instr} {m : Msg} (h : i.msgRow = some m) (s : State) :
    (∃ typ ident f, exec i s = receive i typ m ident f s) ∨ ∃ typ ident f, exec i s = receiveDevice i typ m ident f s := by
  unfold Instr.msgRow at h
  split at h
  case h_25 | h_26 => cases h; unfold exec; exact .inr ⟨_, _, _, rfl⟩
  case h_27 => cases h
  all_goals cases h; unfold exec; exact .inl ⟨_, _, _, rfl⟩

/-- Settles O42: each row listed is received under its TYPE and its identity, and a repeat is counted there (`receive_repeat`). -/
theorem repeatedMessageIsOnlyCounted : Obligations.RepeatedMessageIsOnlyCounted := by
  intro i m j r id s _ hlist hlinked hup hdst hawake hjob hjoined henc htag hkey hframe hrank hseen hfirst
  have hrow : ∃ typ ident f, exec i s = receive i typ m ident f s ∧ msgTyp m = typ ∧ listedType typ = true ∧ ident m = some id := by
    simp only [List.mem_cons, List.not_mem_nil, or_false, Prod.mk.injEq] at hlist
    rcases hlist with h | h | h | h | h | h | h | h | h | h | h | h | h | h <;> obtain ⟨rfl, htyp, rfl⟩ := h <;>
      unfold exec <;> exact ⟨_, _, _, rfl, htyp, rfl, rfl⟩
  obtain ⟨typ, ident, f, hexec, rfl, hlisted, hid⟩ := hrow
  rw [hexec]
  exact receive_repeat ⟨hlinked, hup, hdst, hfirst⟩ rfl hawake hjob henc hlisted hid hjoined htag hkey hframe hrank hseen f

/-- Settles O43: a TYPE that is not listed is dropped by every row, a message of the jobs and one of joining; a message of a session that has
not joined by the row of its TYPE (`receive_unjoined`). -/
theorem foreignMessageIsDropped : Obligations.ForeignMessageIsDropped := by
  intro i m s hmsg hlinked hup hdst hfirst
  have harr : Arrives m s := ⟨hlinked, hup, hdst, hfirst⟩
  refine ⟨fun hunlisted hclear hnamed => ?clear, fun hunlisted hsealed htag => ?unlisted,
    fun j hlist hawake hjob henc htag hjoined hkeyless => ?session⟩
  case clear =>
    obtain ⟨typ, ident, f, hexec⟩ | ⟨typ, ident, f, hexec⟩ := exec_msgRow hmsg s <;> rw [hexec]
    · exact receive_unlisted_clear harr hunlisted hclear hnamed ident f
    · exact receiveDevice_unlisted_clear harr hunlisted hclear hnamed ident f
  case unlisted =>
    obtain ⟨typ, ident, f, hexec⟩ | ⟨typ, ident, f, hexec⟩ := exec_msgRow hmsg s <;> rw [hexec]
    · refine receive_unlisted_bad harr hunlisted hsealed (fun j hj => ?_) ident f
      exact htag.imp_right fun h => h.elim .inr fun hkey => .inl (hkey j hj)
    · exact receiveDevice_unlisted_bad harr hunlisted hsealed ident f
  case session =>
    have hrow : ∃ typ ident f, exec i s = receive i typ m ident f s ∧ msgTyp m = typ := by
      simp only [List.mem_cons, List.not_mem_nil, or_false, Prod.mk.injEq] at hlist
      rcases hlist with h | h | h | h | h | h | h | h | h | h | h | h | h <;> obtain ⟨htyp, rfl⟩ := h <;>
        unfold exec <;> exact ⟨_, _, _, rfl, htyp⟩
    obtain ⟨typ, ident, f, hexec, hkind⟩ := hrow
    rw [hexec]
    exact receive_unjoined harr hkind hawake hjob henc htag hjoined hkeyless ident f

end Sys2Proof.Machine
end

section
/-! SUPPORT. The host's data in: reads and writes of BAR2, byte by byte what an intake write leaves in the ring (R322, R324, R329), and the
queue of commands they wait in (R327). -/

namespace Sys2Proof

/-- A string is written in two parts, the second where the first ends. -/
theorem Mem.sets_append (m : Mem) (d : Byte) (a : Nat) (xs ys : Bytes) :
    Mem.sets m d a (xs ++ ys) = Mem.sets (Mem.sets m d a xs) d (a + xs.length) ys := by
  induction xs generalizing m a with
  | nil => rfl
  | cons x xs ih => simp only [List.cons_append, Mem.sets, ih, List.length_cons, Nat.add_assoc, Nat.add_comm 1]

namespace Machine

/-! ## The queue of commands -/

/-- Settles O1: the queue is not empty, so its front command runs. -/
theorem stepTakesFront : Obligations.StepTakesFront := fun _ _ => step_cons rfl

/-- Settles O55: the word reader has no row to match, so there is no command to place. -/
theorem noWordSpellsACommand : Obligations.NoWordSpellsACommand := by
  intro n w s
  have hnone : decodeTableWord n w = none := rfl
  refine ⟨hnone, ?_⟩
  unfold State.withFetchWord
  rw [hnone]

/-! ## Normal service -/

theorem answers_of_served {s : State} (h : s.served = true) : s.answers = true := by
  obtain ⟨hlive, -⟩ := Bool.and_eq_true_iff.1 h
  exact answers_of_live hlive

theorem outcome_ne_zero_of_served {s : State} (h : s.served = true) : s.dawn.outcome ≠ 0 := by
  obtain ⟨-, hout⟩ := Bool.and_eq_true_iff.1 h
  simp only [State.outcomeOk, Bool.or_eq_true, decide_eq_true_eq] at hout
  omega

/-! ## Intake writes (R322, R329, R423, R440) -/

/-- Whether intake writes land at all: in flit mode, after Dawn's outcome. -/
def intakeOpen (s : State) : Bool := !s.link.noflit && decide (s.dawn.outcome ≠ 0)

/-- One byte of an intake write: the ring so far with the byte in it, or the mark that a byte was discarded. -/
def landByte (s : State) (off : Nat) (data : Bytes) (enables : List Bool) (r : Mem × Bool) (i : Nat) : Mem × Bool :=
  if enables.getD i false then
    if intakeOpen s && decide (off + i < 2 ^ 28) && intakeTakes s (off + i) then (Mem.set r.1 0 (off + i) (byteAt data i), r.2) else (r.1, true)
  else r

/-- The ring after an intake write, and whether a byte of it was discarded. -/
def intakeLanded (s : State) (off : Nat) (data : Bytes) (enables : List Bool) : Mem × Bool :=
  (List.range data.length).foldl (landByte s off data enables) (s.intake, false)

/-- A write that is discarded, whole or in part, is counted once and raises the block's interrupt. -/
theorem exec_intakeWrite {off : BitVec 28} {data : Bytes} {enables : List Bool} {s : State} (h : s.answers = true) :
    exec (.intakeWrite off data enables) s = .next
      (if !intakeOpen s || (intakeLanded s off.toNat data enables).2
        then raiseInt blkHost 5 (count Reg.HOST_WRDROP 32 1 { s with intake := (intakeLanded s off.toNat data enables).1 })
        else { s with intake := (intakeLanded s off.toNat data enables).1 }) := by
  show execIntakeWrite off data enables s = _
  exact when_next h

/-- Whatever becomes of its bytes, an intake write is answered with nothing. -/
theorem exec_intakeWrite_resp {off : BitVec 28} {data : Bytes} {enables : List Bool} {s : State} (h : s.answers = true) :
    ∃ t, exec (.intakeWrite off data enables) s = .next t ∧ t.resp = s.resp := by
  refine ⟨_, exec_intakeWrite h, ?_⟩
  split
  · rw [raiseInt_resp, count_resp]
  · rfl

section
variable {s : State} {off : Nat} {data : Bytes} (hopen : intakeOpen s = true) (hend : off + data.length ≤ 2 ^ 28)
  (htakes : ∀ i < data.length, intakeTakes s (off + i) = true)
include hopen hend htakes

theorem landByte_taken (r : Mem × Bool) {i : Nat} (hi : i < data.length) :
    landByte s off data (List.replicate data.length true) r i = (Mem.set r.1 0 (off + i) data[i], r.2) := by
  have hen : (List.replicate data.length true).getD i false = true := by simp [hi]
  have hbyte : byteAt data i = data[i] := List.getD_eq_getElem _ _ hi
  have hin : off + i < 2 ^ 28 := by omega
  simp only [landByte, hen, hopen, htakes i hi, hin, hbyte, decide_true, Bool.and_self, if_true]

/-- The first `n` bytes land in order and none is discarded. -/
theorem landBytes_taken {n : Nat} (hn : n ≤ data.length) :
    (List.range n).foldl (landByte s off data (List.replicate data.length true)) (s.intake, false) =
      (Mem.sets s.intake 0 off (data.take n), false) := by
  induction n with
  | zero => rfl
  | succ n ih =>
    have hlen : (data.take n).length = n := List.length_take_of_le (Nat.le_of_succ_le hn)
    rw [List.range_succ, List.foldl_append, ih (Nat.le_of_succ_le hn), List.take_succ_eq_append_getElem hn, Mem.sets_append, hlen]
    exact landByte_taken hopen hend htakes _ hn

theorem intakeLanded_taken : intakeLanded s off data (List.replicate data.length true) = (Mem.sets s.intake 0 off data, false) := by
  unfold intakeLanded
  rw [landBytes_taken hopen hend htakes le_rfl, List.take_length]

end

/-- Settles O45: no byte is discarded, so the ring is the old one with the string written into it, which reads back as
`memoryReadsBackWhatWasWritten` says. -/
theorem intakeWriteStoresItsBytes : Obligations.IntakeWriteStoresItsBytes := by
  intro off d s hserved hflit hwf hend htakes
  have hopen : intakeOpen s = true := by simp [intakeOpen, hflit, outcome_ne_zero_of_served hserved]
  have hlanded := intakeLanded_taken hopen hend htakes
  refine ⟨{ s with intake := Mem.sets s.intake 0 off.toNat d }, ?_, fun a => memoryReadsBackWhatWasWritten _ 0 _ a d hwf, rfl⟩
  rw [exec_intakeWrite (answers_of_served hserved), hlanded, hopen]
  rfl

/-! ## BAR2 (R324) -/

theorem exec_bar2Read {off n : Nat} {s : State} (h : s.answers = true) :
    exec (.bar2Read off n) s = .next (raiseInt blkHost 3 (count Reg.HOST_BADACC 32 1 { s with resp := .data 0 })) := by
  show execBar2Read off n s = _
  exact when_next h

/-- Settles O8: a device in normal service answers, reads and writes alike. -/
theorem bar2ReadsZeroAndTakesWrites : Obligations.Bar2ReadsZeroAndTakesWrites := fun _ _ _ _ _ _ hserved =>
  have hanswers := answers_of_served hserved
  ⟨exec_bar2Read hanswers, exec_intakeWrite_resp hanswers⟩

end Machine

end Sys2Proof
end

section
/-! SUPPORT. The check units: what a write of a unit's register does when the host sends it and when the unit takes it, and what a read of
CHK_ALIVE answers (R352 to R358, R361). -/

namespace Sys2Proof.Machine

/-! ## A host write of a unit's register -/

/-- The commands that write a check unit, each with the write it makes. -/
def chkCommands (u : Fin 144) (v : Word32) (x : Word64) : List (Instr × ChkReq) :=
  [(.chkStart u, ⟨0x04, false, false, 1⟩), (.chkClose u, ⟨0x04, false, false, 2⟩), (.chkArst u, ⟨0x04, false, false, 4⟩),
    (.chkDin8 u v, ⟨0x28, false, false, v.toNat⟩), (.chkDin16 u v, ⟨0x2C, false, false, v.toNat⟩), (.chkDin32 u v, ⟨0x30, false, false, v.toNat⟩),
    (.chkDin64 u x, ⟨0x38, true, false, x.toNat⟩), (.chkAlive u v, ⟨0x58, false, false, v.toNat⟩)]

theorem exec_chkCommand {u : Fin 144} {v : Word32} {x : Word64} {s : State} (hserved : s.served = true) :
    ∀ p ∈ chkCommands u v x, exec p.1 s = .next (chkWrite u p.2 s) := by
  simp only [chkCommands, List.forall_mem_cons]
  refine ⟨?_, ?_, ?_, ?_, ?_, ?_, ?_, ?_, List.forall_mem_nil _⟩ <;> exact when_next hserved

/-- None of the commands writes CHK_RESULT or CHK_COUNT, which are read-only. -/
theorem chkCommands_writable {u : Fin 144} {v : Word32} {x : Word64} : ∀ p ∈ chkCommands u v x, ¬ (p.2.reg = 0x20 ∨ p.2.reg = 0x48) := by
  simp [chkCommands]

section
variable {u : Nat} {r : ChkReq} (s : State)

theorem chkWrite_queueUnit (hu : u < 128) (hreg : ¬ (r.reg = 0x20 ∨ r.reg = 0x48)) : chkWrite u r s = count Reg.CHK_DROP 32 1 s :=
  (if_pos hu).trans (if_neg hreg)

theorem chkWrite_hostUnit (hu : 128 ≤ u) :
    chkWrite u r s =
      updChk u (fun c => { c with stream := c.stream ++ [r] }) (if 32 ≤ (s.chkUnit u).stream.length then takeChk u s else s) :=
  if_neg hu.not_gt

end

/-- Settles O58: a queue's unit discards every write of a writable register. -/
theorem hostWritesToQueueUnits : Obligations.HostWritesToQueueUnits := by
  intro i u v x s hserved hu hi
  obtain ⟨p, hp, rfl⟩ : ∃ p ∈ chkCommands u v x, p.1 = i := List.mem_map.1 hi
  rw [exec_chkCommand hserved p hp, chkWrite_queueUnit s hu (chkCommands_writable p hp)]

/-! ## A write taken by its unit -/

/-- Two changes that agree on the unit change the state alike. -/
theorem updChk_congr {u : Nat} {f g : ChkUnit → ChkUnit} {s : State} (h : f (s.chkUnit u) = g (s.chkUnit u)) : updChk u f s = updChk u g s := by
  unfold updChk
  rw [h]

/-- Taking a write of a register other than CHK_STAT changes the unit as the write says and nothing else. -/
theorem takeChk_eq_updChk {u reg v : Nat} {wide high : Bool} {rest : List ChkReq} {g : ChkUnit → ChkUnit} {s : State}
    (hstream : (s.chkUnit u).stream = ⟨reg, wide, high, v⟩ :: rest) (hreg : reg ≠ 0x40)
    (hg : ({ s.chkUnit u with stream := rest, spent := 0 } : ChkUnit).apply ⟨reg, wide, high, v⟩ = g (s.chkUnit u)) :
    takeChk u s = updChk u g s := by
  have hupd : updChk u (fun c => ({ c with stream := rest, spent := 0 } : ChkUnit).apply ⟨reg, wide, high, v⟩) s = updChk u g s := updChk_congr hg
  unfold takeChk
  rw [hstream]
  exact (if_neg fun h => hreg h.1).trans hupd

section
variable (c : ChkUnit) (v : Nat)

theorem ChkUnit.apply_start : c.apply ⟨0x04, false, false, 1⟩ = c.start := rfl
theorem ChkUnit.apply_close : c.apply ⟨0x04, false, false, 2⟩ = c.close := rfl
theorem ChkUnit.apply_arst : c.apply ⟨0x04, false, false, 4⟩ = { c with alive := 0 } := rfl
theorem ChkUnit.apply_alive : c.apply ⟨0x58, false, false, v⟩ = c.aliveWrite (v % 256) := rfl

/-- A message that is open closes with its result compared in the low WIDTH bits. -/
theorem ChkUnit.close_of_open {e : Nat} (hopen : c.isOpen = true) (he : e = crcEnd c.spec c.reg) :
    c.close = { c with result := e, isOpen := false, stat := c.stat ||| (if e = c.expect % 2 ^ (c.lcfg % 128) then 1 else 2) } := by
  subst he
  unfold ChkUnit.close
  rw [if_pos hopen]
  simp only [beq_iff_eq]

end

/-! ## The alive check (R358) -/

section
variable {c : ChkUnit} {v : Nat}

theorem ChkUnit.aliveWrite_expected (h : v = c.alive) : c.aliveWrite v = { c with alive := (c.alive + 1) % 256 } := if_pos h

theorem ChkUnit.aliveWrite_duplicate (hdup : v = (c.alive + 255) % 256) (hne : v ≠ c.alive) : c.aliveWrite v = { c with stat := c.stat ||| 8 } :=
  (if_neg hne).trans (if_pos hdup)

theorem ChkUnit.aliveWrite_other (hdup : v ≠ (c.alive + 255) % 256) (hne : v ≠ c.alive) : c.aliveWrite v = { c with stat := c.stat ||| 16 } :=
  (if_neg hne).trans (if_neg hdup)

end

/-- The row of CHK_ALIVE in the register map. -/
def chkAliveReg : RegDesc := ⟨0xC1058, [(0x80, 144)], false, [⟨0, 8, .rw, 0⟩]⟩

theorem regAt_chkAlive (u : Fin 144) : regAt (Reg.CHK_ALIVE u) = some chkAliveReg := by
  revert u
  decide +kernel

theorem placeOf_chkAlive (u : Fin 144) : placeOf (Reg.CHK_ALIVE u) = .low (Reg.CHK_ALIVE u) chkAliveReg := by
  unfold placeOf
  rw [regAt_chkAlive]

/-- CHK_ALIVE stands in the window of its unit, at 0x58. -/
theorem chkAlive_window (u : Fin 144) :
    (Reg.CHK_CFG 0 ≤ Reg.CHK_ALIVE u ∧ Reg.CHK_ALIVE u < Reg.CHK_CFG 144) ∧ (Reg.CHK_ALIVE u - Reg.CHK_CFG 0) / 128 = u ∧
      (Reg.CHK_ALIVE u - Reg.CHK_CFG 0) % 128 = 0x58 := by
  simp only [Reg.CHK_ALIVE, Reg.CHK_CFG]
  omega

/-- In normal service every word of BAR0 is served. -/
theorem wordServed_of_served {s : State} (h : s.served = true) (off : Nat) : wordServed s off = true := by
  simp only [State.served, State.live, State.outcomeOk, Bool.and_eq_true, Bool.or_eq_true, Bool.not_eq_true', decide_eq_true_eq] at h
  obtain ⟨⟨⟨-, hfatal⟩, -⟩, hout⟩ := h
  unfold wordServed
  rw [hfatal, if_neg (by decide), if_neg (by omega), if_neg (by omega)]

theorem chkFirst_chkAlive {u : Fin 144} {s : State} (hserved : s.served = true) : chkFirst (Reg.CHK_ALIVE u) s = drainChk u s := by
  obtain ⟨hwindow, hunit, -⟩ := chkAlive_window u
  unfold chkFirst
  rw [hserved, decide_eq_true hwindow, placeOf_chkAlive, hunit]
  rfl

theorem readReg_chkAlive {u : Fin 144} (hu : 128 ≤ u.val) (s : State) : readReg s (Reg.CHK_ALIVE u) = (s.chkUnit u).alive := by
  obtain ⟨hwindow, hunit, hreg⟩ := chkAlive_window u
  have hblock : Reg.CHK_ALIVE u / 0x10000 = 12 := by simp only [Reg.CHK_ALIVE]; omega
  have hsum : ¬ (Reg.CHK_INT_SUM 0 ≤ Reg.CHK_ALIVE u ∧ Reg.CHK_ALIVE u < Reg.CHK_INT_SUM 5) := by
    simp only [Reg.CHK_ALIVE, Reg.CHK_INT_SUM]; omega
  have hview : viewAt (Reg.CHK_ALIVE u) s = viewChk (Reg.CHK_ALIVE u) s := by
    unfold viewAt
    rw [hblock]
    rfl
  have halive : viewChk (Reg.CHK_ALIVE u) s = some (s.chkUnit u).alive := by
    unfold viewChk
    rw [if_neg hsum, if_pos hwindow, hunit, hreg]
    dsimp only
    rw [if_neg hu.not_gt]
    rfl
  unfold readReg
  rw [hview, halive]

/-- A read of CHK_ALIVE clears and latches nothing. -/
theorem read32_chkAlive {u : Fin 144} (hu : 128 ≤ u.val) {s : State} (hserved : s.served = true) :
    read32 (Reg.CHK_ALIVE u) s = ((s.chkUnit u).alive % 2 ^ 32, s) := by
  have hmsix : ¬ (0x7F00 ≤ Reg.CHK_ALIVE u ∧ Reg.CHK_ALIVE u < 0x10000) := by simp only [Reg.CHK_ALIVE]; omega
  have hbelow : ∀ off < 0xC0000, Reg.CHK_ALIVE u ≠ off := by simp only [Reg.CHK_ALIVE]; omega
  have hclear : clearRead (Reg.CHK_ALIVE u) chkAliveReg s = s := by
    unfold clearRead
    iterate 7 refine (if_neg (hbelow _ (by decide))).trans ?_
    exact if_pos (by decide)
  have hlatch : latchPos (Reg.CHK_ALIVE u) s s = s := if_neg (hbelow _ (by decide))
  unfold read32
  rw [wordServed_of_served hserved, if_neg (by decide), if_neg hmsix, placeOf_chkAlive]
  show readLow _ _ _ = _
  unfold readLow
  rw [hclear, hlatch, readReg_chkAlive hu]
  rfl

/-- Settles O56: a write joins the stream as `chkWrite_hostUnit` says; a taken one has the effect of its case in `aliveWrite`; a read takes
the writes first. -/
theorem aliveCheckCountsUp : Obligations.AliveCheckCountsUp := by
  intro u v A s t hu
  refine ⟨fun hserved ht => ?joins, fun r hA hstream => ?taken, fun r hstream => ?arst, fun hserved ht hserved' hA => ?read⟩
  case joins =>
    have hexec := exec_chkCommand (u := u) (v := v) (x := 0) hserved
    simp only [chkCommands, List.forall_mem_cons, chkWrite_hostUnit s hu, ← ht] at hexec
    obtain ⟨-, -, harst, -, -, -, -, halive, -⟩ := hexec
    exact ⟨halive, harst⟩
  case taken =>
    subst hA
    refine ⟨fun hexp => ?_, fun hdup hne => ?_, fun hother hne => ?_⟩ <;> refine takeChk_eq_updChk hstream (by decide) ?_
    · exact (ChkUnit.apply_alive ..).trans (ChkUnit.aliveWrite_expected hexp)
    · exact (ChkUnit.apply_alive ..).trans (ChkUnit.aliveWrite_duplicate hdup hne)
    · exact (ChkUnit.apply_alive ..).trans (ChkUnit.aliveWrite_other hother hne)
  case arst => exact takeChk_eq_updChk hstream (by decide) (ChkUnit.apply_arst _)
  case read =>
    have halign : Reg.CHK_ALIVE u % 4 = 0 ∧ Reg.CHK_ALIVE u < 0x400000 := by simp only [Reg.CHK_ALIVE]; omega
    rw [exec_regReadClear_word (answers_of_served hserved) halign.2 halign.1, chkFirst_chkAlive hserved, ← ht, read32_chkAlive hu hserved', ← hA]
    rfl

/-! ## Data in either order (R353, R356) -/

/-- Only the low `n` bytes count. -/
theorem toLe_mod_pow (n v : Nat) : toLe n (v % 256 ^ n) = toLe n v := by
  induction n generalizing v with
  | zero => rfl
  | succ n ih =>
    have hlow : BitVec.ofNat 8 (v % 256 ^ (n + 1)) = BitVec.ofNat 8 v :=
      BitVec.eq_of_toNat_eq (by simp [Nat.mod_mod_of_dvd, pow_succ])
    simp only [toLe, hlow]
    rw [pow_succ, Nat.mod_mul_left_div_self, ih]

/-- The little-endian bytes of a bit vector are its slices of 8 bits. -/
theorem toLe_shiftRight {w : Nat} (x : BitVec w) (n k : Nat) :
    toLe n (x.toNat >>> (8 * k)) = (List.range' k n).map fun i => x.extractLsb' (8 * i) 8 := by
  induction n generalizing k with
  | zero => rfl
  | succ n ih =>
    have hnext : x.toNat >>> (8 * k) / 256 = x.toNat >>> (8 * (k + 1)) := by
      rw [Nat.mul_add, Nat.shiftRight_add, Nat.shiftRight_eq_div_pow _ (8 * 1)]
    simp only [toLe, hnext, ih, List.range'_succ, List.map_cons]
    rfl

/-- The low `n` bytes of a word in the order of ORDER: least significant first, or most significant first. -/
def wordBytes {w : Nat} (msbFirst : Bool) (x : BitVec w) (n : Nat) : Bytes :=
  if msbFirst then ((List.range' 0 n).map fun i => x.extractLsb' (8 * i) 8).reverse else (List.range' 0 n).map fun i => x.extractLsb' (8 * i) 8

section
variable (c : ChkUnit) {w : Nat} (x : BitVec w) (n : Nat)

theorem ChkUnit.order_toNat : c.order n x.toNat = wordBytes (bitOf c.lcfg 10) x n := by
  have hbytes : toLe n x.toNat = _ := toLe_shiftRight x n 0
  rw [ChkUnit.order, hbytes]
  rfl

theorem ChkUnit.order_toNat_mod : c.order n (x.toNat % 256 ^ n) = wordBytes (bitOf c.lcfg 10) x n := by
  rw [← ChkUnit.order_toNat, ChkUnit.order, toLe_mod_pow]
  rfl

theorem ChkUnit.apply_din8 : c.apply ⟨0x28, false, false, x.toNat⟩ = c.feed (wordBytes (bitOf c.lcfg 10) x 1) :=
  congrArg c.feed (c.order_toNat_mod x 1)
theorem ChkUnit.apply_din16 : c.apply ⟨0x2C, false, false, x.toNat⟩ = c.feed (wordBytes (bitOf c.lcfg 10) x 2) :=
  congrArg c.feed (c.order_toNat_mod x 2)
theorem ChkUnit.apply_din32 : c.apply ⟨0x30, false, false, x.toNat⟩ = c.feed (wordBytes (bitOf c.lcfg 10) x 4) :=
  congrArg c.feed (c.order_toNat_mod x 4)
theorem ChkUnit.apply_din64 : c.apply ⟨0x38, true, false, x.toNat⟩ = c.feed (wordBytes (bitOf c.lcfg 10) x 8) :=
  congrArg c.feed (c.order_toNat x 8)

end

/-- A taken data write feeds its bytes in the order latched by START. -/
theorem takeChk_data {u reg n w v : Nat} {wide high msbFirst : Bool} {x : BitVec w} {rest : List ChkReq} {s : State}
    (horder : bitOf (s.chkUnit u).lcfg 10 = msbFirst) (hstream : (s.chkUnit u).stream = ⟨reg, wide, high, v⟩ :: rest) (hreg : reg ≠ 0x40)
    (happly : ∀ c : ChkUnit, c.apply ⟨reg, wide, high, v⟩ = c.feed (wordBytes (bitOf c.lcfg 10) x n)) :
    takeChk u s = updChk u (fun c => ({ c with stream := rest, spent := 0 } : ChkUnit).feed (wordBytes msbFirst x n)) s := by
  subst horder
  exact takeChk_eq_updChk hstream hreg (happly _)

/-- Settles O57: a taken START and CLOSE have the effect of `ChkUnit.start` and `ChkUnit.close`; a taken data write feeds the bytes of its
word in the latched order, which for either order are the ones listed. -/
theorem checkUnitsTakeMessages : Obligations.CheckUnitsTakeMessages := by
  intro u v x s t put hu
  refine ⟨fun hserved ht hput => ?joins, fun w r fed hstream hfed => ?taken⟩
  case joins =>
    have hexec := exec_chkCommand (u := u) (v := v) (x := x) hserved
    simp only [chkCommands, List.forall_mem_cons, chkWrite_hostUnit s hu, ← ht, ← hput] at hexec
    obtain ⟨hstart, hclose, -, hdin8, hdin16, hdin32, hdin64, -⟩ := hexec
    exact ⟨hstart, hclose, hdin8, hdin16, hdin32, hdin64⟩
  case taken =>
    have hdata : ∀ msbFirst, bitOf (s.chkUnit u).lcfg 10 = msbFirst →
        (w = ⟨0x28, false, false, v.toNat⟩ → takeChk u s = fed (wordBytes msbFirst v 1)) ∧
        (w = ⟨0x2C, false, false, v.toNat⟩ → takeChk u s = fed (wordBytes msbFirst v 2)) ∧
        (w = ⟨0x30, false, false, v.toNat⟩ → takeChk u s = fed (wordBytes msbFirst v 4)) ∧
        (w = ⟨0x38, true, false, x.toNat⟩ → takeChk u s = fed (wordBytes msbFirst x 8)) := by
      intro msbFirst horder
      simp only [hfed]
      refine ⟨?_, ?_, ?_, ?_⟩ <;> rintro rfl
      · exact takeChk_data horder hstream (by decide) fun c => c.apply_din8 v
      · exact takeChk_data horder hstream (by decide) fun c => c.apply_din16 v
      · exact takeChk_data horder hstream (by decide) fun c => c.apply_din32 v
      · exact takeChk_data horder hstream (by decide) fun c => c.apply_din64 x
    refine ⟨fun hw => ?start, hdata false, hdata true, fun e hw hopen he => ?close⟩
    all_goals subst hw
    case start => exact takeChk_eq_updChk hstream (by decide) (ChkUnit.apply_start _)
    case close => exact takeChk_eq_updChk hstream (by decide) ((ChkUnit.apply_close _).trans (ChkUnit.close_of_open _ hopen he))

end Sys2Proof.Machine
end

section
/-! SUPPORT. What a command answers: a next state, whatever the state it comes in, of every command whose word spells its row (R89, R224). -/

namespace Sys2Proof.Machine

/-! ## Words that spell their row -/

theorem tileWord_of_wellFormed {i : Instr} {r : Nat × Nat × BitVec 128} (h : WellFormed i = true) (hrow : i.tileRow = some r) :
    tileWordOk r = true := by
  simp only [WellFormed, hrow, optOk, Bool.and_eq_true] at h
  obtain ⟨⟨⟨⟨htile, -⟩, -⟩, -⟩, -⟩ := h
  exact htile

theorem walkWord_of_wellFormed {i : Instr} {r : Nat × BitVec 32} (h : WellFormed i = true) (hrow : i.walkRow = some r) :
    walkWordOk r = true := by
  simp only [WellFormed, hrow, optOk, Bool.and_eq_true] at h
  obtain ⟨⟨⟨⟨-, hwalk⟩, -⟩, -⟩, -⟩ := h
  exact hwalk

/-- A word that spells its row is not another row's. -/
theorem tileWord_own {cls op : Nat} {w : BitVec 128} (hw : tileWordOk (cls, op, w) = true) :
    ¬ (decide (bits w.toNat 3 0 ≤ 4) && opDefined (bits w.toNat 3 0) (bits w.toNat 9 4) &&
      !(decide (bits w.toNat 3 0 = cls) && decide (bits w.toNat 9 4 = op))) = true := by
  unfold tileWordOk at hw
  simp [hw]

theorem walkWord_own {op : Nat} {w : BitVec 32} (hw : walkWordOk (op, w) = true) :
    ¬ (walkDefined (bits w.toNat 5 0) && decide (bits w.toNat 5 0 ≠ op)) = true := by
  simpa [walkWordOk] using fun _ => hw

/-! ## Issues -/

theorem issue_answers {t : Fin 8} {st : Fin 4} {w : BitVec 128} {cls op mask : Nat} {check : Iss → Nat} {act : Iss → State → Eff}
    (hw : tileWordOk (cls, op, w) = true) (s : State) : ∃ u, issue t st w cls op mask check act s = .next u := by
  unfold issue
  dsimp only
  rw [if_neg (tileWord_own hw)]
  split
  · exact ⟨_, rfl⟩
  · split <;> exact ⟨_, rfl⟩

theorem walkIssue_answers {k : Fin 2048} {w : BitVec 32} {op : Nat} {check : WIss → Nat} {act : WIss → State → WEff}
    (hw : walkWordOk (op, w) = true) (s : State) : ∃ u, walkIssue k w op check act s = .next u := by
  unfold walkIssue
  dsimp only
  rw [if_neg (walkWord_own hw)]
  split
  · exact ⟨_, rfl⟩
  · split <;> exact ⟨_, rfl⟩

theorem poweredOut_answers {f : State → Out} {i : Instr} {s : State} (h : ∃ u, f (unused s) = .next u) : ∃ u, poweredOut i f s = .next u := by
  obtain ⟨u, hu⟩ := h
  unfold poweredOut
  rw [hu]
  exact ⟨_, rfl⟩

/-- Every row that runs a walker instruction issues it with its operation; the work of the two that send flows reaches memory. -/
theorem exec_walkIssue {i : Instr} {k : Fin 2048} {w : BitVec 32} (h : walkAt i = some (k, w)) (s : State) :
    ∃ op check act, i.walkRow = some (op, w) ∧
      (exec i s = walkIssue k w op check act s ∨ exec i s = poweredOut i (walkIssue k w op check act) s) := by
  unfold walkAt at h
  split at h
  case h_33 => cases h
  all_goals
    cases h
    simp only [exec, execWalkNop, execAdd, execSub, execAnd, execOr, execXor, execShl, execShr, execSra, execMul, execMulhu, execSlt, execSltu,
      execLui, execLd, execSt, execBeq, execBne, execBlt, execBltu, execJal, execJr, execWalkEnd, execWalkCbnd, execCsr, execXfer, execXwait,
      execSbset, execLksend, execUpsend, execHwait, execUpclose, walkAlu, walkBranch]
  case h_29 | h_30 => exact ⟨_, _, _, rfl, .inr rfl⟩
  all_goals exact ⟨_, _, _, rfl, .inl rfl⟩

theorem exec_answers_of_tileAt {i : Instr} {t : Fin 8} {st : Fin 4} {w : BitVec 128} (h : tileAt i = some (t, st, w))
    (hwf : WellFormed i = true) (s : State) : ∃ u, exec i s = .next u := by
  obtain ⟨cls, op, check, act, hrow, hexec⟩ := exec_issue s h
  rw [hexec]
  exact issue_answers (tileWord_of_wellFormed hwf hrow) s

theorem exec_answers_of_walkAt {i : Instr} {k : Fin 2048} {w : BitVec 32} (h : walkAt i = some (k, w)) (hwf : WellFormed i = true) (s : State) :
    ∃ u, exec i s = .next u := by
  obtain ⟨op, check, act, hrow, hexec | hexec⟩ := exec_walkIssue h s <;> rw [hexec]
  · exact walkIssue_answers (walkWord_of_wellFormed hwf hrow) s
  · exact poweredOut_answers (walkIssue_answers (walkWord_of_wellFormed hwf hrow) _)

theorem runTrio_answers (q op : Nat) (f : Cmd → State → State) (s : State) : ∃ u, runTrio q op f s = .next u := by
  unfold runTrio
  split <;> exact ⟨_, rfl⟩

/-- A row without a word of its own answers whatever it finds: what it looks up first is there or it is not. -/
theorem exec_answers_of_no_word {i : Instr} (ht : tileAt i = none) (hw : walkAt i = none) (s : State) : ∃ u, exec i s = .next u := by
  cases i
  case nop | cbnd | tileEnd | jmp | setc | aset | ainc | rbset | rbinc | wload | mma | mclose | chain | uprog | dma | lmark | defer => cases ht
  case walkNop | add | sub | and | or | xor | shl | shr | sra | mul | mulhu | slt | sltu | lui | ld | st | beq | bne | blt | bltu | jal | jr | walkEnd
    | walkCbnd | csr | xfer | xwait | sbset | lksend | upsend | hwait | upclose => cases hw
  case suspend | resume | cancel => exact runTrio_answers ..
  case tick | tickGatherEnd | dmaComplete | deferredBlockStart | chainRetire | xferComplete | flowPooled | gatherRelease | mergeDone | updateBatch
    | lmarkDelivered | denseStepStart | verdictExchangeStart | densePieceAdmit | segFetchTimeout | collectiveStall | walk | wakeVoltageSettled
    | wakeComplete | presenceQualified | presenceTimeout | passEnd =>
    simp only [exec, execTick, execTickGatherEnd, execDmaComplete, execDeferredBlockStart, execChainRetire, execXferComplete, execFlowPooled,
      execGatherRelease, execMergeDone, execUpdateBatch, execLmarkDelivered, execDenseStepStart, execVerdictExchangeStart, execDensePieceAdmit,
      execSegFetchTimeout, execCollectiveStall, execWalk, execWakeVoltageSettled, execWakeComplete, execPresenceQualified,
      execPresenceTimeout, execPassEnd]
    split <;> exact ⟨_, rfl⟩
  case swap | keeperTimeout | duskEnd =>
    simp only [exec, execSwap, execKeeperTimeout, execDuskEnd]
    split
    · exact ⟨_, rfl⟩
    · split <;> exact ⟨_, rfl⟩
  all_goals exact ⟨_, rfl⟩

/-- Settles O6: a word that spells its row is issued by it (`issue_answers`, `walkIssue_answers`), and the other rows carry none. -/
theorem wellFormedCommandsComplete : Obligations.WellFormedCommandsComplete := by
  intro i s hwf
  cases htile : tileAt i with
  | some r => exact exec_answers_of_tileAt htile hwf s
  | none =>
    cases hwalk : walkAt i with
    | some r => exact exec_answers_of_walkAt hwalk hwf s
    | none => exact exec_answers_of_no_word htile hwalk s

end Sys2Proof.Machine
end

section
/-! SUPPORT. The device that is not live: every row of work finds its guard closed (R466, R482, R484), and what LKSEND and UPSEND do besides,
whose work reaches memory. -/

namespace Sys2Proof.Machine

theorem when_closed {b : Bool} {f : State → State} {s : State} (h : b = false) : when b f s = .next s := by
  unfold when
  rw [h]
  rfl

/-! ## Guards of a device that is not live -/

section
variable {s : State} (hdead : s.live = false)
include hdead

theorem clocked_of_dead : s.clocked = false := by simp [State.clocked, hdead]
theorem served_of_dead : s.served = false := by simp [State.served, hdead]
theorem limited_of_dead : s.limited = false := by simp [State.limited, hdead]

theorem mayIssue_of_dead (t st : Nat) : mayIssue t st s = false := by
  unfold mayIssue
  split
  · rfl
  · simp [clocked_of_dead hdead]

theorem mayWalk_of_dead (k : Nat) : mayWalk k s = false := by simp [mayWalk, clocked_of_dead hdead]

theorem runnable_of_dead (q op : Nat) : runnable q op s = none := by
  unfold runnable
  split
  · rw [if_neg (by simp [served_of_dead hdead, limited_of_dead hdead])]
  · rfl

/-! ## Rows that find their guard closed -/

theorem issue_dead {t : Fin 8} {st : Fin 4} {w : BitVec 128} {cls op mask : Nat} {check : Iss → Nat} {act : Iss → State → Eff}
    (hw : tileWordOk (cls, op, w) = true) : issue t st w cls op mask check act s = .next s := by
  unfold issue
  dsimp only
  rw [if_neg (tileWord_own hw), if_pos (by simp [mayIssue_of_dead hdead])]

theorem walkIssue_dead {k : Fin 2048} {w : BitVec 32} {op : Nat} {check : WIss → Nat} {act : WIss → State → WEff}
    (hw : walkWordOk (op, w) = true) : walkIssue k w op check act s = .next s := by
  unfold walkIssue
  dsimp only
  rw [if_neg (walkWord_own hw), if_pos (by simp [mayWalk_of_dead hdead])]

/-- LKSEND and UPSEND change nothing either, but are done as work that reaches memory is. -/
theorem poweredOut_walkIssue_dead {i : Instr} {k : Fin 2048} {w : BitVec 32} {op : Nat} {check : WIss → Nat} {act : WIss → State → WEff}
    (hw : walkWordOk (op, w) = true) : poweredOut i (walkIssue k w op check act) s = .next (done s (unused s)) :=
  poweredOut_done_of (walkIssue_dead (s := unused s) hdead hw) rfl

theorem runHead_dead (q op : Nat) (f : Cmd → State → State) : runHead q op f s = .next s := by
  unfold runHead
  rw [runnable_of_dead hdead]

theorem runHeadP_dead (i : Instr) (q op : Nat) (f : Cmd → State → State) : runHeadP i q op f s = .next s := by
  unfold runHeadP
  rw [runnable_of_dead hdead]

theorem runTrio_dead (q op : Nat) (f : Cmd → State → State) : runTrio q op f s = .next s := by
  unfold runTrio
  split
  · rfl
  · exact runHead_dead hdead ..

end

/-- Of a command that has not waited, work that does nothing leaves the state as it was. -/
theorem done_unused {s : State} (hfirst : s.stk.counted = false) : done s (unused s) = s := by
  unfold done
  rw [hfirst]
  rfl

/-! ## The rows of work -/

/-- The commands of the queues. -/
def queueRows (q : Fin 128) : List Instr :=
  [.map q, .unmap q, .htierAdd q, .htierRemove q, .handback q, .adopt q, .tblCreate q, .tblStage q, .tblPublish q, .tblDestroy q, .denseCreate q,
    .jobAdmit q, .jobEnd q, .ctxSwitch q, .suspend q, .resume q, .cancel q, .dataIn q, .copy q, .exportSet q, .keepRegion q, .exportBase q,
    .restore q, .rankMove q, .selftest q, .tileRun q, .walk q, .pwrState q, .pwrLimits q, .attest q, .sessionOpen q, .keyRegister q,
    .presRequest q, .debugLock q, .certInstall q]

theorem exec_tileRow_dead {i : Instr} {r : Fin 8 × Fin 4 × BitVec 128} {s : State} (hdead : s.live = false) (hwf : WellFormed i = true)
    (h : tileAt i = some r) : exec i s = .next s := by
  obtain ⟨cls, op, check, act, hrow, hexec⟩ := exec_issue s h
  rw [hexec]
  exact issue_dead hdead (tileWord_of_wellFormed hwf hrow)

theorem exec_walkRow_dead {i : Instr} {r : Fin 2048 × BitVec 32} {s : State} (hdead : s.live = false) (hwf : WellFormed i = true)
    (h : walkAt i = some r) : exec i s = .next s ∨ exec i s = .next (done s (unused s)) := by
  obtain ⟨op, check, act, hrow, hexec | hexec⟩ := exec_walkIssue h s <;> rw [hexec]
  · exact .inl (walkIssue_dead hdead (walkWord_of_wellFormed hwf hrow))
  · exact .inr (poweredOut_walkIssue_dead hdead (walkWord_of_wellFormed hwf hrow))

theorem exec_msgRow_dead {i : Instr} {m : Msg} {s : State} (hdead : s.live = false) (h : i.msgRow = some m) : exec i s = .next s := by
  have hlinked : s.linked = false := served_of_dead hdead
  obtain ⟨typ, ident, f, hexec⟩ | ⟨typ, ident, f, hexec⟩ := exec_msgRow h s <;> rw [hexec]
  · exact when_closed (by simp [hlinked])
  · exact when_closed (by simp [hlinked])

theorem exec_queueRow_dead {q : Fin 128} {i : Instr} {s : State} (hdead : s.live = false) (h : i ∈ queueRows q) : exec i s = .next s := by
  have hclk : s.clocked = false := clocked_of_dead hdead
  simp only [queueRows, List.mem_cons, List.not_mem_nil, or_false] at h
  rcases h with rfl | rfl | rfl | rfl | rfl | rfl | rfl | rfl | rfl | rfl | rfl | rfl | rfl | rfl | rfl | rfl | rfl | rfl | rfl | rfl | rfl | rfl |
    rfl | rfl | rfl | rfl | rfl | rfl | rfl | rfl | rfl | rfl | rfl | rfl | rfl
  all_goals
    simp only [exec, execMap, execUnmap, execHtierAdd, execHtierRemove, execHandback, execAdopt, execTblCreate, execTblStage, execTblPublish,
      execTblDestroy, execDenseCreate, execJobAdmit, execJobEnd, execCtxSwitch, execSuspend, execResume, execCancel, execDataIn, execCopy,
      execExportSet, execKeepRegion, execExportBase, execRestore, execRankMove, execSelftest, execTileRun, execPwrState, execPwrLimits,
      execAttest, execSessionOpen, execKeyRegister, execPresRequest, execDebugLock, execCertInstall, runNow, runJob, runJobNow, runJobP,
      runJobNowP, runSecure, runSecureNow, runHead_dead hdead, runHeadP_dead hdead, runTrio_dead hdead, when, hclk, Bool.false_and,
      Bool.false_eq_true, if_false]
  unfold execWalk
  split
  · exact when_closed (by simp [hclk])
  · rfl

/-- Of a row of work that comes for the first time the statement holds. -/
theorem exec_dead_of_first {i : Instr} {s : State} (hdead : s.live = false) (hwf : WellFormed i = true) (hfirst : s.stk.counted = false)
    (h : (tileAt i).isSome = true ∨ (walkAt i).isSome = true ∨ i.msgRow.isSome = true ∨ ∃ q, i ∈ queueRows q) : exec i s = .next s := by
  rcases h with h | h | h | ⟨q, h⟩
  · obtain ⟨r, hr⟩ := Option.isSome_iff_exists.1 h
    exact exec_tileRow_dead hdead hwf hr
  · obtain ⟨r, hr⟩ := Option.isSome_iff_exists.1 h
    exact (exec_walkRow_dead hdead hwf hr).elim id fun hdone => hdone.trans (congrArg _ (done_unused hfirst))
  · obtain ⟨m, hm⟩ := Option.isSome_iff_exists.1 h
    exact exec_msgRow_dead hdead hm
  · exact exec_queueRow_dead hdead h

/-! ## A command that has waited -/

/-- An unpowered device with the marks of work that has waited, whose channels list channel 0 a second time, with another sector count. -/
def unpoweredListedTwice : State := { State.reset with
  stk := { Stacks.init with chans := [(0, Chan.init), (0, { Chan.init with load := 1 })], counted := true } }

/-- Refutes O54: the state is free, so its table of channels may list one twice, and LKSEND's row, which has nothing to issue, then writes
the second count into the first entry as it takes over the sectors counted. Of a row that comes for the first time the statement holds
(`exec_dead_of_first`). -/
theorem not_deadDeviceRunsNoCommand : ¬ Obligations.DeadDeviceRunsNoCommand := by
  intro h
  have hdead : unpoweredListedTwice.live = false := rfl
  have hsame : exec (.lksend 0 0x23) unpoweredListedTwice = .next unpoweredListedTwice :=
    h (.lksend 0 0x23) unpoweredListedTwice hdead (by decide +kernel) (.inr (.inl rfl))
  have hdone : exec (.lksend 0 0x23) unpoweredListedTwice = .next (done unpoweredListedTwice (unused unpoweredListedTwice)) :=
    (poweredOut_walkIssue_dead hdead (op := 0x23) (by decide) : execLksend 0 0x23 unpoweredListedTwice = _)
  injection hdone.symm.trans hsame with hstate
  have htaken : ((done unpoweredListedTwice (unused unpoweredListedTwice)).chan 0).load = 1 := by decide +kernel
  rw [hstate] at htaken
  exact absurd htaken (by decide +kernel)

end Sys2Proof.Machine
end

section
/-! SUPPORT. Power states, Night and waking, temperatures and rails, one lemma per command (R364 to R375, R381). -/

namespace Sys2Proof.Machine

/-! ## PWR_STATE and PWR_LIMITS (R364 to R368, R370) -/

section
variable {q : Fin 128} {c : Cmd} {s : State}

theorem exec_pwrState (h : runnable q Op.PWR_STATE s = some c) (hlegal : pwrRefusal (c.opnd 0 1) (started q s).power.hold = none)
    (hnew : heldByPower c.cid (started q s) = false) (hawake : (started q s).power.night = .none) :
    exec (.pwrState q) s = .next (stateAwake q c (targetState (c.opnd 0 1)) (started q s)) := by
  refine (head_next h : execPwrState q s = _).trans ?_
  dsimp only
  rw [hlegal]
  dsimp only
  rw [if_neg (by simp [hnew]), if_pos hawake]

theorem exec_pwrLimits {l : Limits} (h : runnable q Op.PWR_LIMITS s = some c) (hl : limitsOf c = some l) :
    exec (.pwrLimits q) s = .next { started q s with
      power := { (started q s).power with pendLim := (started q s).power.pendLim ++ [(q.val, c.cid, l)] } } := by
  refine (head_next h : execPwrLimits q s = _).trans ?_
  rw [hl]

end

section
variable (q : Nat) (c : Cmd) {t : PState} {s : State}

theorem stateAwake_dusk (h : t = .night ∨ t = .off) : stateAwake q c t s = { s with power := { s.power with
    dusk := some { target := t, queue := q, cid := c.cid, first := none, frames := 0, ended := false } } } := if_pos h

variable (hnight : t ≠ .night) (hoff : t ≠ .off)
include hnight hoff

theorem stateAwake_same (h : t = s.power.state) :
    stateAwake q c t s = { s with power := { s.power with sameState := s.power.sameState ++ [(q, c.cid)] } } :=
  (if_neg (not_or.2 ⟨hnight, hoff⟩)).trans (if_pos h)

theorem stateAwake_other (h : t ≠ s.power.state) : stateAwake q c t s = { s with power := { s.power with
    pend := some { target := t, frame := if s.power.endsDusk = some c.cid then 0 else c.opnd 8 6, queue := q, cid := c.cid, asked := false } } } :=
  (if_neg (not_or.2 ⟨hnight, hoff⟩)).trans (if_neg h)

end

/-! ## Dusk, Night and the wake (R370, R373, R374) -/

theorem exec_duskEnd {d : Dusk} {f : Nat} {s : State} (hd : s.power.dusk = some d) (hf : d.first = some f) (hclk : s.clocked = true)
    (hsteps : s.clk.stepsDone = true) (hpos : s.pos ≤ 256) (hended : d.ended = false)
    (hover : f + regField s Reg.PWR_CFG 7 0 ≤ s.clk.fnum ∨ duskBusy s = false) :
    exec .duskEnd s = .next (duskDrained (endFlows { s with power := { s.power with dusk := some { d with ended := true } } })) := by
  show execDuskEnd s = _
  unfold execDuskEnd
  simp only [hd, hf]
  exact when_next (by simpa [hclk, hsteps, hpos, hended] using hover)

section
variable {s : State} (hlive : s.live = true)
include hlive

section
variable (hlow : s.power.night = .lowering)
include hlow

theorem exec_nightVoltageSettled : exec .nightVoltageSettled s = .next (inNight s) := when_next (by simp [hlive, hlow])

theorem exec_nightVoltageTimeout {i : Nat} {r : ManRail} (hr : coreRail s = some (i, r)) :
    exec .nightVoltageTimeout s = .next (inNight (pmbusFail i r.addr (setVout 750 s))) := by
  refine (when_next (by simp [hlive, hlow]) : execNightVoltageTimeout s = _).trans ?_
  rw [hr]

end

variable {w : Wake} (hw : s.power.wake = some w)
include hw

theorem exec_wakeVoltageSettled (hnight : s.power.night = .raising) : exec (.wakeVoltageSettled true) s = .next (wakeDraws w s) := by
  show execWakeVoltageSettled true s = _
  unfold execWakeVoltageSettled
  rw [hw]
  exact when_next (by simp [hlive, hnight])

theorem exec_wakeComplete {s2 : State} (hnight : s.power.night = .waking) (hholds : holds .topUp s = true) (hasking : asking .topUp s = false)
    (hgranted : standingFor (decide (w.final = .noon)) s ≤ heldBy .topUp s) (hlatest : w.latest = w.final)
    (hs2 : s2 = { s with
      power := { s.power with night := .none, wake := none, tripped := false },
      zor := { s.zor with idle := false },
      clk := { s.clk with stepsDone := false } }) :
    exec .wakeComplete s = .next (validateAll (endCid w.queue w.cid St.OK 0 0
      (inState w.final (retrainAll (settleTopUp (decide (w.final = .noon)) s2))))) := by
  subst hs2
  show execWakeComplete s = _
  unfold execWakeComplete
  rw [hw]
  refine (when_next (by simp [hlive, hnight, hholds, hasking])).trans ?_
  dsimp only
  rw [if_neg (not_lt.2 hgranted), if_pos hlatest]

end

/-! ## Temperature (R375, R484) -/

section
variable {a b f : BitVec 8} {s : State} (hans : s.answers = true)
include hans

theorem exec_thermalSample_shutdown (hot : 115 ≤ max a.toNat (max b.toNat f.toNat)) : exec (.thermalSample a b f) s = .next { s with
    power := { s.power with die0 := a.toNat, die1 := b.toNat, fab := f.toNat, shut := true },
    pins := { s.pins with thermtrip := true, priorSd := true } } :=
  (when_next hans : execThermalSample a b f s = _).trans (congrArg _ (if_pos hot))

theorem exec_thermalSample_cool (hfatal : s.flt.fatal = false) (hsoft : max a.toNat (max b.toNat f.toNat) < s.power.limits.tsoft)
    (hcool : max a.toNat (max b.toNat f.toNat) < 100) : exec (.thermalSample a b f) s = .next { s with
      power := { s.power with die0 := a.toNat, die1 := b.toNat, fab := f.toNat, soft := false, hold := false } } := by
  refine (when_next hans : execThermalSample a b f s = _).trans ?_
  dsimp only [State.tj]
  generalize max a.toNat (max b.toNat f.toNat) = tj at hsoft hcool ⊢
  have hquiet : decide (s.power.limits.tsoft ≤ tj) = false := decide_eq_false (not_le.2 hsoft)
  rw [if_neg (by omega), if_neg (by simp [hfatal]), if_neg (by simp; omega), if_pos hcool]
  simp only [ge_iff_le, hquiet]
  rfl

end

theorem exec_thermalShutdown {s : State} (hp : s.dawn.powered = true) : exec .thermalShutdown s = .next (thermalStop s) := when_next hp

/-! ## Rail telemetry (R381) -/

/-- What is known of rail `k` noted. -/
def railNoted (k : Nat) (r : Rail) (s : State) : State := { s with power := { s.power with rails := Tbl.put s.power.rails k r } }

/-- The state after a rail's answer is noted, counted as energy and summed. -/
def railAnswered (k : Nat) (r : Rail) (v i : BitVec 16) (t : BitVec 8) (s : State) : State :=
  packagePower k (railEnergy v.toNat i.toNat (railNoted k { r with vout := v.toNat, iout := i.toNat, temp := t.toNat, valid := true, misses := 0 } s))

/-- The state after a poll without an answer is counted; from the third in a row on the rail is marked as
failing (log 40). -/
def railMissed (k : Nat) (r : Rail) (s : State) : State :=
  packagePower k (count Reg.PWR_PMBERR 32 1 (railNoted k { r with misses := r.misses + 1, fail := r.fail || decide (3 ≤ r.misses + 1) } s))

section
variable {k : Fin 8} {v i : BitVec 16} {t : BitVec 8} {m : ManRail} {r : Rail} {s : State} (hm : m = s.dawn.man.rails.getD k ⟨0, 0⟩)
  (hlive : s.live = true) (houtcome : s.dawn.outcome ≠ 0) (haddr : m.addr ≠ 0) (hr : r = Tbl.look s.power.rails k Rail.init)
include hm hlive houtcome haddr hr

theorem exec_pmbusPoll_answered (hlinear : r.linear = true) : exec (.pmbusPoll k true v i t) s =
    .next (if m.role = 1 then coreCurrent i.toNat (railAnswered k r v i t s) else railAnswered k r v i t s) := by
  subst hm hr
  show execPmbusPoll k true v i t s = _
  unfold execPmbusPoll
  refine (when_next (by simpa [hlive, houtcome] using haddr)).trans ?_
  exact congrArg _ (if_pos (by simp [hlinear]))

theorem exec_pmbusPoll_missed : exec (.pmbusPoll k false v i t) s =
    .next (if r.misses + 1 = 3 then pmbusFail k m.addr (railMissed k r s) else railMissed k r s) := by
  subst hm hr
  show execPmbusPoll k false v i t s = _
  unfold execPmbusPoll
  refine (when_next (by simpa [hlive, houtcome] using haddr)).trans ?_
  exact congrArg _ (if_neg (by simp))

end

/-- Settles O48: one lemma per command and branch. The third poll missed is told by the count that the branch tests. -/
theorem powerCommandsComplete : Obligations.PowerCommandsComplete := by
  rintro q c s _ rfl
  refine ⟨fun t f h hlegal hnew hawake ht hf => ?pwrState, fun l h hl => exec_pwrLimits h hl,
    fun d f hd hf hclk hsteps hpos hended hover => exec_duskEnd hd hf hclk hsteps hpos hended hover,
    fun hlive hlow => ⟨exec_nightVoltageSettled hlive hlow, fun i r hr => exec_nightVoltageTimeout hlive hlow hr⟩,
    fun w hw hlive hnight => exec_wakeVoltageSettled hlive hw hnight,
    fun w s2 hw hlive hnight hholds hasking hgranted hlatest hs2 => exec_wakeComplete hlive hw hnight hholds hasking hgranted hlatest hs2,
    fun a b f hans => ⟨exec_thermalSample_shutdown hans, exec_thermalSample_cool hans⟩, exec_thermalShutdown,
    fun k v i t m r hm hlive houtcome haddr hr => ⟨fun hlinear hrole => ?answered, fun hlinear hrole => ?core, fun s2 hs2 => ?missed⟩⟩
  case pwrState =>
    subst ht hf
    rw [exec_pwrState h hlegal hnew hawake]
    exact ⟨fun hsleep => congrArg _ (stateAwake_dusk q c hsleep), fun hnight hoff hsame => congrArg _ (stateAwake_same q c hnight hoff hsame),
      fun hnight hoff hother => congrArg _ (stateAwake_other q c hnight hoff hother)⟩
  case answered => exact (exec_pmbusPoll_answered hm hlive houtcome haddr hr hlinear).trans (congrArg _ (if_neg hrole))
  case core => exact (exec_pmbusPoll_answered hm hlive houtcome haddr hr hlinear).trans (congrArg _ (if_pos hrole))
  case missed =>
    subst hs2
    have hexec := exec_pmbusPoll_missed (v := v) (i := i) (t := t) hm hlive houtcome haddr hr
    exact ⟨fun hfew => hexec.trans (congrArg _ (if_neg (by omega))), fun htwo => hexec.trans (congrArg _ (if_pos (by omega)))⟩

end Sys2Proof.Machine
end

section
/-! SUPPORT. Attestation, sessions, keys, presence, the seal and the lock, one lemma per command (R393 to R414). -/

namespace Sys2Proof.Machine

theorem secureNow_next {q op st res : Nat} {f : Cmd → State → Nat × Nat × State} {s s1 : State} {c : Cmd} (h : SecureAccepted q op s c)
    (hf : f c (started q s) = (st, res, s1)) : runSecureNow q op f s = .next (endHead q st 0 res s1) := by
  unfold runSecureNow
  rw [secure_next h, hf]

/-! ## Attestation and sessions (R394, R401, R402) -/

section
variable {q : Fin 128} {c : Cmd} {s : State}

section
variable (h : SecureAccepted q Op.ATTEST s c) (hlife : (started q s).lc ≠ .retired) (halign : c.opnd 32 8 % 4096 = 0)
include h hlife halign

theorem exec_attest_ready (hbek : (started q s).adnt.bekReady = true) : exec (.attest q) s = .next (attestNow q c (started q s)) :=
  (secure_next h : execAttest q s = _).trans
    (congrArg _ ((if_neg hlife).trans ((if_neg (not_not.2 halign)).trans (if_pos hbek))))

theorem exec_attest_waits (hbek : (started q s).adnt.bekReady = false) : exec (.attest q) s = .next (awaitBek q c.cid (started q s)) :=
  (secure_next h : execAttest q s = _).trans
    (congrArg _ ((if_neg hlife).trans ((if_neg (not_not.2 halign)).trans (if_neg (ne_true_of_eq_false hbek)))))

end

section
variable (h : SecureAccepted q Op.SESSION_OPEN s c) (hlife : (started q s).lc ≠ .retired)
include h hlife

theorem exec_sessionOpen_ready (hbek : (started q s).adnt.bekReady = true) : exec (.sessionOpen q) s = .next (sessionNow q c (started q s)) :=
  (secure_next h : execSessionOpen q s = _).trans (congrArg _ ((if_neg hlife).trans (if_pos hbek)))

theorem exec_sessionOpen_waits (hbek : (started q s).adnt.bekReady = false) :
    exec (.sessionOpen q) s = .next (awaitBek q c.cid (started q s)) :=
  (secure_next h : execSessionOpen q s = _).trans (congrArg _ ((if_neg hlife).trans (if_neg (ne_true_of_eq_false hbek))))

end

end

/-- Session `j` opened by the grant `g` with the key `key` it brings; its keys lie in slots 2j and 2j + 1 (R402, log 136). -/
def sessionOpened (j : Nat) (g key : Bytes) (s : State) : State :=
  setSession j { Session.init with
    state := .open, slot := leAt g 0 2, policy := leAt g 3 1, jobid := leAt g 4 4,
    linkKey := linkKeyOf key (leAt g 4 4), kconf := kconfOf key s.idDig (slice s.adnt.bootNonce 0 32) (leAt g 3 1) }
    { s with adnt := { s.adnt with
      gctr := Tbl.put s.adnt.gctr (leAt g 0 2) (leAt g 8 8),
      keys := Tbl.put (Tbl.put s.adnt.keys (2 * j) (BitVec.ofNat 256 (le key))) (2 * j + 1) (BitVec.ofNat 256 (le (sessKeyOf key s.idDig))) } }

theorem sessionNow_opens {q : Nat} {c : Cmd} {key : Bytes} {s : State}
    (hfree : (s.session (c.opnd 0 1 % 64)).state = .none ∨ (s.session (c.opnd 0 1 % 64)).state = .open)
    (hkey : Config.oaepOpen s.adnt.bekPriv (slice c.body 128 384) = some key) (hgrant : grantStatus (c.opnd 0 1 % 64) c.body (some key) s = 0) :
    sessionNow q c s = endHead q St.OK 0 0 (sessionOpened (c.opnd 0 1 % 64) c.body key s) := by
  unfold sessionNow
  dsimp only
  rw [if_neg fun ⟨hnone, hopen⟩ => hfree.elim hnone hopen, hkey, if_neg (not_not.2 hgrant)]
  rfl

/-! ## Keys, the lock and the certificate (R393, R398, R399, R414) -/

section
variable {q : Fin 128} {c : Cmd} {s : State}

theorem exec_keyRegister {p m : Bytes} (h : SecureAccepted q Op.KEY_REGISTER s c) (hp : p = c.body) (hlife : (started q s).lc ≠ .retired)
    (hsigned : requestSigned (started q s) (p.take 448) (slice p 448 384) = true)
    (hfresh : requestFresh (started q s) (leAt p 4 4) (slice p 8 32) = true) (hslot : leAt p 0 2 < 1024) (hm : m = slice p 64 384) :
    exec (.keyRegister q) s = .next (endHead q St.OK 0 0 { started q s with adnt := { (started q s).adnt with
      owners := if m.all (· == 0) then Tbl.del (started q s).adnt.owners (leAt p 0 2) else Tbl.put (started q s).adnt.owners (leAt p 0 2) m,
      opctr := leAt p 4 4 } }) := by
  subst hp hm
  refine (secureNow_next h ?_ : execKeyRegister q s = _)
  dsimp only
  rw [if_neg hlife, if_neg (by simp [hsigned]), if_neg (by simp [hfresh]), if_neg (not_le.2 hslot)]

theorem exec_debugLock (h : SecureAccepted q Op.DEBUG_LOCK s c) (hlower : c.opnd 0 1 < (started q s).adnt.debug) :
    exec (.debugLock q) s = .next (endHead q St.OK 0 0
      (raiseInt blkAdnt 4 { started q s with adnt := { (started q s).adnt with debug := c.opnd 0 1 } })) :=
  (secureNow_next h (if_neg (not_le.2 hlower)) : execDebugLock q s = _)

theorem exec_certInstall {cert : Bytes} {t : State} (h : SecureAccepted q Op.CERT_INSTALL s c)
    (hcert : cert = c.body.take (min 4096 (derLength c.body))) (hid : (started q s).adnt.idValid = true)
    (hkey : Config.certKey cert = some (started q s).adnt.idMod) (hnvm : nvmGood (started q s) = (true, t)) :
    exec (.certInstall q) s = .next (endHead q St.OK 0 0 { putIdField 3 cert t with
      adnt := { (putIdField 3 cert t).adnt with cert := cert, certOk := true } }) := by
  subst hcert
  refine (secureNow_next h ?_ : execCertInstall q s = _)
  dsimp only
  rw [if_neg (by simpa using hid), if_neg (not_not.2 hkey), hnvm]

/-! ## Presence (R407, R408) -/

theorem exec_presRequest {op arg : Nat} {o : Bytes} (h : SecureAccepted q Op.PRES_REQUEST s c) (hidle : (started q s).adnt.window = none)
    (hop : op = c.opnd 0 1) (harg : arg = c.opnd 1 1) (hlo : 1 ≤ op) (hhi : op ≤ 5) (hlife : (started q s).lc ≠ .retired)
    (hauth : presAuth op arg c.body (started q s) = 0)
    (ho : o = if op = 2 ∨ op = 3 ∨ op = 5 then fetchObj (started q s) op (c.opnd 8 8) (c.opnd 16 8) else [])
    (hobj : presObject op arg (slice c.body 38 32) o (started q s) = 0) :
    exec (.presRequest q) s = .next (raiseInt blkAdnt 3 { started q s with adnt := { (started q s).adnt with
      window := some { op := op, arg := arg, queue := q, cid := c.cid, obj := o, out := c.opnd 8 8, since := (started q s).now, hold := none },
      opctr := leAt c.body 0 4 } }) := by
  subst hop harg ho
  refine (secure_next h : execPresRequest q s = _).trans ?_
  dsimp only
  rw [if_neg (by simpa using hidle), if_neg (by omega), if_neg (not_not.2 hauth), if_neg (not_not.2 hobj), if_neg hlife]

end

section
variable {w : PresWindow} {s : State} (hw : s.adnt.window = some w) (hlive : s.live = true)
include hw hlive

theorem exec_presenceQualified {t : State} {hold : Nat} (hhold : w.hold = some hold) (hfits : hold + seconds 2 ≤ w.since + seconds 30)
    (hdue : hold + seconds 2 ≤ s.now) (heffect : presEffect w { s with adnt := { s.adnt with window := none } } = (true, t)) :
    exec .presenceQualified s = .next (raiseInt blkAdnt 3 (endCid w.queue w.cid St.OK 0 0 t)) := by
  show execPresenceQualified s = _
  unfold execPresenceQualified
  rw [hw]
  refine (when_next (by simp [hlive, PresWindow.holdFits, hhold, hfits, hdue])).trans ?_
  rw [heffect]
  rfl

theorem exec_presenceTimeout (hover : w.since + seconds 30 ≤ s.now)
    (hlate : ∀ hold, w.hold = some hold → w.since + seconds 30 < hold + seconds 2) :
    exec .presenceTimeout s = .next (raiseInt blkAdnt 3 (endCid w.queue w.cid St.PRESENCE_TIMEOUT 0 0
      (count Reg.ADNT_PRESFAIL 32 1 { s with adnt := { s.adnt with window := none } }))) := by
  have hfits : w.holdFits = false := by
    unfold PresWindow.holdFits
    split
    · exact decide_eq_false (not_le.2 (hlate _ ‹_›))
    · rfl
  show execPresenceTimeout s = _
  unfold execPresenceTimeout
  rw [hw]
  exact when_next (by simp [hlive, hover, hfits])

end

/-! ## The boot key and the seal (R394, R409, R410) -/

theorem exec_bekReady {s : State} (hlive : s.live = true) (hid : s.adnt.idValid = true) (hbek : s.adnt.bekReady = false) :
    exec .bekReady s = .next (bekWaiters { s with
      trngCtr := s.trngCtr + 1,
      adnt := { s.adnt with
        bekPub := (Config.rsaKeyGen s.trngCtr).1, bekPriv := (Config.rsaKeyGen s.trngCtr).2, bekReady := true } }) :=
  (when_next (by simp [hlive, hid, hbek]) : execBekReady s = _)

section
variable {b : Bool} {s : State} (hon : sealOn s = true)
include hon

theorem exec_sealSample_agrees : exec (.sealSample s.adnt.sealBit) s = .next { (draw64 s).2 with adnt := { (draw64 s).2.adnt with
    sealBit := (draw64 s).1.getLsbD 0, sealMiss := 0, sealChk := true, sealSince := true, sealOk := true } } := by
  refine (when_next hon : execSealSample s.adnt.sealBit s = _).trans ?_
  simp only [if_true]
  rfl

theorem exec_sealSample_breaks {u : State} (hdiffers : b ≠ s.adnt.sealBit) (hmiss : s.adnt.sealMiss = 1) (hok : s.adnt.sealOk = true)
    (hu : u = { (draw64 s).2 with adnt := { (draw64 s).2.adnt with
      sealBit := (draw64 s).1.getLsbD 0, sealMiss := 2, sealChk := true, sealSince := true, sealOk := false } }) :
    exec (.sealSample b) s = .next (sealFinding (sealBreak u)) := by
  subst hu
  refine (when_next hon : execSealSample b s = _).trans ?_
  simp only [if_neg hdiffers, hmiss, hok]
  rfl

end

/-- Settles O49: one lemma per command and branch. -/
theorem securityCommandsComplete : Obligations.SecurityCommandsComplete := by
  rintro q c s _ rfl
  refine ⟨fun h hlife halign hbek => exec_attest_ready h hlife halign hbek, fun j g key h hlife hbek hj hg hfree hkey hgrant => ?opens,
    fun h hlife halign hbek => exec_attest_waits h hlife halign hbek, fun h hlife hbek => exec_sessionOpen_waits h hlife hbek,
    fun p m h hp hlife hsigned hfresh hslot hm => exec_keyRegister h hp hlife hsigned hfresh hslot hm,
    fun op arg o h hidle hop harg hlo hhi hlife hauth ho hobj => exec_presRequest h hidle hop harg hlo hhi hlife hauth ho hobj,
    fun w hw hlive => ⟨fun t hold hhold hfits hdue heffect => exec_presenceQualified hw hlive hhold hfits hdue heffect,
      fun hover hlate => exec_presenceTimeout hw hlive hover hlate⟩,
    fun low hans => (when_next hans : execPresenceNChange low s = _), exec_debugLock,
    fun cert t h hcert hid hkey hnvm => exec_certInstall h hcert hid hkey hnvm,
    exec_bekReady, exec_sealSample_agrees, fun b u hon hdiffers hmiss hok hu => exec_sealSample_breaks hon hdiffers hmiss hok hu⟩
  case opens =>
    subst hj hg
    exact (exec_sessionOpen_ready h hlife hbek).trans (congrArg _ (sessionNow_opens hfree hkey hgrant))

end Sys2Proof.Machine
end

section
/-! SUPPORT. Joining a job and the debug port (R405, R406, R413, R415 to R417). -/

namespace Sys2Proof.Machine

/-! ## The debug port's gate -/

section
variable {level : Nat} {f : DbgSel → State → State} {s : State} (hans : s.answers = true)
include hans

theorem debugOp_refused {e : Nat} (he : dbgError s.dbgSel level s = e) (hne : e ≠ 0) : debugOp level f s = .next (dbgEnd e s) := by
  subst he
  exact (when_next hans).trans (congrArg _ (if_pos hne))

theorem debugOp_admitted (h0 : dbgError s.dbgSel level s = 0) : debugOp level f s = .next (f s.dbgSel s) :=
  (when_next hans).trans (congrArg _ (if_neg (not_not.2 h0)))

/-- Work of the debug port that reaches memory is done as such work is. -/
theorem debugOp_done {i : Instr} {g : DbgSel → State → State} {u : State} (h0 : dbgError s.dbgSel level s = 0) (hu : u = g s.dbgSel (unused s))
    (hr : usesReady u) : debugOp level (fun d => poweredBy i (g d)) s = .next (done s u) := by
  subst hu
  exact (debugOp_admitted hans h0).trans (congrArg _ (poweredBy_done hr))

end

theorem dbgError_night {d : DbgSel} {level : Nat} {s : State} (hcls : d.cls ≤ 6) (hnight : s.power.night ≠ .none) : dbgError d level s = 2 := by
  unfold dbgError
  rw [if_neg (by omega), if_pos hnight]

theorem dbgError_level {d : DbgSel} {level : Nat} {s : State} (hcls : d.cls ≤ 6) (hawake : s.power.night = .none) (hlevel : s.adnt.debug < level) :
    dbgError d level s = 1 := by
  unfold dbgError
  rw [if_neg (by omega), if_neg (not_not.2 hawake), if_pos hlevel]

/-- The level a debug operation needs (R413): Observe for a read of a state space, Invade for the others. -/
def dbgLevel (i : Instr) (s : State) : Nat := if i = .dbgRead ∧ s.dbgSel.cls ≤ 3 then 1 else 2

/-- Every debug operation passes the gate at its level. -/
theorem exec_debugOp {i : Instr} (h : i ∈ [.dbgRead, .dbgWrite, .dbgHalt, .dbgRun, .dbgStep]) (s : State) :
    ∃ f, exec i s = debugOp (dbgLevel i s) f s := by
  simp only [List.mem_cons, List.not_mem_nil, or_false] at h
  rcases h with rfl | rfl | rfl | rfl | rfl <;>
    simp only [exec, execDbgRead, execDbgWrite, execDbgHalt, execDbgRun, execDbgStep, dbgLevel, true_and, reduceCtorEq, false_and, if_false] <;>
    exact ⟨_, rfl⟩

/-- Settles O51: the gate turns the operation away for Night (`dbgError_night`) or for its level (`dbgError_level`), whatever it would do. -/
theorem debugNeedsItsLevel : Obligations.DebugNeedsItsLevel := by
  intro i s hi hans hcls
  obtain ⟨f, hexec⟩ := exec_debugOp hi s
  rw [hexec]
  refine ⟨fun hawake hlow => ?level, fun hnight => debugOp_refused hans (dbgError_night hcls hnight) (by decide)⟩
  case level =>
    have hbelow : s.adnt.debug < dbgLevel i s := by
      unfold dbgLevel
      rcases hlow with h0 | ⟨h1, hop⟩
      · split <;> omega
      · rw [if_neg fun ⟨hread, hspace⟩ => hop.elim (· hread) (not_lt.2 hspace), h1]
        decide
    exact debugOp_refused hans (dbgError_level hcls hawake hbelow) (by decide)

/-! ## The debug port's work -/

section
variable {s t u : State} (hans : s.answers = true)
include hans

theorem exec_dbgRead {v : Nat} (h0 : dbgError s.dbgSel (if s.dbgSel.cls ≤ 3 then 1 else 2) s = 0)
    (hload : dbgLoad s.dbgSel (unused s) = some (v, t)) (hu : u = dbgEnd 0 (setReg Reg.ADNT_DBGDATA v t)) (hr : usesReady u) :
    exec .dbgRead s = .next (done s u) := by
  refine (debugOp_done hans h0 ?_ hr : execDbgRead s = _)
  rw [hload, hu]

theorem exec_dbgWrite (h0 : dbgError s.dbgSel 2 s = 0) (hstore : dbgStore s.dbgSel (regRaw s Reg.ADNT_DBGDATA) (unused s) = some t)
    (hu : u = dbgEnd 0 t) (hr : usesReady u) : exec .dbgWrite s = .next (done s u) := by
  have hstore' : dbgStore s.dbgSel (regRaw (unused s) Reg.ADNT_DBGDATA) (unused s) = some t := hstore
  refine (debugOp_done hans h0 ?_ hr : execDbgWrite s = _)
  rw [hstore', hu]

section
variable (h0 : dbgError s.dbgSel 2 s = 0) (hcore : s.dbgSel.cls ≤ 3)
include h0 hcore

theorem exec_dbgHalt (hruns : dbgHalted s.dbgSel s = false) : exec .dbgHalt s = .next (dbgEnd 0 (setHalt s.dbgSel true s)) := by
  refine (debugOp_admitted hans h0 : execDbgHalt s = _).trans ?_
  rw [if_neg (by omega), if_neg (by simp [hruns])]

theorem exec_dbgRun (hhalted : dbgHalted s.dbgSel s = true) : exec .dbgRun s = .next (dbgEnd 0 (setHalt s.dbgSel false s)) := by
  refine (debugOp_admitted hans h0 : execDbgRun s = _).trans ?_
  rw [if_neg (by omega), if_pos hhalted]

theorem exec_dbgStep (hhalted : dbgHalted s.dbgSel s = true) (hu : u = dbgEnd 0 (stepHalted s.dbgSel (unused s))) (hr : usesReady u) :
    exec .dbgStep s = .next (done s u) := by
  have hhalted' : dbgHalted s.dbgSel (unused s) = true := hhalted
  refine (debugOp_done hans h0 ?_ hr : execDbgStep s = _)
  rw [if_neg (by omega), if_neg (by simp [hhalted']), hu]

end

end

/-! ## Joining -/

section
variable {typ : Nat} {m : Msg} {s s1 u : State} (hlinked : s.linked = true) (hup : (s.port m.port).up = true) (hdst : m.dst.toNat = s.addr)
  (hkind : msgTyp m = typ) (hclear : m.enc = false) (hjob : m.jobid.toNat = 0) (hframe : (msgFrame s m).isSome = true)
include hlinked hup hdst hkind hclear hjob hframe

/-- A message of the devices that the device takes acts, when what its work stands on is there. -/
theorem receiveDevice_done {i : Instr} {ident : List Nat} {f : Msg → State → State} (hlisted : listedType typ = true)
    (hfresh : takeIdent 64 typ ident (unused s) = some s1) (hu : u = f m s1) (hr : usesReady u) :
    receiveDevice i typ m ident f s = .next (done s u) := by
  refine whenP_done_of (by simp [hlinked, hup, hdst, hkind]) ?_ hr
  rw [if_neg (by simp [hjob]), if_neg (by simp [hkind, hlisted, hclear]), if_neg (by simp [Option.isSome_iff_ne_none.1 hframe]), hfresh, hu]

theorem exec_joinReq (htyp : typ = 0x80) (hfresh : takeIdent 64 typ [m.src.toNat, leAt m.hdr 2 4] (unused s) = some s1)
    (hu : u = joinReqHere m s1) (hr : usesReady u) : exec (.joinReq m) s = .next (done s u) := by
  subst htyp
  exact (receiveDevice_done hlinked hup hdst hkind hclear hjob hframe rfl hfresh hu hr : execJoinReq m s = _)

theorem exec_joinAck {j lead : Nat} {y : Job} (htyp : typ = 0x81)
    (hfresh : takeIdent 64 typ [m.src.toNat, leAt m.hdr 2 4] (unused s) = some s1) (hctx : ctxWith s1 (leAt m.hdr 2 4) = some j)
    (hjoining : (s1.session j).state = .joining) (hlead : lead = if (s1.session j).spare then 1 else 0) (hy : s1.job? j = some y)
    (hfrom : y.addrOf lead = m.src.toNat) (hresult : leAt m.hdr 6 1 = 0)
    (hreport : reportOk s1 j lead m.src.toNat m.body (leAt m.hdr 8 2) = true) (hu : u = joined j s1) (hr : usesReady u) :
    exec (.joinAck m) s = .next (done s u) := by
  subst htyp hlead
  refine (receiveDevice_done hlinked hup hdst hkind hclear hjob hframe rfl hfresh ?_ hr : execJoinAck m s = _)
  simp only [hctx, hy, Option.map_some]
  rw [if_neg (by simp [hjoining, hfrom]), if_neg (by simp [hresult]), if_pos hreport, hu]

end

theorem exec_joinTimeout {j : Fin 64} {s : State} (hlive : s.live = true) (hresident : s.resident j = true)
    (hjoining : (s.session j).state = .joining) (hdue : (s.session j).admitted + seconds (regField s Reg.ADNT_CFG 7 0) ≤ s.now) :
    exec (.joinTimeout j) s = .next (joinFailed j 0xFFFF s) :=
  when_next (by simp [hlive, hresident, hjoining, hdue])

/-- Settles O50: the two messages are received as messages of the devices (`receiveDevice_done`); the debug operations pass their gate. -/
theorem joinAndDebugComplete : Obligations.JoinAndDebugComplete := by
  intro m s s1
  refine ⟨fun typ u hlinked hup hdst hkind hclear hjob hframe hfresh hr => ⟨?joinReq, ?joinAck⟩,
    fun j hlive hresident hjoining hdue => exec_joinTimeout hlive hresident hjoining hdue, ?debug⟩
  case joinReq => exact fun htyp hu => exec_joinReq hlinked hup hdst hkind hclear hjob hframe htyp hfresh hu hr
  case joinAck =>
    exact fun j lead y htyp hctx hjoining hlead hy hfrom hresult hreport hu =>
      exec_joinAck hlinked hup hdst hkind hclear hjob hframe htyp hfresh hctx hjoining hlead hy hfrom hresult hreport hu hr
  case debug =>
    rintro _ t rfl hans
    exact ⟨fun v u h0 hload hu hr => exec_dbgRead hans h0 hload hu hr, fun u h0 hstore hu hr => exec_dbgWrite hans h0 hstore hu hr,
      fun h0 hcore hruns => exec_dbgHalt hans h0 hcore hruns,
      fun h0 hcore hhalted => ⟨exec_dbgRun hans h0 hcore hhalted, fun u hu hr => exec_dbgStep hans h0 hcore hhalted hu hr⟩⟩

end Sys2Proof.Machine
end

section
/-! SUPPORT. Before power-good, the stages of Dawn, the resets and the failures that end in FATAL; the end of a pass (R73, R421 to R437, R457,
R466, R482 to R484). -/

namespace Sys2Proof.Machine

/-! ## Before power-good -/

/-- Settles O53: each field is the reset's own, and the idle step is a cycle of the base, which an unpowered device does not count.
The debug level and the lifecycle, which its words name, are not in the statement. -/
theorem resetState : Obligations.ResetState :=
  ⟨rfl, rfl, rfl, rfl, rfl, rfl, step_nil rfl⟩

/-! ## Stages that wait for their draws (R421, R430) -/

theorem afterDraws_next {n : Nat} {f : State → State} {s t : State} (hat : atStage n s = true) (ht : t = awaitStanding 4096 s)
    (hasking : asking .topUp t = false) (hstill : atStage n t = true) : afterDraws n f s = .next (f t) := by
  subst ht
  refine (when_next hat).trans ?_
  dsimp only
  rw [if_neg (by simp [hasking, hstill])]

theorem exec_dawnTickLock {s : State} (hat : atStage 8 s = true) (hlock : s.clk.lock ≠ .acquiring) :
    exec .dawnTickLock s = .next (clockSet s) :=
  (when_next (by simp [hat, hlock]) : execDawnTickLock s = _)

theorem exec_dawnStageLimit {s : State} (hlive : s.live = true) (hearly : s.dawn.outcome = 0) : exec .dawnStageLimit s = .next (stageLimit s) :=
  (when_next (by simp [hlive, hearly]) : execDawnStageLimit s = _)

theorem exec_powerGood {s : State} (hoff : s.dawn.powered = false) : exec .powerGood s = .next (startDawn s) :=
  (when_next (by simp [hoff]) : execPowerGood s = _)

/-! ## Resets (R483) -/

/-- A pulse acts from a length on. -/
theorem when_long {least ns : Nat} {f : State → State} {s : State} :
    when (decide (ns ≥ least)) f s = .next (if least ≤ ns then f s else s) := by
  unfold when
  simp only [decide_eq_true_eq, ge_iff_le]

/-! ## Failures that end in FATAL (R377, R466) -/

theorem exec_ledgerFault {s : State} (hlive : s.live = true) (hon : s.ledger.on = true) :
    exec .ledgerFault s = .next (enterFatal { code := 0x00F2, arg0 := s.ledger.held, arg1 := ledgerSum s } s) :=
  (when_next (by simp [hlive, hon]) : execLedgerFault s = _)

/-! ## The end of a pass (R61, R62, R86) -/

theorem exec_passEnd {t : Fin 8} {p : Pass} {r : List Pass} {x1 : Tile} {st cells : Nat} {s s1 s2 s3 : State}
    (hpasses : (s.tile t).passes = p :: r) (hclk : s.clocked = true) (hgood : passPoisoned (s.tile t) p = false)
    (happly : passApply (s.tile t) p = (x1, st)) (hcells : cells = gatedCells p)
    (hs1 : s1 = { s with tiles := Tbl.put s.tiles t { x1 with passes := r, closes := x1.closes.map fun c => { c with after := c.after - 1 } } })
    (hs2 : s2 = count (Reg.TILE_PASSES t) 64 (piecePasses p.blk.split).length (count (Reg.TILE_ZGATE t) 64 cells s1))
    (hs3 : s3 = clashWith t p.blk.owner p.afSpans (gateCredit t p cells (tileNstat t p.blk.owner p.cid st s2))) :
    exec (.passEnd t) s = .next (runCloses t (retire t p.blk.owner.num p.blk.job p.cid p.word.toNat false
      (bankEvents t (undefine t (foreign t p.blk.owner p.afSpans s ++ p.hit) s3)))) := by
  subst hs3 hs2 hs1 hcells
  show execPassEnd t s = _
  unfold execPassEnd
  rw [hpasses]
  refine (when_next hclk).trans ?_
  dsimp only
  rw [if_neg (by simp [hgood]), happly]

/-- Settles O52: a stage's event at its stage is carried out, after the draws it waits for (`afterDraws_next`); the others are one guard each. -/
theorem dawnStagesComplete : Obligations.DawnStagesComplete := by
  intro s
  refine ⟨exec_powerGood, fun hat => (when_next hat : execDawnBootVerify s = _), fun hat => (when_next hat : execDawnIdentity s = _),
    fun hat => (when_next hat : execDawnManifest s = _), fun n t hat ht hasking hstill => ⟨?training, ?march, ?census⟩,
    fun f hat => (when_next hat : execDawnFirmware f s = _), exec_dawnTickLock, fun hat => (when_next hat : execDawnOutcome s = _),
    exec_dawnStageLimit, rfl, fun ns => (when_long : execResetN ns s = _), fun ns => (when_long : execPerstN ns s = _), rfl,
    fun b c hlive => (when_next hlive : execCoreFailed b c s = _), exec_ledgerFault,
    fun t p r x1 st cells s1 s2 s3 hpasses hclk hgood happly hcells hs1 hs2 hs3 =>
      exec_passEnd hpasses hclk hgood happly hcells hs1 hs2 hs3⟩
  case training => rintro f rfl; exact (afterDraws_next hat ht hasking hstill : execDawnStackTraining f s = _)
  case march => rintro f rfl; exact (afterDraws_next hat ht hasking hstill : execDawnSramMarch f s = _)
  case census => rintro f rfl; exact (afterDraws_next hat ht hasking hstill : execDawnLinkCensus f s = _)

end Sys2Proof.Machine
end

section
/-! SUPPORT. The exporter's commands, the keeper's side, RANK_MOVE and RESTORE, and self-test, one lemma per command (R443 to R455, R467). -/

namespace Sys2Proof.Machine

/-! ## The exporter's commands (R443, R451, R452) -/

section
variable {q : Fin 128} {c : Cmd} {x : Job} {s : State}

theorem exec_exportSet {ks : List Keeper} (h : Accepted q Op.EXPORT_SET s c) (hx : (started q s).job? c.job = some x)
    (hks : ks = (List.range (c.opnd 0 1)).map (fun i => keeperOf (c.opndBytes (16 + 16 * i) 16))) (hn : c.opnd 0 1 ≤ 2)
    (hlag : 2 ≤ c.opnd 1 1) (hlag' : c.opnd 1 1 ≤ 64) (hkeep : 16 ≤ c.opnd 2 2) (hkeep' : c.opnd 2 2 ≤ 1024) (hsweep : 16 ≤ c.opnd 4 4)
    (hsweep' : c.opnd 4 4 ≤ 1024) (hok : ks.all (keeperOk (started q s) c.job x) = true) (hbusy : sweepBusy (started q s) c.job = false) :
    exec (.exportSet q) s = .next (dlxJob c.job (fun d => { d with
      setReq := d.setReq ++ [(ks, c.opnd 1 1, c.opnd 2 2, c.opnd 4 4, q.val, c.cid)] }) (started q s)) := by
  subst hks
  refine (job_next h.head h.job : execExportSet q s = _).trans ?_
  simp only [hx]
  rw [if_neg (by simp [hn, hlag, hlag', hkeep, hkeep', hsweep, hsweep']; simpa using hok), if_neg (ne_true_of_eq_false hbusy)]

theorem exec_exportBase (h : Accepted q Op.EXPORT_BASE s c) (hbusy : sweepBusy (started q s) c.job = false) :
    exec (.exportBase q) s = .next (dlxJob c.job (fun d => { d with baseReq := d.baseReq ++ [(q.val, c.cid)] }) (started q s)) :=
  (job_next h.head h.job : execExportBase q s = _).trans (congrArg _ (if_neg (ne_true_of_eq_false hbusy)))

theorem exec_keepRegion (h : Accepted q Op.KEEP_REGION s c) (hx : (started q s).job? c.job = some x) (hrank : c.opnd 0 2 < x.ndev)
    (hother : c.opnd 0 2 ≠ x.rank) (hleast : regionLeast (c.opnd 8 6) = true) (hend : c.opnd 2 6 + c.opnd 8 6 ≤ rangeBytes) :
    exec (.keepRegion q) s = .next (endHead q St.OK 0 0 { started q s with dlx := { (started q s).dlx with
      regions := ((started q s).dlx.regions.filter fun k => !(decide (k.job = c.job) && decide (k.src = c.opnd 0 2))) ++
        [{ job := c.job, src := c.opnd 0 2, addr := c.opnd 2 6, bytes := c.opnd 8 6, frames := [] }] } }) := by
  show execKeepRegion q s = _
  unfold execKeepRegion runJobNow
  rw [job_next h.head h.job]
  simp only [hx]
  rw [if_neg (by simp [hleast, hother, Nat.not_le.2 hrank, Nat.not_lt.2 hend])]

theorem exec_restore (h : Accepted q Op.RESTORE s c) (hx : (started q s).job? c.job = some x)
    (hjoined : ((started q s).session c.job).state = .joined) (hrank : c.opnd 0 2 = x.rank) (hsrc : c.opnd 2 1 ≤ 1)
    (hkeeper : c.opnd 2 1 = 0 ∨ (c.opnd 4 2 < x.ndev ∧ c.opnd 4 2 ≠ x.rank)) (hregion : regionOk (c.opnd 16 8) = true)
    (hend : c.opnd 8 8 + c.opnd 16 8 ≤ rangeBytes) (halone : othersSuspended (started q s) c = true) :
    exec (.restore q) s = .next (restoreStart q c (started q s)) := by
  have hfrom : (decide (c.opnd 2 1 = 0) || (decide (c.opnd 4 2 < x.ndev) && decide (c.opnd 4 2 ≠ x.rank))) = true := by simpa using hkeeper
  refine (job_next h.head h.job : execRestore q s = _).trans ?_
  simp only [hx]
  rw [if_neg (by simp only [hfrom]; simp [hjoined, hrank, hsrc, hregion, hend]), if_neg (by simp [halone])]

/-- What a rank leaves behind as it moves: the slots it held, its flows, its closes and its part of the layers (R451). -/
def rankMoved (c : Cmd) (x : Job) (s : State) : State :=
  let s2 := moveSlots c.job (c.opnd 0 2) x (moveFlows c.job (c.opnd 0 2)
    (updJob c.job (fun x => { x with ranks := x.ranks.set (c.opnd 0 2) (c.opnd 2 2) }) s))
  let s3 := s2.emb.tables.foldl (fun s p => moveCloses c.job (c.opnd 0 2) p.1 s) s2
  s3.dtr.layers.foldl (fun s p => if p.1 / 65536 = c.job then moveLayer c.job (p.1 % 65536) s else s) s3

theorem exec_rankMove {u : State} (h : Accepted q Op.RANK_MOVE s c) (hx : (started q s).job? c.job = some x) (hrank : c.opnd 0 2 < x.ndev)
    (hother : c.opnd 0 2 ≠ x.rank) (halone : othersSuspended (started q s) c = true)
    (hu : u = endHead q St.OK 0 0 (rankMoved c x (started q (unused s)))) (hr : usesReady u) :
    exec (.rankMove q) s = .next (done s u) := by
  have hx' : (started q (unused s)).job? c.job = some x := hx
  have halone' : othersSuspended (started q (unused s)) c = true := halone
  show execRankMove q s = _
  unfold execRankMove runJobNowP
  refine jobP_done_of h.head h.job ?_ hr
  simp only [hx']
  rw [if_neg (by omega), if_neg (by simp [halone']), hu]
  rfl

end

/-! ## The keeper's messages (R446, R447) -/

section
variable {m : Msg} {j r : Nat} {s s1 u : State} (hr : usesReady u)
include hr

section
variable {k : KeepRegion} (hk : regionOf s1 j r = some k)
include hk

theorem exec_dlxRec (h : Takes 0x70 m (some [m.src.toNat, leAt m.hdr 4 6, leAt m.hdr 10 4]) j r s s1)
    (hu : u = updRegion j r (fun y => { y with
      frames := y.frames.filter (fun y => decide (y.1 ≠ (keptFrame k (leAt m.hdr 4 6)).1)) ++
        [((keptFrame k (leAt m.hdr 4 6)).1, (keptFrame k (leAt m.hdr 4 6)).2.1 + 1,
          (keptFrame k (leAt m.hdr 4 6)).2.2.1 ^^^ crc64 (slice m.hdr 0 32 ++ m.body),
          (keptFrame k (leAt m.hdr 4 6)).2.2.2 || !(keepEntry j k m s1).1)] }) (keepEntry j k m s1).2) :
    exec (.dlxRec m) s = .next (done s u) := by
  refine (takes_done_of (ident := fun m => some [m.src.toNat, leAt m.hdr 4 6, leAt m.hdr 10 4]) h rfl ?_ hr : execDlxRec m s = _)
  rw [hk, hu]

theorem exec_dlxClose (h : Takes 0x71 m (some [m.src.toNat, leAt m.hdr 4 6]) j r s s1) (hkept : (keepEntry j k m s1).1 = true)
    (hwhole : (keptFrame k (leAt m.hdr 4 6)).2 = (leAt m.hdr 10 4, leAt m.hdr 14 8, false))
    (hu : u = sendTo j m.src.toNat 2 (dlxAckHdr (leAt m.hdr 4 6) 0) [] {}
      (updRegion j r (fun k => { k with frames := k.frames.filter fun y => decide (y.1 ≠ leAt m.hdr 4 6) }) (keepEntry j k m s1).2)) :
    exec (.dlxClose m) s = .next (done s u) := by
  refine (takes_done_of (ident := fun m => some [m.src.toNat, leAt m.hdr 4 6]) h rfl ?_ hr : execDlxClose m s = _)
  simp only [hk, hkept, hwhole, hu]
  rfl

end

theorem exec_dlxAck {n : Nat} {t2 : State} (h : Takes 0x72 m none j r s s1) (hgood : leAt m.hdr 10 1 = 0)
    (hkeeper : ((Tbl.look? s1.dlx.jobs j).bind fun d =>
      d.keepers.findIdx? fun x => decide (x.kind = 1) && decide (x.rank = r) && !x.lost) = some n)
    (hfresh : takeIdent j 0x72 [m.src.toNat, leAt m.hdr 4 6]
      (protoAck m.src.toNat (fun t => decide (leAt t.hdr 0 2 = 0x71) && decide (leAt t.hdr 4 6 = leAt m.hdr 4 6)) s1) = some t2)
    (hu : u = dlxPump j (dlxAcked j n (leAt m.hdr 4 6) t2)) : exec (.dlxAck m) s = .next (done s u) := by
  refine (takes_done_of (ident := fun _ => none) h rfl ?_ hr : execDlxAck m s = _)
  dsimp only
  rw [hkeeper]
  dsimp only
  rw [hgood, if_neg (by decide), if_neg (by decide), hfresh, hu]

end

/-! ## Lost keepers, the host's keeper and the draws (R448, R454, R455) -/

theorem exec_keeperTimeout {j : Fin 64} {k : Fin 2} {d : DlxJob} {y : Keeper} {s : State} (hd : Tbl.look? s.dlx.jobs j = some d)
    (hy : d.keepers[k.val]? = some y) (hclk : s.clocked = true) (hlost : y.lost = false) (hdue : y.since + d.keepTo ≤ s.clk.fnum) :
    exec (.keeperTimeout j k) s = .next (loseKeeper j k 2 s) := by
  show execKeeperTimeout j k s = _
  unfold execKeeperTimeout
  simp only [hd, hy]
  exact when_next (by simp [hclk, hlost, hdue])

theorem exec_dlxKhead {wide high : Bool} {v : Word64} {y : Keeper} {s : State} (hserved : s.served = true)
    (hy : ((Tbl.look? s.dlx.jobs s.dlxSel.1).bind fun d => d.keepers[s.dlxSel.2]?) = some y) (hhost : y.kind = 2) :
    exec (.dlxKhead wide high v) s = .next (dlxPump s.dlxSel.1
      (updKeeper s.dlxSel.1 s.dlxSel.2 (fun x => { x with head := halfWrite x.head wide high v.toNat % 2 ^ 48 }) s)) := by
  refine (when_next hserved : execDlxKhead wide high v s = _).trans ?_
  simp only [hy]
  rw [if_neg (not_not.2 hhost)]

theorem exec_exporterDrawReturn {s u : State} (hlive : s.live = true) (hheld : holds .exporter s = true)
    (hu : u = runUntil (s.dlx.sentAt + 64000) s) (hlive' : u.live = true) (hheld' : holds .exporter u = true)
    (hdue : u.dlx.sentAt + 64000 ≤ u.now) : exec .exporterDrawReturn s = .next (ledgerReturn .exporter u) := by
  subst hu
  refine (instant_next (by simp [hlive, hheld]) (by simp [hlive', hheld']) : execExporterDrawReturn s = _).trans ?_
  rw [if_neg (not_lt.2 hdue)]

/-! ## Self-test (R467) -/

theorem exec_selftest {q : Fin 128} {c : Cmd} {t : SelfTest} {s : State} (h : runnable q Op.SELFTEST s = some c)
    (ht : selfTestOf q c = some t) (hidle : (started q s).flt.selftest = none) (hfree : t.kind ≠ 1 ∨ tileHeld t.index (started q s) = false) :
    exec (.selftest q) s = .next { started q s with flt := { (started q s).flt with selftest := some t } } := by
  have hbusy : ((started q s).flt.selftest.isSome || (decide (t.kind = 1) && tileHeld t.index (started q s))) = false := by
    rw [hidle]
    rcases hfree with hkind | hheld
    · simp [hkind]
    · simp [hheld]
  refine (head_next h : execSelftest q s = _).trans ?_
  simp only [ht]
  rw [if_neg (ne_true_of_eq_false hbusy)]

theorem exec_selftestStep {failed : Bool} {a : BitVec 64} {s u : State} (hu : u = runUntil (s.atPos (stepAt s)) s)
    (hready : stepReady s = true) (hready' : stepReady u = true) (hdue : stepAt u ≤ u.pos) :
    exec (.selftestStep failed a) s = .next (selfTestStep failed a.toNat u) := by
  subst hu
  exact (instant_next hready hready' : execSelftestStep failed a s = _).trans (congrArg _ (if_neg (not_lt.2 hdue)))

/-- Settles O47: one lemma per command, message and event. -/
theorem exportCommandsComplete : Obligations.ExportCommandsComplete := by
  rintro q c x s _ rfl
  refine ⟨fun ks h hx hks hn hlag hlag' hkeep hkeep' hsweep hsweep' hok hbusy =>
      exec_exportSet h hx hks hn hlag hlag' hkeep hkeep' hsweep hsweep' hok hbusy,
    fun h hx hrank hother hleast hend => exec_keepRegion h hx hrank hother hleast hend, fun h hbusy => exec_exportBase h hbusy,
    fun h hx hjoined hrank hsrc hkeeper hregion hend halone => exec_restore h hx hjoined hrank hsrc hkeeper hregion hend halone,
    fun s2 s3 u h hx hrank hother halone hs2 hs3 hu hr => ?rankMove, fun m j r t t1 u k ht hr => ?messages,
    fun j k d y hd hy hclk hlost hdue => exec_keeperTimeout hd hy hclk hlost hdue,
    fun wide high v y hserved hy hhost => exec_dlxKhead hserved hy hhost,
    fun u hlive hheld hu hlive' hheld' hdue => exec_exporterDrawReturn hlive hheld hu hlive' hheld' hdue,
    fun t h ht hidle hfree => exec_selftest h ht hidle hfree,
    fun failed a u hu hready hready' hdue => exec_selftestStep hu hready hready' hdue⟩
  case rankMove =>
    subst hs3 hs2
    exact exec_rankMove h hx hrank hother halone hu hr
  case messages =>
    exact ⟨fun h hk hu => exec_dlxRec hr hk h hu, fun h hk hkept hwhole hu => exec_dlxClose hr hk h hkept hwhole hu,
      fun n t2 h hgood hkeeper hfresh hu => exec_dlxAck hr h hgood hkeeper hfresh hu⟩

end Sys2Proof.Machine
end
